-- ==== Sys2Proof/Word.lean ====
section
/-! DEFINITION. Word.lean: the widths the manual gives (R8, R9), and one finite map with a canonical form (`Sparse`),
which holds memory, register files and every table of the machine. -/
namespace Sys2Proof

/-- One byte of memory. -/
abbrev Byte := BitVec 8
/-- One 32-bit register (R8). -/
abbrev Word := BitVec 32
/-- A 64-bit value: a register pair, an address, an instruction word (R8, R301). -/
abbrev DWord := BitVec 64
/-- A register field of an instruction word (R301). -/
abbrev RegIx := BitVec 9

/-- A finite map from numbers to values, as a list of (key, value) pairs: keys strictly rising, and no pair whose value
is what an unlisted key reads as. -/
abbrev Sparse (α : Type) := List (Nat × α)

/-- The value at key `k`; `d` is what an unlisted key reads as. -/
def Sparse.get {α : Type} (d : α) : Sparse α → Nat → α
  | [], _ => d
  | (k', v) :: m, k => if k = k' then v else Sparse.get d m k

/-- Remove key `k`. -/
def Sparse.del {α : Type} (m : Sparse α) (k : Nat) : Sparse α := m.filter fun p => p.1 != k

/-- Insert the pair (k, v) in its place. -/
def Sparse.ins {α : Type} (k : Nat) (v : α) : Sparse α → Sparse α
  | [] => [(k, v)]
  | (k', v') :: m => if k < k' then (k, v) :: (k', v') :: m else (k', v') :: Sparse.ins k v m

/-- Put the pair (k, v), whatever v is. -/
def Sparse.put {α : Type} (m : Sparse α) (k : Nat) (v : α) : Sparse α := Sparse.ins k v (Sparse.del m k)

/-- Write `v` at key `k`; writing the unlisted value removes the entry, so the form stays canonical. -/
def Sparse.set {α : Type} [DecidableEq α] (d : α) (m : Sparse α) (k : Nat) (v : α) : Sparse α :=
  if v = d then Sparse.del m k else Sparse.put m k v

/-- The canonical form: keys strictly rising, no entry equal to the unlisted value. -/
def Sparse.wf {α : Type} [DecidableEq α] (d : α) : Sparse α → Bool
  | [] => true
  | (k, v) :: m => decide (v ≠ d) && (match m with | [] => true | (k', _) :: _ => decide (k < k')) && Sparse.wf d m

/-- The numbers 0 to 31: the lanes of a group (R1). -/
def lanes32 : List Nat := List.range 32

end Sys2Proof
end

