-- ==== Sys2Proof/Syntax.lean ====
section
/-! DEFINITION. Syntax.lean: the one inductive `Instr`, a constructor for every row of spec/opcode_table.json. The table
has two kinds of rows: the words of the Epsia instruction set (files 14 to 18), and the events of the device's own agents
and of the outside world (files 01 to 13), which have no encoding and reach the machine through its agenda. -/
namespace Sys2Proof

/-- The operation types of groups 0x0 and 0x1, in the order of V[3:0] (R303). -/
inductive IntTy where
  | s32 | n32 | s64 | n64 | s16 | n16 | s8 | n8 | b32
deriving DecidableEq, Repr

/-- The four binary formats, in the order of V[4:3] (R303, R210). -/
inductive Fmt where
  | f16 | bf16 | f32 | f64
deriving DecidableEq, Repr

/-- The rounding direction of a word: the RM field of %fpctl, or one it names (R303). -/
inductive Dir where
  | rm | rne | rtz | rup | rdn | rna
deriving DecidableEq, Repr

/-- The fields every full-form word carries (R301): guard, guard negate, stall count, retain. -/
structure Hdr where
  gp : BitVec 3
  gn : Bool
  stall : BitVec 4
  ret : BitVec 2
deriving DecidableEq, Repr

/-- The last source of a word of groups 0x0, 0x1, 0x4 to 0x7 (R303, R304): a v register, an immediate, a g register, a g
register of a U-form word, or a literal, of a vector word or of a U-form word. -/
inductive Src where
  | v (r : RegIx)
  | imm (i : BitVec 9)
  | g (r : RegIx)
  | u (r : RegIx)
  | lit (x : DWord)
  | litU (x : DWord)
deriving DecidableEq, Repr

/-- A source of a `kind` field (R397, R405): a v register, the immediate sext(C, 9), a g register. -/
inductive Kind where
  | v (r : RegIx)
  | imm (i : BitVec 9)
  | g (r : RegIx)
deriving DecidableEq, Repr

/-- ISETP comparisons in the order of B[2:0] (R331). -/
inductive Cmp where
  | eq | ne | lt | le | gt | ge
deriving DecidableEq, Repr

/-- Predicate combiners (R331, R361). -/
inductive BoolOp where
  | and | or | xor
deriving DecidableEq, Repr

/-- FSETP comparisons in the order of B[3:0] (R361). -/
inductive FCmp where
  | eq | ne | lt | le | gt | ge | num | nan | equ | neu | ltu | leu | gtu | geu
deriving DecidableEq, Repr

/-- SHFL modes in the order of B[1:0] (R341). -/
inductive ShflMode where
  | idx | rot | xor | shd
deriving DecidableEq, Repr

/-- LSWAP types in the order of MOD[4:3] (R342). -/
inductive SwapTy where
  | b32 | s32 | f32 | f16
deriving DecidableEq, Repr

/-- VOTE modes in the order of MOD[2:0] (R343). -/
inductive VoteMode where
  | mask | count | some | every | same
deriving DecidableEq, Repr

/-- REDUX operations in the order of MOD[2:0] (R344). -/
inductive ReduxOp where
  | add | adds | min | max | and | or | xor | scan
deriving DecidableEq, Repr

/-- A direct branch target (R347, R348): a 27-bit word offset, or a literal. -/
inductive Target where
  | rel (off : BitVec 27)
  | abs (x : DWord)
deriving DecidableEq, Repr

/-- The operand of SLEEP and STEP (R347). -/
inductive Amount where
  | imm (i : BitVec 9)
  | g (r : RegIx)
  | lit (x : DWord)
deriving DecidableEq, Repr

/-- CVT types in code order (R369); `mxi8` is a destination only. -/
inductive CvtTy where
  | s32 | n32 | s64 | n64 | s16 | n16 | s8 | n8 | f16 | bf16 | f32 | f64 | e4m3 | e5m2 | mxi8
deriving DecidableEq, Repr

/-- Scopes in the order of their code (R191, R376). -/
inductive Scope where
  | thr | grp | team | clu | dev | sys
deriving DecidableEq, Repr

/-- Orderings in the order of their code (R192, R376). -/
inductive Ord where
  | plain | rlx | acq | rel | ar | sc
deriving DecidableEq, Repr

/-- Placement hints (R376). -/
inductive Hint where
  | none | ef | nl1
deriving DecidableEq, Repr

/-- The address spaces of LD and ST that reach memory (R377, codes 0 to 5). -/
inductive Space where
  | gen | glb | cst | loc | scr | cscr
deriving DecidableEq, Repr

/-- Raw access widths in code order 0 to 6 (R378). -/
inductive Width where
  | n8 | s8 | n16 | s16 | b32 | n64 | b128
deriving DecidableEq, Repr

/-- Atomic types in the order of MOD[6:4] (R388). -/
inductive AtomTy where
  | s32 | n32 | s64 | n64 | b32 | f32 | f64
deriving DecidableEq, Repr

/-- Atomic operations in the order of MOD[3:0] (R388). -/
inductive AtomOp where
  | add | min | max | and | or | xor | exch | cas | inc | dec
deriving DecidableEq, Repr

/-- MONWAIT and POLL comparisons, unsigned, in the order of B[8:6] (R392). -/
inductive MonCmp where
  | eq | ne | ge | lt
deriving DecidableEq, Repr

/-- Prefetch levels (R386). -/
inductive PrefLvl where
  | l1 | l2 | llc
deriving DecidableEq, Repr

/-- MXCFG modes (R407). -/
inductive MxMode where
  | bf16 | s8 | sp24
deriving DecidableEq, Repr

/-- Widths of program-queue entries (R394, R395). -/
inductive QWidth where
  | b32 | n64 | b128
deriving DecidableEq, Repr

/-- The pair opcodes, in code order 0x00 to 0x25 (R308). -/
inductive PairOp where
  | nop | mov | add | sub | mul | minS | maxS | minN | maxN | and | or | xor | andn | shl | shr | sar
  | fadd | fsub | fmul | fmin | fmax | fadd2b | fmul2b | fadd2h | fmul2h | neg | abs | popc | brev | clz | cvtF | cvtS
  | scrLd | scrSt | locLd | locSt | quePop | quePush
deriving DecidableEq, Repr

/-- One slot of a pair word (R305). -/
structure Slot where
  op : PairOp
  d : RegIx
  a : RegIx
  stall : BitVec 3
  gp : BitVec 3
deriving DecidableEq, Repr

/-- Where an uncorrectable error strikes (R287). -/
inductive ErrPlace where
  | cache (die : Option Nat) (index : Nat)   -- L1, die L2, constant cache, instruction buffer or TLB of a die, at a core; a walker cache of a quadrant
  | regCorrectable (gid lane : Nat)    -- register file, correctable after the read
  | coreState (gid : Nat)              -- core state owned by a group or its team
  | millpond (quadrant : Nat)          -- directory, queues, bins, records, collector
  | home (loc : Nat) (kind agent index : Nat)   -- home slice, HBM4E or carve-out storage
  | corrected (loc : Nat)              -- a correctable error of an LLC or HBM4E array, corrected (R180)
deriving DecidableEq, Repr

/-- AtomicOps an inbound TLP may carry (R48). -/
inductive PcieAtom where
  | fetchAdd | swap | cas
deriving DecidableEq, Repr

/-- A load-store request of a Clovar peer (R62). -/
inductive RemoteOp where
  | load (len : Nat)
  | store (data : List Byte) (poisoned : Bool)
  | atom (op : AtomOp) (ty : AtomTy) (a b : DWord)
  | red (op : AtomOp) (ty : AtomTy) (a : DWord)
deriving DecidableEq, Repr

/-- What the ranks of a collective exchange before data moves (R68). -/
structure CollParams where
  op : Nat
  ty : Nat
  red : Nat
  count : Nat
  root : Nat
deriving DecidableEq, Repr

/-- The engines whose room an instruction can wait for (R455). -/
inductive Engine where
  | coreCopy (core : Nat)
  | quadCopy (q : Nat)
  | matrix (team : Nat)
  | sphinx (team : Nat)
  | nbgemv (core : Nat)
  | collective (iod : Nat)
deriving DecidableEq, Repr

/-- What a step from outside carries: the host's writes, the packets of the links, what sensors and self tests measured.
The agenda puts it into the state before the step that takes it. -/
inductive Input where
  | none
  | power (keyOk : Bool)                                        -- POWER_GOOD: the key store reads
  | startUp (failed : Bool) (modules : Nat)                     -- START_UP_STEP: what the step found
  | sample (avgW nowW : Nat) (temps : List Nat)                 -- POWER_SAMPLE: power, and the 56 sensors of R34 in °C
  | bond (sram : Bool) (die : Nat)                              -- BOND_FLIT_ERROR
  | error (p : ErrPlace)                                        -- UNCORRECTABLE_ERROR
  | mailbox (op : Byte) (arg len : BitVec 16)                   -- a write of the mailbox command register
  | link (port rate width : Nat) (flit : Bool)                                -- LINK_UP, LINK_DOWN
  | spdm (port : Nat) (request : List Byte)
  | ideKey (port stream : Nat) (key : DWord)
  | postedWrite (port func : Nat) (bar0 : Bool) (off : Nat) (data : List Byte) (ro ido : Bool) (rid : Nat)
      (poisoned : Bool) (ideFail : Option Nat)      -- ideFail: the IDE stream whose check it fails
  | readRequest (port func : Nat) (bar0 : Bool) (off len tag : Nat)
  | atomicOp (port func off : Nat) (op : PcieAtom) (wide : Bool) (a b : DWord) (ro ido : Bool) (rid tag : Nat)
  | ats (port pasid page : Nat) (ok : Bool)                     -- ATS_INVALIDATION, PAGE_RESPONSE
  | response (id : Nat) (ok : Bool) (data : List Byte)          -- completions and responses, and their timeouts
  | ideFailed (port stream : Nat)                               -- in the place of a TLP: it fails the IDE check of its stream
  | flit (port : Nat)                                           -- CLOVAR_FLIT_ERROR
  | portState (port : Nat) (training : Bool) (lanes : Nat) (peer : BitVec 10)   -- lanes: those that have trained
  | route (node : Nat) (mask : BitVec 18)
  | clovar (port src dst off : Nat) (op : RemoteOp)
  | collective (eng comm node num st : Nat) (p : CollParams) (data : List (DWord × Bool))   -- st: the status it ends with
  | ctxWrite (k j : Nat) (v : DWord)                            -- a write of one register of context k (file 04)
  | reg (off n : Nat) (v : DWord)                               -- REGISTER_WRITE: an n-byte write
deriving DecidableEq, Repr

/-- The machine's steps: one constructor per row of spec/opcode_table.json. Register operands are the raw 9-bit fields of
R301; `WellFormed` says which values each may take. -/
inductive Instr where
  -- package, power and management events (files 01, 02)
  | homeRequest (id : Nat)
  | invalidationAcknowledgement (line die : Nat)
  | acknowledgement (id : Nat)
  | fenceInstant (die : Nat)
  | dieSelfTestEnd (die : Nat) (pass : Bool)
  | inFieldTest (core : Nat)
  | inFieldTestRetry (core : Nat) (late : Bool)
  | inFieldTestEnd (core : Nat) (pass : Bool)
  -- links (file 03)
  | orderingPointSend (id : Nat)
  | inboundReadCompletion (tag : Nat)
  | collectiveCompletion (eng comm num : Nat)
  | collectiveTimeout (eng comm num : Nat)
  -- host interface (file 04)
  | invalidationDone (k : Nat)
  | blockConsume (k j : Nat)
  -- scheduling (files 05, 06)
  | headReservation (rec : Nat)
  | groupRetire (gid : Nat)
  | ticketSkip (rec stage sect : Nat)
  | quiescent (rec : Nat)
  | stampAccept (rec : Nat)
  | backoffExpiry (gid : Nat)
  | sleepExpiry (gid : Nat)
  | engineRoomFree (e : Engine)
  | laneRelease (gid lane : Nat)
  | spawnAccept (id : Nat)
  | binTimer (q bin : Nat)
  | joinDecrement (id : Nat)
  | groupSuspend (gid : Nat)
  | spawnSave (rec : Nat)
  | localFrame (rec : Nat)
  | rjoinComplete (gid : Nat)
  -- memory, faults and engines (files 08 to 13)
  | pageWalk (agent k : Nat) (va : DWord)
  | copyLanding (id : Nat)
  | copyCompletion (id : Nat)
  | matrixCompletion (team : Nat)
  | nbgemvCompletion (id : Nat)
  | sweepStart (team : Nat)
  | sweepEnd (team : Nat)
  | sphinxCompletion (team : Nat)
  | domainJoinTimeout (rec dom : Nat)
  | preemptionComplete (k : Nat)
  | cutTimeout (k : Nat)
  | npOverrun (gid : Nat)
  | monwaitTimeout (gid lane : Nat)
  | resultLands (gid lane : Nat)
  -- pair form (R305 to R308)
  | pairWord (s0 s1 : Slot)
  -- integer arithmetic (R326 to R334)
  | add (h : Hdr) (t : IntTy) (sat : Bool) (d a : RegIx) (c : Src)
  | addc (h : Hdr) (d po a : RegIx) (c : Src) (pi : BitVec 3) (pn : Bool)
  | sub (h : Hdr) (t : IntTy) (sat : Bool) (d a : RegIx) (c : Src)
  | subb (h : Hdr) (d po a : RegIx) (c : Src) (pi : BitVec 3) (pn : Bool)
  | mul (h : Hdr) (t : IntTy) (d a : RegIx) (c : Src)
  | mulh (h : Hdr) (t : IntTy) (d a : RegIx) (c : Src)
  | mulw (h : Hdr) (t : IntTy) (d a : RegIx) (c : Src)
  | mad (h : Hdr) (t : IntTy) (d a b : RegIx) (c : Src)
  | madw (h : Hdr) (t : IntTy) (d a b : RegIx) (c : Src)
  | idiv (h : Hdr) (t : IntTy) (d a : RegIx) (c : Src)
  | irem (h : Hdr) (t : IntTy) (d a : RegIx) (c : Src)
  | min (h : Hdr) (t : IntTy) (d a : RegIx) (c : Src)
  | max (h : Hdr) (t : IntTy) (d a : RegIx) (c : Src)
  | abs (h : Hdr) (t : IntTy) (sat : Bool) (d : RegIx) (c : Src)
  | neg (h : Hdr) (t : IntTy) (sat : Bool) (d : RegIx) (c : Src)
  | isetp (h : Hdr) (t : IntTy) (cmp : Cmp) (bop : BoolOp) (pd a : RegIx) (c : Src) (pq : BitVec 3) (pn : Bool)
  | sel (h : Hdr) (t : IntTy) (d a : RegIx) (c : Src) (p : BitVec 3) (pn : Bool)
  | lea (h : Hdr) (t : IntTy) (d a : RegIx) (c : Src) (k : BitVec 5)
  | mov (h : Hdr) (t : IntTy) (d : RegIx) (c : Src)
  | movi (h : Hdr) (t : IntTy) (toG : Bool) (d : RegIx) (i : BitVec 18)
  | limm (h : Hdr) (t : IntTy) (pcRel : Bool) (toG : Bool) (d : RegIx) (x : DWord)
  -- bit manipulation (R335 to R338)
  | and (h : Hdr) (t : IntTy) (d a : RegIx) (c : Src)
  | or (h : Hdr) (t : IntTy) (d a : RegIx) (c : Src)
  | xor (h : Hdr) (t : IntTy) (d a : RegIx) (c : Src)
  | andn (h : Hdr) (t : IntTy) (d a : RegIx) (c : Src)
  | lop3 (h : Hdr) (t : IntTy) (d a : RegIx) (c : Src) (lut : Byte) (nd : Bool)
  | shl (h : Hdr) (t : IntTy) (d a : RegIx) (c : Src)
  | shr (h : Hdr) (t : IntTy) (d a : RegIx) (c : Src)
  | sar (h : Hdr) (t : IntTy) (d a : RegIx) (c : Src)
  | fshf (h : Hdr) (t : IntTy) (right : Bool) (d a b : RegIx) (c : Src)
  | bfx (h : Hdr) (t : IntTy) (d a : RegIx) (c : Src)
  | bfi (h : Hdr) (t : IntTy) (d a b : RegIx) (c : Src)
  | popc (h : Hdr) (t : IntTy) (d : RegIx) (c : Src)
  | clz (h : Hdr) (t : IntTy) (d : RegIx) (c : Src)
  | ctz (h : Hdr) (t : IntTy) (d : RegIx) (c : Src)
  | brev (h : Hdr) (t : IntTy) (d : RegIx) (c : Src)
  | prmt (h : Hdr) (t : IntTy) (d a b : RegIx) (c : Src)
  -- predicates (R339)
  | pand (h : Hdr) (pd pa : RegIx) (na : Bool) (pc : RegIx) (nc : Bool)
  | por (h : Hdr) (pd pa : RegIx) (na : Bool) (pc : RegIx) (nc : Bool)
  | pxor (h : Hdr) (pd pa : RegIx) (na : Bool) (pc : RegIx) (nc : Bool)
  | pnot (h : Hdr) (pd pc : RegIx)
  | pmov (h : Hdr) (pd pc : RegIx)
  | psetPack (h : Hdr) (d : RegIx)
  | psetUnpack (h : Hdr) (mask : BitVec 7) (c : RegIx)
  -- lane instructions (R340 to R346)
  | shfl (h : Hdr) (mode : ShflMode) (logW : BitVec 3) (d a : RegIx) (c : Kind)
  | lswap (h : Hdr) (t : SwapTy) (nege nego : Bool) (d c : RegIx)
  | vote (h : Hdr) (mode : VoteMode) (neg toG : Bool) (d ps : RegIx)
  | matchLanes (h : Hdr) (wide : Bool) (d c : RegIx)
  | redux (h : Hdr) (op : ReduxOp) (signed toG : Bool) (d c : RegIx)
  | elect (h : Hdr) (hi : Bool) (pd : RegIx)
  | bcast (h : Hdr) (d c : RegIx) (k : BitVec 5)
  | umov (h : Hdr) (d c : RegIx) (k : Option (BitVec 5))
  -- control (R347 to R355)
  | bra (h : Hdr) (t : Target)
  | brx (h : Hdr) (g : Bool) (lst : BitVec 18) (c : RegIx)
  | call (h : Hdr) (d : RegIx) (t : Target)
  | callx (h : Hdr) (g : Bool) (d : RegIx) (lst : BitVec 18) (c : RegIx)
  | ret (h : Hdr) (g : Bool) (c : RegIx)
  | rjoin (h : Hdr)
  | exit (h : Hdr)
  | trap (h : Hdr) (code : BitVec 9)
  | bkpt (h : Hdr) (code : BitVec 9)
  | nop (h : Hdr)
  | yield (h : Hdr)
  | sleep (h : Hdr) (n : Amount)
  | step (h : Hdr) (n : Amount)
  -- floating point (R356 to R368)
  | fadd (h : Hdr) (f : Fmt) (r : Dir) (d a : RegIx) (c : Src)
  | fsub (h : Hdr) (f : Fmt) (r : Dir) (d a : RegIx) (c : Src)
  | fmul (h : Hdr) (f : Fmt) (r : Dir) (d a : RegIx) (c : Src)
  | ffma (h : Hdr) (f : Fmt) (r : Dir) (d a b : RegIx) (c : Src)
  | fmin (h : Hdr) (f : Fmt) (d a : RegIx) (c : Src)
  | fmax (h : Hdr) (f : Fmt) (d a : RegIx) (c : Src)
  | fminn (h : Hdr) (f : Fmt) (d a : RegIx) (c : Src)
  | fmaxn (h : Hdr) (f : Fmt) (d a : RegIx) (c : Src)
  | fsetp (h : Hdr) (f : Fmt) (cmp : FCmp) (bop : BoolOp) (pd a : RegIx) (c : Src) (pq : BitVec 3) (pn : Bool)
  | fclass (h : Hdr) (f : Fmt) (d : RegIx) (c : Src)
  | fdiv (h : Hdr) (f : Fmt) (r : Dir) (d a : RegIx) (c : Src)
  | fsqrt (h : Hdr) (f : Fmt) (r : Dir) (d : RegIx) (c : Src)
  | frcp (h : Hdr) (f : Fmt) (r : Dir) (d : RegIx) (c : Src)
  | frsq (h : Hdr) (f : Fmt) (r : Dir) (d : RegIx) (c : Src)
  | frnd (h : Hdr) (f : Fmt) (r : Dir) (exact : Bool) (d : RegIx) (c : Src)
  | fldx (h : Hdr) (f : Fmt) (r : Dir) (d a : RegIx) (c : Src)
  | fxtxExp (h : Hdr) (f : Fmt) (d : RegIx) (c : Src)
  | fxtxMant (h : Hdr) (f : Fmt) (d : RegIx) (c : Src)
  | fexp (h : Hdr) (f : Fmt) (r : Dir) (d : RegIx) (c : Src)
  | fexp2 (h : Hdr) (f : Fmt) (r : Dir) (d : RegIx) (c : Src)
  | flog (h : Hdr) (f : Fmt) (r : Dir) (d : RegIx) (c : Src)
  | flog2 (h : Hdr) (f : Fmt) (r : Dir) (d : RegIx) (c : Src)
  | fsin (h : Hdr) (f : Fmt) (r : Dir) (d : RegIx) (c : Src)
  | fcos (h : Hdr) (f : Fmt) (r : Dir) (d : RegIx) (c : Src)
  | fsinpi (h : Hdr) (f : Fmt) (r : Dir) (d : RegIx) (c : Src)
  | fcospi (h : Hdr) (f : Fmt) (r : Dir) (d : RegIx) (c : Src)
  | ftanh (h : Hdr) (f : Fmt) (r : Dir) (d : RegIx) (c : Src)
  | fsigm (h : Hdr) (f : Fmt) (r : Dir) (d : RegIx) (c : Src)
  | fadd2 (h : Hdr) (f : Fmt) (r : Dir) (d a : RegIx) (c : Src)
  | fmul2 (h : Hdr) (f : Fmt) (r : Dir) (d a : RegIx) (c : Src)
  | ffma2 (h : Hdr) (f : Fmt) (r : Dir) (d a b : RegIx) (c : Src)
  | dadd (h : Hdr) (f : Fmt) (r : Dir) (sub : Bool) (d a : RegIx) (c : Src)
  | dmul (h : Hdr) (f : Fmt) (r : Dir) (d a : RegIx) (c : Src)
  | dfma (h : Hdr) (f : Fmt) (r : Dir) (d a b : RegIx) (c : Src)
  | ddiv (h : Hdr) (f : Fmt) (r : Dir) (d a : RegIx) (c : Src)
  | dsqrt (h : Hdr) (f : Fmt) (r : Dir) (d : RegIx) (c : Src)
  -- conversion and the INT8 path (R369 to R375)
  | cvt (h : Hdr) (dt st : CvtTy) (sat : Bool) (r : Dir) (d a : RegIx) (c : Src)
  | dsliceExp (h : Hdr) (logN : BitVec 3) (d : RegIx) (c : Src)
  | dsliceSlice (h : Hdr) (t : BitVec 3) (d a : RegIx) (c : Src)
  | drecon (h : Hdr) (first : Bool) (m : BitVec 4) (d a b : RegIx) (c : Src)
  -- memory (R376 to R387)
  | ld (h : Hdr) (sp : Space) (w : Width) (o : Ord) (sc : Scope) (hint : Hint) (g : Bool) (d a : RegIx) (off : BitVec 9)
  | ldTyp (h : Hdr) (f32 : Bool) (hint : Hint) (g : Bool) (k : BitVec 3) (d a : RegIx) (off : BitVec 9)
  | ldQue (h : Hdr) (d n : RegIx)
  | st (h : Hdr) (sp : Space) (w : Width) (o : Ord) (sc : Scope) (hint : Hint) (g : Bool) (d a : RegIx) (off : BitVec 9)
  | stQue (h : Hdr) (d n : RegIx)
  | ldf (h : Hdr) (clu : Bool) (w : Width) (keep : Bool) (d a : RegIx) (off : BitVec 9)
  | stf (h : Hdr) (clu : Bool) (w : Width) (d a : RegIx) (off : BitVec 9)
  | feinit (h : Hdr) (clu full : Bool) (a : RegIx) (n : Kind)
  | pref (h : Hdr) (sp : Space) (lvl : PrefLvl) (g : Bool) (a : RegIx) (off : BitVec 9)
  | cctlWb (h : Hdr)
  | cctlIfetch (h : Hdr)
  | cctlCst (h : Hdr)
  | enq (h : Hdr) (w : QWidth) (sc : Scope) (d a : RegIx)
  | enqStage (h : Hdr) (sc : Scope) (a : RegIx)
  | deq (h : Hdr) (w : QWidth) (wait : Bool) (sc : Scope) (pd : BitVec 3) (d a : RegIx)
  -- atomics and waiting (R388 to R393)
  | atom (h : Hdr) (op : AtomOp) (ty : AtomTy) (o : Ord) (sc : Scope) (g : Bool) (d a b : RegIx)
  | red (h : Hdr) (op : AtomOp) (ty : AtomTy) (o : Ord) (sc : Scope) (g : Bool) (a b : RegIx)
  | fence (h : Hdr) (o : Ord) (sc : Scope)
  | monwait (h : Hdr) (cmp : MonCmp) (o : Ord) (sc : Scope) (wide : Bool) (d a c : RegIx)
  | poll (h : Hdr) (cmp : MonCmp) (o : Ord) (sc : Scope) (wide : Bool) (pd : BitVec 3) (d a c : RegIx)
  -- barriers and copies (R397 to R404)
  | tbinit (h : Hdr) (clu g : Bool) (a : RegIx) (n : Kind)
  | tbarr (h : Hdr) (clu g : Bool) (a : RegIx)
  | tbexp (h : Hdr) (clu g : Bool) (a : RegIx) (n : Kind)
  | tbwait (h : Hdr) (clu g : Bool) (a : RegIx) (p : Kind)
  | tbstat (h : Hdr) (clu g : Bool) (d a : RegIx)
  | bartm (h : Hdr) (x : RegIx) (n : Kind)
  | barcl (h : Hdr) (b : RegIx) (n : Kind)
  | xsign (h : Hdr) (d x : RegIx) (n : Kind)
  | xwait (h : Hdr) (x : RegIx) (p : Kind)
  | cptLd (h : Hdr) (g clu : Bool) (m blk o4 : RegIx)
  | cptSt (h : Hdr) (g clu : Bool) (s m blk o4 : RegIx)
  | cpg (h : Hdr) (g : Bool) (s a b c : RegIx)
  | cps (h : Hdr) (g clu : Bool) (s a b c : RegIx)
  | cpr (h : Hdr) (g clu : Bool) (bar a b c : RegIx)
  | cpfill (h : Hdr) (g clu : Bool) (bar a pat c : RegIx)
  | cpfillMem (h : Hdr) (g : Bool) (s a pat c : RegIx)
  | cpcommit (h : Hdr) (d : RegIx)
  | cpwait (h : Hdr) (n : Kind)
  | cpwaitUpto (h : Hdr) (b : Kind)
  -- matrix engine and near-bank GEMV (R407 to R412)
  | mxcfg (h : Hdr) (mode : MxMode) (x : RegIx) (n : Kind)
  | mxmul (h : Hdr) (g : Bool) (x b : RegIx)
  | mxzero (h : Hdr) (g : Bool) (t bar : RegIx)
  | mxld (h : Hdr) (g : Bool) (t s bar : RegIx)
  | mxst (h : Hdr) (g bf16 : Bool) (t s bar : RegIx)
  | mxsel24 (h : Hdr) (g : Bool) (b : RegIx)
  | mxstat (h : Hdr) (g : Bool) (d a : RegIx)
  | nbgemv (h : Hdr) (g : Bool) (a : RegIx)
  -- Sphinx array (R413 to R416)
  | sxload (h : Hdr) (g mem : Bool) (a n : RegIx) (bar : Option RegIx)
  | sxbias (h : Hdr) (g : Bool) (a n : RegIx) (bar : Option RegIx)
  | sxclamp (h : Hdr) (g : Bool) (a n : RegIx) (bar : Option RegIx)
  | sxrun (h : Hdr) (g : Bool) (a : RegIx) (bar : Option RegIx)
  | sxread (h : Hdr) (g cnt : Bool) (a n : RegIx) (bar : Option RegIx)
  | sxkey (h : Hdr) (g replay : Bool) (a b : RegIx)
  | sxjoin (h : Hdr) (g : Bool) (a b : RegIx) (bar : Option RegIx)
  | sxhealth (h : Hdr) (g : Bool) (a b : RegIx)
  -- tasks, collectives and system (R417 to R430)
  | spawn (h : Hdr) (g : Bool) (cls : BitVec 3) (n : BitVec 3) (entry join pay : RegIx)
  | spwflush (h : Hdr)
  | jwait (h : Hdr) (g : Bool) (a : RegIx)
  | launch (h : Hdr) (g : Bool) (d a : RegIx)
  | fetchw (h : Hdr) (g : Bool) (d a : RegIx)
  | wlappend (h : Hdr) (g : Bool) (a c : RegIx)
  | wltake (h : Hdr) (pd : BitVec 3) (d : RegIx)
  | tkwait (h : Hdr) (d : RegIx) (q : Option RegIx) (k : Kind)
  | tkpass (h : Hdr) (d : RegIx) (q : Option RegIx) (k : Kind)
  | quiet (h : Hdr) (d : RegIx)
  | setpri (h : Hdr) (n : Kind)
  | coll (h : Hdr) (g : Bool) (a : RegIx)
  | csrr (h : Hdr) (toG : Bool) (d : RegIx) (n : RegIx)
  | csrw (h : Hdr) (n : RegIx) (c : Kind)
  | syscall (h : Hdr) (d a : RegIx) (n : BitVec 9)
  | trapret (h : Hdr) (g : Bool) (c : RegIx)
  | npbegin (h : Hdr)
  | npend (h : Hdr)
  -- what the machine does at a moment of its own, or what comes in from outside: what such a step carries stands in the
  -- state's input (`Input`), where the agenda puts it
  | powerGood | startUpStep | coreWake | deviceReset | lossOfPower | powerSample | budgetPeriod
  | bondFlitError | uncorrectableError
  | logread | unknownMailboxOp | imgwrite | imgcommit | attest | cert | dieFence | diereset | resume | budget
  | linkUp | linkDown | spdmAuthentication | ideKeyProgramming
  | inboundPostedWrite | inboundRead | inboundAtomicop | atsInvalidation | pageResponse
  | outboundReadCompletion | completionTimeout
  | clovarFlitError | clovarPortStateChange | ports | clovarInboundRequest | remoteResponse | remoteRequestTimeout
  | collectiveTraffic
  | en | kreq | halt | invgo | invall | doorbell | resolve | reject | preEmpt | popResume | cut | svcret
  | registerWrite
  | teamPlacement | spawnedGroupRelease | bucketBoundary
deriving DecidableEq, Repr

end Sys2Proof
end

