-- ==== Sys2Proof/WellFormed.lean ====
section
/-! DEFINITION. WellFormed.lean: which instructions the word alone makes legal: register indices within their kind, types,
formats, directions, spaces and widths that the row accepts (R309, R319 step 3), values that a field can hold (R319 step
1), and the retain field (R317). Events have no word and are not well formed in this sense. The budget of a group is no
property of the word alone; the machine checks it (R156). -/
namespace Sys2Proof

/-- A v register: every index names one, 511 being vz (R309). -/
def vOk (_ : RegIx) : Bool := true
/-- A v pair: an even index, or 511 for a 64-bit zero; 510 faults (R309). -/
def vPairOk (r : RegIx) : Bool := r = 511#9 || (r.toNat % 2 == 0 && r ≠ 510#9)
/-- Four v registers: a multiple of 4, or 511 (R378). -/
def vQuadOk (r : RegIx) : Bool := r = 511#9 || r.toNat % 4 == 0
/-- A g register, g0 to g127 (R309). -/
def gOk (r : RegIx) : Bool := r.toNat < 128
/-- A g pair: even, or 127 for zero; 126 faults (R309). -/
def gPairOk (r : RegIx) : Bool := r = 127#9 || (r.toNat < 126 && r.toNat % 2 == 0)
/-- A predicate, p0 to p7. -/
def pOk (r : RegIx) : Bool := r.toNat < 8
/-- A convergence register. -/
def xOk (r : RegIx) : Bool := r.toNat < 16
/-- A queue register. -/
def cOk (r : RegIx) : Bool := r.toNat < 32

/-- A register operand of one or two registers, v or g. -/
def regOk (g wide : Bool) (r : RegIx) : Bool :=
  match g, wide with
  | false, false => vOk r
  | false, true => vPairOk r
  | true, false => gOk r
  | true, true => gPairOk r

/-- Is the source that of a U-form word (OPK 3)? -/
def Src.isU : Src → Bool
  | .u _ => true
  | .litU _ => true
  | _ => false

/-- Does field C hold a register? -/
def Src.isReg : Src → Bool
  | .v _ => true
  | .g _ => true
  | .u _ => true
  | _ => false

/-- Is the operand a literal (LIMM)? -/
def Src.isLit : Src → Bool
  | .lit _ => true
  | .litU _ => true
  | _ => false

/-- A source of the given width. -/
def Src.ok (wide : Bool) : Src → Bool
  | .v r => regOk false wide r
  | .imm _ => true
  | .g r => regOk true wide r
  | .u r => regOk true wide r
  | .lit _ => true
  | .litU _ => true

def Kind.isReg : Kind → Bool
  | .imm _ => false
  | _ => true

/-- A kind-field source of the given width. -/
def Kind.ok (wide : Bool) : Kind → Bool
  | .v r => regOk false wide r
  | .imm _ => true
  | .g r => regOk true wide r

def Kind.isV : Kind → Bool
  | .v _ => true
  | _ => false

/-- RET may name only a field the word reads as a register (R317). -/
def retOk (h : Hdr) (a b c : Bool) : Bool :=
  match h.ret.toNat with
  | 0 => true
  | 1 => a
  | 2 => b
  | _ => c

namespace IntTy
def wide : IntTy → Bool
  | .s64 | .n64 => true
  | _ => false
/-- The set I8 of R327. -/
def inI8 : IntTy → Bool
  | .b32 => false
  | _ => true
/-- The set W. -/
def inW : IntTy → Bool
  | .s32 | .n32 | .s64 | .n64 => true
  | _ => false
/-- The set S. -/
def inS : IntTy → Bool
  | .s8 | .s16 | .s32 | .s64 => true
  | _ => false
/-- The set B. -/
def inB : IntTy → Bool
  | .b32 | .n64 => true
  | _ => false
/-- .s32 and .n32 only. -/
def in32 : IntTy → Bool
  | .s32 | .n32 => true
  | _ => false
end IntTy

namespace Fmt
def wide : Fmt → Bool
  | .f64 => true
  | _ => false
/-- The set H of R358. -/
def inH : Fmt → Bool
  | .f64 => false
  | _ => true
/-- The set P. -/
def inP : Fmt → Bool
  | .f16 | .bf16 => true
  | _ => false
end Fmt

namespace CvtTy
def wide : CvtTy → Bool
  | .s64 | .n64 | .f64 => true
  | _ => false
def isInt : CvtTy → Bool
  | .s32 | .n32 | .s64 | .n64 | .s16 | .n16 | .s8 | .n8 => true
  | _ => false
def isFp8 : CvtTy → Bool
  | .e4m3 | .e5m2 => true
  | _ => false
def isFloat : CvtTy → Bool
  | .f16 | .bf16 | .f32 | .f64 => true
  | _ => false
end CvtTy

/-- The accepted combinations of CVT (R369). -/
def cvtOk (dt st : CvtTy) (sat : Bool) (r : Dir) : Bool :=
  if dt = st then false
  else if st.isInt && dt.isInt then r = .rm
  else if st.isInt && dt.isFloat then !sat
  else if (st.isFloat || st.isFp8) && (dt.isFloat || dt.isFp8) then true
  else if st.isFloat && dt.isInt then !sat
  else if (st = .f16 || st = .bf16 || st = .f32) && dt = .mxi8 then (r = .rm || r = .rne) && !sat
  else false

namespace Width
def bytes : Width → Nat
  | .n8 | .s8 => 1
  | .n16 | .s16 => 2
  | .b32 => 4
  | .n64 => 8
  | .b128 => 16
/-- The register operand of an access of this width (R378). -/
def regOk (w : Width) (r : RegIx) : Bool :=
  match w with
  | .n64 => vPairOk r
  | .b128 => vQuadOk r
  | _ => true
end Width

namespace Space
/-- Does the space take a 64-bit address (R377)? -/
def wide : Space → Bool
  | .gen | .glb | .cst => true
  | _ => false
end Space

namespace AtomTy
def wide : AtomTy → Bool
  | .s64 | .n64 | .f64 => true
  | _ => false
end AtomTy

/-- The types each atomic operation accepts (R388). -/
def atomTyOk (op : AtomOp) (ty : AtomTy) : Bool :=
  match op with
  | .add | .min | .max => ty ≠ .b32
  | .and | .or | .xor | .exch | .cas => ty = .b32 || ty = .n64
  | .inc | .dec => ty = .n32 || ty = .n64

/-- The data operand of an atomic (R388): .cas takes two consecutive registers, or two consecutive pairs. -/
def atomRegOk (op : AtomOp) (ty : AtomTy) (b : RegIx) : Bool :=
  match op, ty.wide with
  | .cas, false => b.toNat % 2 == 0
  | .cas, true => b.toNat % 4 == 0 && b ≠ 508#9
  | _, w => regOk false w b

def QWidth.regOk (w : QWidth) (r : RegIx) : Bool :=
  match w with
  | .b32 => true
  | .n64 => vPairOk r
  | .b128 => vQuadOk r

/-- Is the scope one that ENQ and DEQ accept (R395)? -/
def Scope.queueOk : Scope → Bool
  | .clu | .dev | .sys => true
  | _ => false

/-- The special registers of R310: number, 64 bits wide?, uniform? -/
def csrTable : List (Nat × Bool × Bool) :=
  [(0x000, false, false), (0x001, false, false), (0x002, false, true), (0x003, false, true), (0x004, false, true),
   (0x005, false, true), (0x006, false, true), (0x007, false, true), (0x008, false, true), (0x009, false, true),
   (0x00A, false, true), (0x00B, false, true), (0x00C, false, true), (0x010, false, true), (0x011, false, true),
   (0x012, false, true), (0x014, false, true), (0x015, false, true), (0x016, false, true), (0x017, false, true),
   (0x018, true, true), (0x020, true, false), (0x021, false, false), (0x022, false, false), (0x023, false, false),
   (0x030, true, true)]

/-- Width and kind of special register n, if R310 lists it. -/
def csrInfo (n : RegIx) : Option (Bool × Bool) := (csrTable.find? (fun p => p.1 == n.toNat)).map (fun p => p.2)

/-- A run of `n` registers from `r` that stays within v0 to v510, or g0 to g126. -/
def runOk (g : Bool) (r : RegIx) (n : Nat) : Bool := if g then r.toNat + n ≤ 128 else r.toNat + n ≤ 511

/-- Shared shape of the two-source integer rows: d, a and c of the widths given; OPK 3 as `uOk` allows. -/
def int3Ok (h : Hdr) (uOk dW aW cW : Bool) (d a : RegIx) (c : Src) : Bool :=
  retOk h true false c.isReg && (uOk || !c.isU) && regOk c.isU dW d && regOk c.isU aW a && c.ok cW

/-- The one-source rows. -/
def int2Ok (h : Hdr) (dW cW : Bool) (d : RegIx) (c : Src) : Bool :=
  retOk h false false c.isReg && regOk c.isU dW d && c.ok cW

/-- The three-source rows. -/
def int4Ok (h : Hdr) (uOk dW aW bW cW : Bool) (d a b : RegIx) (c : Src) : Bool :=
  retOk h true true c.isReg && (uOk || !c.isU) && regOk c.isU dW d && regOk c.isU aW a && regOk c.isU bW b && c.ok cW

/-- The checks of R319 steps 1 and 3 that depend on the word alone. -/
def Instr.wf : Instr → Bool
  | .pairWord s0 s1 =>
    -- R305, R308, R306 (the bank rules are `pairBanksOk`, in Decode)
    (s0.op ≠ .nop || (s0.d = 0 && s0.a = 0)) && (s1.op ≠ .nop || (s1.d = 0 && s1.a = 0)) &&
    (s0.op ≠ .quePop || cOk s0.a) && (s1.op ≠ .quePop || cOk s1.a) &&
    (s0.op ≠ .quePush || cOk s0.d) && (s1.op ≠ .quePush || cOk s1.d)
  | .add h t _ d a c => t.inI8 && int3Ok h true t.wide t.wide t.wide d a c
  | .addc h d po a c _ _ => int3Ok h false false false false d a c && pOk po
  | .sub h t _ d a c => t.inI8 && int3Ok h true t.wide t.wide t.wide d a c
  | .subb h d po a c _ _ => int3Ok h false false false false d a c && pOk po
  | .mul h t d a c => t.inW && int3Ok h true t.wide t.wide t.wide d a c
  | .mulh h t d a c => t.inW && int3Ok h true t.wide t.wide t.wide d a c
  | .mulw h t d a c => t.in32 && int3Ok h true true false false d a c
  | .mad h t d a b c => t.inW && int4Ok h true t.wide t.wide t.wide t.wide d a b c
  | .madw h t d a b c => t.in32 && int4Ok h true true false false true d a b c
  | .idiv h t d a c => t.inW && int3Ok h true t.wide t.wide t.wide d a c
  | .irem h t d a c => t.inW && int3Ok h true t.wide t.wide t.wide d a c
  | .min h t d a c => t.inI8 && int3Ok h true t.wide t.wide t.wide d a c
  | .max h t d a c => t.inI8 && int3Ok h true t.wide t.wide t.wide d a c
  | .abs h t _ d c => t.inS && int2Ok h t.wide t.wide d c
  | .neg h t _ d c => t.inS && int2Ok h t.wide t.wide d c
  | .isetp h t _ _ pd a c _ _ => t.inI8 && retOk h true false c.isReg && !c.isU && pOk pd && regOk false t.wide a && c.ok t.wide
  | .sel h t d a c _ _ => t.inB && int3Ok h false t.wide t.wide t.wide d a c
  | .lea h t d a c _ => (t = .s32 || t = .n32 || t = .s64) && int3Ok h true true true t.wide d a c
  | .mov h t d c => t.inB && int2Ok h t.wide t.wide d c
  | .movi h t toG d _ => (t = .b32 || t = .s64) && retOk h false false false && regOk toG t.wide d
  | .limm h t pcRel toG d _ => t.inB && (!pcRel || t = .n64) && retOk h false false false && regOk toG t.wide d
  | .and h t d a c => t.inB && int3Ok h true t.wide t.wide t.wide d a c
  | .or h t d a c => t.inB && int3Ok h true t.wide t.wide t.wide d a c
  | .xor h t d a c => t.inB && int3Ok h true t.wide t.wide t.wide d a c
  | .andn h t d a c => t.inB && int3Ok h true t.wide t.wide t.wide d a c
  | .lop3 h t d a c lut nd => t = .b32 && (!nd || lut.toNat < 16) && int3Ok h true false false false d a c
  | .shl h t d a c => t.inB && int3Ok h true t.wide t.wide false d a c
  | .shr h t d a c => t.inB && int3Ok h true t.wide t.wide false d a c
  | .sar h t d a c => (t = .s32 || t = .s64) && int3Ok h true t.wide t.wide false d a c
  | .fshf h t _ d a b c => t = .b32 && int4Ok h true false false false false d a b c
  | .bfx h t d a c => t.in32 && int3Ok h true false false false d a c
  | .bfi h t d a b c => t = .b32 && int4Ok h true false false false false d a b c
  | .popc h t d c => t.inB && int2Ok h false t.wide d c
  | .clz h t d c => t.inB && int2Ok h false t.wide d c
  | .ctz h t d c => t.inB && int2Ok h false t.wide d c
  | .brev h t d c => t.inB && int2Ok h t.wide t.wide d c
  | .prmt h t d a b c => t = .b32 && int4Ok h true false false false false d a b c
  | .pand h pd pa _ pc _ => retOk h true false true && pOk pd && pOk pa && pOk pc
  | .por h pd pa _ pc _ => retOk h true false true && pOk pd && pOk pa && pOk pc
  | .pxor h pd pa _ pc _ => retOk h true false true && pOk pd && pOk pa && pOk pc
  | .pnot h pd pc => retOk h false false true && pOk pd && pOk pc
  | .pmov h pd pc => retOk h false false true && pOk pd && pOk pc
  | .psetPack h d => retOk h false false false && vOk d
  | .psetUnpack h _ c => retOk h false false true && vOk c
  | .shfl h _ logW d a c => retOk h true false c.isReg && logW.toNat < 6 && vOk d && vOk a && c.ok false
  | .lswap h t nege nego d c => retOk h false false true && (t ≠ .b32 || (!nege && !nego)) && vOk d && vOk c
  | .vote h mode _ toG d ps =>
    retOk h false false true && pOk ps &&
    (match mode with
     | .mask | .count => regOk toG false d
     | _ => !toG && pOk d)
  | .matchLanes h wide d c => retOk h false false true && vOk d && regOk false wide c
  | .redux h op signed toG d c =>
    retOk h false false true && vOk c && regOk toG false d && (op ≠ .scan || !toG) &&
    (match op with
     | .and | .or | .xor => !signed
     | _ => true)
  | .elect h _ pd => retOk h false false false && pOk pd
  | .bcast h d c _ => retOk h false false true && vOk d && vOk c
  | .umov h d c _ => retOk h false false true && gOk d && vOk c
  | .bra h _ => retOk h false false false
  | .brx h g lst c => retOk h false false true && lst ≠ 0 && regOk g true c
  | .call h d _ => retOk h false false false && vPairOk d
  | .callx h g d lst c => retOk h false false true && lst ≠ 0 && vPairOk d && regOk g true c
  | .ret h g c => retOk h false false true && regOk g true c
  | .rjoin h => retOk h false false false
  | .exit h => retOk h false false false
  | .trap h _ => retOk h false false false
  | .bkpt h _ => retOk h false false false
  | .nop h => retOk h false false false
  | .yield h => retOk h false false false
  | .sleep h n => (match n with | .g r => retOk h false false true && gOk r | _ => retOk h false false false)
  | .step h n => (match n with | .g r => retOk h false false true && gOk r | _ => retOk h false false false)
  | .fadd h f _ d a c => f.inH && int3Ok h true f.wide f.wide f.wide d a c
  | .fsub h f _ d a c => f.inH && int3Ok h true f.wide f.wide f.wide d a c
  | .fmul h f _ d a c => f.inH && int3Ok h true f.wide f.wide f.wide d a c
  | .ffma h f _ d a b c => f.inH && int4Ok h true f.wide f.wide f.wide f.wide d a b c
  | .fmin h f d a c => int3Ok h true f.wide f.wide f.wide d a c
  | .fmax h f d a c => int3Ok h true f.wide f.wide f.wide d a c
  | .fminn h f d a c => int3Ok h true f.wide f.wide f.wide d a c
  | .fmaxn h f d a c => int3Ok h true f.wide f.wide f.wide d a c
  | .fsetp h f _ _ pd a c _ _ => retOk h true false c.isReg && !c.isU && pOk pd && regOk false f.wide a && c.ok f.wide
  | .fclass h f d c => int2Ok h false f.wide d c
  | .fdiv h f _ d a c => f.inH && int3Ok h true f.wide f.wide f.wide d a c
  | .fsqrt h f _ d c => f.inH && int2Ok h f.wide f.wide d c
  | .frcp h f _ d c => int2Ok h f.wide f.wide d c
  | .frsq h f _ d c => int2Ok h f.wide f.wide d c
  | .frnd h f _ _ d c => int2Ok h f.wide f.wide d c
  | .fldx h f _ d a c => int3Ok h true f.wide f.wide false d a c
  | .fxtxExp h f d c => int2Ok h false f.wide d c
  | .fxtxMant h f d c => int2Ok h f.wide f.wide d c
  | .fexp h f _ d c => int2Ok h f.wide f.wide d c
  | .fexp2 h f _ d c => int2Ok h f.wide f.wide d c
  | .flog h f _ d c => int2Ok h f.wide f.wide d c
  | .flog2 h f _ d c => int2Ok h f.wide f.wide d c
  | .fsin h f _ d c => int2Ok h f.wide f.wide d c
  | .fcos h f _ d c => int2Ok h f.wide f.wide d c
  | .fsinpi h f _ d c => int2Ok h f.wide f.wide d c
  | .fcospi h f _ d c => int2Ok h f.wide f.wide d c
  | .ftanh h f _ d c => int2Ok h f.wide f.wide d c
  | .fsigm h f _ d c => int2Ok h f.wide f.wide d c
  | .fadd2 h f _ d a c => f.inP && int3Ok h true false false false d a c
  | .fmul2 h f _ d a c => f.inP && int3Ok h true false false false d a c
  | .ffma2 h f _ d a b c => f.inP && int4Ok h true false false false false d a b c
  | .dadd h f _ _ d a c => f = .f64 && int3Ok h true true true true d a c
  | .dmul h f _ d a c => f = .f64 && int3Ok h true true true true d a c
  | .dfma h f _ d a b c => f = .f64 && int4Ok h true true true true true d a b c
  | .ddiv h f _ d a c => f = .f64 && int3Ok h true true true true d a c
  | .dsqrt h f _ d c => f = .f64 && int2Ok h true true d c
  | .cvt h dt sty sat r d a c =>
    cvtOk dt sty sat r && retOk h (dt = .mxi8) false c.isReg && (match c with | .imm _ => false | _ => true) &&
    regOk c.isU dt.wide d && c.ok sty.wide && (if dt = .mxi8 then regOk c.isU false a else a = 0)
  | .dsliceExp h logN d c =>
    logN.toNat < 6 && int2Ok h false true d c && (match c with | .v _ | .lit _ => true | _ => false)
  | .dsliceSlice h _ d a c => int3Ok h false false false true d a c && (match c with | .v _ | .lit _ => true | _ => false)
  | .drecon h _ m d a b c => 2 ≤ m.toNat && m.toNat ≤ 9 && int4Ok h false true false false false d a b c
  | .ld h sp w o _ _ g d a _ =>
    retOk h true false false && w.regOk d && regOk g sp.wide a &&
    (match o with | .plain => true | .rlx | .acq => sp ≠ .cst | _ => false)
  | .ldTyp h _ _ g _ d a _ => retOk h true false false && vOk d && regOk g true a
  | .ldQue h d n => retOk h true false false && vOk d && cOk n
  | .st h sp w o _ _ g d a _ =>
    retOk h true false false && w.regOk d && regOk g sp.wide a && sp ≠ .cst && w ≠ .s8 && w ≠ .s16 &&
    (match o with | .plain | .rlx | .rel => true | _ => false)
  | .stQue h d n => retOk h false false false && vOk d && cOk n
  | .ldf h _ w _ d a _ => retOk h true false false && w.regOk d && vOk a && (w = .b32 || w = .n64 || w = .b128)
  | .stf h _ w d a _ => retOk h true false false && w.regOk d && vOk a && (w = .b32 || w = .n64 || w = .b128)
  | .feinit h _ _ a n => retOk h true false n.isReg && vOk a && n.ok false
  | .pref h sp _ g a _ => retOk h true false false && regOk g true a && (sp = .gen || sp = .glb || sp = .cst)
  | .cctlWb h => retOk h false false false
  | .cctlIfetch h => retOk h false false false
  | .cctlCst h => retOk h false false false
  | .enq h w sc d a => retOk h true false false && w.regOk d && vPairOk a && sc.queueOk
  | .enqStage h sc a => retOk h true false false && vOk a && sc.queueOk
  | .deq h w _ sc _ d a => retOk h true false false && w.regOk d && vPairOk a && sc.queueOk
  | .atom h op ty o _ g d a b =>
    retOk h true true false && regOk false ty.wide d && regOk g true a && atomTyOk op ty && atomRegOk op ty b && o ≠ .sc
  | .red h op ty o _ g a b =>
    retOk h true true false && regOk g true a && atomTyOk op ty && atomRegOk op ty b && op ≠ .exch && op ≠ .cas &&
    (match o with | .plain | .rlx | .rel => true | _ => false)
  | .fence h o _ => retOk h false false false && (match o with | .plain | .rlx => false | _ => true)
  | .monwait h _ o _ wide d a c =>
    retOk h true false true && regOk false wide d && vPairOk a && regOk false wide c &&
    (match o with | .plain | .rlx | .acq => true | _ => false)
  | .poll h _ o _ wide _ d a c =>
    retOk h true false true && regOk false wide d && vPairOk a && regOk false wide c &&
    (match o with | .plain | .rlx | .acq => true | _ => false)
  | .tbinit h _ g a n => retOk h true false n.isReg && regOk g false a && n.ok false
  | .tbarr h _ g a => retOk h true false false && regOk g false a
  | .tbexp h _ g a n => retOk h true false n.isReg && regOk g false a && n.ok false
  | .tbwait h _ g a p => retOk h true false p.isReg && regOk g false a && p.ok false
  | .tbstat h _ g d a => retOk h true false false && vOk d && regOk g false a
  | .bartm h x n => retOk h true false n.isReg && xOk x && n.ok false
  | .barcl h b n => retOk h false false n.isReg && b.toNat < 4 && n.ok false
  | .xsign h d x n => retOk h true false n.isReg && vOk d && xOk x && n.ok false
  | .xwait h x p => retOk h true false p.isReg && xOk x && p.ok false
  | .cptLd h g _ m blk o4 =>
    retOk h true true true && m.toNat % 4 == 0 && blk.toNat % 8 == 0 && regOk g false m && regOk g false blk && regOk g false o4
  | .cptSt h g _ s m blk o4 =>
    retOk h true true true && m.toNat % 4 == 0 && blk.toNat % 8 == 0 && regOk g true s && regOk g false m &&
    regOk g false blk && regOk g false o4
  | .cpg h g s a b c => retOk h true true true && regOk g true s && regOk g true a && regOk g true b && regOk g true c
  | .cps h g _ s a b c => retOk h true true true && regOk g true s && regOk g true a && regOk g false b && regOk g true c
  | .cpr h g _ bar a b c => retOk h true true true && regOk g false bar && regOk g true a && regOk g false b && regOk g false c
  | .cpfill h g _ bar a pat c =>
    retOk h true true true && regOk g false bar && regOk g false a && regOk g false pat && regOk g false c
  | .cpfillMem h g s a pat c => retOk h true true true && regOk g true s && regOk g true a && regOk g false pat && regOk g true c
  | .cpcommit h d => retOk h false false false && vOk d
  | .cpwait h n => retOk h false false n.isReg && !n.isV && n.ok false
  | .cpwaitUpto h b => retOk h false false b.isReg && b.ok false
  | .mxcfg h _ x n => retOk h true false n.isReg && xOk x && n.ok false
  | .mxmul h g x b => retOk h true true false && xOk x && b.toNat ≤ 505 && runOk g b 6
  | .mxzero h g t bar => retOk h true false true && regOk g false t && regOk g false bar
  | .mxld h g t s bar => retOk h true true true && regOk g false t && regOk g false s && regOk g false bar
  | .mxst h g _ t s bar => retOk h true true true && regOk g false t && regOk g false s && regOk g false bar
  | .mxsel24 h g b => retOk h false true false && b.toNat ≤ 505 && runOk g b 6
  | .mxstat h g d a => retOk h true false false && d.toNat % 4 == 0 && regOk g false a
  | .nbgemv h g a => retOk h true false false && regOk g false a
  | .sxload h g mem a n bar =>
    retOk h true true bar.isSome && regOk g mem a && regOk g true n && (match bar with | some r => regOk g false r | none => true)
  | .sxbias h g a n bar =>
    retOk h true true bar.isSome && regOk g false a && regOk g true n && (match bar with | some r => regOk g false r | none => true)
  | .sxclamp h g a n bar =>
    retOk h true true bar.isSome && regOk g false a && regOk g true n && (match bar with | some r => regOk g false r | none => true)
  | .sxrun h g a bar =>
    retOk h true false bar.isSome && regOk g false a && (match bar with | some r => regOk g false r | none => true)
  | .sxread h g _ a n bar =>
    retOk h true true bar.isSome && regOk g false a && regOk g true n && (match bar with | some r => regOk g false r | none => true)
  | .sxkey h g _ a b => retOk h true true false && regOk g true a && regOk g false b
  | .sxjoin h g a b bar =>
    retOk h true true bar.isSome && regOk g false a && regOk g false b && (match bar with | some r => regOk g false r | none => true)
  | .sxhealth h g a b => retOk h true true false && regOk g false a && regOk g false b
  | .spawn h g _ n entry join pay =>
    retOk h true true (n ≠ 0) && n.toNat ≤ 4 && regOk g true entry && regOk g true join &&
    (if n = 0 then pay = 0 else runOk false pay n.toNat)
  | .spwflush h => retOk h false false false
  | .jwait h g a => retOk h true false false && regOk g true a
  | .launch h g d a => retOk h true false false && vOk d && regOk g true a
  | .fetchw h g d a => retOk h true false false && vOk d && regOk g false a
  | .wlappend h g a c => retOk h true false true && regOk g false a && vPairOk c
  | .wltake h _ d => retOk h false false false && vPairOk d
  | .tkwait h d q k => retOk h q.isSome false k.isReg && vOk d && k.ok false
  | .tkpass h d q k => retOk h q.isSome false k.isReg && vOk d && k.ok false
  | .quiet h d => retOk h false false false && vOk d
  | .setpri h n => retOk h false false n.isReg && !n.isV && n.ok false
  | .coll h g a => retOk h true false false && regOk g true a
  | .csrr h toG d n =>
    retOk h false false false &&
    (match csrInfo n with
     | some (wide, uni) => (!toG || uni) && regOk toG wide d
     | none => false)
  | .csrw h n c => retOk h false false c.isReg && (n.toNat == 0x022 || n.toNat == 0x023) && c.ok false
  | .syscall h d a n => retOk h true false false && vPairOk d && vPairOk a && n.toNat < 256
  | .trapret h g c => retOk h false false true && regOk g true c
  | .npbegin h => retOk h false false false
  | .npend h => retOk h false false false
  | _ => false

end Sys2Proof
end

