-- ==== Sys2Proof/Decode.lean ====
section
/-! DEFINITION. Decode.lean: from the words of an instruction to `Instr`, total on any bits, and back (R301 to R309, R318,
R319). `decodeWords` rejects by name; `encode` writes the words of a well-formed instruction from the same tables. -/
namespace Sys2Proof

/-- Why a word is no instruction (R319): the three static faults, in the order they are checked. -/
inductive Reject where
  | illegalOp
  | illegalPair
  | illegalOperand
deriving DecidableEq, Repr

/-- The fields of a full-form word (R301). -/
structure Fields where
  opc : BitVec 10
  d : RegIx
  a : RegIx
  b : RegIx
  c : RegIx
  hdr : Hdr
  mod : BitVec 7
deriving DecidableEq, Repr

/-- Bits hi down to lo of a word. -/
def bits {n : Nat} (x : BitVec n) (hi lo : Nat) : BitVec (hi - lo + 1) := BitVec.extractLsb' lo (hi - lo + 1) x

/-- One bit of a word. -/
def bit {n : Nat} (x : BitVec n) (i : Nat) : Bool := x.getLsbD i

/-- A Bool as one bit. -/
def b1 (b : Bool) : BitVec 1 := if b then 1#1 else 0#1

/-- The fields of word w (R301). -/
def Fields.ofWord (w : DWord) : Fields :=
  { opc := BitVec.extractLsb' 53 10 w
    d := BitVec.extractLsb' 44 9 w
    a := BitVec.extractLsb' 35 9 w
    b := BitVec.extractLsb' 26 9 w
    c := BitVec.extractLsb' 17 9 w
    hdr := { stall := BitVec.extractLsb' 13 4 w
             ret := BitVec.extractLsb' 11 2 w
             gp := BitVec.extractLsb' 8 3 w
             gn := w.getLsbD 7 }
    mod := BitVec.extractLsb' 0 7 w }

/-- The word with these fields (R301). -/
def Fields.word (f : Fields) : DWord :=
  0#1 ++ f.opc ++ f.d ++ f.a ++ f.b ++ f.c ++ f.hdr.stall ++ f.hdr.ret ++ f.hdr.gp ++ b1 f.hdr.gn ++ f.mod

/-! ### Enumerations and their codes -/

def IntTy.code : IntTy → BitVec 4
  | .s32 => 0 | .n32 => 1 | .s64 => 2 | .n64 => 3 | .s16 => 4 | .n16 => 5 | .s8 => 6 | .n8 => 7 | .b32 => 8
def IntTy.ofCode (c : BitVec 4) : Option IntTy :=
  match c.toNat with
  | 0 => some .s32 | 1 => some .n32 | 2 => some .s64 | 3 => some .n64 | 4 => some .s16 | 5 => some .n16 | 6 => some .s8
  | 7 => some .n8 | 8 => some .b32 | _ => none
def Fmt.code : Fmt → BitVec 2
  | .f16 => 0 | .bf16 => 1 | .f32 => 2 | .f64 => 3
def Fmt.ofCode (c : BitVec 2) : Fmt :=
  match c.toNat with
  | 0 => .f16 | 1 => .bf16 | 2 => .f32 | _ => .f64
def Dir.code : Dir → BitVec 3
  | .rm => 0 | .rne => 1 | .rtz => 2 | .rup => 3 | .rdn => 4 | .rna => 5
def Dir.ofCode (c : BitVec 3) : Option Dir :=
  match c.toNat with
  | 0 => some .rm | 1 => some .rne | 2 => some .rtz | 3 => some .rup | 4 => some .rdn | 5 => some .rna | _ => none
def Cmp.code : Cmp → BitVec 3
  | .eq => 0 | .ne => 1 | .lt => 2 | .le => 3 | .gt => 4 | .ge => 5
def Cmp.ofCode (c : BitVec 3) : Option Cmp :=
  match c.toNat with
  | 0 => some .eq | 1 => some .ne | 2 => some .lt | 3 => some .le | 4 => some .gt | 5 => some .ge | _ => none
def BoolOp.code : BoolOp → BitVec 2
  | .and => 0 | .or => 1 | .xor => 2
def BoolOp.ofCode (c : BitVec 2) : Option BoolOp :=
  match c.toNat with
  | 0 => some .and | 1 => some .or | 2 => some .xor | _ => none
def FCmp.code : FCmp → BitVec 4
  | .eq => 0 | .ne => 1 | .lt => 2 | .le => 3 | .gt => 4 | .ge => 5 | .num => 6 | .nan => 7 | .equ => 8 | .neu => 9
  | .ltu => 10 | .leu => 11 | .gtu => 12 | .geu => 13
def FCmp.ofCode (c : BitVec 4) : Option FCmp :=
  match c.toNat with
  | 0 => some .eq | 1 => some .ne | 2 => some .lt | 3 => some .le | 4 => some .gt | 5 => some .ge | 6 => some .num
  | 7 => some .nan | 8 => some .equ | 9 => some .neu | 10 => some .ltu | 11 => some .leu | 12 => some .gtu
  | 13 => some .geu | _ => none
def ShflMode.code : ShflMode → BitVec 2
  | .idx => 0 | .rot => 1 | .xor => 2 | .shd => 3
def ShflMode.ofCode (c : BitVec 2) : ShflMode :=
  match c.toNat with
  | 0 => .idx | 1 => .rot | 2 => .xor | _ => .shd
def SwapTy.code : SwapTy → BitVec 2
  | .b32 => 0 | .s32 => 1 | .f32 => 2 | .f16 => 3
def SwapTy.ofCode (c : BitVec 2) : SwapTy :=
  match c.toNat with
  | 0 => .b32 | 1 => .s32 | 2 => .f32 | _ => .f16
def VoteMode.code : VoteMode → BitVec 3
  | .mask => 0 | .count => 1 | .some => 2 | .every => 3 | .same => 4
def VoteMode.ofCode (c : BitVec 3) : Option VoteMode :=
  match c.toNat with
  | 0 => Option.some .mask | 1 => Option.some .count | 2 => Option.some .some | 3 => Option.some .every
  | 4 => Option.some .same | _ => Option.none
def ReduxOp.code : ReduxOp → BitVec 3
  | .add => 0 | .adds => 1 | .min => 2 | .max => 3 | .and => 4 | .or => 5 | .xor => 6 | .scan => 7
def ReduxOp.ofCode (c : BitVec 3) : ReduxOp :=
  match c.toNat with
  | 0 => .add | 1 => .adds | 2 => .min | 3 => .max | 4 => .and | 5 => .or | 6 => .xor | _ => .scan
def CvtTy.code : CvtTy → BitVec 4
  | .s32 => 0 | .n32 => 1 | .s64 => 2 | .n64 => 3 | .s16 => 4 | .n16 => 5 | .s8 => 6 | .n8 => 7 | .f16 => 8 | .bf16 => 9
  | .f32 => 10 | .f64 => 11 | .e4m3 => 12 | .e5m2 => 13 | .mxi8 => 14
def CvtTy.ofCode (c : BitVec 4) : Option CvtTy :=
  match c.toNat with
  | 0 => some .s32 | 1 => some .n32 | 2 => some .s64 | 3 => some .n64 | 4 => some .s16 | 5 => some .n16 | 6 => some .s8
  | 7 => some .n8 | 8 => some .f16 | 9 => some .bf16 | 10 => some .f32 | 11 => some .f64 | 12 => some .e4m3
  | 13 => some .e5m2 | 14 => some .mxi8 | _ => none
def Scope.code : Scope → BitVec 3
  | .thr => 0 | .grp => 1 | .team => 2 | .clu => 3 | .dev => 4 | .sys => 5
def Scope.ofCode (c : BitVec 3) : Option Scope :=
  match c.toNat with
  | 0 => some .thr | 1 => some .grp | 2 => some .team | 3 => some .clu | 4 => some .dev | 5 => some .sys | _ => none
def Ord.code : Ord → BitVec 3
  | .plain => 0 | .rlx => 1 | .acq => 2 | .rel => 3 | .ar => 4 | .sc => 5
def Ord.ofCode (c : BitVec 3) : Option Ord :=
  match c.toNat with
  | 0 => some .plain | 1 => some .rlx | 2 => some .acq | 3 => some .rel | 4 => some .ar | 5 => some .sc | _ => none
def Hint.code : Hint → BitVec 2
  | .none => 0 | .ef => 1 | .nl1 => 2
def Hint.ofCode (c : BitVec 2) : Option Hint :=
  match c.toNat with
  | 0 => Option.some .none | 1 => Option.some .ef | 2 => Option.some .nl1 | _ => Option.none
def Space.code : Space → BitVec 3
  | .gen => 0 | .glb => 1 | .cst => 2 | .loc => 3 | .scr => 4 | .cscr => 5
def Space.ofCode (c : BitVec 3) : Option Space :=
  match c.toNat with
  | 0 => some .gen | 1 => some .glb | 2 => some .cst | 3 => some .loc | 4 => some .scr | 5 => some .cscr | _ => none
def Width.code : Width → BitVec 4
  | .n8 => 0 | .s8 => 1 | .n16 => 2 | .s16 => 3 | .b32 => 4 | .n64 => 5 | .b128 => 6
def Width.ofCode (c : BitVec 4) : Option Width :=
  match c.toNat with
  | 0 => some .n8 | 1 => some .s8 | 2 => some .n16 | 3 => some .s16 | 4 => some .b32 | 5 => some .n64 | 6 => some .b128
  | _ => none
def AtomTy.code : AtomTy → BitVec 3
  | .s32 => 0 | .n32 => 1 | .s64 => 2 | .n64 => 3 | .b32 => 4 | .f32 => 5 | .f64 => 6
def AtomTy.ofCode (c : BitVec 3) : Option AtomTy :=
  match c.toNat with
  | 0 => some .s32 | 1 => some .n32 | 2 => some .s64 | 3 => some .n64 | 4 => some .b32 | 5 => some .f32 | 6 => some .f64
  | _ => none
def AtomOp.code : AtomOp → BitVec 4
  | .add => 0 | .min => 1 | .max => 2 | .and => 3 | .or => 4 | .xor => 5 | .exch => 6 | .cas => 7 | .inc => 8 | .dec => 9
def AtomOp.ofCode (c : BitVec 4) : Option AtomOp :=
  match c.toNat with
  | 0 => some .add | 1 => some .min | 2 => some .max | 3 => some .and | 4 => some .or | 5 => some .xor | 6 => some .exch
  | 7 => some .cas | 8 => some .inc | 9 => some .dec | _ => none
def MonCmp.code : MonCmp → BitVec 3
  | .eq => 0 | .ne => 1 | .ge => 2 | .lt => 3
def MonCmp.ofCode (c : BitVec 3) : Option MonCmp :=
  match c.toNat with
  | 0 => some .eq | 1 => some .ne | 2 => some .ge | 3 => some .lt | _ => none
def PrefLvl.code : PrefLvl → BitVec 2
  | .l1 => 0 | .l2 => 1 | .llc => 2
def PrefLvl.ofCode (c : BitVec 2) : Option PrefLvl :=
  match c.toNat with
  | 0 => some .l1 | 1 => some .l2 | 2 => some .llc | _ => none
def MxMode.code : MxMode → BitVec 2
  | .bf16 => 0 | .s8 => 1 | .sp24 => 2
def MxMode.ofCode (c : BitVec 2) : Option MxMode :=
  match c.toNat with
  | 0 => some .bf16 | 1 => some .s8 | 2 => some .sp24 | _ => none
def QWidth.code : QWidth → BitVec 2
  | .b32 => 0 | .n64 => 1 | .b128 => 2
def QWidth.ofCode (c : BitVec 2) : Option QWidth :=
  match c.toNat with
  | 0 => some .b32 | 1 => some .n64 | 2 => some .b128 | _ => none
def PairOp.code : PairOp → BitVec 7
  | .nop => 0x00 | .mov => 0x01 | .add => 0x02 | .sub => 0x03 | .mul => 0x04 | .minS => 0x05 | .maxS => 0x06 | .minN => 0x07
  | .maxN => 0x08 | .and => 0x09 | .or => 0x0A | .xor => 0x0B | .andn => 0x0C | .shl => 0x0D | .shr => 0x0E | .sar => 0x0F
  | .fadd => 0x10 | .fsub => 0x11 | .fmul => 0x12 | .fmin => 0x13 | .fmax => 0x14 | .fadd2b => 0x15 | .fmul2b => 0x16
  | .fadd2h => 0x17 | .fmul2h => 0x18 | .neg => 0x19 | .abs => 0x1A | .popc => 0x1B | .brev => 0x1C | .clz => 0x1D
  | .cvtF => 0x1E | .cvtS => 0x1F | .scrLd => 0x20 | .scrSt => 0x21 | .locLd => 0x22 | .locSt => 0x23 | .quePop => 0x24
  | .quePush => 0x25
def PairOp.ofCode (c : BitVec 7) : Option PairOp :=
  match c.toNat with
  | 0x00 => some .nop | 0x01 => some .mov | 0x02 => some .add | 0x03 => some .sub | 0x04 => some .mul | 0x05 => some .minS
  | 0x06 => some .maxS | 0x07 => some .minN | 0x08 => some .maxN | 0x09 => some .and | 0x0A => some .or | 0x0B => some .xor
  | 0x0C => some .andn | 0x0D => some .shl | 0x0E => some .shr | 0x0F => some .sar | 0x10 => some .fadd | 0x11 => some .fsub
  | 0x12 => some .fmul | 0x13 => some .fmin | 0x14 => some .fmax | 0x15 => some .fadd2b | 0x16 => some .fmul2b
  | 0x17 => some .fadd2h | 0x18 => some .fmul2h | 0x19 => some .neg | 0x1A => some .abs | 0x1B => some .popc
  | 0x1C => some .brev | 0x1D => some .clz | 0x1E => some .cvtF | 0x1F => some .cvtS | 0x20 => some .scrLd
  | 0x21 => some .scrSt | 0x22 => some .locLd | 0x23 => some .locSt | 0x24 => some .quePop | 0x25 => some .quePush
  | _ => none

/-! ### Pair words (R305 to R308) -/

/-- A slot from its 31 bits. -/
def Slot.ofBits (x : BitVec 31) : Option Slot :=
  (PairOp.ofCode (BitVec.extractLsb' 24 7 x)).map fun op =>
    { op := op, d := BitVec.extractLsb' 15 9 x, a := BitVec.extractLsb' 6 9 x, stall := BitVec.extractLsb' 3 3 x,
      gp := BitVec.extractLsb' 0 3 x }

/-- The 31 bits of a slot. -/
def Slot.toBits (s : Slot) : BitVec 31 := s.op.code ++ s.d ++ s.a ++ s.stall ++ s.gp

/-- Does the slot compute d := d op a (POP 0x02 to 0x18), so that it reads d? -/
def PairOp.dyadic (op : PairOp) : Bool := 2 ≤ op.code.toNat && op.code.toNat ≤ 0x18
/-- POP 0x20 to 0x25. -/
def PairOp.isMem (op : PairOp) : Bool := 0x20 ≤ op.code.toNat

/-- The v registers a slot reads. -/
def Slot.reads (s : Slot) : List RegIx :=
  match s.op with
  | .nop => []
  | .scrSt | .locSt => [s.d, s.a]
  | .quePop => []
  | .quePush => [s.a]
  | op => if op.dyadic then [s.d, s.a] else [s.a]

/-- The v register a slot writes. -/
def Slot.writes (s : Slot) : Option RegIx :=
  match s.op with
  | .nop | .scrSt | .locSt | .quePush => none
  | _ => some s.d

/-- The rules of R306, registers counted by bank, index mod 4. -/
def pairBanksOk (s0 s1 : Slot) : Bool :=
  let rs := (s0.reads ++ s1.reads).eraseDups.filter (fun r => r ≠ 511#9)
  ([0, 1, 2, 3].all fun k => (rs.filter (fun r => r.toNat % 4 == k)).length ≤ 2) &&
  (match s0.writes, s1.writes with
   | some d0, some d1 => d0.toNat % 4 ≠ d1.toNat % 4
   | _, _ => true) &&
  !(s0.op.isMem && s1.op.isMem)

def decodePair (w : DWord) : Except Reject Instr :=
  if w.getLsbD 0 then .error .illegalOp
  else
    match Slot.ofBits (BitVec.extractLsb' 32 31 w), Slot.ofBits (BitVec.extractLsb' 1 31 w) with
    | some s0, some s1 =>
      if (s0.op = .nop && (s0.d ≠ 0 || s0.a ≠ 0)) || (s1.op = .nop && (s1.d ≠ 0 || s1.a ≠ 0)) then .error .illegalOp
      else if !pairBanksOk s0 s1 then .error .illegalPair
      else .ok (.pairWord s0 s1)
    | _, _ => .error .illegalOp

/-! ### Full-form words -/

/-- Continue, or reject the word as ILLEGAL_OP (R319 step 1). -/
def ck (c : Bool) (k : Except Reject Instr) : Except Reject Instr := if c then k else .error .illegalOp

/-- Continue with a value, or reject as ILLEGAL_OP: the code is reserved. -/
def want {α : Type} (o : Option α) (k : α → Except Reject Instr) : Except Reject Instr :=
  match o with
  | some x => k x
  | none => .error .illegalOp

/-- A word that takes no literal: MOD 0x7F faults with ILLEGAL_OPERAND (R319 step 3), after the checks `z` of step 1 that
do not turn on MOD: unused fields, reserved values of other fields, RET. -/
def noLit (f : Fields) (z : Bool) (k : Except Reject Instr) : Except Reject Instr :=
  if z then (if f.mod = 0x7F#7 then .error .illegalOperand else k) else .error .illegalOp

/-- V and the last source of a word of groups 0x0, 0x1, 0x4 to 0x7 (R303, R304). -/
def modSrc (f : Fields) (x : DWord) : Option (BitVec 5 × Src) :=
  if f.mod = 0x7F#7 then
    if BitVec.extractLsb' 7 2 f.c = 0#2 then
      match (BitVec.extractLsb' 5 2 f.c).toNat with
      | 0 => some (BitVec.extractLsb' 0 5 f.c, .lit x)
      | 3 => some (BitVec.extractLsb' 0 5 f.c, .litU x)
      | _ => none
    else none
  else
    match (BitVec.extractLsb' 5 2 f.mod).toNat with
    | 0 => some (BitVec.extractLsb' 0 5 f.mod, .v f.c)
    | 1 => some (BitVec.extractLsb' 0 5 f.mod, .imm f.c)
    | 2 => some (BitVec.extractLsb' 0 5 f.mod, .g f.c)
    | _ => some (BitVec.extractLsb' 0 5 f.mod, .u f.c)

/-- Under LIMM, C carries a modifier with an OPK of 0 or 3, C[8:7] zero, and a type (R304, R319 step 1); of other words
nothing is asked. -/
def limmOk (f : Fields) : Bool :=
  f.mod ≠ 0x7F#7 ||
  (match modSrc f 0 with
   | some (v, _) => (IntTy.ofCode (BitVec.extractLsb' 0 4 v)).isSome
   | none => false)

/-- MOD and field C of a source, and its literal. -/
def Src.enc (v : BitVec 5) : Src → BitVec 7 × RegIx × DWord
  | .v r => (0b00#2 ++ v, r, 0)
  | .imm i => (0b01#2 ++ v, i, 0)
  | .g r => (0b10#2 ++ v, r, 0)
  | .u r => (0b11#2 ++ v, r, 0)
  | .lit x => (0x7F#7, 0b00#2 ++ 0b00#2 ++ v, x)
  | .litU x => (0x7F#7, 0b00#2 ++ 0b11#2 ++ v, x)

/-- The source of a kind field, MOD[6:5] and C; the value 3 has none. -/
def kindOf (f : Fields) : Option Kind :=
  match (BitVec.extractLsb' 5 2 f.mod).toNat with
  | 0 => some (.v f.c)
  | 1 => some (.imm f.c)
  | 2 => some (.g f.c)
  | _ => none

def Kind.enc : Kind → BitVec 2 × RegIx
  | .v r => (0, r)
  | .imm i => (1, i)
  | .g r => (2, r)

/-- Rows of groups 0x0 and 0x1: V[3:0] is the type, V[4] a flag the row may assign (R303, R326). `az`, `bz`: fields A, B
must be zero; `ra`, `rb`: they hold registers. -/
def dInt (f : Fields) (x : DWord) (az bz ra rb v4 : Bool) (mk : IntTy → Bool → Src → Instr) : Except Reject Instr :=
  want (modSrc f x) fun (v, c) =>
  want (IntTy.ofCode (BitVec.extractLsb' 0 4 v)) fun t =>
  ck ((v4 || !v.getLsbD 4) && (!az || f.a = 0) && (!bz || f.b = 0) && retOk f.hdr ra rb c.isReg) <|
  .ok (mk t (v.getLsbD 4) c)

/-- A row that accepts no type but .n32 (R329): any other type faults with ILLEGAL_OPERAND, after the checks of step 1. -/
def onlyN32 (f : Fields) (x : DWord) (k : Except Reject Instr) : Except Reject Instr :=
  match k with
  | .error e => .error e
  | .ok i => want (modSrc f x) fun (v, _) => if BitVec.extractLsb' 0 4 v = 1#4 then .ok i else .error .illegalOperand

/-- Rows of groups 0x4 to 0x7 with the common V: format and direction (R303). -/
def dFp (f : Fields) (x : DWord) (az ra rb : Bool) (bmax : Nat) (mk : Fmt → Dir → Src → Instr) : Except Reject Instr :=
  want (modSrc f x) fun (v, c) =>
  want (Dir.ofCode (BitVec.extractLsb' 0 3 v)) fun r =>
  ck ((!az || f.a = 0) && (rb || f.b.toNat < bmax) && retOk f.hdr ra rb c.isReg) <|
  .ok (mk (Fmt.ofCode (BitVec.extractLsb' 3 2 v)) r c)

/-- The same, for rows that accept no direction: a defined direction faults with ILLEGAL_OPERAND (R358). -/
def dFpNoDir (f : Fields) (x : DWord) (az ra : Bool) (bmax : Nat) (mk : Fmt → Src → Instr) : Except Reject Instr :=
  want (modSrc f x) fun (v, c) =>
  want (Dir.ofCode (BitVec.extractLsb' 0 3 v)) fun r =>
  ck ((!az || f.a = 0) && f.b.toNat < bmax && retOk f.hdr ra false c.isReg) <|
  if r = .rm then .ok (mk (Fmt.ofCode (BitVec.extractLsb' 3 2 v)) c) else .error .illegalOperand

/-- Words whose fields but the named ones are zero and whose MOD is fixed. -/
def dBare (f : Fields) (m : BitVec 7) (i : Instr) : Except Reject Instr :=
  noLit f (f.d = 0 && f.a = 0 && f.b = 0 && f.c = 0 && retOk f.hdr false false false) <| ck (f.mod = m) (.ok i)

/-- The 27-bit offset or literal of BRA and CALL (R347). -/
def dTarget (f : Fields) (x : DWord) (mk : Target → Instr) : Except Reject Instr :=
  if f.mod = 0x7F#7 then
    ck (f.a = 0 && f.b = 0 && f.c = 0 && retOk f.hdr false false false) (.ok (mk (.abs x)))
  else ck (f.mod = 0 && retOk f.hdr false false false) (.ok (mk (.rel (f.a ++ f.b ++ f.c))))

def Target.enc : Target → BitVec 7 × RegIx × RegIx × RegIx × DWord
  | .rel off => (0, BitVec.extractLsb' 18 9 off, BitVec.extractLsb' 9 9 off, BitVec.extractLsb' 0 9 off, 0)
  | .abs x => (0x7F#7, 0, 0, 0, x)

/-- Target pair words: MOD 0x00 for a v pair, 0x40 for a g pair (R347). -/
def dPairTarget (f : Fields) (mk : Bool → Instr) : Except Reject Instr :=
  noLit f (retOk f.hdr false false true) <| ck ((f.mod = 0 || f.mod = 0x40#7)) (.ok (mk (f.mod = 0x40#7)))

/-- The operand of SLEEP and STEP (R347). -/
def dAmount (f : Fields) (x : DWord) (mk : Amount → Instr) : Except Reject Instr :=
  ck (f.d = 0 && f.a = 0 && f.b = 0) <|
  if f.mod = 0x7F#7 then ck (f.c = 0 && retOk f.hdr false false false) (.ok (mk (.lit x)))
  else if f.mod = 0x20#7 then ck (retOk f.hdr false false false) (.ok (mk (.imm f.c)))
  else ck (f.mod = 0x40#7 && retOk f.hdr false false true) (.ok (mk (.g f.c)))

def Amount.enc : Amount → BitVec 7 × RegIx × DWord
  | .imm i => (0x20#7, i, 0)
  | .g r => (0x40#7, r, 0)
  | .lit x => (0x7F#7, 0, x)

/-- B of LD and ST holds no value that is reserved in every space: hint 3; or, where B[2:0] is not 0, an order or scope of
6 or 7 (R377, R380, R382). -/
def ldstRsvOk (b : RegIx) : Bool :=
  (Hint.ofCode (BitVec.extractLsb' 7 2 b)).isSome &&
  (BitVec.extractLsb' 0 3 b = 0#3 ||
    ((Ord.ofCode (BitVec.extractLsb' 3 3 b)).isSome && (Scope.ofCode (BitVec.extractLsb' 0 3 b)).isSome))

/-- LD and ST (R376 to R383). -/
def dLdSt (f : Fields) (load : Bool) : Except Reject Instr :=
  noLit f ((f.mod ≠ 0x7F#7 || ldstRsvOk f.b) && retOk f.hdr true false false) <|
  let sp := BitVec.extractLsb' 4 3 f.mod
  let wc := BitVec.extractLsb' 0 4 f.mod
  ck (wc.toNat ≠ 7 && wc.toNat < 10) <|
  if sp.toNat = 7 then
    ck (ldstRsvOk f.b && BitVec.extractLsb' 6 3 f.b = 0#3 && (Ord.ofCode (BitVec.extractLsb' 3 3 f.b)).isSome && f.c = 0 &&
      retOk f.hdr load false false) <|
    -- R380: other values of the ordering and scope fields are ILLEGAL_OPERAND
    if wc.toNat = 4 && f.b = 0 then .ok (if load then .ldQue f.hdr f.d f.a else .stQue f.hdr f.d f.a) else .error .illegalOperand
  else if sp.toNat = 6 then
    want (Hint.ofCode (BitVec.extractLsb' 7 2 f.b)) fun hint =>
    ck ((Scope.ofCode (BitVec.extractLsb' 0 3 f.b)).isSome) <|
    if load && 8 ≤ wc.toNat && BitVec.extractLsb' 0 3 f.b = 0#3 then
      .ok (.ldTyp f.hdr (wc.toNat == 9) hint (f.b.getLsbD 6) (BitVec.extractLsb' 3 3 f.b) f.d f.a f.c)
    else .error .illegalOperand
  else
    want (Space.ofCode sp) fun space =>
    want (Hint.ofCode (BitVec.extractLsb' 7 2 f.b)) fun hint =>
    want (Ord.ofCode (BitVec.extractLsb' 3 3 f.b)) fun o =>
    want (Scope.ofCode (BitVec.extractLsb' 0 3 f.b)) fun sc =>
    match Width.ofCode wc with
    | none => .error .illegalOperand
    | some w =>
      .ok (if load then .ld f.hdr space w o sc hint (f.b.getLsbD 6) f.d f.a f.c
           else .st f.hdr space w o sc hint (f.b.getLsbD 6) f.d f.a f.c)

/-- The fields B and MOD of LD and ST. -/
def ldstB (hint : Hint) (g : Bool) (o : Ord) (sc : Scope) : RegIx := hint.code ++ b1 g ++ o.code ++ sc.code

/-- LDF and STF (R384): `keep` is LDF's B[0]. -/
def dLdfStf (f : Fields) (load : Bool) : Except Reject Instr :=
  noLit f (retOk f.hdr true false false) <|
  let sp := (BitVec.extractLsb' 4 3 f.mod).toNat
  let wc := BitVec.extractLsb' 0 4 f.mod
  ck (wc.toNat ≠ 7 && wc.toNat < 10) <|
  if (sp = 4 || sp = 5) && f.b.toNat < (if load then 2 else 1) then
    match Width.ofCode wc with
    | none => .error .illegalOperand
    | some w =>
      .ok (if load then .ldf f.hdr (sp == 5) w (f.b.getLsbD 0) f.d f.a f.c else .stf f.hdr (sp == 5) w f.d f.a f.c)
  else .error .illegalOperand

/-- MONWAIT and POLL (R392, R393). -/
def dMon (f : Fields) (poll : Bool) : Except Reject Instr :=
  noLit f ((MonCmp.ofCode (BitVec.extractLsb' 6 3 f.b)).isSome && (Ord.ofCode (BitVec.extractLsb' 3 3 f.b)).isSome && (Scope.ofCode (BitVec.extractLsb' 0 3 f.b)).isSome && retOk f.hdr true false true) <|
  want (MonCmp.ofCode (BitVec.extractLsb' 6 3 f.b)) fun cmp =>
  want (Ord.ofCode (BitVec.extractLsb' 3 3 f.b)) fun o =>
  want (Scope.ofCode (BitVec.extractLsb' 0 3 f.b)) fun sc =>
  ck ((poll || BitVec.extractLsb' 4 3 f.mod = 0#3)) <|
  match (BitVec.extractLsb' 0 4 f.mod).toNat with
  | 4 => .ok (if poll then .poll f.hdr cmp o sc false (BitVec.extractLsb' 4 3 f.mod) f.d f.a f.c
              else .monwait f.hdr cmp o sc false f.d f.a f.c)
  | 5 => .ok (if poll then .poll f.hdr cmp o sc true (BitVec.extractLsb' 4 3 f.mod) f.d f.a f.c
              else .monwait f.hdr cmp o sc true f.d f.a f.c)
  | _ => .error .illegalOperand

/-- ATOM and RED (R388). -/
def dAtom (f : Fields) (red : Bool) : Except Reject Instr :=
  noLit f ((Ord.ofCode (BitVec.extractLsb' 3 3 f.c)).isSome && (Scope.ofCode (BitVec.extractLsb' 0 3 f.c)).isSome && BitVec.extractLsb' 7 2 f.c = 0#2 && (!red || f.d = 0) && retOk f.hdr true true false) <|
  want (Ord.ofCode (BitVec.extractLsb' 3 3 f.c)) fun o =>
  want (Scope.ofCode (BitVec.extractLsb' 0 3 f.c)) fun sc =>
  want (AtomTy.ofCode (BitVec.extractLsb' 4 3 f.mod)) fun ty =>
  want (AtomOp.ofCode (BitVec.extractLsb' 0 4 f.mod)) fun op =>
    .ok (if red then .red f.hdr op ty o sc (f.c.getLsbD 6) f.a f.b else .atom f.hdr op ty o sc (f.c.getLsbD 6) f.d f.a f.b)

/-- The barrier words TBINIT, TBEXP and TBWAIT: MOD[4] .cscr, MOD[3] G, kind C (R397). -/
def dTb (f : Fields) (mk : Bool → Bool → Kind → Instr) : Except Reject Instr :=
  noLit f (f.d = 0 && f.b = 0 && retOk f.hdr true false true) <| want (kindOf f) fun n =>
  ck (BitVec.extractLsb' 0 3 f.mod = 0#3 && retOk f.hdr true false n.isReg) <|
  .ok (mk (f.mod.getLsbD 4) (f.mod.getLsbD 3) n)

/-- Words with a kind C whose other MOD bits and named-zero fields are zero. -/
def dKind (f : Fields) (zero : Bool) (ra : Bool) (mk : Kind → Instr) : Except Reject Instr :=
  noLit f (zero && retOk f.hdr ra false true) <| want (kindOf f) fun n =>
  ck (BitVec.extractLsb' 0 5 f.mod = 0#5 && retOk f.hdr ra false n.isReg) (.ok (mk n))

/-- Copy words: MOD[5] G, MOD[4] .cscr, the other bits as `low` says (R402). -/
def dCopy (f : Fields) (clu : Bool) (low : BitVec 4) (dz : Bool) (mk : Bool → Bool → Instr) : Except Reject Instr :=
  noLit f ((!dz || f.d = 0) && retOk f.hdr true true true) <|
  ck (!f.mod.getLsbD 6 && (clu || !f.mod.getLsbD 4) && BitVec.extractLsb' 0 4 f.mod = low) <|
  .ok (mk (f.mod.getLsbD 5) (f.mod.getLsbD 4))

/-- Words with only MOD[5] = G (R405); `zero` says the fields the row leaves out are zero. -/
def dG (f : Fields) (zero ra rb rc : Bool) (mk : Bool → Instr) : Except Reject Instr :=
  noLit f (zero && retOk f.hdr ra rb rc) <| ck (BitVec.extractLsb' 0 5 f.mod = 0#5 && !f.mod.getLsbD 6) <|
  .ok (mk (f.mod.getLsbD 5))

/-- Sphinx words (R413, R414): MOD[5] G, MOD[4] barrier in C, MOD[3] .mem (SXLOAD), MOD[0] the form (SXREAD). -/
def dSx (f : Fields) (bz mem form : Bool) (mk : Bool → Bool → Bool → Option RegIx → Instr) : Except Reject Instr :=
  noLit f (f.d = 0 && (!bz || f.b = 0) && retOk f.hdr true (!bz) true) <|
  ck (!f.mod.getLsbD 6 && (mem || !f.mod.getLsbD 3) && BitVec.extractLsb' 1 2 f.mod = 0#2 && (form || !f.mod.getLsbD 0) && (f.mod.getLsbD 4 || f.c = 0) && retOk f.hdr true (!bz) (f.mod.getLsbD 4)) <|
  .ok (mk (f.mod.getLsbD 5) (f.mod.getLsbD 3) (f.mod.getLsbD 0) (if f.mod.getLsbD 4 then some f.c else none))

/-- MOD and C of a Sphinx word. -/
def sxMod (g mem form : Bool) (bar : Option RegIx) : BitVec 7 × RegIx :=
  (0#1 ++ b1 g ++ b1 bar.isSome ++ b1 mem ++ 0#2 ++ b1 form, bar.getD 0)

/-- TKWAIT and TKPASS (R422). -/
def dTk (f : Fields) (mk : Option RegIx → Kind → Instr) : Except Reject Instr :=
  noLit f (f.b = 0 && retOk f.hdr true false true) <| want (kindOf f) fun k =>
  ck (BitVec.extractLsb' 0 4 f.mod = 0#4 && (f.mod.getLsbD 4 || f.a = 0) && retOk f.hdr (f.mod.getLsbD 4) false k.isReg) <|
  .ok (mk (if f.mod.getLsbD 4 then some f.a else none) k)

/-- The full-form word with these fields and literal `x`, before the operand checks of R319 step 3 (`Instr.wf`). Rows
follow the opcode map (R318). -/
def decodeFull (f : Fields) (x : DWord) : Except Reject Instr :=
  let h := f.hdr
  match f.opc.toNat with
  -- group 0x0
  | 0x000 => dInt f x false true true false true fun t s c => .add h t s f.d f.a c
  | 0x001 => ck (BitVec.extractLsb' 7 2 f.b = 0#2) <| onlyN32 f x <| dInt f x false false true false false fun _ _ c => .addc h f.d (0#6 ++ BitVec.extractLsb' 4 3 f.b) f.a c (BitVec.extractLsb' 0 3 f.b) (f.b.getLsbD 3)
  | 0x002 => dInt f x false true true false true fun t s c => .sub h t s f.d f.a c
  | 0x003 => ck (BitVec.extractLsb' 7 2 f.b = 0#2) <| onlyN32 f x <| dInt f x false false true false false fun _ _ c => .subb h f.d (0#6 ++ BitVec.extractLsb' 4 3 f.b) f.a c (BitVec.extractLsb' 0 3 f.b) (f.b.getLsbD 3)
  | 0x004 => dInt f x false true true false false fun t _ c => .mul h t f.d f.a c
  | 0x005 => dInt f x false true true false false fun t _ c => .mulh h t f.d f.a c
  | 0x006 => dInt f x false true true false false fun t _ c => .mulw h t f.d f.a c
  | 0x007 => dInt f x false false true true false fun t _ c => .mad h t f.d f.a f.b c
  | 0x008 => dInt f x false false true true false fun t _ c => .madw h t f.d f.a f.b c
  | 0x009 => dInt f x false true true false false fun t _ c => .idiv h t f.d f.a c
  | 0x00A => dInt f x false true true false false fun t _ c => .irem h t f.d f.a c
  | 0x00B => dInt f x false true true false false fun t _ c => .min h t f.d f.a c
  | 0x00C => dInt f x false true true false false fun t _ c => .max h t f.d f.a c
  | 0x00D => dInt f x true true false false true fun t s c => .abs h t s f.d c
  | 0x00E => dInt f x true true false false true fun t s c => .neg h t s f.d c
  | 0x00F =>
    want (Cmp.ofCode (BitVec.extractLsb' 0 3 f.b)) fun cmp => want (BoolOp.ofCode (BitVec.extractLsb' 7 2 f.b)) fun bop =>
    dInt f x false false true false false fun t _ c => .isetp h t cmp bop f.d f.a c (BitVec.extractLsb' 3 3 f.b) (f.b.getLsbD 6)
  | 0x010 => ck (f.b.toNat < 16) <| dInt f x false false true false false fun t _ c => .sel h t f.d f.a c (BitVec.extractLsb' 0 3 f.b) (f.b.getLsbD 3)
  | 0x011 => ck (f.b.toNat < 32) <| dInt f x false false true false false fun t _ c => .lea h t f.d f.a c (BitVec.extractLsb' 0 5 f.b)
  | 0x012 => dInt f x true true false false false fun t _ c => .mov h t f.d c
  | 0x013 =>
    ck (f.a = 0) <| noLit f (limmOk f && retOk h false false false) <| want (IntTy.ofCode (BitVec.extractLsb' 0 4 f.mod)) fun t =>
    if BitVec.extractLsb' 5 2 f.mod = 1#2 then .ok (.movi h t (f.mod.getLsbD 4) f.d (f.b ++ f.c)) else .error .illegalOperand
  | 0x014 =>
    ck (f.mod = 0x7F#7 && f.a = 0 && f.b = 0 && retOk h false false false) <| want (modSrc f x) fun (v, c) =>
    want (IntTy.ofCode (BitVec.extractLsb' 0 4 v)) fun t => .ok (.limm h t (v.getLsbD 4) c.isU f.d x)
  -- group 0x1
  | 0x040 => dInt f x false true true false false fun t _ c => .and h t f.d f.a c
  | 0x041 => dInt f x false true true false false fun t _ c => .or h t f.d f.a c
  | 0x042 => dInt f x false true true false false fun t _ c => .xor h t f.d f.a c
  | 0x043 => dInt f x false true true false false fun t _ c => .andn h t f.d f.a c
  | 0x044 =>
    ck (!f.b.getLsbD 8 || BitVec.extractLsb' 4 4 f.b = 0#4) <|
    dInt f x false false true false false fun t _ c => .lop3 h t f.d f.a c (BitVec.extractLsb' 0 8 f.b) (f.b.getLsbD 8)
  | 0x045 => dInt f x false true true false false fun t _ c => .shl h t f.d f.a c
  | 0x046 => dInt f x false true true false false fun t _ c => .shr h t f.d f.a c
  | 0x047 => dInt f x false true true false false fun t _ c => .sar h t f.d f.a c
  | 0x048 => dInt f x false false true true true fun t r c => .fshf h t r f.d f.a f.b c
  | 0x049 => dInt f x false true true false false fun t _ c => .bfx h t f.d f.a c
  | 0x04A => dInt f x false false true true false fun t _ c => .bfi h t f.d f.a f.b c
  | 0x04B => dInt f x true true false false false fun t _ c => .popc h t f.d c
  | 0x04C => dInt f x true true false false false fun t _ c => .clz h t f.d c
  | 0x04D => dInt f x true true false false false fun t _ c => .ctz h t f.d c
  | 0x04E => dInt f x true true false false false fun t _ c => .brev h t f.d c
  | 0x04F => dInt f x false false true true false fun t _ c => .prmt h t f.d f.a f.b c
  -- group 0x2
  | 0x080 => noLit f (f.b = 0 && retOk h true false true) <| ck (f.mod.toNat < 4) (.ok (.pand h f.d f.a (f.mod.getLsbD 0) f.c (f.mod.getLsbD 1)))
  | 0x081 => noLit f (f.b = 0 && retOk h true false true) <| ck (f.mod.toNat < 4) (.ok (.por h f.d f.a (f.mod.getLsbD 0) f.c (f.mod.getLsbD 1)))
  | 0x082 => noLit f (f.b = 0 && retOk h true false true) <| ck (f.mod.toNat < 4) (.ok (.pxor h f.d f.a (f.mod.getLsbD 0) f.c (f.mod.getLsbD 1)))
  | 0x083 => noLit f (f.a = 0 && f.b = 0 && retOk h false false true) <| ck (f.mod = 0) (.ok (.pnot h f.d f.c))
  | 0x084 => noLit f (f.a = 0 && f.b = 0 && retOk h false false true) <| ck (f.mod = 0) (.ok (.pmov h f.d f.c))
  | 0x085 =>
    noLit f (f.a = 0 && retOk h false false true) <|
    if f.mod = 0 then ck (f.b = 0 && f.c = 0 && retOk h false false false) (.ok (.psetPack h f.d))
    else ck (f.mod = 1 && f.d = 0 && f.b.toNat < 128)
      (.ok (.psetUnpack h (BitVec.extractLsb' 0 7 f.b) f.c))
  | 0x088 =>
    noLit f (f.b.toNat < 32 && BitVec.extractLsb' 2 3 f.b ≠ 6#3 && BitVec.extractLsb' 2 3 f.b ≠ 7#3 && retOk h true false true) <| ck (BitVec.extractLsb' 0 5 f.mod = 0#5) <|
    match kindOf f with
    | none => .error .illegalOperand
    | some c => ck (retOk h true false c.isReg) (.ok (.shfl h (ShflMode.ofCode (BitVec.extractLsb' 0 2 f.b)) (BitVec.extractLsb' 2 3 f.b) f.d f.a c))
  | 0x089 =>
    noLit f (f.a = 0 && f.b = 0 && retOk h false false true) <| ck (BitVec.extractLsb' 5 2 f.mod = 0#2 && !f.mod.getLsbD 2) <|
    .ok (.lswap h (SwapTy.ofCode (BitVec.extractLsb' 3 2 f.mod)) (f.mod.getLsbD 1) (f.mod.getLsbD 0) f.d f.c)
  | 0x08A =>
    noLit f (f.a = 0 && f.b = 0 && retOk h false false true) <| want (VoteMode.ofCode (BitVec.extractLsb' 0 3 f.mod)) fun m =>
    ck (BitVec.extractLsb' 5 2 f.mod = 0#2) <|
    .ok (.vote h m (f.mod.getLsbD 3) (f.mod.getLsbD 4) f.d f.c)
  | 0x08B => noLit f (f.a = 0 && f.b = 0 && retOk h false false true) <| ck (f.mod.toNat < 2) (.ok (.matchLanes h (f.mod.getLsbD 0) f.d f.c))
  | 0x08C =>
    noLit f (f.a = 0 && f.b = 0 && retOk h false false true) <| ck (BitVec.extractLsb' 5 2 f.mod = 0#2) <|
    let op := ReduxOp.ofCode (BitVec.extractLsb' 0 3 f.mod)
    ck (!f.mod.getLsbD 3 || (op ≠ .and && op ≠ .or && op ≠ .xor)) (.ok (.redux h op (f.mod.getLsbD 3) (f.mod.getLsbD 4) f.d f.c))
  | 0x08D => noLit f (f.a = 0 && f.b = 0 && f.c = 0 && retOk h false false false) <| ck (f.mod.toNat < 2) (.ok (.elect h (f.mod.getLsbD 0) f.d))
  | 0x08E => noLit f (f.a = 0 && f.b.toNat < 32 && retOk h false false true) <| ck (f.mod = 0) (.ok (.bcast h f.d f.c (BitVec.extractLsb' 0 5 f.b)))
  | 0x08F =>
    noLit f (f.a = 0 && f.b.toNat < 64 && (f.b.getLsbD 5 || f.b = 0) && retOk h false false true) <| ck (f.mod = 0) <|
    .ok (.umov h f.d f.c (if f.b.getLsbD 5 then some (BitVec.extractLsb' 0 5 f.b) else none))
  -- group 0x3
  | 0x0C0 => ck (f.d = 0) <| dTarget f x fun t => .bra h t
  | 0x0C1 => ck (f.d = 0 && !(f.a = 0 && f.b = 0)) <| dPairTarget f fun g => .brx h g (f.a ++ f.b) f.c
  | 0x0C2 => dTarget f x fun t => .call h f.d t
  | 0x0C3 => ck (!(f.a = 0 && f.b = 0)) <| dPairTarget f fun g => .callx h g f.d (f.a ++ f.b) f.c
  | 0x0C4 => ck (f.d = 0 && f.a = 0 && f.b = 0) <| dPairTarget f fun g => .ret h g f.c
  | 0x0C5 => dBare f 0 (.rjoin h)
  | 0x0C6 => dBare f 0 (.exit h)
  | 0x0C7 => noLit f (f.d = 0 && f.a = 0 && f.b = 0 && retOk h false false false) <| ck (f.mod = 0) (.ok (.trap h f.c))
  | 0x0C8 => noLit f (f.d = 0 && f.a = 0 && f.b = 0 && retOk h false false false) <| ck (f.mod = 0) (.ok (.bkpt h f.c))
  | 0x0C9 => dBare f 0 (.nop h)
  | 0x0CA => dBare f 0 (.yield h)
  | 0x0CB => dAmount f x fun n => .sleep h n
  | 0x0CC => dAmount f x fun n => .step h n
  -- group 0x4
  | 0x100 => dFp f x false true false 1 fun t r c => .fadd h t r f.d f.a c
  | 0x101 => dFp f x false true false 1 fun t r c => .fsub h t r f.d f.a c
  | 0x102 => dFp f x false true false 1 fun t r c => .fmul h t r f.d f.a c
  | 0x103 => dFp f x false true true 1 fun t r c => .ffma h t r f.d f.a f.b c
  | 0x104 => dFpNoDir f x false true 1 fun t c => .fmin h t f.d f.a c
  | 0x105 => dFpNoDir f x false true 1 fun t c => .fmax h t f.d f.a c
  | 0x106 => dFpNoDir f x false true 1 fun t c => .fminn h t f.d f.a c
  | 0x107 => dFpNoDir f x false true 1 fun t c => .fmaxn h t f.d f.a c
  | 0x108 =>
    want (FCmp.ofCode (BitVec.extractLsb' 0 4 f.b)) fun cmp => want (modSrc f x) fun (v, c) =>
    want (BoolOp.ofCode (BitVec.extractLsb' 0 2 v)) fun bop =>
    ck (!v.getLsbD 2 && !f.b.getLsbD 8 && retOk h true false c.isReg) <|
    .ok (.fsetp h (Fmt.ofCode (BitVec.extractLsb' 3 2 v)) cmp bop f.d f.a c (BitVec.extractLsb' 4 3 f.b) (f.b.getLsbD 7))
  | 0x109 => dFpNoDir f x true false 1 fun t c => .fclass h t f.d c
  | 0x10A => dFp f x false true false 1 fun t r c => .fdiv h t r f.d f.a c
  | 0x10B => dFp f x true false false 1 fun t r c => .fsqrt h t r f.d c
  | 0x10C => dFp f x true false false 1 fun t r c => .frcp h t r f.d c
  | 0x10D => dFp f x true false false 1 fun t r c => .frsq h t r f.d c
  | 0x10E => dFp f x true false false 2 fun t r c => .frnd h t r (f.b.getLsbD 0) f.d c
  | 0x10F => dFp f x false true false 1 fun t r c => .fldx h t r f.d f.a c
  | 0x110 => dFpNoDir f x true false 2 fun t c => if f.b.getLsbD 0 then .fxtxMant h t f.d c else .fxtxExp h t f.d c
  -- group 0x5
  | 0x140 => dFp f x true false false 1 fun t r c => .fexp h t r f.d c
  | 0x141 => dFp f x true false false 1 fun t r c => .fexp2 h t r f.d c
  | 0x142 => dFp f x true false false 1 fun t r c => .flog h t r f.d c
  | 0x143 => dFp f x true false false 1 fun t r c => .flog2 h t r f.d c
  | 0x144 => dFp f x true false false 1 fun t r c => .fsin h t r f.d c
  | 0x145 => dFp f x true false false 1 fun t r c => .fcos h t r f.d c
  | 0x146 => dFp f x true false false 1 fun t r c => .fsinpi h t r f.d c
  | 0x147 => dFp f x true false false 1 fun t r c => .fcospi h t r f.d c
  | 0x148 => dFp f x true false false 1 fun t r c => .ftanh h t r f.d c
  | 0x149 => dFp f x true false false 1 fun t r c => .fsigm h t r f.d c
  -- group 0x6
  | 0x180 => dFp f x false true false 2 fun t r c => .dadd h t r (f.b.getLsbD 0) f.d f.a c
  | 0x181 => dFp f x false true false 1 fun t r c => .dmul h t r f.d f.a c
  | 0x182 => dFp f x false true true 1 fun t r c => .dfma h t r f.d f.a f.b c
  | 0x183 => dFp f x false true false 1 fun t r c => .ddiv h t r f.d f.a c
  | 0x184 => dFp f x true false false 1 fun t r c => .dsqrt h t r f.d c
  | 0x188 =>
    want (CvtTy.ofCode (BitVec.extractLsb' 0 4 f.b)) fun dt => want (CvtTy.ofCode (BitVec.extractLsb' 4 4 f.b)) fun sty =>
    want (modSrc f x) fun (v, c) => want (Dir.ofCode (BitVec.extractLsb' 0 3 v)) fun r =>
    ck (BitVec.extractLsb' 3 2 v = 0#2 && (dt = .mxi8 || f.a = 0) && retOk h (dt = .mxi8) false c.isReg) <|
    .ok (.cvt h dt sty (f.b.getLsbD 8) r f.d f.a c)
  | 0x189 =>
    want (modSrc f x) fun (v, c) =>
    if v.getLsbD 3 then
      ck (!v.getLsbD 4 && f.b = 0 && retOk h true false c.isReg) (.ok (.dsliceSlice h (BitVec.extractLsb' 0 3 v) f.d f.a c))
    else
      ck (!v.getLsbD 4 && BitVec.extractLsb' 0 3 v = 0#3 && f.a = 0 && f.b.toNat < 6 && retOk h false false c.isReg)
        (.ok (.dsliceExp h (BitVec.extractLsb' 0 3 f.b) f.d c))
  | 0x18A =>
    want (modSrc f x) fun (v, c) =>
    let m := BitVec.extractLsb' 0 4 v
    ck (2 ≤ m.toNat && m.toNat ≤ 9 && retOk h true true c.isReg) (.ok (.drecon h (v.getLsbD 4) m f.d f.a f.b c))
  -- group 0x7
  | 0x1C0 => dFp f x false true false 1 fun t r c => .fadd2 h t r f.d f.a c
  | 0x1C1 => dFp f x false true false 1 fun t r c => .fmul2 h t r f.d f.a c
  | 0x1C2 => dFp f x false true true 1 fun t r c => .ffma2 h t r f.d f.a f.b c
  -- group 0x8
  | 0x200 => dLdSt f true
  | 0x201 => dLdSt f false
  | 0x202 => dLdfStf f true
  | 0x203 => dLdfStf f false
  | 0x204 =>
    noLit f (f.d = 0 && f.b.toNat < 2 && retOk h true false true) <| want (kindOf f) fun n =>
    ck (BitVec.extractLsb' 0 4 f.mod = 0#4 && retOk h true false n.isReg) <|
    .ok (.feinit h (f.mod.getLsbD 4) (f.b.getLsbD 0) f.a n)
  | 0x205 =>
    noLit f (f.d = 0 && retOk h true false false) <|
    ck (BitVec.extractLsb' 0 4 f.mod = 0#4) <|
    -- R380: PREF requires B as R386 states
    match Space.ofCode (BitVec.extractLsb' 4 3 f.mod), PrefLvl.ofCode (BitVec.extractLsb' 0 2 f.b) with
    | some sp, some lvl =>
      if BitVec.extractLsb' 7 2 f.b = 0#2 && BitVec.extractLsb' 2 4 f.b = 0#4 then .ok (.pref h sp lvl (f.b.getLsbD 6) f.a f.c)
      else .error .illegalOperand
    | _, _ => .error .illegalOperand
  | 0x206 =>
    noLit f (f.d = 0 && f.a = 0 && f.c = 0 && f.b.toNat < 3 && retOk h false false false) <| ck (f.mod = 0) <|
    .ok (if f.b = 0 then .cctlWb h else if f.b = 1 then .cctlIfetch h else .cctlCst h)
  | 0x208 =>
    noLit f ((Scope.ofCode (BitVec.extractLsb' 0 3 f.b)).isSome && f.c = 0 && BitVec.extractLsb' 3 6 f.b = 0#6 && retOk h true false false) <| want (Scope.ofCode (BitVec.extractLsb' 0 3 f.b)) fun sc =>
    ck (BitVec.extractLsb' 4 3 f.mod = 0#3 && !f.mod.getLsbD 2) <|
    if f.mod.getLsbD 3 then ck (f.d = 0 && BitVec.extractLsb' 0 2 f.mod = 0#2) (.ok (.enqStage h sc f.a))
    else want (QWidth.ofCode (BitVec.extractLsb' 0 2 f.mod)) fun w => .ok (.enq h w sc f.d f.a)
  | 0x209 =>
    noLit f ((Scope.ofCode (BitVec.extractLsb' 0 3 f.b)).isSome && f.c = 0 && BitVec.extractLsb' 3 6 f.b = 0#6 && retOk h true false false) <| want (Scope.ofCode (BitVec.extractLsb' 0 3 f.b)) fun sc =>
    want (QWidth.ofCode (BitVec.extractLsb' 0 2 f.mod)) fun w =>
    ck (!f.mod.getLsbD 3) <|
    .ok (.deq h w (f.mod.getLsbD 2) sc (BitVec.extractLsb' 4 3 f.mod) f.d f.a)
  -- group 0x9
  | 0x240 => dAtom f false
  | 0x241 => dAtom f true
  | 0x242 =>
    noLit f ((Ord.ofCode (BitVec.extractLsb' 3 3 f.b)).isSome && (Scope.ofCode (BitVec.extractLsb' 0 3 f.b)).isSome && f.d = 0 && f.a = 0 && f.c = 0 && BitVec.extractLsb' 6 3 f.b = 0#3 && retOk h false false false) <| want (Ord.ofCode (BitVec.extractLsb' 3 3 f.b)) fun o => want (Scope.ofCode (BitVec.extractLsb' 0 3 f.b)) fun sc =>
    ck (f.mod = 0) (.ok (.fence h o sc))
  | 0x243 => dMon f false
  | 0x244 => dMon f true
  -- group 0xA
  | 0x280 => dTb f fun clu g n => .tbinit h clu g f.a n
  | 0x281 =>
    noLit f (f.d = 0 && f.b = 0 && f.c = 0 && retOk h true false false) <| ck (BitVec.extractLsb' 0 3 f.mod = 0#3 && BitVec.extractLsb' 5 2 f.mod = 0#2)
      (.ok (.tbarr h (f.mod.getLsbD 4) (f.mod.getLsbD 3) f.a))
  | 0x282 => dTb f fun clu g n => .tbexp h clu g f.a n
  | 0x283 => dTb f fun clu g n => .tbwait h clu g f.a n
  | 0x284 =>
    noLit f (f.b = 0 && f.c = 0 && retOk h true false false) <| ck (BitVec.extractLsb' 0 3 f.mod = 0#3 && BitVec.extractLsb' 5 2 f.mod = 0#2)
      (.ok (.tbstat h (f.mod.getLsbD 4) (f.mod.getLsbD 3) f.d f.a))
  | 0x285 => dKind f (f.d = 0 && f.b = 0) true fun n => .bartm h f.a n
  | 0x286 => dKind f (f.d = 0 && f.b = 0) false fun n => .barcl h f.a n
  | 0x288 => dKind f (f.b = 0) true fun n => .xsign h f.d f.a n
  | 0x289 => dKind f (f.d = 0 && f.b = 0) true fun n => .xwait h f.a n
  | 0x290 =>
    if f.mod.getLsbD 0 then dCopy f true 1 false fun g clu => .cptSt h g clu f.d f.a f.b f.c
    else dCopy f true 0 true fun g clu => .cptLd h g clu f.a f.b f.c
  | 0x291 => dCopy f false 0 false fun g _ => .cpg h g f.d f.a f.b f.c
  | 0x292 => dCopy f true 0 false fun g clu => .cps h g clu f.d f.a f.b f.c
  | 0x293 => dCopy f true 0 false fun g clu => .cpr h g clu f.d f.a f.b f.c
  | 0x294 =>
    if f.mod.getLsbD 1 then dCopy f false 2 false fun g _ => .cpfillMem h g f.d f.a f.b f.c
    else dCopy f true 0 false fun g clu => .cpfill h g clu f.d f.a f.b f.c
  | 0x295 => noLit f (f.a = 0 && f.b = 0 && f.c = 0 && retOk h false false false) <| ck (f.mod = 0) (.ok (.cpcommit h f.d))
  | 0x296 =>
    noLit f (f.d = 0 && f.a = 0 && f.b = 0 && retOk h false false true) <| want (kindOf f) fun n =>
    ck (BitVec.extractLsb' 1 4 f.mod = 0#4 && retOk h false false n.isReg) <|
    .ok (if f.mod.getLsbD 0 then .cpwaitUpto h n else .cpwait h n)
  -- group 0xB
  | 0x2C0 =>
    want (MxMode.ofCode (BitVec.extractLsb' 0 2 f.b)) fun m => dKind f (f.d = 0 && f.b.toNat < 4) true fun n => .mxcfg h m f.a n
  | 0x2C1 => dG f (f.d = 0 && f.c = 0) true true false fun g => .mxmul h g f.a f.b
  | 0x2C2 => dG f (f.d = 0 && f.b = 0) true false true fun g => .mxzero h g f.a f.c
  | 0x2C3 => dG f (f.d = 0) true true true fun g => .mxld h g f.a f.b f.c
  | 0x2C4 =>
    noLit f (f.d = 0 && retOk h true true true) <| ck (BitVec.extractLsb' 1 4 f.mod = 0#4 && !f.mod.getLsbD 6)
      (.ok (.mxst h (f.mod.getLsbD 5) (f.mod.getLsbD 0) f.a f.b f.c))
  | 0x2C5 => dG f (f.d = 0 && f.a = 0 && f.c = 0) false true false fun g => .mxsel24 h g f.b
  | 0x2C6 => dG f (f.b = 0 && f.c = 0) true false false fun g => .mxstat h g f.d f.a
  | 0x2C8 => dG f (f.d = 0 && f.b = 0 && f.c = 0) true false false fun g => .nbgemv h g f.a
  -- group 0xC
  | 0x300 => dSx f false true false fun g mem _ bar => .sxload h g mem f.a f.b bar
  | 0x301 => dSx f false false false fun g _ _ bar => .sxbias h g f.a f.b bar
  | 0x302 => dSx f false false false fun g _ _ bar => .sxclamp h g f.a f.b bar
  | 0x303 => dSx f true false false fun g _ _ bar => .sxrun h g f.a bar
  | 0x304 => dSx f false false true fun g _ cnt bar => .sxread h g cnt f.a f.b bar
  | 0x305 =>
    noLit f (f.d = 0 && f.c = 0 && retOk h true true false) <| ck (BitVec.extractLsb' 1 4 f.mod = 0#4 && !f.mod.getLsbD 6)
      (.ok (.sxkey h (f.mod.getLsbD 5) (f.mod.getLsbD 0) f.a f.b))
  | 0x306 => dSx f false false false fun g _ _ bar => .sxjoin h g f.a f.b bar
  | 0x307 => dG f (f.d = 0 && f.c = 0) true true false fun g => .sxhealth h g f.a f.b
  -- group 0xD
  | 0x340 =>
    let n := BitVec.extractLsb' 0 3 f.mod
    noLit f (f.d = 0 && retOk h true true true) <| ck (n.toNat ≤ 4 && (n ≠ 0 || f.c = 0) && retOk h true true (n ≠ 0)) <|
    .ok (.spawn h (f.mod.getLsbD 6) (BitVec.extractLsb' 3 3 f.mod) n f.a f.b f.c)
  | 0x341 => dBare f 0 (.spwflush h)
  | 0x342 => dG f (f.d = 0 && f.b = 0 && f.c = 0) true false false fun g => .jwait h g f.a
  | 0x343 => dG f (f.b = 0 && f.c = 0) true false false fun g => .launch h g f.d f.a
  | 0x344 => dG f (f.b = 0 && f.c = 0) true false false fun g => .fetchw h g f.d f.a
  | 0x345 => dG f (f.d = 0 && f.b = 0) true false true fun g => .wlappend h g f.a f.c
  | 0x346 =>
    noLit f (f.a = 0 && f.b = 0 && f.c = 0 && retOk h false false false) <| ck (BitVec.extractLsb' 0 4 f.mod = 0#4)
      (.ok (.wltake h (BitVec.extractLsb' 4 3 f.mod) f.d))
  | 0x347 => dTk f fun q k => .tkwait h f.d q k
  | 0x348 => dTk f fun q k => .tkpass h f.d q k
  | 0x349 => noLit f (f.a = 0 && f.b = 0 && f.c = 0 && retOk h false false false) <| ck (f.mod = 0) (.ok (.quiet h f.d))
  | 0x34A => dKind f (f.d = 0 && f.a = 0 && f.b = 0) false fun n => .setpri h n
  | 0x34B => dG f (f.d = 0 && f.b = 0 && f.c = 0) true false false fun g => .coll h g f.a
  -- group 0xE
  | 0x380 => dG f (f.a = 0 && f.c = 0) false false false fun g => .csrr h g f.d f.b
  | 0x381 => dKind f (f.d = 0 && f.a = 0) false fun c => .csrw h f.b c
  | 0x382 =>
    noLit f (f.b = 0 && retOk h true false false) <| ck (f.mod = 0x20#7) (.ok (.syscall h f.d f.a f.c))
  | 0x383 => ck (f.d = 0 && f.a = 0 && f.b = 0) <| dPairTarget f fun g => .trapret h g f.c
  | 0x384 => dBare f 0 (.npbegin h)
  | 0x385 => dBare f 0 (.npend h)
  | _ => .error .illegalOp

/-- The instruction whose first word is `w` and whose second 8 bytes, if it has any, are `x` (R319 steps 1 to 3). -/
def decodeWords (w x : DWord) : Except Reject Instr :=
  match (if w.getLsbD 63 then decodePair w else decodeFull (Fields.ofWord w) x) with
  | .error e => .error e
  | .ok i =>
    if i.wf then .ok i else .error .illegalOperand

/-- Is a full-form word 16 bytes long (R304)? -/
def isLong (w : DWord) : Bool := !w.getLsbD 63 && BitVec.extractLsb' 0 7 w = 0x7F#7

/-- The length in bytes of the word at an address (R145, R304). -/
def wordLen (w : DWord) : Nat := if isLong w then 16 else 8

/-- One little-endian 64-bit value from a list of bytes (R3); bytes that are not there read as 0. -/
def dwordLE (bs : List Byte) : DWord :=
  BitVec.ofNat 64 ((bs.take 8).foldr (fun b acc => acc * 256 + b.toNat) 0)

/-- Decode from bytes as they lie in memory: the instruction and the bytes after it. -/
def decodeBytes (bs : List Byte) : Except Reject (Instr × List Byte) :=
  let w := dwordLE bs
  match decodeWords w (dwordLE (bs.drop 8)) with
  | .error e => .error e
  | .ok i => .ok (i, bs.drop (wordLen w))

/-- The host's question: the instruction whose bits are w, numbered from the least significant bit of its first word. The
longest instruction is 128 bits, its first word in bits 63..0 and its literal in bits 127..64. -/
def decodeTableWord (nbits w : Nat) : Option Instr :=
  let w := w % 2 ^ nbits
  match decodeWords (BitVec.ofNat 64 w) (BitVec.ofNat 64 (w / 2 ^ 64)) with
  | .ok i => some i
  | .error _ => none

/-! ### The encoder -/

/-- A word from its opcode, fields and header. -/
def mkWord (h : Hdr) (opc : BitVec 10) (d a b c : RegIx) (mod : BitVec 7) : DWord :=
  Fields.word { opc := opc, d := d, a := a, b := b, c := c, hdr := h, mod := mod }

/-- Words of groups 0x0 and 0x1. -/
def encInt (h : Hdr) (opc : BitVec 10) (t : IntTy) (v4 : Bool) (d a b : RegIx) (c : Src) : DWord × DWord :=
  let e := c.enc (b1 v4 ++ t.code)
  (mkWord h opc d a b e.2.1 e.1, e.2.2)

/-- Words of groups 0x4 to 0x7 with format and direction. -/
def encFp (h : Hdr) (opc : BitVec 10) (t : Fmt) (r : Dir) (d a b : RegIx) (c : Src) : DWord × DWord :=
  let e := c.enc (t.code ++ r.code)
  (mkWord h opc d a b e.2.1 e.1, e.2.2)

/-- Words with a kind C; `low` are MOD[4:0]. -/
def encKind (h : Hdr) (opc : BitVec 10) (d a b : RegIx) (n : Kind) (low : BitVec 5) : DWord × DWord :=
  (mkWord h opc d a b n.enc.2 (n.enc.1 ++ low), 0)

def encTarget (h : Hdr) (opc : BitVec 10) (d : RegIx) (t : Target) : DWord × DWord :=
  let e := t.enc
  (mkWord h opc d e.2.1 e.2.2.1 e.2.2.2.1 e.1, e.2.2.2.2)

def encAmount (h : Hdr) (opc : BitVec 10) (n : Amount) : DWord × DWord :=
  (mkWord h opc 0 0 0 n.enc.2.1 n.enc.1, n.enc.2.2)

def encSx (h : Hdr) (opc : BitVec 10) (a b : RegIx) (g mem form : Bool) (bar : Option RegIx) : DWord × DWord :=
  let e := sxMod g mem form bar
  (mkWord h opc 0 a b e.2 e.1, 0)

/-- MOD with only G in bit 5. -/
def gMod (g : Bool) : BitVec 7 := 0#1 ++ b1 g ++ 0#5

/-- MOD of a copy word. -/
def copyMod (g clu : Bool) (low : BitVec 4) : BitVec 7 := 0#1 ++ b1 g ++ b1 clu ++ low

/-- The pair-form target MOD. -/
def tMod (g : Bool) : BitVec 7 := b1 g ++ 0#6

/-- The words of a well-formed instruction: the first word, and the literal (0 where it has none). Events have no word. -/
def encode : Instr → DWord × DWord
  | .pairWord s0 s1 => (1#1 ++ s0.toBits ++ s1.toBits ++ 0#1, 0)
  | .add h t s d a c => encInt h 0x000 t s d a 0 c
  | .addc h d po a c pi pn => encInt h 0x001 .n32 false d a (0#2 ++ BitVec.extractLsb' 0 3 po ++ b1 pn ++ pi) c
  | .sub h t s d a c => encInt h 0x002 t s d a 0 c
  | .subb h d po a c pi pn => encInt h 0x003 .n32 false d a (0#2 ++ BitVec.extractLsb' 0 3 po ++ b1 pn ++ pi) c
  | .mul h t d a c => encInt h 0x004 t false d a 0 c
  | .mulh h t d a c => encInt h 0x005 t false d a 0 c
  | .mulw h t d a c => encInt h 0x006 t false d a 0 c
  | .mad h t d a b c => encInt h 0x007 t false d a b c
  | .madw h t d a b c => encInt h 0x008 t false d a b c
  | .idiv h t d a c => encInt h 0x009 t false d a 0 c
  | .irem h t d a c => encInt h 0x00A t false d a 0 c
  | .min h t d a c => encInt h 0x00B t false d a 0 c
  | .max h t d a c => encInt h 0x00C t false d a 0 c
  | .abs h t s d c => encInt h 0x00D t s d 0 0 c
  | .neg h t s d c => encInt h 0x00E t s d 0 0 c
  | .isetp h t cmp bop pd a c pq pn => encInt h 0x00F t false pd a (bop.code ++ b1 pn ++ pq ++ cmp.code) c
  | .sel h t d a c p pn => encInt h 0x010 t false d a (0#5 ++ b1 pn ++ p) c
  | .lea h t d a c k => encInt h 0x011 t false d a (0#4 ++ k) c
  | .mov h t d c => encInt h 0x012 t false d 0 0 c
  | .movi h t toG d i => (mkWord h 0x013 d 0 (BitVec.extractLsb' 9 9 i) (BitVec.extractLsb' 0 9 i) (1#2 ++ b1 toG ++ t.code), 0)
  | .limm h t pcRel toG d x => encInt h 0x014 t pcRel d 0 0 (if toG then .litU x else .lit x)
  | .and h t d a c => encInt h 0x040 t false d a 0 c
  | .or h t d a c => encInt h 0x041 t false d a 0 c
  | .xor h t d a c => encInt h 0x042 t false d a 0 c
  | .andn h t d a c => encInt h 0x043 t false d a 0 c
  | .lop3 h t d a c lut nd => encInt h 0x044 t false d a (b1 nd ++ lut) c
  | .shl h t d a c => encInt h 0x045 t false d a 0 c
  | .shr h t d a c => encInt h 0x046 t false d a 0 c
  | .sar h t d a c => encInt h 0x047 t false d a 0 c
  | .fshf h t r d a b c => encInt h 0x048 t r d a b c
  | .bfx h t d a c => encInt h 0x049 t false d a 0 c
  | .bfi h t d a b c => encInt h 0x04A t false d a b c
  | .popc h t d c => encInt h 0x04B t false d 0 0 c
  | .clz h t d c => encInt h 0x04C t false d 0 0 c
  | .ctz h t d c => encInt h 0x04D t false d 0 0 c
  | .brev h t d c => encInt h 0x04E t false d 0 0 c
  | .prmt h t d a b c => encInt h 0x04F t false d a b c
  | .pand h pd pa na pc nc => (mkWord h 0x080 pd pa 0 pc (0#5 ++ b1 nc ++ b1 na), 0)
  | .por h pd pa na pc nc => (mkWord h 0x081 pd pa 0 pc (0#5 ++ b1 nc ++ b1 na), 0)
  | .pxor h pd pa na pc nc => (mkWord h 0x082 pd pa 0 pc (0#5 ++ b1 nc ++ b1 na), 0)
  | .pnot h pd pc => (mkWord h 0x083 pd 0 0 pc 0, 0)
  | .pmov h pd pc => (mkWord h 0x084 pd 0 0 pc 0, 0)
  | .psetPack h d => (mkWord h 0x085 d 0 0 0 0, 0)
  | .psetUnpack h mask c => (mkWord h 0x085 0 0 (0#2 ++ mask) c 1, 0)
  | .shfl h mode logW d a c => encKind h 0x088 d a (0#4 ++ logW ++ mode.code) c 0
  | .lswap h t ne no d c => (mkWord h 0x089 d 0 0 c (0#2 ++ t.code ++ 0#1 ++ b1 ne ++ b1 no), 0)
  | .vote h mode ng toG d ps => (mkWord h 0x08A d 0 0 ps (0#2 ++ b1 toG ++ b1 ng ++ mode.code), 0)
  | .matchLanes h wide d c => (mkWord h 0x08B d 0 0 c (0#6 ++ b1 wide), 0)
  | .redux h op signed toG d c => (mkWord h 0x08C d 0 0 c (0#2 ++ b1 toG ++ b1 signed ++ op.code), 0)
  | .elect h hi pd => (mkWord h 0x08D pd 0 0 0 (0#6 ++ b1 hi), 0)
  | .bcast h d c k => (mkWord h 0x08E d 0 (0#4 ++ k) c 0, 0)
  | .umov h d c k => (mkWord h 0x08F d 0 (match k with | some k => 0#3 ++ 1#1 ++ k | none => 0) c 0, 0)
  | .bra h t => encTarget h 0x0C0 0 t
  | .brx h g lst c => (mkWord h 0x0C1 0 (BitVec.extractLsb' 9 9 lst) (BitVec.extractLsb' 0 9 lst) c (tMod g), 0)
  | .call h d t => encTarget h 0x0C2 d t
  | .callx h g d lst c => (mkWord h 0x0C3 d (BitVec.extractLsb' 9 9 lst) (BitVec.extractLsb' 0 9 lst) c (tMod g), 0)
  | .ret h g c => (mkWord h 0x0C4 0 0 0 c (tMod g), 0)
  | .rjoin h => (mkWord h 0x0C5 0 0 0 0 0, 0)
  | .exit h => (mkWord h 0x0C6 0 0 0 0 0, 0)
  | .trap h code => (mkWord h 0x0C7 0 0 0 code 0, 0)
  | .bkpt h code => (mkWord h 0x0C8 0 0 0 code 0, 0)
  | .nop h => (mkWord h 0x0C9 0 0 0 0 0, 0)
  | .yield h => (mkWord h 0x0CA 0 0 0 0 0, 0)
  | .sleep h n => encAmount h 0x0CB n
  | .step h n => encAmount h 0x0CC n
  | .fadd h f r d a c => encFp h 0x100 f r d a 0 c
  | .fsub h f r d a c => encFp h 0x101 f r d a 0 c
  | .fmul h f r d a c => encFp h 0x102 f r d a 0 c
  | .ffma h f r d a b c => encFp h 0x103 f r d a b c
  | .fmin h f d a c => encFp h 0x104 f .rm d a 0 c
  | .fmax h f d a c => encFp h 0x105 f .rm d a 0 c
  | .fminn h f d a c => encFp h 0x106 f .rm d a 0 c
  | .fmaxn h f d a c => encFp h 0x107 f .rm d a 0 c
  | .fsetp h f cmp bop pd a c pq pn =>
    let e := c.enc (f.code ++ 0#1 ++ bop.code)
    (mkWord h 0x108 pd a (0#1 ++ b1 pn ++ pq ++ cmp.code) e.2.1 e.1, e.2.2)
  | .fclass h f d c => encFp h 0x109 f .rm d 0 0 c
  | .fdiv h f r d a c => encFp h 0x10A f r d a 0 c
  | .fsqrt h f r d c => encFp h 0x10B f r d 0 0 c
  | .frcp h f r d c => encFp h 0x10C f r d 0 0 c
  | .frsq h f r d c => encFp h 0x10D f r d 0 0 c
  | .frnd h f r exact d c => encFp h 0x10E f r d 0 (0#8 ++ b1 exact) c
  | .fldx h f r d a c => encFp h 0x10F f r d a 0 c
  | .fxtxExp h f d c => encFp h 0x110 f .rm d 0 0 c
  | .fxtxMant h f d c => encFp h 0x110 f .rm d 0 1 c
  | .fexp h f r d c => encFp h 0x140 f r d 0 0 c
  | .fexp2 h f r d c => encFp h 0x141 f r d 0 0 c
  | .flog h f r d c => encFp h 0x142 f r d 0 0 c
  | .flog2 h f r d c => encFp h 0x143 f r d 0 0 c
  | .fsin h f r d c => encFp h 0x144 f r d 0 0 c
  | .fcos h f r d c => encFp h 0x145 f r d 0 0 c
  | .fsinpi h f r d c => encFp h 0x146 f r d 0 0 c
  | .fcospi h f r d c => encFp h 0x147 f r d 0 0 c
  | .ftanh h f r d c => encFp h 0x148 f r d 0 0 c
  | .fsigm h f r d c => encFp h 0x149 f r d 0 0 c
  | .fadd2 h f r d a c => encFp h 0x1C0 f r d a 0 c
  | .fmul2 h f r d a c => encFp h 0x1C1 f r d a 0 c
  | .ffma2 h f r d a b c => encFp h 0x1C2 f r d a b c
  | .dadd h f r neg d a c => encFp h 0x180 f r d a (0#8 ++ b1 neg) c
  | .dmul h f r d a c => encFp h 0x181 f r d a 0 c
  | .dfma h f r d a b c => encFp h 0x182 f r d a b c
  | .ddiv h f r d a c => encFp h 0x183 f r d a 0 c
  | .dsqrt h f r d c => encFp h 0x184 f r d 0 0 c
  | .cvt h dt sty sat r d a c =>
    let e := c.enc (0#2 ++ r.code)
    (mkWord h 0x188 d a (b1 sat ++ sty.code ++ dt.code) e.2.1 e.1, e.2.2)
  | .dsliceExp h logN d c =>
    let e := c.enc 0
    (mkWord h 0x189 d 0 (0#6 ++ logN) e.2.1 e.1, e.2.2)
  | .dsliceSlice h t d a c =>
    let e := c.enc (0#1 ++ 1#1 ++ t)
    (mkWord h 0x189 d a 0 e.2.1 e.1, e.2.2)
  | .drecon h first m d a b c =>
    let e := c.enc (b1 first ++ m)
    (mkWord h 0x18A d a b e.2.1 e.1, e.2.2)
  | .ld h sp w o sc hint g d a off => (mkWord h 0x200 d a (ldstB hint g o sc) off (sp.code ++ w.code), 0)
  | .ldTyp h f32 hint g k d a off => (mkWord h 0x200 d a (hint.code ++ b1 g ++ k ++ 0#3) off (6#3 ++ (if f32 then 9#4 else 8#4)), 0)
  | .ldQue h d n => (mkWord h 0x200 d n 0 0 0x74, 0)
  | .st h sp w o sc hint g d a off => (mkWord h 0x201 d a (ldstB hint g o sc) off (sp.code ++ w.code), 0)
  | .stQue h d n => (mkWord h 0x201 d n 0 0 0x74, 0)
  | .ldf h clu w keep d a off => (mkWord h 0x202 d a (0#8 ++ b1 keep) off ((if clu then 5#3 else 4#3) ++ w.code), 0)
  | .stf h clu w d a off => (mkWord h 0x203 d a 0 off ((if clu then 5#3 else 4#3) ++ w.code), 0)
  | .feinit h clu full a n => encKind h 0x204 0 a (0#8 ++ b1 full) n (b1 clu ++ 0#4)
  | .pref h sp lvl g a off => (mkWord h 0x205 0 a (0#2 ++ b1 g ++ 0#4 ++ lvl.code) off (sp.code ++ 0#4), 0)
  | .cctlWb h => (mkWord h 0x206 0 0 0 0 0, 0)
  | .cctlIfetch h => (mkWord h 0x206 0 0 1 0 0, 0)
  | .cctlCst h => (mkWord h 0x206 0 0 2 0 0, 0)
  | .enq h w sc d a => (mkWord h 0x208 d a (0#6 ++ sc.code) 0 (0#5 ++ w.code), 0)
  | .enqStage h sc a => (mkWord h 0x208 0 a (0#6 ++ sc.code) 0 0x08, 0)
  | .deq h w wait sc pd d a => (mkWord h 0x209 d a (0#6 ++ sc.code) 0 (pd ++ 0#1 ++ b1 wait ++ w.code), 0)
  | .atom h op ty o sc g d a b => (mkWord h 0x240 d a b (0#2 ++ b1 g ++ o.code ++ sc.code) (ty.code ++ op.code), 0)
  | .red h op ty o sc g a b => (mkWord h 0x241 0 a b (0#2 ++ b1 g ++ o.code ++ sc.code) (ty.code ++ op.code), 0)
  | .fence h o sc => (mkWord h 0x242 0 0 (0#3 ++ o.code ++ sc.code) 0 0, 0)
  | .monwait h cmp o sc wide d a c =>
    (mkWord h 0x243 d a (cmp.code ++ o.code ++ sc.code) c (0#3 ++ (if wide then 5#4 else 4#4)), 0)
  | .poll h cmp o sc wide pd d a c =>
    (mkWord h 0x244 d a (cmp.code ++ o.code ++ sc.code) c (pd ++ (if wide then 5#4 else 4#4)), 0)
  | .tbinit h clu g a n => encKind h 0x280 0 a 0 n (b1 clu ++ b1 g ++ 0#3)
  | .tbarr h clu g a => (mkWord h 0x281 0 a 0 0 (0#2 ++ b1 clu ++ b1 g ++ 0#3), 0)
  | .tbexp h clu g a n => encKind h 0x282 0 a 0 n (b1 clu ++ b1 g ++ 0#3)
  | .tbwait h clu g a p => encKind h 0x283 0 a 0 p (b1 clu ++ b1 g ++ 0#3)
  | .tbstat h clu g d a => (mkWord h 0x284 d a 0 0 (0#2 ++ b1 clu ++ b1 g ++ 0#3), 0)
  | .bartm h x n => encKind h 0x285 0 x 0 n 0
  | .barcl h b n => encKind h 0x286 0 b 0 n 0
  | .xsign h d x n => encKind h 0x288 d x 0 n 0
  | .xwait h x p => encKind h 0x289 0 x 0 p 0
  | .cptLd h g clu m blk o4 => (mkWord h 0x290 0 m blk o4 (copyMod g clu 0), 0)
  | .cptSt h g clu s m blk o4 => (mkWord h 0x290 s m blk o4 (copyMod g clu 1), 0)
  | .cpg h g s a b c => (mkWord h 0x291 s a b c (copyMod g false 0), 0)
  | .cps h g clu s a b c => (mkWord h 0x292 s a b c (copyMod g clu 0), 0)
  | .cpr h g clu bar a b c => (mkWord h 0x293 bar a b c (copyMod g clu 0), 0)
  | .cpfill h g clu bar a pat c => (mkWord h 0x294 bar a pat c (copyMod g clu 0), 0)
  | .cpfillMem h g s a pat c => (mkWord h 0x294 s a pat c (copyMod g false 2), 0)
  | .cpcommit h d => (mkWord h 0x295 d 0 0 0 0, 0)
  | .cpwait h n => encKind h 0x296 0 0 0 n 0
  | .cpwaitUpto h b => encKind h 0x296 0 0 0 b 1
  | .mxcfg h mode x n => encKind h 0x2C0 0 x (0#7 ++ mode.code) n 0
  | .mxmul h g x b => (mkWord h 0x2C1 0 x b 0 (gMod g), 0)
  | .mxzero h g t bar => (mkWord h 0x2C2 0 t 0 bar (gMod g), 0)
  | .mxld h g t s bar => (mkWord h 0x2C3 0 t s bar (gMod g), 0)
  | .mxst h g bf t s bar => (mkWord h 0x2C4 0 t s bar (0#1 ++ b1 g ++ 0#4 ++ b1 bf), 0)
  | .mxsel24 h g b => (mkWord h 0x2C5 0 0 b 0 (gMod g), 0)
  | .mxstat h g d a => (mkWord h 0x2C6 d a 0 0 (gMod g), 0)
  | .nbgemv h g a => (mkWord h 0x2C8 0 a 0 0 (gMod g), 0)
  | .sxload h g mem a n bar => encSx h 0x300 a n g mem false bar
  | .sxbias h g a n bar => encSx h 0x301 a n g false false bar
  | .sxclamp h g a n bar => encSx h 0x302 a n g false false bar
  | .sxrun h g a bar => encSx h 0x303 a 0 g false false bar
  | .sxread h g cnt a n bar => encSx h 0x304 a n g false cnt bar
  | .sxkey h g replay a b => (mkWord h 0x305 0 a b 0 (0#1 ++ b1 g ++ 0#4 ++ b1 replay), 0)
  | .sxjoin h g a b bar => encSx h 0x306 a b g false false bar
  | .sxhealth h g a b => (mkWord h 0x307 0 a b 0 (gMod g), 0)
  | .spawn h g cls n e j p => (mkWord h 0x340 0 e j p (b1 g ++ cls ++ n), 0)
  | .spwflush h => (mkWord h 0x341 0 0 0 0 0, 0)
  | .jwait h g a => (mkWord h 0x342 0 a 0 0 (gMod g), 0)
  | .launch h g d a => (mkWord h 0x343 d a 0 0 (gMod g), 0)
  | .fetchw h g d a => (mkWord h 0x344 d a 0 0 (gMod g), 0)
  | .wlappend h g a c => (mkWord h 0x345 0 a 0 c (gMod g), 0)
  | .wltake h pd d => (mkWord h 0x346 d 0 0 0 (pd ++ 0#4), 0)
  | .tkwait h d q k => encKind h 0x347 d (q.getD 0) 0 k (b1 q.isSome ++ 0#4)
  | .tkpass h d q k => encKind h 0x348 d (q.getD 0) 0 k (b1 q.isSome ++ 0#4)
  | .quiet h d => (mkWord h 0x349 d 0 0 0 0, 0)
  | .setpri h n => encKind h 0x34A 0 0 0 n 0
  | .coll h g a => (mkWord h 0x34B 0 a 0 0 (gMod g), 0)
  | .csrr h toG d n => (mkWord h 0x380 d 0 n 0 (gMod toG), 0)
  | .csrw h n c => encKind h 0x381 0 0 n c 0
  | .syscall h d a n => (mkWord h 0x382 d a 0 n 0x20, 0)
  | .trapret h g c => (mkWord h 0x383 0 0 0 c (tMod g), 0)
  | .npbegin h => (mkWord h 0x384 0 0 0 0 0, 0)
  | .npend h => (mkWord h 0x385 0 0 0 0 0, 0)
  | _ => (0, 0)

end Sys2Proof
end

