-- ==== Sys2Proof/Config.lean ====
section
/-! DEFINITION. Config.lean: what an implementation fixes, and the values the manual leaves open. Every constant here is
opaque and has no body: nothing can be proved of its value, so a claim holds whatever it is. A `Nat` argument named `n` is
the state's counter of free values, so that each use is a fresh one. -/
namespace Sys2Proof.Config

/-- Core cycles that pass during one step of the model (timing is out of the model's scope). -/
opaque elapsed (n : Nat) : Nat
/-- R316: does a register read within its producer's latency see the new value? -/
opaque staleNew (n gid lane reg : Nat) : Bool
/-- R97: scratchpad bytes before anything is written to them. -/
opaque scratchByte (team off : Nat) : Byte
/-- R248: accumulator words before MXZERO or MXLD writes them. -/
opaque accWord (team ix : Nat) : Word
/-- R35: the event code of an event kind, whose numbers the manual does not give. -/
opaque evCode (kind : Nat) : BitVec 16
/-- R35: the number of a die kind, which the manual does not give: 0 compute, 1 SRAM, 2 HBM4E, 3 I/O die, 4 Millpond. -/
opaque dieKind (kind : Nat) : BitVec 4
/-- R35: the event-specific data bytes 0x18 to 0x3F of an entry. -/
opaque evData (kind : Nat) (args : List Nat) (i : Nat) : Byte
/-- R36: contents of SPI flash, byte i of image slot `slot`, before IMGWRITE writes it. -/
opaque flashByte (slot i : Nat) : Byte
/-- R36: does the signature of an image verify, given the bytes written to its slot? -/
opaque imageOk (slot : Nat) (written : Sparse Byte) : Bool
/-- R36: the security version an image carries. -/
opaque imageVersion (slot : Nat) (written : Sparse Byte) : BitVec 32
/-- R36: the minimum security version held in one-time-programmable flash at first use. -/
opaque minVersion : BitVec 32
/-- R39: SHA-512 digests in the attestation report: 0 image, 1 trims; byte i. -/
opaque digest (what slot : Nat) (written : Sparse Byte) (i : Nat) : Byte
/-- R39: the RSA-4096 signature over the report body, byte i. -/
opaque signature (body : List Byte) (i : Nat) : Byte
/-- R32: does a command read the new byte of MBBUF where one was written while BUSY was 1? -/
opaque mailboxNew (n off : Nat) : Bool
/-- R32: part `p` of the certificate chain, and its length in bytes. -/
opaque cert (p : Nat) : List Byte
/-- R52, R48: an SPDM response to a request, with or without the identity key. -/
opaque spdmReply (n port : Nat) (keyOk : Bool) (request : List Byte) : List Byte
/-- R50: log2 of the BAR2 size of a function, which the host's configuration space sets. -/
opaque bar2Log (port func : Nat) : Nat
/-- R51, R72: is ATS enabled on the port? -/
opaque atsEnabled (port : Nat) : Bool
/-- R51: is a host page resident when the device asks for its translation? -/
opaque hostResident (n : Nat) : Bool
/-- R170, R320: is a line of the constant or instruction cache dropped before this read? -/
opaque cacheDrop (n core line : Nat) : Bool
/-- R262: a physical draw of a Sphinx node, 0 to 65,535. -/
opaque noise (n node : Nat) : BitVec 16
/-- R267: the number of +1 draws of the 64 reference comparators in a physical sweep. -/
opaque refDraws (n : Nat) : Nat
/-- R274: which available sweep a physical-mode ghost takes, as an offset back from the newest allowed one. -/
opaque ghostAge (n node : Nat) : Nat
/-- R287: is an entry of a cache or a TLB dropped for an error in it? -/
opaque errorDrop (n key : Nat) : Bool
/-- R186: which of the entries of a full TLB gives way. -/
opaque tlbVictim (n agent : Nat) : Nat
/-- R186: does the walker pool, whose size is not given, still hold an entry of this level that it has read? -/
opaque walkHit (n agent level : Nat) : Bool
/-- R293: bytes of a save slot that are in device form. -/
opaque deviceForm (what off : Nat) : Byte
/-- R293: what changed bytes of a save slot in device form stand for: item k. -/
opaque deviceRead (bytes : List Byte) (k : Nat) : Nat
/-- R251: corrected-error counts of the matrix engine: 0 operand reads, 1 array cells, 2 accumulator. -/
opaque corrected (n which : Nat) : BitVec 16
/-- R71: receive-buffer contents after a collective ends with FAULT or FAILED. -/
opaque collUndefined (n i : Nat) : Byte
/-- R19: has a line that was written since reset been written to HBM4E since? -/
opaque writtenBack (n line : Nat) : Bool
/-- R369, R211 and others: a result the manual does not state, as a function of what it depends on. -/
opaque unstated (what : Nat) (a b : DWord) : DWord

end Sys2Proof.Config
end

