-- ==== Sys2Proof/Machine/State.lean ====
section
/-! DEFINITION. State.lean: the whole architectural state of the DM8 as plain data. Units that the manual numbers (dies,
contexts, records, groups, lanes) are `Sparse` maps: a unit not listed is in its reset state. The docstring of each field
names the rule that gives it. -/
namespace Sys2Proof.Machine

/-- Why a run can stop. The manual gives every step of its table an effect, so no meaning of this model stops with one. -/
inductive Fault where
  /-- Raised by no meaning; it stands so that the type is not empty. Safe: a run that stops makes no claim. -/
  | stuck
deriving DecidableEq, Repr

/-- Why a meaning can be refused. -/
inductive Refusal where
  /-- Raised by an arm of the dispatch whose instruction has no meaning yet. Safe: a run that stops makes no claim. -/
  | notModelled (mnemonic : String)
deriving DecidableEq, Repr

/-! ### Package, management (files 01, 02) -/

/-- STATE of a compute die (R46). -/
inductive DieSt where
  | online | fencing | fenced | resetting | ready
deriving DecidableEq, Repr

/-- One compute die (R31, R29, R34, R46, R47). -/
structure Die where
  st : DieSt := .online
  cause : BitVec 4 := 0
  offl : BitVec 24 := 0
  duty : Nat := 16
  hot : Bool := false           -- above 115 °C in the last sample (R34)
  awaiting : Bool := false      -- a mailbox command waits for this die
deriving DecidableEq, Repr

/-- Event kinds of the log; their codes are `Config.evCode` (R35). -/
inductive Ev where
  | dieFailed | sramDieFailed | stackFailed | iodAbsent | throttle | release | tempCrossing | dieFenced | deviceStopped
  | noKey | imageFallback | iftSkipped | iftChanged | coreFailed | poisonLog | unsupportedRequest | ideFailure
  | linkEvent | clovarDown | clovarRefusal | collectiveDrop | collectiveFault | doorbellRefused | queueStopped | blockRejected
  | stampUnwritable | counterWrap | gangLost | spawnedLost | faultRing | unknownVerdict | cacheError | millpondError
  | tlrFormat | arrayFenced | sphinxFault | bondFlit | mbbufWritten | correctedError
deriving DecidableEq, Repr

/-- One event log entry (R35); `args` are what its event-specific bytes are made from. -/
structure LogEntry where
  time : Nat := 0
  ev : Ev := .linkEvent
  src : BitVec 16 := 0
  sev : Nat := 0
  args : List Nat := []
deriving DecidableEq, Repr

/-- Where start-up stands (R26, R27). -/
inductive Boot where
  | off                                  -- no power
  | noImage                              -- R36: neither slot verifies
  | step (i : Nat)                       -- the i-th timed step runs
  | wake (g : Nat)                       -- wake group g is next
  | ready                                -- reported ready to the host
  | notReady                             -- R28: cannot serve memory
  | stopped                              -- R34: the controller stopped the device
deriving DecidableEq, Repr

/-- An in-field test of a core (R44, R300). -/
inductive Ift where
  | idle
  | deferred                             -- retried every 100 µs
  | draining
  | testing
deriving DecidableEq, Repr

/-- The budget defaults D(i) of R40, as register values: HARD, BYT, CYC. -/
def budgetDefault : List (BitVec 17) :=
  [0x01010, 0x02020, 0x03030, 0x04040, 0x02020, 0x01818, 0x10808, 0x01818, 0x10808]

/-- The Parheino controller (R31 to R45). -/
structure Mgmt where
  boot : Boot := .ready
  op : Byte := 0
  arg : BitVec 16 := 0
  len : BitVec 16 := 0
  rlen : BitVec 16 := 0
  busy : Bool := false
  lost : Bool := false
  code : Byte := 0
  evprod : Nat := 0                      -- EVPROD, also the next sequence number
  log : Sparse LogEntry := []            -- the last 4,096 entries, by sequence number
  flashLog : List (Nat × LogEntry) := [] -- R35: the last 1,024 entries of severity 2 or above, newest first
  mbbuf : Sparse Byte := []
  staged : List (BitVec 17) := budgetDefault
  active : List (BitVec 17) := budgetDefault
  activating : Bool := false             -- a valid BUDGET waits for the period boundary (R43)
  checked : List (BitVec 17) := budgetDefault   -- the table that BUDGET checked (R43)
  started : Bool := false                -- a command has been written and is not executed yet (R32)
  mbOld : Sparse (Option Byte) := []     -- bytes of MBBUF that a write since then has replaced (R32)
  ift : Bool := true                     -- IFTEN
  tests : Sparse Ift := []               -- by core
  flash : Sparse (Option Byte) := []     -- IMGWRITE's bytes, slot × 32 MiB + offset; none: `Config.flashByte`
  selected : Nat := 0                    -- slot selected for the next device reset
  running : Nat := 0                     -- slot whose image runs
  minVer : Option (BitVec 32) := none    -- raised minimum version; none: `Config.minVersion`
  keyOk : Bool := true                   -- the identity key was reconstructed (R38)
  powerHigh : Bool := false              -- previous sample above 3,100 W (R29)
  millHot : Bool := false                -- the Millpond above 115 °C in the last sample (R34)
  sensorHigh : Sparse Bool := []         -- sensors above 105 °C in the last sample (R34)
  sensorHot : Sparse Bool := []          -- sensors above 115 °C in the last sample (R34)
  noLaunch : Bool := false               -- R19, R287: the device accepts no launch until device reset
deriving DecidableEq, Repr

/-- One Millpond quadrant (R25, R190). -/
structure Quad where
  carve : BitVec 4 := 0
  lreq : BitVec 64 := 0
  rreq : BitVec 64 := 0
  oreq : BitVec 64 := 0
  plprod : BitVec 64 := 0
  plog : Sparse (BitVec 64) := []        -- the 256 entries, by slot
deriving DecidableEq, Repr

/-! ### Links (file 03) -/

/-- A posted write or AtomicOp at an inbound ordering point, one line transaction (R54, R55, R456). -/
inductive PostedOp where
  | bytes (loc : Nat) (data : List Byte) (poisoned : Bool)   -- to a storage cell
  | reg (func off len : Nat) (v : DWord)                       -- to a register, through function func's BAR0
  | amo (loc : Nat) (op : PcieAtom) (wide : Bool) (a b : DWord) (tag : Nat)
deriving DecidableEq, Repr

structure Posted where
  port : Nat
  quad : Nat
  ro : Bool
  ido : Bool
  rid : Nat
  tlp : Nat                              -- the TLP it belongs to
  sent : Option Nat := none              -- when it was sent on its route
  accepted : Bool := false
  op : PostedOp
deriving DecidableEq, Repr

/-- A load-store request of a Clovar peer at an I/O die (R61, R62). -/
structure Peer where
  port : Nat
  src : Nat
  loc : Nat
  op : RemoteOp
  logged : Bool := false                 -- R189: the hold of a RED has been logged
  reply : Option (List Byte) := none     -- performed; answered once it is acknowledged
deriving DecidableEq, Repr

/-- A host read waiting for its data (R56). -/
structure HostRead where
  port : Nat
  func : Nat
  bar0 : Bool
  tag : Nat
  addr : Nat                             -- offset in BAR0, or physical address
  len : Nat
  after : List Nat                       -- the posted transactions it waits for
deriving DecidableEq, Repr

/-- One PCIe port (R48 to R53). -/
structure Port where
  up : Bool := false
  rate : Nat := 0
  width : Nat := 0
  flit : Bool := false                   -- FLIT mode (R48)
  winbase : Sparse (BitVec 14) := []     -- WINBASE[39:26] by function
  ide : Sparse (Option DWord) := []      -- key of each stream
  ideSt : Sparse Bool := []              -- stream is Insecure
  pri : List (Nat × Nat × Nat × Nat) := []   -- outstanding page requests: (pasid, page, group, lane)
  ats : Sparse Bool := []                -- pages the device may use, key pasid × 2^32 + page
  inv : List (Nat × Nat × List Nat) := []    -- ATS invalidations under way: pasid, page, requests that used it
deriving DecidableEq, Repr

/-- One Clovar port (R58, R59). -/
structure CPort where
  retry : BitVec 16 := 0
  peer : BitVec 10 := 0
  lst : BitVec 2 := 0
  retries : List Nat := []               -- model: when flits were retried in the last 1 ms, by uptime (R58)
deriving DecidableEq, Repr

/-- The descriptor of a collective (R68). -/
structure CollDesc where
  send : Nat
  recv : Nat
  stamp : Nat
  count : Nat
  op : Nat
  ty : Nat
  red : Nat
  comm : Nat
  root : Nat
deriving DecidableEq, Repr

/-- One collective of this device (R67 to R71). -/
structure Coll where
  eng : Nat
  comm : Nat
  num : Nat
  ctx : Nat
  launch : Nat
  core : Nat
  desc : CollDesc
  size : Nat
  rank : Nat
  nodes : List Nat
  params : Sparse (Option CollParams) := []   -- by rank
  data : Sparse (List (DWord × Bool)) := []   -- by rank: its send elements, and which are poisoned
  own : Bool := false                    -- this rank's elements have been read and sent
  status : Nat := 0                      -- 0 OK, 1 MISMATCH, 2 FAILED, 3 FAULT
  ended : Bool := false                   -- nothing but the receive buffer and the stamp is due
  pos : Nat := 0                         -- sectors of the receive buffer written
  seed : Nat := 0                        -- MODEL: the free value of a receive buffer left undefined (R71)
deriving DecidableEq, Repr

/-- The Clovar unit (R59 to R64). -/
structure Clovar where
  den : Bool := false
  node : BitVec 10 := 0
  clcbase : BitVec 40 := 0               -- CLCBASE[51:12]
  ports : Sparse CPort := []
  routes : Sparse (BitVec 18) := []      -- PORTS by node, as applied
  nextRoutes : Sparse (Option (BitVec 18)) := []   -- R64: a new set waiting for outstanding requests
  refused : Sparse Bool := []            -- R62: first refusal logged, by source node
  colls : Sparse (Option Coll) := []
  collNum : Sparse Nat := []             -- collectives issued on each communicator
deriving DecidableEq, Repr

/-! ### Host interface (file 04, R171, R282, R428) -/

/-- One work queue of a context (R73, R77, R80). -/
structure Queue where
  qring : BitVec 44 := 0                 -- QRING[51:8]
  qlog : BitVec 4 := 0
  cidx : BitVec 32 := 0
  qerr : Bool := false
  pidx : BitVec 32 := 0
  stopped : Bool := false                -- R80: slot outside every view
deriving DecidableEq, Repr

/-- A fault report that is open or waits for room (R186, R283). -/
structure Report where
  rid : Option Nat := none               -- none while it waits on the Millpond
  code : Byte := 0
  acc : BitVec 2 := 0
  launch : Nat := 0
  va : Nat := 0
  core : Nat := 0xFFFF
  lo : Nat := 0                          -- region joined (R186)
  hi : Nat := 0
deriving DecidableEq, Repr

/-- A SYSCALL waiting for the host (R427). -/
structure Svc where
  arg : DWord
  num : BitVec 8
  launch : Nat
  core : Nat
  gid : Nat
  lane : Nat
  d : Nat := 511                         -- the destination pair of its reply
deriving DecidableEq, Repr

/-- A pre-emption command in progress (R290, R296). -/
inductive PopSt where
  | idle
  | preempt (launch : Nat) (cut : Option Nat)   -- and the step number of the cut that it ends
  | cut (launch : Nat)
deriving DecidableEq, Repr

/-- One context (R73 to R76, R171, R282, R428). -/
structure Ctx where
  pasid : BitVec 20 := 0
  pceil : BitVec 5 := 0
  port : BitVec 1 := 0
  func : BitVec 5 := 0
  priv : Bool := false
  kreq : Bool := false
  halt : Bool := false
  en : Bool := false
  ptroot : BitVec 40 := 0                -- PTROOT[51:12]
  invva : BitVec 45 := 0
  invbusy : Bool := false
  invIds : List Nat := []                -- accesses in flight under the old translation
  locbase : BitVec 41 := 0               -- LOCBASE[56:16]
  locfr : BitVec 16 := 0
  locsz : BitVec 7 := 0
  handler : BitVec 54 := 0               -- HANDLER[56:3]
  ten : Bool := false
  frbase : BitVec 40 := 0
  frlog : BitVec 4 := 0
  frprod : BitVec 32 := 0
  frcons : BitVec 32 := 0
  verd : BitVec 2 := 0
  rid : BitVec 32 := 0
  pop : BitVec 2 := 0
  prec : BitVec 12 := 0
  popSt : PopSt := .idle
  cutstep : BitVec 32 := 0
  pres : Byte := 0
  frie : Bool := false
  friv : BitVec 11 := 0
  svcie : Bool := false
  svcret : DWord := 0
  svcs : List Svc := []                  -- oldest first; the head is the call the registers show
  queues : Sparse Queue := []
  reports : Sparse (Option Report) := []
  nextReport : Nat := 0
  frames : Sparse Bool := []             -- local frames in use (R172)
deriving DecidableEq, Repr

/-! ### Launches and tasks (files 05, 06) -/

/-- A role of a launch block (R81). -/
structure Role where
  entry : DWord := 0
  regs : Nat := 0
  ngrp : Nat := 0
  stg : Nat := 0
deriving DecidableEq, Repr

/-- A launch block (R81). -/
structure Block where
  pri : Nat := 0
  gang : Bool := false
  prot : Bool := false
  reln : Bool := false
  detr : Bool := false
  sbchk : Bool := false
  snant : Bool := false
  flush : Bool := false
  irq : Bool := false
  sxu : Bool := false
  nrole : Nat := 1
  nstage : Nat := 0
  cw : Nat := 1
  ch : Nat := 1
  gx : Nat := 1
  gy : Nat := 1
  gz : Nat := 1
  scr : Nat := 0
  acc : Nat := 0
  arg : DWord := 0
  done : DWord := 0
  spov : DWord := 0
  spovlen : Nat := 0
  chres : Nat := 0
  msiv : Nat := 0
  save : DWord := 0
  savelen : Nat := 0
  fpctl : Word := 0
  roles : List Role := []
  stages : List (DWord × Nat) := []      -- QB, QD
deriving DecidableEq, Repr

/-- A task record (R88), as the Millrace keeps it. -/
structure Task where
  entry : DWord := 0
  arg : DWord := 0
  tx : Word := 0
  ty : Word := 0
  tz : Word := 0
  seq : Word := 0
  succ : DWord := 0
  uw : List Word := []
  lrec : Nat := 0
  stg : Nat := 0
  age : Nat := 0                         -- model: when it became pending
  bad : Bool := false                    -- R89: fields that its taking finds wrong
deriving DecidableEq, Repr

/-- The life of a retained record (R92). -/
inductive RecSt where
  | free | waiting | running | ending | stamped
deriving DecidableEq, Repr

/-- Status of a stamp (R85). -/
inductive EndSt where
  | ok | killed | fault | rejected
deriving DecidableEq, Repr

/-- A floating-point RED held under DETR (R110), or the place of one. -/
structure HeldRed where
  seq : Nat
  stg : Nat
  op : AtomOp
  ty : AtomTy
  node : Option Nat := none              -- its home, where that is a Clovar node (R61)
  loc : Nat
  val : DWord
deriving DecidableEq, Repr

/-- One sampling domain of a launch (R272 to R276). -/
structure Domain where
  members : List (Nat × Nat) := []       -- (member index, team)
  formed : Bool := false
  runs : Sparse Nat := []                -- SXRUNs begun by each member since formation
  params : Sparse (List Nat) := []       -- what must agree (R275), key run × 256 + member
  slots : Sparse Bool := []              -- key ((member × 4 + slot) × 512 + export): state
  labels : Sparse Nat := []              -- sweep number + 1 held in (member × 4 + slot)
  started : Sparse Nat := []             -- sweeps started, key run × 256 + member
  ended : Sparse Nat := []               -- sweeps completed, likewise
deriving DecidableEq, Repr

/-- A spawn overflow ring of one quadrant (R125, R126). -/
structure Ring where
  head : Nat := 0
  tail : Nat := 0
  ages : List Nat := []                  -- spill order across launches, oldest first
  srcs : List Nat := []                  -- the spawning groups of its records, oldest first (R124)
deriving DecidableEq, Repr

/-- A convergence register (R161, R249, R399, R400), or a cluster barrier (R401). -/
structure Conv where
  kind : Nat := 0                        -- 0 idle, 1 barrier, 2 matrix
  mode : Nat := 0                        -- MXCFG mode
  n : Nat := 0
  sigs : Nat := 0
  signers : List Nat := []               -- threads that signed, as group × 32 + lane
  phase : Bool := false
  ops : Option (List Nat) := none        -- operands fixed by the first signature
deriving DecidableEq, Repr

/-- One retained launch record and its launch (R86, R92, R98 to R112). -/
structure Rec where
  st : RecSt := .free
  gen : Nat := 0                         -- uses since reset (R111)
  ctx : Nat := 0
  ring : Option (Nat × Word) := none     -- queue and block number; none: device-side LAUNCH
  blk : Block := {}
  order : Nat := 0                       -- consumption order
  endSt : EndSt := .ok
  detail : Byte := 0
  relaunches : Nat := 0
  losses : Sparse Nat := []              -- losses by first SEQ (R288)
  pending : List Task := []
  stageQ : Sparse (List (Nat × Nat × Nat)) := []   -- stage queue s, oldest first: entry number, gang, its count (R98, R101)
  queueTail : Sparse Nat := []           -- records ever put into stage queue s
  enqs : Sparse Nat := []                -- R101: ENQs of a gang's present run, key gang × 4 + stage
  taken : Sparse Bool := []              -- R101: ENQs taken, key (gang × 4 + stage) × 2^32 + count
  stageCore : Sparse Nat := []           -- R99: stage + 1 of a core
  lists : Sparse (List DWord) := []      -- work lists (R104)
  tickets : Sparse Nat := []             -- counters, key stage × 16 + section (R108)
  skipped : Sparse Bool := []            -- the last pass of a counter was SKIPPED
  owed : List (Nat × Nat) := []          -- R109: (stage × 16 + section, SEQ) to pass as SKIPPED
  held : List HeldRed := []
  hold : Bool := false                   -- held by POP 1 or POP 3, until POP 2 (R290)
  rings : Sparse Ring := []
  domains : Sparse Domain := []
  rects : Sparse Nat := []               -- R96: a cluster's rectangle, key stage × 2^32 + cluster: first core + 1, and 256 × the teams started
  resv : List Nat := []                  -- R95: cores reserved for its pending record at the head
  resvFor : Option (Nat × Nat) := none   -- R95: stage and SEQ of that record
  gone : List (Nat × Task) := []         -- R163: retired members of gangs that still run, with the gangs' tags
  barcl : Sparse Conv := []              -- R401: cluster barriers, key (stage × 2^32 + cluster) × 4 + number
  stampSent : Bool := false              -- its stamp is on its way to memory outside this device
  stampZlr : Option (List Nat) := none   -- R57, R85: the zero-length reads that its stamp waits for
deriving DecidableEq, Repr

/-! ### Teams, groups and lanes (file 07) -/

/-- Why a lane is parked, and what releases it (R152). -/
inductive Park where
  | none
  | report (r : Nat)                     -- a P-class fault, joined to report r of the context
  | pri (port pasid page acc va : Nat)   -- a host page requested through PRI (R51)
  | spawn (id : Nat)                     -- SPAWN sent, not yet accepted (R120)
  | ringFull (q : Nat)                   -- R127
  | jwait (cell va : Nat)                -- until the counter at this cell has read 0 (R132)
  | ticket (sec q : Nat)
  | fullBit (team gran : Nat) (want : Bool) (keep : Bool)
  | barrier (team off : Nat) (par : Bool)
  | room (e : Engine)                    -- R455
  | batch (n : Nat)                      -- CPWAIT n
  | upto (b : Nat)
  | monitor (txn : Nat)                  -- MONWAIT
  | queue (txn : Nat)                    -- an ENQ or DEQ before the queue engine (R395)
  | stageFull (s : Nat)
  | listFull
  | recFree
  | quiet (d : Nat) (v : Option Word)    -- QUIET, and the value it is released with (R107, R423)
  | xset (x : Nat) (par : Bool)          -- XWAIT
  | signed (x : Nat) (par : Bool)        -- BARTM, its signature given: the release takes the lane past the word
  | barcl (key : Nat) (par : Bool)       -- BARCL, likewise (R401)
  | notStarted (j : Nat)                 -- cluster scratch of a team not yet started (R96)
  | svc (ret : Option (Nat × DWord))     -- SYSCALL, and its reply: destination, value (R427)
  | redFull                              -- DETR buffer full
  | handlerEntry (r : Nat)               -- P-class fault on the trap record (R284)
deriving DecidableEq, Repr

/-- The states of R144; a trap-parked lane is told apart (R151). -/
inductive LaneSt where
  | exited | eligible | joining | parked | trapped
deriving DecidableEq, Repr

/-- One lane, a thread (R8, R144, R145, R247, R280, R310). -/
structure Lane where
  st : LaneSt := .exited
  park : Park := .none
  ready : Bool := false                  -- the release condition has been met
  age : Nat := 0                         -- order of parking
  pc : DWord := 0
  v : Sparse Word := []
  p : BitVec 7 := 0
  rm : BitVec 3 := 0                     -- %fpctl.RM
  flags : BitVec 5 := 0
  cause : Word := 0
  addr : DWord := 0                      -- first faulting byte address, 0 if none (R284)
  replayJoin : Bool := false             -- J-class trap (R281)
  handler : Bool := false                -- member of the handler subgroup
  mark : BitVec 16 := 0                  -- batch mark (R247)
  openBatch : Bool := false              -- the open batch holds a copy
  linkLost : Bool := false               -- R66: a remote store failed
  rejected : Bool := false               -- its report was rejected while its group was away (R283)
  relFence : Bool := false               -- R201: a core-scope .rel or .ar FENCE came before
deriving DecidableEq, Repr

/-- A fixed-latency result still within its latency (R313 to R316). -/
structure Hazard where
  lanes : BitVec 32
  kind : Nat                             -- 0 v, 1 p, 2 g
  reg : Nat
  left : Nat                             -- distance still owed
  old : List (Nat × Word)                -- value before the producer, by lane
deriving DecidableEq, Repr

/-- A variable-latency result that has not landed (R313, R315, R216). -/
structure Landing where
  lane : Nat                             -- 32: a g register result
  writes : List (Nat × Word)
  preds : List (Nat × Bool)
  flags : BitVec 5
deriving DecidableEq, Repr

/-- A thread of a spawned group (R117, R141). -/
structure Child where
  lane : Nat := 0
  join : DWord := 0
  pay : List Word := []
  src : Nat := 0                         -- the spawning group
deriving DecidableEq, Repr

/-- What a spawned group is, beside its lanes (R121, R141). -/
structure Spawned where
  entry : DWord := 0
  cls : Nat := 0
  depth : Nat := 0
  quad : Nat := 0
  kids : List Child := []
  ended : BitVec 32 := 0
deriving DecidableEq, Repr

/-- One group (R142 to R157, R167, R114, R298). -/
structure Group where
  launch : Nat := 0
  team : Option Nat := none
  spawned : Option Spawned := none
  core : Nat := 0
  quarter : Nat := 0
  slot : Nat := 0
  role : Nat := 0
  grp : Nat := 0
  budget : Nat := 0
  frame : Option Nat := none
  resident : Bool := true                -- false while suspended
  admitted : Nat := 0
  lastIssue : Nat := 0
  lanes : Sparse Lane := []
  g : Sparse Word := []
  step : Word := 0
  floor : Option DWord := none           -- rotation floor (R148)
  mask : BitVec 32 := 0                  -- rotation mask
  handling : Bool := false               -- trap handling under way (R151)
  handlerPc : DWord := 0                 -- HANDLER as it stood when that began (R282)
  backoff : Nat := 0                     -- k
  held : Bool := false                   -- hold of R114
  asleep : Bool := false                 -- SLEEP
  idle : Bool := false                   -- QUIET
  depthNp : Nat := 0                     -- window depth (R297)
  buckets : List Nat := []               -- window cycles, newest bucket first; at most 17 count (R298)
  overrun : Bool := false                -- NP_OVERRUN to raise at resumption
  preempt : Bool := false                -- to be taken at its next boundary
  atStep : Bool := false                 -- the cut holds it after a STEP (R296, R355)
  loc : Sparse (Option (Nat × Byte)) := []   -- dirty local bytes with their cells, key lane × 65,536 + a (R173)
  hazards : List Hazard := []
  landings : List Landing := []
  readyAt : Nat := 0                     -- R314: earliest core cycle of the next word
  jwaitEnded : Nat := 0                  -- order in which its wait ended (R133)
  polls : List (Nat × Bool) := []        -- the POLLs whose reads are out, oldest first, and whether a lane has found its condition met (R114)
  fetched : List (Nat × List Byte) := [] -- bytes read for the word from outside this device's memory
  pool : List Nat := []                  -- frames of the spawn save pool that hold it while suspended (R135)
  alone : Bool := false                  -- suspended by itself while its team is not (R136)
  waited : Nat := 0                      -- issue cycles in which it was ready, since it last issued (R115)
  lastPort : Nat := 0                    -- the port its last word took (R116)
  portTill : Nat := 0                    -- the core cycle after that word's last beat there
  unres : Bool := false                  -- a spawned group on a slot outside its launch's reserve (R134)
  behind : Option (DWord × BitVec 32 × Nat) := none   -- R200: the word that waits for its release, and when it began to wait
deriving DecidableEq, Repr

/-- An engine queue register (R256). -/
structure EngQ where
  input : List Word := []
  result : List Word := []
  source : Option Nat := none            -- operation that pops the input queue
  sink : Option Nat := none              -- operation that pushes the result queue
  dry : Bool := false                    -- the last sink has ended
deriving DecidableEq, Repr

/-- Life of a placed team (R93). -/
inductive TeamSt where
  | placed | running | suspended
deriving DecidableEq, Repr

/-- The Sphinx node record (R258). -/
structure Node where
  bias : BitVec 16 := 0
  st : Bool := false
  clv : Bool := false
  cle : Bool := false
  col : BitVec 3 := 0
  w : List (BitVec 8 × BitVec 13) := []  -- up to 16 slots: weight, source
  count : BitVec 16 := 0
deriving DecidableEq, Repr

/-- A Sphinx operation (R269). -/
inductive SxKind where
  | load (mem : Bool) (a : DWord) (n0 n : Nat)
  | bias (a n0 n : Nat)
  | clamp (a n0 n : Nat)
  | key (k : DWord) (s : Word) (replay : Bool)
  | run (nsw burn : Nat) (beta scale : BitVec 16) (ncol ord : Nat) (acc : Bool) (stale : Nat)
  | read (cnt : Bool) (a n0 n : Nat)
  | join (a dom m mem : Nat)
  | health (hwin hband : Nat)
deriving DecidableEq, Repr

structure SxOp where
  id : Nat
  team : Nat
  launch : Nat
  kind : SxKind
  bar : Option (Nat)                     -- barrier offset in the team's scratchpad
  bound : Bool := false
  started : Bool := false
  done : Nat := 0                        -- sweeps or records done
  code : BitVec 8 := 0
  stall : Nat := 0
  stalled : Bool := false
  hdev : Int := 0
  inSweep : Bool := false
  ended : Bool := false                   -- its work has ended; its completion is due
  report : Option Nat := none            -- open report that holds it (R270)
  deps : List Nat := []                  -- stores that the issue releases (R413)
deriving DecidableEq, Repr

/-- One Sphinx array (R257 to R259, R267). -/
structure SxArray where
  team : Option Nat := none
  nodes : Sparse Node := []
  key : DWord := 0
  replay : Bool := false
  sweep : Word := 0
  hwin : Nat := 4096
  hband : Nat := 1536
  hcount : Nat := 0                      -- sweeps in the open window
  hsum : Nat := 0                        -- +1 draws in it
  dom : Option Nat := none
  memb : Nat := 0
  ghost : Sparse Bool := []
  expo : Sparse Bool := []
  exps : List Nat := []
  imps : List (Nat × Nat × Nat) := []    -- local ghost, source slot, source member
  mapOk : Bool := true                   -- the join map read last had its zero fields zero
  fenced : Bool := false
  mapAway : Bool := false                -- GHOST and EXPORT have changed since the team's save (R273, R276)
  ops : List SxOp := []
deriving DecidableEq, Repr

/-- A matrix-engine operation (R248 to R252). -/
inductive MxKind where
  | mul (mode a b s k tile : Nat)
  | zero (tile : Nat)
  | load (tile src : Nat)
  | store (bf16 : Bool) (tile dst : Nat)
  | sel24 (src rows k vals sels : Nat)
deriving DecidableEq, Repr

structure MxOp where
  id : Nat
  team : Nat
  kind : MxKind
  bar : Nat
  bound : Bool := true
  pos : Nat := 0                         -- K-chunks done (R250, R291)
  counts : List Nat := []                -- NV, OF, UF, NX and wraps so far (R227, R251)
  raised : Sparse Bool := []             -- elements in which a flag has risen, 128 i + j
deriving DecidableEq, Repr

/-- One team (R88, R91, R93, R160). -/
structure Team where
  st : TeamSt := .placed
  task : Task := {}
  core : Nat := 0
  gang : Nat := 0                        -- R101: the tag of its gang: its stage and the least SEQ of its members
  taken : List Task := []                -- records withdrawn by FETCHW (R103)
  scratch : Sparse (Option Byte) := []
  full : Sparse Bool := []               -- full bits by granule
  acc : Sparse (Option Word) := []       -- accumulator words, key tile × 16,384 + 128 i + j
  x : Sparse Conv := []
  c : Sparse EngQ := []
  stopping : Bool := false               -- its save has been asked for
  sx : Option SxArray := none            -- the array of a suspended team, in device form (R278, R293)
  mxq : List MxOp := []                  -- matrix operations of a suspended team (R291, R292)
deriving DecidableEq, Repr

/-! ### Memory (files 08, 09), engines (file 11) -/

/-- Where an access goes (R21, R60, R72). -/
inductive Tgt where
  | cell                                 -- a storage cell of this device
  | host (port pasid : Nat)
  | aper
  | node (n : Nat)
  | scr (team : Nat)                     -- a team's scratchpad, for a monitor
deriving DecidableEq, Repr

/-- What one lane's part of a transaction does when it is performed. -/
inductive AccOp where
  | load (w : Width) (d : RegIx)
  | typed (k pl : Nat) (f32 : Bool) (fmt blk : Nat) (n : Nat) (d : RegIx)   -- the part's address is that of the subpage
  | store
  | atom (op : AtomOp) (ty : AtomTy) (a b : DWord) (d : RegIx)
  | red (op : AtomOp) (ty : AtomTy) (a b : DWord)
  | poll (cmp : MonCmp) (wide : Bool) (b : DWord) (pd : BitVec 3) (d : RegIx)
  | monitor (cmp : MonCmp) (wide : Bool) (b : DWord) (d : RegIx)
  | enq (w : QWidth)                                        -- the data stands in the part
  | deq (w : QWidth) (wait : Bool) (pd : BitVec 3) (d : RegIx)
  | fetch                                                   -- an instruction word that no cache of the core may hold
  | zlr                                                     -- the zero-length read of R57
  | dec (n : Nat)                                           -- a counter of R90 or R130 outside this device
  | pair (op : AtomOp) (ty : AtomTy) (a b : DWord) (d : Option RegIx) (hi : Nat)   -- an atomic on 8 local bytes: the cell of the high word (R389)
deriving DecidableEq, Repr

structure Part where
  lane : Nat
  addr : Nat                             -- storage cell, bus address, register offset or node offset
  va : Nat
  len : Nat
  op : AccOp
  data : List Byte := []
  mask : List Bool := []                 -- bytes of `data` that a load takes in place of memory (R174)
  rep : Bool := false                    -- its lane is parked on a report of its poison
  timed : Bool := false                  -- the timed read of a MONWAIT: it ends the wait whatever it reads (R392)
  level : Nat := 4                       -- level of the leaf that translated va, for R75
  acc : Nat := 0                         -- ACC of a read that its word waits for (R280)
  again : Bool := false                  -- its address is to be translated afresh before it is performed (R75)
  bad : Bool := false                    -- an engine's data sent as poisoned (R240)
deriving DecidableEq, Repr

/-- A transaction in flight: the parts of one instruction in one line (R16, R178, R381). -/
structure Txn where
  core : Nat
  gid : Nat
  ctx : Nat
  launch : Nat
  tgt : Tgt
  line : Nat
  parts : List Part
  scope : Scope := .team
  acq : Bool := false
  rel : Bool := false
  deps : List Nat := []                  -- R200: transactions that must complete first
  wb : Bool := false                     -- R200, R201: lines of the context that were dirty at issue must be written back first
  left : Bool := false                   -- R200: its waits are over, and it has left the core
  l1 : Bool := false                     -- R178, R206: performed in L1 under lazy ownership
  lvl : Nat := 2
  evp : Nat := 0                         -- eviction priority of the lines it fills (R180, R376)
  pc : DWord := 0                        -- the word that issued it (R284, R319)
  accepted : Bool := false
  loggedRed : Bool := false              -- R189: the hold of a RED has been logged
  spill : Bool := false                  -- R174: a local store on its way to the home, an entry of its group's spill forwarding table
  word : Nat := 0                        -- the instruction's number (all parts of one POLL)
  mill : Bool := false                   -- sent by a unit outside the compute dies: the fence of its core's die spares it (R17)
deriving DecidableEq, Repr

/-- Directory state of a line (R179). -/
structure Dir where
  sharers : BitVec 8 := 0
  lo : Option Nat := none
  waiting : BitVec 8 := 0                -- dies that still owe an invalidation acknowledgement
  src : Nat := 0                         -- the write that waits for them
  since : Nat := 0                       -- where that is a write-back: since when the line was dirty
deriving DecidableEq, Repr

/-- A dirty L1 line (R178, R202). -/
structure DirtyLine where
  ctx : Nat := 0
  release : Bool := false
  deps : List Nat := []                  -- stores of the context issued before the release
  since : Nat := 0                       -- the first store that made it dirty (R200)
deriving DecidableEq, Repr

/-- A translation (R182, R186). -/
structure Leaf where
  pa : Nat                               -- frame address
  level : Nat                            -- 2, 3 or 4
  w : Bool
  x : Bool
  wp : Bool
  lvl : Nat
  fmt : Nat
  pl : Nat
  blk : Nat
  evp : Nat := 0
  cmp : Bool := false
deriving DecidableEq, Repr

/-- A line in a die's L2 (R177, R180). -/
structure L2Line where
  secs : BitVec 4 := 0                   -- sectors it holds; a poisoned one is never filled (R187)
  evp : Nat := 0
  used : Nat := 0                        -- order of last use
deriving DecidableEq, Repr

/-- A copy operation (R239 to R242). -/
inductive CopyKind where
  | tensor (load : Bool) (recVa : Nat) (body : Option (List Byte)) (base ext0 ext1 : Nat) (org : List Int) (scr : Nat)
  | lin (dstMem srcMem : Bool) (dst src len : Nat)       -- addresses: memory or scratch offset
  | fill (dstMem : Bool) (dst len : Nat) (pat : Word)
deriving DecidableEq, Repr

structure Copy where
  quad : Option Nat                      -- quadrant engine, or the core's engine
  core : Nat
  ctx : Nat
  launch : Nat
  gid : Nat
  lane : Nat
  batch : Nat                            -- batch number, 65,536 while it is the open one
  team : Nat                             -- team whose scratchpad the data lies in, or lands in
  owner : Nat := 0                       -- team of the group that issued it
  kind : CopyKind
  barTeam : Nat := 0
  bar : Option Nat := none               -- barrier offset in barTeam's scratchpad
  bound : Bool := false
  stamp : Option (Nat × Word) := none
  deps : List Nat := []                  -- stores of the thread that the issue releases (R403)
  pos : Nat := 0                         -- units landed
  status : Nat := 0                      -- flags, EXC, POISON, FAULT as R243 lays them out
  failed : Bool := false
  report : Option Nat := none            -- open report that holds it
  snap : Option (List Byte) := none      -- its tensor layout record as the issue's release leaves it (R236)
deriving DecidableEq, Repr

/-- A near-bank GEMV (R253 to R255). -/
structure Nb where
  core : Nat
  ctx : Nat
  launch : Nat
  gid : Nat
  team : Nat
  w : Nat
  rows : Nat
  ct : Nat
  pln : Nat
  out : Nat                              -- OUT[1:0]
  cy : Nat                               -- sink, when out is 0
  cx : Option Nat                        -- source of x
  x : List (BitVec 16)                   -- the elements of x that the engine has
  y : Nat
  stamp : Nat
  tag : Word
  deps : List Nat := []                  -- stores that the issue releases (R412)
  row : Nat := 0                         -- rows written
  flags : BitVec 5 := 0
  failed : Bool := false
  report : Option Nat := none
deriving DecidableEq, Repr

/-- A spawn sent and not yet accepted (R120). -/
structure SpawnReq where
  gid : Nat
  lane : Nat
  core : Nat
  launch : Nat
  entry : DWord
  cls : Nat
  depth : Nat
  join : DWord
  pay : List Word
  deps : List Nat := []
deriving DecidableEq, Repr

/-- A bin of a Chrysalis unit (R122). -/
structure Bin where
  used : Bool := false
  launch : Nat := 0
  entry : DWord := 0
  cls : Nat := 0
  depth : Nat := 0
  kids : List Child := []
  closed : Option Nat := none            -- when it closed
  openedAt : Nat := 0
deriving DecidableEq, Repr

/-- A join decrement or SUCC decrement on its way (R90, R130). -/
structure Dec where
  launch : Nat
  ctx : Nat
  core : Nat
  gid : Nat
  va : Nat
  n : Nat                                -- how much is subtracted
  lanes : BitVec 32 := 0                 -- the lanes whose ends it stands for
  deps : List Nat
  sent : Option Nat := none              -- the transaction that performs it outside this device
deriving DecidableEq, Repr

/-! ### The whole machine -/

/-- One entry of the agenda: which agent moves next. -/
inductive Sched where
  | issue (gid : Nat)                    -- a quarter issues the next word of a group
  | event (i : Instr) (x : Input)        -- an agent of the device, or the outside world, takes a step
deriving DecidableEq, Repr

/-- The word being issued (R146): set by the fetch. -/
structure Issue where
  gid : Nat := 0
  pc : DWord := 0
  lanes : BitVec 32 := 0
  len : Nat := 8
  full : Option Engine := none           -- the engine in which a lane of the word has found no room (R455)
  counted : List Nat := []               -- lines that lanes of the word have requested: one request for each (R16, R25)
deriving DecidableEq, Repr

/-- What leaves the device: seen by the host and by Clovar peers. -/
inductive Out where
  | ready
  | stopped
  | msix (port func vec : Nat)
  | completion (port tag : Nat) (data : List Byte) (poisoned : Bool)
  | unsupported (port tag : Nat)
  | hostRead (id port pasid addr len : Nat)
  | hostWrite (id port pasid addr : Nat) (data : List (Option Byte)) (poisoned : Bool)   -- bytes whose enable is off are none
  | pageRequest (port pasid page : Nat)
  | invalidated (port pasid page : Nat)
  | spdm (port : Nat) (data : List Byte)
  | remote (id port node : Nat) (reqs : List (Nat × RemoteOp))
  | answer (port node : Nat) (ok : Bool) (data : List Byte)
  | collective (eng comm node num st : Nat) (p : CollParams) (data : List (DWord × Bool))
  | i3c
deriving DecidableEq, Repr

/-- The state of the DM8. -/
structure State where
  clk : Nat := 0                         -- %clk: core cycles since device ready (R310)
  uptime : Nat := 0                      -- core cycles, half nanoseconds, since power-good (R35)
  free : Nat := 0                        -- MODEL: counter of free values
  next : Nat := 1                        -- MODEL: next identifier, also the order of events
  agenda : List Sched := []              -- MODEL: which agent moves next
  input : Input := .none                 -- MODEL: what the step from outside carries
  served : Nat := 0                      -- MODEL: the quarter that the machine's own choice served last
  bucketNo : Nat := 0                    -- bucket boundaries passed (R298)
  cur : Issue := {}                      -- the word being issued
  out : List Out := []                   -- what has left the device, newest first
  mgmt : Mgmt := {}
  dies : Sparse Die := []
  sramDown : Sparse Bool := []           -- SRAM dies out of service (R19)
  modulesUp : Sparse Nat := []           -- UCIe modules of an I/O die that did not train (R20)
  stackDown : Sparse Bool := []          -- HBM4E stacks that failed (R28)
  quads : Sparse Quad := []
  ports : Sparse Port := []
  hostSent : Sparse Nat := []            -- R57: stores that have left to the host, key context × 2 + port
  hostSafe : Sparse Nat := []            -- those of them that a completed zero-length read has followed
  posted : Sparse (Option Posted) := []  -- ordering points, by arrival
  reads : Sparse (Option HostRead) := []   -- by port × 2^16 + tag
  peers : Sparse (Option Peer) := []     -- requests of Clovar peers, by arrival
  clovar : Clovar := {}
  ctxs : Sparse Ctx := []
  recs : Sparse Rec := []
  mem : List Host.Cell := []             -- committed memory; an unlisted byte reads 0 (R17)
  poison : Sparse Bool := []             -- by sector, cell / 32 (R187)
  dir : Sparse Dir := []                 -- by line, cell / 128 (R179)
  dirty : Sparse (Option Byte) := []     -- dirty L1 bytes, key core × 2^48 + cell (R178)
  dirtyLines : Sparse (Option DirtyLine) := []   -- key core × 2^41 + line
  ccache : Sparse (Option (Nat × List Byte)) := []   -- constant cache lines: context, bytes (R170)
  icache : Sparse (Option (Nat × List Byte)) := []   -- instruction cache lines (R320)
  l2 : Sparse (Option L2Line) := []      -- clean lines of the die L2s, key die × 2^41 + line (R177); they include those of the L1s
  l2Uses : Nat := 0                      -- accesses to the die L2s, for the order of last use (R180)
  llcNew : Sparse Bool := []             -- lines written since reset, whose HBM4E copy may be older (R19)
  pool : Sparse (Option Nat) := []       -- entries of levels 1 to 3 in the walker pools, key ((pool × 64 + context) × 4 + level) × 2^41 + VA / span (R186)
  tlb : Sparse (Option Leaf) := []       -- key (agent × 64 + context) × 2^41 + VA / 64 KiB (R186)
  txns : Sparse (Option Txn) := []
  teams : Sparse (Option Team) := []
  groups : Sparse (Option Group) := []
  bins : Sparse Bin := []                -- key unit × 256 + bin
  parkedSpawns : List (Nat × Nat × Nat) := []   -- R127: (unit, group, lane), in order
  reserves : Sparse (List Nat) := []     -- launches whose reserves stand on a core, oldest first (R134)
  wokenRooms : List (Engine × Nat × Nat) := []  -- R455: (engine, group, lane) released for room, in order
  wokenSpawns : List (Nat × Nat × Nat) := []    -- R127: those whose ring place is free and who have not taken it yet
  spawns : Sparse (Option SpawnReq) := []
  decs : Sparse (Option Dec) := []
  copies : Sparse (Option Copy) := []
  mx : Sparse (List MxOp) := []          -- matrix engine queues by core
  arrays : Sparse SxArray := []          -- Sphinx arrays by core
  nbs : Sparse (Option Nb) := []
  engBuf : Sparse (List (Nat × List Byte × Bool)) := []   -- bytes an engine operation has read: address, bytes, poisoned
deriving DecidableEq, Repr

/-- The machine right after device reset, start-up done: every die ONLINE at duty 16/16, no context, no launch, memory
reading as zero (R17, R27, R29, R87). -/
def State.reset : State := {}

end Sys2Proof.Machine
end

