-- ==== Sys2Proof/Machine/Ops.lean ====
section
/-! DEFINITION. Ops.lean: the named operations on the state that everything else is written with: units by number, lanes and
registers, committed memory, the event log, ending a launch, and taking an exception. -/
namespace Sys2Proof.Machine

/-! ### Numbers and bytes -/

/-- Little-endian value of a list of bytes (R3). -/
def leNat : List Byte → Nat
  | [] => 0
  | b :: bs => b.toNat + 256 * leNat bs

/-- The low `n` bytes of a value, lowest first (R3). -/
def toLE : Nat → Nat → List Byte
  | 0, _ => []
  | n + 1, v => BitVec.ofNat 8 v :: toLE n (v / 256)

/-- Bits [hi:lo] of a number. -/
def nbits (x hi lo : Nat) : Nat := (x / 2 ^ lo) % 2 ^ (hi + 1 - lo)
/-- One bit of a number. -/
def nbit (x i : Nat) : Bool := x.testBit i
/-- A Bool as 0 or 1. -/
def b2n (b : Bool) : Nat := if b then 1 else 0
/-- Sign extension of the low n bits. -/
def sextInt (x n : Nat) : Int := if nbit x (n - 1) then (x % 2 ^ n : Int) - (2 ^ n : Int) else (x % 2 ^ n : Int)
/-- An integer wrapped to n bits. -/
def wrapN (x : Int) (n : Nat) : Nat := (x % (2 ^ n : Int)).toNat
/-- Round up to a multiple. -/
def roundUp (x m : Nat) : Nat := (x + m - 1) / m * m
/-- Exclusive or of a list of bits. -/
def xorBits (x : Nat) (is : List Nat) : Bool := is.foldl (fun b i => b ^^ x.testBit i) false
/-- The sum of a list. -/
def sumN (l : List Nat) : Nat := l.foldl (· + ·) 0

/-- Values listed in a map of options. -/
def listed {α : Type} (m : Sparse (Option α)) : List (Nat × α) :=
  m.filterMap fun p => p.2.map fun a => (p.1, a)

/-- Keep the entries of a map that satisfy a test. -/
def keep {α : Type} (m : Sparse α) (f : Nat → α → Bool) : Sparse α := m.filter fun p => f p.1 p.2

/-- Rewrite every value of a map, keeping its canonical form. -/
def mapVals {α : Type} [DecidableEq α] (d : α) (m : Sparse α) (f : α → α) : Sparse α :=
  (m.map fun p => (p.1, f p.2)).filter fun p => decide (p.2 ≠ d)

/-- The least of a list under an order, the first among equals. -/
def leastBy {α : Type} (lt : α → α → Bool) : List α → Option α
  | [] => none
  | a :: l =>
    match leastBy lt l with
    | none => some a
    | some b => if lt b a then some b else some a

/-- Insertion in an order, after its equals. -/
def insertBy {α : Type} (lt : α → α → Bool) (a : α) : List α → List α
  | [] => [a]
  | b :: l => if lt a b then a :: b :: l else b :: insertBy lt a l

/-- Stable sort. -/
def sortBy {α : Type} (lt : α → α → Bool) (l : List α) : List α := l.foldl (fun acc a => insertBy lt a acc) []

/-! ### Units by number -/

def State.die (s : State) (k : Nat) : Die := Sparse.get {} s.dies k
def State.setDie (s : State) (k : Nat) (d : Die) : State := { s with dies := Sparse.set {} s.dies k d }
def State.quad (s : State) (q : Nat) : Quad := Sparse.get {} s.quads q
def State.setQuad (s : State) (q : Nat) (d : Quad) : State := { s with quads := Sparse.set {} s.quads q d }
def State.port (s : State) (p : Nat) : Port := Sparse.get {} s.ports p
def State.setPort (s : State) (p : Nat) (d : Port) : State := { s with ports := Sparse.set {} s.ports p d }
def State.ctx (s : State) (k : Nat) : Ctx := Sparse.get {} s.ctxs k
def State.setCtx (s : State) (k : Nat) (d : Ctx) : State := { s with ctxs := Sparse.set {} s.ctxs k d }
def State.rcd (s : State) (r : Nat) : Rec := Sparse.get {} s.recs r
def State.setRec (s : State) (r : Nat) (d : Rec) : State := { s with recs := Sparse.set {} s.recs r d }
def State.group (s : State) (g : Nat) : Option Group := Sparse.get none s.groups g
def State.setGroup (s : State) (g : Nat) (d : Group) : State := { s with groups := Sparse.set none s.groups g (some d) }
def State.delGroup (s : State) (g : Nat) : State := { s with groups := Sparse.set none s.groups g none }
def State.team (s : State) (t : Nat) : Option Team := Sparse.get none s.teams t
def State.setTeam (s : State) (t : Nat) (d : Team) : State := { s with teams := Sparse.set none s.teams t (some d) }
def State.delTeam (s : State) (t : Nat) : State := { s with teams := Sparse.set none s.teams t none }
def State.txn (s : State) (i : Nat) : Option Txn := Sparse.get none s.txns i
def State.setTxn (s : State) (i : Nat) (d : Option Txn) : State := { s with txns := Sparse.set none s.txns i d }
def State.array (s : State) (c : Nat) : SxArray := Sparse.get {} s.arrays c
def State.setArray (s : State) (c : Nat) (d : SxArray) : State := { s with arrays := Sparse.set {} s.arrays c d }
def State.copy (s : State) (i : Nat) : Option Copy := Sparse.get none s.copies i
def State.setCopy (s : State) (i : Nat) (d : Option Copy) : State := { s with copies := Sparse.set none s.copies i d }
def State.bin (s : State) (u b : Nat) : Bin := Sparse.get {} s.bins (u * 256 + b)
def State.setBin (s : State) (u b : Nat) (d : Bin) : State := { s with bins := Sparse.set {} s.bins (u * 256 + b) d }
def Ctx.queue (c : Ctx) (j : Nat) : Queue := Sparse.get {} c.queues j
def Ctx.setQueue (c : Ctx) (j : Nat) (q : Queue) : Ctx := { c with queues := Sparse.set {} c.queues j q }

/-- A fresh identifier; identifiers also order events. -/
def State.fresh (s : State) : Nat × State := (s.next, { s with next := s.next + 1 })
/-- The index of a fresh free value. -/
def State.draw (s : State) : Nat × State := (s.free, { s with free := s.free + 1 })
/-- Something leaves the device. -/
def State.emit (s : State) (o : Out) : State := { s with out := o :: s.out }
/-- The MSI-X message `vec` of the function that owns context k. -/
def State.msix (s : State) (k vec : Nat) : State :=
  if vec < (if (s.ctx k).func.toNat = 0 then 2048 else 64) then s.emit (.msix (s.ctx k).port.toNat (s.ctx k).func.toNat vec) else s

/-- Kinds of die; their numbers in SRC are the implementation's (R35). -/
inductive DieKind where
  | compute | sram | hbm | iod | millpond
deriving DecidableEq, Repr

/-- SRC of an event log entry: die kind in [15:12], die index in [11:8], core mesh index or quadrant in [7:0] (R35). -/
def evSrc (kind : DieKind) (die low : Nat) : Nat := (Config.dieKind kind.ctorIdx).toNat * 4096 + die % 16 * 256 + low % 256
def evDie (k : Nat) : Nat := evSrc .compute k 0
def evCore (c : Nat) : Nat := evSrc .compute (c / 24) (c % 24)
def evIod (p : Nat) : Nat := evSrc .iod p 0
def evQuad (q : Nat) : Nat := evSrc .millpond 0 q

/-- An event log entry, stamped in nanoseconds (R35); severity 2 and above goes to flash as well. -/
def State.logEv (s : State) (ev : Ev) (sev : Nat) (src : Nat) (args : List Nat) : State :=
  let m := s.mgmt
  let e : LogEntry := { time := s.uptime / 2, ev := ev, src := BitVec.ofNat 16 src, sev := sev, args := args }
  { s with mgmt := { m with
      evprod := m.evprod + 1
      log := (if m.evprod < 4096 then m.log else Sparse.del m.log (m.evprod - 4096)) |> fun l => Sparse.put l m.evprod e
      flashLog := if 2 ≤ sev then ((m.evprod, e) :: m.flashLog).take 1024 else m.flashLog } }

/-! ### Lanes and registers (R8, R309) -/

def Group.lane (g : Group) (l : Nat) : Lane := Sparse.get {} g.lanes l
def Group.setLane (g : Group) (l : Nat) (d : Lane) : Group := { g with lanes := Sparse.set {} g.lanes l d }
/-- A v register; vz reads as zero. -/
def Lane.reg (l : Lane) (r : Nat) : Word := if r = 511 then 0 else Sparse.get 0 l.v r
/-- Write a v register; writes to vz are discarded. -/
def Lane.setReg (l : Lane) (r : Nat) (x : Word) : Lane := if r = 511 then l else { l with v := Sparse.set 0 l.v r x }
/-- A v pair; 511 names a 64-bit zero. -/
def Lane.reg64 (l : Lane) (r : Nat) : DWord := if r = 511 then 0 else l.reg (r + 1) ++ l.reg r
/-- A predicate; p7 reads as true. -/
def Lane.pred (l : Lane) (p : Nat) : Bool := if p = 7 then true else l.p.getLsbD p
/-- Write a predicate; writes to p7 are discarded. -/
def Lane.setPred (l : Lane) (p : Nat) (x : Bool) : Lane :=
  if 7 ≤ p then l else
    { l with p := if x then l.p ||| BitVec.ofNat 7 (2 ^ p) else l.p &&& ~~~ BitVec.ofNat 7 (2 ^ p) }
/-- A g register; g127 reads as zero. -/
def Group.gr (g : Group) (r : Nat) : Word := if 127 ≤ r then 0 else Sparse.get 0 g.g r
/-- Write a g register; writes to g127 are discarded. -/
def Group.setGr (g : Group) (r : Nat) (x : Word) : Group := if 127 ≤ r then g else { g with g := Sparse.set 0 g.g r x }
/-- A g pair; 127 names a 64-bit zero. -/
def Group.gr64 (g : Group) (r : Nat) : DWord := if 127 ≤ r then 0 else g.gr (r + 1) ++ g.gr r

/-- Write a list of v registers. -/
def Lane.setRegs (l : Lane) (ws : List (Nat × Word)) : Lane := ws.foldl (fun l w => l.setReg w.1 w.2) l
/-- Write a list of predicates. -/
def Lane.setPreds (l : Lane) (ps : List (Nat × Bool)) : Lane := ps.foldl (fun l w => l.setPred w.1 w.2) l
/-- Write a list of g registers. -/
def Group.setGrs (g : Group) (ws : List (Nat × Word)) : Group := ws.foldl (fun g w => g.setGr w.1 w.2) g

/-- The registers that hold a 64-bit value: a pair, or nothing under vz. -/
def pairW (r : Nat) (z : Nat) (x : DWord) : List (Nat × Word) :=
  if r = z then [] else [(r, BitVec.extractLsb' 0 32 x), (r + 1, BitVec.extractLsb' 32 32 x)]

/-- Lanes not exited. -/
def Group.live (g : Group) : List Nat := lanes32.filter fun l => decide ((g.lane l).st ≠ .exited)
/-- Is a lane of the handler subgroup parked on a P-class fault, so that the group issues nothing else (R284, R285)? -/
def Group.handlerParked (g : Group) : Bool :=
  g.handling && lanes32.any fun l => (g.lane l).handler && (match (g.lane l).park with
    | .report _ | .handlerEntry _ | .pri .. => true
    | _ => false)
/-- Eligible lanes (R144); during trap handling only the handler subgroup issues (R151). -/
def Group.eligible (g : Group) : List Nat :=
  if g.handlerParked then []
  else lanes32.filter fun l => decide ((g.lane l).st = .eligible) && (!g.handling || (g.lane l).handler)
/-- Apply a function to the lanes of a mask. -/
def Group.mapLanes (g : Group) (m : BitVec 32) (f : Nat → Lane → Lane) : Group :=
  lanes32.foldl (fun g l => if m.getLsbD l then g.setLane l (f l (g.lane l)) else g) g
/-- The mask of a list of lanes. -/
def maskOf (ls : List Nat) : BitVec 32 := ls.foldl (fun m l => m ||| BitVec.ofNat 32 (2 ^ l)) 0
/-- The lanes of a mask, ascending. -/
def lanesOf (m : BitVec 32) : List Nat := lanes32.filter fun l => m.getLsbD l

/-! ### Committed memory (R16, R17, R21, R22) -/

/-- 144 GiB: the HBM4E of one quadrant. -/
def hbmBytes : Nat := 144 * 2 ^ 30
/-- Cell index of carve-out storage. -/
def carveBase : Nat := 4 * hbmBytes

/-- What a storage cell of this device that nothing has written reads as (R17). -/
def unwritten : Byte := 0
/-- The canonical form of memory: cells rising, none at the unwritten value. -/
abbrev Memory.wf (m : List Host.Cell) : Prop := Sparse.wf unwritten m = true

def State.cell (s : State) (a : Nat) : Byte := Sparse.get unwritten s.mem a
def State.setCell (s : State) (a : Nat) (b : Byte) : State := { s with mem := Sparse.set unwritten s.mem a b }
def State.cells (s : State) (a n : Nat) : List Byte := (List.range n).map fun i => s.cell (a + i)
/-- Write bytes from cell a upwards. -/
def State.setCells (s : State) : Nat → List Byte → State
  | _, [] => s
  | a, b :: bs => State.setCells (s.setCell a b) (a + 1) bs

/-- Quadrant of an interleaved physical address (R22). -/
def hashQuad (pa : Nat) : Nat :=
  b2n (xorBits pa ((List.range 20).map fun i => 12 + 2 * i)) + 2 * b2n (xorBits pa ((List.range 20).map fun i => 13 + 2 * i))

/-- Where a physical address leads (R21, R60, R72). -/
inductive Place where
  | cell (a : Nat)
  | host (port a : Nat)
  | aper (off : Nat)
  | node (n o : Nat)
  | unbacked
deriving DecidableEq, Repr

/-- The view of a physical address: PLC and PLCQ that agree with it (R21, R23), if it lies in a view. -/
def State.viewOf (s : State) (pa : Nat) : Option (Nat × Nat × Nat) :=
  if pa < 4 * hbmBytes then
    some (0, 0, hashQuad pa * hbmBytes + pa / 2 ^ 14 * 4096 + pa % 4096)
  else if 0x100000000000 ≤ pa ∧ pa < 0x200000000000 then
    let q := (pa - 0x100000000000) / 0x4000000000
    let o := (pa - 0x100000000000) % 0x4000000000
    if q < 4 ∧ o < hbmBytes then some (1, q, q * hbmBytes + o) else none
  else if 0x200000000000 ≤ pa ∧ pa < 0x200000000000 + 4 * 0x8000000 then
    let q := (pa - 0x200000000000) / 0x8000000
    let o := (pa - 0x200000000000) % 0x8000000
    if o < (s.quad q).carve.toNat * 2 ^ 24 then some (2, q, carveBase + q * 0x8000000 + o) else none
  else none

/-- Place of a physical address. -/
def State.place (s : State) (pa : Nat) : Place :=
  match s.viewOf pa with
  | some (_, _, c) => .cell c
  | none =>
    if 0x400000000000 ≤ pa ∧ pa < 0x400001000000 then .aper (pa - 0x400000000000)
    else if 0x500000000000 ≤ pa ∧ pa < 0x600000000000 then .host 0 (pa - 0x500000000000)
    else if 0x600000000000 ≤ pa ∧ pa < 0x700000000000 then .host 1 (pa - 0x600000000000)
    else if 0x8000000000000 ≤ pa ∧ pa < 0x8000000000000 + 1024 * 0x10000000000 then
      .node ((pa - 0x8000000000000) / 0x10000000000) ((pa - 0x8000000000000) % 0x10000000000)
    else .unbacked

/-- Quadrant that homes a cell (R21). -/
def quadOf (c : Nat) : Nat := if c < carveBase then c / hbmBytes else (c - carveBase) / 0x8000000
/-- The physical address by which a poison log entry names a sector: in the interleaved or the carve-out view of its cell. -/
def paOfCell (c : Nat) : Nat :=
  if c < carveBase then
    -- the interleaved address with this quadrant and offset (R22)
    let q := c / hbmBytes
    let o := c % hbmBytes
    let base := o / 4096 * 2 ^ 14 + o % 4096
    let h := hashQuad base
    base + 4096 * ((h % 2) ^^^ (q % 2)) + 8192 * ((h / 2) ^^^ (q / 2))
  else 0x200000000000 + (c - carveBase)

/-! ### Ending a launch (R76, R86, R92, R286) -/

/-- Groups of a launch. -/
def State.groupsOf (s : State) (r : Nat) : List (Nat × Group) := (listed s.groups).filter fun p => p.2.launch == r
/-- Teams of a launch. -/
def State.teamsOf (s : State) (r : Nat) : List (Nat × Team) := (listed s.teams).filter fun p => p.2.task.lrec == r
/-- Launches of context k with a lane or an engine joined to report i (R283). -/
def State.launchesOn (s : State) (k i : Nat) : List Nat :=
  (((listed s.groups).filter fun p => decide ((s.rcd p.2.launch).ctx = k) &&
      lanes32.any fun l => decide ((p.2.lane l).park = .report i) || decide ((p.2.lane l).park = .handlerEntry i)).map fun p => p.2.launch) ++
  (((listed s.copies).filter fun p => decide (p.2.ctx = k) && decide (p.2.report = some i)).map fun p => p.2.launch) ++
  (((listed s.nbs).filter fun p => decide (p.2.ctx = k) && decide (p.2.report = some i)).map fun p => p.2.launch) ++
  (s.arrays.map (·.2) ++ (listed s.teams).filterMap fun p => p.2.sx).flatMap fun a =>
    (a.ops.filter fun o => decide ((s.rcd o.launch).ctx = k) && decide (o.report = some i)).map fun o => o.launch

/-- Does a part of a transaction deliver something to a lane? -/
def AccOp.toLane : AccOp → Bool
  | .store => false
  | .red .. => false
  | .enq .. => false
  | .zlr => false
  | .dec _ => false
  | .pair _ _ _ _ d _ => d.isSome
  | _ => true

/-- A call reaches the head of its context's queue: MSI-X if SVCIE is set. -/
def State.svcHead (s : State) (k : Nat) : State :=
  if (s.ctx k).svcie && !(s.ctx k).svcs.isEmpty then s.msix k (s.ctx k).friv.toNat else s

/-- Calls of these groups are discarded; another call may come to the head (R427, R428). -/
def State.dropCalls (s : State) (gids : List Nat) : State :=
  s.ctxs.foldl (fun (s : State) p =>
    let rest := p.2.svcs.filter fun v => !gids.contains v.gid
    if rest.length = p.2.svcs.length then s
    else
      let s := s.setCtx p.1 { s.ctx p.1 with svcs := rest }
      if rest.head? = p.2.svcs.head? then s else s.svcHead p.1) s

/-- Groups leave the machine at once: their loads are dropped, the stores they sent go on. -/
def State.dropGroups (s : State) (gids : List Nat) : State :=
  let ctxFrames := fun (s : State) (gid : Nat) =>
    match s.group gid with
    | some g =>
      (match g.frame with
       | some f => let k := (s.rcd g.launch).ctx; s.setCtx k { s.ctx k with frames := Sparse.set false (s.ctx k).frames f false }
       | none => s)
    | none => s
  let s := (gids.foldl ctxFrames s).dropCalls gids
  { s with
    groups := keep s.groups fun k _ => !gids.contains k
    txns := s.txns.filterMap fun p =>
      match p.2 with
      | some t =>
        if gids.contains t.gid then
          let ps := t.parts.filter fun q => !q.op.toLane && !q.again
          if ps.isEmpty then none else some (p.1, some { t with parts := ps })
        else some p
      | none => some p
    spawns := keep s.spawns fun _ v => match v with | some r => !gids.contains r.gid | none => false
    parkedSpawns := s.parkedSpawns.filter fun p => !gids.contains p.2.1
    wokenSpawns := s.wokenSpawns.filter fun p => !gids.contains p.2.1
    wokenRooms := s.wokenRooms.filter fun p => !gids.contains p.2.1 }

/-- Teams leave the machine at once, with the work of their engines (R288): core copies, matrix and Sphinx operations and
queue-bound NBGEMVs are dropped; quadrant copies, and NBGEMVs and collectives to memory, run on. -/
def State.dropTeams (s : State) (uids : List Nat) : State :=
  let gids := ((listed s.groups).filter fun p => match p.2.team with | some t => uids.contains t | none => false).map (·.1)
  let s := s.dropGroups gids
  { s with
    teams := keep s.teams fun k _ => !uids.contains k
    copies := keep s.copies fun _ v =>
      match v with
      | some c => !(c.quad.isNone && (gids.contains c.gid || uids.contains c.owner))
      | none => false
    mx := mapVals [] s.mx fun l => l.filter fun o => !uids.contains o.team
    nbs := keep s.nbs fun _ v =>
      match v with
      | some n => !(n.out == 0 && gids.contains n.gid)
      | none => false
    arrays := mapVals {} s.arrays fun a =>
      match a.team with
      | some t => if uids.contains t then { fenced := a.fenced } else a
      | none => a }

/-! ### Issue cycles and windows (R29, R298, R299) -/

/-- Is the present core cycle an issue cycle of the core's die (R29, R113)? -/
def State.issueCycle (s : State) (core : Nat) : Bool := (let d := (s.die (core / 24)).duty
   decide (s.clk % 16 * d % 16 < d))

/-- N: core cycles with an open window in the current bucket and the 16 before it (R298). -/
def Group.windowCycles (g : Group) : Nat := sumN g.buckets
/-- The most that R299 allows. -/
def windowMax : Nat := 100000

/-! ### Stopping a group (R291) -/

/-- A part whose lane is parked on it, on the report of its poison or on the condition it watches, has no result outstanding:
the lane runs its word again, or leaves it, at its release (R150, R152, R392, R395). -/
def State.parkedPart (s : State) (t : Txn) (q : Part) : Bool :=
  q.rep || (match s.group t.gid with
   | some g => (match q.op, (g.lane q.lane).park with
     | .monitor .., .monitor _ => true
     | .enq _, .queue _ => true
     | .deq .., .queue _ => true
     | _, _ => false)
   | none => true)

/-- Is a part of a transaction one that a group leaves behind: a poisoned one whose lane is parked on its report, or the watch
of a parked lane? -/
def State.leavable (s : State) (t : Txn) (q : Part) : Bool :=
  !q.op.toLane || s.parkedPart t q || q.lane == 32

/-- Has the group come to a boundary: its loads have landed, and its spill forwarding table is empty (R174, R291)? -/
def State.atBoundary (s : State) (gid : Nat) (g : Group) : Bool :=
  g.landings.isEmpty && (listed s.txns).all fun p => p.2.gid != gid || p.2.parts.all fun q =>
    s.leavable p.2 q && !(match q.op with
      | .enq _ => !p.2.accepted && decide ((g.lane q.lane).st = .eligible)
      | _ => p.2.spill)

/-- May the group be taken off its core: it has come to a boundary, and no window of it is open (R297). -/
def State.stoppable (s : State) (gid : Nat) (g : Group) : Bool := s.atBoundary gid g && g.depthNp == 0

/-- Does a copy write memory? -/
def CopyKind.toMem : CopyKind → Bool
  | .tensor load .. => !load
  | .lin d _ _ _ _ => d
  | .fill d _ _ _ => d

/-- A core's copy stops at a 4 KiB boundary, counted from its start (R291). -/
def Copy.atBoundary (c : Copy) : Bool := c.pos % (if c.kind.toMem then 128 else 256) == 0

/-- Is a Sphinx operation where a stop finds it: between two sweeps, or at a boundary of 64 records (R278)? -/
def SxOp.atRest (o : SxOp) : Bool :=
  match o.kind with
  | .load .. => o.done % 64 == 0 || o.ended
  | _ => !o.inSweep

/-- Have the engines of an ending team come to where they stop, so that what is left of their work can be dropped (R76, R291)? One that a
fault holds stays where it is: its report is discarded with the launch (R283). -/
def State.enginesOver (s : State) (uid : Nat) (t : Team) : Bool :=
  ((listed s.copies).all fun p => p.2.quad.isSome || p.2.owner != uid || p.2.atBoundary || p.2.failed || p.2.report.isSome) &&
  ((s.array t.core).team != some uid || (match (s.array t.core).ops with
    | o :: _ => o.atRest || o.report.isSome
    | [] => true))

/-- The groups of an ending launch that stand at a boundary leave their cores, their teams once their engines have stopped as well, and its
suspended ones are dropped; with none left on any core its stamp is due (R76, R92, R291). An open window holds nothing up (R297). -/
def State.settleEnd (s : State) (r : Nat) : State :=
  if (s.rcd r).st ≠ .ending then s
  else
    let left := (s.groupsOf r).filter fun p => p.2.resident && !s.atBoundary p.1 p.2
    let busy := ((s.teamsOf r).filter fun p => decide (p.2.st ≠ .suspended) && !s.enginesOver p.1 p.2).map (·.1)
    let tms := ((s.teamsOf r).filter fun p => !busy.contains p.1 && !left.any fun q => q.2.team == some p.1).map (·.1)
    let out := ((s.groupsOf r).filter fun p => !left.any fun q => q.1 == p.1).map (·.1)
    let s := (s.dropTeams tms).dropGroups out
    if left.isEmpty && busy.isEmpty then s.setRec r { s.rcd r with st := .stamped } else s

/-- A pre-emption or a cut of a launch that has ended is over (R290). -/
def Ctx.popOver (c : Ctx) (r : Nat) : Ctx :=
  { c with popSt := match c.popSt with
      | .preempt r' _ => if r' = r then .idle else c.popSt
      | .cut r' => if r' = r then .idle else c.popSt
      | .idle => .idle }

/-- A launch ends with status KILLED or FAULT (R86, R92): its bins, ring records, pending tasks, held REDs and reports are
dropped, and its groups are to stop at their pre-emption boundaries; those that stand at one leave at once. Engine operations
that run on belong to no launch any more (number 4,096). Only a running or waiting launch ends. -/
def State.endLaunch (s : State) (r : Nat) (st : EndSt) (detail : Nat) : State :=
  let rc := s.rcd r
  if rc.st ≠ .waiting ∧ rc.st ≠ .running then s
  else
    let s := (s.groupsOf r).foldl (fun (s : State) p => s.setGroup p.1 { p.2 with preempt := true, idle := false }) s
    let s := { s with
      bins := keep s.bins fun _ b => !(b.launch == r)
      copies := mapVals none s.copies fun v => v.map fun (c : Copy) => if c.launch = r then { c with launch := 4096 } else c
      nbs := mapVals none s.nbs fun v => v.map fun (c : Nb) => if c.launch = r then { c with launch := 4096 } else c
      clovar := { s.clovar with
        colls := mapVals none s.clovar.colls fun v => v.map fun (c : Coll) => if c.launch = r then { c with launch := 4096 } else c }
      txns := keep s.txns fun _ v =>
        match v with
        | some t => !(t.launch == r && t.loggedRed)
        | none => false }
    let s := s.setRec r { rc with
      st := .ending, endSt := st, detail := BitVec.ofNat 8 detail, pending := [], lists := [], held := [], rings := [],
      domains := [], owed := [], hold := false, stageQ := [], rects := [], resv := [], resvFor := none, gone := [], barcl := [] }
    let s := s.settleEnd r
    let k := rc.ctx
    let c := (s.ctx k).popOver r
    s.setCtx k { c with
      reports := keep c.reports fun i v =>
        match v with
        | some rp => !(rp.launch == r) || (s.launchesOn k i).any fun x => x != r
        | none => false }

/-- Every retained launch ends with status FAULT, detail UNCORRECTABLE, and the device takes no launch until device reset
(R19, R287). -/
def State.millpondDies (s : State) : State :=
  let s := (s.recs.map (·.1)).foldl (fun s r => s.endLaunch r .fault 0x19) s
  { s with mgmt := { s.mgmt with noLaunch := true } }

/-! ### Taking an exception (R151, R280, R281, R285) -/

/-- %cause of a fault with code and ACC. -/
def causeWord (code acc : Nat) : Word := BitVec.ofNat 32 (acc % 4 * 256 + code % 256)

/-- The lane trap-parks at its own PC: %cause takes the code and ACC, and the address stands for the trap record (R151,
R280, R284). REG_RETRY (J class) is replayed at the join (R281). -/
def Lane.trap (l : Lane) (code acc : Nat) (addr : DWord) : Lane :=
  { l with st := .trapped, park := .none, ready := false, cause := causeWord code acc, addr := addr,
           replayJoin := decide (code = 0x39) }

/-- A lane of group gid takes an exception of class T or J. In handler mode a T-class fault ends the launch with
DOUBLE_TRAP, and REG_RETRY replays the word at once (R285). -/
def State.takeTrap (s : State) (gid l code acc : Nat) (addr : DWord) : State :=
  match s.group gid with
  | none => s
  | some g =>
    let ln := g.lane l
    if ln.handler then
      if code = 0x39 then s.setGroup gid (g.setLane l { ln with cause := causeWord code acc })
      else s.endLaunch g.launch .fault 0x1C
    else s.setGroup gid (g.setLane l (ln.trap code acc addr))

/-- Return from the exception (R151, R285, R429): the lane leaves handler mode and is eligible at the target, its registers,
predicates, %cause and %fpflags as the handler left them. -/
def Lane.trapReturn (l : Lane) (target : DWord) : Lane :=
  { l with st := .eligible, handler := false, pc := target, park := .none, ready := false, replayJoin := false }

/-- The group goes on from trap handling when no lane of the subgroup is left (R151). -/
def Group.endHandling (g : Group) : Group :=
  if g.handling && !(lanes32.any fun l => (g.lane l).handler && decide ((g.lane l).st ≠ .exited)) then
    { g with handling := false } else g

/-- The lane parks at its PC until its release condition holds (R152). A page of host memory that is not resident is a PAGE fault, though
it is not reported (R51, R280, R281). -/
def Lane.parkOn (l : Lane) (p : Park) (age : Nat) : Lane :=
  let l := match p with
    | .pri _ _ _ acc va => { l with cause := causeWord 0x40 acc, addr := BitVec.ofNat 64 va }
    | _ => l
  { l with st := .parked, park := p, ready := false, age := age }

/-- The lane is eligible again at the PC of the parked word (R152). -/
def Lane.unpark (l : Lane) : Lane := { l with st := .eligible, park := .none, ready := false }

/-- The lane leaves its park. Most words issue again; those whose work is done at the release are passed (R120, R132, R400,
R401, R423, R427). -/
def Lane.release (l : Lane) : Lane :=
  match l.park with
  | .signed .. => { l.unpark with pc := l.pc + 8 }
  | .barcl .. => { l.unpark with pc := l.pc + 8 }
  | .jwait .. => { l.unpark with pc := l.pc + 8 }
  | .spawn _ => { l.unpark with pc := l.pc + 8 }
  | .svc (some r) => { (l.setRegs (pairW r.1 511 r.2)).unpark with pc := l.pc + 8 }
  | .quiet d (some v) => { (l.setReg d v).unpark with pc := l.pc + 8 }
  | _ => l.unpark

end Sys2Proof.Machine
end

