-- ==== Sys2Proof/Machine/Memory.lean ====
section
/-! DEFINITION. Memory.lean: home slices, poison, the directory and lazy ownership, the page table and translation, caches
that are not coherent, and transactions in flight (files 01, 08, 09). -/
namespace Sys2Proof.Machine

/-! ### Poison (R187 to R190) -/

def State.poisoned (s : State) (c : Nat) : Bool := Sparse.get false s.poison (c / 32)
/-- Is some byte of the n at c in a poisoned sector? -/
def State.poisonedRange (s : State) (c n : Nat) : Bool :=
  (List.range ((c % 32 + n + 31) / 32)).any fun i => Sparse.get false s.poison (c / 32 + i)

/-- An entry of the poison log of the sector's quadrant; KIND 1, 2 and 6 are copied to the event log (R190). -/
def State.logPoison (s : State) (kind agent index c : Nat) : State :=
  let q := quadOf c
  let d := s.quad q
  let e := BitVec.ofNat 64 (kind * 2 ^ 60 + agent * 2 ^ 56 + index % 16 * 2 ^ 52 + paOfCell (c / 32 * 32) % 2 ^ 52)
  let s := s.setQuad q { d with plprod := d.plprod + 1, plog := Sparse.set 0 d.plog (d.plprod.toNat % 256) e }
  if kind = 1 ∨ kind = 2 ∨ kind = 6 then s.logEv .poisonLog 2 (evQuad q) [kind, paOfCell c] else s

/-- The sector that holds cell c becomes poisoned, and is logged (R187, R190). -/
def State.poisonSector (s : State) (kind agent index c : Nat) : State :=
  ({ s with poison := Sparse.set false s.poison (c / 32) true }).logPoison kind agent index c

/-! ### Requests at the home (R16, R25, R179, R189) -/

/-- Who sends a request: the AGENT and INDEX of R190, and the die for R25. -/
structure Src' where
  agent : Nat
  index : Nat
  die : Option Nat
deriving DecidableEq, Repr

def srcCore (core : Nat) : Src' := { agent := 0, index := core / 24, die := some (core / 24) }
def srcIod (p : Nat) : Src' := { agent := 3, index := p, die := none }
def srcMill (q : Nat) : Src' := { agent := 4, index := q, die := none }

/-- A line request is counted where its home accepts it (R25). -/
def State.count (s : State) (src : Src') (c : Nat) : State :=
  let q := quadOf c
  let d := s.quad q
  s.setQuad q (match src.die with
    | some k => if k / 2 = q then { d with lreq := d.lreq + 1 } else { d with rreq := d.rreq + 1 }
    | none => { d with oreq := d.oreq + 1 })

/-- A line request is counted where it goes on to the home: the quadrants' counters alone may change. -/
def State.countIf (s : State) (b : Bool) (src : Src') (c : Nat) : State := { s with quads := bif b then (s.count src c).quads else s.quads }

/-- Lines that n bytes from cell c touch. -/
def linesOf (c n : Nat) : List Nat := (List.range ((c % 128 + n + 127) / 128)).map fun i => c / 128 + i

/-- A request for n bytes from cell c counts once for each line (R25). -/
def State.countLines (s : State) (src : Src') (c n : Nat) : State := (linesOf c n).foldl (fun (s : State) l => s.count src (l * 128)) s

/-! ### The die L2 (R177, R180, R436) -/

def l2Key (die line : Nat) : Nat := die * 2 ^ 41 + line
/-- Ways of a set of a die L2 (R436). -/
def l2Ways : Nat := 16
/-- Slice of a die's L2 in which the line of a physical address lies (R177). -/
def l2Slice (pa : Nat) : Nat := pa / 128 % 384
/-- Set of that slice: 1,024 lines in 16 ways are 64 sets, which take the lines of a slice in turn (DESIGN CHOICE, log entry 143). -/
def l2Set (pa : Nat) : Nat := pa / 128 / 384 % 64

/-- The line that a die L2 holds. -/
def State.l2Line (s : State) (die line : Nat) : Option L2Line := Sparse.get none s.l2 (l2Key die line)

/-- Lines of a die L2 that share the set of a line. -/
def State.l2Mates (s : State) (die line : Nat) : List (Nat × L2Line) :=
  (listed s.l2).filter fun p => p.1 / 2 ^ 41 == die &&
    l2Slice (paOfCell (p.1 % 2 ^ 41 * 128)) == l2Slice (paOfCell (line * 128)) && l2Set (paOfCell (p.1 % 2 ^ 41 * 128)) == l2Set (paOfCell (line * 128))

/-- A line fills the die L2, its poisoned sectors left out; in a full set the line of the lowest EVP gives way, the least recently used
among them (R180, R187). -/
def State.l2Fill (s : State) (die evp line : Nat) : State :=
  let x : L2Line := {
    secs := maskOf ((List.range 4).filter fun i => !Sparse.get false s.poison (line * 4 + i)) |>.setWidth 4
    evp := evp, used := s.l2Uses }
  let mates := (s.l2Mates die line).filter fun p => p.1 != l2Key die line
  let out := if mates.length < l2Ways then none
    else leastBy (fun (a b : Nat × L2Line) => decide (a.2.evp < b.2.evp ∨ (a.2.evp = b.2.evp ∧ a.2.used < b.2.used))) mates
  let m := match out with | some p => Sparse.set none s.l2 p.1 none | none => s.l2
  { s with l2 := Sparse.set none m (l2Key die line) (some x), l2Uses := s.l2Uses + 1 }

/-- Does the die L2 hold these sectors of a line? -/
def State.l2Holds (s : State) (die line : Nat) (secs : List Nat) : Bool :=
  match s.l2Line die line with
  | some x => secs.all fun i => x.secs.getLsbD (i % 4)
  | none => false

def State.dirOf (s : State) (line : Nat) : Dir := Sparse.get {} s.dir line
def State.setDir (s : State) (line : Nat) (d : Dir) : State := { s with dir := Sparse.set {} s.dir line d }

/-- A core reads sectors of a line: the die L2 gives them, or the request goes on to the home, where it is counted and the die becomes a sharer.
A line of LVL 0 is held only at its home (R25, R177, R179, R180). -/
def State.readLine (s : State) (core lvl evp line : Nat) (secs : List Nat) : State :=
  let die := core / 24
  if lvl = 0 then s.count (srcCore core) (line * 128)
  else if s.l2Holds die line secs then
    { s with
      l2 := match s.l2Line die line with
        | some x => Sparse.set none s.l2 (l2Key die line) (some { x with used := s.l2Uses })
        | none => s.l2
      l2Uses := s.l2Uses + 1 }
  else
    let s := (s.count (srcCore core) (line * 128)).l2Fill die evp line
    let d := s.dirOf line
    s.setDir line { d with sharers := d.sharers ||| BitVec.ofNat 8 (2 ^ die) }

/-- The same for a lane of the word being issued, whose lanes make one request for each line (R16, R25). -/
def State.requestLine (s : State) (core lvl evp line : Nat) (secs : List Nat) : State :=
  if s.cur.counted.contains line then s
  else
    let s := s.readLine core lvl evp line secs
    { s with cur := { s.cur with counted := line :: s.cur.counted } }

/-- The sectors of n bytes at cell c. -/
def secsOf (c n : Nat) : List Nat := (List.range ((c % 32 + n + 31) / 32)).map fun i => c / 32 + i

/-- The home accepts a write of the listed bytes: they are committed; a sector written whole loses its poison, and a partial
write of a poisoned sector is logged (R16, R189). -/
def State.commit (s : State) (src : Src') (ws : List (Nat × Byte)) : State :=
  let s := ws.foldl (fun s w => s.setCell w.1 w.2) s
  let fresh := ((ws.map fun w => w.1 / 128).eraseDups).filter fun l => l * 128 < carveBase
  let s := { s with llcNew := fresh.foldl (fun m l => Sparse.set false m l true) s.llcNew }
  let secs := (ws.map fun w => w.1 / 32).eraseDups
  secs.foldl (fun s sec =>
    if Sparse.get false s.poison sec then
      if (List.range 32).all fun i => ws.any fun w => w.1 == sec * 32 + i then
        ({ s with poison := Sparse.set false s.poison sec false }).logPoison 5 src.agent src.index (sec * 32)
      else s.logPoison 4 src.agent src.index (sec * 32)
    else s) s

/-- The value of a naturally aligned word at a cell. -/
def State.wordAt (s : State) (c n : Nat) : Nat := leNat (s.cells c n)

/-! Delivering results to lanes. -/

/-- Extension of a loaded value into its registers (R378). -/
def widthWrites (w : Width) (d : Nat) (bs : List Byte) : List (Nat × Word) :=
  let v := leNat bs
  match w with
  | .n8 => [(d, BitVec.ofNat 32 (v % 256))]
  | .s8 => [(d, (BitVec.ofNat 8 v).signExtend 32)]
  | .n16 => [(d, BitVec.ofNat 32 (v % 65536))]
  | .s16 => [(d, (BitVec.ofNat 16 v).signExtend 32)]
  | .b32 => [(d, BitVec.ofNat 32 v)]
  | .n64 => pairW d 511 (BitVec.ofNat 64 v)
  | .b128 => if d = 511 then [] else (List.range 4).map fun i => (d + i, BitVec.ofNat 32 (v / 2 ^ (32 * i)))

/-- Registers a result of one or two words goes to. -/
def valWrites (wide : Bool) (d v : Nat) : List (Nat × Word) :=
  if wide then pairW d 511 (BitVec.ofNat 64 v) else [(d, BitVec.ofNat 32 v)]

/-- MONWAIT and POLL comparisons (R392). -/
def monHolds (c : MonCmp) (v b : Nat) : Bool :=
  match c with
  | .eq => v == b
  | .ne => v != b
  | .ge => decide (b ≤ v)
  | .lt => decide (v < b)

/-- The comparison value of a monitor of this width. -/
def monB (wide : Bool) (b : DWord) : Nat := if wide then b.toNat else b.toNat % 2 ^ 32

/-- A MONWAIT lane completes: it holds the value and goes on past the word (R392). -/
def Lane.monDone (l : Lane) (wide : Bool) (d v : Nat) : Lane :=
  let l := l.setRegs (valWrites wide d v)
  { l with st := .eligible, park := .none, ready := false, pc := l.pc + 8 }

/-- A lane, and under PROT its shadow (R166). -/
def Group.both (g : Group) (prot : Bool) (l : Nat) (f : Lane → Lane) : Group :=
  let g := g.setLane l (f (g.lane l))
  if prot then g.setLane (l / 2 * 2 + 1) (f (g.lane (l / 2 * 2 + 1))) else g

/-- Writes that are visible wake the monitors on their line: MONWAIT lanes read again (R392), and JWAIT lanes whose counter
reads 0 are released (R132). -/
def State.wakeMonitors (s : State) (line : Nat) : State :=
  let s := (listed s.txns).foldl (fun s p =>
    let t := p.2
    if t.tgt = .cell && t.line == line && (t.parts.any fun q => match q.op with | .monitor .. => true | _ => false) then
      t.parts.foldl (fun s q =>
        match q.op, s.group t.gid, s.txn p.1 with
        | .monitor cmp wide b d, some g, some t' =>
          let v := s.wordAt q.addr q.len
          if s.poisonedRange q.addr q.len then
            -- the read finds poison when it reaches the home again (R188)
            s.setTxn p.1 (some { t' with accepted := false })
          else if monHolds cmp v (monB wide b) then
            let s := s.setGroup t.gid { g.both (s.rcd g.launch).blk.prot q.lane (fun ln => ln.monDone wide d.toNat v) with backoff := 0 }
            let ps := t'.parts.filter fun r => r.lane != q.lane
            s.setTxn p.1 (if ps.isEmpty then none else some { t' with parts := ps })
          else s
        | _, _, _ => s) s
    else s) s
  (listed s.groups).foldl (fun s p =>
    let g := p.2
    let hit := lanes32.filter fun l => !(g.lane l).ready && (match (g.lane l).park with
      | .jwait c _ => c / 128 == line && s.wordAt c 4 == 0 && !s.poisonedRange c 4
      | _ => false)
    if hit.isEmpty then s
    else
      let g := hit.foldl (fun (g : Group) l => g.setLane l { g.lane l with ready := true }) g
      { s.setGroup p.1 { g with jwaitEnded := s.next } with next := s.next + 1 }) s

/-- After an accepted write `id` to a line: every sharer die owes an acknowledgement before the value is visible (R179,
R204). -/
def State.publish (s : State) (line id : Nat) : State :=
  let d := s.dirOf line
  if d.sharers = 0 ∧ d.waiting = 0 then s.wakeMonitors line
  else s.setDir line { d with waiting := d.waiting ||| d.sharers, sharers := 0, src := id }

/-- Is the line held until invalidations are acknowledged? -/
def State.lineHeld (s : State) (line : Nat) : Bool := decide ((s.dirOf line).waiting ≠ 0)

/-- A write of a unit, in one line or several: committed, left poisoned where its data are (`bad` is the KIND of R190), and
published (R16, R187). -/
def State.agentPut (s : State) (src : Src') (id : Nat) (bad : Option Nat) (ws : List (Nat × Byte)) : State :=
  let s := s.commit src ws
  let s := match bad with
    | some kind => ((ws.map fun w => w.1 / 32).eraseDups).foldl (fun (s : State) sec => s.poisonSector kind src.agent src.index (sec * 32)) s
    | none => s
  ((ws.map fun w => w.1 / 128).eraseDups).foldl (fun s l => s.publish l id) s

/-- A write of a Millpond unit, an I/O die or a core's save: counted per line, and put (R25). -/
def State.agentWrite (s : State) (src : Src') (id : Nat) (ws : List (Nat × Byte)) : State :=
  (((ws.map fun w => w.1 / 128).eraseDups).foldl (fun (s : State) l => s.count src (l * 128)) s).agentPut src id none ws

/-! ### Lazy ownership (R178, R179, R202) -/

/-- The writer that dirty lines of a core are written back under. -/
def wbId (core : Nat) : Nat := 2 ^ 60 + core

def dirtyKey (core c : Nat) : Nat := core * 2 ^ 48 + c
def dirtyLineKey (core line : Nat) : Nat := core * 2 ^ 41 + line

/-- Dirty lines of a context on a core: (line, entry). -/
def State.dirtyOf (s : State) (core k : Nat) : List (Nat × DirtyLine) :=
  (listed s.dirtyLines).filterMap fun p =>
    if p.1 / 2 ^ 41 == core && p.2.ctx == k then some (p.1 % 2 ^ 41, p.2) else none

/-- Dirty bytes of a line on a core. -/
def State.dirtyBytes (s : State) (core line : Nat) : List (Nat × Byte) :=
  (List.range 128).filterMap fun i =>
    (Sparse.get none s.dirty (dirtyKey core (line * 128 + i))).map fun b => (line * 128 + i, b)

/-- A core's view of a cell: its dirty byte, or the committed one. -/
def State.coreCell (s : State) (core c : Nat) : Byte := (Sparse.get none s.dirty (dirtyKey core c)).getD (s.cell c)

/-- Dirty bytes of a line's owner give way to a write that reaches the home after them. -/
def State.eraseDirty (s : State) (cs : List Nat) : State :=
  { s with dirty := cs.foldl (fun m c =>
      match (s.dirOf (c / 128)).lo with
      | some o => Sparse.set none m (dirtyKey o c) none
      | none => m) s.dirty }

/-- Write one dirty line back: its bytes are committed with their mask, and LO is cleared (R178, R179). -/
def State.writeBackLine (s : State) (core line : Nat) : State :=
  let ws := s.dirtyBytes core line
  let since := ((Sparse.get none s.dirtyLines (dirtyLineKey core line)).getD {}).since
  let s := { s with
    dirty := ws.foldl (fun m (w : Nat × Byte) => Sparse.set none m (dirtyKey core w.1) none) s.dirty
    dirtyLines := Sparse.set none s.dirtyLines (dirtyLineKey core line) none }
  let s := s.setDir line { s.dirOf line with lo := none, since := since }
  if ws.isEmpty then s else ((s.commit (srcCore core) ws).count (srcCore core) (line * 128)).publish line (wbId core)

/-- One step of writing back the lines of a context that were dirty on a core before event b: first every line that holds no release; then,
once those and the stores issued before the release are acknowledged, the lines that do (R202). -/
def State.writeBackTo (s : State) (core k b : Nat) : State :=
  let ls := (s.dirtyOf core k).filter fun p => decide (p.2.since < b)
  let plain := ls.filter fun p => !p.2.release && !s.lineHeld p.1
  if plain.isEmpty then
    if (ls.any fun p => !p.2.release) || (s.dir.any fun p => decide (p.2.waiting ≠ 0) && p.2.src == wbId core && decide (p.2.since < b)) ||
        ls.any fun p => s.lineHeld p.1 || p.2.deps.any fun i => (s.txn i).isSome then s
    else ls.foldl (fun s p => s.writeBackLine core p.1) s
  else plain.foldl (fun s p => s.writeBackLine core p.1) s

/-- One step of writing back all of them, as a recall does it (R179). -/
def State.writeBack (s : State) (core k : Nat) : State := s.writeBackTo core k s.next

/-- Nothing of the context is dirty on the core, and what was written back is acknowledged (R200). -/
def State.clean (s : State) (core k : Nat) : Bool :=
  (s.dirtyOf core k).isEmpty && !(s.dir.any fun p => decide (p.2.waiting ≠ 0) && p.2.src == wbId core)

/-- The same for what was dirty before event b: a release waits for no line dirtied after it (R200, R201). -/
def State.cleanTo (s : State) (core k b : Nat) : Bool :=
  !((s.dirtyOf core k).any fun p => decide (p.2.since < b)) &&
  !(s.dir.any fun p => decide (p.2.waiting ≠ 0) && p.2.src == wbId core && decide (p.2.since < b))

/-- Recall a lazy-owner line: the owner writes back the dirty lines of the line's context (R179). An owner with no dirty line
left there gives up LO. -/
def State.recall (s : State) (line : Nat) : State :=
  let d := s.dirOf line
  match d.lo with
  | none => s
  | some core =>
    match Sparse.get none s.dirtyLines (dirtyLineKey core line) with
    | some dl => s.writeBack core dl.ctx
    | none => s.setDir line { d with lo := none }

/-- May an agent other than core `me` be served on this line now? A device whose start-up found no stack or no slice to serve it serves no
memory (R28). -/
def State.lineFree (s : State) (me : Option Nat) (line : Nat) : Bool :=
  s.mgmt.boot != .notReady && !s.lineHeld line && (match (s.dirOf line).lo with | none => true | some c => me == some c)

/-- Are all lines of a range free for an agent that is no core? -/
def State.rangeFree (s : State) (c n : Nat) : Bool := (linesOf c n).all fun l => s.lineFree none l
/-- Recall every line of a range. -/
def State.recallRange (s : State) (c n : Nat) : State := (linesOf c n).foldl (fun s l => s.recall l) s

/-! ### The page table (R181 to R183, R186) -/

/-- How a walk ends without a translation. -/
inductive WalkErr where
  | busy (line : Nat)                                -- an entry's line must be recalled or acknowledged first
  | fault (code lo hi : Nat)                         -- cause and the region of R186
deriving DecidableEq, Repr

def causePage : Nat := 0x40
def causePlacement : Nat := 0x41
def causePteFormat : Nat := 0x42
def causePoison : Nat := 0x43

/-- Span of an entry of a level (R186). -/
def levelSpan (lv : Nat) : Nat :=
  match lv with
  | 1 => 2 ^ 43
  | 2 => 2 ^ 30
  | 3 => 2 ^ 21
  | _ => 2 ^ 16

/-- Do all frames of a leaf agree with its PLC and PLCQ (R23)? A leaf of interleaved frames with a PLCQ other than 0 disagrees
with its view (log entry 120). -/
def State.placementOk (s : State) (pa size plc plcq fmt : Nat) : Bool :=
  let pts := (pa + size - 1) :: (List.range ((size + 2 ^ 24 - 1) / 2 ^ 24)).map fun i => pa + i * 2 ^ 24
  let vs := pts.map fun p => (s.viewOf p).map fun v => (v.1, v.2.1)
  if vs.all fun v => v.isNone then plc == 0 && plcq == 0 && fmt == 0
  else vs.all fun v =>
    match v with
    | some (a, b) => a == plc && b == plcq
    | none => false

/-- The checks of R183 on a valid entry; `lv` is its level. -/
def entryOk (e lv : Nat) : Bool :=
  let leaf := nbit e 1
  if leaf then
    let fmt := nbits e 67 64
    let blk := nbits e 73 71
    let pl := nbits e 77 74
    let pa := nbits e 51 9 * 512
    let n := if fmt = 1 then pl else 8
    lv ≠ 1 && nbit e 2 == false && nbits e 8 5 == 0 && nbits e 63 52 == 0 && nbits e 70 68 == 0 && nbits e 127 88 == 0 &&
    nbits e 87 86 ≠ 3 && nbits e 79 78 ≠ 3 && fmt < 5 && blk < 5 && pl ≤ 8 &&
    pa % levelSpan lv == 0 && !(fmt == 2 && blk == 0) && !(fmt == 1 && pl == 0) && (fmt == 1 || pl == 0) &&
    !(blk ≠ 0 && n * (8 * 2 ^ blk) < 128) && !(fmt == 0 && blk ≠ 0)
  else
    let pa := nbits e 51 9 * 512
    lv ≠ 4 && e / 2 ^ 64 == 0 && nbits e 63 52 == 0 && nbits e 8 5 == 0 && nbit e 2 == false &&
    pa % (match lv with | 1 => 2 ^ 17 | 2 => 2 ^ 13 | _ => 2 ^ 9) == 0

/-- The walker pool of an agent: that of the quadrant below its die; a unit outside the compute dies uses that of its own number (DESIGN
CHOICE, log entry 143). -/
def poolOf (agent : Nat) : Nat := if agent < 192 then agent / 48 else (agent - 192) % 4
def poolKey (agent k lv va : Nat) : Nat := ((poolOf agent * 64 + k) * 4 + lv) * 2 ^ 41 + va / levelSpan lv

/-- The entry of level 1 to 3 that the agent's walker pool holds for va, if the pool has not given it up (R186). -/
def State.pooled (s : State) (agent k lv va : Nat) : Option Nat :=
  match Sparse.get none s.pool (poolKey agent k lv va) with
  | some e => if lv < 4 && Config.walkHit s.free agent lv then some e else none
  | none => none

/-- Where the entry of a level for va stands in a table, if in a view. -/
def State.entryCell (s : State) (tab lv va : Nat) : Option Nat :=
  (s.viewOf (tab + va / levelSpan lv % (match lv with | 1 => 16384 | 2 => 8192 | 3 => 512 | _ => 32) * 16)).map fun v => v.2.2

/-- The entry that a walk reads: from the pool, or as one load of its sector at its home (R186). -/
def State.entryAt (s : State) (agent k va tab lv : Nat) : Except WalkErr Nat :=
  match s.pooled agent k lv va with
  | some e => .ok e
  | none =>
    let lo := va / levelSpan lv * levelSpan lv
    match s.entryCell tab lv va with
    | none => .error (if lv = 1 then .fault causePteFormat 0 (2 ^ 57) else .fault causePteFormat lo (lo + levelSpan lv))
    | some c =>
      if !s.lineFree none (c / 128) then .error (.busy (c / 128))
      else if s.poisoned c then .error (.fault causePoison (2 ^ 58 + c / 32 * 32) (2 ^ 58 + c / 32 * 32 + 32))
      else .ok (s.wordAt c 16)

/-- A walk from level lv at the table at pa (R181, R183); fuel is the number of levels left. -/
def State.walkAt (s : State) (agent k va : Nat) : Nat → Nat → Nat → Except WalkErr Leaf
  | 0, _, _ => .error (.fault causePteFormat 0 (2 ^ 57))
  | fuel + 1, lv, tab =>
    let span := levelSpan lv
    let lo := va / span * span
    match s.entryAt agent k va tab lv with
    | .error x => .error x
    | .ok e =>
      if !nbit e 0 then .error (.fault causePage lo (lo + span))
      else if !entryOk e lv then .error (.fault causePteFormat lo (lo + span))
      else if nbit e 1 then
        let pa := nbits e 51 9 * 512
        if !s.placementOk pa span (nbits e 87 86) (nbits e 85 84) (nbits e 67 64) then
          .error (.fault causePlacement lo (lo + span))
        else .ok { pa := pa, level := lv, w := nbit e 3, x := nbit e 4, wp := nbit e 80, lvl := nbits e 79 78,
                   fmt := nbits e 67 64, pl := nbits e 77 74, blk := nbits e 73 71, evp := nbits e 83 82, cmp := nbit e 81 }
      else s.walkAt agent k va fuel (lv + 1) (nbits e 51 9 * 512)

/-- The table at which the walks of context k begin (R181). -/
def State.rootOf (s : State) (k : Nat) : Nat := (s.ctx k).ptroot.toNat * 4096

/-- The walk of a virtual address of context k by an agent (R181). -/
def State.walk (s : State) (agent k va : Nat) : Except WalkErr Leaf := s.walkAt agent k va 4 1 (s.rootOf k)

/-- Key of the entry for the page of a level that holds va. TLBs: those of cores 0 to 191, of quadrant engines 192 to 195 and of
I/O dies 196 and 197; 256 to 263 are the L2 TLBs of the compute dies (R186). -/
def tlbKey (agent k lv va : Nat) : Nat := (agent * 64 + k) * 2 ^ 41 + va / levelSpan lv * levelSpan lv / 65536

/-- The translation of va that a TLB holds, in a page of any size (R186). -/
def State.tlbAt (s : State) (agent k va : Nat) : Option Leaf :=
  [4, 3, 2].findSome? fun lv => match Sparse.get none s.tlb (tlbKey agent k lv va) with
    | some l => if l.level = lv then some l else none
    | none => none

/-- The translation that the agent finds without a walk: in its own TLB, or in its die's L2 TLB (R186). -/
def State.tlbFind (s : State) (agent k va : Nat) : Option Leaf :=
  match s.tlbAt agent k va with
  | some l => some l
  | none => if agent < 192 then s.tlbAt (256 + agent / 24) k va else none

/-- A translation from the agent's TLBs, or by a walk (R186). -/
def State.translate (s : State) (agent k va : Nat) : Except WalkErr Leaf :=
  match s.tlbFind agent k va with
  | some l => .ok l
  | none => s.walk agent k va

/-- A TLB of `cap` entries takes a translation it does not hold; a full one gives up one of its entries (R186). -/
def State.tlbAdd (s : State) (agent cap k va : Nat) (l : Leaf) : State :=
  if (s.tlbAt agent k va).isSome then s
  else
    let own := (s.tlb.map (·.1)).filter fun key => key / 2 ^ 47 == agent
    if own.length < cap then { s with tlb := Sparse.set none s.tlb (tlbKey agent k l.level va) (some l) }
    else
      let (n, s) := s.draw
      let out := own.getD (Config.tlbVictim n agent % cap) 0
      { s with tlb := Sparse.set none (Sparse.set none s.tlb out none) (tlbKey agent k l.level va) (some l) }

/-- The TLBs hold the translation that an access has used: 128 entries in a core, 8,192 in a compute die (R186). Engines outside
the compute dies keep theirs in the walker pools, whose size is not given. -/
def State.fillTlb (s : State) (agent k va : Nat) (l : Leaf) : State :=
  if (s.tlbAt agent k va).isSome then s
  else if agent < 192 then (s.tlbAdd agent 128 k va l).tlbAdd (256 + agent / 24) 8192 k va l
  else { s with tlb := Sparse.set none s.tlb (tlbKey agent k l.level va) (some l) }

/-- The entries that a walk takes: level, cell, value, and whether the pool held it. -/
def State.walkReads (s : State) (agent k va : Nat) : Nat → Nat → Nat → List (Nat × Nat × Nat × Bool)
  | 0, _, _ => []
  | fuel + 1, lv, tab =>
    match s.entryCell tab lv va with
    | none => []
    | some c =>
      let held := s.pooled agent k lv va
      let e := held.getD (s.wordAt c 16)
      let good := held.isSome || !s.poisoned c
      (lv, c, e, held.isSome) :: (if good && nbit e 0 && !nbit e 1 && entryOk e lv then s.walkReads agent k va fuel (lv + 1) (nbits e 51 9 * 512) else [])

/-- The reads of a walk are counted at the homes of its entries as requests of a Millpond engine, and the walker pool holds what it has read of
levels 1 to 3; an entry that it held is not read again (R25, R186). -/
def State.countWalk (s : State) (agent k va : Nat) : State :=
  if (s.tlbFind agent k va).isSome then s
  else
    let rs := s.walkReads agent k va 4 1 (s.rootOf k)
    let s := { s with free := s.free + 1 }
    rs.foldl (fun (s : State) e =>
      let s := s.countIf (!e.2.2.2) (srcMill (poolOf agent)) e.2.1
      if decide (e.1 < 4) && !e.2.2.2 && nbit e.2.2.1 0 && entryOk e.2.2.1 e.1 && !s.poisoned e.2.1 then
        { s with pool := Sparse.set none s.pool (poolKey agent k e.1 va) (some e.2.2.1) }
      else s) s

/-- The physical address of va under a leaf. -/
def Leaf.phys (l : Leaf) (va : Nat) : Nat := l.pa + va % levelSpan l.level

/-! ### Checking one access (R23, R60, R72, R169, R183, R379) -/

/-- What the checks of R379 find for one lane's access. -/
inductive Chk where
  | ok (leaf : Leaf) (tgt : Tgt) (addr : Nat)
  | trap (code : Nat)
  | park (code lo hi : Nat)
  | pri (port pasid page : Nat)
  | busy (line : Nat)
deriving DecidableEq, Repr

def causeAlign : Nat := 0x25
def causeVaRange : Nat := 0x26
def causeBusAddr : Nat := 0x27
def causeProtW : Nat := 0x28
def causeProtX : Nat := 0x29

/-- Base of the window area of generic addresses (R169). -/
def windowBase : Nat := 0x01FFF00000000000

/-- ACC of an access (R280). -/
inductive Acc where
  | load | store | atomic | fetch
deriving DecidableEq, Repr
def Acc.code : Acc → Nat
  | .load => 0
  | .store => 1
  | .atomic => 2
  | .fetch => 3
def Acc.writes : Acc → Bool
  | .store => true
  | .atomic => true
  | _ => false

/-- Ports of a node that are up (R60, R63). -/
def State.nodePorts (s : State) (n : Nat) : List Nat :=
  let m := Sparse.get 0 s.clovar.routes n
  (List.range 18).filter fun p => m.getLsbD p && decide (2 ≤ (Sparse.get ({} : CPort) s.clovar.ports p).lst.toNat)

/-- The place an access reaches, or BUS_ADDR (R21, R60, R72, R206, R454). A fetch by a privileged context from the register aperture is
refused with BUS_ADDR too (DESIGN CHOICE, log entry 144). -/
def State.target (s : State) (k n : Nat) (acc : Acc) (pa : Nat) : Except Nat (Tgt × Nat) :=
  match s.place pa with
  | .cell c => .ok (.cell, c)
  | .host p a => if acc = .atomic then .error causeBusAddr else .ok (.host p (s.ctx k).pasid.toNat, a)
  | .aper off =>
    if !(s.ctx k).priv || acc = .atomic || acc = .fetch then .error causeBusAddr
    else if 0x201000 ≤ off ∧ off < 0x202000 then (if n ≤ 8 then .ok (.aper, off) else .error causeBusAddr)
    else if n = 4 ∨ n = 8 then .ok (.aper, off) else .error causeBusAddr
  | .node d o =>
    if !s.clovar.den || 4 * hbmBytes ≤ o then .error causeBusAddr
    else if d = s.clovar.node.toNat then .ok (.cell, hashQuad o * hbmBytes + o / 2 ^ 14 * 4096 + o % 4096)
    else if (s.nodePorts d).isEmpty then .error causeBusAddr
    else .ok (.node d, o)
  | .unbacked => .error causeBusAddr

/-- The checks of one lane's access of n bytes at global address va. -/
def State.check (s : State) (agent k va n : Nat) (acc : Acc) : Chk :=
  if 2 ^ 57 ≤ va ∨ windowBase ≤ va then .trap causeVaRange
  else
    match s.translate agent k va with
    | .error (.busy l) => .busy l
    | .error (.fault c lo hi) => .park c lo hi
    | .ok leaf =>
      match s.target k n acc (leaf.phys va) with
      | .error c => .trap c
      | .ok (tgt, a) =>
        -- no cache holds an access to a frame outside every view, whatever its leaf says (R23)
        let leaf := if (s.viewOf (leaf.phys va)).isSome then leaf else { leaf with wp := false, lvl := 0 }
        if acc.writes && !leaf.w then .trap causeProtW
        else if acc = .fetch && !leaf.x then .trap causeProtX
        else
          match tgt with
          | .cell => .ok leaf tgt a
          | .host p pasid =>
            if Config.atsEnabled p && !Sparse.get false (s.port p).ats (pasid * 2 ^ 32 + a / 4096) &&
                !Config.hostResident s.free then .pri p pasid (a / 4096)
            else .ok leaf tgt a
          | _ => .ok leaf tgt a

/-! ### Caches that no directory tracks (R170, R320) -/

def cacheKey (core line : Nat) : Nat := core * 2 ^ 41 + line

/-- The n bytes that a core's constant cache (`inst` false) or instruction cache holds for a context, if it has not dropped their line
before this read; they may be older than memory. -/
def State.cacheHit (s : State) (inst : Bool) (core k c n : Nat) : Option (List Byte) × State :=
  let (f, s) := s.draw
  (match Sparse.get none (if inst then s.icache else s.ccache) (cacheKey core (c / 128)) with
   | some (k', bs) => if k' = k && !Config.cacheDrop f core (c / 128) then some ((bs.drop (c % 128)).take n) else none
   | none => none, s)

/-- Read n bytes of one line, through the die L2, into one of the caches, which keeps the line unless its page is of LVL 0 or a sector of it
is poisoned (R180, R187). -/
def State.cacheRead (s : State) (inst : Bool) (lvl evp core k c n : Nat) : List Byte × State :=
  let bs := s.cells (c / 128 * 128) 128
  let m := Sparse.set none (if inst then s.icache else s.ccache) (cacheKey core (c / 128))
    (if lvl ≠ 0 && !s.poisonedRange (c / 128 * 128) 128 then some (k, bs) else none)
  let s := if inst then { s with icache := m } else { s with ccache := m }
  ((bs.drop (c % 128)).take n,
    if inst then s.readLine core lvl evp (c / 128) (secsOf c n) else s.requestLine core lvl evp (c / 128) (secsOf c n))

/-- Discard a core's lines of one context in one of the two caches. -/
def State.discard (s : State) (inst : Bool) (core k : Nat) : State :=
  let f := fun (m : Sparse (Option (Nat × List Byte))) =>
    keep m fun key v => !(key / 2 ^ 41 == core && (match v with | some (k', _) => k' == k | none => false))
  if inst then { s with icache := f s.icache } else { s with ccache := f s.ccache }

/-! ### Bytes of an access (R174, R382) -/

/-- The bytes of a subpage that element n takes, the first k planes of them, and its scale byte; or a cause. -/
def typedBytes (fmt pl blk k n : Nat) : Except Nat (List Nat × Option Nat) :=
  let limit := if blk = 0 then 65536 else 61440
  let scale := if blk = 0 then none else some (0xF000 + n / (8 * 2 ^ blk))
  if fmt = 0 then .error 0x2D
  else if fmt = 1 then
    if pl < k ∨ k = 0 then .error 0x2E
    else if limit / (16 * pl) ≤ n / 128 then .error 0x2F
    else .ok ((List.range k).map fun p => 16 * pl * (n / 128) + 16 * p + n % 128 / 8, scale)
  else if limit ≤ n then .error 0x2F
  else .ok ([n], scale)

/-- Cells of a typed element, scale byte first. -/
def State.typedCells (s : State) (q : Part) (offs : List Nat) : List Nat :=
  offs.filterMap fun o => (s.viewOf (q.addr + o)).map fun v => v.2.2

/-- Which cells a read part takes from memory. -/
def State.readCells (s : State) (q : Part) : List Nat :=
  match q.op with
  | .typed k pl _ fmt blk n _ =>
    (match typedBytes fmt pl blk k n with
     | .ok (offs, sc) => s.typedCells q (sc.toList ++ offs)
     | .error _ => [])
  | _ => (List.range q.len).filterMap fun i => if q.mask.getD i false then none else some (q.addr + i)

/-- Does a part read a typed element? -/
def Part.isTyped (q : Part) : Bool := match q.op with | .typed .. => true | _ => false

/-- Bytes of a part, as ranges from the start of its target: an atomic on two local words has two (R172, R389). -/
def Part.ranges (q : Part) : List (Nat × Nat) :=
  match q.op with
  | .pair _ _ _ _ _ hi => [(q.addr, 4), (hi, 4)]
  | _ => [(q.addr, q.len)]

/-- The lines a request needs: those of all the bytes of a typed element, or of both words of a local atomic. -/
def State.linesNeeded (s : State) (t : Txn) : List Nat :=
  let wide := fun (q : Part) => q.isTyped || (match q.op with | .pair .. => true | _ => false)
  if t.parts.any wide then
    (t.parts.flatMap fun q => if q.isTyped then (s.readCells q).map fun c => c / 128 else q.ranges.map fun r => r.1 / 128).eraseDups
  else [t.line]

/-- Have two parts a byte in common, as their ranges tell? -/
def Part.overlaps (a b : Part) : Bool := a.ranges.any fun x => b.ranges.any fun y => decide (x.1 < y.1 + y.2) && decide (y.1 < x.1 + x.2)

/-- Have two parts a byte in common? -/
def State.share (s : State) (a b : Part) : Bool :=
  let within := fun (q : Part) (c : Nat) =>
    if q.isTyped then (s.readCells q).contains c else q.ranges.any fun r => decide (r.1 ≤ c) && decide (c < r.1 + r.2)
  if a.isTyped then (s.readCells a).any (within b)
  else if b.isTyped then (s.readCells b).any (within a)
  else a.overlaps b

/-- The bytes that a store part writes: those of higher lanes of its word in other transactions left out (R193). -/
def Part.stored (q : Part) : List (Nat × Byte) :=
  (List.range q.data.length).filterMap fun i => if q.mask.getD i false then none else some (q.addr + i, q.data.getD i 0)

/-! ### Transactions of a thread (R194, R198, R200) -/

/-- Does an access store? -/
def AccOp.writes : AccOp → Bool
  | .store => true
  | .atom .. => true
  | .red .. => true
  | .enq _ => true
  | .dec _ => true
  | .pair .. => true
  | _ => false

/-- Does it write memory? -/
def Txn.writes (t : Txn) : Bool := t.parts.any fun q => q.op.writes

/-- Is an older access of one of the transaction's threads to one of its bytes still in flight (R194, R204)? -/
def State.olderOverlap (s : State) (id : Nat) (t : Txn) : Bool :=
  (listed s.txns).any fun p => decide (p.1 < id) && p.2.gid == t.gid && p.2.tgt == t.tgt && p.2.parts.any fun a =>
    t.parts.any fun b => a.lane == b.lane && (s.share a b || match a.op, b.op with | .enq _, .enq _ => a.addr == b.addr | _, _ => false)

/-- May the transaction leave its core: are its release's waits over, and its thread's older accesses to its bytes done? -/
def State.mayLeave (s : State) (id : Nat) (t : Txn) : Bool :=
  !(t.deps.any fun d => (s.txn d).isSome) && (!t.wb || s.cleanTo t.core t.ctx id) && !s.olderOverlap id t

/-- Has the transaction left its core? One that nothing held up did so when it was sent; one that was held up keeps note of it. -/
def State.hasLeft (s : State) (id : Nat) (t : Txn) : Bool := t.left || (t.deps.isEmpty && !t.wb && !s.olderOverlap id t)

/-- Is an older write of the same core to the same line on its way to the home (R178)? -/
def State.olderWrite (s : State) (id : Nat) (t : Txn) : Bool :=
  let ls := s.linesNeeded t
  (listed s.txns).any fun p => decide (p.1 < id) && p.2.core == t.core && p.2.gid < 2 ^ 61 && p.2.tgt == t.tgt && ls.contains p.2.line &&
    !p.2.accepted && !p.2.l1 && !p.2.loggedRed && p.2.writes && s.hasLeft p.1 p.2

/-- Stores and atomics of the threads of a context on a core that are on their way, in order: those that a thread there may have
acquired are among them (R198). An ENQ that still waits for a place, and an ATOM whose lane is parked on poison, have performed nothing
(log entry 121). -/
def State.coreWrites (s : State) (core k : Nat) : List Nat :=
  ((listed s.txns).filter fun p => p.2.core == core && p.2.ctx == k && !p.2.mill && p.2.parts.any fun q =>
    decide (q.lane < 32) && q.op.writes && !q.rep && !(match q.op with | .enq _ => !p.2.accepted | _ => false)).map (·.1)

/-- Transactions in flight that have a part of this lane. -/
def State.threadTxns (s : State) (gid lane : Nat) : List (Nat × Txn) :=
  (listed s.txns).filter fun p => p.2.gid == gid && p.2.parts.any fun q => q.lane == lane

/-- Does an acquire of the lane still block its later accesses (R200)? -/
def State.acqPending (s : State) (gid lane : Nat) : Bool := (s.threadTxns gid lane).any fun p => p.2.acq

/-- Does the lane wait at its word for an answer: the first read of a MONWAIT, an ENQ or a DEQ (R392, R395)? -/
def State.replyPending (s : State) (gid lane : Nat) : Bool :=
  (s.threadTxns gid lane).any fun p => p.2.parts.any fun q => q.lane == lane && (match q.op with
    | .monitor .. => true
    | .enq _ => !p.2.accepted
    | .deq .. => true
    | _ => false)

/-- Registers of a lane that a load, an atomic or a poll in flight will write: (kind, index), kind 0 v and 1 p. -/
def AccOp.dests : AccOp → List (Nat × Nat)
  | .load w d =>
    (List.range (match w with | .n64 => 2 | .b128 => 4 | _ => 1)).map fun i => (0, d.toNat + i)
  | .typed _ _ _ _ _ _ d => [(0, d.toNat)]
  | .atom _ ty _ _ d => (0, d.toNat) :: if ty.wide then [(0, d.toNat + 1)] else []
  | .poll _ wide _ pd d => (1, pd.toNat) :: (0, d.toNat) :: if wide then [(0, d.toNat + 1)] else []
  | .monitor _ wide _ d => (0, d.toNat) :: if wide then [(0, d.toNat + 1)] else []
  | .pair _ _ _ _ (some d) _ => [(0, d.toNat), (0, d.toNat + 1)]
  | .deq w _ pd d =>
    (1, pd.toNat) :: (List.range (match w with | .b32 => 1 | .n64 => 2 | .b128 => 4)).map fun i => (0, d.toNat + i)
  | _ => []

/-- Pending destinations of a lane. -/
def State.pendingDests (s : State) (gid lane : Nat) : List (Nat × Nat) :=
  (s.threadTxns gid lane).flatMap fun p => (p.2.parts.filter fun q => q.lane == lane && !s.parkedPart p.2 q).flatMap fun q => q.op.dests

end Sys2Proof.Machine
end

