-- ==== Sys2Proof/Machine/Faults.lean ====
section
/-! DEFINITION. Faults.lean: fault reports and verdicts, parking lanes on P-class faults, release of parked lanes (R152, R186,
R282, R283). -/
namespace Sys2Proof.Machine

/-- Entries of the fault ring of a context (R282). -/
def Ctx.frSize (c : Ctx) : Nat :=
  let n := c.frlog.toNat
  if n < 4 then 16 else if 12 < n then 4096 else 2 ^ n

/-- The 32 bytes of a report (R283). -/
def Report.bytes (r : Report) (rid : Nat) : List Byte :=
  toLE 4 rid ++ [r.code] ++ toLE 1 r.acc.toNat ++ toLE 2 r.launch ++ toLE 8 r.va ++ toLE 2 r.core ++ List.replicate 14 0

/-- Engine operations joined to report i of context k go on (resolve), or end with FAULT (reject) (R270, R283). -/
def State.settleEngines (s : State) (k i : Nat) (ok : Bool) : State :=
  let op := fun (o : SxOp) =>
    if (s.rcd o.launch).ctx = k ∧ o.report = some i then
      { o with report := none, code := if ok then o.code else o.code ||| 1, ended := o.ended || !ok }
    else o
  { s with
    copies := mapVals none s.copies fun v => v.map fun c =>
      if c.ctx = k ∧ c.report = some i then { c with report := none, failed := c.failed || !ok } else c
    nbs := mapVals none s.nbs fun v => v.map fun c =>
      if c.ctx = k ∧ c.report = some i then { c with report := none, failed := c.failed || !ok } else c
    arrays := mapVals {} s.arrays fun a => { a with ops := a.ops.map op }
    teams := mapVals none s.teams fun v => v.map fun t => { t with sx := t.sx.map fun a => { a with ops := a.ops.map op } } }

/-- Can the home of a cell accept a write: has its quadrant an SRAM die left (R19)? -/
def State.homeAccepts (s : State) (c : Nat) : Bool :=
  !(Sparse.get false s.sramDown (2 * quadOf c) && Sparse.get false s.sramDown (2 * quadOf c + 1))

/-- Write report i of context k, if it waits and the ring has room; a slot outside every view, or one whose home cannot accept the write,
ends the launches joined to it with FAULT_RING (R283). A slot whose line is owned or held is recalled first (R179). -/
def State.writeReport (s : State) (k i : Nat) : State :=
  let c := s.ctx k
  match Sparse.get none c.reports i with
  | none => s
  | some r =>
    if r.rid.isSome || c.frprod.toNat == (c.frcons.toNat + c.frSize) % 2 ^ 32 then s
    else
      let pa := c.frbase.toNat * 4096 + 32 * (c.frprod.toNat % c.frSize)
      match (s.viewOf pa).filter fun v => s.homeAccepts v.2.2 with
      | none =>
        let ls := (s.launchesOn k i).eraseDups
        let s := s.setCtx k { c with reports := Sparse.set none c.reports i none }
        (ls.foldl (fun s r => s.endLaunch r .fault 0x1E) s).logEv .faultRing 2 (evQuad (k % 4)) [k]
      | some (_, _, a) =>
       if !s.rangeFree a 32 then s.recallRange a 32
       else
        let rid := c.frprod.toNat
        let bs := r.bytes rid
        let s := s.agentWrite (srcMill (k % 4)) 0 ((List.range 32).map fun j => (a + j, bs.getD j 0))
        let c := s.ctx k
        let s := s.setCtx k { c with
          frprod := c.frprod + 1
          reports := Sparse.set none c.reports i (some { r with rid := some rid }) }
        if c.frie then s.msix k c.friv.toNat else s

/-- Write every report that waits for room, oldest first. -/
def State.flushReports (s : State) (k : Nat) : State :=
  ((listed (s.ctx k).reports).map (·.1)).foldl (fun s i => s.writeReport k i) s

/-- Write the reports of every context that wait for their slots. -/
def State.flushAll (s : State) : State :=
  ((s.ctxs.filter fun p => (listed p.2.reports).any fun r => r.2.rid.isNone).map (·.1)).foldl (fun s k => s.flushReports k) s

/-- Join the open report for a cause and region, or open one (R186, R283). Gives the report's number. -/
def State.joinReport (s : State) (k : Nat) (r : Report) : Nat × State :=
  let c := s.ctx k
  match (listed c.reports).find? fun p => p.2.code == r.code && p.2.lo == r.lo && p.2.hi == r.hi with
  | some p => (p.1, s)
  | none =>
    (c.nextReport, s.setCtx k { c with nextReport := c.nextReport + 1, reports := Sparse.set none c.reports c.nextReport (some r) })

/-- A lane of a group parks on a P-class fault, and the fault is reported (R188, R283). -/
def State.parkFault (s : State) (gid l code acc va lo hi : Nat) (entry : Bool) : State :=
  match s.group gid with
  | none => s
  | some g =>
    let k := (s.rcd g.launch).ctx
    let (i, s) := s.joinReport k { code := BitVec.ofNat 8 code, acc := BitVec.ofNat 2 acc, launch := g.launch, va := va,
                                   core := g.core, lo := lo, hi := hi }
    let (age, s) := s.fresh
    let ln := g.lane l
    let ln := if entry then ln else { ln with cause := causeWord code acc, addr := BitVec.ofNat 64 va }
    let s := s.setGroup gid (g.setLane l (ln.parkOn (if entry then .handlerEntry i else .report i) age))
    s.writeReport k i

/-- The outstanding report with this RID. -/
def Ctx.findRid (c : Ctx) (rid : Nat) : Option Nat := ((listed c.reports).find? fun p => p.2.rid == some rid).map (·.1)

/-- Parts of accesses in flight that were found poisoned while their lane parked on report i (R188): to be performed again, once their
addresses are translated afresh (R75), or dropped with the lane's trap. -/
def State.settleParts (s : State) (k i : Nat) (again : Bool) : State :=
  let joined := fun (t : Txn) (q : Part) =>
    q.rep && t.ctx == k && (match s.group t.gid with | some g => decide ((g.lane q.lane).park = .report i) | none => false)
  { s with txns := s.txns.filterMap fun p =>
      match p.2 with
      | none => none
      | some t =>
        let ps := if again then t.parts.map fun q => if joined t q then { q with rep := false, again := true } else q
                  else t.parts.filter fun q => !joined t q
        if ps.isEmpty then none else some (p.1, some { t with parts := ps }) }

/-- Resolve: every lane and engine joined to the report replays (R283). -/
def State.resolveReport (s : State) (k i : Nat) : State :=
  let s := s.settleParts k i true
  let s := { s with
    groups := mapVals none s.groups fun v =>
      match v with
      | some g =>
        if (s.rcd g.launch).ctx = k then
          some (lanes32.foldl (fun (g : Group) l =>
            let ln := g.lane l
            if ln.park = Park.report i then g.setLane l ln.unpark
            else if ln.park = Park.handlerEntry i then g.setLane l { ln with ready := true }
            else g) g)
        else some g
      | none => none }
  let s := s.settleEngines k i true
  let c := s.ctx k
  s.setCtx k { c with reports := Sparse.set none c.reports i none }

/-- The word whose access of this lane met the fault that it is parked on: its own, or the one that issued an access found poisoned later
(R188, R319). -/
def State.faultPc (s : State) (gid l : Nat) (ln : Lane) : DWord :=
  match (listed s.txns).find? fun p => p.2.gid == gid && p.2.parts.any fun q => q.rep && q.lane == l with
  | some p => p.2.pc
  | none => ln.pc

/-- Reject: each joined lane trap-parks with the report's cause, in handler mode the launch ends, and each joined engine
operation ends with FAULT (R283, R284, R285). -/
def State.rejectReport (s : State) (k i : Nat) : State :=
  let gs := (listed s.groups).filter fun p => (s.rcd p.2.launch).ctx == k
  let before := s
  let s := gs.foldl (fun s p =>
    lanes32.foldl (fun s l =>
      match s.group p.1 with
      | none => s
      | some g =>
        let ln := g.lane l
        if ln.park = .handlerEntry i then s.endLaunch g.launch .fault 0x1C
        else if ln.park = .report i then
          (if ln.handler then s.endLaunch g.launch .fault 0x1C
           else s.setGroup p.1 (g.setLane l { ln with
             st := .trapped, park := .none, ready := false, pc := before.faultPc p.1 l ln, rejected := !g.resident }))
        else s) s) (s.settleParts k i false)
  let s := s.settleEngines k i false
  let c := s.ctx k
  s.setCtx k { c with reports := Sparse.set none c.reports i none }

/-- A verdict of the driver (R282, R283): 1 resolves, 2 rejects; an unknown RID is logged. -/
def State.verdict (s : State) (k verd rid : Nat) : State :=
  if verd = 1 ∨ verd = 2 then
    match (s.ctx k).findRid rid with
    | none => s.logEv .unknownVerdict 1 (evQuad (k % 4)) [k, rid]
    | some i => if verd = 1 then s.resolveReport k i else s.rejectReport k i
  else s

/-- A lane takes an exception when its access fails after issue (HOSTCPL, LINK_LOST): it trap-parks at the word that issued the access
(R284, R319). -/
def State.lateTrap (s : State) (pc : DWord) (gid l code acc va : Nat) : State :=
  match s.group gid with
  | none => s
  | some g =>
    if (g.lane l).st = .exited then s
    else (s.setGroup gid (g.setLane l { g.lane l with pc := pc })).takeTrap gid l code acc (BitVec.ofNat 64 va)

/-- The lane, and under PROT its shadow, takes such an exception. -/
def State.lateBoth (s : State) (pc : DWord) (gid l code acc va : Nat) : State :=
  match s.group gid with
  | none => s
  | some g =>
    let s := s.lateTrap pc gid l code acc va
    if (s.rcd g.launch).blk.prot then s.lateTrap pc gid (l / 2 * 2 + 1) code acc va else s

/-! ### Failures of requests that leave the device (R51, R53, R66, R281) -/

def causeHostCpl : Nat := 0x2A
def causeLinkLost : Nat := 0x2B

end Sys2Proof.Machine
end

