-- ==== Sys2Proof/Machine/Launch.lean ====
section
/-! DEFINITION. Launch.lean: launch blocks and their checks, retained records, placing and starting teams, the Tailrace's
counts, and losing a gang (files 04 to 07, R288). -/
namespace Sys2Proof.Machine

/-! ### Launch blocks (R81 to R84) -/

/-- An n-byte field at offset i of a structure in memory. -/
def fieldAt (bs : List Byte) (i n : Nat) : Nat := leNat ((bs.drop i).take n)
/-- Are bytes i to i + n − 1 zero? -/
def zeroAt (bs : List Byte) (i n : Nat) : Bool := fieldAt bs i n == 0

/-- The fields of a launch block (R81). -/
def parseBlock (bs : List Byte) : Block :=
  let f := fieldAt bs
  let fl := f 2 2
  { pri := f 1 1 % 32, gang := nbit fl 0, prot := nbit fl 1, reln := nbit fl 2, detr := nbit fl 3, sbchk := nbit fl 4,
    snant := nbit fl 5, flush := nbit fl 6, irq := nbit fl 7, sxu := nbit fl 8, nrole := f 4 1, nstage := f 5 1,
    cw := f 6 1, ch := f 7 1, gx := f 8 4, gy := f 0xC 4, gz := f 0x10 4, scr := f 0x14 2, acc := f 0x16 1,
    arg := BitVec.ofNat 64 (f 0x18 8), done := BitVec.ofNat 64 (f 0x20 8), spov := BitVec.ofNat 64 (f 0x28 8),
    spovlen := f 0x30 4, chres := f 0x34 2, msiv := f 0x36 2 % 2048, save := BitVec.ofNat 64 (f 0x38 8),
    savelen := f 0x40 4, fpctl := BitVec.ofNat 32 (f 0x44 4),
    roles := (List.range (Nat.min (f 4 1) 4)).map fun r =>
      { entry := BitVec.ofNat 64 (f (0x80 + 16 * r) 8), regs := f (0x88 + 16 * r) 1, ngrp := f (0x89 + 16 * r) 1,
        stg := f (0x8A + 16 * r) 1 }
    stages := (List.range (Nat.min (Nat.max (f 5 1) 1) 4)).map fun i =>
      (BitVec.ofNat 64 (f (0xC0 + 16 * i) 8), f (0xC8 + 16 * i) 1) }

def Block.nstages (b : Block) : Nat := Nat.max b.nstage 1
def Block.teams (b : Block) : Nat := b.gx * b.gy * b.gz
/-- Σ NGRP_r × (1 + REGS_r) and the rest of R84, rounded up. -/
def Block.slotBytes (b : Block) : Nat :=
  roundUp (1024 * (4 + b.scr + 16 * b.acc + sumN (b.roles.map fun r => r.ngrp * (1 + r.regs)) + (if b.sxu then 512 else 0))) 65536

/-- The zero fields and reserved bits of R81, and FPCTL (R214). -/
def blockZeroOk (bs : List Byte) : Bool :=
  let f := fieldAt bs
  let nr := Nat.min (f 4 1) 4
  let ns := Nat.max (f 5 1) 1
  let fp := f 0x44 4
  nbits (f 1 1) 7 5 == 0 && nbits (f 2 2) 15 9 == 0 && zeroAt bs 0x17 1 && nbits (f 0x36 2) 15 11 == 0 && zeroAt bs 0x48 0x38 &&
  ((List.range 4).all fun r => if r < nr then zeroAt bs (0x8B + 16 * r) 5 else zeroAt bs (0x80 + 16 * r) 16) &&
  ((List.range 4).all fun i => if i + 1 < ns then zeroAt bs (0xC9 + 16 * i) 7 else zeroAt bs (0xC0 + 16 * i) 16) &&
  nbits fp 31 10 == 0 && nbits fp 7 3 == 0 && fp % 8 < 5

/-- Counts, sizes and alignments of R81 and R125. -/
def blockGeometryOk (b : Block) : Bool :=
  1 ≤ b.nrole && b.nrole ≤ 4 && b.nstage ≤ 4 && 1 ≤ b.cw && b.cw ≤ 6 && 1 ≤ b.ch && b.ch ≤ 4 && b.cw * b.ch ≤ 12 &&
  1 ≤ b.gx && 1 ≤ b.gy && 1 ≤ b.gz && b.teams < 2 ^ 32 && b.gx % b.cw == 0 && b.gy % b.ch == 0 && b.scr ≤ 768 && b.acc ≤ 16 &&
  b.done.toNat % 8 == 0 && b.spov.toNat % 65536 == 0 && (b.spov == 0 || b.spovlen ≠ 0) && b.chres ≤ 64 &&
  b.save.toNat % 65536 == 0 &&
  (b.roles.all fun r => r.entry.toNat % 8 == 0 && 1 ≤ r.regs && r.regs ≤ 64 && 1 ≤ r.ngrp && r.ngrp ≤ 128 && r.stg < b.nstages) &&
  ((b.stages.take (b.nstages - 1)).all fun q => q.1 ≠ 0 && q.1.toNat % 64 == 0 && q.2 ≤ 12)

/-- The checks of R82 in order: the code of the first that fails. -/
def checkBlock (pceil : Nat) (bs : List Byte) : Option Nat :=
  let b := parseBlock bs
  if fieldAt bs 0 1 ≠ 1 then some 1
  else if !blockZeroOk bs then some 2
  else if pceil < b.pri ∨ 23 < b.pri then some 3
  else if !blockGeometryOk b then some 4
  else if 128 < sumN (b.roles.map (·.ngrp)) + b.chres ∨ 1024 < sumN (b.roles.map fun r => r.ngrp * r.regs) then some 5
  else if b.save = 0 ∨ b.savelen * 65536 < b.teams * b.slotBytes then some 6
  else if (b.reln && !b.gang) || (b.prot && b.sxu) then some 7
  else none

/-! ### Retained records (R80, R92, R111) -/

/-- Free retained records. -/
def State.freeRecs (s : State) : Nat := 4096 - (s.recs.filter fun p => decide (p.2.st ≠ .free)).length
/-- The lowest-numbered free record (R111). -/
def State.lowestFree (s : State) : Option Nat := (List.range 4096).find? fun r => decide ((s.rcd r).st = .free)

/-- The state of a core's in-field test. -/
def State.testOf (s : State) (c : Nat) : Ift := Sparse.get .idle s.mgmt.tests c

/-- Is the core eligible for work (R45, R46, R94)? -/
def State.coreEligible (s : State) (c : Nat) : Bool :=
  decide ((s.die (c / 24)).st = .online) && !(s.die (c / 24)).offl.getLsbD (c % 24) &&
  decide (s.testOf c ≠ .draining) && decide (s.testOf c ≠ .testing) && decide (s.mgmt.boot = .ready)

/-- The records that the Millrace builds for stage 0 (R88). -/
def stage0Task (b : Block) (r t age : Nat) : Task :=
  { entry := ((b.roles.find? fun x => x.stg == 0).getD {}).entry, arg := b.arg,
    tx := BitVec.ofNat 32 (t % b.gx), ty := BitVec.ofNat 32 (t / b.gx % b.gy), tz := BitVec.ofNat 32 (t / (b.gx * b.gy)),
    seq := BitVec.ofNat 32 t, lrec := r, age := age }

/-- A block enters record r: it is checked, and either waits with its stage 0 records pending, or is to be stamped REJECTED
(R82, R92). -/
def State.takeBlock (s : State) (r k : Nat) (ring : Option (Nat × Word)) (bs : List Byte) : State :=
  let old := s.rcd r
  let (order, s) := s.fresh
  let b := parseBlock bs
  let base : Rec := { gen := (old.gen + 1) % 2 ^ 20, ctx := k, ring := ring, blk := b, order := order }
  match checkBlock (s.ctx k).pceil.toNat bs with
  | some code =>
    let s := s.setRec r { base with st := .stamped, endSt := .rejected, detail := BitVec.ofNat 8 code }
    -- DESIGN CHOICE (log entry 106): a LAUNCH block has no queue and no number; the entry holds 0xFF and 0
    s.logEv .blockRejected 1 (evQuad (k % 4)) [k, (ring.map (·.1)).getD 0xFF, (ring.map (·.2.toNat)).getD 0, code]
  | none =>
    let s := s.setRec r { base with
      st := .waiting
      pending := (List.range b.teams).map fun t => stage0Task b r t order
      stageCore := if b.nstages = 1 then [] else
        let cs := (List.range 192).filter s.coreEligible
        ((List.range cs.length).zip cs).foldl (fun m p => Sparse.set 0 m p.2 (p.1 % b.nstages + 1)) [] }
    -- a launch made on the device while KREQ is 1 ends as the context's others do (R76, R92)
    if (s.ctx k).kreq then s.endLaunch r .killed 0x01 else s

/-- The handle of a record's present use (R111). -/
def Rec.handle (rc : Rec) (r : Nat) : Word := BitVec.ofNat 32 (rc.gen % 2 ^ 20 * 4096 + r)

/-! ### Cores and what they hold (R83, R94, R134, R157, R172) -/

/-- Groups resident on a core. -/
def State.residents (s : State) (c : Nat) : List (Nat × Group) := (listed s.groups).filter fun p => p.2.core == c && p.2.resident
/-- Teams placed or running on a core. -/
def State.coreTeams (s : State) (c : Nat) : List (Nat × Team) :=
  (listed s.teams).filter fun p => p.2.core == c && decide (p.2.st ≠ .suspended)

/-- Spawned groups of launch r on core c that hold slots of its reserve (R134). -/
def State.spawnedOn (s : State) (r c : Nat) : Nat :=
  ((s.residents c).filter fun p => p.2.launch == r && p.2.spawned.isSome && !p.2.unres).length
/-- Slots still reserved on core c for children of launch r (R134). -/
def State.reservedOn (s : State) (r c : Nat) : Nat :=
  if (s.residents c).any fun p => p.2.launch == r then (s.rcd r).blk.chres - s.spawnedOn r c else 0
/-- Slots reserved on a core for children of launches other than r. -/
def State.reservedOthers (s : State) (r c : Nat) : Nat :=
  sumN ((((s.residents c).map fun p => p.2.launch).eraseDups.filter fun r' => r' != r).map fun r' => s.reservedOn r' c)

/-- A group of launch r comes to core c: if it is the first there, the launch's reserve begins (R134). -/
def State.startReserve (s : State) (r c : Nat) : State :=
  let here := fun (x : Nat) => (s.residents c).any fun p => p.2.launch == x
  if here r then s
  else { s with reserves := Sparse.set [] s.reserves c (((Sparse.get [] s.reserves c).filter fun x => x != r && here x) ++ [r]) }

/-- What is left of f free slots when the reserves have taken theirs, the oldest first, and the part that launch r holds (R134). -/
def State.shares (s : State) (r c : Nat) : Nat → Nat → List Nat → Nat × Nat
  | f, own, [] => (f, own)
  | f, own, x :: xs =>
    let k := Nat.min (s.reservedOn x c) f
    s.shares r c (f - k) (if x = r then k else own) xs

/-- Register units in use on a core. -/
def State.unitsUsed (s : State) (c : Nat) : Nat := sumN ((s.residents c).map fun p => p.2.budget)
/-- KiB of local memory given to scratchpads on a core, in 64 KiB blocks (R175). -/
def State.spansUsed (s : State) (c : Nat) : Nat := sumN ((s.coreTeams c).map fun p => roundUp (s.rcd p.2.task.lrec).blk.scr 64)
/-- Accumulator units in use on a core. -/
def State.accUsed (s : State) (c : Nat) : Nat := sumN ((s.coreTeams c).map fun p => (s.rcd p.2.task.lrec).blk.acc)
/-- Is the core's L1 empty (R175)? -/
def State.l1Empty (s : State) (c : Nat) : Bool := decide (768 ≤ s.spansUsed c)

/-- Roles of a stage, with their numbers. -/
def Block.stageRoles (b : Block) (stg : Nat) : List (Nat × Role) :=
  (List.range b.roles.length).filterMap fun i =>
    match b.roles[i]? with
    | some r => if r.stg = stg then some (i, r) else none
    | none => none

/-- Groups of a team of a stage: (role, register units), in %grp order (R143, R157). -/
def Block.teamGroups (b : Block) (stg : Nat) : List (Nat × Role) :=
  (b.stageRoles stg).flatMap fun p => List.replicate p.2.ngrp p

/-- Local frames free in a context (R172). -/
def Ctx.freeFrames (c : Ctx) : Nat := if c.locsz = 0 then 0 else c.locfr.toNat - c.frames.length
/-- Bytes of local space of a thread (R171). -/
def Ctx.locBytes (c : Ctx) : Nat := 1024 * Nat.min c.locsz.toNat 64

/-- The cluster of a task, numbered as %clu numbers it (R143). -/
def Block.cluster (b : Block) (t : Task) : Nat :=
  t.tx.toNat / b.cw + b.gx / b.cw * (t.ty.toNat / b.ch + b.gy / b.ch * t.tz.toNat)
/-- The team's place in its cluster: %team (R143). -/
def Block.teamIn (b : Block) (t : Task) : Nat := t.ty.toNat % b.ch * b.cw + t.tx.toNat % b.cw
/-- The key of a task's cluster in its stage. -/
def Block.rectKey (b : Block) (t : Task) : Nat := t.stg * 2 ^ 32 + b.cluster t

/-- Core of place j of a rectangle whose first core is `first` (R96). -/
def Block.coreAt (b : Block) (first j : Nat) : Nat := first + 6 * (j / b.cw) + j % b.cw
/-- A cluster's rectangle: its first core, and the places whose teams have started. -/
def Rec.rect (rc : Rec) (key : Nat) : Option (Nat × Nat) :=
  let v := Sparse.get 0 rc.rects key
  if v = 0 then none else some (v % 256 - 1, v / 256)
def Rec.setRect (rc : Rec) (key : Nat) (r : Option (Nat × Nat)) : Rec :=
  { rc with rects := Sparse.set 0 rc.rects key (match r with | some x => x.1 + 1 + 256 * x.2 | none => 0) }

/-- Is core c held for teams of another cluster than that of launch r with this key (R96)? -/
def State.coreHeld (s : State) (r key c : Nat) : Bool :=
  s.recs.any fun p => p.2.rects.any fun q =>
    let first := q.2 % 256 - 1
    !(p.1 == r && q.1 == key) && decide ((s.die (first / 24)).st = .online) && (List.range (p.2.blk.cw * p.2.blk.ch)).any fun j =>
      p.2.blk.coreAt first j == c && !nbit (q.2 / 256) j

/-- Is core c reserved for a launch of higher priority (R95)? -/
def State.coreReserved (s : State) (r c : Nat) : Bool :=
  s.recs.any fun p => p.2.resv.contains c && decide ((s.rcd r).blk.pri < p.2.blk.pri)

/-- Does a team of launch r and stage stg fit core c now (R94, R134, R172)? The slots reserved for children of the launch count
towards its CHRES slots. -/
def State.teamFits (s : State) (r stg c : Nat) : Bool :=
  let b := (s.rcd r).blk
  let gs := b.teamGroups stg
  let cx := s.ctx (s.rcd r).ctx
  s.coreEligible c &&
  (s.residents c).length + gs.length + s.reservedOthers r c + (b.chres - s.spawnedOn r c) ≤ 128 &&
  s.unitsUsed c + sumN (gs.map fun p => p.2.regs) ≤ 1024 &&
  s.spansUsed c + roundUp b.scr 64 ≤ 768 &&
  s.accUsed c + b.acc ≤ 16 &&
  (!b.sxu || ((s.array c).team.isNone && !(s.array c).fenced)) &&
  (cx.locsz == 0 || gs.length ≤ cx.freeFrames)

/-- Among cores, the one with the fewest resident groups, the lowest number among equals (R95). -/
def State.bestCore (s : State) (cs : List Nat) : Option Nat :=
  leastBy (fun a b => decide ((s.residents a).length < (s.residents b).length)) cs

/-- Give a group its quarter and slot on a core (R157): in the quarter with the fewest groups, the lowest free slot (DESIGN CHOICE, log entry
152). -/
def State.slotOn (s : State) (c : Nat) : Nat × Nat :=
  let rs := s.residents c
  let q := (leastBy (fun a b => decide ((rs.filter fun p => p.2.quarter == a).length < (rs.filter fun p => p.2.quarter == b).length))
    [0, 1, 2, 3]).getD 0
  let used := (rs.filter fun p => p.2.quarter == q).map fun p => p.2.slot
  (q, ((List.range 32).find? fun i => !used.contains i).getD 0)

/-- Take a free local frame of context k (R172). -/
def State.takeFrame (s : State) (k : Nat) : Option Nat × State :=
  let c := s.ctx k
  if c.locsz = 0 then (none, s)
  else
    match (List.range c.locfr.toNat).find? fun f => !Sparse.get false c.frames f with
    | some f => (some f, s.setCtx k { c with frames := Sparse.set false c.frames f true })
    | none => (none, s)

/-- A lane as a team group is released (R97, R214). -/
def freshLane (entry : DWord) (fpctl : Word) : Lane :=
  { st := .eligible, pc := entry, rm := BitVec.extractLsb' 0 3 fpctl }

/-- All 32 lanes alike. -/
def allLanes (l : Lane) : Sparse Lane := lanes32.map fun i => (i, l)

/-- Release the groups of a team on a core, in %grp order (R97, R157). -/
def State.startGroups (s : State) (r uid c : Nat) (task : Task) (adm : Nat) : State :=
  let rc := s.rcd r
  let gs := rc.blk.teamGroups task.stg
  let low := ((rc.blk.stageRoles task.stg).map (·.1)).head?
  ((List.range gs.length).zip gs).foldl (fun (s : State) (p : Nat × Nat × Role) =>
    let (gid, s) := s.fresh
    let (fr, s) := s.takeFrame rc.ctx
    let s := s.startReserve r c
    let (q, sl) := s.slotOn c
    let entry := if some p.2.1 = low ∧ task.entry ≠ 0 then task.entry else p.2.2.entry
    s.setGroup gid { launch := r, team := some uid, core := c, quarter := q, slot := sl, role := p.2.1, grp := p.1,
                     budget := p.2.2.regs, frame := fr, admitted := adm, lastIssue := s.clk,
                     lanes := allLanes (freshLane entry rc.blk.fpctl), readyAt := s.clk }) s

/-- The number by which a gang is known: its stage and first SEQ (R101, R288). -/
def gangTag (ts : List Task) : Nat :=
  match ts.map fun t => t.stg * 2 ^ 32 + t.seq.toNat with
  | [] => 0
  | a :: l => l.foldl Nat.min a

/-- Place one team of a gang on a core and release it (R97, R170, R257). -/
def State.startTeam (s : State) (r c : Nat) (task : Task) (adm tag : Nat) : State :=
  let rc := s.rcd r
  let (uid, s) := s.fresh
  let s := s.setTeam uid { st := .running, task := task, core := c, gang := tag }
  let s := (s.discard false c rc.ctx).discard true c rc.ctx
  let s := if rc.blk.sxu then s.setArray c { team := some uid } else s
  let rc := s.rcd r
  let s := s.setRec r { rc with st := if rc.st = .waiting then .running else rc.st }
  s.startGroups r uid c task adm

/-! ### The Tailrace (R105, R106) -/

def Rec.queued (rc : Rec) : Nat := sumN (rc.stageQ.map fun p => p.2.length)
def Rec.items (rc : Rec) : Nat := sumN (rc.lists.map fun p => p.2.length)
def Rec.ringed (rc : Rec) : Nat := sumN (rc.rings.map fun p => p.2.tail - p.2.head)

/-- P: pending and withdrawn records, stage-queue entries, suspended teams and groups. -/
def State.countP (s : State) (r : Nat) : Nat :=
  let rc := s.rcd r
  rc.pending.length + rc.queued + sumN ((s.teamsOf r).map fun p => p.2.taken.length + b2n (decide (p.2.st = .suspended))) +
  ((s.groupsOf r).filter fun p => !p.2.resident && (match p.2.team with
    | some u => (match s.team u with | some t => decide (t.st ≠ .suspended) | none => true)
    | none => true)).length
/-- G: running groups, those idle in QUIET left out. -/
def State.countG (s : State) (r : Nat) : Nat := ((s.groupsOf r).filter fun p => p.2.resident && !p.2.idle).length
/-- W: work-list items. -/
def State.countW (s : State) (r : Nat) : Nat := (s.rcd r).items
/-- S: accepted spawns not yet released. -/
def State.countS (s : State) (r : Nat) : Nat :=
  sumN ((s.bins.filter fun p => p.2.used && p.2.launch == r).map fun p => p.2.kids.length) + (s.rcd r).ringed
/-- C: copies, NBGEMVs and collectives bound to the launch. -/
def State.countC (s : State) (r : Nat) : Nat :=
  ((listed s.copies).filter fun p => p.2.launch == r).length + ((listed s.nbs).filter fun p => p.2.launch == r && p.2.out != 0).length +
  ((listed s.clovar.colls).filter fun p => p.2.launch == r).length

/-- Decrements of the launch's teams and threads that are not yet performed (R106). -/
def State.countDecs (s : State) (r : Nat) : Nat := ((listed s.decs).filter fun p => p.2.launch == r).length

/-! ### Losing a gang (R101, R103, R163, R288) -/

/-- The teams of a team's gang. -/
def State.gangOf (s : State) (uid : Nat) : List (Nat × Team) :=
  match s.team uid with
  | none => []
  | some t =>
    let b := (s.rcd t.task.lrec).blk
    if b.gang then
      (s.teamsOf t.task.lrec).filter fun p => p.2.task.stg == t.task.stg && b.cluster p.2.task == b.cluster t.task && p.2.gang == t.gang
    else [(uid, t)]

/-- The array belongs to no domain any more. -/
def SxArray.clearMap (a : SxArray) : SxArray := { a with memb := 0, ghost := [], expo := [], exps := [], imps := [] }

/-- An array whose domain has ended: its run ends with LOST, at once where no sweep of it is running; a running sweep ends first, as the
member it was (R276). An SXRUN that stands behind another operation is left in the queue, and runs outside any domain (DESIGN CHOICE, log
entry 148). -/
def SxArray.outOfDomain (a : SxArray) : SxArray :=
  match a.ops with
  | o :: r =>
    (match o.kind with
     | .run .. =>
       if o.ended then { a with dom := none }.clearMap
       else
         let b := { a with dom := none, ops := { o with code := o.code ||| 0x41, ended := !o.inSweep } :: r }
         if o.inSweep then b else b.clearMap
     | _ => { a with dom := none }.clearMap)
  | [] => { a with dom := none }.clearMap

/-- A sampling domain ends: its members keep their states, and their runs end with LOST at the next boundary (R276), also where it is the
retirement of a member or an SXJOIN with M = 0 that ends the domain (DESIGN CHOICE, log entry 147). -/
def State.endDomain (s : State) (r d : Nat) : State :=
  let rc := s.rcd r
  let dm := Sparse.get ({} : Domain) rc.domains d
  let s := s.setRec r { rc with domains := Sparse.set {} rc.domains d {} }
  dm.members.foldl (fun s m =>
    match s.team m.2 with
    | none => s
    | some t =>
      let a := s.array t.core
      if a.team = some m.2 ∧ a.dom = some d then s.setArray t.core a.outOfDomain
      else
        match t.sx with
        | some b => if b.dom = some d then s.setTeam m.2 { t with sx := some { b.outOfDomain with mapAway := true } } else s
        | none => s) s

/-- The sampling domain of a core's array, if any, ends with the array's member. -/
def State.leaveDomain (s : State) (r c : Nat) : State :=
  match (s.array c).dom with
  | some d => s.endDomain r d
  | none => s

/-- The sampling domain of a team, if any, ends with the team, wherever the team's array is. -/
def State.teamLeavesDomain (s : State) (uid : Nat) : State :=
  match s.team uid with
  | none => s
  | some t =>
    match t.sx with
    | some b => (match b.dom with | some d => s.endDomain t.task.lrec d | none => s)
    | none => if (s.array t.core).team = some uid then s.leaveDomain t.task.lrec t.core else s

/-- A gang is lost (R288): its groups and core-side operations are dropped at once; under RELN its teams become pending
again, those of its members that have retired with them (R163, log entry 107); otherwise the launch ends with the detail. -/
def State.loseGang (s : State) (uid detail : Nat) : State :=
  let ts := s.gangOf uid
  match s.team uid with
  | none => s
  | some t =>
    let r := t.task.lrec
    let tag := t.gang
    let s := ts.foldl (fun s p => s.teamLeavesDomain p.1) s
    let s := (s.logEv .gangLost 2 (evQuad ((s.rcd r).ctx % 4)) [r, tag % 2 ^ 32, detail]).dropTeams (ts.map (·.1))
    let rc := s.rcd r
    if (rc.st ≠ .waiting ∧ rc.st ≠ .running) then s.settleEnd r
    else if !rc.blk.reln then s.endLaunch r .fault detail
    else
      let n := Sparse.get 0 rc.losses tag + 1
      if 9 ≤ n then s.endLaunch r .fault 0x1D
      else
        let key := rc.blk.rectKey t.task
        -- under GANG the rectangle goes with the gang; a single team gives its place back, on a die that still runs
        let rect := match rc.rect key with
          | some x => if rc.blk.gang || (s.die (x.1 / 24)).st ≠ .online then none
                      else some (x.1, x.2 - (if nbit x.2 (rc.blk.teamIn t.task) then 2 ^ rc.blk.teamIn t.task else 0))
          | none => none
        let back := (ts.flatMap fun p => p.2.task :: p.2.taken) ++ (rc.gone.filter fun p => p.1 == tag).map (·.2)
        s.setRec r { rc.setRect key rect with
          losses := Sparse.set 0 rc.losses tag n
          relaunches := rc.relaunches + 1
          gone := rc.gone.filter fun p => p.1 != tag
          pending := sortBy (fun a b => decide (a.stg < b.stg ∨ (a.stg = b.stg ∧ a.seq.toNat < b.seq.toNat))) (rc.pending ++ back)
          stageQ := mapVals [] rc.stageQ fun l => l.filter fun e => e.2.1 != tag
          enqs := keep rc.enqs fun k _ => k / 4 != tag }

/-- A spawned group is lost (R141): under RELN its lanes that had not ended become a candidate again, otherwise the launch
ends. A bin of the group's unit takes them back, closed. -/
def State.loseSpawned (s : State) (gid detail : Nat) : State :=
  match s.group gid with
  | none => s
  | some g =>
    match g.spawned with
    | none => s
    | some sp =>
      let s := s.logEv .spawnedLost 2 (evCore g.core) [g.launch, detail]
      if (s.rcd g.launch).st ≠ .running then (s.dropGroups [gid]).settleEnd g.launch
      else if !(s.rcd g.launch).blk.reln then (s.dropGroups [gid]).endLaunch g.launch .fault detail
      else
        -- the group becomes a candidate again, with no place and its lanes as at its start (R141)
        let g' : Group := { launch := g.launch, spawned := some sp, budget := g.budget, resident := false, jwaitEnded := s.next }
        let s := s.dropGroups [gid]
        { (s.setGroup gid g') with next := s.next + 1 }

/-- The owner of a group's state is lost: its gang, or the spawned group alone. -/
def State.loseOwner (s : State) (gid detail : Nat) : State :=
  match s.group gid with
  | none => s
  | some g =>
    match g.team with
    | some t => s.loseGang t detail
    | none => s.loseSpawned gid detail

end Sys2Proof.Machine
end

