-- ==== Sys2Proof/Machine/Operands.lean ====
section
/-! DEFINITION. Operands.lean: every operand form of the words (R303, R304, R309, R356, R397), the special registers (R310),
and which registers a word reads and writes, at which latency (R156, R313). -/
namespace Sys2Proof.Machine

/-- Where a word's operands come from: a lane of the group as the word sees it, or the group alone in a U-form word (R155). -/
structure Env where
  u : Bool
  g : Group
  ln : Lane

/-- A register operand of one register. -/
def Env.r32 (e : Env) (r : RegIx) : Word := if e.u then e.g.gr r.toNat else e.ln.reg r.toNat
/-- A register operand of two registers. -/
def Env.r64 (e : Env) (r : RegIx) : DWord := if e.u then e.g.gr64 r.toNat else e.ln.reg64 r.toNat
/-- A register operand of the width the type gives, zero-extended to 64 bits. -/
def Env.reg (e : Env) (wide : Bool) (r : RegIx) : DWord := if wide then e.r64 r else (e.r32 r).zeroExtend 64
/-- The last source (R303, R304); an immediate is sign-extended (R303). -/
def Env.src (e : Env) (wide : Bool) : Src → DWord
  | .v r => if wide then e.ln.reg64 r.toNat else (e.ln.reg r.toNat).zeroExtend 64
  | .imm i => i.signExtend 64
  | .g r => if wide then e.g.gr64 r.toNat else (e.g.gr r.toNat).zeroExtend 64
  | .u r => if wide then e.g.gr64 r.toNat else (e.g.gr r.toNat).zeroExtend 64
  | .lit x => x
  | .litU x => x
/-- The last source as one 32-bit register. -/
def Env.src32 (e : Env) (c : Src) : Word := BitVec.extractLsb' 0 32 (e.src false c)
/-- The source of a kind field (R397). -/
def Env.kind (e : Env) : Kind → Word
  | .v r => e.ln.reg r.toNat
  | .imm i => i.signExtend 32
  | .g r => e.g.gr r.toNat
/-- An operand that a G bit makes a g register (R376, R405). -/
def Env.a32 (e : Env) (g : Bool) (r : RegIx) : Word := if g then e.g.gr r.toNat else e.ln.reg r.toNat
/-- The same for a pair. -/
def Env.a64 (e : Env) (g : Bool) (r : RegIx) : DWord := if g then e.g.gr64 r.toNat else e.ln.reg64 r.toNat
/-- The n-th register of a run that starts at r. -/
def Env.run (e : Env) (g : Bool) (r : RegIx) (n : Nat) : Word := if g then e.g.gr (r.toNat + n) else e.ln.reg (r.toNat + n)

/-- Registers that hold a result of the width: v registers, or g registers in a U-form word. -/
def Env.out (e : Env) (wide : Bool) (d : RegIx) (x : DWord) : List (Nat × Word) :=
  if wide then pairW d.toNat (if e.u then 127 else 511) x else [(d.toNat, BitVec.extractLsb' 0 32 x)]

/-! ### Registers of a word (R156, R313, R316) -/

/-- What a word reads and writes. Results are (kind, register, latency); kind 0 v, 1 p, 2 g; latency 0 is variable. -/
structure Uses where
  rv : List Nat := []
  rp : List Nat := []
  rg : List Nat := []
  ws : List (Nat × Nat × Nat) := []
  landing : Bool := false
  priv : Bool := false
deriving DecidableEq, Repr

/-- Registers of an operand. -/
def opRegs (wide : Bool) (r z : Nat) : List Nat := if r = z then [] else if wide then [r, r + 1] else [r]
def vR (wide : Bool) (r : RegIx) : List Nat := opRegs wide r.toNat 511
def gR (wide : Bool) (r : RegIx) : List Nat := opRegs wide r.toNat 127
def vW (wide : Bool) (r : RegIx) (lat : Nat) : List (Nat × Nat × Nat) := (vR wide r).map fun x => (0, x, lat)
def gW (wide : Bool) (r : RegIx) (lat : Nat) : List (Nat × Nat × Nat) := (gR wide r).map fun x => (2, x, lat)
def pW (r : Nat) (lat : Nat) : List (Nat × Nat × Nat) := if r = 7 then [] else [(1, r, lat)]

/-- The registers the last source names. -/
def srcUses (wide : Bool) : Src → List Nat × List Nat
  | .v r => (vR wide r, [])
  | .g r => ([], gR wide r)
  | .u r => ([], gR wide r)
  | _ => ([], [])
def kindUses : Kind → List Nat × List Nat
  | .v r => (vR false r, [])
  | .g r => ([], gR false r)
  | _ => ([], [])

/-- The uses of a word with destination d, register sources rs and last source c, each with its width. -/
def uSrc (lat : Nat) (dW : Bool) (d : RegIx) (rs : List (Bool × RegIx)) (cW : Bool) (c : Src) (land : Bool) : Uses :=
  let s := srcUses cW c
  if c.isU then
    { rg := (rs.flatMap fun p => gR p.1 p.2) ++ s.2, ws := gW dW d lat, landing := land }
  else
    { rv := (rs.flatMap fun p => vR p.1 p.2) ++ s.1, rg := s.2, ws := vW dW d lat, landing := land }

/-- Address and other operands that a G bit selects. -/
def uG (g : Bool) (rs : List (Bool × RegIx)) : Uses :=
  if g then { rg := rs.flatMap fun p => gR p.1 p.2 } else { rv := rs.flatMap fun p => vR p.1 p.2 }
/-- Join two uses. -/
def Uses.and (a b : Uses) : Uses :=
  { rv := a.rv ++ b.rv, rp := a.rp ++ b.rp, rg := a.rg ++ b.rg, ws := a.ws ++ b.ws, landing := a.landing || b.landing,
    priv := a.priv || b.priv }
def uKind (k : Kind) : Uses := let s := kindUses k; { rv := s.1, rg := s.2 }
def uV (rs : List (Bool × RegIx)) : Uses := { rv := rs.flatMap fun p => vR p.1 p.2 }
def uOut (ws : List (Nat × Nat × Nat)) : Uses := { ws := ws }
/-- A run of n registers. -/
def uRun (g : Bool) (r : RegIx) (n : Nat) : Uses :=
  let l := (List.range n).map fun i => r.toNat + i
  if g then { rg := l } else { rv := l }

def widthRegs (w : Width) (r : RegIx) : List Nat :=
  if r.toNat = 511 then [] else
    match w with
    | .n64 => [r.toNat, r.toNat + 1]
    | .b128 => [r.toNat, r.toNat + 1, r.toNat + 2, r.toNat + 3]
    | _ => [r.toNat]
def qWidthRegs (w : QWidth) (r : RegIx) : List Nat :=
  match w with
  | .b32 => widthRegs .b32 r
  | .n64 => widthRegs .n64 r
  | .b128 => widthRegs .b128 r

/-- Latency classes of R313. -/
def latA : Nat := 4
def latM : Nat := 6
def latP : Nat := 2
def latL : Nat := 8
def latF : Nat := 5
def latC : Nat := 6
def latD : Nat := 10

/-- Latency of a pair slot's full form (R308, R313). -/
def slotLat (op : PairOp) : Nat :=
  match op with
  | .mul => latM
  | .cvtF | .cvtS => latC
  | .scrLd | .locLd | .quePop => 0
  | op => if 0x10 ≤ op.code.toNat && op.code.toNat ≤ 0x18 then latF else latA

/-- The uses of a slot. -/
def slotUses (x : Slot) : Uses :=
  { rv := (x.reads.filter fun r => r ≠ 511#9).map fun r => r.toNat
    rp := [x.gp.toNat]
    ws := match x.writes with
      | some d => vW false d (slotLat x.op)
      | none => [] }

/-- The registers of atomics' data operand (R388). -/
def atomRegs (op : AtomOp) (ty : AtomTy) (b : RegIx) : List Nat :=
  match op with
  | .cas => (List.range (if ty.wide then 4 else 2)).map fun i => b.toNat + i
  | _ => vR ty.wide b

/-- What every word reads and writes beside its guard. -/
def instrUses : Instr → Uses
  | .pairWord s0 s1 => (slotUses s0).and (slotUses s1)
  | .add _ t _ d a c | .sub _ t _ d a c => uSrc latA t.wide d [(t.wide, a)] t.wide c false
  | .addc _ d po a c pi _ | .subb _ d po a c pi _ =>
    (uSrc latA false d [(false, a)] false c false).and { rp := [pi.toNat], ws := pW po.toNat latA }
  | .mul _ t d a c | .mulh _ t d a c => uSrc latM t.wide d [(t.wide, a)] t.wide c false
  | .mulw _ _ d a c => uSrc latM true d [(false, a)] false c false
  | .mad _ t d a b c => uSrc latM t.wide d [(t.wide, a), (t.wide, b)] t.wide c false
  | .madw _ _ d a b c => uSrc latM true d [(false, a), (false, b)] true c false
  | .idiv _ t d a c | .irem _ t d a c => uSrc 0 t.wide d [(t.wide, a)] t.wide c true
  | .min _ t d a c | .max _ t d a c => uSrc latA t.wide d [(t.wide, a)] t.wide c false
  | .abs _ t _ d c | .neg _ t _ d c | .mov _ t d c | .brev _ t d c => uSrc latA t.wide d [] t.wide c false
  | .isetp _ t _ _ pd a c pq _ =>
    let s := srcUses t.wide c
    { rv := vR t.wide a ++ s.1, rg := s.2, rp := [pq.toNat], ws := pW pd.toNat latA }
  | .sel _ t d a c p _ => (uSrc latA t.wide d [(t.wide, a)] t.wide c false).and { rp := [p.toNat] }
  | .lea _ t d a c _ => uSrc latA true d [(true, a)] t.wide c false
  | .movi _ t toG d _ => if toG then uOut (gW t.wide d latA) else uOut (vW t.wide d latA)
  | .limm _ t _ toG d _ => if toG then uOut (gW t.wide d latA) else uOut (vW t.wide d latA)
  | .and _ t d a c | .or _ t d a c | .xor _ t d a c | .andn _ t d a c => uSrc latA t.wide d [(t.wide, a)] t.wide c false
  | .lop3 _ _ d a c _ nd => uSrc latA false d (if nd then [(false, a)] else [(false, a), (false, d)]) false c false
  | .shl _ t d a c | .shr _ t d a c | .sar _ t d a c => uSrc latA t.wide d [(t.wide, a)] false c false
  | .fshf _ _ _ d a b c | .bfi _ _ d a b c | .prmt _ _ d a b c => uSrc latA false d [(false, a), (false, b)] false c false
  | .bfx _ _ d a c => uSrc latA false d [(false, a)] false c false
  | .popc _ t d c | .clz _ t d c | .ctz _ t d c => uSrc latA false d [] t.wide c false
  | .pand _ pd pa _ pc _ | .por _ pd pa _ pc _ | .pxor _ pd pa _ pc _ =>
    { rp := [pa.toNat, pc.toNat], ws := pW pd.toNat latP }
  | .pnot _ pd pc | .pmov _ pd pc => { rp := [pc.toNat], ws := pW pd.toNat latP }
  | .psetPack _ d => { rp := [0, 1, 2, 3, 4, 5, 6], ws := vW false d latP }
  | .psetUnpack _ mask c =>
    { rv := vR false c, ws := ((List.range 7).filter fun i => mask.getLsbD i).flatMap fun i => pW i latP }
  | .shfl _ _ _ d a c => (uV [(false, a)]).and ((uKind c).and (uOut (vW false d latL)))
  | .lswap _ _ _ _ d c => (uV [(false, c)]).and (uOut (vW false d latL))
  | .vote _ m _ toG d ps =>
    { rp := [ps.toNat]
      ws := match m with
        | .mask | .count => if toG then gW false d latL else vW false d latL
        | _ => pW d.toNat latL }
  | .matchLanes _ wide d c => (uV [(wide, c)]).and (uOut (vW false d latL))
  | .redux _ _ _ toG d c => (uV [(false, c)]).and (uOut (if toG then gW false d latL else vW false d latL))
  | .elect _ _ pd => uOut (pW pd.toNat latL)
  | .bcast _ d c _ => (uV [(false, c)]).and (uOut (vW false d latL))
  | .umov _ d c _ => (uV [(false, c)]).and (uOut (gW false d latL))
  | .brx _ g _ c => uG g [(true, c)]
  | .call _ d _ => uOut (vW true d latA)
  | .callx _ g d _ c => (uG g [(true, c)]).and (uOut (vW true d latA))
  | .ret _ g c => uG g [(true, c)]
  | .sleep _ (.g r) | .step _ (.g r) => { rg := gR false r }
  | .fadd _ f _ d a c | .fsub _ f _ d a c | .fmul _ f _ d a c => uSrc latF f.wide d [(f.wide, a)] f.wide c false
  | .ffma _ f _ d a b c => uSrc latF f.wide d [(f.wide, a), (f.wide, b)] f.wide c false
  | .fmin _ f d a c | .fmax _ f d a c | .fminn _ f d a c | .fmaxn _ f d a c => uSrc latF f.wide d [(f.wide, a)] f.wide c false
  | .fsetp _ f _ _ pd a c pq _ =>
    let s := srcUses f.wide c
    { rv := vR f.wide a ++ s.1, rg := s.2, rp := [pq.toNat], ws := pW pd.toNat latF }
  | .fclass _ f d c | .fxtxExp _ f d c => uSrc latF false d [] f.wide c false
  | .fdiv _ f _ d a c => uSrc 0 f.wide d [(f.wide, a)] f.wide c true
  | .fsqrt _ f _ d c | .frcp _ f _ d c | .frsq _ f _ d c | .fexp _ f _ d c | .fexp2 _ f _ d c | .flog _ f _ d c
  | .flog2 _ f _ d c | .fsin _ f _ d c | .fcos _ f _ d c | .fsinpi _ f _ d c | .fcospi _ f _ d c | .ftanh _ f _ d c
  | .fsigm _ f _ d c => uSrc 0 f.wide d [] f.wide c true
  | .frnd _ f _ _ d c | .fxtxMant _ f d c => uSrc latF f.wide d [] f.wide c false
  | .fldx _ f _ d a c => uSrc latF f.wide d [(f.wide, a)] false c false
  | .fadd2 _ _ _ d a c | .fmul2 _ _ _ d a c => uSrc latF false d [(false, a)] false c false
  | .ffma2 _ _ _ d a b c => uSrc latF false d [(false, a), (false, b)] false c false
  | .dadd _ _ _ _ d a c | .dmul _ _ _ d a c => uSrc latD true d [(true, a)] true c false
  | .dfma _ _ _ d a b c => uSrc latD true d [(true, a), (true, b)] true c false
  | .ddiv _ _ _ d a c => uSrc 0 true d [(true, a)] true c true
  | .dsqrt _ _ _ d c => uSrc 0 true d [] true c true
  | .cvt _ dt st _ _ d a c => uSrc latC dt.wide d (if dt = .mxi8 then [(false, a)] else []) st.wide c false
  | .dsliceExp _ _ d c => uSrc 0 false d [] true c true
  | .dsliceSlice _ _ d a c => uSrc 0 false d [(false, a)] true c true
  | .drecon _ first _ d a b c =>
    uSrc 0 true d (if first then [(false, a), (false, b)] else [(false, a), (false, b), (true, d)]) false c true
  | .ld _ sp w _ _ _ g d a _ => (uG g [(sp.wide, a)]).and (uOut ((widthRegs w d).map fun r => (0, r, 0)))
  | .ldTyp _ _ _ g _ d a _ => (uG g [(true, a)]).and (uOut (vW false d 0))
  | .ldQue _ d _ => uOut (vW false d 0)
  | .st _ sp w _ _ _ g d a _ => (uG g [(sp.wide, a)]).and { rv := widthRegs w d }
  | .stQue _ d _ => uV [(false, d)]
  | .ldf _ _ w _ d a _ => (uV [(false, a)]).and (uOut ((widthRegs w d).map fun r => (0, r, 0)))
  | .stf _ _ w d a _ => (uV [(false, a)]).and { rv := widthRegs w d }
  | .feinit _ _ _ a n => (uV [(false, a)]).and (uKind n)
  | .pref _ _ _ g a _ => uG g [(true, a)]
  | .enq _ w _ d a => { rv := qWidthRegs w d ++ vR true a }
  | .enqStage _ _ a => uV [(false, a)]
  | .deq _ w _ _ pd d a => { rv := vR true a, ws := ((qWidthRegs w d).map fun r => (0, r, 0)) ++ pW pd.toNat 0 }
  | .atom _ op ty _ _ g d a b => (uG g [(true, a)]).and { rv := atomRegs op ty b, ws := vW ty.wide d 0 }
  | .red _ op ty _ _ g a b => (uG g [(true, a)]).and { rv := atomRegs op ty b }
  | .monwait _ _ _ _ wide d a c => { rv := vR true a ++ vR wide c, ws := vW wide d 0 }
  | .poll _ _ _ _ wide pd d a c => { rv := vR true a ++ vR wide c, ws := vW wide d 0 ++ pW pd.toNat 0 }
  | .tbinit _ _ g a n | .tbexp _ _ g a n | .tbwait _ _ g a n => (uG g [(false, a)]).and (uKind n)
  | .tbarr _ _ g a => uG g [(false, a)]
  | .tbstat _ _ g d a => (uG g [(false, a)]).and (uOut (vW false d 0))
  | .bartm _ _ n | .barcl _ _ n | .xwait _ _ n => uKind n
  | .xsign _ d _ n => (uKind n).and (uOut (vW false d 0))
  | .cptLd _ g _ m blk o4 => (uRun g m 4).and ((uRun g blk 8).and (uG g [(false, o4)]))
  | .cptSt _ g _ s m blk o4 => (uG g [(true, s)]).and ((uRun g m 4).and ((uRun g blk 8).and (uG g [(false, o4)])))
  | .cpg _ g s a b c => uG g [(true, s), (true, a), (true, b), (true, c)]
  | .cps _ g _ s a b c => uG g [(true, s), (true, a), (false, b), (true, c)]
  | .cpr _ g _ bar a b c => uG g [(false, bar), (true, a), (false, b), (false, c)]
  | .cpfill _ g _ bar a pat c => uG g [(false, bar), (false, a), (false, pat), (false, c)]
  | .cpfillMem _ g s a pat c => uG g [(true, s), (true, a), (false, pat), (true, c)]
  | .cpcommit _ d => uOut (vW false d 0)
  | .cpwait _ n => uKind n
  | .cpwaitUpto _ b => uKind b
  | .mxcfg _ _ _ n => uKind n
  | .mxmul _ g _ b | .mxsel24 _ g b => uRun g b 6
  | .mxzero _ g t bar => uG g [(false, t), (false, bar)]
  | .mxld _ g t s bar => uG g [(false, t), (false, s), (false, bar)]
  | .mxst _ g _ t s bar => uG g [(false, t), (false, s), (false, bar)]
  | .mxstat _ g d a => (uG g [(false, a)]).and (uOut ((List.range 4).map fun i => (0, d.toNat + i, 0)))
  | .nbgemv _ g a => uG g [(false, a)]
  | .sxload _ g mem a n bar => uG g ([(mem, a), (true, n)] ++ (match bar with | some b => [(false, b)] | none => []))
  | .sxbias _ g a n bar | .sxclamp _ g a n bar => uG g ([(false, a), (true, n)] ++ (match bar with | some b => [(false, b)] | none => []))
  | .sxrun _ g a bar => uG g ((false, a) :: (match bar with | some b => [(false, b)] | none => []))
  | .sxread _ g _ a n bar => uG g ([(false, a), (true, n)] ++ (match bar with | some b => [(false, b)] | none => []))
  | .sxkey _ g _ a b => uG g [(true, a), (false, b)]
  | .sxjoin _ g a b bar => uG g ([(false, a), (false, b)] ++ (match bar with | some x => [(false, x)] | none => []))
  | .sxhealth _ g a b => uG g [(false, a), (false, b)]
  | .spawn _ g _ n entry join pay => (uG g [(true, entry), (true, join)]).and (uRun false pay n.toNat)
  | .jwait _ g a => uG g [(true, a)]
  | .launch _ g d a => (uG g [(true, a)]).and (uOut (vW false d 0))
  | .fetchw _ g d a => (uG g [(false, a)]).and (uOut (vW false d 0))
  | .wlappend _ g a c => (uG g [(false, a)]).and (uV [(true, c)])
  | .wltake _ pd d => { ws := vW true d 0 ++ pW pd.toNat 0 }
  | .tkwait _ d q k | .tkpass _ d q k =>
    ((uKind k).and (uV (match q with | some r => [(false, r)] | none => []))).and (uOut (vW false d 0))
  | .quiet _ d => uOut (vW false d 0)
  | .setpri _ n => uKind n
  | .coll _ g a => uG g [(true, a)]
  | .csrr _ toG d n =>
    let wide := match csrInfo n with | some (w, _) => w | none => false
    uOut (if toG then gW wide d 0 else vW wide d 0)
  | .csrw _ _ c => uKind c
  | .syscall _ d a _ => { rv := vR true a, ws := vW true d 0 }
  | .trapret _ g c => (uG g [(true, c)]).and { priv := true }
  | _ => {}

/-- Every v register named lies within the budget (R156). -/
def Uses.budgetOk (u : Uses) (budget : Nat) : Bool :=
  (u.rv.all fun r => r < 8 * budget) && (u.ws.all fun w => w.1 ≠ 0 || w.2.1 < 8 * budget)

/-! ### Special registers (R310) -/

/-- Lanes the program sees in a group: 32, or 16 under PROT (R142, R164). -/
def visible (prot : Bool) : Nat := if prot then 16 else 32
/-- %lane of a physical lane (R143, R164). -/
def laneNo (prot : Bool) (l : Nat) : Nat := if prot then l / 2 else l

/-- The value of special register n for a lane of a group (R310); a spawned group reads all ones where R143 says so. -/
def State.csr (s : State) (g : Group) (l : Nat) (pc : DWord) (n : Nat) : DWord :=
  let rc := s.rcd g.launch
  let b := rc.blk
  let task := match g.team with | some t => (s.team t).map (·.task) | none => none
  let none32 : DWord := 0xFFFFFFFF
  let w := fun (x : Nat) => BitVec.ofNat 64 x
  let tk := fun (f : Task → Nat) => match task with | some t => w (f t) | none => 0
  let tn := fun (f : Task → Nat) => match task with | some t => w (f t) | none => none32
  let ln := g.lane l
  match n with
  | 0x000 => w (laneNo b.prot l)
  | 0x001 => tn fun _ => g.grp * visible b.prot + laneNo b.prot l
  | 0x002 => tn fun _ => g.grp
  | 0x003 => tn fun _ => g.role
  | 0x004 => tn fun t => b.teamIn t
  | 0x005 => tn fun t => b.cluster t
  | 0x006 => w g.core
  | 0x007 => w (g.core / 24)
  | 0x008 => w ((g.spawned.map (·.depth)).getD 0)
  | 0x009 => tk fun t => t.stg
  | 0x00A => tk fun t => t.seq.toNat
  | 0x00B => g.step.zeroExtend 64
  | 0x00C => w g.budget
  | 0x010 => tk fun t => t.tx.toNat
  | 0x011 => tk fun t => t.ty.toNat
  | 0x012 => tk fun t => t.tz.toNat
  | 0x014 => tk fun t => (t.uw.getD 0 0).toNat
  | 0x015 => tk fun t => (t.uw.getD 1 0).toNat
  | 0x016 => tk fun t => (t.uw.getD 2 0).toNat
  | 0x017 => tk fun t => (t.uw.getD 3 0).toNat
  | 0x018 => match task with | some t => t.arg | none => b.arg
  | 0x020 => pc
  | 0x021 => ln.cause.zeroExtend 64
  | 0x022 => w (512 * b2n b.snant + 256 * b2n b.flush + ln.rm.toNat)
  | 0x023 => w ln.flags.toNat
  | 0x030 => w s.clk
  | _ => 0

end Sys2Proof.Machine
end

