-- ==== Sys2Proof/Machine/Issue.lean ====
section
/-! DEFINITION. Issue.lean: how any word issues (R146 to R148, R155, R156, R164 to R166, R307, R311 to R316, R319): which lanes
run it, what they read, and what its results do to the group. A meaning gives `State.word` one function, from an active
lane to what the word does there. -/
namespace Sys2Proof.Machine

/-- What a word does in one active lane. -/
inductive LaneRes where
  | done (ws : List (Nat × Word)) (ps : List (Nat × Bool)) (flags : BitVec 5)   -- results; the PC advances by the word's length
  | jump (ws : List (Nat × Word)) (pc : DWord)                                   -- a branch taken
  | trap (code acc : Nat) (addr : DWord)                                         -- a T or J class fault
  | park (p : Park)                                                              -- parked at this word (R152)
  | pfault (code acc va lo hi : Nat)                                             -- a P class fault (R188, R283)
  | exit
  | join                                                                         -- joining at an RJOIN (R150)
  | ret (target : DWord)                                                         -- TRAPRET
  | stay                                                                         -- eligible, at the same word
deriving DecidableEq, Repr

/-- A word as its lanes see it: the group with every register as the word reads it (R316), and the active lanes. -/
structure Ctl where
  gid : Nat
  g : Group
  act : BitVec 32
  pc : DWord
  len : Nat
  u : Bool
  prot : Bool
  word : Nat := 0            -- the number of a memory word
deriving DecidableEq, Repr

/-- Where lane l reads its operands. -/
def Ctl.env (c : Ctl) (l : Nat) : Env := { u := c.u, g := c.g, ln := c.g.lane l }

/-- How a word runs. -/
structure WordOps where
  u : Bool := false          -- a U-form word: operands are g registers
  once : Bool := false       -- runs once for all its lanes (R155), or gives one result in a g register
  rot : Bool := false        -- sets the rotation floor (R148)
  mem : Bool := false        -- a point of comparison under PROT (R166)
  sync : Bool := false       -- waits for every outstanding result of the group (R314)
  anyLane : Bool := false    -- reads registers of lanes outside the word (R340)
  same : Option (Ctl → Nat → List Nat) := none   -- what the copies compare, if not whole v registers: addresses, data in its width (R166)
  reads : Option (Group → Nat → List (Nat × Nat × Nat)) := none   -- what lane l reads, as (lane, kind, register), if not its own operands
  ready : Ctl → State → Bool := fun _ _ => true
  wait : Ctl → State → State := fun _ s => s                      -- what goes on while the word is not ready
  fin : Ctl → State → State := fun _ s => s                       -- what the word does after its lanes

/-- The running of a word whose last source is c: once for the group in a U-form word. -/
def opsOf (c : Src) : WordOps := if c.isU then { u := true, once := true } else {}

/-! ### Hazards (R314 to R316) -/

/-- The hazards of lane l (32: of the g registers) under which a word reads the value before the producer, newest first. Each has a choice of
its own, up to the first of its register that reads the new value: with two results in flight every one of the three values can be read
(R316). -/
def Group.staleOf (g : Group) (n gid l : Nat) : List Hazard :=
  (((List.range g.hazards.length).zip g.hazards).foldl (fun (acc : List Hazard × List (Nat × Nat)) ih =>
    let hz := ih.2
    if !(if l = 32 then hz.kind == 2 else hz.kind != 2 && hz.lanes.getLsbD l) || acc.2.contains (hz.kind, hz.reg) then acc
    else if Config.staleNew n gid l ((ih.1 * 4 + hz.kind) * 512 + hz.reg) then (acc.1, (hz.kind, hz.reg) :: acc.2)
    else (acc.1 ++ [hz], acc.2)) ([], [])).1

/-- The lane as a word reads it: a register within its producer's latency reads either value (R316). -/
def Group.viewLane (g : Group) (n gid l : Nat) : Lane :=
  (g.staleOf n gid l).foldl (fun (ln : Lane) hz =>
    match hz.old.find? fun p => p.1 == l with
    | some p => if hz.kind = 0 then ln.setReg hz.reg p.2 else ln.setPred hz.reg (p.2 != 0)
    | none => ln) (g.lane l)

/-- The g registers as a word reads them. -/
def Group.viewG (g : Group) (n gid : Nat) : Sparse Word :=
  ((g.staleOf n gid 32).foldl (fun (h : Group) hz =>
    match hz.old with
    | p :: _ => h.setGr hz.reg p.2
    | [] => h) g).g

/-- The group as a word reads it. -/
def Group.view (g : Group) (n gid : Nat) : Group :=
  if g.hazards.isEmpty then g
  else { g with lanes := lanes32.map fun l => (l, g.viewLane n gid l), g := g.viewG n gid }

/-- What a lane reads of its own registers and the group's, as (lane, kind, register). -/
def Uses.reads (u : Uses) (l : Nat) : List (Nat × Nat × Nat) :=
  (u.rv.map fun r => (l, 0, r)) ++ (u.rp.map fun r => (l, 1, r)) ++ u.rg.map fun r => (l, 2, r)

/-- Is one of these reads too early (R316)? -/
def Group.short (g : Group) (rs : List (Nat × Nat × Nat)) : Bool :=
  g.hazards.any fun hz => rs.any fun r => r.2.1 == hz.kind && r.2.2 == hz.reg && (hz.kind == 2 || hz.lanes.getLsbD r.1)

/-- Hazards after a word of stall count n (R314). -/
def ageHazards (n : Nat) (hs : List Hazard) : List Hazard :=
  (hs.map fun h => { h with left := h.left - n }).filter fun h => 0 < h.left

/-- Older hazards of the registers that a word writes in the lanes m: once its own result is there, no earlier value can be read (R315,
R316). -/
def cutHazards (u : Uses) (m : BitVec 32) (hs : List Hazard) : List Hazard :=
  hs.flatMap fun h =>
    match u.ws.find? fun w => w.1 == h.kind && w.2.1 == h.reg with
    | none => [h]
    | some w =>
      let cut := if h.kind = 2 then h.lanes else h.lanes &&& m
      let rest := h.lanes &&& ~~~ cut
      (if cut = 0 then [] else [{ h with lanes := cut, left := Nat.min h.left w.2.2 }]) ++ (if rest = 0 then [] else [{ h with lanes := rest }])

/-- Hazards the word's own fixed-latency results make, in the lanes that have results. -/
def newHazards (g : Group) (u : Uses) (m : BitVec 32) : List Hazard :=
  (u.ws.filter fun w => 0 < w.2.2).map fun w =>
    { lanes := if w.1 = 2 then BitVec.allOnes 32 else m, kind := w.1, reg := w.2.1, left := w.2.2
      old := if w.1 = 2 then [(32, g.gr w.2.1)]
             else (lanesOf m).map fun l =>
               (l, if w.1 = 0 then (g.lane l).reg w.2.1 else if (g.lane l).pred w.2.1 then 1 else 0) }

/-- Is a result of the word's lanes, or of its g registers, still pending (R315)? -/
def State.interlocked (s : State) (gid : Nat) (g : Group) (lanes : List Nat) (u : Uses) (gp : Nat) : Bool :=
  let hit := fun (p : Nat × Nat) =>
    (if p.1 = 0 then u.rv.contains p.2 else if p.1 = 1 then u.rp.contains p.2 || gp == p.2 else u.rg.contains p.2) ||
    u.ws.any fun w => w.1 == p.1 && w.2.1 == p.2
  (g.landings.any fun ld =>
    if ld.lane = 32 then ld.writes.any fun w => hit (2, w.1)
    else lanes.contains ld.lane && ((ld.writes.any fun w => hit (0, w.1)) || ld.preds.any fun w => hit (1, w.1))) ||
  ((!s.txns.isEmpty) && lanes.any fun l => (s.pendingDests gid l).any hit)

/-- Has the group no result outstanding (R314)? -/
def State.settled (s : State) (gid : Nat) (g : Group) : Bool :=
  g.landings.isEmpty && lanes32.all fun l => (s.pendingDests gid l).isEmpty

/-! ### Running and finishing -/

/-- Run the lanes of a list in turn, threading the state. -/
def runLanes (f : Nat → State → LaneRes × State) : List Nat → State → List (Nat × LaneRes) × State
  | [], s => ([], s)
  | l :: ls, s =>
    let r := f l s
    let q := runLanes f ls r.2
    ((l, r.1) :: q.1, q.2)

/-- The lane after the word. A variable-latency result only advances the PC here: it lands later (R315). -/
def Lane.after (ln : Lane) (pc : DWord) (len : Nat) (landing : Bool) (age : Nat) : LaneRes → Lane
  | .done ws ps fl =>
    let ln := if landing then ln else { (ln.setRegs ws).setPreds ps with flags := ln.flags ||| fl }
    { ln with pc := pc + BitVec.ofNat 64 len }
  | .jump ws t => { ln.setRegs ws with pc := t }
  | .trap .. => ln
  | .park p => ln.parkOn p age
  | .pfault .. => ln
  | .exit => { ln with st := .exited, handler := false }
  | .join => { ln with st := .joining }
  | .ret t => ln.trapReturn t
  | .stay => ln

/-- Registers, predicates and flags of a result that is still to land. -/
def LaneRes.landingOf (l : Nat) : LaneRes → Option Landing
  | .done ws ps fl => some { lane := l, writes := ws, preds := ps, flags := fl }
  | _ => none
/-- Has the lane a result? -/
def LaneRes.gives : LaneRes → Bool
  | .done .. => true
  | .jump .. => true
  | _ => false
/-- The same result without its registers: a word that runs once writes them to the group. -/
def LaneRes.noRegs : LaneRes → LaneRes
  | .done _ ps fl => .done [] ps fl
  | r => r
def LaneRes.regs : LaneRes → List (Nat × Word)
  | .done ws _ _ => ws
  | _ => []
def LaneRes.parks : LaneRes → Bool
  | .park _ => true
  | _ => false

/-- Lane l after a word with results `rs`; a lane of the word that has none falls through (R147). -/
def Ctl.laneAfter (c : Ctl) (u : Uses) (o : WordOps) (age : Nat) (rs : List (Nat × LaneRes)) (l : Nat) (ln : Lane) : Lane :=
  match rs.find? fun r => r.1 == l with
  | some r => ln.after c.pc c.len u.landing age (if o.once then r.2.noRegs else r.2)
  | none => { ln with pc := c.pc + BitVec.ofNat 64 c.len }

/-- The registers of a word that runs once. -/
def firstRegs : List (Nat × LaneRes) → List (Nat × Word)
  | [] => []
  | r :: _ => r.2.regs

/-- The group after a word: its lanes, its g registers, pending results, hazards and rotation (R147, R148, R314). `rs` has
every active lane; the word's other lanes fall through. -/
def Group.afterWord (g : Group) (before : Group) (c : Ctl) (lanes : BitVec 32) (stall : Nat) (u : Uses) (o : WordOps)
    (clk age : Nat) (rs : List (Nat × LaneRes)) : Group :=
  let n := Nat.max stall 1
  let first := firstRegs rs
  let g := lanes32.foldl (fun (g : Group) l => if lanes.getLsbD l then g.setLane l (c.laneAfter u o age rs l (g.lane l)) else g) g
  let m := maskOf ((rs.filter fun r => r.2.gives).map (·.1))
  { (if o.once && !u.landing then g.setGrs first else g) with
    landings := if u.landing then
        g.landings ++ (if o.once && !first.isEmpty then [{ lane := 32, writes := first, preds := [], flags := 0 }] else []) ++
          rs.filterMap fun r => (if o.once then r.2.noRegs else r.2).landingOf r.1
      else g.landings
    hazards := if o.sync then [] else ageHazards n (newHazards before u m ++ cutHazards u m g.hazards)
    floor := if o.rot then some c.pc else none
    mask := if o.rot then lanes else 0
    readyAt := Nat.max g.readyAt (clk + n)
    lastIssue := clk
    behind := none }

/-- The faults of a word, taken after the rest of it (R151, R283). -/
def State.wordFaults (s : State) (gid : Nat) (rs : List (Nat × LaneRes)) : State :=
  rs.foldl (fun s r =>
    match r.2 with
    | .trap code acc addr => s.takeTrap gid r.1 code acc addr
    | .pfault code acc va lo hi => s.parkFault gid r.1 code acc va lo hi false
    | _ => s) s

/-- The state after the word's lanes have run. -/
def State.finishWord (s : State) (before : Group) (c : Ctl) (lanes : BitVec 32) (stall : Nat) (u : Uses) (o : WordOps)
    (rs : List (Nat × LaneRes)) : State :=
  match s.group c.gid with
  | none => s
  | some g =>
    let g := g.afterWord before c lanes stall u o s.clk s.next rs
    let s := if rs.any fun r => r.2.parks then { s with next := s.next + 1 } else s
    (s.setGroup c.gid g.endHandling).wordFaults c.gid rs

/-- Every lane of the word traps with a cause that depends on the word alone (R319). -/
def State.trapWord (s : State) (g : Group) (stall code acc : Nat) : State :=
  let c : Ctl := { gid := s.cur.gid, g := g, act := s.cur.lanes, pc := s.cur.pc, len := s.cur.len, u := false, prot := false }
  s.finishWord g c s.cur.lanes stall {} {} ((lanesOf s.cur.lanes).map fun l => (l, .trap code acc 0))

/-- Do the copies of every visible lane agree on what the word compares, and on being active (R166)? -/
def Ctl.copiesAgree (c : Ctl) (u : Uses) (o : WordOps) : Bool :=
  (List.range 16).all fun k =>
    c.act.getLsbD (2 * k) == c.act.getLsbD (2 * k + 1) &&
    (!c.act.getLsbD (2 * k) || match o.same with
      | some f => f c (2 * k) == f c (2 * k + 1)
      | none => u.rv.all fun r => (c.g.lane (2 * k)).reg r == (c.g.lane (2 * k + 1)).reg r)

/-- Results of the primaries, given to both copies (R166). -/
def bothCopies (rs : List (Nat × LaneRes)) : List (Nat × LaneRes) := rs.flatMap fun r => [r, (r.1 + 1, r.2)]

/-- The lanes that run a word: all active ones, one for a word that runs once, the primaries for a memory word under PROT. -/
def Ctl.runners (c : Ctl) (o : WordOps) : List Nat :=
  let ls := lanesOf c.act
  if o.once then ls.take 1 else if o.mem && c.prot then ls.filter fun l => l % 2 == 0 else ls

/-- Results of all active lanes from those of the lanes that ran. -/
def Ctl.spread (c : Ctl) (o : WordOps) (rs : List (Nat × LaneRes)) : List (Nat × LaneRes) :=
  if o.once then
    match rs with
    | [] => []
    | r :: _ => (lanesOf c.act).map fun l => (l, r.2)
  else if o.mem && c.prot then bothCopies rs
  else rs

/-- Lanes of the word whose guard is true. -/
def guardLanes (g : Group) (lanes : BitVec 32) (gp : Nat) (gn : Bool) : BitVec 32 :=
  maskOf ((lanesOf lanes).filter fun l => (g.lane l).pred gp != gn)

/-- A word issues (R146, R147): the checks of R319, the interlock, the reads, the guard, and the run of its active lanes. A
word that is not ready leaves the state as it is. -/
def State.issueWord (s : State) (gp : Nat) (gn : Bool) (stall : Nat) (u : Uses) (o : WordOps)
    (body : Ctl → Nat → State → LaneRes × State) : State :=
  match s.group s.cur.gid with
  | none => s
  | some g =>
    let b := (s.rcd g.launch).blk
    if !u.budgetOk g.budget then s.trapWord g stall 0x22 0
    else if u.priv && !(lanesOf s.cur.lanes).all fun l => (g.lane l).handler then s.trapWord g stall 0x23 0
    else if s.interlocked s.cur.gid g (if o.anyLane then lanes32 else lanesOf s.cur.lanes) u gp then s
    else
      let v := g.view s.free s.cur.gid
      let act := guardLanes v s.cur.lanes gp gn
      let short := if b.sbchk then maskOf ((lanesOf (guardLanes g s.cur.lanes gp gn)).filter fun l =>
        g.short ((l, 1, gp) :: (match o.reads with | some f => f g l | none => u.reads l))) else 0
      let act := if b.sbchk then guardLanes g s.cur.lanes gp gn &&& ~~~ short else act
      let act := if o.once && short ≠ 0 then 0 else act
      let c : Ctl := { gid := s.cur.gid, g := if b.sbchk then g else v, act := act, pc := s.cur.pc, len := s.cur.len,
                       u := o.u, prot := b.prot }
      if (o.sync && !s.settled s.cur.gid g) || (o.mem && (lanesOf act).any fun l => s.acqPending c.gid l || s.replyPending c.gid l) then s
      else if !o.ready c s then o.wait c s
      else
        let s := if g.hazards.isEmpty then s else { s with free := s.free + 1 }
        if o.mem && b.prot && !c.copiesAgree u o then s.loseOwner s.cur.gid 0x1A
        else
          let (c, s) := if o.mem then ({ c with word := s.next }, { s with next := s.next + 1 }) else (c, s)
          let q := runLanes (body c) (c.runners o) s
          let late := (lanesOf short).map fun l => (l, LaneRes.trap 0x35 0 0)
          o.fin c (q.2.finishWord g c s.cur.lanes stall u o (c.spread o q.1 ++ late))

/-- A full-form word issues. -/
def State.word (s : State) (i : Instr) (h : Hdr) (o : WordOps) (body : Ctl → Nat → State → LaneRes × State) :
    Host.Outcome State Fault Refusal :=
  .next (s.issueWord h.gp.toNat h.gn h.stall.toNat (instrUses i) o body)

/-- A word that only computes: results from operands, no other effect. -/
def pure (f : Env → LaneRes) : Ctl → Nat → State → LaneRes × State := fun c l s => (f (c.env l), s)

/-! ### Which lanes issue (R146, R148, R166) -/

/-- The issue address of a group, if a lane is eligible. -/
def Group.issueAddress (g : Group) : Option DWord :=
  let pcs := fun (ls : List Nat) => (ls.map fun l => (g.lane l).pc)
  let least := leastBy (fun (a b : DWord) => decide (a.toNat < b.toNat))
  let all := least (pcs g.eligible)
  match g.floor with
  | none => all
  | some f =>
    match least ((pcs (g.eligible.filter fun l => !g.mask.getLsbD l)).filter fun a => f.toNat < a.toNat) with
    | some a => some a
    | none => all

/-- The lanes of the word at A. -/
def Group.wordLanes (g : Group) (a : DWord) : BitVec 32 := maskOf (g.eligible.filter fun l => (g.lane l).pc == a)

/-- Are the copies of every visible lane in one state, at one PC (R166)? -/
def Group.copiesEqual (g : Group) : Bool :=
  (List.range 16).all fun k =>
    let a := g.lane (2 * k)
    let b := g.lane (2 * k + 1)
    decide (a.st = b.st) && (decide (a.st = .exited) || a.pc == b.pc)

end Sys2Proof.Machine
end

