-- ==== Sys2Proof/Machine/Flags.lean ====
section
/-! DEFINITION. Flags.lean: every flag computation: the carry predicates of ADDC and SUBB (R329), and the sticky IEEE flags
of %fpflags (R213, R215). -/
namespace Sys2Proof.Machine

/-- a + c + carry in, and the carry out (R329). -/
def carryAdd (a c : Word) (cin : Bool) : Word × Bool :=
  let n := a.toNat + c.toNat + b2n cin
  (BitVec.ofNat 32 n, decide (2 ^ 32 ≤ n))

/-- a − c − borrow in, and the borrow out (R329). -/
def borrowSub (a c : Word) (cin : Bool) : Word × Bool :=
  let n : Int := (a.toNat : Int) - c.toNat - b2n cin
  (BitVec.ofInt 32 n, decide (n < 0))

/-- NV, DZ, OF, UF, NX (R215). -/
def flagNV : BitVec 5 := 16
def flagDZ : BitVec 5 := 8
def flagOF : BitVec 5 := 4
def flagUF : BitVec 5 := 2
def flagNX : BitVec 5 := 1

/-- Flags of a rounding: overflow with inexact, underflow when tiny and inexact, inexact (R213). -/
def roundFlags (overflow tiny inexact : Bool) : BitVec 5 :=
  if overflow then flagOF ||| flagNX
  else (if tiny && inexact then flagUF else 0) ||| (if inexact then flagNX else 0)

end Sys2Proof.Machine
end

