-- ==== Sys2Proof/Machine/Integer.lean ====
section
/-! DEFINITION. Integer.lean: the integer and bit instructions of groups 0x0 and 0x1 (R326 to R338). -/
namespace Sys2Proof

/-- Width in bits (R303). -/
def IntTy.bits : IntTy → Nat
  | .s32 | .n32 | .b32 => 32
  | .s64 | .n64 => 64
  | .s16 | .n16 => 16
  | .s8 | .n8 => 8
/-- Is the type signed? -/
def IntTy.signed : IntTy → Bool
  | .s32 | .s64 | .s16 | .s8 => true
  | _ => false
/-- A source, read from the low bits of its register and extended by the type (R326). -/
def IntTy.val (t : IntTy) (x : DWord) : Int :=
  if t.signed then Machine.sextInt x.toNat t.bits else (x.toNat % 2 ^ t.bits : Int)
/-- The least and the greatest value of the type. -/
def IntTy.lo (t : IntTy) : Int := if t.signed then -(2 ^ (t.bits - 1) : Int) else 0
def IntTy.hi (t : IntTy) : Int := if t.signed then (2 ^ (t.bits - 1) : Int) - 1 else (2 ^ t.bits : Int) - 1
/-- A result: clamped or wrapped to the type, then extended to the register (R326, R328). -/
def IntTy.put (t : IntTy) (sat : Bool) (r : Int) : DWord :=
  if sat then BitVec.ofInt 64 (if r < t.lo then t.lo else if t.hi < r then t.hi else r)
  else if t.signed then BitVec.ofInt 64 (Machine.sextInt (Machine.wrapN r t.bits) t.bits)
  else BitVec.ofNat 64 (Machine.wrapN r t.bits)

end Sys2Proof

namespace Sys2Proof.Machine

/-- A lane result of one value. -/
def Env.alu (e : Env) (wide : Bool) (d : RegIx) (x : DWord) : LaneRes := .done (e.out wide d x) [] 0

/-! ### Values -/

/-- MULH: bits [2w−1:w] of the exact product. -/
def mulHigh (t : IntTy) (a c : Int) : DWord := BitVec.ofInt 64 ((a * c) / (2 ^ t.bits : Int))
/-- IDIV (R330). -/
def divVal (t : IntTy) (a c : Int) : Int :=
  if c = 0 then (if t.signed then (if 0 ≤ a then -1 else 1) else (2 ^ t.bits : Int) - 1) else Int.tdiv a c
/-- IREM (R330). -/
def remVal (a c : Int) : Int := if c = 0 then a else Int.tmod a c
/-- A comparison (R331). -/
def Cmp.holds (c : Cmp) (a b : Int) : Bool :=
  match c with
  | .eq => decide (a = b)
  | .ne => decide (a ≠ b)
  | .lt => decide (a < b)
  | .le => decide (a ≤ b)
  | .gt => decide (b < a)
  | .ge => decide (b ≤ a)
/-- A predicate combiner (R331). -/
def combine (o : BoolOp) (a b : Bool) : Bool :=
  match o with
  | .and => a && b
  | .or => a || b
  | .xor => a ^^ b
/-- LOP3's table, bitwise (R335). -/
def lop3Val (lut : Byte) (e a c : Word) : Word :=
  BitVec.ofNat 32 (sumN ((List.range 32).map fun i =>
    if lut.getLsbD (4 * b2n (e.getLsbD i) + 2 * b2n (a.getLsbD i) + b2n (c.getLsbD i)) then 2 ^ i else 0))
/-- SHL of a w-bit value (R336). -/
def shlVal (w : Nat) (a : DWord) (n : Nat) : DWord := if w ≤ n then 0 else BitVec.ofNat 64 (a.toNat * 2 ^ n % 2 ^ w)
/-- SHR of a w-bit value (R336). -/
def shrVal (w : Nat) (a : DWord) (n : Nat) : DWord := if w ≤ n then 0 else BitVec.ofNat 64 (a.toNat % 2 ^ w / 2 ^ n)
/-- SAR of a w-bit value (R336). -/
def sarVal (w : Nat) (a : DWord) (n : Nat) : DWord := BitVec.ofInt 64 (sextInt a.toNat w / (2 ^ Nat.min n w : Int))
/-- FSHF (R336). -/
def fshfVal (right : Bool) (a b c : Word) : Word :=
  let x := a.toNat * 2 ^ 32 + b.toNat
  let n := c.toNat % 32
  BitVec.ofNat 32 (if right then x / 2 ^ n else x * 2 ^ n % 2 ^ 64 / 2 ^ 32)
/-- BFX (R337). -/
def bfxVal (signed : Bool) (a c : Word) : Word :=
  let pos := c.toNat % 256
  let len := Nat.min (c.toNat / 256 % 256) 32
  if len = 0 then 0
  else
    let f := (BitVec.signExtend 512 a).toNat
    let x := (if signed then f else a.toNat) / 2 ^ pos % 2 ^ len
    if signed then BitVec.ofInt 32 (sextInt x len) else BitVec.ofNat 32 x
/-- BFI (R337). -/
def bfiVal (a b c : Word) : Word :=
  let pos := c.toNat % 256
  let len := Nat.min (c.toNat / 256 % 256) 32
  let m := BitVec.ofNat 32 ((2 ^ len - 1) * 2 ^ pos)
  (b &&& ~~~ m) ||| (BitVec.ofNat 32 (a.toNat * 2 ^ pos) &&& m)
/-- Number of set bits among the low w. -/
def popVal (w : Nat) (x : DWord) : Nat := ((List.range w).filter fun i => x.getLsbD i).length
/-- Leading zero bits of a w-bit value; w for zero. -/
def clzVal (w : Nat) (x : DWord) : Nat := ((List.range w).find? fun i => x.getLsbD (w - 1 - i)).getD w
/-- Trailing zero bits of a w-bit value; w for zero. -/
def ctzVal (w : Nat) (x : DWord) : Nat := ((List.range w).find? fun i => x.getLsbD i).getD w
/-- A w-bit value reversed. -/
def brevVal (w : Nat) (x : DWord) : DWord :=
  BitVec.ofNat 64 (sumN ((List.range w).map fun i => if x.getLsbD (w - 1 - i) then 2 ^ i else 0))
/-- One byte of PRMT (R338). -/
def prmtByte (a b : Word) (s : Nat) : Nat :=
  let x := b.toNat * 2 ^ 32 + a.toNat
  if s < 8 then x / 2 ^ (8 * s) % 256
  else if s = 8 then 0
  else if s = 9 then 0xFF
  else if s = 14 then 0x7F
  else if s = 15 then 0x80
  else if x.testBit (8 * (s - 10) + 7) then 0xFF else 0
/-- PRMT (R338). -/
def prmtVal (a b c : Word) : Word :=
  BitVec.ofNat 32 (sumN ((List.range 4).map fun k => prmtByte a b (c.toNat / 16 ^ k % 16) * 2 ^ (8 * k)))

/-! ### Integer arithmetic (R328 to R334) -/

/-- The two sources of a word, as values of its type. -/
def Env.ab (e : Env) (t : IntTy) (a : RegIx) (c : Src) : Int × Int := (t.val (e.reg t.wide a), t.val (e.src t.wide c))

def execAdd (h : Hdr) (t : IntTy) (sat : Bool) (d a : RegIx) (c : Src) (s : State) : Host.Outcome State Fault Refusal :=
  s.word (.add h t sat d a c) h (opsOf c) (pure fun e => e.alu t.wide d (t.put sat ((e.ab t a c).1 + (e.ab t a c).2)))

/-- ADDC: the sum with the carry predicate, and the carry out (R329). -/
def execAddc (h : Hdr) (d po a : RegIx) (c : Src) (pi : BitVec 3) (pn : Bool) (s : State) : Host.Outcome State Fault Refusal :=
  s.word (.addc h d po a c pi pn) h {} (pure fun e =>
    let r := carryAdd (e.r32 a) (e.src32 c) (e.ln.pred pi.toNat ^^ pn)
    .done [(d.toNat, r.1)] [(po.toNat, r.2)] 0)

def execSub (h : Hdr) (t : IntTy) (sat : Bool) (d a : RegIx) (c : Src) (s : State) : Host.Outcome State Fault Refusal :=
  s.word (.sub h t sat d a c) h (opsOf c) (pure fun e => e.alu t.wide d (t.put sat ((e.ab t a c).1 - (e.ab t a c).2)))

/-- SUBB: the difference with the borrow predicate, and the borrow out (R329). -/
def execSubb (h : Hdr) (d po a : RegIx) (c : Src) (pi : BitVec 3) (pn : Bool) (s : State) : Host.Outcome State Fault Refusal :=
  s.word (.subb h d po a c pi pn) h {} (pure fun e =>
    let r := borrowSub (e.r32 a) (e.src32 c) (e.ln.pred pi.toNat ^^ pn)
    .done [(d.toNat, r.1)] [(po.toNat, r.2)] 0)

def execMul (h : Hdr) (t : IntTy) (d a : RegIx) (c : Src) (s : State) : Host.Outcome State Fault Refusal :=
  s.word (.mul h t d a c) h (opsOf c) (pure fun e => e.alu t.wide d (t.put false ((e.ab t a c).1 * (e.ab t a c).2)))

def execMulh (h : Hdr) (t : IntTy) (d a : RegIx) (c : Src) (s : State) : Host.Outcome State Fault Refusal :=
  s.word (.mulh h t d a c) h (opsOf c) (pure fun e => e.alu t.wide d (mulHigh t (e.ab t a c).1 (e.ab t a c).2))

/-- MULW: the exact product in a pair (R328). -/
def execMulw (h : Hdr) (t : IntTy) (d a : RegIx) (c : Src) (s : State) : Host.Outcome State Fault Refusal :=
  s.word (.mulw h t d a c) h (opsOf c) (pure fun e =>
    e.alu true d (BitVec.ofInt 64 (t.val (e.reg false a) * t.val (e.src false c))))

def execMad (h : Hdr) (t : IntTy) (d a b : RegIx) (c : Src) (s : State) : Host.Outcome State Fault Refusal :=
  s.word (.mad h t d a b c) h (opsOf c) (pure fun e =>
    e.alu t.wide d (t.put false (t.val (e.reg t.wide a) * t.val (e.reg t.wide b) + t.val (e.src t.wide c))))

/-- MADW: c is a pair (R328). -/
def execMadw (h : Hdr) (t : IntTy) (d a b : RegIx) (c : Src) (s : State) : Host.Outcome State Fault Refusal :=
  s.word (.madw h t d a b c) h (opsOf c) (pure fun e =>
    e.alu true d (BitVec.ofInt 64 (t.val (e.reg false a) * t.val (e.reg false b) + (e.src true c).toNat)))

def execIdiv (h : Hdr) (t : IntTy) (d a : RegIx) (c : Src) (s : State) : Host.Outcome State Fault Refusal :=
  s.word (.idiv h t d a c) h (opsOf c) (pure fun e => e.alu t.wide d (t.put false (divVal t (e.ab t a c).1 (e.ab t a c).2)))

def execIrem (h : Hdr) (t : IntTy) (d a : RegIx) (c : Src) (s : State) : Host.Outcome State Fault Refusal :=
  s.word (.irem h t d a c) h (opsOf c) (pure fun e => e.alu t.wide d (t.put false (remVal (e.ab t a c).1 (e.ab t a c).2)))

def execMin (h : Hdr) (t : IntTy) (d a : RegIx) (c : Src) (s : State) : Host.Outcome State Fault Refusal :=
  s.word (.min h t d a c) h (opsOf c) (pure fun e =>
    e.alu t.wide d (t.put false (if (e.ab t a c).1 ≤ (e.ab t a c).2 then (e.ab t a c).1 else (e.ab t a c).2)))

def execMax (h : Hdr) (t : IntTy) (d a : RegIx) (c : Src) (s : State) : Host.Outcome State Fault Refusal :=
  s.word (.max h t d a c) h (opsOf c) (pure fun e =>
    e.alu t.wide d (t.put false (if (e.ab t a c).1 ≤ (e.ab t a c).2 then (e.ab t a c).2 else (e.ab t a c).1)))

def execAbs (h : Hdr) (t : IntTy) (sat : Bool) (d : RegIx) (c : Src) (s : State) : Host.Outcome State Fault Refusal :=
  s.word (.abs h t sat d c) h (opsOf c) (pure fun e => e.alu t.wide d (t.put sat ((t.val (e.src t.wide c)).natAbs : Int)))

def execNeg (h : Hdr) (t : IntTy) (sat : Bool) (d : RegIx) (c : Src) (s : State) : Host.Outcome State Fault Refusal :=
  s.word (.neg h t sat d c) h (opsOf c) (pure fun e => e.alu t.wide d (t.put sat (-(t.val (e.src t.wide c)))))

/-- ISETP (R331). -/
def execIsetp (h : Hdr) (t : IntTy) (cmp : Cmp) (bop : BoolOp) (pd a : RegIx) (c : Src) (pq : BitVec 3) (pn : Bool)
    (s : State) : Host.Outcome State Fault Refusal :=
  s.word (.isetp h t cmp bop pd a c pq pn) h {} (pure fun e =>
    .done [] [(pd.toNat, combine bop (Cmp.holds cmp (e.ab t a c).1 (e.ab t a c).2) (e.ln.pred pq.toNat ^^ pn))] 0)

/-- SEL (R332). -/
def execSel (h : Hdr) (t : IntTy) (d a : RegIx) (c : Src) (p : BitVec 3) (pn : Bool) (s : State) : Host.Outcome State Fault Refusal :=
  s.word (.sel h t d a c p pn) h {} (pure fun e =>
    e.alu t.wide d (if e.ln.pred p.toNat ^^ pn then e.reg t.wide a else e.src t.wide c))

/-- LEA (R333). -/
def execLea (h : Hdr) (t : IntTy) (d a : RegIx) (c : Src) (k : BitVec 5) (s : State) : Host.Outcome State Fault Refusal :=
  s.word (.lea h t d a c k) h (opsOf c) (pure fun e =>
    e.alu true d (BitVec.ofInt 64 ((e.reg true a).toNat + t.val (e.src t.wide c) * 2 ^ k.toNat)))

def execMov (h : Hdr) (t : IntTy) (d : RegIx) (c : Src) (s : State) : Host.Outcome State Fault Refusal :=
  s.word (.mov h t d c) h (opsOf c) (pure fun e => e.alu t.wide d (e.src t.wide c))

/-- Running of a word whose destination is a g register or not (R334). -/
def opsG (toG : Bool) : WordOps := if toG then { u := true, once := true } else {}

def execMovi (h : Hdr) (t : IntTy) (toG : Bool) (d : RegIx) (i : BitVec 18) (s : State) : Host.Outcome State Fault Refusal :=
  s.word (.movi h t toG d i) h (opsG toG) (pure fun e => e.alu t.wide d (i.signExtend 64))

/-- LIMM: the literal, or under .pc its sum with the address of the word (R334). -/
def execLimm (h : Hdr) (t : IntTy) (pcRel toG : Bool) (d : RegIx) (x : DWord) (s : State) : Host.Outcome State Fault Refusal :=
  s.word (.limm h t pcRel toG d x) h (opsG toG) (fun c l s =>
    ((c.env l).alu t.wide d (if pcRel then c.pc + x else x), s))

/-! ### Bit manipulation (R335 to R338) -/

def execAnd (h : Hdr) (t : IntTy) (d a : RegIx) (c : Src) (s : State) : Host.Outcome State Fault Refusal :=
  s.word (.and h t d a c) h (opsOf c) (pure fun e => e.alu t.wide d (e.reg t.wide a &&& e.src t.wide c))

def execOr (h : Hdr) (t : IntTy) (d a : RegIx) (c : Src) (s : State) : Host.Outcome State Fault Refusal :=
  s.word (.or h t d a c) h (opsOf c) (pure fun e => e.alu t.wide d (e.reg t.wide a ||| e.src t.wide c))

def execXor (h : Hdr) (t : IntTy) (d a : RegIx) (c : Src) (s : State) : Host.Outcome State Fault Refusal :=
  s.word (.xor h t d a c) h (opsOf c) (pure fun e => e.alu t.wide d (e.reg t.wide a ^^^ e.src t.wide c))

def execAndn (h : Hdr) (t : IntTy) (d a : RegIx) (c : Src) (s : State) : Host.Outcome State Fault Refusal :=
  s.word (.andn h t d a c) h (opsOf c) (pure fun e => e.alu t.wide d (e.reg t.wide a &&& ~~~ e.src t.wide c))

def execLop3 (h : Hdr) (t : IntTy) (d a : RegIx) (c : Src) (lut : Byte) (nd : Bool) (s : State) : Host.Outcome State Fault Refusal :=
  s.word (.lop3 h t d a c lut nd) h (opsOf c) (pure fun e =>
    e.alu false d ((lop3Val lut (if nd then 0 else e.r32 d) (e.r32 a) (e.src32 c)).zeroExtend 64))

def execShl (h : Hdr) (t : IntTy) (d a : RegIx) (c : Src) (s : State) : Host.Outcome State Fault Refusal :=
  s.word (.shl h t d a c) h (opsOf c) (pure fun e => e.alu t.wide d (shlVal t.bits (e.reg t.wide a) (e.src32 c).toNat))

def execShr (h : Hdr) (t : IntTy) (d a : RegIx) (c : Src) (s : State) : Host.Outcome State Fault Refusal :=
  s.word (.shr h t d a c) h (opsOf c) (pure fun e => e.alu t.wide d (shrVal t.bits (e.reg t.wide a) (e.src32 c).toNat))

def execSar (h : Hdr) (t : IntTy) (d a : RegIx) (c : Src) (s : State) : Host.Outcome State Fault Refusal :=
  s.word (.sar h t d a c) h (opsOf c) (pure fun e => e.alu t.wide d (sarVal t.bits (e.reg t.wide a) (e.src32 c).toNat))

def execFshf (h : Hdr) (t : IntTy) (right : Bool) (d a b : RegIx) (c : Src) (s : State) : Host.Outcome State Fault Refusal :=
  s.word (.fshf h t right d a b c) h (opsOf c) (pure fun e =>
    e.alu false d ((fshfVal right (e.r32 a) (e.r32 b) (e.src32 c)).zeroExtend 64))

def execBfx (h : Hdr) (t : IntTy) (d a : RegIx) (c : Src) (s : State) : Host.Outcome State Fault Refusal :=
  s.word (.bfx h t d a c) h (opsOf c) (pure fun e =>
    e.alu false d ((bfxVal t.signed (e.r32 a) (e.src32 c)).zeroExtend 64))

def execBfi (h : Hdr) (t : IntTy) (d a b : RegIx) (c : Src) (s : State) : Host.Outcome State Fault Refusal :=
  s.word (.bfi h t d a b c) h (opsOf c) (pure fun e =>
    e.alu false d ((bfiVal (e.r32 a) (e.r32 b) (e.src32 c)).zeroExtend 64))

def execPopc (h : Hdr) (t : IntTy) (d : RegIx) (c : Src) (s : State) : Host.Outcome State Fault Refusal :=
  s.word (.popc h t d c) h (opsOf c) (pure fun e => e.alu false d (BitVec.ofNat 64 (popVal t.bits (e.src t.wide c))))

def execClz (h : Hdr) (t : IntTy) (d : RegIx) (c : Src) (s : State) : Host.Outcome State Fault Refusal :=
  s.word (.clz h t d c) h (opsOf c) (pure fun e => e.alu false d (BitVec.ofNat 64 (clzVal t.bits (e.src t.wide c))))

def execCtz (h : Hdr) (t : IntTy) (d : RegIx) (c : Src) (s : State) : Host.Outcome State Fault Refusal :=
  s.word (.ctz h t d c) h (opsOf c) (pure fun e => e.alu false d (BitVec.ofNat 64 (ctzVal t.bits (e.src t.wide c))))

def execBrev (h : Hdr) (t : IntTy) (d : RegIx) (c : Src) (s : State) : Host.Outcome State Fault Refusal :=
  s.word (.brev h t d c) h (opsOf c) (pure fun e => e.alu t.wide d (brevVal t.bits (e.src t.wide c)))

def execPrmt (h : Hdr) (t : IntTy) (d a b : RegIx) (c : Src) (s : State) : Host.Outcome State Fault Refusal :=
  s.word (.prmt h t d a b c) h (opsOf c) (pure fun e =>
    e.alu false d ((prmtVal (e.r32 a) (e.r32 b) (e.src32 c)).zeroExtend 64))

end Sys2Proof.Machine
end

