-- ==== Sys2Proof/Machine/Access.lean ====
section
/-! DEFINITION. Access.lean: from a lane's address to the place it reaches and the transaction it sends: the address spaces
(R168 to R176), the checks of R379, releases and acquires at issue (R200, R201), and instruction fetch (R146, R320). -/
namespace Sys2Proof.Machine

/-! ### Scratchpads (R97, R176) -/

/-- Byte o of a team's scratchpad; nothing constrains it before it is written (R97). -/
def Team.byte (t : Team) (uid o : Nat) : Byte := (Sparse.get none t.scratch o).getD (Config.scratchByte uid o)
def Team.bytes (t : Team) (uid o n : Nat) : List Byte := (List.range n).map fun i => t.byte uid (o + i)
/-- Write bytes from offset o upwards. -/
def Team.setBytes (t : Team) : Nat → List Byte → Team
  | _, [] => t
  | o, b :: bs => Team.setBytes { t with scratch := Sparse.set none t.scratch o (some b) } (o + 1) bs
/-- SCR in bytes. -/
def State.scrBytes (s : State) (t : Team) : Nat := 1024 * (s.rcd t.task.lrec).blk.scr

/-- A write to a scratchpad wakes the monitors on its granules (R392). -/
def State.wakeScratch (s : State) (uid o n : Nat) : State :=
  (listed s.txns).foldl (fun (s : State) p =>
    if p.2.tgt = .scr uid then
      p.2.parts.foldl (fun (s : State) q =>
        match q.op, s.group p.2.gid, s.txn p.1, s.team uid with
        | .monitor cmp wide b d, some g, some t, some tm =>
          let v := leNat (tm.bytes uid q.addr q.len)
          if q.addr / 16 * 16 < o + n && o < q.addr / 16 * 16 + 16 && monHolds cmp v (monB wide b) then
            let s := s.setGroup p.2.gid { g.both (s.rcd g.launch).blk.prot q.lane (fun ln => ln.monDone wide d.toNat v) with backoff := 0 }
            let ps := t.parts.filter fun r => r.lane != q.lane
            s.setTxn p.1 (if ps.isEmpty then none else some { t with parts := ps })
          else s
        | _, _, _, _ => s) s
    else s) s

/-- Release every lane whose park satisfies a test (R152). -/
def State.readyWhere (s : State) (f : Group → Park → Bool) : State :=
  (listed s.groups).foldl (fun s p =>
    if lanes32.any fun l => f p.2 (p.2.lane l).park then
      match s.group p.1 with
      | some g => s.setGroup p.1 (lanes32.foldl (fun (g : Group) l =>
          let ln := g.lane l
          if decide (ln.st = .parked) && f g ln.park then g.setLane l { ln with ready := true } else g) g)
      | none => s
    else s) s

/-- The lanes whose park satisfies a test leave it together, before their groups issue again; those of a suspended group when it comes back
(R152, R400). -/
def State.freeWhere (s : State) (f : Group → Park → Bool) : State :=
  (listed s.groups).foldl (fun s p =>
    if lanes32.any fun l => f p.2 (p.2.lane l).park then
      match s.group p.1 with
      | some g => s.setGroup p.1 (lanes32.foldl (fun (g : Group) l =>
          let ln := g.lane l
          if decide (ln.st = .parked) && f g ln.park then g.setLane l (if g.resident then ln.release else { ln with ready := true }) else g) g)
      | none => s
    else s) s

/-- PHASE of the barrier granule at offset a of a team's scratchpad (R243). -/
def Team.phaseAt (t : Team) (uid a : Nat) : Bool := (t.byte uid (a + 14)).getLsbD 0

/-- A write to a barrier granule is taken as its fields: TBWAIT lanes whose PHASE it changes are released (R243, R246). -/
def State.wakeBarriers (s : State) (uid o n : Nat) : State :=
  match s.team uid with
  | none => s
  | some t => s.readyWhere fun _ p =>
    match p with
    | .barrier u a par => u == uid && decide (a < o + n) && decide (o < a + 16) && t.phaseAt uid a != par
    | _ => false

/-- Write to a team's scratchpad. -/
def State.writeScratch (s : State) (uid o : Nat) (bs : List Byte) : State :=
  match s.team uid with
  | none => s
  | some t => ((s.setTeam uid (t.setBytes o bs)).wakeScratch uid o bs.length).wakeBarriers uid o bs.length

/-- Read from a team's scratchpad. -/
def State.readScratch (s : State) (uid o n : Nat) : List Byte :=
  match s.team uid with
  | none => List.replicate n 0
  | some t => t.bytes uid o n

/-! ### From an address to a place (R169, R172, R377, R379) -/

/-- Where an effective address leads before translation. -/
inductive Spot where
  | scr (uid o : Nat) (clu : Bool)
  | loc (a : Nat)
  | glb (va : Nat)
deriving DecidableEq, Repr

def badOperand : LaneRes := .trap 0x22 0 0
def trapAt (code acc va : Nat) : LaneRes := .trap code acc (BitVec.ofNat 64 va)

/-- The team with %team = j of a team's cluster, if it is there (R162). -/
def State.mate (s : State) (t : Team) (j : Nat) : Option (Nat × Team) :=
  let b := (s.rcd t.task.lrec).blk
  (s.teamsOf t.task.lrec).find? fun p => p.2.task.stg == t.task.stg && b.cluster p.2.task == b.cluster t.task &&
    b.teamIn p.2.task == j && (!b.gang || p.2.gang == t.gang)

/-- Has the team with %team = j of a team's cluster been started? The teams of a gang start together; the rectangle of a cluster
tells which of its teams have (R96). -/
def State.hasStarted (s : State) (t : Team) (j : Nat) : Bool :=
  let rc := s.rcd t.task.lrec
  rc.blk.gang || (s.mate t j).isSome || (match rc.rect (rc.blk.rectKey t.task) with | some x => nbit x.2 j | none => false)

/-- The team of a cluster with %team = j, or how its absence shows (R96, R162). A suspended team counts as not yet started (DESIGN
CHOICE, log entry 110). -/
def State.clusterTeam (s : State) (uid j : Nat) (acc ea : Nat) : Except LaneRes Nat :=
  match s.team uid with
  | none => .error badOperand
  | some t =>
    let b := (s.rcd t.task.lrec).blk
    if b.cw * b.ch ≤ j then .error (trapAt 0x27 acc ea)
    else
      match s.mate t j with
      | some p => if p.2.st = .suspended then .error (.park (.notStarted j)) else .ok p.1
      | none => if s.hasStarted t j then .error (trapAt 0x27 acc ea) else .error (.park (.notStarted j))

/-- May a lane that waits for team j of its cluster try again: the team runs, or has retired (R96)? -/
def State.mateStarted (s : State) (g : Group) (j : Nat) : Bool :=
  match g.team.bind s.team with
  | some t => s.hasStarted t j && (match s.mate t j with | some p => decide (p.2.st ≠ .suspended) | none => true)
  | none => true

/-- Offset o of a scratchpad, with the BUS_ADDR check of R169. -/
def State.scrSpot (s : State) (uid o n : Nat) (clu : Bool) (acc ea : Nat) : Except LaneRes Spot :=
  match s.team uid with
  | none => .error badOperand
  | some t => if o + n ≤ s.scrBytes t then .ok (.scr uid o clu) else .error (trapAt 0x27 acc ea)

/-- Local byte a, with the BUS_ADDR check of R172. -/
def State.locSpot (s : State) (g : Group) (a n acc ea : Nat) : Except LaneRes Spot :=
  if a + n ≤ ((s.ctx (s.rcd g.launch).ctx)).locBytes then .ok (.loc a) else .error (trapAt 0x27 acc ea)

/-- The place an effective address of a space names: alignment, range, and the windows of R169. A window reaches 2^32 bytes, of which
those past its limit fault with BUS_ADDR (DESIGN CHOICE, log entry 111). -/
def State.locate (s : State) (g : Group) (sp : Space) (ea n al : Nat) (acc : Acc) : Except LaneRes Spot :=
  let ac := acc.code
  let named := match sp with | .scr | .cscr => true | _ => false
  if named && g.team.isNone then .error badOperand
  else if ea % al ≠ 0 then .error (trapAt 0x25 ac ea)
  else
    let uid := g.team.getD 0
    match sp with
    | .scr => s.scrSpot uid ea n false ac ea
    | .cscr =>
      match s.clusterTeam uid (ea / 2 ^ 20) ac ea with
      | .ok u => s.scrSpot u (ea % 2 ^ 20) n true ac ea
      | .error e => .error e
    | .loc => s.locSpot g ea n ac ea
    | .glb | .cst =>
      if windowBase ≤ ea then .error (trapAt 0x26 ac ea) else .ok (.glb ea)
    | .gen =>
      if ea < windowBase then .ok (.glb ea)
      else if 2 ^ 57 ≤ ea then .error (trapAt 0x26 ac ea)
      else if 0x01FFFF0000000000 ≤ ea then
        if g.team.isNone then .error badOperand
        else if ea - 0x01FFFF0000000000 < 2 ^ 32 then s.scrSpot uid (ea - 0x01FFFF0000000000) n false ac ea
        else .error (trapAt 0x26 ac ea)
      else if 0x01FFFE0000000000 ≤ ea then
        if g.team.isNone then .error badOperand
        else if ea - 0x01FFFE0000000000 < 2 ^ 32 then
          match s.clusterTeam uid ((ea - 0x01FFFE0000000000) / 2 ^ 20) ac ea with
          | .ok u => s.scrSpot u (ea % 2 ^ 20) n true ac ea
          | .error e => .error e
        else .error (trapAt 0x26 ac ea)
      else if 0x01FFFD0000000000 ≤ ea then
        if ea - 0x01FFFD0000000000 < 2 ^ 32 then s.locSpot g (ea - 0x01FFFD0000000000) n ac ea
        else .error (trapAt 0x26 ac ea)
      else .error (trapAt 0x26 ac ea)

/-- Virtual address of local byte a of a lane (R172). -/
def State.frameVa (s : State) (g : Group) (l a : Nat) : Nat :=
  let rc := s.rcd g.launch
  let c := s.ctx rc.ctx
  c.locbase.toNat * 65536 + g.frame.getD 0 * 32 * c.locBytes + a / 4 * 128 + 4 * laneNo rc.blk.prot l + a % 4

/-- A check's outcome as what the lane does. -/
def Chk.res (ch : Chk) (acc : Acc) (va : Nat) : LaneRes :=
  match ch with
  | .trap c => trapAt c acc.code va
  | .park c lo hi => .pfault c acc.code va lo hi
  | .pri p ps pg => .park (.pri p ps pg acc.code va)
  | .busy _ => .stay
  | .ok .. => .stay

/-- A request that the check makes: a recall of the line a walk waits for, or a page request (R51). -/
def State.afterCheck (s : State) (ch : Chk) (gid l : Nat) : State :=
  match ch with
  | .pri p ps pg =>
    let q := s.port p
    let s := { s with free := s.free + 1 }
    if q.pri.contains (ps, pg, gid, l) then s
    else
      let pages := (q.pri.map fun r => (r.1, r.2.1)).eraseDups
      let s := s.setPort p { q with pri := q.pri ++ [(ps, pg, gid, l)] }
      -- a port has 512 slots for page requests
      if pages.contains (ps, pg) || 512 ≤ pages.length then s else s.emit (.pageRequest p ps pg)
  | .ok _ (.host ..) _ => { s with free := s.free + 1 }
  | _ => s

/-- Check an access, recalling the lines that the walk needs; a walk's reads are counted (R25). -/
def State.checkRecall (s : State) (agent k va n : Nat) (acc : Acc) : Nat → Chk × State
  | 0 => (s.check agent k va n acc, s)
  | f + 1 =>
    match s.check agent k va n acc with
    | .busy line => (s.recall line).checkRecall agent k va n acc f
    | ch => (ch, if 2 ^ 57 ≤ va ∨ windowBase ≤ va then s else s.countWalk agent k va)

/-- Global address va: check, and the walk's result kept in the TLB of the core. -/
def State.checkFor (s : State) (g : Group) (gid l va n : Nat) (acc : Acc) : Chk × State :=
  let k := (s.rcd g.launch).ctx
  let (ch, s) := s.checkRecall g.core k va n acc 12
  let s := match ch with
    | .ok leaf _ _ => s.fillTlb g.core k va leaf
    | _ => s
  (ch, s.afterCheck ch gid l)

/-! ### Releases (R57, R66, R200, R201) -/

/-- Core scopes (R191). -/
def coreScope (sc : Scope) : Bool := match sc with | .thr | .grp | .team => true | _ => false

/-- Key of a context's stores to host memory through a port. -/
def hostKey (k p : Nat) : Nat := 2 * k + p

/-- A context's stores to host memory through port p that have not left yet. -/
def State.hostPending (s : State) (k p : Nat) : List Nat :=
  ((listed s.txns).filter fun t => t.2.ctx == k && t.2.writes && (match t.2.tgt with | .host q _ => q == p | _ => false)).map (·.1)

/-- Has every store of the context to host memory through port p been followed by a zero-length read that has completed (R57)? -/
def State.hostQuiet (s : State) (k p : Nat) : Bool :=
  (s.hostPending k p).isEmpty && Sparse.get 0 s.hostSent (hostKey k p) == Sparse.get 0 s.hostSafe (hostKey k p)

/-- A zero-length read behind the stores of a context to host memory, for each port that needs one; the reads' numbers (R57). The
stores are those of the whole context: the thread may have acquired any of them (log entry 123). -/
def State.zeroReads (s : State) (l : Nat) (proto : Txn) : List Nat × State :=
  [0, 1].foldl (fun (acc : List Nat × State) p =>
    let s := acc.2
    if s.hostQuiet proto.ctx p then acc
    else
      let (id, s) := s.fresh
      (acc.1 ++ [id], s.setTxn id (some { proto with
        tgt := .host p 0, line := 0, parts := [{ lane := l, addr := 0, va := 0, len := 0, op := .zlr }], acq := false, rel := false,
        deps := s.hostPending proto.ctx p, wb := false, l1 := false, spill := false, word := 0 }))) ([], s)

/-- The accesses of a thread that a release into L1 follows: those not performed in L1 and not yet left the core (R200). -/
def State.coreDeps (s : State) (gid l : Nat) : List Nat :=
  ((s.threadTxns gid l).filter fun p => p.2.l1 || (p.2.parts.any fun q => !q.op.writes) || !s.hasLeft p.1 p.2).map (·.1)

/-- What a release of a lane waits for, by scope: transactions, and whether dirty lines must be written back first (R200,
R201). A release at cluster scope or wider, or to the home, also follows the stores that its thread may have acquired (R198). -/
def State.releaseDeps (s : State) (gid l : Nat) (sc : Scope) (l1 : Bool) (proto : Txn) : List Nat × Bool × State :=
  if l1 && coreScope sc then (s.coreDeps gid l, false, s)
  else
    let all := ((s.threadTxns gid l).map (·.1) ++ s.coreWrites proto.core proto.ctx).eraseDups
    if sc = .sys then
      let (zs, s) := s.zeroReads l proto
      (all ++ zs, true, s)
    else (all, true, s)

/-- Does a store or an atomic of this ordering release (R197)? -/
def releases (o : Ord) (ln : Lane) : Bool :=
  match o with
  | .rel | .ar => true
  | .rlx => ln.relFence
  | _ => false
/-- Does a load or an atomic of this ordering acquire? -/
def acquires (o : Ord) : Bool := o == .acq || o == .ar

/-- A store part without the bytes over which part p of a higher lane of its word lies (R193). -/
def Part.under (p q : Part) : Part :=
  if q.op == .store then
    { q with mask := (List.range q.data.length).map fun i =>
        q.mask.getD i false || (decide (p.addr ≤ q.addr + i) && decide (q.addr + i < p.addr + p.len)) }
  else q

/-- The bytes of a store give way to those of a higher lane of the same word, whichever of their transactions is served first: lanes may
reach one line as L1 takes it and as its home does, by pages that differ (R193). -/
def State.overlay (s : State) (proto : Txn) (p : Part) : State :=
  if p.op == .store then
    { s with txns := s.txns.filterMap fun q =>
        match q.2 with
        | none => none
        | some t =>
          if t.word == proto.word && t.gid == proto.gid && t.tgt == proto.tgt && t.line == proto.line then
            let ps := (t.parts.map p.under).filter fun r => !(r.op == .store) || !r.stored.isEmpty
            if ps.isEmpty then none else some (q.1, some { t with parts := ps })
          else some (q.1, some t) }
  else s

/-- Add a lane's part to the word's transaction for its line, or start one (R381). -/
def State.sendPart (s : State) (proto : Txn) (p : Part) : State :=
  let s := s.overlay proto p
  match (listed s.txns).find? fun q => q.2.word == proto.word && q.2.gid == proto.gid && q.2.tgt == proto.tgt &&
      q.2.line == proto.line && q.2.l1 == proto.l1 && q.2.spill == proto.spill with
  | some q => s.setTxn q.1 (some { q.2 with parts := q.2.parts ++ [p], deps := q.2.deps ++ proto.deps, wb := q.2.wb || proto.wb })
  | none =>
    let (id, s) := s.fresh
    s.setTxn id (some { proto with parts := [p] })

/-- The scope at which an access is performed: at a Clovar node, system scope (R61). -/
def Tgt.scopeOf (tgt : Tgt) (sc : Scope) : Scope := match tgt with | .node _ => .sys | _ => sc

/-- A lane's access to a checked place: its transaction, with the waits of its ordering. -/
def State.send (s : State) (c : Ctl) (l : Nat) (leaf : Leaf) (tgt : Tgt) (addr va n : Nat) (op : AccOp) (data : List Byte)
    (mask : List Bool) (o : Ord) (sc : Scope) (spill : Bool := false) : State :=
  let sc := tgt.scopeOf sc
  let k := (s.rcd c.g.launch).ctx
  let wr := op.writes
  let l1 := decide (tgt = .cell) && leaf.wp && leaf.lvl == 2 && !s.l1Empty c.g.core &&
    (match op with
     | .store => coreScope sc
     | .atom .. | .red .. => coreScope sc || sc == .clu
     | _ => false)
  let proto : Txn := { core := c.g.core, gid := c.gid, ctx := k, launch := c.g.launch, tgt := tgt, line := addr / 128,
                       parts := [], scope := sc, acq := acquires o, rel := wr && releases o (c.g.lane l), l1 := l1,
                       lvl := leaf.lvl, evp := leaf.evp, pc := c.pc, spill := spill, word := c.word }
  let (deps, wb, s) := if proto.rel then s.releaseDeps c.gid l sc l1 proto else ([], false, s)
  s.sendPart { proto with deps := deps.filter fun d => match s.txn d with | some t => t.word ≠ c.word | none => false, wb := wb }
    { lane := l, addr := addr, va := va, len := n, op := op, data := data, mask := mask, level := leaf.level }

/-- Is some byte of a load in a poisoned sector, its core's own dirty bytes left out (R188)? -/
def State.loadPoisoned (s : State) (core c n : Nat) : Bool :=
  (List.range n).any fun i => s.poisoned (c + i) && (Sparse.get none s.dirty (dirtyKey core (c + i))).isNone

/-- The P-class fault of a poisoned sector (R188): its region is the sector of the first poisoned byte. -/
def State.poisonFault (s : State) (core c n acc va : Nat) : LaneRes :=
  let i := ((List.range n).find? fun i => s.poisoned (c + i) && (Sparse.get none s.dirty (dirtyKey core (c + i))).isNone).getD 0
  .pfault causePoison acc (va + i) (2 ^ 58 + (c + i) / 32 * 32) (2 ^ 58 + (c + i) / 32 * 32 + 32)

/-- A core number that no core has: it holds no dirty byte. -/
def noCore : Nat := 2047

/-! ### Instruction fetch (R146, R170, R320) -/

/-- What a read of the instruction or constant path gives. -/
inductive Got where
  | bytes (bs : List Byte)
  | no (r : LaneRes)                                      -- a fault
  | wait                                                  -- not yet
deriving DecidableEq, Repr

/-- Read n bytes outside this device's memory for a word that is tried again until they have come: for the whole word, or for its
lane l. -/
def State.readFar (s : State) (g : Group) (gid l : Nat) (leaf : Leaf) (tgt : Tgt) (a va n : Nat) (acc : Nat := 0) : Got × State :=
  match g.fetched.find? fun f => f.1 == va with
  | some f => (.bytes (f.2.take n), s)
  | none =>
    if (s.threadTxns gid l).any fun t => t.2.parts.any fun q => q.va == va && q.op == .fetch then (.wait, s)
    else
      let (id, s) := s.fresh
      (.wait, s.setTxn id (some {
        core := g.core, gid := gid, ctx := (s.rcd g.launch).ctx, launch := g.launch, tgt := tgt, line := a / 128, pc := s.cur.pc
        parts := [{ lane := l, addr := a, va := va, len := n, op := .fetch, level := leaf.level, acc := acc }], word := id }))

/-- The leaf of an access with hint .ef: the lines that it fills take eviction priority 0 (R376). -/
def Leaf.hinted (l : Leaf) (ef : Bool) : Leaf := if ef then { l with evp := 0 } else l

/-- Read n bytes of code, or of constant space, at va, within one line: through the core's cache, or for memory outside this
device by a read of its own. -/
def State.readPath (s : State) (inst : Bool) (gid va n : Nat) (ef : Bool := false) : Got × State :=
  match s.group gid with
  | none => (.wait, s)
  | some g =>
    let k := (s.rcd g.launch).ctx
    let acc : Acc := if inst then .fetch else .load
    let (ch, s) := s.checkFor g gid 32 va n acc
    match ch with
    | .ok leaf .cell a =>
      (match s.cacheHit inst g.core k a n with
       | (some bs, s) => (.bytes bs, s)
       | (none, s) =>
         if !s.lineFree none (a / 128) then (.wait, s.recall (a / 128))
         else if s.poisonedRange a n then (.no (s.poisonFault noCore a n acc.code va), s)
         else
           let (bs, s) := s.cacheRead inst leaf.lvl (leaf.hinted ef).evp g.core k a n
           (.bytes bs, s))
    | .ok leaf tgt a => s.readFar g gid 32 leaf tgt a va n acc.code
    | .pri p ps pg => (.no (.park (.pri p ps pg acc.code va)), s)
    | .busy _ => (.wait, s)
    | ch => (.no (ch.res acc va), s)

/-- Read n bytes at an 8-byte aligned address, 8 at a time. -/
def State.readCode (s : State) (gid va : Nat) : Nat → Got × State
  | 0 => (.bytes [], s)
  | m + 1 =>
    match s.readPath true gid va 8 with
    | (.bytes bs, s) =>
      (match s.readCode gid (va + 8) m with
       | (.bytes r, s) => (.bytes (bs ++ r), s)
       | q => q)
    | q => q

end Sys2Proof.Machine
end

