-- ==== Sys2Proof/Machine/Float.lean ====
section
/-! DEFINITION. Float.lean: binary formats and their exact arithmetic (R210 to R213, R359 to R365), FP8, MXINT8 and typed
decoding (R220 to R224), and the matrix engine's roundings (R225, R226). Values are exact; each result is rounded once. -/
namespace Sys2Proof.Machine

/-! ### Formats (R210, R223) -/

/-- A binary format: width, precision, exponent range, and the patterns of its specials. -/
structure Format where
  w : Nat
  p : Nat
  emin : Int
  bias : Nat
  maxM : Nat            -- the largest finite value is maxM × 2^maxQ
  maxQ : Int
  maxBits : Nat
  infBits : Nat         -- what stands for infinity
  nanBits : Nat         -- the canonical quiet NaN
  hasInf : Bool := true
deriving DecidableEq, Repr

def fmt64 : Format := { w := 64, p := 53, emin := -1022, bias := 1023, maxM := 2 ^ 53 - 1, maxQ := 971, maxBits := 0x7FEFFFFFFFFFFFFF, infBits := 0x7FF0000000000000, nanBits := 0x7FF8000000000000 }
def fmt32 : Format := { w := 32, p := 24, emin := -126, bias := 127, maxM := 2 ^ 24 - 1, maxQ := 104, maxBits := 0x7F7FFFFF, infBits := 0x7F800000, nanBits := 0x7FC00000 }
def fmt16 : Format := { w := 16, p := 11, emin := -14, bias := 15, maxM := 2 ^ 11 - 1, maxQ := 5, maxBits := 0x7BFF, infBits := 0x7C00, nanBits := 0x7E00 }
def fmtB16 : Format := { w := 16, p := 8, emin := -126, bias := 127, maxM := 2 ^ 8 - 1, maxQ := 120, maxBits := 0x7F7F, infBits := 0x7F80, nanBits := 0x7FC0 }
def fmtE4 : Format := { w := 8, p := 4, emin := -6, bias := 7, maxM := 14, maxQ := 5, maxBits := 0x7E, infBits := 0x7F, nanBits := 0x7F, hasInf := false }
def fmtE5 : Format := { w := 8, p := 3, emin := -14, bias := 15, maxM := 7, maxQ := 13, maxBits := 0x7B, infBits := 0x7C, nanBits := 0x7E }

/-- The format of a type field. -/
def formatOf : Fmt → Format
  | .f16 => fmt16
  | .bf16 => fmtB16
  | .f32 => fmt32
  | .f64 => fmt64

/-- A value: a NaN by its bits, an infinity, or (−1)^neg × m × 2^e. -/
inductive FVal where
  | nan (bits : Nat) (sig : Bool)
  | inf (neg : Bool)
  | fin (neg : Bool) (m : Nat) (e : Int)
deriving DecidableEq, Repr

def FVal.isNan : FVal → Bool
  | .nan .. => true
  | _ => false
def FVal.isSig : FVal → Bool
  | .nan _ s => s
  | _ => false
def FVal.neg : FVal → Bool
  | .nan .. => false
  | .inf n => n
  | .fin n _ _ => n

/-- The sign bit of a format. -/
def Format.sgn (F : Format) (neg : Bool) : Nat := if neg then 2 ^ (F.w - 1) else 0

/-- Decode a bit pattern (R210, R223). -/
def Format.decode (F : Format) (x : Nat) : FVal :=
  let neg := x.testBit (F.w - 1)
  let a := x % 2 ^ (F.w - 1)
  let ex := a / 2 ^ (F.p - 1)
  let fr := a % 2 ^ (F.p - 1)
  if F.hasInf then
    if F.infBits < a then .nan (x % 2 ^ F.w) (!fr.testBit (F.p - 2))
    else if a = F.infBits then .inf neg
    else if ex = 0 then .fin neg fr (F.emin - (F.p - 1 : Int))
    else .fin neg (2 ^ (F.p - 1) + fr) ((ex : Int) - F.bias - (F.p - 1 : Int))
  else if a = F.nanBits then .nan (x % 2 ^ F.w) false
  else if ex = 0 then .fin neg fr (F.emin - (F.p - 1 : Int))
  else .fin neg (2 ^ (F.p - 1) + fr) ((ex : Int) - F.bias - (F.p - 1 : Int))

/-- A NaN of the format made quiet (R211). -/
def Format.quiet (F : Format) (bits : Nat) : Nat := bits ||| 2 ^ (F.p - 2)

/-- Number of bits of a natural number. -/
def bitLen (m : Nat) : Nat := if m = 0 then 0 else m.log2 + 1

/-- Rounding directions, numbered as in R212. -/
def roundUp? (dir : Nat) (neg odd : Bool) (rem half : Nat) (sticky : Bool) : Bool :=
  match dir with
  | 0 => decide (half < rem) || (rem == half && half != 0 && (sticky || odd))
  | 1 => false
  | 2 => !neg && (rem != 0 || sticky)
  | 3 => neg && (rem != 0 || sticky)
  | _ => half != 0 && decide (half ≤ rem)

/-- A magnitude m × 2^e (a little more when sticky) at quantum 2^q: the rounded multiple and whether it differs. -/
def quantise (dir : Nat) (neg : Bool) (m : Nat) (e q : Int) (sticky : Bool) : Nat × Bool :=
  if q ≤ e then (m * 2 ^ (e - q).toNat, sticky)
  else
    let sh := (q - e).toNat
    let n := m / 2 ^ sh
    let rem := m % 2 ^ sh
    let up := roundUp? dir neg (n % 2 == 1) rem (2 ^ (sh - 1)) sticky
    (n + b2n up, rem != 0 || sticky)

/-- Round a nonzero magnitude m × 2^e to a format: bits and flags (R210, R212, R213). A sticky value lies between m and m + 1,
and then m has more bits than the format's precision. -/
def Format.round (F : Format) (dir : Nat) (neg : Bool) (m : Nat) (e : Int) (sticky : Bool) : Nat × BitVec 5 :=
  let E := e + (bitLen m : Int) - 1
  let ended : Nat × BitVec 5 :=
    (F.sgn neg + (if dir = 1 ∨ (dir = 2 ∧ neg) ∨ (dir = 3 ∧ !neg) then F.maxBits else F.infBits), flagOF ||| flagNX)
  if F.maxQ + F.p < E then ended
  else
    let lowE := F.emin - F.p - 2
    let (m, e, sticky, E) := if E < lowE then (1, lowE, true, lowE) else (m, e, sticky, E)
    let q := E - (F.p - 1 : Int)
    let q' := if q < F.emin - (F.p - 1 : Int) then F.emin - (F.p - 1 : Int) else q
    let r := quantise dir neg m e q' sticky
    let u := quantise dir neg m e q sticky
    let tiny := decide (E + 1 < F.emin) || (decide (E + 1 = F.emin) && u.1 != 2 ^ F.p)
    let big := if F.maxQ ≤ q' then decide (F.maxM < r.1 * 2 ^ (q' - F.maxQ).toNat) else decide (F.maxM * 2 ^ (F.maxQ - q').toNat < r.1)
    if big then ended
    else
      let ex := (q' + (F.p - 1 : Int) + F.bias).toNat
      let bits := if r.1 < 2 ^ (F.p - 1) then r.1 else (ex - 1) * 2 ^ (F.p - 1) + r.1
      (F.sgn neg + bits, roundFlags false tiny r.2)

/-- The exact sum of two finite values (R357): magnitude, exponent, and the sign of a zero sum. -/
def addFin (dir : Nat) (n1 : Bool) (m1 : Nat) (e1 : Int) (n2 : Bool) (m2 : Nat) (e2 : Int) : Bool × Nat × Int :=
  let e := if e1 ≤ e2 then e1 else e2
  let x : Int := (m1 * 2 ^ (e1 - e).toNat : Nat)
  let y : Int := (m2 * 2 ^ (e2 - e).toNat : Nat)
  let s := (if n1 then -x else x) + (if n2 then -y else y)
  if s = 0 then ((if n1 == n2 && m1 == 0 && m2 == 0 then n1 else dir == 3), 0, e)
  else (decide (s < 0), s.natAbs, e)

/-- A finite exact value, rounded; zero keeps its sign. -/
def Format.ofFin (F : Format) (dir : Nat) (v : Bool × Nat × Int) : Nat × BitVec 5 :=
  if v.2.1 = 0 then (F.sgn v.1, 0) else F.round dir v.1 v.2.1 v.2.2 false

def Format.invalid (F : Format) : Nat × BitVec 5 := (F.nanBits, flagNV)
def Format.inf (F : Format) (neg : Bool) : Nat × BitVec 5 := (F.sgn neg + F.infBits, 0)

/-- a + c of values that are no NaN (R359). -/
def Format.add (F : Format) (dir : Nat) (a c : FVal) : Nat × BitVec 5 :=
  match a, c with
  | .inf n, .inf m => if n == m then F.inf n else F.invalid
  | .inf n, _ => F.inf n
  | _, .inf n => F.inf n
  | .fin n1 m1 e1, .fin n2 m2 e2 => F.ofFin dir (addFin dir n1 m1 e1 n2 m2 e2)
  | _, _ => F.invalid

/-- The same value with its sign flipped. -/
def FVal.flip : FVal → FVal
  | .nan b s => .nan b s
  | .inf n => .inf (!n)
  | .fin n m e => .fin (!n) m e

/-- a × c of values that are no NaN. -/
def Format.mul (F : Format) (dir : Nat) (a c : FVal) : Nat × BitVec 5 :=
  match a, c with
  | .inf n, .inf m => F.inf (n ^^ m)
  | .inf n, .fin m k _ => if k = 0 then F.invalid else F.inf (n ^^ m)
  | .fin m k _, .inf n => if k = 0 then F.invalid else F.inf (n ^^ m)
  | .fin n1 m1 e1, .fin n2 m2 e2 => F.ofFin dir (n1 ^^ n2, m1 * m2, e1 + e2)
  | _, _ => F.invalid

/-- a × b + c with one rounding, of values that are no NaN. -/
def Format.fma (F : Format) (dir : Nat) (a b c : FVal) : Nat × BitVec 5 :=
  match a, b with
  | .fin n1 m1 e1, .fin n2 m2 e2 =>
    (match c with
     | .fin n3 m3 e3 => F.ofFin dir (addFin dir (n1 ^^ n2) (m1 * m2) (e1 + e2) n3 m3 e3)
     | .inf n => F.inf n
     | .nan .. => F.invalid)
  | _, _ =>
    let zero := (match a with | .fin _ 0 _ => true | _ => false) || (match b with | .fin _ 0 _ => true | _ => false)
    if zero then F.invalid
    else
      let n := a.neg ^^ b.neg
      match c with
      | .inf m => if n == m then F.inf n else F.invalid
      | _ => F.inf n

/-- a / c of values that are no NaN. -/
def Format.div (F : Format) (dir : Nat) (a c : FVal) : Nat × BitVec 5 :=
  match a, c with
  | .inf _, .inf _ => F.invalid
  | .inf n, .fin m _ _ => F.inf (n ^^ m)
  | .fin n _ _, .inf m => (F.sgn (n ^^ m), 0)
  | .fin n1 m1 e1, .fin n2 m2 e2 =>
    if m2 = 0 then (if m1 = 0 then F.invalid else (F.sgn (n1 ^^ n2) + F.infBits, flagDZ))
    else if m1 = 0 then (F.sgn (n1 ^^ n2), 0)
    else
      let k := F.p + 3 + bitLen m2
      F.round dir (n1 ^^ n2) (m1 * 2 ^ k / m2) (e1 - e2 - k) (m1 * 2 ^ k % m2 != 0)
  | _, _ => F.invalid

/-- The integer square root, one bit at a time from bit i downwards. -/
def isqrtAux (x : Nat) : Nat → Nat → Nat
  | 0, r => r
  | i + 1, r => isqrtAux x i (if (r + 2 ^ i) * (r + 2 ^ i) ≤ x then r + 2 ^ i else r)
/-- The greatest r with r² ≤ x. -/
def isqrt (x : Nat) : Nat := isqrtAux x (bitLen x / 2 + 1) 0

/-- √c of a value that is no NaN. -/
def Format.sqrt (F : Format) (dir : Nat) (c : FVal) : Nat × BitVec 5 :=
  match c with
  | .inf n => if n then F.invalid else F.inf false
  | .fin n m e =>
    if m = 0 then (F.sgn n, 0)
    else if n then F.invalid
    else
      let k := 2 * (F.p + 3) + (if (e % 2 : Int) = 0 then 0 else 1)
      let x := m * 2 ^ k
      let r := isqrt x
      F.round dir false r ((e - k) / 2) (r * r != x)
  | _ => F.invalid

/-- 1 / √c of a value that is no NaN. -/
def Format.rsqrt (F : Format) (dir : Nat) (c : FVal) : Nat × BitVec 5 :=
  match c with
  | .inf n => if n then F.invalid else (0, 0)
  | .fin n m e =>
    if m = 0 then (F.sgn n + F.infBits, flagDZ)
    else if n then F.invalid
    else
      let (m, e) := if (e % 2 : Int) = 0 then (m, e) else (2 * m, e - 1)
      let k := F.p + 3 + bitLen m
      let r := isqrt (2 ^ (2 * k) / m)
      F.round dir false r (-(k : Int) - e / 2) (r * r * m != 2 ^ (2 * k))
  | _ => F.invalid

/-- Order of two values that are no NaN; −0 equals +0. -/
def cmpVal (a b : FVal) : Ordering :=
  let key := fun (v : FVal) (e : Int) => match v with
    | .fin n m f => let x : Int := (m * 2 ^ (f - e).toNat : Nat); if n then -x else x
    | _ => 0
  match a, b with
  | .inf n, .inf m => if n == m then .eq else if n then .lt else .gt
  | .inf n, _ => if n then .lt else .gt
  | _, .inf n => if n then .gt else .lt
  | .fin _ _ e1, .fin _ _ e2 =>
    let e := if e1 ≤ e2 then e1 else e2
    compare (key a e) (key b e)
  | _, _ => .eq

/-- Is a less than b when −0 stands below +0 (R360)? -/
def lessVal (a b : FVal) : Bool :=
  match cmpVal a b with
  | .lt => true
  | .gt => false
  | .eq => a.neg && !b.neg

/-- An operand read under the flush mode (R213). -/
def Format.flushIn (F : Format) (x : Nat) : Nat :=
  if x % 2 ^ (F.w - 1) < 2 ^ (F.p - 1) then F.sgn (x.testBit (F.w - 1)) else x
/-- A result written under the flush mode (R213). -/
def Format.flushOut (F : Format) (r : Nat × BitVec 5) : Nat × BitVec 5 :=
  let a := r.1 % 2 ^ (F.w - 1)
  if a ≠ 0 ∧ a < 2 ^ (F.p - 1) then (F.sgn (r.1.testBit (F.w - 1)), r.2 ||| flagUF ||| flagNX) else r

/-- The frame of R357 for one element: a signalling operand traps under SNT (none); NaN operands; flush; the function. -/
def Format.op (F : Format) (snt fz : Bool) (xs : List Nat) (f : List FVal → Nat × BitVec 5) : Option (Nat × BitVec 5) :=
  let xs := xs.map fun x => x % 2 ^ F.w
  let sig := xs.any fun x => (F.decode x).isSig
  if snt && sig then none
  else
    let xs := if fz then xs.map F.flushIn else xs
    match xs.find? fun x => (F.decode x).isNan with
    | some x => some (F.quiet x, if sig then flagNV else 0)
    | none =>
      let r := f (xs.map F.decode)
      some (if fz then F.flushOut r else r)

/-- The n-th value of a list of operands. -/
def nth (vs : List FVal) (n : Nat) : FVal := vs.getD n (.fin false 0 0)

/-- FMIN, FMAX (num false) and FMINN, FMAXN (num true) (R360). -/
def Format.minMax (F : Format) (snt fz isMax num : Bool) (a c : Nat) : Option (Nat × BitVec 5) :=
  let a := a % 2 ^ F.w
  let c := c % 2 ^ F.w
  let va := F.decode a
  let vc := F.decode c
  let nv : BitVec 5 := if va.isSig || vc.isSig then flagNV else 0
  let fa := if fz then F.flushIn a else a
  let fc := if fz then F.flushIn c else c
  if snt && (va.isSig || vc.isSig) then none
  else if va.isNan then some (if num && !vc.isNan then (fc, nv) else (F.quiet a, nv))
  else if vc.isNan then some (if num then (fa, nv) else (F.quiet c, nv))
  else
    let less := lessVal (F.decode fa) (F.decode fc)
    some (if less != isMax then fa else fc, nv)

/-- FSETP (R361): the outcome and its flag; none: trap. -/
def Format.compare (F : Format) (snt fz : Bool) (cmp : FCmp) (a c : Nat) : Option (Bool × BitVec 5) :=
  let a := a % 2 ^ F.w
  let c := c % 2 ^ F.w
  let va := F.decode (if fz then F.flushIn a else a)
  let vc := F.decode (if fz then F.flushIn c else c)
  let sig := va.isSig || vc.isSig
  let un := va.isNan || vc.isNan
  if snt && sig then none
  else
    let o := cmpVal va vc
    let quietNv := match cmp with | .lt | .le | .gt | .ge => true | _ => false
    let nv : BitVec 5 := if sig || (un && quietNv) then flagNV else 0
    let r := match cmp with
      | .eq => !un && o == .eq
      | .ne => !un && o != .eq
      | .lt => !un && o == .lt
      | .le => !un && o != .gt
      | .gt => !un && o == .gt
      | .ge => !un && o != .lt
      | .num => !un
      | .nan => un
      | .equ => un || o == .eq
      | .neu => un || o != .eq
      | .ltu => un || o == .lt
      | .leu => un || o != .gt
      | .gtu => un || o == .gt
      | .geu => un || o != .lt
    some (r, nv)

/-- FCLASS (R362). -/
def Format.classify (F : Format) (x : Nat) : Nat :=
  match F.decode (x % 2 ^ F.w) with
  | .nan _ s => if s then 1 else 2
  | .inf n => if n then 4 else 512
  | .fin n m _ =>
    if m = 0 then (if n then 32 else 64)
    else if m < 2 ^ (F.p - 1) then (if n then 16 else 128)
    else if n then 8 else 256

/-- A finite value rounded to an integer: its magnitude, and whether it changed. -/
def toIntegral (dir : Nat) (neg : Bool) (m : Nat) (e : Int) : Nat × Bool := quantise dir neg m e 0 false

/-- FRND (R363). -/
def Format.rnd (F : Format) (dir : Nat) (exact : Bool) (v : FVal) : Nat × BitVec 5 :=
  match v with
  | .inf n => F.inf n
  | .fin n m e =>
    let r := toIntegral dir n m e
    ((F.ofFin dir (n, r.1, 0)).1, if exact && r.2 then flagNX else 0)
  | _ => F.invalid

/-- FLDX (R364). -/
def Format.ldx (F : Format) (dir : Nat) (n : Int) (v : FVal) : Nat × BitVec 5 :=
  match v with
  | .inf s => F.inf s
  | .fin s m e => F.ofFin dir (s, m, e + n)
  | _ => F.invalid

/-- FXTX.exp: the word and its flags (R365). -/
def xtExp (v : FVal) : Word × BitVec 5 :=
  match v with
  | .nan .. => (0x80000000#32, flagNV)
  | .inf _ => (0x7FFFFFFF#32, flagNV)
  | .fin _ m e => if m = 0 then (0x80000000#32, flagNV) else (BitVec.ofInt 32 (e + (bitLen m : Int) - 1), 0)

/-- FXTX.mant of a value that is no NaN (R365). -/
def Format.xtMant (F : Format) (v : FVal) : Nat × BitVec 5 :=
  match v with
  | .inf n => F.inf n
  | .fin n m _ => if m = 0 then (F.sgn n, 0) else (F.ofFin 0 (n, m, 1 - (bitLen m : Int)))
  | _ => F.invalid

/-- A small integer in a format, exactly. -/
def Format.ofInt (F : Format) (dir : Nat) (x : Int) : Nat × BitVec 5 := F.ofFin dir (decide (x < 0), x.natAbs, 0)

/-! ### Conversion (R369 to R373) -/

/-- A NaN taken from one format to another (R370). -/
def convNan (S D : Format) (bits : Nat) : Nat :=
  let neg := bits.testBit (S.w - 1)
  if D.w = 8 then D.sgn neg + D.nanBits
  else
    let pay := bits % 2 ^ (S.p - 2)
    let pay := if S.p ≤ D.p then pay * 2 ^ (D.p - S.p) else pay / 2 ^ (S.p - D.p)
    D.sgn neg + D.infBits + 2 ^ (D.p - 2) + pay

/-- Float to float (R370); none: a trap. -/
def convFloat (S D : Format) (snt sat : Bool) (dir x : Nat) : Option (Nat × BitVec 5) :=
  match S.decode (x % 2 ^ S.w) with
  | .nan b sig => if snt && sig then none else some (convNan S D b, if sig then flagNV else 0)
  | .inf n =>
    some (if sat then (D.sgn n + D.maxBits, 0)
          else (D.sgn n + D.infBits, if D.hasInf then 0 else flagNV))
  | .fin n m e =>
    if m = 0 then some (D.sgn n, 0)
    else
      let r := D.round dir n m e false
      some (if sat && (r.2 &&& flagOF) != 0 then (D.sgn n + D.maxBits, r.2) else r)

/-- Float to integer of a range (R371); none: a trap. -/
def convToInt (S : Format) (snt : Bool) (dir x : Nat) (lo hi : Int) : Option (Int × BitVec 5) :=
  match S.decode (x % 2 ^ S.w) with
  | .nan _ sig => if snt && sig then none else some (0, flagNV)
  | .inf n => some (if n then lo else hi, flagNV)
  | .fin n m e =>
    -- a magnitude far above every range needs no exact rounding
    let r := if 200 < e + (bitLen m : Int) then (2 ^ 200, false)
             else toIntegral dir n m e
    let v : Int := if n then -(r.1 : Int) else r.1
    some (if v < lo then (lo, flagNV) else if hi < v then (hi, flagNV) else (v, if r.2 then flagNX else 0))

/-- Float to an MXINT8 code under scale E (R222, R373); none: a trap. -/
def convMxi8 (S : Format) (snt : Bool) (x E : Nat) : Option (Int × BitVec 5) :=
  match S.decode (x % 2 ^ S.w) with
  | .nan _ sig => if snt && sig then none else some (0, flagNV)
  | v =>
    if E = 255 then some (0, flagNV)
    else
      match v with
      | .inf n => some (if n then -127 else 127, flagOF ||| flagNX)
      | .fin n m e =>
        let e := e + 6 + 127 - E
        let r := if 200 < e + (bitLen m : Int) then (2 ^ 200, true) else toIntegral 0 n m e
        if 127 < r.1 then some (if n then -127 else 127, flagOF ||| flagNX)
        else some (if n then -(r.1 : Int) else r.1, if r.2 then flagNX else 0)
      | .nan .. => some (0, flagNV)

/-! ### Typed elements (R220 to R224) -/

/-- A BPN element read with k of its n planes (R220); x is the k-bit prefix. -/
def bpnVal (x n k : Nat) : Int :=
  let t := sextInt x k
  let s := n - k
  if s = 0 then t else t * (2 ^ s : Int) + (2 ^ (s - 1) : Int)

/-- A value of a block, under its scale, decoded to a target and rounded once to nearest even (R221). -/
def scaled (D : Format) (neg : Bool) (m : Nat) (e : Int) (scale : Option Nat) : Nat × BitVec 5 :=
  match scale with
  | none => D.ofFin 0 (neg, m, e)
  | some E => D.ofFin 0 (neg, m, e + E - 127)

/-- Decode an element of format FMT (1 BPN with `x` the value of R220; 2 MXINT8; 3 E4M3; 4 E5M2) to a target (R221 to R224). -/
def decodeTyped (D : Format) (fmt : Nat) (x : Int) (scale : Option Nat) : Nat × BitVec 5 :=
  if scale = some 255 then (D.nanBits, flagNV)
  else if fmt = 1 then scaled D (decide (x < 0)) x.natAbs 0 scale
  else if fmt = 2 then scaled D (decide (x < 0)) x.natAbs (-6) scale
  else
    let S := if fmt = 3 then fmtE4 else fmtE5
    match S.decode (x.toNat % 256) with
    | .nan _ sig => (D.nanBits, if sig then flagNV else 0)
    | .inf n => D.inf n
    | .fin n m e => if m = 0 then (D.sgn n, 0) else scaled D n m e scale

/-! ### Atomics (R218, R389) -/

/-- A floating-point ATOM or RED: round to nearest even, never flushed, no flag. -/
def floatAtom (F : Format) (op : AtomOp) (a b : Nat) : Nat :=
  match op with
  | .add => ((F.op false false [a, b] fun vs => F.add 0 (nth vs 0) (nth vs 1)).getD (0, 0)).1
  | .min => ((F.minMax false false false false a b).getD (0, 0)).1
  | .max => ((F.minMax false false true false a b).getD (0, 0)).1
  | _ => b

/-- The new value of an atomic; none: a .cas that fails writes nothing (R389). -/
def atomNew (op : AtomOp) (ty : AtomTy) (old a b : Nat) : Option Nat :=
  let w := if ty.wide then 64 else 32
  let a := a % 2 ^ w
  let b := b % 2 ^ w
  let sg := match ty with | .s32 | .s64 => true | _ => false
  let v : Nat → Int := fun x => if sg then sextInt x w else (x : Int)
  match ty with
  | .f32 => some (floatAtom fmt32 op old a)
  | .f64 => some (floatAtom fmt64 op old a)
  | _ =>
    match op with
    | .add => some ((old + a) % 2 ^ w)
    | .min => some (if v old ≤ v a then old else a)
    | .max => some (if v old ≤ v a then a else old)
    | .and => some (old &&& a)
    | .or => some (old ||| a)
    | .xor => some (old ^^^ a)
    | .exch => some a
    | .cas => if old = a then some b else none
    | .inc => some (if a ≤ old then 0 else old + 1)
    | .dec => some (if old = 0 ∨ a < old then a else old - 1)

/-! ### The matrix engine (R225 to R227) -/

/-- Exception counts of an operation: invalid, overflow, underflow, inexact. -/
abbrev Counts := Nat × Nat × Nat × Nat
def Counts.add (c : Counts) (f : BitVec 5) : Counts :=
  (c.1 + b2n (f.getLsbD 4), c.2.1 + b2n (f.getLsbD 2), c.2.2.1 + b2n (f.getLsbD 1), c.2.2.2 + b2n (f.getLsbD 0))

/-- The exact sum of the products of one chunk, rounded once to f32 (R225); `ps` are pairs of values. -/
def chunkSum (ps : List (FVal × FVal)) : Nat × BitVec 5 :=
  let bad := fun (p : FVal × FVal) =>
    p.1.isNan || p.2.isNan ||
    (match p.1, p.2 with
     | .inf _, .fin _ 0 _ => true
     | .fin _ 0 _, .inf _ => true
     | _, _ => false)
  let infs := (ps.filter fun p => match p.1, p.2 with | .inf _, _ => true | _, .inf _ => true | _, _ => false).map fun p => p.1.neg ^^ p.2.neg
  if ps.any bad || (infs.any id && infs.any fun b => !b) then (fmt32.nanBits, flagNV)
  else
    match infs with
    | n :: _ => fmt32.inf n
    | [] =>
      let sum := ps.foldl (fun (acc : Bool × Nat × Int) p =>
        match p.1, p.2 with
        | .fin n1 m1 e1, .fin n2 m2 e2 => addFin 0 acc.1 acc.2.1 acc.2.2 (n1 ^^ n2) (m1 * m2) (e1 + e2)
        | _, _ => acc) (false, 0, 0)
      fmt32.ofFin 0 sum

/-- C + Sr in f32 (R225): a NaN gives the canonical quiet NaN, invalid only for ∞ − ∞. -/
def accAdd (c sr : Nat) : Nat × BitVec 5 :=
  let vc := fmt32.decode c
  let vs := fmt32.decode sr
  if vc.isNan || vs.isNan then (fmt32.nanBits, 0) else fmt32.add 0 vc vs

/-! ### FP64 on the INT8 path (R231, R232, R374, R375) -/

/-- e(x) of a nonzero magnitude (R231). -/
def sliceExp (m : Nat) (e : Int) : Int := e + bitLen m

/-- Slice T of |c| × 2^(−a), with its sign (R374). -/
def sliceVal (t : Nat) (neg : Bool) (m : Nat) (e a : Int) : Int :=
  let sh := e - a + 7 * t
  let y := if 0 ≤ sh then (if 7 ≤ sh then 0 else m * 2 ^ sh.toNat % 128)
           else if sh < -2000 then 0 else m / 2 ^ (-sh).toNat % 128
  if neg then -(y : Int) else y

/-- DRECON (R375): dold is none under .first. -/
def dreconVal (dold : Option Nat) (m : Nat) (a b c : Int) : Nat × BitVec 5 :=
  if b = 0x7FFFFFFF ∨ c = 0x7FFFFFFF then (fmt64.nanBits, flagNV)
  else
    match dold with
    | some d =>
      if (fmt64.decode d).isNan then (fmt64.nanBits, 0)
      else
        let t := if b = -0x80000000 ∨ c = -0x80000000 then (0, 0)
                 else fmt64.ofFin 0 (decide (a < 0), a.natAbs, b + c - 7 * m)
        let r := fmt64.add 0 (fmt64.decode d) (fmt64.decode t.1)
        (r.1, t.2 ||| r.2)
    | none =>
      if b = -0x80000000 ∨ c = -0x80000000 then (0, 0)
      else fmt64.ofFin 0 (decide (a < 0), a.natAbs, b + c - 7 * m)

end Sys2Proof.Machine
end

