-- ==== Sys2Proof/Machine/MemOps.lean ====
section
/-! DEFINITION. MemOps.lean: loads, stores, atomics, fences, monitors and polls, prefetch and cache control (R376 to R393),
full/empty accesses (R384, R385) and the program queues' requests (R394, R395). -/
namespace Sys2Proof.Machine

/-! ### Addresses and data -/

/-- Effective address of an access word: base plus offset, in 64 or 32 bits (R377). -/
def Env.ea (e : Env) (wide g : Bool) (a : RegIx) (off : BitVec 9) : Nat :=
  if wide then (e.a64 g a + off.signExtend 64).toNat else (e.a32 g a + off.signExtend 32).toNat

/-- The bytes of a store's data register (R381). -/
def Env.data (e : Env) (w : Width) (d : RegIx) : List Byte :=
  match w with
  | .n64 => toLE 8 (e.ln.reg64 d.toNat).toNat
  | .b128 => if d = 511#9 then List.replicate 16 0 else (List.range 4).flatMap fun i => toLE 4 (e.ln.reg (d.toNat + i)).toNat
  | w => toLE w.bytes (e.ln.reg d.toNat).toNat

/-- No result yet: it comes with the answer of memory. -/
def pending : LaneRes := .done [] [] 0

/-! ### Local space (R172 to R174) -/

def locKey (prot : Bool) (l a : Nat) : Nat := laneNo prot l * 65536 + a

/-- Units of a local access of n bytes at a: (local address, bytes, index of the register). -/
def locUnits (a n : Nat) : List (Nat × Nat × Nat) := if n ≤ 4 then [(a, n, 0)] else (List.range (n / 4)).map fun i => (a + 4 * i, 4, i)

/-- Check every unit of a local access; the first that fails gives the lane's outcome. -/
def State.checkLocal (s : State) (c : Ctl) (l : Nat) (acc : Acc) : List (Nat × Nat × Nat) → Except LaneRes (List (Leaf × Tgt × Nat)) × State
  | [] => (.ok [], s)
  | u :: us =>
    let va := s.frameVa c.g l u.1
    match s.checkFor c.g c.gid l va u.2.1 acc with
    | (.ok leaf tgt a, s) =>
      (match s.checkLocal c l acc us with
       | (.ok r, s) => (.ok ((leaf, tgt, a) :: r), s)
       | q => q)
    | (ch, s) => (.error (ch.res acc va), s)

/-- Local stores of a group that are on their way to memory: the entries of its spill forwarding table (R174). A store that goes into L1
is there at once, and takes none. -/
def State.spills (s : State) (gid : Nat) : List (Nat × Txn) := (listed s.txns).filter fun p => p.2.gid == gid && p.2.spill

/-- Entries of the spill forwarding table in use: one for each local store. -/
def State.spillsUsed (s : State) (gid : Nat) : Nat := (((s.spills gid).map fun p => p.2.word).eraseDups).length

/-- The byte that the youngest of them holds for lane l at a frame address. -/
def State.spillByte (s : State) (gid l va : Nat) : Option Byte :=
  (((s.spills gid).flatMap fun p => p.2.parts).filter fun q => q.lane == l && decide (q.va ≤ va) && decide (va < q.va + q.len)).getLast?.bind
    fun q => q.data[va - q.va]?

/-- The bytes of a unit that the thread's own stores hold: in L1, or else on their way (R174). -/
def State.dirtyLocal (s : State) (gid : Nat) (prot : Bool) (l a va n : Nat) : List (Option Byte) :=
  match s.group gid with
  | none => []
  | some g => (List.range n).map fun i =>
    match Sparse.get none g.loc (locKey prot l (a + i)) with
    | some x => some x.2
    | none => s.spillByte gid l (va + i)

/-- A local load (R174): bytes the thread has stored come from its own stores, the others from its frame. -/
def State.loadLocal (s : State) (c : Ctl) (l : Nat) (w : Width) (o : Ord) (d : RegIx) (a : Nat) : LaneRes × State :=
  let us := locUnits a w.bytes
  match s.checkLocal c l .load us with
  | (.error r, s) => (r, s)
  | (.ok ps, s) =>
    let loc := us.map fun u => s.dirtyLocal c.gid c.prot l u.1 (s.frameVa c.g l u.1) u.2.1
    if loc.all fun o => o.all (·.isSome) then (.done (widthWrites w d.toNat (loc.flatMap fun o => o.map (·.getD 0))) [] 0, s)
    else
      (pending, ((us.zip ps).zip loc).foldl (fun (s : State) q =>
        let u := q.1.1
        let p := q.1.2
        s.send c l p.1 p.2.1 p.2.2 (s.frameVa c.g l u.1) u.2.1
          (.load (if w.bytes ≤ 4 then w else .b32) (if d = 511#9 then d else d + BitVec.ofNat 9 u.2.2))
          (q.2.map (·.getD 0)) (q.2.map (·.isSome)) o .thr) s)

/-- Local bytes of a lane in the group's L1 take values: (local address, cell, byte). -/
def Group.setLocal (g : Group) (prot : Bool) (l : Nat) (ws : List (Nat × Nat × Byte)) : Group :=
  { g with loc := ws.foldl (fun m w => Sparse.set none m (locKey prot l w.1) (some (w.2.1, w.2.2))) g.loc }

/-- Dirty local lines of a group reach its frame (R173): those of which the test holds, once no older local store is on its way. A line that
another core owns, or that waits for acknowledgements, is recalled first (R179). -/
def State.drainLines (s : State) (gid : Nat) (f : Nat → Bool) : State :=
  match s.group gid with
  | none => s
  | some g =>
    let own := g.loc.filterMap fun p => match p.2 with | some x => if f (x.1 / 128) then some x else none | none => none
    if own.isEmpty || !(s.spills gid).isEmpty then s
    else
      let held := ((own.map fun x => x.1 / 128).eraseDups).filter fun ln => !s.lineFree none ln
      let ws := own.filter fun x => !held.contains (x.1 / 128)
      let s := (held.foldl (fun (s : State) ln => s.recall ln) s).agentWrite (srcCore g.core) (wbId g.core) ws
      match s.group gid with
      | some g => s.setGroup gid { g with loc := keep g.loc fun _ v => match v with | some x => !ws.contains x | none => false }
      | none => s

/-- All dirty local lines of a group reach its frame (R173). -/
def State.drainLocal (s : State) (gid : Nat) : State := s.drainLines gid fun _ => true

/-- Does L1 take a local store to this place: memory of this device, in a view, of a page with LVL 2 (R23, R173, R175, R180)? -/
def State.l1Takes (s : State) (core : Nat) (p : Leaf × Tgt × Nat) : Bool := decide (p.2.1 = .cell) && p.1.lvl == 2 && !s.l1Empty core

/-- Does L1 hold a byte of these units that it would not take now? It is written to the frame first. -/
def State.l1Leftover (s : State) (c : Ctl) (l : Nat) (qs : List ((Nat × Nat × Nat) × (Leaf × Tgt × Nat))) : Bool :=
  match s.group c.gid with
  | some g => qs.any fun q => !s.l1Takes c.g.core q.2 && (List.range q.1.2.1).any fun i => (Sparse.get none g.loc (locKey c.prot l (q.1.1 + i))).isSome
  | none => false

/-- A local store (R173 to R175): held by the core's L1 for the thread alone until the group leaves the core, or sent on its way when L1
does not take it. -/
def State.storeLocal (s : State) (c : Ctl) (l : Nat) (data : List Byte) (a : Nat) : LaneRes × State :=
  let us := locUnits a data.length
  match s.checkLocal c l .store us with
  | (.error r, s) => (r, s)
  | (.ok ps, s) =>
    if s.l1Leftover c l (us.zip ps) then (.stay, s.drainLocal c.gid)
    else
      (pending, (us.zip ps).foldl (fun (s : State) q =>
        let u := q.1
        let bs := (data.drop (u.1 - a)).take u.2.1
        match s.l1Takes c.g.core q.2, s.group c.gid with
        | true, some g =>
          s.setGroup c.gid (g.setLocal c.prot l (((List.range bs.length).zip bs).map fun (b : Nat × Byte) => (u.1 + b.1, q.2.2.2 + b.1, b.2)))
        | _, _ => s.send c l q.2.1 q.2.2.1 q.2.2.2 (s.frameVa c.g l u.1) u.2.1 .store bs [] .plain .thr true) s)

/-- Is an older write of the thread to one of n bytes at a place on its way (R194)? -/
def State.ownPending (s : State) (gid l : Nat) (tgt : Tgt) (a n : Nat) : Bool :=
  (s.threadTxns gid l).any fun p => p.2.tgt == tgt && p.2.parts.any fun q => q.lane == l && q.op.writes &&
    q.ranges.any fun r => decide (r.1 < a + n) && decide (a < r.1 + r.2)

/-- The bytes of local units as the thread reads them now: its own stores' bytes, else those of its frame; or how the lane fares while
they cannot be read. -/
def State.localNow (s : State) (c : Ctl) (l acc : Nat) :
    List ((Nat × Nat × Nat) × (Leaf × Tgt × Nat)) → Except LaneRes (List Byte) × State
  | [] => (.ok [], s)
  | q :: qs =>
    let va := s.frameVa c.g l q.1.1
    let own := s.dirtyLocal c.gid c.prot l q.1.1 va q.1.2.1
    let x := q.2.2.2
    let gap := (List.range own.length).filter fun i => (own.getD i none).isNone
    let one : Except LaneRes (List Byte) × State :=
      match q.2.2.1, gap with
      | _, [] => (.ok (own.map (·.getD 0)), s)
      | .cell, _ =>
        if s.ownPending c.gid l .cell x q.1.2.1 then (.error .stay, s)
        else if !s.lineFree none (x / 128) then (.error .stay, s.recall (x / 128))
        else
          match gap.find? fun i => s.poisoned (x + i) with
          | some i => (.error (s.poisonFault noCore (x + i) 1 acc (va + i)), s)
          | none => (.ok ((List.range own.length).map fun i => (own.getD i none).getD (s.cell (x + i))),
              s.requestLine c.g.core q.2.1.lvl q.2.1.evp (x / 128) (secsOf x q.1.2.1))
      | tgt, _ =>
        if s.ownPending c.gid l tgt x q.1.2.1 then (.error .stay, s)
        else
        match s.readFar c.g c.gid l q.2.1 tgt x va q.1.2.1 acc with
        | (.bytes bs, s) => (.ok ((List.range own.length).map fun i => (own.getD i none).getD (bs.getD i 0)), s)
        | (_, s) => (.error .stay, s)
    match one with
    | (.ok bs, s) =>
      (match s.localNow c l acc qs with
       | (.ok r, s) => (.ok (bs ++ r), s)
       | e => e)
    | e => e

/-- The new value of a local atomic is stored unit by unit: into L1, or to its frame (R173, R389). -/
def State.putLocal (s : State) (c : Ctl) (l : Nat) (v : Nat) : List ((Nat × Nat × Nat) × (Leaf × Tgt × Nat)) → State
  | [] => s
  | q :: qs =>
    let bs := toLE q.1.2.1 (v / 2 ^ (32 * q.1.2.2))
    let s := match s.l1Takes c.g.core q.2, s.group c.gid with
      | true, some g =>
        s.setGroup c.gid (g.setLocal c.prot l (((List.range bs.length).zip bs).map fun (b : Nat × Byte) => (q.1.1 + b.1, q.2.2.2 + b.1, b.2)))
      | _, _ => s.send c l q.2.1 q.2.2.1 q.2.2.2 (s.frameVa c.g l q.1.1) q.1.2.1 .store bs [] .plain .thr
    s.putLocal c l v qs

/-- An atomic on local space (R389): performed on the thread's frame in L1, or at the homes of its words where L1 does not take them; a RED
that meets poison is held there (R189). A frame on a Clovar node takes a 4-byte atomic at the remote home (R206). For 8 bytes, which lie in
two lines, there is no such request: the thread, which alone reaches its frame, reads both words and stores them (DESIGN CHOICE, log entry
124). d is none for RED. -/
def State.atomLocal (s : State) (c : Ctl) (l : Nat) (op : AtomOp) (ty : AtomTy) (d : Option RegIx) (x y : DWord) (a : Nat) : LaneRes × State :=
  let n := if ty.wide then 8 else 4
  let us := locUnits a n
  match s.checkLocal c l .atomic us with
  | (.error r, s) => (r, s)
  | (.ok ps, s) =>
    let qs := us.zip ps
    let va := s.frameVa c.g l a
    -- an earlier local store of the thread that has not left the table
    if (s.spills c.gid).any fun p => p.2.parts.any fun q => q.lane == l && us.any fun u =>
        decide (q.va < s.frameVa c.g l u.1 + 4) && decide (s.frameVa c.g l u.1 < q.va + q.len) then (.stay, s)
    else if s.l1Leftover c l qs then (.stay, s.drainLocal c.gid)
    else
      let atHome : Option (Leaf × Tgt × Nat × AccOp) := match ps with
        | [p] => some (p.1, p.2.1, p.2.2, match d with | some d => .atom op ty x y d | none => .red op ty x y)
        | [p, q] => if p.2.1 = .cell ∧ q.2.1 = .cell then some (p.1, .cell, p.2.2, .pair op ty x y d q.2.2) else none
        | _ => none
      let go := fun (s : State) (h : Leaf × Tgt × Nat × AccOp) =>
        (pending, s.send c l { h.1 with wp := false } h.2.1 h.2.2.1 va 4 h.2.2.2 [] [] .rlx .thr)
      let inL1 := ps.all fun p => s.l1Takes c.g.core p
      match inL1, atHome with
      | false, some h => go s h
      | _, _ =>
        match s.localNow c l 2 qs, d, atHome with
        | (.error (.pfault ..), s), none, some h =>
          -- its own bytes in L1 reach the frame before it
          (match s.group c.gid with
           | some g =>
             if us.any fun u => (List.range u.2.1).any fun i => (Sparse.get none g.loc (locKey c.prot l (u.1 + i))).isSome then (.stay, s.drainLocal c.gid)
             else go s h
           | none => (.stay, s))
        | (.error r, s), _, _ => (r, s)
        | (.ok bs, s), _, _ =>
          let old := leNat bs
          (.done (match d with | some d => valWrites ty.wide d.toNat old | none => []) [] 0,
            match atomNew op ty old x.toNat y.toNat with
            | some v => s.putLocal c l v qs
            | none => s)

/-! ### Evictions (R173, R178, R202) -/

/-- L1 evicts a dirty line: a release-marked one as by a recall. -/
def State.evictLine (s : State) (core line : Nat) : State :=
  match Sparse.get none s.dirtyLines (dirtyLineKey core line) with
  | some d => if d.release then s.writeBack core d.ctx else if s.lineHeld line then s else s.writeBackLine core line
  | none => s

/-! ### Waits of releases and fences (R199 to R201, R57, R66) -/

/-- The context of a group's launch. -/
def State.ctxOf (s : State) (g : Group) : Nat := (s.rcd g.launch).ctx

/-- When the word now tried began to wait for its release, if it has. -/
def State.began (s : State) (g : Group) : Option Nat :=
  match g.behind with
  | some b => if b.1 = s.cur.pc ∧ b.2.1 = s.cur.lanes then some b.2.2 else none
  | none => none

/-- Are a release's waits done in lane l (R200)? `l1` says that its line is written into L1, or that it is a scratch or local access.
The stores of other threads that it follows are those on their way when it began to wait (R198). -/
def State.released (s : State) (gid l core k : Nat) (sc : Scope) (l1 : Bool) : Bool :=
  if l1 && coreScope sc then (s.coreDeps gid l).isEmpty
  else
    let b := (s.group gid).bind s.began
    (s.threadTxns gid l).isEmpty && s.cleanTo core k (b.getD s.next) && !((s.coreWrites core k).any fun i => decide (i < b.getD s.next)) &&
    (sc != .sys || b.isSome || (s.hostQuiet k 0 && s.hostQuiet k 1))

/-- The word begins to wait for what it follows, once; at system scope zero-length reads go behind the context's stores to host memory (R57). -/
def State.beginWait (s : State) (c : Ctl) (ls : List Nat) (sc : Scope) : State :=
  match s.group c.gid with
  | none => s
  | some g =>
    if (s.began g).isSome then s
    else
      let s := s.setGroup c.gid { g with behind := some (s.cur.pc, s.cur.lanes, s.next) }
      if sc = .sys then
        let proto : Txn := { core := g.core, gid := c.gid, ctx := s.ctxOf g, launch := g.launch, tgt := .aper, line := 0, parts := [], pc := c.pc }
        ls.foldl (fun (s : State) l => (s.zeroReads l proto).2) s
      else s

/-- What a waiting release of some lanes sets going: write-back of the lines that were dirty when it began to wait, and zero-length reads,
once. -/
def State.pushRelease (s : State) (c : Ctl) (ls : List Nat) (sc : Scope) (l1 : Bool) : State :=
  if (l1 && coreScope sc) || ls.isEmpty then s
  else
    let s := s.beginWait c ls sc
    s.writeBackTo c.g.core (s.ctxOf c.g) (((s.group c.gid).bind s.began).getD s.next)

/-- A word whose active lanes all release before it acts (`on` says which lanes do). -/
def relOps (o : WordOps) (sc : Scope) (l1 : Bool) (on : Ctl → Nat → State → Bool) : WordOps :=
  { o with
    ready := fun c s => o.ready c s && (lanesOf c.act).all fun l => !on c l s || s.released c.gid l c.g.core (s.ctxOf c.g) sc l1
    wait := fun c s => (o.wait c s).pushRelease c ((lanesOf c.act).filter fun l => on c l s) sc l1 }

/-- A release at system scope by a thread whose remote store failed faults with LINK_LOST, once (R66). -/
def State.lostLink (s : State) (gid l : Nat) : Option State :=
  match s.group gid with
  | some g => if (g.lane l).linkLost then some (s.setGroup gid (g.setLane l { g.lane l with linkLost := false })) else none
  | none => none

/-! ### LD and ST (R381) -/

/-- Is the effective address one of a scratchpad, or local? -/
def coreEa (sp : Space) (ea : Nat) : Bool :=
  match sp with
  | .scr | .cscr | .loc => true
  | .gen => decide (0x01FFFD0000000000 ≤ ea)
  | _ => false

/-- Is it local? -/
def localEa (sp : Space) (ea : Nat) : Bool :=
  match sp with
  | .loc => true
  | .gen => decide (0x01FFFD0000000000 ≤ ea) && decide (ea < 0x01FFFE0000000000)
  | _ => false

/-- A load from a global address: checked, then sent. -/
def State.loadGlobal (s : State) (c : Ctl) (l : Nat) (w : Width) (o : Ord) (sc : Scope) (ef : Bool) (d : RegIx) (va : Nat) : LaneRes × State :=
  match s.checkFor c.g c.gid l va w.bytes .load with
  | (.ok leaf tgt a, s) => (pending, s.send c l (leaf.hinted ef) tgt a va w.bytes (.load w d) [] [] o sc)
  | (ch, s) => (ch.res .load va, s)

/-- A constant-space load through the constant cache (R170). -/
def State.loadConst (s : State) (c : Ctl) (l : Nat) (w : Width) (ef : Bool) (d : RegIx) (va : Nat) : LaneRes × State :=
  match s.checkFor c.g c.gid l va w.bytes .load with
  | (.ok _ .cell _, s) =>
    (match s.readPath false c.gid va w.bytes ef with
     | (.bytes bs, s) => (.done (widthWrites w d.toNat bs) [] 0, s)
     | (.no r, s) => (r, s)
     | (.wait, s) => (.stay, s))
  | (.ok leaf tgt a, s) => (pending, s.send c l leaf tgt a va w.bytes (.load w d) [] [] .plain .team)
  | (ch, s) => (ch.res .load va, s)

/-- A load in one lane. -/
def State.loadLane (s : State) (c : Ctl) (l : Nat) (sp : Space) (w : Width) (o : Ord) (sc : Scope) (ef : Bool) (d : RegIx) (ea : Nat) :
    LaneRes × State :=
  match s.locate c.g sp ea w.bytes w.bytes .load with
  | .error r => (r, s)
  | .ok (.scr uid off _) => (.done (widthWrites w d.toNat (s.readScratch uid off w.bytes)) [] 0, s)
  | .ok (.loc a) => s.loadLocal c l w o d a
  | .ok (.glb va) => if sp = .cst then s.loadConst c l w ef d va else s.loadGlobal c l w o sc ef d va

def execLd (h : Hdr) (sp : Space) (w : Width) (o : Ord) (sc : Scope) (hint : Hint) (g : Bool) (d a : RegIx) (off : BitVec 9)
    (s : State) : Host.Outcome State Fault Refusal :=
  s.word (.ld h sp w o sc hint g d a off) h { mem := true } fun c l s =>
    s.loadLane c l sp w o sc (hint == .ef) d ((c.env l).ea sp.wide g a off)

/-- A store in one lane. -/
def State.storeLane (s : State) (c : Ctl) (l : Nat) (sp : Space) (o : Ord) (sc : Scope) (data : List Byte) (ea : Nat) :
    LaneRes × State :=
  match s.locate c.g sp ea data.length data.length .store with
  | .error r => (r, s)
  | .ok (.scr uid off _) => (pending, s.writeScratch uid off data)
  | .ok (.loc a) => s.storeLocal c l data a
  | .ok (.glb va) =>
    match s.checkFor c.g c.gid l va data.length .store with
    | (.ok leaf tgt a, s) =>
      (match (if tgt.scopeOf sc = .sys && releases o (c.g.lane l) then s.lostLink c.gid l else none) with
       | some s => (trapAt 0x2B 1 va, s)
       | none => (pending, s.send c l leaf tgt a va data.length .store data [] o sc))
    | (ch, s) => (ch.res .store va, s)

/-- Does a lane's scratch or local access release, and so wait in the core for what its named scope asks (R200, R380)? -/
def scratchRel (sp : Space) (o : Ord) (ea : Ctl → Nat → Nat) (c : Ctl) (l : Nat) (_ : State) : Bool :=
  releases o (c.g.lane l) && coreEa sp (ea c l)

/-- A local store waits for an entry of its group's spill forwarding table (R174). -/
def spillReady (sp : Space) (ea : Ctl → Nat → Nat) (c : Ctl) (s : State) : Bool :=
  !((lanesOf c.act).any fun l => localEa sp (ea c l)) || decide (s.spillsUsed c.gid < 16)

def execSt (h : Hdr) (sp : Space) (w : Width) (o : Ord) (sc : Scope) (hint : Hint) (g : Bool) (d a : RegIx) (off : BitVec 9)
    (s : State) : Host.Outcome State Fault Refusal :=
  s.word (.st h sp w o sc hint g d a off) h
    (relOps { mem := true, ready := spillReady sp fun c l => (c.env l).ea sp.wide g a off
              same := some fun c l => [(c.env l).ea sp.wide g a off, leNat ((c.env l).data w d)] } sc true
      (scratchRel sp o fun c l => (c.env l).ea sp.wide g a off)) fun c l s =>
    s.storeLane c l sp o sc ((c.env l).data w d) ((c.env l).ea sp.wide g a off)

/-! ### Typed loads (R184, R185, R382) -/

/-- The element's value from its bytes (R220, R222, R223). -/
def typedElement (fmt pl k n : Nat) (bs : List Byte) : Int :=
  if fmt = 1 then bpnVal (bs.foldl (fun x b => 2 * x + b2n (b.getLsbD (n % 8))) 0) pl k
  else if fmt = 2 then sextInt (leNat bs) 8
  else (leNat bs : Int)

def execLdTyp (h : Hdr) (f32 : Bool) (hint : Hint) (g : Bool) (k : BitVec 3) (d a : RegIx) (off : BitVec 9) (s : State) :
    Host.Outcome State Fault Refusal :=
  s.word (.ldTyp h f32 hint g k d a off) h { mem := true } fun c l s =>
    let ea := (c.env l).ea true g a off
    if windowBase ≤ ea then (trapAt 0x26 0 ea, s)
    else
      match s.checkFor c.g c.gid l ea 1 .load with
      | (.ok leaf tgt _, s) =>
        (match typedBytes leaf.fmt leaf.pl leaf.blk (k.toNat + 1) (ea % 65536) with
         | .error code => (trapAt code 0 ea, s)
         | .ok (bs, sc) =>
           let sub := leaf.phys (ea / 65536 * 65536)
           let cells := ((sc.toList ++ bs).filterMap fun o => (s.viewOf (sub + o)).map fun v => v.2.2)
           let proto : Txn :=
             { core := c.g.core, gid := c.gid, ctx := s.ctxOf c.g, launch := c.g.launch, tgt := tgt,
               line := cells.getLastD 0 / 128, parts := [], lvl := leaf.lvl, evp := (leaf.hinted (hint == .ef)).evp, pc := c.pc, word := c.word }
           (pending, s.sendPart proto
             { lane := l, addr := sub, va := ea, len := 1, level := leaf.level
               op := .typed (k.toNat + 1) leaf.pl f32 leaf.fmt leaf.blk (ea % 65536) d }))
      | (ch, s) => (ch.res .load ea, s)

/-! ### Full/empty accesses (R176, R384, R385) -/

/-- Parked lanes of a granule: (age, group, lane, wants full, keeps). -/
def State.granParked (s : State) (uid gran : Nat) : List (Nat × Nat × Nat × Bool × Bool) :=
  (listed s.groups).flatMap fun p => lanes32.filterMap fun l =>
    match (p.2.lane l).park with
    | .fullBit t g want keep => if t = uid ∧ g = gran ∧ !(p.2.lane l).ready then some ((p.2.lane l).age, p.1, l, want, keep) else none
    | _ => none

/-- A lane's release condition has been met (R152). Under PROT both copies of the visible lane. -/
def State.markReady (s : State) (gid l : Nat) : State :=
  match s.group gid with
  | none => s
  | some g =>
    let f := fun (g : Group) (l : Nat) => g.setLane l { g.lane l with ready := true }
    s.setGroup gid (if (s.rcd g.launch).blk.prot then f (f g (l / 2 * 2)) (l / 2 * 2 + 1) else f g l)

/-- A full/empty bit changes: parked lanes are released in the order of R384. -/
def State.setFull (s : State) (uid gran : Nat) (b : Bool) : State :=
  match s.team uid with
  | none => s
  | some t =>
    if Sparse.get false t.full gran = b then s
    else
      let s := s.setTeam uid { t with full := Sparse.set false t.full gran b }
      let ps := s.granParked uid gran
      let first := leastBy (fun (x y : Nat × Nat × Nat × Bool × Bool) => decide (x.1 < y.1))
      let one := fun (s : State) (o : Option (Nat × Nat × Nat × Bool × Bool)) => match o with | some p => s.markReady p.2.1 p.2.2.1 | none => s
      if b then
        let s := (ps.filter fun p => p.2.2.2.1 && p.2.2.2.2).foldl (fun s p => s.markReady p.2.1 p.2.2.1) s
        one s (first (ps.filter fun p => p.2.2.2.1 && !p.2.2.2.2))
      else one s (first (ps.filter fun p => !p.2.2.2.1))

def spaceOf (clu : Bool) : Space := if clu then .cscr else .scr

def execLdf (h : Hdr) (clu : Bool) (w : Width) (keep : Bool) (d a : RegIx) (off : BitVec 9) (s : State) :
    Host.Outcome State Fault Refusal :=
  s.word (.ldf h clu w keep d a off) h { mem := true } fun c l s =>
    match s.locate c.g (spaceOf clu) ((c.env l).ea false false a off) w.bytes w.bytes .load with
    | .ok (.scr uid o _) =>
      (match s.team uid with
       | some t =>
         if Sparse.get false t.full (o / 16) then
           (.done (widthWrites w d.toNat (t.bytes uid o w.bytes)) [] 0, if keep then s else s.setFull uid (o / 16) false)
         else (.park (.fullBit uid (o / 16) true keep), s)
       | none => (badOperand, s))
    | .ok _ => (badOperand, s)
    | .error r => (r, s)

/-- Scope at which a scratch access of this space releases (R384). -/
def scrScope (clu : Bool) : Scope := if clu then .clu else .team

def execStf (h : Hdr) (clu : Bool) (w : Width) (d a : RegIx) (off : BitVec 9) (s : State) : Host.Outcome State Fault Refusal :=
  s.word (.stf h clu w d a off) h
    (relOps { mem := true, same := some fun c l => [(c.env l).ea false false a off, leNat ((c.env l).data w d)] } (scrScope clu) (!clu)
      fun _ _ _ => true) fun c l s =>
    match s.locate c.g (spaceOf clu) ((c.env l).ea false false a off) w.bytes w.bytes .store with
    | .ok (.scr uid o _) =>
      (match s.team uid with
       | some t =>
         if Sparse.get false t.full (o / 16) then (.park (.fullBit uid (o / 16) false false), s)
         else (pending, (s.writeScratch uid o ((c.env l).data w d)).setFull uid (o / 16) true)
       | none => (badOperand, s))
    | .ok _ => (badOperand, s)
    | .error r => (r, s)

def execFeinit (h : Hdr) (clu full : Bool) (a : RegIx) (n : Kind) (s : State) : Host.Outcome State Fault Refusal :=
  s.word (.feinit h clu full a n) h (relOps { mem := true } (scrScope clu) (!clu) fun _ _ _ => full) fun c l s =>
    let e := c.env l
    let n := (e.kind n).toInt
    match s.locate c.g (spaceOf clu) (e.a32 false a).toNat 0 16 .load with
    | .ok (.scr uid o _) =>
      (match s.team uid with
       | some t =>
         if n < 0 then (badOperand, s)
         else if s.scrBytes t < o + 16 * n.toNat then (trapAt 0x27 0 (e.a32 false a).toNat, s)
         else (pending, (List.range n.toNat).foldl (fun s i => s.setFull uid (o / 16 + i) full) s)
       | none => (badOperand, s))
    | .ok _ => (badOperand, s)
    | .error r => (r, s)

/-! ### Prefetch and cache control (R386, R387) -/

/-- PREF changes no value and never faults; one that reaches the home is counted (R386). -/
def execPref (h : Hdr) (sp : Space) (lvl : PrefLvl) (g : Bool) (a : RegIx) (off : BitVec 9) (s : State) :
    Host.Outcome State Fault Refusal :=
  s.word (.pref h sp lvl g a off) h { mem := true } fun c l s =>
    let ea := (c.env l).ea true g a off
    if windowBase ≤ ea then (pending, s)
    else
      let k := s.ctxOf c.g
      match s.checkRecall c.g.core k ea 1 .load 12 with
      | (.ok leaf .cell x, s) =>
        let s := s.fillTlb c.g.core k ea leaf
        if s.poisoned x || !s.lineFree none (x / 128) then (pending, s)
        else if sp = .cst then
          (match s.cacheHit false c.g.core k x 1 with
           | (some _, s) => (pending, s)
           | (none, s) => (pending, (s.cacheRead false leaf.lvl leaf.evp c.g.core k x 1).2))
        else if lvl = .llc && (s.cur.counted.contains (x / 128) || s.l2Holds (c.g.core / 24) (x / 128) (secsOf x 1)) then (pending, s)
        else if lvl = .llc then
          (pending, { s.count (srcCore c.g.core) x with cur := { s.cur with counted := x / 128 :: s.cur.counted } })
        else (pending, s.requestLine c.g.core leaf.lvl leaf.evp (x / 128) (secsOf x 1))
      | (_, s) => (pending, s)

/-- Groups of a context on a core. -/
def State.ctxGroups (s : State) (core k : Nat) : List (Nat × Group) :=
  (s.residents core).filter fun p => (s.rcd p.2.launch).ctx == k

/-- CCTL.wb completes when no line of the context is dirty on the core (R387). -/
def execCctlWb (h : Hdr) (s : State) : Host.Outcome State Fault Refusal :=
  s.word (.cctlWb h) h
    { once := true
      ready := fun c s => c.act == 0 ||
        (s.clean c.g.core (s.ctxOf c.g) && (s.ctxGroups c.g.core (s.ctxOf c.g)).all fun p => p.2.loc.isEmpty)
      wait := fun c s =>
        let s := (s.ctxGroups c.g.core (s.ctxOf c.g)).foldl (fun s p => s.drainLocal p.1) s
        s.writeBack c.g.core (s.ctxOf c.g) }
    fun _ _ s => (pending, s)

/-- The instruction buffers of a context's groups on a core are discarded, and the reads that fill them (R387). -/
def State.dropFetches (s : State) (core k : Nat) : State :=
  let gids := (s.ctxGroups core k).map (·.1)
  let s := { s with txns := keep s.txns fun _ v => match v with
    | some t => !(gids.contains t.gid && t.parts.all fun q => q.lane == 32 && q.op == .fetch)
    | none => false }
  gids.foldl (fun (s : State) gid => match s.group gid with
    | some g => s.setGroup gid { g with fetched := [] }
    | none => s) s

def execCctlIfetch (h : Hdr) (s : State) : Host.Outcome State Fault Refusal :=
  s.word (.cctlIfetch h) h { once := true } fun c _ s =>
    (pending, (s.dropFetches c.g.core (s.ctxOf c.g)).discard true c.g.core (s.ctxOf c.g))

def execCctlCst (h : Hdr) (s : State) : Host.Outcome State Fault Refusal :=
  s.word (.cctlCst h) h { once := true } fun c _ s => (pending, s.discard false c.g.core (s.ctxOf c.g))

/-! ### ATOM and RED (R388 to R390) -/

/-- Operands of an atomic: b, and for .cas the new value (R388). -/
def Env.atomArgs (e : Env) (op : AtomOp) (ty : AtomTy) (b : RegIx) : DWord × DWord :=
  match op with
  | .cas => if ty.wide then (e.ln.reg64 b.toNat, if b = 511#9 then 0 else e.ln.reg64 (b.toNat + 2))
            else ((e.ln.reg b.toNat).zeroExtend 64, if b = 511#9 then 0 else (e.ln.reg (b.toNat + 1)).zeroExtend 64)
  | _ => (e.reg ty.wide b, 0)

/-- An atomic in one lane; d is none for RED. -/
def State.atomLane (s : State) (c : Ctl) (l : Nat) (op : AtomOp) (ty : AtomTy) (o : Ord) (sc : Scope) (d : Option RegIx)
    (x y : DWord) (ea : Nat) : LaneRes × State :=
  let n := if ty.wide then 8 else 4
  match s.locate c.g .gen ea n n .atomic with
  | .error r => (r, s)
  | .ok (.scr uid off _) =>
    let old := leNat (s.readScratch uid off n)
    let s := match atomNew op ty old x.toNat y.toNat with
      | some v => s.writeScratch uid off (toLE n v)
      | none => s
    (.done (match d with | some d => valWrites ty.wide d.toNat old | none => []) [] 0, s)
  | .ok (.loc a) =>
    s.atomLocal c l op ty d x y a
  | .ok (.glb va) =>
    match s.checkFor c.g c.gid l va n .atomic with
    | (.ok leaf tgt a, s) =>
        (match (if tgt.scopeOf sc = .sys && releases o (c.g.lane l) then s.lostLink c.gid l else none) with
         | some s => (trapAt 0x2B 2 va, s)
         | none =>
           (pending, s.send c l leaf tgt a va n (match d with | some d => .atom op ty x y d | none => .red op ty x y) [] [] o sc))
    | (ch, s) => (ch.res .atomic va, s)

/-- Plain ordering is taken as .rlx (R388). -/
def strong (o : Ord) : Ord := if o = .plain then .rlx else o

def execAtom (h : Hdr) (op : AtomOp) (ty : AtomTy) (o : Ord) (sc : Scope) (g : Bool) (d a b : RegIx) (s : State) :
    Host.Outcome State Fault Refusal :=
  s.word (.atom h op ty o sc g d a b) h
    (relOps { mem := true } sc true (scratchRel .gen (strong o) fun c l => ((c.env l).a64 g a).toNat)) fun c l s =>
    let e := c.env l
    s.atomLane c l op ty (strong o) sc (some d) (e.atomArgs op ty b).1 (e.atomArgs op ty b).2 (e.a64 g a).toNat

/-- SEQs of the records that a team holds: its own, and those withdrawn that have not retired (R103). -/
def Team.seqs (t : Team) : List Nat := t.task.seq.toNat :: t.taken.map fun x => x.seq.toNat

/-- The lowest SEQ of a stage of a launch that has not retired: its record pending, queued, placed, suspended or withdrawn
(R110). -/
def State.lowestSeq (s : State) (r stg : Nat) : Option Nat :=
  let a := ((s.rcd r).pending.filter fun t => t.stg == stg).map fun t => t.seq.toNat
  let b := ((s.teamsOf r).filter fun p => p.2.task.stg == stg).flatMap fun p => p.2.seqs
  let c := if stg = 0 then [] else (Sparse.get [] (s.rcd r).stageQ (stg - 1)).map fun e => e.1 % 2 ^ 32
  leastBy (fun (x y : Nat) => decide (x < y)) (a ++ b ++ c)

/-- Does the team hold the record with the lowest unretired SEQ of its stage (R110)? -/
def State.leads (s : State) (t : Team) : Bool :=
  match s.lowestSeq t.task.lrec t.task.stg with
  | some q => t.seqs.contains q
  | none => true

/-- Is the RED one that DETR holds (R110)? -/
def State.detrHeld (s : State) (g : Group) (ty : AtomTy) (sc : Scope) : Bool :=
  (s.rcd g.launch).blk.detr && g.team.isSome && (sc == .dev || sc == .sys) && (ty == .f32 || ty == .f64)

def execRed (h : Hdr) (op : AtomOp) (ty : AtomTy) (o : Ord) (sc : Scope) (g : Bool) (a b : RegIx) (s : State) :
    Host.Outcome State Fault Refusal :=
  s.word (.red h op ty o sc g a b) h
    (relOps { mem := true } sc true (scratchRel .gen (strong o) fun c l => ((c.env l).a64 g a).toNat)) fun c l s =>
    let e := c.env l
    let low := match c.g.team with
      | some u => (match s.team u with | some t => s.leads t | none => true)
      | none => true
    if s.detrHeld c.g ty sc && decide (4096 ≤ (s.rcd c.g.launch).held.length) && !low then (.park .redFull, s)
    else s.atomLane c l op ty (strong o) sc none (e.atomArgs op ty b).1 (e.atomArgs op ty b).2 (e.a64 g a).toNat

/-! ### FENCE (R199, R200, R391) -/

/-- Are a fence's waits done in lane l? -/
def State.fenced (s : State) (gid l : Nat) (g : Group) (o : Ord) (sc : Scope) : Bool :=
  let ts := s.threadTxns gid l
  let k := s.ctxOf g
  (o == .rel || !(ts.any fun p => p.2.parts.any fun q => q.op.toLane)) &&
  (if o = .acq then sc != .sys || ((((s.group gid).bind s.began).isSome || (s.hostQuiet k 0 && s.hostQuiet k 1)) &&
      !(ts.any fun p => p.2.parts.any fun q => q.op == .zlr))
   else s.released gid l g.core k sc (coreScope sc)) &&
  (o != .sc || ts.isEmpty) &&
  !(ts.any fun p => p.2.parts.any fun q => match q.op with | .enq _ => true | _ => false) &&
  !((listed s.spawns).any fun p => p.2.gid == gid && p.2.lane == l)

def execFence (h : Hdr) (o : Ord) (sc : Scope) (s : State) : Host.Outcome State Fault Refusal :=
  s.word (.fence h o sc) h
    { mem := true
      ready := fun c s => (lanesOf c.act).all fun l => s.fenced c.gid l c.g o sc
      wait := fun c s => if o = .acq then (if sc = .sys then s.beginWait c (lanesOf c.act) sc else s)
                         else s.pushRelease c (lanesOf c.act) sc (coreScope sc) }
    fun c l s =>
      match (if sc = .sys then s.lostLink c.gid l else none) with
      | some s => (.trap 0x2B 0 0, s)
      | none =>
        (pending, match s.group c.gid with
          | some g => if o = .acq then s else s.setGroup c.gid (g.setLane l { g.lane l with relFence := (g.lane l).relFence || coreScope sc })
          | none => s)

/-! ### MONWAIT and POLL (R392, R393, R114) -/

/-- The back-off level of a group. -/
def State.setBackoff (s : State) (gid k : Nat) : State :=
  match s.group gid with
  | some g => s.setGroup gid { g with backoff := k }
  | none => s

def execMonwait (h : Hdr) (cmp : MonCmp) (o : Ord) (sc : Scope) (wide : Bool) (d a c : RegIx) (s : State) :
    Host.Outcome State Fault Refusal :=
  s.word (.monwait h cmp o sc wide d a c) h
    { mem := true, rot := true, same := some fun w l => [((w.env l).ln.reg64 a.toNat).toNat] } fun w l s =>
    let e := w.env l
    let ea := (e.ln.reg64 a.toNat).toNat
    let n := if wide then 8 else 4
    let b := e.reg wide c
    match s.locate w.g .gen ea n n .load with
    | .error r => (r, s)
    | .ok (.loc _) => (trapAt 0x27 0 ea, s)
    | .ok (.scr uid off _) =>
      let v := leNat (s.readScratch uid off n)
      if monHolds cmp v (monB wide b) then (.done (valWrites wide d.toNat v) [] 0, s.setBackoff w.gid 0)
      else
        let (id, s) := s.fresh
        let x : Txn :=
          { core := w.g.core, gid := w.gid, ctx := s.ctxOf w.g, launch := w.g.launch, tgt := .scr uid, line := off / 16, pc := w.pc
            parts := [{ lane := l, addr := off, va := ea, len := n, op := .monitor cmp wide b d }], word := id }
        (.park (.monitor id), s.setTxn id (some x))
    | .ok (.glb va) =>
      match s.checkFor w.g w.gid l va n .load with
      | (.ok leaf tgt x, s) => (.stay, s.send w l leaf tgt x va n (.monitor cmp wide b d) [] [] o sc)
      | (ch, s) => (ch.res .load va, s)

/-- A POLL of the group starts. -/
def State.pollStart (s : State) (gid word : Nat) : State :=
  match s.group gid with
  | some g => if word = 0 ∨ (g.polls.any fun p => p.1 == word) = true then s else s.setGroup gid { g with polls := g.polls ++ [(word, false)] }
  | none => s
/-- A lane of it found its condition met or not. -/
def State.pollNote (s : State) (gid word : Nat) (met : Bool) : State :=
  match s.group gid with
  | some g => s.setGroup gid { g with polls := g.polls.map fun p => (p.1, p.2 || (met && p.1 == word)) }
  | none => s
/-- A POLL is over: it has succeeded, or it has failed and the group is held (R114). -/
def Group.pollOver (g : Group) (clk : Nat) (met : Bool) : Group :=
  if met then { g with backoff := 0 }
  else
    let k := Nat.min (g.backoff + 1) 9
    { g with backoff := k, held := true, readyAt := Nat.max g.readyAt (clk + Nat.min (16 * 2 ^ (k - 1)) 4096) }
/-- The POLLs of a group that have no read out are over, each for itself (R114). -/
def State.pollEnd (s : State) (gid : Nat) : State :=
  match s.group gid with
  | none => s
  | some g =>
    let out := fun (p : Nat × Bool) => (listed s.txns).any fun t => t.2.gid == gid && t.2.word == p.1
    if g.polls.all out then s
    else s.setGroup gid { (g.polls.filter fun p => !out p).foldl (fun (g : Group) p => g.pollOver s.clk p.2) g with polls := g.polls.filter out }

/-- A POLL in one lane (R393). -/
def State.pollLane (s : State) (w : Ctl) (l : Nat) (cmp : MonCmp) (o : Ord) (sc : Scope) (wide : Bool) (pd : BitVec 3) (d a c : RegIx) :
    LaneRes × State :=
  let s := s.pollStart w.gid w.word
  let e := w.env l
  let ea := (e.ln.reg64 a.toNat).toNat
  let n := if wide then 8 else 4
  let b := e.reg wide c
  let now := fun (s : State) (v : Nat) =>
    let met := monHolds cmp v (monB wide b)
    (LaneRes.done (valWrites wide d.toNat v) [(pd.toNat, met)] 0, s.pollNote w.gid w.word met)
  match s.locate w.g .gen ea n n .load with
  | .error r => (r, s)
  | .ok (.scr uid off _) => now s (leNat (s.readScratch uid off n))
  | .ok (.loc x) =>
    (match s.checkLocal w l .load (locUnits x n) with
     | (.error r, s) => (r, s)
     | (.ok ps, s) =>
       match s.localNow w l 0 ((locUnits x n).zip ps) with
       | (.ok bs, s) => now s (leNat bs)
       | (.error r, s) => (r, s))
  | .ok (.glb va) =>
    match s.checkFor w.g w.gid l va n .load with
    | (.ok leaf tgt x, s) => (pending, s.send w l leaf tgt x va n (.poll cmp wide b pd d) [] [] o sc)
    | (ch, s) => (ch.res .load va, s)

/-- The word waits until each of its lanes can read: a POLL is failed or not as a whole (R114). -/
def execPoll (h : Hdr) (cmp : MonCmp) (o : Ord) (sc : Scope) (wide : Bool) (pd : BitVec 3) (d a c : RegIx) (s : State) :
    Host.Outcome State Fault Refusal :=
  s.word (.poll h cmp o sc wide pd d a c) h
    { mem := true, rot := true
      same := some fun w l => [((w.env l).ln.reg64 a.toNat).toNat]
      ready := fun w s => (lanesOf w.act).all fun l => decide ((s.pollLane w l cmp o sc wide pd d a c).1 ≠ .stay)
      wait := fun w s => (lanesOf w.act).foldl (fun (s : State) l =>
        let r := s.pollLane w l cmp o sc wide pd d a c
        if r.1 = .stay then r.2 else s) s
      fin := fun c s => if c.act = 0 then s else s.pollEnd c.gid } fun w l s =>
    s.pollLane w l cmp o sc wide pd d a c

/-! ### Program queues (R394, R395) -/

/-- A lane's request to the queue engine of a block: address checks, then the request (R394). -/
def State.queueReq (s : State) (c : Ctl) (l ea : Nat) (op : AccOp) (data : List Byte) (sc : Scope) : LaneRes × State :=
  if ea % 4096 ≠ 0 then (trapAt 0x25 0 ea, s)
  else if 2 ^ 57 ≤ ea then (trapAt 0x26 0 ea, s)
  else if windowBase ≤ ea then (trapAt (if 0x01FFFD0000000000 ≤ ea then 0x27 else 0x26) 0 ea, s)
  else
    match s.checkFor c.g c.gid l ea 4096 .store with
    | (.ok leaf .cell a, s) =>
      let k := s.ctxOf c.g
      let proto : Txn := { core := c.g.core, gid := c.gid, ctx := k, launch := c.g.launch, tgt := .cell, line := a / 128, parts := [],
                           scope := sc, acq := false, rel := op.writes, lvl := leaf.lvl, pc := c.pc }
      let earlier := ((s.threadTxns c.gid l).filter fun p => p.2.parts.any fun q => match q.op with | .enq _ => true | _ => false).map (·.1)
      let (deps, wb, s) := if op.writes then s.releaseDeps c.gid l sc false proto else ([], false, s)
      let (id, s) := s.fresh
      (.stay, s.setTxn id (some { proto with
        deps := deps.filter fun d => !earlier.contains d, wb := wb, word := c.word
        parts := [{ lane := l, addr := a, va := ea, len := data.length, op := op, data := data, level := leaf.level }] }))
    | (.ok .., s) => (trapAt 0x27 0 ea, s)
    | (ch, s) => (ch.res .load ea, s)

/-- Data of an ENQ. -/
def qData (e : Env) (w : QWidth) (d : RegIx) : List Byte :=
  match w with
  | .b32 => e.data .b32 d
  | .n64 => e.data .n64 d
  | .b128 => e.data .b128 d

def execEnq (h : Hdr) (w : QWidth) (sc : Scope) (d a : RegIx) (s : State) : Host.Outcome State Fault Refusal :=
  s.word (.enq h w sc d a) h { mem := true } fun c l s =>
    let e := c.env l
    s.queueReq c l (e.ln.reg64 a.toNat).toNat (.enq w) (qData e w d) sc

def execDeq (h : Hdr) (w : QWidth) (wait : Bool) (sc : Scope) (pd : BitVec 3) (d a : RegIx) (s : State) :
    Host.Outcome State Fault Refusal :=
  s.word (.deq h w wait sc pd d a) h { mem := true } fun c l s =>
    s.queueReq c l ((c.env l).ln.reg64 a.toNat).toNat (.deq w wait pd d) [] sc

end Sys2Proof.Machine
end

