-- ==== Sys2Proof/Machine/Sync.lean ====
section
/-! DEFINITION. Sync.lean: transaction barriers (R243 to R246, R397, R398), convergence registers and barriers of teams and
clusters (R399 to R401), and the engine queue registers (R256, R383). -/
namespace Sys2Proof.Machine

/-! ### The barrier granule (R243 to R246) -/

/-- The fields of a barrier. RUN and STAT are 16-bit statuses. -/
structure Bar where
  pend : Int := 0
  arrv : Nat := 0
  bound : Nat := 0
  run : Nat := 0
  stat : Nat := 0
  narr : Nat := 0
  phase : Bool := false
  cdone : Bool := false
  ev : Bool := false
deriving DecidableEq, Repr

/-- The fields of 16 bytes of scratchpad (R243). What a program has put into the zero bits, CTRL[7:3] and byte 0x0F, is passed over, and
cleared by the next event (DESIGN CHOICE, log entry 145). -/
def Bar.ofBytes (bs : List Byte) : Bar :=
  let f := fun (i n : Nat) => leNat ((bs.drop i).take n)
  { pend := sextInt (f 0 4) 32, arrv := f 4 2, bound := f 6 2, run := f 8 2, stat := f 10 2, narr := f 12 2,
    phase := nbit (f 14 1) 0, cdone := nbit (f 14 1) 1, ev := nbit (f 14 1) 2 }

/-- The 16 bytes of a barrier. -/
def Bar.bytes (b : Bar) : List Byte :=
  toLE 4 (wrapN b.pend 32) ++ toLE 2 b.arrv ++ toLE 2 b.bound ++ toLE 2 b.run ++ toLE 2 b.stat ++ toLE 2 b.narr ++
  toLE 1 (b2n b.phase + 2 * b2n b.cdone + 4 * b2n b.ev) ++ toLE 1 0

/-- Bits of a status (R243). -/
def stOverrun : Nat := 1
def stUnderrun : Nat := 2
def stFault : Nat := 4
def stPoison : Nat := 8

/-- A phase ends with status s (R244). -/
def Bar.flip (b : Bar) (s : Nat) : Bar :=
  { b with stat := b.run ||| s, run := 0, pend := 0, arrv := b.narr, bound := 0, cdone := false, ev := false, phase := !b.phase }

/-- The evaluation after each event (R244): the barrier, and whether it flipped. -/
def Bar.eval (b : Bar) : Bar × Bool :=
  if b.arrv = 0 ∧ b.ev = true then
    if b.pend < 0 then (b.flip stOverrun, true)
    else if b.bound = 0 ∧ b.pend = 0 then (b.flip 0, true)
    else if b.bound = 0 ∧ 0 < b.pend ∧ b.cdone = true then (b.flip stUnderrun, true)
    else (b, false)
  else (b, false)

/-- A status gathered into RUN: flags, POISON and FAULT are ORed, EXC adds up and saturates at 127 (R245). -/
def gatherRun (run st : Nat) : Nat :=
  ((run / 2048) ||| (st / 2048)) * 2048 + Nat.min (run / 16 % 128 + st / 16 % 128) 127 * 16 + ((run % 16) ||| (st % 16))

/-- The events of R244. -/
def Bar.expect (b : Bar) (n : Nat) : Bar := { b with pend := b.pend + n }
def Bar.arrive (b : Bar) : Bar := { b with arrv := b.arrv - 1, ev := true }
def Bar.bind (b : Bar) : Bar := { b with bound := b.bound + 1 }
def Bar.land (b : Bar) (n : Nat) : Bar := { b with pend := b.pend - n }
def Bar.complete (b : Bar) (st : Nat) : Bar := { b with bound := b.bound - 1, cdone := true, ev := true, run := gatherRun b.run st }

/-- The barrier at offset o of a team's scratchpad. -/
def State.bar (s : State) (uid o : Nat) : Bar := Bar.ofBytes (s.readScratch uid o 16)

/-- Write a barrier's fields; the write releases the TBWAIT lanes whose condition holds (R246). -/
def State.setBar (s : State) (uid o : Nat) (b : Bar) : State := s.writeScratch uid o b.bytes

/-- Operations bound to a barrier become detached (R244, R398). -/
def State.detach (s : State) (uid o : Nat) : State :=
  { s with
    copies := mapVals none s.copies fun v => v.map fun c => if c.barTeam = uid ∧ c.bar = some o then { c with bound := false } else c
    mx := mapVals [] s.mx fun l => l.map fun x => if x.team = uid ∧ x.bar = o then { x with bound := false } else x
    arrays := mapVals {} s.arrays fun a =>
      { a with ops := a.ops.map fun x => if x.team = uid ∧ x.bar = some o then { x with bound := false } else x } }

/-- One event of a barrier, and the evaluation after it (R244). -/
def State.barEvent (s : State) (uid o : Nat) (f : Bar → Bar) : State :=
  let r := (f (s.bar uid o)).eval
  let s := s.setBar uid o r.1
  if r.2 then s.detach uid o else s

/-! ### The barrier instructions (R397, R398) -/

/-- A barrier word's granule in a lane; a barrier word is no load, store or atomic, so its faults carry ACC 0 (R280). -/
def State.barSpot (s : State) (c : Ctl) (l : Nat) (clu gr : Bool) (a : RegIx) : Except LaneRes (Nat × Nat) :=
  match s.locate c.g (spaceOf clu) ((c.env l).a32 gr a).toNat 16 16 .load with
  | .ok (.scr uid o _) => .ok (uid, o)
  | .ok _ => .error badOperand
  | .error r => .error r

def execTbinit (h : Hdr) (clu g : Bool) (a : RegIx) (n : Kind) (s : State) : Host.Outcome State Fault Refusal :=
  s.word (.tbinit h clu g a n) h { mem := true } fun c l s =>
    match s.barSpot c l clu g a with
    | .error r => (r, s)
    | .ok (uid, o) =>
      let v := (c.env l).kind n
      if 4096 < v.toNat then (badOperand, s)
      else (pending, (s.setBar uid o { narr := v.toNat, arrv := v.toNat }).detach uid o)

def execTbarr (h : Hdr) (clu g : Bool) (a : RegIx) (s : State) : Host.Outcome State Fault Refusal :=
  s.word (.tbarr h clu g a) h { mem := true } fun c l s =>
    match s.barSpot c l clu g a with
    | .error r => (r, s)
    | .ok (uid, o) => if (s.bar uid o).arrv = 0 then (badOperand, s) else (pending, s.barEvent uid o Bar.arrive)

def execTbexp (h : Hdr) (clu g : Bool) (a : RegIx) (n : Kind) (s : State) : Host.Outcome State Fault Refusal :=
  s.word (.tbexp h clu g a n) h { mem := true } fun c l s =>
    match s.barSpot c l clu g a with
    | .error r => (r, s)
    | .ok (uid, o) =>
      let v := (c.env l).kind n
      if 2 ^ 31 ≤ v.toNat ∨ (2 ^ 31 - 1 : Int) < (s.bar uid o).pend + (v.toNat : Int) then (badOperand, s)
      else (pending, s.barEvent uid o fun b => b.expect v.toNat)

def execTbwait (h : Hdr) (clu g : Bool) (a : RegIx) (p : Kind) (s : State) : Host.Outcome State Fault Refusal :=
  s.word (.tbwait h clu g a p) h { mem := true } fun c l s =>
    match s.barSpot c l clu g a with
    | .error r => (r, s)
    | .ok (uid, o) =>
      let par := ((c.env l).kind p).getLsbD 0
      if (s.bar uid o).phase != par then (pending, s) else (.park (.barrier uid o par), s)

def execTbstat (h : Hdr) (clu g : Bool) (d a : RegIx) (s : State) : Host.Outcome State Fault Refusal :=
  s.word (.tbstat h clu g d a) h { mem := true } fun c l s =>
    match s.barSpot c l clu g a with
    | .error r => (r, s)
    | .ok (uid, o) =>
      let b := s.bar uid o
      (.done [(d.toNat, BitVec.ofNat 32 (b.stat + 65536 * b2n b.phase))] [] 0, s)

/-! ### Convergence registers (R399, R400) -/

/-- Threads of groups that have not exited, as group × 32 + lane; under PROT the primaries. -/
def threadsOf (prot : Bool) (gs : List (Nat × Group)) : List Nat :=
  gs.flatMap fun p => ((lanes32.filter fun l => !prot || l % 2 == 0).filter fun l => decide ((p.2.lane l).st ≠ .exited)).map fun l => p.1 * 32 + l

/-- The groups of a team. -/
def State.teamGroups (s : State) (uid : Nat) : List (Nat × Group) := (listed s.groups).filter fun p => p.2.team == some uid

/-- Is the phase complete (R400)? `all` are the threads that a set with N = 0 waits for. -/
def Conv.full (c : Conv) (all : List Nat) : Bool :=
  if c.n = 0 then all.all fun t => c.signers.contains t else c.sigs == c.n
/-- The flip of a set. -/
def Conv.next (c : Conv) : Conv := { kind := 0, phase := !c.phase }
/-- A thread signs. -/
def Conv.sign (c : Conv) (t n : Nat) : Conv :=
  { c with kind := 1, n := if c.kind = 0 then n else c.n, sigs := c.sigs + 1,
           signers := if c.signers.contains t then c.signers else c.signers ++ [t] }

/-- xk of a team. -/
def Team.conv (t : Team) (x : Nat) : Conv := Sparse.get {} t.x x
def Team.setConv (t : Team) (x : Nat) (c : Conv) : Team := { t with x := Sparse.set {} t.x x c }

/-- Test a barrier set of a team, flipping it if it is complete, and release its waiters. -/
def State.testConv (s : State) (uid x : Nat) : State :=
  match s.team uid with
  | none => s
  | some t =>
    let c := t.conv x
    if c.kind == 1 && c.full (threadsOf (s.rcd t.task.lrec).blk.prot (s.teamGroups uid)) then
      (s.setTeam uid (t.setConv x c.next)).freeWhere fun g p =>
        g.team == some uid && (match p with
          | .xset k par => k == x && par == c.phase
          | .signed k par => k == x && par == c.phase
          | _ => false)
    else s

/-- XSIGN in one lane: the phase it read, or a fault (R400). -/
def State.signSet (s : State) (c : Ctl) (l x : Nat) (n : Nat) : Except LaneRes Bool × State :=
  match c.g.team with
  | none => (.error badOperand, s)
  | some uid =>
    match s.team uid with
    | none => (.error badOperand, s)
    | some t =>
      let cv := t.conv x
      if cv.kind = 2 ∨ 4096 < n ∨ (cv.kind = 1 ∧ cv.n ≠ n) then (.error badOperand, s)
      else (.ok cv.phase, (s.setTeam uid (t.setConv x (cv.sign (c.gid * 32 + l) n))).testConv uid x)

/-- The release of a signature (R400, R401). -/
def signOps (sc : Scope) : WordOps := relOps { mem := true } sc (coreScope sc) fun c _ _ => c.g.team.isSome

def execXsign (h : Hdr) (d x : RegIx) (n : Kind) (s : State) : Host.Outcome State Fault Refusal :=
  s.word (.xsign h d x n) h (signOps .team) fun c l s =>
    match s.signSet c l x.toNat ((c.env l).kind n).toNat with
    | (.error r, s) => (r, s)
    | (.ok ph, s) => (.done [(d.toNat, BitVec.ofNat 32 (b2n ph))] [] 0, s)

/-- The phase of a team's register, for a word that may not use a register of matrix kind. -/
def State.convPhase (s : State) (g : Group) (x : Nat) : Option Bool :=
  match g.team with
  | none => none
  | some uid =>
    match s.team uid with
    | none => none
    | some t => if (t.conv x).kind = 2 then none else some (t.conv x).phase

def execXwait (h : Hdr) (x : RegIx) (p : Kind) (s : State) : Host.Outcome State Fault Refusal :=
  s.word (.xwait h x p) h { mem := true } fun c l s =>
    match s.convPhase c.g x.toNat with
    | none => (badOperand, s)
    | some ph =>
      let par := ((c.env l).kind p).getLsbD 0
      if ph != par then (pending, s) else (.park (.xset x.toNat par), s)

/-- The lanes of the group that gave their signatures in the present word, before the one that ended the phase, go on with it (R400). -/
def State.freeSigned (s : State) (gid : Nat) : State :=
  match s.group gid with
  | none => s
  | some g => s.setGroup gid (lanes32.foldl (fun (g : Group) l =>
      let ln := g.lane l
      let ended := match ln.park with
        | .signed x par => (s.convPhase g x).any fun ph => ph != par
        | .barcl key par => (Sparse.get ({} : Conv) (s.rcd g.launch).barcl key).phase != par
        | _ => false
      if decide (ln.st = .parked) && ended then g.setLane l ln.release else g) g)

/-- BARTM: the signatures of all its lanes, then the wait on the phase they read (R400). -/
def execBartm (h : Hdr) (x : RegIx) (n : Kind) (s : State) : Host.Outcome State Fault Refusal :=
  s.word (.bartm h x n) h { signOps .team with fin := fun c s => if c.act = 0 then s else s.freeSigned c.gid } fun c l s =>
    match s.signSet c l x.toNat ((c.env l).kind n).toNat with
    | (.error r, s) => (r, s)
    | (.ok ph, s) =>
      (match s.convPhase c.g x.toNat with
       | some now => if now != ph then (pending, s) else (.park (.signed x.toNat ph), s)
       | none => (pending, s))

/-! ### Cluster barriers (R401) -/

/-- The key of cluster barrier b of a team's cluster. -/
def Block.barKey (bk : Block) (t : Task) (b : Nat) : Nat := (t.stg * 2 ^ 32 + bk.cluster t) * 4 + b

/-- The threads of a cluster that have not exited; none while a team of it has not started (R96). -/
def State.clusterThreads (s : State) (r key : Nat) : Option (List Nat) :=
  let rc := s.rcd r
  let ts := (s.teamsOf r).filter fun p => rc.blk.barKey p.2.task 0 == key / 4 * 4
  match ts with
  | [] => none
  | p :: _ =>
    if (List.range (rc.blk.cw * rc.blk.ch)).all (fun j => s.hasStarted p.2 j) then
      some (ts.flatMap fun p => threadsOf rc.blk.prot (s.teamGroups p.1))
    else none

/-- Test a cluster barrier. -/
def State.testBarcl (s : State) (r key : Nat) : State :=
  let rc := s.rcd r
  let c := Sparse.get ({} : Conv) rc.barcl key
  let full := if c.n = 0 then (match s.clusterThreads r key with | some all => c.full all | none => false) else c.sigs == c.n
  if c.kind == 1 && full then
    (s.setRec r { rc with barcl := Sparse.set {} rc.barcl key c.next }).freeWhere fun g p =>
      g.launch == r && (match p with
        | .barcl k par => k == key && par == c.phase
        | _ => false)
  else s

def execBarcl (h : Hdr) (b : RegIx) (n : Kind) (s : State) : Host.Outcome State Fault Refusal :=
  s.word (.barcl h b n) h { signOps .clu with fin := fun c s => if c.act = 0 then s else s.freeSigned c.gid } fun c l s =>
    match c.g.team with
    | none => (badOperand, s)
    | some uid =>
      match s.team uid with
      | none => (badOperand, s)
      | some t =>
        let r := t.task.lrec
        let rc := s.rcd r
        let key := rc.blk.barKey t.task b.toNat
        let cv := Sparse.get ({} : Conv) rc.barcl key
        let n := ((c.env l).kind n).toNat
        if 49152 < n ∨ (cv.kind = 1 ∧ cv.n ≠ n) then (badOperand, s)
        else
          let s := (s.setRec r { rc with barcl := Sparse.set {} rc.barcl key (cv.sign (c.gid * 32 + l) n) }).testBarcl r key
          if (Sparse.get ({} : Conv) (s.rcd r).barcl key).phase != cv.phase then (pending, s) else (.park (.barcl key cv.phase), s)

/-- The sets that a lane's exit can complete are tested again (R400, R401). -/
def State.retestSets (s : State) (g : Group) : State :=
  match g.team with
  | none => s
  | some uid =>
    match s.team uid with
    | none => s
    | some t =>
      let s := (t.x.map (·.1)).foldl (fun s x => s.testConv uid x) s
      ((s.rcd t.task.lrec).barcl.map (·.1)).foldl (fun s k => s.testBarcl t.task.lrec k) s

/-! ### Engine queue registers (R256, R293, R383) -/

def Team.engq (t : Team) (n : Nat) : EngQ := Sparse.get {} t.c n
def Team.setEngq (t : Team) (n : Nat) (q : EngQ) : Team := { t with c := Sparse.set {} t.c n q }
/-- Entries of all queue registers of a team (R293: at most 384). -/
def Team.entries (t : Team) : Nat := sumN (t.c.map fun p => p.2.input.length + p.2.result.length)

/-- Room for k entries in an input queue. -/
def Team.roomIn (t : Team) (n k : Nat) : Bool := (t.engq n).input.length + k ≤ 64 && t.entries + k ≤ 384
/-- Room for k entries in a result queue. -/
def Team.roomOut (t : Team) (n k : Nat) : Bool := (t.engq n).result.length + k ≤ 64 && t.entries + k ≤ 384

/-- A bound source operation takes the entries of its input queue as they come (R256). -/
def State.feedQ (s : State) (uid n : Nat) : State :=
  match s.team uid with
  | none => s
  | some t =>
    let q := t.engq n
    match q.source with
    | none => s
    | some id =>
      match Sparse.get none s.nbs id with
      | none => s
      | some nb =>
        let k := Nat.min q.input.length (128 * nb.ct - nb.x.length)
        let s := s.setTeam uid (t.setEngq n { q with input := q.input.drop k })
        { s with nbs := Sparse.set none s.nbs id (some { nb with x := nb.x ++ (q.input.take k).map fun w => BitVec.extractLsb' 0 16 w }) }

/-- How many active lanes use the queue: under PROT each visible lane once (R166). -/
def Ctl.users (c : Ctl) : Nat := if c.prot then (lanesOf c.act).length / 2 else (lanesOf c.act).length

/-- Can k pops go on: enough results, or an ended operation that can supply no more (R256)? -/
def State.popReady (s : State) (g : Group) (n k : Nat) : Bool :=
  match g.team with
  | none => true
  | some uid =>
    match s.team uid with
    | none => true
    | some t => decide (k ≤ (t.engq n).result.length) || ((t.engq n).dry && (t.engq n).sink.isNone)
/-- Has the input queue room for k pushes (R256)? -/
def State.pushReady (s : State) (g : Group) (n k : Nat) : Bool :=
  match g.team with
  | none => true
  | some uid =>
    match s.team uid with
    | none => true
    | some t => t.roomIn n k

/-- One pop of cN. -/
def State.popQ (s : State) (g : Group) (n : Nat) : Except LaneRes Word × State :=
  match g.team with
  | none => (.error badOperand, s)
  | some uid =>
    match s.team uid with
    | none => (.error badOperand, s)
    | some t =>
      match (t.engq n).result with
      | [] => (.error (.trap 0x31 0 0), s)
      | x :: r => (.ok x, s.setTeam uid (t.setEngq n { t.engq n with result := r }))

/-- One push into cN. -/
def State.pushQ (s : State) (g : Group) (n : Nat) (x : Word) : Except LaneRes Unit × State :=
  match g.team with
  | none => (.error badOperand, s)
  | some uid =>
    match s.team uid with
    | none => (.error badOperand, s)
    | some t => (.ok (), (s.setTeam uid (t.setEngq n { t.engq n with input := (t.engq n).input ++ [x] })).feedQ uid n)

def execLdQue (h : Hdr) (d n : RegIx) (s : State) : Host.Outcome State Fault Refusal :=
  s.word (.ldQue h d n) h { mem := true, ready := fun c s => s.popReady c.g n.toNat c.users } fun c _ s =>
    match s.popQ c.g n.toNat with
    | (.ok x, s) => (.done [(d.toNat, x)] [] 0, s)
    | (.error r, s) => (r, s)

def execStQue (h : Hdr) (d n : RegIx) (s : State) : Host.Outcome State Fault Refusal :=
  s.word (.stQue h d n) h { mem := true, ready := fun c s => s.pushReady c.g n.toNat c.users } fun c l s =>
    match s.pushQ c.g n.toNat ((c.env l).ln.reg d.toNat) with
    | (.ok (), s) => (pending, s)
    | (.error r, s) => (r, s)

end Sys2Proof.Machine
end

