-- ==== Sys2Proof/Machine/Engine.lean ====
section
/-! DEFINITION. Engine.lean: how the engines of the device reach memory (R57, R60, R209, R240): reads held for recalls, whole
sectors, writes published line by line, accesses that leave the device, and the faults that hold or end an operation. -/
namespace Sys2Proof.Machine

/-- An engine operation as a requester: its number, its TLB, and whose addresses it uses. -/
structure Eng where
  id : Nat
  agent : Nat                            -- TLB: cores 0 to 191, quadrant engines 192 to 195, I/O dies 196 and 197
  core : Nat
  ctx : Nat
  launch : Nat
  src : Src'
deriving DecidableEq, Repr

/-- What an engine's access comes to. -/
inductive EngRes where
  | ok (bs : List Byte) (poisoned : Bool)
  | wait
  | hold (code va lo hi : Nat)                            -- a P-class fault holds the operation (R240)
  | fail (code : Nat)                                     -- any other fault ends it
deriving DecidableEq, Repr

/-- The translation and checks of an engine's access. -/
def State.engCheck (s : State) (e : Eng) (va n : Nat) (acc : Acc) : Chk × State :=
  let (ch, s) := s.checkRecall e.agent e.ctx va n acc 12
  match ch with
  | .ok leaf (.host ..) _ => (ch, { s.fillTlb e.agent e.ctx va leaf with free := s.free + 1 })
  | .ok leaf _ _ => (ch, s.fillTlb e.agent e.ctx va leaf)
  | .pri .. => (ch, s.afterCheck ch e.id 0)
  | _ => (ch, s)

/-- Outcome of a check that found no place. -/
def Chk.engRes (ch : Chk) (va : Nat) : EngRes :=
  match ch with
  | .trap c => .fail c
  | .park c lo hi => .hold c va lo hi
  | _ => .wait

/-- An access of an engine that leaves the committed memory of this device: a request of its own (R57, R60, R72). -/
def State.engSend (s : State) (e : Eng) (tgt : Tgt) (a va n : Nat) (op : AccOp) (data : List Byte) (poison : Bool := false)
    (mask : List Bool := []) : State :=
  let (id, s) := s.fresh
  let part : Part := { lane := 32, addr := a, va := va, len := n, op := op, data := data, mask := mask, bad := poison }
  s.setTxn id (some { core := e.core, gid := e.id, ctx := e.ctx, launch := e.launch, tgt := tgt, line := a / 128,
                      parts := [part], scope := .sys, word := id, mill := decide (192 ≤ e.agent) })

def State.bufOf (s : State) (id : Nat) : List (Nat × List Byte × Bool) := Sparse.get [] s.engBuf id
def State.setBuf (s : State) (id : Nat) (b : List (Nat × List Byte × Bool)) : State := { s with engBuf := Sparse.set [] s.engBuf id b }

/-- Read n bytes within one sector at va. Each sector is read once, whole, and kept for the operation (R209). -/
def State.engRead (s : State) (e : Eng) (va n : Nat) : EngRes × State :=
  match (s.bufOf e.id).find? fun b => b.1 ≤ va && va + n ≤ b.1 + b.2.1.length with
  | some b => (.ok ((b.2.1.drop (va - b.1)).take n) b.2.2, s)
  | none =>
    match s.engCheck e va n .load with
    | (.ok _ .cell a, s) =>
      if !s.lineFree none (a / 128) then (.wait, s.recall (a / 128))
      else
        let bs := s.cells (a / 32 * 32) 32
        let p := s.poisoned a
        -- a request counts once for its line (R25)
        let s' := if (s.bufOf e.id).any fun b => b.1 / 128 == va / 128 then s else s.count e.src a
        (.ok ((bs.drop (a % 32)).take n) p, s'.setBuf e.id ((va - a % 32, bs, p) :: s.bufOf e.id))
    | (.ok _ tgt a, s) =>
      if (listed s.txns).any fun t => t.2.gid == e.id && t.2.parts.any fun q => q.va == va then (.wait, s)
      else (.wait, s.engSend e tgt a va n .fetch [])
    | (ch, s) => (ch.engRes va, s)

/-- Read a list of pieces (address, bytes), each within one sector: all their bytes, and whether one is poisoned. -/
def State.engReads (s : State) (e : Eng) : List (Nat × Nat) → EngRes × State
  | [] => (.ok [] false, s)
  | p :: ps =>
    match s.engRead e p.1 p.2 with
    | (.ok bs q, s) =>
      (match s.engReads e ps with
       | (.ok r q', s) => (.ok (bs ++ r) (q || q'), s)
       | r => r)
    | r => r

/-- The pieces of n bytes at va, cut at sectors. -/
def sectorPieces (va n : Nat) : List (Nat × Nat) :=
  (List.range ((va % 32 + n + 31) / 32)).map fun i =>
    let lo := Nat.max va (va / 32 * 32 + 32 * i)
    (lo, Nat.min (va + n) (va / 32 * 32 + 32 * i + 32) - lo)

/-- Have the operation's own writes been acknowledged everywhere (R204, R242)? -/
def State.engSettled (s : State) (id : Nat) : Bool :=
  !(s.dir.any fun p => decide (p.2.waiting ≠ 0) && p.2.src == id) && !((listed s.txns).any fun t => t.2.gid == id)

/-- Write bytes of one sector, in ascending order, as poisoned data or not (R187, R240). `first` says that they are the first that the
operation writes to their line: its request counts once (R25). -/
def State.engPut (s : State) (e : Eng) (ws : List (Nat × Byte)) (poison first : Bool) : EngRes × State :=
  let lo := (ws.headD (0, 0)).1
  match s.engCheck e lo ((ws.getLastD (0, 0)).1 + 1 - lo) .store with
  | (.ok _ .cell a, s) =>
    if !s.lineFree none (a / 128) then (.wait, s.recall (a / 128))
    else
      let s := if first then s.count e.src a else s
      (.ok [] false, s.agentPut e.src e.id (if poison then some 7 else none) (ws.map fun w => (a + (w.1 - lo), w.2)))
  | (.ok _ tgt a, s) =>
    -- one write, the bytes between the written ones not enabled
    let span := (ws.getLastD (0, 0)).1 + 1 - lo
    let at' := fun (i : Nat) => ws.find? fun w => w.1 == lo + i
    (.ok [] false, s.engSend e tgt a lo span .store ((List.range span).map fun i => ((at' i).getD (0, 0)).2) poison
      ((List.range span).map fun i => (at' i).isNone))
  | (ch, s) => (ch.engRes lo, s)

/-- Write consecutive bytes within one sector at va. -/
def State.engWrite (s : State) (e : Eng) (va : Nat) (data : List Byte) (poison first : Bool) : EngRes × State :=
  s.engPut e ((List.range data.length).map fun i => (va + i, data.getD i 0)) poison first

/-- Open or join the report of a P-class fault that holds an engine operation (R240, R283): its number. -/
def State.engReport (s : State) (e : Eng) (code acc va lo hi core : Nat) : Nat × State :=
  s.joinReport e.ctx { code := BitVec.ofNat 8 code, acc := BitVec.ofNat 2 acc, launch := e.launch, va := va, core := core, lo := lo, hi := hi }

/-- A team's whole granules are written by an engine: the bytes land and the granules become full (R176, R240). -/
def State.engScratch (s : State) (uid o : Nat) (bs : List Byte) : State :=
  let s := s.writeScratch uid o bs
  ((List.range ((o % 16 + bs.length + 15) / 16)).map fun i => o / 16 + i).foldl (fun s g => s.setFull uid g true) s

/-- Is it one engine? The matrix engine that teams name is their core's (R250). -/
def State.oneEngine (s : State) (a b : Engine) : Bool :=
  a == b || (match a, b with
    | .matrix t, .matrix u => (match s.team t, s.team u with
      | some x, some y => x.core == y.core && decide (x.st ≠ .suspended) && decide (y.st ≠ .suspended)
      | _, _ => false)
    | _, _ => false)

/-- Lanes parked for room in an engine, in the order in which they parked (R455). -/
def State.roomLanes (s : State) (e : Engine) : List (Nat × Nat) :=
  (sortBy (fun (a b : Nat × Nat × Nat) => decide (a.1 < b.1 ∨ (a.1 = b.1 ∧ a.2.2 < b.2.2)))
    ((listed s.groups).flatMap fun p => lanes32.filterMap fun l =>
      match (p.2.lane l).park with
      | .room x => if s.oneEngine x e && !(p.2.lane l).ready then some ((p.2.lane l).age, p.1, l) else none
      | _ => none)).map fun x => x.2

/-- Outstanding operations of an engine, and its room (R239, R250, R269, R412, R425). -/
def State.engineUse (s : State) (e : Engine) : Nat × Nat :=
  match e with
  | .coreCopy c => (((listed s.copies).filter fun p => p.2.quad.isNone && p.2.core == c).length, 64)
  | .quadCopy q => (((listed s.copies).filter fun p => p.2.quad == some q).length, 256)
  | .matrix t => ((match s.team t with | some x => (Sparse.get [] s.mx x.core).length | none => 0), 8)
  | .sphinx t => ((match s.team t with | some x => (s.array x.core).ops.length | none => 0), 4)
  | .nbgemv c => (((listed s.nbs).filter fun p => p.2.core == c).length, 16)
  | .collective i => (((listed s.clovar.colls).filter fun p => p.2.eng == i).length, 64)
def State.hasRoom (s : State) (e : Engine) : Bool := decide ((s.engineUse e).1 < (s.engineUse e).2)

/-- Lanes that have been released for room in an engine and have not replayed yet, oldest first. -/
def State.wokenFor (s : State) (e : Engine) : List (Nat × Nat) := (s.wokenRooms.filter fun p => s.oneEngine p.1 e).map fun p => p.2

/-- Is there room for an operation of this lane, behind the lanes released before it (R455)? -/
def State.roomFor (s : State) (e : Engine) (gid l : Nat) : Bool :=
  decide ((s.engineUse e).1 + ((s.wokenFor e).takeWhile fun p => p != (gid, l)).length < (s.engineUse e).2)

/-- The lane has replayed: its place is no longer kept. -/
def State.tookRoom (s : State) (e : Engine) (gid l : Nat) : State :=
  { s with wokenRooms := s.wokenRooms.filter fun p => !(s.oneEngine p.1 e && p.2 == (gid, l)) }

/-- The lane has replayed and wants room no more: every place kept for it is given up. -/
def State.dropPlaces (s : State) (gid l : Nat) : State := { s with wokenRooms := s.wokenRooms.filter fun p => p.2 != (gid, l) }

/-- The lane finds no room: it parks, and with it every later lane of the word (R455). -/
def State.noRoom (s : State) (e : Engine) (gid l : Nat) : LaneRes × State :=
  (.park (.room e), { s.tookRoom e gid l with cur := { s.cur with full := some e } })

/-- Room frees: as many lanes as there is room for are released, in the order in which they parked, and their places are kept
(R455). -/
def State.freeRoom (s : State) (e : Engine) : State :=
  let ls := (s.roomLanes e).take ((s.engineUse e).2 - (s.engineUse e).1 - (s.wokenFor e).length)
  { ls.foldl (fun (s : State) p => s.markReady p.1 p.2) s with wokenRooms := s.wokenRooms ++ ls.map fun p => (e, p) }

/-- A release of the word's lane at device scope that an engine carries out (R209, R403): the stores that happen before it, among them
those its thread may have acquired (R198). -/
def State.issueDeps (s : State) (gid l : Nat) : List Nat :=
  let own := ((s.threadTxns gid l).filter fun p => p.2.parts.any fun q => q.op.writes).map (·.1)
  match s.group gid with
  | some g => (own ++ s.coreWrites g.core (s.ctxOf g)).eraseDups
  | none => own

/-- A lane, and under PROT its shadow. -/
def State.onLane (s : State) (gid l : Nat) (f : Lane → Lane) : State :=
  match s.group gid with
  | none => s
  | some g =>
    s.setGroup gid (g.both (s.rcd g.launch).blk.prot l f)

/-- Does one of the stores and atomics `deps` that are still on their way write one of n bytes at a place? -/
def State.depsTouch (s : State) (deps : List Nat) (tgt : Tgt) (a n : Nat) : Bool :=
  deps.any fun d => match s.txn d with
    | some t => t.tgt == tgt && t.parts.any fun q => q.op.writes && q.ranges.any fun r => decide (r.1 < a + n) && decide (a < r.1 + r.2)
    | none => false

/-- Has a stop been asked for of one of these teams, by a pre-emption or by the end of its launch (R76, R291)? -/
def State.stopAsked (s : State) (uids : List Nat) : Bool :=
  uids.any fun u => match s.team u with | some t => t.stopping || decide ((s.rcd t.task.lrec).st = .ending) | none => false

/-- Does a suspended team hold up work on one of these teams (R291)? -/
def State.away (s : State) (uids : List Nat) : Bool :=
  uids.any fun u => match s.team u with | some t => decide (t.st = .suspended) | none => false

end Sys2Proof.Machine
end

