-- ==== Sys2Proof/Machine/Mill.lean ====
section
/-! DEFINITION. Mill.lean: what the Millpond's units do for a launch: their accesses to the context's memory, task records and
stage queues (R88 to R103), successor and join counters (R90, R130), idle groups and the Tailrace (R105 to R107, R138), and
tickets (R108, R109). -/
namespace Sys2Proof.Machine

/-! ### Accesses of the Millpond's units -/

/-- The number under which the Millpond's units walk page tables; their walks keep no TLB. -/
def millAgent : Nat := 198

/-- What an access of a Millpond unit comes to. -/
inductive MillRes where
  | cell (a : Nat)
  | far (leaf : Leaf) (tgt : Tgt) (a : Nat)              -- memory outside this device, or the aperture
  | wait
  | bad
deriving DecidableEq, Repr

/-- An access of n bytes at va for context k: the cell, once every line of it is free. -/
def State.millAt (s : State) (k va n : Nat) (acc : Acc) : MillRes × State :=
  match s.checkRecall millAgent k va n acc 12 with
  | (.ok _ .cell a, s) => if s.rangeFree a n then (.cell a, s) else (.wait, s.recallRange a n)
  | (.ok leaf tgt a, s) => (.far leaf tgt a, s)
  | (.busy _, s) => (.wait, s)
  | (.pri p ps pg, s) => (.wait, s.afterCheck (.pri p ps pg) 0 0)
  | (_, s) => (.bad, s)

/-- A Millpond unit of quadrant q writes bytes. -/
def State.millWrite (s : State) (a : Nat) (bs : List Byte) : State :=
  s.agentWrite (srcMill (quadOf a)) 0 ((List.range bs.length).map fun i => (a + i, bs.getD i 0))

/-! ### Task records (R88, R89) -/

/-- The 64 bytes of a record. -/
def Task.bytes (t : Task) : List Byte :=
  toLE 8 t.entry.toNat ++ toLE 8 t.arg.toNat ++ toLE 4 t.tx.toNat ++ toLE 4 t.ty.toNat ++ toLE 4 t.tz.toNat ++ toLE 4 t.seq.toNat ++
  toLE 8 t.succ.toNat ++ ((List.range 4).flatMap fun i => toLE 4 (t.uw.getD i 0).toNat) ++ toLE 2 t.lrec ++ toLE 1 t.stg ++
  List.replicate 5 0

/-- The end record of R102. -/
def endRecord : List Byte := List.replicate 28 0 ++ List.replicate 4 0xFF ++ List.replicate 32 0

/-- Does a program-built record pass the checks of R89? -/
def taskFormatOk (bs : List Byte) : Bool :=
  let f := fieldAt bs
  f 0 8 % 8 == 0 && f 0x20 8 % 4 == 0 && zeroAt bs 0x3B 5 && decide (f 0x38 2 < 4096) && decide (f 0x3A 1 < 4)

/-- A program-built record of stage `stg`, arrival number `seq` (R88), and whether it is one that R89 discards. -/
def taskOf (b : Block) (r stg seq age : Nat) (bs : List Byte) : Task :=
  let f := fieldAt bs
  let low := ((b.roles.find? fun x => x.stg == stg).getD {}).entry
  { entry := if f 0 8 = 0 then low else BitVec.ofNat 64 (f 0 8)
    arg := if f 8 8 = 0 then b.arg else BitVec.ofNat 64 (f 8 8)
    tx := BitVec.ofNat 32 (f 0x10 4), ty := BitVec.ofNat 32 (f 0x14 4), tz := BitVec.ofNat 32 (f 0x18 4)
    seq := BitVec.ofNat 32 seq, succ := BitVec.ofNat 64 (f 0x20 8)
    uw := (List.range 4).map fun i => BitVec.ofNat 32 (f (0x28 + 4 * i) 4)
    lrec := r, stg := stg, age := age, bad := !taskFormatOk bs }

/-! ### Stage queues (R98, R101) -/

/-- Base and depth of the queue out of stage s. -/
def Block.queueAt (b : Block) (s : Nat) : Nat × Nat := match b.stages[s]? with | some q => (q.1.toNat, 2 ^ q.2) | none => (0, 1)
def Rec.queue (rc : Rec) (s : Nat) : List (Nat × Nat × Nat) := Sparse.get [] rc.stageQ s

/-- Lanes parked on full stage queue s of a launch may try again. -/
def State.queueRoom (s : State) (r st : Nat) : State :=
  s.readyWhere fun g p => g.launch == r && (match p with | .stageFull q => q == st | _ => false)

/-- What taking a pending record of a stage comes to. -/
inductive Taken where
  | task (t : Task)
  | empty
  | wait
  | ended                                -- the launch has ended (R89, R98)
deriving DecidableEq, Repr

/-- The record that an entry of the queue into stage `stg` holds. -/
def State.entryTask (s : State) (r stg : Nat) (e : Nat × Nat × Nat) : Taken × State :=
  let rc := s.rcd r
  let q := rc.blk.queueAt (stg - 1)
  match s.millAt rc.ctx (q.1 + 64 * (e.1 % q.2)) 64 .load with
  | (.cell a, s) =>
    if s.poisonedRange a 64 then (.wait, s)
    else (.task (taskOf rc.blk r stg e.1 s.next (s.cells a 64)), s)
  | (.wait, s) => (.wait, s)
  | (_, s) => (.ended, s.endLaunch r .fault 0x12)

/-- The next pending record of stage `stg` in the order of R95: a record that came back, or the head of the stage's queue. -/
def State.nextTask (s : State) (r stg : Nat) : Taken × State :=
  let rc := s.rcd r
  let head := if stg = 0 then none else (rc.queue (stg - 1)).head?
  match leastBy (fun (a b : Task) => decide (a.seq.toNat < b.seq.toNat)) (rc.pending.filter fun t => t.stg == stg), head with
  | some t, some e => if e.1 % 2 ^ 32 < t.seq.toNat then s.entryTask r stg e else (.task t, s)
  | some t, none => (.task t, s)
  | none, some e => s.entryTask r stg e
  | none, none => (.empty, s)

/-- A reservation ends when the record or the suspended gang it was made for is placed, or withdrawn (R95). -/
def State.endReserve (s : State) (r stg seq : Nat) : State :=
  if (s.rcd r).resvFor = some (stg, seq) then s.setRec r { s.rcd r with resv := [], resvFor := none } else s

/-- Room in stage queue q of a launch: its slots from the oldest entry that is still queued to the tail are taken (R98). -/
def Rec.queueHasRoom (rc : Rec) (q : Nat) : Bool :=
  match rc.queue q with
  | [] => true
  | e :: _ => decide (Sparse.get 0 rc.queueTail q - e.1 < (rc.blk.queueAt q).2)

/-- The record leaves PENDING. -/
def State.claim (s : State) (r stg : Nat) (t : Task) : State :=
  let s := s.endReserve r stg t.seq.toNat
  let rc := s.rcd r
  if rc.pending.contains t then s.setRec r { rc with pending := rc.pending.filter fun x => x != t }
  else
    match (rc.queue (stg - 1)).find? fun e => e.1 % 2 ^ 32 == t.seq.toNat with
    | none => s
    | some e =>
      -- the Millrace's read of the record is a request (R25)
      let q := rc.blk.queueAt (stg - 1)
      let s := match s.millAt rc.ctx (q.1 + 64 * (e.1 % q.2)) 64 .load with
        | (.cell a, s) => s.countLines (srcMill 0) a 64
        | (_, s) => s
      (s.setRec r { rc with
        stageQ := Sparse.set [] rc.stageQ (stg - 1) ((rc.queue (stg - 1)).filter fun x => x != e)
        taken := Sparse.set false rc.taken ((e.2.1 * 4 + (stg - 1)) * 2 ^ 32 + e.2.2) true }).queueRoom r (stg - 1)

/-! ### Counters in memory (R90, R130) -/

/-- What a decrement comes to: not yet, performed, or on its way as a transaction to memory outside this device. -/
inductive DecRes where
  | wait
  | done
  | sent (id : Nat)
deriving DecidableEq, Repr

/-- A wrap of a counter is logged (R90, R130). -/
def State.logWrap (s : State) (r va v n : Nat) : State := if v < n then s.logEv .counterWrap 1 (evQuad ((s.rcd r).ctx % 4)) [r, va] else s

/-- Subtract n from the counter at va, as a device-scope atomic at its home. -/
def State.decAt (s : State) (src : Src') (core k r va n : Nat) : DecRes × State :=
  match s.millAt k va 4 .atomic with
  | (.wait, s) => (.wait, s)
  | (.bad, s) => (.done, s.endLaunch r .fault 0x11)
  | (.far leaf tgt o, s) =>
    let (id, s) := s.fresh
    let part : Part := { lane := 32, addr := o, va := va, len := 4, op := .dec n, level := leaf.level }
    (.sent id, s.setTxn id (some { core := core, gid := id, ctx := k, launch := r, tgt := tgt, line := o / 128, parts := [part], mill := true,
                                   scope := .sys, lvl := leaf.lvl, word := id }))
  | (.cell a, s) =>
    if s.poisoned a then (.wait, s)
    else
      let v := s.wordAt a 4
      let s := s.agentWrite src 0 ((List.range 4).map fun i => (a + i, (toLE 4 (wrapN ((v : Int) - (n : Int)) 32)).getD i 0))
      (.done, s.logWrap r va v n)

/-- A record's successor counter falls by 1 when it retires (R90, R103). One outside this device holds group gid, and so the
team, until it has been performed (R106): `sent` then stands for the transaction. -/
def State.retireTask (s : State) (k r core : Nat) (t : Task) : DecRes × State :=
  if t.succ = 0 then (.done, s) else s.decAt (srcMill (k % 4)) core k r t.succ.toNat 1

/-- A decrement that is on its way holds its group (R106). -/
def State.awaitDec (s : State) (r k core gid id : Nat) (t : Task) : State :=
  { s with decs := Sparse.set none s.decs id (some {
      launch := r, ctx := k, core := core, gid := gid, va := t.succ.toNat, n := 1, deps := [], sent := some id }) }

/-! ### Tickets (R108, R109) -/

def ticketKey (stg sec : Nat) : Nat := stg * 16 + sec
/-- The counter of a section. -/
def Rec.ticket (rc : Rec) (stg sec : Nat) : Nat := Sparse.get 0 rc.tickets (ticketKey stg sec)

/-- A counter moves on by one; the lanes that wait for the value it has reached try again. -/
def State.passTicket (s : State) (r stg sec : Nat) (skip : Bool) : State :=
  let rc := s.rcd r
  let v := (rc.ticket stg sec + 1) % 2 ^ 32
  (s.setRec r { rc with
    tickets := Sparse.set 0 rc.tickets (ticketKey stg sec) v
    skipped := Sparse.set false rc.skipped (ticketKey stg sec) skip }).readyWhere fun g p =>
      g.launch == r && (match p with
        | .ticket k q => k == ticketKey stg sec && decide (q ≤ v)
        | _ => false)

/-- The sections whose counters a retired record has still to pass, as SKIPPED (R109); under DETR section 15 passes with it (R110). -/
def State.oweTickets (s : State) (r stg seq : Nat) : State :=
  let rc := s.rcd r
  let secs := (List.range 16).filter fun k => decide (rc.ticket stg k ≤ seq)
  s.setRec r { rc with owed := rc.owed ++ secs.map fun k => (ticketKey stg k, seq) }

/-! ### Idle groups and the Tailrace (R105, R107, R138) -/

/-- An idle group is released with a value (R107): its QUIET lanes hold the value and pass the word. A suspended group takes
it when it is resumed. -/
def Group.unquiet (g : Group) (v : Word) : Group :=
  lanes32.foldl (fun (g : Group) l =>
    match (g.lane l).park with
    | .quiet d _ =>
      let ln : Lane := { g.lane l with park := .quiet d (some v), ready := true }
      g.setLane l (if g.resident then ln.release else ln)
    | _ => g) { g with idle := false }

/-- Idle groups for which items are there are released with 0 (R107). -/
def State.quietItems (s : State) (r : Nat) : State :=
  let rc := s.rcd r
  let has := fun (n : Nat) => !(Sparse.get [] rc.lists n).isEmpty
  (s.groupsOf r).foldl (fun s p =>
    if p.2.idle && (has p.2.core || has 255) then s.setGroup p.1 (p.2.unquiet 0) else s) s

/-- Is a group in JWAIT (R138)? A lane whose counter has reached 0 counts as released. -/
def Group.inJwait (g : Group) : Bool :=
  !g.live.isEmpty && g.live.all fun l => !(g.lane l).ready && (match (g.lane l).park with | .jwait .. => true | _ => false)

/-- Groups and suspended teams of a launch with work that is neither a wait in JWAIT nor idleness (R138). -/
def State.busyGroups (s : State) (r : Nat) : Nat :=
  let busy := fun (g : Group) => !g.live.isEmpty && !g.inJwait && !g.idle
  ((s.groupsOf r).filter fun p => if p.2.resident then !p.2.inJwait && !p.2.idle else busy p.2).length

/-- The Tailrace looks at a launch: idle groups go on with 1 when only they remain, and a launch whose waits cannot complete
ends with JOIN_STUCK (R107, R138). -/
def State.tailrace (s : State) (r : Nat) : State :=
  let s := s.quietItems r
  if (s.rcd r).st ≠ .running then s
  else
    let rest := s.countP r + s.countW r + s.countS r + s.countC r
    if rest + s.countG r = 0 && (s.groupsOf r).any fun p => p.2.idle then
      (s.groupsOf r).foldl (fun s p => if p.2.idle then s.setGroup p.1 (p.2.unquiet 1) else s) s
    else
      let rc := s.rcd r
      let left := rc.pending.length + rc.queued + sumN ((s.teamsOf r).map fun p => p.2.taken.length) + s.countW r + s.countS r + s.countC r
      if ((s.groupsOf r).any fun p => p.2.inJwait) && left == 0 && s.busyGroups r == 0 && s.countDecs r == 0 then s.endLaunch r .fault 0x16 else s

end Sys2Proof.Machine
end

