-- ==== Sys2Proof/Machine/Spawn.lean ====
section
/-! DEFINITION. Spawn.lean: SPAWN, SPWFLUSH and JWAIT (R117 to R132, R417, R418), the Chrysalis bins and the overflow rings
(R122 to R128), and join decrements (R130). -/
namespace Sys2Proof.Machine

/-- The Chrysalis unit of a core's quadrant (R122). -/
def unitOf (core : Nat) : Nat := core / 48

/-! ### SPAWN (R117, R417) -/

def execSpawn (h : Hdr) (g : Bool) (cls n : BitVec 3) (entry join pay : RegIx) (s : State) : Host.Outcome State Fault Refusal :=
  s.word (.spawn h g cls n entry join pay) h { mem := true } fun c l s =>
    let e := c.env l
    let en := (e.a64 g entry).toNat
    let jn := (e.a64 g join).toNat
    let depth := (c.g.spawned.map (·.depth)).getD 0
    if (s.rcd c.g.launch).blk.spov = 0 then (.trap 0x33 0 0, s)
    else if depth = 63 then (.trap 0x34 0 0, s)
    else if en % 8 ≠ 0 then (trapAt 0x25 0 en, s)
    else if jn % 4 ≠ 0 then (trapAt 0x25 0 jn, s)
    else if 2 ^ 57 ≤ en then (trapAt 0x26 0 en, s)
    else if 2 ^ 57 ≤ jn then (trapAt 0x26 0 jn, s)
    else
      let proto : Txn := { core := c.g.core, gid := c.gid, ctx := s.ctxOf c.g, launch := c.g.launch, tgt := .cell, line := 0, parts := [], pc := c.pc }
      let (deps, _, s) := s.releaseDeps c.gid l .dev false proto
      let (id, s) := s.fresh
      let q : SpawnReq := { gid := c.gid, lane := l, core := c.g.core, launch := c.g.launch, entry := BitVec.ofNat 64 en,
                            cls := cls.toNat, depth := depth + 1, join := BitVec.ofNat 64 jn,
                            pay := (List.range n.toNat).map fun i => e.run false pay i, deps := deps }
      (.park (.spawn id), { s with spawns := Sparse.set none s.spawns id (some q) })

/-! ### Bins (R122 to R124) -/

/-- Close the open bins of a test (R124). -/
def State.flushBins (s : State) (f : Bin → Bool) : State :=
  s.bins.foldl (fun (s : State) p =>
    if p.2.used && p.2.closed.isNone && f p.2 then
      { s with bins := Sparse.set {} s.bins p.1 { p.2 with closed := some s.next }, next := s.next + 1 }
    else s) s

/-- The most threads of a bin of a launch. -/
def State.binLimit (s : State) (r : Nat) : Nat := visible (s.rcd r).blk.prot

/-- A thread arrives at a unit: into the open bin of its key, or into a free bin; none when there is neither (R122). -/
def State.intoBin (s : State) (u : Nat) (launch : Nat) (entry : DWord) (cls depth : Nat) (join : DWord) (pay : List Word) (src : Nat) :
    Option State :=
  let add := fun (b : Nat) (x : Bin) =>
    let prot := (s.rcd launch).blk.prot
    let k := x.kids.length
    let x : Bin := { x with kids := x.kids ++ [{ lane := if prot then 2 * k else k, join := join, pay := pay, src := src }] }
    let full := decide (s.binLimit launch ≤ x.kids.length)
    let s := s.setBin u b { x with closed := if full then some s.next else none }
    some (if full then { s with next := s.next + 1 } else s)
  match (List.range 256).find? fun b =>
      let x := s.bin u b
      x.used && x.closed.isNone && x.launch == launch && x.entry == entry && x.cls == cls && x.depth == depth with
  | some b => add b (s.bin u b)
  | none =>
    match (List.range 256).find? fun b => !(s.bin u b).used with
    | some b => add b { used := true, launch := launch, entry := entry, cls := cls, depth := depth, openedAt := s.clk }
    | none => none

/-! ### Overflow rings (R125 to R128) -/

def Rec.spill (rc : Rec) (u : Nat) : Ring := Sparse.get {} rc.rings u
def Rec.setRing (rc : Rec) (u : Nat) (x : Ring) : Rec := { rc with rings := Sparse.set {} rc.rings u x }
/-- Records of a quadrant's ring. -/
def Block.ringSize (b : Block) : Nat := b.spovlen * 512
/-- Virtual address of record i of quadrant u's ring. -/
def Block.ringVa (b : Block) (u i : Nat) : Nat := b.spov.toNat + u * b.spovlen * 16384 + 32 * (i % b.ringSize)

/-- The 32 bytes of a record (R125). -/
def ringBytes (entry : DWord) (cls depth : Nat) (join : DWord) (pay : List Word) : List Byte :=
  toLE 8 (2 ^ 63 + depth * 2 ^ 57 + entry.toNat % 2 ^ 57 / 8 * 8 + cls) ++ toLE 8 (join.toNat % 2 ^ 57 / 4 * 4) ++
  (List.range 4).flatMap fun i => toLE 4 (pay.getD i 0).toNat

/-- A wait of the group has ended (R133). -/
def State.waitEnded (s : State) (gid : Nat) : State :=
  match s.group gid with
  | some g => { s.setGroup gid { g with jwaitEnded := s.next } with next := s.next + 1 }
  | none => s

/-- Is the lane of this entry one of launch r's at unit u? -/
def State.spawnerOf (s : State) (r u : Nat) (p : Nat × Nat × Nat) : Bool :=
  p.1 == u && (match s.group p.2.1 with | some g => g.launch == r | none => false)

/-- A record has left launch r's ring at a unit: the launch's oldest lane that waits for the ring is released, and the place is
kept for it (R127). -/
def State.ringRoom (s : State) (r u : Nat) : State :=
  match s.parkedSpawns.find? (s.spawnerOf r u) with
  | none => s
  | some p =>
    let s := (s.markReady p.2.1 p.2.2).waitEnded p.2.1
    { s with parkedSpawns := s.parkedSpawns.erase p, wokenSpawns := s.wokenSpawns ++ [p] }

/-- The lanes released by R127 for places of launch r's ring at a unit, in the order in which they parked: those before this lane, or all of
them where it is none of them. -/
def State.wokenBefore (s : State) (r u gid l : Nat) : List (Nat × Nat × Nat) :=
  (s.wokenSpawns.filter (s.spawnerOf r u)).takeWhile fun p => p.2 != (gid, l)

/-- Must a spawn let lanes that parked earlier take their places first (R127)? Those of suspended groups, whose places are kept, are not
waited for. -/
def State.waitsRank (s : State) (q : SpawnReq) : Bool :=
  let u := unitOf q.core
  s.wokenSpawns.contains (u, q.gid, q.lane) && (s.wokenBefore q.launch u q.gid q.lane).any fun p =>
    match s.group p.2.1 with | some g => g.resident | none => false

/-- The launch whose ring record is refilled next at a unit (R126). -/
def State.refillLaunch (s : State) (u : Nat) : Option Nat :=
  let rs := (s.recs.filter fun p => decide ((p.2.spill u).head < (p.2.spill u).tail)).map (·.1)
  leastBy (fun (a b : Nat) =>
    let x := s.rcd a
    let y := s.rcd b
    decide (y.blk.pri < x.blk.pri) || (x.blk.pri == y.blk.pri && decide ((x.spill u).ages.headD 0 < (y.spill u).ages.headD 0))) rs

/-- One refill, if a bin takes the head record of the ring whose turn it is; false when nothing more can be done now. -/
def State.refillOne (s : State) (u : Nat) : Bool × State :=
  match s.refillLaunch u with
  | none => (false, s)
  | some r =>
    let rc := s.rcd r
    let x := rc.spill u
    match s.millAt rc.ctx (rc.blk.ringVa u x.head) 32 .load with
    | (.wait, s) => (false, s)
    | (.cell a, s) =>
      let s := s.countLines (srcMill u) a 32
      let bs := s.cells a 32
      let w := fieldAt bs 0 8
      let j := fieldAt bs 8 8
      if s.poisoned a || !nbit w 63 || nbits j 63 57 != 0 || nbits j 1 0 != 0 then (false, s.endLaunch r .fault 0x14)
      else
        (match s.intoBin u r (BitVec.ofNat 64 (w % 2 ^ 57 / 8 * 8)) (w % 8) (nbits w 62 57) (BitVec.ofNat 64 j)
            ((List.range 4).map fun i => BitVec.ofNat 32 (fieldAt bs (16 + 4 * i) 4)) (x.srcs.headD 0) with
         | none => (false, s)
         | some s =>
           (true, (s.setRec r ((s.rcd r).setRing u { x with
             head := x.head + 1, ages := x.ages.drop 1, srcs := x.srcs.drop 1 })).ringRoom r u))
    | (_, s) => (false, s.endLaunch r .fault 0x13)

/-- Refill a unit's bins from the rings until a record finds none (R126). -/
def State.refill (s : State) (u : Nat) : Nat → State
  | 0 => s
  | n + 1 =>
    match s.refillOne u with
    | (true, s) => s.refill u n
    | (false, s) => s

/-- The most records one refill can move: 256 bins of 32 threads. -/
def refillMax : Nat := 8192

/-! ### SPAWN_ACCEPT (R120, R126, R127) -/

/-- A parked lane is released at once, or when its suspended group resumes; both copies under PROT. -/
def State.freeLane (s : State) (gid l : Nat) (f : Park → Park) : State :=
  match s.group gid with
  | none => s
  | some g =>
    s.onLane gid l fun ln =>
      let ln := { ln with park := f ln.park, ready := true }
      if g.resident then ln.release else ln

/-- The lane of an accepted spawn passes the SPAWN (R120). -/
def State.passSpawn (s : State) (id : Nat) (q : SpawnReq) : State :=
  let s := { s with spawns := Sparse.set none s.spawns id none,
                    wokenSpawns := s.wokenSpawns.filter fun p => p.2 != (q.gid, q.lane) }
  match s.group q.gid with
  | some g => if (g.lane q.lane).park = .spawn id then s.freeLane q.gid q.lane (fun p => p) else s
  | none => s

/-- The Chrysalis unit takes a spawn: into a bin, or to the overflow ring; with the ring full the lane parks (R126, R127). A
spawn of a launch that is ending comes to nothing (R76). -/
def State.takeSpawn (s : State) (id : Nat) (q : SpawnReq) : State :=
  let u := unitOf q.core
  let s := s.refill u refillMax
  let rc := s.rcd q.launch
  let x := rc.spill u
  let spilled := decide (x.head < x.tail)
  if rc.st ≠ .running then s.passSpawn id q
  else
  match (if spilled then none else s.intoBin u q.launch q.entry q.cls q.depth q.join q.pay q.gid) with
  | some s => s.passSpawn id q
  | none =>
    if rc.blk.ringSize ≤ x.tail - x.head + (s.wokenBefore q.launch u q.gid q.lane).length ||
        (!s.wokenSpawns.contains (u, q.gid, q.lane) && s.parkedSpawns.any (s.spawnerOf q.launch u)) then
      let (age, s) := s.fresh
      let s := { s with spawns := Sparse.set none s.spawns id none, parkedSpawns := s.parkedSpawns ++ [(u, q.gid, q.lane)] }
      s.onLane q.gid q.lane fun ln => ln.parkOn (.ringFull u) age
    else
      match s.millAt rc.ctx (rc.blk.ringVa u x.tail) 32 .store with
      | (.wait, s) => s
      | (.cell a, s) =>
        let (age, s) := s.fresh
        let s := s.millWrite a (ringBytes q.entry q.cls q.depth q.join q.pay)
        (s.setRec q.launch ((s.rcd q.launch).setRing u { x with
          tail := x.tail + 1, ages := x.ages ++ [age], srcs := x.srcs ++ [q.gid] })).passSpawn id q
      | (_, s) => s.endLaunch q.launch .fault 0x13

/-- SPAWN_ACCEPT: a spawn whose earlier stores have committed is taken (R120, R129); the spawns of a core in the order in which
they issued, those of one word in ascending lanes (R117, R123). -/
def State.spawnAccept (s : State) (id : Nat) : State :=
  match Sparse.get none s.spawns id with
  | none => s
  | some q =>
    let k := (s.rcd q.launch).ctx
    if s.waitsRank q || (listed s.spawns).any fun p => decide (p.1 < id) && p.2.core == q.core && !s.waitsRank p.2 then s
    else if q.deps.any fun d => (s.txn d).isSome then s
    else if !s.cleanTo q.core k id then s.writeBackTo q.core k id
    else s.takeSpawn id q

def execSpawnAccept (id : Nat) (s : State) : Host.Outcome State Fault Refusal := .next (s.spawnAccept id)

/-! ### SPWFLUSH, JWAIT, the timer (R124, R132, R418) -/

def execSpwflush (h : Hdr) (s : State) : Host.Outcome State Fault Refusal :=
  s.word (.spwflush h) h { mem := true, once := true } fun c _ s =>
    (.done [] [] 0, s.flushBins fun b => b.kids.any fun k => k.src == c.gid)

/-- Close the bins of a context that hold a thread with this join address. -/
def State.flushJoin (s : State) (k va : Nat) : State :=
  s.flushBins fun b => (s.rcd b.launch).ctx == k && b.kids.any fun c => c.join.toNat == va

/-- JWAIT in a lane: the flush, then the counter is read at its home, behind the thread's own stores to it, and watched (R132, R194). -/
def State.jwaitLane (s : State) (c : Ctl) (l va : Nat) : LaneRes × State :=
  let s := s.flushJoin (s.ctxOf c.g) va
  match s.checkFor c.g c.gid l va 4 .load with
  | (.ok _ .cell a, s) =>
    if s.ownPending c.gid l .cell a 4 then (.stay, s)
    else if !s.lineFree none (a / 128) then (.stay, s.recall (a / 128))
    else
      -- one request at the home for each line of the word (R25, R132)
      let s := s.requestLine c.g.core 0 0 (a / 128) []
      if s.poisonedRange a 4 then (s.poisonFault noCore a 4 0 va, s)
      else if s.wordAt a 4 = 0 then (pending, s)
      else (.park (.jwait a va), s)
  | (.ok .., s) => (trapAt 0x27 0 va, s)
  | (ch, s) => (ch.res .load va, s)

def execJwait (h : Hdr) (g : Bool) (a : RegIx) (s : State) : Host.Outcome State Fault Refusal :=
  s.word (.jwait h g a) h
    { mem := true, fin := fun c s => if c.act = 0 then s else s.tailrace c.g.launch } fun c l s =>
    let va := ((c.env l).a64 g a).toNat
    if va = 0 then (pending, s)
    else if va % 4 ≠ 0 then (trapAt 0x25 0 va, s)
    else if 2 ^ 57 ≤ va then (trapAt 0x26 0 va, s)
    else s.jwaitLane c l va

/-- Does a lane wait on a join address that a thread of the bin carries (R132)? -/
def State.binAwaited (s : State) (b : Bin) : Bool :=
  (listed s.groups).any fun p => (s.rcd p.2.launch).ctx == (s.rcd b.launch).ctx && lanes32.any fun l =>
    !(p.2.lane l).ready && (match (p.2.lane l).park with | .jwait _ va => b.kids.any fun k => k.join.toNat == va | _ => false)

/-- 30,000 network cycles, in core cycles (R124). -/
def binTime : Nat := 40000

/-- BIN_TIMER: an open bin closes when its time has passed, or when a JWAIT waits for one of its threads (R124, R132). -/
def State.binTimer (s : State) (u b : Nat) : State :=
  let x := s.bin u b
  if x.used && x.closed.isNone && (decide (x.openedAt + binTime ≤ s.clk) || s.binAwaited x) then
    { s.setBin u b { x with closed := some s.next } with next := s.next + 1 }
  else s

def execBinTimer (q bin : Nat) (s : State) : Host.Outcome State Fault Refusal := .next ((s.binTimer q bin).refill q refillMax)

/-! ### JOIN_DECREMENT (R130) -/

/-- A join decrement, once the stores of its threads have committed. -/
def State.joinDecrement (s : State) (id : Nat) : State :=
  match Sparse.get none s.decs id with
  | none => s
  | some d =>
    if d.sent.isSome then s
    else if d.deps.any fun i => (s.txn i).isSome then s
    else if !s.cleanTo d.core d.ctx id then s.writeBackTo d.core d.ctx id
    else
      match s.decAt (srcCore d.core) d.core d.ctx d.launch d.va d.n with
      | (.wait, s) => s
      | (.done, s) => ({ s with decs := Sparse.set none s.decs id none }).tailrace d.launch
      | (.sent i, s) => { s with decs := Sparse.set none s.decs id (some { d with sent := some i }) }

def execJoinDecrement (id : Nat) (s : State) : Host.Outcome State Fault Refusal := .next (s.joinDecrement id)

end Sys2Proof.Machine
end

