-- ==== Sys2Proof/Machine/Funcs.lean ====
section
/-! DEFINITION. Funcs.lean: the correctly rounded functions (R228, R229, R366). Each real value is enclosed in an interval of
big integers, whose precision doubles until both ends round alike; exact cases are taken apart first. -/
namespace Sys2Proof.Machine

/-- An interval of the positive reals: (lo × 2^s, hi × 2^s). -/
structure Encl where
  lo : Nat
  hi : Nat
  s : Int
deriving DecidableEq, Repr

/-! ### Fixed point with P fraction bits: an integer X stands for X / 2^P, with an error of a few units. -/

/-- Σ z^(2k+1)/(2k+1) × (±1)^k from a term t, for atan (alt) and atanh. -/
def atanSeries (P : Nat) (z2 : Int) (alt : Bool) : Nat → Nat → Int → Int → Int
  | 0, _, _, acc => acc
  | f + 1, k, t, acc =>
    if t = 0 then acc
    else
      let u := t / (2 * k + 1 : Int)
      atanSeries P z2 alt f (k + 1) (t * z2 / (2 ^ P : Int)) (if alt && k % 2 == 1 then acc - u else acc + u)

/-- atan or atanh of 1/n. -/
def atanInv (P n : Nat) (alt : Bool) : Int :=
  let one : Int := (2 ^ P : Nat)
  atanSeries P (one / (n * n : Int)) alt (P + 2) 0 (one / (n : Int)) 0

/-- ln 2, within 4P units. -/
def ln2Fix (P : Nat) : Int := 2 * atanInv P 3 false
/-- π, within 64P units. -/
def piFix (P : Nat) : Int := 16 * atanInv P 5 true - 4 * atanInv P 239 true

/-- Σ from a term: t, t·r/k, … for exp. -/
def expSeries (P : Nat) (r : Int) : Nat → Nat → Int → Int → Int
  | 0, _, _, acc => acc
  | f + 1, k, t, acc => if t = 0 then acc else expSeries P r f (k + 1) (t * r / ((2 ^ P : Nat) * (k + 1 : Int))) (acc + t)

/-- Σ of the alternate terms of sin (from t = r, k = 1) and cos (from t = 1, k = 0). -/
def trigSeries (P : Nat) (r2 : Int) : Nat → Nat → Int → Int → Int
  | 0, _, _, acc => acc
  | f + 1, k, t, acc =>
    if t = 0 then acc
    else trigSeries P r2 f (k + 2) (-(t * r2 / ((2 ^ P : Nat) * ((k + 1) * (k + 2) : Int)))) (acc + t)

/-- m × 2^e in fixed point, rounded down. -/
def fixOf (P : Nat) (m : Nat) (e : Int) : Int :=
  let sh := e + P
  if 0 ≤ sh then (m * 2 ^ sh.toNat : Nat) else (m / 2 ^ (-sh).toNat : Nat)

/-- The interval about X / 2^P × 2^k with an error of err units. -/
def enclose (P err : Nat) (X k : Int) : Encl :=
  { lo := (X - err).toNat, hi := (X + err).toNat, s := k - P }

/-- e^X for X in fixed point: the enclosure. -/
def expFix (P : Nat) (X : Int) : Encl :=
  let l := ln2Fix P
  let k := X / l
  let r := X - k * l
  enclose P (16 * P + 8 * P * k.natAbs + 64) (expSeries P r (P + 2) 0 (2 ^ P : Nat) 0) k

/-- e^±(m × 2^e): beyond 2^12 the value is out of every format's range. -/
def expEncl (P : Nat) (neg : Bool) (m : Nat) (e : Int) : Encl :=
  if 12 < e + (bitLen m : Int) then { lo := 1, hi := 2, s := if neg then -20000 else 20000 }
  else
    let x := fixOf P m e
    expFix P (if neg then -x - 1 else x)

/-- 2^±(m × 2^e). -/
def exp2Encl (P : Nat) (neg : Bool) (m : Nat) (e : Int) : Encl :=
  if 16 < e + (bitLen m : Int) then { lo := 1, hi := 2, s := if neg then -70000 else 70000 }
  else
    let x := fixOf P m e
    let x := if neg then -x - 1 else x
    let one : Int := (2 ^ P : Nat)
    let k := x / one
    enclose P (16 * P + 64) (expSeries P ((x - k * one) * ln2Fix P / one) (P + 2) 0 one 0) k

/-- ln of m × 2^e as a signed fixed-point value and an error. -/
def lnFix (P : Nat) (m : Nat) (e : Int) : Int × Nat :=
  let one : Int := (2 ^ P : Nat)
  let E := e + (bitLen m : Int) - 1
  let y := fixOf P m (-((bitLen m : Int) - 1))          -- in [1, 2)
  let (y, E) := if 4 * one < 3 * y then (y / 2, E + 1) else (y, E)
  let z := (y - one) * one / (y + one)
  (E * ln2Fix P + 2 * atanSeries P (z * z / one) false (P + 2) 0 z 0, 16 * P + 8 * P * E.natAbs + 64)

/-- A signed fixed-point value with an error, as a sign and an interval. -/
def signed (P : Nat) (v : Int × Nat) : Bool × Encl := (decide (v.1 < 0), enclose P v.2 v.1.natAbs 0)

/-- ln x. -/
def lnEncl (P : Nat) (m : Nat) (e : Int) : Bool × Encl := signed P (lnFix P m e)

/-- log2 x. -/
def log2Encl (P : Nat) (m : Nat) (e : Int) : Bool × Encl :=
  let one : Int := (2 ^ P : Nat)
  let v := lnFix P m e
  signed P (v.1 * one / ln2Fix P, 2 * v.2 + 8 * P * ((e + (bitLen m : Int)).natAbs + 2) + 64)

/-- sin and cos of an angle r in [0, π/2) in fixed point with an error. -/
def sinFix (P : Nat) (r : Int) : Int := trigSeries P (r * r / (2 ^ P : Nat)) (P + 2) 1 r 0
def cosFix (P : Nat) (r : Int) : Int := trigSeries P (r * r / (2 ^ P : Nat)) (P + 2) 0 (2 ^ P : Nat) 0

/-- sin (cos when `c`) of quadrant q plus r: the sign and the interval. -/
def quadTrig (P err : Nat) (c : Bool) (q : Nat) (r : Int) : Bool × Encl :=
  let q := (if c then q + 1 else q) % 4
  let v := if q % 2 = 0 then sinFix P r else cosFix P r
  let v := if q < 2 then v else -v
  signed P (v, err + 16 * P + 64)

/-- sin or cos of m × 2^e radians, the argument reduced exactly (R228). -/
def trigEncl (P : Nat) (c : Bool) (m : Nat) (e : Int) : Bool × Encl :=
  let G := (if 0 < e + (bitLen m : Int) then (e + (bitLen m : Int)).toNat else 0) + 16
  let half := piFix (P + G) / 2
  let x := fixOf (P + G) m e
  let k := x / half
  quadTrig P (64 * (P + G)) c (k % 4).toNat ((x - k * half) / (2 ^ G : Nat))

/-- sin or cos of π × m × 2^e, for an argument that is no multiple of 1/2. -/
def trigPiEncl (P : Nat) (c : Bool) (m : Nat) (e : Int) : Bool × Encl :=
  -- with t the argument mod 2, in units of 2^e: quadrant ⌊2t⌋, rest below 1/2
  let n := (-e).toNat
  let t := m % 2 ^ (n + 1)
  let q := 2 * t / 2 ^ n
  let r := 2 * t % 2 ^ n                                 -- rest × 2^(n+1)
  quadTrig P (64 * P) c q (fixOf P r (-((n : Int) + 1)) * piFix P / (2 ^ P : Nat))

/-- tanh of m × 2^e > 0. -/
def tanhEncl (P : Nat) (m : Nat) (e : Int) : Encl :=
  if 12 < e + (bitLen m : Int) then { lo := 2 ^ P - 1, hi := 2 ^ P, s := -(P : Int) }
  else
    let x := expEncl P true m (e + 1)                    -- e^(−2x), below 1
    -- (1 − y) / (1 + y), falling in y = n × 2^s with s ≤ 0
    let d := (-x.s).toNat
    let f := fun (n : Nat) => (2 ^ d - n) * 2 ^ P / (2 ^ d + n)
    { lo := f x.hi - 1, hi := f x.lo + 1, s := -(P : Int) }

/-- 1 / (1 + e^−x) for x = ±m × 2^e. -/
def sigmEncl (P : Nat) (neg : Bool) (m : Nat) (e : Int) : Encl :=
  if 12 < e + (bitLen m : Int) then
    (if neg then { lo := 1, hi := 2, s := -20000 } else { lo := 2 ^ P - 1, hi := 2 ^ P, s := -(P : Int) })
  else
    let x := expEncl P true m e                          -- y = e^−|x|, below 1
    let d := (-x.s).toNat
    if neg then                                          -- y / (1 + y), rising in y
      let f := fun (n : Nat) => n * 2 ^ (P + d) / (2 ^ d + n)
      { lo := f x.lo - 1, hi := f x.hi + 1, s := -((P + d : Nat) : Int) }
    else                                                 -- 1 / (1 + y), falling in y
      let f := fun (n : Nat) => 2 ^ d * 2 ^ P / (2 ^ d + n)
      { lo := f x.hi - 1, hi := f x.lo + 1, s := -(P : Int) }

/-- Double the precision until both ends of the enclosure round alike (R228). -/
def settle (F : Format) (dir : Nat) (f : Nat → Bool × Encl) : Nat → Nat → Nat × BitVec 5
  | 0, P => let r := f P; F.round dir r.1 r.2.lo r.2.s true
  | fuel + 1, P =>
    let r := f P
    if bitLen r.2.lo < F.p + 3 && !(r.2.hi == r.2.lo + 1 && (decide (r.2.s < -10000) || decide (10000 < r.2.s))) then settle F dir f fuel (2 * P)
    else
      let a := F.round dir r.1 r.2.lo r.2.s true
      let b := F.round dir r.1 (r.2.hi - 1) r.2.s true
      if a = b then a else settle F dir f fuel (2 * P)

def settled' (F : Format) (dir : Nat) (f : Nat → Bool × Encl) : Nat × BitVec 5 := settle F dir f 8 (F.p + 64)

/-- The functions of group 0x5. -/
inductive Fn where
  | exp | exp2 | log | log2 | sin | cos | sinpi | cospi | tanh | sigm
deriving DecidableEq, Repr

/-- An integer value m × 2^e as an integer, when it is one. -/
def asInt (m : Nat) (e : Int) : Option Nat :=
  if 0 ≤ e then some (m * 2 ^ e.toNat)
  else if (-e).toNat ≤ bitLen m && m % 2 ^ (-e).toNat == 0 then some (m / 2 ^ (-e).toNat) else none

/-- The value of a function on an operand that is no NaN (R228, R229). -/
def Format.fn (F : Format) (fn : Fn) (dir : Nat) (v : FVal) : Nat × BitVec 5 :=
  let one := fun (neg : Bool) => F.ofFin dir (neg, 1, 0)
  match v with
  | .nan .. => F.invalid
  | .inf n =>
    (match fn with
     | .exp | .exp2 => if n then (0, 0) else F.inf false
     | .log | .log2 => if n then F.invalid else F.inf false
     | .sin | .cos | .sinpi | .cospi => F.invalid
     | .tanh => one n
     | .sigm => if n then (0, 0) else one false)
  | .fin n m e =>
    if m = 0 then
      (match fn with
       | .exp | .exp2 | .cos | .cospi => one false
       | .log | .log2 => (F.sgn true + F.infBits, flagDZ)
       | .sin | .sinpi | .tanh => (F.sgn n, 0)
       | .sigm => F.ofFin dir (false, 1, -1))
    else
      match fn with
      | .exp => settled' F dir fun P => (false, expEncl P n m e)
      | .exp2 =>
        if 16 < e + (bitLen m : Int) then settled' F dir fun P => (false, exp2Encl P n m e)
        else
          match asInt m e with
          | some k => F.ofFin dir (false, 1, if n then -(k : Int) else k)
          | none => settled' F dir fun P => (false, exp2Encl P n m e)
      | .log =>
        if n then F.invalid
        else if asInt m e = some 1 then (0, 0)
        else settled' F dir fun P => lnEncl P m e
      | .log2 =>
        if n then F.invalid
        else if m = 2 ^ (bitLen m - 1) then F.ofInt dir (e + (bitLen m : Int) - 1)
        else settled' F dir fun P => log2Encl P m e
      | .sin => settled' F dir fun P => let r := trigEncl P false m e; (r.1 ^^ n, r.2)
      | .cos => settled' F dir fun P => trigEncl P true m e
      | .sinpi =>
        (match asInt m (e + 1) with
         | some k =>                                      -- x = k / 2
           if k % 2 = 0 then (F.sgn n, 0) else one ((k % 4 == 3) ^^ n)
         | none => settled' F dir fun P => let r := trigPiEncl P false m e; (r.1 ^^ n, r.2))
      | .cospi =>
        (match asInt m (e + 1) with
         | some k => if k % 2 = 1 then (0, 0) else one (k % 4 == 2)
         | none => settled' F dir fun P => trigPiEncl P true m e)
      | .tanh => settled' F dir fun P => (n, tanhEncl P m e)
      | .sigm => settled' F dir fun P => (false, sigmEncl P n m e)

end Sys2Proof.Machine
end

