-- ==== Sys2Proof/Machine/Copy.lean ====
section
/-! DEFINITION. Copy.lean: tensor layout records, the copy commands, landings and completions, and batches (R235 to R247, R402
to R404). -/
namespace Sys2Proof.Machine

/-! ### Tensor layout records (R235 to R238) -/

/-- The fields of a record that the engine uses. -/
structure Tlr where
  elem : Nat
  rank : Nat
  dtype : Nat
  pln : Nat
  swz : Nat
  fill : Nat
  box : List Nat
  ext : List Nat
  str : List Nat                         -- STR1 to STR4
deriving DecidableEq, Repr

def Tlr.ofBytes (bs : List Byte) : Tlr :=
  let f := fieldAt bs
  { elem := f 1 1, rank := f 2 1, dtype := f 3 1, pln := f 4 1, swz := f 5 1, fill := f 6 1
    box := (List.range 5).map fun d => f (8 + 2 * d) 2
    ext := (List.range 5).map fun d => f (0x14 + 4 * d) 4
    str := (List.range 4).map fun d => f (0x28 + 4 * d) 4 }

def Tlr.typed (t : Tlr) : Bool := decide (4 ≤ t.elem)
/-- Bytes of an element in the packed box. -/
def Tlr.size (t : Tlr) : Nat := if t.typed then (if t.dtype = 1 then 2 else 4) else 2 ^ t.elem
/-- Elements of the box. -/
def Tlr.count (t : Tlr) : Nat := (t.box.take t.rank).foldl (· * ·) 1
def Tlr.bytes (t : Tlr) : Nat := t.count * t.size
/-- The page format of a typed ELEM (R182). -/
def Tlr.fmt (t : Tlr) : Nat := t.elem - 3

/-- The checks of R238 that the record alone decides. -/
def Tlr.ok (t : Tlr) (load : Bool) (bs : List Byte) : Bool :=
  fieldAt bs 0 1 == 1 && zeroAt bs 7 1 && zeroAt bs 0x12 2 && zeroAt bs 0x38 8 &&
  t.elem ≤ 7 && 1 ≤ t.rank && t.rank ≤ 5 &&
  (if t.typed then t.dtype == 1 || t.dtype == 2 else t.dtype == 0) &&
  (if t.elem = 4 then 1 ≤ t.pln && t.pln ≤ 8 else t.pln == 0) &&
  t.swz ≤ 3 && (t.fill == 0 || (t.fill == 1 && t.typed)) &&
  ((List.range 5).all fun d => if d < t.rank then 1 ≤ t.box.getD d 0 && t.box.getD d 0 ≤ 256 else t.box.getD d 0 == 0) &&
  ((List.range 5).all fun d => if d < t.rank then 1 ≤ t.ext.getD d 0 else t.ext.getD d 0 == 0) &&
  ((List.range 4).all fun d => d + 1 < t.rank || t.str.getD d 0 == 0) &&
  t.box.getD 0 0 * t.size % 16 == 0 && (t.swz == 0 || t.bytes % 2 ^ (7 + t.swz) == 0) && (load || !t.typed)

/-- Where the elements of a box come from (R236, R237). -/
structure Box where
  t : Tlr
  base : Nat
  ext : List Nat
  org : List Int
deriving DecidableEq, Repr

def boxOf (body : List Byte) (base e0 e1 : Nat) (org : List Int) : Box :=
  let t := Tlr.ofBytes body
  { t := t, base := base, org := org
    ext := (List.range t.rank).map fun d => if d = 0 ∧ e0 ≠ 0 then e0 else if d = 1 ∧ e1 ≠ 0 then e1 else t.ext.getD d 0 }

/-- Tensor coordinates of the j-th element of the box, in row-major order with dimension 0 fastest. -/
def Box.coords (b : Box) (j : Nat) : List Int :=
  ((List.range b.t.rank).foldl (fun (acc : List Int × Nat) d =>
    let w := b.t.box.getD d 1
    (acc.1 ++ [b.org.getD d 0 + (acc.2 % w : Nat)], acc.2 / w)) ([], j)).1
/-- Is the element in bounds? -/
def Box.inside (b : Box) (j : Nat) : Bool :=
  ((b.coords j).zip b.ext).all fun p => decide (0 ≤ p.1) && decide (p.1 < (p.2 : Int))
/-- Element offset of the strides: dimension 0, and the sum over the others. -/
def Box.place (b : Box) (j : Nat) : Nat × Nat :=
  let c := (b.coords j).map Int.toNat
  (c.headD 0, sumN ((List.range (b.t.rank - 1)).map fun d => c.getD (d + 1) 0 * b.t.str.getD d 0))
/-- Virtual address of a raw element. -/
def Box.rawVa (b : Box) (j : Nat) : Nat := (b.base + (b.place j).1 * b.t.size + (b.place j).2 * 16) % 2 ^ 64

/-- Elements of one subpage (R184). -/
def subpageElems (fmt pl blk : Nat) : Nat :=
  let limit := if blk = 0 then 65536 else 61440
  if fmt = 1 then 128 * (limit / (16 * pl)) else limit

/-- Where a packed byte offset lands under SWZ (R237). -/
def swizzle (swz off : Nat) : Nat :=
  if swz = 0 then off else off ^^^ (off / 128 % 2 ^ swz * 16)

/-! ### Reading elements -/

/-- What a piece of a box gives: bytes, flags, elements with flags, and whether some source was poisoned. -/
structure Piece where
  bs : List Byte
  flags : BitVec 5 := 0
  exc : Nat := 0
  poison : Bool := false
deriving DecidableEq, Repr

inductive PieceRes where
  | ok (p : Piece)
  | no (r : EngRes)
deriving DecidableEq, Repr

/-- One typed element at a scratchpad destination (R185, R237, R240). -/
def State.typedElem (s : State) (e : Eng) (b : Box) (j : Nat) : PieceRes × State :=
  match s.engCheck e b.base 1 .load with
  | (.ok l0 _ _, s) =>
    let n := (b.place j).1 + (b.place j).2
    let per := subpageElems l0.fmt l0.pl l0.blk
    let sub := b.base + n / per * 65536
    (match s.engCheck e sub 1 .load with
     | (.ok l _ _, s) =>
       if l.fmt ≠ b.t.fmt then (.no (.fail 0x2D), s)
       else
         (match typedBytes l.fmt l.pl l.blk b.t.pln (n % per) with
          | .error c => (.no (.fail c), s)
          | .ok (offs, sc) =>
            match s.engReads e ((sc.toList ++ offs).map fun o => (sub + o, 1)) with
            | (.ok bs p, s) =>
              let scale := match sc with | some _ => some (bs.headD 0).toNat | none => none
              let x := typedElement l.fmt l.pl b.t.pln (n % per) (if sc.isSome then bs.drop 1 else bs)
              let D := if b.t.dtype = 1 then fmtB16 else fmt32
              let r := decodeTyped D l.fmt x scale
              if p then (.ok { bs := List.replicate b.t.size 0, poison := true }, s)
              else (.ok { bs := toLE b.t.size r.1, flags := r.2, exc := b2n (r.2 != 0) }, s)
            | (r, s) => (.no r, s))
     | (ch, s) => (.no (ch.engRes sub), s))
  | (ch, s) => (.no (ch.engRes b.base), s)

/-- FILL (R235). -/
def Box.fillBytes (b : Box) : List Byte :=
  if b.t.fill = 0 then List.replicate b.t.size 0
  else toLE b.t.size (if b.t.dtype = 1 then fmtB16.nanBits else fmt32.nanBits)

/-- One element of a box as its destination receives it. -/
def State.boxElem (s : State) (e : Eng) (b : Box) (j : Nat) : PieceRes × State :=
  if !b.inside j then (.ok { bs := b.fillBytes }, s)
  else if b.t.typed then s.typedElem e b j
  else
    match s.engRead e (b.rawVa j) b.t.size with
    | (.ok bs p, s) => (.ok { bs := if p then List.replicate b.t.size 0 else bs, poison := p }, s)
    | (r, s) => (.no r, s)

/-- Elements j to j + n − 1 of a box. -/
def State.boxElems (s : State) (e : Eng) (b : Box) : Nat → Nat → PieceRes × State
  | _, 0 => (.ok { bs := [] }, s)
  | j, n + 1 =>
    match s.boxElem e b j with
    | (.ok p, s) =>
      (match s.boxElems e b (j + 1) n with
       | (.ok q, s) => (.ok { bs := p.bs ++ q.bs, flags := p.flags ||| q.flags, exc := p.exc + q.exc, poison := p.poison || q.poison }, s)
       | r => r)
    | r => r

/-! ### Landing (R240, R244) -/

/-- The engine that carries a copy. -/
def Copy.eng (c : Copy) (id : Nat) : Eng :=
  { id := id, agent := (match c.quad with | some q => 192 + q | none => c.core), core := c.core, ctx := c.ctx, launch := c.launch
    src := match c.quad with | some q => srcMill q | none => srcCore c.core }

/-- Sectors that n bytes from a touch. -/
def sectorsOf (a n : Nat) : Nat := (a % 32 + n + 31) / 32

/-- The bytes of a box in memory, with where they lie in the packed box. -/
def Box.places (b : Box) : List (Nat × Nat) :=
  (List.range b.t.count).flatMap fun j => if b.inside j then (List.range b.t.size).map fun k => (b.rawVa j + k, j * b.t.size + k) else []

/-- The memory sectors of a box, in the order in which it reaches them. -/
def Box.sectors (b : Box) : List Nat := ((b.places).map fun p => p.1 / 32).eraseDups

/-- The bytes of a box in one sector, ascending; where two of its elements share a byte the later one stands (log entry 126). -/
def Box.sectorBytes (b : Box) (x : Nat) : List (Nat × Nat) :=
  let ps := b.places.filter fun p => p.1 / 32 == x
  (List.range 32).filterMap fun i => (ps.reverse.find? fun p => p.1 == 32 * x + i)

/-- Units that a copy lands: granules of a scratchpad; sectors of memory. -/
def CopyKind.units (k : CopyKind) : Nat :=
  match k with
  | .tensor true _ (some body) .. => (Tlr.ofBytes body).bytes / 16
  | .tensor false _ (some body) base e0 e1 org _ => (boxOf body base e0 e1 org).sectors.length
  | .tensor _ _ none .. => 1
  | .lin true _ d _ n => sectorsOf d n
  | .lin false _ _ _ n => n / 16
  | .fill true d n _ => sectorsOf d n
  | .fill false _ n _ => n / 16

/-- Has the copy landed all it will? -/
def Copy.landed (c : Copy) : Bool :=
  c.failed || (match c.kind with | .tensor _ _ none .. => false | k => decide (k.units ≤ c.pos))

/-- A copy ends with status FAULT (R240). -/
def State.failCopy (s : State) (id : Nat) : State :=
  match s.copy id with
  | some c => s.setCopy id (some { c with failed := true })
  | none => s

/-- What an access that was refused does to a copy: it waits, is held on a report, or ends (R240). -/
def State.copyRes (s : State) (id : Nat) (acc : Nat) (r : EngRes) : State :=
  match s.copy id with
  | none => s
  | some c =>
    match r with
    | .hold code va lo hi =>
      let (i, s) := s.engReport (c.eng id) code acc va lo hi (if c.quad.isSome then 0xFFFF else c.core)
      (s.setCopy id (some { c with report := some i })).writeReport c.ctx i
    | .fail _ => s.failCopy id
    | _ => s

/-- The record or the data are malformed: FAULT, and TLR_FORMAT is logged (R238). -/
def State.tlrFault (s : State) (id : Nat) : State := (s.failCopy id).logEv .tlrFormat 2 (match s.copy id with | some c => evCore c.core | none => evQuad 0) [id]

/-- One more unit has landed. -/
def State.stepCopy (s : State) (id : Nat) (p : Piece) : State :=
  match s.copy id with
  | none => s
  | some c =>
    s.setCopy id (some { c with pos := c.pos + 1, status := gatherRun c.status (p.flags.toNat * 2048 + Nat.min p.exc 127 * 16 + 8 * b2n p.poison) })

/-- A granule lands in the copy's scratchpad, and is counted on its barrier (R240, R244). -/
def State.landGranule (s : State) (id off : Nat) (p : Piece) : State :=
  match s.copy id with
  | none => s
  | some c =>
    match s.team c.team with
    | none => s.failCopy id
    | some t =>
      if s.scrBytes t < off + 16 then s.failCopy id
      else
        let s := (s.stepCopy id p).engScratch c.team off p.bs
        match c.bar with
        | some o => if c.bound then s.barEvent c.barTeam o fun b => b.land 16 else s
        | none => s

/-- A unit's data lands in memory. -/
def State.landSector (s : State) (id : Nat) (c : Copy) (va : Nat) (p : Piece) : State :=
  if p.bs.isEmpty then s.stepCopy id p
  else
    match s.engWrite (c.eng id) va p.bs p.poison (c.pos == 0 || decide (va % 128 < 32)) with
    | (.ok .., s) => s.stepCopy id { bs := [] }
    | (r, s) => s.copyRes id 1 r

/-- The record of a copy: as it was read at the issue, or read now where the issue found no translation of it. -/
def State.record (s : State) (id : Nat) (c : Copy) (recVa : Nat) : EngRes × State :=
  match c.snap with
  | some bs => (.ok bs ((s.bufOf id).any fun b => b.2.2), s)
  | none => s.engReads (c.eng id) (sectorPieces recVa 64)

/-- The engine reads and checks a copy's record (R236, R238): as it stood at the issue. A record with a poisoned sector is malformed (DESIGN
CHOICE, log entry 146). -/
def State.readTlr (s : State) (id : Nat) (c : Copy) (load : Bool) (recVa base e0 e1 : Nat) (org : List Int) (scr : Nat) : State :=
  let e := c.eng id
  match s.record id c recVa with
  | (.ok bs p, s) =>
    let b := boxOf bs base e0 e1 org
    if p ∨ !b.t.ok load bs ∨ (b.t.typed ∧ base % 65536 ≠ 0) then s.tlrFault id
    else
      let put := fun (s : State) => s.setCopy id (some { c with kind := .tensor load recVa (some bs) base e0 e1 org scr })
      if !b.t.typed then put s
      else
        (match (List.range b.t.count).find? fun j => b.inside j with
         | none => put s
         | some j =>
           match s.engCheck e base 1 .load with
           | (.ok l0 _ _, s) =>
             let n := (b.place j).1 + (b.place j).2
             let sub := base + n / Nat.max 1 (subpageElems l0.fmt l0.pl l0.blk) * 65536
             (match s.engCheck e sub 1 .load with
              | (.ok l _ _, s) => if l.fmt ≠ b.t.fmt ∨ (b.t.elem = 4 ∧ l.pl < b.t.pln) then s.tlrFault id else put s
              | (ch, s) => s.copyRes id 0 (ch.engRes sub))
           | (ch, s) => s.copyRes id 0 (ch.engRes base))
  | (r, s) => s.copyRes id 0 r

/-- One unit of a CPT store: all bytes of the box that fall into one memory sector, as one write (R237, R240). A source past SCR ends
the copy. -/
def State.storeBoxUnit (s : State) (id : Nat) (c : Copy) (b : Box) (scr : Nat) : State :=
  match b.sectors[c.pos]? with
  | none => s.stepCopy id { bs := [] }
  | some x =>
    let ws := b.sectorBytes x
    let size := match s.team c.team with | some t => s.scrBytes t | none => 0
    if ws.any fun w => decide (size ≤ scr + swizzle b.t.swz w.2) then s.failCopy id
    else
      match s.engPut (c.eng id) (ws.map fun w => (w.1, (s.readScratch c.team (scr + swizzle b.t.swz w.2) 1).headD 0)) false
          (!(b.sectors.take c.pos).any fun y => y / 4 == x / 4) with
      | (.ok .., s) => s.stepCopy id { bs := [] }
      | (r, s) => s.copyRes id 1 r

/-- The teams of a core's copy: the one that issued it, the one whose scratchpad it uses, and its barrier's (R291). Quadrant copies are
not stopped. -/
def Copy.teams (c : Copy) : List Nat :=
  if c.quad.isSome then [] else c.team :: c.owner :: (if c.bar.isSome then [c.barTeam] else [])

/-- Does a team that has left its core hold the copy up (R291)? -/
def State.copyHeld (s : State) (c : Copy) : Bool := s.away c.teams

/-- A core's copy stops at a 4 KiB boundary while one of its teams is to stop, and it starts its next 4 KiB in an issue cycle (R29, R291). -/
def State.copyGoes (s : State) (c : Copy) : Bool :=
  c.quad.isSome || !c.atBoundary || (s.issueCycle c.core && !s.stopAsked c.teams)

/-- Has a core's copy come to where it stops (R291)? -/
def Copy.atRest (c : Copy) : Bool := c.atBoundary || c.landed

/-- The next landing of a copy (R240). -/
def State.copyLanding (s : State) (id : Nat) : State :=
  match s.copy id with
  | none => s
  | some c =>
    if s.copyHeld c || !s.copyGoes c || c.failed || c.report.isSome || c.deps.any (fun d => (s.txn d).isSome) || c.landed then s
    else
      let e := c.eng id
      match c.kind with
      | .tensor load recVa none base e0 e1 org scr => s.readTlr id c load recVa base e0 e1 org scr
      | .tensor true _ (some body) base e0 e1 org scr =>
        let b := boxOf body base e0 e1 org
        let n := 16 / b.t.size
        (match s.boxElems e b (c.pos * n) n with
         | (.ok p, s) => s.landGranule id (scr + swizzle b.t.swz (16 * c.pos)) p
         | (.no r, s) => s.copyRes id 0 r)
      | .tensor false _ (some body) base e0 e1 org scr => s.storeBoxUnit id c (boxOf body base e0 e1 org) scr
      | .lin false _ dst src _ =>
        (match s.engRead e (src + 16 * c.pos) 16 with
         | (.ok bs p, s) => s.landGranule id (dst + 16 * c.pos) { bs := if p then List.replicate 16 0 else bs, poison := p }
         | (r, s) => s.copyRes id 0 r)
      | .lin true srcMem dst src n =>
        let cut := (sectorPieces dst n).getD c.pos (dst, 0)
        if srcMem then
          match s.engReads e (sectorPieces (src + (cut.1 - dst)) cut.2) with
          | (.ok bs p, s) => s.landSector id c cut.1 { bs := bs, poison := p }
          | (r, s) => s.copyRes id 0 r
        else s.landSector id c cut.1 { bs := s.readScratch c.team (src + (cut.1 - dst)) cut.2 }
      | .fill false dst _ pat => s.landGranule id (dst + 16 * c.pos) { bs := (List.range 4).flatMap fun _ => toLE 4 pat.toNat }
      | .fill true dst n pat =>
        let cut := (sectorPieces dst n).getD c.pos (dst, 0)
        s.landSector id c cut.1 { bs := (List.range (cut.2 / 4)).flatMap fun _ => toLE 4 pat.toNat }

/-! ### Batches (R247, R404) -/

/-- The batches of a thread that are closed and incomplete. -/
def State.batches (s : State) (gid l : Nat) : List Nat :=
  (((listed s.copies).filter fun p => p.2.gid == gid && p.2.lane == l && decide (p.2.batch < 65536)).map fun p => p.2.batch).eraseDups
/-- Does the thread's open batch hold a copy that is not complete? -/
def State.openPending (s : State) (gid l : Nat) : Bool :=
  (listed s.copies).any fun p => p.2.gid == gid && p.2.lane == l && p.2.batch == 65536

/-- Is a CPWAIT's condition met? -/
def State.waitMet (s : State) (gid l : Nat) (p : Park) : Bool :=
  match p with
  | .batch n => decide ((s.batches gid l).length ≤ n)
  | .upto b => !(s.batches gid l).any fun m => decide ((b + 65536 - m) % 65536 < 32768)
  | _ => false

/-- CPWAIT lanes of a thread whose condition is met are released. -/
def State.wakeBatches (s : State) (gid l : Nat) : State :=
  match s.group gid with
  | none => s
  | some g => if s.waitMet gid l (g.lane l).park then s.markReady gid l else s

/-- Close the open batch of a thread: its mark rises when the batch holds a copy. -/
def State.closeBatch (s : State) (gid l : Nat) : State :=
  match s.group gid with
  | none => s
  | some g =>
    if !(g.lane l).openBatch then s
    else
      let m := (g.lane l).mark + 1
      let s := s.onLane gid l fun ln => { ln with mark := m, openBatch := false }
      { s with copies := mapVals none s.copies fun v => v.map fun c =>
          if c.gid = gid ∧ c.lane = l ∧ c.batch = 65536 then { c with batch := m.toNat } else c }

/-- A CPCOMMIT or CPWAIT that would close a seventeenth incomplete batch is not ready. -/
def commitReady (c : Ctl) (s : State) : Bool :=
  (lanesOf c.act).all fun l => !(s.openPending c.gid l && decide (16 ≤ (s.batches c.gid l).length))

def execCpcommit (h : Hdr) (d : RegIx) (s : State) : Host.Outcome State Fault Refusal :=
  s.word (.cpcommit h d) h { mem := true, ready := commitReady } fun c l s =>
    let s := s.closeBatch c.gid l
    match s.group c.gid with
    | some g => (.done [(d.toNat, (g.lane l).mark.zeroExtend 32)] [] 0, s)
    | none => (pending, s)

/-- CPWAIT in one lane. -/
def State.waitLane (s : State) (c : Ctl) (l : Nat) (p : Park) : LaneRes × State :=
  let s := s.closeBatch c.gid l
  if s.waitMet c.gid l p then (pending, s) else (.park p, s)

def execCpwait (h : Hdr) (n : Kind) (s : State) : Host.Outcome State Fault Refusal :=
  s.word (.cpwait h n) h { mem := true, ready := commitReady } fun c l s =>
    let v := ((c.env l).kind n).toNat
    if 15 < v then (badOperand, s) else s.waitLane c l (.batch v)

def execCpwaitUpto (h : Hdr) (b : Kind) (s : State) : Host.Outcome State Fault Refusal :=
  s.word (.cpwaitUpto h b) h { mem := true, ready := commitReady } fun c l s =>
    s.waitLane c l (.upto (((c.env l).kind b).toNat % 65536))

/-! ### Completion (R242, R244, R245, R403) -/

/-- The 8 bytes of a stamp (R242). -/
def stampBytes (tag : Word) (fault : Bool) (flags : BitVec 5) : List Byte := toLE 4 tag.toNat ++ [if fault then 1 else 0] ++ toLE 3 flags.toNat

/-- The copy leaves its engine. -/
def State.dropCopy (s : State) (id : Nat) (c : Copy) : State :=
  let s := ((s.setCopy id none).setBuf id []).wakeBatches c.gid c.lane
  s.freeRoom (match c.quad with | some q => .quadCopy q | none => .coreCopy c.core)

/-- A copy completes: on its barrier, or by its stamp, written after the payload is visible (R242, R244). -/
def State.copyCompletion (s : State) (id : Nat) : State :=
  match s.copy id with
  | none => s
  | some c =>
    if s.copyHeld c || !c.landed || c.report.isSome then s
    else
      match c.stamp with
      | none =>
        let s := s.dropCopy id c
        (match c.bar with
         | some o => if c.bound then s.barEvent c.barTeam o fun b => b.complete (c.status ||| (if c.failed then stFault else 0)) else s
         | none => s)
      | some (va, tag) =>
        if !s.engSettled id then s
        else
          match s.engWrite (c.eng id) va (stampBytes tag c.failed 0) false true with
          | (.ok .., s) => s.dropCopy id c
          | (.wait, s) => s
          | (.hold code v lo hi, s) =>
            if code = causePage then s.copyRes id 1 (.hold code v lo hi)
            else (s.logEv .stampUnwritable 2 (evCore c.core) [id]).dropCopy id c
          | (.fail _, s) => (s.logEv .stampUnwritable 2 (evCore c.core) [id]).dropCopy id c

def execCopyLanding (id : Nat) (s : State) : Host.Outcome State Fault Refusal := .next (s.copyLanding id)
def execCopyCompletion (id : Nat) (s : State) : Host.Outcome State Fault Refusal := .next (s.copyCompletion id)

/-! ### The copy commands (R402, R403) -/

/-- A scratch operand: its team and offset; `.cscr` addresses name a team of the cluster. -/
def State.scrArg (s : State) (c : Ctl) (clu : Bool) (off : Nat) : Except LaneRes (Nat × Nat) :=
  match c.g.team with
  | none => .error badOperand
  | some uid =>
    if clu then (match s.clusterTeam uid (off / 2 ^ 20) 0 off with | .ok u => .ok (u, off % 2 ^ 20) | .error r => .error r)
    else .ok (uid, off)

/-- A scratch operand of n bytes, within SCR (R403). -/
def State.scrRange (s : State) (c : Ctl) (clu : Bool) (off n : Nat) : Except LaneRes (Nat × Nat) :=
  match s.scrArg c clu off with
  | .error r => .error r
  | .ok (u, o) =>
    match s.team u with
    | some t => if o + n ≤ s.scrBytes t then .ok (u, o) else .error (trapAt 0x27 0 off)
    | none => .error badOperand

/-- Memory addresses with bits [63:57] set (R403). -/
def badVa (vas : List Nat) : Option LaneRes := (vas.find? fun v => decide (2 ^ 57 ≤ v)).map fun v => trapAt 0x26 0 v

/-- The engine of a copy on a core. -/
def copyEngine (quad : Bool) (core : Nat) : Engine := if quad then .quadCopy (core / 48) else .coreCopy core

/-- The word is ready while its engine has room for one copy (R239, R403). -/
def copyOps (quad : Bool) : WordOps := { mem := true, ready := fun c s => s.hasRoom (copyEngine quad c.g.core) }

/-- The copy that a lane issues, and the stores that the issue releases. -/
def State.newCopy (s : State) (c : Ctl) (l : Nat) (quad : Bool) (kind : CopyKind) (team : Nat) (bar : Option (Nat × Nat))
    (stamp : Option (Nat × Word)) : Copy :=
  { quad := if quad then some (c.g.core / 48) else none, core := c.g.core, ctx := s.ctxOf c.g, launch := c.g.launch
    gid := c.gid, lane := l, batch := 65536, team := team, owner := c.g.team.getD 0, kind := kind, barTeam := (bar.getD (0, 0)).1
    bar := bar.map fun b => b.2, bound := bar.isSome, stamp := stamp, deps := s.issueDeps c.gid l }

/-- A copy joins its engine: it is bound to its barrier and joins its thread's open batch (R244, R247). -/
def State.joinEngine (s : State) (c : Ctl) (l id : Nat) (cp : Copy) (bar : Option (Nat × Nat)) : LaneRes × State :=
  let s := s.setCopy id (some cp)
  let s := match bar with
    | some b => s.barEvent b.1 b.2 Bar.bind
    | none => s
  (pending, s.onLane c.gid l fun ln => { ln with openBatch := true })

/-- A copy issues. -/
def State.issueCopy (s : State) (c : Ctl) (l : Nat) (quad : Bool) (kind : CopyKind) (team : Nat) (bar : Option (Nat × Nat))
    (stamp : Option (Nat × Word)) : LaneRes × State :=
  let (id, s) := s.fresh
  s.joinEngine c l id (s.newCopy c l quad kind team bar stamp) bar

/-- What the read of a tensor layout record at the issue comes to. -/
inductive RecRes where
  | wait                                                  -- a store that the issue releases, or a recall, comes first
  | later                                                 -- the engine's fault (R240)
  | bytes (bs : List Byte)
deriving DecidableEq, Repr

/-- The record of a tensor copy, read at its issue behind the stores that the issue releases (R209, R236). -/
def State.recordNow (s : State) (c : Ctl) (l id : Nat) (cp : Copy) (recVa : Nat) : RecRes × State :=
  let e := cp.eng id
  match s.engCheck e recVa 64 .load with
  | (.ok leaf tgt a, s) =>
    if s.depsTouch cp.deps tgt a 64 then (.wait, s)
    else if tgt = .cell then
      (match s.engReads e (sectorPieces recVa 64) with
       | (.ok bs _, s) => (.bytes bs, s)
       | (.wait, s) => (.wait, s)
       | (_, s) => (.later, s))
    else
      (match s.readFar c.g c.gid l leaf tgt a recVa 64 with
       | (.bytes bs, s) => (.bytes bs, s)
       | (_, s) => (.wait, s))
  | (.busy _, s) => (.wait, s)
  | (_, s) => (.later, s)

/-- A tensor copy issues: its record is read, and the box that it names must lie within SCR (R236, R403); a record that is malformed, or that
cannot be read, is the engine's to find (R238). -/
def State.issueTensor (s : State) (c : Ctl) (l : Nat) (clu load : Bool) (recVa base e0 e1 : Nat) (org : List Int) (scr : Nat)
    (bar : Option (Nat × Nat)) (stamp : Option (Nat × Word)) : LaneRes × State :=
  match s.scrRange c clu scr 16 with
  | .error r => (r, s)
  | .ok d =>
    let (id, s) := s.fresh
    let cp := s.newCopy c l false (.tensor load recVa none base e0 e1 org d.2) d.1 bar stamp
    match s.recordNow c l id cp recVa with
    | (.wait, s) => (.stay, s.setBuf id [])
    | (.later, s) => s.joinEngine c l id cp bar
    | (.bytes bs, s) =>
      let t := Tlr.ofBytes bs
      match (if t.ok load bs then s.scrRange c clu scr t.bytes else .ok d) with
      | .error r => (r, s.setBuf id [])
      | .ok _ => s.joinEngine c l id { cp with snap := some bs } bar

/-- A lane of a copy word: it parks when its engine has no room (R455). -/
def State.copyLane (s : State) (c : Ctl) (l : Nat) (quad : Bool) (f : LaneRes × State) : LaneRes × State :=
  let e := copyEngine quad c.g.core
  if !s.roomFor e c.gid l then s.noRoom e c.gid l
  else if f.1 = .stay then f
  else (f.1, f.2.tookRoom e c.gid l)

/-- A bad length (R239). -/
def badLen (n : Nat) : Bool := n == 0 || n % 16 ≠ 0

def execCpr (h : Hdr) (g clu : Bool) (bar a b c : RegIx) (s : State) : Host.Outcome State Fault Refusal :=
  s.word (.cpr h g clu bar a b c) h (copyOps false) fun w l s => s.copyLane w l false <|
    let e := w.env l
    let src := (e.a64 g a).toNat
    let dst := (e.a32 g b).toNat
    let n := (e.a32 g c).toNat
    let br := (e.a32 g bar).toNat
    if w.g.team.isNone ∨ badLen n ∨ src % 16 ≠ 0 ∨ dst % 16 ≠ 0 ∨ br % 16 ≠ 0 then (badOperand, s)
    else
      match badVa [src], s.scrRange w clu dst n, s.scrRange w clu br 16 with
      | some r, _, _ => (r, s)
      | none, .error r, _ => (r, s)
      | none, .ok _, .error r => (r, s)
      | none, .ok d, .ok q => s.issueCopy w l false (.lin false true d.2 src n) d.1 (some q) none

def execCpfill (h : Hdr) (g clu : Bool) (bar a pat c : RegIx) (s : State) : Host.Outcome State Fault Refusal :=
  s.word (.cpfill h g clu bar a pat c) h (copyOps false) fun w l s => s.copyLane w l false <|
    let e := w.env l
    let dst := (e.a32 g a).toNat
    let n := (e.a32 g c).toNat
    let br := (e.a32 g bar).toNat
    if w.g.team.isNone ∨ badLen n ∨ dst % 16 ≠ 0 ∨ br % 16 ≠ 0 then (badOperand, s)
    else
      match s.scrRange w clu dst n, s.scrRange w clu br 16 with
      | .error r, _ => (r, s)
      | .ok _, .error r => (r, s)
      | .ok d, .ok q => s.issueCopy w l false (.fill false d.2 n (e.a32 g pat)) d.1 (some q) none

def execCps (h : Hdr) (g clu : Bool) (st a b c : RegIx) (s : State) : Host.Outcome State Fault Refusal :=
  s.word (.cps h g clu st a b c) h (copyOps false) fun w l s => s.copyLane w l false <|
    let e := w.env l
    let dst := (e.a64 g a).toNat
    let src := (e.a32 g b).toNat
    let n := (e.run g c 0).toNat
    let sv := (e.a64 g st).toNat
    if w.g.team.isNone ∨ badLen n ∨ dst % 16 ≠ 0 ∨ src % 16 ≠ 0 ∨ sv % 8 ≠ 0 then (badOperand, s)
    else
      match badVa [dst, sv], s.scrRange w clu src n with
      | some r, _ => (r, s)
      | none, .error r => (r, s)
      | none, .ok d => s.issueCopy w l false (.lin true false dst d.2 n) d.1 none (some (sv, e.run g c 1))

def execCpg (h : Hdr) (g : Bool) (st a b c : RegIx) (s : State) : Host.Outcome State Fault Refusal :=
  s.word (.cpg h g st a b c) h (copyOps true) fun w l s => s.copyLane w l true <|
    let e := w.env l
    let dst := (e.a64 g a).toNat
    let src := (e.a64 g b).toNat
    let n := (e.run g c 0).toNat
    let sv := (e.a64 g st).toNat
    if badLen n ∨ dst % 16 ≠ 0 ∨ src % 16 ≠ 0 ∨ sv % 8 ≠ 0 then (badOperand, s)
    else
      match badVa [dst, src, sv] with
      | some r => (r, s)
      | none => s.issueCopy w l true (.lin true true dst src n) 0 none (some (sv, e.run g c 1))

def execCpfillMem (h : Hdr) (g : Bool) (st a pat c : RegIx) (s : State) : Host.Outcome State Fault Refusal :=
  s.word (.cpfillMem h g st a pat c) h (copyOps true) fun w l s => s.copyLane w l true <|
    let e := w.env l
    let dst := (e.a64 g a).toNat
    let n := (e.run g c 0).toNat
    let sv := (e.a64 g st).toNat
    if badLen n ∨ dst % 16 ≠ 0 ∨ sv % 8 ≠ 0 then (badOperand, s)
    else
      match badVa [dst, sv] with
      | some r => (r, s)
      | none => s.issueCopy w l true (.fill true dst n (e.a32 g pat)) 0 none (some (sv, e.run g c 1))

/-- The operands that both directions of CPT read (R236, R402). -/
structure CptArgs where
  base : Nat
  e0 : Nat
  e1 : Nat
  recVa : Nat
  scr : Nat
  last : Word                                             -- barrier offset, or TAG
  org : List Int
deriving DecidableEq, Repr

def Env.cpt (e : Env) (g : Bool) (m blk o4 : RegIx) : CptArgs :=
  let r := fun (i : Nat) => e.run g blk i
  { base := (e.run g m 1 ++ e.run g m 0 : DWord).toNat, e0 := (e.run g m 2).toNat, e1 := (e.run g m 3).toNat
    recVa := (r 1 ++ r 0 : DWord).toNat, scr := (r 2).toNat, last := r 3
    org := [(r 4).toInt, (r 5).toInt, (r 6).toInt, (r 7).toInt, (e.a32 g o4).toInt] }

def execCptLd (h : Hdr) (g clu : Bool) (m blk o4 : RegIx) (s : State) : Host.Outcome State Fault Refusal :=
  s.word (.cptLd h g clu m blk o4) h (copyOps false) fun w l s => s.copyLane w l false <|
    let x := (w.env l).cpt g m blk o4
    if w.g.team.isNone ∨ x.base % 16 ≠ 0 ∨ x.recVa % 64 ≠ 0 ∨ x.scr % 16 ≠ 0 ∨ x.last.toNat % 16 ≠ 0 then (badOperand, s)
    else
      match badVa [x.base, x.recVa], s.scrRange w clu x.scr 16, s.scrRange w clu x.last.toNat 16 with
      | some r, _, _ => (r, s)
      | none, .error r, _ => (r, s)
      | none, .ok _, .error r => (r, s)
      | none, .ok _, .ok q => s.issueTensor w l clu true x.recVa x.base x.e0 x.e1 x.org x.scr (some q) none

def execCptSt (h : Hdr) (g clu : Bool) (st m blk o4 : RegIx) (s : State) : Host.Outcome State Fault Refusal :=
  s.word (.cptSt h g clu st m blk o4) h (copyOps false) fun w l s => s.copyLane w l false <|
    let x := (w.env l).cpt g m blk o4
    let sv := ((w.env l).a64 g st).toNat
    if w.g.team.isNone ∨ x.base % 16 ≠ 0 ∨ x.recVa % 64 ≠ 0 ∨ x.scr % 16 ≠ 0 ∨ sv % 8 ≠ 0 then (badOperand, s)
    else
      match badVa [x.base, x.recVa, sv] with
      | some r => (r, s)
      | none => s.issueTensor w l clu false x.recVa x.base x.e0 x.e1 x.org x.scr none (some (sv, x.last))

end Sys2Proof.Machine
end

