-- ==== Sys2Proof/Machine/Matrix.lean ====
section
/-! DEFINITION. Matrix.lean: the matrix engine (R225 to R227, R248 to R252, R407 to R411) and near-bank GEMV (R253 to R256,
R412). -/
namespace Sys2Proof.Machine

/-! ### Operands -/

/-- A little-endian value of n bytes of a team's scratchpad. -/
def State.scrNat (s : State) (uid o n : Nat) : Nat := leNat (s.readScratch uid o n)

/-- Element (i, j) of an accumulator tile; nothing constrains it before MXZERO or MXLD writes it (R248). -/
def Team.accAt (t : Team) (uid tile i j : Nat) : Word :=
  let k := tile * 16384 + 128 * i + j
  (Sparse.get none t.acc k).getD (Config.accWord uid k)

/-- The elements of a tile, row-major. -/
def tileIx : List (Nat × Nat) := (List.range 128).flatMap fun i => (List.range 128).map fun j => (i, j)

/-- Write elements of a tile. -/
def Team.setAcc (t : Team) (tile : Nat) (vs : List ((Nat × Nat) × Word)) : Team :=
  { t with acc := vs.foldl (fun m v => Sparse.set none m (tile * 16384 + 128 * v.1.1 + v.1.2) (some v.2)) t.acc }

/-! ### Tile arithmetic (R225, R226, R248) -/

/-- What an operation gathers for its status granule (R251, R227). -/
structure MxSum where
  c : Counts := (0, 0, 0, 0)
  wrap : Nat := 0
  exc : Nat := 0
deriving DecidableEq, Repr

/-- The products of chunk h for element (i, j) of a dense BF16 operation. -/
def State.bfChunk (s : State) (uid a b k i j h : Nat) : List (FVal × FVal) :=
  (List.range 32).map fun x =>
    (fmtB16.decode (s.scrNat uid (a + 2 * k * i + 2 * (32 * h + x)) 2), fmtB16.decode (s.scrNat uid (b + 256 * (32 * h + x) + 2 * j) 2))

/-- The products of chunk h of a 2:4 sparse operation: the kept values, and +0 for the pruned ones (R248, R252). -/
def State.spChunk (s : State) (uid a b sel k i j h : Nat) : List (FVal × FVal) :=
  (List.range 16).flatMap fun x =>
    let g := 16 * h + x
    let nib := s.scrNat uid (sel + k / 8 * i + g / 2) 1 / 16 ^ (g % 2) % 16
    let lo := nib % 4
    let hi := nib / 4
    let bv := fun (q : Nat) => fmtB16.decode (s.scrNat uid (b + 256 * (4 * g + q) + 2 * j) 2)
    let av := fun (q : Nat) => fmtB16.decode (s.scrNat uid (a + k * i + 2 * (2 * g + q)) 2)
    (av 0, bv lo) :: (av 1, bv hi) :: ((List.range 4).filter fun q => q ≠ lo && q ≠ hi).map fun q => (FVal.fin false 0 0, bv q)

/-- Chunk h of an INT8 element: the accumulator after it, and whether it wraps (R226). -/
def State.s8Chunk (s : State) (uid a b k i j h : Nat) (c0 : Word) : Word × Nat :=
  let sum := (List.range 64).foldl (fun (t : Int) x =>
    t + sextInt (s.scrNat uid (a + k * i + 64 * h + x) 1) 8 * sextInt (s.scrNat uid (b + 128 * (64 * h + x) + j) 1) 8) c0.toInt
  (BitVec.ofInt 32 sum, b2n (decide (sum < -(2 ^ 31) ∨ 2 ^ 31 ≤ sum)))

/-- Chunk h of one element of MXMUL: the accumulator after it, and what it counts (R225, R226). -/
def State.mulChunk (s : State) (uid mode a b sel k h : Nat) (c0 : Word) (i j : Nat) : Word × MxSum :=
  if mode = 1 then
    let r := s.s8Chunk uid a b k i j h c0
    (r.1, { wrap := r.2 })
  else
    let sr := chunkSum (if mode = 0 then s.bfChunk uid a b k i j h else s.spChunk uid a b sel k i j h)
    let r := accAdd c0.toNat sr.1
    (BitVec.ofNat 32 r.1, { c := Counts.add (Counts.add (0, 0, 0, 0) sr.2) r.2, exc := b2n (sr.2 != 0 || r.2 != 0) })

def MxSum.add (a b : MxSum) : MxSum :=
  { c := (a.c.1 + b.c.1, a.c.2.1 + b.c.2.1, a.c.2.2.1 + b.c.2.2.1, a.c.2.2.2 + b.c.2.2.2), wrap := a.wrap + b.wrap, exc := a.exc + b.exc }

/-- FP32 to BF16, to nearest even, without flush; a NaN becomes the canonical quiet NaN (R409). -/
def toBf16 (x : Nat) : Nat × BitVec 5 :=
  match fmt32.decode x with
  | .nan _ sig => (fmtB16.nanBits, if sig then flagNV else 0)
  | .inf n => fmtB16.inf n
  | .fin n m e => fmtB16.ofFin 0 (n, m, e)

/-- The rank of a BF16 element for pruning: NaN above every number, then magnitude (R252). -/
def pruneRank (x : Nat) : Nat := if 0x7F80 < x % 0x8000 then 0x8000 else x % 0x8000

/-- The two kept indices of a group of four, ascending (R252). -/
def keepTwo (xs : List Nat) : Nat × Nat :=
  let order := sortBy (fun (a b : Nat) => decide (pruneRank (xs.getD b 0) < pruneRank (xs.getD a 0))) [0, 1, 2, 3]
  let a := order.getD 0 0
  let b := order.getD 1 1
  (Nat.min a b, Nat.max a b)

/-! ### Completion (R250, R251) -/

/-- The status granule (R251). -/
def mxGranule (n : Nat) (x : MxSum) : List Byte :=
  let sat := fun (v : Nat) => toLE 2 (Nat.min v 0xFFFF)
  toLE 2 (Config.corrected n 0).toNat ++ toLE 2 (Config.corrected n 1).toNat ++ toLE 2 (Config.corrected n 2).toNat ++
  sat x.wrap ++ sat x.c.1 ++ sat x.c.2.1 ++ sat x.c.2.2.1 ++ sat x.c.2.2.2

/-- The status that an operation gathers into RUN (R245). -/
def MxSum.run (x : MxSum) : Nat :=
  32768 * b2n (decide (0 < x.c.1)) + 8192 * b2n (decide (0 < x.c.2.1)) + 4096 * b2n (decide (0 < x.c.2.2.1)) +
  2048 * b2n (decide (0 < x.c.2.2.2)) + 16 * Nat.min x.exc 127

/-- K-chunks of an operation; the others are one unit (R248, R250). -/
def MxKind.chunks : MxKind → Nat
  | .mul mode _ _ _ k _ => Nat.max 1 (k / (if mode = 0 then 32 else 64))
  | _ => 1

/-- The counts that an operation holds (R227). -/
def MxOp.sum (o : MxOp) : MxSum :=
  let n := fun (i : Nat) => o.counts.getD i 0
  { c := (n 0, n 1, n 2, n 3), wrap := n 4, exc := o.raised.length }

/-- One K-chunk of a MXMUL: its accumulator tile, and the operation with its counts and its new position (R225 to R227, R250). -/
def State.mulUnit (s : State) (uid : Nat) (t : Team) (op : MxOp) (mode a b sel k tile : Nat) : State × MxOp :=
  let rs := tileIx.map fun x => (x, s.mulChunk uid mode a b sel k op.pos (t.accAt uid tile x.1 x.2) x.1 x.2)
  let m := rs.foldl (fun (m : MxSum) r => m.add r.2.2) op.sum
  (s.setTeam uid (t.setAcc tile (rs.map fun r => (r.1, r.2.1))),
    { op with
      pos := op.pos + 1, counts := [m.c.1, m.c.2.1, m.c.2.2.1, m.c.2.2.2, m.wrap]
      raised := rs.foldl (fun (z : Sparse Bool) r => if r.2.2.exc = 0 then z else Sparse.set false z (128 * r.1.1 + r.1.2) true) op.raised })

/-- The effect of an operation that is one unit on accumulators and scratchpad, and what it counts. -/
def State.runMx (s : State) (uid : Nat) (k : MxKind) : State × MxSum :=
  match s.team uid with
  | none => (s, {})
  | some t =>
    match k with
    | .mul .. => (s, {})
    | .zero tile => (s.setTeam uid (t.setAcc tile (tileIx.map fun x => (x, 0))), {})
    | .load tile src =>
      (s.setTeam uid (t.setAcc tile (tileIx.map fun x => (x, BitVec.ofNat 32 (s.scrNat uid (src + 4 * (128 * x.1 + x.2)) 4)))), {})
    | .store false tile dst => (s.engScratch uid dst (tileIx.flatMap fun x => toLE 4 (t.accAt uid tile x.1 x.2).toNat), {})
    | .store true tile dst =>
      let rs := tileIx.map fun x => toBf16 (t.accAt uid tile x.1 x.2).toNat
      (s.engScratch uid dst (rs.flatMap fun r => toLE 2 r.1),
        rs.foldl (fun (m : MxSum) (r : Nat × BitVec 5) => m.add { c := Counts.add (0, 0, 0, 0) r.2, exc := b2n (r.2 != 0) }) {})
    | .sel24 src rows kk vals sels =>
      let rowOf := fun (i : Nat) => (List.range (kk / 4)).map fun g =>
        let xs := (List.range 4).map fun q => s.scrNat uid (src + 2 * kk * i + 2 * (4 * g + q)) 2
        let kp := keepTwo xs
        (xs.getD kp.1 0, xs.getD kp.2 0, kp.1 + 4 * kp.2)
      let rs := (List.range rows).map rowOf
      let v := rs.flatMap fun r => r.flatMap fun x => toLE 2 x.1 ++ toLE 2 x.2.1
      let n := rs.flatMap fun r => (List.range (kk / 8)).map fun b =>
        BitVec.ofNat 8 ((r.getD (2 * b) (0, 0, 0)).2.2 + 16 * (r.getD (2 * b + 1) (0, 0, 0)).2.2)
      ((s.engScratch uid vals v).engScratch uid sels n, {})

/-- One unit of an operation: the state, the operation, and what it counts in all if that unit is its last. -/
def State.mxUnit (s : State) (uid : Nat) (op : MxOp) : State × MxOp × MxSum :=
  match op.kind, s.team uid with
  | .mul mode a b sel k tile, some t =>
    let r := s.mulUnit uid t op mode a b sel k tile
    (r.1, r.2, r.2.sum)
  | _, _ =>
    let r := s.runMx uid op.kind
    (r.1, { op with pos := op.pos + 1 }, r.2)

/-- The operation at the head of a core's queue runs its next K-chunk; with the last one it finishes: its status granule, and its completion
on the barrier (R250, R251). A chunk starts in an issue cycle, and not while the team is to stop (R29, R291). -/
def State.matrixCompletion (s : State) (uid : Nat) : State :=
  match s.team uid with
  | none => s
  | some t =>
    match Sparse.get [] s.mx t.core with
    | [] => s
    | op :: rest =>
      if op.team ≠ uid || s.stopAsked [uid] || !s.issueCycle t.core then s
      else
        let r := s.mxUnit uid op
        let s := r.1
        if op.pos + 1 < op.kind.chunks then { s with mx := Sparse.set [] s.mx t.core (r.2.1 :: rest) }
        else
          let (n, s) := s.draw
          let s := s.engScratch uid (op.bar + 16) (mxGranule n r.2.2)
          let s := { s with mx := Sparse.set [] s.mx t.core rest }
          let s := if op.bound then s.barEvent uid op.bar fun b => b.complete r.2.2.run else s
          s.freeRoom (.matrix uid)

def execMatrixCompletion (team : Nat) (s : State) : Host.Outcome State Fault Refusal := .next (s.matrixCompletion team)

/-! ### The instructions (R407 to R411) -/

/-- An operation joins its core's queue and is bound to its barrier (R244, R250). -/
def State.queueMx (s : State) (uid : Nat) (k : MxKind) (bar : Nat) : State :=
  match s.team uid with
  | none => s
  | some t =>
    let (id, s) := s.fresh
    let s := { s with mx := Sparse.set [] s.mx t.core (Sparse.get [] s.mx t.core ++ [({ id := id, team := uid, kind := k, bar := bar } : MxOp)]) }
    s.barEvent uid bar Bar.bind

def execMxcfg (h : Hdr) (mode : MxMode) (x : RegIx) (n : Kind) (s : State) : Host.Outcome State Fault Refusal :=
  s.word (.mxcfg h mode x n) h { mem := true } fun c l s =>
    match c.g.team with
    | none => (badOperand, s)
    | some uid =>
      match s.team uid with
      | none => (badOperand, s)
      | some t =>
        let cv := t.conv x.toNat
        let n := ((c.env l).kind n).toNat
        if cv.kind = 1 ∨ (cv.kind = 2 ∧ cv.sigs ≠ 0) ∨ n = 0 ∨ 4096 < n then (badOperand, s)
        else (pending, s.setTeam uid (t.setConv x.toNat { cv with kind := 2, mode := mode.code.toNat, n := n, sigs := 0, signers := [], ops := none }))

/-- The words of a matrix instruction wait for room in the queue of their core (R250, R455). -/
def mxOps : WordOps :=
  { mem := true, ready := fun c s => match c.g.team with | some uid => s.hasRoom (.matrix uid) | none => true }

/-- Bytes of A, B and S for a mode (R408). -/
def mxSizes (mode k : Nat) : Nat × Nat × Nat :=
  if mode = 0 then (256 * k, 256 * k, 0) else if mode = 1 then (128 * k, 128 * k, 0) else (128 * k, 256 * k, 16 * k)
/-- Is K allowed for the mode? -/
def mxKOk (mode k : Nat) : Bool := let c := if mode = 0 then 32 else 64; c ≤ k && k ≤ 2048 && k % c == 0

/-- The operands of a block, as (offset, alignment, bytes): ALIGN for one off its alignment, then BUS_ADDR for one that passes
SCR, with the address of the first such operand (R284, R408, R410). -/
def blockFault (scr : Nat) (os : List (Nat × Nat × Nat)) : Option LaneRes :=
  match os.find? fun x => x.1 % x.2.1 ≠ 0 with
  | some x => some (trapAt 0x25 0 x.1)
  | none => (os.find? fun x => decide (scr < x.1 + x.2.2)).map fun x => trapAt 0x27 0 x.1

def execMxmul (h : Hdr) (g : Bool) (x b : RegIx) (s : State) : Host.Outcome State Fault Refusal :=
  s.word (.mxmul h g x b) h mxOps fun c l s =>
    match c.g.team with
    | none => (badOperand, s)
    | some uid =>
      match s.team uid with
      | none => (badOperand, s)
      | some t =>
        let o := fun (i : Nat) => ((c.env l).run g b i).toNat
        let cv := t.conv x.toNat
        let scr := s.scrBytes t
        let sz := mxSizes cv.mode (o 3)
        let ops := [o 0, o 1, if cv.mode = 2 then o 2 else 0, o 3, o 4, o 5]
        if cv.kind = 2 ∧ cv.n ≤ cv.sigs + 1 ∧ !s.roomFor (.matrix uid) c.gid l then s.noRoom (.matrix uid) c.gid l
        else
        let s := s.tookRoom (.matrix uid) c.gid l
        if cv.kind ≠ 2 ∨ !mxKOk cv.mode (o 3) ∨ (s.rcd t.task.lrec).blk.acc / 4 ≤ o 4 then (badOperand, s)
        else if let some r := blockFault scr ((o 0, 128, sz.1) :: (o 1, 128, sz.2.1) ::
            ((if cv.mode = 2 then [(o 2, 16, sz.2.2)] else []) ++ [(o 5, 16, 32)])) then (r, s)
        else if cv.ops.isSome ∧ cv.ops ≠ some ops then (.trap 0x30 0 0, s)
        else if cv.sigs + 1 = cv.n then
          let s := s.setTeam uid (t.setConv x.toNat { cv with sigs := 0, ops := none })
          (pending, s.queueMx uid (.mul cv.mode (o 0) (o 1) (o 2) (o 3) (o 4)) (o 5))
        else (pending, s.setTeam uid (t.setConv x.toNat { cv with sigs := cv.sigs + 1, ops := some ops }))

/-- MXZERO, MXLD and MXST in a lane: the checks of R409, then the operation. `n` is the scratch range, 0 for MXZERO. -/
def State.tileLane (s : State) (c : Ctl) (l tile src n bar : Nat) (k : MxKind) : LaneRes × State :=
  match c.g.team with
  | none => (badOperand, s)
  | some uid =>
    match s.team uid with
    | none => (badOperand, s)
    | some t =>
      if !s.roomFor (.matrix uid) c.gid l then s.noRoom (.matrix uid) c.gid l
      else
      let s := s.tookRoom (.matrix uid) c.gid l
      if (s.rcd t.task.lrec).blk.acc / 4 ≤ tile then (badOperand, s)
      else if (n ≠ 0 ∧ src % 128 ≠ 0) ∨ bar % 16 ≠ 0 then (trapAt 0x25 0 (if n ≠ 0 ∧ src % 128 ≠ 0 then src else bar), s)
      else if s.scrBytes t < src + n ∨ s.scrBytes t < bar + 32 then (trapAt 0x27 0 (if s.scrBytes t < src + n then src else bar), s)
      else (pending, s.queueMx uid k bar)

def execMxzero (h : Hdr) (g : Bool) (t bar : RegIx) (s : State) : Host.Outcome State Fault Refusal :=
  s.word (.mxzero h g t bar) h mxOps fun c l s =>
    let e := c.env l
    s.tileLane c l (e.a32 g t).toNat 0 0 (e.a32 g bar).toNat (.zero (e.a32 g t).toNat)

def execMxld (h : Hdr) (g : Bool) (t src bar : RegIx) (s : State) : Host.Outcome State Fault Refusal :=
  s.word (.mxld h g t src bar) h mxOps fun c l s =>
    let e := c.env l
    s.tileLane c l (e.a32 g t).toNat (e.a32 g src).toNat 65536 (e.a32 g bar).toNat (.load (e.a32 g t).toNat (e.a32 g src).toNat)

def execMxst (h : Hdr) (g bf : Bool) (t dst bar : RegIx) (s : State) : Host.Outcome State Fault Refusal :=
  s.word (.mxst h g bf t dst bar) h mxOps fun c l s =>
    let e := c.env l
    s.tileLane c l (e.a32 g t).toNat (e.a32 g dst).toNat (if bf then 32768 else 65536) (e.a32 g bar).toNat
      (.store bf (e.a32 g t).toNat (e.a32 g dst).toNat)

def execMxsel24 (h : Hdr) (g : Bool) (b : RegIx) (s : State) : Host.Outcome State Fault Refusal :=
  s.word (.mxsel24 h g b) h mxOps fun c l s =>
    match c.g.team with
    | none => (badOperand, s)
    | some uid =>
      match s.team uid with
      | none => (badOperand, s)
      | some t =>
        let o := fun (i : Nat) => ((c.env l).run g b i).toNat
        let scr := s.scrBytes t
        let k := o 3
        let nr := o 4
        if !s.roomFor (.matrix uid) c.gid l then s.noRoom (.matrix uid) c.gid l
        else
        let s := s.tookRoom (.matrix uid) c.gid l
        if !mxKOk 2 k ∨ nr = 0 ∨ 128 < nr then (badOperand, s)
        else if let some r := blockFault scr [(o 0, 128, 2 * k * nr), (o 1, 128, k * nr), (o 2, 16, k / 8 * nr), (o 5, 16, 32)] then (r, s)
        else (pending, s.queueMx uid (.sel24 (o 0) nr k (o 1) (o 2)) (o 5))

def execMxstat (h : Hdr) (g : Bool) (d a : RegIx) (s : State) : Host.Outcome State Fault Refusal :=
  s.word (.mxstat h g d a) h { mem := true } fun c l s =>
    match c.g.team with
    | none => (badOperand, s)
    | some uid =>
      match s.team uid with
      | none => (badOperand, s)
      | some t =>
        let o := ((c.env l).a32 g a).toNat
        if o % 16 ≠ 0 then (trapAt 0x25 0 o, s)
        else if s.scrBytes t < o + 32 then (trapAt 0x27 0 o, s)
        else (.done ((List.range 4).map fun i => (d.toNat + i, BitVec.ofNat 32 (s.scrNat uid (o + 16 + 4 * i) 4))) [] 0, s)

/-! ### Near-bank GEMV (R253 to R256, R412) -/

/-- Does a descriptor obey the table of R253? -/
def nbOk (bs : List Byte) : Bool :=
  let f := fieldAt bs
  let out := f 0xF 1 % 4
  let xq := nbit (f 0xF 1) 2
  f 0 8 % 65536 == 0 && 1 ≤ f 8 4 && f 8 4 ≤ 2 ^ 24 && 1 ≤ f 0xC 2 && f 0xC 2 ≤ 256 && 2 ≤ f 0xE 1 && f 0xE 1 ≤ 8 &&
  out ≠ 3 && f 0xF 1 < 8 && (xq || f 0x10 4 % 16 == 0) && f 0x14 1 < 32 && f 0x15 1 < 32 && zeroAt bs 0x16 2 &&
  (out == 0 || (f 0x18 8 % 4 == 0 && f 0x20 8 ≠ 0)) && f 0x20 8 % 8 == 0 && zeroAt bs 0x2C 0x14

/-- The queue registers that an operation names. -/
def Nb.queues (n : Nb) : List Nat := n.cx.toList ++ (if n.out = 0 then [n.cy] else [])

/-- Is a queue register bound to no operation but this one (R256)? -/
def Team.queueFree (t : Team) (id n : Nat) : Bool :=
  ((t.engq n).source == none || (t.engq n).source == some id) && ((t.engq n).sink == none || (t.engq n).sink == some id)

/-- Bind the queue registers of a team's waiting operations, in order: an operation that names a register bound to another one waits,
and binds none (R256). -/
def State.bindNbs (s : State) (uid : Nat) : State :=
  ((listed s.nbs).filter fun p => p.2.team == uid).foldl (fun s p =>
    match s.team uid with
    | none => s
    | some t =>
      if p.2.queues.all (t.queueFree p.1) then
        let t := match p.2.cx with | some n => t.setEngq n { t.engq n with source := some p.1 } | none => t
        let t := if p.2.out = 0 then t.setEngq p.2.cy { t.engq p.2.cy with sink := some p.1, dry := false } else t
        let s := s.setTeam uid t
        match p.2.cx with | some n => s.feedQ uid n | none => s
      else s) s

/-- What the checks of the pages of W give: those of the pages that its elements reach, as far as a page of it that is mapped tells their
number (R237, R253). -/
def State.wPages (s : State) (core k w rows ct : Nat) : List Chk :=
  let at' := fun (i : Nat) => s.check (192 + core / 48) k (w + 65536 * i) 1 .load
  let n := fun (per : Nat) => (rows * 128 * ct + per - 1) / per
  let most := n (subpageElems 1 8 4)
  let per := (List.range most).findSome? fun i => match at' i with | .ok l _ _ => some (Nat.max 1 (subpageElems l.fmt l.pl l.blk)) | _ => none
  (List.range (match per with | some p => n p | none => most)).map at'

/-- Do the pages of W suit the table of R253: FMT 1, and PLN at most their PL? A page that is not mapped is judged when the driver has
resolved its fault (log entry 127). -/
def State.wPagesOk (s : State) (core k w rows ct pln : Nat) : Bool :=
  (s.wPages core k w rows ct).all fun ch => match ch with
    | .ok l _ _ => l.fmt == 1 && decide (pln ≤ l.pl)
    | _ => true

/-- A line that the check of the descriptor's pages waits for. -/
def State.wWaits (s : State) (uid : Nat) (t : Team) (core k o : Nat) : Option Nat :=
  let bs := s.readScratch uid o 64
  if o % 64 ≠ 0 ∨ s.scrBytes t < o + 64 ∨ nbOk bs = false then none
  else (s.wPages core k (fieldAt bs 0 8) (fieldAt bs 8 4) (fieldAt bs 0xC 2)).findSome? fun ch => match ch with
    | .busy line => some line
    | _ => none

def execNbgemv (h : Hdr) (g : Bool) (a : RegIx) (s : State) : Host.Outcome State Fault Refusal :=
  s.word (.nbgemv h g a) h { mem := true, ready := fun c s => s.hasRoom (.nbgemv c.g.core) } fun c l s =>
    match c.g.team with
    | none => (badOperand, s)
    | some uid =>
      match s.team uid with
      | none => (badOperand, s)
      | some t =>
        let o := ((c.env l).a32 g a).toNat
        let bs := s.readScratch uid o 64
        let f := fieldAt bs
        let xq := nbit (f 0xF 1) 2
        let n := 128 * f 0xC 2
        if !s.roomFor (.nbgemv c.g.core) c.gid l then s.noRoom (.nbgemv c.g.core) c.gid l
        else if let some line := s.wWaits uid t c.g.core (s.ctxOf c.g) o then (.stay, s.recall line)
        else
        let s := s.tookRoom (.nbgemv c.g.core) c.gid l
        if o % 64 ≠ 0 then (trapAt 0x25 0 o, s)
        else if s.scrBytes t < o + 64 then (trapAt 0x27 0 o, s)
        else if !nbOk bs || !s.wPagesOk c.g.core (s.ctxOf c.g) (f 0 8) (f 8 4) (f 0xC 2) (f 0xE 1) then (badOperand, s)
        else if !xq ∧ s.scrBytes t < f 0x10 4 + 2 * n then (trapAt 0x27 0 (f 0x10 4), s)
        else
          let (id, s) := s.fresh
          let nb : Nb := { core := c.g.core, ctx := s.ctxOf c.g, launch := c.g.launch, gid := c.gid, team := uid, w := f 0 8,
                           rows := f 8 4, ct := f 0xC 2, pln := f 0xE 1, out := f 0xF 1 % 4, cy := f 0x14 1,
                           cx := if xq then some (f 0x15 1) else none
                           x := if xq then [] else (List.range n).map fun i => BitVec.ofNat 16 (s.scrNat uid (f 0x10 4 + 2 * i) 2)
                           y := f 0x18 8, stamp := f 0x20 8, tag := BitVec.ofNat 32 (f 0x28 4), deps := s.issueDeps c.gid l }
          (pending, ({ s with nbs := Sparse.set none s.nbs id (some nb) }).bindNbs uid)

/-- The engine of an operation: the base dies, reached through the quadrant of the issuing core. -/
def Nb.eng (n : Nb) (id : Nat) : Eng :=
  { id := id, agent := 192 + n.core / 48, core := n.core, ctx := n.ctx, launch := n.launch, src := srcMill (n.core / 48) }

/-- The real value of a BPN element under its scale; a scale of 0xFF is NaN (R220, R221). -/
def bpnFVal (v : Int) (scale : Option Nat) : FVal :=
  match scale with
  | some 255 => .nan 0 false
  | some e => .fin (decide (v < 0)) v.natAbs (e - 127)
  | none => .fin (decide (v < 0)) v.natAbs 0

/-- Element e of W (R237, R253). -/
def State.wElem (s : State) (n : Nb) (id e : Nat) : Except EngRes FVal × State :=
  let en := n.eng id
  match s.engCheck en n.w 1 .load with
  | (.ok l0 _ _, s) =>
    let per := Nat.max 1 (subpageElems l0.fmt l0.pl l0.blk)
    let sub := n.w + e / per * 65536
    (match s.engCheck en sub 1 .load with
     | (.ok l _ _, s) =>
       if l.fmt ≠ 1 then (.error (.fail 0x2D), s)
       else
         (match typedBytes 1 l.pl l.blk n.pln (e % per) with
          | .error c => (.error (.fail c), s)
          | .ok (offs, sc) =>
            match s.engReads en ((sc.toList ++ offs).map fun o => (sub + o, 1)) with
            | (.ok bs p, s) =>
              if p then (.error (.fail causePoison), s)
              else (.ok (bpnFVal (typedElement 1 l.pl n.pln (e % per) (if sc.isSome then bs.drop 1 else bs))
                          (match sc with | some _ => some (bs.headD 0).toNat | none => none)), s)
            | (r, s) => (.error r, s))
     | (ch, s) => (.error (ch.engRes sub), s))
  | (ch, s) => (.error (ch.engRes n.w), s)

/-- The products of one tile of a row. -/
def State.wTile (s : State) (n : Nb) (id row tile : Nat) : Nat → Except EngRes (List (FVal × FVal)) × State
  | 0 => (.ok [], s)
  | k + 1 =>
    let c := 128 * tile + (127 - k)
    match s.wElem n id (row * 128 * n.ct + c) with
    | (.error r, s) => (.error r, s)
    | (.ok v, s) =>
      match s.wTile n id row tile k with
      | (.ok ps, s) => (.ok ((v, fmtB16.decode (n.x.getD c 0).toNat) :: ps), s)
      | q => q

/-- The result of a row, in the order of R254, with its flags. -/
def State.wRow (s : State) (n : Nb) (id row : Nat) : Nat → Except EngRes (Nat × BitVec 5) × State
  | 0 => (.ok (0, 0), s)
  | h + 1 =>
    match s.wRow n id row h with
    | (.error r, s) => (.error r, s)
    | (.ok (y, fl), s) =>
      match s.wTile n id row h 128 with
      | (.error r, s) => (.error r, s)
      | (.ok ps, s) =>
        let p := chunkSum ps
        if h = 0 then (.ok (p.1, p.2), s)
        else
          let r := accAdd y p.1
          (.ok (r.1, fl ||| p.2 ||| r.2), s)

def State.nb (s : State) (id : Nat) : Option Nb := Sparse.get none s.nbs id
def State.setNb (s : State) (id : Nat) (n : Option Nb) : State := { s with nbs := Sparse.set none s.nbs id n }

/-- Push one result row into the sink (R256). -/
def State.pushRow (s : State) (id : Nat) (n : Nb) (v : Word) (fl : BitVec 5) : State × Bool :=
  match s.team n.team with
  | none => (s, false)
  | some t =>
    if t.st = .running ∧ (t.engq n.cy).sink = some id ∧ t.roomOut n.cy 1 then
      ((s.setTeam n.team (t.setEngq n.cy { t.engq n.cy with result := (t.engq n.cy).result ++ [v] })).setNb id
        (some { n with row := n.row + 1, flags := n.flags ||| fl }), true)
    else (s, false)

/-- May an operation go on to its next row: at a boundary of 256 rows in an issue cycle, and not while its team is to stop or away
(R29, R255, R291)? -/
def State.nbGoes (s : State) (n : Nb) : Bool :=
  n.row % 256 != 0 || (s.issueCycle n.core && !s.stopAsked [n.team] && !s.away [n.team])

/-- One row: read, summed and written (R254, R255). True: the operation goes on. -/
def State.nbRow (s : State) (id : Nat) : State × Bool :=
  match s.nb id with
  | none => (s, false)
  | some n =>
    if n.rows ≤ n.row || !s.nbGoes n then (s, false)
    else if n.failed then
      if n.out = 0 then s.pushRow id n (BitVec.ofNat 32 fmt32.nanBits) 0 else (s, false)
    else if n.out == 0 && (match s.team n.team with | some t => !(decide (t.st = .running) && (t.engq n.cy).sink == some id && t.roomOut n.cy 1) | none => true) then (s, false)
    else
      match s.wRow n id n.row n.ct with
      | (.ok (y, fl), s) =>
        if n.out = 0 then s.pushRow id n (BitVec.ofNat 32 y) fl
        else
          let r := if n.out = 1 then (toLE 4 y, fl) else (toLE 2 (toBf16 y).1, fl ||| (toBf16 y).2)
          (match s.engWrite (n.eng id) (n.y + r.1.length * n.row) r.1 false
               (n.row == 0 || decide ((n.y + r.1.length * n.row) % 128 < r.1.length)) with
           | (.ok .., s) => (s.setNb id (some { n with row := n.row + 1, flags := n.flags ||| r.2 }), true)
           | (.wait, s) => (s, false)
           | (_, s) => (s.setNb id (some { n with failed := true }), false))
      | (.error .wait, s) => (s, false)
      | (.error (.hold code va lo hi), s) =>
        if code = causePage then
          let (i, s) := s.engReport (n.eng id) code 0 va lo hi 0xFFFF
          ((s.setNb id (some { n with report := some i })).writeReport n.ctx i, false)
        else (s.setNb id (some { n with failed := true }), true)
      | (.error _, s) => (s.setNb id (some { n with failed := true }), true)

/-- Rows until one has to wait. -/
def State.nbRows (s : State) (id : Nat) : Nat → State
  | 0 => s
  | k + 1 =>
    match s.nbRow id with
    | (s, true) => s.nbRows id k
    | (s, false) => s

/-- The operation leaves its engine: its queue registers are free for the next one. -/
def State.dropNb (s : State) (id : Nat) (n : Nb) : State :=
  let s := (s.setNb id none).setBuf id []
  let s := match s.team n.team with
    | none => s
    | some t =>
      s.setTeam n.team { t with c := mapVals {} t.c fun q =>
        { q with source := if q.source = some id then none else q.source
                 sink := if q.sink = some id then none else q.sink
                 dry := if q.sink = some id then true else q.dry } }
  (s.bindNbs n.team).freeRoom (.nbgemv n.core)

/-- An NBGEMV advances: rows as far as they go, then the stamp (R254, R255). -/
def State.nbgemvStep (s : State) (id : Nat) : State :=
  match s.nb id with
  | none => s
  | some n0 =>
    if n0.report.isSome || n0.deps.any fun d => (s.txn d).isSome then s
    else
      let short := n0.x.length < 128 * n0.ct
      let n := if short && (s.team n0.team).isNone then { n0 with failed := true } else n0
      if short && !n.failed then s
      else
        let s := s.setNb id (some n)
        -- the source is free once x has been taken
        let s := s.nbRows id (n.rows - n.row + 1)
        match s.nb id with
        | none => s
        | some n =>
          if n.row < n.rows && !(n.failed && n.out ≠ 0) then s
          else if n.stamp = 0 then s.dropNb id n
          else if !s.engSettled id then s
          else
            match s.engWrite (n.eng id) n.stamp (stampBytes n.tag n.failed n.flags) false true with
            | (.ok .., s) => s.dropNb id n
            | (.wait, s) => s
            | (.hold code va lo hi, s) =>
              if code = causePage then
                let (i, s) := s.engReport (n.eng id) code 1 va lo hi 0xFFFF
                (s.setNb id (some { n with report := some i })).writeReport n.ctx i
              else (s.logEv .stampUnwritable 2 (evCore n.core) [id]).dropNb id n
            | (.fail _, s) => (s.logEv .stampUnwritable 2 (evCore n.core) [id]).dropNb id n

def execNbgemvCompletion (id : Nat) (s : State) : Host.Outcome State Fault Refusal := .next (s.nbgemvStep id)

end Sys2Proof.Machine
end

