-- ==== Sys2Proof/Machine/Sphinx.lean ====
section
/-! DEFINITION. Sphinx.lean: the Sphinx sampling arrays: records, the update rule, sweeps, health, operations and their
completion, sampling domains (R257 to R279, R413 to R416). -/
namespace Sys2Proof.Machine

/-! ### Node records (R258) -/

def SxArray.node (a : SxArray) (n : Nat) : Node := Sparse.get {} a.nodes n
def SxArray.setNode (a : SxArray) (n : Nat) (x : Node) : SxArray := { a with nodes := Sparse.set {} a.nodes n x }

/-- A record from its 64 bytes; none where a zero bit is not zero. -/
def Node.ofBytes (bs : List Byte) : Option Node :=
  let f := fieldAt bs
  let slots := (List.range 16).map fun j => f (4 + 3 * j) 3
  if nbits (f 2 1) 7 6 == 0 && zeroAt bs 3 1 && zeroAt bs 0x36 10 && slots.all (fun x => nbits x 15 13 == 0) then
    some { bias := BitVec.ofNat 16 (f 0 2), st := nbit (f 2 1) 5, clv := nbit (f 2 1) 4, cle := nbit (f 2 1) 3,
           col := BitVec.ofNat 3 (f 2 1), count := BitVec.ofNat 16 (f 0x34 2)
           w := if slots.all fun x => x == 0 then [] else slots.map fun x => (BitVec.ofNat 8 (x / 65536), BitVec.ofNat 13 x) }
  else none

/-- The 64 bytes of a record. -/
def Node.bytes (x : Node) : List Byte :=
  toLE 2 x.bias.toNat ++ toLE 1 (32 * b2n x.st + 16 * b2n x.clv + 8 * b2n x.cle + x.col.toNat) ++ toLE 1 0 ++
  ((List.range 16).flatMap fun j => let s := x.w.getD j (0, 0); toLE 3 (s.1.toNat * 65536 + s.2.toNat)) ++
  toLE 2 x.count.toNat ++ toLE 10 0

/-! ### The update rule (R260, R261, R263) -/

/-- The replay function H. -/
def sxHash (key : DWord) (t a c n : Nat) (s : Word) : Nat :=
  let rotl := fun (x : Word) (k : Nat) => x.rotateLeft k
  let round := fun (w : Word × Word × Word × Word) =>
    let w0 := w.1 + w.2.1
    let w3 := rotl (w.2.2.2 ^^^ w0) 16
    let w2 := w.2.2.1 + w3
    let w1 := rotl (w.2.1 ^^^ w2) 12
    let w0 := w0 + w1
    let w3 := rotl (w3 ^^^ w0) 8
    let w2 := w2 + w3
    let w1 := rotl (w1 ^^^ w2) 7
    (w0 + 0x9E3779B9#32, w1, w2, w3)
  let w := round (round (round (round
    (BitVec.extractLsb' 0 32 key, BitVec.extractLsb' 32 32 key, s, BitVec.ofNat 32 (t * 2 ^ 24 + a * 2 ^ 16 + c * 2 ^ 13 + n)))))
  (w.1 ^^^ w.2.1 ^^^ w.2.2.1 ^^^ w.2.2.2).toNat / 65536

/-- round(65,536 × n × 2^s) to the nearest integer. -/
def nearest (n : Nat) (s : Int) : Nat :=
  let d := (-s).toNat
  (65536 * n * 2 + 2 ^ d) / 2 ^ (d + 1)

/-- round(65,536 σ(z)) for z = ±m × 2^e with |z| < 12: enclosed ever closer until both ends round alike (R260). -/
def sigmoid16 (neg : Bool) (m : Nat) (e : Int) : Nat → Nat → Nat
  | 0, p => nearest (sigmEncl p neg m e).lo (sigmEncl p neg m e).s
  | f + 1, p =>
    let r := sigmEncl p neg m e
    if nearest r.lo r.s = nearest r.hi r.s then nearest r.lo r.s else sigmoid16 neg m e f (2 * p)

/-- The threshold q of a field I (R260). -/
def threshold (beta scale : BitVec 16) (i : Int) : Nat :=
  match fmt16.decode beta.toNat, fmt16.decode scale.toNat with
  | .fin _ mb eb, .fin ns ms es =>
    let m := mb * ms * i.natAbs
    let e := eb + es
    let neg := ns ^^ decide (i < 0)
    if m = 0 then 32768
    else
      let big := if 0 ≤ e then 12 ≤ m * 2 ^ e.toNat else 12 * 2 ^ (-e).toNat ≤ m
      if big then (if neg then 0 else 65536) else sigmoid16 neg m e 6 64
  | _, _ => 32768

/-- The field of a node (R260). -/
def SxArray.field (a : SxArray) (x : Node) : Int :=
  x.w.foldl (fun (i : Int) s => if (a.node s.2.toNat).st then i + s.1.toInt else i - s.1.toInt) x.bias.toInt

/-! ### The head of the queue -/

/-- The running operation of a team's array. -/
def State.headSx (s : State) (uid : Nat) : Option (Nat × SxArray × SxOp) :=
  match s.team uid with
  | none => none
  | some t =>
    let a := s.array t.core
    if t.st = .running ∧ a.team = some uid then
      (match a.ops with
       | o :: _ => some (t.core, a, o)
       | [] => none)
    else none

/-- Rewrite the running operation. -/
def SxArray.setHead (a : SxArray) (o : SxOp) : SxArray := { a with ops := o :: a.ops.drop 1 }

/-- May the array start a unit of work: in an issue cycle, and not while its team is to stop (R29, R278)? -/
def State.sxGoes (s : State) (uid core : Nat) : Bool := s.issueCycle core && !s.stopAsked [uid]

/-- The array of a team, on its core or with the suspended team. -/
def State.sxArr (s : State) (uid : Nat) : Option SxArray :=
  match s.team uid with
  | none => none
  | some t =>
    match t.sx with
    | some a => some a
    | none => if (s.array t.core).team = some uid then some (s.array t.core) else none

/-- Change the array of a team, wherever it is. -/
def State.onSx (s : State) (uid : Nat) (f : SxArray → SxArray) : State :=
  match s.team uid with
  | none => s
  | some t =>
    match t.sx with
    | some a => s.setTeam uid { t with sx := some (f a) }
    | none => s.setArray t.core (f (s.array t.core))

/-! ### Sweeps (R265 to R268, R274, R275) -/

/-- The order of the colours in sweep s (R265). -/
def colourOrder (key : DWord) (ncol ord : Nat) (s : Word) : List Nat :=
  let asc := List.range ncol
  if ord % 4 = 0 then asc
  else if ord % 4 = 1 then asc.reverse
  else (List.range (ncol - 1)).foldl (fun (l : List Nat) x =>
    let i := ncol - 1 - x
    let j := sxHash key 1 0 0 i s % (i + 1)
    (l.set i (l.getD j 0)).set j (l.getD i 0)) asc

/-- One phase: every node of colour c takes its new state, all sources read as they stood (R265). -/
def SxArray.phase (a : SxArray) (n c : Nat) (beta scale : BitVec 16) : SxArray :=
  (List.range 8192).foldl (fun (b : SxArray) i =>
    let x := a.node i
    if x.col.toNat ≠ c ∨ Sparse.get false a.ghost i then b
    else if x.cle then b.setNode i { x with st := x.clv }
    else
      let u := if a.replay then sxHash a.key 0 a.memb c i a.sweep else (Config.noise n i).toNat
      b.setNode i { x with st := decide (u < threshold beta scale (a.field x)) }) a

/-- Counts after a sweep, and whether one stands at its greatest (R266). -/
def SxArray.countUp (a : SxArray) : SxArray × Bool :=
  a.nodes.foldl (fun (r : SxArray × Bool) p =>
    if !p.2.st then r
    else if p.2.count = 0xFFFF then (r.1, true)
    else (r.1.setNode p.1 { p.2 with count := p.2.count + 1 }, r.2)) (a, false)

/-- The run of a member since the domain formed, as a key of its counts. -/
def runKey (run m : Nat) : Nat := run * 256 + m

def Rec.domain (rc : Rec) (d : Nat) : Domain := Sparse.get {} rc.domains d
def State.setDomain (s : State) (r d : Nat) (x : Domain) : State :=
  s.setRec r { s.rcd r with domains := Sparse.set {} (s.rcd r).domains d x }

/-- Exported states written into a slot of the Millpond (R274). -/
def Domain.export' (d : Domain) (a : SxArray) (sweep : Nat) : Domain :=
  let slot := a.memb * 4 + sweep % 4
  { d with
    slots := ((List.range a.exps.length).zip a.exps).foldl (fun m p => Sparse.set false m (slot * 512 + p.1) (a.node p.2).st) d.slots
    labels := Sparse.set 0 d.labels slot (sweep + 1) }

/-- Exchange of a sampling domain counts in OREQ of the quadrant of the member whose slot it is: one request for each slot written and
one for each source read (R25; DESIGN CHOICE, log entry 155). -/
def State.countExchange (s : State) (core n : Nat) : State :=
  let d := s.quad (core / 48)
  s.setQuad (core / 48) { d with oreq := d.oreq + BitVec.ofNat 64 n }

/-- The requests with which a member writes n slots: none where it exports nothing. -/
def State.countExport (s : State) (a : SxArray) (core n : Nat) : State := s.countExchange core (if a.exps = [] then 0 else n)

/-- The requests with which a member reads the slots of its sources. -/
def State.countImport (s : State) (a : SxArray) (dm : Domain) : State :=
  ((a.imps.map fun x => x.2.2).eraseDups).foldl (fun (s : State) m =>
    match dm.members.find? fun p => p.1 == m with
    | some p => (match s.team p.2 with | some t => s.countExchange t.core 1 | none => s)
    | none => s) s

/-- A run begins: COUNTs are zeroed unless ACC, and in a domain the seeds are written and the parameters registered (R266, R274,
R275). -/
def State.beginRun (s : State) (uid : Nat) : State :=
  match s.headSx uid with
  | none => s
  | some (core, a, o) =>
    match o.kind with
    | .run nsw _ _ _ ncol ord acc stale =>
      let s0 := a.sweep.toNat
      let a := if acc then a else { a with nodes := mapVals {} a.nodes fun x => { x with count := 0 } }
      let s := s.setArray core (a.setHead { o with started := true })
      (match a.dom with
       | none => s
       | some d =>
         let dm := (s.rcd o.launch).domain d
         let run := Sparse.get 0 dm.runs a.memb + 1
         let dm := [4, 3, 2, 1].foldl (fun (m : Domain) k => m.export' a ((s0 + 2 ^ 32 - k) % 2 ^ 32)) dm
         (s.countExport a core 4).setDomain o.launch d { dm with
           runs := Sparse.set 0 dm.runs a.memb run
           params := Sparse.set [] dm.params (runKey run a.memb) [a.key.toNat, b2n a.replay, s0, nsw, ncol, ord % 4, stale] })
    | _ => s

/-- Members that a member imports from, and members that import from it. -/
def SxArray.sources (a : SxArray) : List Nat := (a.imps.map fun x => x.2.2).eraseDups
def State.importers (s : State) (dm : Domain) (m : Nat) : List Nat :=
  (dm.members.filter fun p => match s.sxArr p.2 with | some b => b.imps.any fun x => x.2.2 == m | none => false).map (·.1)

/-- May a member begin its next run? Its importers have started the last sweep of the present one, or start none of it, so no seed
overwrites a slot before it is read (R274). -/
def State.mayBegin (s : State) (a : SxArray) (launch : Nat) : Bool :=
  match a.dom with
  | none => true
  | some d =>
    let dm := (s.rcd launch).domain d
    let run := Sparse.get 0 dm.runs a.memb
    run == 0 || (s.importers dm a.memb).all fun m =>
      decide (run < Sparse.get 0 dm.runs m) ||
      decide ((Sparse.get [] dm.params (runKey run a.memb)).getD 3 0 ≤ Sparse.get 0 dm.started (runKey run m))

/-- A run's sweep starts, once its domain's exchange allows it: the ghost nodes take their sources' states (R274, R277). -/
def State.sweepStart (s : State) (uid : Nat) : State :=
  match s.headSx uid with
  | none => s
  | some (core, a, o) =>
    if !s.sxGoes uid core then s
    else
    let s := match o.kind with
      | .run .. =>
        if o.started || o.ended then s
        else if s.mayBegin a o.launch then s.beginRun uid
        else s.setArray core (a.setHead { o with stalled := true })
      | _ => s
    match s.headSx uid with
    | none => s
    | some (core, a, o) =>
      match o.kind with
      | .run nsw _ _ _ _ _ _ stale =>
        if !o.started || o.ended || o.inSweep || nsw ≤ o.done then s
        else if o.code.getLsbD 0 then s.setArray core (a.setHead { o with ended := true })
        else
          (match a.dom with
           | none => s.setArray core (a.setHead { o with inSweep := true })
           | some d =>
             let dm := (s.rcd o.launch).domain d
             let run := Sparse.get 0 dm.runs a.memb
             let all := dm.members.map (·.1)
             let par := fun (m : Nat) => Sparse.get [] dm.params (runKey run m)
             if o.done = 0 ∧ !all.all (fun m => decide (run ≤ Sparse.get 0 dm.runs m)) then
               s.setArray core (a.setHead { o with stalled := true })
             else if o.done = 0 ∧ !all.all (fun m => par m == par a.memb) then
               -- it starts no sweep of this run, which holds up no other member's next one
               (s.setDomain o.launch d { dm with started := Sparse.set 0 dm.started (runKey run a.memb) (2 ^ 32) }).setArray core
                 (a.setHead { o with code := o.code ||| 0x21, ended := true })
             else
               let i := o.done
               let fin := fun (m : Nat) => if run < Sparse.get 0 dm.runs m then nsw else Sparse.get 0 dm.ended (runKey run m)
               let srcOk := a.sources.all fun m => decide (i ≤ fin m + stale)
               let impOk := (s.importers dm a.memb).all fun m =>
                 decide (run < Sparse.get 0 dm.runs m) || decide (i + stale ≤ Sparse.get 0 dm.started (runKey run m) + 2)
               if !srcOk ∨ !impOk then s.setArray core (a.setHead { o with stalled := true })
               else
                 let (n, s) := s.draw
                 let b := a.imps.foldl (fun (b : SxArray) x =>
                   -- sweep s − 1 − back of the source
                   let newest := Nat.min stale (fin x.2.2 + stale - i)
                   let back := if a.replay then stale else stale - Nat.min newest (Config.ghostAge n x.1)
                   let u := (a.sweep.toNat + 2 ^ 32 - 1 - back) % 2 ^ 32
                   b.setNode x.1 { b.node x.1 with st := Sparse.get false dm.slots ((x.2.2 * 4 + u % 4) * 512 + x.2.1) }) a
                 let s := (s.countImport a dm).setDomain o.launch d { dm with started := Sparse.set 0 dm.started (runKey run a.memb) (i + 1) }
                 s.setArray core (b.setHead { o with inSweep := true, stalled := false
                                                     stall := if o.stalled then Nat.min (o.stall + 1) 0xFFFF else o.stall }))
      | _ => s

/-- The array is fenced: its domain ends, the run ends, and what is queued completes with BIAS and FAULT (R268). A run that another
member's loss has marked LOST stays so (R276); the array's own fence marks the others, not itself. -/
def State.fenceArray (s : State) (core : Nat) : State :=
  let a := s.array core
  let r := (a.ops.head?.map fun o => o.launch).getD 0
  let keep : BitVec 8 := if a.dom.isSome then 0xBF else 0xFF
  let s := s.leaveDomain r core
  let a := s.array core
  (s.setArray core { a with fenced := true, ops := a.ops.map fun o => { o with code := (o.code &&& keep) ||| 0x11, ended := true } }).logEv
    .arrayFenced 2 (evCore core) [core]

/-- A sweep's phases finish (R265 to R268, R274). -/
def State.sweepEnd (s : State) (uid : Nat) : State :=
  match s.headSx uid with
  | none => s
  | some (core, a, o) =>
    match o.kind with
    | .run nsw burn beta scale ncol ord _ _ =>
      if !o.inSweep then s
      else
        let (n, s) := s.draw
        let b := (colourOrder a.key ncol ord a.sweep).foldl (fun (b : SxArray) c => b.phase n c beta scale) a
        let (b, sat) := if burn ≤ o.done then b.countUp else (b, false)
        let s := match b.dom with
          | none => s
          | some d =>
            let dm := (s.rcd o.launch).domain d
            let run := Sparse.get 0 dm.runs b.memb
            (s.countExport b core 1).setDomain o.launch d { dm.export' b b.sweep.toNat with ended := Sparse.set 0 dm.ended (runKey run b.memb) (o.done + 1) }
        let o := { o with done := o.done + 1, inSweep := false, code := if sat then o.code ||| 8 else o.code }
        let o := { o with ended := decide (nsw ≤ o.done) || o.code.getLsbD 0 }
        let b := { b with sweep := b.sweep + 1 }
        let b := if o.code.getLsbD 6 then b.clearMap else b
        if b.replay then s.setArray core (b.setHead o)
        else
          let sum := b.hsum + Nat.min (Config.refDraws n) 64
          if b.hcount + 1 < b.hwin then s.setArray core ({ b with hcount := b.hcount + 1, hsum := sum }.setHead o)
          else
            let dev : Int := (sum : Int) - 32 * b.hwin
            let s := s.setArray core ({ b with hcount := 0, hsum := 0 }.setHead { o with hdev := dev })
            if b.hband < dev.natAbs then s.fenceArray core else s
    | _ => s

def execSweepStart (team : Nat) (s : State) : Host.Outcome State Fault Refusal := .next (s.sweepStart team)
def execSweepEnd (team : Nat) (s : State) : Host.Outcome State Fault Refusal := .next (s.sweepEnd team)

/-! ### The other operations (R269, R270) -/

/-- The requester of an SXLOAD from memory. -/
def SxOp.eng (o : SxOp) (s : State) (core : Nat) : Eng :=
  { id := o.id, agent := core, core := core, ctx := (s.rcd o.launch).ctx, launch := o.launch, src := srcCore core }

/-- The next record of an SXLOAD (R269, R270). True: it goes on. -/
def State.loadRecord (s : State) (uid : Nat) : State × Bool :=
  match s.headSx uid with
  | none => (s, false)
  | some (core, a, o) =>
    match o.kind with
    | .load mem base n0 n =>
      if n ≤ o.done then (s.setArray core (a.setHead { o with ended := true }), false)
      else if o.done % 64 = 0 ∧ s.sxGoes uid core = false then (s, false)
      else
        let put := fun (s : State) (bs : List Byte) (bad : Bool) =>
          let a := (s.array core)
          if bad then (s.setArray core (a.setHead { o with ended := true, code := o.code ||| 3 }), false)
          else
            match Node.ofBytes bs with
            | none => (s.setArray core (a.setHead { o with ended := true, code := o.code ||| 5 }), false)
            | some x => (s.setArray core ((a.setNode (n0 + o.done) x).setHead { o with done := o.done + 1 }), true)
        let va := base.toNat + 64 * o.done
        if !mem then put s (s.readScratch uid va 64) false
        else
          match s.engReads (o.eng s core) (sectorPieces va 64) with
          | (.ok bs p, s) => put s bs p
          | (.wait, s) => (s, false)
          | (.hold code v lo hi, s) =>
            if code = causePage then
              let (i, s) := s.engReport (o.eng s core) code 0 v lo hi core
              ((s.setArray core ((s.array core).setHead { o with report := some i })).writeReport (s.rcd o.launch).ctx i, false)
            else if code = causePoison then (s.setArray core ((s.array core).setHead { o with ended := true, code := o.code ||| 3 }), false)
            else (s.setArray core ((s.array core).setHead { o with ended := true, code := o.code ||| 1 }), false)
          | (.fail _, s) => (s.setArray core ((s.array core).setHead { o with ended := true, code := o.code ||| 1 }), false)
    | _ => (s, false)

def State.loadRecords (s : State) (uid : Nat) : Nat → State
  | 0 => s
  | k + 1 =>
    match s.loadRecord uid with
    | (s, true) => s.loadRecords uid k
    | (s, false) => s

/-- Nodes n0 to n0 + n − 1. -/
def nodeRange (n0 n : Nat) : List (Nat × Nat) := (List.range n).map fun i => (i, n0 + i)

/-- A join map's fields (R272). NEXP or NIMP above 512 counts with the breaches that make formation fail with MAP (DESIGN CHOICE, log
entry 149). -/
def SxArray.readMap (a : SxArray) (bs : List Byte) : SxArray :=
  let f := fieldAt bs
  let nexp := f 0 2
  let nimp := f 2 2
  { a with
    exps := (List.range nexp).map fun e => f (0x10 + 2 * e) 2 % 8192
    imps := (List.range nimp).map fun g => let x := f (0x410 + 4 * g) 4; (x % 8192, nbits x 21 13, nbits x 29 22)
    mapOk := zeroAt bs 4 12 && decide (nexp ≤ 512) && decide (nimp ≤ 512) &&
      ((List.range (Nat.min nexp 512)).all fun e => nbits (f (0x10 + 2 * e) 2) 15 13 == 0) &&
      ((List.range (Nat.min nimp 512)).all fun g => nbits (f (0x410 + 4 * g) 4) 31 30 == 0) }

/-- The teams that wait to join a domain of launch r, suspended ones among them, with their arrays, domain, member count and index. -/
def State.waiters (s : State) (r : Nat) : List (Nat × SxArray × Nat × Nat × Nat) :=
  (s.teamsOf r).filterMap fun p =>
    (s.sxArr p.1).bind fun a =>
      match a.ops with
      | o :: _ =>
        (match o.kind with
         | .join _ d m i => if o.started = true ∧ o.ended = false then some (p.1, a, d, m, i) else none
         | _ => none)
      | [] => none

/-- Those that wait to join domain d with member count m: (team, array, member index). -/
def State.joiners (s : State) (r d m : Nat) : List (Nat × SxArray × Nat) :=
  (s.waiters r).filterMap fun w => if w.2.2.1 = d ∧ w.2.2.2.1 = m then some (w.1, w.2.1, w.2.2.2.2) else none

/-- May the domain form from these joiners (R273)? -/
def mapsOk (js : List (Nat × SxArray × Nat)) (m : Nat) : Bool :=
  let idx := js.map fun j => j.2.2
  (idx.eraseDups.length == idx.length) && js.all fun j =>
    let a := j.2.1
    let gs := a.imps.map fun x => x.1
    a.mapOk && gs.eraseDups.length == gs.length && (gs.all fun g => !a.exps.contains g) &&
    a.imps.all fun x => decide (x.2.2 < m) && js.any fun k => k.2.2 == x.2.2 && decide (x.2.1 < k.2.1.exps.length)

/-- The joining operation of a team's array ends with these code bits. -/
def State.endJoin (s : State) (uid : Nat) (code : BitVec 8) : State :=
  s.onSx uid fun a =>
    match a.ops with
    | o :: r => { a with ops := { o with ended := true, code := o.code ||| code } :: r }
    | [] => a

/-- An array joins a domain; the M-th joiner forms it (R273). -/
def State.joinDomain (s : State) (uid : Nat) : State :=
  match s.headSx uid with
  | none => s
  | some (core, a, o) =>
    match o.kind with
    | .join map d m _ =>
        let s := if o.started then s
          else s.setArray core ((a.readMap (s.readScratch uid map 0xC10)).setHead { o with started := true })
        let js := s.joiners o.launch d m
        if js.length < m ∨ ((s.rcd o.launch).domain d).formed = true then s
        else if !mapsOk js m then js.foldl (fun s j => s.endJoin j.1 0x81) s
        else
          let s := s.setDomain o.launch d { formed := true
                                            members := js.map fun j => (j.2.2, j.1) }
          js.foldl (fun s j =>
            (s.onSx j.1 fun b => { b with
              dom := some d, memb := j.2.2, mapAway := true
              ghost := b.imps.foldl (fun g x => Sparse.set false g x.1 true) []
              expo := b.exps.foldl (fun g x => Sparse.set false g x true) [] }).endJoin j.1 0) s
    | _ => s

/-- The 10 ms of R273 pass: every array that waits to join completes with LOST. -/
def State.joinTimeout (s : State) (r d : Nat) : State :=
  (s.waiters r).foldl (fun s w => if w.2.2.1 = d then s.endJoin w.1 0x41 else s) s

def execDomainJoinTimeout (r d : Nat) (s : State) : Host.Outcome State Fault Refusal := .next (s.joinTimeout r d)

/-- The work of an operation that is no run: done as far as it goes (R269). -/
def State.workSx (s : State) (uid : Nat) : State :=
  match s.headSx uid with
  | none => s
  | some (core, a, o) =>
    if o.ended || o.report.isSome || (o.done % 64 == 0 && !s.sxGoes uid core) || o.deps.any fun d => (s.txn d).isSome then s
    else
      let fin := fun (a : SxArray) (n : Nat) => s.setArray core (a.setHead { o with ended := true, done := n })
      match o.kind with
      | .run .. => s
      | .load _ _ _ n => s.loadRecords uid (n - o.done + 1)
      | .bias src n0 n =>
        fin ((nodeRange n0 n).foldl (fun (b : SxArray) i =>
          b.setNode i.2 { b.node i.2 with bias := BitVec.ofNat 16 (s.scrNat uid (src + 2 * i.1) 2) }) a) n
      | .clamp src n0 n =>
        fin ((nodeRange n0 n).foldl (fun (b : SxArray) i =>
          b.setNode i.2 { b.node i.2 with
            cle := nbit (s.scrNat uid (src + i.1 / 8) 1) (i.1 % 8)
            clv := nbit (s.scrNat uid (src + 1024 + i.1 / 8) 1) (i.1 % 8) }) a) n
      | .key k sw replay => fin { a with key := k, sweep := sw, replay := replay, hcount := 0, hsum := 0 } 0
      | .health hw hb => fin { a with hwin := hw, hband := hb, hcount := 0, hsum := 0 } 0
      | .read cnt dst n0 n =>
        let bs := if cnt then (List.range n).flatMap fun i => toLE 2 (a.node (n0 + i)).count.toNat
          else (List.range ((n + 7) / 8)).map fun b =>
            BitVec.ofNat 8 (sumN ((List.range 8).map fun k =>
              if 8 * b + k < n && (a.node (n0 + 8 * b + k)).st then 2 ^ k else 0))
        let s := s.engScratch uid dst (bs ++ List.replicate (roundUp bs.length 16 - bs.length) 0)
        s.setArray core ((s.array core).setHead { o with ended := true, done := n })
      | .join _ d m _ =>
        if m = 0 then
          let s := if a.dom.isSome then s.leaveDomain o.launch core else s
          s.setArray core ((s.array core).setHead { o with ended := true })
        else if a.dom.isSome then s.setArray core (a.setHead { o with ended := true, code := o.code ||| 0x81 })
        else
          let _ := d
          s.joinDomain uid

/-- The status granule (R271). -/
def SxOp.granule (o : SxOp) (sweep : Word) : List Byte :=
  toLE 4 o.done ++ toLE 4 sweep.toNat ++ toLE 2 o.code.toNat ++ toLE 2 o.stall ++ toLE 4 (wrapN o.hdev 32)

/-- The operation at the head completes: its status granule, and its barrier (R269, R271, R413). -/
def State.sphinxCompletion (s : State) (uid : Nat) : State :=
  let s := s.workSx uid
  match s.headSx uid with
  | none => s
  | some (core, a, o) =>
    if !o.ended || o.inSweep then s
    else
      let s := (s.setArray core { a with ops := a.ops.drop 1 }).setBuf o.id []
      let s := match o.bar with
        | some b =>
          let s := s.engScratch uid (b + 16) (o.granule a.sweep)
          if o.bound then
            s.barEvent uid b fun x => x.complete ((if o.code.getLsbD 1 then stPoison else 0) ||| (if o.code.getLsbD 0 then stFault else 0))
          else s
        | none => if o.code.getLsbD 0 then s.logEv .sphinxFault 1 (evCore core) [o.code.toNat] else s
      s.freeRoom (.sphinx uid)

def execSphinxCompletion (team : Nat) (s : State) : Host.Outcome State Fault Refusal := .next (s.sphinxCompletion team)

/-! ### The instructions (R413 to R416) -/

/-- A word of the array waits for room in its queue (R269, R455). -/
def sxOps : WordOps :=
  { mem := true, ready := fun c s => match c.g.team with | some uid => s.hasRoom (.sphinx uid) | none => true }

/-- What a lane's operation asks of the checks of R413: operands in range, offsets with their alignment, scratch ranges, and a
memory address. -/
structure SxAsk where
  ok : Bool := true
  al : List (Nat × Nat) := []            -- (offset, alignment)
  rng : List (Nat × Nat) := []           -- (offset, bytes) of scratchpad
  mem : Option Nat := none
  late : Bool := true                    -- what is read from the descriptor is in range
deriving DecidableEq, Repr

/-- One Sphinx operation of a lane: the checks of R413 in order, then the queue. -/
def State.sxLane (s : State) (c : Ctl) (l : Nat) (q : SxAsk) (bar : Option Nat) (k : SxKind) : LaneRes × State :=
  match c.g.team with
  | none => (badOperand, s)
  | some uid =>
    match s.team uid with
    | none => (badOperand, s)
    | some t =>
      let a := s.array t.core
      let al := q.al ++ (bar.toList.map fun b => (b, 16))
      let rng := q.rng ++ (bar.toList.map fun b => (b, 32))
      if !(s.rcd t.task.lrec).blk.sxu then (badOperand, s)
      else if !s.roomFor (.sphinx uid) c.gid l then s.noRoom (.sphinx uid) c.gid l
      else
      let s := s.tookRoom (.sphinx uid) c.gid l
      if a.fenced then (.trap 0x32 0 0, s)
      else if !q.ok then (badOperand, s)
      else
        match al.find? fun x => x.1 % x.2 ≠ 0 with
        | some x => (trapAt 0x25 0 x.1, s)
        | none =>
          match rng.find? fun x => decide (s.scrBytes t < x.1 + x.2) with
          | some x => (trapAt 0x27 0 x.1, s)
          | none =>
            match (q.mem.toList).find? fun v => decide (2 ^ 57 ≤ v) with
            | some v => (trapAt 0x26 0 v, s)
            | none =>
              if !q.late then (badOperand, s)
              else
                let (id, s) := s.fresh
                let op : SxOp := { id := id, team := uid, launch := c.g.launch, kind := k, bar := bar, bound := bar.isSome,
                                   deps := if q.mem.isSome then s.issueDeps c.gid l else [] }
                let s := s.setArray t.core { a with ops := a.ops ++ [op] }
                (pending, match bar with | some b => s.barEvent uid b Bar.bind | none => s)

/-- The barrier operand. -/
def Env.bar (e : Env) (g : Bool) (bar : Option RegIx) : Option Nat := bar.map fun r => (e.a32 g r).toNat
/-- Is a node range allowed (R413)? -/
def rangeOk (n0 n : Nat) : Bool := n ≠ 0 && decide (n0 + n ≤ 8192)

def execSxload (h : Hdr) (g mem : Bool) (a n : RegIx) (bar : Option RegIx) (s : State) : Host.Outcome State Fault Refusal :=
  s.word (.sxload h g mem a n bar) h sxOps fun c l s =>
    let e := c.env l
    let n0 := (e.run g n 0).toNat
    let cnt := (e.run g n 1).toNat
    let src : DWord := if mem then e.a64 g a else (e.a32 g a).zeroExtend 64
    s.sxLane c l { ok := rangeOk n0 cnt, al := [(src.toNat, 64)], rng := if mem then [] else [(src.toNat, 64 * cnt)],
                   mem := if mem then some src.toNat else none } (e.bar g bar) (.load mem src n0 cnt)

def execSxbias (h : Hdr) (g : Bool) (a n : RegIx) (bar : Option RegIx) (s : State) : Host.Outcome State Fault Refusal :=
  s.word (.sxbias h g a n bar) h sxOps fun c l s =>
    let e := c.env l
    let n0 := (e.run g n 0).toNat
    let cnt := (e.run g n 1).toNat
    let src := (e.a32 g a).toNat
    s.sxLane c l { ok := rangeOk n0 cnt, al := [(src, 16)], rng := [(src, 2 * cnt)] } (e.bar g bar) (.bias src n0 cnt)

def execSxclamp (h : Hdr) (g : Bool) (a n : RegIx) (bar : Option RegIx) (s : State) : Host.Outcome State Fault Refusal :=
  s.word (.sxclamp h g a n bar) h sxOps fun c l s =>
    let e := c.env l
    let n0 := (e.run g n 0).toNat
    let cnt := (e.run g n 1).toNat
    let src := (e.a32 g a).toNat
    s.sxLane c l { ok := rangeOk n0 cnt, al := [(src, 16)], rng := [(src, 1024 + (cnt + 7) / 8)] } (e.bar g bar) (.clamp src n0 cnt)

/-- Does a run descriptor obey R264? -/
def runOk (bs : List Byte) : Bool :=
  let f := fieldAt bs
  let fin := fun (x : Nat) => decide (x / 1024 % 32 ≠ 31)
  1 ≤ f 0 4 && f 0 4 ≤ 2 ^ 24 && f 4 4 ≤ f 0 4 && fin (f 8 2) && (f 8 2 < 32768 || f 8 2 == 32768) && fin (f 10 2) &&
  1 ≤ f 12 1 && f 12 1 ≤ 8 && f 13 1 % 4 ≠ 3 && f 13 1 < 8 && f 14 1 < 4 && zeroAt bs 0xF 0x31

def execSxrun (h : Hdr) (g : Bool) (a : RegIx) (bar : Option RegIx) (s : State) : Host.Outcome State Fault Refusal :=
  s.word (.sxrun h g a bar) h sxOps fun c l s =>
    let e := c.env l
    let o := (e.a32 g a).toNat
    let bs := match c.g.team with | some uid => s.readScratch uid o 64 | none => []
    let f := fieldAt bs
    s.sxLane c l { al := [(o, 64)], rng := [(o, 64)], late := runOk bs } (e.bar g bar)
      (.run (f 0 4) (f 4 4) (BitVec.ofNat 16 (f 8 2)) (BitVec.ofNat 16 (f 10 2)) (f 12 1) (f 13 1 % 4) (nbit (f 13 1) 2) (f 14 1))

def execSxread (h : Hdr) (g cnt : Bool) (a n : RegIx) (bar : Option RegIx) (s : State) : Host.Outcome State Fault Refusal :=
  s.word (.sxread h g cnt a n bar) h sxOps fun c l s =>
    let e := c.env l
    let n0 := (e.run g n 0).toNat
    let m := (e.run g n 1).toNat
    let dst := (e.a32 g a).toNat
    s.sxLane c l { ok := rangeOk n0 m && (cnt || n0 % 8 == 0), al := [(dst, 16)]
                   rng := [(dst, roundUp (if cnt then 2 * m else (m + 7) / 8) 16)] } (e.bar g bar) (.read cnt dst n0 m)

def execSxkey (h : Hdr) (g replay : Bool) (a b : RegIx) (s : State) : Host.Outcome State Fault Refusal :=
  s.word (.sxkey h g replay a b) h sxOps fun c l s =>
    let e := c.env l
    s.sxLane c l {} none (.key (e.a64 g a) (e.a32 g b) replay)

def execSxjoin (h : Hdr) (g : Bool) (a b : RegIx) (bar : Option RegIx) (s : State) : Host.Outcome State Fault Refusal :=
  s.word (.sxjoin h g a b bar) h sxOps fun c l s =>
    let e := c.env l
    let j := (e.a32 g b).toNat
    let m := nbits j 15 8
    let o := (e.a32 g a).toNat
    s.sxLane c l { ok := nbits j 7 4 == 0 && nbits j 31 24 == 0 && decide (m ≤ 192) && (m == 0 || decide (nbits j 23 16 < m))
                   al := if m = 0 then [] else [(o, 16)], rng := if m = 0 then [] else [(o, 0xC10)] } (e.bar g bar)
      (.join o (nbits j 3 0) m (nbits j 23 16))

def execSxhealth (h : Hdr) (g : Bool) (a b : RegIx) (s : State) : Host.Outcome State Fault Refusal :=
  s.word (.sxhealth h g a b) h sxOps fun c l s =>
    let e := c.env l
    let w := (e.a32 g a).toNat
    let b := (e.a32 g b).toNat
    s.sxLane c l { ok := decide (1024 ≤ w) && decide (w ≤ 65536) && decide (b ≤ 65535) } none (.health w b)

end Sys2Proof.Machine
end

