-- ==== Sys2Proof/Machine/Save.lean ====
section
/-! DEFINITION. Save.lean: teams and groups that leave their cores and come back: group frames (R294), team slots (R293), the
spawn save pool (R135), what stops at which boundary (R291), suspension and resumption (R167, R292). -/
namespace Sys2Proof.Machine

/-! ### The save area (R84, R135) -/

/-- The number of a team: by its coordinates, GX varying fastest (R84). -/
def Block.teamNo (b : Block) (t : Task) : Nat := (t.tx.toNat + b.gx * (t.ty.toNat + b.gy * t.tz.toNat)) % b.teams
/-- Virtual address of a team's slot. -/
def Block.slotVa (b : Block) (t : Task) : Nat := b.save.toNat + b.teamNo t * b.slotBytes
/-- Offset in the slot of the frame of group number `grp` (R293). -/
def Block.frameOff (b : Block) (stg grp : Nat) : Nat :=
  0x1000 + 1024 * b.scr + 16384 * b.acc + 1024 * sumN (((b.teamGroups stg).take grp).map fun p => 1 + p.2.regs)
/-- Offset in the slot of the node records. -/
def Block.nodesOff (b : Block) (stg : Nat) : Nat := b.frameOff stg (b.teamGroups stg).length
/-- Frames of the spawn save pool, and the address of frame i. -/
def Block.poolSize (b : Block) : Nat := b.savelen - b.teams * b.slotBytes / 65536
def Block.poolVa (b : Block) (i : Nat) : Nat := b.save.toNat + b.teams * b.slotBytes + 65536 * i

/-- The pieces of n bytes at va that lie in one 4 KiB chunk each, at most m of them. -/
def pieces4k (va n : Nat) : Nat → List (Nat × Nat)
  | 0 => []
  | m + 1 => if n = 0 then [] else
    let k := Nat.min n (4096 - va % 4096)
    (va, k) :: pieces4k (va + k) (n - k) m

/-- The places of a range of a context's memory: all cells, or why not. -/
def State.areaAt (s : State) (k : Nat) (acc : Acc) : List (Nat × Nat) → Except MillRes (List (Nat × Nat)) × State
  | [] => (.ok [], s)
  | p :: ps =>
    match s.millAt k p.1 p.2 acc with
    | (.cell a, s) =>
      (match s.areaAt k acc ps with
       | (.ok r, s) => (.ok ((a, p.2) :: r), s)
       | q => q)
    | (r, s) => (.error r, s)

/-- Places of some ranges of addresses. -/
def State.ranges (s : State) (k : Nat) (acc : Acc) (rs : List (Nat × Nat)) : Except MillRes (List (Nat × Nat)) × State :=
  s.areaAt k acc (rs.flatMap fun p => pieces4k p.1 p.2 (p.2 / 4096 + 2))

/-- Places of n bytes at va. -/
def State.area (s : State) (k va n : Nat) (acc : Acc) : Except MillRes (List (Nat × Nat)) × State := s.ranges k acc [(va, n)]

/-- A core writes bytes to the places of a save range (R84, R189). -/
def State.saveBytes (s : State) (core : Nat) : List (Nat × Nat) → List Byte → State
  | [], _ => s
  | p :: ps, bs => (s.agentWrite (srcCore core) (wbId core) ((List.range p.2).map fun i => (p.1 + i, bs.getD i 0))).saveBytes core ps (bs.drop p.2)

/-- The bytes of a save range, and whether a sector of it is poisoned. -/
def State.savedBytes (s : State) (ps : List (Nat × Nat)) : List Byte × Bool :=
  (ps.flatMap fun p => s.cells p.1 p.2, ps.any fun p => s.poisonedRange p.1 p.2)

/-- A core's reads of a save range are counted (R25). -/
def State.countSaved (s : State) (core : Nat) (ps : List (Nat × Nat)) : State :=
  ps.foldl (fun (s : State) p => s.countLines (srcCore core) p.1 p.2) s

/-! ### Group frames (R294) -/

/-- State of R144 as the frame codes it. -/
def LaneSt.code : LaneSt → Nat
  | .eligible => 0 | .joining => 1 | .parked => 2 | .trapped => 2 | .exited => 3

/-- The bytes of a group frame. -/
def Group.frameBytes (g : Group) : List Byte :=
  (lanes32.flatMap fun l =>
    let ln := g.lane l
    toLE 8 (ln.pc.toNat % 2 ^ 57 / 8 * 8 + 2 * LaneSt.code ln.st + b2n ln.handler)) ++
  ((List.range 127).flatMap fun i => toLE 4 (g.gr i).toNat) ++
  toLE 4 (g.backoff + 32 * b2n g.handling + 64 * b2n g.floor.isSome + 256 * g.depthNp) ++
  toLE 8 ((g.floor.getD 0).toNat % 2 ^ 57 / 8 * 8) ++ toLE 4 g.step.toNat ++ toLE 4 (sumN g.buckets) ++
  (lanes32.flatMap fun l =>
    let ln := g.lane l
    toLE 4 (ln.p.toNat + 128 * ln.rm.toNat + 1024 * ln.flags.toNat + 32768 * b2n (decide (ln.st = .trapped)) +
      65536 * (ln.cause.toNat % 1024))) ++
  toLE 4 g.mask.toNat ++ toLE 4 0 ++ (lanes32.flatMap fun l => toLE 2 (g.lane l).mark.toNat) ++ List.replicate 40 0 ++
  ((List.range (8 * g.budget)).flatMap fun v => lanes32.flatMap fun l => toLE 4 ((g.lane l).reg v).toNat)

/-- A lane as its frame reads; what the frame does not hold stays as it was saved. One whose report was rejected meanwhile is trap-parked
at the word that faulted (R283). -/
def Lane.restore (ln : Lane) (f : Nat → Nat → Nat) (l budget : Nat) : Lane :=
  let a := f (8 * l) 8
  let w := f (0x310 + 4 * l) 4
  let st : LaneSt := match nbits a 2 1 with
    | 0 => .eligible | 1 => .joining | 3 => .exited
    | _ => if nbit w 15 || ln.rejected then .trapped else .parked
  { ln with
    st := st, pc := if ln.rejected then ln.pc else BitVec.ofNat 64 (a % 2 ^ 57 / 8 * 8), handler := nbit a 0, rejected := false
    park := if st = .parked then ln.park else .none
    ready := decide (st = .parked) && (ln.ready || decide (ln.park = .none))
    p := BitVec.ofNat 7 w, rm := BitVec.ofNat 3 (w / 128), flags := BitVec.ofNat 5 (w / 1024), cause := BitVec.ofNat 32 (nbits w 25 16)
    mark := BitVec.ofNat 16 (f (0x398 + 2 * l) 2)
    v := (List.range (8 * budget)).foldl (fun m v => Sparse.set 0 m v (BitVec.ofNat 32 (f (0x400 + 128 * v + 4 * l) 4))) [] }

/-- A group as its frame reads (R167, R293: a frame that has been changed is restored as it reads). -/
def Group.restore (g : Group) (bs : List Byte) : Group :=
  let f := fieldAt bs
  let w := f 0x2FC 4
  { g with
    lanes := lanes32.foldl (fun m l => Sparse.set {} m l ((g.lane l).restore f l g.budget)) []
    g := (List.range 127).foldl (fun m i => Sparse.set 0 m i (BitVec.ofNat 32 (f (0x100 + 4 * i) 4))) []
    backoff := w % 16, handling := nbit w 5, depthNp := nbits w 11 8
    floor := if nbit w 6 then some (BitVec.ofNat 64 (f 0x300 8 % 2 ^ 57 / 8 * 8)) else none
    mask := if nbit w 6 then BitVec.ofNat 32 (f 0x390 4) else 0
    step := BitVec.ofNat 32 (f 0x308 4)
    buckets := if f 0x30C 4 = sumN g.buckets then g.buckets.take 17 else [f 0x30C 4] }

/-! ### Leaving a core and coming back (R167) -/

/-- The group leaves its core: watches end, and their lanes try again when it resumes (R167). -/
def State.leaveCore (s : State) (gid : Nat) (alone : Bool) (pool : List Nat) : State :=
  match s.group gid with
  | none => s
  | some g =>
    let watch := fun (l : Nat) => match (g.lane l).park with | .monitor _ => true | .queue _ => true | _ => false
    let s := { s with txns := s.txns.filterMap fun (p : Nat × Option Txn) =>
      match p.2 with
      | some t =>
        if t.gid = gid then
          let ps := t.parts.filter fun (q : Part) => !q.op.toLane || q.rep
          let ps := ps.filter fun (q : Part) => !(watch q.lane && (match q.op with | .enq _ => !t.accepted | _ => false))
          if ps.isEmpty then none else some (p.1, some { t with parts := ps })
        else some p
      | none => some p }
    let g := lanes32.foldl (fun (g : Group) l => if watch l then g.setLane l { g.lane l with ready := true } else g) g
    let s := { s with wokenRooms := s.wokenRooms.filter fun p => p.2.1 != gid }
    s.setGroup gid { g with resident := false, alone := alone, pool := pool, hazards := [], landings := [], fetched := [],
                            loc := [], preempt := false
                            -- the hold of a SLEEP ends (R354)
                            asleep := false, readyAt := if g.asleep then s.clk else g.readyAt }

/-- Is the release condition of a parked lane met? Conditions that end at one moment mark the lane then; the others are
looked at here (R152). -/
def State.parkMet (s : State) (gid : Nat) (g : Group) (l : Nat) : Bool :=
  let ln := g.lane l
  let rc := s.rcd g.launch
  ln.ready || (match ln.park with
    | .none => true
    | .ticket key q => decide (q ≤ Sparse.get 0 rc.tickets key)
    | .xset x par => s.convPhase g x != some par
    | .signed x par => s.convPhase g x != some par
    | .batch n => s.waitMet gid l (.batch n)
    | .upto b => s.waitMet gid l (.upto b)
    | .stageFull st => rc.queueHasRoom st
    | .listFull => decide (rc.items < 65536)
    | .recFree => s.lowestFree.isSome
    | .notStarted j => s.mateStarted g j
    | .barrier t a par => (match s.team t with | some tm => tm.phaseAt t a != par | none => false)
    | .redFull => decide (rc.held.length < 4096) || (match g.team.bind s.team with | some t => s.leads t | none => true)
    | _ => false)

/-- The engine of this kind that a group on this core uses. -/
def engineOn (e : Engine) (core : Nat) : Engine :=
  match e with
  | .coreCopy _ => .coreCopy core
  | .nbgemv _ => .nbgemv core
  | .quadCopy _ => .quadCopy (core / 48)
  | e => e

/-- A lane of a group that comes back: it leaves its park where its release condition was met while the group was away, or where the engine
it waits for, that of its new core, has room (R152, R167). At handler entry it writes its trap record first, as LANE_RELEASE has it (R284). -/
def State.laneBack (s : State) (gid : Nat) (g : Group) (l : Nat) (ln : Lane) : Lane :=
  if ln.st ≠ .parked then ln
  else
    match ln.park with
    | .handlerEntry _ => ln
    | .room e =>
      let e := engineOn e g.core
      if ln.ready || s.hasRoom e then ln.release else { ln with park := .room e }
    | _ => if s.parkMet gid g l then ln.release else ln

/-- The group is on a core again: lanes whose release conditions were met are eligible, and a window that overran traps its
eligible lanes (R167, R299). -/
def State.enterCore (s : State) (gid core adm : Nat) : State :=
  match s.group gid with
  | none => s
  | some g =>
    let s := s.startReserve g.launch core
    let (q, sl) := s.slotOn core
    let g : Group := { g with resident := true, alone := false, pool := [], core := core, quarter := q, slot := sl,
                              admitted := adm, lastIssue := s.clk, readyAt := Nat.max g.readyAt s.clk }
    let g := lanes32.foldl (fun (h : Group) l => h.setLane l (s.laneBack gid g l (g.lane l))) g
    let ended := g.overrun
    let s := s.setGroup gid { g with overrun := false, depthNp := if ended then 0 else g.depthNp }
    if ended then (g.eligible).foldl (fun s l => s.takeTrap gid l 0x36 0 0) s else s

/-! ### One group alone (R135, R136) -/

/-- Frames of the spawn save pool that a spawned group takes (R118): a class 7 frame is longer than one. -/
def Group.poolFrames (g : Group) : Nat := if g.budget = 64 then 2 else 1

/-- The ranges of a group's frame whose place is this: from va on, or over the pool frames it takes (log entry 60). -/
def State.frameRanges (s : State) (g : Group) (va : Nat) (pool : List Nat) : List (Nat × Nat) :=
  match pool with
  | _ :: j :: _ => [(va, 65536), ((s.rcd g.launch).blk.poolVa j, 1024 * (1 + g.budget) - 65536)]
  | _ => [(va, 1024 * (1 + g.budget))]

/-- A place for a group's frame: its address, and the pool frames it takes. -/
def State.savePlace (s : State) (g : Group) : Option (Nat × List Nat) :=
  let b := (s.rcd g.launch).blk
  match g.team with
  | some u =>
    (match s.team u with
     | some t => some (b.slotVa t.task + b.frameOff t.task.stg g.grp, [])
     | none => none)
  | none =>
    let used := (s.groupsOf g.launch).flatMap fun p => p.2.pool
    let free := ((List.range b.poolSize).filter fun i => !used.contains i).take g.poolFrames
    if free.length = g.poolFrames then some (b.poolVa (free.headD 0), free) else none

/-- A suspended group's frame lies here. -/
def State.frameVaOf (s : State) (g : Group) : Nat :=
  let b := (s.rcd g.launch).blk
  match g.team with
  | some u => (match s.team u with | some t => b.slotVa t.task + b.frameOff t.task.stg g.grp | none => 0)
  | none => b.poolVa (g.pool.headD 0)

/-- Does the core still hold local bytes of the group, whose lines another core owns (R173, R179)? -/
def State.localLeft (s : State) (gid : Nat) : Bool := match s.group gid with | some g => !g.loc.isEmpty | none => false

/-- Suspend one group (R136, R173); true when it is done. -/
def State.suspendGroup (s : State) (gid : Nat) : Bool × State :=
  match s.group gid with
  | none => (true, s)
  | some g =>
    if !g.resident then (true, s)
    else if !s.stoppable gid g then (false, s)
    else
      match s.savePlace g with
      | none => (false, s)
      | some (va, pool) =>
        match s.ranges (s.ctxOf g) .store (s.frameRanges g va pool) with
        | (.error .wait, s) => (false, s)
        | (.error _, s) => (true, s.endLaunch g.launch .fault 0x18)
        | (.ok ps, s) =>
          let s := s.drainLocal gid
          if s.localLeft gid then (false, s) else (true, (s.saveBytes g.core ps g.frameBytes).leaveCore gid true pool)

/-- Bring one suspended group back onto a core; false while its frame cannot be read. -/
def State.resumeGroup (s : State) (gid core : Nat) : Bool × State :=
  match s.group gid with
  | none => (true, s)
  | some g =>
    match s.ranges (s.ctxOf g) .load (s.frameRanges g (s.frameVaOf g) g.pool) with
    | (.error .wait, s) => (false, s)
    | (.error _, s) => (true, s.endLaunch g.launch .fault 0x18)
    | (.ok ps, s) =>
      let r := s.savedBytes ps
      let s := s.countSaved core ps
      if r.2 then (true, s.loseOwner gid 0x19)
      else
        let (adm, s) := s.fresh
        (true, (s.setGroup gid (g.restore r.1)).enterCore gid core adm)

/-! ### A whole team (R292, R293) -/

/-- The bits of a node set, 1,024 bytes. -/
def bitBytes (m : Sparse Bool) : List Byte :=
  (List.range 1024).map fun b => BitVec.ofNat 8 (sumN ((List.range 8).map fun i => if Sparse.get false m (8 * b + i) then 2 ^ i else 0))
def bitSet (bs : List Byte) : Sparse Bool :=
  (List.range 8192).filterMap fun n => if (bs.getD (n / 8) 0).getLsbD (n % 8) then some (n, true) else none

/-- The first 4 KiB of a slot (R293): device form, queue words, array state, queue entries, GHOST and EXPORT. -/
def slotHead (t : Team) (sx : Option SxArray) : List Byte :=
  let es := (List.range 32).flatMap fun n => ((t.engq n).input ++ (t.engq n).result).flatMap fun w => toLE 4 w.toNat
  ((List.range 256).map fun i => Config.deviceForm 0 i) ++
  ((List.range 32).flatMap fun n => toLE 4 ((t.engq n).input.length + 128 * (t.engq n).result.length)) ++
  (match sx with | some _ => (List.range 128).map fun i => Config.deviceForm 1 i | none => List.replicate 128 0) ++
  (es ++ List.replicate (1536 - es.length) 0) ++
  bitBytes ((sx.map (·.ghost)).getD []) ++ bitBytes ((sx.map (·.expo)).getD [])

/-- The scratchpad and the accumulator tiles as the slot holds them. -/
def slotData (t : Team) (uid scr acc : Nat) : List Byte :=
  t.bytes uid 0 (1024 * scr) ++
  (List.range (4096 * acc)).flatMap fun i => toLE 4 (t.accAt uid (i / 16384) (i % 16384 / 128) (i % 128)).toNat

/-- The queue registers as the slot's words and entries read (R293). -/
def restoreQueues (t : Team) (words entries : List Byte) : Team :=
  ((List.range 32).foldl (fun (acc : Team × Nat) n =>
    let w := fieldAt words (4 * n) 4
    let i := w % 128
    let o := nbits w 13 7
    let at' := fun (k : Nat) => BitVec.ofNat 32 (fieldAt entries (4 * (acc.2 + k)) 4)
    (acc.1.setEngq n { acc.1.engq n with input := (List.range i).map at', result := (List.range o).map fun k => at' (i + k) }, acc.2 + i + o))
    (t, 0)).1

/-- Groups of a team, in %grp order. -/
def State.groupsInOrder (s : State) (uid : Nat) : List (Nat × Group) :=
  sortBy (fun (a b : Nat × Group) => decide (a.2.grp < b.2.grp)) (s.teamGroups uid)

/-- Bytes of a team's slot from its groups' frames on: a group suspended alone has its frame there already. -/
def State.slotFrames (s : State) (uid : Nat) : List (Nat × Group) := (s.groupsInOrder uid).filter fun p => p.2.resident

/-- Is every engine of the team that a stop waits for at a boundary: its array, and the core copies that concern it (R278, R291)? -/
def State.enginesStop (s : State) (uid : Nat) : Bool :=
  (match s.headSx uid with
   | some (_, _, o) => o.atRest
   | none => true) &&
  (listed s.copies).all fun p => !p.2.teams.contains uid || p.2.atRest

/-- The ranges of a slot that a save writes, with their bytes. -/
def State.slotRanges (s : State) (uid : Nat) (t : Team) : List (Nat × List Byte) :=
  let b := (s.rcd t.task.lrec).blk
  let va := b.slotVa t.task
  let sx := if b.sxu then some (s.array t.core) else none
  [(va, slotHead t sx), (va + 0x1000, slotData t uid b.scr b.acc)] ++
  ((s.slotFrames uid).map fun p => (va + b.frameOff t.task.stg p.2.grp, p.2.frameBytes)) ++
  (match sx with
   | some a => [(va + b.nodesOff t.task.stg, (List.range 8192).flatMap fun n => (a.node n).bytes)]
   | none => [])

/-- The places of several ranges. -/
def State.areas (s : State) (k : Nat) (acc : Acc) : List (Nat × Nat) → Except MillRes (List (List (Nat × Nat))) × State
  | [] => (.ok [], s)
  | r :: rs =>
    match s.area k r.1 r.2 acc with
    | (.ok ps, s) =>
      (match s.areas k acc rs with
       | (.ok q, s) => (.ok (ps :: q), s)
       | (.error e, s) => (.error e, s))
    | (.error e, s) => (.error e, s)

/-- Suspend a team: stop, save, free its core (R292); true when it is done. -/
def State.suspendTeam (s : State) (uid : Nat) : Bool × State :=
  match s.team uid with
  | none => (true, s)
  | some t =>
    if t.st = .suspended then (true, s)
    else
      let gs := s.teamGroups uid
      if !s.enginesStop uid || gs.any fun p => p.2.resident && !s.stoppable p.1 p.2 then (false, s)
      else
        let r := t.task.lrec
        let rs := s.slotRanges uid t
        match s.areas (s.rcd r).ctx .store (rs.map fun x => (x.1, x.2.length)) with
        | (.error .wait, s) => (false, s)
        | (.error _, s) => (true, s.endLaunch r .fault 0x18)
        | (.ok ps, s) =>
          let s := gs.foldl (fun s p => s.drainLocal p.1) s
          if gs.any fun p => s.localLeft p.1 then (false, s)
          else
          let s := (ps.zip rs).foldl (fun s x => s.saveBytes t.core x.1 x.2.2) s
          let s := gs.foldl (fun s p => if p.2.resident then s.leaveCore p.1 false [] else s) s
          let a := s.array t.core
          let own := decide (a.team = some uid)
          let s := if own then s.setArray t.core { fenced := a.fenced } else s
          let a := { a with mapAway := false }
          let q := Sparse.get [] s.mx t.core
          let s := { s with mx := Sparse.set [] s.mx t.core (q.filter fun o => o.team != uid) }
          (true, s.setTeam uid { t with st := .suspended, scratch := [], acc := [], stopping := false
                                        sx := if own then some a else none
                                        mxq := q.filter fun o => o.team == uid })

/-- The ranges of a slot that a resumption reads. -/
def State.slotReads (s : State) (uid : Nat) (t : Team) : List (Nat × Nat) :=
  let b := (s.rcd t.task.lrec).blk
  let va := b.slotVa t.task
  [(va, 0x1000 + 1024 * b.scr + 16384 * b.acc)] ++
  (((s.groupsInOrder uid).filter fun p => !p.2.alone).map fun p => (va + b.frameOff t.task.stg p.2.grp, 1024 * (1 + p.2.budget))) ++
  (if b.sxu then [(va + b.nodesOff t.task.stg, 524288)] else [])

/-- Bytes of a slot in device form that have been changed stand for values that only the device knows (R293): those of item k. -/
def changedForm (bs : List Byte) (what from' n k : Nat) : Option Nat :=
  let now := (bs.drop from').take n
  let off := if what = 0 then from' else from' - 0x180
  if now = (List.range n).map fun i => Config.deviceForm what (off + i) then none else some (Config.deviceRead now k)

/-- A convergence register as its 16 bytes of the slot read: as it was saved, unless they have been changed. -/
def Conv.restore (c : Conv) (head : List Byte) (x : Nat) : Conv :=
  let f := fun (k : Nat) => changedForm head 0 (16 * x) 16 k
  match f 0 with
  | none => c
  | some v => { c with kind := v % 3, mode := (f 1).getD 0 % 3, n := (f 2).getD 0, sigs := (f 3).getD 0,
                       phase := decide ((f 4).getD 0 % 2 = 1), ops := none }

/-- The team as its slot reads. -/
def Team.restore (t : Team) (b : Block) (bs : List Byte) : Team :=
  let sub := fun (i n : Nat) => (bs.drop i).take n
  let t := restoreQueues t (sub 0x100 128) (sub 0x200 1536)
  let scr := 1024 * b.scr
  { t with
    st := .running, mxq := [], sx := none
    x := (List.range 16).foldl (fun m i => Sparse.set {} m i ((t.conv i).restore bs i)) t.x
    scratch := (List.range scr).map fun i => (i, some (bs.getD (0x1000 + i) 0))
    acc := (List.range (4096 * b.acc)).map fun i => (i, some (BitVec.ofNat 32 (fieldAt bs (0x1000 + scr + 4 * i) 4))) }

/-- The array as the slot reads (R258, R293). A node record whose zero bits have been changed is none: the node keeps the one it was saved
with (DESIGN CHOICE, log entry 150). -/
def SxArray.restore (a : SxArray) (head nodes : List Byte) : SxArray :=
  let f := fun (k : Nat) => changedForm head 1 0x180 128 k
  let a := match f 0 with
    | none => a
    | some v => { a with key := BitVec.ofNat 64 v, replay := decide ((f 1).getD 0 % 2 = 1), sweep := BitVec.ofNat 32 ((f 2).getD 0),
                         hwin := (f 3).getD 0 % 65537, hband := (f 4).getD 0 % 65536, hcount := (f 5).getD 0, hsum := (f 6).getD 0
                         ops := match a.ops with | o :: r => { o with done := (f 7).getD 0 } :: r | [] => [] }
  { a with
    ghost := if a.mapAway then a.ghost else bitSet ((head.drop 0x800).take 1024)
    expo := if a.mapAway then a.expo else bitSet ((head.drop 0xC00).take 1024)
    mapAway := false
    nodes := (List.range 8192).foldl (fun m n =>
      match Node.ofBytes ((nodes.drop (64 * n)).take 64) with
      | some x => Sparse.set {} m n x
      | none => Sparse.set {} m n (a.node n)) [] }

/-- Lanes of launch r that wait for a team of their cluster to start, and whose team now runs, are released, those of suspended groups as
well (R96, R167). -/
def State.wakeMates (s : State) (r : Nat) : State :=
  s.readyWhere fun g p => match p with | .notStarted j => g.launch == r && s.mateStarted g j | _ => false

/-- Bring a suspended team back onto a core (R167, R292); false while its slot cannot be read. -/
def State.resumeTeam (s : State) (uid core adm : Nat) : Bool × State :=
  match s.team uid with
  | none => (true, s)
  | some t =>
    let r := t.task.lrec
    let b := (s.rcd r).blk
    match s.areas (s.rcd r).ctx .load (s.slotReads uid t) with
    | (.error .wait, s) => (false, s)
    | (.error _, s) => (true, s.endLaunch r .fault 0x18)
    | (.ok ps, s) =>
      let rd := ps.map fun p => s.savedBytes p
      let s := ps.foldl (fun (s : State) p => s.countSaved core p) s
      if rd.any fun x => x.2 then (true, s.loseGang uid 0x19)
      else
        let head := ((rd.headD ([], false)).1)
        let gs := (s.groupsInOrder uid).filter fun p => !p.2.alone
        let nodes := (rd.getLastD ([], false)).1
        let s := (s.discard false core (s.rcd r).ctx).discard true core (s.rcd r).ctx
        let s := match t.sx with
          | some a => s.setArray core ({ a with team := some uid, fenced := (s.array core).fenced }.restore head nodes)
          | none => s
        let s := { s with
          mx := Sparse.set [] s.mx core (Sparse.get [] s.mx core ++ t.mxq)
          copies := mapVals none s.copies fun v => v.map fun (c : Copy) =>
            if c.quad.isNone && c.owner == uid then { c with core := core } else c
          nbs := mapVals none s.nbs fun v => v.map fun (n : Nb) => if n.team = uid ∧ n.out = 0 then { n with core := core } else n }
        let s := s.setTeam uid { t.restore b head with core := core, stopping := false }
        -- a group suspended alone will come back beside its team's scratchpad (R133)
        let s := { s with groups := mapVals none s.groups fun v => v.map fun (g : Group) =>
          if g.team = some uid ∧ g.alone = true then { g with core := core } else g }
        (true, ((gs.zip (rd.drop 1)).foldl (fun s x => (s.setGroup x.1.1 (x.1.2.restore x.2.1)).enterCore x.1.1 core adm) s).wakeMates r)

end Sys2Proof.Machine
end

