-- ==== Sys2Proof/Machine/Place.lean ====
section
/-! DEFINITION. Place.lean: placing teams, gangs and clusters (R93 to R97, R99, R159, R175), reservations (R95), releasing
spawned groups (R121, R133, R134, R136), and what ends a launch whose children cannot be placed (R138, R172). -/
namespace Sys2Proof.Machine

/-! ### What fits where (R94, R99, R134, R172) -/

/-- Do n groups with these register units, for launch r, and the rest of a team's needs fit core c? -/
def State.fits (s : State) (r c n units frames : Nat) : Bool :=
  let b := (s.rcd r).blk
  let cx := s.ctx (s.rcd r).ctx
  s.coreEligible c &&
  (s.residents c).length + n + s.reservedOthers r c + (b.chres - s.spawnedOn r c) ≤ 128 &&
  s.unitsUsed c + units ≤ 1024 && s.spansUsed c + roundUp b.scr 64 ≤ 768 && s.accUsed c + b.acc ≤ 16 &&
  (!b.sxu || ((s.array c).team.isNone && !(s.array c).fenced)) &&
  (cx.locsz == 0 || frames ≤ cx.freeFrames)

/-- The stage of a pipelined launch that a core serves now: a moving core joins its new stage when its running teams of the
old one have retired, and takes no record meanwhile (R99). -/
def State.stageOf (s : State) (r c : Nat) : Option Nat :=
  let v := Sparse.get 0 (s.rcd r).stageCore c
  if v = 0 then none
  else if v / 16 = 0 then some (v - 1)
  else if (s.coreTeams c).any fun p => p.2.task.lrec == r && p.2.task.stg + 1 == v % 16 then none
  else some (v / 16 - 1)

/-- Eligible cores of a stage of a launch, those that are leaving it left out (R99). -/
def State.stageCores (s : State) (r stg : Nat) : List Nat :=
  (List.range 192).filter fun c => Sparse.get 0 (s.rcd r).stageCore c == stg + 1 && s.coreEligible c

/-- Has a stage pending records? -/
def State.stagePending (s : State) (r stg : Nat) : Bool :=
  ((s.rcd r).pending.any fun t => t.stg == stg) || (decide (0 < stg) && !((s.rcd r).queue (stg - 1)).isEmpty)

/-- Core c goes from stage g to stage dst of a launch: at once, or when its running teams of g have retired (R99). -/
def State.giveCore (s : State) (r c g dst : Nat) : State :=
  let rc := s.rcd r
  let stays := (s.coreTeams c).any fun p => p.2.task.lrec == r && p.2.task.stg == g
  s.setRec r { rc with stageCore := Sparse.set 0 rc.stageCore c (if stays then g + 1 + 16 * (dst + 1) else dst + 1) }

/-- May a stage give one of its cores away (R99)? Its last core only while it has no pending, running or suspended record. -/
def State.mayGive (s : State) (r stg : Nat) : Bool :=
  decide (2 ≤ (s.stageCores r stg).length) ||
  (decide (1 ≤ (s.stageCores r stg).length) && !s.stagePending r stg && !(s.teamsOf r).any fun p => p.2.task.stg == stg)

/-- The cores that can serve stage d of a launch, which has none: those on which no team of the launch runs, of stages that can give one,
the lower stage first and in a stage the higher number; then those on their way to d; then the rest that can be given. -/
def State.spareCores (s : State) (r d : Nat) : List Nat :=
  let cs := ((List.range (s.rcd r).blk.nstages).filter fun g => g != d && s.mayGive r g).flatMap fun g => (s.stageCores r g).reverse
  let runs := fun (c : Nat) => (s.coreTeams c).any fun p => p.2.task.lrec == r
  let coming := (List.range 192).filter fun c => Sparse.get 0 (s.rcd r).stageCore c / 16 == d + 1 && s.coreEligible c
  (cs.filter fun c => !runs c) ++ coming ++ cs.filter runs

/-- Every stage of a pipelined launch that holds pending records has an eligible core (R100): an eligible core that no stage has
goes to the stage with the fewest, and a stage that lacks one takes a core that another can spare, at once, so that it never waits for
teams that may be parked on the full queue into it (log entry 109). -/
def State.restage (s : State) (r : Nat) : State :=
  if (s.rcd r).blk.nstages = 1 then s
  else
    let stgs := List.range (s.rcd r).blk.nstages
    let new := (List.range 192).filter fun c => Sparse.get 0 (s.rcd r).stageCore c == 0 && s.coreEligible c
    let s := new.foldl (fun (s : State) c =>
      let few := (leastBy (fun (a b : Nat) => decide ((s.stageCores r a).length < (s.stageCores r b).length)) stgs).getD 0
      s.setRec r { s.rcd r with stageCore := Sparse.set 0 (s.rcd r).stageCore c (few + 1) }) s
    stgs.foldl (fun (s : State) d =>
      if !s.stagePending r d || !(s.stageCores r d).isEmpty then s
      else
        match s.spareCores r d with
        | c :: _ => s.setRec r { s.rcd r with stageCore := Sparse.set 0 (s.rcd r).stageCore c (d + 1) }
        | [] => s) s

/-- The same of every launch that runs or waits. -/
def State.restageAll (s : State) : State :=
  ((s.recs.filter fun p => decide (p.2.st = .waiting) || decide (p.2.st = .running)).map (·.1)).foldl (fun (s : State) r => s.restage r) s

/-- May core c take a team of a cluster (key) and stage of launch r, its resources apart (R95, R96, R99)? -/
def State.coreOpen (s : State) (r stg key c : Nat) : Bool :=
  ((s.rcd r).blk.nstages == 1 || s.stageOf r c == some stg) && !s.coreReserved r c && !s.coreHeld r key c

/-- A core on which a pending record of launch r can be placed. -/
def State.coreTakes (s : State) (r stg key c : Nat) : Bool := s.coreOpen r stg key c && s.teamFits r stg c

/-- First cores of all rectangles of a block's cluster shape (R96). -/
def Block.rectangles (b : Block) : List Nat :=
  (List.range 8).flatMap fun die => (List.range (5 - b.ch)).flatMap fun row => (List.range (7 - b.cw)).map fun col =>
    die * 24 + row * 6 + col

/-- Among rectangles, the one with the fewest resident groups, the lowest core number among equals (R96). -/
def State.bestRect (s : State) (b : Block) (fs : List Nat) : Option Nat :=
  let load := fun (f : Nat) => sumN ((List.range (b.cw * b.ch)).map fun j => (s.residents (b.coreAt f j)).length)
  leastBy (fun (x y : Nat) => decide (load x < load y)) fs

/-! ### L1 before a span is given to a team (R175) -/

/-- Contexts with dirty lines on a core. -/
def State.dirtyCtxs (s : State) (c : Nat) : List Nat :=
  ((listed s.dirtyLines).filterMap fun p => if p.1 / 2 ^ 41 = c then some p.2.ctx else none).eraseDups
/-- Groups on a core with dirty local lines. -/
def State.dirtyLocals (s : State) (c : Nat) : List Nat :=
  ((listed s.groups).filter fun p => p.2.core == c && !p.2.loc.isEmpty).map (·.1)
/-- Are these cores' L1s clean? -/
def State.spansFree (s : State) (cs : List Nat) : Bool :=
  cs.all fun c => (s.dirtyCtxs c).isEmpty && (s.dirtyLocals c).isEmpty &&
    !(s.dir.any fun p => decide (p.2.waiting ≠ 0) && p.2.src == wbId c)
/-- One step of their write-back. -/
def State.cleanSpans (s : State) (cs : List Nat) : State :=
  cs.foldl (fun s c =>
    (s.dirtyLocals c).foldl (fun (s : State) g => s.drainLocal g) ((s.dirtyCtxs c).foldl (fun (s : State) k => s.writeBack c k) s)) s

/-! ### Starting (R97) -/

/-- Start the teams of a gang, each on its core, in one network cycle (R97). -/
def State.startAll (s : State) (r : Nat) (xs : List (Nat × Task)) : State :=
  let (adm, s) := s.fresh
  let tag := gangTag (xs.map (·.2))
  (xs.foldl (fun (s : State) x => (s.claim r x.2.stg x.2).startTeam r x.1 x.2 adm tag) s).wakeMates r

/-- Place the teams of a gang, once the spans of their cores are clean (R175). A record that R89 discards ends the launch when
the Millrace takes it. -/
def State.startOn (s : State) (r : Nat) (xs : List (Nat × Task)) (after : State → State := id) : State :=
  let cs := xs.map (·.1)
  if xs.any fun x => x.2.bad then s.endLaunch r .fault 0x10
  else if (s.rcd r).blk.scr = 0 || s.spansFree cs then after (s.startAll r xs) else s.cleanSpans cs

/-! ### Placing a pending record (R95, R96) -/

/-- Records of a gang's cluster, gathered from those pending and those in the stage's queue. -/
def State.gatherGang (s : State) (r : Nat) (t : Task) : Option (List Task) × State :=
  let b := (s.rcd r).blk
  let own := (s.rcd r).pending.filter fun x => b.rectKey x == b.rectKey t
  let es := if t.stg = 0 then [] else (s.rcd r).queue (t.stg - 1)
  let (qs, s) := es.foldl (fun (acc : List Task × State) e =>
    match acc.2.entryTask r t.stg e with
    | (.task x, s) => (if b.rectKey x = b.rectKey t then acc.1 ++ [x] else acc.1, s)
    | (_, s) => (acc.1, s)) ([], s)
  let all := own ++ qs
  let ms := (List.range (b.cw * b.ch)).filterMap fun j => all.find? fun x => b.teamIn x == j
  (if ms.length = b.cw * b.ch then some ms else none, s)

/-- Place a record, with its gang; false when it fits nowhere now. -/
def State.placeTask (s : State) (r : Nat) (t : Task) : Bool × State :=
  let rc := s.rcd r
  let b := rc.blk
  let key := b.rectKey t
  if b.cw * b.ch = 1 then
    match s.bestCore ((List.range 192).filter fun c => s.coreTakes r t.stg key c) with
    | some c => (true, s.startOn r [(c, t)])
    | none => (false, s)
  else if b.gang then
    match s.gatherGang r t with
    | (none, s) => (false, s)
    | (some ms, s) =>
      match s.bestRect b (b.rectangles.filter fun f => (List.range (b.cw * b.ch)).all fun j => s.coreTakes r t.stg key (b.coreAt f j)) with
      | some f => (true, s.startOn r (ms.map fun x => (b.coreAt f (b.teamIn x), x)))
      | none => (false, s)
  else
    let j := b.teamIn t
    let start := fun (f mask : Nat) =>
      s.startOn r [(b.coreAt f j, t)] fun (s' : State) => s'.setRec r ((s'.rcd r).setRect key (some (f, mask ||| 2 ^ j)))
    let held : Option (Nat × Nat) := match rc.rect key with
      | some x => if nbit x.2 j || decide ((s.die (x.1 / 24)).st ≠ DieSt.online) then none else some x
      | none => none
    match held with
    | some x => if s.coreTakes r t.stg key (b.coreAt x.1 j) then (true, start x.1 x.2) else (false, s)
    | none =>
      match s.bestRect b (b.rectangles.filter fun f =>
          s.coreTakes r t.stg key (b.coreAt f j) && (List.range (b.cw * b.ch)).all fun i =>
            s.coreEligible (b.coreAt f i) && s.coreOpen r t.stg key (b.coreAt f i)) with
      | some f => (true, start f 0)
      | none => (false, s)

/-! ### Resuming suspended teams (R93, R167, R292) -/

/-- Groups that a team brings back with it, and their register units. -/
def State.groupsBack (s : State) (uid : Nat) : Nat × Nat :=
  let gs := (s.teamGroups uid).filter fun p => !p.2.alone
  (gs.length, sumN (gs.map fun p => p.2.budget))

/-- Does a suspended team fit core c? -/
def State.backFits (s : State) (r stg uid c : Nat) : Bool :=
  let n := s.groupsBack uid
  ((s.rcd r).blk.nstages == 1 || s.stageOf r c == some stg) && !s.coreReserved r c && s.fits r c n.1 n.2 0

/-- Are the slots of these teams readable now? Their lines are recalled where they are not. -/
def State.slotsReady (s : State) (r : Nat) (uids : List Nat) : Bool × State :=
  uids.foldl (fun (acc : Bool × State) u =>
    match acc.2.team u with
    | none => acc
    | some t =>
      match acc.2.areas (s.rcd r).ctx .load (acc.2.slotReads u t) with
      | (.error .wait, s) => (false, s)
      | (_, s) => (acc.1, s)) (true, s)

/-- Resume a suspended team, or a whole gang in one network cycle; false when it fits nowhere now. -/
def State.resumeTeams (s : State) (r : Nat) (ts : List (Nat × Team)) : Bool × State :=
  match ts with
  | [] => (false, s)
  | (u0, t0) :: _ =>
    let b := (s.rcd r).blk
    let near := fun (c : Nat) => c / 24 == t0.core / 24
    let cores : Option (List (Nat × Nat)) :=
      if ts.length = 1 then
        let cs := (List.range 192).filter fun c => s.backFits r t0.task.stg u0 c && !s.coreHeld r (b.rectKey t0.task) c
        (match s.bestCore (cs.filter near) with
         | some c => some c
         | none => s.bestCore cs).map fun c => [(u0, c)]
      else
        let fs := b.rectangles.filter fun f => ts.all fun p => s.backFits r t0.task.stg p.1 (b.coreAt f (b.teamIn p.2.task))
        (match s.bestRect b (fs.filter near) with
         | some f => some f
         | none => s.bestRect b fs).map fun f => ts.map fun (p : Nat × Team) => (p.1, b.coreAt f (b.teamIn p.2.task))
    match cores with
    | none => (false, s)
    | some xs =>
      if b.scr ≠ 0 && !s.spansFree (xs.map (·.2)) then (true, s.cleanSpans (xs.map (·.2)))
      else
        match s.slotsReady r (xs.map (·.1)) with
        | (false, s) => (true, s)
        | (true, s) =>
          let (adm, s) := s.fresh
          (true, (xs.foldl (fun (s : State) x => (s.resumeTeam x.1 x.2 adm).2) s).endReserve r t0.task.stg (t0.gang % 2 ^ 32))

/-! ### TEAM_PLACEMENT (R95) -/

/-- What may be placed: a pending record, the head of a stage's queue, or suspended teams that resume together. -/
inductive CandKind where
  | task (t : Task)
  | entry (e : Nat × Nat × Nat)
  | back (uids : List Nat)
deriving DecidableEq, Repr

structure Cand where
  pri : Nat
  order : Nat
  launch : Nat
  stg : Nat
  seq : Nat
  kind : CandKind
deriving DecidableEq, Repr

/-- The order of R95. -/
def Cand.before (a b : Cand) : Bool :=
  decide (b.pri < a.pri) || (a.pri == b.pri && (decide (a.order < b.order) || (a.order == b.order &&
    (decide (a.stg < b.stg) || (a.stg == b.stg && decide (a.seq < b.seq))))))

/-- Suspended teams of a launch that may resume: single teams, and gangs whole. -/
def State.backs (s : State) (r : Nat) : List (List (Nat × Team)) :=
  let ts := (s.teamsOf r).filter fun p => decide (p.2.st = .suspended)
  if (s.rcd r).blk.gang then
    ((ts.map fun p => s.gangOf p.1).filter fun g => g.all fun p => decide (p.2.st = .suspended)).eraseDups
  else ts.map fun p => [p]

/-- Candidates of a launch. Records of one stage that need the same resources stand behind the first of them. A suspended team
ranks by its gang's first SEQ (DESIGN CHOICE, log entry 108). -/
def State.candsOf (s : State) (r : Nat) : List Cand :=
  let rc := s.rcd r
  if (rc.st ≠ .waiting ∧ rc.st ≠ .running) ∨ rc.hold then []
  else
    let mk := fun (stg seq : Nat) (k : CandKind) => ({ pri := rc.blk.pri, order := rc.order, launch := r, stg := stg, seq := seq, kind := k } : Cand)
    let ps := if rc.blk.cw * rc.blk.ch = 1 then
        (List.range rc.blk.nstages).filterMap fun st =>
          leastBy (fun (a b : Task) => decide (a.seq.toNat < b.seq.toNat)) (rc.pending.filter fun t => t.stg == st)
      else rc.pending
    (ps.map fun t => mk t.stg t.seq.toNat (.task t)) ++
    ((List.range (rc.blk.nstages - 1)).flatMap fun q =>
      (if rc.blk.cw * rc.blk.ch = 1 then (rc.queue q).take 1 else rc.queue q).map fun e => mk (q + 1) (e.1 % 2 ^ 32) (.entry e)) ++
    (s.backs r).map fun g => mk ((g.head?.map fun p => p.2.task.stg).getD 0) ((g.head?.map fun p => p.2.gang % 2 ^ 32).getD 0)
      (.back (g.map (·.1)))

/-- All candidates, in the order of R95. -/
def State.cands (s : State) : List Cand := sortBy Cand.before (s.recs.flatMap fun p => s.candsOf p.1)

/-- Try to place a candidate; false when it fits nowhere. -/
def State.tryCand (s : State) (c : Cand) : Bool × State :=
  match c.kind with
  | .task t => s.placeTask c.launch t
  | .entry e =>
    (match s.entryTask c.launch c.stg e with
     | (.task t, s) => s.placeTask c.launch t
     | (.ended, s) => (true, s)
     | (_, s) => (false, s))
  | .back us => s.resumeTeams c.launch (us.filterMap fun u => (s.team u).map fun t => (u, t))

/-! ### HEAD_RESERVATION (R95) -/

/-- Cores reserved for a head record of launch r and stage stg: those it would fit without their teams of lower priority. -/
def State.reservable (s : State) (r stg : Nat) : List Nat :=
  (List.range 192).filter fun c =>
    let low := ((s.coreTeams c).filter fun p => decide ((s.rcd p.2.task.lrec).blk.pri < (s.rcd r).blk.pri)).map (·.1)
    ((s.rcd r).blk.nstages == 1 || s.stageOf r c == some stg) && (s.dropTeams low).teamFits r stg c

/-- HEAD_RESERVATION: the head of its priority level has waited its time, and holds cores from now on. -/
def State.reserveHead (s : State) (r : Nat) : State :=
  let pri := (s.rcd r).blk.pri
  match s.cands.find? fun c => c.pri == pri with
  | some c =>
    if c.launch ≠ r || s.recs.any fun p => p.2.blk.pri == pri && !p.2.resv.isEmpty then s
    else s.setRec r { s.rcd r with resv := s.reservable r c.stg, resvFor := some (c.stg, c.seq) }
  | none => s

def execHeadReservation (rec : Nat) (s : State) : Host.Outcome State Fault Refusal := .next (s.reserveHead rec)

/-! ### Releasing spawned groups (R121, R133, R134) -/

/-- Register units of a budget class (R118). -/
def classUnits (cls : Nat) : Nat := [2, 4, 6, 8, 12, 16, 32, 64].getD (cls % 8) 64

/-- A candidate of the Chrysalis: a closed bin, or a group away from its core (R133, R141). -/
inductive KidKind where
  | bin (u b : Nat)
  | group (gid : Nat)
deriving DecidableEq, Repr

structure Kid where
  launch : Nat
  depth : Nat
  since : Nat
  units : Nat
  frame : Bool                           -- it needs a local frame
  quad : Option Nat                      -- none: a team group, bound to its core
  core : Nat := 0
  kind : KidKind
deriving DecidableEq, Repr

/-- Has the wait of a suspended group ended (R136)? A group suspended by a pre-emption waits for nothing. -/
def Group.waitOver (g : Group) : Bool :=
  let jw := g.live.filter fun l => match (g.lane l).park with | .jwait .. => true | _ => false
  let sp := g.live.filter fun l => match (g.lane l).park with | .ringFull _ => true | _ => false
  (!jw.isEmpty && jw.all fun l => (g.lane l).ready) || (!sp.isEmpty && sp.all fun l => (g.lane l).ready) ||
  jw.length + sp.length < g.live.length || g.lanes.isEmpty

/-- The candidates of R133. A spawned group that a pre-emption has saved has no wait that ended: it ranks by the last wait of its that did,
before all where it had none (DESIGN CHOICE, log entry 151). -/
def State.kids (s : State) : List Kid :=
  let ok := fun (r : Nat) => decide ((s.rcd r).st = .running) && !(s.rcd r).hold
  (s.bins.filterMap fun p =>
    match p.2.closed with
    | some t =>
      if p.2.used && ok p.2.launch then
        some { launch := p.2.launch, depth := p.2.depth, since := t, units := classUnits p.2.cls, frame := true
               quad := some (p.1 / 256), kind := .bin (p.1 / 256) (p.1 % 256) }
      else none
    | none => none) ++
  (listed s.groups).filterMap fun p =>
    let away := match p.2.team with
      | some u => p.2.alone && (match s.team u with | some t => decide (t.st = .running) && !t.stopping | none => false)
      | none => true
    if !p.2.resident && away && p.2.waitOver && ok p.2.launch then
      some { launch := p.2.launch, depth := (p.2.spawned.map (·.depth)).getD 0, since := p.2.jwaitEnded, units := p.2.budget
             frame := p.2.frame.isNone, quad := p.2.spawned.map (·.quad), core := p.2.core, kind := .group p.1 }
    else none

/-- The greatest depth among a launch's candidates (R134). -/
def State.deepest (s : State) (r : Nat) : Nat := (s.kids.filter fun k => k.launch == r).foldl (fun m k => Nat.max m k.depth) 0

/-- Free group slots of core c as launch r sees them: those outside every reserve, and those that its own reserve holds (R134). -/
def State.slotsFor (s : State) (r c : Nat) : Nat × Nat :=
  s.shares r c (128 - (s.residents c).length) 0 (Sparse.get [] s.reserves c)

/-- Does the candidate take a slot of its launch's reserve on core c: its launch has no group there yet, or one of the reserved
slots other than the last, or the last for the greatest depth (R134)? -/
def State.kidReserved (s : State) (k : Kid) (c : Nat) : Bool :=
  let kept := (s.slotsFor k.launch c).2
  !((s.residents c).any fun p => p.2.launch == k.launch) || decide (2 ≤ kept) || (kept == 1 && k.depth == s.deepest k.launch)

/-- Does a candidate fit core c (R133, R134)? -/
def State.kidFits (s : State) (k : Kid) (c : Nat) : Bool :=
  let cx := s.ctx (s.rcd k.launch).ctx
  s.coreEligible c && decide ((s.residents c).length < 128) && s.unitsUsed c + k.units ≤ 1024 &&
  (!k.frame || cx.locsz == 0 || 1 ≤ cx.freeFrames) &&
  (match k.quad with | none => k.core == c | some _ => true) &&
  (s.kidReserved k c || decide (1 ≤ (s.slotsFor k.launch c).1))

/-- The core a candidate takes: of the two dies above its unit's quadrant, if one fits (R133). -/
def State.kidCore (s : State) (k : Kid) : Option Nat :=
  let cs := (List.range 192).filter fun c => s.kidFits k c
  match k.quad with
  | none => s.bestCore cs
  | some u =>
    match s.bestCore (cs.filter fun c => c / 48 == u) with
    | some c => some c
    | none => s.bestCore cs

/-- Does R95 rank launch a before launch b? -/
def State.launchBefore (s : State) (a b : Nat) : Bool :=
  let x := s.rcd a
  let y := s.rcd b
  decide (y.blk.pri < x.blk.pri) || (x.blk.pri == y.blk.pri && decide (x.order < y.order))

/-- The order of R133: by launch as R95 ranks them, then deeper first, then older. -/
def State.kidBefore (s : State) (a b : Kid) : Bool :=
  s.launchBefore a.launch b.launch || (a.launch == b.launch &&
    (decide (b.depth < a.depth) || (a.depth == b.depth && decide (a.since < b.since))))

/-- Does a spawned candidate that fits a core stand before a record of this launch: one of a launch that ranks before it, or its
own (R133)? -/
def State.kidFirst (s : State) (r : Nat) : Bool :=
  s.kids.any fun k => (k.launch == r || s.launchBefore k.launch r) && (s.kidCore k).isSome

/-- The first candidate that fits is placed; those before it that fit nowhere do not block it. A spawned candidate that stands
before it goes first (R95, R133). -/
def State.placeFirst (s : State) : List Cand → State
  | [] => s
  | c :: cs =>
    match s.tryCand c with
    | (true, s') => if s.kidFirst c.launch then s else s'
    | (false, s) => s.placeFirst cs

/-- TEAM_PLACEMENT: the stages that want a core get one (R100), and the first candidate that fits is placed. -/
def State.placeNext (s : State) : State :=
  let s := s.restageAll
  s.placeFirst s.cands

def execTeamPlacement (s : State) : Host.Outcome State Fault Refusal := .next s.placeNext

/-- The lanes of a spawned group as it is released (R121, R141). -/
def kidLanes (sp : Spawned) (fpctl : Word) (prot : Bool) : Sparse Lane :=
  sp.kids.foldl (fun (m : Sparse Lane) k =>
    let ln := (freshLane sp.entry fpctl).setRegs ((List.range k.pay.length).zip k.pay)
    if sp.ended.getLsbD k.lane then m
    else
      let m := Sparse.set {} m k.lane ln
      if prot then Sparse.set {} m (k.lane + 1) ln else m) []

/-- A spawned group is released on a core, in a slot of its launch's reserve or outside it; the core's instruction lines of its context are
discarded (R320). One that was lost (R141) goes on as the group that answers for the decrements still to be performed for it. -/
def State.releaseKids (s : State) (r c : Nat) (sp : Spawned) (unres : Bool) (lost : Option Nat := none) : State :=
  let rc := s.rcd r
  let s := s.discard true c rc.ctx
  let (gid, s) := s.fresh
  let (fr, s) := s.takeFrame rc.ctx
  let s := s.startReserve r c
  let (q, sl) := s.slotOn c
  let s := { s with decs := mapVals none s.decs fun v => v.map fun (d : Dec) => if lost = some d.gid then { d with gid := gid } else d }
  s.setGroup gid { launch := r, spawned := some sp, core := c, quarter := q, slot := sl, budget := classUnits sp.cls, frame := fr
                   unres := unres, admitted := gid, lastIssue := s.clk, lanes := kidLanes sp rc.blk.fpctl rc.blk.prot, readyAt := s.clk }

/-- A candidate is placed on core c. -/
def State.placeKid (s : State) (k : Kid) (c : Nat) : State :=
  let unres := !s.kidReserved k c
  match k.kind with
  | .bin u b =>
    let x := s.bin u b
    let s := (s.setBin u b {}).releaseKids k.launch c { entry := x.entry, cls := x.cls, depth := x.depth, quad := u, kids := x.kids } unres
    s.refill u refillMax
  | .group gid =>
    match s.group gid with
    | none => s
    | some g =>
      match g.lanes, g.spawned with
      | [], some sp => (s.delGroup gid).releaseKids k.launch c sp unres (some gid)
      | _, _ => ((s.setGroup gid { g with unres := unres }).resumeGroup gid c).2

/-- SPAWNED_GROUP_RELEASE: the first candidate that fits a core is released there, unless a task record of a launch that ranks
before its own fits one (R95, R133). -/
def State.releaseSpawned (s : State) : State :=
  match (sortBy s.kidBefore s.kids).find? fun k => (s.kidCore k).isSome with
  | none => s
  | some k =>
    if s.cands.any fun c => s.launchBefore c.launch k.launch && (s.tryCand c).1 then s
    else (match s.kidCore k with | some c => s.placeKid k c | none => s)

def execSpawnedGroupRelease (s : State) : Host.Outcome State Fault Refusal := .next s.releaseSpawned

/-! ### GROUP_SUSPEND, SPAWN_SAVE, LOCAL_FRAME (R135, R136, R138, R172) -/

/-- May a waiting group be suspended, its save place apart (R135)? -/
def Group.waits (g : Group) : Bool :=
  g.resident && g.depthNp == 0 && !g.live.isEmpty && g.live.all fun l => match (g.lane l).park with
    | .jwait .. => true
    | .ringFull _ => true
    | _ => false

/-- Depth of a group (R119). -/
def Group.depth (g : Group) : Nat := (g.spawned.map (·.depth)).getD 0

/-- Waiting groups of a launch on core c that are shallower than d and pass a test. -/
def State.givers (s : State) (r d c : Nat) (f : Group → Bool) : List (Nat × Group) :=
  (s.residents c).filter fun p => p.2.launch == r && p.2.waits && decide (p.2.depth < d) && f p.2

/-- Would a candidate fit core c without these groups? -/
def State.fitsWithout (s : State) (k : Kid) (c : Nat) (gs : List (Nat × Group)) : Bool :=
  let out := gs.foldl (fun (s : State) p => s.setGroup p.1 { p.2 with resident := false }) s
  out.kidFits k c

/-- The suspension that R136 asks for next: the candidate that cannot be placed, and the group that makes way for it. -/
def State.toSuspend (s : State) : Option Nat :=
  match (sortBy s.kidBefore s.kids).find? fun k => (s.kidCore k).isNone && (List.range 192).any fun c =>
      s.fitsWithout k c (s.givers k.launch k.depth c fun g => (s.savePlace g).isSome) with
  | none => none
  | some k =>
    let gs := ((List.range 192).filter fun c => s.fitsWithout k c (s.givers k.launch k.depth c fun g => (s.savePlace g).isSome)).flatMap
      fun c => s.givers k.launch k.depth c fun g => (s.savePlace g).isSome
    (leastBy (fun (a b : Nat × Group) =>
      decide (a.2.depth < b.2.depth) || (a.2.depth == b.2.depth && decide (b.2.admitted < a.2.admitted))) gs).map (·.1)

/-- GROUP_SUSPEND: the group that R136 picks is suspended (R136, R173); the launch's waits are looked at again (R138). -/
def State.groupSuspend (s : State) (gid : Nat) : State :=
  if s.toSuspend = some gid then
    match s.group gid with
    | some g =>
      (match s.suspendGroup gid with
       | (true, s) => s.tailrace g.launch
       | (false, s) => s)
    | none => s
  else s

def execGroupSuspend (gid : Nat) (s : State) : Host.Outcome State Fault Refusal := .next (s.groupSuspend gid)

/-- SPAWN_SAVE: only spawned groups for which the pool holds no frames could make way for a candidate (R138). -/
def State.spawnSave (s : State) (r : Nat) : State :=
  if (s.kids.any fun k => k.launch == r && (s.kidCore k).isNone &&
        (List.range 192).any (fun c => s.fitsWithout k c (s.givers r k.depth c fun _ => true)) &&
        (List.range 192).all fun c => (s.givers r k.depth c fun g => (s.savePlace g).isSome).isEmpty) then
    s.endLaunch r .fault 0x15
  else s

def execSpawnSave (rec : Nat) (s : State) : Host.Outcome State Fault Refusal := .next (s.spawnSave rec)

/-- LOCAL_FRAME: a spawned candidate waits for a frame while every frame holder of the context is suspended (R172). -/
def State.localFrame (s : State) (r : Nat) : State :=
  let k := (s.rcd r).ctx
  if (s.kids.any fun x => x.launch == r && x.frame) && (s.ctx k).locsz ≠ 0 && (s.ctx k).freeFrames == 0 &&
      (listed s.groups).all fun p => (s.rcd p.2.launch).ctx != k || p.2.frame.isNone || !p.2.resident then
    s.endLaunch r .fault 0x17
  else s

def execLocalFrame (rec : Nat) (s : State) : Host.Outcome State Fault Refusal := .next (s.localFrame rec)

end Sys2Proof.Machine
end

