-- ==== Sys2Proof/Machine/Control.lean ====
section
/-! DEFINITION. Control.lean: the control instructions of group 0x3 (R347 to R355), and the running of pair words' lanes apart. -/
namespace Sys2Proof.Machine

/-! ### Branches (R348 to R350) -/

/-- The checks of a branch target before any other effect (R348). -/
def targetFault (t : DWord) : Option LaneRes :=
  if t.toNat % 8 ≠ 0 then some (.trap 0x25 0 0)
  else if 2 ^ 57 ≤ t.toNat then some (.trap 0x26 0 0)
  else none

/-- The target of BRA and CALL (R348). -/
def Target.at' (t : Target) (pc : DWord) : DWord :=
  match t with
  | .rel off => pc + (off.signExtend 64) * 8
  | .abs x => x

/-- A branch with a link or without: checked, then taken. -/
def branchTo (t : DWord) (link : List (Nat × Word)) : LaneRes :=
  match targetFault t with
  | some f => f
  | none => .jump link t

def execBra (h : Hdr) (t : Target) (s : State) : Host.Outcome State Fault Refusal :=
  s.word (.bra h t) h {} fun c _ s => (branchTo (Target.at' t c.pc) [], s)

/-- What the list of a BRX or CALLX says of a target: in the list, not in it, or a fetch not done (R349). -/
inductive Listed where
  | yes | no | wait
  | fault (r : LaneRes)
deriving DecidableEq, Repr

/-- Look a target up in the list at PC + 8 × lst (R349). -/
def State.lookup (s : State) (gid : Nat) (pc : DWord) (lst : BitVec 18) (t : DWord) : Listed × State :=
  let base := (pc + BitVec.ofNat 64 (8 * lst.toNat)).toNat
  match s.readCode gid base 1 with
  | (.wait, s) => (.wait, s)
  | (.no r, s) => (.fault r, s)
  | (.bytes hd, s) =>
    let n := leNat hd
    if n = 0 ∨ 1024 < n then (.no, s)
    else
      match s.readCode gid (base + 8) ((n + 1) / 2) with
      | (.wait, s) => (.wait, s)
      | (.no r, s) => (.fault r, s)
      | (.bytes es, s) =>
        let hit := (List.range n).any fun i =>
          pc + BitVec.ofInt 64 (8 * sextInt (leNat ((es.drop (4 * i)).take 4)) 32) == t
        (if hit then .yes else .no, s)

/-- BRX and CALLX in one lane: the checks in order, then the branch. -/
def listedBranch (gid : Nat) (pc : DWord) (lst : BitVec 18) (t : DWord) (link : List (Nat × Word)) (s : State) :
    LaneRes × State :=
  match targetFault t with
  | some f => (f, s)
  | none =>
    match s.lookup gid pc lst t with
    | (.yes, s) => (.jump link t, s)
    | (.no, s) => (.trap 0x24 0 0, s)
    | (.wait, s) => (.stay, s)
    | (.fault r, s) => (r, s)

/-- A BRX or CALLX is ready when the list has told every active lane of its target (R146, R349). -/
def listOps (g : Bool) (lst : BitVec 18) (r : RegIx) : WordOps :=
  { ready := fun c s => (lanesOf c.act).all fun l => decide ((listedBranch c.gid c.pc lst ((c.env l).a64 g r) [] s).1 ≠ .stay)
    wait := fun c s => (lanesOf c.act).foldl (fun (s : State) l => (listedBranch c.gid c.pc lst ((c.env l).a64 g r) [] s).2) s }

def execBrx (h : Hdr) (g : Bool) (lst : BitVec 18) (r : RegIx) (s : State) : Host.Outcome State Fault Refusal :=
  s.word (.brx h g lst r) h (listOps g lst r) fun c l s => listedBranch c.gid c.pc lst ((c.env l).a64 g r) [] s

/-- The link of a call: the address after its word (R350). -/
def Ctl.link (c : Ctl) (d : RegIx) : List (Nat × Word) := pairW d.toNat 511 (c.pc + BitVec.ofNat 64 c.len)

def execCall (h : Hdr) (d : RegIx) (t : Target) (s : State) : Host.Outcome State Fault Refusal :=
  s.word (.call h d t) h {} fun c _ s => (branchTo (Target.at' t c.pc) (c.link d), s)

def execCallx (h : Hdr) (g : Bool) (d : RegIx) (lst : BitVec 18) (r : RegIx) (s : State) : Host.Outcome State Fault Refusal :=
  s.word (.callx h g d lst r) h (listOps g lst r) fun c l s => listedBranch c.gid c.pc lst ((c.env l).a64 g r) (c.link d) s

def execRet (h : Hdr) (g : Bool) (r : RegIx) (s : State) : Host.Outcome State Fault Refusal :=
  s.word (.ret h g r) h {} fun c l s => (branchTo ((c.env l).a64 g r) [], s)

/-! ### Joining, leaving, trapping (R351 to R353) -/

def execRjoin (h : Hdr) (s : State) : Host.Outcome State Fault Refusal :=
  s.word (.rjoin h) h {} fun _ _ s => (.join, s)

/-- TRAP: SWTRAP in each active lane (R353). -/
def execTrap (h : Hdr) (code : BitVec 9) (s : State) : Host.Outcome State Fault Refusal :=
  s.word (.trap h code) h {} fun _ _ s => (.trap 0x37 0 0, s)

/-- BKPT: BREAK in each active lane (R353). -/
def execBkpt (h : Hdr) (code : BitVec 9) (s : State) : Host.Outcome State Fault Refusal :=
  s.word (.bkpt h code) h {} fun _ _ s => (.trap 0x38 0 0, s)

/-! ### NOP, YIELD, SLEEP, STEP (R354, R355) -/

def execNop (h : Hdr) (s : State) : Host.Outcome State Fault Refusal :=
  s.word (.nop h) h {} (pure fun _ => .done [] [] 0)

/-- YIELD sets the rotation floor and nothing else (R354). -/
def execYield (h : Hdr) (s : State) : Host.Outcome State Fault Refusal :=
  s.word (.yield h) h { rot := true } (pure fun _ => .done [] [] 0)

/-- The operand of SLEEP and STEP. -/
def Amount.val (a : Amount) (g : Group) : Word :=
  match a with
  | .imm i => i.zeroExtend 32
  | .g r => g.gr r.toNat
  | .lit x => BitVec.extractLsb' 0 32 x

/-- SLEEP holds the group for min(n, 65,535) core cycles (R354). -/
def execSleep (h : Hdr) (n : Amount) (s : State) : Host.Outcome State Fault Refusal :=
  s.word (.sleep h n) h { once := true } fun c _ s =>
    let k := Nat.min (Amount.val n c.g).toNat 65535
    (.done [] [] 0,
      match s.group c.gid with
      | some g => if k = 0 then s else s.setGroup c.gid { g with asleep := true, readyAt := s.clk + k }
      | none => s)

/-- STEP writes %step; under a cut a team group holds after it (R355, R296). -/
def execStep (h : Hdr) (n : Amount) (s : State) : Host.Outcome State Fault Refusal :=
  s.word (.step h n) h { once := true } fun c _ s =>
    (.done [] [] 0,
      match s.group c.gid with
      | some g =>
        let cut := decide ((s.ctx (s.rcd g.launch).ctx).popSt = .cut g.launch)
        s.setGroup c.gid { g with step := Amount.val n c.g, atStep := cut && g.team.isSome }
      | none => s)

end Sys2Proof.Machine
end

