-- ==== Sys2Proof/Machine/Tasks.lean ====
section
/-! DEFINITION. Tasks.lean: device-side launches, task records, work lists, tickets, QUIET and SETPRI (R419 to R424), EXIT
(R352), ENQ.stage (R396), special registers, SYSCALL, TRAPRET and non-preemptible windows (R426 to R430). -/
namespace Sys2Proof.Machine

/-! ### EXIT (R352, R130) -/

/-- Ending threads of a spawned group: one decrement for each join address, after their stores (R130). -/
def State.endThreads (s : State) (gid : Nat) (m : BitVec 32) : State :=
  match s.group gid with
  | none => s
  | some g =>
    match g.spawned with
    | none => s
    | some sp =>
      let kids := sp.kids.filter fun c => m.getLsbD c.lane
      let joins := ((kids.map fun c => c.join.toNat).filter fun j => j != 0).eraseDups
      let s := s.setGroup gid { g with spawned := some { sp with ended := sp.ended ||| m } }
      joins.foldl (fun (s : State) j =>
        let ks := kids.filter fun c => c.join.toNat == j
        let (id, s) := s.fresh
        { s with decs := Sparse.set none s.decs id (some {
            launch := g.launch, ctx := s.ctxOf g, core := g.core, gid := gid, va := j, n := ks.length
            lanes := maskOf (ks.map fun c => c.lane)
            deps := ((ks.flatMap fun c => (s.threadTxns gid c.lane).map (·.1)) ++ s.coreWrites g.core (s.ctxOf g)).eraseDups }) }) s

/-- What follows the exit of a word's lanes. -/
def State.afterExit (s : State) (c : Ctl) : State :=
  if c.act = 0 then s else (s.endThreads c.gid c.act).retestSets c.g

def execExit (h : Hdr) (s : State) : Host.Outcome State Fault Refusal :=
  s.word (.exit h) h { fin := fun c s => s.afterExit c } fun _ _ s => (.exit, s)

/-! ### Blocks and descriptors read from memory (R419, R425) -/

/-- Read n bytes at va for the lanes of a group, the part in each line of memory at a time, as a device-scope load; `cnt` says that the
requests are counted (R25). -/
def State.readGlobal (s : State) (cnt : Bool) (g : Group) (gid va : Nat) : Nat → Nat → Got × State
  | _, 0 => (.bytes [], s)
  | n, m + 1 =>
    let k := Nat.min n (128 - va % 128)
    if k = 0 then (.bytes [], s)
    else
      let one : Got × State :=
        match s.checkFor g gid 32 va k .load with
        | (.ok _ .cell a, s) =>
          if !s.lineFree none (a / 128) then (.wait, s.recall (a / 128))
          else if s.poisonedRange a k then (.no (s.poisonFault noCore a k 0 va), s)
          else (.bytes (s.cells a k), if cnt then s.count (srcCore g.core) a else s)
        | (.ok leaf tgt a, s) => s.readFar g gid 32 leaf tgt a va k
        | (.busy _, s) => (.wait, s)
        | (ch, s) => (.no (ch.res .load va), s)
      match one with
      | (.bytes bs, s) =>
        (match s.readGlobal cnt g gid (va + k) (n - k) m with
         | (.bytes r, s) => (.bytes (bs ++ r), s)
         | q => q)
      | q => q

/-- A word whose lanes each read n bytes at an address before any of them acts: it is ready when every read has its bytes or
its fault. -/
def readOps (n : Nat) (va : Ctl → Nat → Option Nat) : WordOps :=
  relOps { mem := true
           ready := fun c s => (lanesOf c.act).all fun l =>
             match va c l with
             | none => true
             | some a => (match (s.readGlobal false c.g c.gid a n 4).1 with | .wait => false | _ => true)
           wait := fun c s => (lanesOf c.act).foldl (fun (s : State) l =>
             match va c l with
             | none => s
             | some a => (s.readGlobal false c.g c.gid a n 4).2) s } .dev false fun _ _ _ => true

/-- The address of a block: its fault, or the address (R419, R425). -/
def blockVa (va : Nat) : Except LaneRes Nat :=
  if va % 64 ≠ 0 then .error (trapAt 0x25 0 va)
  else if 2 ^ 57 ≤ va then .error (trapAt 0x26 0 va)
  else .ok va

/-- The address a lane of such a word reads at, if it passes its checks. -/
def blockAt (g : Bool) (a : RegIx) (c : Ctl) (l : Nat) : Option Nat :=
  match blockVa ((c.env l).a64 g a).toNat with | .ok x => some x | .error _ => none

/-! ### LAUNCH (R111, R112, R419) -/

def execLaunch (h : Hdr) (g : Bool) (d a : RegIx) (s : State) : Host.Outcome State Fault Refusal :=
  s.word (.launch h g d a) h (readOps 256 (blockAt g a)) fun c l s =>
    match blockVa ((c.env l).a64 g a).toNat with
    | .error r => (r, s)
    | .ok va =>
      match s.readGlobal true c.g c.gid va 256 4 with
      | (.wait, s) => (.stay, s)
      | (.no r, s) => (r, s)
      | (.bytes bs, s) =>
        (match s.lowestFree with
         | none => (.park .recFree, s)
         | some r =>
           let s := s.takeBlock r (s.ctxOf c.g) none bs
           (.done [(d.toNat, (s.rcd r).handle r)] [] 0, s))

/-! ### Held reductions (R110) -/

/-- The number under which the held REDs of a launch are performed, one after the other. -/
def heldId (r : Nat) : Nat := 2 ^ 61 + r

/-- The REDs of a stage that no team of lower SEQ holds back any more go to their homes, in order; with them those of the team
that holds the lowest record (R110). -/
def State.releaseHeld (s : State) (r stg : Nat) : State :=
  let rc := s.rcd r
  let low := s.lowestSeq r stg
  let leader := ((s.teamsOf r).filter fun p => p.2.task.stg == stg && s.leads p.2).map fun p => p.2.task.seq.toNat
  let go := sortBy (fun (a b : HeldRed) => decide (a.seq < b.seq))
    (rc.held.filter fun h => h.stg == stg && (match low with | some q => decide (h.seq ≤ q) || leader.contains h.seq | none => true))
  if go.isEmpty then s
  else
    let s := s.setRec r { rc with held := rc.held.filter fun h => !go.contains h }
    let s := go.foldl (fun (s : State) h =>
      let (id, s) := s.fresh
      let deps := ((listed s.txns).filter fun p => p.2.gid == heldId r).map (·.1)
      s.setTxn id (some {
        core := 0, mill := true, gid := heldId r, ctx := rc.ctx, launch := r, line := h.loc / 128, scope := .dev, deps := deps, word := id
        tgt := match h.node with | some n => .node n | none => .cell
        parts := [{ lane := 32, addr := h.loc, va := 0, len := if h.ty.wide then 8 else 4, op := .red h.op h.ty h.val 0 }] })) s
    s.readyWhere fun g p => g.launch == r && p == .redFull

/-! ### FETCHW (R102, R103, R420) -/

/-- Withdrawn records of a team that have a successor counter. -/
def Team.succs (t : Team) : List Task := t.taken.filter fun x => x.succ != 0

/-- Retire the team's withdrawn records, for its group gid; false while a successor counter is still to be decremented. -/
def State.retireTaken (s : State) (r uid gid k core : Nat) : Nat → Bool × State
  | 0 => (false, s)
  | fuel + 1 =>
    if (listed s.decs).any fun p => p.2.gid == gid && p.2.sent.isSome then (false, s)
    else
      match s.team uid with
      | none => (true, s)
      | some t =>
        match t.taken with
        | [] => (true, s)
        | x :: xs =>
          match s.retireTask k r core x with
          | (.wait, s) => (false, s)
          | (.sent id, s) =>
            (false, (match s.team uid with
              | some t => s.setTeam uid { t with taken := { x with succ := 0 } :: xs }
              | none => s).awaitDec r k core gid id x)
          | (.done, s) =>
            (match s.team uid with
             | none => (true, s)
             | some t => (((s.setTeam uid { t with taken := xs }).oweTickets r x.stg x.seq.toNat).releaseHeld r x.stg).retireTaken
                 r uid gid k core fuel)

/-- The mailbox offset of a FETCHW lane in a team group. -/
def State.mailbox (s : State) (c : Ctl) (l : Nat) (g : Bool) (a : RegIx) : Except LaneRes (Nat × Nat) :=
  match s.locate c.g .scr ((c.env l).a32 g a).toNat 64 64 .load with
  | .ok (.scr uid o _) => .ok (uid, o)
  | .ok _ => .error badOperand
  | .error r => .error r

/-- The first lane of a FETCHW that passes the checks of its mailbox: its claim is the word's first. -/
def State.firstClaim (s : State) (g : Bool) (a : RegIx) (c : Ctl) : Option Nat :=
  (lanesOf c.act).find? fun l => match s.mailbox c l g a with | .ok _ => true | .error _ => false

/-- FETCHW in one lane: before the word's first claim the records withdrawn before the word retire, then the lane claims the next. -/
def State.fetchLane (s : State) (g : Bool) (d a : RegIx) (c : Ctl) (l : Nat) : LaneRes × State :=
  match c.g.team with
  | none => (.done [(d.toNat, 0)] [] 0, s)
  | some uid =>
    let r := c.g.launch
    let pre := if s.firstClaim g a c = some l then s.retireTaken r uid c.gid (s.ctxOf c.g) c.g.core 64 else (true, s)
    match pre with
    | (false, s) => (.stay, s)
    | (true, s) =>
      match s.mailbox c l g a, s.team uid with
      | .error q, _ => (q, s)
      | .ok _, none => (pending, s)
      | .ok (u, o), some t =>
        match s.nextTask r t.task.stg with
        | (.wait, s) => (.stay, s)
        | (.ended, s) => (pending, s)
        | (.empty, s) => (.done [(d.toNat, 0)] [] 0, s.engScratch u o endRecord)
        | (.task x, s) =>
          if x.bad then (pending, s.endLaunch r .fault 0x10)
          else
          let s := s.claim r t.task.stg x
          match s.team uid with
          | none => (pending, s)
          | some t => (.done [(d.toNat, 1)] [] 0, (s.setTeam uid { t with taken := t.taken ++ [x] }).engScratch u o x.bytes)

/-- What a FETCHW that is not ready sets going: the team's withdrawn records retire, and the lines of the queue's records are
recalled. -/
def State.fetchWait (s : State) (g : Bool) (a : RegIx) (c : Ctl) : State :=
  match c.g.team, s.firstClaim g a c with
  | none, _ => s
  | some _, none => s
  | some uid, some _ =>
    let s := (s.retireTaken c.g.launch uid c.gid (s.ctxOf c.g) c.g.core 64).2
    match s.team uid with
    | none => s
    | some t =>
      let rc := s.rcd c.g.launch
      let q := rc.blk.queueAt (t.task.stg - 1)
      if t.task.stg = 0 then s
      else ((rc.queue (t.task.stg - 1)).take 32).foldl (fun s e => (s.millAt rc.ctx (q.1 + 64 * (e.1 % q.2)) 64 .load).2) s

def execFetchw (h : Hdr) (g : Bool) (d a : RegIx) (s : State) : Host.Outcome State Fault Refusal :=
  s.word (.fetchw h g d a) h
    (relOps { mem := true
              ready := fun c s => ((runLanes (fun l s => s.fetchLane g d a c l) (c.runners { mem := true }) s).1).all fun r =>
                decide (r.2 ≠ .stay)
              wait := fun c s => s.fetchWait g a c } .dev false fun c _ s =>
      match c.g.team with
      | some u => (match s.team u with | some t => !t.succs.isEmpty | none => false)
      | none => false) fun c l s => s.fetchLane g d a c l

/-! ### Work lists (R104, R421) -/

/-- The list an append names takes its item: a list of a core that does not work goes to the shared one. -/
def State.listOf (s : State) (n : Nat) : Nat :=
  if n < 192 then (if (s.die (n / 24)).st = .online ∧ !(s.die (n / 24)).offl.getLsbD (n % 24) then n else 255) else 255

def execWlappend (h : Hdr) (g : Bool) (a c : RegIx) (s : State) : Host.Outcome State Fault Refusal :=
  s.word (.wlappend h g a c) h (relOps { mem := true } .dev false fun _ _ _ => true) fun w l s =>
    let e := w.env l
    let n := (e.a32 g a).toNat
    if 192 ≤ n ∧ n ≠ 255 then (badOperand, s)
    else
      let r := w.g.launch
      let rc := s.rcd r
      if 65536 ≤ rc.items then (.park .listFull, s)
      else
        let i := s.listOf n
        let s := s.setRec r { rc with lists := Sparse.set [] rc.lists i (Sparse.get [] rc.lists i ++ [e.ln.reg64 c.toNat]) }
        (pending, s.quietItems r)

def execWltake (h : Hdr) (pd : BitVec 3) (d : RegIx) (s : State) : Host.Outcome State Fault Refusal :=
  s.word (.wltake h pd d) h { mem := true } fun c _ s =>
    let r := c.g.launch
    let rc := s.rcd r
    let take := fun (i : Nat) (x : DWord) (xs : List DWord) =>
      let s := (s.setRec r { rc with lists := Sparse.set [] rc.lists i xs }).readyWhere fun g p => g.launch == r && p == .listFull
      (LaneRes.done (pairW d.toNat 511 x) [(pd.toNat, true)] 0, s)
    match Sparse.get [] rc.lists c.g.core with
    | x :: xs => take c.g.core x xs
    | [] =>
      match Sparse.get [] rc.lists 255 with
      | x :: xs => take 255 x xs
      | [] => (.done [] [(pd.toNat, false)] 0, s)

/-! ### Tickets (R108, R422) -/

/-- Stage, section and ticket of a lane, or ILLEGAL_OPERAND. -/
def State.ticketArgs (s : State) (c : Ctl) (l : Nat) (q : Option RegIx) (k : Kind) : Except LaneRes (Nat × Nat × Nat) :=
  match c.g.team with
  | none => .error badOperand
  | some uid =>
    match s.team uid with
    | none => .error badOperand
    | some t =>
      let e := c.env l
      let sec := (e.kind k).toNat
      if 15 < sec ∨ (sec = 15 ∧ (s.rcd c.g.launch).blk.detr = true) then .error badOperand
      else .ok (t.task.stg, sec, match q with | some r => (e.ln.reg r.toNat).toNat | none => t.task.seq.toNat)

def execTkwait (h : Hdr) (d : RegIx) (q : Option RegIx) (k : Kind) (s : State) : Host.Outcome State Fault Refusal :=
  s.word (.tkwait h d q k) h { mem := true } fun c l s =>
    match s.ticketArgs c l q k with
    | .error r => (r, s)
    | .ok (stg, sec, t) =>
      let v := (s.rcd c.g.launch).ticket stg sec
      if v < t then (.park (.ticket (ticketKey stg sec) t), s)
      else if t < v then (.done [(d.toNat, 2)] [] 0, s)
      else (.done [(d.toNat, if Sparse.get false (s.rcd c.g.launch).skipped (ticketKey stg sec) then 1 else 0)] [] 0, s)

def execTkpass (h : Hdr) (d : RegIx) (q : Option RegIx) (k : Kind) (s : State) : Host.Outcome State Fault Refusal :=
  s.word (.tkpass h d q k) h (relOps { mem := true } .dev false fun c _ _ => c.g.team.isSome) fun c l s =>
    match s.ticketArgs c l q k with
    | .error r => (r, s)
    | .ok (stg, sec, t) =>
      let v := (s.rcd c.g.launch).ticket stg sec
      if v = t then (.done [(d.toNat, 0)] [] 0, s.passTicket c.g.launch stg sec false)
      else (.done [(d.toNat, if v < t then 1 else 2)] [] 0, s)

/-! ### QUIET and SETPRI (R107, R423, R424) -/

/-- QUIET parks the word's lanes and marks the group idle; then the release rules of R107 apply. -/
def execQuiet (h : Hdr) (d : RegIx) (s : State) : Host.Outcome State Fault Refusal :=
  s.word (.quiet h d) h
    { mem := true
      fin := fun c s =>
        if c.act = 0 then s
        else
          match s.group c.gid with
          | some g => (s.setGroup c.gid { g with idle := true }).tailrace c.g.launch
          | none => s }
    fun _ _ s => (.park (.quiet d.toNat none), s)

def execSetpri (h : Hdr) (n : Kind) (s : State) : Host.Outcome State Fault Refusal :=
  s.word (.setpri h n) h { mem := true, once := true } fun c l s =>
    let v := ((c.env l).kind n).toNat
    match n with
    | .v _ => (badOperand, s)
    | _ =>
      if (s.ctx (s.ctxOf c.g)).pceil.toNat < v then (badOperand, s)
      else
        let rc := s.rcd c.g.launch
        (.done [] [] 0, s.setRec c.g.launch { rc with blk := { rc.blk with pri := v } })

/-! ### ENQ.stage (R98, R101, R396) -/

/-- The record enters the stage queue, unless a relaunched gang's earlier run had produced it and it was taken (R101). -/
def State.enqStage (s : State) (r stg uid : Nat) (bs : List Byte) : LaneRes × State :=
  let rc := s.rcd r
  let tag := match s.team uid with | some t => t.gang | none => 0
  let n := Sparse.get 0 rc.enqs (tag * 4 + stg)
  let rc' : Rec := { rc with enqs := Sparse.set 0 rc.enqs (tag * 4 + stg) (n + 1) }
  if Sparse.get false rc.taken ((tag * 4 + stg) * 2 ^ 32 + n) then (pending, s.setRec r rc')
  else
    let q := rc.blk.queueAt stg
    if !rc.queueHasRoom stg then (.park (.stageFull stg), s)
    else
      let i := Sparse.get 0 rc.queueTail stg
      match s.millAt rc.ctx (q.1 + 64 * (i % q.2)) 64 .store with
      | (.cell a, s) =>
        (pending, (s.setRec r { rc' with
          stageQ := Sparse.set [] rc.stageQ stg (rc.queue stg ++ [(i, tag, n)])
          queueTail := Sparse.set 0 rc.queueTail stg (i + 1) }).millWrite a bs)
      | (.wait, s) => (.stay, s)
      | (_, s) => (.stay, s.endLaunch r .fault 0x12)

def execEnqStage (h : Hdr) (sc : Scope) (a : RegIx) (s : State) : Host.Outcome State Fault Refusal :=
  s.word (.enqStage h sc a) h (relOps { mem := true } sc false fun c _ _ => c.g.team.isSome) fun c l s =>
    match c.g.team, (if sc = .sys then s.lostLink c.gid l else none) with
    | none, _ => (badOperand, s)
    | some _, some s => (.trap 0x2B 0 0, s)
    | some uid, none =>
      match s.team uid with
      | none => (badOperand, s)
      | some t =>
        if (s.rcd c.g.launch).blk.nstages ≤ t.task.stg + 1 then (badOperand, s)
        else
          match s.locate c.g .scr ((c.env l).a32 false a).toNat 64 64 .load with
          | .ok (.scr u o _) => s.enqStage c.g.launch t.task.stg uid (s.readScratch u o 64)
          | .ok _ => (badOperand, s)
          | .error r => (r, s)

/-! ### Special registers (R310, R426) -/

/-- Numbers that CSRR accepts; a g destination takes uniform registers only. -/
def csrOk (uniform : Bool) (n : Nat) : Bool :=
  let uni := (2 ≤ n && n ≤ 0xC) || (0x10 ≤ n && n ≤ 0x12) || (0x14 ≤ n && n ≤ 0x18) || n == 0x30
  uni || (!uniform && (n ≤ 1 || (0x20 ≤ n && n ≤ 0x23)))

def csrWide (n : Nat) : Bool := n == 0x18 || n == 0x20 || n == 0x30

/-- R215: no result of the lane is outstanding. -/
def State.laneSettled (s : State) (g : Group) (gid l : Nat) : Bool :=
  !(g.landings.any fun d => d.lane == l) && (s.pendingDests gid l).isEmpty

def execCsrr (h : Hdr) (toG : Bool) (d n : RegIx) (s : State) : Host.Outcome State Fault Refusal :=
  s.word (.csrr h toG d n) h
    { once := toG
      ready := fun c s => n != 0x023#9 || (match s.group c.gid with
        | some g => (lanesOf c.act).all fun l => s.laneSettled g c.gid l
        | none => true) } fun c l s =>
    if !csrOk toG n.toNat then (badOperand, s)
    else
      let x := s.csr c.g l c.pc n.toNat
      (.done (if csrWide n.toNat then pairW d.toNat (if toG then 127 else 511) x else [(d.toNat, BitVec.extractLsb' 0 32 x)]) [] 0, s)

def execCsrw (h : Hdr) (n : RegIx) (c : Kind) (s : State) : Host.Outcome State Fault Refusal :=
  s.word (.csrw h n c) h
    { ready := fun c s => match s.group c.gid with
        | some g => (lanesOf c.act).all fun l => s.laneSettled g c.gid l
        | none => true } fun w l s =>
    let x := (w.env l).kind c
    let set := fun (f : Lane → Lane) =>
      match s.group w.gid with
      | some g => s.setGroup w.gid (g.setLane l (f (g.lane l)))
      | none => s
    if n = 0x022#9 then
      if 5 ≤ x.toNat % 8 then (badOperand, s)
      else (.done [] [] 0, set fun ln => { ln with rm := BitVec.extractLsb' 0 3 x })
    else if n = 0x023#9 then (.done [] [] 0, set fun ln => { ln with flags := BitVec.extractLsb' 0 5 x })
    else (badOperand, s)

/-! ### SYSCALL (R427, R428) -/

def execSyscall (h : Hdr) (d a : RegIx) (n : BitVec 9) (s : State) : Host.Outcome State Fault Refusal :=
  s.word (.syscall h d a n) h (relOps { mem := true } .sys false fun _ _ _ => true) fun c l s =>
    match s.lostLink c.gid l with
    | some s => (.trap 0x2B 0 0, s)
    | none =>
      let k := s.ctxOf c.g
      let cx := s.ctx k
      let v : Svc := { arg := (c.env l).ln.reg64 a.toNat, num := BitVec.extractLsb' 0 8 n, launch := c.g.launch, core := c.g.core,
                       gid := c.gid, lane := l, d := d.toNat }
      let s := s.setCtx k { cx with svcs := cx.svcs ++ [v] }
      (.park (.svc none), if cx.svcs.isEmpty then s.svcHead k else s)

/-! ### TRAPRET (R285, R429) -/

def execTrapret (h : Hdr) (g : Bool) (c : RegIx) (s : State) : Host.Outcome State Fault Refusal :=
  s.word (.trapret h g c) h { sync := true } fun w l s =>
    let t := (w.env l).a64 g c
    match targetFault t with
    | some f => (f, s)
    | none => (.ret t, s)

/-! ### Non-preemptible windows (R297 to R299, R430) -/

def execNpbegin (h : Hdr) (s : State) : Host.Outcome State Fault Refusal :=
  s.word (.npbegin h) h { once := true } fun c _ s =>
    match s.group c.gid with
    | none => (.done [] [] 0, s)
    | some g =>
      if g.depthNp = 15 then (badOperand, s)
      else if windowMax ≤ g.windowCycles then (.trap 0x36 0 0, s)
      else (.done [] [] 0, s.setGroup c.gid { g with depthNp := g.depthNp + 1 })

def execNpend (h : Hdr) (s : State) : Host.Outcome State Fault Refusal :=
  s.word (.npend h) h { once := true } fun c _ s =>
    match s.group c.gid with
    | none => (.done [] [] 0, s)
    | some g => (.done [] [] 0, s.setGroup c.gid { g with depthNp := g.depthNp - 1 })

end Sys2Proof.Machine
end

