-- ==== Sys2Proof/Machine/Retire.lean ====
section
/-! DEFINITION. Retire.lean: groups and teams that retire (R90, R103, R110, R352, R406), tickets that are skipped (R109),
quiescence and the stamp (R85, R92, R106), and launch blocks taken from the rings (R80). -/
namespace Sys2Proof.Machine

/-! ### GROUP_RETIRE (R90, R352, R406) -/

/-- Has everything that a group issued, or handed to its core, ended (R130, R352, R406)? -/
def State.groupDone (s : State) (gid : Nat) (g : Group) : Bool :=
  g.resident && g.live.isEmpty && g.landings.isEmpty &&
  !((listed s.txns).any fun p => p.2.gid == gid) && !((listed s.decs).any fun p => p.2.gid == gid) &&
  !((listed s.copies).any fun p => p.2.gid == gid && p.2.quad.isNone) && !((listed s.nbs).any fun p => p.2.gid == gid && p.2.out == 0)

/-- Has a team's matrix engine and Sphinx work ended (R406)? -/
def State.teamDone (s : State) (uid core : Nat) : Bool :=
  !((Sparse.get [] s.mx core).any fun o => o.team == uid) && ((s.array core).team != some uid || (s.array core).ops.isEmpty)

/-- A team retires with its last group: its withdrawn records and its own record retire, its array is free, and what waited
for it goes on (R90, R103, R109, R110, R276). -/
def State.retireTeam (s : State) (gid uid : Nat) (t : Team) : State :=
  let r := t.task.lrec
  let k := (s.rcd r).ctx
  if !s.teamDone uid t.core then s
  else if (t.task.succ ≠ 0 || !t.succs.isEmpty) && !s.clean t.core k then s.writeBack t.core k
  else
    match s.retireTaken r uid gid k t.core (t.taken.length + 1) with
    | (false, s) => s
    | (true, s) =>
      match s.retireTask k r t.core t.task with
      | (.wait, s) => s
      | (.sent id, s) =>
        (match s.team uid with
         | some t' => s.setTeam uid { t' with task := { t'.task with succ := 0 } }
         | none => s).awaitDec r k t.core gid id t.task
      | (.done, s) =>
        match s.team uid with
        | none => s
        | some t =>
          let mates := (s.gangOf uid).filter fun p => p.1 != uid
          let s := (s.oweTickets r t.task.stg t.task.seq.toNat).teamLeavesDomain uid
          let a := s.array t.core
          let s := if a.team = some uid then s.setArray t.core { fenced := a.fenced } else s
          let rc := s.rcd r
          let others := rc.gone.filter fun p => p.1 != t.gang
          let s := s.setRec r { rc with gone := if mates.isEmpty then others else rc.gone ++ [(t.gang, t.task)] }
          ((((s.dropGroups [gid]).delTeam uid).releaseHeld r t.task.stg).tailrace r).settleEnd r

/-- GROUP_RETIRE: a group whose lanes have all exited leaves its core (R352). -/
def State.groupRetire (s : State) (gid : Nat) : State :=
  match s.group gid with
  | none => s
  | some g =>
    if !s.groupDone gid g then s
    else
      match g.team with
      | none => ((s.dropGroups [gid]).tailrace g.launch).settleEnd g.launch
      | some uid =>
        match s.team uid with
        | none => s
        | some t =>
          if (s.teamGroups uid).length = 1 then s.retireTeam gid uid t
          else ((s.dropGroups [gid]).tailrace g.launch).settleEnd g.launch

def execGroupRetire (gid : Nat) (s : State) : Host.Outcome State Fault Refusal := .next (s.groupRetire gid)

/-! ### TICKET_SKIP (R109) -/

/-- The counter of a section has reached the SEQ of a retired record that did not pass it. -/
def State.ticketSkip (s : State) (r stg sec : Nat) : State :=
  let rc := s.rcd r
  let key := ticketKey stg sec
  let v := rc.ticket stg sec
  let due := rc.owed.any fun o => o.1 == key && o.2 == v
  let s := s.setRec r { rc with owed := rc.owed.filter fun o => !(o.1 == key && decide (o.2 ≤ v)) }
  -- under DETR section 15 passes with its team (R110)
  if due then s.passTicket r stg sec !(sec == 15 && rc.blk.detr) else s

def execTicketSkip (rec stage sect : Nat) (s : State) : Host.Outcome State Fault Refusal := .next (s.ticketSkip rec stage sect)

/-! ### QUIESCENT (R106) -/

/-- The Tailrace probes the bins of the launch, and reports it when no count is left; otherwise it looks at idle and waiting
groups (R107, R138). -/
def State.quiescent (s : State) (r : Nat) : State :=
  if (s.rcd r).st ≠ .running then s
  else
    let s := s.flushBins fun b => b.launch == r
    if s.countP r + s.countW r + s.countS r + s.countC r + s.countDecs r = 0 && (s.groupsOf r).isEmpty && (s.rcd r).held.isEmpty &&
        !((listed s.txns).any fun p => p.2.gid == heldId r) then
      (s.setCtx (s.rcd r).ctx ((s.ctx (s.rcd r).ctx).popOver r)).setRec r { s.rcd r with st := .stamped, endSt := .ok }
    else s.tailrace r

def execQuiescent (rec : Nat) (s : State) : Host.Outcome State Fault Refusal := .next (s.quiescent rec)

/-! ### STAMP_ACCEPT (R80, R85, R92, R111) -/

def EndSt.code : EndSt → Nat
  | .ok => 0 | .killed => 1 | .fault => 2 | .rejected => 3

/-- The stamp of a launch (R85). -/
def Rec.stamp (rc : Rec) (r : Nat) : Nat :=
  (match rc.ring with | some q => q.2.toNat | none => (rc.handle r).toNat) + 2 ^ 32 * rc.endSt.code + 2 ^ 40 * rc.detail.toNat +
    2 ^ 48 * Nat.min rc.relaunches 255

/-- The record is freed; its generation stays, and lanes that wait for a record try again (R92, R111). -/
def State.freeRec (s : State) (r : Nat) : State :=
  (s.setRec r { gen := (s.rcd r).gen }).readyWhere fun _ p => p == .recFree

/-- The stamp has been accepted: MSI-X if asked for, and the record is free. -/
def State.stamped (s : State) (r : Nat) : State :=
  let rc := s.rcd r
  (if rc.blk.irq then s.msix rc.ctx rc.blk.msiv else s).freeRec r

/-- The number under which a launch's stamp travels to memory outside this device. -/
def stampId (r : Nat) : Nat := 2 ^ 62 + r

/-- The record of a launch whose stamp cannot be written is freed, without an MSI-X message, and the failure logged (R85); for a device-side
LAUNCH, which has no queue and no block number, with 0xFF and 0 (DESIGN CHOICE, log entry 106). -/
def State.stampLost (s : State) (r : Nat) : State :=
  let rc := s.rcd r
  (s.freeRec r).logEv .stampUnwritable 2 (evQuad (rc.ctx % 4)) [rc.ctx, (rc.ring.map (·.1)).getD 0xFF, (rc.ring.map (·.2.toNat)).getD 0]

/-- The stamp is a release at system scope: zero-length reads go behind the context's stores to host memory, and it waits for them
(R57, R85). True: it waits still. -/
def State.stampWaits (s : State) (r : Nat) : Bool × State :=
  let rc := s.rcd r
  match rc.stampZlr with
  | some ids => (ids.any fun i => (s.txn i).isSome, s)
  | none =>
    if s.hostQuiet rc.ctx 0 && s.hostQuiet rc.ctx 1 then (false, s)
    else
      let x := s.zeroReads 32 { core := 0, mill := true, gid := stampId r, ctx := rc.ctx, launch := r, tgt := .host 0 0, line := 0, scope := .sys, word := 0
                                parts := [] }
      (true, x.2.setRec r { x.2.rcd r with stampZlr := some x.1 })

/-- STAMP_ACCEPT: the stamp is written at its home, once the stores that it covers are visible, and what follows from it. -/
def State.stampAccept (s : State) (r : Nat) : State :=
  let rc := s.rcd r
  if rc.st ≠ .stamped ∨ s.countDecs r ≠ 0 then s
  else if rc.stampSent then (if (listed s.txns).any fun p => p.2.gid == stampId r then s else s.stamped r)
  else if (s.stampWaits r).1 then (s.stampWaits r).2
  else
    let bs := toLE 8 (rc.stamp r)
    match s.millAt rc.ctx rc.blk.done.toNat 8 .store with
    | (.wait, s) => s
    | (.cell a, s) => (s.millWrite a bs).stamped r
    | (.far leaf tgt a, s) =>
      let (id, s) := s.fresh
      (s.setTxn id (some {
        core := 0, mill := true, gid := stampId r, ctx := rc.ctx, launch := r, tgt := tgt, line := a / 128, scope := .sys, lvl := leaf.lvl, word := id
        parts := [{ lane := 32, addr := a, va := rc.blk.done.toNat, len := 8, op := .store, data := bs }] })).setRec r { rc with stampSent := true }
    | (.bad, s) => s.stampLost r

def execStampAccept (rec : Nat) (s : State) : Host.Outcome State Fault Refusal := .next (s.stampAccept rec)

/-! ### BLOCK_CONSUME (R80, R111) -/

/-- Blocks that a ring holds. -/
def Queue.size (q : Queue) : Nat := 2 ^ Nat.min q.qlog.toNat 12

/-- BLOCK_CONSUME: the Millrace copies the block at CIDX into a free record, and moves CIDX on. -/
def State.blockConsume (s : State) (k j : Nat) : State :=
  let c := s.ctx k
  let q := c.queue j
  if !c.en || c.halt || c.kreq || q.stopped || q.cidx = q.pidx || s.freeRecs ≤ 256 || s.mgmt.noLaunch then s
  else
    match s.viewOf (q.qring.toNat * 256 + 256 * (q.cidx.toNat % q.size)) with
    | none => (s.setCtx k (c.setQueue j { q with stopped := true, qerr := true })).logEv .queueStopped 2 (evQuad (k % 4)) [k, j, q.cidx.toNat]
    | some (_, _, a) =>
      if !s.rangeFree a 256 then s.recallRange a 256
      else if s.poisonedRange a 256 then s
      else
        match s.lowestFree with
        | none => s
        | some r =>
          let bs := s.cells a 256
          let s := (s.countLines (srcMill (k % 4)) a 256).takeBlock r k (some (j, q.cidx)) bs
          s.setCtx k ((s.ctx k).setQueue j { q with cidx := q.cidx + 1 })

def execBlockConsume (k j : Nat) (s : State) : Host.Outcome State Fault Refusal := .next (s.blockConsume k j)

end Sys2Proof.Machine
end

