-- ==== Sys2Proof/Machine/Run.lean ====
section
/-! DEFINITION. Run.lean: what a step adds around a meaning: which group may issue (R113, R115, R296), the fetch and the decode
of its word (R146, R319), the clock, and the choice that the machine makes when no agenda is given. -/
namespace Sys2Proof.Machine

/-- The steps of the opcode table that are no instruction words. -/
def isEvent : Instr → Bool
  | .homeRequest _ | .invalidationAcknowledgement _ _ | .acknowledgement _ | .fenceInstant _ | .dieSelfTestEnd _ _
  | .inFieldTest _ | .inFieldTestRetry _ _ | .inFieldTestEnd _ _ | .orderingPointSend _ | .inboundReadCompletion _
  | .collectiveCompletion _ _ _ | .collectiveTimeout _ _ _ | .invalidationDone _ | .blockConsume _ _ | .headReservation _
  | .groupRetire _ | .ticketSkip _ _ _ | .quiescent _ | .stampAccept _ | .backoffExpiry _ | .sleepExpiry _
  | .engineRoomFree _ | .laneRelease _ _ | .spawnAccept _ | .binTimer _ _ | .joinDecrement _ | .groupSuspend _
  | .spawnSave _ | .localFrame _ | .rjoinComplete _ | .pageWalk _ _ _ | .copyLanding _ | .copyCompletion _
  | .matrixCompletion _ | .nbgemvCompletion _ | .sweepStart _ | .sweepEnd _ | .sphinxCompletion _
  | .domainJoinTimeout _ _ | .preemptionComplete _ | .cutTimeout _ | .npOverrun _ | .monwaitTimeout _ _
  | .resultLands _ _ | .powerGood | .startUpStep | .coreWake | .deviceReset | .lossOfPower | .powerSample | .budgetPeriod
  | .bondFlitError | .uncorrectableError | .logread | .unknownMailboxOp | .imgwrite | .imgcommit | .attest | .cert
  | .dieFence | .diereset | .resume | .budget | .linkUp | .linkDown | .spdmAuthentication | .ideKeyProgramming
  | .inboundPostedWrite | .inboundRead | .inboundAtomicop | .atsInvalidation | .pageResponse | .outboundReadCompletion
  | .completionTimeout | .clovarFlitError | .clovarPortStateChange | .ports | .clovarInboundRequest | .remoteResponse
  | .remoteRequestTimeout | .collectiveTraffic | .en | .kreq | .halt | .invgo | .invall | .doorbell | .resolve | .reject
  | .preEmpt | .popResume | .cut | .svcret | .registerWrite | .teamPlacement | .spawnedGroupRelease | .bucketBoundary =>
    true
  | _ => false

/-! ### Readiness (R113, R114, R144, R285, R296, R354) -/

/-- Does the device take this step? Without power, without an image that verifies, or once the controller has stopped it, only
power and reset act (R17, R34, R36). -/
def State.takes (s : State) (i : Instr) : Bool :=
  match s.mgmt.boot with
  | .off | .noImage | .stopped => (match i with | .powerGood | .lossOfPower | .deviceReset => true | _ => false)
  | _ => true

/-- Is an RJOIN of the group complete, or its trap handling due (R150, R151)? -/
def Group.joinDue (g : Group) : Bool :=
  let js := (lanes32.filter fun l => decide ((g.lane l).st = .joining) && (!g.handling || (g.lane l).handler)).map fun l => (g.lane l).pc
  let free := fun (a : DWord) => !(g.eligible.any fun l => decide ((g.lane l).pc.toNat < a.toNat))
  !g.handlerParked && ((match leastBy (fun (a b : DWord) => decide (a.toNat < b.toNat)) js with
    | some a => free a
    | none => false) ||
  (!g.handling && (g.live.any fun l => decide ((g.lane l).st = .trapped)) && g.live.all fun l => decide ((g.lane l).st ≠ .eligible)))

/-- Does nothing hold the group: it is on a core, no wait, window limit, stop or step hold applies, and no RJOIN of it is complete
(R113, R114, R150, R291, R296, R299)? -/
def State.unheld (s : State) (g : Group) : Bool :=
  g.resident && !g.held && !g.asleep && !g.idle && !g.atStep &&
  -- an open window defers what would stop the group, but for the end of its launch (R297)
  !(g.preempt && (g.depthNp == 0 || decide ((s.rcd g.launch).st = .ending))) && !(g.depthNp != 0 && decide (windowMax ≤ g.windowCycles)) && decide (g.readyAt ≤ s.clk) &&
  (decide ((s.rcd g.launch).st = .running) || decide ((s.rcd g.launch).st = .ending)) && !g.joinDue && g.issueAddress.isSome

/-- May the group issue a word now, as far as its holds and the duty of its die go? -/
def State.mayIssue (s : State) (g : Group) : Bool := decide (s.mgmt.boot = .ready) && s.issueCycle g.core && s.unheld g

/-- The word's lanes take a fetch fault: they park or trap at the word with ACC 3 (R146, R281). -/
def State.fetchFault (s : State) (g : Group) (r : LaneRes) : State :=
  let c : Ctl := { gid := s.cur.gid, g := g, act := s.cur.lanes, pc := s.cur.pc, len := 0, u := false, prot := false }
  match s.group s.cur.gid with
  | none => s
  | some g0 =>
    let s1 := { s with next := s.next + 1 }
    (s1.setGroup s.cur.gid (lanes32.foldl (fun (g : Group) l =>
      if s.cur.lanes.getLsbD l then g.setLane l ((g.lane l).after c.pc 0 false s.next r) else g) g0)).wordFaults c.gid
        ((lanesOf s.cur.lanes).map fun l => (l, r))

/-- The stall count that the bits of a word hold: of a pair word the greater of its slots' (R301, R305). -/
def stallOf (w : DWord) : Nat :=
  if w.getLsbD 63 then Nat.max (BitVec.extractLsb' 35 3 w).toNat (BitVec.extractLsb' 4 3 w).toNat else (BitVec.extractLsb' 13 4 w).toNat

/-- The cause of a word that is no instruction (R319). -/
def Reject.cause : Reject → Nat
  | .illegalOp => 0x20
  | .illegalPair => 0x21
  | .illegalOperand => 0x22

/-- What a group finds at its issue address: an instruction and its length, a word that is none, a fetch that faults, or bytes that are
not there yet. -/
inductive Found where
  | ok (i : Instr) (len : Nat)
  | bad (w : DWord) (len : Nat) (e : Reject)
  | fault (r : LaneRes)
  | wait
deriving DecidableEq, Repr

/-- The word at an address, with its literal: fetched and decoded (R304, R319). -/
def State.wordFound (s : State) (gid pc : Nat) : Found × State :=
  match s.readCode gid pc 1 with
  | (.wait, s) => (.wait, s)
  | (.no r, s) => (.fault r, s)
  | (.bytes b0, s) =>
    let w := dwordLE b0
    let run := fun (x : DWord) (len : Nat) => match decodeWords w x with | .ok i => Found.ok i len | .error e => .bad w len e
    if isLong w then
      match s.readCode gid (pc + 8) 1 with
      | (.wait, s) => (.wait, s)
      | (.no r, s) => (.fault r, s)
      | (.bytes b1, s) => (run (dwordLE b1) 16, s)
    else (run 0 8, s)

/-- The word of a group: fetched and decoded. No instruction comes back when the group may not issue, when its word is not
there yet, or when the fetch or the decode faults; the state then has the effect of that. -/
def State.front (s : State) (gid : Nat) : Option Instr × State :=
  match s.group gid with
  | none => (none, s)
  | some g =>
    if !s.mayIssue g then (none, s)
    else if (s.rcd g.launch).blk.prot && !g.copiesEqual then (none, s.loseOwner gid 0x1A)
    else
      let pc := g.issueAddress.getD 0
      let s := { s with cur := { gid := gid, pc := pc, lanes := g.wordLanes pc, len := 8 } }
      match s.wordFound gid pc.toNat with
      | (.wait, s) => (none, s)
      | (.fault r, s) => (none, s.fetchFault g r)
      | (.bad w len e, s) => (none, { s with cur := { s.cur with len := len } }.trapWord g (stallOf w) (Reject.cause e) 0)
      | (.ok i len, s) => (some i, { s with cur := { s.cur with len := len } })

/-- A word that has moved a lane of its own gives up the bytes fetched for it from outside this device's memory. -/
def State.dropFetched (s : State) : State :=
  match s.group s.cur.gid with
  | none => s
  | some g =>
    if g.fetched.isEmpty then s
    else if (lanesOf s.cur.lanes).any fun l => (g.lane l).pc != s.cur.pc || decide ((g.lane l).st ≠ .eligible) then
      s.setGroup s.cur.gid { g with fetched := [] }
    else s

/-! ### Ports and readiness (R113, R115, R116) -/

/-- The port of a core that a word takes (R116): 1 the matrix engine, 2 the core copy engine, 3 the Sphinx array, 4 + n engine queue
register n, 0 none. CPG and the filling of memory go to the quadrant's engine, which is no port of the core (R239). -/
def portOf (i : Instr) : Nat :=
  match i with
  | .mxmul .. | .mxzero .. | .mxld .. | .mxst .. | .mxsel24 .. => 1
  | .cptLd .. | .cptSt .. | .cps .. | .cpr .. | .cpfill .. => 2
  | .sxload .. | .sxbias .. | .sxclamp .. | .sxrun .. | .sxread .. | .sxkey .. | .sxjoin .. | .sxhealth .. => 3
  | .ldQue _ _ n => 4 + n.toNat
  | .stQue _ _ n => 4 + n.toNat
  | _ => 0

/-- The order in which groups take a port: by admission (R116). -/
def admittedBefore (a b : Group) : Bool :=
  decide (a.admitted < b.admitted) || (a.admitted == b.admitted && (decide (a.slot < b.slot) || (a.slot == b.slot && decide (a.quarter < b.quarter))))

/-- Do the ports that two groups' words take coincide? An engine queue register is its team's. -/
def samePort (a b : Group) (x y : Nat) : Bool := x ≠ 0 && x == y && (x < 4 || a.team == b.team)

/-- The guard of an instruction, as its word has it (R301). -/
def guardOf (i : Instr) : Nat × Bool :=
  let w := (encode i).1
  if w.getLsbD 63 then (7, false) else ((BitVec.extractLsb' 8 3 w).toNat, w.getLsbD 7)

/-- Beats that a word runs with these active lanes (R153, R165). -/
def beatsOf (prot : Bool) (m : BitVec 32) : Nat :=
  ((List.range 4).filter fun b => (lanesOf m).any fun l => (if prot then l % 2 * 2 + l / 16 else l / 8) == b).length

/-- Is port x, as group a of the core takes it, held by a word that has not run its last beat there (R116)? -/
def State.portHeld (s : State) (a : Group) (x : Nat) : Bool :=
  (s.residents a.core).any fun p => decide (s.clk < p.2.portTill) && samePort a p.2 x p.2.lastPort

/-- The port that a group's next word takes, if no hold applies to the group and its next word has every register operand (R113). A word
that will trap takes none. -/
def State.readyPort (s : State) (gid : Nat) (g : Group) : Option Nat :=
  if !s.unheld g then none
  else
    let pc := g.issueAddress.getD 0
    match ({ s with cur := { gid := gid, pc := pc, lanes := g.wordLanes pc, len := 8 } }.wordFound gid pc.toNat).1 with
    | .wait => none
    | .fault _ => some 0
    | .bad .. => some 0
    | .ok i _ => if s.interlocked gid g (lanesOf (g.wordLanes pc)) (instrUses i) (guardOf i).1 then none else some (portOf i)

/-- Is a group ready: such a word, and the word's port free, which the group admitted first takes (R113, R116)? -/
def State.isReady (s : State) (gid : Nat) (g : Group) : Bool :=
  match s.readyPort gid g with
  | none => false
  | some x => x == 0 || (!s.portHeld g x && !(s.residents g.core).any fun p => p.1 != gid && admittedBefore p.2 g &&
      (match s.readyPort p.1 p.2 with | some y => samePort g p.2 x y | none => false))

/-! ### Time (R35, R298, R310) -/

/-- Issue cycles among the first n core cycles at duty d/16 (R29). -/
def issueCount (d n : Nat) : Nat := n / 16 * d + ((List.range (n % 16)).filter fun c => decide (c * d % 16 < d)).length

/-- e core cycles pass for a group: an open window counts them, and a group that is ready waits through the issue cycles among
them (R115, R298). -/
def State.pass (s : State) (e gid : Nat) (g : Group) : Group :=
  let d := (s.die (g.core / 24)).duty
  { g with
    buckets := if g.depthNp = 0 || !g.resident then g.buckets else match g.buckets with | [] => [e] | b :: r => (b + e) :: r
    waited := if s.isReady gid g then g.waited + (issueCount d (s.clk + e) - issueCount d s.clk) else g.waited }

/-- Core cycles pass: some number of them, but no more than are left of the present bucket, whose end is a step of its own (R298). -/
def State.tick (s : State) : State :=
  let (n, s) := s.draw
  let e := Nat.min (Config.elapsed n) ((s.bucketNo + 1) * 125000 - s.clk)
  { s with clk := s.clk + e, uptime := if s.mgmt.boot = .off then s.uptime else s.uptime + e, groups := s.groups.map fun p => (p.1, p.2.map (s.pass e p.1)) }

/-- Is a bucket boundary due (R298)? -/
def State.bucketDue (s : State) : Bool := decide (s.bucketNo < s.clk / 125000)

/-- A step ends: the clock moves. -/
def endStep (o : Host.Outcome State Fault Refusal) : Host.Outcome State Fault Refusal :=
  match o with
  | .next s => .next s.tick
  | .fault r => .fault r
  | .refused r => .refused r

/-! ### Whose turn it is (R113, R115, R116) -/

/-- Has the group issued in this core cycle? -/
def Group.issuedAt (g : Group) (clk : Nat) : Bool := g.lastIssue == clk && decide (clk < g.readyAt)

/-- Does group a issue before group b (R113, R115)? -/
def issuesBefore (s : State) (a b : Nat × Group) : Bool :=
  let boost := fun (g : Group) => decide (1024 < g.waited)
  let pri := fun (g : Group) => (s.rcd g.launch).blk.pri
  if boost a.2 != boost b.2 then boost a.2
  else if boost a.2 && a.2.waited ≠ b.2.waited then decide (b.2.waited < a.2.waited)
  else if pri a.2 ≠ pri b.2 then decide (pri b.2 < pri a.2)
  else if a.2.backoff ≠ b.2.backoff then decide (a.2.backoff < b.2.backoff)
  else if a.2.admitted ≠ b.2.admitted then decide (a.2.admitted < b.2.admitted)
  else decide (a.2.slot < b.2.slot)

/-- The port of the word that a group issues if it is tried now, 0 also where a fetch or a decode that faults is all that happens; none while
it has no word to issue: an operand, the word's bytes or an engine make it wait. `run` is the meaning of a word. -/
def State.tries (s : State) (run : Instr → State → Host.Outcome State Fault Refusal) (gid : Nat) : Option Nat :=
  match s.front gid with
  | (some i, s1) =>
    (match run i s1 with
     | .next t => (match t.group gid with | some g => if s.clk < g.readyAt then some (portOf i) else none | none => some (portOf i))
     | _ => none)
  | (none, s1) =>
    match s.group gid, s1.group gid with
    | some g, some g1 => if g.eligible = g1.eligible ∧ g.preempt = g1.preempt then none else some 0
    | some _, none => some 0
    | none, _ => none

/-- Is it a group's turn to issue: its quarter has issued nothing in this cycle, no group of the quarter that can issue stands before
it, and no group of the core takes its port first (R113, R116)? -/
def State.turn (s : State) (run : Instr → State → Host.Outcome State Fault Refusal) (gid : Nat) : Bool :=
  match s.group gid with
  | none => true
  | some g =>
    let others := (s.residents g.core).filter fun p => p.1 != gid
    if others.isEmpty then decide (g.portTill ≤ s.clk) || !(s.portHeld g ((s.tries run gid).getD 0))
    else
      let port := fun (p : Nat × Group) => if s.mayIssue p.2 then s.tries run p.1 else none
      let words := ((s.residents g.core).map fun p => (p, port p)).filter fun x => x.2.isSome
      -- is the port x that group a asks for taken, or asked for by a group admitted earlier?
      let blocked := fun (id : Nat) (a : Group) (x : Nat) => s.portHeld a x ||
        words.any fun w => w.1.1 != id && admittedBefore w.1.2 a && samePort a w.1.2 x (w.2.getD 0)
      !(others.any fun p => p.2.quarter == g.quarter && p.2.issuedAt s.clk) &&
      !(blocked gid g ((port (gid, g)).getD 0)) &&
      !(words.any fun w => w.1.1 != gid && w.1.2.quarter == g.quarter && issuesBefore s w.1 (gid, g) && !blocked w.1.1 w.1.2 (w.2.getD 0))

/-- The word has gone to its port, and the group waits no longer (R115, R116). -/
def State.usePort (s : State) (i : Instr) : State :=
  match s.group s.cur.gid with
  | some g =>
    if g.issuedAt s.clk then
      let x := portOf i
      s.setGroup s.cur.gid { g with
        lastPort := x, waited := 0
        portTill := if x = 0 then g.portTill else s.clk + Nat.max 1 (beatsOf (s.rcd g.launch).blk.prot
          (guardLanes g s.cur.lanes (guardOf i).1 (guardOf i).2)) }
    else s
  | none => s

/-- A word ends. -/
def endWord (i : Instr) (o : Host.Outcome State Fault Refusal) : Host.Outcome State Fault Refusal :=
  match o with
  | .next s => .next (s.usePort i).dropFetched.tick
  | .fault r => .fault r
  | .refused r => .refused r

/-! ### The machine's own choice (R113, R115, R158) -/

/-- What the machine does next when the agenda is empty. -/
inductive Auto where
  | run (i : Instr)
  | issue (gid : Nat)
  | idle
deriving DecidableEq, Repr

/-- The quarter of a group, numbered over the device. -/
def Group.quarterNo (g : Group) : Nat := 4 * g.core + g.quarter

/-- The group that the machine's own choice lets issue: the quarters that have a group to issue are served in turn, and in a quarter
the group whose turn it is. -/
def State.nextGroup (s : State) (run : Instr → State → Host.Outcome State Fault Refusal) : Option Nat :=
  let rs := (listed s.groups).filter fun p => s.mayIssue p.2
  let order := fun (q : Nat) => (q + 768 - s.served - 1) % 768
  match leastBy (fun (a b : Nat × Group) => decide (order a.2.quarterNo < order b.2.quarterNo)) rs with
  | none => none
  | some p =>
    let qs := sortBy (issuesBefore s) (rs.filter fun x => x.2.quarterNo == p.2.quarterNo)
    match qs.find? fun x => s.turn run x.1 && (s.tries run x.1).isSome with
    | some x => some x.1
    | none => some p.1

/-- The step that executes the command in the mailbox. -/
def Mgmt.command (m : Mgmt) : Instr :=
  match m.op.toNat, decide (m.arg.toNat < 4), decide (m.arg.toNat < 8), decide (m.arg.toNat < 8192) with
  | 1, _, _, _ => .logread
  | 2, _, _, true => .imgwrite
  | 3, _, _, _ => .imgcommit
  | 4, _, _, _ => .attest
  | 5, true, _, _ => .cert
  | 0x10, _, true, _ => .dieFence
  | 0x11, _, true, _ => .diereset
  | 0x12, _, true, _ => .resume
  | 0x20, _, _, _ => .budget
  | _, _, _, _ => .unknownMailboxOp

/-- The next thing of the machine's own: a command of the mailbox, a result that lands, an RJOIN that completes, a word of some
quarter. -/
def State.auto (s : State) (run : Instr → State → Host.Outcome State Fault Refusal) : Auto :=
  if s.mgmt.started then .run s.mgmt.command
  else
  match (listed s.groups).find? fun p => !p.2.landings.isEmpty with
  | some p => .run (.resultLands p.1 ((p.2.landings.head?.map (·.lane)).getD 0))
  | none =>
    match (listed s.groups).find? fun p => p.2.resident && p.2.joinDue && s.settled p.1 p.2 with
    | some p => .run (.rjoinComplete p.1)
    | none =>
      match s.nextGroup run with
      | some g => .issue g
      | none => .idle

end Sys2Proof.Machine
end

