-- ==== Sys2Proof/Machine/Lanes.lean ====
section
/-! DEFINITION. Lanes.lean: what happens to the lanes of a group between its words: results that land (R315), joins and trap
handling (R150, R151, R284), releases from parks (R152, R455), ends of waits (R114, R354, R392), and windows (R298, R299). -/
namespace Sys2Proof.Machine

/-! ### RESULT_LANDS (R216, R315) -/

/-- A result reaches its registers; a result of an exited lane is discarded (R352). -/
def Group.land (g : Group) (d : Landing) : Group :=
  if d.lane = 32 then g.setGrs d.writes
  else if (g.lane d.lane).st = .exited then g
  else
    let ln := ((g.lane d.lane).setRegs d.writes).setPreds d.preds
    g.setLane d.lane { ln with flags := ln.flags ||| d.flags }

/-- The oldest result of a lane lands; lane 32 stands for a g register. -/
def State.resultLands (s : State) (gid l : Nat) : State :=
  match s.group gid with
  | none => s
  | some g =>
    match g.landings.find? fun d => d.lane == l with
    | none => s
    | some d => s.setGroup gid { g.land d with landings := g.landings.erase d }

def execResultLands (gid lane : Nat) (s : State) : Host.Outcome State Fault Refusal := .next (s.resultLands gid lane)

/-! ### Trap handling (R151, R284) -/

/-- The trap record of a lane: the PC of the faulting word, and the first faulting byte address. -/
def Lane.record (l : Lane) : List Byte := toLE 8 l.pc.toNat ++ toLE 8 l.addr.toNat

/-- The lane starts at HANDLER, in handler mode (R284). -/
def Lane.enter (l : Lane) (handler : DWord) : Lane :=
  { l with st := .eligible, park := .none, ready := false, handler := true, pc := handler, replayJoin := false }

/-- A trapped lane writes its record and starts at HANDLER; a P-class fault on the write parks it until it can be written, and
any other ends the launch. False while a line that the write's walk needs is being recalled. -/
def State.enterHandler (s : State) (gid l : Nat) : Bool × State :=
  match s.group gid with
  | none => (true, s)
  | some g =>
    let rc := s.rcd g.launch
    let cx := s.ctx rc.ctx
    let c : Ctl := { gid := gid, g := g, act := BitVec.ofNat 32 (2 ^ l), pc := (g.lane l).pc, len := 0, u := false, prot := rc.blk.prot }
    match s.storeLocal c l (g.lane l).record (cx.locBytes - 16) with
    | (.done .., s) =>
      (true, match s.group gid with
        | some g => s.setGroup gid (g.setLane l ((g.lane l).enter g.handlerPc))
        | none => s)
    | (.pfault code acc va lo hi, s) =>
      let s := match s.group gid with
        | some g => s.setGroup gid (g.setLane l { g.lane l with handler := true })
        | none => s
      (true, s.parkFault gid l code acc va lo hi true)
    | (.trap .., s) => (true, s.endLaunch g.launch .fault 0x1C)
    | (_, s) => (false, s)

/-- Trap handling begins: J-class lanes return to their words; the others form the handler subgroup, or end the launch where
no handler can run (R151, R284). -/
def State.beginHandling (s : State) (gid : Nat) (g : Group) : State :=
  let cx := s.ctx (s.ctxOf g)
  let tr := lanes32.filter fun l => decide ((g.lane l).st = .trapped)
  let js := tr.filter fun l => (g.lane l).replayJoin
  let ts := tr.filter fun l => !(g.lane l).replayJoin
  let g := js.foldl (fun (g : Group) l => g.setLane l { g.lane l with st := .eligible, replayJoin := false }) g
  match ts with
  | [] => s.setGroup gid g
  | t :: _ =>
    if !cx.ten || cx.locsz = 0 then s.endLaunch g.launch .fault ((g.lane t).cause.toNat % 256)
    else
      -- a later write of HANDLER does not change it (R282)
      let g := { g with handlerPc := (cx.handler ++ 0#3).zeroExtend 64 }
      let q := ts.foldl (fun (acc : Bool × State) l => if acc.1 then acc.2.enterHandler gid l else acc) (true, s.setGroup gid g)
      -- a record whose write must wait for a recall is tried again with the others
      if !q.1 then { q.2 with groups := s.groups }
      else
        match q.2.group gid with
        | some g => q.2.setGroup gid { g with handling := true }
        | none => q.2

/-! ### RJOIN_COMPLETE (R150, R151) -/

/-- Joining lanes of the group, or of its handler subgroup while that runs. -/
def Group.joining (g : Group) : List Nat :=
  lanes32.filter fun l => decide ((g.lane l).st = .joining) && (!g.handling || (g.lane l).handler)

/-- The address of the RJOIN that is complete: the lowest with joining lanes, when no eligible lane lies below it. -/
def Group.joinAt (g : Group) : Option DWord :=
  match leastBy (fun (a b : DWord) => decide (a.toNat < b.toNat)) (g.joining.map fun l => (g.lane l).pc) with
  | some a => if g.eligible.any fun l => decide ((g.lane l).pc.toNat < a.toNat) then none else some a
  | none => none

/-- Is some lane trap-parked, with no handling under way? -/
def Group.trapsWait (g : Group) : Bool := !g.handling && lanes32.any fun l => decide ((g.lane l).st = .trapped)

/-- Joining lanes at a go on past it, and the rotation floor is cleared. -/
def Group.passJoin (g : Group) (a : DWord) : Group :=
  (g.joining.filter fun l => (g.lane l).pc == a).foldl (fun (g : Group) l =>
    g.setLane l { g.lane l with st := .eligible, pc := a + 8 }) { g with floor := none, mask := 0 }

/-- An RJOIN completes, or trap handling begins; either waits for the group's results (R314). -/
def State.rjoinComplete (s : State) (gid : Nat) : State :=
  match s.group gid with
  | none => s
  | some g0 =>
    if !g0.resident || g0.handlerParked || !s.settled gid g0 then s
    else
      let g : Group := { g0 with hazards := [] }
      let allStuck := g.live.all fun l => decide ((g.lane l).st ≠ .eligible)
      match g.joinAt with
      | some a => if g.trapsWait then s.beginHandling gid g else s.setGroup gid (g.passJoin a)
      | none => if g.trapsWait && allStuck then s.beginHandling gid g else s

def execRjoinComplete (gid : Nat) (s : State) : Host.Outcome State Fault Refusal := .next (s.rjoinComplete gid)

/-! ### LANE_RELEASE (R152) -/

/-- A parked lane whose condition is met leaves its park, both copies under PROT (R166); a lane at handler entry writes its trap record
first (R284). -/
def State.laneRelease (s : State) (gid l : Nat) : State :=
  match s.group gid with
  | none => s
  | some g =>
    let prot := (s.rcd g.launch).blk.prot
    let l := if prot then l / 2 * 2 else l
    let ln := g.lane l
    if !g.resident || ln.st ≠ .parked || !s.parkMet gid g l then s
    else
      match ln.park with
      | .handlerEntry _ => if prot then ((s.enterHandler gid l).2.enterHandler gid (l + 1)).2 else (s.enterHandler gid l).2
      | _ => s.onLane gid l Lane.release

def execLaneRelease (gid lane : Nat) (s : State) : Host.Outcome State Fault Refusal := .next (s.laneRelease gid lane)

/-! ### Holds that run out (R114, R354, R392, R455) -/

/-- The hold of a failed POLL runs out (R114). -/
def State.backoffExpiry (s : State) (gid : Nat) : State :=
  match s.group gid with
  | some g => if g.held && decide (g.readyAt ≤ s.clk) then s.setGroup gid { g with held := false } else s
  | none => s

def execBackoffExpiry (gid : Nat) (s : State) : Host.Outcome State Fault Refusal := .next (s.backoffExpiry gid)

/-- A SLEEP ends (R354). -/
def State.sleepExpiry (s : State) (gid : Nat) : State :=
  match s.group gid with
  | some g => if g.asleep && decide (g.readyAt ≤ s.clk) then s.setGroup gid { g with asleep := false } else s
  | none => s

def execSleepExpiry (gid : Nat) (s : State) : Host.Outcome State Fault Refusal := .next (s.sleepExpiry gid)

/-- An engine has room: lanes that wait for it replay in the order in which they parked (R455). -/
def execEngineRoomFree (e : Engine) (s : State) : Host.Outcome State Fault Refusal := .next (s.freeRoom e)

/-- The timed read of a MONWAIT that watches here: its value, once its line can be read. -/
def State.timedValue (s : State) (t : Txn) (q : Part) : Option Nat × State :=
  match t.tgt with
  | .scr uid => (some (leNat (s.readScratch uid q.addr q.len)), s)
  | _ => if s.lineFree none t.line then (some (s.wordAt q.addr q.len), s) else (none, s.recall t.line)

/-- A MONWAIT has waited 65,536 core cycles: it reads once more, and goes on whatever it reads (R392). -/
def State.monwaitTimeout (s : State) (gid l : Nat) : State :=
  match s.group gid with
  | none => s
  | some g =>
    match (g.lane l).park with
    | .monitor id =>
      (match s.txn id with
       | none => s
       | some t =>
         match t.parts.find? fun q => q.lane == l with
         | none => s
         | some q =>
           match q.op, t.tgt with
           | .monitor _ wide _ d, .cell | .monitor _ wide _ d, .scr _ =>
             if t.tgt = .cell ∧ s.poisonedRange q.addr q.len = true then
               (match s.poisonFault noCore q.addr q.len 0 q.va with
                | .pfault code acc va lo hi =>
                  let ps := t.parts.filter fun r => r.lane != l
                  (s.setTxn id (if ps.isEmpty then none else some { t with parts := ps })).parkFault gid l code acc va lo hi false
                | _ => s)
             else
               (match s.timedValue t q with
                | (none, s) => s
                | (some v, s) =>
                  let ps := t.parts.filter fun r => r.lane != l
                  (s.onLane gid l fun ln => ln.monDone wide d.toNat v).setTxn id (if ps.isEmpty then none else some { t with parts := ps }))
           | .monitor .., _ =>
             s.setTxn id (some { t with accepted := false, parts := t.parts.map fun r => if r.lane = l then { r with timed := true } else r })
           | _, _ => s)
    | _ => s

def execMonwaitTimeout (gid lane : Nat) (s : State) : Host.Outcome State Fault Refusal := .next (s.monwaitTimeout gid lane)

/-! ### Windows (R298, R299) -/

/-- A group whose window has run out leaves its core: it is saved by itself and comes back when its core has room (R299). One that
has no place, or that its team takes along, traps its lanes where it stands, or when it comes back. -/
def State.leaveOverrun (s : State) (gid : Nat) : State :=
  match s.group gid with
  | none => s
  | some g =>
    if !g.resident || (match g.team.bind s.team with | some t => t.stopping | none => false) then s
    else if (s.savePlace g).isNone then
      g.eligible.foldl (fun (s : State) l => s.takeTrap gid l 0x36 0 0) (s.setGroup gid { g with overrun := false, preempt := false })
    else
      let r := s.suspendGroup gid
      match r.2.group gid with
      | some g => if r.1 && !g.resident then { r.2.setGroup gid { g with jwaitEnded := r.2.next } with next := r.2.next + 1 } else r.2
      | none => r.2

/-- A window has been open for its 100,000 cycles: its depth falls to 0, and the group is pre-empted at its next boundary; every
eligible lane traps when it resumes (R299). -/
def State.npOverrun (s : State) (gid : Nat) : State :=
  match s.group gid with
  | none => s
  | some g =>
    if g.overrun then s.leaveOverrun gid
    else if g.depthNp = 0 || g.windowCycles < windowMax then s
    else (s.setGroup gid { g with depthNp := 0, overrun := true, preempt := true }).leaveOverrun gid

def execNpOverrun (gid : Nat) (s : State) : Host.Outcome State Fault Refusal := .next (s.npOverrun gid)

/-- A bucket of 125,000 core cycles ends: the one before the last 16 is dropped (R298). Those of a suspended group age as
well; what is too old is dropped when it resumes, so that its total stays the one in its frame (log entry 66). -/
def Group.shiftBuckets (g : Group) : Group :=
  if g.buckets.isEmpty then g else { g with buckets := if g.resident then (0 :: g.buckets).take 17 else 0 :: g.buckets }

/-- BUCKET_BOUNDARY: a boundary that the clock has passed (R298). -/
def State.bucketBoundary (s : State) : State :=
  if s.bucketDue then
    { s with bucketNo := s.bucketNo + 1, groups := s.groups.map fun p => (p.1, p.2.map Group.shiftBuckets) }
  else s

def execBucketBoundary (s : State) : Host.Outcome State Fault Refusal := .next s.bucketBoundary

end Sys2Proof.Machine
end

