-- ==== Sys2Proof/Machine/Preempt.lean ====
section
/-! DEFINITION. Preempt.lean: host pre-emption, resumption and cuts (R290 to R296), and the drain of a core (R300). -/
namespace Sys2Proof.Machine

/-! ### What a pre-emption takes (R290, R291, R295) -/

/-- Full/empty bits that a team's scratchpad has. -/
def State.bitsOf (s : State) (t : Team) : Nat := 64 * (s.rcd t.task.lrec).blk.scr
/-- Bits that the Fantail collector's store holds, and bits in use or reserved (R295). -/
def fantailBits : Nat := 4 * (4 * 2 ^ 20 * 8)
/-- Are the bits of a team held there, or is room for them reserved: it is suspended, is to stop, or its launch is being cut? -/
def State.bitsKept (s : State) (t : Team) : Bool :=
  decide (t.st = .suspended) || t.stopping || s.ctxs.any fun p => decide (p.2.popSt = .cut t.task.lrec)
def State.bitsUsed (s : State) : Nat :=
  sumN (((listed s.teams).filter fun p => s.bitsKept p.2).map fun p => s.bitsOf p.2)
/-- Can the store take the bits of these teams too? -/
def State.bitsFree (s : State) (ts : List (Nat × Team)) : Bool :=
  s.bitsUsed + sumN ((ts.filter fun p => !s.bitsKept p.2).map fun p => s.bitsOf p.2) ≤ fantailBits

/-- A team is to stop: its groups issue no further word once no window of theirs is open (R291, R297). -/
def State.stopTeam (s : State) (uid : Nat) : State :=
  match s.team uid with
  | none => s
  | some t =>
    if t.st = .suspended then s
    else (s.teamGroups uid).foldl (fun (s : State) p => if p.2.resident then s.setGroup p.1 { p.2 with preempt := true } else s)
      (s.setTeam uid { t with stopping := true })

/-- A team need not stop after all; a group whose window has overrun still leaves (R290, R299). -/
def State.unstopTeam (s : State) (uid : Nat) : State :=
  match s.team uid with
  | none => s
  | some t =>
    (s.teamGroups uid).foldl (fun (s : State) p => s.setGroup p.1 { p.2 with preempt := p.2.overrun }) (s.setTeam uid { t with stopping := false })

/-- Frames of a launch's spawn save pool that neither hold a group nor are kept for one that is to stop (R135). -/
def State.poolFree (s : State) (r : Nat) : Nat :=
  (s.rcd r).blk.poolSize -
    sumN ((s.groupsOf r).map fun p => if p.2.resident then (if p.2.preempt && p.2.team.isNone then p.2.poolFrames else 0) else p.2.pool.length)

/-- Spawned groups that are to stop do so as far as the pool has frames for them; the others run on (R140). -/
def State.stopKids (s : State) (gs : List (Nat × Group)) : State :=
  gs.foldl (fun (s : State) p =>
    if p.2.team.isNone && p.2.resident && !p.2.preempt && decide (p.2.poolFrames ≤ s.poolFree p.2.launch) then
      s.setGroup p.1 { p.2 with preempt := true }
    else s) s

/-- All teams of a launch are to stop, and its spawned groups. -/
def State.stopLaunch (s : State) (r : Nat) : State :=
  let s := (s.teamsOf r).foldl (fun (s : State) p => s.stopTeam p.1) s
  s.stopKids (s.groupsOf r)

/-! ### PRE_EMPT, POP_RESUME and CUT (R290, R296) -/

/-- Launches held, and those that a cut in progress will hold. -/
def State.heldCount (s : State) : Nat :=
  (s.recs.filter fun p => p.2.hold).length +
  (s.ctxs.filter fun p => match p.2.popSt with | .cut _ => true | _ => false).length

/-- The outcome of a command. -/
def State.popDone (s : State) (k : Nat) (res : Nat) : State :=
  s.setCtx k { s.ctx k with popSt := .idle, pres := BitVec.ofNat 8 res }

/-- POP 1 and POP 3 for launch r; `cut` says which. Where several results apply, BADREC comes first, then that the launch is held already,
HELDMAX and NOROOM (DESIGN CHOICE, log entry 153). -/
def State.popHold (s : State) (k r : Nat) (cut : Bool) : State :=
  let rc := s.rcd r
  if rc.st ≠ .running ∨ rc.ctx ≠ k then s.popDone k 1
  else if rc.hold then s.popDone k 0
  else if 4 ≤ s.heldCount then s.popDone k 4
  else if !s.bitsFree (s.teamsOf r) then s.popDone k 2
  else if cut then s.setCtx k { s.ctx k with popSt := .cut r, pres := 0 }
  else (s.setCtx k { s.ctx k with popSt := .preempt r none, pres := 0 }).setRec r { rc with hold := true } |>.stopLaunch r

/-- POP 2: the hold of launch r is lifted. -/
def State.popResume (s : State) (k r : Nat) : State :=
  let rc := s.rcd r
  if rc.st ≠ .running ∨ rc.ctx ≠ k then s.popDone k 1
  else (if rc.hold then s.setRec r { rc with hold := false } else s).popDone k 0

/-- A write of register 0x0D0 of context k: ignored whole while a command executes (R282). -/
def State.popWrite (s : State) (k v : Nat) : State :=
  let c := s.ctx k
  if c.popSt ≠ .idle then s
  else
    let pop := nbits v 13 12
    let r := nbits v 11 0
    let s := s.setCtx k { c with pop := BitVec.ofNat 2 pop, prec := BitVec.ofNat 12 r }
    if pop = 1 then s.popHold k r false else if pop = 2 then s.popResume k r else if pop = 3 then s.popHold k r true else s

/-- The command that a step of the agenda carries, if it is of the given kind. -/
def State.popInput (s : State) (pop : Nat) : State :=
  match s.input with
  | .ctxWrite k _ v => if nbits v.toNat 13 12 = pop then s.popWrite (k % 64) v.toNat else s
  | _ => s

def execPreEmpt (s : State) : Host.Outcome State Fault Refusal := .next (s.popInput 1)
def execPopResume (s : State) : Host.Outcome State Fault Refusal := .next (s.popInput 2)
def execCut (s : State) : Host.Outcome State Fault Refusal := .next (s.popInput 3)

/-! ### PREEMPTION_COMPLETE (R291, R292, R296) -/

/-- May every team of a gang leave its core now? -/
def State.gangStops (s : State) (us : List Nat) : Bool :=
  us.all fun u =>
    match s.team u with
    | none => true
    | some t => decide (t.st = .suspended) || (s.enginesStop u && (s.teamGroups u).all fun p => !p.2.resident || s.stoppable p.1 p.2)

/-- Teams of context k that are to stop and can are suspended, a gang together (R159, R292). -/
def State.suspendStopping (s : State) (k : Nat) : State :=
  let us := ((listed s.teams).filter fun p => p.2.stopping && (s.rcd p.2.task.lrec).ctx == k &&
    decide ((s.rcd p.2.task.lrec).st = .running)).map (·.1)
  us.foldl (fun (s : State) u =>
    let gang := (s.gangOf u).map (·.1)
    if s.gangStops gang then gang.foldl (fun (s : State) x => (s.suspendTeam x).2) s else s) s

/-- Spawned groups of context k that are to stop and can are saved to the pool; of a held launch also those that were to run on,
where they are suspendable (R135, R140). -/
def State.suspendKids (s : State) (k : Nat) : State :=
  let kids := (listed s.groups).filter fun p => p.2.team.isNone && p.2.resident && (s.rcd p.2.launch).ctx == k &&
    decide ((s.rcd p.2.launch).st = .running)
  kids.foldl (fun (s : State) p =>
    if p.2.preempt || ((s.rcd p.2.launch).hold && p.2.waits && decide (p.2.poolFrames ≤ s.poolFree p.2.launch)) then (s.suspendGroup p.1).2
    else s) s

/-- The ending launches of context k stop where they can (R76, R92). -/
def State.settleEnds (s : State) (k : Nat) : State :=
  ((s.recs.filter fun p => p.2.ctx == k && decide (p.2.st = .ending)).map (·.1)).foldl (fun (s : State) r => s.settleEnd r) s

/-- The greatest %step among the team groups of a launch that a cut holds (R296). -/
def maxStep (gs : List (Nat × Group)) : Nat := gs.foldl (fun m p => Nat.max m p.2.step.toNat) 0

/-- The cut's holds end. -/
def State.endHolds (s : State) (r : Nat) : State :=
  (s.groupsOf r).foldl (fun (s : State) p => if p.2.atStep then s.setGroup p.1 { p.2 with atStep := false } else s) s

/-- A cut goes on: groups below the greatest held step run to their next STEP; with all of them there the launch is held
(R296). -/
def State.advanceCut (s : State) (k r : Nat) : State :=
  let gs := (s.groupsOf r).filter fun p => p.2.team.isSome && !p.2.live.isEmpty
  if (s.rcd r).st ≠ .running ∨ (s.rcd r).ctx ≠ k then s.popDone k 0
  else if !gs.all (fun p => p.2.atStep) then s
  else
    let m := maxStep gs
    let low := gs.filter fun p => decide (p.2.step.toNat < m)
    if low.isEmpty then
      -- room for the bits of teams that were placed meanwhile as well, before the save begins (R295)
      if fantailBits < s.bitsUsed then (s.endHolds r).popDone k 2
      else ((s.setCtx k { s.ctx k with popSt := .preempt r (some m) }).setRec r { s.rcd r with hold := true }).stopLaunch r
    else low.foldl (fun (s : State) p => s.setGroup p.1 { p.2 with atStep := false }) s

/-- PREEMPTION_COMPLETE: what has been asked to stop in context k and has stopped is saved; with all of it saved the command
ends (R292). -/
def State.preemptionComplete (s : State) (k : Nat) : State :=
  let s := ((s.settleEnds k).suspendStopping k).suspendKids k
  match (s.ctx k).popSt with
  | .idle => s
  | .cut r => s.advanceCut k r
  | .preempt r cut =>
    if (s.groupsOf r).any (fun p => p.2.resident) || (s.teamsOf r).any (fun p => decide (p.2.st ≠ .suspended)) then s
    else
      let s := s.endHolds r
      let c := s.ctx k
      (s.setCtx k { c with cutstep := match cut with | some m => BitVec.ofNat 32 m | none => c.cutstep }).popDone k 0

def execPreemptionComplete (k : Nat) (s : State) : Host.Outcome State Fault Refusal := .next (s.preemptionComplete k)

/-! ### CUT_TIMEOUT and draining a core (R290, R296, R300) -/

/-- Teams and gangs with a team on the core. -/
def State.drainTeams (s : State) (core : Nat) : List Nat := ((s.coreTeams core).flatMap fun p => (s.gangOf p.1).map (·.1)).eraseDups

/-- Does the drain of a core stop this team, or a spawned group on this core (R290, R300)? -/
def State.drained (s : State) (uid : Option Nat) (core : Nat) : Bool :=
  s.mgmt.tests.any fun p => decide (p.2 = .draining) && (match uid with
    | some u => (s.drainTeams p.1).contains u
    | none => p.1 == core)

/-- CUT_TIMEOUT: the launch runs on (R296), but for what the drain of a core stops as well (R290). -/
def State.cutTimeout (s : State) (k : Nat) : State :=
  let off := fun (s : State) (r : Nat) =>
    let s := (s.endHolds r).setRec r { s.rcd r with hold := false }
    let s := (s.teamsOf r).foldl (fun (s : State) p => if p.2.stopping && !s.drained (some p.1) p.2.core then s.unstopTeam p.1 else s) s
    ((s.groupsOf r).foldl (fun (s : State) p => if p.2.preempt && !p.2.overrun && !s.drained p.2.team p.2.core then s.setGroup p.1 { p.2 with preempt := false } else s) s).popDone k 3
  match (s.ctx k).popSt with
  | .cut r => off s r
  | .preempt r (some _) => off s r
  | _ => s

def execCutTimeout (k : Nat) (s : State) : Host.Outcome State Fault Refusal := .next (s.cutTimeout k)

/-- Has a group on the core an open window? -/
def State.windowOpen (s : State) (core : Nat) : Bool := (s.residents core).any fun p => decide (p.2.depthNp ≠ 0)

/-- Have all spawned groups on the core together a place in their pools (R300)? -/
def State.kidsSavable (s : State) (core : Nat) : Bool :=
  let kids := (s.residents core).filter fun p => p.2.team.isNone
  ((kids.map fun p => p.2.launch).eraseDups).all fun r =>
    decide (sumN ((kids.filter fun p => p.2.launch == r && !p.2.preempt).map fun p => p.2.poolFrames) ≤ s.poolFree r)

/-- Everything on the core is to stop. -/
def State.drain (s : State) (core : Nat) : State :=
  let s := (s.drainTeams core).foldl (fun (s : State) u => s.stopTeam u) s
  (s.residents core).foldl (fun (s : State) p => s.setGroup p.1 { p.2 with preempt := true }) s

end Sys2Proof.Machine
end

