-- ==== Sys2Proof/Machine/Serve.lean ====
section
/-! DEFINITION. Serve.lean: the home slices at work (R16, R178, R179, R188, R189, R204 to R208): when a request may be served, loads,
stores and atomics at the home and in L1, monitors and polls, program queues (R394, R395), acknowledgements and walks. -/
namespace Sys2Proof.Machine

/-! ### Delivering (R188, R352, R378) -/

/-- Results of a part reach its lane, and under PROT its shadow; an exited lane takes none. -/
def State.deliver (s : State) (gid l : Nat) (ws : List (Nat × Word)) (ps : List (Nat × Bool)) (fl : BitVec 5) : State :=
  s.onLane gid l fun ln =>
    if ln.st = .exited then ln
    else let ln := (ln.setRegs ws).setPreds ps
         { ln with flags := ln.flags ||| fl }

/-- The lane goes on past its word with results. -/
def State.passWord (s : State) (gid l : Nat) (ws : List (Nat × Word)) (ps : List (Nat × Bool)) : State :=
  s.onLane gid l fun ln => let ln := ((ln.setRegs ws).setPreds ps).unpark
                           { ln with pc := ln.pc + 8 }

/-- A lane whose access met poison after issue parks where it stands, and under PROT its shadow (R188); false when no lane is
there to park. -/
def State.parkPoison (s : State) (core : Nat) (t : Txn) (q : Part) (acc : Nat) : Bool × State :=
  match s.group t.gid with
  | none => (false, s)
  | some g =>
    if q.lane = 32 ∨ (g.lane q.lane).st = .exited then (false, s)
    else
      match s.poisonFault core q.addr q.len acc q.va with
      | .pfault code acc va lo hi =>
        let s := s.parkFault t.gid q.lane code acc va lo hi false
        (true, if (s.rcd g.launch).blk.prot then s.parkFault t.gid (q.lane + 1) code acc va lo hi false else s)
      | _ => (false, s)

/-- Keep these parts of a transaction; with none left it is over. -/
def State.keepParts (s : State) (id : Nat) (ps : List Part) : State :=
  match s.txn id with
  | none => s
  | some t => s.setTxn id (if ps.isEmpty then none else some { t with parts := ps })

/-- Is a part neither parked on a report nor waiting for a fresh translation: may it be performed where it points to? -/
def Part.live (q : Part) : Bool := !q.rep && !q.again

/-- The parts of a transaction that may be performed now, and those that may not. -/
def Txn.live (t : Txn) : Txn := { t with parts := t.parts.filter fun q => q.live }
def Txn.idle (t : Txn) : List Part := t.parts.filter fun q => !q.live

/-- Does some line wait for acknowledgements of what request id wrote? -/
def State.unacked (s : State) (id : Nat) : Bool := s.dir.any fun p => decide (p.2.waiting ≠ 0) && p.2.src == id

/-- The parts of a transaction are stores that wait for acknowledgements: it has been performed (R16, R204). -/
def State.performed (s : State) (id : Nat) : State :=
  match s.txn id with
  | none => s
  | some t =>
    if s.unacked id then
      s.setTxn id (some { t with accepted := true, parts := t.parts.map fun q => { q with op := .store, data := [] } })
    else s.setTxn id none

/-- A release at system scope whose waits are over finds that an earlier remote store of its thread has failed: its lanes fault with
LINK_LOST, once, and their parts are not sent (R66). None: it may go. -/
def State.lostRelease (s : State) (id : Nat) (t : Txn) : Option State :=
  let lost := fun (q : Part) => decide (q.lane < 32) && (match s.group t.gid with | some g => (g.lane q.lane).linkLost | none => false)
  if t.rel && t.scope = .sys && t.parts.any lost then
    some ((t.parts.filter lost).foldl (fun (s : State) q =>
      (s.onLane t.gid q.lane fun ln => { ln with linkLost := false }).lateBoth t.pc t.gid q.lane causeLinkLost (if q.op == .store then 1 else 2) q.va)
      (s.keepParts id (t.parts.filter fun q => !lost q)))
  else none

/-! ### Reads at the home (R174, R188, R378, R382) -/

/-- The bytes of a load as its core sees them: the thread's own local stores, its core's dirty bytes, committed memory. -/
def State.partBytes (s : State) (core : Nat) (q : Part) : List Byte :=
  (List.range q.len).map fun i => if q.mask.getD i false then q.data.getD i 0 else s.coreCell core (q.addr + i)

/-- Is a cell of it poisoned, its core's dirty bytes left out? -/
def State.partPoisoned (s : State) (core : Nat) (q : Part) : Option Nat :=
  (s.readCells q).find? fun c => s.loadPoisoned core c 1

/-- What a read part delivers: registers, predicates, flags, and for a poll whether its condition held. -/
def State.readPart (s : State) (core : Nat) (q : Part) : List (Nat × Word) × List (Nat × Bool) × BitVec 5 × Bool :=
  match q.op with
  | .load w d => (widthWrites w d.toNat (s.partBytes core q), [], 0, false)
  | .typed k pl f32 fmt blk n d =>
    (match typedBytes fmt pl blk k n with
     | .ok (offs, sc) =>
       let scale := match sc with | some o => (s.typedCells q [o]).head?.map fun c => (s.coreCell core c).toNat | none => none
       let x := typedElement fmt pl k n ((s.typedCells q offs).map fun c => s.coreCell core c)
       let r := decodeTyped (if f32 then fmt32 else fmtB16) fmt x scale
       ([(d.toNat, BitVec.ofNat 32 r.1)], [], r.2, false)
     | .error _ => ([], [], 0, false))
  | .poll cmp wide b pd d =>
    let v := leNat (s.partBytes core q)
    let met := monHolds cmp v (monB wide b)
    (valWrites wide d.toNat v, [(pd.toNat, met)], 0, met)
  | _ => ([], [], 0, false)

/-- A part that reads is served: it delivers, or its lane parks on poison and the part stays. -/
def State.serveRead (s : State) (id : Nat) (t : Txn) (q : Part) : State :=
  let drop := fun (s : State) => match s.txn id with | some t => s.keepParts id (t.parts.filter fun r => r.lane != q.lane || r.addr != q.addr) | none => s
  match s.partPoisoned t.core q with
  | some c =>
    (match s.parkPoison t.core t { q with addr := c, len := 1, va := if q.isTyped then q.va else q.va + (c - q.addr) } 0 with
     | (true, s) =>
       (match s.txn id with
        | some t => s.setTxn id (some { t with parts := t.parts.map fun r => if r = q then { r with rep := true } else r })
        | none => s)
     | (false, s) => drop s)
  | none =>
    let r := s.readPart t.core q
    let s := s.deliver t.gid q.lane r.1 r.2.1 r.2.2.1
    drop (match q.op with | .poll .. => s.pollNote t.gid t.word r.2.2.2 | _ => s)

/-- A monitor part is read: the lane completes, or it parks and its line is watched (R392). -/
def State.serveMonitor (s : State) (id : Nat) (t : Txn) (q : Part) (cmp : MonCmp) (wide : Bool) (b : DWord) (d : RegIx) : State :=
  match s.txn id with
  | none => s
  | some t' =>
    if s.poisonedRange q.addr q.len then
      -- the word is issued again when the report is resolved
      let s := s.keepParts id (t'.parts.filter fun r => r.lane != q.lane)
      (s.parkPoison noCore t q 0).2
    else
      let v := s.wordAt q.addr q.len
      if monHolds cmp v (monB wide b) then
        ((s.onLane t.gid q.lane fun ln => ln.monDone wide d.toNat v).setBackoff t.gid 0).keepParts id (t'.parts.filter fun r => r.lane != q.lane)
      else
        let (age, s) := s.fresh
        (s.onLane t.gid q.lane fun ln => ln.parkOn (.monitor id) age).setTxn id (some { t' with accepted := true })

/-- The sectors of a line that the parts of a read take. -/
def State.sectorsOf (s : State) (t : Txn) (line : Nat) : List Nat :=
  ((t.parts.flatMap fun q => if q.isTyped then (s.readCells q).map fun c => c / 32 else secsOf q.addr q.len).filter fun x => x / 4 == line).eraseDups

/-- After reads of lines: the die L2 gave each line, or its home, where the request is counted and the die becomes a sharer (R25, R177, R179,
R180). -/
def State.afterRead (s : State) (t : Txn) : State :=
  (s.linesNeeded t).foldl (fun (s : State) l => s.readLine t.core t.lvl t.evp l (s.sectorsOf t l)) s

/-! ### Writes and atomics at the home (R16, R189, R206) -/

/-- Bytes that stores of a transaction write, lanes in ascending order. -/
def Txn.bytes (t : Txn) : List (Nat × Byte) := t.parts.flatMap fun q => q.stored

/-- A store is accepted: committed, counted, and visible once every sharer has acknowledged (R16, R204). All sectors of its line are
accepted together (DESIGN CHOICE, log entry 122: R16 makes acceptance indivisible only for each 32-byte sector). -/
def State.serveStore (s : State) (id : Nat) (t : Txn) : State :=
  let src := srcCore t.core
  let s := ((s.commit src t.bytes).count src (t.line * 128)).publish t.line id
  s.setTxn id (some { t with accepted := true })

/-- One atomic part is performed on committed memory: the old value, and whether it wrote. -/
def State.atomAt (s : State) (src : Src') (op : AtomOp) (ty : AtomTy) (a b : DWord) (q : Part) : Nat × Bool × State :=
  let old := s.wordAt q.addr q.len
  match atomNew op ty old a.toNat b.toNat with
  | some v => (old, true, s.commit src ((List.range q.len).map fun i => (q.addr + i, (toLE q.len v).getD i 0)))
  | none => (old, false, s)

/-- An atomic on two local words, whose frames lie in two lines, is performed on both at once (R172, R389). -/
def State.pairAt (s : State) (src : Src') (op : AtomOp) (ty : AtomTy) (a b : DWord) (lo hi : Nat) : Nat × Bool × State :=
  let old := leNat (s.cells lo 4 ++ s.cells hi 4)
  match atomNew op ty old a.toNat b.toNat with
  | some v => (old, true, s.commit src (((List.range 4).map fun i => (lo + i, (toLE 8 v).getD i 0)) ++
      (List.range 4).map fun i => (hi + i, (toLE 8 v).getD (4 + i) 0)))
  | none => (old, false, s)

/-- The first word of an atomic that lies in a poisoned sector: its cell and its offset. -/
def State.poisonedWord (s : State) (q : Part) : Option (Nat × Nat) :=
  match q.op with
  | .pair _ _ _ _ _ hi => if s.poisonedRange q.addr 4 then some (q.addr, 0) else if s.poisonedRange hi 4 then some (hi, 128) else none
  | _ => if s.poisonedRange q.addr q.len then some (q.addr, 0) else none

/-- One part of an ATOM or a RED at the home: the state, whether the part stays, and whether it wrote. Without a register (a RED) one that
meets poison is held and logged once; a lane that waits for the old value parks (R188, R189). -/
def State.serveAtom (s : State) (t : Txn) (q : Part) : State × Option Part × Bool :=
  let src := srcCore t.core
  match q.op with
  | .atom op ty a b d =>
    (match s.poisonedWord q with
     | some _ => (match s.parkPoison noCore t q 2 with
        | (true, s) => (s, some { q with rep := true }, false)
        | (false, s) => (s, none, false))
     | none => let x := s.atomAt src op ty a b q
               (x.2.2.deliver t.gid q.lane (valWrites ty.wide d.toNat x.1) [] 0, none, x.2.1))
  | .red op ty a b =>
    (match s.poisonedWord q with
     | some w => (if t.loggedRed then s else s.logPoison 4 0 (t.core / 24) w.1, some q, false)
     | none => let x := s.atomAt src op ty a b q
               (x.2.2, none, x.2.1))
  | .pair op ty a b d hi =>
    (match s.poisonedWord q, d with
     | some w, none => (if t.loggedRed then s else s.logPoison 4 0 (t.core / 24) w.1, some q, false)
     | some w, some _ => (match s.parkPoison noCore t { q with addr := w.1, len := 4, va := q.va + w.2 } 2 with
        | (true, s) => (s, some { q with rep := true }, false)
        | (false, s) => (s, none, false))
     | none, _ =>
       let x := s.pairAt src op ty a b q.addr hi
       ((match d with | some d => x.2.2.deliver t.gid q.lane (valWrites ty.wide d.toNat x.1) [] 0 | none => x.2.2), none, x.2.1))
  | _ => (s, none, false)

/-- Is it a RED: an atomic whose lane waits for nothing? -/
def AccOp.isRed : AccOp → Bool
  | .red .. => true
  | .pair _ _ _ _ none _ => true
  | _ => false

/-- The parts of an ATOM or a RED are performed one by one; parts on poison are held or their lanes park (R188, R189). What is
left of the transaction is kept. -/
def State.serveAtoms (s : State) (id : Nat) (t : Txn) : State :=
  let src := srcCore t.core
  let ls := s.linesNeeded t.live
  let r := t.parts.foldl (fun (acc : State × List Part × Bool) q =>
    if !q.live then (acc.1, acc.2.1 ++ [q], acc.2.2)
    else
      let x := acc.1.serveAtom t q
      (x.1, acc.2.1 ++ x.2.1.toList, acc.2.2 || x.2.2)) (s, [], false)
  -- a held RED has been counted when it was first accepted (R25)
  let s := if t.loggedRed then r.1 else ls.foldl (fun (s : State) l => s.count src (l * 128)) r.1
  let s := if r.2.2 then ls.foldl (fun (s : State) l => s.publish l id) s else s
  if r.2.1.isEmpty then s.performed id
  else s.setTxn id (some { t with parts := r.2.1, loggedRed := t.loggedRed || r.2.1.any fun q => q.op.isRed && q.live })

/-- The parts of a floating-point RED under DETR stand with the Millpond until their team's turn (R110). -/
def State.holdReds (s : State) (id : Nat) (t : Txn) (stg seq : Nat) : State :=
  let rc := s.rcd t.launch
  if 4096 < rc.held.length + t.parts.length then s
  else
    let hs := t.parts.filterMap fun q => match q.op with
      | .red op ty a _ =>
        some ({ seq := seq, stg := stg, op := op, ty := ty, node := (match t.tgt with | .node n => some n | _ => none), loc := q.addr, val := a } : HeldRed)
      | _ => none
    (s.setRec t.launch { rc with held := rc.held ++ hs }).setTxn id none

/-- What becomes of a RED that DETR orders: held while a team of lower SEQ has not retired, behind the held ones of its launch; none where
nothing holds it (R110). -/
def State.detrStep (s : State) (id : Nat) (t : Txn) : Option State :=
  match t.parts, s.group t.gid with
  | { op := .red _ ty _ _, .. } :: _, some g =>
    if !s.detrHeld g ty t.scope then none
    else
      (match g.team.bind s.team with
       | none => none
       | some tm =>
         if !s.leads tm then some (s.holdReds id t tm.task.stg tm.task.seq.toNat)
         else if ((listed s.txns).any fun p => p.2.gid == heldId g.launch) ||
             (s.rcd g.launch).held.any fun h => h.stg == tm.task.stg && h.seq == tm.task.seq.toNat then some (s.releaseHeld g.launch tm.task.stg)
         else none)
  | _, _ => none

/-! ### In L1, under lazy ownership (R178, R179, R206) -/

/-- The core's dirty bytes take new values, in the order of transaction id. A release notes the stores of its context that its core issued
before it and that are still on their way (R201, R202). -/
def State.setDirty (s : State) (id : Nat) (t : Txn) (ws : List (Nat × Byte)) : State :=
  let key := dirtyLineKey t.core t.line
  let old := Sparse.get none s.dirtyLines key
  let was := old.getD { ctx := t.ctx, since := id }
  let deps := if t.rel then (s.coreWrites t.core t.ctx).filter fun i => decide (i < id) && !(match s.txn i with | some x => x.l1 | none => true) else []
  { s with
    dirty := ws.foldl (fun m w => Sparse.set none m (dirtyKey t.core w.1) (some w.2)) s.dirty
    dirtyLines := Sparse.set none s.dirtyLines key
      (some { ctx := t.ctx, release := was.release || t.rel, deps := (was.deps ++ deps).eraseDups, since := Nat.min was.since id }) }

/-- An atomic part in L1. -/
def State.atomL1 (s : State) (id : Nat) (t : Txn) (op : AtomOp) (ty : AtomTy) (a b : DWord) (q : Part) : Nat × State :=
  let old := leNat ((List.range q.len).map fun i => s.coreCell t.core (q.addr + i))
  match atomNew op ty old a.toNat b.toNat with
  | some v => (old, s.setDirty id t ((List.range q.len).map fun i => (q.addr + i, (toLE q.len v).getD i 0)))
  | none => (old, s)

/-- One part of a store or atomic in L1: the state, and whether the part stays. -/
def State.partL1 (s : State) (id : Nat) (t : Txn) (q : Part) : State × Option Part :=
  match q.op with
  | .store => (s.setDirty id t q.stored, none)
  | .atom op ty a b dst =>
    if s.loadPoisoned t.core q.addr q.len then
      (match s.parkPoison t.core t q 2 with
       | (true, s) => (s, some { q with rep := true })
       | (false, s) => (s, none))
    else
      let x := s.atomL1 id t op ty a b q
      (x.2.deliver t.gid q.lane (valWrites ty.wide dst.toNat x.1) [] 0, none)
  | .red op ty a b =>
    if s.loadPoisoned t.core q.addr q.len then (if t.loggedRed then s else s.logPoison 4 0 (t.core / 24) q.addr, some q)
    else ((s.atomL1 id t op ty a b q).2, none)
  | _ => (s, none)

/-- The oldest release of the core's context that still waits to leave, and waits for this dirty line: what is stored here after it may not be
sent with the line (R200, R202). -/
def State.lineAwaited (s : State) (id : Nat) (t : Txn) : Option Nat :=
  match Sparse.get none s.dirtyLines (dirtyLineKey t.core t.line) with
  | none => none
  | some dl => ((listed s.txns).find? fun p => decide (p.1 < id) && p.2.wb && !p.2.left && !p.2.l1 && p.2.core == t.core && p.2.ctx == t.ctx &&
      decide (dl.since < p.1)).map (·.1)

/-- Is there a lane for what the request delivers? A suspended group's requests wait. -/
def State.mayDeliver (s : State) (t : Txn) : Bool :=
  !(t.parts.any fun q => q.op.toLane) || (match s.group t.gid with | some g => g.resident | none => false)

/-- Does an older access of the core hold up this one in L1: a write of the same line that goes to the home, or, for a release, one that L1
is still to perform (R178, R202)? -/
def State.olderL1 (s : State) (id : Nat) (t : Txn) : Bool :=
  (listed s.txns).any fun p => decide (p.1 < id) && p.2.core == t.core && decide (p.2.gid < 2 ^ 61) && p.2.tgt == .cell && !p.2.accepted &&
    !p.2.loggedRed && p.2.writes && p.2.parts.any (fun q => q.live) && s.mayDeliver p.2 &&
    ((!p.2.l1 && p.2.line == t.line && !(p.2.parts.any fun q => match q.op with | .enq _ => true | _ => false)) ||
     (t.rel && p.2.l1 && p.2.ctx == t.ctx))

/-- A core-scope store or atomic is performed in L1, once the core owns the line. -/
def State.serveL1 (s : State) (id : Nat) (t : Txn) : State :=
  let d := s.dirOf t.line
  let other := match Sparse.get none s.dirtyLines (dirtyLineKey t.core t.line) with | some x => x.ctx != t.ctx | none => false
  if d.waiting ≠ 0 || s.olderL1 id t then s
  else if d.lo.isSome && d.lo ≠ some t.core then s.recall t.line
  else if other then s.recall t.line
  else
    match s.lineAwaited id t with
    | some b => s.writeBackTo t.core t.ctx b
    | none =>
      let s := s.setDir t.line { d with lo := some t.core }
      let r := t.parts.foldl (fun (acc : State × List Part) q =>
        if !q.live then (acc.1, acc.2 ++ [q])
        else
          let x := acc.1.partL1 id t q
          (x.1, acc.2 ++ x.2.toList)) (s, [])
      -- with nothing dirty the ownership is given up again
      let s := if (Sparse.get none r.1.dirtyLines (dirtyLineKey t.core t.line)).isNone then
          r.1.setDir t.line { r.1.dirOf t.line with lo := none } else r.1
      s.setTxn id (if r.2.isEmpty then none else some { t with parts := r.2, loggedRed := t.loggedRed || r.2.any fun q => q.op.isRed && q.live })

/-! ### Program queues (R208, R394, R395) -/

/-- The header of a queue block. -/
structure QHead where
  size : Nat
  head : Nat
  tail : Nat
deriving DecidableEq, Repr

def QHead.cap (q : QHead) : Nat := 4032 / q.size
def QHead.used (q : QHead) : Nat := (q.tail + 2 ^ 32 - q.head) % 2 ^ 32
def QHead.slot (q : QHead) (a i : Nat) : Nat := a + 64 + q.size * (i % q.cap)

/-- Read a header; none when a zero field is not zero, QFMT is reserved, or it holds more than CAP entries. -/
def State.queueHead (s : State) (a : Nat) : Option QHead :=
  let bs := s.cells a 64
  let f := fieldAt bs 0 1
  let q : QHead := { size := 4 * 2 ^ (f % 4), head := fieldAt bs 8 4, tail := fieldAt bs 12 4 }
  if 3 ≤ f || !zeroAt bs 1 7 || !zeroAt bs 16 48 || q.cap < q.used then none else some q

/-- Entry bytes of a queue width. -/
def qSize : QWidth → Nat
  | .b32 => 4 | .n64 => 8 | .b128 => 16

/-- Requests of a kind that wait at the queue engine before this one, parked longer. -/
def State.queueBefore (s : State) (id : Nat) (a : Nat) (deq : Bool) : Bool :=
  let age := fun (i : Nat) (t : Txn) =>
    match t.parts, s.group t.gid with
    | q :: _, some g => (match (g.lane q.lane).park with | .queue j => if j = i then some (g.lane q.lane).age else none | _ => none)
    | _, _ => none
  let mine := (s.txn id).bind fun t => age id t
  (listed s.txns).any fun p => p.1 != id && (p.2.parts.any fun q => q.addr == a && q.live && (match q.op with
      | .deq .. => deq
      | .enq _ => !deq && !p.2.accepted
      | _ => false)) &&
    (match age p.1 p.2, mine with
     | some x, some y => decide (x < y)
     | some _, none => true
     | none, _ => false)

/-- Does a lower lane of the same word still wait for the engine to look at its request (R395)? -/
def State.lowerLane (s : State) (id : Nat) (t : Txn) : Bool :=
  (listed s.txns).any fun p => decide (p.1 < id) && p.2.gid == t.gid && p.2.word == t.word && p.2.parts.any fun q => (match q.op with
    | .enq _ => !p.2.accepted
    | .deq .. => true
    | _ => false) && !(match s.group t.gid with | some g => decide ((g.lane q.lane).park = .queue p.1) | none => false)

/-- Is an older store of the request's own thread to the block on its way, its header or its entries (R194, R204)? -/
def State.ownStores (s : State) (id : Nat) (t : Txn) (q : Part) : Bool :=
  (listed s.txns).any fun p => decide (p.1 < id) && p.2.gid == t.gid && p.2.tgt == .cell && p.2.parts.any fun r => r.lane == q.lane &&
    r.op.writes && !(match r.op with | .enq _ => true | _ => false) && r.ranges.any fun x => decide (x.1 < q.addr + 4096) && decide (q.addr < x.1 + x.2)

/-- Entries granted to ENQs that the engine has yet to write. -/
def State.granted (s : State) (a : Nat) : Nat :=
  ((listed s.txns).filter fun p => p.2.accepted && p.2.parts.any fun q => q.addr == a && (match q.op with | .enq _ => true | _ => false)).length

/-- The request is over with a fault in its lane. -/
def State.queueTrap (s : State) (id : Nat) (t : Txn) (q : Part) (code : Nat) : State :=
  (s.setTxn id none).lateBoth t.pc t.gid q.lane code 0 0

/-- The lane waits in the engine. -/
def State.queuePark (s : State) (id : Nat) (t : Txn) (q : Part) : State :=
  let parked : Bool := match s.group t.gid with | some g => decide ((g.lane q.lane).park = .queue id) | none => false
  if parked then s
  else
    let (age, s) := s.fresh
    s.onLane t.gid q.lane fun ln => ln.parkOn (.queue id) age

/-- The engine writes bytes of the block. -/
def State.queueWrite (s : State) (id : Nat) (t : Txn) (c : Nat) (bs : List Byte) : State :=
  let s := s.commit (srcCore t.core) ((List.range bs.length).map fun i => (c + i, bs.getD i 0))
  s.publish (c / 128) id

/-- A request that has not left its core: what it waits for, a failed remote store that it reports, or its leaving (R66, R200). -/
def State.leave (s : State) (id : Nat) (t : Txn) : State :=
  if s.mayLeave id t then
    match s.lostRelease id t with
    | some s => s
    | none => s.setTxn id (some { t with left := true })
  else if t.wb && !(t.deps.any fun d => (s.txn d).isSome) then s.writeBackTo t.core t.ctx id
  else s

/-- ENQ at the engine: first it is granted a place, and its lane goes on; then, its release's waits over, the entry is
written and TAIL moves. -/
def State.serveEnq (s : State) (id : Nat) (t : Txn) (q : Part) (w : QWidth) : State :=
  match s.queueHead q.addr with
  | none => if t.accepted then s.setTxn id none else s.queueTrap id t q 0x22
  | some h =>
    if h.size ≠ qSize w then (if t.accepted then s.setTxn id none else s.queueTrap id t q 0x22)
    else if !t.accepted then
      if h.cap ≤ h.used + s.granted q.addr || s.queueBefore id q.addr false then s.queuePark id t q
      else (s.passWord t.gid q.lane [] []).setTxn id (some { t with accepted := true })
    else if !t.left then s.leave id t
    else
      let c := h.slot q.addr h.tail
      if !s.rangeFree c h.size then s.recallRange c h.size
      else
        let s := (s.count (srcCore t.core) q.addr).queueWrite id t c (q.data.take h.size)
        let s := s.queueWrite id t (q.addr + 12) (toLE 4 ((h.tail + 1) % 2 ^ 32))
        s.setTxn id (some { t with parts := [{ q with op := .store, data := [] }] })

/-- DEQ at the engine (R395). -/
def State.serveDeq (s : State) (id : Nat) (t : Txn) (q : Part) (w : QWidth) (wait : Bool) (pd : BitVec 3) (d : RegIx) : State :=
  match s.queueHead q.addr with
  | none => s.queueTrap id t q 0x22
  | some h =>
    if h.size ≠ qSize w then s.queueTrap id t q 0x22
    else if h.used = 0 then
      if wait then s.queuePark id t q
      else ((s.count (srcCore t.core) q.addr).passWord t.gid q.lane [] [(pd.toNat, false)]).setTxn id none
    else if s.queueBefore id q.addr true then (if wait then s.queuePark id t q else s)
    else
      let c := h.slot q.addr h.head
      if !s.rangeFree c h.size then s.recallRange c h.size
      else if s.poisonedRange c h.size then
        ((s.setTxn id none).parkPoison noCore t { q with addr := c, len := h.size } 0).2
      else
        let ws := widthWrites (match w with | .b32 => .b32 | .n64 => .n64 | .b128 => .b128) d.toNat (s.cells c h.size)
        let s := (s.count (srcCore t.core) q.addr).passWord t.gid q.lane ws [(pd.toNat, true)]
        let s := s.queueWrite id t (q.addr + 8) (toLE 4 ((h.head + 1) % 2 ^ 32))
        s.setTxn id (some { t with accepted := true, parts := [{ q with op := .store, data := [] }] })

/-- A request of a program queue, once its header can be read. -/
def State.serveQueue (s : State) (id : Nat) (t : Txn) (q : Part) : State :=
  if !t.accepted && (s.lowerLane id t || s.ownStores id t q) then s
  else if !s.rangeFree q.addr 64 then s.recallRange q.addr 64
  else if s.poisonedRange q.addr 64 && !t.accepted then ((s.setTxn id none).parkPoison noCore t { q with len := 64 } 0).2
  else
    match q.op with
    | .enq w => s.serveEnq id t q w
    | .deq w wait pd d => s.serveDeq id t q w wait pd d
    | _ => s

/-! ### A request at its home (R179, R207) -/

/-- A read, write or atomic is served, its line being free. -/
def State.serveLine (s : State) (id : Nat) (t : Txn) : State :=
  match t.live.parts with
  | [] => s
  | q :: _ =>
    match q.op with
    | .store => s.serveStore id t
    | .atom .. | .pair .. => s.serveAtoms id t
    | .red .. => (match s.detrStep id t with
      | some s => s
      | none => s.serveAtoms id t)
    | .monitor .. =>
      (t.live.parts.foldl (fun (s : State) q => match q.op with
        | .monitor cmp wide b d => s.serveMonitor id t q cmp wide b d
        | _ => s) s).afterRead t.live
    | .enq _ | .deq .. => s
    | _ =>
      let s := (t.live.parts.foldl (fun (s : State) q => s.serveRead id t q) s).afterRead t.live
      s.pollEnd t.gid

/-- ACC of an access (R280). -/
def AccOp.acc : AccOp → Acc
  | .store | .enq _ => .store
  | .atom .. | .red .. | .pair .. | .dec _ => .atomic
  | .fetch => .fetch
  | _ => .load

/-- A part under a fresh translation: its cells, or the cause that an element of a typed page now has (R382). -/
def State.moved (s : State) (t : Txn) (q : Part) (leaf : Leaf) (a : Nat) : Except Nat Part :=
  let q := { q with again := false, level := leaf.level }
  match q.op with
  | .typed k _ f32 _ _ n d =>
    (match typedBytes leaf.fmt leaf.pl leaf.blk k n with
     | .error c => .error c
     | .ok _ => .ok { q with addr := leaf.phys (q.va / 65536 * 65536), op := .typed k leaf.pl f32 leaf.fmt leaf.blk n d })
  | .pair op ty x y d _ =>
    (match s.check t.core t.ctx (q.va + 128) 4 .atomic with
     | .ok _ .cell hi => .ok { q with addr := a, op := .pair op ty x y d hi }
     | .ok .. => .error causeBusAddr
     | .trap c => .error c
     | _ => .error causeBusAddr)
  | _ => .ok { q with addr := a }

/-- The line at which a part is served. -/
def State.lineOf (s : State) (q : Part) : Nat := (if q.isTyped then (s.readCells q).getLastD 0 else q.addr) / 128

/-- A part whose report was resolved is translated afresh before it is performed; its request then goes to the place that its page table
names now (R75, R283). -/
def State.translateAgain (s : State) (id : Nat) (t : Txn) (q : Part) : State :=
  let rest := t.parts.filter fun r => r != q
  let gone := fun (s : State) => s.setTxn id (if rest.isEmpty then none else some { t with parts := rest })
  match s.checkRecall t.core t.ctx q.va q.len q.op.acc 12 with
  | (.ok leaf tgt a, s) =>
    let s := s.fillTlb t.core t.ctx q.va leaf
    (match s.moved t q leaf a with
     | .ok q' => s.setTxn id (some { t with
         parts := t.parts.map fun r => if r = q then q' else r
         tgt := tgt, line := s.lineOf q', lvl := leaf.lvl, evp := leaf.evp, left := false
         l1 := t.l1 && decide (tgt = .cell) && leaf.wp && leaf.lvl == 2 })
     | .error c => (gone s).lateBoth t.pc t.gid q.lane c q.op.acc.code q.va)
  | (.trap c, s) => (gone s).lateBoth t.pc t.gid q.lane c q.op.acc.code q.va
  | (.park c lo hi, s) =>
    let s := s.setTxn id (some { t with parts := t.parts.map fun r => if r = q then { r with rep := true, again := false } else r })
    let s := s.parkFault t.gid q.lane c q.op.acc.code q.va lo hi false
    if (s.rcd t.launch).blk.prot then s.parkFault t.gid (q.lane + 1) c q.op.acc.code q.va lo hi false else s
  | (.pri p ps pg, s) => s.afterCheck (.pri p ps pg) t.gid q.lane
  | (.busy _, s) => s

/-- L1 has been given to team spans since the request was issued: it goes to the home, as a device-scope release does if it is one (R175,
R201). -/
def State.awayFromL1 (s : State) (id : Nat) (t : Txn) : State :=
  let deps := if t.rel then ((t.deps ++ ((t.parts.flatMap fun q => s.threadTxns t.gid q.lane).map (·.1)) ++ s.coreWrites t.core t.ctx).eraseDups).filter fun i => decide (i < id)
    else t.deps
  s.setTxn id (some { t with l1 := false, wb := t.rel, deps := deps })

/-- A request that has left its core reaches the home of its line, once the line is free. -/
def State.serveHome (s : State) (id : Nat) (t : Txn) : State :=
  let own := !t.writes && !(t.parts.any fun q => match q.op with | .monitor .. => true | _ => false)
  let free := fun (l : Nat) => s.lineFree (if own then some t.core else none) l
  if s.olderWrite id t then s
  else
    match (s.linesNeeded t.live).find? fun l => !free l with
    | some l => s.recall l
    | none => s.serveLine id t

/-- HOME_REQUEST of a transaction to this device's memory. -/
def State.serveCell (s : State) (id : Nat) (t : Txn) : State :=
  match t.live.parts.find? fun q => match q.op with | .enq _ => true | .deq .. => true | _ => false with
  | some q => if !t.accepted && !s.mayDeliver t && (match q.op with | .deq .. => true | _ => false) then s else s.serveQueue id t q
  | none =>
    if t.accepted || !s.mayDeliver t then s
    else if t.live.parts.isEmpty then
      (match t.parts.find? fun q => q.again && !q.rep with
       | some q => s.translateAgain id t q
       | none => s)
    else if t.l1 && s.l1Empty t.core then s.awayFromL1 id t
    else if t.l1 then (if (t.deps.any fun d => (s.txn d).isSome) || s.olderOverlap id t then s else s.serveL1 id t)
    else if s.hasLeft id t then s.serveHome id { t with left := true }
    else
      let s := s.leave id t
      match s.txn id with
      | some t => if t.left then s.serveHome id t else s
      | none => s

/-! ### ACKNOWLEDGEMENT, INVALIDATION_ACKNOWLEDGEMENT (R16, R179, R204) -/

/-- An accepted write is acknowledged once every sharer die has acknowledged its invalidation. -/
def State.acknowledge (s : State) (id : Nat) : State :=
  match s.txn id with
  | none => s
  | some t =>
    let store := t.parts.all fun q => q.op == .store
    if t.tgt = .cell && t.accepted && store && !s.unacked id then s.setTxn id none else s

/-- An inbound posted write that is acknowledged leaves the ordering point (R55). -/
def State.ackPosted (s : State) (id : Nat) : State :=
  match Sparse.get none s.posted id with
  | some w => if w.accepted && !s.unacked id then { s with posted := Sparse.set none s.posted id none } else s
  | none => s

/-- A peer's request that has been performed is answered (R61, R63). -/
def State.ackPeer (s : State) (id : Nat) : State :=
  match Sparse.get none s.peers id with
  | some w => (match w.reply with
    | some bs => if !s.unacked id then ({ s with peers := Sparse.set none s.peers id none }).emit (.answer w.port w.src true bs) else s
    | none => s)
  | none => s

def execAcknowledgement (id : Nat) (s : State) : Host.Outcome State Fault Refusal := .next (((s.acknowledge id).ackPosted id).ackPeer id).flushAll

/-- A die has dropped its copies of a line, that of its L2 among them; with the last one the write is visible (R179, R204). -/
def State.invAck (s : State) (line die : Nat) : State :=
  let d := s.dirOf line
  if d.waiting = 0 then s
  else
    let w := d.waiting &&& ~~~ BitVec.ofNat 8 (2 ^ (die % 8))
    let s := ({ s with l2 := Sparse.set none s.l2 (l2Key (die % 8) line) none }).setDir line { d with waiting := w, src := if w = 0 then 0 else d.src }
    if w = 0 then s.wakeMonitors line else s

def execInvalidationAcknowledgement (line die : Nat) (s : State) : Host.Outcome State Fault Refusal := .next (s.invAck line die).flushAll

/-! ### PAGE_WALK, INVALIDATION_DONE (R75, R181, R183, R186) -/

/-- A walker pool walks for an agent: its reads are counted, the agent's TLB holds what it finds, and a line that it needs is recalled. The
faults a walk finds are taken by the accesses that need it. -/
def State.pageWalk (s : State) (agent k va : Nat) : State :=
  if 198 ≤ agent ∨ 64 ≤ k ∨ 2 ^ 57 ≤ va then s
  else
    match s.translate agent k va with
    | .ok leaf => (s.countWalk agent k va).fillTlb agent k va leaf
    | .error (.busy l) => s.recall l
    | .error _ => s

def execPageWalk (agent k : Nat) (va : DWord) (s : State) : Host.Outcome State Fault Refusal := .next (s.pageWalk agent k va.toNat)

/-- Is a part still to be performed under the translation that it was sent with? One whose lane is parked on it, or on the report of its
poison, is not: its word replays, or it is translated again (R75). -/
def State.holdsInval (s : State) (t : Txn) (q : Part) : Bool :=
  match s.group t.gid with
  | some _ => !s.parkedPart t q
  | none => !q.rep

/-- The lanes parked on the watch or the queue request of some transactions replay their words, which are translated afresh (R75). -/
def State.endWatches (s : State) (ids : List Nat) : State :=
  ids.foldl (fun (s : State) i =>
    match s.txn i with
    | none => s
    | some t =>
      let ws := t.parts.filter fun q => !q.rep && (s.group t.gid).isSome && s.parkedPart t q
      if ws.isEmpty then s
      else
        let ps := t.parts.filter fun q => !ws.contains q
        ws.foldl (fun (s : State) q => s.onLane t.gid q.lane fun ln => { ln with ready := true })
          (s.setTxn i (if ps.isEmpty then none else some { t with parts := ps }))) s

/-- An invalidation ends when every access under the old translation has been performed or discarded (R75). -/
def State.invalidationDone (s : State) (k : Nat) : State :=
  let c := s.ctx k
  if c.invbusy && !(c.invIds.any fun i => match s.txn i with | some t => t.parts.any (s.holdsInval t) | none => false) then
    (s.endWatches c.invIds).setCtx k { (s.endWatches c.invIds).ctx k with invbusy := false, invIds := [] }
  else s

def execInvalidationDone (k : Nat) (s : State) : Host.Outcome State Fault Refusal := .next (s.invalidationDone k)

end Sys2Proof.Machine
end

