-- ==== Sys2Proof/Machine/Sha.lean ====
section
/-! DEFINITION. Sha.lean: SHA-512, by which the attestation report names the active budget table (R39). The manual names the function
and does not give it; it is that of FIPS 180-4 (PRESUMED, log entry 116). -/
namespace Sys2Proof.Machine

/-- The primes below 410, of which there are 80. -/
def shaPrimes : List Nat :=
  (List.range 410).filter fun n => decide (2 ≤ n) && (List.range 21).all fun d => decide (d < 2) || decide (n ≤ d) || n % d ≠ 0

/-- The first 64 bits after the binary point of the k-th root of p, found bit by bit. -/
def rootBits (k p : Nat) : DWord :=
  BitVec.ofNat 64 ((List.range 70).foldr (fun i x => if (x + 2 ^ i) ^ k ≤ p * 2 ^ (64 * k) then x + 2 ^ i else x) 0)

/-- What is added in each round: from the cube roots of the primes. -/
def shaSteps : List DWord := shaPrimes.map (rootBits 3)
/-- The hash value before the first block: from the square roots of the first eight. -/
def shaStart : List DWord := (shaPrimes.take 8).map (rootBits 2)

/-- Two rotations of a word, and a third word, summed modulo 2. -/
def shaMix (x : DWord) (m n : Nat) (y : DWord) : DWord := x.rotateRight m ^^^ x.rotateRight n ^^^ y

/-- The words of a block and the 64 that follow from them, oldest first. -/
def shaWords (w : List DWord) : List DWord :=
  (List.range 64).foldl (fun w i =>
    let x := w.getD (i + 1) 0
    let y := w.getD (i + 14) 0
    w ++ [w.getD i 0 + w.getD (i + 9) 0 + shaMix x 1 8 (x >>> 7) + shaMix y 19 61 (y >>> 6)]) w

/-- One round: the two runs of four values that the hash works on, newest first, each take a new value and lose their oldest. -/
def shaTurn (v : List DWord × List DWord) (add : DWord) : List DWord × List DWord :=
  let p := v.1.headD 0
  let q := v.2.headD 0
  let choose := (v.2.getD 1 0 &&& q) ||| (v.2.getD 2 0 &&& ~~~q)
  let most := (p &&& (v.1.getD 1 0 ||| v.1.getD 2 0)) ||| (v.1.getD 1 0 &&& v.1.getD 2 0)
  let t := v.2.getD 3 0 + add + choose + shaMix q 14 18 (q.rotateRight 41)
  ((t + most + shaMix p 28 34 (p.rotateRight 39)) :: v.1.take 3, (v.1.getD 3 0 + t) :: v.2.take 3)

/-- The big-endian words of a list of bytes. -/
def shaRead (bs : List Byte) : List DWord :=
  (List.range (bs.length / 8)).map fun i => BitVec.ofNat 64 (leNat ((bs.drop (8 * i)).take 8).reverse)

/-- A block of 128 bytes goes into the hash value. -/
def shaBlock (h : List DWord) (bs : List Byte) : List DWord :=
  let adds := ((shaWords (shaRead bs)).zip shaSteps).map fun p => p.1 + p.2
  let v := adds.foldl shaTurn (h.take 4, h.drop 4)
  (h.zip (v.1 ++ v.2)).map fun p => p.1 + p.2

/-- The message followed by a 1 bit, zeros, and its length in bits, to a multiple of 128 bytes. -/
def shaPad (m : List Byte) : List Byte :=
  m ++ [0x80#8] ++ List.replicate ((239 - m.length % 128) % 128) 0#8 ++ (toLE 16 (8 * m.length)).reverse

/-- SHA-512: 64 bytes. -/
def sha512 (m : List Byte) : List Byte :=
  let p := shaPad m
  ((List.range (p.length / 128)).foldl (fun h i => shaBlock h ((p.drop (128 * i)).take 128)) shaStart).flatMap fun x => (toLE 8 x.toNat).reverse

end Sys2Proof.Machine
end

