-- ==== Sys2Proof/Machine/Manage.lean ====
section
/-! DEFINITION. Manage.lean: the Parheino controller and the package (R17 to R20, R26 to R47, R99, R287, R289, R300): start-up,
reset and power, the mailbox, fencing and resetting dies, in-field tests, power samples, budgets, and errors. -/
namespace Sys2Proof.Machine

/-! ### Images (R36, R37) -/

/-- Bytes of an image slot. -/
def slotBytes : Nat := 2 ^ 25
/-- What IMGWRITE has written to a slot, by offset. -/
def Mgmt.written (m : Mgmt) (slot : Nat) : Sparse Byte :=
  (listed m.flash).filterMap fun p => if p.1 / slotBytes = slot then some (p.1 % slotBytes, p.2) else none
def Mgmt.minimum (m : Mgmt) : BitVec 32 := m.minVer.getD Config.minVersion
def Mgmt.version (m : Mgmt) (slot : Nat) : BitVec 32 := Config.imageVersion slot (m.written slot)
/-- Does the image of a slot verify, its security version included? -/
def Mgmt.verifies (m : Mgmt) (slot : Nat) : Bool :=
  Config.imageOk slot (m.written slot) && decide (m.minimum.toNat ≤ (m.version slot).toNat)

/-! ### Start-up, reset and power (R17, R26 to R28, R36 to R38) -/

/-- What survives without power: flash, and the model's own bookkeeping. -/
def State.powerless (s : State) : State :=
  { next := s.next, free := s.free, agenda := s.agenda, input := s.input, out := s.out
    mgmt := { boot := .off, flash := s.mgmt.flash, flashLog := s.mgmt.flashLog, selected := s.mgmt.selected, minVer := s.mgmt.minVer } }

def execLossOfPower (s : State) : Host.Outcome State Fault Refusal := .next s.powerless

/-- Verify the selected image, or the other one; the package starts with the one that verifies. -/
def State.verifyImage (s : State) (boot : Boot) : State :=
  let m := s.mgmt
  if m.verifies m.selected then { s with mgmt := { m with boot := boot, running := m.selected } }
  else
    let s := s.logEv .imageFallback 2 (evQuad 0) [m.selected]
    let o := 1 - m.selected
    if m.verifies o then { s with mgmt := { s.mgmt with boot := boot, running := o } } else { s with mgmt := { s.mgmt with boot := .noImage } }

/-- POWER_GOOD: start-up begins; the input says whether the identity key could be reconstructed (R36, R38). -/
def State.powerGood (s : State) : State :=
  if s.mgmt.boot ≠ .off then s
  else
    let s := ({ s with uptime := 0 }).verifyImage (.step 0)
    if s.mgmt.boot = .noImage then s
    else
      match s.input with
      | .power false => { s with mgmt := { s.mgmt with keyOk := false } }.logEv .noKey 2 (evQuad 0) []
      | _ => s

def execPowerGood (s : State) : Host.Outcome State Fault Refusal := .next s.powerGood

/-- A die fails its start-up step: 0 the Millpond, 1 to 8 SRAM dies, 9 to 20 HBM4E stacks, 21 and 22 I/O dies (R20, R28). -/
def State.stepFails (s : State) (i : Nat) : State :=
  if i = 0 then { s with mgmt := { s.mgmt with boot := .notReady } }.logEv .dieFailed 3 (evQuad 0) [i]
  else if i ≤ 8 then { s with sramDown := Sparse.set false s.sramDown (i - 1) true }.logEv .dieFailed 2 (evSrc .sram (i - 1) ((i - 1) / 2)) [i]
  else if i ≤ 20 then { s with stackDown := Sparse.set false s.stackDown (i - 9) true }.logEv .stackFailed 2 (evSrc .hbm (i - 9) ((i - 9) / 3)) [i]
  else if i ≤ 22 then { s with modulesUp := Sparse.set 0 s.modulesUp (i - 21) 6 }.logEv .iodAbsent 2 (evIod (i - 21)) [i]
  else s

/-- START_UP_STEP: a timed step ends; the input says whether its die failed, and how many UCIe modules did not train; an I/O die of which no
module trained stays absent until power is lost (R20). -/
def State.startUpStep (s : State) : State :=
  match s.mgmt.boot with
  | .step i =>
    let s := { s with mgmt := { s.mgmt with boot := if i < 23 then .step (i + 1) else .wake 0 } }
    (match s.input with
     | .startUp failed n =>
       if failed || ((i == 21 || i == 22) && decide (6 ≤ n)) then s.stepFails i
       else if (i = 21 ∨ i = 22) ∧ Sparse.get 0 s.modulesUp (i - 21) < 6 then { s with modulesUp := Sparse.set 0 s.modulesUp (i - 21) (n % 7) }
       else s
     | _ => s)
  | _ => s

def execStartUpStep (s : State) : Host.Outcome State Fault Refusal := .next s.startUpStep

/-- Can the device serve memory: every stack, and an SRAM die in every quadrant (R28)? -/
def State.memoryServed (s : State) : Bool :=
  s.stackDown.isEmpty && (List.range 4).all fun q => !(Sparse.get false s.sramDown (2 * q) && Sparse.get false s.sramDown (2 * q + 1))

/-- CORE_WAKE: a group of four cores wakes; after the last one the device is ready, every die at duty 16/16 (R27 to R29, R37). -/
def State.coreWake (s : State) : State :=
  match s.mgmt.boot with
  | .wake g =>
    let s := match s.input with
      | .startUp true _ => (s.setDie (g % 8) { s.die (g % 8) with st := .fenced, cause := 3 }).logEv .dieFailed 2 (evDie (g % 8)) []
      | _ => s
    if g < 47 then { s with mgmt := { s.mgmt with boot := .wake (g + 1) } }
    else if s.memoryServed then
      let m := s.mgmt
      { s with
        clk := 0, dies := mapVals {} s.dies fun d => { d with duty := 16 }
        mgmt := { m with boot := .ready
                         minVer := if m.minimum.toNat < (m.version m.running).toNat then some (m.version m.running) else m.minVer } }.emit .ready
    else { s with mgmt := { s.mgmt with boot := .notReady } }
  | _ => s

def execCoreWake (s : State) : Host.Outcome State Fault Refusal := .next s.coreWake

/-- DEVICE_RESET: every register has its reset value, no context and no record is left, and memory is unwritten; the image
selected last runs from now on (R17, R37, R87). It is verified again, as at power-good (DESIGN CHOICE, log entry 154). What is no register
of the device stays: flash, the links, failed stacks, absent I/O dies. -/
def State.deviceReset (s : State) : State :=
  if s.mgmt.boot = .off then s
  else
    let old := s.mgmt
    let t : State :=
      { uptime := s.uptime, next := s.next, free := s.free, agenda := s.agenda, input := s.input, out := s.out
        stackDown := s.stackDown, modulesUp := s.modulesUp
        ports := s.ports.map fun p => (p.1, { up := p.2.up, rate := p.2.rate, width := p.2.width, flit := p.2.flit })
        mgmt := { flash := old.flash, flashLog := old.flashLog, selected := old.selected, running := old.running
                  minVer := old.minVer, keyOk := old.keyOk } }
    -- a device that had not started yet begins its start-up again; an I/O die found absent stays so (R20)
    let t := match old.boot with | .step _ | .wake _ => { t with modulesUp := keep s.modulesUp fun _ n => n == 6, ports := [] } | _ => t
    let t := t.verifyImage (match old.boot with | .step _ => .step 0 | .wake _ => .step 0 | .notReady => .notReady | _ => .ready)
    let m := t.mgmt
    if m.boot = .ready ∧ m.minimum.toNat < (m.version m.running).toNat then
      { t with mgmt := { m with minVer := some (m.version m.running) } }
    else t

def execDeviceReset (s : State) : Host.Outcome State Fault Refusal := .next s.deviceReset

/-! ### The mailbox (R32, R33, R35, R37, R39, R43, R47) -/

/-- A command ends with a code and a result length. -/
def State.mbDone (s : State) (code rlen : Nat) : State :=
  { s with mgmt := { s.mgmt with busy := false, code := BitVec.ofNat 8 code, rlen := BitVec.ofNat 16 rlen } }

def cOk : Nat := 0
def cBadOp : Nat := 1
def cBadSig : Nat := 2
def cRollback : Nat := 3
def cBadLen : Nat := 4
def cBadState : Nat := 5
def cBadSum : Nat := 6
def cNoKey : Nat := 7

def Mgmt.mb (m : Mgmt) (i : Nat) : Byte := Sparse.get 0 m.mbbuf i
def Mgmt.mbBytes (m : Mgmt) (i n : Nat) : List Byte := (List.range n).map fun j => m.mb (i + j)
/-- Bytes written to MBBUF from offset i. -/
def Mgmt.setMb (m : Mgmt) (i : Nat) (bs : List Byte) : Mgmt :=
  { m with mbbuf := ((List.range bs.length).zip bs).foldl (fun b p => Sparse.set 0 b ((i + p.1) % 4096) p.2) m.mbbuf }

/-- The 64 bytes of a log entry (R35). -/
def LogEntry.bytes (e : LogEntry) (seq : Nat) : List Byte :=
  toLE 8 seq ++ toLE 8 e.time ++ toLE 2 (Config.evCode e.ev.ctorIdx).toNat ++ toLE 2 e.src.toNat ++ toLE 1 e.sev ++ List.replicate 3 0 ++
  (List.range 40).map fun i => Config.evData e.ev.ctorIdx e.args i

/-- A byte of MBBUF as a command reads it: one that was written while BUSY was 1 is read old or new (R32). -/
def Mgmt.mbArg (m : Mgmt) (n i : Nat) : Byte :=
  match Sparse.get none m.mbOld i with
  | some b => if Config.mailboxNew n i then m.mb i else b
  | none => m.mb i

/-- LOGREAD; `rd` gives the bytes of MBBUF that the command reads (R35). -/
def State.mbLog (s : State) (rd : Nat → Byte) : State :=
  let m := s.mgmt
  let lo := Nat.max (leNat ((List.range 8).map rd)) (m.evprod - 4096)
  let n := Nat.min 64 (m.evprod - lo)
  let bs := (List.range n).flatMap fun i => (Sparse.get {} m.log (lo + i)).bytes (lo + i)
  ({ s with mgmt := m.setMb 0 bs }).mbDone cOk (64 * n)

/-- IMGWRITE: bytes to the slot that does not run; until a commit the running slot is the one selected (R37). -/
def State.mbImage (s : State) (rd : Nat → Byte) (block len : Nat) : State :=
  let m := s.mgmt
  let base := (1 - m.running) * slotBytes + 4096 * block
  if slotBytes < 4096 * block + len then s.mbDone cBadLen 0
  else
    ({ s with mgmt := { m with
        selected := m.running
        flash := (List.range len).foldl (fun f i => Sparse.set none f (base + i) (some (rd i))) m.flash } }).mbDone cOk 0

/-- IMGCOMMIT (R37). -/
def State.mbCommit (s : State) : State :=
  let m := s.mgmt
  let o := 1 - m.running
  if !Config.imageOk o (m.written o) then s.mbDone cBadSig 0
  else if (m.version o).toNat < m.minimum.toNat then s.mbDone cRollback 0
  else ({ s with mgmt := { m with selected := o } }).mbDone cOk 0

def DieSt.code : DieSt → Nat
  | .online => 0 | .fencing => 1 | .fenced => 2 | .resetting => 3 | .ready => 4

/-- SHA-512 of the active budget table, as nine 8-byte register values (R39). -/
def Mgmt.budgetDigest (m : Mgmt) : List Byte := sha512 (m.active.flatMap fun v => toLE 8 v.toNat)

/-- The attestation report without its signature (R39). -/
def State.reportBody (s : State) (nonce : List Byte) : List Byte :=
  let m := s.mgmt
  let w := m.written m.running
  toLE 8 1 ++ nonce ++ ((List.range 64).map fun i => Config.digest 0 m.running w i) ++ ((List.range 64).map fun i => Config.digest 1 m.running w i) ++
  m.budgetDigest ++ toLE 4 (m.version m.running).toNat ++
  toLE 4 (sumN ((List.range 8).map fun k => (s.die k).st.code * 16 ^ k))

/-- ATTEST (R38, R39). -/
def State.mbAttest (s : State) (rd : Nat → Byte) : State :=
  let m := s.mgmt
  if !m.keyOk then s.mbDone cNoKey 0
  else
    let body := s.reportBody ((List.range 64).map rd)
    ({ s with mgmt := m.setMb 0 (body ++ (List.range 512).map fun i => Config.signature body i) }).mbDone cOk 784

/-- CERT (R32, R38). -/
def State.mbCert (s : State) (p : Nat) : State :=
  if !s.mgmt.keyOk then s.mbDone cNoKey 0
  else
    let bs := (Config.cert p).take 4096
    ({ s with mgmt := s.mgmt.setMb 0 bs }).mbDone cOk bs.length

/-- A die is to be fenced for a cause (R18, R34, R47). A die in RESETTING is fenced at once, and a DIERESET that waits for it ends with
BADSTATE (DESIGN CHOICE, log entry 117). -/
def State.startFence (s : State) (k cause : Nat) : State :=
  let d := s.die k
  match d.st with
  | .online => s.setDie k { d with st := .fencing, cause := BitVec.ofNat 4 cause }
  | .ready => (s.setDie k { d with st := .fenced, cause := BitVec.ofNat 4 cause }).logEv .dieFenced 2 (evDie k) [cause]
  | .resetting =>
    let s' := (s.setDie k { d with st := .fenced, cause := BitVec.ofNat 4 cause, awaiting := false }).logEv .dieFenced 2 (evDie k) [cause]
    if d.awaiting then s'.mbDone cBadState 0 else s'
  | _ => s

/-- The mailbox waits for a die. -/
def State.awaitDie (s : State) (k : Nat) : State :=
  { s.setDie k { s.die k with awaiting := true } with mgmt := { s.mgmt with busy := true } }

/-- FENCE (R47). -/
def State.mbFence (s : State) (k : Nat) : State :=
  match (s.die k).st with
  | .online => (s.startFence k 1).awaitDie k
  | .ready => (s.startFence k 1).mbDone cOk 0
  | .resetting => s.mbDone cBadState 0
  | _ => s.mbDone cOk 0

/-- DIERESET (R47). -/
def State.mbReset (s : State) (k : Nat) : State :=
  match (s.die k).st with
  | .fenced | .ready => (s.setDie k { s.die k with st := .resetting }).awaitDie k
  | _ => s.mbDone cBadState 0

/-- The duty in force on the dies that run (R29). -/
def State.dutyInForce (s : State) (k : Nat) : Nat :=
  match (List.range 8).find? fun j => j != k && decide ((s.die j).st = .online) with
  | some j => (s.die j).duty
  | none => (s.die k).duty

/-- RESUME: the die takes the duty in force (R29, R47). -/
def State.mbResume (s : State) (k : Nat) : State :=
  match (s.die k).st with
  | .online => s.mbDone cOk 0
  | .ready => (s.setDie k { s.die k with st := .online, duty := s.dutyInForce k }).mbDone cOk 0
  | _ => s.mbDone cBadState 0

/-- CYC, BYT and HARD of a budget register (R31). -/
def budCyc (v : BitVec 17) : Nat := v.toNat % 256
def budByt (v : BitVec 17) : Nat := nbits v.toNat 15 8
def budHard (v : BitVec 17) : Bool := v.getLsbD 16

/-- May a table become active (R43)? -/
def budgetOk (t : List (BitVec 17)) : Bool :=
  decide (sumN (t.map budCyc) ≤ 256) && decide (sumN (t.map budByt) ≤ 256) &&
  decide (4 ≤ budCyc (t.getD 8 0)) && decide (4 ≤ budByt (t.getD 8 0)) &&
  t.all fun v => !budHard v || (decide (1 ≤ budCyc v) && decide (1 ≤ budByt v))

/-- BUDGET: a table that has been checked waits for the period boundary (R43). -/
def State.mbBudget (s : State) : State :=
  if budgetOk s.mgmt.staged then { s with mgmt := { s.mgmt with busy := true, activating := true, checked := s.mgmt.staged } } else s.mbDone cBadSum 0

/-- The ARGs that a command takes; none: no such command (R32, R33). -/
def argLimit (op : Nat) : Option Nat :=
  match op with
  | 1 | 3 | 4 | 0x20 => some 65536
  | 2 => some 8192
  | 5 => some 4
  | 0x10 | 0x11 | 0x12 => some 8
  | _ => none

/-- Is it a command that BADOP answers? -/
def badCommand (op arg : Nat) : Bool := match argLimit op with | some n => decide (n ≤ arg) | none => true

/-- A write of the command register: BUSY goes to 1 (R31, R32). -/
def State.startCommand (s : State) (op arg len : Nat) : State :=
  let m := s.mgmt
  if m.busy then { s with mgmt := { m with lost := true } }
  else { s with mgmt := { m with
    op := BitVec.ofNat 8 op, arg := BitVec.ofNat 16 arg, len := BitVec.ofNat 16 len, busy := true, started := true, mbOld := [] } }

/-- The command that was written is executed (R32, R33). -/
def State.runCommand (s : State) : State :=
  let m := s.mgmt
  if !m.started then s
  else
    let rd := fun (i : Nat) => m.mbArg s.free i
    let s := { s with free := if m.mbOld.isEmpty then s.free else s.free + 1, mgmt := { m with busy := false, started := false, mbOld := [] } }
    if badCommand m.op.toNat m.arg.toNat then s.mbDone cBadOp 0
    else if 4096 < m.len.toNat then s.mbDone cBadLen 0
    else
      match m.op.toNat with
      | 1 => s.mbLog rd
      | 2 => s.mbImage rd m.arg.toNat m.len.toNat
      | 3 => s.mbCommit
      | 4 => s.mbAttest rd
      | 5 => s.mbCert m.arg.toNat
      | 0x10 => s.mbFence m.arg.toNat
      | 0x11 => s.mbReset m.arg.toNat
      | 0x12 => s.mbResume m.arg.toNat
      | _ => s.mbBudget

/-- A command is written and executed with nothing in between. -/
def State.command (s : State) (op arg len : Nat) : State :=
  if s.mgmt.busy then s.startCommand op arg len else (s.startCommand op arg len).runCommand

/-- The command that a step of the agenda carries, if it is of the right kind; a step that carries none executes the command that a
write of the register has started. -/
def State.commandInput (s : State) (f : Nat → Nat → Bool) : State :=
  match s.input with
  | .mailbox op arg len => if f op.toNat arg.toNat then s.command op.toNat arg.toNat len.toNat else s
  | .none => if f s.mgmt.op.toNat s.mgmt.arg.toNat then s.runCommand else s
  | _ => s

/-- The command `op` with an ARG in its range. -/
def isCommand (n : Nat) (op arg : Nat) : Bool := op == n && !badCommand op arg

def execLogread (s : State) : Host.Outcome State Fault Refusal := .next (s.commandInput (isCommand 1))
def execImgwrite (s : State) : Host.Outcome State Fault Refusal := .next (s.commandInput (isCommand 2))
def execImgcommit (s : State) : Host.Outcome State Fault Refusal := .next (s.commandInput (isCommand 3))
def execAttest (s : State) : Host.Outcome State Fault Refusal := .next (s.commandInput (isCommand 4))
def execCert (s : State) : Host.Outcome State Fault Refusal := .next (s.commandInput (isCommand 5))
def execDieFence (s : State) : Host.Outcome State Fault Refusal := .next (s.commandInput (isCommand 0x10))
def execDiereset (s : State) : Host.Outcome State Fault Refusal := .next (s.commandInput (isCommand 0x11))
def execResume (s : State) : Host.Outcome State Fault Refusal := .next (s.commandInput (isCommand 0x12))
def execBudget (s : State) : Host.Outcome State Fault Refusal := .next (s.commandInput (isCommand 0x20))
def execUnknownMailboxOp (s : State) : Host.Outcome State Fault Refusal := .next (s.commandInput badCommand)

/-! ### FENCE_INSTANT and DIE_SELF_TEST_END (R17, R47, R104, R179, R289) -/

/-- Is a transaction lost with its die: sent by the die, or for a queue-bound operation of it, and not accepted (R17, R289)? -/
def State.lostTxn (s : State) (die : Nat) (t : Txn) : Bool :=
  t.core / 24 == die && !t.accepted && (!t.mill || (match s.nb t.gid with | some n => n.out == 0 | none => false))

/-- The die leaves the directory: sharer lists, acknowledgements owed, and lazy ownership (R17, R179). -/
def State.leaveDirectory (s : State) (die : Nat) : State :=
  let bit := BitVec.ofNat 8 (2 ^ die)
  let woken := (s.dir.filter fun p => decide (p.2.waiting ≠ 0) && decide (p.2.waiting &&& ~~~ bit = 0)).map (·.1)
  let s := { s with dir := mapVals {} s.dir fun (d : Dir) =>
    { d with
      sharers := d.sharers &&& ~~~ bit, waiting := d.waiting &&& ~~~ bit
      src := if d.waiting &&& ~~~ bit = 0 then 0 else d.src
      lo := match d.lo with | some c => if c / 24 = die then none else some c | none => none } }
  woken.foldl (fun (s : State) l => s.wakeMonitors l) s

/-- Work-list items of cores that no longer work move to the shared list (R104). -/
def State.moveItems (s : State) (gone : Nat → Bool) : State :=
  s.recs.foldl (fun (s : State) p =>
    let ls := p.2.lists.filter fun l => l.1 < 192 && gone l.1
    if ls.isEmpty then s
    else
      let rc := s.rcd p.1
      let rest := rc.lists.filter fun l => !(l.1 < 192 && gone l.1)
      (s.setRec p.1 { rc with
        lists := Sparse.set [] rest 255 (Sparse.get [] rest 255 ++ ls.flatMap fun l => l.2) }).quietItems p.1) s

/-- The owners of work on a die: gangs with a team there, and spawned groups there (R141, R288). -/
def State.loseDie (s : State) (die : Nat) : State :=
  let us := ((listed s.teams).filter fun p => p.2.core / 24 == die && decide (p.2.st ≠ .suspended)).map (·.1)
  let s := us.foldl (fun (s : State) u => s.loseGang u 0x1B) s
  let gs := ((listed s.groups).filter fun p => p.2.core / 24 == die && p.2.resident && p.2.team.isNone).map (·.1)
  gs.foldl (fun (s : State) g => s.loseSpawned g 0x1B) s

/-- What the caches and TLBs of a die hold is lost, its L2 and L2 TLB among them (R15, R17). -/
def State.dropDieCaches (s : State) (die : Nat) : State :=
  let onDie := fun (key : Nat) => key / 2 ^ 41 / 24 == die
  let agent := fun (key : Nat) => key / 2 ^ 41 / 64
  { s with
    dirty := keep s.dirty fun k _ => !(k / 2 ^ 48 / 24 == die)
    dirtyLines := keep s.dirtyLines fun k _ => !onDie k
    ccache := keep s.ccache fun k _ => !onDie k
    icache := keep s.icache fun k _ => !onDie k
    l2 := keep s.l2 fun k _ => !(k / 2 ^ 41 == die)
    tlb := keep s.tlb fun k _ => !(agent k == 256 + die || (decide (agent k < 192) && agent k / 24 == die)) }

/-- What a die's caches and arrays hold is lost, and the tests of its cores that have begun; one that is deferred is skipped, and logged, when it
tries again (R44). -/
def State.dropDieState (s : State) (die : Nat) : State :=
  let s := s.dropDieCaches die
  { s with
    arrays := keep s.arrays fun c _ => !(c / 24 == die && !(s.array c).fenced)
    mx := keep s.mx fun c _ => !(c / 24 == die)
    mgmt := { s.mgmt with tests := keep s.mgmt.tests fun c t => !(c / 24 == die) || t == .deferred } }

/-- Ended threads of a spawned group whose stores are lost with their die run again, for no decrement may precede its thread's stores (R130,
R141; DESIGN CHOICE, log entry 156). -/
def State.rerunEnded (s : State) (die : Nat) : State :=
  (listed s.decs).foldl (fun (s : State) p =>
    let d := p.2
    let lost := (d.deps.any fun i => match s.txn i with | some t => s.lostTxn die t | none => false) || !s.cleanTo d.core d.ctx p.1
    match s.group d.gid with
    | some g =>
      if d.core / 24 == die && d.sent.isNone && g.resident && g.team.isNone && lost then
        { s.setGroup d.gid { g with spawned := g.spawned.map fun sp => { sp with ended := sp.ended &&& ~~~ d.lanes } } with
          decs := Sparse.set none s.decs p.1 none }
      else s
    | none => s) s

/-- Spawns that a fenced die had sent and no unit has accepted are lost. The lane of a group that has been suspended since spawns again when
it resumes (R15, R120). -/
def State.loseSpawns (s : State) (die : Nat) : State :=
  (listed s.spawns).foldl (fun (s : State) p =>
    if p.2.core / 24 == die then
      ({ s with spawns := Sparse.set none s.spawns p.1 none }).onLane p.2.gid p.2.lane fun ln =>
        if ln.park == Park.spawn p.1 then { ln with park := .none, ready := true } else ln
    else s) s

/-- FENCE_INSTANT: the fence takes hold at the Millpond boundary. -/
def State.fenceInstant (s : State) (k : Nat) : State :=
  let d := s.die k
  if d.st ≠ .fencing then s
  else
    let s := s.rerunEnded k
    let s := { s with txns := keep s.txns fun _ v => match v with | some t => !s.lostTxn k t | none => false }
    let s := ((s.loseDie k).loseSpawns k).dropDieState k
    let s := s.leaveDirectory k
    let s := (s.setDie k { s.die k with st := .fenced, awaiting := false }).logEv .dieFenced 2 (evDie k) [d.cause.toNat]
    let s := s.moveItems fun c => c / 24 == k
    let s := if d.awaiting then s.mbDone cOk 0 else s
    (s.recs.map (·.1)).foldl (fun (s : State) r => s.tailrace r) s

def execFenceInstant (die : Nat) (s : State) : Host.Outcome State Fault Refusal := .next (s.fenceInstant die)

/-- DIE_SELF_TEST_END (R47). Reset clears OFFL when the self-test passes; a die whose self-test fails keeps it (DESIGN CHOICE, log entry
118). -/
def State.selfTestEnd (s : State) (k : Nat) (pass : Bool) : State :=
  let d := s.die k
  if d.st ≠ .resetting then s
  else
    let s := s.setDie k (if pass then { d with st := .ready, offl := 0, awaiting := false }
                         else { d with st := .fenced, cause := 5, awaiting := false })
    let s := s.dropDieCaches k
    let s := if pass then { s with arrays := keep s.arrays fun c _ => !(c / 24 == k) } else s.logEv .dieFenced 2 (evDie k) [5]
    if d.awaiting then s.mbDone (if pass then cOk else cBadState) 0 else s

def execDieSelfTestEnd (die : Nat) (pass : Bool) (s : State) : Host.Outcome State Fault Refusal := .next (s.selfTestEnd die pass)

/-! ### In-field tests (R44, R45, R300) -/

def State.setTest (s : State) (c : Nat) (t : Ift) : State := { s with mgmt := { s.mgmt with tests := Sparse.set .idle s.mgmt.tests c t } }

/-- The drain of a core begins, or, with nothing left on the core, its test. -/
def State.beginDrain (s : State) (c : Nat) : State :=
  if (s.residents c).isEmpty && (s.coreTeams c).isEmpty then s.setTest c .testing else (s.drain c).setTest c .draining

/-- Can the Fantail store take the bits of the core's teams (R295)? -/
def State.drainRoom (s : State) (c : Nat) : Bool :=
  s.bitsFree ((s.drainTeams c).filterMap fun u => (s.team u).map fun t => (u, t))

/-- Is a test of another core under way? No two tests overlap (R44). -/
def State.otherTest (s : State) (c : Nat) : Bool := s.mgmt.tests.any fun p => p.1 != c && decide (p.2 ≠ .idle)

/-- IN_FIELD_TEST: a test falls due once the device is ready; a core that is draining is tested once it is empty. -/
def State.inFieldTest (s : State) (c : Nat) : State :=
  if 192 ≤ c || decide (s.mgmt.boot ≠ .ready) || s.otherTest c then s
  else
    match s.testOf c with
    | .idle =>
      if !s.mgmt.ift then s
      else if (s.die (c / 24)).st ≠ .online then s.logEv .iftSkipped 1 (evCore c) []
      else if s.windowOpen c || !s.kidsSavable c || !s.drainRoom c then s.setTest c .deferred
      else s.beginDrain c
    | .draining => if (s.residents c).isEmpty && (s.coreTeams c).isEmpty then s.setTest c .testing else s
    | _ => s

def execInFieldTest (core : Nat) (s : State) : Host.Outcome State Fault Refusal := .next (s.inFieldTest core)

/-- The windows that are open on a core are overrun (R299, R300). -/
def State.overrunCore (s : State) (c : Nat) : State :=
  (s.residents c).foldl (fun (s : State) p =>
    if p.2.depthNp = 0 then s else s.setGroup p.1 { p.2 with depthNp := 0, overrun := true, preempt := true }) s

/-- IN_FIELD_TEST_RETRY: a deferred test tries again, though IFTEN has been cleared since (DESIGN CHOICE, log entry 119); `late` after
10 ms, when the core is drained regardless or, for want of places to save to, the test is skipped. -/
def State.inFieldTestRetry (s : State) (c : Nat) (late : Bool) : State :=
  match s.testOf c with
  | .deferred =>
    if (s.die (c / 24)).st ≠ .online then (s.setTest c .idle).logEv .iftSkipped 1 (evCore c) []
    else if !s.drainRoom c || !s.kidsSavable c then
      (if late then (s.setTest c .idle).logEv .iftSkipped 1 (evCore c) [] else s)
    else if !s.windowOpen c then s.beginDrain c
    else if late then (s.beginDrain c).overrunCore c
    else s
  | .draining => s.inFieldTest c
  | _ => s

def execInFieldTestRetry (core : Nat) (late : Bool) (s : State) : Host.Outcome State Fault Refusal := .next (s.inFieldTestRetry core late)

/-- IN_FIELD_TEST_END: a core that fails stays offline until its die is reset (R45, R104). -/
def State.inFieldTestEnd (s : State) (c : Nat) (pass : Bool) : State :=
  if s.testOf c ≠ .testing then s
  else
    let s := s.setTest c .idle
    if pass then s
    else
      let d := s.die (c / 24)
      ((s.setDie (c / 24) { d with offl := d.offl ||| BitVec.ofNat 24 (2 ^ (c % 24)) }).logEv .coreFailed 2 (evCore c) []).moveItems
        fun x => x == c

def execInFieldTestEnd (core : Nat) (pass : Bool) (s : State) : Host.Outcome State Fault Refusal := .next (s.inFieldTestEnd core pass)

/-! ### POWER_SAMPLE (R29, R34) -/

/-- The duty after a sample: 1 ms average and present power in W, the highest sensor reading, and whether the previous sample
stood above 3,100 W. -/
def nextDuty (d avg now hi : Nat) (prevHigh : Bool) : Nat :=
  if prevHigh ∧ 3100 < now ∧ 8 < d then 8
  else if 2600 < avg ∨ 105 < hi then Nat.max (d - 1) 4
  else if avg < 2500 ∧ hi ≤ 100 then Nat.min (d + 1) 16
  else d

/-- The controller stops the device (R34). -/
def State.stopDevice (s : State) (src : Nat) : State :=
  (({ s with mgmt := { s.mgmt with boot := .stopped } }).logEv .deviceStopped 3 src []).emit .i3c |>.emit .stopped

/-- The source that the log names for a sensor. The sensors: 0 to 31 four of each compute die, 32 to 39 the SRAM dies, 40 to 51 the
HBM4E base dies, 52 to 55 the Millpond (R34). -/
def sensorSrc (i : Nat) : Nat :=
  if i < 32 then evDie (i / 4) else if i < 40 then evSrc .sram (i - 32) ((i - 32) / 2) else if i < 52 then evSrc .hbm (i - 40) ((i - 40) / 3) else evQuad 0

/-- The highest reading of n sensors from sensor i. -/
def highest (ts : List Nat) (i n : Nat) : Nat := ((ts.drop i).take n).foldl Nat.max 0

/-- A sensor that has crossed 105 or 115 °C since the last sample is logged (R34). -/
def State.logCrossings (s : State) (old : State) (ts : List Nat) : State :=
  (List.range 56).foldl (fun (s : State) i =>
    let t := ts.getD i 0
    let s := if Sparse.get false old.mgmt.sensorHigh i = decide (105 < t) then s else s.logEv .tempCrossing 1 (sensorSrc i) [i, 105, t]
    if Sparse.get false old.mgmt.sensorHot i = decide (115 < t) then s else s.logEv .tempCrossing 1 (sensorSrc i) [i, 115, t]) s

/-- The sensors that read above n. -/
def sensorsAbove (ts : List Nat) (n : Nat) : Sparse Bool := ((List.range 56).filter fun i => decide (n < ts.getD i 0)).map fun i => (i, true)

/-- POWER_SAMPLE: duty, crossings, dies that are too hot, and a stop. -/
def State.powerSample (s : State) : State :=
  match s.input with
  | .sample avg now ts =>
    let old := s
    let d0 := (s.die 0).duty
    let d1 := nextDuty d0 avg now (highest ts 0 56) s.mgmt.powerHigh
    let s := (List.range 8).foldl (fun (s : State) k => s.setDie k { s.die k with duty := d1 }) s
    let s := if d1 < d0 then s.logEv .throttle 1 (evQuad 0) [d1] else if d0 < d1 then s.logEv .release 0 (evQuad 0) [d1] else s
    let s := s.logCrossings old ts
    let s := (List.range 8).foldl (fun (s : State) k =>
      let hot := decide (115 < highest ts (4 * k) 4)
      let s := if hot && (s.die k).hot then s.startFence k 4 else s
      s.setDie k { s.die k with hot := hot }) s
    let mem := (List.range 20).find? fun j => decide (115 < ts.getD (32 + j) 0) && Sparse.get false old.mgmt.sensorHot (32 + j)
    let mill := decide (115 < highest ts 52 4) && old.mgmt.millHot
    let s := { s with mgmt := { s.mgmt with
      powerHigh := decide (3100 < now), millHot := decide (115 < highest ts 52 4)
      sensorHigh := sensorsAbove ts 105, sensorHot := sensorsAbove ts 115 } }
    match mem with
    | some j => s.stopDevice (sensorSrc (32 + j))
    | none => if mill then s.stopDevice (evQuad 0) else s
  | _ => s

def execPowerSample (s : State) : Host.Outcome State Fault Refusal := .next s.powerSample

/-! ### BUDGET_PERIOD (R30, R43, R99) -/

/-- Has a stage pending, running or suspended records? -/
def State.stageBusy (s : State) (r stg : Nat) : Bool :=
  s.stagePending r stg || (s.teamsOf r).any fun p => p.2.task.stg == stg

/-- Occupancy of the queue out of a stage; the last stage counts as empty (R99). -/
def State.occupancy (s : State) (r stg : Nat) : Nat × Nat :=
  let rc := s.rcd r
  if stg + 1 < rc.blk.nstages then ((rc.queue stg).length, (rc.blk.queueAt stg).2) else (0, 1)

/-- The stage that a queue's occupancy asks a core for (R99). -/
def State.wantsCore (s : State) (r q : Nat) : Option Nat :=
  let o := s.occupancy r q
  if 3 * o.2 ≤ 4 * o.1 then some (q + 1)
  else if 4 * o.1 ≤ o.2 && (s.groupsOf r).any fun p => lanes32.any fun l => (p.2.lane l).park == .stageFull q then some q
  else none

/-- One core moves to stage `dst` of a launch, if a stage can give one (R99). -/
def State.moveCore (s : State) (r dst : Nat) : State :=
  let rc := s.rcd r
  let can := (List.range rc.blk.nstages).filter fun g => g != dst && !(s.stageCores r g).isEmpty &&
    (decide (1 < (s.stageCores r g).length) || !s.stageBusy r g)
  match leastBy (fun (a b : Nat) => decide ((s.occupancy r a).1 * (s.occupancy r b).2 < (s.occupancy r b).1 * (s.occupancy r a).2)) can with
  | none => s
  | some g =>
    match (s.stageCores r g).getLast? with
    | none => s
    | some c => s.giveCore r c g dst

/-- Cores that have given up their last team of the old stage belong to the new one. -/
def State.settleMoves (s : State) (r : Nat) : State :=
  let rc := s.rcd r
  s.setRec r { rc with stageCore := rc.stageCore.map fun p =>
    (p.1, if p.2 / 16 = 0 then p.2 else match s.stageOf r p.1 with | some st => st + 1 | none => p.2) }

/-- BUDGET_PERIOD: a table waiting to be active becomes so, and queue occupancy moves cores between stages. -/
def State.budgetPeriod (s : State) : State :=
  let m := s.mgmt
  let s := if m.activating then ({ s with mgmt := { m with active := m.checked, activating := false } }).mbDone cOk 0 else s
  let rs := (s.recs.filter fun p => decide (p.2.st = .running) && decide (1 < p.2.blk.nstages)).map (·.1)
  rs.foldl (fun (s : State) r =>
    (List.range ((s.rcd r).blk.nstages - 1)).foldl (fun (s : State) q =>
      match s.wantsCore r q with
      | some dst => s.moveCore r dst
      | none => s) (s.settleMoves r)) s

def execBudgetPeriod (s : State) : Host.Outcome State Fault Refusal := .next s.budgetPeriod

/-! ### Errors (R18, R19, R287) -/

/-- Last-level cache slice of a line of a quadrant (R24). -/
def sliceOf (n : Nat) : Nat := n % 64 ^^^ n / 2 ^ 6 % 64 ^^^ n / 2 ^ 12 % 64 ^^^ n / 2 ^ 18 % 64 ^^^ n / 2 ^ 24 % 64 ^^^ n / 2 ^ 30 % 4
/-- SRAM die that holds a line (R24). -/
def sramOf (line : Nat) : Nat :=
  let c := line * 128
  let o := if c < carveBase then c % hbmBytes else (c - carveBase) % 0x8000000
  2 * quadOf c + sliceOf (o / 128) / 32

/-- HBM4E channel of line n of a quadrant, 0 to 95, and the line's place in it (R24). -/
def hbmChannel (n : Nat) : Nat := n % 96
def hbmPlace (n : Nat) : Nat := n / 96
/-- The stack that holds line n of quadrant q, and the channel of that stack (R24). -/
def hbmStack (q n : Nat) : Nat × Nat := (3 * q + hbmChannel n / 32, hbmChannel n % 32)

/-- Every sector of a line of SRAM die i is poisoned, with KIND 6 (R19, R190). -/
def State.poisonLine (s : State) (i line : Nat) : State :=
  (List.range 4).foldl (fun (s : State) j => s.poisonSector 6 2 i (line * 128 + 32 * j)) s

/-- An SRAM die leaves service: lines held only there, written since reset and not yet to HBM4E, and its carve-out lines, are poisoned (R19). -/
def State.fenceSram (s : State) (i : Nat) : State :=
  if Sparse.get false s.sramDown i then s
  else
    let q := i / 2
    let s := { s with sramDown := Sparse.set false s.sramDown i true }.logEv .sramDieFailed 2 (evSrc .sram i q) [i]
    if Sparse.get false s.sramDown (i / 2 * 2) && Sparse.get false s.sramDown (i / 2 * 2 + 1) then
      (s.logEv .millpondError 3 (evQuad q) [i]).millpondDies
    else
      let n := s.free
      let lost := (s.llcNew.map (·.1)).filter fun l => sramOf l == i && !Config.writtenBack n l
      let carve := ((List.range ((s.quad q).carve.toNat * 2 ^ 17)).map fun j => (carveBase + q * 0x8000000) / 128 + j).filter fun l => sramOf l == i
      (lost ++ carve).foldl (fun (s : State) l => s.poisonLine i l) { s with free := n + 1 }

/-- BOND_FLIT_ERROR: the die at the bond is fenced (R18, R19). -/
def State.bondError (s : State) : State :=
  match s.input with
  | .bond true i => if i < 8 then s.fenceSram i else s
  | .bond false k => if k < 8 then (s.logEv .bondFlit 1 (evDie k) [k]).startFence k 2 else s
  | _ => s

def execBondFlitError (s : State) : Host.Outcome State Fault Refusal := .next s.bondError

/-- Entries of the caches and TLBs that an error strikes are dropped, and fetched again when they are next needed (R287). -/
def State.dropEntries (s : State) : State :=
  let (n, s) := s.draw
  { s with
    ccache := keep s.ccache fun k _ => !Config.errorDrop n k
    icache := keep s.icache fun k _ => !Config.errorDrop n (2 ^ 64 + k)
    l2 := keep s.l2 fun k _ => !Config.errorDrop n (2 ^ 66 + k)
    pool := keep s.pool fun k _ => !Config.errorDrop n (2 ^ 67 + k)
    tlb := keep s.tlb fun k _ => !Config.errorDrop n (2 ^ 65 + k) }

/-- UNCORRECTABLE_ERROR, by where it occurs (R287); an error that the check code of an LLC or HBM4E array corrects is only counted in the
event log (R180; log entry 130). -/
def State.uncorrectable (s : State) : State :=
  match s.input with
  | .error (.cache (some die) c) => s.dropEntries.logEv .cacheError 1 (evSrc .compute (die % 8) (c % 24)) []
  | .error (.cache none q) => s.dropEntries.logEv .cacheError 1 (evQuad (q % 4)) []
  | .error (.regCorrectable gid l) =>
    (match s.group gid with
     | some g => if decide ((g.lane l).st = .eligible) && g.resident then s.takeTrap gid l 0x39 0 0 else s
     | none => s)
  | .error (.coreState gid) =>
    (match s.group gid with
     | some g => if g.resident then s.loseOwner gid 0x19 else s
     | none => s)
  | .error (.millpond q) => (s.logEv .millpondError 3 (evQuad (q % 4)) []).millpondDies
  | .error (.home loc kind agent index) => s.poisonSector kind agent index loc
  | .error (.corrected loc) => s.logEv .correctedError 0 (evQuad (quadOf loc)) [loc]
  | _ => s

def execUncorrectableError (s : State) : Host.Outcome State Fault Refusal := .next s.uncorrectable

end Sys2Proof.Machine
end

