-- ==== Sys2Proof/Machine/Collect.lean ====
section
/-! DEFINITION. Collect.lean: the collective engines (R67 to R71, R425): COLL, the exchange with the other ranks, the fold, and the
completion of a collective. -/
namespace Sys2Proof.Machine

/-! ### Descriptors and communicators (R67, R68) -/

/-- Is an I/O die present (R20)? -/
def State.iodPresent (s : State) (p : Nat) : Bool :=
  decide (Sparse.get 0 s.modulesUp p < 6) && (match s.mgmt.boot with | .step i => decide (21 + p < i) | .off | .noImage => false | _ => true)

def CollDesc.ofBytes (bs : List Byte) : CollDesc :=
  let f := fieldAt bs
  { send := f 0 8, recv := f 8 8, stamp := f 0x10 8, count := f 0x18 4, op := f 0x1C 1, ty := f 0x1D 1, red := f 0x1E 1, comm := f 0x1F 1,
    root := f 0x20 2 }

/-- The checks of R68 that need no communicator. -/
def collDescOk (bs : List Byte) : Bool :=
  let d := CollDesc.ofBytes bs
  decide (1 ≤ d.count) && decide (d.op < 4) && decide (d.ty < 6) && (decide (2 ≤ d.op) || decide (d.red < 3)) && zeroAt bs 0x22 0x1E

/-- Bytes of an element (R68). -/
def CollDesc.size (d : CollDesc) : Nat :=
  match d.ty with
  | 1 | 2 => 2
  | 3 | 5 => 8
  | _ => 4

def CollDesc.params (d : CollDesc) : CollParams := { op := d.op, ty := d.ty, red := d.red, count := d.count, root := d.root }

/-- Does the record name a communicator (R67, R425)? -/
def commOk (bs : List Byte) : Bool :=
  let size := fieldAt bs 0 2
  decide (1 ≤ size) && decide (size ≤ 1024) && decide (fieldAt bs 2 2 < size) && zeroAt bs 8 0x7F8 &&
  (List.range size).all fun k => decide (fieldAt bs (0x800 + 2 * k) 2 < 1024)

/-- The record of communicator c: none when no memory is there (R67). -/
def State.commCell (s : State) (c : Nat) : Option Nat := (s.viewOf (s.clovar.clcbase.toNat * 4096 + 4096 * c)).map fun v => v.2.2

/-- Can the record be read now? -/
def State.commFree (s : State) (c : Nat) : Bool :=
  match s.commCell c with
  | some a => s.rangeFree a 4096 && !s.poisonedRange a 4096
  | none => true
/-- What reading it waits for is set going. -/
def State.commWait (s : State) (c : Nat) : State :=
  match s.commCell c with
  | some a => s.recallRange a 4096
  | none => s

/-- Elements of the send and of the receive buffer of a rank (R68). -/
def Coll.sendCount (c : Coll) : Nat := if c.desc.op = 1 then c.size * c.desc.count else c.desc.count
def Coll.recvCount (c : Coll) : Nat := if c.desc.op = 2 then c.size * c.desc.count else c.desc.count

def State.coll (s : State) (id : Nat) : Option Coll := Sparse.get none s.clovar.colls id
def State.setColl (s : State) (id : Nat) (c : Option Coll) : State :=
  { s with clovar := { s.clovar with colls := Sparse.set none s.clovar.colls id c } }
/-- The collective i of a communicator in an engine. -/
def State.findColl (s : State) (eng comm num : Nat) : Option (Nat × Coll) :=
  (listed s.clovar.colls).find? fun p => p.2.eng == eng && p.2.comm == comm && p.2.num == num

def Coll.requester (c : Coll) (id : Nat) : Eng :=
  { id := id, agent := 196 + c.eng, core := c.core, ctx := c.ctx, launch := c.launch, src := srcIod c.eng }

/-! ### The exchange (R62, R68, R71, R425) -/

/-- Ports of the engine's die through which a node can be reached. -/
def State.enginePorts (s : State) (eng n : Nat) : List Nat := (s.nodePorts n).filter fun p => p / 9 == eng

/-- A message to every other rank that the engine can reach. -/
def State.collTell (s : State) (c : Coll) (st : Nat) (data : List (DWord × Bool)) : State :=
  (List.range c.size).foldl (fun (s : State) k =>
    let n := c.nodes.getD k 0
    if k = c.rank || (s.enginePorts c.eng n).isEmpty then s
    else s.emit (.collective c.eng c.comm n c.num st c.desc.params data)) s

/-- The collective ends with a status other than OK; FAILED and FAULT are told to the other ranks, and the rank that faulted logs the
address, not one that is told of it (R71). -/
def State.collEnd (s : State) (id st va : Nat) (told : Bool := false) : State :=
  match s.coll id with
  | none => s
  | some c =>
    let (n, s) := s.draw
    let s := s.setColl id (some { c with status := st, ended := true, pos := 0, seed := n })
    let s := if st = 3 ∧ told = false then s.logEv .collectiveFault 2 (evIod c.eng) [c.comm, c.num, va] else s
    if st = 2 ∨ st = 3 then s.collTell c st [] else s

/-- Have all ranks joined? -/
def Coll.joined (c : Coll) : Bool := (List.range c.size).all fun k => (Sparse.get none c.params k).isSome
/-- Do the parameters of all ranks known agree? -/
def Coll.agrees (c : Coll) : Bool := (listed c.params).all fun p => p.2 == c.desc.params
/-- Has the engine the elements of every rank that the operation takes? -/
def Coll.dataIn (c : Coll) : Bool :=
  if c.desc.op = 3 then (!(Sparse.get [] c.data c.desc.root).isEmpty)
  else (List.range c.size).all fun k => !(Sparse.get [] c.data k).isEmpty

/-- COLLECTIVE_TRAFFIC: a message of another rank. -/
def State.collTraffic (s : State) : State :=
  match s.input with
  | .collective eng comm node num st p data =>
    (match s.findColl eng comm num with
     | some (id, c) =>
       (match (List.range c.size).find? fun k => k != c.rank && c.nodes.getD k 1024 == node with
        | some k =>
          if c.ended then s
          else if st = 2 ∨ st = 3 then s.collEnd id st 0 true
          else
            let c := { c with
              params := Sparse.set none c.params k (some p)
              data := if data.isEmpty then c.data else Sparse.set [] c.data k data }
            let s := s.setColl id (some c)
            if c.agrees then s else s.collEnd id 1 0
        | none => s.logEv .collectiveDrop 1 (evIod eng) [comm, node, num])
     | none => s.logEv .collectiveDrop 1 (evIod eng) [comm, node, num])
  | _ => s

def execCollectiveTraffic (s : State) : Host.Outcome State Fault Refusal := .next s.collTraffic

/-! ### The fold (R69) -/

def collFmt (ty : Nat) : Option Format :=
  match ty with
  | 0 => some fmt32
  | 1 => some fmtB16
  | 2 => some fmt16
  | 3 => some fmt64
  | _ => none

/-- A floating-point addition of the engine. -/
def Format.collAdd (F : Format) (a b : Nat × BitVec 5) : Nat × BitVec 5 :=
  let r := (F.op false false [a.1, b.1] fun vs => F.add 0 (nth vs 0) (nth vs 1)).getD (0, 0)
  (r.1, a.2 ||| b.2 ||| r.2)

/-- The sum of the ranks' values in rank order; bf16 and f16 sum in FP32. -/
def Format.collSum (F : Format) (v : Nat) (vs : List Nat) : Nat × BitVec 5 :=
  if vs.isEmpty then (v, 0)
  else if F.w = 16 then
    let up := fun (x : Nat) => (convFloat F fmt32 false false 0 x).getD (0, 0)
    let r := vs.foldl (fun a x => fmt32.collAdd a (up x)) (up v)
    let d := (convFloat fmt32 F false false 0 r.1).getD (0, 0)
    (d.1, r.2 ||| d.2)
  else vs.foldl (fun a x => F.collAdd a (x, 0)) (v, 0)

/-- The fold of the ranks' values, and its flags. -/
def collFold (ty red : Nat) (v : Nat) (vs : List Nat) : Nat × BitVec 5 :=
  match collFmt ty with
  | some F =>
    if red = 0 then F.collSum v vs
    else vs.foldl (fun a x => let r := (F.minMax false false (red == 2) false a.1 x).getD (0, 0)
                              (r.1, a.2 ||| r.2)) (v, 0)
  | none =>
    let w := if ty = 4 then 32 else 64
    let less := fun (x y : Nat) => decide (sextInt x w < sextInt y w)
    (vs.foldl (fun a x =>
      if red = 0 then (a + x) % 2 ^ w
      else if red = 1 then (if less x a then x else a)
      else (if less a x then x else a)) v, 0)

/-- Element i of rank k's send buffer. -/
def Coll.elem (c : Coll) (k i : Nat) : DWord × Bool := (Sparse.get [] c.data k).getD i (0, false)

/-- Element j of this rank's receive buffer, its flags, and whether a poisoned element went into it. -/
def Coll.result (c : Coll) (j : Nat) : Nat × BitVec 5 × Bool :=
  let d := c.desc
  if d.op = 2 then let e := c.elem (j / d.count) (j % d.count); (e.1.toNat, 0, e.2)
  else if d.op = 3 then let e := c.elem d.root j; (e.1.toNat, 0, e.2)
  else
    let es := (List.range c.size).map fun k => c.elem k (if d.op = 1 then c.rank * d.count + j else j)
    match es with
    | [] => (0, 0, false)
    | e :: r =>
      let x := collFold d.ty d.red e.1.toNat (r.map fun y => y.1.toNat)
      (x.1, x.2, es.any fun y => y.2)

/-- The flags of the stamp. -/
def Coll.flags (c : Coll) : BitVec 5 :=
  if c.status = 0 then (List.range c.recvCount).foldl (fun f j => f ||| (c.result j).2.1) 0 else 0

/-- n bytes of the receive buffer from byte i; after FAULT and FAILED nothing constrains them (R71). -/
def Coll.recvBytes (c : Coll) (i n : Nat) : List Byte :=
  (List.range n).map fun j =>
    if c.status = 0 then (toLE c.desc.size (c.result ((i + j) / c.desc.size)).1).getD ((i + j) % c.desc.size) 0
    else Config.collUndefined c.seed (i + j)

/-- Does one of these bytes come from a poisoned element? -/
def Coll.recvPoison (c : Coll) (i n : Nat) : Bool :=
  decide (c.status = 0) && (List.range n).any fun j => (c.result ((i + j) / c.desc.size)).2.2

/-! ### COLLECTIVE_COMPLETION, COLLECTIVE_TIMEOUT (R70, R71) -/

/-- The pages of a range, by one address in each. -/
def pagesOf (va n : Nat) : List Nat :=
  va :: ((List.range ((va % 65536 + n + 65535) / 65536)).map fun i => va / 65536 * 65536 + 65536 * i).filter fun a => va < a

/-- Translate these addresses for the engine: the first that faults, or none; false while a walk must wait. -/
def State.collPages (s : State) (e : Eng) (acc : Acc) : List Nat → Bool × Option Nat × State
  | [] => (true, none, s)
  | va :: vs =>
    match s.engCheck e va 1 acc with
    | (.ok .., s) => s.collPages e acc vs
    | (.trap _, s) => (true, some va, s)
    | (.park .., s) => (true, some va, s)
    | (_, s) => (false, none, s)

/-- The bytes of a range, each with its poison; none while a read waits. -/
def State.collRead (s : State) (e : Eng) : List (Nat × Nat) → Option (Except Nat (List (Byte × Bool))) × State
  | [] => (some (.ok []), s)
  | p :: ps =>
    match s.engRead e p.1 p.2 with
    | (.ok bs q, s) =>
      (match s.collRead e ps with
       | (some (.ok r), s) => (some (.ok ((bs.map fun b => (b, q)) ++ r)), s)
       | r => r)
    | (.wait, s) => (none, s)
    | (_, s) => (some (.error p.1), s)

/-- Elements of n bytes. -/
def elemsOf (n : Nat) (bs : List (Byte × Bool)) : Nat → List (DWord × Bool)
  | 0 => []
  | m + 1 => (BitVec.ofNat 64 (leNat ((bs.take n).map (·.1))), (bs.take n).any (·.2)) :: elemsOf n (bs.drop n) m

/-- Does this rank's send buffer take part? -/
def Coll.sends (c : Coll) : Bool := c.desc.op != 3 || c.desc.root == c.rank

/-- All ranks having joined, this rank's addresses are translated, and its elements read and sent. -/
def State.collSend (s : State) (id : Nat) (c : Coll) : State :=
  let e := c.requester id
  let d := c.desc
  match s.collPages e .store (d.stamp :: pagesOf d.recv (c.recvCount * d.size)) with
  | (false, _, s) => s
  | (true, some va, s) => s.collEnd id 3 va
  | (true, none, s) =>
    if !c.sends then s.setColl id (some { c with own := true })
    else
      match s.collRead e (sectorPieces d.send (c.sendCount * d.size)) with
      | (none, s) => s
      | (some (.error va), s) => s.collEnd id 3 va
      | (some (.ok bs), s) =>
        let es := elemsOf d.size bs c.sendCount
        (s.setColl id (some { c with own := true, data := Sparse.set [] c.data c.rank es })).collTell c 0 es

/-- The receive buffer is written sector by sector; true when nothing is left. -/
def State.collWrites (s : State) (id : Nat) : List (Nat × Nat) → Bool × State
  | [] => (true, s)
  | p :: ps =>
    match s.coll id with
    | none => (false, s)
    | some c =>
      let i := p.1 - c.desc.recv
      let go := fun (s : State) => s.setColl id (some { c with pos := c.pos + 1 })
      match s.engWrite (c.requester id) p.1 (c.recvBytes i p.2) (c.recvPoison i p.2) (i == 0 || decide (p.1 % 128 < 32)) with
      | (.ok .., s) => (go s).collWrites id ps
      | (.wait, s) => (false, s)
      | (_, s) => if c.status = 0 then (false, s.collEnd id 3 p.1) else (go s).collWrites id ps

/-- The 8 bytes of a collective's stamp (R70). -/
def collStamp (num st : Nat) (fl : BitVec 5) : List Byte := toLE 8 (num % 2 ^ 32 + 2 ^ 32 * st + 2 ^ 40 * fl.toNat)

/-- The collective leaves its engine. -/
def State.dropColl (s : State) (id : Nat) (c : Coll) : State := ((s.setColl id none).setBuf id []).freeRoom (.collective c.eng)

/-- The stamp is written last, once the receive buffer is visible. -/
def State.collFinish (s : State) (id : Nat) (c : Coll) : State :=
  if !s.engSettled id then s
  else
    match s.engWrite (c.requester id) c.desc.stamp (collStamp c.num c.status c.flags) false true with
    | (.ok .., s) => s.dropColl id c
    | (.wait, s) => s
    | (_, s) => (s.logEv .stampUnwritable 2 (evIod c.eng) [c.comm, c.num]).dropColl id c

/-- Sectors of the receive buffer still to be written; none after MISMATCH. -/
def Coll.writes (c : Coll) : List (Nat × Nat) :=
  if c.status = 1 then [] else (sectorPieces c.desc.recv (c.recvCount * c.desc.size)).drop c.pos

/-- COLLECTIVE_COMPLETION: a collective goes on as far as it can: its elements, the receive buffer, the stamp. -/
def State.collStep (s : State) (id : Nat) : State :=
  let s := match s.coll id with
    | some c => if !c.ended && c.joined && !c.own then s.collSend id c else s
    | none => s
  let s := match s.coll id with
    | some c => if !c.ended && c.joined && c.own && c.dataIn then s.setColl id (some { c with ended := true }) else s
    | none => s
  match s.coll id with
  | none => s
  | some c =>
    if !c.ended then s
    else
      match s.collWrites id c.writes with
      | (false, s) => s
      | (true, s) => (match s.coll id with | some c => s.collFinish id c | none => s)

def execCollectiveCompletion (eng comm num : Nat) (s : State) : Host.Outcome State Fault Refusal :=
  .next (match s.findColl eng comm num with | some p => s.collStep p.1 | none => s)

/-- COLLECTIVE_TIMEOUT: a rank has not joined, or not answered, in time (R66, R71). -/
def State.collTimeout (s : State) (eng comm num : Nat) : State :=
  match s.findColl eng comm num with
  | some (id, c) => if !c.ended && !(c.joined && c.dataIn) then s.collEnd id 2 0 else s
  | none => s

def execCollectiveTimeout (eng comm num : Nat) (s : State) : Host.Outcome State Fault Refusal := .next (s.collTimeout eng comm num)

/-! ### COLL (R425) -/

/-- The engine that takes the collectives of a communicator. -/
def State.collEngine (s : State) (comm : Nat) : Option Nat :=
  if s.iodPresent (comm % 2) then some (comm % 2) else if s.iodPresent (1 - comm % 2) then some (1 - comm % 2) else none

/-- A collective takes the next number of its communicator. -/
def State.nextCollNum (s : State) (comm : Nat) : Nat × State :=
  let n := Sparse.get 0 s.clovar.collNum comm + 1
  (n, { s with clovar := { s.clovar with collNum := Sparse.set 0 s.clovar.collNum comm n } })

/-- With no I/O die present the home of the stamp writes it at once, with FAILED. -/
def State.collNoDie (s : State) (c : Ctl) (d : CollDesc) : LaneRes × State :=
  let k := s.ctxOf c.g
  match s.millAt k d.stamp 8 .store with
  | (.wait, s) => (.stay, s)
  | (.cell a, s) =>
    let (n, s) := s.nextCollNum d.comm
    (pending, s.millWrite a (collStamp n 2 0))
  | (.far leaf tgt a, s) =>
    let (n, s) := s.nextCollNum d.comm
    let (id, s) := s.fresh
    let part : Part := { lane := 32, addr := a, va := d.stamp, len := 8, op := .store, data := collStamp n 2 0 }
    (pending, s.setTxn id (some { core := c.g.core, mill := true, gid := id, ctx := k, launch := c.g.launch, tgt := tgt, line := a / 128, parts := [part],
                                  scope := .sys, lvl := leaf.lvl, word := id }))
  | (.bad, s) => (pending, (s.nextCollNum d.comm).2.logEv .stampUnwritable 2 (evQuad (k % 4)) [d.comm])

/-- The collective arrives at its engine: it takes its number, and its parameters go to the other ranks; a record that names no
communicator ends it at once with FAULT. DESIGN CHOICE (log entry 131): they are sent once, here, and never again. -/
def State.collIssue (s : State) (c : Ctl) (eng : Nat) (d : CollDesc) (rcrd : List Byte) : State :=
  let (n, s) := s.nextCollNum d.comm
  let (id, s) := s.fresh
  let size := fieldAt rcrd 0 2
  let rank := fieldAt rcrd 2 2
  let ok := commOk rcrd
  let x : Coll :=
    { eng := eng, comm := d.comm, num := n, ctx := s.ctxOf c.g, launch := c.g.launch, core := c.g.core, desc := d
      size := if ok then size else 1, rank := if ok then rank else 0
      nodes := if ok then (List.range size).map fun k => fieldAt rcrd (0x800 + 2 * k) 2 else []
      params := if ok then [(rank, some d.params)] else [] }
  let s := s.setColl id (some x)
  if ok then s.collTell x 0 [] else s.collEnd id 3 0

/-- The descriptor's communicator record: its bytes, all zero where there is no memory. -/
def State.commBytes (s : State) (comm : Nat) : List Byte :=
  match s.commCell comm with
  | some a => s.cells a 4096
  | none => List.replicate 4096 0

/-- The I/O die reads the communicator's record: its lines are counted (R25, R67). -/
def State.countComm (s : State) (eng comm : Nat) : State :=
  match s.commCell comm with
  | some a => s.countLines (srcIod eng) a 4096
  | none => s

/-- COLL in one lane, its descriptor read. -/
def State.collLane (s : State) (c : Ctl) (l : Nat) (bs : List Byte) : LaneRes × State :=
  let d := CollDesc.ofBytes bs
  if !collDescOk bs then (badOperand, s.dropPlaces c.gid l)
  else
    match s.collEngine d.comm with
    | none => (s.dropPlaces c.gid l).collNoDie c d
    | some eng =>
      if !s.roomFor (.collective eng) c.gid l then s.noRoom (.collective eng) c.gid l
      else
      let s := s.tookRoom (.collective eng) c.gid l
      if !s.commFree d.comm then (.stay, s.commWait d.comm)
      else
        let rcrd := s.commBytes d.comm
        let s := s.countComm eng d.comm
        if d.op = 3 ∧ commOk rcrd = true ∧ fieldAt rcrd 0 2 ≤ d.root then (badOperand, s)
        else (pending, s.collIssue c eng d rcrd)

/-- The engine that a lane's collective needs room in, if its descriptor can be read now and is one. -/
def State.collNeeds (s : State) (g : Bool) (a : RegIx) (c : Ctl) (l : Nat) : Option Engine :=
  match blockAt g a c l with
  | some va => (match (s.readGlobal false c.g c.gid va 64 4).1 with
    | .bytes bs => if collDescOk bs then (s.collEngine (CollDesc.ofBytes bs).comm).map .collective else none
    | _ => none)
  | none => none

/-- Is the word ready, as far as the engines' room goes (R455)? -/
def State.collReady (s : State) (g : Bool) (a : RegIx) (c : Ctl) : Bool :=
  let needs := (lanesOf c.act).filterMap fun l => s.collNeeds g a c l
  needs.isEmpty || needs.any fun e => s.hasRoom e

/-- How a COLL runs: a release at system scope, its descriptors read first. -/
def collOps (g : Bool) (a : RegIx) : WordOps :=
  let o := readOps 64 (blockAt g a)
  relOps { o with ready := fun c s => o.ready c s && s.collReady g a c } .sys false fun _ _ _ => true

/-- After a lane that has found no room every later one parks for the same engine, whatever its operands (R455). -/
def execColl (h : Hdr) (g : Bool) (a : RegIx) (s : State) : Host.Outcome State Fault Refusal :=
  s.word (.coll h g a) h (collOps g a) fun c l s =>
    match s.cur.full with
    | some e => s.noRoom e c.gid l
    | none =>
    match s.lostLink c.gid l with
    | some s => (.trap 0x2B 0 0, s.dropPlaces c.gid l)
    | none =>
      match blockVa ((c.env l).a64 g a).toNat with
      | .error r => (r, s.dropPlaces c.gid l)
      | .ok va =>
        match s.readGlobal true c.g c.gid va 64 4 with
        | (.wait, s) => (.stay, s)
        | (.no r, s) => (r, s.dropPlaces c.gid l)
        | (.bytes bs, s) => s.collLane c l bs

end Sys2Proof.Machine
end

