-- ==== Sys2Proof/Machine/Regs.lean ====
section
/-! DEFINITION. Regs.lean: the register maps of PF0's BAR0 (R25, R31, R50, R59, R73, R77, R171, R190, R282, R428, R454): what a read
gives, and what a write does, whole or by halves; the steps of the context registers. -/
namespace Sys2Proof.Machine

/-! ### Which register (R454) -/

/-- A register of the maps. -/
inductive RegName where
  | quad (q off : Nat)
  | mgmt (off : Nat)
  | clovar (off : Nat)
  | winbase (port f : Nat)
  | ctx (k off : Nat)
  | bell (k j : Nat)
deriving DecidableEq, Repr

/-- Offsets of the registers of a quadrant, of the controller and of the Clovar unit. -/
def quadReg (o : Nat) : Bool := (o ≤ 0x20) || (0x800 ≤ o && o < 0x1000)
def mgmtReg (o : Nat) : Bool := o ≤ 0x10 || (0x40 ≤ o && o < 0x80) || (0x100 ≤ o && o ≤ 0x150 && (o ≤ 0x140 || o == 0x150))
def clovarReg (o : Nat) : Bool := o ≤ 0x90 || o == 0x100 || (0x1000 ≤ o && o < 0x3000)

/-- The register at a multiple of 8 of PF0's BAR0. -/
def regAt (off : Nat) : Option RegName :=
  if 0x100000 ≤ off ∧ off < 0x140000 then
    let o := (off - 0x100000) % 0x10000
    if quadReg o then some (.quad ((off - 0x100000) / 0x10000) o) else none
  else if 0x200000 ≤ off ∧ off < 0x201000 then
    if mgmtReg (off - 0x200000) then some (.mgmt (off - 0x200000)) else none
  else if 0x300000 ≤ off ∧ off < 0x303000 then
    if clovarReg (off - 0x300000) then some (.clovar (off - 0x300000)) else none
  else if 0x400000 ≤ off ∧ off < 0x402000 then
    let o := (off - 0x400000) % 0x1000
    if o < 0x100 then some (.winbase ((off - 0x400000) / 0x1000) (o / 8)) else none
  else if 0x500000 ≤ off ∧ off < 0x504000 then some (.ctx ((off - 0x500000) / 0x100) ((off - 0x500000) % 0x100))
  else if 0x600000 ≤ off ∧ off < 0x610000 then
    let o := (off - 0x600000) % 0x400
    if o < 0x40 then some (.bell ((off - 0x600000) / 0x400) (o / 8)) else none
  else none

/-- Quadrant that homes a register (R456). -/
def regQuad (off : Nat) : Nat :=
  match regAt (off / 8 * 8) with
  | some (.quad q _) => q
  | some (.ctx k _) => k % 4
  | some (.bell k _) => k % 4
  | _ => 0

/-- Offsets of the mailbox buffer. -/
def isMbbuf (off : Nat) : Bool := decide (0x201000 ≤ off) && decide (off < 0x202000)

/-- Is an access of n bytes at this offset served (R454)? -/
def regServed (off n : Nat) : Bool :=
  if isMbbuf off then decide (1 ≤ n) && decide (n ≤ 8) && off % n == 0 && isMbbuf (off + n - 1)
  else ((n == 8 && off % 8 == 0) || (n == 4 && off % 4 == 0)) && (regAt (off / 8 * 8)).isSome

/-! ### Reading -/

/-- Retained launches of a context. -/
def State.retained (s : State) (k : Nat) : Bool := s.recs.any fun p => decide (p.2.st ≠ .free) && p.2.ctx == k

def State.readQuad (s : State) (q o : Nat) : Nat :=
  let d := s.quad q
  if o = 0 then d.carve.toNat
  else if o = 8 then d.lreq.toNat
  else if o = 0x10 then d.rreq.toNat
  else if o = 0x18 then d.oreq.toNat
  else if o = 0x20 then d.plprod.toNat
  else if 0x800 ≤ o then (Sparse.get 0 d.plog ((o - 0x800) / 8)).toNat
  else 0

def State.readMgmt (s : State) (o : Nat) : Nat :=
  let m := s.mgmt
  if o = 0 then m.len.toNat * 2 ^ 32 + m.arg.toNat * 2 ^ 16 + m.op.toNat
  else if o = 8 then m.rlen.toNat * 2 ^ 32 + b2n m.busy * 2 ^ 31 + b2n m.lost * 2 ^ 30 + m.code.toNat
  else if o = 0x10 then m.evprod
  else if 0x40 ≤ o ∧ o < 0x80 then
    let d := s.die ((o - 0x40) / 8)
    d.offl.toNat * 2 ^ 16 + d.cause.toNat * 16 + d.st.code
  else if 0x100 ≤ o ∧ o ≤ 0x140 then (m.staged.getD ((o - 0x100) / 8) 0).toNat
  else if o = 0x150 then b2n m.ift
  else 0

/-- The PORTS mask of a node as last written (R59, R64). -/
def Clovar.mask (c : Clovar) (n : Nat) : BitVec 18 := (Sparse.get none c.nextRoutes n).getD (Sparse.get 0 c.routes n)

def State.readClovar (s : State) (o : Nat) : Nat :=
  let c := s.clovar
  if o = 0 then b2n c.den * 2 ^ 16 + c.node.toNat
  else if o ≤ 0x90 then
    let p := Sparse.get ({} : CPort) c.ports ((o - 8) / 8)
    p.retry.toNat * 2 ^ 32 + p.peer.toNat * 2 ^ 16 + p.lst.toNat
  else if o = 0x100 then c.clcbase.toNat * 2 ^ 12
  else if 0x1000 ≤ o then (c.mask ((o - 0x1000) / 8)).toNat
  else 0

def State.readCtx (s : State) (k o : Nat) : Nat :=
  let c := s.ctx k
  if o = 0 then
    c.pasid.toNat * 2 ^ 24 + c.pceil.toNat * 2 ^ 16 + c.port.toNat * 2 ^ 14 + c.func.toNat * 2 ^ 9 + b2n c.priv * 16 +
      b2n (c.kreq && !s.retained k) * 8 + b2n c.kreq * 4 + b2n c.halt * 2 + b2n c.en
  else if o = 8 then c.ptroot.toNat * 2 ^ 12
  else if o = 0x10 then c.invva.toNat * 2 ^ 12
  else if o = 0x18 then b2n c.invbusy
  else if o = 0x20 then c.locbase.toNat * 2 ^ 16
  else if o = 0x28 then c.locfr.toNat * 2 ^ 16 + c.locsz.toNat
  else if o = 0x30 then c.handler.toNat * 8 + b2n c.ten
  else if o = 0x38 then c.frbase.toNat * 2 ^ 12 + c.frlog.toNat
  else if o < 0xC0 then
    let q := c.queue ((o - 0x40) / 16)
    if o % 16 = 0 then q.qring.toNat * 2 ^ 8
    else (if c.en then q.cidx.toNat else 0) * 2 ^ 32 + b2n q.qerr * 2 ^ 31 + q.qlog.toNat
  else if o = 0xC0 then c.frprod.toNat * 2 ^ 32 + c.frcons.toNat
  else if o = 0xC8 then c.verd.toNat * 2 ^ 32 + c.rid.toNat
  else if o = 0xD0 then b2n (decide (c.popSt ≠ .idle)) * 2 ^ 31 + c.pop.toNat * 2 ^ 12 + c.prec.toNat
  else if o = 0xD8 then c.cutstep.toNat * 2 ^ 32 + c.pres.toNat
  else if o = 0xE0 then b2n c.frie * 2 ^ 11 + c.friv.toNat
  else
    match c.svcs with
    | [] => if o = 0xF0 then b2n c.svcie * 2 ^ 40 else if o = 0xF8 then c.svcret.toNat else 0
    | v :: _ =>
      if o = 0xE8 then v.arg.toNat
      else if o = 0xF0 then
        b2n c.svcie * 2 ^ 40 + v.num.toNat * 2 ^ 32 + 2 ^ 31 + v.launch % 4096 * 2 ^ 16 + v.core % 256 * 2 ^ 8 + v.lane % 32
      else c.svcret.toNat

/-- The value of a register. -/
def State.readReg (s : State) (r : RegName) : Nat :=
  match r with
  | .quad q o => s.readQuad q o
  | .mgmt o => s.readMgmt o
  | .clovar o => s.readClovar o
  | .winbase p f => (Sparse.get 0 (s.port p).winbase f).toNat * 2 ^ 26
  | .ctx k o => s.readCtx k o
  | .bell k j => ((s.ctx k).queue j).pidx.toNat

/-- A read of n bytes at an offset of PF0's BAR0 that is served. -/
def State.regRead (s : State) (off n : Nat) : List Byte :=
  if isMbbuf off then s.mgmt.mbBytes (off - 0x201000) n
  else
    match regAt (off / 8 * 8) with
    | some r => ((toLE 8 (s.readReg r)).drop (off % 8)).take n
    | none => List.replicate n 0

/-! ### Quadrants, controller, Clovar and windows (R25, R31, R50, R59) -/

/-- Does any context exist? -/
def State.anyContext (s : State) : Bool := s.ctxs.any fun p => p.2.en

def State.writeQuad (s : State) (q o : Nat) (v : Nat) : State :=
  let d := s.quad q
  if o = 0 then (if 8 < v % 16 || s.anyContext then s else s.setQuad q { d with carve := BitVec.ofNat 4 v })
  else if o = 8 then s.setQuad q { d with lreq := BitVec.ofNat 64 v }
  else if o = 0x10 then s.setQuad q { d with rreq := BitVec.ofNat 64 v }
  else if o = 0x18 then s.setQuad q { d with oreq := BitVec.ofNat 64 v }
  else s

/-- A write of a register of the controller; `lo` and `hi` say which halves are written. -/
def State.writeMgmt (s : State) (o : Nat) (lo hi : Bool) (v : Nat) : State :=
  let m := s.mgmt
  if o = 0 then
    if lo then s.startCommand (nbits v 7 0) (nbits v 31 16) (nbits v 47 32)
    else if hi && !m.busy then { s with mgmt := { m with len := BitVec.ofNat 16 (nbits v 47 32) } }
    else s
  else if o = 8 then (if lo && nbit v 30 then { s with mgmt := { m with lost := false } } else s)
  else if 0x100 ≤ o ∧ o ≤ 0x140 then { s with mgmt := { m with staged := m.staged.set ((o - 0x100) / 8) (BitVec.ofNat 17 v) } }
  else if o = 0x150 then
    let s' := { s with mgmt := { m with ift := nbit v 0 } }
    if nbit v 0 = m.ift then s' else s'.logEv .iftChanged 1 (evQuad 0) [b2n (nbit v 0)]
  else s

/-- Requests to a node that are out. -/
def State.nodeOut (s : State) (n : Nat) : Bool := (listed s.txns).any fun p => p.2.tgt == .node n && p.2.accepted

/-- The set of ports of a node changes: at once, or, with requests out, when they have ended (R64). -/
def State.setRoute (s : State) (n : Nat) (m : BitVec 18) : State :=
  let c := s.clovar
  if s.nodeOut n then { s with clovar := { c with nextRoutes := Sparse.set none c.nextRoutes n (some m) } }
  else { s with clovar := { c with routes := Sparse.set 0 c.routes n m, nextRoutes := Sparse.set none c.nextRoutes n none } }

/-- A set that waited is applied, if nothing is out to its node any more. -/
def State.applyRoute (s : State) (n : Nat) : State :=
  match Sparse.get none s.clovar.nextRoutes n with
  | some m => if s.nodeOut n then s else s.setRoute n m
  | none => s

/-- PORTS: a write of a node's entry. -/
def execPorts (s : State) : Host.Outcome State Fault Refusal :=
  .next (match s.input with
    | .route n m => if n < 1024 then s.setRoute n m else s
    | _ => s)

def State.writeClovar (s : State) (o : Nat) (hi : Bool) (v : Nat) : State :=
  let c := s.clovar
  if o = 0 then
    let den := nbit v 16
    { s with clovar := { c with
        den := den, node := if c.den then c.node else BitVec.ofNat 10 v, refused := if den = c.den then c.refused else [] } }
  else if o ≤ 0x90 then
    let p := Sparse.get ({} : CPort) c.ports ((o - 8) / 8)
    if hi && nbits v 47 32 ≠ 0 then { s with clovar := { c with ports := Sparse.set {} c.ports ((o - 8) / 8) { p with retry := 0 } } } else s
  else if o = 0x100 then { s with clovar := { c with clcbase := BitVec.ofNat 40 (nbits v 51 12) } }
  else if 0x1000 ≤ o then s.setRoute ((o - 0x1000) / 8) (BitVec.ofNat 18 v)
  else s

/-! ### Contexts (R73 to R76) -/

/-- Context k comes to exist: its indexes start at 0 (R74). -/
def Ctx.enable (c : Ctx) : Ctx :=
  { c with
    en := true, frprod := 0, frcons := 0
    queues := mapVals {} c.queues fun (q : Queue) => { q with cidx := 0, pidx := 0 } }
/-- It ceases to exist; stopped queues may run again once it is enabled (R80). -/
def Ctx.disable (c : Ctx) : Ctx := { c with en := false, queues := mapVals {} c.queues fun (q : Queue) => { q with stopped := false } }

/-- While KREQ is 1 every retained launch of the context ends with KILLED (R76). -/
def State.killContext (s : State) (k : Nat) : State :=
  ((s.recs.filter fun p => p.2.ctx == k).map (·.1)).foldl (fun (s : State) r => s.endLaunch r .killed 0x01) s

/-- A write of the control register; a write that clears EN is ignored while a launch is retained (R74). -/
def State.writeControl (s : State) (k v : Nat) : State :=
  let c := s.ctx k
  let en := nbit v 0
  if c.en && !en && s.retained k then s
  else
    let c1 : Ctx := if c.en then c else
      { c with pasid := BitVec.ofNat 20 (nbits v 43 24), port := BitVec.ofNat 1 (nbits v 14 14), func := BitVec.ofNat 5 (nbits v 13 9) }
    let c2 : Ctx := { c1 with pceil := BitVec.ofNat 5 (nbits v 20 16), priv := nbit v 4, kreq := nbit v 2, halt := nbit v 1 }
    let c3 := if !c.en && en then c2.enable else if c.en && !en then c2.disable else c2
    let s := s.setCtx k c3
    if nbit v 2 then s.killContext k else s

/-- Does a leaf found for page p cover virtual address va? -/
def Leaf.covers (l : Leaf) (p va : Nat) : Bool := va / levelSpan l.level == p * 65536 / levelSpan l.level

/-- Does an entry that a walker pool holds belong to the context, and to the path of the page (R75)? -/
def poolHit (k : Nat) (page : Option Nat) (key : Nat) : Bool :=
  let lv := key / 2 ^ 41 % 4
  key / 2 ^ 43 % 64 == k && (match page with | some va => key % 2 ^ 41 == va / levelSpan lv | none => true)

/-- Lanes of the context that wait in JWAIT for a counter whose translation is dropped replay their word, which is translated afresh (R75). -/
def State.rewait (s : State) (k : Nat) (page : Option Nat) : State :=
  (listed s.groups).foldl (fun (s : State) p =>
    if (s.rcd p.2.launch).ctx ≠ k then s
    else
      lanes32.foldl (fun (s : State) l => match (p.2.lane l).park with
        | .jwait _ va =>
          if (p.2.lane l).ready || (match page with | some x => va / 2 ^ 30 != x / 2 ^ 30 | none => false) then s
          else s.onLane p.1 l fun ln => if p.2.resident then ln.unpark else { ln with park := .none, ready := true }
        | _ => s) s) s

/-- An invalidation starts: translations and the walker pools' entries are dropped, and the accesses in flight under them noted (R75). -/
def State.invalidate (s : State) (k : Nat) (page : Option Nat) : State :=
  let mine := fun (key : Nat) => key / 2 ^ 41 % 64 == k
  let hit := fun (key : Nat) (l : Option Leaf) => mine key && (match page, l with
    | some va, some l => l.covers (key % 2 ^ 41) va
    | _, _ => true)
  let under := fun (t : Txn) => t.ctx == k && (match page with
    | none => true
    | some va => t.parts.any fun q => q.va / levelSpan q.level == va / levelSpan q.level)
  let ids := (listed s.txns).filterMap fun p => if under p.2 then some p.1 else none
  let s := { s with tlb := keep s.tlb fun key l => !hit key l, pool := keep s.pool fun key _ => !poolHit k page key }
  (s.setCtx k { s.ctx k with invbusy := true, invIds := ids }).rewait k page

/-- A write of the invalidation register: ignored while an invalidation is in progress (R75). -/
def State.writeInval (s : State) (k : Nat) (lo : Bool) (v : Nat) : State :=
  let c := s.ctx k
  if c.invbusy then s
  else
    let s := s.setCtx k { c with invva := BitVec.ofNat 45 (nbits v 56 12) }
    if lo && nbit v 1 then s.invalidate k none
    else if lo && nbit v 0 then s.invalidate k (some (nbits v 56 12 * 4096))
    else s

/-! ### Doorbells (R74, R78) -/

/-- May the doorbell take this value: at or ahead of PIDX, and no more than the ring's size ahead of CIDX? -/
def Queue.bellOk (q : Queue) (v : Nat) : Bool :=
  decide ((v + 2 ^ 32 - q.pidx.toNat) % 2 ^ 32 + (q.pidx.toNat + 2 ^ 32 - q.cidx.toNat) % 2 ^ 32 ≤ q.size)

def State.writeBell (s : State) (k j v : Nat) : State :=
  let c := s.ctx k
  let q := c.queue j
  if !c.en then s
  else if q.bellOk (v % 2 ^ 32) then s.setCtx k (c.setQueue j { q with pidx := BitVec.ofNat 32 v })
  else (s.setCtx k (c.setQueue j { q with qerr := true })).logEv .doorbellRefused 1 (evQuad (k % 4)) [k, j, v]

/-! ### Verdicts, fault ring and calls (R282, R283, R428) -/

/-- A write of FRCONS; beyond FRPROD it is ignored. Reports that waited are written. -/
def State.writeCons (s : State) (k v : Nat) : State :=
  let c := s.ctx k
  if (c.frprod.toNat + 2 ^ 32 - c.frcons.toNat) % 2 ^ 32 < (v % 2 ^ 32 + 2 ^ 32 - c.frcons.toNat) % 2 ^ 32 then s
  else (s.setCtx k { c with frcons := BitVec.ofNat 32 v }).flushReports k

/-- A write of the verdict register: its upper half applies the verdict. -/
def State.writeVerdict (s : State) (k : Nat) (hi : Bool) (v : Nat) : State :=
  let s := s.setCtx k { s.ctx k with verd := BitVec.ofNat 2 (nbits v 33 32), rid := BitVec.ofNat 32 v }
  if hi then s.verdict k (nbits v 33 32) (v % 2 ^ 32) else s

/-- The call at the head is answered: its lane takes the reply, and the next call comes to the head. -/
def State.answerCall (s : State) (k : Nat) (v : DWord) : State :=
  match (s.ctx k).svcs with
  | [] => s
  | h :: rest =>
    let s := s.setCtx k { s.ctx k with svcs := rest }
    let s := match s.group h.gid with
      | some g => (match (g.lane h.lane).park with
        | .svc _ => s.freeLane h.gid h.lane fun _ => .svc (some (h.d, v))
        | _ => s)
      | none => s
    s.svcHead k

/-- A write of SVCRET: its upper half answers; with no call at the head it is ignored. -/
def State.writeReply (s : State) (k : Nat) (hi : Bool) (v : Nat) : State :=
  let c := s.ctx k
  if c.svcs.isEmpty then s
  else
    let s := s.setCtx k { c with svcret := BitVec.ofNat 64 v }
    if hi then s.answerCall k (BitVec.ofNat 64 v) else s

/-! ### A write of any register -/

/-- A register of a queue. -/
def State.writeQueue (s : State) (k o : Nat) (lo : Bool) (v : Nat) : State :=
  let c := s.ctx k
  let j := (o - 0x40) / 16
  let q := c.queue j
  if o % 16 = 0 then (if c.en then s else s.setCtx k (c.setQueue j { q with qring := BitVec.ofNat 44 (nbits v 51 8) }))
  else s.setCtx k (c.setQueue j { q with
    qerr := q.qerr && !(lo && nbit v 31), qlog := if c.en then q.qlog else BitVec.ofNat 4 v })

def State.writeCtx (s : State) (k o : Nat) (lo hi : Bool) (v : Nat) : State :=
  let c := s.ctx k
  if o = 0 then s.writeControl k v
  else if o = 8 then (if c.en then s else s.setCtx k { c with ptroot := BitVec.ofNat 40 (nbits v 51 12) })
  else if o = 0x10 then s.writeInval k lo v
  else if o = 0x20 then (if c.en then s else s.setCtx k { c with locbase := BitVec.ofNat 41 (nbits v 56 16) })
  else if o = 0x28 then (if c.en then s else s.setCtx k { c with locfr := BitVec.ofNat 16 (nbits v 31 16), locsz := BitVec.ofNat 7 v })
  else if o = 0x30 then s.setCtx k { c with handler := BitVec.ofNat 54 (nbits v 56 3), ten := nbit v 0 }
  else if o = 0x38 then (if c.en then s else s.setCtx k { c with frbase := BitVec.ofNat 40 (nbits v 51 12), frlog := BitVec.ofNat 4 v })
  else if 0x40 ≤ o ∧ o < 0xC0 then s.writeQueue k o lo v
  else if o = 0xC0 then (if lo then s.writeCons k v else s)
  else if o = 0xC8 then s.writeVerdict k hi v
  else if o = 0xD0 then (if lo then s.popWrite k v else s)
  else if o = 0xE0 then s.setCtx k { c with frie := nbit v 11, friv := BitVec.ofNat 11 v }
  else if o = 0xF0 then s.setCtx k { c with svcie := nbit v 40 }
  else if o = 0xF8 then s.writeReply k hi v
  else s

/-- A write of a register: the halves not written keep the register's present value in v. -/
def State.writeReg (s : State) (r : RegName) (lo hi : Bool) (v : Nat) : State :=
  match r with
  | .quad q o => s.writeQuad q o v
  | .mgmt o => s.writeMgmt o lo hi v
  | .clovar o => s.writeClovar o hi v
  | .winbase p f => let d := s.port p
                    s.setPort p { d with winbase := Sparse.set 0 d.winbase f (BitVec.ofNat 14 (nbits v 39 26)) }
  | .ctx k o => s.writeCtx k o lo hi v
  | .bell k j => if lo then s.writeBell k j v else s

/-- A write of n bytes at an offset of PF0's BAR0 that is served (R454). The mailbox buffer takes bytes; a write of it while a
command runs is logged (R32). -/
def State.regWrite (s : State) (off n v : Nat) : State :=
  if isMbbuf off then
    let m := s.mgmt
    -- a command that has not been executed yet may still read the bytes that stood there
    let old := fun (o : Sparse (Option Byte)) (i : Nat) => if (Sparse.get none o i).isSome then o else Sparse.set none o i (some (m.mb i))
    let mbOld := if m.started then ((List.range n).map fun i => off - 0x201000 + i).foldl old m.mbOld else m.mbOld
    let s := { s with mgmt := { m.setMb (off - 0x201000) (toLE n v) with mbOld := mbOld } }
    if m.busy then s.logEv .mbbufWritten 1 (evQuad 0) [off, n] else s
  else
    match regAt (off / 8 * 8) with
    | none => s
    | some r =>
      let old := s.readReg r
      if n = 8 then s.writeReg r true true (v % 2 ^ 64)
      else if off % 8 = 0 then s.writeReg r true false (old / 2 ^ 32 * 2 ^ 32 + v % 2 ^ 32)
      else s.writeReg r false true (v % 2 ^ 32 * 2 ^ 32 + old % 2 ^ 32)

/-- REGISTER_WRITE: one that is not served changes nothing and is logged. -/
def execRegisterWrite (s : State) : Host.Outcome State Fault Refusal :=
  .next (match s.input with
    | .reg off n v => if regServed off n then s.regWrite off n v.toNat else s.logEv .unsupportedRequest 1 (evQuad (regQuad off)) [off, n]
    | _ => s)

/-! ### The steps of the context registers -/

/-- A write of a register of context k that a step of the agenda carries, if it is of the step's kind. -/
def State.ctxInput (s : State) (f : Nat → Nat → Nat → State → Option State) : State :=
  match s.input with
  | .ctxWrite k j v => (f (k % 64) j v.toNat s).getD s
  | _ => s

/-- A write of the control register that changes one of its bits. -/
def controlChange (bit : Nat) (now : Ctx → Bool) (k _j v : Nat) (s : State) : Option State :=
  if nbit v bit = now (s.ctx k) then none else some (s.writeControl k v)

def execEn (s : State) : Host.Outcome State Fault Refusal := .next (s.ctxInput (controlChange 0 fun c => c.en))
def execKreq (s : State) : Host.Outcome State Fault Refusal := .next (s.ctxInput (controlChange 2 fun c => c.kreq))
def execHalt (s : State) : Host.Outcome State Fault Refusal := .next (s.ctxInput (controlChange 1 fun c => c.halt))

def execInvgo (s : State) : Host.Outcome State Fault Refusal :=
  .next (s.ctxInput fun k _ v s => if nbit v 0 then some (s.writeInval k true v) else none)
def execInvall (s : State) : Host.Outcome State Fault Refusal :=
  .next (s.ctxInput fun k _ v s => if nbit v 1 then some (s.writeInval k true v) else none)

def execDoorbell (s : State) : Host.Outcome State Fault Refusal := .next (s.ctxInput fun k j v s => some (s.writeBell k (j % 8) v))

def execResolve (s : State) : Host.Outcome State Fault Refusal :=
  .next (s.ctxInput fun k _ v s => if nbits v 33 32 = 1 then some (s.writeVerdict k true v) else none)
def execReject (s : State) : Host.Outcome State Fault Refusal :=
  .next (s.ctxInput fun k _ v s => if nbits v 33 32 = 2 then some (s.writeVerdict k true v) else none)

def execSvcret (s : State) : Host.Outcome State Fault Refusal := .next (s.ctxInput fun k _ v s => some (s.writeReply k true v))

end Sys2Proof.Machine
end

