-- ==== Sys2Proof/Machine/Far.lean ====
section
/-! DEFINITION. Far.lean: requests that leave the committed memory of this device: to host memory, to the register aperture and to
Clovar nodes (R51, R53, R57, R60 to R66, R72), their completions and their failures; and the serving of any request. -/
namespace Sys2Proof.Machine

/-! ### Failures (R51, R53, R66, R281) -/

/-- An engine operation whose request at va failed ends with FAULT (R240, R255, R270); a collective with FAILED after a Clovar failure,
else with FAULT (R71); and a launch's stamp cannot be written (R85). -/
def State.failEngine (s : State) (id code va : Nat) : State :=
  let s := s.failCopy id
  let s := match s.nb id with
    | some n => s.setNb id (some { n with failed := true })
    | none => s
  let s := { s with arrays := mapVals {} s.arrays fun (a : SxArray) =>
    { a with ops := a.ops.map fun (o : SxOp) => if o.id = id then { o with code := o.code ||| 1, ended := true } else o } }
  let s := if (s.coll id).isSome then s.collEnd id (if code = causeLinkLost then 2 else 3) va else s
  if 2 ^ 62 ≤ id ∧ id < 2 ^ 63 then s.stampLost (id - 2 ^ 62) else s

/-- The lanes of a group's word that wait for bytes from outside this device take an exception. -/
def State.trapWaiting (s : State) (gid : Nat) (g : Group) (code acc va : Nat) : State :=
  match g.issueAddress with
  | none => s
  | some a => (lanesOf (g.wordLanes a)).foldl (fun (s : State) l => s.lateTrap a gid l code acc va) s

/-- The transaction that performs a decrement outside this device is over: its group is free (R90, R106, R130). -/
def State.decOver (s : State) (id r : Nat) : State :=
  ({ s with decs := keep s.decs fun _ v => match v with | some d => decide (d.sent ≠ some id) | none => false }).tailrace r

/-- One part of a request fails: lanes that wait for it fault and their destinations keep their values; of a store its thread's
next system-scope release learns (R66). -/
def State.failPart (s : State) (t : Txn) (code : Nat) (q : Part) : State :=
  match s.group t.gid with
  | none => (match q.op with
    | .dec _ => (s.decOver t.gid t.launch).endLaunch t.launch .fault 0x11
    | .zlr => s
    | _ => s.failEngine t.gid code q.va)
  | some g =>
    match q.op with
    | .fetch => if q.lane = 32 then s.trapWaiting t.gid g code q.acc q.va else s.lateBoth t.pc t.gid q.lane code q.acc q.va
    | .store | .red .. | .enq _ => if q.lane = 32 then s else s.onLane t.gid q.lane fun ln => { ln with linkLost := true }
    | .atom .. => s.lateBoth t.pc t.gid q.lane code 2 q.va
    | _ => s.lateBoth t.pc t.gid q.lane code 0 q.va

/-- The parts of a request that have gone to their place are over; those that wait for a fresh translation stay. -/
def State.keepIdle (s : State) (id : Nat) (t : Txn) : State :=
  s.setTxn id (if t.idle.isEmpty then none else some { t with parts := t.idle, accepted := false })

/-- A request fails. -/
def State.failTxn (s : State) (id code : Nat) : State :=
  match s.txn id with
  | none => s
  | some t =>
    let s := t.live.parts.foldl (fun (s : State) q => s.failPart t code q) (s.keepIdle id t)
    s.pollEnd t.gid

/-! ### Answers -/

/-- The bytes of a part: the thread's own local stores, else what was read (R174). -/
def Part.merge (q : Part) (bs : List Byte) : List Byte :=
  (List.range q.len).map fun i => if q.mask.getD i false then q.data.getD i 0 else bs.getD i 0

/-- A monitor's read outside this device: the lane goes on, or parks until it is read again (R392). False while it waits. -/
def State.farMonitor (s : State) (id : Nat) (t : Txn) (q : Part) (cmp : MonCmp) (wide : Bool) (b : DWord) (d : RegIx) (v : Nat) :
    Bool × State :=
  if monHolds cmp v (monB wide b) then
    (true, (s.onLane t.gid q.lane fun ln => ln.monDone wide d.toNat v).setBackoff t.gid 0)
  else if q.timed then (true, s.onLane t.gid q.lane fun ln => ln.monDone wide d.toNat v)
  else
    let parked : Bool := match s.group t.gid with | some g => decide ((g.lane q.lane).park = .monitor id) | none => false
    if parked then (false, s)
    else
      let (age, s) := s.fresh
      (false, s.onLane t.gid q.lane fun ln => ln.parkOn (.monitor id) age)

/-- A part's answer: what it delivers, and whether the part is over. -/
def State.farPart (s : State) (id : Nat) (t : Txn) (q : Part) (bs : List Byte) : Bool × State :=
  let bs := q.merge bs
  match q.op with
  | .load w d => (true, s.deliver t.gid q.lane (widthWrites w d.toNat bs) [] 0)
  | .atom _ ty _ _ d => (true, s.deliver t.gid q.lane (valWrites ty.wide d.toNat (leNat bs)) [] 0)
  | .poll cmp wide b pd d =>
    let v := leNat bs
    let met := monHolds cmp v (monB wide b)
    (true, (s.deliver t.gid q.lane (valWrites wide d.toNat v) [(pd.toNat, met)] 0).pollNote t.gid t.word met)
  | .monitor cmp wide b d => s.farMonitor id t q cmp wide b d (leNat bs)
  | .fetch =>
    (true, match s.group t.gid with
      | some g => s.setGroup t.gid { g with fetched := g.fetched ++ [(q.va, bs)] }
      | none => s.setBuf t.gid ((q.va, bs, false) :: s.bufOf t.gid))
  | .zlr =>
    -- t.line is how many stores had left before it
    (true, match t.tgt with
      | .host p _ => { s with hostSafe := Sparse.set 0 s.hostSafe (hostKey t.ctx p) (Nat.max (Sparse.get 0 s.hostSafe (hostKey t.ctx p)) t.line) }
      | _ => s)
  | .dec n => (true, (s.logWrap t.launch q.va (leNat bs) n).decOver id t.launch)
  | _ => (true, s)

/-- All answers of a request; `f` gives the bytes read for each part, in order. What still waits is read again later. -/
def State.farDone (s : State) (id : Nat) (t : Txn) (f : List (Part × List Byte)) : State :=
  let r := f.foldl (fun (acc : State × List Part) p =>
    match acc.1.farPart id t p.1 p.2 with
    | (true, s) => (s, acc.2)
    | (false, s) => (s, acc.2 ++ [p.1])) (s, [])
  let s := r.1.setTxn id (if (r.2 ++ t.idle).isEmpty then none else some { t with parts := r.2 ++ t.idle, accepted := false })
  s.pollEnd t.gid

/-! ### When a request may leave (R57, R63, R64, R194, R200) -/

/-- Do two targets lie behind one port, or at one node? -/
def Tgt.sameWay (a b : Tgt) : Bool :=
  match a, b with
  | .host p _, .host q _ => p == q
  | .node m, .node n => m == n
  | _, _ => false

/-- Must an older request leave first: one of the core to the host through the same port, which the port has received, or one of the
device to the same line of a node, in issue order (R57, R63)? One whose lanes are parked on what it has read has been performed. -/
def State.olderWaits (s : State) (id : Nat) (t : Txn) : Bool :=
  (listed s.txns).any fun p => decide (p.1 < id) && !p.2.accepted && p.2.tgt.sameWay t.tgt &&
    (match t.tgt with
     | .node _ => p.2.line == t.line && p.2.parts.any fun q => !(decide (q.lane < 32) && s.parkedPart p.2 q)
     | _ => p.2.core == t.core && s.hasLeft p.1 p.2)

/-- The lowest address of a request's parts, and the bytes from there to its end. -/
def Txn.span (t : Txn) : Nat × Nat :=
  match t.parts with
  | [] => (0, 0)
  | q :: qs =>
    let lo := qs.foldl (fun m p => Nat.min m p.addr) q.addr
    let hi := qs.foldl (fun m p => Nat.max m (p.addr + p.len)) (q.addr + q.len)
    (lo, hi - lo)

/-! ### ATS invalidations (R51) -/

/-- Requests to a host page under its present translation, sent or not. -/
def State.pageUsers (s : State) (p pasid page : Nat) : List Nat :=
  (listed s.txns).filterMap fun t =>
    if t.2.tgt = .host p pasid ∧ (t.2.parts.any fun q => q.addr / 4096 == page) = true then some t.1 else none

/-- Is a request still to be sent or answered? One that is not out, and whose lanes are parked on what they watch, is not. -/
def State.usesAts (s : State) (i : Nat) : Bool :=
  match s.txn i with
  | some t => t.accepted || t.parts.any fun q => !s.parkedPart t q
  | none => false

/-- ATS invalidations of a port complete once every request that used the old translation is over; lanes that watch a cell under it
replay their words, which are translated afresh. -/
def State.settleAts (s : State) (p : Nat) : State :=
  let d := s.port p
  let done := d.inv.filter fun v => !(v.2.2.any s.usesAts)
  if done.isEmpty then s
  else
    let s := s.setPort p { d with inv := d.inv.filter fun v => v.2.2.any s.usesAts }
    done.foldl (fun (s : State) v => (s.endWatches v.2.2).emit (.invalidated p v.1 v.2.1)) s

/-! ### Host memory (R57, R72) -/

/-- The bytes that a write enables, from its lowest one on: one transaction for its line (R381). -/
def Txn.enabled (t : Txn) : Option (Nat × List (Option Byte)) :=
  match t.live.bytes with
  | [] => none
  | w :: ws =>
    let lo := ws.foldl (fun m x => Nat.min m x.1) w.1
    let hi := ws.foldl (fun m x => Nat.max m x.1) w.1
    some (lo, (List.range (hi + 1 - lo)).map fun i => ((w :: ws).reverse.find? fun x => x.1 == lo + i).map fun x => x.2)

/-- A write to host memory leaves through its port. With the link down it is lost; of a launch's stamp the record learns that (R53, R85). -/
def State.writeHost (s : State) (id : Nat) (t : Txn) (p pasid : Nat) : State :=
  let sent := Sparse.get 0 s.hostSent (hostKey t.ctx p)
  let s' := { s with hostSent := Sparse.set 0 s.hostSent (hostKey t.ctx p) (sent + 1) }
  if (s.port p).up then
    match t.enabled with
    | some w => (s'.emit (.hostWrite id p pasid w.1 w.2 (t.live.parts.any fun q => q.bad))).keepIdle id t
    | none => s'.keepIdle id t
  else if 2 ^ 62 ≤ t.gid ∧ t.gid < 2 ^ 63 then (s'.keepIdle id t).stampLost (t.gid - 2 ^ 62)
  else s'.keepIdle id t

/-- A request to host memory leaves through its port. -/
def State.sendHost (s : State) (id : Nat) (t : Txn) (p pasid : Nat) : State :=
  if t.live.writes then s.writeHost id t p pasid
  else if !(s.port p).up then s.failTxn id causeHostCpl
  else
    let zlr := t.parts.any fun q => q.op == .zlr
    (s.emit (.hostRead id p pasid t.live.span.1 t.live.span.2)).setTxn id
      (some { t with accepted := true, line := if zlr then Sparse.get 0 s.hostSent (hostKey t.ctx p) else t.line })

/-! ### The register aperture (R72, R454) -/

/-- Bytes of a register of the aperture; where no register lies nothing constrains them. -/
def State.apertureBytes (s : State) (q : Part) : List Byte :=
  if regServed q.addr q.len then s.regRead q.addr q.len
  else toLE q.len (Config.unstated 454 (BitVec.ofNat 64 q.addr) (BitVec.ofNat 64 q.len)).toNat

/-- A request to the aperture is performed at its registers. -/
def State.serveAperture (s : State) (id : Nat) (t : Txn) : State :=
  if t.live.writes then
    t.live.parts.foldl (fun (s : State) q => if regServed q.addr q.len then s.regWrite q.addr q.len (leNat q.data) else s) (s.keepIdle id t)
  else s.farDone id t (t.live.parts.map fun q => (q, s.apertureBytes q))

/-! ### Clovar nodes (R61, R63, R64) -/

/-- Bytes in runs of consecutive addresses. -/
def byteRuns : List (Nat × Byte) → List (Nat × List Byte)
  | [] => []
  | w :: ws => match byteRuns ws with
    | r :: rs => if w.1 + 1 = r.1 then (w.1, w.2 :: r.2) :: rs else (w.1, [w.2]) :: r :: rs
    | [] => [(w.1, [w.2])]

/-- What a part asks of a remote home; of a store, every run of bytes that it enables. -/
def Part.remote (q : Part) : List (Nat × RemoteOp) :=
  match q.op with
  | .store => (byteRuns q.stored).map fun r => (r.1, .store r.2 q.bad)
  | .atom op ty a b _ => [(q.addr, .atom op ty a b)]
  | .red op ty a _ => [(q.addr, .red op ty a)]
  | .dec n => [(q.addr, .atom .add .n32 (BitVec.ofNat 64 (wrapN (-(n : Int)) 32)) 0)]
  | _ => [(q.addr, .load q.len)]

/-- The port of a request: by line number among the node's ports that are up (R63). -/
def State.remotePort (s : State) (n line : Nat) : Nat :=
  let ps := s.nodePorts n
  ps.getD (line % ps.length) 0

/-- A request to a node leaves, unless a new set of ports waits; with no port up it fails. -/
def State.sendNode (s : State) (id : Nat) (t : Txn) (n : Nat) : State :=
  if (Sparse.get none s.clovar.nextRoutes n).isSome then s.applyRoute n
  else if (s.nodePorts n).isEmpty then s.failTxn id causeLinkLost
  else (s.emit (.remote id (s.remotePort n t.line) n (t.live.parts.flatMap Part.remote))).setTxn id (some { t with accepted := true })

/-! ### HOME_REQUEST -/

/-- A request that has left its core leaves the device; a RED to a node may be held first (R110). -/
def State.serveOut (s : State) (id : Nat) (t : Txn) : State :=
  if s.olderWaits id t then s
  else
    match t.tgt with
    | .host p pasid => (s.sendHost id t p pasid).settleAts p
    | .aper => s.serveAperture id t
    | .node n => (match s.detrStep id t with
      | some s => s
      | none => s.sendNode id t n)
    | _ => s

/-- A request outside this device's memory: what it waits for, and its leaving. -/
def State.serveFar (s : State) (id : Nat) (t : Txn) : State :=
  if t.accepted then s
  else if t.live.parts.isEmpty then
    (match t.parts.find? fun q => q.again && !q.rep with
     | some q => if s.mayDeliver t then s.translateAgain id t q else s
     | none => s)
  else if s.hasLeft id t then s.serveOut id { t with left := true }
  else
    let s := s.leave id t
    match s.txn id with
    | some t => if t.left then s.serveOut id t else s
    | none => s

/-- A request of this device reaches the home of its line, or leaves the device. -/
def State.ownRequest (s : State) (id : Nat) : State :=
  match s.txn id with
  | none => s
  | some t =>
    match t.tgt with
    | .cell => s.serveCell id t
    | .scr _ => s
    | _ => s.serveFar id t

/-- A TLP that fails its IDE integrity check is dropped: its stream is Insecure, and the failure is logged (R52). -/
def State.ideFail (s : State) (p st : Nat) : State :=
  if 2 ≤ p ∨ 9 ≤ st ∨ (s.port p).up = false then s
  else (s.setPort p { s.port p with ideSt := Sparse.set false (s.port p).ideSt st true }).logEv .ideFailure 2 (evIod p) [st]

/-! ### OUTBOUND_READ_COMPLETION, COMPLETION_TIMEOUT (R53) -/

/-- An outstanding read of host memory. -/
def State.hostRead (s : State) (id : Nat) : Option Txn :=
  match s.txn id with
  | some t => (match t.tgt with | .host _ _ => if t.accepted then some t else none | _ => none)
  | none => none

/-- The completion of a read of host memory: data, or a failure. -/
def State.readCompletion (s : State) : State :=
  match s.input with
  | .response id ok data =>
    (match s.hostRead id with
     | none => s
     | some t =>
       if ok then s.farDone id t (t.live.parts.map fun q => (q, (data.drop (q.addr - t.live.span.1)).take q.len))
       else s.failTxn id causeHostCpl)
  | .ideFailed p st => s.ideFail p st
  | _ => s

def execOutboundReadCompletion (s : State) : Host.Outcome State Fault Refusal := .next ((s.readCompletion.settleAts 0).settleAts 1)

def execCompletionTimeout (s : State) : Host.Outcome State Fault Refusal :=
  .next (match s.input with
    | .response id _ _ => if (s.hostRead id).isSome then ((s.failTxn id causeHostCpl).settleAts 0).settleAts 1 else s
    | _ => s)

/-! ### REMOTE_RESPONSE, REMOTE_REQUEST_TIMEOUT (R61, R64, R66) -/

/-- The node of an outstanding remote request. -/
def State.remoteOut (s : State) (id : Nat) : Option (Nat × Txn) :=
  match s.txn id with
  | some t => (match t.tgt with | .node n => if t.accepted then some (n, t) else none | _ => none)
  | none => none

/-- The parts of an answer: reads and atomics have bytes in it, stores and REDs none. -/
def splitAnswer : List Part → List Byte → List (Part × List Byte)
  | [], _ => []
  | q :: qs, bs => if q.op.writes && !(match q.op with | .atom .. | .dec _ => true | _ => false) then (q, []) :: splitAnswer qs bs
                   else (q, bs.take q.len) :: splitAnswer qs (bs.drop q.len)

def State.remoteResponse (s : State) : State :=
  match s.input with
  | .response id ok data =>
    (match s.remoteOut id with
     | none => s
     | some (n, t) => (if ok then s.farDone id t (splitAnswer t.live.parts data) else s.failTxn id causeLinkLost).applyRoute n)
  | _ => s

def execRemoteResponse (s : State) : Host.Outcome State Fault Refusal := .next s.remoteResponse

def execRemoteRequestTimeout (s : State) : Host.Outcome State Fault Refusal :=
  .next (match s.input with
    | .response id _ _ => (match s.remoteOut id with | some (n, _) => (s.failTxn id causeLinkLost).applyRoute n | none => s)
    | _ => s)

end Sys2Proof.Machine
end

