-- ==== Sys2Proof/Machine/LaneOps.lean ====
section
/-! DEFINITION. LaneOps.lean: the predicate and lane instructions of group 0x2 (R339 to R346). -/
namespace Sys2Proof.Machine

/-! ### Predicates (R339) -/

/-- A predicate result. -/
def setP (pd : RegIx) (b : Bool) : LaneRes := .done [] [(pd.toNat, b)] 0

def execPand (h : Hdr) (pd pa : RegIx) (na : Bool) (pc : RegIx) (nc : Bool) (s : State) : Host.Outcome State Fault Refusal :=
  s.word (.pand h pd pa na pc nc) h {} (pure fun e => setP pd ((e.ln.pred pa.toNat ^^ na) && (e.ln.pred pc.toNat ^^ nc)))

def execPor (h : Hdr) (pd pa : RegIx) (na : Bool) (pc : RegIx) (nc : Bool) (s : State) : Host.Outcome State Fault Refusal :=
  s.word (.por h pd pa na pc nc) h {} (pure fun e => setP pd ((e.ln.pred pa.toNat ^^ na) || (e.ln.pred pc.toNat ^^ nc)))

def execPxor (h : Hdr) (pd pa : RegIx) (na : Bool) (pc : RegIx) (nc : Bool) (s : State) : Host.Outcome State Fault Refusal :=
  s.word (.pxor h pd pa na pc nc) h {} (pure fun e => setP pd ((e.ln.pred pa.toNat ^^ na) ^^ (e.ln.pred pc.toNat ^^ nc)))

def execPnot (h : Hdr) (pd pc : RegIx) (s : State) : Host.Outcome State Fault Refusal :=
  s.word (.pnot h pd pc) h {} (pure fun e => setP pd (!e.ln.pred pc.toNat))

def execPmov (h : Hdr) (pd pc : RegIx) (s : State) : Host.Outcome State Fault Refusal :=
  s.word (.pmov h pd pc) h {} (pure fun e => setP pd (e.ln.pred pc.toNat))

/-- PSET.pack: bits 0 to 6 are p0 to p6, bit 7 is 1. -/
def execPsetPack (h : Hdr) (d : RegIx) (s : State) : Host.Outcome State Fault Refusal :=
  s.word (.psetPack h d) h {} (pure fun e => .done [(d.toNat, (e.ln.p.zeroExtend 32) ||| 0x80#32)] [] 0)

/-- PSET.unpack: the predicates of the mask take their bits of c. -/
def execPsetUnpack (h : Hdr) (mask : BitVec 7) (c : RegIx) (s : State) : Host.Outcome State Fault Refusal :=
  s.word (.psetUnpack h mask c) h {} (pure fun e =>
    .done [] (((List.range 7).filter fun k => mask.getLsbD k).map fun k => (k, (e.ln.reg c.toNat).getLsbD k)) 0)

/-! ### Lanes (R340 to R346) -/

/-- Lanes of a group as a lane instruction counts them: 32, or 16 under PROT. -/
def Ctl.width (c : Ctl) : Nat := if c.prot then 16 else 32
/-- The number the program gives to a physical lane (R164). -/
def Ctl.no (c : Ctl) (l : Nat) : Nat := if c.prot then l / 2 else l
/-- The physical lane of number n among the copies that l exchanges with. -/
def Ctl.phys (c : Ctl) (l n : Nat) : Nat := if c.prot then 2 * n + l % 2 else n
/-- The active lanes that lane l exchanges with, ascending. -/
def Ctl.peers (c : Ctl) (l : Nat) : List Nat := (lanesOf c.act).filter fun j => !c.prot || j % 2 == l % 2

/-- The lane SHFL reads, by number; none: the source lies outside the segment (R341). -/
def shflLane (mode : ShflMode) (ws k0 : Nat) (n : Word) : Option Nat :=
  let base := k0 - k0 % ws
  let k := k0 % ws
  match mode with
  | .idx => some (base + n.toNat % ws)
  | .rot => some (base + (k + n.toNat) % ws)
  | .xor => some (k0 ^^^ (n.toNat % ws))
  | .shd => if 0 ≤ (k : Int) + n.toInt ∧ (k : Int) + n.toInt < ws then some ((k0 + n.toInt : Int).toNat) else none

/-- The physical lane from which lane l takes its SHFL value. -/
def Ctl.shflFrom (c : Ctl) (mode : ShflMode) (logW : BitVec 3) (k : Kind) (l : Nat) : Option Nat :=
  (shflLane mode (Nat.min (2 ^ logW.toNat) c.width) (c.no l) ((c.env l).kind k)).map (c.phys l)

def execShfl (h : Hdr) (mode : ShflMode) (logW : BitVec 3) (d a : RegIx) (k : Kind) (s : State) : Host.Outcome State Fault Refusal :=
  let prot := match s.group s.cur.gid with | some g => (s.rcd g.launch).blk.prot | none => false
  s.word (.shfl h mode logW d a k) h
    { anyLane := true
      reads := some fun g l =>
        let c : Ctl := { gid := 0, g := g, act := 0, pc := 0, len := 8, u := false, prot := prot }
        ((uKind k).reads l) ++ (match c.shflFrom mode logW k l with | some j => [(j, 0, a.toNat)] | none => []) }
    (fun c l s =>
      (.done [(d.toNat, match c.shflFrom mode logW k l with | some j => (c.g.lane j).reg a.toNat | none => 0)] [] 0, s))

/-- A value negated by the type of LSWAP (R342). -/
def swapNeg (t : SwapTy) (v : Word) : Word :=
  match t with
  | .b32 => v
  | .s32 => -v
  | .f32 => v ^^^ 0x80000000#32
  | .f16 => v ^^^ 0x80008000#32

def execLswap (h : Hdr) (t : SwapTy) (nege nego : Bool) (d c : RegIx) (s : State) : Host.Outcome State Fault Refusal :=
  let prot := match s.group s.cur.gid with | some g => (s.rcd g.launch).blk.prot | none => false
  s.word (.lswap h t nege nego d c) h
    { anyLane := true
      reads := some fun _ l => [(if prot then l ^^^ 2 else l ^^^ 1, 0, c.toNat)] }
    (fun w l s =>
      let n := w.no l
      let v := (w.g.lane (w.phys l (n ^^^ 1))).reg c.toNat
      (.done [(d.toNat, if (n % 2 == 0 && nege) || (n % 2 == 1 && nego) then swapNeg t v else v)] [] 0, s))

/-- The active lanes that vote true, as a mask of lane numbers (R343). -/
def Ctl.votes (c : Ctl) (l : Nat) (neg : Bool) (ps : RegIx) : BitVec 32 :=
  maskOf (((c.peers l).filter fun j => (c.g.lane j).pred ps.toNat ^^ neg).map c.no)

def execVote (h : Hdr) (mode : VoteMode) (neg toG : Bool) (d ps : RegIx) (s : State) : Host.Outcome State Fault Refusal :=
  s.word (.vote h mode neg toG d ps) h { anyLane := true, once := toG } (fun c l s =>
    let m := c.votes l neg ps
    let act := maskOf ((c.peers l).map c.no)
    (match mode with
     | .mask => .done [(d.toNat, m)] [] 0
     | .count => .done [(d.toNat, BitVec.ofNat 32 (lanesOf m).length)] [] 0
     | .some => setP d (m != 0)
     | .every => setP d (m == act)
     | .same => setP d (m == 0 || m == act), s))

/-- MATCH: the leader and the size of the set of lanes that hold the same value (R344). -/
def execMatchLanes (h : Hdr) (wide : Bool) (d c : RegIx) (s : State) : Host.Outcome State Fault Refusal :=
  s.word (.matchLanes h wide d c) h { anyLane := true } (fun w l s =>
    let x := (w.env l).reg wide c
    let S := (w.peers l).filter fun j => (w.env j).reg wide c == x
    (.done [(d.toNat, BitVec.ofNat 32 (w.no (S.headD l) + 256 * S.length))] [] 0, s))

/-- One step of a REDUX fold (R344). -/
def reduxStep (op : ReduxOp) (signed : Bool) (x y : Word) : Word :=
  let t : IntTy := if signed then .s32 else .n32
  let v := fun (z : Word) => if signed then z.toInt else (z.toNat : Int)
  match op with
  | .add | .scan => x + y
  | .adds =>
    let r := v x + v y
    if t = .s32 then BitVec.ofInt 32 (if r < -(2 ^ 31) then -(2 ^ 31) else if 2 ^ 31 - 1 < r then 2 ^ 31 - 1 else r)
    else BitVec.ofInt 32 (if 2 ^ 32 - 1 < r then 2 ^ 32 - 1 else r)
  | .min => if v x ≤ v y then x else y
  | .max => if v x ≤ v y then y else x
  | .and => x &&& y
  | .or => x ||| y
  | .xor => x ^^^ y

/-- The fold of a list, in its order. -/
def reduxFold (op : ReduxOp) (signed : Bool) : List Word → Word
  | [] => 0
  | x :: xs => xs.foldl (reduxStep op signed) x

def execRedux (h : Hdr) (op : ReduxOp) (signed toG : Bool) (d c : RegIx) (s : State) : Host.Outcome State Fault Refusal :=
  s.word (.redux h op signed toG d c) h { anyLane := true, once := toG } (fun w l s =>
    let ls := (w.peers l).filter fun j => op != .scan || decide (j ≤ l)
    (.done [(d.toNat, reduxFold op signed (ls.map fun j => (w.g.lane j).reg c.toNat))] [] 0, s))

def execElect (h : Hdr) (hi : Bool) (pd : RegIx) (s : State) : Host.Outcome State Fault Refusal :=
  s.word (.elect h hi pd) h {} (fun c l s =>
    let ps := c.peers l
    (setP pd (decide ((if hi then ps.getLast? else ps.head?) = some l)), s))

def execBcast (h : Hdr) (d c : RegIx) (k : BitVec 5) (s : State) : Host.Outcome State Fault Refusal :=
  let prot := match s.group s.cur.gid with | some g => (s.rcd g.launch).blk.prot | none => false
  s.word (.bcast h d c k) h
    { anyLane := true, reads := some fun _ l => [(if prot then 2 * (k.toNat % 16) + l % 2 else k.toNat, 0, c.toNat)] }
    (fun w l s => (.done [(d.toNat, (w.g.lane (w.phys l (k.toNat % w.width))).reg c.toNat)] [] 0, s))

def execUmov (h : Hdr) (d c : RegIx) (k : Option (BitVec 5)) (s : State) : Host.Outcome State Fault Refusal :=
  let prot := match s.group s.cur.gid with | some g => (s.rcd g.launch).blk.prot | none => false
  let lanes := s.cur.lanes
  s.word (.umov h d c k) h
    { anyLane := true, once := true
      reads := some fun g l =>
        [(match k with
          | some k => if prot then 2 * (k.toNat % 16) else k.toNat
          | none => (lanesOf (guardLanes g lanes h.gp.toNat h.gn)).headD l, 0, c.toNat)] }
    (fun w l s =>
      let j := match k with
        | some k => w.phys l (k.toNat % w.width)
        | none => l
      (.done [(d.toNat, (w.g.lane j).reg c.toNat)] [] 0, s))

end Sys2Proof.Machine
end

