-- ==== Sys2Proof/Machine/FloatOps.lean ====
section
/-! DEFINITION. FloatOps.lean: the floating-point, function, packed, FP64 and conversion instructions of groups 0x4 to 0x7
(R356 to R375). -/
namespace Sys2Proof.Machine

/-- What a floating-point word sees in a lane: its operands, and the launch's FLUSH and SNANT (R213, R217). -/
structure FEnv where
  e : Env
  b : Block

/-- The rounding direction: the word's, or RM of %fpctl (R212, R357). -/
def FEnv.dir (x : FEnv) (r : Sys2Proof.Dir) : Nat :=
  match r with
  | .rm => x.e.ln.rm.toNat
  | .rne => 0
  | .rtz => 1
  | .rup => 2
  | .rdn => 3
  | .rna => 4
/-- Does the format flush (R213)? -/
def FEnv.fz (x : FEnv) (f : Fmt) : Bool := x.b.flush && f != .f64
/-- A register source. -/
def FEnv.reg (x : FEnv) (f : Fmt) (r : RegIx) : Nat := (x.e.reg f.wide r).toNat
/-- The last source; an immediate is the exact value of sext(C, 9) (R356). -/
def FEnv.src (x : FEnv) (f : Fmt) (c : Src) : Nat :=
  match c with
  | .imm i => ((formatOf f).ofInt 0 i.toInt).1
  | c => (x.e.src f.wide c).toNat
/-- A result of a format, or the trap FP_SNAN (R217). -/
def FEnv.res (x : FEnv) (f : Fmt) (d : RegIx) : Option (Nat × BitVec 5) → LaneRes
  | none => .trap 0x2C 0 0
  | some r => .done (x.e.out f.wide d (BitVec.ofNat 64 r.1)) [] r.2
/-- The frame of R357. -/
def FEnv.op (x : FEnv) (f : Fmt) (d : RegIx) (xs : List Nat) (fn : List FVal → Nat × BitVec 5) : LaneRes :=
  x.res f d ((formatOf f).op x.b.snant (x.fz f) xs fn)

/-- A floating-point word issues. -/
def State.fpWord (s : State) (i : Instr) (h : Hdr) (o : WordOps) (f : FEnv → LaneRes) : Host.Outcome State Fault Refusal :=
  s.word i h o fun c l s => (f { e := c.env l, b := (s.rcd c.g.launch).blk }, s)

/-! ### Arithmetic (R359) -/

/-- a + c. -/
def execFadd (h : Hdr) (f : Fmt) (r : Sys2Proof.Dir) (d a : RegIx) (c : Src) (s : State) : Host.Outcome State Fault Refusal :=
  s.fpWord (.fadd h f r d a c) h (opsOf c) fun x => x.op f d [x.reg f a, x.src f c] fun vs => (formatOf f).add (x.dir r) (nth vs 0) (nth vs 1)

/-- a − c. -/
def execFsub (h : Hdr) (f : Fmt) (r : Sys2Proof.Dir) (d a : RegIx) (c : Src) (s : State) : Host.Outcome State Fault Refusal :=
  s.fpWord (.fsub h f r d a c) h (opsOf c) fun x => x.op f d [x.reg f a, x.src f c] fun vs => (formatOf f).add (x.dir r) (nth vs 0) (nth vs 1).flip

/-- a × c. -/
def execFmul (h : Hdr) (f : Fmt) (r : Sys2Proof.Dir) (d a : RegIx) (c : Src) (s : State) : Host.Outcome State Fault Refusal :=
  s.fpWord (.fmul h f r d a c) h (opsOf c) fun x => x.op f d [x.reg f a, x.src f c] fun vs => (formatOf f).mul (x.dir r) (nth vs 0) (nth vs 1)

/-- a × b + c, one rounding. -/
def execFfma (h : Hdr) (f : Fmt) (r : Sys2Proof.Dir) (d a b : RegIx) (c : Src) (s : State) : Host.Outcome State Fault Refusal :=
  s.fpWord (.ffma h f r d a b c) h (opsOf c) fun x => x.op f d [x.reg f a, x.reg f b, x.src f c] fun vs =>
    (formatOf f).fma (x.dir r) (nth vs 0) (nth vs 1) (nth vs 2)

/-- R360. -/
def execFmin (h : Hdr) (f : Fmt) (d a : RegIx) (c : Src) (s : State) : Host.Outcome State Fault Refusal :=
  s.fpWord (.fmin h f d a c) h (opsOf c) fun x => x.res f d ((formatOf f).minMax x.b.snant (x.fz f) false false (x.reg f a) (x.src f c))

/-- R360. -/
def execFmax (h : Hdr) (f : Fmt) (d a : RegIx) (c : Src) (s : State) : Host.Outcome State Fault Refusal :=
  s.fpWord (.fmax h f d a c) h (opsOf c) fun x => x.res f d ((formatOf f).minMax x.b.snant (x.fz f) true false (x.reg f a) (x.src f c))

/-- R360. -/
def execFminn (h : Hdr) (f : Fmt) (d a : RegIx) (c : Src) (s : State) : Host.Outcome State Fault Refusal :=
  s.fpWord (.fminn h f d a c) h (opsOf c) fun x => x.res f d ((formatOf f).minMax x.b.snant (x.fz f) false true (x.reg f a) (x.src f c))

/-- R360. -/
def execFmaxn (h : Hdr) (f : Fmt) (d a : RegIx) (c : Src) (s : State) : Host.Outcome State Fault Refusal :=
  s.fpWord (.fmaxn h f d a c) h (opsOf c) fun x => x.res f d ((formatOf f).minMax x.b.snant (x.fz f) true true (x.reg f a) (x.src f c))

/-- FSETP (R361). -/
def execFsetp (h : Hdr) (f : Fmt) (cmp : FCmp) (bop : BoolOp) (pd a : RegIx) (c : Src) (pq : BitVec 3) (pn : Bool) (s : State) : Host.Outcome State Fault Refusal :=
  s.fpWord (.fsetp h f cmp bop pd a c pq pn) h ({}) fun x => 
    match (formatOf f).compare x.b.snant (x.fz f) cmp (x.reg f a) (x.src f c) with
    | none => .trap 0x2C 0 0
    | some r => .done [] [(pd.toNat, combine bop r.1 (x.e.ln.pred pq.toNat ^^ pn))] r.2

/-- FCLASS: never flushes, traps or flags (R362). -/
def execFclass (h : Hdr) (f : Fmt) (d : RegIx) (c : Src) (s : State) : Host.Outcome State Fault Refusal :=
  s.fpWord (.fclass h f d c) h (opsOf c) fun x => x.e.alu false d (BitVec.ofNat 64 ((formatOf f).classify (x.src f c)))

/-- a / c. -/
def execFdiv (h : Hdr) (f : Fmt) (r : Sys2Proof.Dir) (d a : RegIx) (c : Src) (s : State) : Host.Outcome State Fault Refusal :=
  s.fpWord (.fdiv h f r d a c) h (opsOf c) fun x => x.op f d [x.reg f a, x.src f c] fun vs => (formatOf f).div (x.dir r) (nth vs 0) (nth vs 1)

/-- √c. -/
def execFsqrt (h : Hdr) (f : Fmt) (r : Sys2Proof.Dir) (d : RegIx) (c : Src) (s : State) : Host.Outcome State Fault Refusal :=
  s.fpWord (.fsqrt h f r d c) h (opsOf c) fun x => x.op f d [x.src f c] fun vs => (formatOf f).sqrt (x.dir r) (nth vs 0)

/-- 1 / c. -/
def execFrcp (h : Hdr) (f : Fmt) (r : Sys2Proof.Dir) (d : RegIx) (c : Src) (s : State) : Host.Outcome State Fault Refusal :=
  s.fpWord (.frcp h f r d c) h (opsOf c) fun x => x.op f d [x.src f c] fun vs => (formatOf f).div (x.dir r) (.fin false 1 0) (nth vs 0)

/-- 1 / √c. -/
def execFrsq (h : Hdr) (f : Fmt) (r : Sys2Proof.Dir) (d : RegIx) (c : Src) (s : State) : Host.Outcome State Fault Refusal :=
  s.fpWord (.frsq h f r d c) h (opsOf c) fun x => x.op f d [x.src f c] fun vs => (formatOf f).rsqrt (x.dir r) (nth vs 0)

/-! ### Rounding and scaling (R363 to R365) -/

def execFrnd (h : Hdr) (f : Fmt) (r : Sys2Proof.Dir) (exact : Bool) (d : RegIx) (c : Src) (s : State) : Host.Outcome State Fault Refusal :=
  s.fpWord (.frnd h f r exact d c) h (opsOf c) fun x => x.op f d [x.src f c] fun vs => (formatOf f).rnd (x.dir r) exact (nth vs 0)

/-- a × 2^n, n an integer (R364). -/
def execFldx (h : Hdr) (f : Fmt) (r : Sys2Proof.Dir) (d a : RegIx) (c : Src) (s : State) : Host.Outcome State Fault Refusal :=
  s.fpWord (.fldx h f r d a c) h (opsOf c) fun x => x.op f d [x.reg f a] fun vs => (formatOf f).ldx (x.dir r) (x.e.src32 c).toInt (nth vs 0)

/-- FXTX.exp (R365). -/
def execFxtxExp (h : Hdr) (f : Fmt) (d : RegIx) (c : Src) (s : State) : Host.Outcome State Fault Refusal :=
  s.fpWord (.fxtxExp h f d c) h (opsOf c) fun x => 
    let v := (formatOf f).decode (x.src f c % 2 ^ (formatOf f).w)
    if x.b.snant && v.isSig then .trap 0x2C 0 0
    else .done (x.e.out false d ((xtExp v).1.zeroExtend 64)) [] (xtExp v).2

/-- FXTX.mant (R365); never flushes. -/
def execFxtxMant (h : Hdr) (f : Fmt) (d : RegIx) (c : Src) (s : State) : Host.Outcome State Fault Refusal :=
  s.fpWord (.fxtxMant h f d c) h (opsOf c) fun x => x.res f d ((formatOf f).op x.b.snant false [x.src f c] fun vs => (formatOf f).xtMant (nth vs 0))

/-! ### Functions (R366) -/

def execFexp (h : Hdr) (f : Fmt) (r : Sys2Proof.Dir) (d : RegIx) (c : Src) (s : State) : Host.Outcome State Fault Refusal :=
  s.fpWord (.fexp h f r d c) h (opsOf c) fun x => x.op f d [x.src f c] fun vs => (formatOf f).fn .exp (x.dir r) (nth vs 0)

def execFexp2 (h : Hdr) (f : Fmt) (r : Sys2Proof.Dir) (d : RegIx) (c : Src) (s : State) : Host.Outcome State Fault Refusal :=
  s.fpWord (.fexp2 h f r d c) h (opsOf c) fun x => x.op f d [x.src f c] fun vs => (formatOf f).fn .exp2 (x.dir r) (nth vs 0)

def execFlog (h : Hdr) (f : Fmt) (r : Sys2Proof.Dir) (d : RegIx) (c : Src) (s : State) : Host.Outcome State Fault Refusal :=
  s.fpWord (.flog h f r d c) h (opsOf c) fun x => x.op f d [x.src f c] fun vs => (formatOf f).fn .log (x.dir r) (nth vs 0)

def execFlog2 (h : Hdr) (f : Fmt) (r : Sys2Proof.Dir) (d : RegIx) (c : Src) (s : State) : Host.Outcome State Fault Refusal :=
  s.fpWord (.flog2 h f r d c) h (opsOf c) fun x => x.op f d [x.src f c] fun vs => (formatOf f).fn .log2 (x.dir r) (nth vs 0)

def execFsin (h : Hdr) (f : Fmt) (r : Sys2Proof.Dir) (d : RegIx) (c : Src) (s : State) : Host.Outcome State Fault Refusal :=
  s.fpWord (.fsin h f r d c) h (opsOf c) fun x => x.op f d [x.src f c] fun vs => (formatOf f).fn .sin (x.dir r) (nth vs 0)

def execFcos (h : Hdr) (f : Fmt) (r : Sys2Proof.Dir) (d : RegIx) (c : Src) (s : State) : Host.Outcome State Fault Refusal :=
  s.fpWord (.fcos h f r d c) h (opsOf c) fun x => x.op f d [x.src f c] fun vs => (formatOf f).fn .cos (x.dir r) (nth vs 0)

def execFsinpi (h : Hdr) (f : Fmt) (r : Sys2Proof.Dir) (d : RegIx) (c : Src) (s : State) : Host.Outcome State Fault Refusal :=
  s.fpWord (.fsinpi h f r d c) h (opsOf c) fun x => x.op f d [x.src f c] fun vs => (formatOf f).fn .sinpi (x.dir r) (nth vs 0)

def execFcospi (h : Hdr) (f : Fmt) (r : Sys2Proof.Dir) (d : RegIx) (c : Src) (s : State) : Host.Outcome State Fault Refusal :=
  s.fpWord (.fcospi h f r d c) h (opsOf c) fun x => x.op f d [x.src f c] fun vs => (formatOf f).fn .cospi (x.dir r) (nth vs 0)

def execFtanh (h : Hdr) (f : Fmt) (r : Sys2Proof.Dir) (d : RegIx) (c : Src) (s : State) : Host.Outcome State Fault Refusal :=
  s.fpWord (.ftanh h f r d c) h (opsOf c) fun x => x.op f d [x.src f c] fun vs => (formatOf f).fn .tanh (x.dir r) (nth vs 0)

def execFsigm (h : Hdr) (f : Fmt) (r : Sys2Proof.Dir) (d : RegIx) (c : Src) (s : State) : Host.Outcome State Fault Refusal :=
  s.fpWord (.fsigm h f r d c) h (opsOf c) fun x => x.op f d [x.src f c] fun vs => (formatOf f).fn .sigm (x.dir r) (nth vs 0)

/-! ### Packed (R368) -/

/-- One element of a packed source. -/
def half (x : Nat) (i : Nat) : Nat := x / 2 ^ (16 * i) % 65536
/-- The last source of a packed word: an immediate stands in both elements. -/
def FEnv.src2 (x : FEnv) (f : Fmt) (c : Src) : Nat :=
  match c with
  | .imm i => let v := ((formatOf f).ofInt 0 i.toInt).1; v + 65536 * v
  | c => (x.e.src32 c).toNat
/-- Both elements of a packed word; a trap in either traps the lane. -/
def FEnv.op2 (x : FEnv) (f : Fmt) (d : RegIx) (xs : List Nat) (fn : List FVal → Nat × BitVec 5) : LaneRes :=
  let el := fun (i : Nat) => (formatOf f).op x.b.snant (x.fz f) (xs.map fun y => half y i) fn
  match el 0, el 1 with
  | some r0, some r1 => .done (x.e.out false d (BitVec.ofNat 64 (r0.1 + 65536 * r1.1))) [] (r0.2 ||| r1.2)
  | _, _ => .trap 0x2C 0 0

def execFadd2 (h : Hdr) (f : Fmt) (r : Sys2Proof.Dir) (d a : RegIx) (c : Src) (s : State) : Host.Outcome State Fault Refusal :=
  s.fpWord (.fadd2 h f r d a c) h (opsOf c) fun x => x.op2 f d [(x.e.r32 a).toNat, x.src2 f c] fun vs => (formatOf f).add (x.dir r) (nth vs 0) (nth vs 1)

def execFmul2 (h : Hdr) (f : Fmt) (r : Sys2Proof.Dir) (d a : RegIx) (c : Src) (s : State) : Host.Outcome State Fault Refusal :=
  s.fpWord (.fmul2 h f r d a c) h (opsOf c) fun x => x.op2 f d [(x.e.r32 a).toNat, x.src2 f c] fun vs => (formatOf f).mul (x.dir r) (nth vs 0) (nth vs 1)

def execFfma2 (h : Hdr) (f : Fmt) (r : Sys2Proof.Dir) (d a b : RegIx) (c : Src) (s : State) : Host.Outcome State Fault Refusal :=
  s.fpWord (.ffma2 h f r d a b c) h (opsOf c) fun x => x.op2 f d [(x.e.r32 a).toNat, (x.e.r32 b).toNat, x.src2 f c] fun vs =>
    (formatOf f).fma (x.dir r) (nth vs 0) (nth vs 1) (nth vs 2)

/-! ### FP64 (R358, R359) -/

/-- DADD, and DADD.sub. -/
def execDadd (h : Hdr) (f : Fmt) (r : Sys2Proof.Dir) (sub : Bool) (d a : RegIx) (c : Src) (s : State) : Host.Outcome State Fault Refusal :=
  s.fpWord (.dadd h f r sub d a c) h (opsOf c) fun x => x.op f d [x.reg f a, x.src f c] fun vs =>
    (formatOf f).add (x.dir r) (nth vs 0) (if sub then (nth vs 1).flip else nth vs 1)

def execDmul (h : Hdr) (f : Fmt) (r : Sys2Proof.Dir) (d a : RegIx) (c : Src) (s : State) : Host.Outcome State Fault Refusal :=
  s.fpWord (.dmul h f r d a c) h (opsOf c) fun x => x.op f d [x.reg f a, x.src f c] fun vs => (formatOf f).mul (x.dir r) (nth vs 0) (nth vs 1)

def execDfma (h : Hdr) (f : Fmt) (r : Sys2Proof.Dir) (d a b : RegIx) (c : Src) (s : State) : Host.Outcome State Fault Refusal :=
  s.fpWord (.dfma h f r d a b c) h (opsOf c) fun x => x.op f d [x.reg f a, x.reg f b, x.src f c] fun vs =>
    (formatOf f).fma (x.dir r) (nth vs 0) (nth vs 1) (nth vs 2)

def execDdiv (h : Hdr) (f : Fmt) (r : Sys2Proof.Dir) (d a : RegIx) (c : Src) (s : State) : Host.Outcome State Fault Refusal :=
  s.fpWord (.ddiv h f r d a c) h (opsOf c) fun x => x.op f d [x.reg f a, x.src f c] fun vs => (formatOf f).div (x.dir r) (nth vs 0) (nth vs 1)

def execDsqrt (h : Hdr) (f : Fmt) (r : Sys2Proof.Dir) (d : RegIx) (c : Src) (s : State) : Host.Outcome State Fault Refusal :=
  s.fpWord (.dsqrt h f r d c) h (opsOf c) fun x => x.op f d [x.src f c] fun vs => (formatOf f).sqrt (x.dir r) (nth vs 0)

/-! ### Conversion (R369 to R373) -/

/-- The integer type of a conversion type. -/
def cvtInt : CvtTy → Option IntTy
  | .s32 => some .s32
  | .n32 => some .n32
  | .s64 => some .s64
  | .n64 => some .n64
  | .s16 => some .s16
  | .n16 => some .n16
  | .s8 => some .s8
  | .n8 => some .n8
  | _ => none
/-- The format of a conversion type. -/
def cvtFmt : CvtTy → Format
  | .f16 => fmt16
  | .bf16 => fmtB16
  | .f64 => fmt64
  | .e4m3 => fmtE4
  | .e5m2 => fmtE5
  | _ => fmt32

/-- One conversion: the value written and the flags; none: the trap FP_SNAN. -/
def cvtVal (dt st : CvtTy) (snt sat : Bool) (dir : Nat) (scale : Nat) (x : DWord) : Option (DWord × BitVec 5) :=
  match cvtInt st with
  | some ti =>
    (match cvtInt dt with
     | some td => some (td.put sat (ti.val x), 0)
     | none => let r := (cvtFmt dt).ofInt dir (ti.val x); some (BitVec.ofNat 64 r.1, r.2))
  | none =>
    match cvtInt dt with
    | some td => (convToInt (cvtFmt st) snt dir x.toNat td.lo td.hi).map fun r => (td.put false r.1, r.2)
    | none =>
      if dt = .mxi8 then (convMxi8 (cvtFmt st) snt x.toNat scale).map fun r => (IntTy.put .s8 false r.1, r.2)
      else (convFloat (cvtFmt st) (cvtFmt dt) snt sat dir x.toNat).map fun r => (BitVec.ofNat 64 r.1, r.2)

def execCvt (h : Hdr) (dt st : CvtTy) (sat : Bool) (r : Sys2Proof.Dir) (d a : RegIx) (c : Src) (s : State) : Host.Outcome State Fault Refusal :=
  s.fpWord (.cvt h dt st sat r d a c) h (opsOf c) fun x => 
    match cvtVal dt st x.b.snant sat (x.dir r) ((x.e.r32 a).toNat % 256) (x.e.src st.wide c) with
    | none => .trap 0x2C 0 0
    | some r => .done (x.e.out dt.wide d r.1) [] r.2

/-! ### The INT8 path (R374, R375) -/

/-- DSLICE.exp: the exponent of a segment of active lanes; a lane that traps takes no part (R374). -/
def execDsliceExp (h : Hdr) (logN : BitVec 3) (d : RegIx) (c : Src) (s : State) : Host.Outcome State Fault Refusal :=
  s.word (.dsliceExp h logN d c) h {} fun w l s =>
    let b := (s.rcd w.g.launch).blk
    let val := fun (j : Nat) => fmt64.decode ((w.env j).src true c).toNat
    let N := Nat.min (2 ^ logN.toNat) w.width
    let seg := (w.peers l).filter fun j => w.no j / N == w.no l / N && !(b.snant && (val j).isSig)
    let bad := seg.any fun j => match val j with | .fin .. => false | _ => true
    let es := seg.filterMap fun j => match val j with | .fin _ m e => if m = 0 then none else some (sliceExp m e) | _ => none
    let E : Int := match es with | [] => -0x80000000 | e :: r => r.foldl (fun a b => if a < b then b else a) e
    (if b.snant && (val l).isSig then .trap 0x2C 0 0
     else .done [(d.toNat, BitVec.ofInt 32 (if bad then 0x7FFFFFFF else E))] [] (if (val l).isSig then flagNV else 0), s)

/-- DSLICE.slice (R374). -/
def execDsliceSlice (h : Hdr) (t : BitVec 3) (d a : RegIx) (c : Src) (s : State) : Host.Outcome State Fault Refusal :=
  s.fpWord (.dsliceSlice h t d a c) h {} fun x =>
    let v := fmt64.decode (x.e.src true c).toNat
    let a := (x.e.r32 a).toInt
    if x.b.snant && v.isSig then .trap 0x2C 0 0
    else
      let y : Int := match v with
        | .fin n m e => if m = 0 ∨ a = 0x7FFFFFFF ∨ a = -0x80000000 then 0 else sliceVal (t.toNat + 1) n m e a
        | _ => 0
      .done [(d.toNat, BitVec.ofInt 32 y)] [] (if v.isSig then flagNV else 0)

/-- DRECON: one scaled partial product added (R375). -/
def execDrecon (h : Hdr) (first : Bool) (m : BitVec 4) (d a b : RegIx) (c : Src) (s : State) : Host.Outcome State Fault Refusal :=
  s.fpWord (.drecon h first m d a b c) h (opsOf c) fun x =>
    let r := dreconVal (if first then none else some (x.e.r64 d).toNat) m.toNat (x.e.r32 a).toInt (x.e.r32 b).toInt (x.e.src32 c).toInt
    .done (x.e.out true d (BitVec.ofNat 64 r.1)) [] r.2

end Sys2Proof.Machine
end

