-- ==== Sys2Proof/Machine/HostLink.lean ====
section
/-! DEFINITION. HostLink.lean: what comes in from the host and from Clovar peers (R48 to R66, R77, R456): links, authentication and
IDE, inbound writes, atomics and reads at the ordering point, ATS and PRI, Clovar ports and inbound requests; and HOME_REQUEST. -/
namespace Sys2Proof.Machine

/-! ### Links, SPDM and IDE (R48, R52, R53) -/

/-- Rates to which a PCIe port trains, in 0.1 GT/s, and its widths (R48). -/
def linkRates : List Nat := [25, 50, 80, 160, 320, 640, 1280]
def linkWidths : List Nat := [1, 2, 4, 8, 16]

/-- Above 32 GT/s a port runs in FLIT mode; below, as its partner supports it (R48). -/
def linkFlit (rate : Nat) (flit : Bool) : Bool := flit || decide (rate ≤ 320)

/-- The tags that a port's mode has (R48). -/
def Port.tags (p : Port) : Nat := if p.flit then 2 ^ 14 else 2 ^ 10

/-- LINK_UP: a port of a present I/O die trains at a rate and width, in FLIT mode or not. -/
def execLinkUp (s : State) : Host.Outcome State Fault Refusal :=
  .next (match s.input with
    | .link p rate width flit =>
      if p < 2 ∧ s.iodPresent p = true ∧ rate ∈ linkRates ∧ width ∈ linkWidths ∧ linkFlit rate flit = true then
        (s.setPort p { s.port p with up := true, rate := rate, width := width, flit := flit }).logEv .linkEvent 0 (evIod p) [rate, width]
      else s
    | _ => s)

/-- LINK_DOWN: what no home has accepted is lost, and outstanding reads fault (R53). -/
def State.linkDown (s : State) (p : Nat) : State :=
  let s := s.setPort p { s.port p with up := false, rate := 0, width := 0, flit := false }
  let s := { s with
    posted := keep s.posted fun _ v => match v with | some w => w.port != p || w.accepted | none => false
    reads := keep s.reads fun _ v => match v with | some r => r.port != p | none => false }
  let out := (listed s.txns).filterMap fun t =>
    match t.2.tgt with | .host q _ => if q = p ∧ t.2.accepted = true then some t.1 else none | _ => none
  let s := out.foldl (fun (s : State) i => s.failTxn i causeHostCpl) s
  (s.settleAts p).logEv .linkEvent 1 (evIod p) []

def execLinkDown (s : State) : Host.Outcome State Fault Refusal :=
  .next (match s.input with
    | .link p _ _ _ => if p < 2 ∧ (s.port p).up = true then s.linkDown p else s
    | _ => s)

/-- SPDM_AUTHENTICATION: a request is answered, signed with the identity key where that is available (R48, R52). -/
def execSpdmAuthentication (s : State) : Host.Outcome State Fault Refusal :=
  .next (match s.input with
    | .spdm p req =>
      if p < 2 ∧ (s.port p).up = true then
        let (n, s) := s.draw
        s.emit (.spdm p (Config.spdmReply n p s.mgmt.keyOk req))
      else s
    | _ => s)

/-- IDE_KEY_PROGRAMMING: a stream takes its key; refused while the identity key is unavailable (R52). A port has one link stream and
8 selective ones. -/
def execIdeKeyProgramming (s : State) : Host.Outcome State Fault Refusal :=
  .next (match s.input with
    | .ideKey p st key =>
      if p < 2 ∧ st < 9 ∧ s.mgmt.keyOk = true ∧ (s.port p).up = true then
        let d := s.port p
        s.setPort p { d with ide := Sparse.set none d.ide st (some key), ideSt := Sparse.set false d.ideSt st false }
      else s
    | _ => s)

/-! ### Windows (R50, R77) -/

/-- log2 of a function's BAR2 size, within its range. -/
def barLog (p f : Nat) : Nat :=
  if f = 0 then Nat.max 30 (Nat.min 40 (Config.bar2Log p f)) else Nat.max 26 (Nat.min 36 (Config.bar2Log p f))

/-- The interleaved physical address that BAR2 offset `off` reaches; none beyond 576 GiB. -/
def State.bar2 (s : State) (p f off : Nat) : Option Nat :=
  let base := (Sparse.get 0 (s.port p).winbase f).toNat * 2 ^ 26 / 2 ^ barLog p f * 2 ^ barLog p f
  if base + off < 4 * hbmBytes then some (base + off) else none

/-- The offset in PF0's BAR0 that an access through function f's BAR0 names: a virtual function has doorbells only. -/
def barOffset (f off : Nat) : Nat := if f = 0 then off else 0x600000 + off
/-- Is an access of n bytes through a function's BAR0 served? -/
def barServed (f off n : Nat) : Bool :=
  regServed (barOffset f off) n && (f == 0 || decide (off < 0x10000)) && (f != 0 || decide (off < 0x1000000))
/-- Does a doorbell answer through this function (R77)? -/
def State.ownsBell (s : State) (p f off : Nat) : Bool :=
  f == 0 || ((s.ctx (off / 0x400)).func.toNat == f && (s.ctx (off / 0x400)).port.toNat == p)

/-! ### The ordering point (R54, R55, R456) -/

def State.postedAt (s : State) (i : Nat) : Option Posted := Sparse.get none s.posted i
def State.setPosted (s : State) (i : Nat) (w : Option Posted) : State := { s with posted := Sparse.set none s.posted i w }

/-- Is it a posted write, and no AtomicOp? -/
def PostedOp.isWrite : PostedOp → Bool
  | .amo .. => false
  | _ => true

/-- Does w depend on the earlier write e (R55)? DESIGN CHOICE (log entry 133): an AtomicOp depends on the earlier posted writes, as a
posted write does, and nothing depends on an earlier AtomicOp. -/
def Posted.dependsOn (w e : Posted) : Bool :=
  e.port == w.port && decide (e.tlp < w.tlp) && e.op.isWrite && !w.ro && !(w.ido && e.rid != w.rid)

/-- May w be sent: is all that it depends on acknowledged, or sent on the same route? -/
def State.maySend (s : State) (w : Posted) : Bool :=
  (listed s.posted).all fun e => !w.dependsOn e.2 || (e.2.quad == w.quad && e.2.sent.isSome)

/-- A held transaction is sent, if it may be. -/
def State.sendPosted (s : State) (i : Nat) : State :=
  match s.postedAt i with
  | some w =>
    if w.sent.isNone && s.maySend w then
      let (n, s) := s.fresh
      s.setPosted i (some { w with sent := some n })
    else s
  | none => s

def execOrderingPointSend (id : Nat) (s : State) : Host.Outcome State Fault Refusal := .next (s.sendPosted id)

/-- A transaction arrives at the ordering point. -/
def State.postNew (s : State) (w : Posted) : State :=
  let (i, s) := s.fresh
  (s.setPosted i (some w)).sendPosted i

/-- A write cut at lines, from address a; fuel is the number of its bytes. -/
def lineChunks : Nat → Nat → List Byte → List (Nat × List Byte)
  | 0, _, _ => []
  | _, _, [] => []
  | f + 1, a, bs => (a, bs.take (128 - a % 128)) :: lineChunks f (a + (128 - a % 128)) (bs.drop (128 - a % 128))

/-- A posted write to the registers through a function's BAR0. -/
def State.postReg (s : State) (p f off : Nat) (data : List Byte) (ro ido : Bool) (rid : Nat) : State :=
  if !barServed f off data.length then s.logEv .unsupportedRequest 1 (evIod p) [f, off, data.length]
  else
    let (t, s) := s.fresh
    s.postNew { port := p, quad := regQuad (barOffset f off), ro := ro, ido := ido, rid := rid, tlp := t
                op := .reg f off data.length (BitVec.ofNat 64 (leNat data)) }

/-- A posted write through BAR2. -/
def State.postMem (s : State) (p f off : Nat) (data : List Byte) (ro ido : Bool) (rid : Nat) (poisoned : Bool) : State :=
  match s.bar2 p f off with
  | none => s.logEv .unsupportedRequest 1 (evIod p) [f, off, data.length]
  | some pa =>
    let (t, s) := s.fresh
    (lineChunks data.length pa data).foldl (fun (s : State) c =>
      match s.viewOf c.1 with
      | some (_, _, a) =>
        s.postNew { port := p, quad := quadOf a, ro := ro, ido := ido, rid := rid, tlp := t, op := .bytes a c.2 poisoned }
      | none => s) s

/-- INBOUND_POSTED_WRITE: a TLP that fails its IDE check is dropped; any other, of at most 512 bytes, is split and sent or held. -/
def execInboundPostedWrite (s : State) : Host.Outcome State Fault Refusal :=
  .next (match s.input with
    | .postedWrite p f bar0 off data ro ido rid poisoned ideFail =>
      if 2 ≤ p ∨ 32 ≤ f ∨ 512 < data.length ∨ (s.port p).up = false then s
      else
        match ideFail with
        | some st => s.ideFail p st
        | none => if bar0 then s.postReg p f off data ro ido rid else s.postMem p f off data ro ido rid poisoned
    | .ideFailed p st => s.ideFail p st
    | _ => s)

/-- INBOUND_ATOMICOP: ordered like a posted write; 32 and 64 bits, naturally aligned, through BAR2. -/
def State.postAtomic (s : State) (p f off : Nat) (op : PcieAtom) (wide : Bool) (a b : DWord) (ro ido : Bool) (rid tag : Nat) : State :=
  let n := if wide then 8 else 4
  match (s.bar2 p f off).bind s.viewOf with
  | some (_, _, c) =>
    if off % n ≠ 0 then (s.emit (.unsupported p tag)).logEv .unsupportedRequest 1 (evIod p) [f, off, n]
    else
      let (t, s) := s.fresh
      s.postNew { port := p, quad := quadOf c, ro := ro, ido := ido, rid := rid, tlp := t, op := .amo c op wide a b tag }
  | none => (s.emit (.unsupported p tag)).logEv .unsupportedRequest 1 (evIod p) [f, off, n]

def execInboundAtomicop (s : State) : Host.Outcome State Fault Refusal :=
  .next (match s.input with
    | .atomicOp p f off op wide a b ro ido rid tag =>
      if 2 ≤ p ∨ 32 ≤ f ∨ (s.port p).tags ≤ tag ∨ (s.port p).up = false then s else s.postAtomic p f off op wide a b ro ido rid tag
    | .ideFailed p st => s.ideFail p st
    | _ => s)

/-! ### Inbound requests at the homes (R16, R53, R54, R187) -/

/-- A route delivers in the order in which it was sent. -/
def State.firstOnRoute (s : State) (i : Nat) (w : Posted) : Bool :=
  (listed s.posted).all fun e => e.1 == i || e.2.port != w.port || e.2.quad != w.quad || e.2.accepted ||
    (match e.2.sent, w.sent with | some x, some y => decide (y < x) | _, _ => true)

/-- The operation of an inbound AtomicOp. -/
def amoOp : PcieAtom → AtomOp
  | .fetchAdd => .add
  | .swap => .exch
  | .cas => .cas

/-- A home accepts bytes from an I/O die; data sent poisoned leaves every sector it touches poisoned. -/
def State.acceptBytes (s : State) (p i a : Nat) (data : List Byte) (poisoned : Bool) : State :=
  (s.countLines (srcIod p) a data.length).agentPut (srcIod p) i (if poisoned then some 3 else none)
    ((List.range data.length).map fun j => (a + j, data.getD j 0))

/-- The home performs an AtomicOp: its old value is returned; a poisoned sector stays as it is. -/
def State.acceptAtomic (s : State) (p i c : Nat) (op : PcieAtom) (wide : Bool) (a b : DWord) (tag : Nat) : State :=
  let n := if wide then 8 else 4
  let old := s.wordAt c n
  if s.poisonedRange c n then (s.count (srcIod p) c).emit (.completion p tag (toLE n old) true)
  else
    let s := match atomNew (amoOp op) (if wide then .n64 else .n32) old a.toNat b.toNat with
      | some v => s.agentWrite (srcIod p) i ((List.range n).map fun j => (c + j, (toLE n v).getD j 0))
      | none => s.count (srcIod p) c
    s.emit (.completion p tag (toLE n old) false)

/-- Must a register write wait for an earlier write of its port: every one, unless it carries Relaxed Ordering (R79, R456)? -/
def Posted.follows (w e : Posted) : Bool := e.port == w.port && decide (e.tlp < w.tlp) && e.op.isWrite && !w.ro

/-- A sent transaction of the ordering point reaches its home; a register write takes effect once every earlier write of its port has been
acknowledged (R79, R456). -/
def State.servePosted (s : State) (i : Nat) (w : Posted) : State :=
  if w.sent.isNone || w.accepted || !s.firstOnRoute i w then s
  else
    match w.op with
    | .bytes a data poisoned =>
      if !s.rangeFree a data.length then s.recallRange a data.length
      else (s.acceptBytes w.port i a data poisoned).setPosted i (some { w with accepted := true })
    | .amo c op wide a b tag =>
      if !s.rangeFree c (if wide then 8 else 4) then s.recallRange c (if wide then 8 else 4)
      else (s.acceptAtomic w.port i c op wide a b tag).setPosted i (some { w with accepted := true })
    | .reg f off n v =>
      if (listed s.posted).any fun e => w.follows e.2 then s
      else
      let s := s.setPosted i none
      if s.ownsBell w.port f off then s.regWrite (barOffset f off) n v.toNat else s

/-! ### Inbound reads (R56) -/

/-- Posted writes of a port that are not yet acknowledged. -/
def State.postedOf (s : State) (p : Nat) : List Nat :=
  (listed s.posted).filterMap fun e => if e.2.port = p ∧ e.2.op.isWrite = true then some e.1 else none

/-- INBOUND_READ: the read waits for the earlier posted writes of its port; one that is not served completes with Unsupported
Request. -/
def State.inboundRead (s : State) (p f : Nat) (bar0 : Bool) (off n tag : Nat) : State :=
  let add := fun (s : State) (a : Nat) => { s with
    reads := Sparse.set none s.reads (p * 2 ^ 16 + tag)
      (some { port := p, func := f, bar0 := bar0, tag := tag, addr := a, len := n, after := s.postedOf p }) }
  if bar0 then
    (if barServed f off n then add s off else (s.emit (.unsupported p tag)).logEv .unsupportedRequest 1 (evIod p) [f, off, n])
  else
    match s.bar2 p f off with
    | some pa => if 4096 < n then (s.emit (.unsupported p tag)).logEv .unsupportedRequest 1 (evIod p) [f, off, n] else add s pa
    | none => (s.emit (.unsupported p tag)).logEv .unsupportedRequest 1 (evIod p) [f, off, n]

def execInboundRead (s : State) : Host.Outcome State Fault Refusal :=
  .next (match s.input with
    | .readRequest p f bar0 off n tag =>
      if 2 ≤ p ∨ 32 ≤ f ∨ (s.port p).tags ≤ tag ∨ (s.port p).up = false then s else s.inboundRead p f bar0 off n tag
    | .ideFailed p st => s.ideFail p st
    | _ => s)

/-- The cells of n bytes at an interleaved physical address. -/
def State.paCells (s : State) (pa n : Nat) : List Nat := (List.range n).filterMap fun i => (s.viewOf (pa + i)).map fun v => v.2.2

/-- INBOUND_READ_COMPLETION: the data is read at the homes and returned; data from a poisoned sector is marked so. -/
def State.readDone (s : State) (key : Nat) : State :=
  match Sparse.get none s.reads key with
  | none => s
  | some r =>
    if r.after.any fun i => (s.postedAt i).isSome then s
    else
      let ended := fun (s : State) => { s with reads := Sparse.set none s.reads key none }
      if r.bar0 then
        let bs := if s.ownsBell r.port r.func r.addr then s.regRead (barOffset r.func r.addr) r.len else List.replicate r.len 0
        (ended s).emit (.completion r.port r.tag bs false)
      else
        let cs := s.paCells r.addr r.len
        let ls := (cs.map fun c => c / 128).eraseDups
        match ls.find? fun l => !s.lineFree none l with
        | some l => s.recall l
        | none =>
          let s' := ls.foldl (fun (s : State) l => s.count (srcIod r.port) (l * 128)) (ended s)
          s'.emit (.completion r.port r.tag (cs.map s.cell) (cs.any s.poisoned))

def execInboundReadCompletion (tag : Nat) (s : State) : Host.Outcome State Fault Refusal := .next (s.readDone tag)

/-! ### ATS and PRI (R51) -/

/-- ATS_INVALIDATION: the page may not be used any more; the invalidation completes once no request uses the old translation. -/
def execAtsInvalidation (s : State) : Host.Outcome State Fault Refusal :=
  .next (match s.input with
    | .ats p pasid page _ =>
      let d := s.port p
      (s.setPort p { d with
        ats := Sparse.set false d.ats (pasid * 2 ^ 32 + page) false, inv := d.inv ++ [(pasid, page, s.pageUsers p pasid page)] }).settleAts p
    | .ideFailed p st => s.ideFail p st
    | _ => s)

/-- Is a park one on this host page? -/
def Park.onPage (k : Park) (p pasid page : Nat) : Bool :=
  match k with
  | .pri q ps pg _ _ => q == p && ps == pasid && pg == page
  | _ => false

/-- The lanes parked on a page fault with HOSTCPL. -/
def State.failPage (s : State) (p pasid page : Nat) : State :=
  (listed s.groups).foldl (fun (s : State) g => lanes32.foldl (fun (s : State) l =>
    match (g.2.lane l).park with
    | .pri q ps pg acc va => if q = p ∧ ps = pasid ∧ pg = page then s.lateTrap (g.2.lane l).pc g.1 l causeHostCpl acc va else s
    | _ => s) s) s

/-- Accesses of a lane that waited for the page to be translated again fail with HOSTCPL (R51, R53). -/
def State.failAgain (s : State) (gid l : Nat) : State :=
  (s.threadTxns gid l).foldl (fun (s : State) p =>
    match p.2.parts.find? fun q => q.lane == l && q.again with
    | none => s
    | some q =>
      let ps := p.2.parts.filter fun r => r != q
      (s.setTxn p.1 (if ps.isEmpty then none else some { p.2 with parts := ps })).lateBoth p.2.pc gid l causeHostCpl q.op.acc.code q.va) s

/-- PAGE_RESPONSE: the lanes parked on the page replay, or fault with HOSTCPL; engines go on, or their operations end. A page request
that waited for a slot is sent. -/
def State.pageResponse (s : State) (p pasid page : Nat) (ok : Bool) : State :=
  let d := s.port p
  let mine := d.pri.filter fun r => r.1 == pasid && r.2.1 == page
  if mine.isEmpty then s
  else
    let pages := (d.pri.map fun r => (r.1, r.2.1)).eraseDups
    let rest := d.pri.filter fun r => !(r.1 == pasid && r.2.1 == page)
    let s := s.setPort p { d with pri := rest, ats := if ok then Sparse.set false d.ats (pasid * 2 ^ 32 + page) true else d.ats }
    let s := if ok then s.readyWhere fun _ k => k.onPage p pasid page
             else mine.foldl (fun (s : State) r => if (s.group r.2.2.1).isSome then s.failAgain r.2.2.1 r.2.2.2 else s.failEngine r.2.2.1 causeHostCpl (page * 4096)) (s.failPage p pasid page)
    match pages[512]? with
    | some n => s.emit (.pageRequest p n.1 n.2)
    | none => s

def execPageResponse (s : State) : Host.Outcome State Fault Refusal :=
  .next (match s.input with
    | .ats p pasid page ok => s.pageResponse p pasid page ok
    | .ideFailed p st => s.ideFail p st
    | _ => s)

/-! ### Clovar ports (R58, R64, R66) -/

def State.cport (s : State) (p : Nat) : CPort := Sparse.get {} s.clovar.ports p
def State.setCport (s : State) (p : Nat) (d : CPort) : State :=
  { s with clovar := { s.clovar with ports := Sparse.set {} s.clovar.ports p d } }

/-- Requests to a node with no port left up fail; else new ones wait until those that are out have ended. -/
def State.rerouteNode (s : State) (n : Nat) : State :=
  if !s.nodeOut n then s
  else if (s.nodePorts n).isEmpty then
    let out := (listed s.txns).filterMap fun t => if t.2.tgt = .node n ∧ t.2.accepted = true then some t.1 else none
    (out.foldl (fun (s : State) i => s.failTxn i causeLinkLost) s).applyRoute n
  else s.setRoute n (s.clovar.mask n)

/-- Collectives of the port's die whose last way to a rank it was end with FAILED (R71). -/
def State.failColls (s : State) (before : State) : State :=
  (listed s.clovar.colls).foldl (fun (s : State) c =>
    let cut := (List.range c.2.size).any fun k => k != c.2.rank &&
      !(before.enginePorts c.2.eng (c.2.nodes.getD k 0)).isEmpty && (s.enginePorts c.2.eng (c.2.nodes.getD k 0)).isEmpty
    if cut && !c.2.ended then s.collEnd c.1 2 0 else s) s

/-- A port changes LST. -/
def State.setLst (s : State) (p : Nat) (lst : BitVec 2) (peer : BitVec 10) : State :=
  let old := s
  let s := s.setCport p { s.cport p with lst := lst, peer := peer }
  let ns := (s.clovar.routes.filter fun r => r.2.getLsbD p).map (·.1)
  (ns.foldl (fun (s : State) n => s.rerouteNode n) s).failColls old

/-- LST of a port of which so many lanes have trained (R58, R59). -/
def lstOf (training : Bool) (lanes : Nat) : BitVec 2 :=
  if training then 1 else if 4 ≤ lanes then 2 else if 2 ≤ lanes then 3 else 0

/-- CLOVAR_PORT_STATE_CHANGE. -/
def execClovarPortStateChange (s : State) : Host.Outcome State Fault Refusal :=
  .next (match s.input with
    | .portState p training lanes peer =>
      let lst := lstOf training lanes
      if 18 ≤ p ∨ s.iodPresent (p / 9) = false ∨ (s.cport p).lst = lst then s else s.setLst p lst peer
    | _ => s)

/-- The retries of the last 1 ms, this one among them; uptime counts half nanoseconds. -/
def State.recentRetries (s : State) (d : CPort) : List Nat := s.uptime :: d.retries.filter fun t => decide (s.uptime < t + 2000000)

/-- CLOVAR_FLIT_ERROR: a flit is retried and counted; a port that exceeds 16 retries in 1 ms is taken down. -/
def execClovarFlitError (s : State) : Host.Outcome State Fault Refusal :=
  .next (match s.input with
    | .flit p =>
      if 18 ≤ p then s
      else
        let d := s.cport p
        let ts := s.recentRetries d
        let down : Bool := decide (16 < ts.length)
        let s := s.setCport p { d with
          retry := if d.retry = 0xFFFF#16 then d.retry else d.retry + 1
          retries := if down then [] else ts }
        if down then (s.setLst p 0 d.peer).logEv .clovarDown 2 (evIod (p / 9)) [p] else s
    | _ => s)

/-! ### CLOVAR_INBOUND_REQUEST (R61, R62) -/

def State.peerAt (s : State) (i : Nat) : Option Peer := Sparse.get none s.peers i
def State.setPeer (s : State) (i : Nat) (w : Option Peer) : State := { s with peers := Sparse.set none s.peers i w }

/-- Bytes that a peer's request touches. -/
def peerSize : RemoteOp → Nat
  | .load n => n
  | .store bs _ => bs.length
  | .atom _ ty _ _ => if ty.wide then 8 else 4
  | .red _ ty _ => if ty.wide then 8 else 4

/-- An atomic of a peer is performed. -/
def State.peerAtomic (s : State) (i : Nat) (w : Peer) (op : AtomOp) (ty : AtomTy) (a b : DWord) (answer : Bool) : State :=
  let n := if ty.wide then 8 else 4
  let old := s.wordAt w.loc n
  let s := match atomNew op ty old a.toNat b.toNat with
    | some v => s.agentWrite (srcIod (w.port / 9)) i ((List.range n).map fun j => (w.loc + j, (toLE n v).getD j 0))
    | none => s.count (srcIod (w.port / 9)) w.loc
  s.setPeer i (some { w with reply := some (if answer then toLE n old else []) })

/-- Do the lines of two requests of peers meet? -/
def Peer.meets (w e : Peer) : Bool :=
  decide (w.loc / 128 * 128 < e.loc + peerSize e.op) && decide (e.loc / 128 * 128 < w.loc + peerSize w.op)

/-- Is an earlier request of the same device to a line of this one still to be performed (R63)? One that a poisoned sector holds up
stands back. -/
def State.olderPeer (s : State) (i : Nat) (w : Peer) : Bool :=
  (listed s.peers).any fun e => decide (e.1 < i) && e.2.src == w.src && e.2.reply.isNone && w.meets e.2 &&
    !(s.poisonedRange e.2.loc (peerSize e.2.op) && (match e.2.op with | .store .. => false | _ => true))

/-- A peer's request reaches its home: it is performed once its line is free; reads and atomics wait on a poisoned sector. -/
def State.servePeer (s : State) (i : Nat) (w : Peer) : State :=
  if w.reply.isSome || s.olderPeer i w then s
  else if !s.rangeFree w.loc (peerSize w.op) then s.recallRange w.loc (peerSize w.op)
  else
    let bad := s.poisonedRange w.loc (peerSize w.op)
    match w.op with
    | .store bs poisoned => (s.acceptBytes (w.port / 9) i w.loc bs poisoned).setPeer i (some { w with reply := some [] })
    | .load n =>
      if bad then s
      else (s.count (srcIod (w.port / 9)) w.loc).setPeer i (some { w with reply := some (s.cells w.loc n) })
    | .atom op ty a b => if bad then s else s.peerAtomic i w op ty a b true
    | .red op ty a =>
      if bad then (if w.logged then s else (s.logPoison 4 3 (w.port / 9) w.loc).setPeer i (some { w with logged := true }))
      else s.peerAtomic i w op ty a 0 false

/-- Is a request from a node through a port served (R62)? -/
def State.admits (s : State) (p src dst : Nat) : Bool :=
  s.clovar.den && s.clovar.node.toNat == dst && decide (2 ≤ (s.cport p).lst.toNat) && (s.clovar.mask src).getLsbD p

/-- A request is refused; the first refusal of each source is logged. DESIGN CHOICE (log entry 132): the sources are kept once for the
device, not for each I/O die. -/
def State.refusePeer (s : State) (p src : Nat) : State :=
  let s := s.emit (.answer p src false [])
  if Sparse.get false s.clovar.refused src then s
  else ({ s with clovar := { s.clovar with refused := Sparse.set false s.clovar.refused src true } }).logEv .clovarRefusal 1 (evIod (p / 9)) [src]

def execClovarInboundRequest (s : State) : Host.Outcome State Fault Refusal :=
  .next (match s.input with
    | .clovar p src dst off op =>
      if 18 ≤ p then s
      else if !s.admits p src dst || decide (4 * hbmBytes < off + peerSize op) then s.refusePeer p src
      else
        match s.viewOf off with
        | none => s.refusePeer p src
        | some (_, _, a) =>
          let (i, s) := s.fresh
          let w : Peer := { port := p, src := src, loc := a, op := op }
          (s.setPeer i (some w)).servePeer i w
    | _ => s)

/-! ### HOME_REQUEST (R16, R54, R61, R207) -/

/-- Numbers of the write-backs by which L1 evicts a dirty line of a core, or a dirty local line of a group (R173, R178). -/
def evictId (core line : Nat) : Nat := 2 ^ 63 + core * 2 ^ 41 + line
def evictLocalId (gid line : Nat) : Nat := 2 ^ 64 + gid * 2 ^ 41 + line

/-- A request reaches its home: one of this device, one of the ordering points, one of a Clovar peer, or an eviction, which L1 makes
when it likes (log entry 125). -/
def State.homeRequest (s : State) (id : Nat) : State :=
  if 2 ^ 64 ≤ id then s.drainLines ((id - 2 ^ 64) / 2 ^ 41) fun l => l == id % 2 ^ 41
  else if 2 ^ 63 ≤ id then s.evictLine ((id - 2 ^ 63) / 2 ^ 41) (id % 2 ^ 41)
  else
  match s.postedAt id, s.peerAt id with
  | some w, _ => s.servePosted id w
  | none, some w => s.servePeer id w
  | none, none => s.ownRequest id

def execHomeRequest (id : Nat) (s : State) : Host.Outcome State Fault Refusal := .next (s.homeRequest id)

end Sys2Proof.Machine
end

