-- ==== Sys2Proof/Machine/Pair.lean ====
section
/-! DEFINITION. Pair.lean: pair words (R305 to R308). Each slot has the effect of its full form; in a lane where one faults or
parks, neither has any. -/
namespace Sys2Proof.Machine

/-- A slot that only computes. -/
def slotCompute (x : Slot) (b : Block) (e : Env) : LaneRes :=
  let f : FEnv := { e := e, b := b }
  let d := e.r32 x.d
  let a := e.r32 x.a
  let wd : DWord := d.zeroExtend 64
  let wa : DWord := a.zeroExtend 64
  let sv := IntTy.val .s32
  let nv := IntTy.val .n32
  let put := fun (t : IntTy) (v : Int) => e.alu false x.d (t.put false v)
  let out := fun (v : DWord) => e.alu false x.d v
  let bin := fun (fn : FVal → FVal → Nat × BitVec 5) => f.op .f32 x.d [d.toNat, a.toNat] fun vs => fn (nth vs 0) (nth vs 1)
  let two := fun (fm : Fmt) (fn : FVal → FVal → Nat × BitVec 5) => f.op2 fm x.d [d.toNat, a.toNat] fun vs => fn (nth vs 0) (nth vs 1)
  let dir := f.dir .rm
  match x.op with
  | .mov => out wa
  | .add => put .s32 (sv wd + sv wa)
  | .sub => put .s32 (sv wd - sv wa)
  | .mul => put .s32 (sv wd * sv wa)
  | .minS => put .s32 (if sv wd ≤ sv wa then sv wd else sv wa)
  | .maxS => put .s32 (if sv wd ≤ sv wa then sv wa else sv wd)
  | .minN => put .n32 (if nv wd ≤ nv wa then nv wd else nv wa)
  | .maxN => put .n32 (if nv wd ≤ nv wa then nv wa else nv wd)
  | .and => out (wd &&& wa)
  | .or => out (wd ||| wa)
  | .xor => out (wd ^^^ wa)
  | .andn => out (wd &&& ~~~ wa)
  | .shl => out (shlVal 32 wd a.toNat)
  | .shr => out (shrVal 32 wd a.toNat)
  | .sar => out (sarVal 32 wd a.toNat)
  | .fadd => bin fun p q => (formatOf .f32).add dir p q
  | .fsub => bin fun p q => (formatOf .f32).add dir p q.flip
  | .fmul => bin fun p q => (formatOf .f32).mul dir p q
  | .fmin => f.res .f32 x.d ((formatOf .f32).minMax b.snant (f.fz .f32) false false d.toNat a.toNat)
  | .fmax => f.res .f32 x.d ((formatOf .f32).minMax b.snant (f.fz .f32) true false d.toNat a.toNat)
  | .fadd2b => two .bf16 fun p q => (formatOf .bf16).add dir p q
  | .fmul2b => two .bf16 fun p q => (formatOf .bf16).mul dir p q
  | .fadd2h => two .f16 fun p q => (formatOf .f16).add dir p q
  | .fmul2h => two .f16 fun p q => (formatOf .f16).mul dir p q
  | .neg => put .s32 (-(sv wa))
  | .abs => put .s32 ((sv wa).natAbs : Int)
  | .popc => out (BitVec.ofNat 64 (popVal 32 wa))
  | .brev => out (brevVal 32 wa)
  | .clz => out (BitVec.ofNat 64 (clzVal 32 wa))
  | .cvtF | .cvtS =>
    (match cvtVal (if x.op = .cvtF then .f32 else .s32) (if x.op = .cvtF then .s32 else .f32) b.snant false dir 0 wa with
     | none => .trap 0x2C 0 0
     | some r => .done (e.out false x.d r.1) [] r.2)
  | .nop | .scrLd | .scrSt | .locLd | .locSt | .quePop | .quePush => .done [] [] 0

/-- A local load of a slot: the lane has the bytes, or neither slot has an effect there (R307). -/
def State.slotLoad (s : State) (c : Ctl) (l : Nat) (d : RegIx) (ea : Nat) : LaneRes × State :=
  match s.locate c.g .loc ea 4 4 .load with
  | .ok (.loc a) =>
    (match s.checkLocal c l .load (locUnits a 4) with
     | (.error r, s) => (r, s)
     | (.ok ps, s) => (match s.localNow c l 0 ((locUnits a 4).zip ps) with
       | (.ok bs, s) => (.done (widthWrites .b32 d.toNat bs) [] 0, s)
       | (.error r, s) => (r, s)))
  | .ok _ => (badOperand, s)
  | .error r => (r, s)

/-- A slot in one lane. -/
def State.slot (s : State) (c : Ctl) (l : Nat) (x : Slot) : LaneRes × State :=
  let e := c.env l
  if !e.ln.pred x.gp.toNat then (.done [] [] 0, s)
  else
    match x.op with
    | .scrLd => s.loadLane c l .scr .b32 .plain .team false x.d (e.r32 x.a).toNat
    | .locLd => s.slotLoad c l x.d (e.r32 x.a).toNat
    | .scrSt => s.storeLane c l .scr .plain .team (e.data .b32 x.a) (e.r32 x.d).toNat
    | .locSt => s.storeLane c l .loc .plain .team (e.data .b32 x.a) (e.r32 x.d).toNat
    | .quePop =>
      (match s.popQ c.g x.a.toNat with
       | (.ok v, s) => (.done [(x.d.toNat, v)] [] 0, s)
       | (.error r, s) => (r, s))
    | .quePush =>
      (match s.pushQ c.g x.d.toNat (e.r32 x.a) with
       | (.ok (), s) => (pending, s)
       | (.error r, s) => (r, s))
    | _ => (slotCompute x (s.rcd c.g.launch).blk e, s)

/-- Both slots in one lane: both effects, or the fault or park of one (R307). -/
def State.pairLane (s : State) (c : Ctl) (l : Nat) (s0 s1 : Slot) : LaneRes × State :=
  match s.slot c l s0 with
  | (.done w0 p0 f0, s') =>
    (match s'.slot c l s1 with
     | (.done w1 p1 f1, s'') => (.done (w0 ++ w1) (p0 ++ p1) (f0 ||| f1), s'')
     | (r, s'') => if s1.op.isMem then (r, s'') else (r, s))
  | (r, s') => (r, s')

/-- Active lanes that use a slot, counted as its queue counts them. -/
def Ctl.slotUsers (c : Ctl) (x : Slot) : Nat :=
  Ctl.users { c with act := maskOf ((lanesOf c.act).filter fun l => (c.g.lane l).pred x.gp.toNat) }

/-- Are a slot's queue entries, or its queue's room, there (R256)? -/
def State.slotReady (s : State) (c : Ctl) (x : Slot) : Bool :=
  match x.op with
  | .quePop => s.popReady c.g x.a.toNat (c.slotUsers x)
  | .quePush => s.pushReady c.g x.d.toNat (c.slotUsers x)
  | .locSt => (lanesOf c.act).all (fun l => !(c.g.lane l).pred x.gp.toNat) || decide (s.spillsUsed c.gid < 16)
  | _ => true

/-- What the copies of a lane compare of a slot: whether it runs, its address, and a store's data (R166). -/
def Ctl.slotSame (c : Ctl) (x : Slot) (l : Nat) : List Nat :=
  let e := c.env l
  if !x.op.isMem then []
  else if !e.ln.pred x.gp.toNat then [0]
  else
    1 :: (match x.op with
      | .scrLd | .locLd => [(e.r32 x.a).toNat]
      | .scrSt | .locSt => [(e.r32 x.d).toNat, leNat (e.data .b32 x.a)]
      | .quePush => [(e.r32 x.a).toNat]
      | _ => [])

/-- What lane l reads of a slot. -/
def slotLaneReads (x : Slot) (g : Group) (l : Nat) : List (Nat × Nat × Nat) :=
  (l, 1, x.gp.toNat) :: if (g.lane l).pred x.gp.toNat then (slotUses x).reads l else []

/-- No result of a slot is pending in a lane where its guard is false. -/
def State.slotHazard (s : State) (c : Ctl) (stall : Nat) (x : Slot) : State :=
  match s.group c.gid, x.writes with
  | some g, some d =>
    if stall < slotLat x.op ∧ d.toNat ≠ 511 then
      let m := maskOf ((lanesOf c.act).filter fun l => (c.g.lane l).pred x.gp.toNat)
      match g.hazards.findIdx? fun hz => hz.kind == 0 && hz.reg == d.toNat with
      | some i => s.setGroup c.gid { g with hazards := g.hazards.modify i fun hz => { hz with lanes := hz.lanes &&& m } }
      | none => s
    else s
  | _, _ => s

/-- The stall count of a pair word: the greater of its slots' (R305). -/
def pairStall (s0 s1 : Slot) : Nat := Nat.max s0.stall.toNat s1.stall.toNat

/-- A pair word (R305 to R308): its lanes are all those at the issue address, and each slot has its own guard. -/
def execPairWord (s0 s1 : Slot) (s : State) : Host.Outcome State Fault Refusal :=
  let n := pairStall s0 s1
  .next (s.issueWord 7 false n (instrUses (.pairWord s0 s1))
    { mem := s0.op.isMem || s1.op.isMem
      same := some fun c l => c.slotSame s0 l ++ c.slotSame s1 l
      reads := some fun g l => slotLaneReads s0 g l ++ slotLaneReads s1 g l
      ready := fun c s => s.slotReady c s0 && s.slotReady c s1
      fin := fun c s => (s.slotHazard c (Nat.max n 1) s0).slotHazard c (Nat.max n 1) s1 }
    fun c l s => s.pairLane c l s0 s1)

end Sys2Proof.Machine
end

