-- ==== Sys2Proof/Machine/Dispatch.lean ====
section
/-! DEFINITION. Dispatch.lean: which meaning each instruction has: one arm per constructor of Instr. -/
namespace Sys2Proof.Machine

def exec (i : Instr) (s : State) : Host.Outcome State Fault Refusal :=
  match i with
  | .homeRequest id => Sys2Proof.Machine.execHomeRequest id s
  | .invalidationAcknowledgement line die => Sys2Proof.Machine.execInvalidationAcknowledgement line die s
  | .acknowledgement id => Sys2Proof.Machine.execAcknowledgement id s
  | .fenceInstant die => Sys2Proof.Machine.execFenceInstant die s
  | .dieSelfTestEnd die pass => Sys2Proof.Machine.execDieSelfTestEnd die pass s
  | .inFieldTest core => Sys2Proof.Machine.execInFieldTest core s
  | .inFieldTestRetry core late => Sys2Proof.Machine.execInFieldTestRetry core late s
  | .inFieldTestEnd core pass => Sys2Proof.Machine.execInFieldTestEnd core pass s
  | .orderingPointSend id => Sys2Proof.Machine.execOrderingPointSend id s
  | .inboundReadCompletion tag => Sys2Proof.Machine.execInboundReadCompletion tag s
  | .collectiveCompletion eng comm num => Sys2Proof.Machine.execCollectiveCompletion eng comm num s
  | .collectiveTimeout eng comm num => Sys2Proof.Machine.execCollectiveTimeout eng comm num s
  | .invalidationDone k => Sys2Proof.Machine.execInvalidationDone k s
  | .blockConsume k j => Sys2Proof.Machine.execBlockConsume k j s
  | .headReservation rec => Sys2Proof.Machine.execHeadReservation rec s
  | .groupRetire gid => Sys2Proof.Machine.execGroupRetire gid s
  | .ticketSkip rec stage sect => Sys2Proof.Machine.execTicketSkip rec stage sect s
  | .quiescent rec => Sys2Proof.Machine.execQuiescent rec s
  | .stampAccept rec => Sys2Proof.Machine.execStampAccept rec s
  | .backoffExpiry gid => Sys2Proof.Machine.execBackoffExpiry gid s
  | .sleepExpiry gid => Sys2Proof.Machine.execSleepExpiry gid s
  | .engineRoomFree e => Sys2Proof.Machine.execEngineRoomFree e s
  | .laneRelease gid lane => Sys2Proof.Machine.execLaneRelease gid lane s
  | .spawnAccept id => Sys2Proof.Machine.execSpawnAccept id s
  | .binTimer q bin => Sys2Proof.Machine.execBinTimer q bin s
  | .joinDecrement id => Sys2Proof.Machine.execJoinDecrement id s
  | .groupSuspend gid => Sys2Proof.Machine.execGroupSuspend gid s
  | .spawnSave rec => Sys2Proof.Machine.execSpawnSave rec s
  | .localFrame rec => Sys2Proof.Machine.execLocalFrame rec s
  | .rjoinComplete gid => Sys2Proof.Machine.execRjoinComplete gid s
  | .pageWalk agent k va => Sys2Proof.Machine.execPageWalk agent k va s
  | .copyLanding id => Sys2Proof.Machine.execCopyLanding id s
  | .copyCompletion id => Sys2Proof.Machine.execCopyCompletion id s
  | .matrixCompletion team => Sys2Proof.Machine.execMatrixCompletion team s
  | .nbgemvCompletion id => Sys2Proof.Machine.execNbgemvCompletion id s
  | .sweepStart team => Sys2Proof.Machine.execSweepStart team s
  | .sweepEnd team => Sys2Proof.Machine.execSweepEnd team s
  | .sphinxCompletion team => Sys2Proof.Machine.execSphinxCompletion team s
  | .domainJoinTimeout rec dom => Sys2Proof.Machine.execDomainJoinTimeout rec dom s
  | .preemptionComplete k => Sys2Proof.Machine.execPreemptionComplete k s
  | .cutTimeout k => Sys2Proof.Machine.execCutTimeout k s
  | .npOverrun gid => Sys2Proof.Machine.execNpOverrun gid s
  | .monwaitTimeout gid lane => Sys2Proof.Machine.execMonwaitTimeout gid lane s
  | .resultLands gid lane => Sys2Proof.Machine.execResultLands gid lane s
  | .pairWord s0 s1 => Sys2Proof.Machine.execPairWord s0 s1 s
  | .add h t sat d a c => Sys2Proof.Machine.execAdd h t sat d a c s
  | .addc h d po a c pi pn => Sys2Proof.Machine.execAddc h d po a c pi pn s
  | .sub h t sat d a c => Sys2Proof.Machine.execSub h t sat d a c s
  | .subb h d po a c pi pn => Sys2Proof.Machine.execSubb h d po a c pi pn s
  | .mul h t d a c => Sys2Proof.Machine.execMul h t d a c s
  | .mulh h t d a c => Sys2Proof.Machine.execMulh h t d a c s
  | .mulw h t d a c => Sys2Proof.Machine.execMulw h t d a c s
  | .mad h t d a b c => Sys2Proof.Machine.execMad h t d a b c s
  | .madw h t d a b c => Sys2Proof.Machine.execMadw h t d a b c s
  | .idiv h t d a c => Sys2Proof.Machine.execIdiv h t d a c s
  | .irem h t d a c => Sys2Proof.Machine.execIrem h t d a c s
  | .min h t d a c => Sys2Proof.Machine.execMin h t d a c s
  | .max h t d a c => Sys2Proof.Machine.execMax h t d a c s
  | .abs h t sat d c => Sys2Proof.Machine.execAbs h t sat d c s
  | .neg h t sat d c => Sys2Proof.Machine.execNeg h t sat d c s
  | .isetp h t cmp bop pd a c pq pn => Sys2Proof.Machine.execIsetp h t cmp bop pd a c pq pn s
  | .sel h t d a c p pn => Sys2Proof.Machine.execSel h t d a c p pn s
  | .lea h t d a c k => Sys2Proof.Machine.execLea h t d a c k s
  | .mov h t d c => Sys2Proof.Machine.execMov h t d c s
  | .movi h t toG d imm => Sys2Proof.Machine.execMovi h t toG d imm s
  | .limm h t pcRel toG d x => Sys2Proof.Machine.execLimm h t pcRel toG d x s
  | .and h t d a c => Sys2Proof.Machine.execAnd h t d a c s
  | .or h t d a c => Sys2Proof.Machine.execOr h t d a c s
  | .xor h t d a c => Sys2Proof.Machine.execXor h t d a c s
  | .andn h t d a c => Sys2Proof.Machine.execAndn h t d a c s
  | .lop3 h t d a c lut nd => Sys2Proof.Machine.execLop3 h t d a c lut nd s
  | .shl h t d a c => Sys2Proof.Machine.execShl h t d a c s
  | .shr h t d a c => Sys2Proof.Machine.execShr h t d a c s
  | .sar h t d a c => Sys2Proof.Machine.execSar h t d a c s
  | .fshf h t right d a b c => Sys2Proof.Machine.execFshf h t right d a b c s
  | .bfx h t d a c => Sys2Proof.Machine.execBfx h t d a c s
  | .bfi h t d a b c => Sys2Proof.Machine.execBfi h t d a b c s
  | .popc h t d c => Sys2Proof.Machine.execPopc h t d c s
  | .clz h t d c => Sys2Proof.Machine.execClz h t d c s
  | .ctz h t d c => Sys2Proof.Machine.execCtz h t d c s
  | .brev h t d c => Sys2Proof.Machine.execBrev h t d c s
  | .prmt h t d a b c => Sys2Proof.Machine.execPrmt h t d a b c s
  | .pand h pd pa na pc nc => Sys2Proof.Machine.execPand h pd pa na pc nc s
  | .por h pd pa na pc nc => Sys2Proof.Machine.execPor h pd pa na pc nc s
  | .pxor h pd pa na pc nc => Sys2Proof.Machine.execPxor h pd pa na pc nc s
  | .pnot h pd pc => Sys2Proof.Machine.execPnot h pd pc s
  | .pmov h pd pc => Sys2Proof.Machine.execPmov h pd pc s
  | .psetPack h d => Sys2Proof.Machine.execPsetPack h d s
  | .psetUnpack h mask c => Sys2Proof.Machine.execPsetUnpack h mask c s
  | .shfl h mode logW d a c => Sys2Proof.Machine.execShfl h mode logW d a c s
  | .lswap h t nege nego d c => Sys2Proof.Machine.execLswap h t nege nego d c s
  | .vote h mode neg toG d ps => Sys2Proof.Machine.execVote h mode neg toG d ps s
  | .matchLanes h wide d c => Sys2Proof.Machine.execMatchLanes h wide d c s
  | .redux h op signed toG d c => Sys2Proof.Machine.execRedux h op signed toG d c s
  | .elect h hi pd => Sys2Proof.Machine.execElect h hi pd s
  | .bcast h d c k => Sys2Proof.Machine.execBcast h d c k s
  | .umov h d c k => Sys2Proof.Machine.execUmov h d c k s
  | .bra h t => Sys2Proof.Machine.execBra h t s
  | .brx h g lst c => Sys2Proof.Machine.execBrx h g lst c s
  | .call h d t => Sys2Proof.Machine.execCall h d t s
  | .callx h g d lst c => Sys2Proof.Machine.execCallx h g d lst c s
  | .ret h g c => Sys2Proof.Machine.execRet h g c s
  | .rjoin h => Sys2Proof.Machine.execRjoin h s
  | .exit h => Sys2Proof.Machine.execExit h s
  | .trap h code => Sys2Proof.Machine.execTrap h code s
  | .bkpt h code => Sys2Proof.Machine.execBkpt h code s
  | .nop h => Sys2Proof.Machine.execNop h s
  | .yield h => Sys2Proof.Machine.execYield h s
  | .sleep h n => Sys2Proof.Machine.execSleep h n s
  | .step h n => Sys2Proof.Machine.execStep h n s
  | .fadd h f r d a c => Sys2Proof.Machine.execFadd h f r d a c s
  | .fsub h f r d a c => Sys2Proof.Machine.execFsub h f r d a c s
  | .fmul h f r d a c => Sys2Proof.Machine.execFmul h f r d a c s
  | .ffma h f r d a b c => Sys2Proof.Machine.execFfma h f r d a b c s
  | .fmin h f d a c => Sys2Proof.Machine.execFmin h f d a c s
  | .fmax h f d a c => Sys2Proof.Machine.execFmax h f d a c s
  | .fminn h f d a c => Sys2Proof.Machine.execFminn h f d a c s
  | .fmaxn h f d a c => Sys2Proof.Machine.execFmaxn h f d a c s
  | .fsetp h f cmp bop pd a c pq pn => Sys2Proof.Machine.execFsetp h f cmp bop pd a c pq pn s
  | .fclass h f d c => Sys2Proof.Machine.execFclass h f d c s
  | .fdiv h f r d a c => Sys2Proof.Machine.execFdiv h f r d a c s
  | .fsqrt h f r d c => Sys2Proof.Machine.execFsqrt h f r d c s
  | .frcp h f r d c => Sys2Proof.Machine.execFrcp h f r d c s
  | .frsq h f r d c => Sys2Proof.Machine.execFrsq h f r d c s
  | .frnd h f r exact d c => Sys2Proof.Machine.execFrnd h f r exact d c s
  | .fldx h f r d a c => Sys2Proof.Machine.execFldx h f r d a c s
  | .fxtxExp h f d c => Sys2Proof.Machine.execFxtxExp h f d c s
  | .fxtxMant h f d c => Sys2Proof.Machine.execFxtxMant h f d c s
  | .fexp h f r d c => Sys2Proof.Machine.execFexp h f r d c s
  | .fexp2 h f r d c => Sys2Proof.Machine.execFexp2 h f r d c s
  | .flog h f r d c => Sys2Proof.Machine.execFlog h f r d c s
  | .flog2 h f r d c => Sys2Proof.Machine.execFlog2 h f r d c s
  | .fsin h f r d c => Sys2Proof.Machine.execFsin h f r d c s
  | .fcos h f r d c => Sys2Proof.Machine.execFcos h f r d c s
  | .fsinpi h f r d c => Sys2Proof.Machine.execFsinpi h f r d c s
  | .fcospi h f r d c => Sys2Proof.Machine.execFcospi h f r d c s
  | .ftanh h f r d c => Sys2Proof.Machine.execFtanh h f r d c s
  | .fsigm h f r d c => Sys2Proof.Machine.execFsigm h f r d c s
  | .fadd2 h f r d a c => Sys2Proof.Machine.execFadd2 h f r d a c s
  | .fmul2 h f r d a c => Sys2Proof.Machine.execFmul2 h f r d a c s
  | .ffma2 h f r d a b c => Sys2Proof.Machine.execFfma2 h f r d a b c s
  | .dadd h f r sub d a c => Sys2Proof.Machine.execDadd h f r sub d a c s
  | .dmul h f r d a c => Sys2Proof.Machine.execDmul h f r d a c s
  | .dfma h f r d a b c => Sys2Proof.Machine.execDfma h f r d a b c s
  | .ddiv h f r d a c => Sys2Proof.Machine.execDdiv h f r d a c s
  | .dsqrt h f r d c => Sys2Proof.Machine.execDsqrt h f r d c s
  | .cvt h dt st sat r d a c => Sys2Proof.Machine.execCvt h dt st sat r d a c s
  | .dsliceExp h logN d c => Sys2Proof.Machine.execDsliceExp h logN d c s
  | .dsliceSlice h t d a c => Sys2Proof.Machine.execDsliceSlice h t d a c s
  | .drecon h first m d a b c => Sys2Proof.Machine.execDrecon h first m d a b c s
  | .ld h sp w o sc hint g d a off => Sys2Proof.Machine.execLd h sp w o sc hint g d a off s
  | .ldTyp h f32 hint g k d a off => Sys2Proof.Machine.execLdTyp h f32 hint g k d a off s
  | .ldQue h d n => Sys2Proof.Machine.execLdQue h d n s
  | .st h sp w o sc hint g d a off => Sys2Proof.Machine.execSt h sp w o sc hint g d a off s
  | .stQue h d n => Sys2Proof.Machine.execStQue h d n s
  | .ldf h clu w keep d a off => Sys2Proof.Machine.execLdf h clu w keep d a off s
  | .stf h clu w d a off => Sys2Proof.Machine.execStf h clu w d a off s
  | .feinit h clu full a n => Sys2Proof.Machine.execFeinit h clu full a n s
  | .pref h sp lvl g a off => Sys2Proof.Machine.execPref h sp lvl g a off s
  | .cctlWb h => Sys2Proof.Machine.execCctlWb h s
  | .cctlIfetch h => Sys2Proof.Machine.execCctlIfetch h s
  | .cctlCst h => Sys2Proof.Machine.execCctlCst h s
  | .enq h w sc d a => Sys2Proof.Machine.execEnq h w sc d a s
  | .enqStage h sc a => Sys2Proof.Machine.execEnqStage h sc a s
  | .deq h w wait sc pd d a => Sys2Proof.Machine.execDeq h w wait sc pd d a s
  | .atom h op ty o sc g d a b => Sys2Proof.Machine.execAtom h op ty o sc g d a b s
  | .red h op ty o sc g a b => Sys2Proof.Machine.execRed h op ty o sc g a b s
  | .fence h o sc => Sys2Proof.Machine.execFence h o sc s
  | .monwait h cmp o sc wide d a c => Sys2Proof.Machine.execMonwait h cmp o sc wide d a c s
  | .poll h cmp o sc wide pd d a c => Sys2Proof.Machine.execPoll h cmp o sc wide pd d a c s
  | .tbinit h clu g a n => Sys2Proof.Machine.execTbinit h clu g a n s
  | .tbarr h clu g a => Sys2Proof.Machine.execTbarr h clu g a s
  | .tbexp h clu g a n => Sys2Proof.Machine.execTbexp h clu g a n s
  | .tbwait h clu g a p => Sys2Proof.Machine.execTbwait h clu g a p s
  | .tbstat h clu g d a => Sys2Proof.Machine.execTbstat h clu g d a s
  | .bartm h x n => Sys2Proof.Machine.execBartm h x n s
  | .barcl h b n => Sys2Proof.Machine.execBarcl h b n s
  | .xsign h d x n => Sys2Proof.Machine.execXsign h d x n s
  | .xwait h x p => Sys2Proof.Machine.execXwait h x p s
  | .cptLd h g clu m blk o4 => Sys2Proof.Machine.execCptLd h g clu m blk o4 s
  | .cptSt h g clu st m blk o4 => Sys2Proof.Machine.execCptSt h g clu st m blk o4 s
  | .cpg h g st a b c => Sys2Proof.Machine.execCpg h g st a b c s
  | .cps h g clu st a b c => Sys2Proof.Machine.execCps h g clu st a b c s
  | .cpr h g clu bar a b c => Sys2Proof.Machine.execCpr h g clu bar a b c s
  | .cpfill h g clu bar a pat c => Sys2Proof.Machine.execCpfill h g clu bar a pat c s
  | .cpfillMem h g st a pat c => Sys2Proof.Machine.execCpfillMem h g st a pat c s
  | .cpcommit h d => Sys2Proof.Machine.execCpcommit h d s
  | .cpwait h n => Sys2Proof.Machine.execCpwait h n s
  | .cpwaitUpto h b => Sys2Proof.Machine.execCpwaitUpto h b s
  | .mxcfg h mode x n => Sys2Proof.Machine.execMxcfg h mode x n s
  | .mxmul h g x b => Sys2Proof.Machine.execMxmul h g x b s
  | .mxzero h g t bar => Sys2Proof.Machine.execMxzero h g t bar s
  | .mxld h g t st bar => Sys2Proof.Machine.execMxld h g t st bar s
  | .mxst h g bf16 t st bar => Sys2Proof.Machine.execMxst h g bf16 t st bar s
  | .mxsel24 h g b => Sys2Proof.Machine.execMxsel24 h g b s
  | .mxstat h g d a => Sys2Proof.Machine.execMxstat h g d a s
  | .nbgemv h g a => Sys2Proof.Machine.execNbgemv h g a s
  | .sxload h g mem a n bar => Sys2Proof.Machine.execSxload h g mem a n bar s
  | .sxbias h g a n bar => Sys2Proof.Machine.execSxbias h g a n bar s
  | .sxclamp h g a n bar => Sys2Proof.Machine.execSxclamp h g a n bar s
  | .sxrun h g a bar => Sys2Proof.Machine.execSxrun h g a bar s
  | .sxread h g cnt a n bar => Sys2Proof.Machine.execSxread h g cnt a n bar s
  | .sxkey h g replay a b => Sys2Proof.Machine.execSxkey h g replay a b s
  | .sxjoin h g a b bar => Sys2Proof.Machine.execSxjoin h g a b bar s
  | .sxhealth h g a b => Sys2Proof.Machine.execSxhealth h g a b s
  | .spawn h g cls n entry join pay => Sys2Proof.Machine.execSpawn h g cls n entry join pay s
  | .spwflush h => Sys2Proof.Machine.execSpwflush h s
  | .jwait h g a => Sys2Proof.Machine.execJwait h g a s
  | .launch h g d a => Sys2Proof.Machine.execLaunch h g d a s
  | .fetchw h g d a => Sys2Proof.Machine.execFetchw h g d a s
  | .wlappend h g a c => Sys2Proof.Machine.execWlappend h g a c s
  | .wltake h pd d => Sys2Proof.Machine.execWltake h pd d s
  | .tkwait h d q k => Sys2Proof.Machine.execTkwait h d q k s
  | .tkpass h d q k => Sys2Proof.Machine.execTkpass h d q k s
  | .quiet h d => Sys2Proof.Machine.execQuiet h d s
  | .setpri h n => Sys2Proof.Machine.execSetpri h n s
  | .coll h g a => Sys2Proof.Machine.execColl h g a s
  | .csrr h toG d n => Sys2Proof.Machine.execCsrr h toG d n s
  | .csrw h n c => Sys2Proof.Machine.execCsrw h n c s
  | .syscall h d a n => Sys2Proof.Machine.execSyscall h d a n s
  | .trapret h g c => Sys2Proof.Machine.execTrapret h g c s
  | .npbegin h => Sys2Proof.Machine.execNpbegin h s
  | .npend h => Sys2Proof.Machine.execNpend h s
  | .powerGood => Sys2Proof.Machine.execPowerGood s
  | .startUpStep => Sys2Proof.Machine.execStartUpStep s
  | .coreWake => Sys2Proof.Machine.execCoreWake s
  | .deviceReset => Sys2Proof.Machine.execDeviceReset s
  | .lossOfPower => Sys2Proof.Machine.execLossOfPower s
  | .powerSample => Sys2Proof.Machine.execPowerSample s
  | .budgetPeriod => Sys2Proof.Machine.execBudgetPeriod s
  | .bondFlitError => Sys2Proof.Machine.execBondFlitError s
  | .uncorrectableError => Sys2Proof.Machine.execUncorrectableError s
  | .logread => Sys2Proof.Machine.execLogread s
  | .unknownMailboxOp => Sys2Proof.Machine.execUnknownMailboxOp s
  | .imgwrite => Sys2Proof.Machine.execImgwrite s
  | .imgcommit => Sys2Proof.Machine.execImgcommit s
  | .attest => Sys2Proof.Machine.execAttest s
  | .cert => Sys2Proof.Machine.execCert s
  | .dieFence => Sys2Proof.Machine.execDieFence s
  | .diereset => Sys2Proof.Machine.execDiereset s
  | .resume => Sys2Proof.Machine.execResume s
  | .budget => Sys2Proof.Machine.execBudget s
  | .linkUp => Sys2Proof.Machine.execLinkUp s
  | .linkDown => Sys2Proof.Machine.execLinkDown s
  | .spdmAuthentication => Sys2Proof.Machine.execSpdmAuthentication s
  | .ideKeyProgramming => Sys2Proof.Machine.execIdeKeyProgramming s
  | .inboundPostedWrite => Sys2Proof.Machine.execInboundPostedWrite s
  | .inboundRead => Sys2Proof.Machine.execInboundRead s
  | .inboundAtomicop => Sys2Proof.Machine.execInboundAtomicop s
  | .atsInvalidation => Sys2Proof.Machine.execAtsInvalidation s
  | .pageResponse => Sys2Proof.Machine.execPageResponse s
  | .outboundReadCompletion => Sys2Proof.Machine.execOutboundReadCompletion s
  | .completionTimeout => Sys2Proof.Machine.execCompletionTimeout s
  | .clovarFlitError => Sys2Proof.Machine.execClovarFlitError s
  | .clovarPortStateChange => Sys2Proof.Machine.execClovarPortStateChange s
  | .ports => Sys2Proof.Machine.execPorts s
  | .clovarInboundRequest => Sys2Proof.Machine.execClovarInboundRequest s
  | .remoteResponse => Sys2Proof.Machine.execRemoteResponse s
  | .remoteRequestTimeout => Sys2Proof.Machine.execRemoteRequestTimeout s
  | .collectiveTraffic => Sys2Proof.Machine.execCollectiveTraffic s
  | .en => Sys2Proof.Machine.execEn s
  | .kreq => Sys2Proof.Machine.execKreq s
  | .halt => Sys2Proof.Machine.execHalt s
  | .invgo => Sys2Proof.Machine.execInvgo s
  | .invall => Sys2Proof.Machine.execInvall s
  | .doorbell => Sys2Proof.Machine.execDoorbell s
  | .resolve => Sys2Proof.Machine.execResolve s
  | .reject => Sys2Proof.Machine.execReject s
  | .preEmpt => Sys2Proof.Machine.execPreEmpt s
  | .popResume => Sys2Proof.Machine.execPopResume s
  | .cut => Sys2Proof.Machine.execCut s
  | .svcret => Sys2Proof.Machine.execSvcret s
  | .registerWrite => Sys2Proof.Machine.execRegisterWrite s
  | .teamPlacement => Sys2Proof.Machine.execTeamPlacement s
  | .spawnedGroupRelease => Sys2Proof.Machine.execSpawnedGroupRelease s
  | .bucketBoundary => Sys2Proof.Machine.execBucketBoundary s

end Sys2Proof.Machine
end

