-- ==== Sys2Proof/Machine/Step.lean ====
section
/-! DEFINITION. Step.lean: one step of the machine, and the placing of an instruction where the next step fetches it. -/
namespace Sys2Proof.Machine

/-- A group issues its next word, if it is its turn. -/
def stepIssue (s : State) (gid : Nat) : Host.Outcome State Fault Refusal :=
  if !s.turn exec gid then .next s.tick
  else
    match s.front gid with
    | (none, s) => .next s.tick
    | (some i, s) => endWord i (exec i s)

/-- An agent of the device, or the outside world, takes a step; a word is no such step, and a device without
power or stopped takes no other than power and reset. -/
def stepEvent (s : State) (i : Instr) (x : Input) : Host.Outcome State Fault Refusal :=
  if isEvent i && s.takes i then endStep (exec i { s with input := x }) else .next s.tick

/-- One step: a bucket boundary that is due (R298), what the agenda names first, or what the machine does of its own. -/
def step (s : State) : Host.Outcome State Fault Refusal :=
  if s.bucketDue then stepEvent s .bucketBoundary .none
  else
  match s.agenda with
  | .issue gid :: r => stepIssue { s with agenda := r } gid
  | .event i x :: r => stepEvent { s with agenda := r } i x
  | [] =>
    match s.auto exec with
    | .run i => stepEvent s i .none
    | .issue gid => stepIssue { s with served := ((s.group gid).map Group.quarterNo).getD 0 } gid
    | .idle => .next s.tick

/-- The launch that a placed instruction runs under: one team of one group, every unit it can name given to it. -/
def placedBlock : Block :=
  { pri := 0, nrole := 1, nstage := 2, scr := 64, acc := 16, spov := 0x10000, spovlen := 1, save := 0x20000, savelen := 1, sxu := true,
    roles := [{ entry := 0x10000, regs := 64, ngrp := 1, stg := 0 }], stages := [(0x100000, 4), (0, 0)] }

/-- The group of a placed instruction: 32 lanes eligible at virtual address 0x10000. -/
def placedGroup (core : Nat) : Group :=
  { launch := 0, team := some 1, core := core, budget := 64, lanes := allLanes (freshLane 0x10000 0) }

/-- The translation of the page that holds it: 64 KiB at physical 0x10000, executable and writable. -/
def placedLeaf : Leaf := { pa := 0x10000, level := 4, w := true, x := true, wp := true, lvl := 2, fmt := 0, pl := 0, blk := 0 }

/-- s with the instruction's bytes at virtual and physical address 0x10000 of context 0, a launch with one team of one group
on core 0 that stands there, and its issue first on the agenda. -/
def State.withFetchWord (s : State) (nbits w : Nat) : State :=
  let c := hashQuad 0x10000 * hbmBytes + 0x10000 / 2 ^ 14 * 4096
  let s := s.setCells c (toLE 16 (w % 2 ^ nbits))
  let s := s.setCtx 0 { s.ctx 0 with en := true }
  let s := s.setRec 0 { st := .running, gen := 1, ctx := 0, blk := placedBlock }
  let s := s.setTeam 1 { st := .running, core := 0 }
  let s := s.setGroup 2 { placedGroup 0 with readyAt := 0, lastIssue := s.clk }
  let s := (s.fillTlb 0 0 0x10000 placedLeaf).discard true 0 0
  let s := s.setDie 0 { s.die 0 with duty := 16 }
  { s with agenda := [.issue 2], next := Nat.max s.next 3, bucketNo := s.clk / 125000 }

end Sys2Proof.Machine
end

