-- ==== Sys2Proof/Safety.lean ====
section
/-! DEFINITION. Safety.lean: what counts as a safe run, and the terms in which the statements about words are made: when the
word at hand may run, and what a word that only computes has done. The machine has no stop: every step of the opcode table
has an effect, so a safe step is one that answers a next state. -/
namespace Sys2Proof.Safety

open Sys2Proof.Machine

/-- The outcome is a next state. -/
def goesOn (o : Host.Outcome State Fault Refusal) : Prop := ∃ t, o = .next t

/-- n steps from s answer a next state each. -/
def runs : Nat → State → Prop
  | 0, _ => True
  | n + 1, s => ∃ t, step s = .next t ∧ runs n t

/-- Committed memory has its canonical form: cells strictly rising, none holding what an unlisted cell reads as (R17). -/
def memoryOk (s : State) : Prop := Memory.wf s.mem

/-! ### Words that compute -/

/-- The lanes of the word being issued whose guard is true (R312). -/
def active (s : State) (g : Group) (h : Hdr) : BitVec 32 := guardLanes g s.cur.lanes h.gp.toNat h.gn

/-- The word being issued is i, of group g, and it may run now: its registers lie within the budget (R156), a privileged word
finds its lanes in handler mode (R311), no result of the group that it needs is outstanding (R315), and every fixed-latency
distance has been kept (R314). -/
structure WordReady (s : State) (g : Group) (h : Hdr) (i : Instr) : Prop where
  here : s.group s.cur.gid = some g
  budget : (instrUses i).budgetOk g.budget = true
  mode : (instrUses i).priv = true → ∀ l ∈ lanesOf s.cur.lanes, (g.lane l).handler = true
  clear : s.interlocked s.cur.gid g lanes32 (instrUses i) h.gp.toNat = false
  met : g.hazards = []

/-- Lanes after the word: active lanes as `f` makes them, the word's other lanes past the word, other lanes as before. -/
def lanesRun (s : State) (g g' : Group) (h : Hdr) (f : Nat → Lane → Lane) : Prop :=
  ∀ l, l < 32 → g'.lane l =
    if s.cur.lanes.getLsbD l then
      if (active s g h).getLsbD l then f l (g.lane l) else { g.lane l with pc := s.cur.pc + BitVec.ofNat 64 s.cur.len }
    else g.lane l

/-- The results a word gives a lane: v registers, predicates, floating-point flags. -/
abbrev Results := List (Nat × Word) × List (Nat × Bool) × BitVec 5

/-- The lane with these results. -/
def Results.into (r : Results) (ln : Lane) : Lane :=
  { (ln.setRegs r.1).setPreds r.2.1 with flags := ln.flags ||| r.2.2 }

/-- Lanes after the word: active lanes as `f` makes them, the word's lanes all past the word, other lanes as before. -/
def lanesAfter (s : State) (g g' : Group) (h : Hdr) (f : Nat → Lane → Lane) : Prop :=
  ∀ l, l < 32 → g'.lane l =
    if s.cur.lanes.getLsbD l then
      { (if (active s g h).getLsbD l then f l (g.lane l) else g.lane l) with pc := s.cur.pc + BitVec.ofNat 64 s.cur.len }
    else g.lane l

/-- The group after a word, beside its lanes and g registers: all it holds as before, but for the bookkeeping of issue
(R148, R314, R315) and the end of trap handling (R151). -/
def groupAfter (s : State) (g g' : Group) (h : Hdr) : Prop :=
  g' = { g with lanes := g'.lanes, g := g'.g, landings := g'.landings, hazards := g'.hazards, handling := g'.handling,
                floor := g'.floor, mask := g'.mask, readyAt := Nat.max g.readyAt (s.clk + Nat.max h.stall.toNat 1), lastIssue := s.clk, behind := none }

/-- Word i runs to its end and changes nothing but its group: each active lane l takes the results `res l` at once, the
group's g registers become `gs`, no result stays outstanding. -/
def Computes (i : Instr) (h : Hdr) (res : State → Group → Nat → Results) (gs : State → Group → Group) : Prop :=
  ∀ s g, WordReady s g h i → ∃ g', exec i s = .next (s.setGroup s.cur.gid g') ∧
    lanesAfter s g g' h (fun l ln => (res s g l).into ln) ∧ g'.g = (gs s g).g ∧ g'.landings = g.landings ∧ groupAfter s g g' h

/-- The word as its lanes see it (R146, R155, R166). -/
def readyCtl (s : State) (g : Group) (h : Hdr) (u : Bool) : Ctl :=
  { gid := s.cur.gid, g := g, act := active s g h, pc := s.cur.pc, len := s.cur.len, u := u, prot := (s.rcd g.launch).blk.prot }

/-- Word i runs to its end in a state where `P` holds, and changes nothing but its group: each active lane becomes what `f`
says, the g registers stay, no result stays outstanding. -/
def Runs (i : Instr) (h : Hdr) (P : State → Group → Prop) (f : State → Group → Nat → Lane → Lane) : Prop :=
  ∀ s g, WordReady s g h i → P s g → ∃ g', exec i s = .next (s.setGroup s.cur.gid g') ∧
    lanesRun s g g' h (f s g) ∧ g'.g = g.g ∧ g'.landings = g.landings ∧ groupAfter s g g' h

/-- Where the word's operands come from in lane l (R155). -/
def envOf (u : Bool) (g : Group) (l : Nat) : Env := { u := u, g := g, ln := g.lane l }

/-- The lane that runs a word that runs once: the lowest active one. -/
def oneLane (s : State) (g : Group) (h : Hdr) : Nat := (lanesOf (active s g h)).headD 0

/-- A word that computes `r`: in each active lane, or once, by its lowest active lane, for g registers (R155). -/
def CtlWord (i : Instr) (h : Hdr) (u once : Bool) (r : Ctl → Nat → Results) : Prop :=
  Computes i h
    (fun s g l => if once then ([], (r (readyCtl s g h u) (oneLane s g h)).2) else r (readyCtl s g h u) l)
    (fun s g => if once && active s g h != 0 then g.setGrs (r (readyCtl s g h u) (oneLane s g h)).1 else g)

/-- A word whose results are a function of its operands, in a vector word or a U-form word. -/
def AluWord (i : Instr) (h : Hdr) (u : Bool) (r : Env → Results) : Prop := CtlWord i h u u fun c l => r (c.env l)

/-- The same for a word whose results arrive later (R313, R315): the lanes only pass the word, and each active lane's
results stand in the group, to land. -/
def LandingWord (i : Instr) (h : Hdr) (u : Bool) (r : Env → Results) : Prop :=
  ∀ s g, WordReady s g h i → ∃ g', exec i s = .next (s.setGroup s.cur.gid g') ∧
    lanesAfter s g g' h (fun _ ln => ln) ∧ g'.g = g.g ∧ groupAfter s g g' h ∧
    g'.landings = g.landings ++
      if u then
        let x := r (envOf true g (oneLane s g h))
        (if active s g h = 0 ∨ x.1 = [] then [] else [{ lane := 32, writes := x.1, preds := [], flags := 0 }]) ++
          (lanesOf (active s g h)).map fun l => { lane := l, writes := [], preds := x.2.1, flags := x.2.2 }
      else (lanesOf (active s g h)).map fun l =>
        let x := r (envOf false g l)
        { lane := l, writes := x.1, preds := x.2.1, flags := x.2.2 }

/-- A floating-point word (R216, R217, R357): `r` gives each active lane its results, or none where the lane traps with
FP_SNAN; a U-form word takes them once, for all active lanes. Results that arrive later stand in the group, to land. A trap in
handler mode is not in question here. -/
def FpWord (i : Instr) (h : Hdr) (u land : Bool) (r : Block → Ctl → Nat → Option Results) : Prop :=
  ∀ s g, WordReady s g h i →
    let R := fun (l : Nat) => r (s.rcd g.launch).blk (readyCtl s g h u) (if u then oneLane s g h else l)
    (∀ l, (active s g h).getLsbD l = true → R l = none → (g.lane l).handler = false) →
    ∃ g', exec i s = .next (s.setGroup s.cur.gid g') ∧
      lanesRun s g g' h (fun l ln =>
        match R l with
        | none => ln.trap 0x2C 0 0
        | some x => { (if land then ln else (if u then ([], x.2) else x : Results).into ln) with
            pc := s.cur.pc + BitVec.ofNat 64 s.cur.len }) ∧
      g'.g = (match R (oneLane s g h) with
        | some x => if u && !land && active s g h != 0 then g.setGrs x.1 else g
        | none => g).g ∧
      g'.landings = g.landings ++ (if land then
          (match R (oneLane s g h) with
           | some x => if u && active s g h != 0 && !x.1.isEmpty then [{ lane := 32, writes := x.1, preds := [], flags := 0 }] else []
           | none => []) ++
          (lanesOf (active s g h)).filterMap fun l => (R l).map fun x =>
            { lane := l, writes := if u then [] else x.1, preds := x.2.1, flags := x.2.2 }
        else []) ∧
      groupAfter s g g' h

/-! ### Words whose lanes act in turn on memory and engines -/

/-- What a word does in one lane: it takes results, traps, parks, or stays at the word. -/
inductive Does where
  | takes (r : Results)
  | traps (code acc : Nat) (addr : DWord)
  | parks (p : Park)
  | stays
deriving DecidableEq, Repr

/-- The lane after it: past the word, trap-parked, parked at the word, or as it was. -/
def Does.lane (d : Does) (s : State) (age : Nat) (ln : Lane) : Lane :=
  match d with
  | .takes r => { r.into ln with pc := s.cur.pc + BitVec.ofNat 64 s.cur.len }
  | .traps code acc addr => ln.trap code acc addr
  | .parks p => ln.parkOn p age
  | .stays => ln

/-- Lanes act one after the other, each on the state that those before it left. -/
def inTurn (f : Nat → State → Does × State) : List Nat → State → (Nat → Does) × State
  | [], s => (fun _ => .stays, s)
  | l :: ls, s =>
    let r := f l s
    let q := inTurn f ls r.2
    (fun j => if j = l then r.1 else q.1 j, q.2)

/-- Nothing holds the active lanes of the word back: no acquire and no answer that they wait for (R200, R392, R395), and the
launch does not run copies of its lanes (R164). -/
def Still (s : State) (g : Group) (h : Hdr) : Prop :=
  (s.rcd g.launch).blk.prot = false ∧
  ∀ l, (active s g h).getLsbD l = true → s.acqPending s.cur.gid l = false ∧ s.replyPending s.cur.gid l = false

/-- The state in which the lanes of a memory word act: the word has its number. -/
def numbered (s : State) : State := { s with next := s.next + 1 }

/-- Word i runs where `P` holds: its active lanes act in ascending order (R147, R193), as `f` says; its other lanes pass it. Then the
lanes of the group become what `after` makes of them. What they leave of the group but its lanes is kept. Traps in handler mode are not
in question here. -/
def SeqEnd (i : Instr) (h : Hdr) (P : State → Group → Prop) (f : State → Group → Nat → State → Does × State)
    (after : State → Group → State → Lane → Lane) : Prop :=
  ∀ s g, WordReady s g h i → Still s g h → P s g →
    let q := inTurn (f s g) (lanesOf (active s g h)) (numbered s)
    ∃ gm, q.2.group s.cur.gid = some gm ∧
      ((∀ l code acc addr, (active s g h).getLsbD l = true → q.1 l = .traps code acc addr → (gm.lane l).handler = false) →
      let park := (lanesOf (active s g h)).any fun l => match q.1 l with | .parks _ => true | _ => false
      let s1 := if park then { q.2 with next := q.2.next + 1 } else q.2
      ∃ g', exec i s = .next (s1.setGroup s.cur.gid g') ∧
        (∀ l, l < 32 → g'.lane l = after s g q.2 (
          if s.cur.lanes.getLsbD l then
            if (active s g h).getLsbD l then (q.1 l).lane s q.2.next (gm.lane l)
            else { gm.lane l with pc := s.cur.pc + BitVec.ofNat 64 s.cur.len }
          else gm.lane l)) ∧
        g'.g = gm.g ∧ g'.landings = gm.landings ∧ groupAfter q.2 gm g' h)

/-- The same of a word that ends with its lanes. -/
def SeqWord (i : Instr) (h : Hdr) (P : State → Group → Prop) (f : State → Group → Nat → State → Does × State) : Prop :=
  SeqEnd i h P f fun _ _ _ ln => ln

/-- Word i, of one active lane, completes: the lane takes results and passes the word, the word's other lanes pass it, and what else
changes is what s1 holds. -/
def LaneTakes (s : State) (h : Hdr) (l : Nat) (i : Instr) (r : Results) (s1 : State) : Prop :=
  ∃ gm g', s1.group s.cur.gid = some gm ∧ exec i s = .next (s1.setGroup s.cur.gid g') ∧
    (∀ j, j < 32 → g'.lane j = { (if j = l then r.into (gm.lane j) else gm.lane j) with
      pc := if s.cur.lanes.getLsbD j then s.cur.pc + BitVec.ofNat 64 s.cur.len else (gm.lane j).pc }) ∧
    g'.g = gm.g ∧ g'.landings = gm.landings ∧ groupAfter s1 gm g' h

/-- How a lane that cannot reach another team's scratchpad ends. -/
def Does.ofRes : LaneRes → Does
  | .trap code acc addr => .traps code acc addr
  | .park p => .parks p
  | _ => .stays

/-- n bytes at a scratch address, or in the scratchpads of the cluster, whose number stands in bits 31 to 20 (R169, R176, R377,
R379): the team and the offset, or how the lane ends. `shown` is the address that a trap records. -/
def scratchAt (s : State) (g : Group) (clu : Bool) (ea n al acc shown : Nat) : Except Does (Nat × Nat) :=
  match g.team with
  | none => .error (.traps 0x22 0 0)
  | some u =>
    if ea % al ≠ 0 then .error (.traps 0x25 acc (BitVec.ofNat 64 shown))
    else
      match (if clu then s.clusterTeam u (ea / 2 ^ 20) acc shown else .ok u) with
      | .error r => .error (.ofRes r)
      | .ok v =>
        let x := if clu then ea % 2 ^ 20 else ea
        match s.team v with
        | none => .error (.traps 0x22 0 0)
        | some t =>
          if 1024 * (s.rcd t.task.lrec).blk.scr < x + n then .error (.traps 0x27 acc (BitVec.ofNat 64 shown)) else .ok (v, x)

/-- A lane of a word that needs room in an engine (R455): it parks where none is left for it, behind the lanes released before it;
otherwise it goes on, and the place that was kept for it is given up. -/
def withRoom (s0 : State) (e : Sys2Proof.Engine) (l : Nat) (f : State → Does × State) (s : State) : Does × State :=
  let s1 := { s with wokenRooms := s.wokenRooms.filter fun p => !(s.oneEngine p.1 e && p.2 == (s0.cur.gid, l)) }
  if s.roomFor e s0.cur.gid l then f s1 else (.parks (.room e), { s1 with cur := { s1.cur with full := some e } })

/-- A word that needs no more. -/
def noResults : Does := .takes ([], [], 0)

/-! ### Values, in the words of the manual -/

/-- The low bits of x that type t keeps, extended by the type (R326). -/
def narrow (t : IntTy) (x : DWord) : DWord :=
  match t with
  | .s8 => (x.setWidth 8).signExtend 64
  | .n8 => (x.setWidth 8).setWidth 64
  | .s16 => (x.setWidth 16).signExtend 64
  | .n16 => (x.setWidth 16).setWidth 64
  | .s32 | .n32 | .b32 => (x.setWidth 32).setWidth 64
  | .s64 | .n64 => x

/-- An exact value clamped to the range of type t (R328). -/
def clamp (t : IntTy) (x : Int) : DWord := BitVec.ofInt 64 (max t.lo (min t.hi x))

/-! ### Floating-point values (R210 to R213) -/

/-- The value of a pattern that is no NaN, infinities included. -/
noncomputable def extOf : FVal → EReal
  | .nan .. => 0
  | .inf n => if n then ⊥ else ⊤
  | .fin n m e => (((if n then -1 else 1) * m * (2 : ℝ) ^ e : ℝ) : EReal)

/-- The value of a finite pattern. -/
noncomputable def realOf : FVal → ℝ
  | .fin n m e => (if n then -1 else 1) * m * (2 : ℝ) ^ e
  | _ => 0

/-- Numbers of precision p: p bits of significand above a lowest exponent, if there is one, and no highest. -/
def Fits (p : Nat) (low : Option Int) (x : ℝ) : Prop :=
  ∃ k t : Int, x = k * (2 : ℝ) ^ t ∧ k.natAbs < 2 ^ p ∧ ∀ q, low = some q → q ≤ t

/-- Among them, those whose significand is even where they stand. -/
def FitsEven (p : Nat) (low : Option Int) (x : ℝ) : Prop :=
  ∃ k t : Int, x = k * (2 : ℝ) ^ t ∧ k.natAbs < 2 ^ p ∧ (∀ q, low = some q → q ≤ t) ∧
    (2 ^ (p - 1) ≤ k.natAbs ∨ low = some t ∨ x = 0) ∧ k % 2 = 0

/-- r is x rounded to a member of S in a direction of R212; of two nearest, the even one, or the one away from zero. -/
def RoundsTo (S even : ℝ → Prop) (dir : Nat) (x r : ℝ) : Prop :=
  S r ∧
    match dir with
    | 0 => (∀ y, S y → |x - r| ≤ |x - y|) ∧ ∀ y, S y → |x - y| = |x - r| → y ≠ r → even r
    | 1 => |r| ≤ |x| ∧ 0 ≤ r * x ∧ ∀ y, S y → |y| ≤ |x| → |y| ≤ |r|
    | 2 => x ≤ r ∧ ∀ y, S y → x ≤ y → r ≤ y
    | 3 => r ≤ x ∧ ∀ y, S y → y ≤ x → y ≤ r
    | _ => (∀ y, S y → |x - r| ≤ |x - y|) ∧ ∀ y, S y → |x - y| = |x - r| → |y| ≤ |r|

/-- x rounded to format F as though its exponents had no highest. -/
def InFormat (F : Format) (dir : Nat) (x r : ℝ) : Prop :=
  RoundsTo (Fits F.p (some (F.emin - (F.p - 1 : Int)))) (FitsEven F.p (some (F.emin - (F.p - 1 : Int)))) dir x r

/-- The bits and flags that stand for the exact value x in format F (R210, R212, R213): x rounded once; past the largest finite
value, infinity or that value by the direction, with overflow and inexact; underflow where the result is tiny after rounding
and inexact. A zero from a zero value has sign `zneg`; any other result has the sign of x. -/
def Stands (F : Format) (dir : Nat) (x : ℝ) (zneg : Bool) (res : Nat × BitVec 5) : Prop :=
  ∃ r, InFormat F dir x r ∧
    if |r| ≤ F.maxM * (2 : ℝ) ^ F.maxQ then
      (∃ n m e, F.decode res.1 = .fin n m e ∧ realOf (.fin n m e) = r ∧ (n = true ↔ x < 0 ∨ (x = 0 ∧ zneg = true))) ∧
      (res.2.getLsbD 0 = true ↔ r ≠ x) ∧
      (res.2.getLsbD 1 = true ↔ r ≠ x ∧ ∃ y, RoundsTo (Fits F.p none) (FitsEven F.p none) dir x y ∧ |y| < (2 : ℝ) ^ F.emin) ∧
      res.2 &&& 0x1C#5 = 0
    else
      res.2 = 0x05#5 ∧
      res.1 = (if x < 0 then 2 ^ (F.w - 1) else 0) +
        (if dir = 1 ∨ (dir = 2 ∧ x < 0) ∨ (dir = 3 ∧ 0 < x) then F.maxBits else F.infBits)

end Sys2Proof.Safety
end

