-- ==== Sys2Proof/Certificates/Slice0/Obligations.lean ====
section
/-! DEFINITION. Obligations.lean: what is claimed of the machine. Each statement names the rules of the manual it formalises;
OBLIGATIONS.json lists them. -/

open Sys2Proof Sys2Proof.Machine Sys2Proof.Safety

/-! ### Integer words (file 15) -/

/-- R328: every row of the table of integer arithmetic, for every type it takes, wrapped or saturated, in vector words and in
U-form words. -/
def Obligations.IntegerArithmetic : Prop :=
  ∀ (h : Hdr) (t : IntTy) (d a b : RegIx) (c : Src),
    let A := fun (e : Env) => e.reg t.wide a
    let B := fun (e : Env) => e.reg t.wide b
    let C := fun (e : Env) => e.src t.wide c
    let put := fun (e : Env) (x : DWord) => ((e.out t.wide d x, [], 0) : Results)
    (t.inI8 = true →
      AluWord (.add h t false d a c) h c.isU (fun e => put e (narrow t (A e + C e))) ∧
      AluWord (.add h t true d a c) h c.isU (fun e => put e (clamp t (t.val (A e) + t.val (C e)))) ∧
      AluWord (.sub h t false d a c) h c.isU (fun e => put e (narrow t (A e - C e))) ∧
      AluWord (.sub h t true d a c) h c.isU (fun e => put e (clamp t (t.val (A e) - t.val (C e)))) ∧
      AluWord (.min h t d a c) h c.isU (fun e => put e (narrow t (if t.val (A e) ≤ t.val (C e) then A e else C e))) ∧
      AluWord (.max h t d a c) h c.isU (fun e => put e (narrow t (if t.val (C e) ≤ t.val (A e) then A e else C e)))) ∧
    (t.inW = true →
      AluWord (.mul h t d a c) h c.isU (fun e => put e (narrow t (A e * C e))) ∧
      AluWord (.mulh h t d a c) h c.isU (fun e => put e (BitVec.ofInt 64 (t.val (A e) * t.val (C e) / 2 ^ t.bits))) ∧
      AluWord (.mad h t d a b c) h c.isU (fun e => put e (narrow t (A e * B e + C e)))) ∧
    (t.in32 = true →
      AluWord (.mulw h t d a c) h c.isU (fun e => (e.out true d (BitVec.ofInt 64 (t.val (A e) * t.val (C e))), [], 0)) ∧
      AluWord (.madw h t d a b c) h c.isU (fun e =>
        (e.out true d (BitVec.ofInt 64 (t.val (A e) * t.val (B e)) + e.src true c), [], 0))) ∧
    (t.inS = true →
      AluWord (.abs h t false d c) h c.isU (fun e => put e (narrow t (if t.val (C e) < 0 then -C e else C e))) ∧
      AluWord (.abs h t true d c) h c.isU (fun e => put e (clamp t (t.val (C e)).natAbs)) ∧
      AluWord (.neg h t false d c) h c.isU (fun e => put e (narrow t (-C e))) ∧
      AluWord (.neg h t true d c) h c.isU (fun e => put e (clamp t (-t.val (C e)))))

/-- R329: ADDC and SUBB add and subtract with a carry predicate, and write the carry out to another. -/
def Obligations.CarryChains : Prop :=
  ∀ (h : Hdr) (d po a : RegIx) (c : Src) (pi : BitVec 3) (pn : Bool), c.isU = false →
    let cin := fun (e : Env) => if e.ln.pred pi.toNat ^^ pn then 1 else 0
    AluWord (.addc h d po a c pi pn) h false (fun e =>
      let n := (e.r32 a).toNat + (e.src32 c).toNat + cin e
      ([(d.toNat, BitVec.ofNat 32 n)], [(po.toNat, decide (2 ^ 32 ≤ n))], 0)) ∧
    AluWord (.subb h d po a c pi pn) h false (fun e =>
      let n : Int := (e.r32 a).toNat - (e.src32 c).toNat - (cin e : Nat)
      ([(d.toNat, BitVec.ofInt 32 n)], [(po.toNat, decide (n < 0))], 0))

/-- R330: IDIV truncates toward zero, IREM takes the sign of a; a division by zero and the one overflow have the values the
manual gives, and nothing faults. The results arrive later. -/
def Obligations.Division : Prop :=
  ∀ (h : Hdr) (t : IntTy) (d a : RegIx) (c : Src), t.inW = true →
    let A := fun (e : Env) => t.val (e.reg t.wide a)
    let C := fun (e : Env) => t.val (e.src t.wide c)
    let put := fun (e : Env) (x : Int) => ((e.out t.wide d (BitVec.ofInt 64 x), [], 0) : Results)
    LandingWord (.idiv h t d a c) h c.isU (fun e => put e (
      if C e = 0 then (if t.signed then (if 0 ≤ A e then -1 else 1) else 2 ^ t.bits - 1) else (A e).tdiv (C e))) ∧
    LandingWord (.irem h t d a c) h c.isU (fun e => put e (if C e = 0 then A e else A e - (A e).tdiv (C e) * C e))

/-- R331 to R334: compare and combine, select, address arithmetic, and the three moves. -/
def Obligations.CompareSelectMove : Prop :=
  ∀ (h : Hdr) (t : IntTy) (d a : RegIx) (c : Src),
    let A := fun (e : Env) => e.reg t.wide a
    let C := fun (e : Env) => e.src t.wide c
    (∀ cmp bop pq pn, t.inI8 = true → c.isU = false →
      AluWord (.isetp h t cmp bop d a c pq pn) h false (fun e =>
        let x := t.val (A e)
        let y := t.val (C e)
        let r : Bool := match cmp with
          | .eq => x = y | .ne => x ≠ y | .lt => x < y | .le => x ≤ y | .gt => x > y | .ge => x ≥ y
        let q := e.ln.pred pq.toNat ^^ pn
        ([], [(d.toNat, match bop with | .and => r && q | .or => r || q | .xor => r ^^ q)], 0))) ∧
    (∀ p pn, t.inB = true → c.isU = false →
      AluWord (.sel h t d a c p pn) h false (fun e =>
        (e.out t.wide d (if e.ln.pred p.toNat ^^ pn then A e else C e), [], 0))) ∧
    (∀ k, t = .s32 ∨ t = .n32 ∨ t = .s64 →
      AluWord (.lea h t d a c k) h c.isU (fun e =>
        let x : DWord := match t with
          | .s32 => ((C e).setWidth 32).signExtend 64
          | .n32 => ((C e).setWidth 32).setWidth 64
          | _ => C e
        (e.out true d (e.reg true a + x <<< k.toNat), [], 0))) ∧
    (t.inB = true → AluWord (.mov h t d c) h c.isU (fun e => (e.out t.wide d (C e), [], 0))) ∧
    (∀ toG (i : BitVec 18), t = .b32 ∨ t = .s64 →
      AluWord (.movi h t toG d i) h toG (fun e => (e.out t.wide d (i.signExtend 64), [], 0))) ∧
    (∀ pcRel toG x, t.inB = true →
      CtlWord (.limm h t pcRel toG d x) h toG toG (fun w l =>
        ((w.env l).out t.wide d (if pcRel then w.pc + x else x), [], 0)))

/-- R335, R339: the logical words, and LOP3 bit by bit; the predicate words: a result for p7 is discarded, p7 reads as true. -/
def Obligations.LogicAndPredicates : Prop :=
  (
  ∀ (h : Hdr) (t : IntTy) (d a : RegIx) (c : Src),
    let A := fun (e : Env) => e.reg t.wide a
    let C := fun (e : Env) => e.src t.wide c
    (t.inB = true →
      AluWord (.and h t d a c) h c.isU (fun e => (e.out t.wide d (A e &&& C e), [], 0)) ∧
      AluWord (.or h t d a c) h c.isU (fun e => (e.out t.wide d (A e ||| C e), [], 0)) ∧
      AluWord (.xor h t d a c) h c.isU (fun e => (e.out t.wide d (A e ^^^ C e), [], 0)) ∧
      AluWord (.andn h t d a c) h c.isU (fun e => (e.out t.wide d (A e &&& ~~~ C e), [], 0))) ∧
    (∀ (lut : Byte) (nd : Bool), t = .b32 → ∃ v : Env → Word,
      (∀ e i, i < 32 → (v e).getLsbD i =
        lut.getLsbD (4 * (if nd then 0 else ((e.r32 d).getLsbD i).toNat) + 2 * ((e.r32 a).getLsbD i).toNat + ((e.src32 c).getLsbD i).toNat)) ∧
      AluWord (.lop3 h t d a c lut nd) h c.isU (fun e => (e.out false d ((v e).setWidth 64), [], 0)))) ∧
  (
  ∀ (h : Hdr) (pd pa pc : RegIx) (na nc : Bool) (mask : BitVec 7),
    let x := fun (e : Env) => e.ln.pred pa.toNat ^^ na
    let y := fun (e : Env) => e.ln.pred pc.toNat ^^ nc
    AluWord (.pand h pd pa na pc nc) h false (fun e => ([], [(pd.toNat, x e && y e)], 0)) ∧
    AluWord (.por h pd pa na pc nc) h false (fun e => ([], [(pd.toNat, x e || y e)], 0)) ∧
    AluWord (.pxor h pd pa na pc nc) h false (fun e => ([], [(pd.toNat, x e ^^ y e)], 0)) ∧
    AluWord (.pnot h pd pc) h false (fun e => ([], [(pd.toNat, !e.ln.pred pc.toNat)], 0)) ∧
    AluWord (.pmov h pd pc) h false (fun e => ([], [(pd.toNat, e.ln.pred pc.toNat)], 0)) ∧
    AluWord (.psetPack h pd) h false (fun e => ([(pd.toNat, (0#24 ++ 1#1 ++ e.ln.p : Word))], [], 0)) ∧
    AluWord (.psetUnpack h mask pc) h false (fun e =>
      ([], ((List.range 7).filter fun k => mask.getLsbD k).map fun k => (k, (e.ln.reg pc.toNat).getLsbD k), 0)) ∧
    (∀ (ln : Lane) (v : Bool), (ln.setPred 7 v) = ln ∧ ln.pred 7 = true))

/-- R336: the shifts; an amount of the width or more gives 0, or the sign for SAR; the funnel shift takes its amount mod 32. -/
def Obligations.Shifts : Prop :=
  ∀ (h : Hdr) (t : IntTy) (d a b : RegIx) (c : Src),
    let A := fun (e : Env) => e.reg t.wide a
    let n := fun (e : Env) => (e.src32 c).toNat
    (t.inB = true →
      AluWord (.shl h t d a c) h c.isU (fun e => (e.out t.wide d (A e <<< n e), [], 0)) ∧
      AluWord (.shr h t d a c) h c.isU (fun e => (e.out t.wide d (A e >>> n e), [], 0))) ∧
    (t = .s32 ∨ t = .s64 →
      AluWord (.sar h t d a c) h c.isU (fun e =>
        (e.out t.wide d (if t = .s64 then (A e).sshiftRight (n e) else (((A e).setWidth 32).sshiftRight (n e)).setWidth 64), [], 0))) ∧
    (∀ right : Bool, t = .b32 →
      AluWord (.fshf h t right d a b c) h c.isU (fun e =>
        let x : DWord := e.r32 a ++ e.r32 b
        (e.out false d (if right then x >>> (n e % 32) else (x <<< (n e % 32)) >>> 32), [], 0)))

/-- R337, R338: bit fields bit by bit, the counts by what they count, the reversal, and PRMT byte by byte. -/
def Obligations.FieldsAndCounts : Prop :=
  ∀ (h : Hdr) (t : IntTy) (d a b : RegIx) (c : Src),
    let C := fun (e : Env) => e.src t.wide c
    let ctl := fun (e : Env) => (e.src32 c).toNat
    let pos := fun e => ctl e % 256
    let len := fun e => min (ctl e / 256 % 256) 32
    let out32 := fun (e : Env) (x : Word) => ((e.out false d (x.setWidth 64), [], 0) : Results)
    (t.in32 = true → ∃ v : Env → Word,
      (∀ e i, i < 32 →
        let f := fun k => if pos e + k ≤ 31 then (e.r32 a).getLsbD (pos e + k) else decide (t = .s32) && (e.r32 a).getLsbD 31
        (v e).getLsbD i = (decide (0 < len e) && if i < len e then f i else decide (t = .s32) && f (len e - 1))) ∧
      AluWord (.bfx h t d a c) h c.isU (fun e => out32 e (v e))) ∧
    (t = .b32 → ∃ v : Env → Word,
      (∀ e i, i < 32 → (v e).getLsbD i =
        if pos e ≤ i ∧ i < pos e + len e then (e.r32 a).getLsbD (i - pos e) else (e.r32 b).getLsbD i) ∧
      AluWord (.bfi h t d a b c) h c.isU (fun e => out32 e (v e))) ∧
    (t.inB = true →
      AluWord (.popc h t d c) h c.isU (fun e => out32 e (BitVec.ofNat 32 ((List.range t.bits).countP fun i => (C e).getLsbD i))) ∧
      (∃ n : Env → Nat, (∀ e, n e ≤ t.bits ∧ (∀ i, i < n e → (C e).getLsbD (t.bits - 1 - i) = false) ∧
          (n e < t.bits → (C e).getLsbD (t.bits - 1 - n e) = true)) ∧
        AluWord (.clz h t d c) h c.isU (fun e => out32 e (BitVec.ofNat 32 (n e)))) ∧
      (∃ n : Env → Nat, (∀ e, n e ≤ t.bits ∧ (∀ i, i < n e → (C e).getLsbD i = false) ∧
          (n e < t.bits → (C e).getLsbD (n e) = true)) ∧
        AluWord (.ctz h t d c) h c.isU (fun e => out32 e (BitVec.ofNat 32 (n e)))) ∧
      (∃ v : Env → DWord, (∀ e i, i < t.bits → (v e).getLsbD i = (C e).getLsbD (t.bits - 1 - i)) ∧
        AluWord (.brev h t d c) h c.isU (fun e => (e.out t.wide d (v e), [], 0)))) ∧
    (t = .b32 → ∃ v : Env → Word,
      (∀ e k, k < 4 →
        let s := ctl e / 16 ^ k % 16
        let x : DWord := e.r32 b ++ e.r32 a
        (v e).extractLsb' (8 * k) 8 =
          if s < 8 then x.extractLsb' (8 * s) 8
          else if s = 8 then 0x00#8 else if s = 9 then 0xFF#8 else if s = 14 then 0x7F#8 else if s = 15 then 0x80#8
          else if (e.r32 a).getLsbD (8 * (s - 10) + 7) then 0xFF#8 else 0x00#8) ∧
      AluWord (.prmt h t d a b c) h c.isU (fun e => out32 e (v e)))

/-- R341, R342, R346: SHFL, LSWAP, BCAST and UMOV move values between lanes; the source lane is read whatever its state. Lane
numbers are those the program sees (R164). -/
def Obligations.LaneMoves : Prop :=
  ∀ (h : Hdr) (d a c : RegIx),
    let reg := fun (w : Ctl) (l n : Nat) (r : RegIx) => (w.g.lane (w.phys l n)).reg r.toNat
    (∀ mode (logW : BitVec 3) k, CtlWord (.shfl h mode logW d a k) h false false (fun w l =>
      let L := w.no l
      let Ws := min (2 ^ logW.toNat) w.width
      let base := L - L % Ws
      let n := (w.env l).kind k
      let dist : Int := (L - base : Nat) + n.toInt
      let j : Option Nat := match mode with
        | .idx => some (base + n.toNat % Ws)
        | .rot => some (base + (L - base + n.toNat) % Ws)
        | .xor => some (L ^^^ (n.toNat % Ws))
        | .shd => if 0 ≤ dist ∧ dist < Ws then some (base + dist.toNat) else none
      ([(d.toNat, match j with | some j => reg w l j a | none => 0)], [], 0))) ∧
    (∀ t nege nego, CtlWord (.lswap h t nege nego d c) h false false (fun w l =>
      let v := reg w l (w.no l ^^^ 1) c
      let neg := if w.no l % 2 = 0 then nege else nego
      ([(d.toNat, if neg then (match t with
        | .b32 => v | .s32 => -v | .f32 => v ^^^ 0x80000000#32 | .f16 => v ^^^ 0x80008000#32) else v)], [], 0))) ∧
    (∀ k : BitVec 5, CtlWord (.bcast h d c k) h false false (fun w l => ([(d.toNat, reg w l (k.toNat % w.width) c)], [], 0))) ∧
    (∀ k : Option (BitVec 5), CtlWord (.umov h d c k) h false true (fun w l =>
      ([(d.toNat, match k with | some k => reg w l (k.toNat % w.width) c | none => (w.g.lane l).reg c.toNat)], [], 0)))

/-- R343 to R345: VOTE, MATCH, REDUX and ELECT over the active lanes of the word (the same copies, under PROT), and every fold of
REDUX from the values of the active lanes in ascending order. -/
def Obligations.LaneVotes : Prop :=
  (
  ∀ (h : Hdr) (d c : RegIx) (neg toG : Bool),
    let yes := fun (w : Ctl) (l : Nat) => (w.peers l).filter fun j => (w.g.lane j).pred c.toNat ^^ neg
    let mask := fun (w : Ctl) (js : List Nat) => maskOf (js.map w.no)
    let vals := fun (w : Ctl) (js : List Nat) => js.map fun j => (w.g.lane j).reg c.toNat
    CtlWord (.vote h .mask neg toG d c) h false toG (fun w l => ([(d.toNat, mask w (yes w l))], [], 0)) ∧
    CtlWord (.vote h .count neg toG d c) h false toG (fun w l => ([(d.toNat, BitVec.ofNat 32 (yes w l).length)], [], 0)) ∧
    CtlWord (.vote h .some neg false d c) h false false (fun w l => ([], [(d.toNat, decide (yes w l ≠ []))], 0)) ∧
    CtlWord (.vote h .every neg false d c) h false false (fun w l => ([], [(d.toNat, decide (yes w l = w.peers l))], 0)) ∧
    CtlWord (.vote h .same neg false d c) h false false (fun w l =>
      ([], [(d.toNat, decide (yes w l = [] ∨ yes w l = w.peers l))], 0)) ∧
    (∀ wide, CtlWord (.matchLanes h wide d c) h false false (fun w l =>
      let S := (w.peers l).filter fun j => (w.env j).reg wide c = (w.env l).reg wide c
      ([(d.toNat, BitVec.ofNat 32 (w.no (S.headD l) + 256 * S.length))], [], 0))) ∧
    CtlWord (.redux h .add false toG d c) h false toG (fun w l => ([(d.toNat, (vals w (w.peers l)).foldl (· + ·) 0)], [], 0)) ∧
    CtlWord (.redux h .scan false false d c) h false false (fun w l =>
      ([(d.toNat, (vals w ((w.peers l).filter fun j => j ≤ l)).foldl (· + ·) 0)], [], 0)) ∧
    (∀ hi, CtlWord (.elect h hi d) h false false (fun w l =>
      ([], [(d.toNat, decide (some l = if hi then (w.peers l).getLast? else (w.peers l).head?))], 0)))) ∧
  (
  ∀ (h : Hdr) (op : ReduxOp) (signed toG : Bool) (d c : RegIx), op ≠ .scan →
    let v := fun (x : Word) => if signed then x.toInt else (x.toNat : Int)
    let lo : Int := if signed then -(2 ^ 31) else 0
    let hi : Int := if signed then 2 ^ 31 - 1 else 2 ^ 32 - 1
    let two := fun (x y : Word) => match op with
      | .adds => BitVec.ofInt 32 (max lo (min hi (v x + v y)))
      | .min => if v x ≤ v y then x else y
      | .max => if v y ≤ v x then x else y
      | .and => x &&& y
      | .or => x ||| y
      | .xor => x ^^^ y
      | _ => x + y
    CtlWord (.redux h op signed toG d c) h false toG (fun w l =>
      ([(d.toNat, match (w.peers l).map fun j => (w.g.lane j).reg c.toNat with
        | [] => 0
        | x :: xs => xs.foldl two x)], [], 0)))

/-! ### Control words (file 15) -/

/-- R348 to R350: BRA, CALL and RET, then BRX and CALLX in one active lane. A target that is misaligned or too high traps the lane,
which writes no link; for BRX and CALLX the list of the word, a 32-bit count and 32-bit word offsets, must hold the target. -/
def Obligations.Branches : Prop :=
  (
  ∀ (h : Hdr) (d r : RegIx) (onG : Bool) (t : Target),
    let T := fun (s : State) => match t with
      | .rel off => s.cur.pc + (off.signExtend 64) * 8
      | .abs x => x
    let R := fun (g : Group) (l : Nat) => if onG then g.gr64 r.toNat else (g.lane l).reg64 r.toNat
    let bad := fun (x : DWord) => x.toNat % 8 ≠ 0 ∨ 2 ^ 57 ≤ x.toNat
    let goes := fun (x : DWord) (link : List (Nat × Word)) (ln : Lane) =>
      if x.toNat % 8 ≠ 0 then ln.trap 0x25 0 0
      else if 2 ^ 57 ≤ x.toNat then ln.trap 0x26 0 0
      else { ln.setRegs link with pc := x }
    let free := fun (s : State) (g : Group) (x : Nat → DWord) =>
      ∀ l, (active s g h).getLsbD l = true → bad (x l) → (g.lane l).handler = false
    Runs (.bra h t) h (fun s g => free s g fun _ => T s) (fun s _ _ ln => goes (T s) [] ln) ∧
    Runs (.call h d t) h (fun s g => free s g fun _ => T s)
      (fun s _ _ ln => goes (T s) (pairW d.toNat 511 (s.cur.pc + BitVec.ofNat 64 s.cur.len)) ln) ∧
    Runs (.ret h onG r) h (fun s g => free s g fun l => R g l) (fun _ g l ln => goes (R g l) [] ln)) ∧
  (
  ∀ (h : Hdr) (d r : RegIx) (onG : Bool) (lst : BitVec 18) (s : State) (g : Group) (l : Nat),
    let pc := s.cur.pc
    let T := if onG then g.gr64 r.toNat else (g.lane l).reg64 r.toNat
    let base := (pc + BitVec.ofNat 64 (8 * lst.toNat)).toNat
    lanesOf (active s g h) = [l] → (g.lane l).handler = false →
    let one := fun (s1 : State) (ln : Lane) (o : Host.Outcome State Fault Refusal) => ∃ g', o = .next (s1.setGroup s.cur.gid g') ∧
      lanesRun s g g' h (fun _ _ => ln) ∧ g'.g = g.g ∧ g'.landings = g.landings ∧ groupAfter s1 g g' h
    let case := fun (i : Instr) (link : List (Nat × Word)) => WordReady s g h i →
      (T.toNat % 8 ≠ 0 → one s ((g.lane l).trap 0x25 0 0) (exec i s)) ∧
      (T.toNat % 8 = 0 → 2 ^ 57 ≤ T.toNat → one s ((g.lane l).trap 0x26 0 0) (exec i s)) ∧
      (T.toNat % 8 = 0 → T.toNat < 2 ^ 57 → ∀ hd s1 es s2,
        s.readCode s.cur.gid base 1 = (.bytes hd, s1) → s1.group s.cur.gid = some g →
        let n := leNat hd
        (n = 0 ∨ 1024 < n → one s1 ((g.lane l).trap 0x24 0 0) (exec i s)) ∧
        (0 < n → n ≤ 1024 → s1.readCode s.cur.gid (base + 8) ((n + 1) / 2) = (.bytes es, s2) → s2.group s.cur.gid = some g →
          let hit := ∃ k, k < n ∧ T = pc + BitVec.ofInt 64 (8 * (BitVec.ofNat 32 (leNat ((es.drop (4 * k)).take 4))).toInt)
          (hit → one s2 { (g.lane l).setRegs link with pc := T } (exec i s)) ∧
          (¬ hit → one s2 ((g.lane l).trap 0x24 0 0) (exec i s))))
    case (.brx h onG lst r) [] ∧
    case (.callx h onG d lst r) (pairW d.toNat 511 (pc + BitVec.ofNat 64 s.cur.len)))

/-- R351 to R355: RJOIN, EXIT in a team group, TRAP, BKPT, NOP, YIELD, SLEEP and STEP. -/
def Obligations.ControlWords : Prop :=
  ∀ (h : Hdr) (code : BitVec 9) (n : Amount),
    let calm := fun (s : State) (g : Group) => ∀ l, (active s g h).getLsbD l = true → (g.lane l).handler = false
    let past := fun (s : State) (ln : Lane) => { ln with pc := s.cur.pc + BitVec.ofNat 64 s.cur.len }
    let val := fun (g : Group) => match n with
      | .imm i => i.zeroExtend 32
      | .g r => g.gr r.toNat
      | .lit x => x.setWidth 32
    Runs (.rjoin h) h (fun _ _ => True) (fun _ _ _ ln => { ln with st := .joining }) ∧
    Runs (.trap h code) h calm (fun _ _ _ ln => ln.trap 0x37 0 0) ∧
    Runs (.bkpt h code) h calm (fun _ _ _ ln => ln.trap 0x38 0 0) ∧
    Runs (.nop h) h (fun _ _ => True) (fun s _ _ ln => past s ln) ∧
    (∀ s g, WordReady s g h (.exit h) → g.spawned = none → active s g h ≠ 0 → ∃ g' s', exec (.exit h) s = .next s' ∧
      s' = (s.setGroup s.cur.gid g').retestSets g ∧ lanesRun s g g' h (fun _ ln => { ln with st := .exited, handler := false }) ∧
      groupAfter s g g' h) ∧
    (∀ s g, WordReady s g h (.yield h) → ∃ g', exec (.yield h) s = .next (s.setGroup s.cur.gid g') ∧
      lanesAfter s g g' h (fun _ ln => ln) ∧ groupAfter s g g' h ∧ g'.floor = some s.cur.pc ∧ g'.mask = s.cur.lanes) ∧
    (∀ s g, WordReady s g h (.sleep h n) → active s g h ≠ 0 → val g ≠ 0 →
      ∃ g', exec (.sleep h n) s = .next (s.setGroup s.cur.gid g') ∧ lanesAfter s g g' h (fun _ ln => ln) ∧ g'.asleep = true ∧
        g'.readyAt = max (s.clk + min (val g).toNat 65535) (s.clk + max h.stall.toNat 1) ∧ g'.g = g.g) ∧
    (∀ s g, WordReady s g h (.step h n) → active s g h ≠ 0 →
      ∃ g', exec (.step h n) s = .next (s.setGroup s.cur.gid g') ∧ lanesAfter s g g' h (fun _ ln => ln) ∧ g'.step = val g ∧
        g'.g = g.g ∧ (g'.atStep = true ↔ (s.ctx (s.rcd g.launch).ctx).popSt = .cut g.launch ∧ g.team.isSome))

/-! ### Floating-point and conversion words (file 16) -/

/-- R357, R359, R363 to R368: what each word of groups 0x4 to 0x7 computes from its operands, in vector and U-form words: the
frame of R357 around the exact function, one rounding, the flags ORed at retirement. -/
def Obligations.FloatWords : Prop :=
  ∀ (h : Hdr) (f : Fmt) (r : Sys2Proof.Dir) (d a b : RegIx) (c : Src),
    let F := formatOf f
    let dir := fun (w : Ctl) (l : Nat) => match r with
      | .rm => (w.g.lane l).rm.toNat | .rne => 0 | .rtz => 1 | .rup => 2 | .rdn => 3 | .rna => 4
    let fz := fun (B : Block) => B.flush && f != .f64
    let A := fun (w : Ctl) (l : Nat) (x : RegIx) => ((w.env l).reg f.wide x).toNat
    let C := fun (w : Ctl) (l : Nat) => match c with
      | .imm i => (F.ofInt 0 i.toInt).1
      | c => ((w.env l).src f.wide c).toNat
    let put := fun (w : Ctl) (l : Nat) (x : Nat × BitVec 5) => ((w.env l).out f.wide d (BitVec.ofNat 64 x.1), [], x.2)
    let two := fun (fn : Nat → FVal → FVal → Nat × BitVec 5) (B : Block) (w : Ctl) (l : Nat) =>
      (F.op B.snant (fz B) [A w l a, C w l] fun v => fn (dir w l) (nth v 0) (nth v 1)).map (put w l)
    let one := fun (fn : Nat → FVal → Nat × BitVec 5) (B : Block) (w : Ctl) (l : Nat) =>
      (F.op B.snant (fz B) [C w l] fun v => fn (dir w l) (nth v 0)).map (put w l)
    let three := fun (B : Block) (w : Ctl) (l : Nat) =>
      (F.op B.snant (fz B) [A w l a, A w l b, C w l] fun v => F.fma (dir w l) (nth v 0) (nth v 1) (nth v 2)).map (put w l)
    let word := fun (i : Instr) (land : Bool) (R : Block → Ctl → Nat → Option Results) => FpWord i h c.isU land R
    word (.fadd h f r d a c) false (two F.add) ∧
    word (.fsub h f r d a c) false (two fun k x y => F.add k x y.flip) ∧
    word (.fmul h f r d a c) false (two F.mul) ∧
    word (.ffma h f r d a b c) false three ∧
    word (.fdiv h f r d a c) true (two F.div) ∧
    word (.fsqrt h f r d c) true (one F.sqrt) ∧
    word (.frcp h f r d c) true (one fun k x => F.div k (.fin false 1 0) x) ∧
    word (.frsq h f r d c) true (one F.rsqrt) ∧
    (∀ exact, word (.frnd h f r exact d c) false (one fun k x => F.rnd k exact x)) ∧
    word (.fldx h f r d a c) false (fun B w l =>
      (F.op B.snant (fz B) [A w l a] fun v => F.ldx (dir w l) ((w.env l).src32 c).toInt (nth v 0)).map (put w l)) ∧
    (f = .f64 →
      (∀ sub, word (.dadd h f r sub d a c) false (two fun k x y => F.add k x (if sub then y.flip else y))) ∧
      word (.dmul h f r d a c) false (two F.mul) ∧
      word (.dfma h f r d a b c) false three ∧
      word (.ddiv h f r d a c) true (two F.div) ∧
      word (.dsqrt h f r d c) true (one F.sqrt)) ∧
    (f = .f16 ∨ f = .bf16 →
      let C2 := fun (w : Ctl) (l : Nat) => match c with
        | .imm i => (F.ofInt 0 i.toInt).1 + 65536 * (F.ofInt 0 i.toInt).1
        | c => ((w.env l).src32 c).toNat
      let R := fun (w : Ctl) (l : Nat) (x : RegIx) => ((w.env l).r32 x).toNat
      let el := fun (B : Block) (xs : List Nat) (k : Nat) (fn : List FVal → Nat × BitVec 5) =>
        F.op B.snant (fz B) (xs.map fun x => x / 65536 ^ k % 65536) fn
      let both := fun (B : Block) (w : Ctl) (l : Nat) (xs : List Nat) (fn : List FVal → Nat × BitVec 5) =>
        match el B xs 0 fn, el B xs 1 fn with
        | some x, some y => some ((w.env l).out false d (BitVec.ofNat 64 (x.1 + 65536 * y.1)), [], x.2 ||| y.2)
        | _, _ => none
      word (.fadd2 h f r d a c) false (fun B w l => both B w l [R w l a, C2 w l] fun v => F.add (dir w l) (nth v 0) (nth v 1)) ∧
      word (.fmul2 h f r d a c) false (fun B w l => both B w l [R w l a, C2 w l] fun v => F.mul (dir w l) (nth v 0) (nth v 1)) ∧
      word (.ffma2 h f r d a b c) false (fun B w l =>
        both B w l [R w l a, R w l b, C2 w l] fun v => F.fma (dir w l) (nth v 0) (nth v 1) (nth v 2)))

/-- R357, R211, R213, R217: the frame of a floating-point word. A signalling operand traps under SNT; else the first NaN
operand, made quiet, is the result, with NV where any operand was signalling; else the function of the operands, subnormals
read as zeros and a subnormal result written as zero where the word flushes. -/
def Obligations.FloatFrame : Prop :=
  ∀ (f : Fmt) (snt fz : Bool) (xs : List Nat) (fn : List FVal → Nat × BitVec 5),
    let F := formatOf f
    (∀ x ∈ xs, x < 2 ^ F.w) →
    let isNan := fun (x : Nat) => F.infBits < x % 2 ^ (F.w - 1)
    let quiet := fun (x : Nat) => x.testBit (F.p - 2)
    let sub := fun (x : Nat) => 0 < x % 2 ^ (F.w - 1) ∧ x % 2 ^ (F.w - 1) < 2 ^ (F.p - 1)
    let zeroOf := fun (x : Nat) => if x.testBit (F.w - 1) then 2 ^ (F.w - 1) else 0
    let out := F.op snt fz xs fn
    (snt = true → (∃ x ∈ xs, isNan x ∧ quiet x = false) → out = none) ∧
    ((snt = false ∨ ∀ x ∈ xs, isNan x → quiet x = true) →
      (∀ pre x post, xs = pre ++ x :: post → isNan x → (∀ y ∈ pre, ¬ isNan y) →
        ∃ fl : BitVec 5, out = some (x ||| 2 ^ (F.p - 2), fl) ∧
          ((∃ y ∈ xs, isNan y ∧ quiet y = false) → fl = 0x10#5) ∧ ((∀ y ∈ xs, isNan y → quiet y = true) → fl = 0)) ∧
      ((∀ x ∈ xs, ¬ isNan x) → ∀ ys, List.Forall₂ (fun x y => if fz = true ∧ sub x then y = zeroOf x else y = x) xs ys →
        let res := fn (ys.map F.decode)
        (fz = true ∧ sub res.1 → out = some (zeroOf res.1, res.2 ||| 0x03#5)) ∧
        (¬ (fz = true ∧ sub res.1) → out = some res)))

/-- R210, R212, R213: the rounding of an exact value m × 2^e, m > 0, to each format in each direction, with its flags; and an
exact integer in a format. -/
def Obligations.RoundingIsCorrect : Prop :=
  ∀ (F : Format) (dir : Nat), F ∈ [fmt64, fmt32, fmt16, fmtB16] → dir < 5 →
    (∀ (neg : Bool) (m : Nat) (e : Int), 0 < m →
      Stands F dir (realOf (.fin neg m e)) false (F.round dir neg m e false)) ∧
    ∀ x : Int, Stands F dir (x : ℝ) false (F.ofInt dir x)

/-- R357, R359, R364: the exact functions, rounded once, on finite operands, with the sign of an exact zero; and the special
results of their table. -/
def Obligations.ExactFunctions : Prop :=
  ∀ (f : Fmt) (dir : Nat), dir < 5 →
    let F := formatOf f
    let V := fun (v : FVal) => realOf v
    let fin := fun (v : FVal) => ∃ n m e, v = .fin n m e
    let nan := (F.nanBits, 0x10#5)
    let inf := fun (n : Bool) (fl : BitVec 5) => ((if n then 2 ^ (F.w - 1) else 0) + F.infBits, fl)
    let zero := fun (n : Bool) => ((if n then 2 ^ (F.w - 1) else 0), (0 : BitVec 5))
    (∀ x y : FVal, fin x → fin y →
      (∀ z, (z = true ↔ (V x = 0 ∧ V y = 0 ∧ x.neg = y.neg ∧ x.neg = true) ∨ (¬ (V x = 0 ∧ V y = 0 ∧ x.neg = y.neg) ∧ dir = 3)) →
        Stands F dir (V x + V y) z (F.add dir x y)) ∧
      Stands F dir (V x * V y) (x.neg ^^ y.neg) (F.mul dir x y) ∧
      (V y ≠ 0 → Stands F dir (V x / V y) (x.neg ^^ y.neg) (F.div dir x y)) ∧
      (V x ≠ 0 → V y = 0 → F.div dir x y = inf (x.neg ^^ y.neg) 0x08#5) ∧ (V x = 0 → V y = 0 → F.div dir x y = nan) ∧
      (0 ≤ V x → (V x = 0 → x.neg = false) → Stands F dir (Real.sqrt (V x)) false (F.sqrt dir x)) ∧
      (V x < 0 → F.sqrt dir x = nan ∧ F.rsqrt dir x = nan) ∧
      (0 < V x → Stands F dir (1 / Real.sqrt (V x)) false (F.rsqrt dir x)) ∧
      (V x = 0 → F.sqrt dir x = zero x.neg ∧ F.rsqrt dir x = inf x.neg 0x08#5) ∧
      (∀ n : Int, Stands F dir (V x * (2 : ℝ) ^ n) x.neg (F.ldx dir n x)) ∧
      (∀ w : FVal, fin w → ∀ z,
        (z = true ↔ (V x * V y = 0 ∧ V w = 0 ∧ (x.neg ^^ y.neg) = w.neg ∧ w.neg = true) ∨
          (¬ (V x * V y = 0 ∧ V w = 0 ∧ (x.neg ^^ y.neg) = w.neg) ∧ dir = 3)) →
        Stands F dir (V x * V y + V w) z (F.fma dir x y w))) ∧
    (∀ n m : Bool, F.add dir (.inf n) (.inf m) = (if n = m then inf n 0 else nan) ∧ F.mul dir (.inf n) (.inf m) = inf (n ^^ m) 0 ∧
      F.div dir (.inf n) (.inf m) = nan ∧ F.sqrt dir (.inf n) = (if n then nan else inf false 0) ∧
      F.rsqrt dir (.inf n) = (if n then nan else zero false) ∧ ∀ k, F.ldx dir k (.inf n) = inf n 0) ∧
    (∀ n x, fin x →
      F.add dir (.inf n) x = inf n 0 ∧ F.add dir x (.inf n) = inf n 0 ∧
      F.mul dir (.inf n) x = (if V x = 0 then nan else inf (n ^^ x.neg) 0) ∧
      F.mul dir x (.inf n) = (if V x = 0 then nan else inf (n ^^ x.neg) 0) ∧
      F.div dir (.inf n) x = inf (n ^^ x.neg) 0 ∧ F.div dir x (.inf n) = zero (n ^^ x.neg))

/-- R360, R361, R362, R365: minimum, maximum, comparison, class, and the split of a value. -/
def Obligations.FloatCompareAndSplit : Prop :=
  ∀ (h : Hdr) (f : Fmt) (d a : RegIx) (c : Src),
    let F := formatOf f
    let A := fun (w : Ctl) (l : Nat) => ((w.env l).reg f.wide a).toNat % 2 ^ F.w
    let C := fun (w : Ctl) (l : Nat) => (match c with
      | .imm i => (F.ofInt 0 i.toInt).1
      | c => ((w.env l).src f.wide c).toNat) % 2 ^ F.w
    let nan := fun (x : Nat) => (F.decode x).isNan
    let sig := fun (x : Nat) => (F.decode x).isSig
    let rd := fun (B : Block) (x : Nat) =>
      if B.flush ∧ f ≠ .f64 ∧ x % 2 ^ (F.w - 1) < 2 ^ (F.p - 1) then x / 2 ^ (F.w - 1) * 2 ^ (F.w - 1) else x
    let put := fun (w : Ctl) (l : Nat) (x : Nat) (fl : BitVec 5) => some ((w.env l).out f.wide d (BitVec.ofNat 64 x), [], fl)
    let nv := fun (x : Bool) => if x then 0x10#5 else 0
    -- below, where −0 stands below +0
    let below := fun (x y : Nat) => extOf (F.decode x) < extOf (F.decode y) ∨
      (extOf (F.decode x) = extOf (F.decode y) ∧ (F.decode x).neg = true ∧ (F.decode y).neg = false)
    let minMax := fun (big num : Bool) (R : Block → Ctl → Nat → Option Results) => ∀ B w l,
      let x := A w l
      let y := C w l
      let fl := nv (sig x || sig y)
      (B.snant = true → (sig x || sig y) = true → R B w l = none) ∧
      (B.snant = false ∨ (sig x || sig y) = false →
        (nan x = true → (num = false ∨ nan y = true) → R B w l = put w l (x ||| 2 ^ (F.p - 2)) fl) ∧
        (nan x = true → num = true → nan y = false → R B w l = put w l (rd B y) fl) ∧
        (nan x = false → nan y = true → R B w l = if num then put w l (rd B x) fl else put w l (y ||| 2 ^ (F.p - 2)) fl) ∧
        (nan x = false → nan y = false → ∃ z, R B w l = put w l z fl ∧ (z = rd B x ∨ z = rd B y) ∧
          (if big then ¬ below z (rd B x) ∧ ¬ below z (rd B y) else ¬ below (rd B x) z ∧ ¬ below (rd B y) z)))
    (∃ R, minMax false false R ∧ FpWord (.fmin h f d a c) h c.isU false R) ∧
    (∃ R, minMax true false R ∧ FpWord (.fmax h f d a c) h c.isU false R) ∧
    (∃ R, minMax false true R ∧ FpWord (.fminn h f d a c) h c.isU false R) ∧
    (∃ R, minMax true true R ∧ FpWord (.fmaxn h f d a c) h c.isU false R) ∧
    (∀ (cmp : FCmp) (bop : BoolOp) (pq : BitVec 3) (pn : Bool), c.isU = false →
      ∃ R : Block → Ctl → Nat → Option Results, FpWord (.fsetp h f cmp bop d a c pq pn) h false false R ∧
        ∀ B w l,
          let x := rd B (A w l)
          let y := rd B (C w l)
          let un := nan x || nan y
          let X := extOf (F.decode x)
          let Y := extOf (F.decode y)
          let ord := fun (p : Prop) => un = false ∧ p
          let uno := fun (p : Prop) => un = true ∨ p
          (B.snant = true → (sig x || sig y) = true → R B w l = none) ∧
          (B.snant = false ∨ (sig x || sig y) = false → ∃ t : Bool,
            (t = true ↔ match cmp with
              | .eq => ord (X = Y) | .ne => ord (X ≠ Y) | .lt => ord (X < Y) | .le => ord (X ≤ Y) | .gt => ord (Y < X) | .ge => ord (Y ≤ X)
              | .num => un = false | .nan => un = true
              | .equ => uno (X = Y) | .neu => uno (X ≠ Y) | .ltu => uno (X < Y) | .leu => uno (X ≤ Y) | .gtu => uno (Y < X)
              | .geu => uno (Y ≤ X)) ∧
            let q := (w.g.lane l).pred pq.toNat ^^ pn
            R B w l = some ([], [(d.toNat, match bop with | .and => t && q | .or => t || q | .xor => t ^^ q)],
              nv (sig x || sig y || (un && (cmp == .lt || cmp == .le || cmp == .gt || cmp == .ge)))))) ∧
    FpWord (.fclass h f d c) h c.isU false (fun _ w l =>
      let x := C w l
      let m := x % 2 ^ (F.w - 1)
      let neg := x.testBit (F.w - 1)
      let bit := if F.infBits < m then (if x.testBit (F.p - 2) then 1 else 0)
        else if m = F.infBits then (if neg then 2 else 9)
        else if m = 0 then (if neg then 5 else 6)
        else if m < 2 ^ (F.p - 1) then (if neg then 4 else 7)
        else if neg then 3 else 8
      some ((w.env l).out false d (BitVec.ofNat 64 (2 ^ bit)), [], 0)) ∧
    (∃ R, FpWord (.fxtxExp h f d c) h c.isU false R ∧ ∀ B w l,
      let x := C w l
      let out := fun (v : Word) (fl : BitVec 5) => some (((w.env l).out false d (v.setWidth 64), [], fl) : Results)
      (B.snant = true → sig x = true → R B w l = none) ∧
      (B.snant = false ∨ sig x = false →
        (nan x = true → R B w l = out 0x80000000#32 0x10#5) ∧
        (∀ n, F.decode x = .inf n → R B w l = out 0x7FFFFFFF#32 0x10#5) ∧
        (∀ n m e, F.decode x = .fin n m e → m = 0 → R B w l = out 0x80000000#32 0x10#5) ∧
        (∀ n m e, F.decode x = .fin n m e → m ≠ 0 → ∃ k : Int, R B w l = out (BitVec.ofInt 32 k) 0 ∧
          (2 : ℝ) ^ k ≤ |realOf (.fin n m e)| ∧ |realOf (.fin n m e)| < (2 : ℝ) ^ (k + 1)))) ∧
    (∃ R, FpWord (.fxtxMant h f d c) h c.isU false R ∧ ∀ B w l,
      let x := C w l
      (B.snant = true → sig x = true → R B w l = none) ∧
      (B.snant = false ∨ sig x = false →
        (nan x = true → R B w l = put w l (x ||| 2 ^ (F.p - 2)) (nv (sig x))) ∧
        (∀ n, F.decode x = .inf n → R B w l = put w l x 0) ∧
        (∀ n m e, F.decode x = .fin n m e → m = 0 → R B w l = put w l x 0) ∧
        (∀ n m e, F.decode x = .fin n m e → m ≠ 0 → ∃ (z : Nat) (k : Int), R B w l = put w l z 0 ∧ z < 2 ^ F.w ∧
          realOf (F.decode z) = realOf (.fin n m e) * (2 : ℝ) ^ (-k) ∧ 1 ≤ |realOf (F.decode z)| ∧ |realOf (F.decode z)| < 2)))

/-- R228, R229, R366: the functions take one source and land later; their special and exact results, with no flag but DZ for
the logarithm of zero and NV where there is no real result. -/
def Obligations.Functions : Prop :=
  ∀ (h : Hdr) (f : Fmt) (r : Sys2Proof.Dir) (d : RegIx) (c : Src),
    let F := formatOf f
    let word := fun (i : Instr) (fn : Fn) => FpWord i h c.isU true (fun B w l =>
      let dir := match r with
        | .rm => (w.g.lane l).rm.toNat | .rne => 0 | .rtz => 1 | .rup => 2 | .rdn => 3 | .rna => 4
      let x := match c with
        | .imm i => (F.ofInt 0 i.toInt).1
        | c => ((w.env l).src f.wide c).toNat
      (F.op B.snant (B.flush && f != .f64) [x] fun v => F.fn fn dir (nth v 0)).map fun x =>
        ((w.env l).out f.wide d (BitVec.ofNat 64 x.1), [], x.2))
    word (.fexp h f r d c) .exp ∧ word (.fexp2 h f r d c) .exp2 ∧ word (.flog h f r d c) .log ∧ word (.flog2 h f r d c) .log2 ∧
    word (.fsin h f r d c) .sin ∧ word (.fcos h f r d c) .cos ∧ word (.fsinpi h f r d c) .sinpi ∧
    word (.fcospi h f r d c) .cospi ∧ word (.ftanh h f r d c) .tanh ∧ word (.fsigm h f r d c) .sigm ∧
    ∀ (dir : Nat), dir < 5 →
      let is := fun (x : ℝ) (res : Nat × BitVec 5) => realOf (F.decode res.1) = x ∧ (∃ n m e, F.decode res.1 = .fin n m e) ∧ res.2 = 0
      let zero := fun (n : Bool) => ((if n then 2 ^ (F.w - 1) else 0), (0 : BitVec 5))
      let inf := fun (n : Bool) (fl : BitVec 5) => ((if n then 2 ^ (F.w - 1) else 0) + F.infBits, fl)
      let nan := (F.nanBits, 0x10#5)
      (∀ n e, is 1 (F.fn .exp dir (.fin n 0 e)) ∧ is 1 (F.fn .exp2 dir (.fin n 0 e)) ∧ F.fn .log dir (.fin n 0 e) = inf true 0x08#5 ∧
        F.fn .log2 dir (.fin n 0 e) = inf true 0x08#5 ∧ F.fn .sin dir (.fin n 0 e) = zero n ∧ is 1 (F.fn .cos dir (.fin n 0 e)) ∧
        F.fn .sinpi dir (.fin n 0 e) = zero n ∧ is 1 (F.fn .cospi dir (.fin n 0 e)) ∧ F.fn .tanh dir (.fin n 0 e) = zero n ∧
        is (1 / 2) (F.fn .sigm dir (.fin n 0 e))) ∧
      (∀ fn, fn = .exp ∨ fn = .exp2 → F.fn fn dir (.inf true) = zero false ∧ F.fn fn dir (.inf false) = inf false 0) ∧
      (∀ fn, fn = .log ∨ fn = .log2 → F.fn fn dir (.inf true) = nan ∧ F.fn fn dir (.inf false) = inf false 0 ∧
        (∀ m e, 0 < m → F.fn fn dir (.fin true m e) = nan) ∧
        ∀ m e, realOf (.fin false m e) = 1 → F.fn fn dir (.fin false m e) = zero false) ∧
      (∀ fn n, fn = .sin ∨ fn = .cos ∨ fn = .sinpi ∨ fn = .cospi → F.fn fn dir (.inf n) = nan) ∧
      (∀ n, is (if n then -1 else 1) (F.fn .tanh dir (.inf n)) ∧
        if n then F.fn .sigm dir (.inf n) = zero false else is 1 (F.fn .sigm dir (.inf n))) ∧
      (∀ (n : Bool) (m : Nat) (e k : Int), m ≠ 0 →
        (realOf (.fin n m e) = k → F.emin ≤ k → k ≤ F.bias → is ((2 : ℝ) ^ k) (F.fn .exp2 dir (.fin n m e))) ∧
        (realOf (.fin n m e) = (2 : ℝ) ^ k → k ≠ 0 → k.natAbs < 2 ^ F.p → is (k : ℝ) (F.fn .log2 dir (.fin n m e))) ∧
        (realOf (.fin n m e) = k → F.fn .sinpi dir (.fin n m e) = zero n ∧
          is (if k % 2 = 0 then 1 else -1) (F.fn .cospi dir (.fin n m e))) ∧
        (realOf (.fin n m e) = k + 1 / 2 → F.fn .cospi dir (.fin n m e) = zero false ∧
          is (if k % 2 = 0 then 1 else -1) (F.fn .sinpi dir (.fin n m e))))

/-- R369 to R375: conversions, the slices of an element on the INT8 path, and the recombination of products. -/
def Obligations.Conversions : Prop :=
  ∀ (h : Hdr) (d a b : RegIx) (c : Src),
    (∀ (dt st : CvtTy) (sat : Bool) (r : Sys2Proof.Dir),
      FpWord (.cvt h dt st sat r d a c) h c.isU false (fun B w l =>
        let dir := match r with
          | .rm => (w.g.lane l).rm.toNat | .rne => 0 | .rtz => 1 | .rup => 2 | .rdn => 3 | .rna => 4
        (cvtVal dt st B.snant sat dir (((w.env l).r32 a).toNat % 256) ((w.env l).src st.wide c)).map fun x =>
          ((w.env l).out dt.wide d x.1, [], x.2))) ∧
    (∀ (dt st : CvtTy) (snt sat : Bool) (dir scale : Nat) (x : DWord), dir < 5 → scale < 256 →
      let res := cvtVal dt st snt sat dir scale x
      let S := cvtFmt st
      let D := cvtFmt dt
      let v := S.decode (x.toNat % 2 ^ S.w)
      (∀ ti td, cvtInt st = some ti → cvtInt dt = some td →
        res = some (if sat then clamp td (ti.val x) else narrow td (BitVec.ofInt 64 (ti.val x)), 0)) ∧
      (∀ ti, cvtInt st = some ti → cvtInt dt = none → dt ≠ .mxi8 →
        ∃ y, res = some (BitVec.ofNat 64 y.1, y.2) ∧ Stands D dir (ti.val x : ℝ) false y) ∧
      (cvtInt st = none → st ≠ .mxi8 → v.isSig = true → snt = true → res = none) ∧
      (cvtInt st = none → st ≠ .mxi8 → (v.isSig = false ∨ snt = false) →
        let nvs := if v.isSig then 0x10#5 else 0
        (∀ td, cvtInt dt = some td →
          (v.isNan = true → res = some (0, 0x10#5)) ∧
          (∀ n, v = .inf n → res = some (narrow td (BitVec.ofInt 64 (if n then td.lo else td.hi)), 0x10#5)) ∧
          (∀ n m e, v = .fin n m e → ∃ k : Int, RoundsTo (fun y => ∃ j : Int, y = j) (fun y => ∃ j : Int, y = 2 * j) dir (realOf v) k ∧
            res = some (if k < td.lo then (narrow td (BitVec.ofInt 64 td.lo), 0x10#5)
              else if td.hi < k then (narrow td (BitVec.ofInt 64 td.hi), 0x10#5)
              else (narrow td (BitVec.ofInt 64 k), if (k : ℝ) = realOf v then 0 else 0x01#5)))) ∧
        (dt = .mxi8 →
          (v.isNan = true → res = some (0, 0x10#5)) ∧
          (v.isNan = false → scale = 255 → res = some (0, 0x10#5)) ∧
          (scale < 255 → (∀ n, v = .inf n → res = some (narrow .s8 (if n then -127 else 127), 0x05#5)) ∧
            ∀ n m e, v = .fin n m e → ∃ k : Int,
              RoundsTo (fun y => ∃ j : Int, y = j) (fun y => ∃ j : Int, y = 2 * j) 0
                (realOf v * 64 * (2 : ℝ) ^ (127 - scale : Int)) k ∧
              res = some (narrow .s8 (BitVec.ofInt 64 (max (-127) (min 127 k))),
                (if 127 < k.natAbs then 0x04#5 else 0) |||
                  (if ((max (-127) (min 127 k) : Int) : ℝ) = realOf v * 64 * (2 : ℝ) ^ (127 - scale : Int) then 0 else 0x01#5)))) ∧
        (cvtInt dt = none → dt ≠ .mxi8 →
          (v.isNan = true → ∃ y, res = some (BitVec.ofNat 64 y, nvs) ∧ y < 2 ^ D.w ∧ y.testBit (D.w - 1) = x.toNat.testBit (S.w - 1) ∧
            (D.w = 8 → y % 2 ^ (D.w - 1) = D.nanBits) ∧
            (D.w ≠ 8 → D.infBits < y % 2 ^ (D.w - 1) ∧ y.testBit (D.p - 2) = true ∧
              ∀ i, i + 2 < D.p → y.testBit (D.p - 3 - i) = (decide (i + 2 < S.p) && x.toNat.testBit (S.p - 3 - i)))) ∧
          (∀ n, v = .inf n → res = some (BitVec.ofNat 64 ((if n then 2 ^ (D.w - 1) else 0) + if sat then D.maxBits else D.infBits),
            if sat ∨ dt ≠ .e4m3 then 0 else 0x10#5)) ∧
          (∀ n m e, v = .fin n m e → ∃ y, Stands D dir (realOf v) n y ∧
            res = some (BitVec.ofNat 64 (if sat ∧ y.2.getLsbD 2 = true then (if n then 2 ^ (D.w - 1) else 0) + D.maxBits else y.1), y.2))))) ∧
    (c.isU = false → ∀ (logN : BitVec 3), FpWord (.dsliceExp h logN d c) h false true (fun B w l =>
      let v := fun (j : Nat) => fmt64.decode ((w.env j).src true c).toNat
      let N := min (2 ^ logN.toNat) w.width
      let seg := (w.peers l).filter fun j => w.no j / N == w.no l / N && !(B.snant && (v j).isSig)
      let es := seg.filterMap fun j => match v j with | .fin _ m e => if m = 0 then none else some (e + bitLen m) | _ => none
      if B.snant && (v l).isSig then none
      else some ([(d.toNat, if seg.any fun j => match v j with | .fin .. => false | _ => true then 0x7FFFFFFF#32
        else match es.max? with | none => 0x80000000#32 | some E => BitVec.ofInt 32 E)], [], if (v l).isSig then 0x10#5 else 0))) ∧
    (c.isU = false → ∀ (t : BitVec 3), FpWord (.dsliceSlice h t d a c) h false true (fun B w l =>
      let v := fmt64.decode ((w.env l).src true c).toNat
      let x := (w.env l).r32 a
      let y : Int := match v with
        | .fin n m e => if x = 0x7FFFFFFF#32 ∨ x = 0x80000000#32 then 0
          else (if n then -1 else 1) * (((m : ℚ) * 2 ^ (e - x.toInt + 7 * (t.toNat + 1))).floor % 128)
        | _ => 0
      if B.snant && v.isSig then none
      else some ([(d.toNat, BitVec.ofInt 32 y)], [], if v.isSig then 0x10#5 else 0))) ∧
    (∀ (first : Bool) (m : BitVec 4), FpWord (.drecon h first m d a b c) h c.isU true (fun _ w l =>
      let e := w.env l
      let P := (e.r32 a).toInt
      let E := e.r32 b
      let K := e.src32 c
      let old := fmt64.decode (e.r64 d).toNat
      let put := fun (x : Nat × BitVec 5) => some ((e.out true d (BitVec.ofNat 64 x.1), [], x.2) : Results)
      if E = 0x7FFFFFFF#32 ∨ K = 0x7FFFFFFF#32 then put (fmt64.nanBits, 0x10#5)
      else if first = false ∧ old.isNan = true then put (fmt64.nanBits, 0)
      else
        let term := if E = 0x80000000#32 ∨ K = 0x80000000#32 then (0, 0)
          else fmt64.ofFin 0 (decide (P < 0), P.natAbs, E.toInt + K.toInt - 7 * m.toNat)
        if first then put term
        else
          let sum := fmt64.add 0 old (fmt64.decode term.1)
          put (sum.1, term.2 ||| sum.2)))

/-! ### Pair words and memory words (files 14, 17) -/

/-- R305 to R308: a pair word whose slots compute. Both slots read the registers as they stand before the word; each has the
effect of its full form where its guard is true; a trap of one takes both. -/
def Obligations.PairWords : Prop :=
  ∀ (s0 s1 : Slot), s0.op.isMem = false → s1.op.isMem = false →
    let h : Hdr := { gp := 7, gn := false, stall := BitVec.ofNat 4 (max s0.stall.toNat s1.stall.toNat), ret := 0 }
    let slot := fun (x : Slot) (B : Block) (w : Ctl) (l : Nat) =>
      let D := (w.g.lane l).reg x.d.toNat
      let A := (w.g.lane l).reg x.a.toNat
      let dir := (w.g.lane l).rm.toNat
      let put := fun (v : Word) => some (([(x.d.toNat, v)], [], 0) : Results)
      let pick := fun (r : Option (Nat × BitVec 5)) => r.map fun r => (([(x.d.toNat, BitVec.ofNat 32 r.1)], [], r.2) : Results)
      let f32 := fun (fn : FVal → FVal → Nat × BitVec 5) =>
        pick (fmt32.op B.snant B.flush [D.toNat, A.toNat] fun v => fn (nth v 0) (nth v 1))
      let two := fun (F : Format) (fn : FVal → FVal → Nat × BitVec 5) =>
        let el := fun (k : Nat) => F.op B.snant B.flush [D.toNat / 65536 ^ k % 65536, A.toNat / 65536 ^ k % 65536] fun v => fn (nth v 0) (nth v 1)
        match el 0, el 1 with
        | some p, some q => pick (some (p.1 + 65536 * q.1, p.2 ||| q.2))
        | _, _ => none
      if (w.g.lane l).pred x.gp.toNat = false then some ([], [], 0)
      else match x.op with
        | .mov => put A
        | .add => put (D + A)
        | .sub => put (D - A)
        | .mul => put (D * A)
        | .minS => put (if D.toInt ≤ A.toInt then D else A)
        | .maxS => put (if A.toInt ≤ D.toInt then D else A)
        | .minN => put (if D.toNat ≤ A.toNat then D else A)
        | .maxN => put (if A.toNat ≤ D.toNat then D else A)
        | .and => put (D &&& A)
        | .or => put (D ||| A)
        | .xor => put (D ^^^ A)
        | .andn => put (D &&& ~~~ A)
        | .shl => put (D <<< A.toNat)
        | .shr => put (D >>> A.toNat)
        | .sar => put (D.sshiftRight A.toNat)
        | .fadd => f32 (fmt32.add dir)
        | .fsub => f32 fun p q => fmt32.add dir p q.flip
        | .fmul => f32 (fmt32.mul dir)
        | .fmin => pick (fmt32.minMax B.snant B.flush false false D.toNat A.toNat)
        | .fmax => pick (fmt32.minMax B.snant B.flush true false D.toNat A.toNat)
        | .fadd2b => two fmtB16 (fmtB16.add dir)
        | .fmul2b => two fmtB16 (fmtB16.mul dir)
        | .fadd2h => two fmt16 (fmt16.add dir)
        | .fmul2h => two fmt16 (fmt16.mul dir)
        | .neg => put (-A)
        | .abs => put (if A.toInt < 0 then -A else A)
        | .popc => put (BitVec.ofNat 32 ((List.range 32).countP fun i => A.getLsbD i))
        | .brev => put A.reverse
        | .clz => put (BitVec.ofNat 32 ((List.range 32).takeWhile fun i => !A.getLsbD (31 - i)).length)
        | .cvtF => pick (some (fmt32.ofInt dir A.toInt))
        | .cvtS => pick ((convToInt fmt32 B.snant dir A.toNat (-2 ^ 31) (2 ^ 31 - 1)).map fun r => ((r.1 % 2 ^ 32).toNat, r.2))
        | _ => some ([], [], 0)
    FpWord (.pairWord s0 s1) h false false (fun B w l =>
      match slot s0 B w l, slot s1 B w l with
      | some x, some y => some (x.1 ++ y.1, [], x.2.2 ||| y.2.2)
      | _, _ => none)

/-- R378, R379, R381: LD and ST in the scratch space. Each active lane checks alignment, then the range; a load takes the bytes
extended by the width; stores take effect in ascending lane order, and change no other byte. -/
def Obligations.ScratchLoadsAndStores : Prop :=
  ∀ (h : Hdr) (w : Width) (o : Sys2Proof.Ord) (sc : Scope) (hint : Hint) (onG : Bool) (d a : RegIx) (off : BitVec 9),
    let ea := fun (g : Group) (l : Nat) => ((if onG then g.gr a.toNat else (g.lane l).reg a.toNat) + off.signExtend 32).toNat
    let sext := fun (n : Nat) (x : Nat) => if x.testBit (n - 1) then x % 2 ^ n + (2 ^ 32 - 2 ^ n) else x % 2 ^ n
    let loaded := fun (bs : List Byte) =>
      let v := leNat bs
      match w with
      | .n8 | .n16 | .b32 => [(d.toNat, BitVec.ofNat 32 v)]
      | .s8 => [(d.toNat, BitVec.ofNat 32 (sext 8 v))]
      | .s16 => [(d.toNat, BitVec.ofNat 32 (sext 16 v))]
      | .n64 => if d = 511#9 then [] else [(d.toNat, BitVec.ofNat 32 v), (d.toNat + 1, BitVec.ofNat 32 (v / 2 ^ 32))]
      | .b128 => if d = 511#9 then [] else
          (List.range 4).map fun i => (d.toNat + i, BitVec.ofNat 32 (leNat ((bs.drop (4 * i)).take 4)))
    let data := fun (g : Group) (l : Nat) => match w with
      | .n64 => toLE 8 ((g.lane l).reg64 d.toNat).toNat
      | .b128 => (List.range 4).flatMap fun i => if d = 511#9 then [0, 0, 0, 0] else toLE 4 ((g.lane l).reg (d.toNat + i)).toNat
      | w => toLE w.bytes ((g.lane l).reg d.toNat).toNat
    (∀ bs : List Byte, bs.length = w.bytes → widthWrites w d.toNat bs = loaded bs) ∧
    SeqWord (.ld h .scr w o sc hint onG d a off) h (fun _ _ => True)
      (fun _ g l s => match scratchAt s g false (ea g l) w.bytes w.bytes 0 (ea g l) with
        | .error e => (e, s)
        | .ok (u, x) => (.takes (widthWrites w d.toNat (s.readScratch u x w.bytes), [], 0), s)) ∧
    (w ≠ .s8 → w ≠ .s16 →
      SeqWord (.st h .scr w o sc hint onG d a off) h
        (fun s g => ∀ l, (active s g h).getLsbD l = true → o = .plain ∨ (o = .rlx ∧ (g.lane l).relFence = false))
        (fun _ g l s => match scratchAt s g false (ea g l) w.bytes w.bytes 1 (ea g l) with
          | .error e => (e, s)
          | .ok (u, x) => (noResults, s.writeScratch u x (data g l)))) ∧
    (∀ (s : State) (u x : Nat) (t : Team) (bs : List Byte), s.team u = some t → s.txns = [] →
      ∃ t', (s.writeScratch u x bs).team u = some t' ∧ t' = { t with scratch := t'.scratch } ∧
        (∀ y, t'.byte u y = if x ≤ y ∧ y < x + bs.length then bs.getD (y - x) 0 else t.byte u y) ∧
        ((∀ gid g l a p, s.group gid = some g → (g.lane l).park ≠ .barrier u a p) → s.writeScratch u x bs = s.setTeam u t'))

/-- R376, R379, R381, R388, R390, R192: LD, ST, ATOM and RED of one active lane to this device's memory through a translation
that allows them: the lane passes the word, and its access is on its way as one transaction of its line. A misaligned address
and one out of range trap first. -/
def Obligations.MemoryAccessesAreSent : Prop :=
  ∀ (h : Hdr) (w : Width) (o : Sys2Proof.Ord) (sc : Scope) (hint : Hint) (onG gen : Bool) (d a b : RegIx) (off : BitVec 9)
    (op : AtomOp) (ty : AtomTy) (s : State) (g : Group) (l : Nat) (leaf : Leaf),
    lanesOf (active s g h) = [l] → Still s g h → s.txns = [] → (g.lane l).handler = false → (g.lane l).linkLost = false →
    let base := if onG then g.gr64 a.toNat else (g.lane l).reg64 a.toNat
    let sp := if gen then Space.gen else Space.glb
    let k := (s.rcd g.launch).ctx
    -- no cache holds an access to a frame outside the views
    let as := fun (ea : Nat) => if (s.viewOf (leaf.phys ea)).isSome then leaf else { leaf with wp := false, lvl := 0 }
    let trapped := fun (ln : Lane) (i : Instr) => ∃ g', exec i s = .next ((numbered s).setGroup s.cur.gid g') ∧
      lanesRun s g g' h (fun _ _ => ln) ∧ g'.g = g.g ∧ groupAfter s g g' h
    let sent := fun (ea n x : Nat) (aop : AccOp) (bs : List Byte) (o : Sys2Proof.Ord) (i : Instr) =>
      let rel := aop.writes && ((o == .rel) || (o == .ar) || (o == .rlx && (g.lane l).relFence))
      let core := sc == .thr || sc == .grp || sc == .team
      let l1 := (as ea).wp && (as ea).lvl == 2 && !s.l1Empty g.core && (match aop with
        | .store => core | .atom .. | .red .. => core || sc == .clu | _ => false)
      (rel = true → sc = .sys → s.hostQuiet k 0 = true ∧ s.hostQuiet k 1 = true) →
      ∃ g', lanesAfter s g g' h (fun _ ln => ln) ∧ g'.g = g.g ∧ groupAfter s g g' h ∧
        exec i s = .next (({ s with
            next := s.next + 2
            txns := Sparse.set none s.txns (s.next + 1) (some {
              core := g.core, gid := s.cur.gid, ctx := k, launch := g.launch, tgt := .cell, line := x / 128
              parts := [{ lane := l, addr := x, va := ea, len := n, op := aop, data := bs, level := leaf.level }], scope := sc
              acq := o == Sys2Proof.Ord.acq || o == Sys2Proof.Ord.ar, rel := rel, wb := rel && !(l1 && core), l1 := l1, lvl := (as ea).lvl,
              evp := if (match aop with | .load .. => hint == Sys2Proof.Hint.ef | _ => false) then 0 else (as ea).evp, pc := s.cur.pc, word := s.next }) }).setGroup s.cur.gid g')
    let held := fun (ea x n : Nat) (acc : Acc) => s.tlbAt g.core k ea = some leaf ∧ s.target k n acc (leaf.phys ea) = .ok (.cell, x)
    let addr := fun (i : Instr) (ea n acc : Nat) =>
      (ea % n ≠ 0 → ea < windowBase ∨ gen = false ∨ o = .plain → trapped ((g.lane l).trap 0x25 acc (BitVec.ofNat 64 ea)) i) ∧
      (ea % n = 0 → 2 ^ 57 ≤ ea → gen = false ∨ o = .plain → trapped ((g.lane l).trap 0x26 acc (BitVec.ofNat 64 ea)) i)
    (let i := Instr.ld h sp w o sc hint onG d a off
     let ea := (base + off.signExtend 64).toNat
     WordReady s g h i → addr i ea w.bytes 0 ∧
       (ea % w.bytes = 0 → ea < windowBase → ∀ x, held ea x w.bytes .load →
         sent ea w.bytes x (.load w d) [] o i)) ∧
    (let i := Instr.st h sp w o sc hint onG d a off
     let ea := (base + off.signExtend 64).toNat
     let bs := match w with
       | .n64 => toLE 8 ((g.lane l).reg64 d.toNat).toNat
       | .b128 => (List.range 4).flatMap fun i => if d = 511#9 then [0, 0, 0, 0] else toLE 4 ((g.lane l).reg (d.toNat + i)).toNat
       | w => toLE w.bytes ((g.lane l).reg d.toNat).toNat
     WordReady s g h i → addr i ea w.bytes 1 ∧
       (ea % w.bytes = 0 → ea < windowBase → leaf.w = true → ∀ x, held ea x w.bytes .store → sent ea w.bytes x .store bs o i) ∧
       (ea % w.bytes = 0 → ea < windowBase → leaf.w = false → ∀ x, held ea x w.bytes .store →
         trapped ((g.lane l).trap 0x28 1 (BitVec.ofNat 64 ea)) i)) ∧
    (let ea := base.toNat
     let n := if ty.wide then 8 else 4
     let o' := if o = .plain then .rlx else o
     let R := fun (k : Nat) => (g.lane l).reg (b.toNat + k)
     let args := (if b = 511#9 then 0 else if ty.wide then R 1 ++ R 0 else (R 0).zeroExtend 64,
       if op ≠ .cas ∨ b = 511#9 then 0 else if ty.wide then R 3 ++ R 2 else (R 1).zeroExtend 64)
     ea % n = 0 → ea < windowBase → leaf.w = true → (op = .cas → ty.wide = true → b.toNat % 4 = 0) → ∀ x, held ea x n .atomic →
       (WordReady s g h (.atom h op ty o sc onG d a b) →
         sent ea n x (.atom op ty args.1 args.2 d) [] o' (.atom h op ty o sc onG d a b)) ∧
       (WordReady s g h (.red h op ty o sc onG a b) → s.detrHeld g ty sc = false →
         sent ea n x (.red op ty args.1 args.2) [] o' (.red h op ty o sc onG a b)))

/-- R384, R385, R176: LDF, STF and FEINIT. Lanes act in ascending order, each against the bit as those before it left it; a
change of the bit releases parked lanes in the order of the rule. -/
def Obligations.FullEmptyAccesses : Prop :=
  (∀ (h : Hdr) (clu : Bool) (w : Width) (d a : RegIx) (off : BitVec 9),
    let ea := fun (g : Group) (l : Nat) => ((g.lane l).reg a.toNat + off.signExtend 32).toNat
    let data := fun (g : Group) (l : Nat) => match w with
      | .n64 => toLE 8 ((g.lane l).reg64 d.toNat).toNat
      | .b128 => (List.range 4).flatMap fun i => if d = 511#9 then [0, 0, 0, 0] else toLE 4 ((g.lane l).reg (d.toNat + i)).toNat
      | w => toLE w.bytes ((g.lane l).reg d.toNat).toNat
    let at' := fun (acc : Nat) (g : Group) (l : Nat) (s : State) (k : Nat → Nat → Team → Does × State) =>
      match scratchAt s g clu (ea g l) w.bytes w.bytes acc (ea g l) with
      | .error e => (e, s)
      | .ok (u, x) => match s.team u with
        | some t => k u x t
        | none => (.traps 0x22 0 0, s)
    (∀ keep, SeqWord (.ldf h clu w keep d a off) h (fun _ _ => True) (fun _ g l s => at' 0 g l s fun u x t =>
      if Sparse.get false t.full (x / 16) then
        (.takes (widthWrites w d.toNat (t.bytes u x w.bytes), [], 0), if keep then s else s.setFull u (x / 16) false)
      else (.parks (.fullBit u (x / 16) true keep), s))) ∧
    SeqWord (.stf h clu w d a off) h (fun s g => s.txns = [] ∧ (clu = true → s.clean g.core (s.ctxOf g) = true))
      (fun _ g l s => at' 1 g l s fun u x t =>
        if Sparse.get false t.full (x / 16) then (.parks (.fullBit u (x / 16) false false), s)
        else (noResults, (s.writeScratch u x (data g l)).setFull u (x / 16) true)) ∧
    (∀ (full : Bool) (n : Kind),
      SeqWord (.feinit h clu full a n) h (fun s g => full = false ∨ (s.txns = [] ∧ (clu = true → s.clean g.core (s.ctxOf g) = true)))
        (fun _ g l s =>
          let ea := ((g.lane l).reg a.toNat).toNat
          let k := ((envOf false g l).kind n).toInt
          match scratchAt s g clu ea 0 16 0 ea with
          | .error e => (e, s)
          | .ok (u, x) => match s.team u with
            | none => (.traps 0x22 0 0, s)
            | some t =>
              if k < 0 then (.traps 0x22 0 0, s)
              else if 1024 * (s.rcd t.task.lrec).blk.scr < x + 16 * k.toNat then (.traps 0x27 0 (BitVec.ofNat 64 ea), s)
              else (noResults, (List.range k.toNat).foldl (fun s i => s.setFull u (x / 16 + i) full) s))) ∧
    -- completion, for one active lane whose address and bit allow it
    (∀ (s : State) (g : Group) (l u x : Nat) (t : Team), lanesOf (active s g h) = [l] → Still s g h → s.team u = some t →
      (∀ keep, WordReady s g h (.ldf h clu w keep d a off) → scratchAt s g clu (ea g l) w.bytes w.bytes 0 (ea g l) = .ok (u, x) →
        Sparse.get false t.full (x / 16) = true →
        LaneTakes s h l (.ldf h clu w keep d a off) (widthWrites w d.toNat (t.bytes u x w.bytes), [], 0)
          (if keep then numbered s else (numbered s).setFull u (x / 16) false)) ∧
      (s.txns = [] → (clu = true → s.clean g.core (s.ctxOf g) = true) →
        (WordReady s g h (.stf h clu w d a off) → scratchAt s g clu (ea g l) w.bytes w.bytes 1 (ea g l) = .ok (u, x) →
          Sparse.get false t.full (x / 16) = false →
          LaneTakes s h l (.stf h clu w d a off) ([], [], 0) (((numbered s).writeScratch u x (data g l)).setFull u (x / 16) true)) ∧
        (∀ full n, let p := ((g.lane l).reg a.toNat).toNat
          let k := ((envOf false g l).kind n).toInt
          WordReady s g h (.feinit h clu full a n) → scratchAt s g clu p 0 16 0 p = .ok (u, x) → 0 ≤ k →
          x + 16 * k.toNat ≤ 1024 * (s.rcd t.task.lrec).blk.scr →
          LaneTakes s h l (.feinit h clu full a n) ([], [], 0)
            ((List.range k.toNat).foldl (fun s i => s.setFull u (x / 16 + i) full) (numbered s)))))) ∧
  (∀ (s : State) (u gran : Nat) (t : Team) (b : Bool), s.team u = some t → Sparse.get false t.full gran = !b →
    Sparse.wf none s.groups = true → (∀ gid g, s.group gid = some g → (s.rcd g.launch).blk.prot = false) →
    let s' := s.setFull u gran b
    let on := fun (want keep : Bool) (gid l : Nat) => l < 32 ∧ ∃ g, s.group gid = some g ∧
      (g.lane l).park = .fullBit u gran want keep ∧ (g.lane l).ready = false
    let age := fun (gid l : Nat) => match s.group gid with | some g => (g.lane l).age | none => 0
    let ready := fun (gid l : Nat) => ∃ g, s'.group gid = some g ∧ (g.lane l).ready = true
    (∃ t', s'.team u = some t' ∧ ∀ k, Sparse.get false t'.full k = if k = gran then b else Sparse.get false t.full k) ∧
    (b = true → ∀ gid l, on true true gid l → ready gid l) ∧
    (∀ gid l, (if b then on true false gid l else ∃ k, on false k gid l) →
      (∀ gid' l', (if b then on true false gid' l' else ∃ k, on false k gid' l') → (gid', l') ≠ (gid, l) → age gid l < age gid' l') →
      ready gid l ∧ ∀ gid' l', (if b then on true false gid' l' else ∃ k, on false k gid' l') → (gid', l') ≠ (gid, l) → ¬ ready gid' l'))

/-- R392, R393, R394, R395, R114: words that wait. MONWAIT and POLL on the scratchpad, through its window; ENQ and DEQ of one
active lane, whose request goes to the queue engine while the lane stays at its word, and passes it once the engine has served it. -/
def Obligations.WaitingWords : Prop :=
  ∀ (h : Hdr) (cmp : MonCmp) (o : Sys2Proof.Ord) (sc : Scope) (wide : Bool) (pd : BitVec 3) (d a b : RegIx),
    let n := if wide then 8 else 4
    let ea := fun (g : Group) (l : Nat) => ((g.lane l).reg64 a.toNat).toNat
    let base := 0x01FFFF0000000000
    let arg := fun (g : Group) (l : Nat) => if wide then (g.lane l).reg64 b.toNat else ((g.lane l).reg b.toNat).zeroExtend 64
    let holds : Nat → Nat → Bool := fun v x => match cmp with
      | .eq => v == x | .ne => v != x | .ge => decide (x ≤ v) | .lt => decide (v < x)
    let put := fun (v : Nat) => if wide then pairW d.toNat 511 (BitVec.ofNat 64 v) else [(d.toNat, BitVec.ofNat 32 v)]
    let inWindow := fun (s : State) (g : Group) => g.team.isSome = true ∧
      ∀ l, (active s g h).getLsbD l = true → base ≤ ea g l ∧ ea g l < base + 2 ^ 32
    (∃ f, SeqWord (.monwait h cmp o sc wide d a b) h inWindow f ∧ ∀ s g l s', inWindow s g → (active s g h).getLsbD l = true →
      (∀ e, scratchAt s' g false (ea g l - base) n n 0 (ea g l) = .error e → f s g l s' = (e, s')) ∧
      ∀ u x, scratchAt s' g false (ea g l - base) n n 0 (ea g l) = .ok (u, x) →
        let v := leNat (s'.readScratch u x n)
        (holds v (arg g l).toNat = true → f s g l s' = (.takes (put v, [], 0), s'.setBackoff s.cur.gid 0)) ∧
        (holds v (arg g l).toNat = false → f s g l s' = (.parks (.monitor s'.next), { s' with
          next := s'.next + 1
          txns := Sparse.set none s'.txns s'.next (some {
            core := g.core, gid := s.cur.gid, ctx := (s'.rcd g.launch).ctx, launch := g.launch, tgt := .scr u, line := x / 16
            parts := [{ lane := l, addr := x, va := ea g l, len := n, op := .monitor cmp wide (arg g l) d }], pc := s.cur.pc, word := s'.next }) }))) ∧
    (∀ s g u t, WordReady s g h (.poll h cmp o sc wide pd d a b) → Still s g h → s.txns = [] → inWindow s g → active s g h ≠ 0 →
      g.polls = [] → 0 < s.next → g.team = some u → s.team u = some t →
      (∀ l, (active s g h).getLsbD l = true → ea g l % n = 0 ∧ ea g l - base + n ≤ 1024 * (s.rcd t.task.lrec).blk.scr) →
      let v := fun (l : Nat) => leNat (t.bytes u (ea g l - base) n)
      let met := ∃ l, (active s g h).getLsbD l = true ∧ holds (v l) (arg g l).toNat = true
      ∃ g', exec (.poll h cmp o sc wide pd d a b) s = .next ((numbered s).setGroup s.cur.gid g') ∧
        lanesAfter s g g' h (fun l ln => (Results.into (put (v l), [(pd.toNat, holds (v l) (arg g l).toNat)], 0)) ln) ∧
        g'.g = g.g ∧ g'.floor = some s.cur.pc ∧ g'.mask = s.cur.lanes ∧
        (met → g'.backoff = 0 ∧ g'.held = g.held) ∧
        (¬ met → g'.backoff = min (g.backoff + 1) 9 ∧ g'.held = true ∧
          g'.readyAt = max (max g.readyAt (s.clk + max h.stall.toNat 1)) (s.clk + min (16 * 2 ^ (min (g.backoff + 1) 9 - 1)) 4096))) ∧
    (∀ s g, WordReady s g h (.monwait h cmp o sc wide d a b) → Still s g h → active s g h ≠ 0 → ∀ u t, g.team = some u →
      s.team u = some t → inWindow s g →
      (∀ l, (active s g h).getLsbD l = true → ea g l % n = 0 ∧ ea g l - base + n ≤ 1024 * (s.rcd t.task.lrec).blk.scr ∧
        holds (leNat (t.bytes u (ea g l - base) n)) (arg g l).toNat = true) →
      ∃ g', exec (.monwait h cmp o sc wide d a b) s = .next ((numbered s).setGroup s.cur.gid g') ∧
        lanesAfter s g g' h (fun l ln => (Results.into (put (leNat (t.bytes u (ea g l - base) n)), [], 0)) ln) ∧
        g'.g = g.g ∧ g'.backoff = 0 ∧ g'.floor = some s.cur.pc ∧ g'.mask = s.cur.lanes) ∧
    (∀ (w : QWidth) (wait : Bool) (s : State) (g : Group) (l : Nat) (leaf : Leaf) (x : Nat),
      lanesOf (active s g h) = [l] → Still s g h → s.txns = [] → (g.lane l).handler = false →
      (sc = .sys → s.hostQuiet (s.rcd g.launch).ctx 0 = true ∧ s.hostQuiet (s.rcd g.launch).ctx 1 = true) →
      let A := ea g l
      let k := (s.rcd g.launch).ctx
      let bs := match w with
        | .b32 => toLE 4 ((g.lane l).reg d.toNat).toNat
        | .n64 => toLE 8 ((g.lane l).reg64 d.toNat).toNat
        | .b128 => (List.range 4).flatMap fun i => if d = 511#9 then [0, 0, 0, 0] else toLE 4 ((g.lane l).reg (d.toNat + i)).toNat
      let trapped := fun (ln : Lane) (i : Instr) => ∃ g', exec i s = .next ((numbered s).setGroup s.cur.gid g') ∧
        lanesRun s g g' h (fun _ _ => ln) ∧ groupAfter s g g' h
      let asked := fun (op : AccOp) (bs : List Byte) (i : Instr) => WordReady s g h i →
        (A % 4096 ≠ 0 → trapped ((g.lane l).trap 0x25 0 (BitVec.ofNat 64 A)) i) ∧
        (A % 4096 = 0 → 2 ^ 57 ≤ A → trapped ((g.lane l).trap 0x26 0 (BitVec.ofNat 64 A)) i) ∧
        (A % 4096 = 0 → A < windowBase → leaf.w = true → s.tlbAt g.core k A = some leaf →
          s.target k 4096 .store (leaf.phys A) = .ok (.cell, x) →
          ∃ g', lanesRun s g g' h (fun _ ln => ln) ∧ groupAfter s g g' h ∧
            exec i s = .next (({ s with
              next := s.next + 2
              txns := Sparse.set none s.txns (s.next + 1) (some {
                core := g.core, gid := s.cur.gid, ctx := k, launch := g.launch, tgt := .cell, line := x / 128
                parts := [{ lane := l, addr := x, va := A, len := bs.length, op := op, data := bs, level := leaf.level }], scope := sc
                rel := op.writes, wb := op.writes, lvl := if (s.viewOf (leaf.phys A)).isSome then leaf.lvl else 0
                pc := s.cur.pc, word := s.next }) }).setGroup s.cur.gid g'))
      -- the lane's state after its request has been served, its word passed
      let past := fun (ln : Lane) => ln = { (g.lane l) with st := .eligible, park := .none, ready := false, v := ln.v, p := ln.p, pc := (g.lane l).pc + 8 }
      let quiet := memoryOk s ∧ g.resident = true ∧ s.posted = [] ∧ s.peers = [] ∧ s.poison = [] ∧ s.dir = [] ∧ s.mgmt.boot ≠ .notReady ∧ s.next + 1 < 2 ^ 63 ∧
        A % 4096 = 0 ∧ A < windowBase ∧ leaf.w = true ∧ s.tlbAt g.core k A = some leaf ∧ s.target k 4096 .store (leaf.phys A) = .ok (.cell, x)
      asked (.enq w) bs (.enq h w sc d a) ∧ asked (.deq w wait pd d) [] (.deq h w wait sc pd d a) ∧
      -- completion: the requests that these words send, served by the queue engine (R394, R395)
      (WordReady s g h (.enq h w sc d a) → quiet → s.clean g.core k = true → (sc = .sys → (g.lane l).linkLost = false) →
        ∀ hd, s.queueHead x = some hd → hd.size = bs.length → hd.used < hd.cap →
        ∃ t1 t2 t3 t4 g2, exec (.enq h w sc d a) s = .next t1 ∧ exec (.homeRequest (s.next + 1)) t1 = .next t2 ∧
          exec (.homeRequest (s.next + 1)) t2 = .next t3 ∧ exec (.homeRequest (s.next + 1)) t3 = .next t4 ∧
          t2.group s.cur.gid = some g2 ∧ past (g2.lane l) ∧ (g2.lane l).v = (g.lane l).v ∧ (g2.lane l).p = (g.lane l).p ∧ t2.mem = s.mem ∧ t3.mem = s.mem ∧
          t4.cells (x + 64 + hd.size * (hd.tail % hd.cap)) hd.size = bs ∧ t4.cells (x + 12) 4 = toLE 4 ((hd.tail + 1) % 2 ^ 32) ∧
          ∀ y, ¬ (x + 64 + hd.size * (hd.tail % hd.cap) ≤ y ∧ y < x + 64 + hd.size * (hd.tail % hd.cap) + hd.size) →
            ¬ (x + 12 ≤ y ∧ y < x + 16) → t4.cell y = s.cell y) ∧
      (WordReady s g h (.deq h w wait sc pd d a) → quiet → ∀ hd, s.queueHead x = some hd → hd.size = qSize w →
        ∃ t1 t2 g2, exec (.deq h w wait sc pd d a) s = .next t1 ∧ exec (.homeRequest (s.next + 1)) t1 = .next t2 ∧
          t2.group s.cur.gid = some g2 ∧
          (hd.used ≠ 0 → past (g2.lane l) ∧
            (g2.lane l).v = ((g.lane l).setRegs (widthWrites (match w with | .b32 => .b32 | .n64 => .n64 | .b128 => .b128) d.toNat
              (s.cells (x + 64 + hd.size * (hd.head % hd.cap)) hd.size))).v ∧
            (g2.lane l).p = ((g.lane l).setPred pd.toNat true).p ∧ t2.cells (x + 8) 4 = toLE 4 ((hd.head + 1) % 2 ^ 32) ∧
            ∀ y, ¬ (x + 8 ≤ y ∧ y < x + 12) → t2.cell y = s.cell y) ∧
          (hd.used = 0 → wait = false → past (g2.lane l) ∧ (g2.lane l).v = (g.lane l).v ∧
            (g2.lane l).p = ((g.lane l).setPred pd.toNat false).p ∧ t2.mem = s.mem)))

/-- R386, R387, R391, R383, R256: FENCE with its waits done, PREF, the cache controls, and the engine queue registers. -/
def Obligations.FencesCachesAndQueues : Prop :=
  ∀ (h : Hdr) (o : Sys2Proof.Ord) (sc : Scope) (d n : RegIx),
    SeqWord (.fence h o sc) h
      (fun s g => s.txns = [] ∧ s.spawns = [] ∧ s.clean g.core (s.ctxOf g) = true ∧
        (sc = .sys → s.hostQuiet (s.ctxOf g) 0 = true ∧ s.hostQuiet (s.ctxOf g) 1 = true))
      (fun c _ l s => match s.group c.cur.gid with
        | none => (noResults, s)
        | some g =>
          if sc = .sys ∧ (g.lane l).linkLost = true then
            (.traps 0x2B 0 0, s.setGroup c.cur.gid (g.setLane l { g.lane l with linkLost := false }))
          else (noResults, if o = .acq then s
            else s.setGroup c.cur.gid (g.setLane l { g.lane l with relFence := (g.lane l).relFence || sc == .thr || sc == .grp || sc == .team }))) ∧
    (∀ sp lvl onG a off s g, WordReady s g h (.pref h sp lvl onG a off) → Still s g h → (∀ line, s.lineFree none line = true) →
      ∃ (s' : State) (g' : Group), exec (.pref h sp lvl onG a off) s = .next (s'.setGroup s.cur.gid g') ∧
        s' = { numbered s with free := s'.free, quads := s'.quads, dir := s'.dir, ccache := s'.ccache, tlb := s'.tlb, pool := s'.pool,
                               l2 := s'.l2, l2Uses := s'.l2Uses, cur := { s.cur with counted := s'.cur.counted } } ∧
        lanesAfter s g g' h (fun _ ln => ln) ∧ g'.g = g.g ∧ g'.landings = g.landings ∧ groupAfter s g g' h) ∧
    (∀ s g, WordReady s g h (.cctlWb h) → Sparse.wf none s.groups = true → s.clean g.core (s.ctxOf g) = true →
      (∀ gid x, s.group gid = some x → x.core = g.core → (s.rcd x.launch).ctx = s.ctxOf g → x.loc = []) →
      ∃ g', exec (.cctlWb h) s = .next (s.setGroup s.cur.gid g') ∧ lanesAfter s g g' h (fun _ ln => ln) ∧ g'.g = g.g ∧
        groupAfter s g g' h) ∧
    (∀ (inst : Bool) s g, let i := if inst then Instr.cctlIfetch h else Instr.cctlCst h
      WordReady s g h i → active s g h ≠ 0 → Sparse.wf none s.groups = true →
      -- the core's groups of the context, whose instruction buffers are discarded with the lines
      let here := fun (x : Group) => x.core = g.core ∧ x.resident = true ∧ (s.rcd x.launch).ctx = s.ctxOf g
      ∃ (s' : State) (gm g' : Group), exec i s = .next (s'.setGroup s.cur.gid g') ∧ s'.group s.cur.gid = some gm ∧
        lanesAfter s g g' h (fun _ ln => ln) ∧ g'.g = g.g ∧ groupAfter s gm g' h ∧
        (if inst then s' = { s with icache := s'.icache, groups := s'.groups, txns := s'.txns } else s' = { s with ccache := s'.ccache }) ∧
        (∀ gid x, s.group gid = some x → ∃ x', s'.group gid = some x' ∧ x' = { x with fetched := x'.fetched } ∧
          (inst = true → here x → x'.fetched = []) ∧ (inst = false ∨ ¬ here x → x'.fetched = x.fetched)) ∧
        (∀ id t, (id, some t) ∈ s'.txns ↔ (id, some t) ∈ s.txns ∧
          ¬ (inst = true ∧ (∃ x, s.group t.gid = some x ∧ here x) ∧ ∀ q ∈ t.parts, q.lane = 32 ∧ q.op = .fetch)) ∧
        ∀ key v, (key, some v) ∈ (if inst then s'.icache else s'.ccache) ↔
          (key, some v) ∈ (if inst then s.icache else s.ccache) ∧ ¬ (key / 2 ^ 41 = g.core ∧ v.1 = s.ctxOf g)) ∧
    SeqWord (.ldQue h d n) h
      (fun s g => ∀ u t, g.team = some u → s.team u = some t →
        (lanesOf (active s g h)).length ≤ (t.engq n.toNat).result.length ∨ ((t.engq n.toNat).dry = true ∧ (t.engq n.toNat).sink = none))
      (fun _ g _ s => match g.team.bind s.team, g.team with
        | some t, some u => (match (t.engq n.toNat).result with
          | [] => (.traps 0x31 0 0, s)
          | x :: r => (.takes ([(d.toNat, x)], [], 0), s.setTeam u (t.setEngq n.toNat { t.engq n.toNat with result := r })))
        | _, _ => (.traps 0x22 0 0, s)) ∧
    (∃ f, SeqWord (.stQue h d n) h
      (fun s g => ∀ u t, g.team = some u → s.team u = some t →
        (t.engq n.toNat).input.length + (lanesOf (active s g h)).length ≤ 64 ∧ t.entries + (lanesOf (active s g h)).length ≤ 384) f ∧
      ∀ s g l s', (g.team = none → f s g l s' = (.traps 0x22 0 0, s')) ∧
        ∀ u t, g.team = some u → s'.team u = some t → (t.engq n.toNat).source = none →
          f s g l s' = (noResults,
            s'.setTeam u (t.setEngq n.toNat { t.engq n.toNat with input := (t.engq n.toNat).input ++ [(g.lane l).reg d.toNat] })))

/-- R220 to R223, R382, R389: what an atomic leaves at its address, for integers; and the bytes and the value of a typed
element: BPN with its half-step, MXINT8, E4M3 and E5M2 under a block scale, rounded once. LD.typ sends for them. -/
def Obligations.AtomicsAndTypedElements : Prop :=
  (∀ (op : AtomOp) (ty : AtomTy) (old a b : Nat), ty ≠ .f32 → ty ≠ .f64 →
    let w := if ty.wide then 64 else 32
    let sg := ty = .s32 ∨ ty = .s64
    old < 2 ^ w → a < 2 ^ w → b < 2 ^ w →
    let less := fun (x y : Nat) => if sg then (if x < 2 ^ (w - 1) then (x : Int) else x - 2 ^ w) < (if y < 2 ^ (w - 1) then (y : Int) else y - 2 ^ w)
      else x < y
    atomNew op ty old a b = match op with
      | .add => some ((old + a) % 2 ^ w)
      | .min => some (if less a old then a else old)
      | .max => some (if less old a then a else old)
      | .and => some (old &&& a)
      | .or => some (old ||| a)
      | .xor => some (old ^^^ a)
      | .exch => some a
      | .cas => if old = a then some b else none
      | .inc => some (if a ≤ old then 0 else old + 1)
      | .dec => some (if old = 0 ∨ a < old then a else old - 1)) ∧
  (∀ (n k : Nat) (x : BitVec 8), 1 ≤ k → k ≤ n → n ≤ 8 →
    -- x is an n-bit integer; its first k planes are its leading bits
    let v : Int := if (x.toNat % 2 ^ n) < 2 ^ (n - 1) then (x.toNat % 2 ^ n : Nat) else (x.toNat % 2 ^ n : Nat) - 2 ^ n
    bpnVal (x.toNat % 2 ^ n / 2 ^ (n - k)) n k = if n = k then v else v / 2 ^ (n - k) * 2 ^ (n - k) + 2 ^ (n - k - 1)) ∧
  (∀ (f32 : Bool) (fmt : Nat) (x : Int) (scale : Option Nat), 1 ≤ fmt → fmt ≤ 4 → (∀ e, scale = some e → e < 256) →
    let D := if f32 then fmt32 else fmtB16
    let E : Int := match scale with | some e => e - 127 | none => 0
    let el := (if fmt = 3 then fmtE4 else fmtE5).decode (x.toNat % 256)
    let out := decodeTyped D fmt x scale
    (scale = some 255 → out = (D.nanBits, 0x10#5)) ∧
    (scale ≠ some 255 →
      (fmt = 1 → Stands D 0 ((x : ℝ) * (2 : ℝ) ^ E) false out) ∧
      (fmt = 2 → Stands D 0 ((x : ℝ) / 64 * (2 : ℝ) ^ E) false out) ∧
      (3 ≤ fmt →
        (el.isNan = true → out = (D.nanBits, if el.isSig then 0x10#5 else 0)) ∧
        (∀ n, el = .inf n → out = ((if n then 2 ^ (D.w - 1) else 0) + D.infBits, 0)) ∧
        ∀ n m e, el = .fin n m e → Stands D 0 (realOf el * (2 : ℝ) ^ E) n out))) ∧
  (∀ (h : Hdr) (f32 : Bool) (hint : Hint) (onG : Bool) (k : BitVec 3) (d a : RegIx) (off : BitVec 9) (s : State) (g : Group)
    (l : Nat) (leaf : Leaf) (x : Nat),
    lanesOf (active s g h) = [l] → Still s g h → s.txns = [] → (g.lane l).handler = false →
    let i := Instr.ldTyp h f32 hint onG k d a off
    WordReady s g h i →
    let ea := ((if onG then g.gr64 a.toNat else (g.lane l).reg64 a.toNat) + off.signExtend 64).toNat
    let cx := (s.rcd g.launch).ctx
    let sub := leaf.phys (ea / 65536 * 65536)
    let trapped := fun (s1 : State) (code : Nat) => ∃ g', exec i s = .next (s1.setGroup s.cur.gid g') ∧
      lanesRun s g g' h (fun _ ln => ln.trap code 0 (BitVec.ofNat 64 ea)) ∧ groupAfter s g g' h
    (windowBase ≤ ea → trapped (numbered s) 0x26) ∧
    (ea < windowBase → s.tlbAt g.core cx ea = some leaf → s.target cx 1 .load (leaf.phys ea) = .ok (.cell, x) →
      let s1 := numbered s
      let n := ea % 65536
      let limit := if leaf.blk = 0 then 65536 else 61440
      (leaf.fmt = 0 → trapped s1 0x2D) ∧
      (leaf.fmt = 1 → leaf.pl < k.toNat + 1 → trapped s1 0x2E) ∧
      (leaf.fmt = 1 → k.toNat + 1 ≤ leaf.pl → limit / (16 * leaf.pl) ≤ n / 128 → trapped s1 0x2F) ∧
      (2 ≤ leaf.fmt → limit ≤ n → trapped s1 0x2F) ∧
      (∀ bs sc, typedBytes leaf.fmt leaf.pl leaf.blk (k.toNat + 1) n = .ok (bs, sc) →
        ∃ g' line, lanesAfter s g g' h (fun _ ln => ln) ∧ g'.g = g.g ∧ groupAfter s g g' h ∧
          exec i s = .next (({ s1 with
            next := s.next + 2
            txns := Sparse.set none s.txns (s.next + 1) (some {
              core := g.core, gid := s.cur.gid, ctx := cx, launch := g.launch, tgt := .cell, line := line
              parts := [{ lane := l, addr := sub, va := ea, len := 1, op := .typed (k.toNat + 1) leaf.pl f32 leaf.fmt leaf.blk n d, level := leaf.level }]
              lvl := if (s.viewOf (leaf.phys ea)).isSome then leaf.lvl else 0, evp := if hint == Sys2Proof.Hint.ef then 0 else leaf.evp
              pc := s.cur.pc, word := s.next }) }).setGroup s.cur.gid g')) ∧
      -- completion: served at the homes of its bytes, the word gives the element's value
      (∀ bs sc, typedBytes leaf.fmt leaf.pl leaf.blk (k.toNat + 1) n = .ok (bs, sc) →
        (∀ o ∈ sc.toList ++ bs, (s.viewOf (sub + o)).isSome = true) → s.poison = [] → s.dir = [] → s.mgmt.boot ≠ .notReady → s.dirty = [] → s.posted = [] → s.peers = [] →
        s.next + 1 < 2 ^ 63 → g.resident = true → (g.lane l).st = .eligible →
        let B := fun (o : Nat) => match s.viewOf (sub + o) with | some v => s.cell v.2.2 | none => 0
        let out := decodeTyped (if f32 then fmt32 else fmtB16) leaf.fmt (typedElement leaf.fmt leaf.pl (k.toNat + 1) n (bs.map B))
          (sc.map fun o => (B o).toNat)
        ∃ t1 t2 g2, exec i s = .next t1 ∧ exec (.homeRequest (s.next + 1)) t1 = .next t2 ∧ t2.group s.cur.gid = some g2 ∧
          g2.lane l = { (g.lane l).setReg d.toNat (BitVec.ofNat 32 out.1) with
            flags := (g.lane l).flags ||| out.2, pc := s.cur.pc + BitVec.ofNat 64 s.cur.len } ∧
          t2.txns = [] ∧ t2.mem = s.mem)))

/-! ### Barriers, convergence registers and engine commands (files 11, 12, 17, 18) -/

/-- R243 to R246, R397, R398: the transaction barrier words. Lanes act in ascending order, the barrier is evaluated after each
event, and its 16 bytes hold its fields as the rule lays them out. -/
def Obligations.TransactionBarriers : Prop :=
  (∀ (h : Hdr) (clu onG : Bool) (d a : RegIx) (n : Kind),
    let ea := fun (g : Group) (l : Nat) => (if onG then g.gr a.toNat else (g.lane l).reg a.toNat).toNat
    let v := fun (g : Group) (l : Nat) => (envOf false g l).kind n
    let at' := fun (g : Group) (l : Nat) (s : State) (k : Nat → Nat → Does × State) =>
      match scratchAt s g clu (ea g l) 16 16 0 (ea g l) with
      | .error e => (e, s)
      | .ok (u, x) => k u x
    let bad : Does := .traps 0x22 0 0
    SeqWord (.tbinit h clu onG a n) h (fun _ _ => True) (fun _ g l s => at' g l s fun u x =>
      if 4096 < (v g l).toNat then (bad, s)
      else (noResults, (s.setBar u x { narr := (v g l).toNat, arrv := (v g l).toNat }).detach u x)) ∧
    SeqWord (.tbarr h clu onG a) h (fun _ _ => True) (fun _ g l s => at' g l s fun u x =>
      if (s.bar u x).arrv = 0 then (bad, s) else (noResults, s.barEvent u x fun b => { b with arrv := b.arrv - 1, ev := true })) ∧
    SeqWord (.tbexp h clu onG a n) h (fun _ _ => True) (fun _ g l s => at' g l s fun u x =>
      if 2 ^ 31 ≤ (v g l).toNat ∨ 2 ^ 31 - 1 < (s.bar u x).pend + ((v g l).toNat : Int) then (bad, s)
      else (noResults, s.barEvent u x fun b => { b with pend := b.pend + ((v g l).toNat : Int) })) ∧
    SeqWord (.tbwait h clu onG a n) h (fun _ _ => True) (fun _ g l s => at' g l s fun u x =>
      if (s.bar u x).phase = (v g l).getLsbD 0 then (.parks (.barrier u x ((v g l).getLsbD 0)), s) else (noResults, s)) ∧
    SeqWord (.tbstat h clu onG d a) h (fun _ _ => True) (fun _ g l s => at' g l s fun u x =>
      (.takes ([(d.toNat, BitVec.ofNat 32 ((s.bar u x).stat + if (s.bar u x).phase then 65536 else 0))], [], 0), s)) ∧
    -- completion, for one active lane whose barrier allows it
    ∀ (s : State) (g : Group) (l u x : Nat), lanesOf (active s g h) = [l] → Still s g h →
      scratchAt s g clu (ea g l) 16 16 0 (ea g l) = .ok (u, x) →
      let b := s.bar u x
      let k := (v g l).toNat
      let s1 := numbered s
      let takes := fun (i : Instr) (r : Results) (t : State) => WordReady s g h i → LaneTakes s h l i r t
      (k ≤ 4096 → takes (.tbinit h clu onG a n) ([], [], 0) ((s1.setBar u x { narr := k, arrv := k }).detach u x)) ∧
      (b.arrv ≠ 0 → takes (.tbarr h clu onG a) ([], [], 0) (s1.barEvent u x fun b => { b with arrv := b.arrv - 1, ev := true })) ∧
      (k < 2 ^ 31 → b.pend + (k : Int) ≤ 2 ^ 31 - 1 →
        takes (.tbexp h clu onG a n) ([], [], 0) (s1.barEvent u x fun b => { b with pend := b.pend + (k : Int) })) ∧
      (b.phase ≠ (v g l).getLsbD 0 → takes (.tbwait h clu onG a n) ([], [], 0) s1) ∧
      takes (.tbstat h clu onG d a) ([(d.toNat, BitVec.ofNat 32 (b.stat + if b.phase then 65536 else 0))], [], 0) s1) ∧
  (∀ b : Bar,
    let fl := fun (st : Nat) =>
      ({ b with stat := b.run ||| st, run := 0, pend := 0, arrv := b.narr, bound := 0, cdone := false, ev := false, phase := !b.phase }, true)
    b.eval = if b.arrv ≠ 0 ∨ b.ev = false then (b, false)
      else if b.pend < 0 then fl 1
      else if b.bound = 0 ∧ b.pend = 0 then fl 0
      else if b.bound = 0 ∧ b.cdone = true then fl 2
      else (b, false)) ∧
  (∀ b : Bar, -2 ^ 31 ≤ b.pend → b.pend < 2 ^ 31 → b.arrv < 2 ^ 16 → b.bound < 2 ^ 16 → b.run < 2 ^ 16 → b.stat < 2 ^ 16 → b.narr < 2 ^ 16 →
    b.bytes.length = 16 ∧ Bar.ofBytes b.bytes = b) ∧
  (∀ (s : State) (u x : Nat) (t : Team) (b : Bar), s.team u = some t → s.txns = [] → Sparse.wf none s.groups = true →
    (∃ t', (s.setBar u x b).team u = some t' ∧ ∀ y, t'.byte u y = if x ≤ y ∧ y < x + b.bytes.length then b.bytes.getD (y - x) 0 else t.byte u y) ∧
    ∀ gid g l par, s.group gid = some g → l < 32 → (g.lane l).st = .parked → (g.lane l).park = .barrier u x par →
      ∃ g', (s.setBar u x b).group gid = some g' ∧ (g'.lane l).ready = ((g.lane l).ready || b.phase != par))

/-- R399 to R401: convergence registers and cluster barriers. Each signing lane, in ascending order, reads the phase and signs;
a complete set becomes idle and flips its phase, and frees its waiters together, those that signed in the same word among them. -/
def Obligations.ConvergenceBarriers : Prop :=
  let passed := fun (ln : Lane) => { ln with st := .eligible, park := .none, ready := false, pc := ln.pc + 8 }
  -- lanes whose phase has ended when the word ends go on with the others
  let together := fun (h : Hdr) (s : State) (g : Group) (s1 : State) (ln : Lane) =>
    let ended : Bool := match ln.park with
      | .signed k par => (g.team.bind s1.team).any fun t => (Sparse.get ({} : Conv) t.x k).kind != 2 && (Sparse.get ({} : Conv) t.x k).phase != par
      | .barcl key par => (Sparse.get ({} : Conv) (s1.rcd g.launch).barcl key).phase != par
      | _ => false
    if active s g h ≠ 0 ∧ ln.st = .parked ∧ ended = true then passed ln else ln
  (∀ (h : Hdr) (d x : RegIx) (n : Kind),
    let v := fun (g : Group) (l : Nat) => ((envOf false g l).kind n).toNat
    let bad : Does := .traps 0x22 0 0
    let k := x.toNat
    let signed := fun (g : Group) (l gid : Nat) (s : State) (done : Bool → State → Does × State) =>
      match g.team.bind s.team, g.team with
      | some t, some u =>
        let c := Sparse.get {} t.x k
        if c.kind = 2 ∨ 4096 < v g l ∨ (c.kind = 1 ∧ c.n ≠ v g l) then (bad, s)
        else
          let me := gid * 32 + l
          let c1 : Conv := { c with kind := 1, n := if c.kind = 0 then v g l else c.n, sigs := c.sigs + 1
                                    signers := if me ∈ c.signers then c.signers else c.signers ++ [me] }
          let s1 := s.setTeam u { t with x := Sparse.set {} t.x k c1 }
          let full := if c1.n = 0 then ∀ th ∈ threadsOf (s.rcd t.task.lrec).blk.prot (s.teamGroups u), th ∈ c1.signers else c1.sigs = c1.n
          let free := fun (g : Group) (p : Park) => g.team == some u && (p == .xset k c.phase || p == .signed k c.phase)
          done c.phase (if full then (s.setTeam u { t with x := Sparse.set {} t.x k { phase := !c.phase } }).freeWhere free else s1)
      | _, _ => (bad, s)
    let phase := fun (g : Group) (s : State) => (g.team.bind s.team).map fun t => (Sparse.get ({} : Conv) t.x k).phase
    SeqWord (.xsign h d x n) h (fun s _ => s.txns = []) (fun s0 g l s => signed g l s0.cur.gid s fun ph s =>
      (.takes ([(d.toNat, if ph then 1 else 0)], [], 0), s)) ∧
    SeqEnd (.bartm h x n) h (fun s _ => s.txns = []) (fun s0 g l s => signed g l s0.cur.gid s fun ph s =>
      if phase g s = some ph then (.parks (.signed k ph), s) else (noResults, s)) (together h) ∧
    SeqWord (.xwait h x n) h (fun _ _ => True) (fun _ g l s =>
      match g.team.bind s.team with
      | none => (bad, s)
      | some t =>
        let c := Sparse.get ({} : Conv) t.x k
        let par := ((envOf false g l).kind n).getLsbD 0
        if c.kind = 2 then (bad, s) else if c.phase = par then (.parks (.xset k par), s) else (noResults, s))) ∧
  (∀ (h : Hdr) (b : RegIx) (n : Kind),
    SeqEnd (.barcl h b n) h (fun s g => s.txns = [] ∧ s.clean g.core (s.ctxOf g) = true) (fun s0 g l s =>
      match g.team.bind s.team with
      | none => (.traps 0x22 0 0, s)
      | some t =>
        let v := ((envOf false g l).kind n).toNat
        let r := t.task.lrec
        let key := (t.task.stg * 2 ^ 32 + (s.rcd r).blk.cluster t.task) * 4 + b.toNat
        let c := Sparse.get ({} : Conv) (s.rcd r).barcl key
        if 49152 < v ∨ (c.kind = 1 ∧ c.n ≠ v) then (.traps 0x22 0 0, s)
        else
          let me := s0.cur.gid * 32 + l
          let c1 : Conv := { c with kind := 1, n := if c.kind = 0 then v else c.n, sigs := c.sigs + 1
                                    signers := if me ∈ c.signers then c.signers else c.signers ++ [me] }
          let s1 := (s.setRec r { s.rcd r with barcl := Sparse.set {} (s.rcd r).barcl key c1 }).testBarcl r key
          if (Sparse.get ({} : Conv) (s1.rcd r).barcl key).phase = c.phase then (.parks (.barcl key c.phase), s1) else (noResults, s1)) (together h)) ∧
  ∀ (s : State) (r key : Nat), Sparse.wf none s.groups = true →
    let c := Sparse.get ({} : Conv) (s.rcd r).barcl key
    let full := if c.n = 0 then ∃ all, s.clusterThreads r key = some all ∧ ∀ th ∈ all, th ∈ c.signers else c.sigs = c.n
    (¬ (c.kind = 1 ∧ full) → s.testBarcl r key = s) ∧
    (c.kind = 1 → full →
      (∀ j, Sparse.get ({} : Conv) ((s.testBarcl r key).rcd r).barcl j = if j = key then { phase := !c.phase } else Sparse.get {} (s.rcd r).barcl j) ∧
      ∀ gid g l, s.group gid = some g → g.launch = r → l < 32 → (g.lane l).st = .parked → (g.lane l).park = .barcl key c.phase →
        ∃ g', (s.testBarcl r key).group gid = some g' ∧ g'.lane l = if g.resident then passed (g.lane l) else { g.lane l with ready := true })

/-- R236, R239, R247, R402 to R404, R455: the copy commands of an engine with room: the checks of their operands in the order of the rule,
then the copy that joins the engine, behind the stores that happen before it, a tensor copy with its record as it stands at the issue
(R236); a lane for which no room is left parks. CPCOMMIT and CPWAIT: the lane's open batch closes under the next mark if it holds a copy, and a
wait parks until its batches are done. -/
def Obligations.CopyCommands : Prop :=
  (
  ∀ (h : Hdr) (onG clu : Bool) (bar st a b c pat m blk o4 : RegIx),
    let W := fun (g : Group) (l : Nat) (r : RegIx) => (envOf false g l).a32 onG r
    let D := fun (g : Group) (l : Nat) (r : RegIx) => ((envOf false g l).a64 onG r).toNat
    let run := fun (g : Group) (l : Nat) (r : RegIx) (i : Nat) => (envOf false g l).run onG r i
    let len := fun (n : Nat) => n = 0 ∨ n % 16 ≠ 0
    let bad : Does := .traps 0x22 0 0
    -- copy `id` joins its engine in state s
    let put := fun (quad : Bool) (gid : Nat) (g : Group) (l id : Nat) (kind : CopyKind) (team : Nat) (bar : Option (Nat × Nat))
        (stamp : Option (Nat × Word)) (deps : List Nat) (snap : Option (List Byte)) (s : State) =>
      let op : Copy := { quad := if quad then some (g.core / 48) else none, core := g.core, ctx := s.ctxOf g, launch := g.launch
                         gid := gid, lane := l, batch := 65536, team := team, owner := g.team.getD 0, kind := kind
                         barTeam := (bar.getD (0, 0)).1, bar := bar.map (·.2), bound := bar.isSome, stamp := stamp, deps := deps, snap := snap }
      let s1 := { s with copies := Sparse.set none s.copies id (some op) }
      let s2 := match bar with
        | some q => s1.barEvent q.1 q.2 fun b => { b with bound := b.bound + 1 }
        | none => s1
      (noResults, s2.onLane gid l fun ln => { ln with openBatch := true })
    let issue := fun (quad : Bool) (gid : Nat) (g : Group) (l : Nat) (kind : CopyKind) (team : Nat) (bar : Option (Nat × Nat))
        (stamp : Option (Nat × Word)) (s : State) =>
      let s0 : State := { s with next := s.next + 1 }
      put quad gid g l s.next kind team bar stamp (s0.issueDeps gid l) none s0
    let engine := fun (quad : Bool) (g : Group) => if quad then Sys2Proof.Engine.quadCopy (g.core / 48) else .coreCopy g.core
    let word := fun (quad : Bool) (i : Instr) (f : State → Group → Nat → State → Does × State) =>
      SeqWord i h (fun s g => s.hasRoom (engine quad g) = true) fun s0 g l s =>
        let e := engine quad g
        -- the lanes released for room before this one keep their places
        let replayed := fun (s : State) => { s with wokenRooms := s.wokenRooms.filter fun p => !(s.oneEngine p.1 e && p.2 == (s0.cur.gid, l)) }
        let r := f s0 g l s
        if s.roomFor e s0.cur.gid l = false then (.parks (.room e), { replayed s with cur := { s.cur with full := some e } })
        else if r.1 = .stays then r
        else (r.1, replayed r.2)
    let high := fun (vs : List Nat) (s : State) (k : Does × State) => match vs.find? fun v => decide (2 ^ 57 ≤ v) with
      | some v => (Does.traps 0x26 0 (BitVec.ofNat 64 v), s)
      | none => k
    let range := fun (g : Group) (off n : Nat) (s : State) (k : Nat × Nat → Does × State) =>
      match scratchAt s g clu off n 1 0 off with
      | .error e => (e, s)
      | .ok d => k d
    word false (.cpr h onG clu bar a b c) (fun s0 g l s =>
      let src := D g l a
      let dst := (W g l b).toNat
      let n := (W g l c).toNat
      let q := (W g l bar).toNat
      if g.team = none ∨ len n ∨ src % 16 ≠ 0 ∨ dst % 16 ≠ 0 ∨ q % 16 ≠ 0 then (bad, s)
      else high [src] s <| range g dst n s fun d => range g q 16 s fun q =>
        issue false s0.cur.gid g l (.lin false true d.2 src n) d.1 (some q) none s) ∧
    word false (.cpfill h onG clu bar a pat c) (fun s0 g l s =>
      let dst := (W g l a).toNat
      let n := (W g l c).toNat
      let q := (W g l bar).toNat
      if g.team = none ∨ len n ∨ dst % 16 ≠ 0 ∨ q % 16 ≠ 0 then (bad, s)
      else range g dst n s fun d => range g q 16 s fun q =>
        issue false s0.cur.gid g l (.fill false d.2 n (W g l pat)) d.1 (some q) none s) ∧
    word false (.cps h onG clu st a b c) (fun s0 g l s =>
      let dst := D g l a
      let src := (W g l b).toNat
      let n := (run g l c 0).toNat
      if g.team = none ∨ len n ∨ dst % 16 ≠ 0 ∨ src % 16 ≠ 0 ∨ D g l st % 8 ≠ 0 then (bad, s)
      else high [dst, D g l st] s <| range g src n s fun d =>
        issue false s0.cur.gid g l (.lin true false dst d.2 n) d.1 none (some (D g l st, run g l c 1)) s) ∧
    word true (.cpg h onG st a b c) (fun s0 g l s =>
      let dst := D g l a
      let src := D g l b
      let n := (run g l c 0).toNat
      if len n ∨ dst % 16 ≠ 0 ∨ src % 16 ≠ 0 ∨ D g l st % 8 ≠ 0 then (bad, s)
      else high [dst, src, D g l st] s <|
        issue true s0.cur.gid g l (.lin true true dst src n) 0 none (some (D g l st, run g l c 1)) s) ∧
    word true (.cpfillMem h onG st a pat c) (fun s0 g l s =>
      let dst := D g l a
      let n := (run g l c 0).toNat
      if len n ∨ dst % 16 ≠ 0 ∨ D g l st % 8 ≠ 0 then (bad, s)
      else high [dst, D g l st] s <|
        issue true s0.cur.gid g l (.fill true dst n (W g l pat)) 0 none (some (D g l st, run g l c 1)) s) ∧
    (let base := fun g l => (run g l m 1 ++ run g l m 0 : DWord).toNat
     let rec' := fun g l => (run g l blk 1 ++ run g l blk 0 : DWord).toNat
     let scr := fun g l => (run g l blk 2).toNat
     let org := fun g l => [(run g l blk 4).toInt, (run g l blk 5).toInt, (run g l blk 6).toInt, (run g l blk 7).toInt, (W g l o4).toInt]
     let op := fun g l load x => CopyKind.tensor load (rec' g l) none (base g l) (run g l m 2).toNat (run g l m 3).toNat (org g l) x
     -- a tensor copy reads its record at the issue, and then issues as `tensor` says
     ∃ tensor : Bool → State → Group → Nat → Nat × Nat → Option (Nat × Nat) → Option (Nat × Word) → State → Does × State,
     word false (.cptLd h onG clu m blk o4) (fun s0 g l s =>
       let q := (run g l blk 3).toNat
       if g.team = none ∨ base g l % 16 ≠ 0 ∨ rec' g l % 64 ≠ 0 ∨ scr g l % 16 ≠ 0 ∨ q % 16 ≠ 0 then (bad, s)
       else high [base g l, rec' g l] s <| range g (scr g l) 16 s fun d => range g q 16 s fun q => tensor true s0 g l d (some q) none s) ∧
     word false (.cptSt h onG clu st m blk o4) (fun s0 g l s =>
       if g.team = none ∨ base g l % 16 ≠ 0 ∨ rec' g l % 64 ≠ 0 ∨ scr g l % 16 ≠ 0 ∨ D g l st % 8 ≠ 0 then (bad, s)
       else high [base g l, rec' g l, D g l st] s <| range g (scr g l) 16 s fun d =>
         tensor false s0 g l d none (some (D g l st, run g l blk 3)) s) ∧
     ∀ (load : Bool) (s0 : State) (g : Group) (l : Nat) (d : Nat × Nat) (bar : Option (Nat × Nat)) (stamp : Option (Nat × Word)) (s : State) (leaf : Leaf),
       let R := rec' g l
       let s1 : State := { s with next := s.next + 1 }
       let deps := s1.issueDeps s0.cur.gid l
       let go := put false s0.cur.gid g l s.next (op g l load d.2) d.1 bar stamp deps
       let eng : Eng := { id := s.next, agent := g.core, core := g.core, ctx := s.ctxOf g, launch := g.launch, src := srcCore g.core }
       let res := tensor load s0 g l d bar stamp s
       R < windowBase → s.tlbAt g.core (s.ctxOf g) R = some leaf →
       -- a record that cannot be read is the engine's to find
       (∀ c, s.target (s.ctxOf g) 64 .load (leaf.phys R) = .error c → res = go none s1) ∧
       (∀ a, s.target (s.ctxOf g) 64 .load (leaf.phys R) = .ok (.cell, a) →
         -- it waits for the stores that the issue releases
         (s1.depsTouch deps .cell a 64 = true → res = (.stays, { s1 with engBuf := Sparse.set [] s1.engBuf s.next [] })) ∧
         (∀ bs p s2, s1.depsTouch deps .cell a 64 = false → s1.engReads eng (sectorPieces R 64) = (.ok bs p, s2) →
           let T := Tlr.ofBytes bs
           res = match (if T.ok load bs then scratchAt s2 g clu (scr g l) T.bytes 1 0 (scr g l) else .ok d) with
             | .error e => (e, { s2 with engBuf := Sparse.set [] s2.engBuf s.next [] })
             | .ok _ => go (some bs) s2)))) ∧
  (
  (∀ (h : Hdr) (d : RegIx) (n : Kind),
    let calm := fun (s : State) (g : Group) => ∀ l, (active s g h).getLsbD l = true →
      s.openPending s.cur.gid l = false ∨ (s.batches s.cur.gid l).length < 16
    let v := fun (g : Group) (l : Nat) => ((envOf false g l).kind n).toNat
    SeqWord (.cpcommit h d) h calm (fun s0 _ l s =>
      let s := s.closeBatch s0.cur.gid l
      (match s.group s0.cur.gid with
        | some g => .takes ([(d.toNat, (g.lane l).mark.zeroExtend 32)], [], 0)
        | none => noResults, s)) ∧
    SeqWord (.cpwait h n) h calm (fun s0 g l s =>
      if 15 < v g l then (.traps 0x22 0 0, s)
      else
        let s := s.closeBatch s0.cur.gid l
        (if (s.batches s0.cur.gid l).length ≤ v g l then noResults else .parks (.batch (v g l)), s)) ∧
    SeqWord (.cpwaitUpto h n) h calm (fun s0 g l s =>
      let s := s.closeBatch s0.cur.gid l
      let B := v g l % 65536
      (if ∀ m ∈ s.batches s0.cur.gid l, 32768 ≤ (B + 65536 - m) % 65536 then noResults else .parks (.upto B), s))) ∧
  ∀ (s : State) (gid l : Nat) (g : Group), s.group gid = some g → (s.rcd g.launch).blk.prot = false → Sparse.wf none s.copies = true →
    let t := s.closeBatch gid l
    ((g.lane l).openBatch = false → t = s) ∧
    ((g.lane l).openBatch = true →
      t.group gid = some (g.setLane l { g.lane l with mark := (g.lane l).mark + 1, openBatch := false }) ∧
      (∀ id, t.copy id = (s.copy id).map fun (c : Copy) =>
        if c.gid = gid ∧ c.lane = l ∧ c.batch = 65536 then { c with batch := ((g.lane l).mark + 1).toNat } else c) ∧
      t = { s with groups := t.groups, copies := t.copies }))

/-- R237, R240, R244: one landing of a copy to a scratchpad, and the completion of a copy. A landing writes 16 bytes, sets the
granule's full bit and counts on the barrier that the copy is bound to; a completion takes the copy off its engine and completes
it on its barrier, or writes its stamp after the payload is visible. -/
def Obligations.CopyLandingsAndCompletions : Prop :=
  ∀ (s : State) (id : Nat) (c : Copy), s.copy id = some c → s.copyHeld c = false → s.copyGoes c = true → c.report = none →
    let eng := c.eng id
    (∀ (off : Nat) (p : Piece) (s1 : State) (t : Team),
      c.failed = false → (∀ d ∈ c.deps, s.txn d = none) → c.landed = false →
      (match c.kind with
        | .fill false dst _ x => off = dst + 16 * c.pos ∧ s1 = s ∧ p = { bs := (List.range 4).flatMap fun _ => toLE 4 x.toNat }
        | .lin false _ dst src _ => off = dst + 16 * c.pos ∧ ∃ bs q, s.engRead eng (src + 16 * c.pos) 16 = (.ok bs q, s1) ∧
            p = { bs := if q then List.replicate 16 0 else bs, poison := q }
        | .tensor true _ (some body) base e0 e1 org scr =>
            let b := boxOf body base e0 e1 org
            let o := 16 * c.pos
            off = scr + (if b.t.swz = 0 then o else o ^^^ (o / 128 % 2 ^ b.t.swz * 16)) ∧
              s.boxElems eng b (c.pos * (16 / b.t.size)) (16 / b.t.size) = (.ok p, s1)
        | _ => False) →
      s1.copy id = some c → s1.team c.team = some t → s1.txns = [] → off + 16 ≤ 1024 * (s1.rcd t.task.lrec).blk.scr → off % 16 = 0 →
      p.bs.length = 16 →
      ∃ s2, exec (.copyLanding id) s = .next (match c.bar with
          | some o => if c.bound then s2.barEvent c.barTeam o fun b => { b with pend := b.pend - 16 } else s2
          | none => s2) ∧
        (∃ c', s2.copy id = some c' ∧ c' = { c with pos := c.pos + 1, status := c'.status } ∧
          (p.flags = 0 → p.exc = 0 → p.poison = false → c.status < 65536 → c'.status = c.status)) ∧
        (∃ t', s2.team c.team = some t' ∧
          (∀ y, t'.byte c.team y = if off ≤ y ∧ y < off + 16 then p.bs.getD (y - off) 0 else t.byte c.team y) ∧
          ∀ k, Sparse.get false t'.full k = if k = off / 16 then true else Sparse.get false t.full k) ∧
        s2.mem = s1.mem ∧ ∀ u, u ≠ c.team → s2.team u = s1.team u) ∧
    (c.landed = true →
      let gone := fun (s : State) =>
        (({ s with copies := Sparse.set none s.copies id none, engBuf := Sparse.set [] s.engBuf id [] }).wakeBatches c.gid c.lane).freeRoom
          (match c.quad with | some q => .quadCopy q | none => .coreCopy c.core)
      (c.stamp = none → exec (.copyCompletion id) s = .next (match c.bar with
        | some o => if c.bound then (gone s).barEvent c.barTeam o fun b =>
            { b with bound := b.bound - 1, cdone := true, ev := true
                     run := gatherRun b.run (c.status ||| if c.failed then 4 else 0) } else gone s
        | none => gone s)) ∧
      (∀ va tag bs s1 q, c.stamp = some (va, tag) → s.engSettled id = true →
        s.engWrite eng va (toLE 4 tag.toNat ++ [if c.failed then 1#8 else 0#8] ++ [0, 0, 0]) false true = (.ok bs q, s1) →
        exec (.copyCompletion id) s = .next (gone s1)))

/-- R407 to R411, R249, R455: the matrix words, with room in the engine or with lanes that park for it. MXCFG configures a set; a signature is checked, fixes or repeats the operands, and
the last one of the set queues the operation and binds it to its barrier; the tile words and MXSEL24 queue one operation per
lane; MXSTAT reads the status granule. -/
def Obligations.MatrixWords : Prop :=
  ∀ (h : Hdr) (onG : Bool) (x a b c d : RegIx) (n : Kind),
    let V := fun (g : Group) (l : Nat) (r : RegIx) => ((envOf false g l).a32 onG r).toNat
    let o := fun (g : Group) (l i : Nat) => ((envOf false g l).run onG b i).toNat
    let bad : Does := .traps 0x22 0 0
    let mine := fun (g : Group) (s : State) (k : Nat → Team → Does × State) => match g.team.bind s.team, g.team with
      | some t, some u => k u t
      | _, _ => (bad, s)
    let scr := fun (s : State) (t : Team) => 1024 * (s.rcd t.task.lrec).blk.scr
    let tiles := fun (s : State) (t : Team) => (s.rcd t.task.lrec).blk.acc / 4
    let room := fun (s : State) (g : Group) => ∀ u, g.team = some u → s.hasRoom (.matrix u) = true
    let checked := fun (s : State) (t : Team) (os : List (Nat × Nat × Nat)) (k : Does × State) =>
      match os.find? fun x => x.1 % x.2.1 ≠ 0 with
      | some x => (Does.traps 0x25 0 (BitVec.ofNat 64 x.1), s)
      | none => match os.find? fun x => scr s t < x.1 + x.2.2 with
        | some x => (Does.traps 0x27 0 (BitVec.ofNat 64 x.1), s)
        | none => k
    let queue := fun (s : State) (u : Nat) (t : Team) (kind : MxKind) (bar : Nat) =>
      let s1 : State := { s with next := s.next + 1
                                 mx := Sparse.set [] s.mx t.core (Sparse.get [] s.mx t.core ++
                                   [({ id := s.next, team := u, kind := kind, bar := bar } : MxOp)]) }
      (noResults, s1.barEvent u bar fun b => { b with bound := b.bound + 1 })
    let set := fun (t : Team) (cv : Conv) => { t with x := Sparse.set {} t.x x.toNat cv }
    let conv := fun (t : Team) => Sparse.get ({} : Conv) t.x x.toNat
    (∀ mode : MxMode, SeqWord (.mxcfg h mode x n) h (fun _ _ => True) (fun _ g l s => mine g s fun u t =>
      let v := ((envOf false g l).kind n).toNat
      if (conv t).kind = 1 ∨ ((conv t).kind = 2 ∧ (conv t).sigs ≠ 0) ∨ v < 1 ∨ 4096 < v then (bad, s)
      else (noResults, s.setTeam u (set t { conv t with
        kind := 2, mode := (match mode with | .bf16 => 0 | .s8 => 1 | .sp24 => 2), n := v, sigs := 0, signers := [], ops := none })))) ∧
    SeqWord (.mxmul h onG x b) h room (fun s0 g l s => mine g s fun u t =>
      let cv := conv t
      let o := o g l
      let K := o 3
      let chunk := if cv.mode = 0 then 32 else 64
      let ops := [o 0, o 1, if cv.mode = 2 then o 2 else 0, K, o 4, o 5]
      let sizes := if cv.mode = 0 then (256 * K, 256 * K) else if cv.mode = 1 then (128 * K, 128 * K) else (128 * K, 256 * K)
      -- the last signature of the set needs room
      let room := fun (k : State → Does × State) =>
        if cv.kind = 2 ∧ cv.n ≤ cv.sigs + 1 then withRoom s0 (.matrix u) l k s
        else k { s with wokenRooms := s.wokenRooms.filter fun p => !(s.oneEngine p.1 (.matrix u) && p.2 == (s0.cur.gid, l)) }
      room fun s =>
      if cv.kind ≠ 2 ∨ K < chunk ∨ 2048 < K ∨ K % chunk ≠ 0 ∨ tiles s t ≤ o 4 then (bad, s)
      else checked s t ([(o 0, 128, sizes.1), (o 1, 128, sizes.2)] ++ (if cv.mode = 2 then [(o 2, 16, 16 * K)] else []) ++ [(o 5, 16, 32)]) <|
        if cv.ops ≠ none ∧ cv.ops ≠ some ops then (.traps 0x30 0 0, s)
        else if cv.sigs + 1 = cv.n then
          queue (s.setTeam u (set t { cv with sigs := 0, ops := none })) u t (.mul cv.mode (o 0) (o 1) (o 2) K (o 4)) (o 5)
        else (noResults, s.setTeam u (set t { cv with sigs := cv.sigs + 1, ops := some ops }))) ∧
    (let tile := fun (i : Instr) (t bar : RegIx) (src : Group → Nat → Option (Nat × Nat)) (kind : Group → Nat → MxKind) =>
      SeqWord i h room (fun s0 g l s => mine g s fun u tm => s |> withRoom s0 (.matrix u) l fun s =>
        if tiles s tm ≤ V g l t then (bad, s)
        else checked s tm ((match src g l with | some q => [(q.1, 128, q.2)] | none => []) ++ [(V g l bar, 16, 32)]) <|
          queue s u tm (kind g l) (V g l bar))
     tile (.mxzero h onG a c) a c (fun _ _ => none) (fun g l => .zero (V g l a)) ∧
     tile (.mxld h onG a d c) a c (fun g l => some (V g l d, 65536)) (fun g l => .load (V g l a) (V g l d)) ∧
     ∀ bf : Bool, tile (.mxst h onG bf a d c) a c (fun g l => some (V g l d, if bf then 32768 else 65536))
       (fun g l => .store bf (V g l a) (V g l d))) ∧
    SeqWord (.mxsel24 h onG b) h room (fun s0 g l s => mine g s fun u t => s |> withRoom s0 (.matrix u) l fun s =>
      let o := o g l
      let K := o 3
      let NR := o 4
      if K < 64 ∨ 2048 < K ∨ K % 64 ≠ 0 ∨ NR < 1 ∨ 128 < NR then (bad, s)
      else checked s t [(o 0, 128, 2 * K * NR), (o 1, 128, K * NR), (o 2, 16, K / 8 * NR), (o 5, 16, 32)] <|
        queue s u t (.sel24 (o 0) NR K (o 1) (o 2)) (o 5)) ∧
    SeqWord (.mxstat h onG d a) h (fun _ _ => True) (fun _ g l s => mine g s fun u t =>
      checked s t [(V g l a, 16, 32)]
        (.takes ((List.range 4).map fun i => (d.toNat + i, BitVec.ofNat 32 (leNat (s.readScratch u (V g l a + 16 + 4 * i) 4))), [], 0), s))

/-- R225, R226, R248, R250 to R252, R409: what a matrix operation leaves in the accumulators and the scratchpad, and its
completion: it runs K-chunk by K-chunk, one at a time, from the chunk at which it stands, and with the last one it leaves the queue, its
status granule is written, and it completes on the barrier it is bound to. -/
def Obligations.MatrixResults : Prop :=
  ∀ (s : State) (u : Nat) (t : Team) (op : MxOp) (rest : List MxOp), s.team u = some t → s.txns = [] →
    Sparse.get [] s.mx t.core = op :: rest → op.team = u → t.stopping = false → (s.rcd t.task.lrec).st ≠ .ending → s.issueCycle t.core = true →
    let chunks := match op.kind with
      | .mul mode _ _ _ K _ => max 1 (K / (if mode = 0 then 32 else 64))
      | _ => 1
    op.pos < chunks →
    -- the states between its chunks: it holds the position and the counts, and only its accumulators change
    ∃ chain : Nat → State, chain op.pos = s ∧
    (∀ q, op.pos ≤ q → q + 1 < chunks → exec (.matrixCompletion u) (chain q) = .next (chain (q + 1)) ∧
      (chain (q + 1)).mem = s.mem ∧ (∀ v, v ≠ u → (chain (q + 1)).team v = s.team v) ∧
      (∃ t1, (chain (q + 1)).team u = some t1 ∧ t1 = { t with acc := t1.acc }) ∧
      ∃ o1, Sparse.get [] (chain (q + 1)).mx t.core = o1 :: rest ∧ o1 = { op with pos := q + 1, counts := o1.counts, raised := o1.raised }) ∧
    ∃ (s3 : State) (run : Nat), (let s4 := if op.bound then s3.barEvent u op.bar fun b =>
        { b with bound := b.bound - 1, cdone := true, ev := true, run := gatherRun b.run run } else s3
      exec (.matrixCompletion u) (chain (chunks - 1)) = .next (s4.freeRoom (.matrix u))) ∧
    s3.mem = s.mem ∧ Sparse.get [] s3.mx t.core = rest ∧ (∀ v, v ≠ u → s3.team v = s.team v) ∧
    ∃ t3 : Team, s3.team u = some t3 ∧ Sparse.get false t3.full (op.bar / 16 + 1) = true ∧
      let acc := fun (t : Team) (tile i j : Nat) => t.accAt u tile i j
      let old := fun (y n : Nat) => leNat (s.readScratch u y n)
      let new := fun (y n : Nat) => leNat ((List.range n).map fun i => t3.byte u (y + i))
      -- the scratchpad but for the granule and what the operation writes
      let kept := fun (wrote : Nat → Prop) => ∀ y, ¬ (op.bar + 16 ≤ y ∧ y < op.bar + 32) → ¬ wrote y → t3.byte u y = t.byte u y
      let others := fun (tile : Nat) => ∀ tl i j, tl ≠ tile → i < 128 → j < 128 → acc t3 tl i j = acc t tl i j
      op.bar % 16 = 0 →
      match op.kind with
      | .zero tile => run = 0 ∧ kept (fun _ => False) ∧ others tile ∧ ∀ i j, i < 128 → j < 128 → acc t3 tile i j = 0
      | .load tile src => run = 0 ∧ kept (fun _ => False) ∧ others tile ∧
          ∀ i j, i < 128 → j < 128 → (acc t3 tile i j).toNat = old (src + 4 * (128 * i + j)) 4
      | .store bf tile dst =>
          let w := if bf then 2 else 4
          let inside := fun y => dst ≤ y ∧ y < dst + w * 16384
          t3.acc = t.acc ∧ kept inside ∧
          (op.bar + 32 ≤ dst ∨ dst + w * 16384 ≤ op.bar + 16 → ∀ i j, i < 128 → j < 128 →
            let y := new (dst + w * (128 * i + j)) w
            if bf then
              match fmt32.decode (acc t tile i j).toNat with
              | .nan .. => y = 0x7FC0
              | .inf n => y = if n then 0xFF80 else 0x7F80
              | .fin n m e => ∃ fl, Stands fmtB16 0 (realOf (.fin n m e)) n (y, fl)
            else y = (acc t tile i j).toNat)
      | .sel24 src rows K vals sels =>
          run = 0 ∧ t3.acc = t.acc ∧
          kept (fun y => (vals ≤ y ∧ y < vals + K * rows) ∨ (sels ≤ y ∧ y < sels + K / 8 * rows)) ∧
          (K % 8 = 0 → vals + K * rows ≤ sels → (op.bar + 32 ≤ vals ∨ sels + K / 8 * rows ≤ op.bar + 16) →
           ∀ i k, i < rows → k < K / 4 →
            let x := fun q => old (src + 2 * K * i + 2 * (4 * k + q)) 2
            let rank := fun q => if 0x7F80 < x q % 0x8000 then 0x8000 else x q % 0x8000
            let nib := new (sels + K / 8 * i + k / 2) 1 / 16 ^ (k % 2) % 16
            let lo := nib % 4
            let hi := nib / 4
            lo < hi ∧ new (vals + K * i + 4 * k) 2 = x lo ∧ new (vals + K * i + 4 * k + 2) 2 = x hi ∧
            ∀ q, q < 4 → q ≠ lo → q ≠ hi → ∀ p, p = lo ∨ p = hi → rank q < rank p ∨ (rank q = rank p ∧ p < q))
      | .mul mode a b sel K tile =>
          kept (fun _ => False) ∧ others tile ∧ ∀ i j, i < 128 → j < 128 →
            (mode = 1 → K % 64 = 0 → 64 ≤ K → (op.counts = [] → op.raised = [] → run = 0) ∧ acc t3 tile i j = BitVec.ofInt 32 ((acc t tile i j).toInt +
              (((List.range K).filter fun k => 64 * op.pos ≤ k).map fun k =>
                (BitVec.ofNat 8 (old (a + K * i + k) 1)).toInt * (BitVec.ofNat 8 (old (b + 128 * k + j) 1)).toInt).sum)) ∧
            (mode = 0 ∨ mode = 2 →
              let chunk := if mode = 0 then 32 else 64
              let bf := fun y => fmtB16.decode (old y 2)
              let nib := fun k => old (sel + K / 8 * i + k / 8) 1 / 16 ^ (k / 4 % 2) % 16
              let A := fun k => if mode = 0 then bf (a + 2 * K * i + 2 * k)
                else if k % 4 = nib k % 4 then bf (a + K * i + 4 * (k / 4))
                else if k % 4 = nib k / 4 then bf (a + K * i + 4 * (k / 4) + 2) else FVal.fin false 0 0
              let B := fun k => bf (b + 256 * k + 2 * j)
              K % chunk = 0 → chunk ≤ K → (mode = 2 → ∀ k, k < K → nib k % 4 < nib k / 4) →
              ∃ (C : Nat → Nat) (S : Nat → Nat × BitVec 5), C op.pos = (acc t tile i j).toNat ∧ (acc t3 tile i j).toNat = C (K / chunk) ∧
                ∀ q, op.pos ≤ q → q < K / chunk →
                  C (q + 1) = (accAdd (C q) (S q).1).1 ∧
                  let ks := (List.range chunk).map fun k => chunk * q + k
                  let zero := fun (v : FVal) => match v with | .fin _ 0 _ => true | _ => false
                  let inf := fun (v : FVal) => match v with | .inf _ => true | _ => false
                  let bad := ks.any fun k => (A k).isNan || (B k).isNan || (inf (A k) && zero (B k)) || (zero (A k) && inf (B k))
                  let signs := (ks.filter fun k => inf (A k) || inf (B k)).map fun k => (A k).neg ^^ (B k).neg
                  if bad ∨ (true ∈ signs ∧ false ∈ signs) then S q = (0x7FC00000, 0x10#5)
                  else match signs with
                    | n :: _ => S q = (if n then 0xFF800000 else 0x7F800000, 0#5)
                    | [] => Stands fmt32 0 ((ks.map fun k => realOf (A k) * realOf (B k)).sum) false (S q))

/-- R253, R254, R256, R412, R455: NBGEMV checks its descriptor and hands it to the base dies, which sum each row tile by tile in the
fixed order, and end it with its stamp or by giving its queue registers back. A lane completes where its descriptor and its pages are in
order; a row is summed and sent where its bytes and their translations are at hand. -/
def Obligations.NearBankProducts : Prop :=
  (∀ (h : Hdr) (onG : Bool) (a : RegIx),
    SeqWord (.nbgemv h onG a) h (fun s g => s.hasRoom (.nbgemv g.core) = true) (fun s0 g l s =>
      match g.team.bind s.team, g.team with
      | some t, some u =>
        let o := ((envOf false g l).a32 onG a).toNat
        let scr := 1024 * (s.rcd t.task.lrec).blk.scr
        let bs := s.readScratch u o 64
        let f := fun (i n : Nat) => leNat ((bs.drop i).take n)
        let out := f 0xF 1 % 4
        let xq := (f 0xF 1).testBit 2
        let legal := f 0 8 % 65536 = 0 ∧ (1 ≤ f 8 4 ∧ f 8 4 ≤ 2 ^ 24) ∧ (1 ≤ f 0xC 2 ∧ f 0xC 2 ≤ 256) ∧ (2 ≤ f 0xE 1 ∧ f 0xE 1 ≤ 8) ∧
          out < 3 ∧ f 0xF 1 < 8 ∧ (xq = false → f 0x10 4 % 16 = 0) ∧ f 0x14 1 < 32 ∧ f 0x15 1 < 32 ∧ f 0x16 2 = 0 ∧
          (out ≠ 0 → f 0x18 8 % 4 = 0 ∧ f 0x20 8 ≠ 0) ∧ f 0x20 8 % 8 = 0 ∧ f 0x2C 0x14 = 0
        let n := 128 * f 0xC 2
        let line := if s.roomFor (.nbgemv g.core) s0.cur.gid l then s.wWaits u t g.core (s.ctxOf g) o else none
        -- the entries of W's pages that an owner holds are recalled first
        if line.isSome then (.stays, s.recall (line.getD 0))
        else s |> withRoom s0 (.nbgemv g.core) l fun s =>
        if o % 64 ≠ 0 then (.traps 0x25 0 (BitVec.ofNat 64 o), s)
        else if scr < o + 64 then (.traps 0x27 0 (BitVec.ofNat 64 o), s)
        -- the pages of W are held to the descriptor too, those that are not mapped left to the engine (log entry 127)
        else if ¬ (legal ∧ s.wPagesOk g.core (s.ctxOf g) (f 0 8) (f 8 4) (f 0xC 2) (f 0xE 1) = true) then (.traps 0x22 0 0, s)
        else if xq = false ∧ scr < f 0x10 4 + 2 * n then (.traps 0x27 0 (BitVec.ofNat 64 (f 0x10 4)), s)
        else
          let op : Nb := {
            core := g.core, ctx := s.ctxOf g, launch := g.launch, gid := s0.cur.gid, team := u, w := f 0 8, rows := f 8 4, ct := f 0xC 2
            pln := f 0xE 1, out := out, cy := f 0x14 1, cx := if xq then some (f 0x15 1) else none
            x := if xq then [] else (List.range n).map fun i => BitVec.ofNat 16 (leNat (s.readScratch u (f 0x10 4 + 2 * i) 2))
            y := f 0x18 8, stamp := f 0x20 8, tag := BitVec.ofNat 32 (f 0x28 4)
            deps := ({ s with next := s.next + 1 } : State).issueDeps s0.cur.gid l }
          (noResults, ({ s with next := s.next + 1, nbs := Sparse.set none s.nbs s.next (some op) }).bindNbs u)
      | _, _ => (.traps 0x22 0 0, s))) ∧
  -- completion: one active lane, with a descriptor that obeys the table, x in the scratchpad, and pages of W that are mapped and suit it
  (∀ (h : Hdr) (onG : Bool) (a : RegIx) (s : State) (g : Group) (l u : Nat) (t : Team),
    let i := Instr.nbgemv h onG a
    let k := (s.rcd g.launch).ctx
    let o := ((envOf false g l).a32 onG a).toNat
    let scr := 1024 * (s.rcd t.task.lrec).blk.scr
    let bs := t.bytes u o 64
    let f := fun (i n : Nat) => leNat ((bs.drop i).take n)
    let n := 128 * f 0xC 2
    WordReady s g h i → Still s g h → s.txns = [] → lanesOf (active s g h) = [l] → g.team = some u → s.team u = some t →
    s.hasRoom (.nbgemv g.core) = true → s.wokenRooms = [] → o % 64 = 0 → o + 64 ≤ scr →
    (f 0 8 % 65536 = 0 ∧ (1 ≤ f 8 4 ∧ f 8 4 ≤ 2 ^ 24) ∧ (1 ≤ f 0xC 2 ∧ f 0xC 2 ≤ 256) ∧ (2 ≤ f 0xE 1 ∧ f 0xE 1 ≤ 8) ∧
      f 0xF 1 < 3 ∧ f 0x10 4 % 16 = 0 ∧ f 0x14 1 < 32 ∧ f 0x15 1 < 32 ∧ f 0x16 2 = 0 ∧
      (f 0xF 1 ≠ 0 → f 0x18 8 % 4 = 0 ∧ f 0x20 8 ≠ 0) ∧ f 0x20 8 % 8 = 0 ∧ f 0x2C 0x14 = 0) →
    f 0x10 4 + 2 * n ≤ scr →
    (∀ j, j < (f 8 4 * n + 61439) / 61440 → ∃ leaf c, s.check (192 + g.core / 48) k (f 0 8 + 65536 * j) 1 .load = .ok leaf .cell c ∧
      leaf.fmt = 1 ∧ f 0xE 1 ≤ leaf.pl ∧ leaf.pl ≤ 8) →
    let op : Nb := {
      core := g.core, ctx := k, launch := g.launch, gid := s.cur.gid, team := u, w := f 0 8, rows := f 8 4, ct := f 0xC 2
      pln := f 0xE 1, out := f 0xF 1, cy := f 0x14 1, cx := none
      x := (List.range n).map fun i => BitVec.ofNat 16 (leNat (t.bytes u (f 0x10 4 + 2 * i) 2))
      y := f 0x18 8, stamp := f 0x20 8, tag := BitVec.ofNat 32 (f 0x28 4) }
    LaneTakes s h l i ([], [], 0) (({ s with next := s.next + 2, nbs := Sparse.set none s.nbs (s.next + 1) (some op) }).bindNbs u)) ∧
  -- completion: the last row of an operation with a sink, its bytes in the engine; `leaf i` translates page i of W
  (∀ (s : State) (id : Nat) (n : Nb) (t : Team) (leaf : Nat → Leaf),
    s.nb id = some n → n.report = none → (∀ d ∈ n.deps, s.txn d = none) → 1 ≤ n.ct → 128 * n.ct ≤ n.x.length →
    n.rows = n.row + 1 → n.failed = false → n.out = 0 → n.stamp = 0 →
    (n.row % 256 ≠ 0 ∨ (s.issueCycle n.core = true ∧ t.stopping = false ∧ (s.rcd t.task.lrec).st ≠ .ending)) →
    s.team n.team = some t → t.st = .running → (t.engq n.cy).sink = some id → (t.engq n.cy).result.length < 64 → t.entries < 384 →
    let per := max 1 (subpageElems 1 (leaf 0).pl (leaf 0).blk)
    let page := fun (c : Nat) => (n.row * 128 * n.ct + c) / per
    let sub := fun (c : Nat) => n.w + page c * 65536
    let at' := fun (i : Nat) => n.w + i * 65536 < windowBase ∧ s.tlbAt (192 + n.core / 48) n.ctx (n.w + i * 65536) = some (leaf i) ∧ (leaf i).fmt = 1 ∧
      ∃ c, s.target n.ctx 1 .load ((leaf i).phys (n.w + i * 65536)) = .ok (.cell, c)
    let held := fun (va : Nat) => (s.bufOf id).find? fun b => decide (b.1 ≤ va) && decide (va + 1 ≤ b.1 + b.2.1.length)
    let B := fun (va : Nat) => match held va with | some b => b.2.1.getD (va - b.1) 0 | none => 0
    let bytes := fun (c : Nat) => typedBytes 1 (leaf (page c)).pl (leaf (page c)).blk n.pln ((n.row * 128 * n.ct + c) % per)
    at' 0 →
    (∀ c, c < 128 * n.ct → at' (page c) ∧ ∃ offs sc, bytes c = .ok (offs, sc) ∧
      ∀ x ∈ sc.toList ++ offs, ∃ b, held (sub c + x) = some b ∧ b.2.2 = false) →
    let W := fun (c : Nat) => match bytes c with
      | .ok (offs, sc) => bpnFVal (typedElement 1 (leaf (page c)).pl n.pln ((n.row * 128 * n.ct + c) % per) (offs.map fun x => B (sub c + x)))
          (sc.map fun x => (B (sub c + x)).toNat)
      | .error _ => FVal.nan 0 false
    let ps := fun (k : Nat) => (List.range 128).map fun c => (W (128 * k + c), fmtB16.decode (n.x.getD (128 * k + c) 0).toNat)
    ∃ (C : Nat → Nat) (fl : BitVec 5), C 0 = (chunkSum (ps 0)).1 ∧ (∀ k, k + 1 < n.ct → C (k + 1) = (accAdd (C k) (chunkSum (ps (k + 1))).1).1) ∧
      let n' := { n with row := n.row + 1, flags := n.flags ||| fl }
      let same := { s with nbs := Sparse.set none s.nbs id (some n) }
      let s2 := same.setTeam n.team (t.setEngq n.cy { t.engq n.cy with result := (t.engq n.cy).result ++ [BitVec.ofNat 32 (C (n.ct - 1))] })
      exec (.nbgemvCompletion id) s = .next (({ s2 with nbs := Sparse.set none s2.nbs id (some n') }).dropNb id n')) ∧
  (∀ (s s' : State) (n : Nb) (id row y : Nat) (fl : BitVec 5), 1 ≤ n.ct → s.wRow n id row n.ct = (.ok (y, fl), s') →
    ∃ (ps : Nat → List (FVal × FVal)) (C : Nat → Nat),
      (∀ k, k < n.ct → (ps k).map (·.2) = (List.range 128).map fun c => fmtB16.decode (n.x.getD (128 * k + c) 0).toNat) ∧
      C 0 = (chunkSum (ps 0)).1 ∧ (∀ k, k + 1 < n.ct → C (k + 1) = (accAdd (C k) (chunkSum (ps (k + 1))).1).1) ∧ y = C (n.ct - 1)) ∧
  ∀ (s : State) (id : Nat) (n : Nb), s.nb id = some n → n.report = none → (∀ d ∈ n.deps, s.txn d = none) → 128 * n.ct ≤ n.x.length →
    -- the operation without a stamp leaves its engine; its stamp waits for its own writes
    let ends := fun (s0 s : State) (n : Nb) =>
      (n.stamp = 0 → exec (.nbgemvCompletion id) s0 = .next (s.dropNb id n)) ∧
      (n.stamp ≠ 0 → s.engSettled id = false → exec (.nbgemvCompletion id) s0 = .next s) ∧
      (n.stamp ≠ 0 → s.engSettled id = true → ∀ bs q s1,
        s.engWrite (n.eng id) n.stamp (toLE 4 n.tag.toNat ++ [if n.failed then 1#8 else 0#8] ++ toLE 3 n.flags.toNat) false true = (.ok bs q, s1) →
          exec (.nbgemvCompletion id) s0 = .next (s1.dropNb id n))
    let same := { s with nbs := Sparse.set none s.nbs id (some n) }
    (n.rows ≤ n.row → ends s same n) ∧
    (n.rows = n.row + 1 → n.failed = false → n.out = 1 → s.nbGoes n = true → ∀ y fl s1 bs q s2, same.wRow n id n.row n.ct = (.ok (y, fl), s1) →
      s1.engWrite (n.eng id) (n.y + 4 * n.row) (toLE 4 y) false (n.row == 0 || decide ((n.y + 4 * n.row) % 128 < 4)) = (.ok bs q, s2) →
      let n' := { n with row := n.row + 1, flags := n.flags ||| fl }
      ends s { s2 with nbs := Sparse.set none s2.nbs id (some n') } n') ∧
    (n.rows = n.row + 1 → n.failed = false → n.out = 0 → s.nbGoes n = true → ∀ y fl s1 t, same.wRow n id n.row n.ct = (.ok (y, fl), s1) →
      same.team n.team = some t → s1.team n.team = some t → t.st = .running → (t.engq n.cy).sink = some id →
      (t.engq n.cy).result.length < 64 → t.entries < 384 →
      let n' := { n with row := n.row + 1, flags := n.flags ||| fl }
      let s2 := s1.setTeam n.team (t.setEngq n.cy { t.engq n.cy with result := (t.engq n.cy).result ++ [BitVec.ofNat 32 y] })
      ends s { s2 with nbs := Sparse.set none s2.nbs id (some n') } n')

/-- R264, R269, R413 to R416, R455: the Sphinx words, with room in the queue or with lanes that park for it. A lane's checks in the
order of the rule, then the operation joins the queue of its core's array and is bound to its barrier, if it names one. -/
def Obligations.SphinxWords : Prop :=
  ∀ (h : Hdr) (onG : Bool) (a n b : RegIx) (bar : Option RegIx),
    let W := fun (g : Group) (l : Nat) (r : RegIx) => ((envOf false g l).a32 onG r).toNat
    let D := fun (g : Group) (l : Nat) (r : RegIx) => (envOf false g l).a64 onG r
    let run := fun (g : Group) (l : Nat) (r : RegIx) (i : Nat) => ((envOf false g l).run onG r i).toNat
    let room := fun (s : State) (g : Group) => ∀ u, g.team = some u → s.hasRoom (.sphinx u) = true
    let word := fun (i : Instr) (bar : Option RegIx)
        (ask : Group → Nat → (Nat → Nat → List Byte) → Prop × List (Nat × Nat × Option Nat) × Option Nat × Prop × SxKind) =>
      SeqWord i h room (fun s0 g l s => open Classical in
        match g.team.bind s.team, g.team with
        | some t, some u =>
          let q := ask g l (s.readScratch u)
          let bo := bar.map fun r => W g l r
          -- offsets with their alignment, and their bytes of scratchpad
          let os := q.2.1 ++ (match bo with | some x => [(x, 16, some 32)] | none => [])
          let high := fun (o : Nat × Nat × Option Nat) => match o.2.2 with | some k => 1024 * (s.rcd t.task.lrec).blk.scr < o.1 + k | none => False
          if (s.rcd t.task.lrec).blk.sxu = false then (.traps 0x22 0 0, s)
          else s |> withRoom s0 (.sphinx u) l fun s =>
          if (s.array t.core).fenced = true then (.traps 0x32 0 0, s)
          else if ¬ q.1 then (.traps 0x22 0 0, s)
          else match os.find? fun o => o.1 % o.2.1 ≠ 0 with
            | some o => (.traps 0x25 0 (BitVec.ofNat 64 o.1), s)
            | none => match os.find? fun o => decide (high o) with
              | some o => (.traps 0x27 0 (BitVec.ofNat 64 o.1), s)
              | none =>
                let m := q.2.2.1
                if m.any (fun v => decide (2 ^ 57 ≤ v)) = true then (.traps 0x26 0 (BitVec.ofNat 64 (m.getD 0)), s)
                else if ¬ q.2.2.2.1 then (.traps 0x22 0 0, s)
                else
                  let op : SxOp := { id := s.next, team := u, launch := g.launch, kind := q.2.2.2.2, bar := bo, bound := bo.isSome
                                     deps := if m.isSome then ({ s with next := s.next + 1 } : State).issueDeps s0.cur.gid l else [] }
                  let s1 := ({ s with next := s.next + 1 } : State).setArray t.core { s.array t.core with ops := (s.array t.core).ops ++ [op] }
                  (noResults, match bo with | some x => s1.barEvent u x fun b => { b with bound := b.bound + 1 } | none => s1)
        | _, _ => (.traps 0x22 0 0, s))
    let nodes := fun g l => run g l n 1 ≠ 0 ∧ run g l n 0 + run g l n 1 ≤ 8192
    word (.sxload h onG false a n bar) bar (fun g l _ =>
      (nodes g l, [(W g l a, 64, some (64 * run g l n 1))], none, True,
       .load false (BitVec.ofNat 64 (W g l a)) (run g l n 0) (run g l n 1))) ∧
    word (.sxload h onG true a n bar) bar (fun g l _ =>
      (nodes g l, [((D g l a).toNat, 64, none)], some (D g l a).toNat, True, .load true (D g l a) (run g l n 0) (run g l n 1))) ∧
    word (.sxbias h onG a n bar) bar (fun g l _ =>
      (nodes g l, [(W g l a, 16, some (2 * run g l n 1))], none, True, .bias (W g l a) (run g l n 0) (run g l n 1))) ∧
    word (.sxclamp h onG a n bar) bar (fun g l _ =>
      (nodes g l, [(W g l a, 16, some (1024 + (run g l n 1 + 7) / 8))], none, True, .clamp (W g l a) (run g l n 0) (run g l n 1))) ∧
    word (.sxrun h onG a bar) bar (fun g l rd =>
      let f := fun (i n : Nat) => leNat (((rd (W g l a) 64).drop i).take n)
      let finite := fun (x : Nat) => x / 1024 % 32 ≠ 31
      (True, [(W g l a, 64, some 64)], none,
       (1 ≤ f 0 4 ∧ f 0 4 ≤ 2 ^ 24) ∧ f 4 4 ≤ f 0 4 ∧ finite (f 8 2) ∧ f 8 2 ≤ 0x8000 ∧ finite (f 10 2) ∧
       (1 ≤ f 12 1 ∧ f 12 1 ≤ 8) ∧ f 13 1 % 4 ≠ 3 ∧ f 13 1 < 8 ∧ f 14 1 < 4 ∧ f 15 49 = 0,
       .run (f 0 4) (f 4 4) (BitVec.ofNat 16 (f 8 2)) (BitVec.ofNat 16 (f 10 2)) (f 12 1) (f 13 1 % 4) ((f 13 1).testBit 2) (f 14 1))) ∧
    (∀ cnt : Bool, word (.sxread h onG cnt a n bar) bar (fun g l _ =>
      (nodes g l ∧ (cnt = true ∨ run g l n 0 % 8 = 0),
       [(W g l a, 16, some (((if cnt then 2 * run g l n 1 else (run g l n 1 + 7) / 8) + 15) / 16 * 16))], none, True,
       .read cnt (W g l a) (run g l n 0) (run g l n 1)))) ∧
    (∀ replay : Bool, word (.sxkey h onG replay a b) none (fun g l _ =>
      (True, [], none, True, .key (D g l a) (BitVec.ofNat 32 (W g l b)) replay))) ∧
    word (.sxjoin h onG a b bar) bar (fun g l _ =>
      let j := W g l b
      let M := j / 256 % 256
      let me := j / 65536 % 256
      (j / 16 % 16 = 0 ∧ j / 2 ^ 24 = 0 ∧ M ≤ 192 ∧ (M = 0 ∨ me < M), if M = 0 then [] else [(W g l a, 16, some 0xC10)], none, True,
       .join (W g l a) (j % 16) M me)) ∧
    word (.sxhealth h onG a b) none (fun g l _ =>
      ((1024 ≤ W g l a ∧ W g l a ≤ 65536) ∧ W g l b ≤ 65535, [], none, True, .health (W g l a) (W g l b)))

/-- R260, R261, R265, R266, R269, R271, R273: what the operations of an array do to it: the update of a phase, the sweeps of a
run outside a domain, the other operations with their status granule and their completion, and the joiners whose time is up. -/
def Obligations.SphinxOperations : Prop :=
  (∀ (x : SxArray) (n c : Nat) (beta scale : BitVec 16) (i : Nat), i < 8192 → Sparse.wf {} x.nodes = true →
    let y := x.phase n c beta scale
    let draw := if x.replay then sxHash x.key 0 x.memb c i x.sweep else (Config.noise n i).toNat
    let field := ((x.node i).w.map fun s => s.1.toInt * (if (x.node s.2.toNat).st then 1 else -1)).sum + (x.node i).bias.toInt
    y.node i = if (x.node i).col.toNat ≠ c ∨ Sparse.get false x.ghost i = true then x.node i
      else { x.node i with st := if (x.node i).cle then (x.node i).clv else decide (draw < threshold beta scale field) }) ∧
  (∀ (beta scale : BitVec 16) (i : Int) (nb ns : Bool) (mb ms : Nat) (eb es : Int),
    fmt16.decode beta.toNat = .fin nb mb eb → fmt16.decode scale.toNat = .fin ns ms es →
    let z : ℝ := (mb * (2 : ℝ) ^ eb) * realOf (.fin ns ms es) * i
    (12 ≤ z → threshold beta scale i = 65536) ∧ (z ≤ -12 → threshold beta scale i = 0) ∧ (z = 0 → threshold beta scale i = 32768)) ∧
  (∀ (s : State) (u core : Nat) (x : SxArray) (o : SxOp) (nsw burn : Nat) (beta scale : BitVec 16) (ncol ord : Nat) (acc : Bool)
    (stale : Nat), s.headSx u = some (core, x, o) → o.kind = .run nsw burn beta scale ncol ord acc stale → x.dom = none →
    (s.sxGoes u core = true → o.started = true → o.ended = false → o.inSweep = false → o.done < nsw → o.code.getLsbD 0 = false →
      exec (.sweepStart u) s = .next (s.setArray core { x with ops := { o with inSweep := true } :: x.ops.drop 1 })) ∧
    (s.sxGoes u core = false → exec (.sweepStart u) s = .next s) ∧
    (o.inSweep = true → x.replay = true → o.code.getLsbD 6 = false → Sparse.wf {} x.nodes = true →
      ∃ y : SxArray, exec (.sweepEnd u) s = .next ({ s with free := s.free + 1 }.setArray core y) ∧
        let z := (colourOrder x.key ncol ord x.sweep).foldl (fun (b : SxArray) c => b.phase s.free c beta scale) x
        (∀ i, y.node i = if burn ≤ o.done ∧ (z.node i).st = true ∧ (z.node i).count ≠ 0xFFFF
          then { z.node i with count := (z.node i).count + 1 } else z.node i) ∧
        ∃ o' : SxOp, y = { x with nodes := y.nodes, sweep := x.sweep + 1, ops := o' :: x.ops.drop 1 } ∧
          o' = { o with done := o.done + 1, inSweep := false, code := o'.code, ended := decide (nsw ≤ o.done + 1) || o.code.getLsbD 0 })) ∧
  (∀ (s : State) (u core : Nat) (x : SxArray) (o : SxOp), s.headSx u = some (core, x, o) → o.ended = false → o.report = none →
    (∀ d ∈ o.deps, s.txn d = none) → o.inSweep = false → s.sxGoes u core = true →
    let ends := fun (s : State) (y : SxArray) (o : SxOp) =>
      let s1 := { s.setArray core { y with ops := x.ops.drop 1 } with engBuf := Sparse.set [] s.engBuf o.id [] }
      let s2 := match o.bar with
        | some b =>
          let s2 := s1.engScratch u (b + 16) (toLE 4 o.done ++ toLE 4 y.sweep.toNat ++ toLE 2 o.code.toNat ++ toLE 2 o.stall ++
            toLE 4 (o.hdev % 2 ^ 32).toNat)
          if o.bound then s2.barEvent u b fun b =>
            { b with bound := b.bound - 1, cdone := true, ev := true
                     run := gatherRun b.run ((if o.code.getLsbD 1 then 8 else 0) ||| if o.code.getLsbD 0 then 4 else 0) } else s2
        | none => if o.code.getLsbD 0 then s1.logEv .sphinxFault 1 (evCore core) [o.code.toNat] else s1
      Host.Outcome.next (s2.freeRoom (.sphinx u))
    let node := fun (y : SxArray) (f : Nat → Node) => y = { x with nodes := y.nodes } ∧ ∀ k, y.node k = f k
    match o.kind with
    | .key k sw rp => exec (.sphinxCompletion u) s = ends s { x with key := k, sweep := sw, replay := rp, hcount := 0, hsum := 0 } { o with done := 0 }
    | .health w b => exec (.sphinxCompletion u) s = ends s { x with hwin := w, hband := b, hcount := 0, hsum := 0 } { o with done := 0 }
    | .bias src n0 n => ∃ y, exec (.sphinxCompletion u) s = ends s y { o with done := n } ∧ node y fun k =>
        if n0 ≤ k ∧ k < n0 + n then { x.node k with bias := BitVec.ofNat 16 (leNat (s.readScratch u (src + 2 * (k - n0)) 2)) } else x.node k
    | .clamp src n0 n => ∃ y, exec (.sphinxCompletion u) s = ends s y { o with done := n } ∧ node y fun k =>
        let bit := fun (base : Nat) => (leNat (s.readScratch u (base + (k - n0) / 8) 1)).testBit ((k - n0) % 8)
        if n0 ≤ k ∧ k < n0 + n then { x.node k with cle := bit src, clv := bit (src + 1024) } else x.node k
    | .load false base n0 n => ∀ rec' : Nat → Node, o.done = 0 →
        (∀ i, i < n → Node.ofBytes (s.readScratch u (base.toNat + 64 * i) 64) = some (rec' i)) →
        ∃ y, exec (.sphinxCompletion u) s = ends s y { o with done := n } ∧ node y fun k =>
          if n0 ≤ k ∧ k < n0 + n then rec' (k - n0) else x.node k
    | .read cnt dst n0 n => ∀ bs : List Byte,
        bs.length = ((if cnt then 2 * n else (n + 7) / 8) + 15) / 16 * 16 →
        (if cnt then ∀ i, (bs.getD (2 * i) 0).toNat + 256 * (bs.getD (2 * i + 1) 0).toNat = if i < n then (x.node (n0 + i)).count.toNat else 0
         else ∀ i k, k < 8 → (bs.getD i 0).getLsbD k = (decide (8 * i + k < n) && (x.node (n0 + 8 * i + k)).st)) →
        exec (.sphinxCompletion u) s = ends (s.engScratch u dst bs) x { o with done := n }
    | .join _ _ m _ =>
        (m = 0 → x.dom = none → exec (.sphinxCompletion u) s = ends s x o) ∧
        (m ≠ 0 → x.dom ≠ none → exec (.sphinxCompletion u) s = ends s x { o with code := o.code ||| 0x81 })
    | _ => True) ∧
  ∀ (s : State) (r d : Nat), Sparse.wf {} s.arrays = true → Sparse.wf none s.teams = true →
    ∃ t, exec (.domainJoinTimeout r d) s = .next t ∧ t = { s with arrays := t.arrays, teams := t.teams } ∧
      -- the array of every team, on its core or with the suspended team
      ∀ u tm, s.team u = some tm → t.sxArr u = (s.sxArr u).map fun x =>
        match x.ops with
        | [] => x
        | o :: rest => match o.kind with
          | .join _ d' _ _ => if tm.task.lrec = r ∧ d' = d ∧ o.started = true ∧ o.ended = false then
              { x with ops := { o with ended := true, code := o.code ||| 0x41 } :: rest } else x
          | _ => x

/-! ### Threads, launches and work (files 05, 06, 18) -/

/-- R117, R120 to R124, R129, R132, R198, R417, R418: SPAWN with its checks, the acceptance of a spawn into a bin, the flush and the timer
of bins, and JWAIT, whose lanes pass when the counter reads 0 and wait for it otherwise. -/
def Obligations.SpawnsAndJoins : Prop :=
  (∀ (h : Hdr) (onG : Bool) (cls n : BitVec 3) (entry join pay : RegIx),
    SeqWord (.spawn h onG cls n entry join pay) h (fun _ _ => True) (fun s0 g l s =>
      let e := envOf false g l
      let en := (e.a64 onG entry).toNat
      let jn := (e.a64 onG join).toNat
      let depth := match g.spawned with | some x => x.depth | none => 0
      if (s.rcd g.launch).blk.spov = 0 then (.traps 0x33 0 0, s)
      else if depth = 63 then (.traps 0x34 0 0, s)
      else if en % 8 ≠ 0 then (.traps 0x25 0 (BitVec.ofNat 64 en), s)
      else if jn % 4 ≠ 0 then (.traps 0x25 0 (BitVec.ofNat 64 jn), s)
      else if 2 ^ 57 ≤ en then (.traps 0x26 0 (BitVec.ofNat 64 en), s)
      else if 2 ^ 57 ≤ jn then (.traps 0x26 0 (BitVec.ofNat 64 jn), s)
      else
        let q : SpawnReq := { gid := s0.cur.gid, lane := l, core := g.core, launch := g.launch, entry := e.a64 onG entry
                              cls := cls.toNat, depth := depth + 1, join := e.a64 onG join
                              pay := (List.range n.toNat).map fun i => (g.lane l).reg (pay.toNat + i)
                              deps := ((s.threadTxns s0.cur.gid l).map (·.1) ++ s.coreWrites g.core (s.ctxOf g)).eraseDups }
        (.parks (.spawn s.next), { s with next := s.next + 1, spawns := Sparse.set none s.spawns s.next (some q) }))) ∧
  -- the bins that a test closes
  (∀ (s : State) (f : Bin → Bool), Sparse.wf {} s.bins = true →
    let t := s.flushBins f
    t = { s with bins := t.bins, next := t.next } ∧ ∀ u b, ∃ k, t.bin u b =
      if (s.bin u b).used = true ∧ (s.bin u b).closed = none ∧ f (s.bin u b) = true then { s.bin u b with closed := some k } else s.bin u b) ∧
  (∀ (s : State) (id : Nat) (q : SpawnReq) (g : Group), Sparse.get none s.spawns id = some q →
    -- the spawns of a core are accepted in the order in which they issued
    (∀ id' q', (id', some q') ∈ s.spawns → q'.core = q.core → id ≤ id') → (∀ p ∈ s.wokenSpawns, p.2 ≠ (q.gid, q.lane)) →
    (s.rcd q.launch).st = .running →
    (∀ d ∈ q.deps, s.txn d = none) → s.clean q.core (s.rcd q.launch).ctx = true → (s.rcd q.launch).blk.prot = false →
    s.refillLaunch (q.core / 48) = none → ((s.rcd q.launch).spill (q.core / 48)).tail ≤ ((s.rcd q.launch).spill (q.core / 48)).head →
    s.group q.gid = some g → (g.lane q.lane).park = .spawn id → g.resident = true → (s.rcd g.launch).blk.prot = false →
    let u := q.core / 48
    let mine := fun (x : Bin) => x.used = true ∧ x.closed = none ∧ x.launch = q.launch ∧ x.entry = q.entry ∧ x.cls = q.cls ∧ x.depth = q.depth
    ((∃ b, b < 256 ∧ mine (s.bin u b)) ∨ ∃ b, b < 256 ∧ (s.bin u b).used = false) →
    ∃ t b, b < 256 ∧ exec (.spawnAccept id) s = .next t ∧ Sparse.get none t.spawns id = none ∧
      (mine (s.bin u b) ∨ ((∀ b, b < 256 → ¬ mine (s.bin u b)) ∧ (s.bin u b).used = false)) ∧
      (let old := if (s.bin u b).used then (s.bin u b).kids else []
       mine { t.bin u b with closed := none } ∧
       (t.bin u b).kids = old ++ [{ lane := old.length, join := q.join, pay := q.pay, src := q.gid }] ∧
       ((t.bin u b).closed = none ↔ old.length + 1 < 32)) ∧
      ∃ g', t.group q.gid = some g' ∧ g' = g.setLane q.lane { g.lane q.lane with
        st := .eligible, park := .none, ready := false, pc := (g.lane q.lane).pc + 8 }) ∧
  (∀ (s : State) (q b : Nat), s.refillLaunch q = none →
    let x := s.bin q b
    (x.used = true → x.closed = none → x.openedAt + 40000 ≤ s.clk →
      exec (.binTimer q b) s = .next ({ s with next := s.next + 1 }.setBin q b { x with closed := some s.next })) ∧
    (x.used = true → x.closed = none → s.clk < x.openedAt + 40000 → s.binAwaited x = false → exec (.binTimer q b) s = .next s)) ∧
  (∀ (h : Hdr) (s : State) (g : Group), WordReady s g h (.spwflush h) → Still s g h → active s g h ≠ 0 →
    ∃ g', exec (.spwflush h) s = .next (((numbered s).flushBins fun b => b.kids.any fun k => k.src == s.cur.gid).setGroup s.cur.gid g') ∧
      lanesAfter s g g' h (fun _ ln => ln) ∧ g'.g = g.g ∧ groupAfter s g g' h) ∧
  (∀ (h : Hdr) (onG : Bool) (a : RegIx) (s : State) (g : Group) (l : Nat), lanesOf (active s g h) = [l] → Still s g h →
    let i := Instr.jwait h onG a
    WordReady s g h i → (g.lane l).handler = false →
    let va := ((envOf false g l).a64 onG a).toNat
    let ends := fun (s1 : State) (f : Lane → Lane) => ∃ g', exec i s = .next ((s1.setGroup s.cur.gid g').tailrace g.launch) ∧
      lanesRun s g g' h (fun _ ln => f ln) ∧ g'.g = g.g ∧ groupAfter s g g' h
    let passes := fun (ln : Lane) => { ln with pc := s.cur.pc + BitVec.ofNat 64 s.cur.len }
    (va = 0 → ends (numbered s) passes) ∧
    (va % 4 ≠ 0 → ends (numbered s) fun ln => ln.trap 0x25 0 (BitVec.ofNat 64 va)) ∧
    (va ≠ 0 → va % 4 = 0 → 2 ^ 57 ≤ va → ends (numbered s) fun ln => ln.trap 0x26 0 (BitVec.ofNat 64 va)) ∧
    (va ≠ 0 → va % 4 = 0 → va < windowBase → ∀ leaf x, s.tlbAt g.core (s.ctxOf g) va = some leaf →
      s.target (s.ctxOf g) 4 .load (leaf.phys va) = .ok (.cell, x) → s.lineFree none (x / 128) = true → s.poison = [] →
      s.ownPending s.cur.gid l .cell x 4 = false →
      let s0 := (numbered s).flushBins fun b => (s.rcd b.launch).ctx == s.ctxOf g && b.kids.any fun k => k.join.toNat == va
      -- the read is a request at the counter's home
      let s1 := if x / 128 ∈ s.cur.counted then s0 else
        { s0.count (srcCore g.core) (x / 128 * 128) with cur := { s.cur with counted := x / 128 :: s.cur.counted } }
      (s.wordAt x 4 = 0 → ends s1 passes) ∧
      (s.wordAt x 4 ≠ 0 → ends { s1 with next := s1.next + 1 } fun ln => ln.parkOn (.jwait x va) s1.next))) ∧
  ∀ (s s1 : State) (id : Nat) (d : Dec) (x : Nat), Sparse.get none s.decs id = some d → d.sent = none → (∀ i ∈ d.deps, s.txn i = none) →
    s.clean d.core d.ctx = true → s.millAt d.ctx d.va 4 .atomic = (.cell x, s1) → s1.poisoned x = false →
    ∃ s2 : State, exec (.joinDecrement id) s = .next (s2.tailrace d.launch) ∧ Sparse.get none s2.decs id = none ∧
      (s2.wordAt x 4 : Int) = ((s1.wordAt x 4 : Int) - d.n) % 2 ^ 32 ∧ ∀ c, c < x ∨ x + 4 ≤ c → s2.cell c = s1.cell c

/-- R101 to R103, R111, R396, R419, R420: LAUNCH, FETCHW and ENQ.stage of one active lane whose earlier stores are visible. The
block is taken into the lowest free record and the lane receives its handle; a claimed record, or the end record, is written
to the mailbox; a stage record enters its queue and its ring in memory. -/
def Obligations.LaunchesAndRecords : Prop :=
  ∀ (h : Hdr) (onG : Bool) (sc : Scope) (d a : RegIx) (s : State) (g : Group) (l : Nat),
    lanesOf (active s g h) = [l] → Still s g h → s.txns = [] → s.clean g.core (s.ctxOf g) = true → (g.lane l).handler = false →
    let k := s.ctxOf g
    -- the word's lane takes results in a group that its work left as gm
    let gives := fun (i : Instr) (s2 : State) (ws : List (Nat × Word)) => LaneTakes s h l i (ws, [], 0) s2
    let traps := fun (i : Instr) (code acc ea : Nat) => ∃ g', exec i s = .next ((numbered s).setGroup s.cur.gid g') ∧
      lanesRun s g g' h (fun _ ln => ln.trap code acc (BitVec.ofNat 64 ea)) ∧ groupAfter s g g' h
    (let i := Instr.launch h onG d a
     let va := ((envOf false g l).a64 onG a).toNat
     WordReady s g h i →
     (va % 64 ≠ 0 → traps i 0x25 0 va) ∧ (va % 64 = 0 → 2 ^ 57 ≤ va → traps i 0x26 0 va) ∧
     (va % 64 = 0 → va < 2 ^ 57 → ∀ bs s1, (s.readGlobal false g s.cur.gid va 256 4).1 = .bytes bs →
       (numbered s).readGlobal true g s.cur.gid va 256 4 = (.bytes bs, s1) → ∀ r, r < 4096 → (s1.rcd r).st = .free →
       (∀ q, q < r → (s1.rcd q).st ≠ .free) →
       gives i (s1.takeBlock r k none bs) [(d.toNat, BitVec.ofNat 32 (((s1.rcd r).gen + 1) % 2 ^ 20 * 4096 + r))])) ∧
    (let i := Instr.fetchw h onG d a
     let ea := ((envOf false g l).a32 onG a).toNat
     WordReady s g h i →
     (g.team = none → gives i (numbered s) [(d.toNat, 0)]) ∧
     (∀ u t, g.team = some u → s.team u = some t → t.taken = [] → (∀ id dc, (id, some dc) ∈ s.decs → dc.gid = s.cur.gid → dc.sent = none) →
       (∀ c acc x, scratchAt (numbered s) g false ea 64 64 0 ea = .error (.traps c acc x) → traps i c acc x.toNat) ∧
       (scratchAt (numbered s) g false ea 64 64 0 ea = .ok (u, ea) → ∀ s1 tk, (s.nextTask g.launch t.task.stg).1 ≠ .wait →
         (numbered s).nextTask g.launch t.task.stg = (.task tk, s1) → tk.bad = false → ((s1.claim g.launch t.task.stg tk).team u) = some t →
         gives i (((s1.claim g.launch t.task.stg tk).setTeam u { t with taken := t.taken ++ [tk] }).engScratch u ea
           (toLE 8 tk.entry.toNat ++ toLE 8 tk.arg.toNat ++ toLE 4 tk.tx.toNat ++ toLE 4 tk.ty.toNat ++ toLE 4 tk.tz.toNat ++
            toLE 4 tk.seq.toNat ++ toLE 8 tk.succ.toNat ++ ((List.range 4).flatMap fun j => toLE 4 (tk.uw.getD j 0).toNat) ++
            toLE 2 tk.lrec ++ toLE 1 tk.stg ++ [0, 0, 0, 0, 0])) [(d.toNat, 1)]) ∧
       (scratchAt (numbered s) g false ea 64 64 0 ea = .ok (u, ea) → ∀ s1, (s.nextTask g.launch t.task.stg).1 ≠ .wait →
         (numbered s).nextTask g.launch t.task.stg = (.empty, s1) →
         gives i (s1.engScratch u ea (List.replicate 28 0 ++ [0xFF, 0xFF, 0xFF, 0xFF] ++ List.replicate 32 0)) [(d.toNat, 0)]))) ∧
    (let i := Instr.enqStage h sc a
     let ea := ((g.lane l).reg a.toNat).toNat
     sc ≠ .sys → WordReady s g h i →
     (g.team = none → traps i 0x22 0 0) ∧
     (∀ u t, g.team = some u → s.team u = some t →
       let rc := s.rcd g.launch
       let stg := t.task.stg
       (max rc.blk.nstage 1 ≤ stg + 1 → traps i 0x22 0 0) ∧
       (stg + 1 < max rc.blk.nstage 1 → ∀ c acc x, scratchAt (numbered s) g false ea 64 64 0 ea = .error (.traps c acc x) →
         traps i c acc x.toNat) ∧
       (stg + 1 < max rc.blk.nstage 1 → scratchAt (numbered s) g false ea 64 64 0 ea = .ok (u, ea) →
         let tag := t.gang
         let n := Sparse.get 0 rc.enqs (tag * 4 + stg)
         let q := rc.blk.queueAt stg
         let j := Sparse.get 0 rc.queueTail stg
         Sparse.get false rc.taken ((tag * 4 + stg) * 2 ^ 32 + n) = false → (∀ e, (rc.queue stg).head? = some e → j - e.1 < q.2) →
         ∀ x s1, (numbered s).millAt rc.ctx (q.1 + 64 * (j % q.2)) 64 .store = (.cell x, s1) →
         ∃ s2, gives i s2 [] ∧ s2.rcd g.launch = { rc with
             enqs := Sparse.set 0 rc.enqs (tag * 4 + stg) (n + 1)
             stageQ := Sparse.set [] rc.stageQ stg (rc.queue stg ++ [(j, tag, n)])
             queueTail := Sparse.set 0 rc.queueTail stg (j + 1) } ∧
           s2.cells x 64 = (numbered s).readScratch u ea 64 ∧ ∀ c, c < x ∨ x + 64 ≤ c → s2.cell c = s1.cell c)))

/-- R104, R107, R108, R421 to R424: work lists, tickets, SETPRI and QUIET. -/
def Obligations.WorkAndTickets : Prop :=
  (∀ (h : Hdr) (onG : Bool) (a c d : RegIx) (pd : BitVec 3) (q : Option RegIx) (n : Kind),
    let calm := fun (s : State) (g : Group) => s.txns = [] ∧ s.clean g.core (s.ctxOf g) = true
    let bad : Does := .traps 0x22 0 0
    let list := fun (s : State) (r i : Nat) => Sparse.get ([] : List DWord) (s.rcd r).lists i
    let store := fun (s : State) (r i : Nat) (xs : List DWord) => s.setRec r { s.rcd r with lists := Sparse.set [] (s.rcd r).lists i xs }
    SeqWord (.wlappend h onG a c) h calm (fun _ g l s =>
      let i := ((envOf false g l).a32 onG a).toNat
      let r := g.launch
      let works := i < 192 ∧ (s.die (i / 24)).st = .online ∧ (s.die (i / 24)).offl.getLsbD (i % 24) = false
      let i' := if works then i else 255
      if 192 ≤ i ∧ i ≠ 255 then (bad, s)
      else if 65536 ≤ ((s.rcd r).lists.map fun p => p.2.length).sum then (.parks .listFull, s)
      else (noResults, (store s r i' (list s r i' ++ [(g.lane l).reg64 c.toNat])).quietItems r)) ∧
    SeqWord (.wltake h pd d) h (fun _ _ => True) (fun _ g _ s =>
      let r := g.launch
      let take := fun (i : Nat) (x : DWord) (xs : List DWord) =>
        (Does.takes ((pairW d.toNat 511 x), [(pd.toNat, true)], 0),
         (store s r i xs).readyWhere fun g p => g.launch == r && p == .listFull)
      match list s r g.core, list s r 255 with
      | x :: xs, _ => take g.core x xs
      | [], x :: xs => take 255 x xs
      | [], [] => (.takes ([], [(pd.toNat, false)], 0), s)) ∧
    (let ticket := fun (g : Group) (l : Nat) (s : State) (f : Nat → Nat → Nat → Does × State) => match g.team.bind s.team with
       | none => (bad, s)
       | some t =>
         let k := ((envOf false g l).kind n).toNat
         if 15 < k ∨ (k = 15 ∧ (s.rcd g.launch).blk.detr = true) then (bad, s)
         else f (t.task.stg * 16 + k) (Sparse.get 0 (s.rcd g.launch).tickets (t.task.stg * 16 + k))
           (match q with | some r => ((g.lane l).reg r.toNat).toNat | none => t.task.seq.toNat)
     let gives := fun (v : Word) => Does.takes ([(d.toNat, v)], [], 0)
     SeqWord (.tkwait h d q n) h (fun _ _ => True) (fun _ g l s => ticket g l s fun key v t =>
       if v < t then (.parks (.ticket key t), s)
       else if t < v then (gives 2, s)
       else (gives (if Sparse.get false (s.rcd g.launch).skipped key then 1 else 0), s)) ∧
     SeqWord (.tkpass h d q n) h (fun s g => g.team.isSome = true → calm s g) (fun _ g l s => ticket g l s fun key v t =>
       let r := g.launch
       let v' := (v + 1) % 2 ^ 32
       if v = t then (gives 0, (s.setRec r { s.rcd r with
           tickets := Sparse.set 0 (s.rcd r).tickets key v', skipped := Sparse.set false (s.rcd r).skipped key false }).readyWhere
             fun g p => g.launch == r && (match p with | .ticket k q => k == key && decide (q ≤ v') | _ => false))
       else (gives (if v < t then 1 else 2), s)))) ∧
  -- the groups that an item releases
  (∀ (s : State) (r : Nat), Sparse.wf none s.groups = true → ∀ gid g, s.group gid = some g →
    let has := fun (i : Nat) => Sparse.get ([] : List DWord) (s.rcd r).lists i ≠ []
    (g.launch = r → g.idle = true → has g.core ∨ has 255 → (s.quietItems r).group gid = some (g.unquiet 0)) ∧
    (¬ (g.launch = r ∧ g.idle = true ∧ (has g.core ∨ has 255)) → (s.quietItems r).group gid = some g)) ∧
  (∀ (g : Group) (v : Word) (l : Nat), l < 32 → g.resident = true →
    (g.unquiet v).idle = false ∧ (g.unquiet v).lane l = match (g.lane l).park with
      | .quiet d _ => { (g.lane l).setReg d v with st := .eligible, park := .none, ready := false, pc := (g.lane l).pc + 8 }
      | _ => g.lane l) ∧
  (∀ (h : Hdr) (n : Kind) (s : State) (g : Group), Still s g h → active s g h ≠ 0 → (∀ r, n ≠ .v r) →
    WordReady s g h (.setpri h n) →
    let l := oneLane s g h
    let v := ((envOf false g l).kind n).toNat
    (v ≤ (s.ctx (s.ctxOf g)).pceil.toNat → ∃ g', exec (.setpri h n) s = .next (((numbered s).setRec g.launch
        { s.rcd g.launch with blk := { (s.rcd g.launch).blk with pri := v } }).setGroup s.cur.gid g') ∧
      lanesAfter s g g' h (fun _ ln => ln) ∧ g'.g = g.g ∧ groupAfter s g g' h) ∧
    ((s.ctx (s.ctxOf g)).pceil.toNat < v → (∀ l, (active s g h).getLsbD l = true → (g.lane l).handler = false) →
      ∃ g', exec (.setpri h n) s = .next ((numbered s).setGroup s.cur.gid g') ∧
        lanesRun s g g' h (fun _ ln => ln.trap 0x22 0 0) ∧ groupAfter s g g' h)) ∧
  ∀ (h : Hdr) (d : RegIx) (s : State) (g : Group), Still s g h → active s g h ≠ 0 → WordReady s g h (.quiet h d) →
    ∃ g', exec (.quiet h d) s = .next (({ numbered s with next := s.next + 2 }.setGroup s.cur.gid { g' with idle := true }).tailrace g.launch) ∧
      lanesRun s g g' h (fun _ ln => ln.parkOn (.quiet d.toNat none) (s.next + 1)) ∧ g'.g = g.g ∧ groupAfter s g g' h

/-! ### Special registers, calls, windows and exceptions (files 13 to 15, 18) -/

/-- R310, R215, R426 to R430, R299: CSRR for every special register, CSRW, SYSCALL, TRAPRET and the windows. -/
def Obligations.SystemWords : Prop :=
  (∀ (h : Hdr) (toG : Bool) (d n : RegIx) (s : State) (g : Group), WordReady s g h (.csrr h toG d n) →
    (n = 0x023#9 → ∀ l, (active s g h).getLsbD l = true → s.laneSettled g s.cur.gid l = true) →
    let B := (s.rcd g.launch).blk
    let task := match g.team.bind s.team with | some t => some t.task | none => none
    let num := fun (x : Nat) => some (BitVec.ofNat 64 x)
    let ofTask := fun (none' : Nat) (f : Task → Nat) => match task with | some t => num (f t) | none => num none'
    let vis := if B.prot then 16 else 32
    let no := fun (l : Nat) => if B.prot then l / 2 else l
    let value : Nat → Option DWord := fun l => match n.toNat with
      | 0x000 => if toG then none else num (no l)
      | 0x001 => if toG then none else ofTask 0xFFFFFFFF fun _ => g.grp * vis + no l
      | 0x002 => ofTask 0xFFFFFFFF fun _ => g.grp
      | 0x003 => ofTask 0xFFFFFFFF fun _ => g.role
      | 0x004 => ofTask 0xFFFFFFFF fun t => B.teamIn t
      | 0x005 => ofTask 0xFFFFFFFF fun t => B.cluster t
      | 0x006 => num g.core
      | 0x007 => num (g.core / 24)
      | 0x008 => num (match g.spawned with | some x => x.depth | none => 0)
      | 0x009 => ofTask 0 fun t => t.stg
      | 0x00A => ofTask 0 fun t => t.seq.toNat
      | 0x00B => num g.step.toNat
      | 0x00C => num g.budget
      | 0x010 => ofTask 0 fun t => t.tx.toNat
      | 0x011 => ofTask 0 fun t => t.ty.toNat
      | 0x012 => ofTask 0 fun t => t.tz.toNat
      | 0x014 => ofTask 0 fun t => (t.uw.getD 0 0).toNat
      | 0x015 => ofTask 0 fun t => (t.uw.getD 1 0).toNat
      | 0x016 => ofTask 0 fun t => (t.uw.getD 2 0).toNat
      | 0x017 => ofTask 0 fun t => (t.uw.getD 3 0).toNat
      | 0x018 => ofTask B.arg.toNat fun t => t.arg.toNat
      | 0x020 => if toG then none else some s.cur.pc
      | 0x021 => if toG then none else num (g.lane l).cause.toNat
      | 0x022 => if toG then none else num ((if B.snant then 512 else 0) + (if B.flush then 256 else 0) + (g.lane l).rm.toNat)
      | 0x023 => if toG then none else num (g.lane l).flags.toNat
      | 0x030 => num s.clk
      | _ => none
    let wide := n = 0x018#9 ∨ n = 0x020#9 ∨ n = 0x030#9
    let regs := fun (z : Nat) (x : DWord) => if wide then pairW d.toNat z x else [(d.toNat, BitVec.extractLsb' 0 32 x)]
    ((∀ l, (active s g h).getLsbD l = true → value l ≠ none) →
      ∃ g', exec (.csrr h toG d n) s = .next (s.setGroup s.cur.gid g') ∧
        lanesAfter s g g' h (fun l ln => if toG then ln else match value l with | some x => ln.setRegs (regs 511 x) | none => ln) ∧
        g'.g = (if toG ∧ active s g h ≠ 0 then match value (oneLane s g h) with | some x => g.setGrs (regs 127 x) | none => g else g).g ∧
        g'.landings = g.landings ∧ groupAfter s g g' h) ∧
    ((∀ l, (active s g h).getLsbD l = true → value l = none ∧ (g.lane l).handler = false) →
      ∃ g', exec (.csrr h toG d n) s = .next (s.setGroup s.cur.gid g') ∧ lanesRun s g g' h (fun _ ln => ln.trap 0x22 0 0) ∧
        groupAfter s g g' h)) ∧
  (∀ (h : Hdr) (n : RegIx) (c : Kind), Runs (.csrw h n c) h
    (fun s g => (∀ l, (active s g h).getLsbD l = true → s.laneSettled g s.cur.gid l = true) ∧
      ((n ≠ 0x022#9 ∧ n ≠ 0x023#9) ∨ (n = 0x022#9 ∧ ∃ l, (active s g h).getLsbD l = true ∧ 5 ≤ ((envOf false g l).kind c).toNat % 8) →
        ∀ l, (active s g h).getLsbD l = true → (g.lane l).handler = false))
    (fun s g l ln =>
      let x := (envOf false g l).kind c
      let on := { ln with pc := s.cur.pc + BitVec.ofNat 64 s.cur.len }
      if n = 0x022#9 then if 5 ≤ x.toNat % 8 then ln.trap 0x22 0 0 else { on with rm := BitVec.extractLsb' 0 3 x }
      else if n = 0x023#9 then { on with flags := BitVec.extractLsb' 0 5 x }
      else ln.trap 0x22 0 0)) ∧
  (∀ (h : Hdr) (d a : RegIx) (n : BitVec 9),
    SeqWord (.syscall h d a n) h
      (fun s g => s.txns = [] ∧ s.clean g.core (s.ctxOf g) = true ∧ s.hostQuiet (s.ctxOf g) 0 = true ∧ s.hostQuiet (s.ctxOf g) 1 = true)
      (fun s0 g l s => match (s.group s0.cur.gid).bind fun gm => if (gm.lane l).linkLost then some gm else none with
        | some gm => (.traps 0x2B 0 0, s.setGroup s0.cur.gid (gm.setLane l { gm.lane l with linkLost := false }))
        | none =>
            let k := s.ctxOf g
            let c := s.ctx k
            let call : Svc := { arg := (g.lane l).reg64 a.toNat, num := BitVec.extractLsb' 0 8 n, launch := g.launch, core := g.core
                                gid := s0.cur.gid, lane := l, d := d.toNat }
            let s1 := s.setCtx k { c with svcs := c.svcs ++ [call] }
            (.parks (.svc none), if c.svcs = [] ∧ c.svcie = true ∧ c.friv.toNat < (if c.func.toNat = 0 then 2048 else 64) then
              { s1 with out := .msix c.port.toNat c.func.toNat c.friv.toNat :: s1.out } else s1))) ∧
  (∀ (h : Hdr) (onG : Bool) (c : RegIx) (s : State) (g : Group), WordReady s g h (.trapret h onG c) → s.settled s.cur.gid g = true →
    let T := fun (l : Nat) => (envOf false g l).a64 onG c
    let legal := fun (l : Nat) => (T l).toNat % 8 = 0 ∧ (T l).toNat < 2 ^ 57
    (∀ l, (active s g h).getLsbD l = true → (g.lane l).handler = true) ∧
    ((∀ l, (active s g h).getLsbD l = true → legal l) →
      ∃ g', exec (.trapret h onG c) s = .next (s.setGroup s.cur.gid g') ∧
        lanesRun s g g' h (fun l ln => { ln with st := .eligible, handler := false, pc := T l, park := .none, ready := false, replayJoin := false }) ∧
        g'.g = g.g ∧ groupAfter s g g' h ∧
        (g'.handling = true ↔ g.handling = true ∧ ∃ l, l < 32 ∧ (g'.lane l).handler = true ∧ (g'.lane l).st ≠ .exited)) ∧
    (∀ l, lanesOf (active s g h) = [l] → ¬ legal l →
      ∃ g', exec (.trapret h onG c) s = .next ((s.setGroup s.cur.gid g').endLaunch g.launch .fault 0x1C))) ∧
  ∀ (h : Hdr) (s : State) (g : Group), active s g h ≠ 0 →
    let one := fun (i : Instr) (depth : Nat) => ∃ g', exec i s = .next (s.setGroup s.cur.gid { g' with depthNp := depth }) ∧
      lanesAfter s g g' h (fun _ ln => ln) ∧ g'.g = g.g ∧ groupAfter s g g' h
    let traps := fun (i : Instr) (code : Nat) => (∀ l, (active s g h).getLsbD l = true → (g.lane l).handler = false) →
      ∃ g', exec i s = .next (s.setGroup s.cur.gid g') ∧ lanesRun s g g' h (fun _ ln => ln.trap code 0 0) ∧ groupAfter s g g' h
    (WordReady s g h (.npbegin h) →
      (g.depthNp = 15 → traps (.npbegin h) 0x22) ∧
      (g.depthNp ≠ 15 → 100000 ≤ g.buckets.sum → traps (.npbegin h) 0x36) ∧
      (g.depthNp ≠ 15 → g.buckets.sum < 100000 → one (.npbegin h) (g.depthNp + 1))) ∧
    (WordReady s g h (.npend h) → one (.npend h) (g.depthNp - 1))

/-- R150 to R152, R280, R281, R284 to R286, R299, R315: taking an exception, the start of trap handling, the joins, releases and
landings of a group's lanes, and the end of its waits and windows. -/
def Obligations.ExceptionsTaken : Prop :=
  (∀ (s : State) (gid l code acc : Nat) (addr : DWord) (g : Group), s.group gid = some g →
    ((g.lane l).handler = false → s.takeTrap gid l code acc addr = s.setGroup gid (g.setLane l { g.lane l with
      st := .trapped, park := .none, ready := false, cause := BitVec.ofNat 32 (acc % 4 * 256 + code % 256), addr := addr
      replayJoin := decide (code = 0x39) })) ∧
    ((g.lane l).handler = true → code ≠ 0x39 → s.takeTrap gid l code acc addr = s.endLaunch g.launch .fault 0x1C)) ∧
  (∀ (s : State) (r : Nat) (st : EndSt) (detail : Nat), (s.rcd r).st = .running ∨ (s.rcd r).st = .waiting → Sparse.wf none s.groups = true →
    open Classical in
    let t := s.endLaunch r st detail
    (t.rcd r).endSt = st ∧ (t.rcd r).detail = BitVec.ofNat 8 detail ∧ (t.rcd r).pending = [] ∧
    t.mem = s.mem ∧ (∀ q, q ≠ r → t.rcd q = s.rcd q) ∧
    -- its groups stop at their boundaries: those that stand at one leave, the others are to stop; the last one to leave makes the stamp due
    (∀ gid g, s.group gid = some g → g.launch = r →
      (t.group gid = none ∨ g.resident = true ∧ t.group gid = some { g with preempt := true, idle := false }) ∧
      (g.resident = false ∨ (g.landings = [] ∧ ∀ id x, (id, some x) ∈ s.txns → x.gid ≠ gid) → t.group gid = none)) ∧
    -- and the engines of its teams come to where they stop
    (t.rcd r).st = (if (∀ gid g, s.group gid = some g → g.launch = r → t.group gid = none) ∧
      (∀ u tm, s.team u = some tm → tm.task.lrec = r → tm.st ≠ .suspended → s.enginesOver u tm = true) then .stamped else .ending)) ∧
  (∀ (s : State) (gid : Nat) (g : Group), s.group gid = some g → g.resident = true → g.handling = false → s.settled gid g = true →
    let cx := s.ctx (s.ctxOf g)
    let g1 : Group := { g with hazards := [] }
    -- one lane is trapped, the others have ended
    (∀ t, t < 32 → (g.lane t).st = .trapped → (∀ l, l < 32 → l ≠ t → (g.lane l).st = .exited) →
      ((g.lane t).replayJoin = true → exec (.rjoinComplete gid) s =
        .next (s.setGroup gid (g1.setLane t { g.lane t with st := .eligible, replayJoin := false }))) ∧
      ((g.lane t).replayJoin = false → cx.ten = false ∨ cx.locsz = 0 →
        exec (.rjoinComplete gid) s = .next (s.endLaunch g.launch .fault ((g.lane t).cause.toNat % 256))) ∧
      ((g.lane t).replayJoin = false → cx.ten = true → cx.locsz ≠ 0 →
        let handler : DWord := (cx.handler ++ (0#3 : BitVec 3)).zeroExtend 64
        let g3 : Group := { g1 with handlerPc := handler }
        let word : Ctl := { gid := gid, g := g3, act := BitVec.ofNat 32 (2 ^ t), pc := (g.lane t).pc, len := 0, u := false
                            prot := (s.rcd g.launch).blk.prot }
        ∀ ws ps fl s1 g2, (s.setGroup gid g3).storeLocal word t (toLE 8 (g.lane t).pc.toNat ++ toLE 8 (g.lane t).addr.toNat)
            (cx.locBytes - 16) = (.done ws ps fl, s1) → s1.group gid = some g2 →
          exec (.rjoinComplete gid) s = .next (s1.setGroup gid { g2.setLane t { g2.lane t with
            st := .eligible, park := .none, ready := false, handler := true, replayJoin := false
            pc := handler } with handling := true }))) ∧
    -- no lane is trapped, and lanes join
    (∀ a : DWord, (∀ l, l < 32 → (g.lane l).st ≠ .trapped) →
      (∃ l, l < 32 ∧ (g.lane l).st = .joining ∧ (g.lane l).pc = a) →
      (∀ l, l < 32 → (g.lane l).st = .joining ∨ (g.lane l).st = .eligible → a.toNat ≤ (g.lane l).pc.toNat) →
      ∃ g', exec (.rjoinComplete gid) s = .next (s.setGroup gid g') ∧
        g' = { g with lanes := g'.lanes, hazards := [], floor := none, mask := 0 } ∧
        ∀ l, l < 32 → g'.lane l = if (g.lane l).st = .joining ∧ (g.lane l).pc = a then { g.lane l with st := .eligible, pc := a + 8 }
          else g.lane l)) ∧
  (∀ (s : State) (gid l : Nat) (g : Group), s.group gid = some g →
    (∀ d rest, g.landings = d :: rest → d.lane = l → l < 32 → (g.lane l).st ≠ .exited →
      exec (.resultLands gid l) s = .next (s.setGroup gid { g.setLane l { ((g.lane l).setRegs d.writes).setPreds d.preds with
        flags := (g.lane l).flags ||| d.flags } with landings := rest })) ∧
    (∀ d rest, g.landings = d :: rest → d.lane = 32 → l = 32 →
      exec (.resultLands gid l) s = .next (s.setGroup gid { g.setGrs d.writes with landings := rest })) ∧
    ((g.lane l).st = .parked → (g.lane l).ready = true → g.resident = true → (s.rcd g.launch).blk.prot = false →
      let lane := fun (ln : Lane) (n : DWord) => exec (.laneRelease gid l) s =
        .next (s.setGroup gid (g.setLane l { ln with st := .eligible, park := .none, ready := false, pc := (g.lane l).pc + n }))
      match (g.lane l).park with
      | .signed .. | .barcl .. | .jwait .. | .spawn _ => lane (g.lane l) 8
      | .svc (some r) => lane ((g.lane l).setRegs (pairW r.1 511 r.2)) 8
      | .quiet d (some v) => lane ((g.lane l).setReg d v) 8
      | .handlerEntry _ => True
      | _ => lane (g.lane l) 0) ∧
    (g.readyAt ≤ s.clk → exec (.backoffExpiry gid) s = .next (if g.held then s.setGroup gid { g with held := false } else s) ∧
      exec (.sleepExpiry gid) s = .next (if g.asleep then s.setGroup gid { g with asleep := false } else s)) ∧
    (s.clk < g.readyAt → exec (.backoffExpiry gid) s = .next s ∧ exec (.sleepExpiry gid) s = .next s) ∧
    -- a window that has run out: the group is to leave its core, and does where it can be saved by itself
    (let spent : Group := { g with depthNp := 0, overrun := true, preempt := true }
     let s1 := s.setGroup gid spent
     let stops := ∃ u t, g.team = some u ∧ s.team u = some t ∧ t.stopping = true
     g.overrun = false → g.depthNp ≠ 0 → 100000 ≤ g.buckets.sum →
      (g.resident = false ∨ stops → exec (.npOverrun gid) s = .next s1) ∧
      (∀ t, g.resident = true → ¬ stops → s1.savePlace spent = none → g.eligible = [t] → (g.lane t).handler = false →
        exec (.npOverrun gid) s = .next (s.setGroup gid { g.setLane t ((g.lane t).trap 0x36 0 0) with depthNp := 0, preempt := false })) ∧
      (∀ s2 g2, g.resident = true → ¬ stops → s1.savePlace spent ≠ none → s1.suspendGroup gid = (true, s2) → s2.group gid = some g2 →
        g2.resident = false →
        exec (.npOverrun gid) s = .next { s2.setGroup gid { g2 with jwaitEnded := s2.next } with next := s2.next + 1 })) ∧
    (g.overrun = false → g.depthNp = 0 ∨ g.buckets.sum < 100000 → exec (.npOverrun gid) s = .next s)) ∧
  (∀ (s : State) (gid l : Nat) (g : Group) (id x va n : Nat) (t : Txn) (cmp : MonCmp) (wide : Bool) (b : DWord) (d : RegIx),
    s.group gid = some g → (g.lane l).park = .monitor id → s.txn id = some t → t.tgt = .cell → s.poison = [] → s.lineFree none t.line = true →
    (s.rcd g.launch).blk.prot = false →
    t.parts = [{ lane := l, addr := x, va := va, len := n, op := .monitor cmp wide b d }] →
    let v := s.wordAt x n
    exec (.monwaitTimeout gid l) s = .next ({ s with txns := Sparse.set none s.txns id none }.setGroup gid (g.setLane l
      { (g.lane l).setRegs (if wide then pairW d.toNat 511 (BitVec.ofNat 64 v) else [(d.toNat, BitVec.ofNat 32 v)]) with
        st := .eligible, park := .none, ready := false, pc := (g.lane l).pc + 8 }))) ∧
  -- boundaries lie at the multiples of 125,000 core cycles
  (∀ s : State, Sparse.wf none s.groups = true →
    (s.clk / 125000 ≤ s.bucketNo → exec .bucketBoundary s = .next s) ∧
    (s.bucketNo < s.clk / 125000 → ∃ t, exec .bucketBoundary s = .next t ∧ t = { s with groups := t.groups, bucketNo := s.bucketNo + 1 } ∧
      ∀ gid, t.group gid = (s.group gid).map fun g =>
        if g.buckets = [] then g else { g with buckets := if g.resident then (0 :: g.buckets).take 17 else 0 :: g.buckets })) ∧
  -- as many lanes are released as there is room for, and their places are kept
  ∀ (s : State) (e : Sys2Proof.Engine),
    ((s.engineUse e).2 ≤ (s.engineUse e).1 + (s.wokenFor e).length → exec (.engineRoomFree e) s = .next s) ∧
    ∀ gid l g, (s.engineUse e).1 + (s.wokenFor e).length < (s.engineUse e).2 → s.roomLanes e = [(gid, l)] → s.group gid = some g →
      (s.rcd g.launch).blk.prot = false →
      exec (.engineRoomFree e) s = .next { s.setGroup gid (g.setLane l { g.lane l with ready := true }) with
        wokenRooms := s.wokenRooms ++ [(e, gid, l)] }

/-! ### The package and its controller (files 01, 02) -/

/-- R17, R20, R27, R28, R36 to R38, R87: loss of power, power-good, the steps of start-up, the core wake and device reset.
An I/O die found absent stays so until power is lost. That the event log starts anew at device reset is the model's reading of the Reset column (log entry 12). -/
def Obligations.StartUpAndReset : Prop :=
  let good := fun (s : State) (slot : Nat) => Config.imageOk slot (s.mgmt.written slot) = true ∧
    (s.mgmt.minVer.getD Config.minVersion).toNat ≤ (Config.imageVersion slot (s.mgmt.written slot)).toNat
  let raised := fun (s : State) (slot : Nat) =>
    if (s.mgmt.minVer.getD Config.minVersion).toNat < (Config.imageVersion slot (s.mgmt.written slot)).toNat then
      some (Config.imageVersion slot (s.mgmt.written slot)) else s.mgmt.minVer
  (∀ s : State, ∃ t, exec .lossOfPower s = .next t ∧ t.mgmt.boot = .off ∧ t.mem = [] ∧ t.poison = [] ∧ t.recs = [] ∧ t.ctxs = [] ∧
    t.teams = [] ∧ t.groups = [] ∧ t.txns = [] ∧ t.copies = [] ∧ t.mgmt.flash = s.mgmt.flash ∧ t.mgmt.flashLog = s.mgmt.flashLog ∧
    t.mgmt.selected = s.mgmt.selected ∧ t.mgmt.minVer = s.mgmt.minVer ∧ t.mgmt.log = []) ∧
  (∀ s : State, s.mgmt.boot = .off →
    let other := 1 - s.mgmt.selected
    let sel := s.mgmt.selected
    let s0 : State := { s with uptime := 0 }
    let fell := s0.logEv .imageFallback 2 (evQuad 0) [sel]
    let key := fun (t : State) => match s.input with
      | .power false => { t with mgmt := { t.mgmt with keyOk := false } }.logEv .noKey 2 (evQuad 0) []
      | _ => t
    (good s sel → exec .powerGood s = .next (key { s0 with mgmt := { s.mgmt with boot := .step 0, running := sel } })) ∧
    (¬ good s sel → good s other → exec .powerGood s = .next (key { fell with mgmt := { fell.mgmt with boot := .step 0, running := other } })) ∧
    (¬ good s sel → ¬ good s other → exec .powerGood s = .next { fell with mgmt := { fell.mgmt with boot := .noImage } })) ∧
  (∀ (s : State) (i n : Nat) (failed : Bool), s.mgmt.boot = .step i → s.input = .startUp failed n →
    let s1 := { s with mgmt := { s.mgmt with boot := if i < 23 then .step (i + 1) else .wake 0 } }
    let iod := i = 21 ∨ i = 22
    (failed = false → ¬ iod → exec .startUpStep s = .next s1) ∧
    (failed = false → iod → n < 6 → Sparse.get 0 s.modulesUp (i - 21) < 6 →
      exec .startUpStep s = .next { s1 with modulesUp := Sparse.set 0 s.modulesUp (i - 21) n }) ∧
    -- one that was found absent stays so until power is lost
    (failed = false → iod → n < 6 → Sparse.get 0 s.modulesUp (i - 21) = 6 → exec .startUpStep s = .next s1) ∧
    (iod → failed = true ∨ 6 ≤ n → exec .startUpStep s =
      .next ({ s1 with modulesUp := Sparse.set 0 s.modulesUp (i - 21) 6 }.logEv .iodAbsent 2 (evIod (i - 21)) [i])) ∧
    (failed = true → i = 0 →
      exec .startUpStep s = .next ({ s with mgmt := { s.mgmt with boot := .notReady } }.logEv .dieFailed 3 (evQuad 0) [i])) ∧
    (failed = true → 1 ≤ i → i ≤ 8 → exec .startUpStep s =
      .next ({ s1 with sramDown := Sparse.set false s.sramDown (i - 1) true }.logEv .dieFailed 2 (evSrc .sram (i - 1) ((i - 1) / 2)) [i])) ∧
    (failed = true → 9 ≤ i → i ≤ 20 → exec .startUpStep s =
      .next ({ s1 with stackDown := Sparse.set false s.stackDown (i - 9) true }.logEv .stackFailed 2 (evSrc .hbm (i - 9) ((i - 9) / 3)) [i]))) ∧
  (∀ (s : State) (g n : Nat) (failed : Bool), s.mgmt.boot = .wake g → s.input = .startUp failed n →
    let k := g % 8
    let s1 := if failed then (s.setDie k { s.die k with st := .fenced, cause := 3 }).logEv .dieFailed 2 (evDie k) [] else s
    let served := s.stackDown = [] ∧
      ∀ q, q < 4 → ¬ (Sparse.get false s.sramDown (2 * q) = true ∧ Sparse.get false s.sramDown (2 * q + 1) = true)
    (g < 47 → exec .coreWake s = .next { s1 with mgmt := { s1.mgmt with boot := .wake (g + 1) } }) ∧
    (¬ g < 47 → served → exec .coreWake s = .next { s1 with
      clk := 0, dies := mapVals {} s1.dies fun d => { d with duty := 16 }
      mgmt := { s1.mgmt with boot := .ready, minVer := raised s s.mgmt.running }, out := .ready :: s1.out }) ∧
    (¬ g < 47 → ¬ served → exec .coreWake s = .next { s1 with mgmt := { s1.mgmt with boot := .notReady } })) ∧
  ∀ s : State, s.mgmt.boot = .ready → good s s.mgmt.selected → ∃ t, exec .deviceReset s = .next t ∧
    t.mem = [] ∧ t.poison = [] ∧ t.dies = [] ∧ t.quads = [] ∧ t.ctxs = [] ∧ t.recs = [] ∧ t.teams = [] ∧ t.groups = [] ∧ t.txns = [] ∧
    t.dir = [] ∧ t.copies = [] ∧ t.arrays = [] ∧ t.clk = 0 ∧ t.uptime = s.uptime ∧
    t.mgmt = { flash := s.mgmt.flash, flashLog := s.mgmt.flashLog, selected := s.mgmt.selected, running := s.mgmt.selected
               keyOk := s.mgmt.keyOk, minVer := raised s s.mgmt.selected }

/-- R18, R19, R29, R34, R43, R281, R287: a power sample, a budget period, and the errors of bonds, caches, registers and
homes, with the lines that a lost SRAM die poisons. -/
def Obligations.SamplesAndErrors : Prop :=
  -- the 56 sensors: four of each compute die, the SRAM dies, the HBM4E base dies, four of the Millpond
  (∀ (s : State) (avg now : Nat) (ts : List Nat), s.input = .sample avg now ts → Sparse.wf {} s.mgmt.log = true →
    ∃ t, exec .powerSample s = .next t ∧
      let d := (s.die 0).duty
      let above := fun (n : Nat) => ∃ i, i < 56 ∧ n < ts.getD i 0
      let hot := fun (i n : Nat) => decide (∃ j, j < n ∧ 115 < ts.getD (i + j) 0)
      let mill := hot 52 4 = true ∧ s.mgmt.millHot = true
      let mem := ∃ j, j < 20 ∧ 115 < ts.getD (32 + j) 0 ∧ Sparse.get false s.mgmt.sensorHot (32 + j) = true
      (∀ k, k < 8 →
        (s.mgmt.powerHigh = true ∧ 3100 < now ∧ 8 < d → (t.die k).duty = 8) ∧
        (¬ (s.mgmt.powerHigh = true ∧ 3100 < now ∧ 8 < d) → 2600 < avg ∨ above 105 → (t.die k).duty = max (d - 1) 4) ∧
        (¬ (s.mgmt.powerHigh = true ∧ 3100 < now ∧ 8 < d) → avg < 2500 → ¬ above 100 → (t.die k).duty = min (d + 1) 16) ∧
        (¬ (s.mgmt.powerHigh = true ∧ 3100 < now ∧ 8 < d) → ¬ (2600 < avg ∨ above 105) → ¬ (avg < 2500 ∧ ¬ above 100) → (t.die k).duty = d) ∧
        ((s.die k).st = .online → hot (4 * k) 4 = true → (s.die k).hot = true → (t.die k).st = .fencing ∧ (t.die k).cause = 4) ∧
        (¬ (hot (4 * k) 4 = true ∧ (s.die k).hot = true) → (t.die k).st = (s.die k).st ∧ (t.die k).cause = (s.die k).cause) ∧
        (t.die k).hot = hot (4 * k) 4) ∧
      t.mgmt.powerHigh = decide (3100 < now) ∧ t.mgmt.millHot = hot 52 4 ∧
      (∀ i, i < 56 → Sparse.get false t.mgmt.sensorHigh i = decide (105 < ts.getD i 0) ∧
        Sparse.get false t.mgmt.sensorHot i = decide (115 < ts.getD i 0)) ∧
      -- every sensor that crosses a threshold is logged
      (∀ i, i < 56 → ∀ limit old, (limit = 105 ∧ old = s.mgmt.sensorHigh) ∨ (limit = 115 ∧ old = s.mgmt.sensorHot) →
        Sparse.get false old i ≠ decide (limit < ts.getD i 0) → ∃ n, s.mgmt.evprod ≤ n ∧ n < t.mgmt.evprod ∧
          Sparse.get {} t.mgmt.log n = { time := s.uptime / 2, ev := .tempCrossing, src := BitVec.ofNat 16 (sensorSrc i), sev := 1
                                         args := [i, limit, ts.getD i 0] }) ∧
      (mill ∨ mem → t.mgmt.boot = .stopped ∧ t.out = .stopped :: .i3c :: s.out) ∧
      (¬ (mill ∨ mem) → t.mgmt.boot = s.mgmt.boot ∧ t.out = s.out) ∧
      t.mem = s.mem ∧ t.recs = s.recs ∧ t.groups = s.groups ∧ t.ctxs = s.ctxs) ∧
  (∀ s : State, (∀ p ∈ s.recs, p.2.st = .running → p.2.blk.nstages ≤ 1) →
    (s.mgmt.activating = true → exec .budgetPeriod s = .next { s with mgmt := { s.mgmt with
      active := s.mgmt.checked, activating := false, busy := false, code := 0, rlen := 0 } }) ∧
    (s.mgmt.activating = false → exec .budgetPeriod s = .next s)) ∧
  (∀ (s : State) (k : Nat), k < 8 → s.input = .bond false k → (s.die k).st = .online →
    exec .bondFlitError s = .next ((s.logEv .bondFlit 1 (evDie k) [k]).setDie k { s.die k with st := .fencing, cause := 2 })) ∧
  (∀ (s : State) (i : Nat), i < 8 → s.input = .bond true i → Sparse.get false s.sramDown i = false →
    ∃ t, exec .bondFlitError s = .next t ∧ t.sramDown = Sparse.set false s.sramDown i true ∧ t.mem = s.mem ∧
      (Sparse.get false s.sramDown (i ^^^ 1) = true → t.mgmt.noLaunch = true ∧ ∀ r, (t.rcd r).st ≠ .running ∧ (t.rcd r).st ≠ .waiting) ∧
      -- poisoned are the lines of the die in the carve-out, and those written since they were last written to HBM4E
      (Sparse.get false s.sramDown (i ^^^ 1) = false → t.recs = s.recs ∧ t.groups = s.groups ∧
        let carved := fun (line : Nat) => ∃ j, j < 2 ^ 17 * (s.quad (i / 2)).carve.toNat ∧ line = (carveBase + i / 2 * 2 ^ 27) / 128 + j
        ∀ line o, o < 4 → (Sparse.get false t.poison (4 * line + o) = true ↔ Sparse.get false s.poison (4 * line + o) = true ∨
          (sramOf line = i ∧ (carved line ∨ (line ∈ s.llcNew.map (·.1) ∧ Config.writtenBack s.free line = false)))))) ∧
  (∀ s : State,
    -- entries of the caches and TLBs are dropped
    (∀ die at', s.input = .error (.cache die at') → ∃ u : State,
      exec .uncorrectableError s = .next (u.logEv .cacheError 1
        (match die with | some k => evSrc .compute (k % 8) (at' % 24) | none => evQuad (at' % 4)) []) ∧
      u = { s with free := s.free + 1, ccache := u.ccache, icache := u.icache, l2 := u.l2, pool := u.pool, tlb := u.tlb } ∧
      (∀ p ∈ u.ccache, p ∈ s.ccache) ∧ (∀ p ∈ u.icache, p ∈ s.icache) ∧ (∀ p ∈ u.l2, p ∈ s.l2) ∧ (∀ p ∈ u.pool, p ∈ s.pool) ∧
      ∀ p ∈ u.tlb, p ∈ s.tlb) ∧
    (∀ loc, s.input = .error (.corrected loc) → exec .uncorrectableError s = .next (s.logEv .correctedError 0 (evQuad (quadOf loc)) [loc])) ∧
    (∀ gid l g, s.input = .error (.regCorrectable gid l) → s.group gid = some g → g.resident = true → (g.lane l).st = .eligible →
      (g.lane l).handler = false →
      exec .uncorrectableError s = .next (s.setGroup gid (g.setLane l ((g.lane l).trap 0x39 0 0)))) ∧
    (∀ gid g, s.input = .error (.coreState gid) → s.group gid = some g → g.resident = true →
      exec .uncorrectableError s = .next (s.loseOwner gid 0x19)) ∧
    (∀ q, s.input = .error (.millpond q) → ∃ t, exec .uncorrectableError s = .next t ∧ t.mgmt.noLaunch = true ∧ t.mem = s.mem ∧
      ∀ r, (t.rcd r).st ≠ .running ∧ (t.rcd r).st ≠ .waiting) ∧
    (∀ loc kind agent index, s.input = .error (.home loc kind agent index) → ∃ t, exec .uncorrectableError s = .next t ∧
      t.poison = Sparse.set false s.poison (loc / 32) true ∧ t.mem = s.mem ∧ t.recs = s.recs))

/-- R32, R33, R35, R37 to R39, R43, R46, R47: every mailbox command, an unknown one, and an entry of the event log. -/
def Obligations.MailboxCommands : Prop :=
  let rows : List (Instr × Nat × Nat) := [(.logread, 1, 65536), (.imgwrite, 2, 8192), (.imgcommit, 3, 65536), (.attest, 4, 65536),
    (.cert, 5, 4), (.dieFence, 0x10, 8), (.diereset, 0x11, 8), (.resume, 0x12, 8), (.budget, 0x20, 65536)]
  let posed := fun (s : State) (op : Byte) (arg len : BitVec 16) =>
    { s with mgmt := { s.mgmt with op := op, arg := arg, len := len, started := false, mbOld := [] } }
  let ends := fun (s : State) (code : Byte) (rlen : BitVec 16) =>
    { s with mgmt := { s.mgmt with busy := false, code := code, rlen := rlen } }
  -- a command write while BUSY, a LEN above 4,096, an OP or ARG outside the table
  (∀ row ∈ rows, ∀ (s : State) (arg len : BitVec 16), s.input = .mailbox (BitVec.ofNat 8 row.2.1) arg len → arg.toNat < row.2.2 →
    (s.mgmt.busy = true → exec row.1 s = .next { s with mgmt := { s.mgmt with lost := true } }) ∧
    (s.mgmt.busy = false → 4096 < len.toNat → exec row.1 s = .next (ends (posed s (BitVec.ofNat 8 row.2.1) arg len) 4 0))) ∧
  (∀ (s : State) (op : Byte) (arg len : BitVec 16), s.input = .mailbox op arg len → s.mgmt.busy = false →
    (∀ row ∈ rows, op.toNat = row.2.1 → row.2.2 ≤ arg.toNat) → exec .unknownMailboxOp s = .next (ends (posed s op arg len) 1 0)) ∧
  -- a command that an earlier write started is executed by a step of its own
  (∀ row ∈ rows, ∀ s : State, s.input = .none →
    (s.mgmt.started = false → exec row.1 s = .next s) ∧
    (s.mgmt.started = true → s.mgmt.op.toNat = row.2.1 → s.mgmt.arg.toNat < row.2.2 → 4096 < s.mgmt.len.toNat →
      exec row.1 s = .next (ends { s with free := if s.mgmt.mbOld.isEmpty then s.free else s.free + 1
                                          mgmt := { s.mgmt with started := false, mbOld := [] } } 4 0))) ∧
  (∀ (s : State) (op : Byte) (arg len : BitVec 16), s.input = .mailbox op arg len → s.mgmt.busy = false → len.toNat ≤ 4096 →
    let s1 := posed s op arg len
    let m := s.mgmt
    let word := fun (i : Nat) => leNat ((List.range 8).map fun j => Sparse.get 0 m.mbbuf (i + j))
    (op = 1 → ∃ t, exec .logread s = .next t ∧
      let lo := max (word 0) (m.evprod - 4096)
      let n := min 64 (m.evprod - lo)
      t.mgmt.code = 0 ∧ t.mgmt.rlen = BitVec.ofNat 16 (64 * n) ∧ t.mgmt.busy = false ∧ t.mem = s.mem ∧
      ∀ i e, i < n → Sparse.get {} m.log (lo + i) = e → ∀ j, j < 64 → Sparse.get 0 t.mgmt.mbbuf (64 * i + j) =
        (toLE 8 (lo + i) ++ toLE 8 e.time ++ toLE 2 (Config.evCode e.ev.ctorIdx).toNat ++ toLE 2 e.src.toNat ++ toLE 1 e.sev ++ [0, 0, 0] ++
         (List.range 40).map fun k => Config.evData e.ev.ctorIdx e.args k).getD j 0) ∧
    (op = 2 → arg.toNat < 8192 →
      (2 ^ 25 < 4096 * arg.toNat + len.toNat → exec .imgwrite s = .next (ends s1 4 0)) ∧
      (4096 * arg.toNat + len.toNat ≤ 2 ^ 25 → ∃ f, exec .imgwrite s = .next (ends { s1 with mgmt := { s1.mgmt with flash := f, selected := m.running } } 0 0) ∧
        ∀ x, Sparse.get none f x =
          let base := (1 - m.running) * 2 ^ 25 + 4096 * arg.toNat
          if base ≤ x ∧ x < base + len.toNat then some (Sparse.get 0 m.mbbuf (x - base)) else Sparse.get none m.flash x)) ∧
    (op = 3 →
      let o := 1 - m.running
      let old := (m.minVer.getD Config.minVersion).toNat
      let new := (Config.imageVersion o (m.written o)).toNat
      (Config.imageOk o (m.written o) = false → exec .imgcommit s = .next (ends s1 2 0)) ∧
      (Config.imageOk o (m.written o) = true → new < old → exec .imgcommit s = .next (ends s1 3 0)) ∧
      (Config.imageOk o (m.written o) = true → old ≤ new →
        exec .imgcommit s = .next (ends { s1 with mgmt := { s1.mgmt with selected := o } } 0 0))) ∧
    (op = 4 →
      (m.keyOk = false → exec .attest s = .next (ends s1 7 0)) ∧
      (m.keyOk = true → ∃ t, exec .attest s = .next t ∧ t.mgmt.code = 0 ∧ t.mgmt.rlen = 784 ∧ t.mgmt.busy = false ∧
        let w := m.written m.running
        let body := toLE 8 1 ++ ((List.range 64).map fun j => Sparse.get 0 m.mbbuf j) ++
          ((List.range 64).map fun i => Config.digest 0 m.running w i) ++ ((List.range 64).map fun i => Config.digest 1 m.running w i) ++
          sha512 (m.active.flatMap fun v => toLE 8 v.toNat) ++ toLE 4 (Config.imageVersion m.running w).toNat ++
          toLE 4 (((List.range 8).map fun k => (s.die k).st.code * 16 ^ k).sum)
        ∀ j, j < 784 → Sparse.get 0 t.mgmt.mbbuf j = (body ++ (List.range 512).map fun i => Config.signature body i).getD j 0)) ∧
    (op = 5 → arg.toNat < 4 →
      (m.keyOk = false → exec .cert s = .next (ends s1 7 0)) ∧
      (m.keyOk = true → (Config.cert arg.toNat).length ≤ 4096 → ∃ t, exec .cert s = .next t ∧ t.mgmt.code = 0 ∧
        t.mgmt.rlen = BitVec.ofNat 16 (Config.cert arg.toNat).length ∧
        ∀ j, j < (Config.cert arg.toNat).length → Sparse.get 0 t.mgmt.mbbuf j = (Config.cert arg.toNat).getD j 0)) ∧
    (arg.toNat < 8 →
      let k := arg.toNat
      let d := s.die k
      let die := fun (d' : Die) => s1.setDie k d'
      let waits := fun (d' : Die) =>
        { (s1.setDie k { d' with awaiting := true }) with mgmt := { s1.mgmt with busy := true } }
      (op = 0x10 →
        (d.st = .online → exec .dieFence s = .next (waits { d with st := .fencing, cause := 1 })) ∧
        (d.st = .fencing ∨ d.st = .fenced → exec .dieFence s = .next (ends s1 0 0)) ∧
        (d.st = .resetting → exec .dieFence s = .next (ends s1 5 0)) ∧
        (d.st = .ready → exec .dieFence s = .next (ends ((die { d with st := .fenced, cause := 1 }).logEv .dieFenced 2 (evDie k) [1]) 0 0))) ∧
      (op = 0x11 →
        (d.st = .fenced ∨ d.st = .ready → exec .diereset s = .next (waits { d with st := .resetting })) ∧
        (d.st = .online ∨ d.st = .fencing ∨ d.st = .resetting → exec .diereset s = .next (ends s1 5 0))) ∧
      (op = 0x12 →
        (d.st = .online → exec .resume s = .next (ends s1 0 0)) ∧
        (d.st = .ready → exec .resume s = .next (ends (die { d with st := .online, duty := s1.dutyInForce k }) 0 0)) ∧
        (d.st = .fencing ∨ d.st = .fenced ∨ d.st = .resetting → exec .resume s = .next (ends s1 5 0)))) ∧
    (op = 0x20 →
      let c := fun (v : BitVec 17) => v.toNat % 256
      let b := fun (v : BitVec 17) => v.toNat / 256 % 256
      let valid := (m.staged.map c).sum ≤ 256 ∧ (m.staged.map b).sum ≤ 256 ∧ 4 ≤ c (m.staged.getD 8 0) ∧ 4 ≤ b (m.staged.getD 8 0) ∧
        ∀ v ∈ m.staged, v.getLsbD 16 = true → 1 ≤ c v ∧ 1 ≤ b v
      (valid → exec .budget s = .next { s1 with mgmt := { s1.mgmt with busy := true, activating := true, checked := m.staged } }) ∧
      (¬ valid → exec .budget s = .next (ends s1 6 0)))) ∧
  -- an entry of the event log
  ∀ (s : State) (ev : Ev) (sev src : Nat) (args : List Nat),
    let t := s.logEv ev sev src args
    let e : LogEntry := { time := s.uptime / 2, ev := ev, src := BitVec.ofNat 16 src, sev := sev, args := args }
    t.mgmt.evprod = s.mgmt.evprod + 1 ∧ Sparse.get {} t.mgmt.log s.mgmt.evprod = e ∧
    (∀ n, n ≠ s.mgmt.evprod → s.mgmt.evprod < n + 4096 → Sparse.get {} t.mgmt.log n = Sparse.get {} s.mgmt.log n) ∧
    (2 ≤ sev → t.mgmt.flashLog = ((s.mgmt.evprod, e) :: s.mgmt.flashLog).take 1024) ∧
    (sev < 2 → t.mgmt.flashLog = s.mgmt.flashLog)

/-- R16, R17, R44 to R47, R104, R179, R300: the fence instant, the end of a die's self-test, and the in-field tests.
The die's L2 and its TLBs hold nothing afterwards. -/
def Obligations.DiesFencedAndTested : Prop :=
  (∀ (s : State) (k : Nat), k < 8 → (s.die k).st = .fencing → Sparse.wf none s.txns = true → Sparse.wf {} s.dir = true →
    Sparse.wf none s.teams = true → Sparse.wf none s.dirty = true →
    ∃ t, exec (.fenceInstant k) s = .next t ∧ t.die k = { s.die k with st := .fenced, awaiting := false } ∧
      (∀ j, j ≠ k → t.die j = s.die j) ∧ t.mem = s.mem ∧ t.poison = s.poison ∧
      -- uncommitted stores of the die are lost, whether or not their group is still there, and so is what only its cores held
      (∀ id x, s.txn id = some x → x.core / 24 = k → x.mill = false → x.accepted = false → (∀ q ∈ x.parts, q.op = .store) →
        t.txn id = none) ∧
      (∀ key, key / 2 ^ 48 / 24 = k → Sparse.get none t.dirty key = none) ∧
      (∀ key, key / 2 ^ 41 = k → Sparse.get none t.l2 key = none) ∧
      (∀ agent key, agent = 256 + k ∨ (agent < 192 ∧ agent / 24 = k) → key / 2 ^ 41 / 64 = agent → Sparse.get none t.tlb key = none) ∧
      (∀ key, key / 2 ^ 48 / 24 ≠ k → Sparse.get none t.dirty key = Sparse.get none s.dirty key) ∧
      (∀ line, let d := s.dirOf line
        let d' := t.dirOf line
        d'.sharers = d.sharers &&& ~~~ BitVec.ofNat 8 (2 ^ k) ∧ d'.waiting = d.waiting &&& ~~~ BitVec.ofNat 8 (2 ^ k) ∧
        d'.lo = match d.lo with | some c => if c / 24 = k then none else some c | none => none) ∧
      (∀ u tm, t.team u = some tm → tm.core / 24 = k → tm.st = .suspended) ∧
      ((s.die k).awaiting = true → t.mgmt.busy = false ∧ t.mgmt.code = 0 ∧ t.mgmt.rlen = 0)) ∧
  (∀ (s : State) (k : Nat), (s.die k).st ≠ .fencing → exec (.fenceInstant k) s = .next s) ∧
  (∀ (s : State) (k : Nat) (pass : Bool), (s.die k).st = .resetting → ∃ t, exec (.dieSelfTestEnd k pass) s = .next t ∧
    t.die k = (if pass then { s.die k with st := .ready, offl := 0, awaiting := false }
               else { s.die k with st := .fenced, cause := 5, awaiting := false }) ∧
    (∀ j, j ≠ k → t.die j = s.die j) ∧ t.mem = s.mem ∧ t.recs = s.recs ∧ t.groups = s.groups ∧
    t.mgmt.evprod = s.mgmt.evprod + (if pass then 0 else 1) ∧
    ((s.die k).awaiting = true → t.mgmt.busy = false ∧ t.mgmt.code = if pass then 0 else 5)) ∧
  (∀ (s : State) (c : Nat), c < 192 →
    let test := fun (x : Ift) => { s with mgmt := { s.mgmt with tests := Sparse.set .idle s.mgmt.tests c x } }
    let empty := s.residents c = [] ∧ s.coreTeams c = []
    let skips := fun (s1 : State) => s1.logEv .iftSkipped 1 (evCore c) []
    -- the device is ready, and no other core is being tested
    let due := s.mgmt.boot = .ready ∧ s.otherTest c = false
    -- everything on the core is to stop, and the core is drained
    let drains := fun (i : Instr) (cut : Bool) => ∃ t, exec i s = .next t ∧ t.testOf c = .draining ∧ t.mem = s.mem ∧
      (∀ u tm, s.team u = some tm → tm.core = c → tm.st ≠ .suspended → ∃ tm', t.team u = some tm' ∧ tm'.stopping = true) ∧
      ∀ gid g, s.group gid = some g → g.core = c → g.resident = true → ∃ g', t.group gid = some g' ∧ g'.preempt = true ∧
        (cut = true → g.depthNp ≠ 0 → g'.depthNp = 0 ∧ g'.overrun = true) ∧ (cut = false → g'.depthNp = g.depthNp)
    let begins := fun (i : Instr) (cut : Bool) => Sparse.wf none s.groups = true → Sparse.wf none s.teams = true →
      (empty → exec i s = .next (test .testing)) ∧ (¬ empty → drains i cut)
    (¬ due → exec (.inFieldTest c) s = .next s) ∧
    (s.testOf c = .idle → s.mgmt.ift = false → exec (.inFieldTest c) s = .next s) ∧
    (due → s.testOf c = .idle → s.mgmt.ift = true → (s.die (c / 24)).st ≠ .online → exec (.inFieldTest c) s = .next (skips s)) ∧
    (∀ late, s.testOf c = .deferred → (s.die (c / 24)).st ≠ .online → exec (.inFieldTestRetry c late) s = .next (skips (test .idle))) ∧
    (due → s.testOf c = .idle → s.mgmt.ift = true → (s.die (c / 24)).st = .online →
      (s.windowOpen c = true → exec (.inFieldTest c) s = .next (test .deferred)) ∧
      (s.windowOpen c = false → s.kidsSavable c = true → s.drainRoom c = true → begins (.inFieldTest c) false)) ∧
    (due → s.testOf c = .draining → empty → exec (.inFieldTest c) s = .next (test .testing)) ∧
    (∀ late, s.testOf c = .deferred → (s.die (c / 24)).st = .online → s.drainRoom c = true → s.kidsSavable c = true →
      (s.windowOpen c = true → late = false → exec (.inFieldTestRetry c late) s = .next s) ∧
      (s.windowOpen c = true → late = true → begins (.inFieldTestRetry c late) true) ∧
      (s.windowOpen c = false → begins (.inFieldTestRetry c late) false)) ∧
    (s.testOf c = .testing → exec (.inFieldTestEnd c true) s = .next (test .idle)) ∧
    (s.testOf c = .testing → ∃ t, exec (.inFieldTestEnd c false) s = .next t ∧ t.testOf c = .idle ∧ t.mem = s.mem ∧
      t.die (c / 24) = { s.die (c / 24) with offl := (s.die (c / 24)).offl ||| BitVec.ofNat 24 (2 ^ (c % 24)) } ∧
      t.mgmt.evprod = s.mgmt.evprod + 1 ∧ t.coreEligible c = false))

/-! ### Homes, walks and links (files 01, 03, 08, 09) -/

/-- R16, R179, R181 to R183, R186, R200, R204, R207: a store, a load and an atomic reach their home; acknowledgements; a page
walk, with the entries that the TLBs and the walker pool hold after it. -/
def Obligations.HomesAndWalks : Prop :=
  (∀ (s : State) (id : Nat) (x : Txn) (q : Part), s.postedAt id = none → s.peerAt id = none → s.txns = [(id, some x)] → x.tgt = .cell →
    x.parts = [q] → x.accepted = false → x.deps = [] → x.wb = false → x.l1 = false → x.line = q.addr / 128 → q.rep = false → q.again = false →
    x.rel = false → id < 2 ^ 63 → s.mgmt.boot ≠ .notReady →
    s.poison = [] → s.dirty = [] → (∀ p ∈ s.dir, p.2.waiting = 0) → (s.dirOf x.line).lo = none →
    let sharers := (s.dirOf x.line).sharers
    -- the home accepts a store: it is committed, and every sharer owes an acknowledgement
    (q.op = .store → s.groups = [] → ∃ t, exec (.homeRequest id) s = .next t ∧
      (∀ c, t.cell c = if q.addr ≤ c ∧ c < q.addr + q.data.length then q.data.getD (c - q.addr) 0 else s.cell c) ∧
      t.txn id = some { x with left := true, accepted := true } ∧
      (t.dirOf x.line).sharers = 0 ∧ (t.dirOf x.line).waiting = sharers) ∧
    ∀ g, s.group x.gid = some g → g.resident = true → g.polls = [] → (g.lane q.lane).st ≠ .exited → (s.rcd g.launch).blk.prot = false →
      (∀ w d, q.op = .load w d → q.mask = [] → ∃ t, exec (.homeRequest id) s = .next t ∧ t.mem = s.mem ∧ t.txn id = none ∧
        t.group x.gid = some (g.setLane q.lane ((g.lane q.lane).setRegs (widthWrites w d.toNat (s.cells q.addr q.len)))) ∧
        -- the die's L2 gives the line, or the die becomes a sharer of it
        (let held := s.l2Holds (x.core / 24) x.line (s.sectorsOf x x.line)
         (x.lvl ≠ 0 → held = true → t.quads = s.quads ∧ t.dir = s.dir) ∧
         (x.lvl ≠ 0 → held = false → (t.dirOf x.line).sharers.getLsbD (x.core / 24) = decide (x.core / 24 < 8)) ∧
         (x.lvl = 0 → t.dir = s.dir ∧ t.l2 = s.l2))) ∧
      (∀ op ty a b d, q.op = .atom op ty a b d → s.groups = [(x.gid, some g)] →
        (∀ l, l < 32 → (g.lane l).park = .none) → sharers = 0 →
        let old := s.wordAt q.addr q.len
        ∃ t, exec (.homeRequest id) s = .next t ∧ t.txn id = none ∧
          t.group x.gid = some (g.setLane q.lane ((g.lane q.lane).setRegs
            (if ty.wide then pairW d.toNat 511 (BitVec.ofNat 64 old) else [(d.toNat, BitVec.ofNat 32 old)]))) ∧
          ∀ c, t.cell c = match atomNew op ty old a.toNat b.toNat with
            | some v => if q.addr ≤ c ∧ c < q.addr + q.len then (toLE q.len v).getD (c - q.addr) 0 else s.cell c
            | none => s.cell c)) ∧
  (∀ (s : State) (line die : Nat), die < 8 →
    let d := s.dirOf line
    let w := d.waiting &&& ~~~ BitVec.ofNat 8 (2 ^ die)
    -- reports that wait for their lines are written when an acknowledgement arrives
    (d.waiting = 0 → exec (.invalidationAcknowledgement line die) s = .next s.flushAll) ∧
    (w ≠ 0 → exec (.invalidationAcknowledgement line die) s =
      .next ({ s with l2 := Sparse.set none s.l2 (l2Key die line) none }.setDir line { d with waiting := w }).flushAll) ∧
    (d.waiting ≠ 0 → w = 0 → s.txns = [] → (∀ p ∈ s.ctxs, p.2.reports = []) → ∀ gid g, s.groups = [(gid, some g)] → s.poison = [] →
      ∃ t g', exec (.invalidationAcknowledgement line die) s = .next t ∧ t.mem = s.mem ∧
        t.dirOf line = { d with waiting := 0, src := 0 } ∧ t.group gid = some g' ∧
        ∀ l, l < 32 → g'.lane l = match (g.lane l).park with
          | .jwait c _ => if c / 128 = line ∧ s.wordAt c 4 = 0 then { g.lane l with ready := true } else g.lane l
          | _ => g.lane l)) ∧
  (∀ (s : State) (id : Nat),
    let owed := ∃ p ∈ s.dir, p.2.waiting ≠ 0 ∧ p.2.src = id
    (s.postedAt id = none → s.peerAt id = none → ∀ x, s.txn id = some x → x.tgt = .cell → x.accepted = true → (∀ q ∈ x.parts, q.op = .store) →
      (owed → exec (.acknowledgement id) s = .next s.flushAll) ∧
      (¬ owed → exec (.acknowledgement id) s = .next { s with txns := Sparse.set none s.txns id none }.flushAll)) ∧
    (s.txn id = none → s.peerAt id = none → ∀ w, s.postedAt id = some w → w.accepted = true →
      (owed → exec (.acknowledgement id) s = .next s.flushAll) ∧
      (¬ owed → exec (.acknowledgement id) s = .next { s with posted := Sparse.set none s.posted id none }.flushAll)) ∧
    (s.txn id = none → s.postedAt id = none → ∀ w bs, s.peerAt id = some w → w.reply = some bs →
      (owed → exec (.acknowledgement id) s = .next s.flushAll) ∧
      (¬ owed → exec (.acknowledgement id) s = .next { s with
        peers := Sparse.set none s.peers id none, out := .answer w.port w.src true bs :: s.out }.flushAll))) ∧
  -- a walk through the tables down to a leaf of level `last`
  ∀ (s : State) (agent k last : Nat) (va : DWord) (tab cell : Nat → Nat), agent < 198 → k < 64 → va.toNat < 2 ^ 57 →
    last = 2 ∨ last = 3 ∨ last = 4 → s.poison = [] → s.dir = [] → s.mgmt.boot ≠ .notReady → tab 1 = (s.ctx k).ptroot.toNat * 4096 →
    let span := fun (n : Nat) => if n = 1 then 2 ^ 43 else if n = 2 then 2 ^ 30 else if n = 3 then 2 ^ 21 else 2 ^ 16
    let index := fun (n : Nat) => va.toNat / span n % (if n = 1 then 2 ^ 14 else if n = 2 then 2 ^ 13 else if n = 3 then 2 ^ 9 else 2 ^ 5)
    let entry := fun (n : Nat) => s.wordAt (cell n) 16
    let frame := fun (n : Nat) => entry n % 2 ^ 52 / 512 * 512
    (∀ n, 1 ≤ n → n ≤ last → ∃ v p, s.viewOf (tab n + 16 * index n) = some (v, p, cell n)) →
    (∀ n, 1 ≤ n → n < last → (entry n).testBit 0 = true ∧ (entry n).testBit 1 = false ∧ entryOk (entry n) n = true ∧ tab (n + 1) = frame n) →
    -- neither the TLBs nor the walker pool hold it
    s.tlbFind agent k va.toNat = none → (∀ n, s.pooled agent k n va.toNat = none) → Sparse.wf none s.tlb = true →
    let leaf : Leaf := {
      pa := frame last, level := last, w := (entry last).testBit 3, x := (entry last).testBit 4, wp := (entry last).testBit 80
      lvl := entry last / 2 ^ 78 % 4, fmt := entry last / 2 ^ 64 % 16, pl := entry last / 2 ^ 74 % 16, blk := entry last / 2 ^ 71 % 8
      evp := entry last / 2 ^ 82 % 4, cmp := (entry last).testBit 81 }
    ((entry last).testBit 0 = false → exec (.pageWalk agent k va) s = .next s) ∧
    ((entry last).testBit 0 = true → (entry last).testBit 1 = true → entryOk (entry last) last = true →
      s.placementOk (frame last) (span last) (entry last / 2 ^ 86 % 4) (entry last / 2 ^ 84 % 4) (entry last / 2 ^ 64 % 16) = true →
      -- the walk's reads are counted; the agent's TLB, and its die's, hold the leaf, and the walker pool the entries above level 4
      ∃ t, exec (.pageWalk agent k va) s = .next t ∧ t = { s with tlb := t.tlb, quads := t.quads, pool := t.pool, free := t.free } ∧
        t.tlbAt agent k va.toNat = some leaf ∧ (agent < 192 → t.tlbAt (256 + agent / 24) k va.toNat = some leaf) ∧
        ∀ n, 1 ≤ n → n ≤ last → n < 4 → Sparse.get none t.pool (poolKey agent k n va.toNat) = some (entry n))

/-- R48, R51 to R53: links that come up and go down, SPDM and IDE, invalidations and responses of the host's translation, and the
completions of reads of host memory. -/
def Obligations.LinksAndPages : Prop :=
  (∀ (s : State) (p rate width : Nat) (flit : Bool), p < 2 → s.input = .link p rate width flit →
    -- above 32 GT/s a port runs in FLIT mode
    let trains := s.iodPresent p = true ∧ rate ∈ [25, 50, 80, 160, 320, 640, 1280] ∧ width ∈ [1, 2, 4, 8, 16] ∧ (flit = true ∨ rate ≤ 320)
    (trains → exec .linkUp s =
      .next ((s.setPort p { s.port p with up := true, rate := rate, width := width, flit := flit }).logEv .linkEvent 0 (evIod p) [rate, width])) ∧
    (¬ trains → exec .linkUp s = .next s) ∧
    ((s.port p).up = true → (s.port p).inv = [] → (∀ id x, (id, some x) ∈ s.txns → x.accepted = true → ∀ ps, x.tgt ≠ .host p ps) →
      Sparse.wf none s.posted = true → Sparse.wf none s.reads = true →
      ∃ t, exec .linkDown s = .next t ∧ t.mem = s.mem ∧ t.groups = s.groups ∧ t.port p = { s.port p with up := false, rate := 0, width := 0, flit := false } ∧
        t.port (1 - p) = s.port (1 - p) ∧
        (∀ i, t.postedAt i = match s.postedAt i with | some w => if w.port = p ∧ w.accepted = false then none else some w | none => none) ∧
        ∀ i, Sparse.get none t.reads i = match Sparse.get none s.reads i with | some r => if r.port = p then none else some r | none => none)) ∧
  (∀ (s : State) (p : Nat) (req : List Byte), p < 2 → s.input = .spdm p req → (s.port p).up = true →
    exec .spdmAuthentication s = .next { s with free := s.free + 1, out := .spdm p (Config.spdmReply s.free p s.mgmt.keyOk req) :: s.out }) ∧
  (∀ (s : State) (p st : Nat) (key : DWord), p < 2 → st < 9 → s.input = .ideKey p st key → (s.port p).up = true →
    (s.mgmt.keyOk = true → exec .ideKeyProgramming s = .next (s.setPort p { s.port p with
      ide := Sparse.set none (s.port p).ide st (some key), ideSt := Sparse.set false (s.port p).ideSt st false })) ∧
    (s.mgmt.keyOk = false → exec .ideKeyProgramming s = .next s)) ∧
  -- a TLP of any kind that fails its integrity check is dropped
  (∀ (s : State) (p st : Nat), s.input = .ideFailed p st → (s.port 0).inv = [] → (s.port 1).inv = [] →
    ∀ i ∈ [Instr.inboundPostedWrite, .inboundAtomicop, .inboundRead, .atsInvalidation, .pageResponse, .outboundReadCompletion],
      (p < 2 → st < 9 → (s.port p).up = true → exec i s =
        .next ((s.setPort p { s.port p with ideSt := Sparse.set false (s.port p).ideSt st true }).logEv .ideFailure 2 (evIod p) [st])) ∧
      (2 ≤ p ∨ 9 ≤ st ∨ (s.port p).up = false → exec i s = .next s)) ∧
  (∀ (s : State) (p pasid page : Nat) (ok : Bool), s.input = .ats p pasid page ok →
    let d := s.port p
    let users := s.pageUsers p pasid page
    -- a request to the page is a user from its check to its end, but one that is parked on what it watches is replayed
    (∀ id x q, (id, some x) ∈ s.txns → x.tgt = .host p pasid → q ∈ x.parts → q.addr / 4096 = page → id ∈ users) ∧
    (d.inv = [] → (∀ i ∈ users, s.usesAts i = false) → exec .atsInvalidation s = .next (((s.setPort p { d with
      ats := Sparse.set false d.ats (pasid * 2 ^ 32 + page) false }).endWatches users).emit (.invalidated p pasid page))) ∧
    (d.inv = [] → (∃ i ∈ users, s.usesAts i = true) → exec .atsInvalidation s = .next (s.setPort p { d with
      ats := Sparse.set false d.ats (pasid * 2 ^ 32 + page) false, inv := [(pasid, page, users)] })) ∧
    (∀ i x q, s.txn i = some x → q ∈ x.parts → x.accepted = true ∨ s.parkedPart x q = false → s.usesAts i = true) ∧
    (∀ gid l g acc va, d.pri = [(pasid, page, gid, l)] → s.groups = [(gid, some g)] → l < 32 → (g.lane l).st = .parked →
      (g.lane l).park = .pri p pasid page acc va → (∀ j, j < 32 → j ≠ l → (g.lane j).park = .none) →
      (ok = true → exec .pageResponse s = .next ((s.setPort p { d with
        pri := [], ats := Sparse.set false d.ats (pasid * 2 ^ 32 + page) true }).setGroup gid (g.setLane l { g.lane l with ready := true }))) ∧
      (ok = false → (g.lane l).handler = false → (∀ id x, (id, some x) ∈ s.txns → ∀ q ∈ x.parts, q.again = false) → exec .pageResponse s = .next ((s.setPort p { d with pri := [] }).setGroup gid
        (g.setLane l ((g.lane l).trap 0x2A acc (BitVec.ofNat 64 va))))))) ∧
  -- a load of host memory that is out, by its lane
  ∀ (s : State) (id p pasid : Nat) (ok : Bool) (data : List Byte) (x : Txn) (q : Part) (g : Group) (w : Width) (d : RegIx),
    s.input = .response id ok data → s.txns = [(id, some x)] → x.tgt = .host p pasid → x.accepted = true → x.parts = [q] → q.op = .load w d →
    q.mask = [] → q.rep = false → q.again = false → (∀ j, (s.port j).inv = []) → s.group x.gid = some g → g.polls = [] →
    (g.lane q.lane).st ≠ .exited → (g.lane q.lane).handler = false → (s.rcd g.launch).blk.prot = false →
    let without : State := { s with txns := [] }
    -- a read that fails traps its lane at the word that issued it
    let fails := .next (without.setGroup x.gid (g.setLane q.lane ({ g.lane q.lane with pc := x.pc }.trap 0x2A 0 (BitVec.ofNat 64 q.va))))
    (ok = true → data.length = q.len → exec .outboundReadCompletion s =
      .next (without.setGroup x.gid (g.setLane q.lane ((g.lane q.lane).setRegs (widthWrites w d.toNat data))))) ∧
    (ok = false → exec .outboundReadCompletion s = fails) ∧
    exec .completionTimeout s = fails

/-- R16, R48, R50, R52 to R56, R456: posted writes, AtomicOps and reads of the host, from their arrival to their home. A register
write without Relaxed Ordering waits for every earlier write of its port. -/
def Obligations.InboundRequests : Prop :=
  -- the physical address behind BAR2, and its cell in the interleaved view
  let bound := 4 * hbmBytes
  let window := fun (s : State) (p f off : Nat) =>
    let n := if f = 0 then max 30 (min 40 (Config.bar2Log p f)) else max 26 (min 36 (Config.bar2Log p f))
    (Sparse.get 0 (s.port p).winbase f).toNat * 2 ^ 26 / 2 ^ n * 2 ^ n + off
  let cellOf := fun (pa : Nat) => hashQuad pa * hbmBytes + pa / 2 ^ 14 * 4096 + pa % 4096
  -- a transaction that depends on nothing is sent as it arrives
  let arrives := fun (s : State) (w : Posted) => { s with
    next := s.next + 3, posted := [(s.next + 1, some { w with tlp := s.next, sent := some (s.next + 2) })] }
  let alone := fun (s : State) => s.dir = [] ∧ s.poison = [] ∧ s.txns = [] ∧ s.groups = [] ∧ s.mgmt.boot ≠ .notReady
  -- a port has 14-bit tags in FLIT mode, and 10-bit tags outside it
  let tags := fun (s : State) (p : Nat) => if (s.port p).flit = true then 2 ^ 14 else 2 ^ 10
  (∀ (s : State) (p f off rid : Nat) (bar0 poisoned ro ido : Bool) (data : List Byte) (fails : Option Nat), p < 2 → f < 32 →
    (s.port p).up = true → data.length ≤ 512 → s.input = .postedWrite p f bar0 off data ro ido rid poisoned fails →
    let refused := s.logEv .unsupportedRequest 1 (evIod p) [f, off, data.length]
    (∀ st, st < 9 → fails = some st → exec .inboundPostedWrite s =
      .next ((s.setPort p { s.port p with ideSt := Sparse.set false (s.port p).ideSt st true }).logEv .ideFailure 2 (evIod p) [st])) ∧
    (fails = none → bar0 = false → bound ≤ window s p f off → exec .inboundPostedWrite s = .next refused) ∧
    (fails = none → bar0 = false → window s p f off < bound → 1 ≤ data.length → window s p f off % 128 + data.length ≤ 128 → s.posted = [] →
      let pa := window s p f off
      exec .inboundPostedWrite s = .next (arrives s { port := p, quad := hashQuad pa, ro := ro, ido := ido, rid := rid, tlp := 0
                                                      op := .bytes (cellOf pa) data poisoned })) ∧
    (fails = none → bar0 = true →
      let at' := if f = 0 then off else 0x600000 + off
      let served := regServed at' data.length = true ∧ off < if f = 0 then 0x1000000 else 0x10000
      (¬ served → exec .inboundPostedWrite s = .next refused) ∧
      (served → s.posted = [] → exec .inboundPostedWrite s = .next (arrives s {
        port := p, quad := regQuad at', ro := ro, ido := ido, rid := rid, tlp := 0
        op := .reg f off data.length (BitVec.ofNat 64 (leNat data)) })))) ∧
  (∀ (s : State) (p f off rid tag : Nat) (op : PcieAtom) (wide ro ido : Bool) (a b : DWord), p < 2 → f < 32 →
    (s.port p).up = true → s.input = .atomicOp p f off op wide a b ro ido rid tag →
    let n := if wide then 8 else 4
    let pa := window s p f off
    (tags s p ≤ tag → exec .inboundAtomicop s = .next s) ∧
    (tag < tags s p → bound ≤ pa ∨ off % n ≠ 0 → exec .inboundAtomicop s =
      .next ({ s with out := .unsupported p tag :: s.out }.logEv .unsupportedRequest 1 (evIod p) [f, off, n])) ∧
    (tag < tags s p → pa < bound → off % n = 0 → s.posted = [] → exec .inboundAtomicop s = .next (arrives s {
      port := p, quad := hashQuad pa, ro := ro, ido := ido, rid := rid, tlp := 0, op := .amo (cellOf pa) op wide a b tag }))) ∧
  -- what a held transaction waits for
  (∀ (s : State) (id : Nat) (w : Posted), s.postedAt id = some w → w.sent = none →
    let held := ∃ i e, (i, some e) ∈ s.posted ∧ e.port = w.port ∧ e.tlp < w.tlp ∧ (∀ l o x a b t, e.op ≠ .amo l o x a b t) ∧ w.ro = false ∧
      ¬ (w.ido = true ∧ e.rid ≠ w.rid) ∧ ¬ (e.quad = w.quad ∧ e.sent ≠ none)
    (held → exec (.orderingPointSend id) s = .next s) ∧
    (¬ held → exec (.orderingPointSend id) s = .next { s with
      next := s.next + 1, posted := Sparse.set none s.posted id (some { w with sent := some s.next }) })) ∧
  -- the home accepts
  (∀ (s : State) (id : Nat) (w : Posted), id < 2 ^ 63 → s.posted = [(id, some w)] → w.sent ≠ none → w.accepted = false → alone s →
    (∀ a data poisoned, w.op = .bytes a data poisoned → 1 ≤ data.length → a % 128 + data.length ≤ 128 →
      ∃ t, exec (.homeRequest id) s = .next t ∧ t.postedAt id = some { w with accepted := true } ∧ t.out = s.out ∧
        (∀ c, t.cell c = if a ≤ c ∧ c < a + data.length then data.getD (c - a) 0 else s.cell c) ∧
        ∀ sec, Sparse.get false t.poison sec = (poisoned && decide (a / 32 ≤ sec ∧ sec ≤ (a + data.length - 1) / 32))) ∧
    (∀ c op wide a b tag, w.op = .amo c op wide a b tag →
      let n := if wide then 8 else 4
      let old := s.wordAt c n
      c % n = 0 → ∃ t, exec (.homeRequest id) s = .next t ∧ t.postedAt id = some { w with accepted := true } ∧
        t.out = .completion w.port tag (toLE n old) false :: s.out ∧
        ∀ x, t.cell x = if c ≤ x ∧ x < c + n then
            (toLE n (match op with
              | .fetchAdd => (old + a.toNat) % 2 ^ (8 * n)
              | .swap => a.toNat % 2 ^ (8 * n)
              | .cas => if old = a.toNat % 2 ^ (8 * n) then b.toNat % 2 ^ (8 * n) else old)).getD (x - c) 0
          else s.cell x) ∧
    (∀ f off n v, w.op = .reg f off n v → f = 0 → exec (.homeRequest id) s = .next ({ s with posted := [] }.regWrite off n v.toNat))) ∧
  -- a register write without Relaxed Ordering waits for every earlier posted write of its port
  (∀ (s : State) (id : Nat) (w : Posted), id < 2 ^ 63 → s.postedAt id = some w → (∃ f off n v, w.op = .reg f off n v) → w.ro = false →
    (∃ i e, (i, some e) ∈ s.posted ∧ e.port = w.port ∧ e.tlp < w.tlp ∧ ∀ l o x a b t, e.op ≠ .amo l o x a b t) →
    exec (.homeRequest id) s = .next s) ∧
  (∀ (s : State) (p f off n tag : Nat) (bar0 : Bool), p < 2 → f < 32 → tag < tags s p → (s.port p).up = true →
    s.input = .readRequest p f bar0 off n tag →
    let pa := window s p f off
    let refused := { s with out := .unsupported p tag :: s.out }.logEv .unsupportedRequest 1 (evIod p) [f, off, n]
    let waits := fun (a : Nat) => ∃ after, exec .inboundRead s = .next { s with
        reads := Sparse.set none s.reads (p * 2 ^ 16 + tag) (some { port := p, func := f, bar0 := bar0, tag := tag, addr := a, len := n, after := after }) } ∧
      ∀ i, i ∈ after ↔ ∃ e, (i, some e) ∈ s.posted ∧ e.port = p ∧ ∀ l o x y z t, e.op ≠ .amo l o x y z t
    (bar0 = false → bound ≤ pa ∨ 4096 < n → exec .inboundRead s = .next refused) ∧
    (bar0 = false → pa < bound → n ≤ 4096 → waits pa) ∧
    (bar0 = true → f = 0 → (if off < 0x1000000 ∧ regServed off n = true then waits off else exec .inboundRead s = .next refused))) ∧
  ∀ (s : State) (key : Nat) (r : HostRead), Sparse.get none s.reads key = some r →
    ((∃ i ∈ r.after, s.postedAt i ≠ none) → exec (.inboundReadCompletion key) s = .next s) ∧
    ((∀ i ∈ r.after, s.postedAt i = none) →
      (r.bar0 = true → r.func = 0 → exec (.inboundReadCompletion key) s = .next { s with
        reads := Sparse.set none s.reads key none, out := .completion r.port r.tag (s.regRead r.addr r.len) false :: s.out }) ∧
      (r.bar0 = false → r.addr + r.len ≤ bound → s.dir = [] → s.mgmt.boot ≠ .notReady → ∃ t, exec (.inboundReadCompletion key) s = .next t ∧ t.mem = s.mem ∧
        t.reads = Sparse.set none s.reads key none ∧ t.out = .completion r.port r.tag
          ((List.range r.len).map fun i => s.cell (cellOf (r.addr + i)))
          ((List.range r.len).any fun i => Sparse.get false s.poison (cellOf (r.addr + i) / 32)) :: s.out))

/-- R16, R58, R60 to R64, R66: Clovar ports and routes, the requests of peers, and the answers and failures of this device's
own requests to nodes. -/
def Obligations.ClovarRequests : Prop :=
  let cellOf := fun (pa : Nat) => hashQuad pa * hbmBytes + pa / 2 ^ 14 * 4096 + pa % 4096
  (∀ (s : State) (n : Nat) (m : BitVec 18), s.input = .route n m → n < 1024 →
    let waiting := ∃ id x, (id, some x) ∈ s.txns ∧ x.tgt = .node n ∧ x.accepted = true
    (¬ waiting → exec .ports s = .next { s with clovar := { s.clovar with
      routes := Sparse.set 0 s.clovar.routes n m, nextRoutes := Sparse.set none s.clovar.nextRoutes n none } }) ∧
    (waiting → exec .ports s = .next { s with clovar := { s.clovar with nextRoutes := Sparse.set none s.clovar.nextRoutes n (some m) } })) ∧
  -- a flit is retried; the port goes down on the retry beyond 16 in 1 ms, of half nanoseconds
  (∀ (s : State) (p : Nat), s.input = .flit p → p < 18 →
    let d := s.cport p
    let d1 : CPort := { d with retry := if d.retry = 0xFFFF then 0xFFFF else d.retry + 1 }
    let recent := s.uptime :: d.retries.filter fun t => decide (s.uptime < t + 2000000)
    (recent.length ≤ 16 → exec .clovarFlitError s = .next (s.setCport p { d1 with retries := recent })) ∧
    (16 < recent.length → s.clovar.routes = [] → s.clovar.colls = [] →
      exec .clovarFlitError s = .next ((s.setCport p { d1 with retries := [], lst := 0 }).logEv .clovarDown 2 (evIod (p / 9)) [p]))) ∧
  (∀ (s : State) (p lanes : Nat) (training : Bool) (peer : BitVec 10), s.input = .portState p training lanes peer → p < 18 →
    s.iodPresent (p / 9) = true →
    let lst : BitVec 2 := if training then 1 else if 4 ≤ lanes then 2 else if 2 ≤ lanes then 3 else 0
    let s1 := s.setCport p { s.cport p with lst := lst, peer := peer }
    ((s.cport p).lst = lst → exec .clovarPortStateChange s = .next s) ∧
    ((s.cport p).lst ≠ lst → s.clovar.routes = [] → s.clovar.colls = [] → exec .clovarPortStateChange s = .next s1) ∧
    -- the last port to a node goes down under a load that is out
    (∀ n mask id x q g w d, (s.cport p).lst ≠ lst → lst.toNat < 2 → s.clovar.routes = [(n, mask)] → s.clovar.nextRoutes = [] →
      s.clovar.colls = [] → p ∈ (List.range 18).filter (fun j => mask.getLsbD j) →
      (∀ j, j ≠ p → j < 18 → mask.getLsbD j = true → (s.cport j).lst.toNat < 2) →
      s.txns = [(id, some x)] → x.tgt = .node n → x.accepted = true → x.parts = [q] → q.op = .load w d → q.rep = false → q.again = false →
      s.group x.gid = some g →
      g.polls = [] → (g.lane q.lane).st ≠ .exited → (g.lane q.lane).handler = false → (s.rcd g.launch).blk.prot = false →
      exec .clovarPortStateChange s = .next ({ s1 with txns := [] }.setGroup x.gid
        (g.setLane q.lane ({ g.lane q.lane with pc := x.pc }.trap 0x2B 0 (BitVec.ofNat 64 q.va)))))) ∧
  (∀ (s : State) (p src dst off : Nat) (op : RemoteOp), s.input = .clovar p src dst off op → p < 18 →
    let size := match op with | .load n => n | .store bs _ => bs.length | .atom _ ty _ _ => (if ty.wide then 8 else 4) | .red _ ty _ => (if ty.wide then 8 else 4)
    let mask := (Sparse.get none s.clovar.nextRoutes src).getD (Sparse.get 0 s.clovar.routes src)
    let served := s.clovar.den = true ∧ s.clovar.node.toNat = dst ∧ 2 ≤ (s.cport p).lst.toNat ∧ mask.getLsbD p = true ∧
      off + size ≤ 4 * hbmBytes ∧ off < 4 * hbmBytes
    let refusal := { s with out := .answer p src false [] :: s.out }
    (¬ served → exec .clovarInboundRequest s = .next (if Sparse.get false s.clovar.refused src = true then refusal
      else { refusal with clovar := { s.clovar with refused := Sparse.set false s.clovar.refused src true } }.logEv .clovarRefusal 1 (evIod (p / 9)) [src])) ∧
    (served → s.dir = [] → s.poison = [] → s.txns = [] → s.groups = [] → s.peers = [] → s.mgmt.boot ≠ .notReady →
      let a := cellOf off
      let done := fun (bs : List Byte) => some { port := p, src := src, loc := a, op := op, reply := some bs : Peer }
      (∀ n, op = .load n → ∃ t, exec .clovarInboundRequest s = .next t ∧ t.mem = s.mem ∧ t.peerAt s.next = done (s.cells a n)) ∧
      (∀ bs bad, op = .store bs bad → ∃ t, exec .clovarInboundRequest s = .next t ∧ t.peerAt s.next = done [] ∧
        (∀ c, t.cell c = if a ≤ c ∧ c < a + bs.length then bs.getD (c - a) 0 else s.cell c) ∧
        (1 ≤ bs.length → ∀ sec, Sparse.get false t.poison sec = (bad && decide (a / 32 ≤ sec ∧ sec ≤ (a + bs.length - 1) / 32)))) ∧
      (∀ aop ty x, op = .red aop ty x → ∃ t, exec .clovarInboundRequest s = .next t ∧ t.peerAt s.next = done [] ∧
        ∀ c, t.cell c = match atomNew aop ty (s.wordAt a size) x.toNat 0 with
          | some v => if a ≤ c ∧ c < a + size then (toLE size v).getD (c - a) 0 else s.cell c
          | none => s.cell c) ∧
      (∀ aop ty x y, op = .atom aop ty x y → ∃ t, exec .clovarInboundRequest s = .next t ∧
        t.peerAt s.next = done (toLE size (s.wordAt a size)) ∧
        ∀ c, t.cell c = match atomNew aop ty (s.wordAt a size) x.toNat y.toNat with
          | some v => if a ≤ c ∧ c < a + size then (toLE size v).getD (c - a) 0 else s.cell c
          | none => s.cell c))) ∧
  ∀ (s : State) (id n : Nat) (ok : Bool) (data : List Byte) (x : Txn) (q : Part) (g : Group),
    s.input = .response id ok data → s.txns = [(id, some x)] → x.tgt = .node n → x.accepted = true → x.parts = [q] → s.clovar.nextRoutes = [] →
    q.rep = false → q.again = false → s.group x.gid = some g → g.polls = [] → (g.lane q.lane).st ≠ .exited → (s.rcd g.launch).blk.prot = false →
    let without : State := { s with txns := [] }
    let lane := fun (ln : Lane) => .next (without.setGroup x.gid (g.setLane q.lane ln))
    (∀ w d, q.op = .load w d → q.mask = [] → (g.lane q.lane).handler = false →
      let fails := lane ({ g.lane q.lane with pc := x.pc }.trap 0x2B 0 (BitVec.ofNat 64 q.va))
      (ok = true → data.length = q.len → exec .remoteResponse s = lane ((g.lane q.lane).setRegs (widthWrites w d.toNat data))) ∧
      (ok = false → exec .remoteResponse s = fails) ∧ exec .remoteRequestTimeout s = fails) ∧
    (q.op = .store → q.lane < 32 →
      let fails := lane { g.lane q.lane with linkLost := true }
      (ok = true → exec .remoteResponse s = .next without) ∧
      (ok = false → exec .remoteResponse s = fails) ∧ exec .remoteRequestTimeout s = fails)

/-- R62, R66 to R71, R425: COLL, the traffic of other ranks, the fold of a collective, its completion and its failure. -/
def Obligations.Collectives : Prop :=
  (∀ (h : Hdr) (onG : Bool) (a : RegIx) (s : State) (g : Group) (l : Nat),
    lanesOf (active s g h) = [l] → Still s g h → s.txns = [] → s.clean g.core (s.ctxOf g) = true → (g.lane l).handler = false →
    s.hostQuiet (s.ctxOf g) 0 = true → s.hostQuiet (s.ctxOf g) 1 = true → (g.lane l).linkLost = false → s.cur.full = none →
    WordReady s g h (.coll h onG a) →
    let i := Instr.coll h onG a
    let va := ((envOf false g l).a64 onG a).toNat
    let gives := LaneTakes s h l i ([], [], 0)
    let traps := fun (s2 : State) (code ea : Nat) => ∃ g', exec i s = .next ((s2.dropPlaces s.cur.gid l).setGroup s.cur.gid g') ∧
      lanesRun s g g' h (fun _ ln => ln.trap code 0 (BitVec.ofNat 64 ea)) ∧ groupAfter s2 g g' h
    (va % 64 ≠ 0 → traps (numbered s) 0x25 va) ∧ (va % 64 = 0 → 2 ^ 57 ≤ va → traps (numbered s) 0x26 va) ∧
    (va % 64 = 0 → va < 2 ^ 57 → ∀ bs s1, (s.readGlobal false g s.cur.gid va 64 4).1 = .bytes bs →
      (numbered s).readGlobal true g s.cur.gid va 64 4 = (.bytes bs, s1) → s1.clovar = s.clovar → s1.modulesUp = s.modulesUp →
      s1.mgmt = s.mgmt → s1.cur = s.cur → s1.group s.cur.gid = some g →
      let f := fun (o n : Nat) => leNat ((bs.drop o).take n)
      let legal := 1 ≤ f 0x18 4 ∧ f 0x1C 1 < 4 ∧ f 0x1D 1 < 6 ∧ (f 0x1C 1 < 2 → f 0x1E 1 < 3) ∧ (∀ b ∈ (bs.drop 0x22).take 0x1E, b = 0)
      let comm := f 0x1F 1
      let eng := if s.iodPresent (comm % 2) then comm % 2 else 1 - comm % 2
      (¬ legal → traps s1 0x22 0) ∧
      (legal → (s.iodPresent 0 = true ∨ s.iodPresent 1 = true) → s1.roomFor (.collective eng) s.cur.gid l = true → ∀ c,
        (s1.viewOf (s.clovar.clcbase.toNat * 4096 + 4096 * comm)).map (fun v => v.2.2) = some c →
        s1.rangeFree c 4096 = true → s1.poisonedRange c 4096 = false →
        -- the lane gives up the place that was kept for it in the engine, and the reads of the record are counted
        let s1 := { s1 with wokenRooms := s1.wokenRooms.filter fun p => p != (Sys2Proof.Engine.collective eng, s.cur.gid, l) }.countLines (srcIod eng) c 4096
        let r := s1.cells c 4096
        let size := leNat (r.take 2)
        let rank := leNat ((r.drop 2).take 2)
        let node := fun (k : Nat) => leNat ((r.drop (0x800 + 2 * k)).take 2)
        commOk r = true →
        (f 0x1C 1 = 3 → size ≤ f 0x20 2 → ∃ g', exec i s = .next (s1.setGroup s.cur.gid g') ∧
          lanesRun s g g' h (fun _ ln => ln.trap 0x22 0 0) ∧ groupAfter s1 g g' h) ∧
        (¬ (f 0x1C 1 = 3 ∧ size ≤ f 0x20 2) →
          let num := Sparse.get 0 s.clovar.collNum comm + 1
          let d : CollDesc := { send := f 0 8, recv := f 8 8, stamp := f 0x10 8, count := f 0x18 4, op := f 0x1C 1, ty := f 0x1D 1, red := f 0x1E 1
                                comm := comm, root := f 0x20 2 }
          let p : CollParams := { op := d.op, ty := d.ty, red := d.red, count := d.count, root := d.root }
          ∃ s2, gives s2 ∧ s2 = { s1 with next := s1.next + 1, out := s2.out, clovar := { s.clovar with
              collNum := Sparse.set 0 s.clovar.collNum comm num
              colls := Sparse.set none s.clovar.colls s1.next (some {
                eng := eng, comm := comm, num := num, ctx := s.ctxOf g, launch := g.launch, core := g.core, desc := d, size := size, rank := rank
                nodes := (List.range size).map node, params := [(rank, some p)] }) } } ∧
            ∀ k, k < size → k ≠ rank → s1.enginePorts eng (node k) ≠ [] → .collective eng comm (node k) num 0 p [] ∈ s2.out)))) ∧
  -- a message of another rank
  (∀ (s : State) (eng comm node num st : Nat) (p : CollParams) (data : List (DWord × Bool)),
    s.input = .collective eng comm node num st p data →
    let dropped := s.logEv .collectiveDrop 1 (evIod eng) [comm, node, num]
    ((∀ id c, (id, some c) ∈ s.clovar.colls → ¬ (c.eng = eng ∧ c.comm = comm ∧ c.num = num)) →
      exec .collectiveTraffic s = .next dropped) ∧
    ∀ id c, s.clovar.colls = [(id, some c)] → c.eng = eng → c.comm = comm → c.num = num →
      ((∀ k, k < c.size → k ≠ c.rank → c.nodes.getD k 1024 ≠ node) → exec .collectiveTraffic s = .next dropped) ∧
      ∀ k, k < c.size → k ≠ c.rank → c.nodes.getD k 1024 = node → (∀ j, j < k → j ≠ c.rank → c.nodes.getD j 1024 ≠ node) → c.ended = false →
        let c1 : Coll := { c with params := Sparse.set none c.params k (some p)
                                  data := if data = [] then c.data else Sparse.set [] c.data k data }
        let mine : CollParams := { op := c.desc.op, ty := c.desc.ty, red := c.desc.red, count := c.desc.count, root := c.desc.root }
        let ends := fun (st' : Nat) => ∃ t c', exec .collectiveTraffic s = .next t ∧ t.coll id = some c' ∧ c'.ended = true ∧ c'.status = st' ∧
          t.mem = s.mem
        (st ≠ 2 → st ≠ 3 → p = mine → (∀ j q, (j, some q) ∈ c.params → q = mine) →
          exec .collectiveTraffic s = .next { s with clovar := { s.clovar with colls := [(id, some c1)] } }) ∧
        (st ≠ 2 → st ≠ 3 → p ≠ mine → ends 1) ∧ (st = 2 ∨ st = 3 → ends st)) ∧
  (∀ (s : State) (id eng comm num : Nat) (c : Coll), s.clovar.colls = [(id, some c)] → c.eng = eng → c.comm = comm → c.num = num →
    ((∃ k, k < c.size ∧ Sparse.get none c.params k = none) → c.ended = false →
      ∃ t c', exec (.collectiveTimeout eng comm num) s = .next t ∧ t.coll id = some c' ∧ c'.ended = true ∧ c'.status = 2 ∧ t.mem = s.mem) ∧
    (c.ended = true → exec (.collectiveTimeout eng comm num) s = .next s) ∧
    -- with nothing left of the receive buffer to write, the stamp is written
    (c.ended = true → c.writes = [] → s.engSettled id = true → ∀ bs q s1,
      s.engWrite (c.requester id) c.desc.stamp (toLE 8 (c.num % 2 ^ 32 + 2 ^ 32 * c.status + 2 ^ 40 * c.flags.toNat)) false true = (.ok bs q, s1) →
      exec (.collectiveCompletion eng comm num) s = .next (({ s1 with
        clovar := { s1.clovar with colls := Sparse.set none s1.clovar.colls id none }
        engBuf := Sparse.set [] s1.engBuf id [] }).freeRoom (.collective eng)))) ∧
  (∀ (c : Coll), (c.status = 1 → c.writes = []) ∧ (c.status ≠ 0 → c.flags = 0)) ∧
  -- the fold of the ranks' values
  (∀ (v : Nat) (vs : List Nat), v < 2 ^ 32 → collFold 4 0 v vs = ((v + vs.sum) % 2 ^ 32, 0)) ∧
  (∀ (v : Nat) (vs : List Nat), v < 2 ^ 64 → collFold 5 0 v vs = ((v + vs.sum) % 2 ^ 64, 0)) ∧
  (∀ (w ty : Nat) (v : Nat) (vs : List Nat), (ty = 4 ∧ w = 32) ∨ (ty = 5 ∧ w = 64) →
    let lo := (collFold ty 1 v vs).1
    let hi := (collFold ty 2 v vs).1
    lo ∈ v :: vs ∧ hi ∈ v :: vs ∧ ∀ x ∈ v :: vs, sextInt lo w ≤ sextInt x w ∧ sextInt x w ≤ sextInt hi w) ∧
  ∀ (ty : Nat) (F : Format) (v y : Nat) (vs : List Nat), (ty = 0 ∧ F = fmt32) ∨ (ty = 3 ∧ F = fmt64) →
    let a := collFold ty 0 v vs
    a.1 < 2 ^ F.w → y < 2 ^ F.w → (F.decode a.1).isNan = false → (F.decode y).isNan = false →
    collFold ty 0 v (vs ++ [y]) = ((F.add 0 (F.decode a.1) (F.decode y)).1, a.2 ||| (F.add 0 (F.decode a.1) (F.decode y)).2)

/-! ### Contexts and registers (files 04, 13, 18) -/

/-- R74 to R76, R78: a context comes to exist and ceases to, HALT and KREQ, invalidations from start to end, doorbells. -/
def Obligations.ContextRegisters : Prop :=
  ∀ (s : State) (k j : Nat) (v : DWord), k < 64 → s.input = .ctxWrite k j v →
    let c := s.ctx k
    let f := fun (lo n : Nat) => BitVec.extractLsb' lo n v
    let c1 : Ctx := if c.en then c else { c with pasid := f 24 20, port := f 14 1, func := f 9 5 }
    let c2 : Ctx := { c1 with pceil := f 16 5, priv := v.getLsbD 4, kreq := v.getLsbD 2, halt := v.getLsbD 1 }
    let held := ∃ r, (s.rcd r).st ≠ .free ∧ (s.rcd r).ctx = k
    (Sparse.wf ({} : Queue) c.queues = true → Sparse.wf ({} : Rec) s.recs = true →
      -- EN from 0 to 1
      (c.en = false → v.getLsbD 0 = true → v.getLsbD 2 = false → ∃ qs : Sparse Queue,
        exec .en s = .next (s.setCtx k { c2 with en := true, frprod := 0, frcons := 0, queues := qs }) ∧
        ∀ i, Sparse.get {} qs i = { c.queue i with cidx := 0, pidx := 0 }) ∧
      -- EN from 1 to 0
      (c.en = true → v.getLsbD 0 = false → held → exec .en s = .next s) ∧
      (c.en = true → v.getLsbD 0 = false → ¬ held → v.getLsbD 2 = false → ∃ qs : Sparse Queue,
        exec .en s = .next (s.setCtx k { c2 with en := false, queues := qs }) ∧
        ∀ i, Sparse.get {} qs i = { c.queue i with stopped := false }) ∧
      -- HALT
      (v.getLsbD 0 = c.en → v.getLsbD 2 = false → v.getLsbD 1 ≠ c.halt → exec .halt s = .next (s.setCtx k c2)) ∧
      -- KREQ
      (v.getLsbD 0 = c.en → v.getLsbD 2 = false → c.kreq = true → exec .kreq s = .next (s.setCtx k c2)) ∧
      (c.en = true → v.getLsbD 0 = true → v.getLsbD 2 = true → c.kreq = false →
        Sparse.wf ({} : Ctx) s.ctxs = true → Sparse.wf none s.groups = true → Sparse.wf none s.teams = true → (∀ i, (s.ctx i).svcs = []) →
        (∀ gid g u w, s.group gid = some g → g.team = some u → s.team u = some w → w.task.lrec = g.launch) → ∃ t, exec .kreq s = .next t ∧
        t.mem = s.mem ∧ t.out = s.out ∧ (t.ctx k).kreq = true ∧ (t.ctx k).queues = c.queues ∧
        (∀ r, (s.rcd r).ctx = k → (s.rcd r).st = .waiting ∨ (s.rcd r).st = .running →
          (t.rcd r).endSt = .killed ∧ (t.rcd r).detail = 1 ∧ (t.rcd r).pending = [] ∧ (t.rcd r).rings = [] ∧
          -- a group of it that stands at no boundary goes on to the next one, an engine at work to where it stops; without any the launch is
          -- to be stamped
          ((t.rcd r).st = .ending ∧ ((∃ gid g, t.group gid = some g ∧ g.launch = r) ∨ ∃ u w, t.team u = some w ∧ w.task.lrec = r) ∨
           (t.rcd r).st = .stamped ∧ ∀ gid g, t.group gid = some g → g.launch ≠ r) ∧
          (∀ gid g, t.group gid = some g → g.launch = r → g.preempt = true ∧ g.resident = true ∧ s.atBoundary gid g = false) ∧
          ∀ u w, t.team u = some w → w.task.lrec = r → (∃ gid g, t.group gid = some g ∧ g.team = some u) ∨ s.enginesOver u w = false) ∧
        ∀ r, (s.rcd r).ctx ≠ k ∨ (s.rcd r).st = .ending ∨ (s.rcd r).st = .stamped ∨ (s.rcd r).st = .free → t.rcd r = s.rcd r)) ∧
    -- an invalidation starts; lanes in JWAIT whose counter's translation is dropped replay their words
    (Sparse.wf none s.tlb = true → Sparse.wf none s.pool = true → Sparse.wf none s.groups = true →
      let va := (f 12 45).toNat * 4096
      let replay := fun (t : State) (near : Nat → Prop) => ∀ gid g l c at', s.group gid = some g → (s.rcd g.launch).ctx = k →
        (s.rcd g.launch).blk.prot = false → l < 32 → (g.lane l).park = .jwait c at' → (g.lane l).ready = false → near at' → ∃ g', t.group gid = some g' ∧
          g'.lane l = if g.resident then { g.lane l with st := .eligible, park := .none, ready := false } else { g.lane l with park := .none, ready := true }
      (c.invbusy = true → v.getLsbD 0 = true → exec .invgo s = .next s) ∧ (c.invbusy = true → v.getLsbD 1 = true → exec .invall s = .next s) ∧
      (c.invbusy = false → v.getLsbD 0 = true → v.getLsbD 1 = false → ∃ t, exec .invgo s = .next t ∧ t.mem = s.mem ∧ t.txns = s.txns ∧
        t.ctx k = { c with invva := f 12 45, invbusy := true, invIds := (t.ctx k).invIds } ∧
        (∀ key leaf, Sparse.get none t.tlb key = some leaf ↔ Sparse.get none s.tlb key = some leaf ∧
          ¬ (key / 2 ^ 41 % 64 = k ∧ va / levelSpan leaf.level = key % 2 ^ 41 * 65536 / levelSpan leaf.level)) ∧
        (∀ key e, Sparse.get none t.pool key = some e ↔ Sparse.get none s.pool key = some e ∧
          ¬ (key / 2 ^ 43 % 64 = k ∧ key % 2 ^ 41 = va / levelSpan (key / 2 ^ 41 % 4))) ∧
        replay t (fun x => x / 2 ^ 30 = va / 2 ^ 30) ∧
        ∀ id, id ∈ (t.ctx k).invIds ↔ ∃ x, (id, some x) ∈ s.txns ∧ x.ctx = k ∧
          ∃ q ∈ x.parts, q.va / levelSpan q.level = va / levelSpan q.level) ∧
      (c.invbusy = false → v.getLsbD 1 = true → ∃ t, exec .invall s = .next t ∧ t.mem = s.mem ∧ t.txns = s.txns ∧
        t.ctx k = { c with invva := f 12 45, invbusy := true, invIds := (t.ctx k).invIds } ∧
        (∀ key leaf, Sparse.get none t.tlb key = some leaf ↔ Sparse.get none s.tlb key = some leaf ∧ key / 2 ^ 41 % 64 ≠ k) ∧
        (∀ key e, Sparse.get none t.pool key = some e ↔ Sparse.get none s.pool key = some e ∧ key / 2 ^ 43 % 64 ≠ k) ∧ replay t (fun _ => True) ∧
        ∀ id, id ∈ (t.ctx k).invIds ↔ ∃ x, (id, some x) ∈ s.txns ∧ x.ctx = k)) ∧
    -- and ends when no access under an old translation is out; a lane parked on what it watches under one is replayed
    (c.invbusy = true →
      let ended : Ctx := { c with invbusy := false, invIds := [] }
      ((∀ i ∈ c.invIds, s.txn i = none) → exec (.invalidationDone k) s = .next (s.setCtx k ended)) ∧
      (∀ i x q, i ∈ c.invIds → s.txn i = some x → q ∈ x.parts →
        (if (s.group x.gid).isSome then s.parkedPart x q = false else q.rep = false) → exec (.invalidationDone k) s = .next s) ∧
      (∀ i x q g, c.invIds = [i] → s.txn i = some x → x.parts = [q] → s.group x.gid = some g → s.parkedPart x q = true → q.rep = false →
        (s.rcd g.launch).blk.prot = false → exec (.invalidationDone k) s =
          .next (({ s with txns := Sparse.set none s.txns i none }.setGroup x.gid (g.setLane q.lane { g.lane q.lane with ready := true })).setCtx k ended))) ∧
    -- doorbells
    (j < 8 →
      let q := c.queue j
      let p := BitVec.extractLsb' 0 32 v
      let ahead : Int := 2 ^ Nat.min q.qlog.toNat 12 - (q.pidx - q.cidx).toNat
      (c.en = false → exec .doorbell s = .next s) ∧
      (c.en = true → ((p - q.pidx).toNat : Int) ≤ ahead →
        exec .doorbell s = .next (s.setCtx k (c.setQueue j { q with pidx := p }))) ∧
      (c.en = true → ahead < ((p - q.pidx).toNat : Int) →
        exec .doorbell s = .next ((s.setCtx k (c.setQueue j { q with qerr := true })).logEv .doorbellRefused 1 (evQuad (k % 4)) [k, j, v.toNat])))

/-- R74, R171, R282, R283, R285, R427, R428, R454: verdicts on fault reports, the answer to a call, and writes of registers: what each
writes, which are ignored while a context exists, halves of a register, and accesses that no register serves. -/
def Obligations.RegisterWrites : Prop :=
  (∀ (s : State) (k j : Nat) (v : DWord), k < 64 → s.input = .ctxWrite k j v →
    let c := s.ctx k
    let rid := BitVec.extractLsb' 0 32 v
    let verd := BitVec.extractLsb' 32 2 v
    let c1 : Ctx := { c with verd := verd, rid := rid }
    let known := fun (i : Nat) => ∃ r, (i, some r) ∈ c.reports ∧ r.rid = some rid.toNat ∧
      ∀ i' r', (i', some r') ∈ c.reports → r'.rid = some rid.toNat → i' = i
    let unknown := ∀ i r, (i, some r) ∈ c.reports → r.rid ≠ some rid.toNat
    let logged := Host.Outcome.next ((s.setCtx k c1).logEv .unknownVerdict 1 (evQuad (k % 4)) [k, rid.toNat])
    (verd = 1 → unknown → exec .resolve s = logged) ∧ (verd = 2 → unknown → exec .reject s = logged) ∧
    (∀ i, known i → Sparse.wf none s.groups = true → Sparse.wf none c.reports = true →
      (verd = 1 → ∃ t, exec .resolve s = .next t ∧ t.mem = s.mem ∧ t.recs = s.recs ∧
        (t.ctx k).verd = verd ∧ (t.ctx k).rid = rid ∧ (∀ n, Sparse.get none (t.ctx k).reports n = if n = i then none else Sparse.get none c.reports n) ∧
        ∀ gid g l, s.group gid = some g → (s.rcd g.launch).ctx = k → l < 32 → ∃ g', t.group gid = some g' ∧
          ((g.lane l).park = .report i → g'.lane l = { g.lane l with st := .eligible, park := .none, ready := false }) ∧
          ((g.lane l).park ≠ .report i → (g.lane l).park ≠ .handlerEntry i → g'.lane l = g.lane l)) ∧
      (verd = 2 → (∀ gid g l, s.group gid = some g → (g.lane l).park ≠ .handlerEntry i ∧ ((g.lane l).park = .report i → (g.lane l).handler = false)) →
        ∃ t, exec .reject s = .next t ∧ t.mem = s.mem ∧ t.recs = s.recs ∧ (t.ctx k).verd = verd ∧ (t.ctx k).rid = rid ∧
        (∀ n, Sparse.get none (t.ctx k).reports n = if n = i then none else Sparse.get none c.reports n) ∧
        ∀ gid g l, s.group gid = some g → (s.rcd g.launch).ctx = k → l < 32 → ∃ g', t.group gid = some g' ∧
          -- at the word whose access met the fault, also where the group is away
          ((g.lane l).park = .report i → g'.lane l = { g.lane l with
            st := .trapped, park := .none, ready := false, pc := s.faultPc gid l (g.lane l), rejected := !g.resident }) ∧
          ((g.lane l).park ≠ .report i → g'.lane l = g.lane l)) ∧
      -- the reject of a report of a lane in handler mode
      (verd = 2 → ∀ gid g l, s.groups = [(gid, some g)] → (s.rcd g.launch).ctx = k → (s.rcd g.launch).st = .running → l < 32 →
        (g.lane l).park = .report i → (g.lane l).handler = true → ∃ t, exec .reject s = .next t ∧ t.mem = s.mem ∧
        (t.rcd g.launch).endSt = .fault ∧ (t.rcd g.launch).detail = 0x1C ∧
        ((t.rcd g.launch).st = .ending ∧ (t.group gid ≠ none ∨ ∃ u w, t.team u = some w ∧ w.task.lrec = g.launch) ∨
          (t.rcd g.launch).st = .stamped ∧ t.groups = []) ∧
        (g.landings = [] → (∀ id x, (id, some x) ∈ s.txns → x.gid ≠ gid) → t.groups = []))) ∧
    -- the answer to the call at the head
    (c.svcs = [] → exec .svcret s = .next s) ∧
    (∀ h rest g n, c.svcs = h :: rest → s.group h.gid = some g → (s.rcd g.launch).blk.prot = false → g.resident = true → h.lane < 32 →
      (g.lane h.lane).park = .svc n → ∃ t, exec .svcret s = .next t ∧ t.ctx k = { c with svcret := v, svcs := rest } ∧ t.mem = s.mem ∧
        t.recs = s.recs ∧ (∃ g', t.group h.gid = some g' ∧ g' = { g with lanes := g'.lanes } ∧
          g'.lane h.lane = { (g.lane h.lane).setRegs (pairW h.d 511 v) with st := .eligible, park := .none, ready := false, pc := (g.lane h.lane).pc + 8 } ∧
          ∀ l, l ≠ h.lane → g'.lane l = g.lane l) ∧
        -- a virtual function has vectors 0 to 63
        t.out = if c.svcie && !rest.isEmpty && (c.func == 0 || decide (c.friv.toNat < 64)) then
          .msix c.port.toNat c.func.toNat c.friv.toNat :: s.out else s.out)) ∧
  ∀ (s : State) (off n : Nat) (v : DWord), s.input = .reg off n v →
    let writes := fun (t : State) => exec .registerWrite s = .next t
    let f := fun (lo w : Nat) => BitVec.extractLsb' lo w v
    let buffer := 0x201000 ≤ off ∧ off < 0x202000
    -- not served: a width or an alignment that no register has
    (n = 0 ∨ 8 < n ∨ off % n ≠ 0 ∨ (n ≠ 4 ∧ n ≠ 8 ∧ ¬ buffer) ∨ (buffer ∧ 0x202000 < off + n) →
      writes (s.logEv .unsupportedRequest 1 (evQuad (regQuad off)) [off, n])) ∧
    -- the mailbox buffer takes bytes, at every width; while a command runs the write is logged
    (buffer → 1 ≤ n → n ≤ 8 → off % n = 0 → off + n ≤ 0x202000 → ∃ b old,
      (let t := { s with mgmt := { s.mgmt with mbbuf := b, mbOld := old } }
       writes (if s.mgmt.busy then t.logEv .mbbufWritten 1 (evQuad 0) [off, n] else t)) ∧ (s.mgmt.started = false → old = s.mgmt.mbOld) ∧
      ∀ i, i < 4096 → Sparse.get 0 b i = if off - 0x201000 ≤ i ∧ i < off - 0x201000 + n then BitVec.extractLsb' (8 * (i - (off - 0x201000))) 8 v
        else Sparse.get 0 s.mgmt.mbbuf i) ∧
    -- CARVE and the counters of a quadrant
    (∀ q, q < 4 → off = 0x100000 + 0x10000 * q → n = 8 → Sparse.wf ({} : Ctx) s.ctxs = true →
      ((∃ k, (s.ctx k).en = true) ∨ 8 < (f 0 4).toNat → writes s) ∧
      ((∀ k, (s.ctx k).en = false) → (f 0 4).toNat ≤ 8 → writes (s.setQuad q { s.quad q with carve := f 0 4 }))) ∧
    (∀ q, q < 4 → off = 0x100008 + 0x10000 * q → n = 8 → writes (s.setQuad q { s.quad q with lreq := v })) ∧
    (∀ q, q < 4 → off = 0x10000C + 0x10000 * q → n = 4 →
      writes (s.setQuad q { s.quad q with lreq := f 0 32 ++ BitVec.extractLsb' 0 32 (s.quad q).lreq })) ∧
    -- NODE stays while DEN is 1
    (off = 0x300000 → n = 8 → s.clovar.den = v.getLsbD 16 →
      writes { s with clovar := { s.clovar with node := if s.clovar.den then s.clovar.node else f 0 10 } }) ∧
    (∀ p g, p < 2 → g < 32 → off = 0x400000 + 0x1000 * p + 8 * g → n = 8 →
      writes (s.setPort p { s.port p with winbase := Sparse.set 0 (s.port p).winbase g (f 26 14) })) ∧
    -- a context's registers
    ∀ k, k < 64 →
      let c := s.ctx k
      let at' := fun (o : Nat) => off = 0x500000 + 0x100 * k + o ∧ n = 8
      let unlessEn := fun (c' : Ctx) => writes (if c.en then s else s.setCtx k c')
      (at' 0x08 → unlessEn { c with ptroot := f 12 40 }) ∧ (at' 0x20 → unlessEn { c with locbase := f 16 41 }) ∧
      (at' 0x28 → unlessEn { c with locfr := f 16 16, locsz := f 0 7 }) ∧ (at' 0x38 → unlessEn { c with frbase := f 12 40, frlog := f 0 4 }) ∧
      (∀ i, i < 8 → at' (0x40 + 16 * i) → unlessEn (c.setQueue i { c.queue i with qring := f 8 44 })) ∧
      (∀ i, i < 8 → at' (0x48 + 16 * i) → writes (s.setCtx k (c.setQueue i { c.queue i with
        qlog := if c.en then (c.queue i).qlog else f 0 4, qerr := (c.queue i).qerr && !v.getLsbD 31 }))) ∧
      (at' 0x30 → writes (s.setCtx k { c with handler := f 3 54, ten := v.getLsbD 0 })) ∧
      (at' 0xE0 → writes (s.setCtx k { c with frie := v.getLsbD 11, friv := f 0 11 })) ∧
      (at' 0xF0 → writes (s.setCtx k { c with svcie := v.getLsbD 40 })) ∧
      (at' 0x10 → c.invbusy = false → v.getLsbD 0 = false → v.getLsbD 1 = false → writes (s.setCtx k { c with invva := f 12 45 }))

/-! ### The life of a launch (files 04, 05, 06) -/

/-- R81 to R84: the 256 bytes of a launch block, the checks that it meets in their order, and the size of a save slot. -/
def Obligations.LaunchBlocks : Prop :=
  ∀ (b : Block) (pceil : Nat) (detail : Nat),
    let flag := fun (x : Bool) (i : Nat) => if x then 2 ^ i else 0
    let roleBytes := fun (r : Role) => toLE 8 r.entry.toNat ++ toLE 1 r.regs ++ toLE 1 r.ngrp ++ toLE 1 r.stg ++ List.replicate 5 0
    let stageBytes := fun (q : DWord × Nat) => toLE 8 q.1.toNat ++ toLE 1 q.2 ++ List.replicate 7 0
    let pad := fun (n : Nat) (bs : List Byte) => bs ++ List.replicate (n - bs.length) 0
    let image : List Byte := toLE 1 1 ++ toLE 1 b.pri ++
      toLE 2 (flag b.gang 0 + flag b.prot 1 + flag b.reln 2 + flag b.detr 3 + flag b.sbchk 4 + flag b.snant 5 + flag b.flush 6 + flag b.irq 7 + flag b.sxu 8) ++
      toLE 1 b.nrole ++ toLE 1 b.nstage ++ toLE 1 b.cw ++ toLE 1 b.ch ++ toLE 4 b.gx ++ toLE 4 b.gy ++ toLE 4 b.gz ++ toLE 2 b.scr ++
      toLE 1 b.acc ++ [0] ++ toLE 8 b.arg.toNat ++ toLE 8 b.done.toNat ++ toLE 8 b.spov.toNat ++ toLE 4 b.spovlen ++ toLE 2 b.chres ++
      toLE 2 b.msiv ++ toLE 8 b.save.toNat ++ toLE 4 b.savelen ++ toLE 4 b.fpctl.toNat ++ List.replicate 0x38 0 ++
      pad 64 (b.roles.flatMap roleBytes) ++ pad 64 (b.stages.flatMap stageBytes)
    let stages := max b.nstage 1
    let sum := fun (f : Role → Nat) => (b.roles.map f).sum
    -- what the fields can hold
    b.pri < 32 → b.nstage < 256 → b.nrole < 256 → b.roles.length = min b.nrole 4 → b.stages.length = min stages 4 → b.cw < 256 → b.ch < 256 →
    b.gx < 2 ^ 32 → b.gy < 2 ^ 32 → b.gz < 2 ^ 32 → b.scr < 2 ^ 16 → b.acc < 256 → b.spovlen < 2 ^ 32 → b.chres < 2 ^ 16 → b.msiv < 2048 →
    b.savelen < 2 ^ 32 → (∀ r ∈ b.roles, r.regs < 256 ∧ r.ngrp < 256 ∧ r.stg < 256) → (∀ q ∈ b.stages, q.2 < 256) →
    let reserved := b.fpctl.toNat % 8 < 5 ∧ b.fpctl.toNat / 8 % 32 = 0 ∧ b.fpctl.toNat < 1024 ∧ (stages ≤ 4 → b.stages.getLast? = some (0, 0))
    let priority := b.pri ≤ pceil ∧ b.pri ≤ 23
    let geometry := 1 ≤ b.nrole ∧ b.nrole ≤ 4 ∧ b.nstage ≤ 4 ∧ 1 ≤ b.cw ∧ b.cw ≤ 6 ∧ 1 ≤ b.ch ∧ b.ch ≤ 4 ∧ b.cw * b.ch ≤ 12 ∧ 1 ≤ b.gx ∧ 1 ≤ b.gy ∧ 1 ≤ b.gz ∧
      b.gx * b.gy * b.gz < 2 ^ 32 ∧ b.cw ∣ b.gx ∧ b.ch ∣ b.gy ∧ b.scr ≤ 768 ∧ b.acc ≤ 16 ∧ 8 ∣ b.done.toNat ∧ 65536 ∣ b.spov.toNat ∧
      (b.spov ≠ 0 → b.spovlen ≠ 0) ∧ b.chres ≤ 64 ∧ 65536 ∣ b.save.toNat ∧
      (∀ r ∈ b.roles, 8 ∣ r.entry.toNat ∧ 1 ≤ r.regs ∧ r.regs ≤ 64 ∧ 1 ≤ r.ngrp ∧ r.ngrp ≤ 128 ∧ r.stg < stages) ∧
      ∀ q ∈ b.stages.dropLast, q.1 ≠ 0 ∧ 64 ∣ q.1.toNat ∧ q.2 ≤ 12
    let capacity := sum (·.ngrp) + b.chres ≤ 128 ∧ sum (fun r => r.ngrp * r.regs) ≤ 1024
    let slotKiB := 4 + b.scr + 16 * b.acc + sum (fun r => r.ngrp * (1 + r.regs)) + if b.sxu then 512 else 0
    let save := b.save ≠ 0 ∧ b.gx * b.gy * b.gz * (64 * ((slotKiB + 63) / 64)) ≤ b.savelen * 64
    let flags := (b.reln = true → b.gang = true) ∧ (b.prot = true → b.sxu = false)
    image.length = 256 ∧ parseBlock image = b ∧ b.slotBytes = 65536 * ((slotKiB + 63) / 64) ∧
    (checkBlock pceil image = none ↔ reserved ∧ priority ∧ geometry ∧ capacity ∧ save ∧ flags) ∧
    (checkBlock pceil image = some detail ↔
      (detail = 2 ∧ ¬ reserved) ∨ (detail = 3 ∧ reserved ∧ ¬ priority) ∨ (detail = 4 ∧ reserved ∧ priority ∧ ¬ geometry) ∨
      (detail = 5 ∧ reserved ∧ priority ∧ geometry ∧ ¬ capacity) ∨ (detail = 6 ∧ reserved ∧ priority ∧ geometry ∧ capacity ∧ ¬ save) ∨
      (detail = 7 ∧ reserved ∧ priority ∧ geometry ∧ capacity ∧ save ∧ ¬ flags)) ∧
    ∀ (x : Byte), x ≠ 1 → checkBlock pceil (x :: image.tail) = some 1

/-- R80, R85, R92, R95, R97, R106, R109, R111, R121, R133, R157: a launch from its block in a ring to its stamp: the block taken, a
reservation, a team placed, a group retired, a ticket skipped, quiescence, the stamp, a spawned group released. -/
def Obligations.LaunchLife : Prop :=
  -- BLOCK_CONSUME
  (∀ (s : State) (k j : Nat), k < 64 → j < 8 →
    let c := s.ctx k
    let q := c.queue j
    let takes := c.en = true ∧ c.halt = false ∧ c.kreq = false ∧ q.stopped = false ∧ q.cidx ≠ q.pidx ∧
      (s.recs.filter fun p => decide (p.2.st ≠ .free)).length < 3840 ∧ s.mgmt.noLaunch = false
    let slot := q.qring.toNat * 256 + 256 * (q.cidx.toNat % 2 ^ Nat.min q.qlog.toNat 12)
    (¬ takes → exec (.blockConsume k j) s = .next s) ∧
    (takes → s.viewOf slot = none → exec (.blockConsume k j) s =
      .next ((s.setCtx k (c.setQueue j { q with stopped := true, qerr := true })).logEv .queueStopped 2 (evQuad (k % 4)) [k, j, q.cidx.toNat])) ∧
    (∀ x y a, takes → s.viewOf slot = some (x, y, a) → s.rangeFree a 256 = true →
      (s.poisonedRange a 256 = true → exec (.blockConsume k j) s = .next s) ∧
      (s.poisonedRange a 256 = false → ∀ r, r < 4096 → (s.rcd r).st = .free → (∀ i, i < r → (s.rcd i).st ≠ .free) →
        let bs := s.cells a 256
        let b := parseBlock bs
        let rc : Rec := { gen := ((s.rcd r).gen + 1) % 2 ^ 20, ctx := k, ring := some (j, q.cidx), blk := b, order := s.next }
        ∃ t, exec (.blockConsume k j) s = .next t ∧ t.ctx k = c.setQueue j { q with cidx := q.cidx + 1 } ∧ t.mem = s.mem ∧
          (∀ i, i ≠ r → t.rcd i = s.rcd i) ∧
          (∀ code, checkBlock c.pceil.toNat bs = some code → t.rcd r = { rc with st := .stamped, endSt := .rejected, detail := BitVec.ofNat 8 code }) ∧
          (checkBlock c.pceil.toNat bs = none → t.mgmt = s.mgmt ∧ ∃ ts cores, t.rcd r = { rc with st := .waiting, pending := ts, stageCore := cores } ∧
            ts.length = b.gx * b.gy * b.gz ∧ ∀ i, i < ts.length → ts[i]? = some {
              entry := ((b.roles.find? fun x => x.stg == 0).getD {}).entry, arg := b.arg, seq := BitVec.ofNat 32 i, lrec := r, age := s.next
              tx := BitVec.ofNat 32 (i % b.gx), ty := BitVec.ofNat 32 (i / b.gx % b.gy), tz := BitVec.ofNat 32 (i / b.gx / b.gy) })))) ∧
  -- one single-team record pending on a device with nothing placed
  (∀ (s : State) (r : Nat) (rc : Rec) (t : Task) (x : Role), r < 4096 → s.recs = [(r, rc)] → rc.st = .waiting → rc.hold = false → rc.resv = [] →
    rc.resvFor = none → rc.pending = [t] → t.stg = 0 → t.bad = false → s.bins = [] → rc.stageQ = [] → rc.rects = [] → rc.blk.nstage ≤ 1 → rc.blk.cw = 1 → rc.blk.ch = 1 → rc.blk.roles = [x] → x.stg = 0 →
    s.teams = [] → s.groups = [] → s.arrays = [] → s.ctxs = [] → s.mgmt.tests = [] → s.mgmt.boot = .ready → s.dirtyLines = [] → s.dir = [] →
    let fits := x.ngrp + rc.blk.chres ≤ 128 ∧ x.ngrp * x.regs ≤ 1024 ∧ rc.blk.scr ≤ 768 ∧ rc.blk.acc ≤ 16
    ((∀ d, (s.die d).st ≠ .online) → exec .teamPlacement s = .next s) ∧ (¬ fits → exec .teamPlacement s = .next s) ∧
    (s.dies = [] → fits →
      (∃ m, exec .teamPlacement s = .next m ∧ m.mem = s.mem ∧ m.rcd r = { rc with st := .running, pending := [] } ∧
        m.team (s.next + 1) = some { st := .running, task := t, core := 0, gang := t.seq.toNat } ∧
        (rc.blk.sxu = true → m.array 0 = { team := some (s.next + 1) }) ∧
        ∀ i, i < x.ngrp → ∃ g, m.group (s.next + 2 + i) = some g ∧ g.launch = r ∧ g.team = some (s.next + 1) ∧ g.core = 0 ∧ g.quarter = i % 4 ∧
          g.slot = i / 4 ∧ g.role = 0 ∧ g.grp = i ∧ g.budget = x.regs ∧ g.resident = true ∧ g.g = [] ∧ g.step = 0 ∧ g.depthNp = 0 ∧ ∀ l, l < 32 →
          g.lane l = { st := .eligible, pc := if t.entry = 0 then x.entry else t.entry, rm := BitVec.extractLsb' 0 3 rc.blk.fpctl }) ∧
      ∃ m, exec (.headReservation r) s = .next m ∧ m = s.setRec r { rc with resv := (m.rcd r).resv, resvFor := some (0, t.seq.toNat) } ∧
        ∀ c, c ∈ (m.rcd r).resv ↔ c < 192)) ∧
  -- the only group of the device is a spawned one, and retires; or it is its team's last
  (∀ (s : State) (gid : Nat) (g : Group), s.groups = [(gid, some g)] → s.txns = [] → s.decs = [] → s.copies = [] → s.nbs = [] →
    let ended := g.resident = true ∧ (∀ l, l < 32 → (g.lane l).st = .exited) ∧ g.landings = []
    (¬ ended → exec (.groupRetire gid) s = .next s) ∧
    -- the last group of an ending launch leaves: the launch is to be stamped
    let st := if (s.rcd g.launch).st = .ending then .stamped else (s.rcd g.launch).st
    (ended → g.team = none → s.arrays = [] → ∃ t, exec (.groupRetire gid) s = .next t ∧ t.groups = [] ∧ t.mem = s.mem ∧
      (∀ r, t.rcd r = if r = g.launch then { s.rcd r with st := st } else s.rcd r) ∧
      ∀ f, g.frame = some f → Sparse.get false (t.ctx (s.rcd g.launch).ctx).frames f = false) ∧
    (∀ u tm, ended → g.team = some u → s.teams = [(u, some tm)] → tm.task.succ = 0 → tm.taken = [] → tm.sx = none → tm.task.lrec = g.launch →
      s.mx = [] → s.arrays = [] → s.bins = [] → (s.rcd g.launch).held = [] → (s.rcd g.launch).blk.detr = false →
      ∃ t, exec (.groupRetire gid) s = .next t ∧ t.groups = [] ∧ t.teams = [] ∧ t.mem = s.mem ∧ (t.rcd g.launch).st = st ∧
        ∀ o, o ∈ (t.rcd g.launch).owed ↔ o ∈ (s.rcd g.launch).owed ∨
          ∃ sec, sec < 16 ∧ o = (tm.task.stg * 16 + sec, tm.task.seq.toNat) ∧ Sparse.get 0 (s.rcd g.launch).tickets (tm.task.stg * 16 + sec) ≤ tm.task.seq.toNat)) ∧
  -- a counter reaches the SEQ of a retired record that did not pass it
  (∀ (s : State) (r stg sec : Nat),
    let rc := s.rcd r
    let key := stg * 16 + sec
    let v := Sparse.get 0 rc.tickets key
    let rest := rc.owed.filter fun o => !(o.1 == key && decide (o.2 ≤ v))
    ((key, v) ∉ rc.owed → exec (.ticketSkip r stg sec) s = .next (s.setRec r { rc with owed := rest })) ∧
    ((key, v) ∈ rc.owed → Sparse.wf none s.groups = true → ∃ t, exec (.ticketSkip r stg sec) s = .next t ∧ t.mem = s.mem ∧
      t.rcd r = { rc with owed := rest, tickets := Sparse.set 0 rc.tickets key ((v + 1) % 2 ^ 32), skipped := Sparse.set false rc.skipped key true } ∧
      ∀ gid g l q, s.group gid = some g → g.launch = r → l < 32 → (g.lane l).st = .parked → (g.lane l).park = .ticket key q →
        ∃ g', t.group gid = some g' ∧ g'.lane l = { g.lane l with ready := (g.lane l).ready || decide (q ≤ (v + 1) % 2 ^ 32) })) ∧
  -- nothing of the launch is left
  (∀ (s : State) (r : Nat), s.bins = [] → s.groups = [] → s.teams = [] → s.copies = [] → s.nbs = [] → s.clovar.colls = [] → s.decs = [] → s.txns = [] →
    let rc := s.rcd r
    (rc.st ≠ .running → exec (.quiescent r) s = .next s) ∧ (rc.pending ≠ [] → exec (.quiescent r) s = .next s) ∧
    (rc.st = .running → rc.pending = [] → rc.stageQ = [] → rc.lists = [] → rc.rings = [] → rc.held = [] →
      -- a pre-emption or a cut of it is over
      exec (.quiescent r) s = .next ((s.setCtx rc.ctx ((s.ctx rc.ctx).popOver r)).setRec r { rc with st := .stamped, endSt := .ok }))) ∧
  -- the stamp
  (∀ (s s1 : State) (r : Nat),
    let rc := s.rcd r
    let low := match rc.ring with | some q => q.2.toNat | none => rc.gen % 2 ^ 20 * 4096 + r
    let status := match rc.endSt with | .ok => 0 | .killed => 1 | .fault => 2 | .rejected => 3
    let stamp := low + 2 ^ 32 * status + 2 ^ 40 * rc.detail.toNat + 2 ^ 48 * min rc.relaunches 255
    (rc.st ≠ .stamped → exec (.stampAccept r) s = .next s) ∧
    -- a release at system scope: zero-length reads go behind the stores to host memory, and it waits for them
    let covered := (rc.stampZlr = none ∧ s.hostQuiet rc.ctx 0 = true ∧ s.hostQuiet rc.ctx 1 = true) ∨
      ∃ ids, rc.stampZlr = some ids ∧ ∀ i ∈ ids, s.txn i = none
    (r < 4096 → rc.st = .stamped → s.decs = [] → rc.stampSent = false →
      (∀ ids i, rc.stampZlr = some ids → i ∈ ids → s.txn i ≠ none → exec (.stampAccept r) s = .next s) ∧
      (∀ p, p < 2 → rc.stampZlr = none → s.hostQuiet rc.ctx p = false → ∃ t ids, exec (.stampAccept r) s = .next t ∧ t.mem = s.mem ∧
        t.rcd r = { rc with stampZlr := some ids } ∧ ∃ i ∈ ids, ∃ x, t.txn i = some x ∧ x.tgt = .host p 0 ∧ x.deps = s.hostPending rc.ctx p ∧
          x.parts.map (·.op) = [.zlr]) ∧
      (covered → ∀ a, s.millAt rc.ctx rc.blk.done.toNat 8 .store = (.cell a, s1) → ∃ t, exec (.stampAccept r) s = .next t ∧ t.rcd r = { gen := (s1.rcd r).gen } ∧
        (∀ c, t.cell c = if a ≤ c ∧ c < a + 8 then BitVec.ofNat 8 (stamp / 256 ^ (c - a)) else s1.cell c) ∧
        t.out = (let rc1 := s1.rcd r
          let cx := s1.ctx rc1.ctx
          if rc1.blk.irq && decide (rc1.blk.msiv < if cx.func = 0 then 2048 else 64) then .msix cx.port.toNat cx.func.toNat rc1.blk.msiv :: s1.out
          else s1.out)) ∧
      (covered → s.millAt rc.ctx rc.blk.done.toNat 8 .store = (.bad, s1) → ∃ t, exec (.stampAccept r) s = .next t ∧ t.rcd r = { gen := (s1.rcd r).gen } ∧
        t.mem = s1.mem ∧ t.out = s1.out ∧ (Sparse.get {} t.mgmt.log s1.mgmt.evprod).ev = .stampUnwritable))) ∧
  -- one closed bin on a device with nothing placed
  ∀ (s : State) (u b r at' : Nat) (x : Bin) (rc : Rec), u < 4 → b < 256 → s.bins = [(u * 256 + b, x)] → x.used = true → x.closed = some at' → x.launch = r →
    s.recs = [(r, rc)] → rc.st = .running → rc.hold = false → rc.rings = [] → rc.blk.prot = false → s.groups = [] → s.teams = [] → s.dies = [] →
    s.ctxs = [] → s.mgmt.tests = [] → s.mgmt.boot = .ready → (x.kids.map fun k => k.lane).Nodup → (∀ k ∈ x.kids, k.lane < 32) →
    ∃ t g, exec .spawnedGroupRelease s = .next t ∧ t.mem = s.mem ∧ t.recs = s.recs ∧ t.bins = [] ∧ t.group s.next = some g ∧ g.launch = r ∧
      g.team = none ∧ g.core = 48 * u ∧ g.quarter = 0 ∧ g.slot = 0 ∧ g.budget = [2, 4, 6, 8, 12, 16, 32, 64].getD (x.cls % 8) 64 ∧ g.resident = true ∧
      g.spawned = some { entry := x.entry, cls := x.cls, depth := x.depth, quad := u, kids := x.kids } ∧
      (∀ k ∈ x.kids, g.lane k.lane = ({ st := .eligible, pc := x.entry, rm := BitVec.extractLsb' 0 3 rc.blk.fpctl } : Lane).setRegs
        ((List.range k.pay.length).zip k.pay)) ∧
      ∀ l, (∀ k ∈ x.kids, k.lane ≠ l) → (g.lane l).st = .exited

/-! ### Pre-emption (files 06, 13) -/

/-- R282, R290, R296: the commands of POP; a cut that goes on, times out, finds no room or outlives its
launch; the end of a pre-emption. -/
def Obligations.Preemption : Prop :=
  (∀ (s : State) (k j : Nat) (v : DWord), k < 64 → s.input = .ctxWrite k j v →
    let c := s.ctx k
    let r := (BitVec.extractLsb' 0 12 v).toNat
    let pop := BitVec.extractLsb' 12 2 v
    let rc := s.rcd r
    let c1 : Ctx := { c with pop := pop, prec := BitVec.extractLsb' 0 12 v }
    let ends := fun (i : Instr) (pres : Byte) => exec i s = .next (s.setCtx k { c1 with popSt := .idle, pres := pres })
    let rows : List (Instr × BitVec 2) := [(.preEmpt, 1), (.popResume, 2), (.cut, 3)]
    (∀ row ∈ rows, pop = row.2 →
      -- while PBUSY is 1 a write is ignored whole
      (c.popSt ≠ .idle → exec row.1 s = .next s) ∧
      (c.popSt = .idle → rc.st ≠ .running ∨ rc.ctx ≠ k → ends row.1 1)) ∧
    (c.popSt = .idle → rc.st = .running → rc.ctx = k →
      (pop = 2 → (rc.hold = false → ends .popResume 0) ∧
        (rc.hold = true → exec .popResume s = .next ((s.setRec r { rc with hold := false }).setCtx k { c1 with popSt := .idle, pres := 0 }))) ∧
      (∀ row ∈ rows, pop = row.2 → pop ≠ 2 →
        (rc.hold = true → ends row.1 0) ∧
        (rc.hold = false → 4 ≤ (s.recs.filter fun p => p.2.hold).length → ends row.1 4) ∧
        (rc.hold = false → s.heldCount < 4 → s.bitsFree (s.teamsOf r) = false → ends row.1 2)) ∧
      (rc.hold = false → s.heldCount < 4 → s.bitsFree (s.teamsOf r) = true →
        (pop = 3 → exec .cut s = .next (s.setCtx k { c1 with popSt := .cut r, pres := 0 })) ∧
        (pop = 1 → Sparse.wf none s.groups = true → Sparse.wf none s.teams = true → ∃ t, exec .preEmpt s = .next t ∧ t.mem = s.mem ∧
          t.ctx k = { c1 with popSt := .preempt r none, pres := 0 } ∧ t.rcd r = { rc with hold := true } ∧ (∀ i, i ≠ r → t.rcd i = s.rcd i) ∧
          (∀ u tm, s.team u = some tm → t.team u = some { tm with stopping := tm.stopping || decide (tm.task.lrec = r ∧ tm.st ≠ .suspended) }) ∧
          ∀ gid g, s.group gid = some g → (∀ u, g.team = some u → ∃ tm, s.team u = some tm ∧ tm.task.lrec = g.launch ∧ tm.st ≠ .suspended) →
            -- a group of a team is to stop; a spawned one as far as the pool has frames for it
            ∃ b, t.group gid = some { g with preempt := b } ∧ (g.preempt = true → b = true) ∧
              (b = true → g.preempt = true ∨ g.resident = true ∧ g.launch = r) ∧
              (g.resident = true → g.launch = r → (g.team = none →
                (((s.groupsOf r).filter fun p => p.2.team.isNone && p.2.resident && !p.2.preempt).map fun p => p.2.poolFrames).sum ≤ s.poolFree r) →
                b = true))))) ∧
  -- with nothing of the context left to save, the pre-emption or the resumption of a cut goes on
  (∀ (s : State) (k r : Nat), k < 64 → Sparse.wf none s.groups = true → (∀ u tm, (u, some tm) ∈ s.teams → tm.stopping = false) →
    (∀ gid g, (gid, some g) ∈ s.groups → g.preempt = false) → (∀ q, (s.rcd q).ctx = k → (s.rcd q).st ≠ .ending) →
    (∀ gid g, (gid, some g) ∈ s.groups → g.team = none → g.resident = true → (s.rcd g.launch).hold = true → g.waits = true →
      s.poolFree g.launch < g.poolFrames) →
    let c := s.ctx k
    let team := fun (g : Group) => g.launch = r ∧ g.team ≠ none ∧ ∃ l, l < 32 ∧ (g.lane l).st ≠ .exited
    (c.popSt = .idle → exec (.preemptionComplete k) s = .next s) ∧
    (∀ m, c.popSt = .preempt r m →
      ((∃ gid g, s.group gid = some g ∧ g.launch = r ∧ g.resident = true) → exec (.preemptionComplete k) s = .next s) ∧
      ((∀ gid g, s.group gid = some g → g.launch = r → g.resident = false ∧ g.atStep = false) →
        (∀ u tm, (u, some tm) ∈ s.teams → tm.task.lrec = r → tm.st = .suspended) → exec (.preemptionComplete k) s =
          .next (s.setCtx k { c with cutstep := match m with | some n => BitVec.ofNat 32 n | none => c.cutstep, popSt := .idle, pres := 0 }))) ∧
    -- a cut whose launch has ended is over
    (c.popSt = .cut r → (s.rcd r).st ≠ .running ∨ (s.rcd r).ctx ≠ k →
      exec (.preemptionComplete k) s = .next (s.setCtx k { c with popSt := .idle, pres := 0 })) ∧
    (c.popSt = .cut r → (s.rcd r).st = .running → (s.rcd r).ctx = k →
      ((∃ gid g, s.group gid = some g ∧ team g ∧ g.atStep = false) → exec (.preemptionComplete k) s = .next s) ∧
      ((∀ gid g, s.group gid = some g → team g → g.atStep = true) → ∀ m, (∃ gid g, s.group gid = some g ∧ team g ∧ g.step.toNat = m) →
        (∀ gid g, s.group gid = some g → team g → g.step.toNat ≤ m) → ∃ t, exec (.preemptionComplete k) s = .next t ∧ t.mem = s.mem ∧
        ((∃ gid g, s.group gid = some g ∧ team g ∧ g.step.toNat < m) → t.ctx k = c ∧ t.rcd r = s.rcd r ∧
          ∀ gid g, s.group gid = some g → t.group gid = some (if g.launch = r ∧ g.team ≠ none ∧ g.live ≠ [] ∧ g.step.toNat < m then { g with atStep := false } else g)) ∧
        -- the bits of its teams must find room before the save begins
        ((∀ gid g, s.group gid = some g → team g → g.step.toNat = m) →
          (s.bitsUsed ≤ fantailBits → t.ctx k = { c with popSt := .preempt r (some m) } ∧ t.rcd r = { s.rcd r with hold := true }) ∧
          (fantailBits < s.bitsUsed → t.ctx k = { c with popSt := .idle, pres := 2 } ∧ t.rcd r = s.rcd r)))) ∧
    -- the time of a cut is over
    (c.popSt = .idle ∨ c.popSt = .preempt r none → exec (.cutTimeout k) s = .next s) ∧
    (c.popSt = .cut r ∨ (∃ m, c.popSt = .preempt r (some m)) → ∃ t, exec (.cutTimeout k) s = .next t ∧ t.mem = s.mem ∧ t.teams = s.teams ∧
      t.ctx k = { c with popSt := .idle, pres := 3 } ∧ t.rcd r = { s.rcd r with hold := false } ∧
      ∀ gid g, s.group gid = some g → t.group gid = some (if g.launch = r then { g with atStep := false } else g)))

/-- R135, R138, R167, R172, R173, R294: a group suspended alone and what its frame holds, how the frame brings it back, and the
launches that end for want of a pool frame or a local frame. A report rejected while the group is away traps its lane when it comes back. -/
def Obligations.SuspendedGroups : Prop :=
  (∀ (s s1 : State) (gid va : Nat) (g : Group) (pool : List Nat) (ps : List (Nat × Nat)), s.group gid = some g → g.resident = true →
    s.stoppable gid g = true → g.loc = [] → s.savePlace g = some (va, pool) →
    s.ranges (s.ctxOf g) .store (s.frameRanges g va pool) = (.ok ps, s1) → s1.group gid = some g → s1.dir = [] → s1.txns = [] →
    let places := ps.flatMap fun p => (List.range p.2).map fun i => p.1 + i
    places.Nodup → places.length = g.frameBytes.length →
    (s.toSuspend ≠ some gid → exec (.groupSuspend gid) s = .next s) ∧
    (s.toSuspend = some gid → ∃ t : State, exec (.groupSuspend gid) s = .next (t.tailrace g.launch) ∧
      (∃ g' : Group, t.group gid = some g' ∧ g' = { g with
        resident := false, alone := true, pool := pool, hazards := [], landings := [], fetched := [], preempt := false
        -- the hold of a SLEEP ends
        asleep := false, readyAt := if g.asleep then s.clk else g.readyAt, lanes := g'.lanes, jwaitEnded := g'.jwaitEnded } ∧
        ∀ l, l < 32 → g'.lane l = { g.lane l with ready := (g'.lane l).ready }) ∧
      (∀ (i c : Nat) (b : Byte), places[i]? = some c → g.frameBytes[i]? = some b → t.cell c = b) ∧ ∀ c, c ∉ places → t.cell c = s1.cell c)) ∧
  -- the frame
  (∀ g : Group, g.backoff < 16 → g.depthNp < 16 → (g.buckets.foldl (· + ·) 0) < 2 ^ 32 → 1 ≤ g.budget → g.budget ≤ 64 →
    let bs := g.frameBytes
    let f := fun (i n : Nat) => leNat ((bs.drop i).take n)
    let bits := fun (x hi lo : Nat) => x / 2 ^ lo % 2 ^ (hi + 1 - lo)
    bs.length = 1024 * (1 + g.budget) ∧
    (∀ l, l < 32 →
      let ln := g.lane l
      let state := match ln.st with | .eligible => 0 | .joining => 1 | .parked => 2 | .trapped => 2 | .exited => 3
      bits (f (8 * l) 8) 56 3 = bits ln.pc.toNat 56 3 ∧ bits (f (8 * l) 8) 2 1 = state ∧ bits (f (8 * l) 8) 0 0 = ln.handler.toNat ∧
      bits (f (0x310 + 4 * l) 4) 6 0 = ln.p.toNat ∧ bits (f (0x310 + 4 * l) 4) 9 7 = ln.rm.toNat ∧
      bits (f (0x310 + 4 * l) 4) 14 10 = ln.flags.toNat ∧ bits (f (0x310 + 4 * l) 4) 15 15 = (decide (ln.st = .trapped)).toNat ∧
      bits (f (0x310 + 4 * l) 4) 25 16 = ln.cause.toNat % 1024 ∧ f (0x398 + 2 * l) 2 = ln.mark.toNat ∧
      ∀ v, v < 8 * g.budget → f (0x400 + 128 * v + 4 * l) 4 = (ln.reg v).toNat) ∧
    (∀ i, i < 127 → f (0x100 + 4 * i) 4 = (g.gr i).toNat) ∧
    bits (f 0x2FC 4) 4 0 = g.backoff ∧ bits (f 0x2FC 4) 5 5 = g.handling.toNat ∧ bits (f 0x2FC 4) 6 6 = g.floor.isSome.toNat ∧
    bits (f 0x2FC 4) 11 8 = g.depthNp ∧ f 0x308 4 = g.step.toNat ∧ f 0x30C 4 = g.buckets.foldl (· + ·) 0 ∧ f 0x390 4 = g.mask.toNat ∧
    (∀ a, g.floor = some a → f 0x300 8 = a.toNat % 2 ^ 57 / 8 * 8) ∧
    -- and back
    let r := g.restore bs
    (∀ l, l < 32 →
      let ln := g.lane l
      let rl := r.lane l
      ln.rejected = false → (ln.pc.toNat < 2 ^ 57 → ln.pc.toNat % 8 = 0 → rl.pc = ln.pc) ∧ rl.st = ln.st ∧ rl.handler = ln.handler ∧ rl.p = ln.p ∧ rl.rm = ln.rm ∧
      rl.flags = ln.flags ∧ (ln.cause.toNat < 1024 → rl.cause = ln.cause) ∧ rl.mark = ln.mark ∧ rl.addr = ln.addr ∧
      (ln.st = .parked → rl.park = ln.park) ∧ ∀ v, v < 8 * g.budget → rl.reg v = ln.reg v) ∧
    -- a lane whose report has been rejected since comes back trap-parked at the word that faulted
    (∀ l a, l < 32 → (g.lane l).st = .parked → ((g.setLane l { g.lane l with st := .trapped, pc := a, rejected := true }).restore bs).lane l =
      { r.lane l with st := .trapped, park := .none, ready := false, pc := a }) ∧
    (∀ i, r.gr i = g.gr i) ∧ r.backoff = g.backoff ∧ r.handling = g.handling ∧ r.depthNp = g.depthNp ∧ r.step = g.step ∧ r.buckets = g.buckets.take 17) ∧
  -- it lies in one piece, but a class 7 frame over two frames of the pool
  (∀ (s : State) (g : Group) (va i j : Nat), s.frameRanges g va [] = [(va, 1024 * (1 + g.budget))] ∧
    s.frameRanges g va [i] = [(va, 1024 * (1 + g.budget))] ∧
    s.frameRanges g va [i, j] = [(va, 65536), ((s.rcd g.launch).blk.poolVa j, 1024 * (1 + g.budget) - 65536)]) ∧
  -- no pool frame for a group that could make way
  (∀ (s : State) (r : Nat), (s.rcd r).st = .running →
    let stuck := ∃ kd ∈ s.kids, kd.launch = r ∧ s.kidCore kd = none ∧
      (∃ c, c < 192 ∧ s.fitsWithout kd c (s.givers r kd.depth c fun _ => true) = true) ∧
      ∀ c, c < 192 → s.givers r kd.depth c (fun g => (s.savePlace g).isSome) = []
    (¬ stuck → exec (.spawnSave r) s = .next s) ∧
    (stuck → ∃ t, exec (.spawnSave r) s = .next t ∧ t = s.endLaunch r .fault 0x15 ∧ t.mem = s.mem ∧
      ((t.rcd r).st = .ending ∨ (t.rcd r).st = .stamped) ∧ (t.rcd r).endSt = .fault ∧ (t.rcd r).detail = 0x15)) ∧
  -- a spawned candidate waits for a local frame that only suspended groups hold
  ∀ (s : State) (r : Nat), (s.rcd r).st = .running →
    let c := s.ctx (s.rcd r).ctx
    let stuck := (∃ kd ∈ s.kids, kd.launch = r ∧ kd.frame = true) ∧ c.locsz ≠ 0 ∧ c.locfr.toNat ≤ c.frames.length ∧
      ∀ gid g, (gid, some g) ∈ s.groups → (s.rcd g.launch).ctx = (s.rcd r).ctx → g.frame ≠ none → g.resident = false
    (¬ stuck → exec (.localFrame r) s = .next s) ∧
    (stuck → ∃ t, exec (.localFrame r) s = .next t ∧ t = s.endLaunch r .fault 0x17 ∧ t.mem = s.mem ∧
      ((t.rcd r).st = .ending ∨ (t.rcd r).st = .stamped) ∧ (t.rcd r).endSt = .fault ∧ (t.rcd r).detail = 0x17)

/-! ### The step, the words and the whole state -/

/-- R113, R116, R144 to R146, R298, R319, R320: a step runs exactly the word that stands at the group's issue address, in the lanes that
stand there, when it is the group's turn, and the clock moves; a word that is no instruction traps its lanes with its cause; a bucket
boundary that the clock has passed comes first; a port is held until the last beat of the word that took it; an event of the
agenda runs as itself. Every step of every state answers a next state. -/
def Obligations.StepRunsWord : Prop :=
  (∀ (s : State) (rest : List Sched) (gid : Nat) (g : Group) (pc : DWord) (b0 : List Byte) (s1 : State),
    s.agenda = .issue gid :: rest → s.bucketDue = false → State.turn { s with agenda := rest } exec gid = true →
    s.group gid = some g → s.mayIssue g = true → ((s.rcd g.launch).blk.prot = true → g.copiesEqual = true) → g.issueAddress = some pc →
    let lanes := maskOf (g.eligible.filter fun l => (g.lane l).pc == pc)
    State.readCode { s with agenda := rest, cur := { gid := gid, pc := pc, lanes := lanes, len := 8 } } gid pc.toNat 1 = (.bytes b0, s1) →
    let w := dwordLE b0
    let runs := fun (i : Instr) (at' : State) => ∀ t, exec i at' = .next t → step s = .next (t.usePort i).dropFetched.tick
    let traps := fun (e : Reject) (at' : State) => at'.group gid = some g → at'.cur.lanes = lanes → at'.cur.gid = gid →
      (∀ l, lanes.getLsbD l = true → (g.lane l).handler = false) →
      let code := match e with | .illegalOp => 0x20 | .illegalPair => 0x21 | .illegalOperand => 0x22
      ∃ g' : Group, step s = .next (State.tick (at'.setGroup gid g')) ∧
        ∀ l, l < 32 → g'.lane l = if lanes.getLsbD l then (g.lane l).trap code 0 0 else g.lane l
    (isLong w = false →
      (∀ i, decodeWords w 0 = .ok i → runs i s1) ∧ (∀ e, decodeWords w 0 = .error e → traps e s1)) ∧
    (isLong w = true → ∀ b1 s2, s1.readCode gid (pc.toNat + 8) 1 = (.bytes b1, s2) →
      let s3 := { s2 with cur := { s2.cur with len := 16 } }
      (∀ i, decodeWords w (dwordLE b1) = .ok i → runs i s3) ∧ (∀ e, decodeWords w (dwordLE b1) = .error e → traps e s3))) ∧
  -- the issue address: with no rotation floor, the lowest PC of an eligible lane
  (∀ (g : Group) (pc : DWord), g.floor = none → (g.issueAddress = some pc ↔
    (∃ l ∈ g.eligible, (g.lane l).pc = pc) ∧ ∀ l ∈ g.eligible, pc.toNat ≤ (g.lane l).pc.toNat)) ∧
  -- a group alone on its core has its turn; one that is passed over leaves its word for later
  (∀ (s : State) (gid : Nat) (g : Group), s.group gid = some g →
    (∀ i a, (i, some a) ∈ s.groups → i ≠ gid → a.core = g.core → a.resident = false) →
      (g.portTill ≤ s.clk → s.turn exec gid = true) ∧
      -- but its last word holds its port until its last beat there
      (s.clk < g.portTill → g.resident = true → g.lastPort ≠ 0 → s.tries exec gid = some g.lastPort → s.turn exec gid = false)) ∧
  (∀ (s : State) (rest : List Sched) (gid : Nat), s.agenda = .issue gid :: rest → s.bucketDue = false →
    State.turn { s with agenda := rest } exec gid = false → step s = .next (State.tick { s with agenda := rest })) ∧
  -- a bucket boundary that the clock has passed comes first
  (∀ s t : State, s.bucketDue = true → s.takes .bucketBoundary = true → exec .bucketBoundary { s with input := .none } = .next t →
    step s = .next t.tick) ∧
  (∀ (s : State) (rest : List Sched) (i : Instr) (x : Input), s.agenda = .event i x :: rest → isEvent i = true → s.bucketDue = false →
    (s.takes i = false → step s = .next (State.tick { s with agenda := rest })) ∧
    (s.takes i = true → ∀ t, exec i { s with agenda := rest, input := x } = .next t → step s = .next t.tick)) ∧
  -- what a step adds to the word or the event
  (∀ s : State, let e := min (Config.elapsed s.free) ((s.bucketNo + 1) * 125000 - s.clk)
    s.tick = { s with
      clk := s.clk + e, uptime := if s.mgmt.boot = .off then s.uptime else s.uptime + e
      free := s.free + 1, groups := s.tick.groups } ∧
    ∀ gid g, s.group gid = some g → ∃ b w, s.tick.group gid = some { g with buckets := b, waited := w } ∧
      (g.depthNp = 0 ∨ g.resident = false → b = g.buckets) ∧ (s.unheld g = false → w = g.waited) ∧ g.waited ≤ w) ∧
  (∀ (s : State) (i : Instr), s.usePort i = { s with groups := (s.usePort i).groups } ∧ ∀ gid g, s.group gid = some g →
    ∃ till, (s.usePort i).group gid = some (if gid = s.cur.gid ∧ g.issuedAt s.clk = true then
      { g with lastPort := portOf i, waited := 0, portTill := till } else g) ∧
      (portOf i = 0 → till = g.portTill) ∧ (portOf i ≠ 0 → s.clk < till ∧ till ≤ s.clk + 4)) ∧
  (∀ s : State, s.dropFetched = { s with groups := s.dropFetched.groups } ∧
    ∀ gid g, s.group gid = some g → ∃ f, s.dropFetched.group gid = some { g with fetched := f }) ∧
  (∀ (i : Instr) (s : State), ∃ t, exec i s = .next t) ∧ (∀ s : State, ∃ t, step s = .next t) ∧
  -- a word placed in memory is the first that runs
  ∀ (nbits w : Nat) (i : Instr), nbits ≤ 128 → decodeTableWord nbits w = some i → ∃ t u : State, exec i t = .next u ∧
    step (State.reset.withFetchWord nbits w) = .next (u.usePort i).dropFetched.tick ∧ t.cur.pc = 0x10000 ∧ t.cur.gid = 2 ∧ t.cur.lanes = BitVec.allOnes 32 ∧
    t.group 2 = (State.reset.withFetchWord nbits w).group 2 ∧ t.mem = (State.reset.withFetchWord nbits w).mem

/-- R301, R303 to R305, R309: words of each family, written out bit by bit, decode to the instruction they stand for. -/
def Obligations.DecodeSanity : Prop :=
  let h := fun (stall : BitVec 4) => ({ gp := 7, gn := false, stall := stall, ret := 0 } : Hdr)
  let rows : List (DWord × DWord × Instr) := [
    (0x0000C02803FA0720, 0, .add (h 0) .s32 false 12 5 (.imm 0x1FD)),
    (0x0000C0280000077F, 0x12345, .add (h 0) .s32 false 12 5 (.lit 0x12345)),
    (0x002040007C048701, 0, .addc (h 4) 4 1 0 (.v 2) 7 true),
    (0x1920000000000700, 0, .nop (h 0)),
    (0x20406010000E0710, 0, .fmul (h 0) .f32 .rm 6 2 (.v 7)),
    (0x4000802008200714, 0, .ld (h 0) .glb .b32 .plain .team .none false 8 4 16),
    (0x4800202018480747, 0, .atom (h 0) .cas .b32 .ar .dev false 2 4 6),
    (0x5820001040000700, 0, .mxmul (h 0) false 2 16),
    (0x60600020000A0710, 0, .sxrun (h 0) false 4 (some 5)),
    (0x6960002000000700, 0, .coll (h 0) false 4),
    (0x700030008C000700, 0, .csrr (h 0) false 3 0x023)]
  ∀ r ∈ rows, decodeWords r.1 r.2.1 = .ok r.2.2

/-- R301 to R309, R319: every legal instruction, with every operand at every value that its fields admit, is what its words
decode to; and words that decode are the words of the instruction they decode to. -/
def Obligations.DecodeEncode : Prop :=
  (∀ i : Instr, i.wf = true → (∀ s0 s1, i = .pairWord s0 s1 → pairBanksOk s0 s1 = true) →
    decodeWords (encode i).1 (encode i).2 = .ok i) ∧
  (∀ (w x : DWord) (i : Instr), decodeWords w x = .ok i → i.wf = true ∧ isEvent i = false ∧ (isLong w = false → x = 0 → encode i = (w, x)) ∧
    (isLong w = true → encode i = (w, x)))

/-- R17, R27, R29, R31, R87: the machine after device reset and start-up: memory reads 0 everywhere and holds no poison, every die is ONLINE
at duty 16/16, the budgets stand at their defaults, every register of a context reads 0, and nothing runs. -/
def Obligations.ResetState : Prop :=
  let s := State.reset
  Memory.wf s.mem ∧ (∀ a, s.cell a = 0) ∧ (∀ sec, Sparse.get false s.poison sec = false) ∧ s.mgmt.boot = .ready ∧
  (∀ d, (s.die d).st = .online ∧ (s.die d).duty = 16 ∧ (s.die d).offl = 0 ∧ (s.die d).cause = 0) ∧ s.clk = 0 ∧
  (∀ k o, k < 64 → o < 0x100 → o % 8 = 0 → s.readReg (.ctx k o) = 0) ∧ (∀ k j, k < 64 → j < 8 → s.readReg (.bell k j) = 0) ∧
  (∀ q o, q < 4 → s.readReg (.quad q o) = 0) ∧ (∀ o, s.readReg (.clovar o) = 0) ∧ (∀ p f, s.readReg (.winbase p f) = 0) ∧
  (∀ i v, [(0, 0x01010), (1, 0x02020), (2, 0x03030), (3, 0x04040), (4, 0x02020), (5, 0x01818), (6, 0x10808), (7, 0x01818), (8, 0x10808)].contains ((i, v) : Nat × Nat) = true →
    s.readReg (.mgmt (0x100 + 8 * i)) = v) ∧ s.readReg (.mgmt 0x150) = 1 ∧
  (∀ r, s.rcd r = {}) ∧ (∀ u, s.team u = none) ∧ (∀ gid, s.group gid = none) ∧ (∀ id, s.txn id = none) ∧ (∀ id, s.copy id = none) ∧ s.out = [] ∧
  step s = .next (s.tick)

/-- R16, R187, R189: the writes of memory: each keeps the canonical form, puts its bytes where it says, leaves every other byte, and
clears the poison of a sector that it writes whole; and two memories in canonical form that read alike are equal. -/
def Obligations.MemoryWrites : Prop :=
  (∀ (m n : List Host.Cell), Memory.wf m → Memory.wf n → (∀ a, Sparse.get unwritten m a = Sparse.get unwritten n a) → m = n) ∧
  (∀ (s : State) (a : Nat) (bs : List Byte), Memory.wf s.mem → Memory.wf (s.setCells a bs).mem) ∧
  (∀ (s : State) (a : Nat) (bs : List Byte) (c : Nat),
    (s.setCells a bs).cell c = if a ≤ c ∧ c < a + bs.length then bs.getD (c - a) 0 else s.cell c) ∧
  ∀ (s : State) (src : Src') (id : Nat) (ws : List (Nat × Byte)), (ws.map (·.1)).Nodup →
    let t := s.agentWrite src id ws
    (Memory.wf s.mem → Memory.wf t.mem) ∧ (∀ w ∈ ws, t.cell w.1 = w.2) ∧ (∀ c, (∀ w ∈ ws, w.1 ≠ c) → t.cell c = s.cell c) ∧
    (∀ sec, (∀ i, i < 32 → ∃ w ∈ ws, w.1 = 32 * sec + i) → Sparse.get false t.poison sec = false) ∧
    (∀ sec, (∃ i, i < 32 ∧ ∀ w ∈ ws, w.1 ≠ 32 * sec + i) → Sparse.get false t.poison sec = Sparse.get false s.poison sec) ∧
    t.ctxs = s.ctxs ∧ t.recs = s.recs ∧ t.teams = s.teams ∧ t.dirty = s.dirty ∧ t.out = s.out

/-- The model's own invariant (no rule of the manual, log entry 11): every step of every state keeps committed memory in its canonical form, so
that equal memories are equal data. -/
def Obligations.StepKeepsMemoryForm : Prop :=
  ∀ s t : State, Memory.wf s.mem → step s = .next t → Memory.wf t.mem
end

