-- ==== Sys2Proof/Laws/PerInstr.lean ====
section
/-! SUPPORT. PerInstr.lean: what is said of every instruction as syntax, one lemma per constructor. -/

namespace Sys2Proof.Laws.EventNotWord
open Sys2Proof Sys2Proof.Machine

/-- An instruction is either a word of a program or an event of the agenda: an event is no legal word, and its encoding is
the pair of zero words that stands for "no word". -/
def Statement (i : Instr) : Prop := isEvent i = true → i.wf = false ∧ encode i = (0, 0)

theorem homeRequest (id : Nat) : Statement (.homeRequest id) := fun _ => ⟨rfl, rfl⟩
theorem invalidationAcknowledgement (line die : Nat) : Statement (.invalidationAcknowledgement line die) := fun _ => ⟨rfl, rfl⟩
theorem acknowledgement (id : Nat) : Statement (.acknowledgement id) := fun _ => ⟨rfl, rfl⟩
theorem fenceInstant (die : Nat) : Statement (.fenceInstant die) := fun _ => ⟨rfl, rfl⟩
theorem dieSelfTestEnd (die : Nat) (pass : Bool) : Statement (.dieSelfTestEnd die pass) := fun _ => ⟨rfl, rfl⟩
theorem inFieldTest (core : Nat) : Statement (.inFieldTest core) := fun _ => ⟨rfl, rfl⟩
theorem inFieldTestRetry (core : Nat) (late : Bool) : Statement (.inFieldTestRetry core late) := fun _ => ⟨rfl, rfl⟩
theorem inFieldTestEnd (core : Nat) (pass : Bool) : Statement (.inFieldTestEnd core pass) := fun _ => ⟨rfl, rfl⟩
theorem orderingPointSend (id : Nat) : Statement (.orderingPointSend id) := fun _ => ⟨rfl, rfl⟩
theorem inboundReadCompletion (tag : Nat) : Statement (.inboundReadCompletion tag) := fun _ => ⟨rfl, rfl⟩
theorem collectiveCompletion (eng comm num : Nat) : Statement (.collectiveCompletion eng comm num) := fun _ => ⟨rfl, rfl⟩
theorem collectiveTimeout (eng comm num : Nat) : Statement (.collectiveTimeout eng comm num) := fun _ => ⟨rfl, rfl⟩
theorem invalidationDone (k : Nat) : Statement (.invalidationDone k) := fun _ => ⟨rfl, rfl⟩
theorem blockConsume (k j : Nat) : Statement (.blockConsume k j) := fun _ => ⟨rfl, rfl⟩
theorem headReservation (rec : Nat) : Statement (.headReservation rec) := fun _ => ⟨rfl, rfl⟩
theorem groupRetire (gid : Nat) : Statement (.groupRetire gid) := fun _ => ⟨rfl, rfl⟩
theorem ticketSkip (rec stage sect : Nat) : Statement (.ticketSkip rec stage sect) := fun _ => ⟨rfl, rfl⟩
theorem quiescent (rec : Nat) : Statement (.quiescent rec) := fun _ => ⟨rfl, rfl⟩
theorem stampAccept (rec : Nat) : Statement (.stampAccept rec) := fun _ => ⟨rfl, rfl⟩
theorem backoffExpiry (gid : Nat) : Statement (.backoffExpiry gid) := fun _ => ⟨rfl, rfl⟩
theorem sleepExpiry (gid : Nat) : Statement (.sleepExpiry gid) := fun _ => ⟨rfl, rfl⟩
theorem engineRoomFree (e : Engine) : Statement (.engineRoomFree e) := fun _ => ⟨rfl, rfl⟩
theorem laneRelease (gid lane : Nat) : Statement (.laneRelease gid lane) := fun _ => ⟨rfl, rfl⟩
theorem spawnAccept (id : Nat) : Statement (.spawnAccept id) := fun _ => ⟨rfl, rfl⟩
theorem binTimer (q bin : Nat) : Statement (.binTimer q bin) := fun _ => ⟨rfl, rfl⟩
theorem joinDecrement (id : Nat) : Statement (.joinDecrement id) := fun _ => ⟨rfl, rfl⟩
theorem groupSuspend (gid : Nat) : Statement (.groupSuspend gid) := fun _ => ⟨rfl, rfl⟩
theorem spawnSave (rec : Nat) : Statement (.spawnSave rec) := fun _ => ⟨rfl, rfl⟩
theorem localFrame (rec : Nat) : Statement (.localFrame rec) := fun _ => ⟨rfl, rfl⟩
theorem rjoinComplete (gid : Nat) : Statement (.rjoinComplete gid) := fun _ => ⟨rfl, rfl⟩
theorem pageWalk (agent k : Nat) (va : DWord) : Statement (.pageWalk agent k va) := fun _ => ⟨rfl, rfl⟩
theorem copyLanding (id : Nat) : Statement (.copyLanding id) := fun _ => ⟨rfl, rfl⟩
theorem copyCompletion (id : Nat) : Statement (.copyCompletion id) := fun _ => ⟨rfl, rfl⟩
theorem matrixCompletion (team : Nat) : Statement (.matrixCompletion team) := fun _ => ⟨rfl, rfl⟩
theorem nbgemvCompletion (id : Nat) : Statement (.nbgemvCompletion id) := fun _ => ⟨rfl, rfl⟩
theorem sweepStart (team : Nat) : Statement (.sweepStart team) := fun _ => ⟨rfl, rfl⟩
theorem sweepEnd (team : Nat) : Statement (.sweepEnd team) := fun _ => ⟨rfl, rfl⟩
theorem sphinxCompletion (team : Nat) : Statement (.sphinxCompletion team) := fun _ => ⟨rfl, rfl⟩
theorem domainJoinTimeout (rec dom : Nat) : Statement (.domainJoinTimeout rec dom) := fun _ => ⟨rfl, rfl⟩
theorem preemptionComplete (k : Nat) : Statement (.preemptionComplete k) := fun _ => ⟨rfl, rfl⟩
theorem cutTimeout (k : Nat) : Statement (.cutTimeout k) := fun _ => ⟨rfl, rfl⟩
theorem npOverrun (gid : Nat) : Statement (.npOverrun gid) := fun _ => ⟨rfl, rfl⟩
theorem monwaitTimeout (gid lane : Nat) : Statement (.monwaitTimeout gid lane) := fun _ => ⟨rfl, rfl⟩
theorem resultLands (gid lane : Nat) : Statement (.resultLands gid lane) := fun _ => ⟨rfl, rfl⟩
theorem pairWord (s0 s1 : Slot) : Statement (.pairWord s0 s1) := fun h => absurd h Bool.false_ne_true
theorem add (h : Hdr) (t : IntTy) (sat : Bool) (d a : RegIx) (c : Src) : Statement (.add h t sat d a c) := fun h => absurd h Bool.false_ne_true
theorem addc (h : Hdr) (d po a : RegIx) (c : Src) (pi : BitVec 3) (pn : Bool) : Statement (.addc h d po a c pi pn) := fun h => absurd h Bool.false_ne_true
theorem sub (h : Hdr) (t : IntTy) (sat : Bool) (d a : RegIx) (c : Src) : Statement (.sub h t sat d a c) := fun h => absurd h Bool.false_ne_true
theorem subb (h : Hdr) (d po a : RegIx) (c : Src) (pi : BitVec 3) (pn : Bool) : Statement (.subb h d po a c pi pn) := fun h => absurd h Bool.false_ne_true
theorem mul (h : Hdr) (t : IntTy) (d a : RegIx) (c : Src) : Statement (.mul h t d a c) := fun h => absurd h Bool.false_ne_true
theorem mulh (h : Hdr) (t : IntTy) (d a : RegIx) (c : Src) : Statement (.mulh h t d a c) := fun h => absurd h Bool.false_ne_true
theorem mulw (h : Hdr) (t : IntTy) (d a : RegIx) (c : Src) : Statement (.mulw h t d a c) := fun h => absurd h Bool.false_ne_true
theorem mad (h : Hdr) (t : IntTy) (d a b : RegIx) (c : Src) : Statement (.mad h t d a b c) := fun h => absurd h Bool.false_ne_true
theorem madw (h : Hdr) (t : IntTy) (d a b : RegIx) (c : Src) : Statement (.madw h t d a b c) := fun h => absurd h Bool.false_ne_true
theorem idiv (h : Hdr) (t : IntTy) (d a : RegIx) (c : Src) : Statement (.idiv h t d a c) := fun h => absurd h Bool.false_ne_true
theorem irem (h : Hdr) (t : IntTy) (d a : RegIx) (c : Src) : Statement (.irem h t d a c) := fun h => absurd h Bool.false_ne_true
theorem min (h : Hdr) (t : IntTy) (d a : RegIx) (c : Src) : Statement (.min h t d a c) := fun h => absurd h Bool.false_ne_true
theorem max (h : Hdr) (t : IntTy) (d a : RegIx) (c : Src) : Statement (.max h t d a c) := fun h => absurd h Bool.false_ne_true
theorem abs (h : Hdr) (t : IntTy) (sat : Bool) (d : RegIx) (c : Src) : Statement (.abs h t sat d c) := fun h => absurd h Bool.false_ne_true
theorem neg (h : Hdr) (t : IntTy) (sat : Bool) (d : RegIx) (c : Src) : Statement (.neg h t sat d c) := fun h => absurd h Bool.false_ne_true
theorem isetp (h : Hdr) (t : IntTy) (cmp : Cmp) (bop : BoolOp) (pd a : RegIx) (c : Src) (pq : BitVec 3) (pn : Bool) : Statement (.isetp h t cmp bop pd a c pq pn) := fun h => absurd h Bool.false_ne_true
theorem sel (h : Hdr) (t : IntTy) (d a : RegIx) (c : Src) (p : BitVec 3) (pn : Bool) : Statement (.sel h t d a c p pn) := fun h => absurd h Bool.false_ne_true
theorem lea (h : Hdr) (t : IntTy) (d a : RegIx) (c : Src) (k : BitVec 5) : Statement (.lea h t d a c k) := fun h => absurd h Bool.false_ne_true
theorem mov (h : Hdr) (t : IntTy) (d : RegIx) (c : Src) : Statement (.mov h t d c) := fun h => absurd h Bool.false_ne_true
theorem movi (h : Hdr) (t : IntTy) (toG : Bool) (d : RegIx) (i : BitVec 18) : Statement (.movi h t toG d i) := fun h => absurd h Bool.false_ne_true
theorem limm (h : Hdr) (t : IntTy) (pcRel : Bool) (toG : Bool) (d : RegIx) (x : DWord) : Statement (.limm h t pcRel toG d x) := fun h => absurd h Bool.false_ne_true
theorem and (h : Hdr) (t : IntTy) (d a : RegIx) (c : Src) : Statement (.and h t d a c) := fun h => absurd h Bool.false_ne_true
theorem or (h : Hdr) (t : IntTy) (d a : RegIx) (c : Src) : Statement (.or h t d a c) := fun h => absurd h Bool.false_ne_true
theorem xor (h : Hdr) (t : IntTy) (d a : RegIx) (c : Src) : Statement (.xor h t d a c) := fun h => absurd h Bool.false_ne_true
theorem andn (h : Hdr) (t : IntTy) (d a : RegIx) (c : Src) : Statement (.andn h t d a c) := fun h => absurd h Bool.false_ne_true
theorem lop3 (h : Hdr) (t : IntTy) (d a : RegIx) (c : Src) (lut : Byte) (nd : Bool) : Statement (.lop3 h t d a c lut nd) := fun h => absurd h Bool.false_ne_true
theorem shl (h : Hdr) (t : IntTy) (d a : RegIx) (c : Src) : Statement (.shl h t d a c) := fun h => absurd h Bool.false_ne_true
theorem shr (h : Hdr) (t : IntTy) (d a : RegIx) (c : Src) : Statement (.shr h t d a c) := fun h => absurd h Bool.false_ne_true
theorem sar (h : Hdr) (t : IntTy) (d a : RegIx) (c : Src) : Statement (.sar h t d a c) := fun h => absurd h Bool.false_ne_true
theorem fshf (h : Hdr) (t : IntTy) (right : Bool) (d a b : RegIx) (c : Src) : Statement (.fshf h t right d a b c) := fun h => absurd h Bool.false_ne_true
theorem bfx (h : Hdr) (t : IntTy) (d a : RegIx) (c : Src) : Statement (.bfx h t d a c) := fun h => absurd h Bool.false_ne_true
theorem bfi (h : Hdr) (t : IntTy) (d a b : RegIx) (c : Src) : Statement (.bfi h t d a b c) := fun h => absurd h Bool.false_ne_true
theorem popc (h : Hdr) (t : IntTy) (d : RegIx) (c : Src) : Statement (.popc h t d c) := fun h => absurd h Bool.false_ne_true
theorem clz (h : Hdr) (t : IntTy) (d : RegIx) (c : Src) : Statement (.clz h t d c) := fun h => absurd h Bool.false_ne_true
theorem ctz (h : Hdr) (t : IntTy) (d : RegIx) (c : Src) : Statement (.ctz h t d c) := fun h => absurd h Bool.false_ne_true
theorem brev (h : Hdr) (t : IntTy) (d : RegIx) (c : Src) : Statement (.brev h t d c) := fun h => absurd h Bool.false_ne_true
theorem prmt (h : Hdr) (t : IntTy) (d a b : RegIx) (c : Src) : Statement (.prmt h t d a b c) := fun h => absurd h Bool.false_ne_true
theorem pand (h : Hdr) (pd pa : RegIx) (na : Bool) (pc : RegIx) (nc : Bool) : Statement (.pand h pd pa na pc nc) := fun h => absurd h Bool.false_ne_true
theorem por (h : Hdr) (pd pa : RegIx) (na : Bool) (pc : RegIx) (nc : Bool) : Statement (.por h pd pa na pc nc) := fun h => absurd h Bool.false_ne_true
theorem pxor (h : Hdr) (pd pa : RegIx) (na : Bool) (pc : RegIx) (nc : Bool) : Statement (.pxor h pd pa na pc nc) := fun h => absurd h Bool.false_ne_true
theorem pnot (h : Hdr) (pd pc : RegIx) : Statement (.pnot h pd pc) := fun h => absurd h Bool.false_ne_true
theorem pmov (h : Hdr) (pd pc : RegIx) : Statement (.pmov h pd pc) := fun h => absurd h Bool.false_ne_true
theorem psetPack (h : Hdr) (d : RegIx) : Statement (.psetPack h d) := fun h => absurd h Bool.false_ne_true
theorem psetUnpack (h : Hdr) (mask : BitVec 7) (c : RegIx) : Statement (.psetUnpack h mask c) := fun h => absurd h Bool.false_ne_true
theorem shfl (h : Hdr) (mode : ShflMode) (logW : BitVec 3) (d a : RegIx) (c : Kind) : Statement (.shfl h mode logW d a c) := fun h => absurd h Bool.false_ne_true
theorem lswap (h : Hdr) (t : SwapTy) (nege nego : Bool) (d c : RegIx) : Statement (.lswap h t nege nego d c) := fun h => absurd h Bool.false_ne_true
theorem vote (h : Hdr) (mode : VoteMode) (neg toG : Bool) (d ps : RegIx) : Statement (.vote h mode neg toG d ps) := fun h => absurd h Bool.false_ne_true
theorem matchLanes (h : Hdr) (wide : Bool) (d c : RegIx) : Statement (.matchLanes h wide d c) := fun h => absurd h Bool.false_ne_true
theorem redux (h : Hdr) (op : ReduxOp) (signed toG : Bool) (d c : RegIx) : Statement (.redux h op signed toG d c) := fun h => absurd h Bool.false_ne_true
theorem elect (h : Hdr) (hi : Bool) (pd : RegIx) : Statement (.elect h hi pd) := fun h => absurd h Bool.false_ne_true
theorem bcast (h : Hdr) (d c : RegIx) (k : BitVec 5) : Statement (.bcast h d c k) := fun h => absurd h Bool.false_ne_true
theorem umov (h : Hdr) (d c : RegIx) (k : Option (BitVec 5)) : Statement (.umov h d c k) := fun h => absurd h Bool.false_ne_true
theorem bra (h : Hdr) (t : Target) : Statement (.bra h t) := fun h => absurd h Bool.false_ne_true
theorem brx (h : Hdr) (g : Bool) (lst : BitVec 18) (c : RegIx) : Statement (.brx h g lst c) := fun h => absurd h Bool.false_ne_true
theorem call (h : Hdr) (d : RegIx) (t : Target) : Statement (.call h d t) := fun h => absurd h Bool.false_ne_true
theorem callx (h : Hdr) (g : Bool) (d : RegIx) (lst : BitVec 18) (c : RegIx) : Statement (.callx h g d lst c) := fun h => absurd h Bool.false_ne_true
theorem ret (h : Hdr) (g : Bool) (c : RegIx) : Statement (.ret h g c) := fun h => absurd h Bool.false_ne_true
theorem rjoin (h : Hdr) : Statement (.rjoin h) := fun h => absurd h Bool.false_ne_true
theorem exit (h : Hdr) : Statement (.exit h) := fun h => absurd h Bool.false_ne_true
theorem trap (h : Hdr) (code : BitVec 9) : Statement (.trap h code) := fun h => absurd h Bool.false_ne_true
theorem bkpt (h : Hdr) (code : BitVec 9) : Statement (.bkpt h code) := fun h => absurd h Bool.false_ne_true
theorem nop (h : Hdr) : Statement (.nop h) := fun h => absurd h Bool.false_ne_true
theorem yield (h : Hdr) : Statement (.yield h) := fun h => absurd h Bool.false_ne_true
theorem sleep (h : Hdr) (n : Amount) : Statement (.sleep h n) := fun h => absurd h Bool.false_ne_true
theorem step (h : Hdr) (n : Amount) : Statement (.step h n) := fun h => absurd h Bool.false_ne_true
theorem fadd (h : Hdr) (f : Fmt) (r : Dir) (d a : RegIx) (c : Src) : Statement (.fadd h f r d a c) := fun h => absurd h Bool.false_ne_true
theorem fsub (h : Hdr) (f : Fmt) (r : Dir) (d a : RegIx) (c : Src) : Statement (.fsub h f r d a c) := fun h => absurd h Bool.false_ne_true
theorem fmul (h : Hdr) (f : Fmt) (r : Dir) (d a : RegIx) (c : Src) : Statement (.fmul h f r d a c) := fun h => absurd h Bool.false_ne_true
theorem ffma (h : Hdr) (f : Fmt) (r : Dir) (d a b : RegIx) (c : Src) : Statement (.ffma h f r d a b c) := fun h => absurd h Bool.false_ne_true
theorem fmin (h : Hdr) (f : Fmt) (d a : RegIx) (c : Src) : Statement (.fmin h f d a c) := fun h => absurd h Bool.false_ne_true
theorem fmax (h : Hdr) (f : Fmt) (d a : RegIx) (c : Src) : Statement (.fmax h f d a c) := fun h => absurd h Bool.false_ne_true
theorem fminn (h : Hdr) (f : Fmt) (d a : RegIx) (c : Src) : Statement (.fminn h f d a c) := fun h => absurd h Bool.false_ne_true
theorem fmaxn (h : Hdr) (f : Fmt) (d a : RegIx) (c : Src) : Statement (.fmaxn h f d a c) := fun h => absurd h Bool.false_ne_true
theorem fsetp (h : Hdr) (f : Fmt) (cmp : FCmp) (bop : BoolOp) (pd a : RegIx) (c : Src) (pq : BitVec 3) (pn : Bool) : Statement (.fsetp h f cmp bop pd a c pq pn) := fun h => absurd h Bool.false_ne_true
theorem fclass (h : Hdr) (f : Fmt) (d : RegIx) (c : Src) : Statement (.fclass h f d c) := fun h => absurd h Bool.false_ne_true
theorem fdiv (h : Hdr) (f : Fmt) (r : Dir) (d a : RegIx) (c : Src) : Statement (.fdiv h f r d a c) := fun h => absurd h Bool.false_ne_true
theorem fsqrt (h : Hdr) (f : Fmt) (r : Dir) (d : RegIx) (c : Src) : Statement (.fsqrt h f r d c) := fun h => absurd h Bool.false_ne_true
theorem frcp (h : Hdr) (f : Fmt) (r : Dir) (d : RegIx) (c : Src) : Statement (.frcp h f r d c) := fun h => absurd h Bool.false_ne_true
theorem frsq (h : Hdr) (f : Fmt) (r : Dir) (d : RegIx) (c : Src) : Statement (.frsq h f r d c) := fun h => absurd h Bool.false_ne_true
theorem frnd (h : Hdr) (f : Fmt) (r : Dir) (exact : Bool) (d : RegIx) (c : Src) : Statement (.frnd h f r exact d c) := fun h => absurd h Bool.false_ne_true
theorem fldx (h : Hdr) (f : Fmt) (r : Dir) (d a : RegIx) (c : Src) : Statement (.fldx h f r d a c) := fun h => absurd h Bool.false_ne_true
theorem fxtxExp (h : Hdr) (f : Fmt) (d : RegIx) (c : Src) : Statement (.fxtxExp h f d c) := fun h => absurd h Bool.false_ne_true
theorem fxtxMant (h : Hdr) (f : Fmt) (d : RegIx) (c : Src) : Statement (.fxtxMant h f d c) := fun h => absurd h Bool.false_ne_true
theorem fexp (h : Hdr) (f : Fmt) (r : Dir) (d : RegIx) (c : Src) : Statement (.fexp h f r d c) := fun h => absurd h Bool.false_ne_true
theorem fexp2 (h : Hdr) (f : Fmt) (r : Dir) (d : RegIx) (c : Src) : Statement (.fexp2 h f r d c) := fun h => absurd h Bool.false_ne_true
theorem flog (h : Hdr) (f : Fmt) (r : Dir) (d : RegIx) (c : Src) : Statement (.flog h f r d c) := fun h => absurd h Bool.false_ne_true
theorem flog2 (h : Hdr) (f : Fmt) (r : Dir) (d : RegIx) (c : Src) : Statement (.flog2 h f r d c) := fun h => absurd h Bool.false_ne_true
theorem fsin (h : Hdr) (f : Fmt) (r : Dir) (d : RegIx) (c : Src) : Statement (.fsin h f r d c) := fun h => absurd h Bool.false_ne_true
theorem fcos (h : Hdr) (f : Fmt) (r : Dir) (d : RegIx) (c : Src) : Statement (.fcos h f r d c) := fun h => absurd h Bool.false_ne_true
theorem fsinpi (h : Hdr) (f : Fmt) (r : Dir) (d : RegIx) (c : Src) : Statement (.fsinpi h f r d c) := fun h => absurd h Bool.false_ne_true
theorem fcospi (h : Hdr) (f : Fmt) (r : Dir) (d : RegIx) (c : Src) : Statement (.fcospi h f r d c) := fun h => absurd h Bool.false_ne_true
theorem ftanh (h : Hdr) (f : Fmt) (r : Dir) (d : RegIx) (c : Src) : Statement (.ftanh h f r d c) := fun h => absurd h Bool.false_ne_true
theorem fsigm (h : Hdr) (f : Fmt) (r : Dir) (d : RegIx) (c : Src) : Statement (.fsigm h f r d c) := fun h => absurd h Bool.false_ne_true
theorem fadd2 (h : Hdr) (f : Fmt) (r : Dir) (d a : RegIx) (c : Src) : Statement (.fadd2 h f r d a c) := fun h => absurd h Bool.false_ne_true
theorem fmul2 (h : Hdr) (f : Fmt) (r : Dir) (d a : RegIx) (c : Src) : Statement (.fmul2 h f r d a c) := fun h => absurd h Bool.false_ne_true
theorem ffma2 (h : Hdr) (f : Fmt) (r : Dir) (d a b : RegIx) (c : Src) : Statement (.ffma2 h f r d a b c) := fun h => absurd h Bool.false_ne_true
theorem dadd (h : Hdr) (f : Fmt) (r : Dir) (sub : Bool) (d a : RegIx) (c : Src) : Statement (.dadd h f r sub d a c) := fun h => absurd h Bool.false_ne_true
theorem dmul (h : Hdr) (f : Fmt) (r : Dir) (d a : RegIx) (c : Src) : Statement (.dmul h f r d a c) := fun h => absurd h Bool.false_ne_true
theorem dfma (h : Hdr) (f : Fmt) (r : Dir) (d a b : RegIx) (c : Src) : Statement (.dfma h f r d a b c) := fun h => absurd h Bool.false_ne_true
theorem ddiv (h : Hdr) (f : Fmt) (r : Dir) (d a : RegIx) (c : Src) : Statement (.ddiv h f r d a c) := fun h => absurd h Bool.false_ne_true
theorem dsqrt (h : Hdr) (f : Fmt) (r : Dir) (d : RegIx) (c : Src) : Statement (.dsqrt h f r d c) := fun h => absurd h Bool.false_ne_true
theorem cvt (h : Hdr) (dt st : CvtTy) (sat : Bool) (r : Dir) (d a : RegIx) (c : Src) : Statement (.cvt h dt st sat r d a c) := fun h => absurd h Bool.false_ne_true
theorem dsliceExp (h : Hdr) (logN : BitVec 3) (d : RegIx) (c : Src) : Statement (.dsliceExp h logN d c) := fun h => absurd h Bool.false_ne_true
theorem dsliceSlice (h : Hdr) (t : BitVec 3) (d a : RegIx) (c : Src) : Statement (.dsliceSlice h t d a c) := fun h => absurd h Bool.false_ne_true
theorem drecon (h : Hdr) (first : Bool) (m : BitVec 4) (d a b : RegIx) (c : Src) : Statement (.drecon h first m d a b c) := fun h => absurd h Bool.false_ne_true
theorem ld (h : Hdr) (sp : Space) (w : Width) (o : Ord) (sc : Scope) (hint : Hint) (g : Bool) (d a : RegIx) (off : BitVec 9) : Statement (.ld h sp w o sc hint g d a off) := fun h => absurd h Bool.false_ne_true
theorem ldTyp (h : Hdr) (f32 : Bool) (hint : Hint) (g : Bool) (k : BitVec 3) (d a : RegIx) (off : BitVec 9) : Statement (.ldTyp h f32 hint g k d a off) := fun h => absurd h Bool.false_ne_true
theorem ldQue (h : Hdr) (d n : RegIx) : Statement (.ldQue h d n) := fun h => absurd h Bool.false_ne_true
theorem st (h : Hdr) (sp : Space) (w : Width) (o : Ord) (sc : Scope) (hint : Hint) (g : Bool) (d a : RegIx) (off : BitVec 9) : Statement (.st h sp w o sc hint g d a off) := fun h => absurd h Bool.false_ne_true
theorem stQue (h : Hdr) (d n : RegIx) : Statement (.stQue h d n) := fun h => absurd h Bool.false_ne_true
theorem ldf (h : Hdr) (clu : Bool) (w : Width) (keep : Bool) (d a : RegIx) (off : BitVec 9) : Statement (.ldf h clu w keep d a off) := fun h => absurd h Bool.false_ne_true
theorem stf (h : Hdr) (clu : Bool) (w : Width) (d a : RegIx) (off : BitVec 9) : Statement (.stf h clu w d a off) := fun h => absurd h Bool.false_ne_true
theorem feinit (h : Hdr) (clu full : Bool) (a : RegIx) (n : Kind) : Statement (.feinit h clu full a n) := fun h => absurd h Bool.false_ne_true
theorem pref (h : Hdr) (sp : Space) (lvl : PrefLvl) (g : Bool) (a : RegIx) (off : BitVec 9) : Statement (.pref h sp lvl g a off) := fun h => absurd h Bool.false_ne_true
theorem cctlWb (h : Hdr) : Statement (.cctlWb h) := fun h => absurd h Bool.false_ne_true
theorem cctlIfetch (h : Hdr) : Statement (.cctlIfetch h) := fun h => absurd h Bool.false_ne_true
theorem cctlCst (h : Hdr) : Statement (.cctlCst h) := fun h => absurd h Bool.false_ne_true
theorem enq (h : Hdr) (w : QWidth) (sc : Scope) (d a : RegIx) : Statement (.enq h w sc d a) := fun h => absurd h Bool.false_ne_true
theorem enqStage (h : Hdr) (sc : Scope) (a : RegIx) : Statement (.enqStage h sc a) := fun h => absurd h Bool.false_ne_true
theorem deq (h : Hdr) (w : QWidth) (wait : Bool) (sc : Scope) (pd : BitVec 3) (d a : RegIx) : Statement (.deq h w wait sc pd d a) := fun h => absurd h Bool.false_ne_true
theorem atom (h : Hdr) (op : AtomOp) (ty : AtomTy) (o : Ord) (sc : Scope) (g : Bool) (d a b : RegIx) : Statement (.atom h op ty o sc g d a b) := fun h => absurd h Bool.false_ne_true
theorem red (h : Hdr) (op : AtomOp) (ty : AtomTy) (o : Ord) (sc : Scope) (g : Bool) (a b : RegIx) : Statement (.red h op ty o sc g a b) := fun h => absurd h Bool.false_ne_true
theorem fence (h : Hdr) (o : Ord) (sc : Scope) : Statement (.fence h o sc) := fun h => absurd h Bool.false_ne_true
theorem monwait (h : Hdr) (cmp : MonCmp) (o : Ord) (sc : Scope) (wide : Bool) (d a c : RegIx) : Statement (.monwait h cmp o sc wide d a c) := fun h => absurd h Bool.false_ne_true
theorem poll (h : Hdr) (cmp : MonCmp) (o : Ord) (sc : Scope) (wide : Bool) (pd : BitVec 3) (d a c : RegIx) : Statement (.poll h cmp o sc wide pd d a c) := fun h => absurd h Bool.false_ne_true
theorem tbinit (h : Hdr) (clu g : Bool) (a : RegIx) (n : Kind) : Statement (.tbinit h clu g a n) := fun h => absurd h Bool.false_ne_true
theorem tbarr (h : Hdr) (clu g : Bool) (a : RegIx) : Statement (.tbarr h clu g a) := fun h => absurd h Bool.false_ne_true
theorem tbexp (h : Hdr) (clu g : Bool) (a : RegIx) (n : Kind) : Statement (.tbexp h clu g a n) := fun h => absurd h Bool.false_ne_true
theorem tbwait (h : Hdr) (clu g : Bool) (a : RegIx) (p : Kind) : Statement (.tbwait h clu g a p) := fun h => absurd h Bool.false_ne_true
theorem tbstat (h : Hdr) (clu g : Bool) (d a : RegIx) : Statement (.tbstat h clu g d a) := fun h => absurd h Bool.false_ne_true
theorem bartm (h : Hdr) (x : RegIx) (n : Kind) : Statement (.bartm h x n) := fun h => absurd h Bool.false_ne_true
theorem barcl (h : Hdr) (b : RegIx) (n : Kind) : Statement (.barcl h b n) := fun h => absurd h Bool.false_ne_true
theorem xsign (h : Hdr) (d x : RegIx) (n : Kind) : Statement (.xsign h d x n) := fun h => absurd h Bool.false_ne_true
theorem xwait (h : Hdr) (x : RegIx) (p : Kind) : Statement (.xwait h x p) := fun h => absurd h Bool.false_ne_true
theorem cptLd (h : Hdr) (g clu : Bool) (m blk o4 : RegIx) : Statement (.cptLd h g clu m blk o4) := fun h => absurd h Bool.false_ne_true
theorem cptSt (h : Hdr) (g clu : Bool) (s m blk o4 : RegIx) : Statement (.cptSt h g clu s m blk o4) := fun h => absurd h Bool.false_ne_true
theorem cpg (h : Hdr) (g : Bool) (s a b c : RegIx) : Statement (.cpg h g s a b c) := fun h => absurd h Bool.false_ne_true
theorem cps (h : Hdr) (g clu : Bool) (s a b c : RegIx) : Statement (.cps h g clu s a b c) := fun h => absurd h Bool.false_ne_true
theorem cpr (h : Hdr) (g clu : Bool) (bar a b c : RegIx) : Statement (.cpr h g clu bar a b c) := fun h => absurd h Bool.false_ne_true
theorem cpfill (h : Hdr) (g clu : Bool) (bar a pat c : RegIx) : Statement (.cpfill h g clu bar a pat c) := fun h => absurd h Bool.false_ne_true
theorem cpfillMem (h : Hdr) (g : Bool) (s a pat c : RegIx) : Statement (.cpfillMem h g s a pat c) := fun h => absurd h Bool.false_ne_true
theorem cpcommit (h : Hdr) (d : RegIx) : Statement (.cpcommit h d) := fun h => absurd h Bool.false_ne_true
theorem cpwait (h : Hdr) (n : Kind) : Statement (.cpwait h n) := fun h => absurd h Bool.false_ne_true
theorem cpwaitUpto (h : Hdr) (b : Kind) : Statement (.cpwaitUpto h b) := fun h => absurd h Bool.false_ne_true
theorem mxcfg (h : Hdr) (mode : MxMode) (x : RegIx) (n : Kind) : Statement (.mxcfg h mode x n) := fun h => absurd h Bool.false_ne_true
theorem mxmul (h : Hdr) (g : Bool) (x b : RegIx) : Statement (.mxmul h g x b) := fun h => absurd h Bool.false_ne_true
theorem mxzero (h : Hdr) (g : Bool) (t bar : RegIx) : Statement (.mxzero h g t bar) := fun h => absurd h Bool.false_ne_true
theorem mxld (h : Hdr) (g : Bool) (t s bar : RegIx) : Statement (.mxld h g t s bar) := fun h => absurd h Bool.false_ne_true
theorem mxst (h : Hdr) (g bf16 : Bool) (t s bar : RegIx) : Statement (.mxst h g bf16 t s bar) := fun h => absurd h Bool.false_ne_true
theorem mxsel24 (h : Hdr) (g : Bool) (b : RegIx) : Statement (.mxsel24 h g b) := fun h => absurd h Bool.false_ne_true
theorem mxstat (h : Hdr) (g : Bool) (d a : RegIx) : Statement (.mxstat h g d a) := fun h => absurd h Bool.false_ne_true
theorem nbgemv (h : Hdr) (g : Bool) (a : RegIx) : Statement (.nbgemv h g a) := fun h => absurd h Bool.false_ne_true
theorem sxload (h : Hdr) (g mem : Bool) (a n : RegIx) (bar : Option RegIx) : Statement (.sxload h g mem a n bar) := fun h => absurd h Bool.false_ne_true
theorem sxbias (h : Hdr) (g : Bool) (a n : RegIx) (bar : Option RegIx) : Statement (.sxbias h g a n bar) := fun h => absurd h Bool.false_ne_true
theorem sxclamp (h : Hdr) (g : Bool) (a n : RegIx) (bar : Option RegIx) : Statement (.sxclamp h g a n bar) := fun h => absurd h Bool.false_ne_true
theorem sxrun (h : Hdr) (g : Bool) (a : RegIx) (bar : Option RegIx) : Statement (.sxrun h g a bar) := fun h => absurd h Bool.false_ne_true
theorem sxread (h : Hdr) (g cnt : Bool) (a n : RegIx) (bar : Option RegIx) : Statement (.sxread h g cnt a n bar) := fun h => absurd h Bool.false_ne_true
theorem sxkey (h : Hdr) (g replay : Bool) (a b : RegIx) : Statement (.sxkey h g replay a b) := fun h => absurd h Bool.false_ne_true
theorem sxjoin (h : Hdr) (g : Bool) (a b : RegIx) (bar : Option RegIx) : Statement (.sxjoin h g a b bar) := fun h => absurd h Bool.false_ne_true
theorem sxhealth (h : Hdr) (g : Bool) (a b : RegIx) : Statement (.sxhealth h g a b) := fun h => absurd h Bool.false_ne_true
theorem spawn (h : Hdr) (g : Bool) (cls : BitVec 3) (n : BitVec 3) (entry join pay : RegIx) : Statement (.spawn h g cls n entry join pay) := fun h => absurd h Bool.false_ne_true
theorem spwflush (h : Hdr) : Statement (.spwflush h) := fun h => absurd h Bool.false_ne_true
theorem jwait (h : Hdr) (g : Bool) (a : RegIx) : Statement (.jwait h g a) := fun h => absurd h Bool.false_ne_true
theorem launch (h : Hdr) (g : Bool) (d a : RegIx) : Statement (.launch h g d a) := fun h => absurd h Bool.false_ne_true
theorem fetchw (h : Hdr) (g : Bool) (d a : RegIx) : Statement (.fetchw h g d a) := fun h => absurd h Bool.false_ne_true
theorem wlappend (h : Hdr) (g : Bool) (a c : RegIx) : Statement (.wlappend h g a c) := fun h => absurd h Bool.false_ne_true
theorem wltake (h : Hdr) (pd : BitVec 3) (d : RegIx) : Statement (.wltake h pd d) := fun h => absurd h Bool.false_ne_true
theorem tkwait (h : Hdr) (d : RegIx) (q : Option RegIx) (k : Kind) : Statement (.tkwait h d q k) := fun h => absurd h Bool.false_ne_true
theorem tkpass (h : Hdr) (d : RegIx) (q : Option RegIx) (k : Kind) : Statement (.tkpass h d q k) := fun h => absurd h Bool.false_ne_true
theorem quiet (h : Hdr) (d : RegIx) : Statement (.quiet h d) := fun h => absurd h Bool.false_ne_true
theorem setpri (h : Hdr) (n : Kind) : Statement (.setpri h n) := fun h => absurd h Bool.false_ne_true
theorem coll (h : Hdr) (g : Bool) (a : RegIx) : Statement (.coll h g a) := fun h => absurd h Bool.false_ne_true
theorem csrr (h : Hdr) (toG : Bool) (d : RegIx) (n : RegIx) : Statement (.csrr h toG d n) := fun h => absurd h Bool.false_ne_true
theorem csrw (h : Hdr) (n : RegIx) (c : Kind) : Statement (.csrw h n c) := fun h => absurd h Bool.false_ne_true
theorem syscall (h : Hdr) (d a : RegIx) (n : BitVec 9) : Statement (.syscall h d a n) := fun h => absurd h Bool.false_ne_true
theorem trapret (h : Hdr) (g : Bool) (c : RegIx) : Statement (.trapret h g c) := fun h => absurd h Bool.false_ne_true
theorem npbegin (h : Hdr) : Statement (.npbegin h) := fun h => absurd h Bool.false_ne_true
theorem npend (h : Hdr) : Statement (.npend h) := fun h => absurd h Bool.false_ne_true
theorem powerGood : Statement (.powerGood) := fun _ => ⟨rfl, rfl⟩
theorem startUpStep : Statement (.startUpStep) := fun _ => ⟨rfl, rfl⟩
theorem coreWake : Statement (.coreWake) := fun _ => ⟨rfl, rfl⟩
theorem deviceReset : Statement (.deviceReset) := fun _ => ⟨rfl, rfl⟩
theorem lossOfPower : Statement (.lossOfPower) := fun _ => ⟨rfl, rfl⟩
theorem powerSample : Statement (.powerSample) := fun _ => ⟨rfl, rfl⟩
theorem budgetPeriod : Statement (.budgetPeriod) := fun _ => ⟨rfl, rfl⟩
theorem bondFlitError : Statement (.bondFlitError) := fun _ => ⟨rfl, rfl⟩
theorem uncorrectableError : Statement (.uncorrectableError) := fun _ => ⟨rfl, rfl⟩
theorem logread : Statement (.logread) := fun _ => ⟨rfl, rfl⟩
theorem unknownMailboxOp : Statement (.unknownMailboxOp) := fun _ => ⟨rfl, rfl⟩
theorem imgwrite : Statement (.imgwrite) := fun _ => ⟨rfl, rfl⟩
theorem imgcommit : Statement (.imgcommit) := fun _ => ⟨rfl, rfl⟩
theorem attest : Statement (.attest) := fun _ => ⟨rfl, rfl⟩
theorem cert : Statement (.cert) := fun _ => ⟨rfl, rfl⟩
theorem dieFence : Statement (.dieFence) := fun _ => ⟨rfl, rfl⟩
theorem diereset : Statement (.diereset) := fun _ => ⟨rfl, rfl⟩
theorem resume : Statement (.resume) := fun _ => ⟨rfl, rfl⟩
theorem budget : Statement (.budget) := fun _ => ⟨rfl, rfl⟩
theorem linkUp : Statement (.linkUp) := fun _ => ⟨rfl, rfl⟩
theorem linkDown : Statement (.linkDown) := fun _ => ⟨rfl, rfl⟩
theorem spdmAuthentication : Statement (.spdmAuthentication) := fun _ => ⟨rfl, rfl⟩
theorem ideKeyProgramming : Statement (.ideKeyProgramming) := fun _ => ⟨rfl, rfl⟩
theorem inboundPostedWrite : Statement (.inboundPostedWrite) := fun _ => ⟨rfl, rfl⟩
theorem inboundRead : Statement (.inboundRead) := fun _ => ⟨rfl, rfl⟩
theorem inboundAtomicop : Statement (.inboundAtomicop) := fun _ => ⟨rfl, rfl⟩
theorem atsInvalidation : Statement (.atsInvalidation) := fun _ => ⟨rfl, rfl⟩
theorem pageResponse : Statement (.pageResponse) := fun _ => ⟨rfl, rfl⟩
theorem outboundReadCompletion : Statement (.outboundReadCompletion) := fun _ => ⟨rfl, rfl⟩
theorem completionTimeout : Statement (.completionTimeout) := fun _ => ⟨rfl, rfl⟩
theorem clovarFlitError : Statement (.clovarFlitError) := fun _ => ⟨rfl, rfl⟩
theorem clovarPortStateChange : Statement (.clovarPortStateChange) := fun _ => ⟨rfl, rfl⟩
theorem ports : Statement (.ports) := fun _ => ⟨rfl, rfl⟩
theorem clovarInboundRequest : Statement (.clovarInboundRequest) := fun _ => ⟨rfl, rfl⟩
theorem remoteResponse : Statement (.remoteResponse) := fun _ => ⟨rfl, rfl⟩
theorem remoteRequestTimeout : Statement (.remoteRequestTimeout) := fun _ => ⟨rfl, rfl⟩
theorem collectiveTraffic : Statement (.collectiveTraffic) := fun _ => ⟨rfl, rfl⟩
theorem en : Statement (.en) := fun _ => ⟨rfl, rfl⟩
theorem kreq : Statement (.kreq) := fun _ => ⟨rfl, rfl⟩
theorem halt : Statement (.halt) := fun _ => ⟨rfl, rfl⟩
theorem invgo : Statement (.invgo) := fun _ => ⟨rfl, rfl⟩
theorem invall : Statement (.invall) := fun _ => ⟨rfl, rfl⟩
theorem doorbell : Statement (.doorbell) := fun _ => ⟨rfl, rfl⟩
theorem resolve : Statement (.resolve) := fun _ => ⟨rfl, rfl⟩
theorem reject : Statement (.reject) := fun _ => ⟨rfl, rfl⟩
theorem preEmpt : Statement (.preEmpt) := fun _ => ⟨rfl, rfl⟩
theorem popResume : Statement (.popResume) := fun _ => ⟨rfl, rfl⟩
theorem cut : Statement (.cut) := fun _ => ⟨rfl, rfl⟩
theorem svcret : Statement (.svcret) := fun _ => ⟨rfl, rfl⟩
theorem registerWrite : Statement (.registerWrite) := fun _ => ⟨rfl, rfl⟩
theorem teamPlacement : Statement (.teamPlacement) := fun _ => ⟨rfl, rfl⟩
theorem spawnedGroupRelease : Statement (.spawnedGroupRelease) := fun _ => ⟨rfl, rfl⟩
theorem bucketBoundary : Statement (.bucketBoundary) := fun _ => ⟨rfl, rfl⟩

end Sys2Proof.Laws.EventNotWord
end

