-- ==== Sys2Proof/Laws/Sparse.lean ====
section
/-! SUPPORT. Sparse.lean: what the operations of a `Sparse` map do to a reading, and that they keep its canonical form. -/
namespace Sys2Proof.Sparse

variable {α : Type}

theorem get_ins (d v : α) (m : Sparse α) (k j : Nat) (h : ∀ p ∈ m, p.1 ≠ k) :
    get d (ins k v m) j = if j = k then v else get d m j := by
  induction m with
  | nil => simp [ins, get]
  | cons p m ih =>
    obtain ⟨k', v'⟩ := p
    have hk : k' ≠ k := h (k', v') (by simp)
    have ih := ih fun p hp => h p (by simp [hp])
    by_cases hlt : k < k'
    · simp [ins, get, hlt]
    · by_cases hj : j = k' <;> simp [ins, get, hlt, ih, hj, hk]

theorem get_del (d : α) (m : Sparse α) (k j : Nat) : get d (del m k) j = if j = k then d else get d m j := by
  induction m with
  | nil => simp [del, get]
  | cons p m ih =>
    obtain ⟨k', v'⟩ := p
    simp only [del] at ih ⊢
    by_cases hk : k' = k
    · subst hk; by_cases hj : j = k' <;> simp_all [get]
    · by_cases hj : j = k'
      · subst hj; simp [get, hk]
      · simp [get, hk, hj, ih]

theorem del_ne (m : Sparse α) (k : Nat) : ∀ p ∈ del m k, p.1 ≠ k := by
  intro p hp; simpa [del] using (List.mem_filter.mp hp).2

theorem get_put (d v : α) (m : Sparse α) (k j : Nat) : get d (put m k v) j = if j = k then v else get d m j := by
  rw [put, get_ins d v _ k j (del_ne m k), get_del]; split <;> rfl

/-- A reading after a write: the value written at its key, the old value at every other key. -/
theorem get_set [DecidableEq α] (d v : α) (m : Sparse α) (k j : Nat) :
    get d (set d m k v) j = if j = k then v else get d m j := by
  unfold set; split
  · next h => rw [get_del, h]
  · rw [get_put]

@[simp] theorem get_set_same [DecidableEq α] (d v : α) (m : Sparse α) (k : Nat) : get d (set d m k v) k = v := by
  simp [get_set]

theorem get_set_other [DecidableEq α] (d v : α) (m : Sparse α) {k j : Nat} (h : j ≠ k) :
    get d (set d m k v) j = get d m j := by
  simp [get_set, h]

theorem del_ins (k : Nat) (v : α) (m : Sparse α) : del (ins k v m) k = del m k := by
  induction m with
  | nil => simp [ins, del]
  | cons p m ih =>
    obtain ⟨k', v'⟩ := p
    by_cases hlt : k < k'
    · simp [ins, hlt, del]
    · simp only [ins, hlt, ↓reduceIte]
      simp only [del] at ih ⊢
      by_cases hk : k' = k <;> simp [hk, ih]

theorem del_del (m : Sparse α) (k : Nat) : del (del m k) k = del m k := by simp [del]

theorem del_set [DecidableEq α] (d v : α) (m : Sparse α) (k : Nat) : del (set d m k v) k = del m k := by
  unfold set; split
  · exact del_del m k
  · rw [put, del_ins, del_del]

/-- The later of two writes of one key is what counts. -/
theorem set_set [DecidableEq α] (d v w : α) (m : Sparse α) (k : Nat) : set d (set d m k v) k w = set d m k w := by
  rw [set, put, del_set]; rfl

/-! ### The canonical form -/

/-- Keys strictly rising above a bound, no unlisted value: the form as one recursion. -/
def above [DecidableEq α] (d : α) : Nat → Sparse α → Prop
  | _, [] => True
  | b, (k, v) :: m => b ≤ k ∧ v ≠ d ∧ above d (k + 1) m

theorem wf_iff_above [DecidableEq α] (d : α) (m : Sparse α) : wf d m = true ↔ above d 0 m := by
  have key : ∀ (m : Sparse α) (b : Nat), above d b m ↔ (match m with | [] => True | (k, _) :: _ => b ≤ k) ∧ wf d m = true := by
    intro m
    induction m with
    | nil => intro b; simp [above, wf]
    | cons p m ih =>
      obtain ⟨k, v⟩ := p
      intro b
      cases m with
      | nil => simp [above, wf]
      | cons q m =>
        obtain ⟨k', v'⟩ := q
        simp only [above] at ih ⊢
        simp only [ih (k + 1), wf, Bool.and_eq_true, decide_eq_true_eq]
        constructor
        · rintro ⟨h1, h2, h3, h4, h5⟩; exact ⟨h1, ⟨h2, h3⟩, h4, h5⟩
        · rintro ⟨h1, ⟨h2, h3⟩, h4, h5⟩; exact ⟨h1, h2, h3, h4, h5⟩
  rw [key m 0]; cases m <;> simp

theorem above_mono [DecidableEq α] (d : α) {m : Sparse α} {b c : Nat} (h : c ≤ b) (hm : above d b m) : above d c m := by
  cases m with
  | nil => trivial
  | cons p m => exact ⟨Nat.le_trans h hm.1, hm.2⟩

theorem above_del [DecidableEq α] (d : α) (k : Nat) {m : Sparse α} {b : Nat} (h : above d b m) : above d b (del m k) := by
  induction m generalizing b with
  | nil => trivial
  | cons p m ih =>
    obtain ⟨k', v⟩ := p
    obtain ⟨h1, h2, h3⟩ := h
    by_cases hk : k' = k
    · subst hk
      have : del ((k', v) :: m) k' = del m k' := by simp [del]
      rw [this]; exact ih (above_mono d (by omega) h3)
    · have : del ((k', v) :: m) k = (k', v) :: del m k := by simp [del, hk]
      rw [this]; exact ⟨h1, h2, ih h3⟩

theorem above_ins [DecidableEq α] {d v : α} {k : Nat} (hv : v ≠ d) {m : Sparse α} {b : Nat} (hb : b ≤ k)
    (hm : above d b m) (hk : ∀ p ∈ m, p.1 ≠ k) : above d b (ins k v m) := by
  induction m generalizing b with
  | nil => exact ⟨hb, hv, trivial⟩
  | cons p m ih =>
    obtain ⟨k', v'⟩ := p
    obtain ⟨h1, h2, h3⟩ := hm
    have hne : k' ≠ k := hk (k', v') (by simp)
    by_cases hlt : k < k'
    · simp only [ins, hlt, ↓reduceIte]; exact ⟨hb, hv, by omega, h2, h3⟩
    · simp only [ins, hlt, ↓reduceIte]
      exact ⟨h1, h2, ih (by omega) h3 fun p hp => hk p (by simp [hp])⟩

/-- Every write keeps the canonical form. -/
theorem wf_set [DecidableEq α] (d v : α) (m : Sparse α) (k : Nat) (h : wf d m = true) : wf d (set d m k v) = true := by
  rw [wf_iff_above] at h ⊢
  unfold set; split
  · exact above_del d k h
  · next hv => exact above_ins hv (Nat.zero_le k) (above_del d k h) (del_ne m k)

end Sys2Proof.Sparse

namespace Sys2Proof.Machine

/-! ### Committed memory -/

/-- Reading one byte after writing one: the byte written there, every other byte as before. -/
theorem cell_setCell (s : State) (a c : Nat) (b : Byte) : (s.setCell a b).cell c = if c = a then b else s.cell c :=
  Sparse.get_set _ _ _ _ _

/-- Writing a byte keeps the canonical form of memory. -/
theorem setCell_wf (s : State) (a : Nat) (b : Byte) (h : Memory.wf s.mem) : Memory.wf (s.setCell a b).mem :=
  Sparse.wf_set _ _ _ _ h

/-- Writing bytes keeps the canonical form of memory. -/
theorem setCells_wf (s : State) (a : Nat) (bs : List Byte) (h : Memory.wf s.mem) : Memory.wf (s.setCells a bs).mem := by
  induction bs generalizing s a with
  | nil => exact h
  | cons b bs ih => exact ih (s.setCell a b) (a + 1) (setCell_wf s a b h)

/-- A byte outside the bytes written reads as before. -/
theorem cell_setCells_out (s : State) (a c : Nat) (bs : List Byte) (h : c < a ∨ a + bs.length ≤ c) :
    (s.setCells a bs).cell c = s.cell c := by
  induction bs generalizing s a with
  | nil => rfl
  | cons b bs ih =>
    simp only [List.length_cons] at h
    rw [State.setCells, ih (s.setCell a b) (a + 1) (by omega), cell_setCell, if_neg (by omega)]

/-- A byte written reads as written. -/
theorem cell_setCells_in (s : State) (a i : Nat) (bs : List Byte) (h : i < bs.length) :
    (s.setCells a bs).cell (a + i) = bs[i] := by
  induction bs generalizing s a i with
  | nil => simp at h
  | cons b bs ih =>
    rw [State.setCells]
    cases i with
    | zero => rw [Nat.add_zero, cell_setCells_out _ _ _ _ (.inl (by omega)), cell_setCell]; simp
    | succ i =>
      have := ih (s.setCell a b) (a + 1) i (by simpa using h)
      simp only [Nat.add_assoc, Nat.add_comm 1 i] at this
      simpa using this

end Sys2Proof.Machine
end

