-- ==== Sys2Proof/Laws/State.lean ====
section
/-! SUPPORT. State.lean: for each update of the state, of a group and of a lane, what it leaves: one lemma per field. -/
namespace Sys2Proof.Machine

@[simp] theorem State.setDie_clk (s : State) (k : Nat) (d : Die) : (s.setDie k d).clk = s.clk := rfl
@[simp] theorem State.setDie_uptime (s : State) (k : Nat) (d : Die) : (s.setDie k d).uptime = s.uptime := rfl
@[simp] theorem State.setDie_free (s : State) (k : Nat) (d : Die) : (s.setDie k d).free = s.free := rfl
@[simp] theorem State.setDie_next (s : State) (k : Nat) (d : Die) : (s.setDie k d).next = s.next := rfl
@[simp] theorem State.setDie_agenda (s : State) (k : Nat) (d : Die) : (s.setDie k d).agenda = s.agenda := rfl
@[simp] theorem State.setDie_input (s : State) (k : Nat) (d : Die) : (s.setDie k d).input = s.input := rfl
@[simp] theorem State.setDie_served (s : State) (k : Nat) (d : Die) : (s.setDie k d).served = s.served := rfl
@[simp] theorem State.setDie_bucketNo (s : State) (k : Nat) (d : Die) : (s.setDie k d).bucketNo = s.bucketNo := rfl
@[simp] theorem State.setDie_cur (s : State) (k : Nat) (d : Die) : (s.setDie k d).cur = s.cur := rfl
@[simp] theorem State.setDie_out (s : State) (k : Nat) (d : Die) : (s.setDie k d).out = s.out := rfl
@[simp] theorem State.setDie_mgmt (s : State) (k : Nat) (d : Die) : (s.setDie k d).mgmt = s.mgmt := rfl
@[simp] theorem State.setDie_sramDown (s : State) (k : Nat) (d : Die) : (s.setDie k d).sramDown = s.sramDown := rfl
@[simp] theorem State.setDie_modulesUp (s : State) (k : Nat) (d : Die) : (s.setDie k d).modulesUp = s.modulesUp := rfl
@[simp] theorem State.setDie_stackDown (s : State) (k : Nat) (d : Die) : (s.setDie k d).stackDown = s.stackDown := rfl
@[simp] theorem State.setDie_quads (s : State) (k : Nat) (d : Die) : (s.setDie k d).quads = s.quads := rfl
@[simp] theorem State.setDie_ports (s : State) (k : Nat) (d : Die) : (s.setDie k d).ports = s.ports := rfl
@[simp] theorem State.setDie_hostSent (s : State) (k : Nat) (d : Die) : (s.setDie k d).hostSent = s.hostSent := rfl
@[simp] theorem State.setDie_hostSafe (s : State) (k : Nat) (d : Die) : (s.setDie k d).hostSafe = s.hostSafe := rfl
@[simp] theorem State.setDie_posted (s : State) (k : Nat) (d : Die) : (s.setDie k d).posted = s.posted := rfl
@[simp] theorem State.setDie_reads (s : State) (k : Nat) (d : Die) : (s.setDie k d).reads = s.reads := rfl
@[simp] theorem State.setDie_peers (s : State) (k : Nat) (d : Die) : (s.setDie k d).peers = s.peers := rfl
@[simp] theorem State.setDie_clovar (s : State) (k : Nat) (d : Die) : (s.setDie k d).clovar = s.clovar := rfl
@[simp] theorem State.setDie_ctxs (s : State) (k : Nat) (d : Die) : (s.setDie k d).ctxs = s.ctxs := rfl
@[simp] theorem State.setDie_recs (s : State) (k : Nat) (d : Die) : (s.setDie k d).recs = s.recs := rfl
@[simp] theorem State.setDie_mem (s : State) (k : Nat) (d : Die) : (s.setDie k d).mem = s.mem := rfl
@[simp] theorem State.setDie_poison (s : State) (k : Nat) (d : Die) : (s.setDie k d).poison = s.poison := rfl
@[simp] theorem State.setDie_dir (s : State) (k : Nat) (d : Die) : (s.setDie k d).dir = s.dir := rfl
@[simp] theorem State.setDie_dirty (s : State) (k : Nat) (d : Die) : (s.setDie k d).dirty = s.dirty := rfl
@[simp] theorem State.setDie_dirtyLines (s : State) (k : Nat) (d : Die) : (s.setDie k d).dirtyLines = s.dirtyLines := rfl
@[simp] theorem State.setDie_ccache (s : State) (k : Nat) (d : Die) : (s.setDie k d).ccache = s.ccache := rfl
@[simp] theorem State.setDie_icache (s : State) (k : Nat) (d : Die) : (s.setDie k d).icache = s.icache := rfl
@[simp] theorem State.setDie_l2 (s : State) (k : Nat) (d : Die) : (s.setDie k d).l2 = s.l2 := rfl
@[simp] theorem State.setDie_l2Uses (s : State) (k : Nat) (d : Die) : (s.setDie k d).l2Uses = s.l2Uses := rfl
@[simp] theorem State.setDie_llcNew (s : State) (k : Nat) (d : Die) : (s.setDie k d).llcNew = s.llcNew := rfl
@[simp] theorem State.setDie_pool (s : State) (k : Nat) (d : Die) : (s.setDie k d).pool = s.pool := rfl
@[simp] theorem State.setDie_tlb (s : State) (k : Nat) (d : Die) : (s.setDie k d).tlb = s.tlb := rfl
@[simp] theorem State.setDie_txns (s : State) (k : Nat) (d : Die) : (s.setDie k d).txns = s.txns := rfl
@[simp] theorem State.setDie_teams (s : State) (k : Nat) (d : Die) : (s.setDie k d).teams = s.teams := rfl
@[simp] theorem State.setDie_groups (s : State) (k : Nat) (d : Die) : (s.setDie k d).groups = s.groups := rfl
@[simp] theorem State.setDie_bins (s : State) (k : Nat) (d : Die) : (s.setDie k d).bins = s.bins := rfl
@[simp] theorem State.setDie_parkedSpawns (s : State) (k : Nat) (d : Die) : (s.setDie k d).parkedSpawns = s.parkedSpawns := rfl
@[simp] theorem State.setDie_reserves (s : State) (k : Nat) (d : Die) : (s.setDie k d).reserves = s.reserves := rfl
@[simp] theorem State.setDie_wokenRooms (s : State) (k : Nat) (d : Die) : (s.setDie k d).wokenRooms = s.wokenRooms := rfl
@[simp] theorem State.setDie_wokenSpawns (s : State) (k : Nat) (d : Die) : (s.setDie k d).wokenSpawns = s.wokenSpawns := rfl
@[simp] theorem State.setDie_spawns (s : State) (k : Nat) (d : Die) : (s.setDie k d).spawns = s.spawns := rfl
@[simp] theorem State.setDie_decs (s : State) (k : Nat) (d : Die) : (s.setDie k d).decs = s.decs := rfl
@[simp] theorem State.setDie_copies (s : State) (k : Nat) (d : Die) : (s.setDie k d).copies = s.copies := rfl
@[simp] theorem State.setDie_mx (s : State) (k : Nat) (d : Die) : (s.setDie k d).mx = s.mx := rfl
@[simp] theorem State.setDie_arrays (s : State) (k : Nat) (d : Die) : (s.setDie k d).arrays = s.arrays := rfl
@[simp] theorem State.setDie_nbs (s : State) (k : Nat) (d : Die) : (s.setDie k d).nbs = s.nbs := rfl
@[simp] theorem State.setDie_engBuf (s : State) (k : Nat) (d : Die) : (s.setDie k d).engBuf = s.engBuf := rfl

@[simp] theorem State.setQuad_clk (s : State) (k : Nat) (d : Quad) : (s.setQuad k d).clk = s.clk := rfl
@[simp] theorem State.setQuad_uptime (s : State) (k : Nat) (d : Quad) : (s.setQuad k d).uptime = s.uptime := rfl
@[simp] theorem State.setQuad_free (s : State) (k : Nat) (d : Quad) : (s.setQuad k d).free = s.free := rfl
@[simp] theorem State.setQuad_next (s : State) (k : Nat) (d : Quad) : (s.setQuad k d).next = s.next := rfl
@[simp] theorem State.setQuad_agenda (s : State) (k : Nat) (d : Quad) : (s.setQuad k d).agenda = s.agenda := rfl
@[simp] theorem State.setQuad_input (s : State) (k : Nat) (d : Quad) : (s.setQuad k d).input = s.input := rfl
@[simp] theorem State.setQuad_served (s : State) (k : Nat) (d : Quad) : (s.setQuad k d).served = s.served := rfl
@[simp] theorem State.setQuad_bucketNo (s : State) (k : Nat) (d : Quad) : (s.setQuad k d).bucketNo = s.bucketNo := rfl
@[simp] theorem State.setQuad_cur (s : State) (k : Nat) (d : Quad) : (s.setQuad k d).cur = s.cur := rfl
@[simp] theorem State.setQuad_out (s : State) (k : Nat) (d : Quad) : (s.setQuad k d).out = s.out := rfl
@[simp] theorem State.setQuad_mgmt (s : State) (k : Nat) (d : Quad) : (s.setQuad k d).mgmt = s.mgmt := rfl
@[simp] theorem State.setQuad_dies (s : State) (k : Nat) (d : Quad) : (s.setQuad k d).dies = s.dies := rfl
@[simp] theorem State.setQuad_sramDown (s : State) (k : Nat) (d : Quad) : (s.setQuad k d).sramDown = s.sramDown := rfl
@[simp] theorem State.setQuad_modulesUp (s : State) (k : Nat) (d : Quad) : (s.setQuad k d).modulesUp = s.modulesUp := rfl
@[simp] theorem State.setQuad_stackDown (s : State) (k : Nat) (d : Quad) : (s.setQuad k d).stackDown = s.stackDown := rfl
@[simp] theorem State.setQuad_ports (s : State) (k : Nat) (d : Quad) : (s.setQuad k d).ports = s.ports := rfl
@[simp] theorem State.setQuad_hostSent (s : State) (k : Nat) (d : Quad) : (s.setQuad k d).hostSent = s.hostSent := rfl
@[simp] theorem State.setQuad_hostSafe (s : State) (k : Nat) (d : Quad) : (s.setQuad k d).hostSafe = s.hostSafe := rfl
@[simp] theorem State.setQuad_posted (s : State) (k : Nat) (d : Quad) : (s.setQuad k d).posted = s.posted := rfl
@[simp] theorem State.setQuad_reads (s : State) (k : Nat) (d : Quad) : (s.setQuad k d).reads = s.reads := rfl
@[simp] theorem State.setQuad_peers (s : State) (k : Nat) (d : Quad) : (s.setQuad k d).peers = s.peers := rfl
@[simp] theorem State.setQuad_clovar (s : State) (k : Nat) (d : Quad) : (s.setQuad k d).clovar = s.clovar := rfl
@[simp] theorem State.setQuad_ctxs (s : State) (k : Nat) (d : Quad) : (s.setQuad k d).ctxs = s.ctxs := rfl
@[simp] theorem State.setQuad_recs (s : State) (k : Nat) (d : Quad) : (s.setQuad k d).recs = s.recs := rfl
@[simp] theorem State.setQuad_mem (s : State) (k : Nat) (d : Quad) : (s.setQuad k d).mem = s.mem := rfl
@[simp] theorem State.setQuad_poison (s : State) (k : Nat) (d : Quad) : (s.setQuad k d).poison = s.poison := rfl
@[simp] theorem State.setQuad_dir (s : State) (k : Nat) (d : Quad) : (s.setQuad k d).dir = s.dir := rfl
@[simp] theorem State.setQuad_dirty (s : State) (k : Nat) (d : Quad) : (s.setQuad k d).dirty = s.dirty := rfl
@[simp] theorem State.setQuad_dirtyLines (s : State) (k : Nat) (d : Quad) : (s.setQuad k d).dirtyLines = s.dirtyLines := rfl
@[simp] theorem State.setQuad_ccache (s : State) (k : Nat) (d : Quad) : (s.setQuad k d).ccache = s.ccache := rfl
@[simp] theorem State.setQuad_icache (s : State) (k : Nat) (d : Quad) : (s.setQuad k d).icache = s.icache := rfl
@[simp] theorem State.setQuad_l2 (s : State) (k : Nat) (d : Quad) : (s.setQuad k d).l2 = s.l2 := rfl
@[simp] theorem State.setQuad_l2Uses (s : State) (k : Nat) (d : Quad) : (s.setQuad k d).l2Uses = s.l2Uses := rfl
@[simp] theorem State.setQuad_llcNew (s : State) (k : Nat) (d : Quad) : (s.setQuad k d).llcNew = s.llcNew := rfl
@[simp] theorem State.setQuad_pool (s : State) (k : Nat) (d : Quad) : (s.setQuad k d).pool = s.pool := rfl
@[simp] theorem State.setQuad_tlb (s : State) (k : Nat) (d : Quad) : (s.setQuad k d).tlb = s.tlb := rfl
@[simp] theorem State.setQuad_txns (s : State) (k : Nat) (d : Quad) : (s.setQuad k d).txns = s.txns := rfl
@[simp] theorem State.setQuad_teams (s : State) (k : Nat) (d : Quad) : (s.setQuad k d).teams = s.teams := rfl
@[simp] theorem State.setQuad_groups (s : State) (k : Nat) (d : Quad) : (s.setQuad k d).groups = s.groups := rfl
@[simp] theorem State.setQuad_bins (s : State) (k : Nat) (d : Quad) : (s.setQuad k d).bins = s.bins := rfl
@[simp] theorem State.setQuad_parkedSpawns (s : State) (k : Nat) (d : Quad) : (s.setQuad k d).parkedSpawns = s.parkedSpawns := rfl
@[simp] theorem State.setQuad_reserves (s : State) (k : Nat) (d : Quad) : (s.setQuad k d).reserves = s.reserves := rfl
@[simp] theorem State.setQuad_wokenRooms (s : State) (k : Nat) (d : Quad) : (s.setQuad k d).wokenRooms = s.wokenRooms := rfl
@[simp] theorem State.setQuad_wokenSpawns (s : State) (k : Nat) (d : Quad) : (s.setQuad k d).wokenSpawns = s.wokenSpawns := rfl
@[simp] theorem State.setQuad_spawns (s : State) (k : Nat) (d : Quad) : (s.setQuad k d).spawns = s.spawns := rfl
@[simp] theorem State.setQuad_decs (s : State) (k : Nat) (d : Quad) : (s.setQuad k d).decs = s.decs := rfl
@[simp] theorem State.setQuad_copies (s : State) (k : Nat) (d : Quad) : (s.setQuad k d).copies = s.copies := rfl
@[simp] theorem State.setQuad_mx (s : State) (k : Nat) (d : Quad) : (s.setQuad k d).mx = s.mx := rfl
@[simp] theorem State.setQuad_arrays (s : State) (k : Nat) (d : Quad) : (s.setQuad k d).arrays = s.arrays := rfl
@[simp] theorem State.setQuad_nbs (s : State) (k : Nat) (d : Quad) : (s.setQuad k d).nbs = s.nbs := rfl
@[simp] theorem State.setQuad_engBuf (s : State) (k : Nat) (d : Quad) : (s.setQuad k d).engBuf = s.engBuf := rfl

@[simp] theorem State.setPort_clk (s : State) (k : Nat) (d : Port) : (s.setPort k d).clk = s.clk := rfl
@[simp] theorem State.setPort_uptime (s : State) (k : Nat) (d : Port) : (s.setPort k d).uptime = s.uptime := rfl
@[simp] theorem State.setPort_free (s : State) (k : Nat) (d : Port) : (s.setPort k d).free = s.free := rfl
@[simp] theorem State.setPort_next (s : State) (k : Nat) (d : Port) : (s.setPort k d).next = s.next := rfl
@[simp] theorem State.setPort_agenda (s : State) (k : Nat) (d : Port) : (s.setPort k d).agenda = s.agenda := rfl
@[simp] theorem State.setPort_input (s : State) (k : Nat) (d : Port) : (s.setPort k d).input = s.input := rfl
@[simp] theorem State.setPort_served (s : State) (k : Nat) (d : Port) : (s.setPort k d).served = s.served := rfl
@[simp] theorem State.setPort_bucketNo (s : State) (k : Nat) (d : Port) : (s.setPort k d).bucketNo = s.bucketNo := rfl
@[simp] theorem State.setPort_cur (s : State) (k : Nat) (d : Port) : (s.setPort k d).cur = s.cur := rfl
@[simp] theorem State.setPort_out (s : State) (k : Nat) (d : Port) : (s.setPort k d).out = s.out := rfl
@[simp] theorem State.setPort_mgmt (s : State) (k : Nat) (d : Port) : (s.setPort k d).mgmt = s.mgmt := rfl
@[simp] theorem State.setPort_dies (s : State) (k : Nat) (d : Port) : (s.setPort k d).dies = s.dies := rfl
@[simp] theorem State.setPort_sramDown (s : State) (k : Nat) (d : Port) : (s.setPort k d).sramDown = s.sramDown := rfl
@[simp] theorem State.setPort_modulesUp (s : State) (k : Nat) (d : Port) : (s.setPort k d).modulesUp = s.modulesUp := rfl
@[simp] theorem State.setPort_stackDown (s : State) (k : Nat) (d : Port) : (s.setPort k d).stackDown = s.stackDown := rfl
@[simp] theorem State.setPort_quads (s : State) (k : Nat) (d : Port) : (s.setPort k d).quads = s.quads := rfl
@[simp] theorem State.setPort_hostSent (s : State) (k : Nat) (d : Port) : (s.setPort k d).hostSent = s.hostSent := rfl
@[simp] theorem State.setPort_hostSafe (s : State) (k : Nat) (d : Port) : (s.setPort k d).hostSafe = s.hostSafe := rfl
@[simp] theorem State.setPort_posted (s : State) (k : Nat) (d : Port) : (s.setPort k d).posted = s.posted := rfl
@[simp] theorem State.setPort_reads (s : State) (k : Nat) (d : Port) : (s.setPort k d).reads = s.reads := rfl
@[simp] theorem State.setPort_peers (s : State) (k : Nat) (d : Port) : (s.setPort k d).peers = s.peers := rfl
@[simp] theorem State.setPort_clovar (s : State) (k : Nat) (d : Port) : (s.setPort k d).clovar = s.clovar := rfl
@[simp] theorem State.setPort_ctxs (s : State) (k : Nat) (d : Port) : (s.setPort k d).ctxs = s.ctxs := rfl
@[simp] theorem State.setPort_recs (s : State) (k : Nat) (d : Port) : (s.setPort k d).recs = s.recs := rfl
@[simp] theorem State.setPort_mem (s : State) (k : Nat) (d : Port) : (s.setPort k d).mem = s.mem := rfl
@[simp] theorem State.setPort_poison (s : State) (k : Nat) (d : Port) : (s.setPort k d).poison = s.poison := rfl
@[simp] theorem State.setPort_dir (s : State) (k : Nat) (d : Port) : (s.setPort k d).dir = s.dir := rfl
@[simp] theorem State.setPort_dirty (s : State) (k : Nat) (d : Port) : (s.setPort k d).dirty = s.dirty := rfl
@[simp] theorem State.setPort_dirtyLines (s : State) (k : Nat) (d : Port) : (s.setPort k d).dirtyLines = s.dirtyLines := rfl
@[simp] theorem State.setPort_ccache (s : State) (k : Nat) (d : Port) : (s.setPort k d).ccache = s.ccache := rfl
@[simp] theorem State.setPort_icache (s : State) (k : Nat) (d : Port) : (s.setPort k d).icache = s.icache := rfl
@[simp] theorem State.setPort_l2 (s : State) (k : Nat) (d : Port) : (s.setPort k d).l2 = s.l2 := rfl
@[simp] theorem State.setPort_l2Uses (s : State) (k : Nat) (d : Port) : (s.setPort k d).l2Uses = s.l2Uses := rfl
@[simp] theorem State.setPort_llcNew (s : State) (k : Nat) (d : Port) : (s.setPort k d).llcNew = s.llcNew := rfl
@[simp] theorem State.setPort_pool (s : State) (k : Nat) (d : Port) : (s.setPort k d).pool = s.pool := rfl
@[simp] theorem State.setPort_tlb (s : State) (k : Nat) (d : Port) : (s.setPort k d).tlb = s.tlb := rfl
@[simp] theorem State.setPort_txns (s : State) (k : Nat) (d : Port) : (s.setPort k d).txns = s.txns := rfl
@[simp] theorem State.setPort_teams (s : State) (k : Nat) (d : Port) : (s.setPort k d).teams = s.teams := rfl
@[simp] theorem State.setPort_groups (s : State) (k : Nat) (d : Port) : (s.setPort k d).groups = s.groups := rfl
@[simp] theorem State.setPort_bins (s : State) (k : Nat) (d : Port) : (s.setPort k d).bins = s.bins := rfl
@[simp] theorem State.setPort_parkedSpawns (s : State) (k : Nat) (d : Port) : (s.setPort k d).parkedSpawns = s.parkedSpawns := rfl
@[simp] theorem State.setPort_reserves (s : State) (k : Nat) (d : Port) : (s.setPort k d).reserves = s.reserves := rfl
@[simp] theorem State.setPort_wokenRooms (s : State) (k : Nat) (d : Port) : (s.setPort k d).wokenRooms = s.wokenRooms := rfl
@[simp] theorem State.setPort_wokenSpawns (s : State) (k : Nat) (d : Port) : (s.setPort k d).wokenSpawns = s.wokenSpawns := rfl
@[simp] theorem State.setPort_spawns (s : State) (k : Nat) (d : Port) : (s.setPort k d).spawns = s.spawns := rfl
@[simp] theorem State.setPort_decs (s : State) (k : Nat) (d : Port) : (s.setPort k d).decs = s.decs := rfl
@[simp] theorem State.setPort_copies (s : State) (k : Nat) (d : Port) : (s.setPort k d).copies = s.copies := rfl
@[simp] theorem State.setPort_mx (s : State) (k : Nat) (d : Port) : (s.setPort k d).mx = s.mx := rfl
@[simp] theorem State.setPort_arrays (s : State) (k : Nat) (d : Port) : (s.setPort k d).arrays = s.arrays := rfl
@[simp] theorem State.setPort_nbs (s : State) (k : Nat) (d : Port) : (s.setPort k d).nbs = s.nbs := rfl
@[simp] theorem State.setPort_engBuf (s : State) (k : Nat) (d : Port) : (s.setPort k d).engBuf = s.engBuf := rfl

@[simp] theorem State.setCtx_clk (s : State) (k : Nat) (d : Ctx) : (s.setCtx k d).clk = s.clk := rfl
@[simp] theorem State.setCtx_uptime (s : State) (k : Nat) (d : Ctx) : (s.setCtx k d).uptime = s.uptime := rfl
@[simp] theorem State.setCtx_free (s : State) (k : Nat) (d : Ctx) : (s.setCtx k d).free = s.free := rfl
@[simp] theorem State.setCtx_next (s : State) (k : Nat) (d : Ctx) : (s.setCtx k d).next = s.next := rfl
@[simp] theorem State.setCtx_agenda (s : State) (k : Nat) (d : Ctx) : (s.setCtx k d).agenda = s.agenda := rfl
@[simp] theorem State.setCtx_input (s : State) (k : Nat) (d : Ctx) : (s.setCtx k d).input = s.input := rfl
@[simp] theorem State.setCtx_served (s : State) (k : Nat) (d : Ctx) : (s.setCtx k d).served = s.served := rfl
@[simp] theorem State.setCtx_bucketNo (s : State) (k : Nat) (d : Ctx) : (s.setCtx k d).bucketNo = s.bucketNo := rfl
@[simp] theorem State.setCtx_cur (s : State) (k : Nat) (d : Ctx) : (s.setCtx k d).cur = s.cur := rfl
@[simp] theorem State.setCtx_out (s : State) (k : Nat) (d : Ctx) : (s.setCtx k d).out = s.out := rfl
@[simp] theorem State.setCtx_mgmt (s : State) (k : Nat) (d : Ctx) : (s.setCtx k d).mgmt = s.mgmt := rfl
@[simp] theorem State.setCtx_dies (s : State) (k : Nat) (d : Ctx) : (s.setCtx k d).dies = s.dies := rfl
@[simp] theorem State.setCtx_sramDown (s : State) (k : Nat) (d : Ctx) : (s.setCtx k d).sramDown = s.sramDown := rfl
@[simp] theorem State.setCtx_modulesUp (s : State) (k : Nat) (d : Ctx) : (s.setCtx k d).modulesUp = s.modulesUp := rfl
@[simp] theorem State.setCtx_stackDown (s : State) (k : Nat) (d : Ctx) : (s.setCtx k d).stackDown = s.stackDown := rfl
@[simp] theorem State.setCtx_quads (s : State) (k : Nat) (d : Ctx) : (s.setCtx k d).quads = s.quads := rfl
@[simp] theorem State.setCtx_ports (s : State) (k : Nat) (d : Ctx) : (s.setCtx k d).ports = s.ports := rfl
@[simp] theorem State.setCtx_hostSent (s : State) (k : Nat) (d : Ctx) : (s.setCtx k d).hostSent = s.hostSent := rfl
@[simp] theorem State.setCtx_hostSafe (s : State) (k : Nat) (d : Ctx) : (s.setCtx k d).hostSafe = s.hostSafe := rfl
@[simp] theorem State.setCtx_posted (s : State) (k : Nat) (d : Ctx) : (s.setCtx k d).posted = s.posted := rfl
@[simp] theorem State.setCtx_reads (s : State) (k : Nat) (d : Ctx) : (s.setCtx k d).reads = s.reads := rfl
@[simp] theorem State.setCtx_peers (s : State) (k : Nat) (d : Ctx) : (s.setCtx k d).peers = s.peers := rfl
@[simp] theorem State.setCtx_clovar (s : State) (k : Nat) (d : Ctx) : (s.setCtx k d).clovar = s.clovar := rfl
@[simp] theorem State.setCtx_recs (s : State) (k : Nat) (d : Ctx) : (s.setCtx k d).recs = s.recs := rfl
@[simp] theorem State.setCtx_mem (s : State) (k : Nat) (d : Ctx) : (s.setCtx k d).mem = s.mem := rfl
@[simp] theorem State.setCtx_poison (s : State) (k : Nat) (d : Ctx) : (s.setCtx k d).poison = s.poison := rfl
@[simp] theorem State.setCtx_dir (s : State) (k : Nat) (d : Ctx) : (s.setCtx k d).dir = s.dir := rfl
@[simp] theorem State.setCtx_dirty (s : State) (k : Nat) (d : Ctx) : (s.setCtx k d).dirty = s.dirty := rfl
@[simp] theorem State.setCtx_dirtyLines (s : State) (k : Nat) (d : Ctx) : (s.setCtx k d).dirtyLines = s.dirtyLines := rfl
@[simp] theorem State.setCtx_ccache (s : State) (k : Nat) (d : Ctx) : (s.setCtx k d).ccache = s.ccache := rfl
@[simp] theorem State.setCtx_icache (s : State) (k : Nat) (d : Ctx) : (s.setCtx k d).icache = s.icache := rfl
@[simp] theorem State.setCtx_l2 (s : State) (k : Nat) (d : Ctx) : (s.setCtx k d).l2 = s.l2 := rfl
@[simp] theorem State.setCtx_l2Uses (s : State) (k : Nat) (d : Ctx) : (s.setCtx k d).l2Uses = s.l2Uses := rfl
@[simp] theorem State.setCtx_llcNew (s : State) (k : Nat) (d : Ctx) : (s.setCtx k d).llcNew = s.llcNew := rfl
@[simp] theorem State.setCtx_pool (s : State) (k : Nat) (d : Ctx) : (s.setCtx k d).pool = s.pool := rfl
@[simp] theorem State.setCtx_tlb (s : State) (k : Nat) (d : Ctx) : (s.setCtx k d).tlb = s.tlb := rfl
@[simp] theorem State.setCtx_txns (s : State) (k : Nat) (d : Ctx) : (s.setCtx k d).txns = s.txns := rfl
@[simp] theorem State.setCtx_teams (s : State) (k : Nat) (d : Ctx) : (s.setCtx k d).teams = s.teams := rfl
@[simp] theorem State.setCtx_groups (s : State) (k : Nat) (d : Ctx) : (s.setCtx k d).groups = s.groups := rfl
@[simp] theorem State.setCtx_bins (s : State) (k : Nat) (d : Ctx) : (s.setCtx k d).bins = s.bins := rfl
@[simp] theorem State.setCtx_parkedSpawns (s : State) (k : Nat) (d : Ctx) : (s.setCtx k d).parkedSpawns = s.parkedSpawns := rfl
@[simp] theorem State.setCtx_reserves (s : State) (k : Nat) (d : Ctx) : (s.setCtx k d).reserves = s.reserves := rfl
@[simp] theorem State.setCtx_wokenRooms (s : State) (k : Nat) (d : Ctx) : (s.setCtx k d).wokenRooms = s.wokenRooms := rfl
@[simp] theorem State.setCtx_wokenSpawns (s : State) (k : Nat) (d : Ctx) : (s.setCtx k d).wokenSpawns = s.wokenSpawns := rfl
@[simp] theorem State.setCtx_spawns (s : State) (k : Nat) (d : Ctx) : (s.setCtx k d).spawns = s.spawns := rfl
@[simp] theorem State.setCtx_decs (s : State) (k : Nat) (d : Ctx) : (s.setCtx k d).decs = s.decs := rfl
@[simp] theorem State.setCtx_copies (s : State) (k : Nat) (d : Ctx) : (s.setCtx k d).copies = s.copies := rfl
@[simp] theorem State.setCtx_mx (s : State) (k : Nat) (d : Ctx) : (s.setCtx k d).mx = s.mx := rfl
@[simp] theorem State.setCtx_arrays (s : State) (k : Nat) (d : Ctx) : (s.setCtx k d).arrays = s.arrays := rfl
@[simp] theorem State.setCtx_nbs (s : State) (k : Nat) (d : Ctx) : (s.setCtx k d).nbs = s.nbs := rfl
@[simp] theorem State.setCtx_engBuf (s : State) (k : Nat) (d : Ctx) : (s.setCtx k d).engBuf = s.engBuf := rfl

@[simp] theorem State.setRec_clk (s : State) (k : Nat) (d : Rec) : (s.setRec k d).clk = s.clk := rfl
@[simp] theorem State.setRec_uptime (s : State) (k : Nat) (d : Rec) : (s.setRec k d).uptime = s.uptime := rfl
@[simp] theorem State.setRec_free (s : State) (k : Nat) (d : Rec) : (s.setRec k d).free = s.free := rfl
@[simp] theorem State.setRec_next (s : State) (k : Nat) (d : Rec) : (s.setRec k d).next = s.next := rfl
@[simp] theorem State.setRec_agenda (s : State) (k : Nat) (d : Rec) : (s.setRec k d).agenda = s.agenda := rfl
@[simp] theorem State.setRec_input (s : State) (k : Nat) (d : Rec) : (s.setRec k d).input = s.input := rfl
@[simp] theorem State.setRec_served (s : State) (k : Nat) (d : Rec) : (s.setRec k d).served = s.served := rfl
@[simp] theorem State.setRec_bucketNo (s : State) (k : Nat) (d : Rec) : (s.setRec k d).bucketNo = s.bucketNo := rfl
@[simp] theorem State.setRec_cur (s : State) (k : Nat) (d : Rec) : (s.setRec k d).cur = s.cur := rfl
@[simp] theorem State.setRec_out (s : State) (k : Nat) (d : Rec) : (s.setRec k d).out = s.out := rfl
@[simp] theorem State.setRec_mgmt (s : State) (k : Nat) (d : Rec) : (s.setRec k d).mgmt = s.mgmt := rfl
@[simp] theorem State.setRec_dies (s : State) (k : Nat) (d : Rec) : (s.setRec k d).dies = s.dies := rfl
@[simp] theorem State.setRec_sramDown (s : State) (k : Nat) (d : Rec) : (s.setRec k d).sramDown = s.sramDown := rfl
@[simp] theorem State.setRec_modulesUp (s : State) (k : Nat) (d : Rec) : (s.setRec k d).modulesUp = s.modulesUp := rfl
@[simp] theorem State.setRec_stackDown (s : State) (k : Nat) (d : Rec) : (s.setRec k d).stackDown = s.stackDown := rfl
@[simp] theorem State.setRec_quads (s : State) (k : Nat) (d : Rec) : (s.setRec k d).quads = s.quads := rfl
@[simp] theorem State.setRec_ports (s : State) (k : Nat) (d : Rec) : (s.setRec k d).ports = s.ports := rfl
@[simp] theorem State.setRec_hostSent (s : State) (k : Nat) (d : Rec) : (s.setRec k d).hostSent = s.hostSent := rfl
@[simp] theorem State.setRec_hostSafe (s : State) (k : Nat) (d : Rec) : (s.setRec k d).hostSafe = s.hostSafe := rfl
@[simp] theorem State.setRec_posted (s : State) (k : Nat) (d : Rec) : (s.setRec k d).posted = s.posted := rfl
@[simp] theorem State.setRec_reads (s : State) (k : Nat) (d : Rec) : (s.setRec k d).reads = s.reads := rfl
@[simp] theorem State.setRec_peers (s : State) (k : Nat) (d : Rec) : (s.setRec k d).peers = s.peers := rfl
@[simp] theorem State.setRec_clovar (s : State) (k : Nat) (d : Rec) : (s.setRec k d).clovar = s.clovar := rfl
@[simp] theorem State.setRec_ctxs (s : State) (k : Nat) (d : Rec) : (s.setRec k d).ctxs = s.ctxs := rfl
@[simp] theorem State.setRec_mem (s : State) (k : Nat) (d : Rec) : (s.setRec k d).mem = s.mem := rfl
@[simp] theorem State.setRec_poison (s : State) (k : Nat) (d : Rec) : (s.setRec k d).poison = s.poison := rfl
@[simp] theorem State.setRec_dir (s : State) (k : Nat) (d : Rec) : (s.setRec k d).dir = s.dir := rfl
@[simp] theorem State.setRec_dirty (s : State) (k : Nat) (d : Rec) : (s.setRec k d).dirty = s.dirty := rfl
@[simp] theorem State.setRec_dirtyLines (s : State) (k : Nat) (d : Rec) : (s.setRec k d).dirtyLines = s.dirtyLines := rfl
@[simp] theorem State.setRec_ccache (s : State) (k : Nat) (d : Rec) : (s.setRec k d).ccache = s.ccache := rfl
@[simp] theorem State.setRec_icache (s : State) (k : Nat) (d : Rec) : (s.setRec k d).icache = s.icache := rfl
@[simp] theorem State.setRec_l2 (s : State) (k : Nat) (d : Rec) : (s.setRec k d).l2 = s.l2 := rfl
@[simp] theorem State.setRec_l2Uses (s : State) (k : Nat) (d : Rec) : (s.setRec k d).l2Uses = s.l2Uses := rfl
@[simp] theorem State.setRec_llcNew (s : State) (k : Nat) (d : Rec) : (s.setRec k d).llcNew = s.llcNew := rfl
@[simp] theorem State.setRec_pool (s : State) (k : Nat) (d : Rec) : (s.setRec k d).pool = s.pool := rfl
@[simp] theorem State.setRec_tlb (s : State) (k : Nat) (d : Rec) : (s.setRec k d).tlb = s.tlb := rfl
@[simp] theorem State.setRec_txns (s : State) (k : Nat) (d : Rec) : (s.setRec k d).txns = s.txns := rfl
@[simp] theorem State.setRec_teams (s : State) (k : Nat) (d : Rec) : (s.setRec k d).teams = s.teams := rfl
@[simp] theorem State.setRec_groups (s : State) (k : Nat) (d : Rec) : (s.setRec k d).groups = s.groups := rfl
@[simp] theorem State.setRec_bins (s : State) (k : Nat) (d : Rec) : (s.setRec k d).bins = s.bins := rfl
@[simp] theorem State.setRec_parkedSpawns (s : State) (k : Nat) (d : Rec) : (s.setRec k d).parkedSpawns = s.parkedSpawns := rfl
@[simp] theorem State.setRec_reserves (s : State) (k : Nat) (d : Rec) : (s.setRec k d).reserves = s.reserves := rfl
@[simp] theorem State.setRec_wokenRooms (s : State) (k : Nat) (d : Rec) : (s.setRec k d).wokenRooms = s.wokenRooms := rfl
@[simp] theorem State.setRec_wokenSpawns (s : State) (k : Nat) (d : Rec) : (s.setRec k d).wokenSpawns = s.wokenSpawns := rfl
@[simp] theorem State.setRec_spawns (s : State) (k : Nat) (d : Rec) : (s.setRec k d).spawns = s.spawns := rfl
@[simp] theorem State.setRec_decs (s : State) (k : Nat) (d : Rec) : (s.setRec k d).decs = s.decs := rfl
@[simp] theorem State.setRec_copies (s : State) (k : Nat) (d : Rec) : (s.setRec k d).copies = s.copies := rfl
@[simp] theorem State.setRec_mx (s : State) (k : Nat) (d : Rec) : (s.setRec k d).mx = s.mx := rfl
@[simp] theorem State.setRec_arrays (s : State) (k : Nat) (d : Rec) : (s.setRec k d).arrays = s.arrays := rfl
@[simp] theorem State.setRec_nbs (s : State) (k : Nat) (d : Rec) : (s.setRec k d).nbs = s.nbs := rfl
@[simp] theorem State.setRec_engBuf (s : State) (k : Nat) (d : Rec) : (s.setRec k d).engBuf = s.engBuf := rfl

@[simp] theorem State.setGroup_clk (s : State) (k : Nat) (d : Group) : (s.setGroup k d).clk = s.clk := rfl
@[simp] theorem State.setGroup_uptime (s : State) (k : Nat) (d : Group) : (s.setGroup k d).uptime = s.uptime := rfl
@[simp] theorem State.setGroup_free (s : State) (k : Nat) (d : Group) : (s.setGroup k d).free = s.free := rfl
@[simp] theorem State.setGroup_next (s : State) (k : Nat) (d : Group) : (s.setGroup k d).next = s.next := rfl
@[simp] theorem State.setGroup_agenda (s : State) (k : Nat) (d : Group) : (s.setGroup k d).agenda = s.agenda := rfl
@[simp] theorem State.setGroup_input (s : State) (k : Nat) (d : Group) : (s.setGroup k d).input = s.input := rfl
@[simp] theorem State.setGroup_served (s : State) (k : Nat) (d : Group) : (s.setGroup k d).served = s.served := rfl
@[simp] theorem State.setGroup_bucketNo (s : State) (k : Nat) (d : Group) : (s.setGroup k d).bucketNo = s.bucketNo := rfl
@[simp] theorem State.setGroup_cur (s : State) (k : Nat) (d : Group) : (s.setGroup k d).cur = s.cur := rfl
@[simp] theorem State.setGroup_out (s : State) (k : Nat) (d : Group) : (s.setGroup k d).out = s.out := rfl
@[simp] theorem State.setGroup_mgmt (s : State) (k : Nat) (d : Group) : (s.setGroup k d).mgmt = s.mgmt := rfl
@[simp] theorem State.setGroup_dies (s : State) (k : Nat) (d : Group) : (s.setGroup k d).dies = s.dies := rfl
@[simp] theorem State.setGroup_sramDown (s : State) (k : Nat) (d : Group) : (s.setGroup k d).sramDown = s.sramDown := rfl
@[simp] theorem State.setGroup_modulesUp (s : State) (k : Nat) (d : Group) : (s.setGroup k d).modulesUp = s.modulesUp := rfl
@[simp] theorem State.setGroup_stackDown (s : State) (k : Nat) (d : Group) : (s.setGroup k d).stackDown = s.stackDown := rfl
@[simp] theorem State.setGroup_quads (s : State) (k : Nat) (d : Group) : (s.setGroup k d).quads = s.quads := rfl
@[simp] theorem State.setGroup_ports (s : State) (k : Nat) (d : Group) : (s.setGroup k d).ports = s.ports := rfl
@[simp] theorem State.setGroup_hostSent (s : State) (k : Nat) (d : Group) : (s.setGroup k d).hostSent = s.hostSent := rfl
@[simp] theorem State.setGroup_hostSafe (s : State) (k : Nat) (d : Group) : (s.setGroup k d).hostSafe = s.hostSafe := rfl
@[simp] theorem State.setGroup_posted (s : State) (k : Nat) (d : Group) : (s.setGroup k d).posted = s.posted := rfl
@[simp] theorem State.setGroup_reads (s : State) (k : Nat) (d : Group) : (s.setGroup k d).reads = s.reads := rfl
@[simp] theorem State.setGroup_peers (s : State) (k : Nat) (d : Group) : (s.setGroup k d).peers = s.peers := rfl
@[simp] theorem State.setGroup_clovar (s : State) (k : Nat) (d : Group) : (s.setGroup k d).clovar = s.clovar := rfl
@[simp] theorem State.setGroup_ctxs (s : State) (k : Nat) (d : Group) : (s.setGroup k d).ctxs = s.ctxs := rfl
@[simp] theorem State.setGroup_recs (s : State) (k : Nat) (d : Group) : (s.setGroup k d).recs = s.recs := rfl
@[simp] theorem State.setGroup_mem (s : State) (k : Nat) (d : Group) : (s.setGroup k d).mem = s.mem := rfl
@[simp] theorem State.setGroup_poison (s : State) (k : Nat) (d : Group) : (s.setGroup k d).poison = s.poison := rfl
@[simp] theorem State.setGroup_dir (s : State) (k : Nat) (d : Group) : (s.setGroup k d).dir = s.dir := rfl
@[simp] theorem State.setGroup_dirty (s : State) (k : Nat) (d : Group) : (s.setGroup k d).dirty = s.dirty := rfl
@[simp] theorem State.setGroup_dirtyLines (s : State) (k : Nat) (d : Group) : (s.setGroup k d).dirtyLines = s.dirtyLines := rfl
@[simp] theorem State.setGroup_ccache (s : State) (k : Nat) (d : Group) : (s.setGroup k d).ccache = s.ccache := rfl
@[simp] theorem State.setGroup_icache (s : State) (k : Nat) (d : Group) : (s.setGroup k d).icache = s.icache := rfl
@[simp] theorem State.setGroup_l2 (s : State) (k : Nat) (d : Group) : (s.setGroup k d).l2 = s.l2 := rfl
@[simp] theorem State.setGroup_l2Uses (s : State) (k : Nat) (d : Group) : (s.setGroup k d).l2Uses = s.l2Uses := rfl
@[simp] theorem State.setGroup_llcNew (s : State) (k : Nat) (d : Group) : (s.setGroup k d).llcNew = s.llcNew := rfl
@[simp] theorem State.setGroup_pool (s : State) (k : Nat) (d : Group) : (s.setGroup k d).pool = s.pool := rfl
@[simp] theorem State.setGroup_tlb (s : State) (k : Nat) (d : Group) : (s.setGroup k d).tlb = s.tlb := rfl
@[simp] theorem State.setGroup_txns (s : State) (k : Nat) (d : Group) : (s.setGroup k d).txns = s.txns := rfl
@[simp] theorem State.setGroup_teams (s : State) (k : Nat) (d : Group) : (s.setGroup k d).teams = s.teams := rfl
@[simp] theorem State.setGroup_bins (s : State) (k : Nat) (d : Group) : (s.setGroup k d).bins = s.bins := rfl
@[simp] theorem State.setGroup_parkedSpawns (s : State) (k : Nat) (d : Group) : (s.setGroup k d).parkedSpawns = s.parkedSpawns := rfl
@[simp] theorem State.setGroup_reserves (s : State) (k : Nat) (d : Group) : (s.setGroup k d).reserves = s.reserves := rfl
@[simp] theorem State.setGroup_wokenRooms (s : State) (k : Nat) (d : Group) : (s.setGroup k d).wokenRooms = s.wokenRooms := rfl
@[simp] theorem State.setGroup_wokenSpawns (s : State) (k : Nat) (d : Group) : (s.setGroup k d).wokenSpawns = s.wokenSpawns := rfl
@[simp] theorem State.setGroup_spawns (s : State) (k : Nat) (d : Group) : (s.setGroup k d).spawns = s.spawns := rfl
@[simp] theorem State.setGroup_decs (s : State) (k : Nat) (d : Group) : (s.setGroup k d).decs = s.decs := rfl
@[simp] theorem State.setGroup_copies (s : State) (k : Nat) (d : Group) : (s.setGroup k d).copies = s.copies := rfl
@[simp] theorem State.setGroup_mx (s : State) (k : Nat) (d : Group) : (s.setGroup k d).mx = s.mx := rfl
@[simp] theorem State.setGroup_arrays (s : State) (k : Nat) (d : Group) : (s.setGroup k d).arrays = s.arrays := rfl
@[simp] theorem State.setGroup_nbs (s : State) (k : Nat) (d : Group) : (s.setGroup k d).nbs = s.nbs := rfl
@[simp] theorem State.setGroup_engBuf (s : State) (k : Nat) (d : Group) : (s.setGroup k d).engBuf = s.engBuf := rfl

@[simp] theorem State.delGroup_clk (s : State) (k : Nat) : (s.delGroup k).clk = s.clk := rfl
@[simp] theorem State.delGroup_uptime (s : State) (k : Nat) : (s.delGroup k).uptime = s.uptime := rfl
@[simp] theorem State.delGroup_free (s : State) (k : Nat) : (s.delGroup k).free = s.free := rfl
@[simp] theorem State.delGroup_next (s : State) (k : Nat) : (s.delGroup k).next = s.next := rfl
@[simp] theorem State.delGroup_agenda (s : State) (k : Nat) : (s.delGroup k).agenda = s.agenda := rfl
@[simp] theorem State.delGroup_input (s : State) (k : Nat) : (s.delGroup k).input = s.input := rfl
@[simp] theorem State.delGroup_served (s : State) (k : Nat) : (s.delGroup k).served = s.served := rfl
@[simp] theorem State.delGroup_bucketNo (s : State) (k : Nat) : (s.delGroup k).bucketNo = s.bucketNo := rfl
@[simp] theorem State.delGroup_cur (s : State) (k : Nat) : (s.delGroup k).cur = s.cur := rfl
@[simp] theorem State.delGroup_out (s : State) (k : Nat) : (s.delGroup k).out = s.out := rfl
@[simp] theorem State.delGroup_mgmt (s : State) (k : Nat) : (s.delGroup k).mgmt = s.mgmt := rfl
@[simp] theorem State.delGroup_dies (s : State) (k : Nat) : (s.delGroup k).dies = s.dies := rfl
@[simp] theorem State.delGroup_sramDown (s : State) (k : Nat) : (s.delGroup k).sramDown = s.sramDown := rfl
@[simp] theorem State.delGroup_modulesUp (s : State) (k : Nat) : (s.delGroup k).modulesUp = s.modulesUp := rfl
@[simp] theorem State.delGroup_stackDown (s : State) (k : Nat) : (s.delGroup k).stackDown = s.stackDown := rfl
@[simp] theorem State.delGroup_quads (s : State) (k : Nat) : (s.delGroup k).quads = s.quads := rfl
@[simp] theorem State.delGroup_ports (s : State) (k : Nat) : (s.delGroup k).ports = s.ports := rfl
@[simp] theorem State.delGroup_hostSent (s : State) (k : Nat) : (s.delGroup k).hostSent = s.hostSent := rfl
@[simp] theorem State.delGroup_hostSafe (s : State) (k : Nat) : (s.delGroup k).hostSafe = s.hostSafe := rfl
@[simp] theorem State.delGroup_posted (s : State) (k : Nat) : (s.delGroup k).posted = s.posted := rfl
@[simp] theorem State.delGroup_reads (s : State) (k : Nat) : (s.delGroup k).reads = s.reads := rfl
@[simp] theorem State.delGroup_peers (s : State) (k : Nat) : (s.delGroup k).peers = s.peers := rfl
@[simp] theorem State.delGroup_clovar (s : State) (k : Nat) : (s.delGroup k).clovar = s.clovar := rfl
@[simp] theorem State.delGroup_ctxs (s : State) (k : Nat) : (s.delGroup k).ctxs = s.ctxs := rfl
@[simp] theorem State.delGroup_recs (s : State) (k : Nat) : (s.delGroup k).recs = s.recs := rfl
@[simp] theorem State.delGroup_mem (s : State) (k : Nat) : (s.delGroup k).mem = s.mem := rfl
@[simp] theorem State.delGroup_poison (s : State) (k : Nat) : (s.delGroup k).poison = s.poison := rfl
@[simp] theorem State.delGroup_dir (s : State) (k : Nat) : (s.delGroup k).dir = s.dir := rfl
@[simp] theorem State.delGroup_dirty (s : State) (k : Nat) : (s.delGroup k).dirty = s.dirty := rfl
@[simp] theorem State.delGroup_dirtyLines (s : State) (k : Nat) : (s.delGroup k).dirtyLines = s.dirtyLines := rfl
@[simp] theorem State.delGroup_ccache (s : State) (k : Nat) : (s.delGroup k).ccache = s.ccache := rfl
@[simp] theorem State.delGroup_icache (s : State) (k : Nat) : (s.delGroup k).icache = s.icache := rfl
@[simp] theorem State.delGroup_l2 (s : State) (k : Nat) : (s.delGroup k).l2 = s.l2 := rfl
@[simp] theorem State.delGroup_l2Uses (s : State) (k : Nat) : (s.delGroup k).l2Uses = s.l2Uses := rfl
@[simp] theorem State.delGroup_llcNew (s : State) (k : Nat) : (s.delGroup k).llcNew = s.llcNew := rfl
@[simp] theorem State.delGroup_pool (s : State) (k : Nat) : (s.delGroup k).pool = s.pool := rfl
@[simp] theorem State.delGroup_tlb (s : State) (k : Nat) : (s.delGroup k).tlb = s.tlb := rfl
@[simp] theorem State.delGroup_txns (s : State) (k : Nat) : (s.delGroup k).txns = s.txns := rfl
@[simp] theorem State.delGroup_teams (s : State) (k : Nat) : (s.delGroup k).teams = s.teams := rfl
@[simp] theorem State.delGroup_bins (s : State) (k : Nat) : (s.delGroup k).bins = s.bins := rfl
@[simp] theorem State.delGroup_parkedSpawns (s : State) (k : Nat) : (s.delGroup k).parkedSpawns = s.parkedSpawns := rfl
@[simp] theorem State.delGroup_reserves (s : State) (k : Nat) : (s.delGroup k).reserves = s.reserves := rfl
@[simp] theorem State.delGroup_wokenRooms (s : State) (k : Nat) : (s.delGroup k).wokenRooms = s.wokenRooms := rfl
@[simp] theorem State.delGroup_wokenSpawns (s : State) (k : Nat) : (s.delGroup k).wokenSpawns = s.wokenSpawns := rfl
@[simp] theorem State.delGroup_spawns (s : State) (k : Nat) : (s.delGroup k).spawns = s.spawns := rfl
@[simp] theorem State.delGroup_decs (s : State) (k : Nat) : (s.delGroup k).decs = s.decs := rfl
@[simp] theorem State.delGroup_copies (s : State) (k : Nat) : (s.delGroup k).copies = s.copies := rfl
@[simp] theorem State.delGroup_mx (s : State) (k : Nat) : (s.delGroup k).mx = s.mx := rfl
@[simp] theorem State.delGroup_arrays (s : State) (k : Nat) : (s.delGroup k).arrays = s.arrays := rfl
@[simp] theorem State.delGroup_nbs (s : State) (k : Nat) : (s.delGroup k).nbs = s.nbs := rfl
@[simp] theorem State.delGroup_engBuf (s : State) (k : Nat) : (s.delGroup k).engBuf = s.engBuf := rfl

@[simp] theorem State.setTeam_clk (s : State) (k : Nat) (d : Team) : (s.setTeam k d).clk = s.clk := rfl
@[simp] theorem State.setTeam_uptime (s : State) (k : Nat) (d : Team) : (s.setTeam k d).uptime = s.uptime := rfl
@[simp] theorem State.setTeam_free (s : State) (k : Nat) (d : Team) : (s.setTeam k d).free = s.free := rfl
@[simp] theorem State.setTeam_next (s : State) (k : Nat) (d : Team) : (s.setTeam k d).next = s.next := rfl
@[simp] theorem State.setTeam_agenda (s : State) (k : Nat) (d : Team) : (s.setTeam k d).agenda = s.agenda := rfl
@[simp] theorem State.setTeam_input (s : State) (k : Nat) (d : Team) : (s.setTeam k d).input = s.input := rfl
@[simp] theorem State.setTeam_served (s : State) (k : Nat) (d : Team) : (s.setTeam k d).served = s.served := rfl
@[simp] theorem State.setTeam_bucketNo (s : State) (k : Nat) (d : Team) : (s.setTeam k d).bucketNo = s.bucketNo := rfl
@[simp] theorem State.setTeam_cur (s : State) (k : Nat) (d : Team) : (s.setTeam k d).cur = s.cur := rfl
@[simp] theorem State.setTeam_out (s : State) (k : Nat) (d : Team) : (s.setTeam k d).out = s.out := rfl
@[simp] theorem State.setTeam_mgmt (s : State) (k : Nat) (d : Team) : (s.setTeam k d).mgmt = s.mgmt := rfl
@[simp] theorem State.setTeam_dies (s : State) (k : Nat) (d : Team) : (s.setTeam k d).dies = s.dies := rfl
@[simp] theorem State.setTeam_sramDown (s : State) (k : Nat) (d : Team) : (s.setTeam k d).sramDown = s.sramDown := rfl
@[simp] theorem State.setTeam_modulesUp (s : State) (k : Nat) (d : Team) : (s.setTeam k d).modulesUp = s.modulesUp := rfl
@[simp] theorem State.setTeam_stackDown (s : State) (k : Nat) (d : Team) : (s.setTeam k d).stackDown = s.stackDown := rfl
@[simp] theorem State.setTeam_quads (s : State) (k : Nat) (d : Team) : (s.setTeam k d).quads = s.quads := rfl
@[simp] theorem State.setTeam_ports (s : State) (k : Nat) (d : Team) : (s.setTeam k d).ports = s.ports := rfl
@[simp] theorem State.setTeam_hostSent (s : State) (k : Nat) (d : Team) : (s.setTeam k d).hostSent = s.hostSent := rfl
@[simp] theorem State.setTeam_hostSafe (s : State) (k : Nat) (d : Team) : (s.setTeam k d).hostSafe = s.hostSafe := rfl
@[simp] theorem State.setTeam_posted (s : State) (k : Nat) (d : Team) : (s.setTeam k d).posted = s.posted := rfl
@[simp] theorem State.setTeam_reads (s : State) (k : Nat) (d : Team) : (s.setTeam k d).reads = s.reads := rfl
@[simp] theorem State.setTeam_peers (s : State) (k : Nat) (d : Team) : (s.setTeam k d).peers = s.peers := rfl
@[simp] theorem State.setTeam_clovar (s : State) (k : Nat) (d : Team) : (s.setTeam k d).clovar = s.clovar := rfl
@[simp] theorem State.setTeam_ctxs (s : State) (k : Nat) (d : Team) : (s.setTeam k d).ctxs = s.ctxs := rfl
@[simp] theorem State.setTeam_recs (s : State) (k : Nat) (d : Team) : (s.setTeam k d).recs = s.recs := rfl
@[simp] theorem State.setTeam_mem (s : State) (k : Nat) (d : Team) : (s.setTeam k d).mem = s.mem := rfl
@[simp] theorem State.setTeam_poison (s : State) (k : Nat) (d : Team) : (s.setTeam k d).poison = s.poison := rfl
@[simp] theorem State.setTeam_dir (s : State) (k : Nat) (d : Team) : (s.setTeam k d).dir = s.dir := rfl
@[simp] theorem State.setTeam_dirty (s : State) (k : Nat) (d : Team) : (s.setTeam k d).dirty = s.dirty := rfl
@[simp] theorem State.setTeam_dirtyLines (s : State) (k : Nat) (d : Team) : (s.setTeam k d).dirtyLines = s.dirtyLines := rfl
@[simp] theorem State.setTeam_ccache (s : State) (k : Nat) (d : Team) : (s.setTeam k d).ccache = s.ccache := rfl
@[simp] theorem State.setTeam_icache (s : State) (k : Nat) (d : Team) : (s.setTeam k d).icache = s.icache := rfl
@[simp] theorem State.setTeam_l2 (s : State) (k : Nat) (d : Team) : (s.setTeam k d).l2 = s.l2 := rfl
@[simp] theorem State.setTeam_l2Uses (s : State) (k : Nat) (d : Team) : (s.setTeam k d).l2Uses = s.l2Uses := rfl
@[simp] theorem State.setTeam_llcNew (s : State) (k : Nat) (d : Team) : (s.setTeam k d).llcNew = s.llcNew := rfl
@[simp] theorem State.setTeam_pool (s : State) (k : Nat) (d : Team) : (s.setTeam k d).pool = s.pool := rfl
@[simp] theorem State.setTeam_tlb (s : State) (k : Nat) (d : Team) : (s.setTeam k d).tlb = s.tlb := rfl
@[simp] theorem State.setTeam_txns (s : State) (k : Nat) (d : Team) : (s.setTeam k d).txns = s.txns := rfl
@[simp] theorem State.setTeam_groups (s : State) (k : Nat) (d : Team) : (s.setTeam k d).groups = s.groups := rfl
@[simp] theorem State.setTeam_bins (s : State) (k : Nat) (d : Team) : (s.setTeam k d).bins = s.bins := rfl
@[simp] theorem State.setTeam_parkedSpawns (s : State) (k : Nat) (d : Team) : (s.setTeam k d).parkedSpawns = s.parkedSpawns := rfl
@[simp] theorem State.setTeam_reserves (s : State) (k : Nat) (d : Team) : (s.setTeam k d).reserves = s.reserves := rfl
@[simp] theorem State.setTeam_wokenRooms (s : State) (k : Nat) (d : Team) : (s.setTeam k d).wokenRooms = s.wokenRooms := rfl
@[simp] theorem State.setTeam_wokenSpawns (s : State) (k : Nat) (d : Team) : (s.setTeam k d).wokenSpawns = s.wokenSpawns := rfl
@[simp] theorem State.setTeam_spawns (s : State) (k : Nat) (d : Team) : (s.setTeam k d).spawns = s.spawns := rfl
@[simp] theorem State.setTeam_decs (s : State) (k : Nat) (d : Team) : (s.setTeam k d).decs = s.decs := rfl
@[simp] theorem State.setTeam_copies (s : State) (k : Nat) (d : Team) : (s.setTeam k d).copies = s.copies := rfl
@[simp] theorem State.setTeam_mx (s : State) (k : Nat) (d : Team) : (s.setTeam k d).mx = s.mx := rfl
@[simp] theorem State.setTeam_arrays (s : State) (k : Nat) (d : Team) : (s.setTeam k d).arrays = s.arrays := rfl
@[simp] theorem State.setTeam_nbs (s : State) (k : Nat) (d : Team) : (s.setTeam k d).nbs = s.nbs := rfl
@[simp] theorem State.setTeam_engBuf (s : State) (k : Nat) (d : Team) : (s.setTeam k d).engBuf = s.engBuf := rfl

@[simp] theorem State.delTeam_clk (s : State) (k : Nat) : (s.delTeam k).clk = s.clk := rfl
@[simp] theorem State.delTeam_uptime (s : State) (k : Nat) : (s.delTeam k).uptime = s.uptime := rfl
@[simp] theorem State.delTeam_free (s : State) (k : Nat) : (s.delTeam k).free = s.free := rfl
@[simp] theorem State.delTeam_next (s : State) (k : Nat) : (s.delTeam k).next = s.next := rfl
@[simp] theorem State.delTeam_agenda (s : State) (k : Nat) : (s.delTeam k).agenda = s.agenda := rfl
@[simp] theorem State.delTeam_input (s : State) (k : Nat) : (s.delTeam k).input = s.input := rfl
@[simp] theorem State.delTeam_served (s : State) (k : Nat) : (s.delTeam k).served = s.served := rfl
@[simp] theorem State.delTeam_bucketNo (s : State) (k : Nat) : (s.delTeam k).bucketNo = s.bucketNo := rfl
@[simp] theorem State.delTeam_cur (s : State) (k : Nat) : (s.delTeam k).cur = s.cur := rfl
@[simp] theorem State.delTeam_out (s : State) (k : Nat) : (s.delTeam k).out = s.out := rfl
@[simp] theorem State.delTeam_mgmt (s : State) (k : Nat) : (s.delTeam k).mgmt = s.mgmt := rfl
@[simp] theorem State.delTeam_dies (s : State) (k : Nat) : (s.delTeam k).dies = s.dies := rfl
@[simp] theorem State.delTeam_sramDown (s : State) (k : Nat) : (s.delTeam k).sramDown = s.sramDown := rfl
@[simp] theorem State.delTeam_modulesUp (s : State) (k : Nat) : (s.delTeam k).modulesUp = s.modulesUp := rfl
@[simp] theorem State.delTeam_stackDown (s : State) (k : Nat) : (s.delTeam k).stackDown = s.stackDown := rfl
@[simp] theorem State.delTeam_quads (s : State) (k : Nat) : (s.delTeam k).quads = s.quads := rfl
@[simp] theorem State.delTeam_ports (s : State) (k : Nat) : (s.delTeam k).ports = s.ports := rfl
@[simp] theorem State.delTeam_hostSent (s : State) (k : Nat) : (s.delTeam k).hostSent = s.hostSent := rfl
@[simp] theorem State.delTeam_hostSafe (s : State) (k : Nat) : (s.delTeam k).hostSafe = s.hostSafe := rfl
@[simp] theorem State.delTeam_posted (s : State) (k : Nat) : (s.delTeam k).posted = s.posted := rfl
@[simp] theorem State.delTeam_reads (s : State) (k : Nat) : (s.delTeam k).reads = s.reads := rfl
@[simp] theorem State.delTeam_peers (s : State) (k : Nat) : (s.delTeam k).peers = s.peers := rfl
@[simp] theorem State.delTeam_clovar (s : State) (k : Nat) : (s.delTeam k).clovar = s.clovar := rfl
@[simp] theorem State.delTeam_ctxs (s : State) (k : Nat) : (s.delTeam k).ctxs = s.ctxs := rfl
@[simp] theorem State.delTeam_recs (s : State) (k : Nat) : (s.delTeam k).recs = s.recs := rfl
@[simp] theorem State.delTeam_mem (s : State) (k : Nat) : (s.delTeam k).mem = s.mem := rfl
@[simp] theorem State.delTeam_poison (s : State) (k : Nat) : (s.delTeam k).poison = s.poison := rfl
@[simp] theorem State.delTeam_dir (s : State) (k : Nat) : (s.delTeam k).dir = s.dir := rfl
@[simp] theorem State.delTeam_dirty (s : State) (k : Nat) : (s.delTeam k).dirty = s.dirty := rfl
@[simp] theorem State.delTeam_dirtyLines (s : State) (k : Nat) : (s.delTeam k).dirtyLines = s.dirtyLines := rfl
@[simp] theorem State.delTeam_ccache (s : State) (k : Nat) : (s.delTeam k).ccache = s.ccache := rfl
@[simp] theorem State.delTeam_icache (s : State) (k : Nat) : (s.delTeam k).icache = s.icache := rfl
@[simp] theorem State.delTeam_l2 (s : State) (k : Nat) : (s.delTeam k).l2 = s.l2 := rfl
@[simp] theorem State.delTeam_l2Uses (s : State) (k : Nat) : (s.delTeam k).l2Uses = s.l2Uses := rfl
@[simp] theorem State.delTeam_llcNew (s : State) (k : Nat) : (s.delTeam k).llcNew = s.llcNew := rfl
@[simp] theorem State.delTeam_pool (s : State) (k : Nat) : (s.delTeam k).pool = s.pool := rfl
@[simp] theorem State.delTeam_tlb (s : State) (k : Nat) : (s.delTeam k).tlb = s.tlb := rfl
@[simp] theorem State.delTeam_txns (s : State) (k : Nat) : (s.delTeam k).txns = s.txns := rfl
@[simp] theorem State.delTeam_groups (s : State) (k : Nat) : (s.delTeam k).groups = s.groups := rfl
@[simp] theorem State.delTeam_bins (s : State) (k : Nat) : (s.delTeam k).bins = s.bins := rfl
@[simp] theorem State.delTeam_parkedSpawns (s : State) (k : Nat) : (s.delTeam k).parkedSpawns = s.parkedSpawns := rfl
@[simp] theorem State.delTeam_reserves (s : State) (k : Nat) : (s.delTeam k).reserves = s.reserves := rfl
@[simp] theorem State.delTeam_wokenRooms (s : State) (k : Nat) : (s.delTeam k).wokenRooms = s.wokenRooms := rfl
@[simp] theorem State.delTeam_wokenSpawns (s : State) (k : Nat) : (s.delTeam k).wokenSpawns = s.wokenSpawns := rfl
@[simp] theorem State.delTeam_spawns (s : State) (k : Nat) : (s.delTeam k).spawns = s.spawns := rfl
@[simp] theorem State.delTeam_decs (s : State) (k : Nat) : (s.delTeam k).decs = s.decs := rfl
@[simp] theorem State.delTeam_copies (s : State) (k : Nat) : (s.delTeam k).copies = s.copies := rfl
@[simp] theorem State.delTeam_mx (s : State) (k : Nat) : (s.delTeam k).mx = s.mx := rfl
@[simp] theorem State.delTeam_arrays (s : State) (k : Nat) : (s.delTeam k).arrays = s.arrays := rfl
@[simp] theorem State.delTeam_nbs (s : State) (k : Nat) : (s.delTeam k).nbs = s.nbs := rfl
@[simp] theorem State.delTeam_engBuf (s : State) (k : Nat) : (s.delTeam k).engBuf = s.engBuf := rfl

@[simp] theorem State.setTxn_clk (s : State) (k : Nat) (d : Option Txn) : (s.setTxn k d).clk = s.clk := rfl
@[simp] theorem State.setTxn_uptime (s : State) (k : Nat) (d : Option Txn) : (s.setTxn k d).uptime = s.uptime := rfl
@[simp] theorem State.setTxn_free (s : State) (k : Nat) (d : Option Txn) : (s.setTxn k d).free = s.free := rfl
@[simp] theorem State.setTxn_next (s : State) (k : Nat) (d : Option Txn) : (s.setTxn k d).next = s.next := rfl
@[simp] theorem State.setTxn_agenda (s : State) (k : Nat) (d : Option Txn) : (s.setTxn k d).agenda = s.agenda := rfl
@[simp] theorem State.setTxn_input (s : State) (k : Nat) (d : Option Txn) : (s.setTxn k d).input = s.input := rfl
@[simp] theorem State.setTxn_served (s : State) (k : Nat) (d : Option Txn) : (s.setTxn k d).served = s.served := rfl
@[simp] theorem State.setTxn_bucketNo (s : State) (k : Nat) (d : Option Txn) : (s.setTxn k d).bucketNo = s.bucketNo := rfl
@[simp] theorem State.setTxn_cur (s : State) (k : Nat) (d : Option Txn) : (s.setTxn k d).cur = s.cur := rfl
@[simp] theorem State.setTxn_out (s : State) (k : Nat) (d : Option Txn) : (s.setTxn k d).out = s.out := rfl
@[simp] theorem State.setTxn_mgmt (s : State) (k : Nat) (d : Option Txn) : (s.setTxn k d).mgmt = s.mgmt := rfl
@[simp] theorem State.setTxn_dies (s : State) (k : Nat) (d : Option Txn) : (s.setTxn k d).dies = s.dies := rfl
@[simp] theorem State.setTxn_sramDown (s : State) (k : Nat) (d : Option Txn) : (s.setTxn k d).sramDown = s.sramDown := rfl
@[simp] theorem State.setTxn_modulesUp (s : State) (k : Nat) (d : Option Txn) : (s.setTxn k d).modulesUp = s.modulesUp := rfl
@[simp] theorem State.setTxn_stackDown (s : State) (k : Nat) (d : Option Txn) : (s.setTxn k d).stackDown = s.stackDown := rfl
@[simp] theorem State.setTxn_quads (s : State) (k : Nat) (d : Option Txn) : (s.setTxn k d).quads = s.quads := rfl
@[simp] theorem State.setTxn_ports (s : State) (k : Nat) (d : Option Txn) : (s.setTxn k d).ports = s.ports := rfl
@[simp] theorem State.setTxn_hostSent (s : State) (k : Nat) (d : Option Txn) : (s.setTxn k d).hostSent = s.hostSent := rfl
@[simp] theorem State.setTxn_hostSafe (s : State) (k : Nat) (d : Option Txn) : (s.setTxn k d).hostSafe = s.hostSafe := rfl
@[simp] theorem State.setTxn_posted (s : State) (k : Nat) (d : Option Txn) : (s.setTxn k d).posted = s.posted := rfl
@[simp] theorem State.setTxn_reads (s : State) (k : Nat) (d : Option Txn) : (s.setTxn k d).reads = s.reads := rfl
@[simp] theorem State.setTxn_peers (s : State) (k : Nat) (d : Option Txn) : (s.setTxn k d).peers = s.peers := rfl
@[simp] theorem State.setTxn_clovar (s : State) (k : Nat) (d : Option Txn) : (s.setTxn k d).clovar = s.clovar := rfl
@[simp] theorem State.setTxn_ctxs (s : State) (k : Nat) (d : Option Txn) : (s.setTxn k d).ctxs = s.ctxs := rfl
@[simp] theorem State.setTxn_recs (s : State) (k : Nat) (d : Option Txn) : (s.setTxn k d).recs = s.recs := rfl
@[simp] theorem State.setTxn_mem (s : State) (k : Nat) (d : Option Txn) : (s.setTxn k d).mem = s.mem := rfl
@[simp] theorem State.setTxn_poison (s : State) (k : Nat) (d : Option Txn) : (s.setTxn k d).poison = s.poison := rfl
@[simp] theorem State.setTxn_dir (s : State) (k : Nat) (d : Option Txn) : (s.setTxn k d).dir = s.dir := rfl
@[simp] theorem State.setTxn_dirty (s : State) (k : Nat) (d : Option Txn) : (s.setTxn k d).dirty = s.dirty := rfl
@[simp] theorem State.setTxn_dirtyLines (s : State) (k : Nat) (d : Option Txn) : (s.setTxn k d).dirtyLines = s.dirtyLines := rfl
@[simp] theorem State.setTxn_ccache (s : State) (k : Nat) (d : Option Txn) : (s.setTxn k d).ccache = s.ccache := rfl
@[simp] theorem State.setTxn_icache (s : State) (k : Nat) (d : Option Txn) : (s.setTxn k d).icache = s.icache := rfl
@[simp] theorem State.setTxn_l2 (s : State) (k : Nat) (d : Option Txn) : (s.setTxn k d).l2 = s.l2 := rfl
@[simp] theorem State.setTxn_l2Uses (s : State) (k : Nat) (d : Option Txn) : (s.setTxn k d).l2Uses = s.l2Uses := rfl
@[simp] theorem State.setTxn_llcNew (s : State) (k : Nat) (d : Option Txn) : (s.setTxn k d).llcNew = s.llcNew := rfl
@[simp] theorem State.setTxn_pool (s : State) (k : Nat) (d : Option Txn) : (s.setTxn k d).pool = s.pool := rfl
@[simp] theorem State.setTxn_tlb (s : State) (k : Nat) (d : Option Txn) : (s.setTxn k d).tlb = s.tlb := rfl
@[simp] theorem State.setTxn_teams (s : State) (k : Nat) (d : Option Txn) : (s.setTxn k d).teams = s.teams := rfl
@[simp] theorem State.setTxn_groups (s : State) (k : Nat) (d : Option Txn) : (s.setTxn k d).groups = s.groups := rfl
@[simp] theorem State.setTxn_bins (s : State) (k : Nat) (d : Option Txn) : (s.setTxn k d).bins = s.bins := rfl
@[simp] theorem State.setTxn_parkedSpawns (s : State) (k : Nat) (d : Option Txn) : (s.setTxn k d).parkedSpawns = s.parkedSpawns := rfl
@[simp] theorem State.setTxn_reserves (s : State) (k : Nat) (d : Option Txn) : (s.setTxn k d).reserves = s.reserves := rfl
@[simp] theorem State.setTxn_wokenRooms (s : State) (k : Nat) (d : Option Txn) : (s.setTxn k d).wokenRooms = s.wokenRooms := rfl
@[simp] theorem State.setTxn_wokenSpawns (s : State) (k : Nat) (d : Option Txn) : (s.setTxn k d).wokenSpawns = s.wokenSpawns := rfl
@[simp] theorem State.setTxn_spawns (s : State) (k : Nat) (d : Option Txn) : (s.setTxn k d).spawns = s.spawns := rfl
@[simp] theorem State.setTxn_decs (s : State) (k : Nat) (d : Option Txn) : (s.setTxn k d).decs = s.decs := rfl
@[simp] theorem State.setTxn_copies (s : State) (k : Nat) (d : Option Txn) : (s.setTxn k d).copies = s.copies := rfl
@[simp] theorem State.setTxn_mx (s : State) (k : Nat) (d : Option Txn) : (s.setTxn k d).mx = s.mx := rfl
@[simp] theorem State.setTxn_arrays (s : State) (k : Nat) (d : Option Txn) : (s.setTxn k d).arrays = s.arrays := rfl
@[simp] theorem State.setTxn_nbs (s : State) (k : Nat) (d : Option Txn) : (s.setTxn k d).nbs = s.nbs := rfl
@[simp] theorem State.setTxn_engBuf (s : State) (k : Nat) (d : Option Txn) : (s.setTxn k d).engBuf = s.engBuf := rfl

@[simp] theorem State.setArray_clk (s : State) (k : Nat) (d : SxArray) : (s.setArray k d).clk = s.clk := rfl
@[simp] theorem State.setArray_uptime (s : State) (k : Nat) (d : SxArray) : (s.setArray k d).uptime = s.uptime := rfl
@[simp] theorem State.setArray_free (s : State) (k : Nat) (d : SxArray) : (s.setArray k d).free = s.free := rfl
@[simp] theorem State.setArray_next (s : State) (k : Nat) (d : SxArray) : (s.setArray k d).next = s.next := rfl
@[simp] theorem State.setArray_agenda (s : State) (k : Nat) (d : SxArray) : (s.setArray k d).agenda = s.agenda := rfl
@[simp] theorem State.setArray_input (s : State) (k : Nat) (d : SxArray) : (s.setArray k d).input = s.input := rfl
@[simp] theorem State.setArray_served (s : State) (k : Nat) (d : SxArray) : (s.setArray k d).served = s.served := rfl
@[simp] theorem State.setArray_bucketNo (s : State) (k : Nat) (d : SxArray) : (s.setArray k d).bucketNo = s.bucketNo := rfl
@[simp] theorem State.setArray_cur (s : State) (k : Nat) (d : SxArray) : (s.setArray k d).cur = s.cur := rfl
@[simp] theorem State.setArray_out (s : State) (k : Nat) (d : SxArray) : (s.setArray k d).out = s.out := rfl
@[simp] theorem State.setArray_mgmt (s : State) (k : Nat) (d : SxArray) : (s.setArray k d).mgmt = s.mgmt := rfl
@[simp] theorem State.setArray_dies (s : State) (k : Nat) (d : SxArray) : (s.setArray k d).dies = s.dies := rfl
@[simp] theorem State.setArray_sramDown (s : State) (k : Nat) (d : SxArray) : (s.setArray k d).sramDown = s.sramDown := rfl
@[simp] theorem State.setArray_modulesUp (s : State) (k : Nat) (d : SxArray) : (s.setArray k d).modulesUp = s.modulesUp := rfl
@[simp] theorem State.setArray_stackDown (s : State) (k : Nat) (d : SxArray) : (s.setArray k d).stackDown = s.stackDown := rfl
@[simp] theorem State.setArray_quads (s : State) (k : Nat) (d : SxArray) : (s.setArray k d).quads = s.quads := rfl
@[simp] theorem State.setArray_ports (s : State) (k : Nat) (d : SxArray) : (s.setArray k d).ports = s.ports := rfl
@[simp] theorem State.setArray_hostSent (s : State) (k : Nat) (d : SxArray) : (s.setArray k d).hostSent = s.hostSent := rfl
@[simp] theorem State.setArray_hostSafe (s : State) (k : Nat) (d : SxArray) : (s.setArray k d).hostSafe = s.hostSafe := rfl
@[simp] theorem State.setArray_posted (s : State) (k : Nat) (d : SxArray) : (s.setArray k d).posted = s.posted := rfl
@[simp] theorem State.setArray_reads (s : State) (k : Nat) (d : SxArray) : (s.setArray k d).reads = s.reads := rfl
@[simp] theorem State.setArray_peers (s : State) (k : Nat) (d : SxArray) : (s.setArray k d).peers = s.peers := rfl
@[simp] theorem State.setArray_clovar (s : State) (k : Nat) (d : SxArray) : (s.setArray k d).clovar = s.clovar := rfl
@[simp] theorem State.setArray_ctxs (s : State) (k : Nat) (d : SxArray) : (s.setArray k d).ctxs = s.ctxs := rfl
@[simp] theorem State.setArray_recs (s : State) (k : Nat) (d : SxArray) : (s.setArray k d).recs = s.recs := rfl
@[simp] theorem State.setArray_mem (s : State) (k : Nat) (d : SxArray) : (s.setArray k d).mem = s.mem := rfl
@[simp] theorem State.setArray_poison (s : State) (k : Nat) (d : SxArray) : (s.setArray k d).poison = s.poison := rfl
@[simp] theorem State.setArray_dir (s : State) (k : Nat) (d : SxArray) : (s.setArray k d).dir = s.dir := rfl
@[simp] theorem State.setArray_dirty (s : State) (k : Nat) (d : SxArray) : (s.setArray k d).dirty = s.dirty := rfl
@[simp] theorem State.setArray_dirtyLines (s : State) (k : Nat) (d : SxArray) : (s.setArray k d).dirtyLines = s.dirtyLines := rfl
@[simp] theorem State.setArray_ccache (s : State) (k : Nat) (d : SxArray) : (s.setArray k d).ccache = s.ccache := rfl
@[simp] theorem State.setArray_icache (s : State) (k : Nat) (d : SxArray) : (s.setArray k d).icache = s.icache := rfl
@[simp] theorem State.setArray_l2 (s : State) (k : Nat) (d : SxArray) : (s.setArray k d).l2 = s.l2 := rfl
@[simp] theorem State.setArray_l2Uses (s : State) (k : Nat) (d : SxArray) : (s.setArray k d).l2Uses = s.l2Uses := rfl
@[simp] theorem State.setArray_llcNew (s : State) (k : Nat) (d : SxArray) : (s.setArray k d).llcNew = s.llcNew := rfl
@[simp] theorem State.setArray_pool (s : State) (k : Nat) (d : SxArray) : (s.setArray k d).pool = s.pool := rfl
@[simp] theorem State.setArray_tlb (s : State) (k : Nat) (d : SxArray) : (s.setArray k d).tlb = s.tlb := rfl
@[simp] theorem State.setArray_txns (s : State) (k : Nat) (d : SxArray) : (s.setArray k d).txns = s.txns := rfl
@[simp] theorem State.setArray_teams (s : State) (k : Nat) (d : SxArray) : (s.setArray k d).teams = s.teams := rfl
@[simp] theorem State.setArray_groups (s : State) (k : Nat) (d : SxArray) : (s.setArray k d).groups = s.groups := rfl
@[simp] theorem State.setArray_bins (s : State) (k : Nat) (d : SxArray) : (s.setArray k d).bins = s.bins := rfl
@[simp] theorem State.setArray_parkedSpawns (s : State) (k : Nat) (d : SxArray) : (s.setArray k d).parkedSpawns = s.parkedSpawns := rfl
@[simp] theorem State.setArray_reserves (s : State) (k : Nat) (d : SxArray) : (s.setArray k d).reserves = s.reserves := rfl
@[simp] theorem State.setArray_wokenRooms (s : State) (k : Nat) (d : SxArray) : (s.setArray k d).wokenRooms = s.wokenRooms := rfl
@[simp] theorem State.setArray_wokenSpawns (s : State) (k : Nat) (d : SxArray) : (s.setArray k d).wokenSpawns = s.wokenSpawns := rfl
@[simp] theorem State.setArray_spawns (s : State) (k : Nat) (d : SxArray) : (s.setArray k d).spawns = s.spawns := rfl
@[simp] theorem State.setArray_decs (s : State) (k : Nat) (d : SxArray) : (s.setArray k d).decs = s.decs := rfl
@[simp] theorem State.setArray_copies (s : State) (k : Nat) (d : SxArray) : (s.setArray k d).copies = s.copies := rfl
@[simp] theorem State.setArray_mx (s : State) (k : Nat) (d : SxArray) : (s.setArray k d).mx = s.mx := rfl
@[simp] theorem State.setArray_nbs (s : State) (k : Nat) (d : SxArray) : (s.setArray k d).nbs = s.nbs := rfl
@[simp] theorem State.setArray_engBuf (s : State) (k : Nat) (d : SxArray) : (s.setArray k d).engBuf = s.engBuf := rfl

@[simp] theorem State.setCopy_clk (s : State) (k : Nat) (d : Option Copy) : (s.setCopy k d).clk = s.clk := rfl
@[simp] theorem State.setCopy_uptime (s : State) (k : Nat) (d : Option Copy) : (s.setCopy k d).uptime = s.uptime := rfl
@[simp] theorem State.setCopy_free (s : State) (k : Nat) (d : Option Copy) : (s.setCopy k d).free = s.free := rfl
@[simp] theorem State.setCopy_next (s : State) (k : Nat) (d : Option Copy) : (s.setCopy k d).next = s.next := rfl
@[simp] theorem State.setCopy_agenda (s : State) (k : Nat) (d : Option Copy) : (s.setCopy k d).agenda = s.agenda := rfl
@[simp] theorem State.setCopy_input (s : State) (k : Nat) (d : Option Copy) : (s.setCopy k d).input = s.input := rfl
@[simp] theorem State.setCopy_served (s : State) (k : Nat) (d : Option Copy) : (s.setCopy k d).served = s.served := rfl
@[simp] theorem State.setCopy_bucketNo (s : State) (k : Nat) (d : Option Copy) : (s.setCopy k d).bucketNo = s.bucketNo := rfl
@[simp] theorem State.setCopy_cur (s : State) (k : Nat) (d : Option Copy) : (s.setCopy k d).cur = s.cur := rfl
@[simp] theorem State.setCopy_out (s : State) (k : Nat) (d : Option Copy) : (s.setCopy k d).out = s.out := rfl
@[simp] theorem State.setCopy_mgmt (s : State) (k : Nat) (d : Option Copy) : (s.setCopy k d).mgmt = s.mgmt := rfl
@[simp] theorem State.setCopy_dies (s : State) (k : Nat) (d : Option Copy) : (s.setCopy k d).dies = s.dies := rfl
@[simp] theorem State.setCopy_sramDown (s : State) (k : Nat) (d : Option Copy) : (s.setCopy k d).sramDown = s.sramDown := rfl
@[simp] theorem State.setCopy_modulesUp (s : State) (k : Nat) (d : Option Copy) : (s.setCopy k d).modulesUp = s.modulesUp := rfl
@[simp] theorem State.setCopy_stackDown (s : State) (k : Nat) (d : Option Copy) : (s.setCopy k d).stackDown = s.stackDown := rfl
@[simp] theorem State.setCopy_quads (s : State) (k : Nat) (d : Option Copy) : (s.setCopy k d).quads = s.quads := rfl
@[simp] theorem State.setCopy_ports (s : State) (k : Nat) (d : Option Copy) : (s.setCopy k d).ports = s.ports := rfl
@[simp] theorem State.setCopy_hostSent (s : State) (k : Nat) (d : Option Copy) : (s.setCopy k d).hostSent = s.hostSent := rfl
@[simp] theorem State.setCopy_hostSafe (s : State) (k : Nat) (d : Option Copy) : (s.setCopy k d).hostSafe = s.hostSafe := rfl
@[simp] theorem State.setCopy_posted (s : State) (k : Nat) (d : Option Copy) : (s.setCopy k d).posted = s.posted := rfl
@[simp] theorem State.setCopy_reads (s : State) (k : Nat) (d : Option Copy) : (s.setCopy k d).reads = s.reads := rfl
@[simp] theorem State.setCopy_peers (s : State) (k : Nat) (d : Option Copy) : (s.setCopy k d).peers = s.peers := rfl
@[simp] theorem State.setCopy_clovar (s : State) (k : Nat) (d : Option Copy) : (s.setCopy k d).clovar = s.clovar := rfl
@[simp] theorem State.setCopy_ctxs (s : State) (k : Nat) (d : Option Copy) : (s.setCopy k d).ctxs = s.ctxs := rfl
@[simp] theorem State.setCopy_recs (s : State) (k : Nat) (d : Option Copy) : (s.setCopy k d).recs = s.recs := rfl
@[simp] theorem State.setCopy_mem (s : State) (k : Nat) (d : Option Copy) : (s.setCopy k d).mem = s.mem := rfl
@[simp] theorem State.setCopy_poison (s : State) (k : Nat) (d : Option Copy) : (s.setCopy k d).poison = s.poison := rfl
@[simp] theorem State.setCopy_dir (s : State) (k : Nat) (d : Option Copy) : (s.setCopy k d).dir = s.dir := rfl
@[simp] theorem State.setCopy_dirty (s : State) (k : Nat) (d : Option Copy) : (s.setCopy k d).dirty = s.dirty := rfl
@[simp] theorem State.setCopy_dirtyLines (s : State) (k : Nat) (d : Option Copy) : (s.setCopy k d).dirtyLines = s.dirtyLines := rfl
@[simp] theorem State.setCopy_ccache (s : State) (k : Nat) (d : Option Copy) : (s.setCopy k d).ccache = s.ccache := rfl
@[simp] theorem State.setCopy_icache (s : State) (k : Nat) (d : Option Copy) : (s.setCopy k d).icache = s.icache := rfl
@[simp] theorem State.setCopy_l2 (s : State) (k : Nat) (d : Option Copy) : (s.setCopy k d).l2 = s.l2 := rfl
@[simp] theorem State.setCopy_l2Uses (s : State) (k : Nat) (d : Option Copy) : (s.setCopy k d).l2Uses = s.l2Uses := rfl
@[simp] theorem State.setCopy_llcNew (s : State) (k : Nat) (d : Option Copy) : (s.setCopy k d).llcNew = s.llcNew := rfl
@[simp] theorem State.setCopy_pool (s : State) (k : Nat) (d : Option Copy) : (s.setCopy k d).pool = s.pool := rfl
@[simp] theorem State.setCopy_tlb (s : State) (k : Nat) (d : Option Copy) : (s.setCopy k d).tlb = s.tlb := rfl
@[simp] theorem State.setCopy_txns (s : State) (k : Nat) (d : Option Copy) : (s.setCopy k d).txns = s.txns := rfl
@[simp] theorem State.setCopy_teams (s : State) (k : Nat) (d : Option Copy) : (s.setCopy k d).teams = s.teams := rfl
@[simp] theorem State.setCopy_groups (s : State) (k : Nat) (d : Option Copy) : (s.setCopy k d).groups = s.groups := rfl
@[simp] theorem State.setCopy_bins (s : State) (k : Nat) (d : Option Copy) : (s.setCopy k d).bins = s.bins := rfl
@[simp] theorem State.setCopy_parkedSpawns (s : State) (k : Nat) (d : Option Copy) : (s.setCopy k d).parkedSpawns = s.parkedSpawns := rfl
@[simp] theorem State.setCopy_reserves (s : State) (k : Nat) (d : Option Copy) : (s.setCopy k d).reserves = s.reserves := rfl
@[simp] theorem State.setCopy_wokenRooms (s : State) (k : Nat) (d : Option Copy) : (s.setCopy k d).wokenRooms = s.wokenRooms := rfl
@[simp] theorem State.setCopy_wokenSpawns (s : State) (k : Nat) (d : Option Copy) : (s.setCopy k d).wokenSpawns = s.wokenSpawns := rfl
@[simp] theorem State.setCopy_spawns (s : State) (k : Nat) (d : Option Copy) : (s.setCopy k d).spawns = s.spawns := rfl
@[simp] theorem State.setCopy_decs (s : State) (k : Nat) (d : Option Copy) : (s.setCopy k d).decs = s.decs := rfl
@[simp] theorem State.setCopy_mx (s : State) (k : Nat) (d : Option Copy) : (s.setCopy k d).mx = s.mx := rfl
@[simp] theorem State.setCopy_arrays (s : State) (k : Nat) (d : Option Copy) : (s.setCopy k d).arrays = s.arrays := rfl
@[simp] theorem State.setCopy_nbs (s : State) (k : Nat) (d : Option Copy) : (s.setCopy k d).nbs = s.nbs := rfl
@[simp] theorem State.setCopy_engBuf (s : State) (k : Nat) (d : Option Copy) : (s.setCopy k d).engBuf = s.engBuf := rfl

@[simp] theorem State.setBin_clk (s : State) (u k : Nat) (d : Bin) : (s.setBin u k d).clk = s.clk := rfl
@[simp] theorem State.setBin_uptime (s : State) (u k : Nat) (d : Bin) : (s.setBin u k d).uptime = s.uptime := rfl
@[simp] theorem State.setBin_free (s : State) (u k : Nat) (d : Bin) : (s.setBin u k d).free = s.free := rfl
@[simp] theorem State.setBin_next (s : State) (u k : Nat) (d : Bin) : (s.setBin u k d).next = s.next := rfl
@[simp] theorem State.setBin_agenda (s : State) (u k : Nat) (d : Bin) : (s.setBin u k d).agenda = s.agenda := rfl
@[simp] theorem State.setBin_input (s : State) (u k : Nat) (d : Bin) : (s.setBin u k d).input = s.input := rfl
@[simp] theorem State.setBin_served (s : State) (u k : Nat) (d : Bin) : (s.setBin u k d).served = s.served := rfl
@[simp] theorem State.setBin_bucketNo (s : State) (u k : Nat) (d : Bin) : (s.setBin u k d).bucketNo = s.bucketNo := rfl
@[simp] theorem State.setBin_cur (s : State) (u k : Nat) (d : Bin) : (s.setBin u k d).cur = s.cur := rfl
@[simp] theorem State.setBin_out (s : State) (u k : Nat) (d : Bin) : (s.setBin u k d).out = s.out := rfl
@[simp] theorem State.setBin_mgmt (s : State) (u k : Nat) (d : Bin) : (s.setBin u k d).mgmt = s.mgmt := rfl
@[simp] theorem State.setBin_dies (s : State) (u k : Nat) (d : Bin) : (s.setBin u k d).dies = s.dies := rfl
@[simp] theorem State.setBin_sramDown (s : State) (u k : Nat) (d : Bin) : (s.setBin u k d).sramDown = s.sramDown := rfl
@[simp] theorem State.setBin_modulesUp (s : State) (u k : Nat) (d : Bin) : (s.setBin u k d).modulesUp = s.modulesUp := rfl
@[simp] theorem State.setBin_stackDown (s : State) (u k : Nat) (d : Bin) : (s.setBin u k d).stackDown = s.stackDown := rfl
@[simp] theorem State.setBin_quads (s : State) (u k : Nat) (d : Bin) : (s.setBin u k d).quads = s.quads := rfl
@[simp] theorem State.setBin_ports (s : State) (u k : Nat) (d : Bin) : (s.setBin u k d).ports = s.ports := rfl
@[simp] theorem State.setBin_hostSent (s : State) (u k : Nat) (d : Bin) : (s.setBin u k d).hostSent = s.hostSent := rfl
@[simp] theorem State.setBin_hostSafe (s : State) (u k : Nat) (d : Bin) : (s.setBin u k d).hostSafe = s.hostSafe := rfl
@[simp] theorem State.setBin_posted (s : State) (u k : Nat) (d : Bin) : (s.setBin u k d).posted = s.posted := rfl
@[simp] theorem State.setBin_reads (s : State) (u k : Nat) (d : Bin) : (s.setBin u k d).reads = s.reads := rfl
@[simp] theorem State.setBin_peers (s : State) (u k : Nat) (d : Bin) : (s.setBin u k d).peers = s.peers := rfl
@[simp] theorem State.setBin_clovar (s : State) (u k : Nat) (d : Bin) : (s.setBin u k d).clovar = s.clovar := rfl
@[simp] theorem State.setBin_ctxs (s : State) (u k : Nat) (d : Bin) : (s.setBin u k d).ctxs = s.ctxs := rfl
@[simp] theorem State.setBin_recs (s : State) (u k : Nat) (d : Bin) : (s.setBin u k d).recs = s.recs := rfl
@[simp] theorem State.setBin_mem (s : State) (u k : Nat) (d : Bin) : (s.setBin u k d).mem = s.mem := rfl
@[simp] theorem State.setBin_poison (s : State) (u k : Nat) (d : Bin) : (s.setBin u k d).poison = s.poison := rfl
@[simp] theorem State.setBin_dir (s : State) (u k : Nat) (d : Bin) : (s.setBin u k d).dir = s.dir := rfl
@[simp] theorem State.setBin_dirty (s : State) (u k : Nat) (d : Bin) : (s.setBin u k d).dirty = s.dirty := rfl
@[simp] theorem State.setBin_dirtyLines (s : State) (u k : Nat) (d : Bin) : (s.setBin u k d).dirtyLines = s.dirtyLines := rfl
@[simp] theorem State.setBin_ccache (s : State) (u k : Nat) (d : Bin) : (s.setBin u k d).ccache = s.ccache := rfl
@[simp] theorem State.setBin_icache (s : State) (u k : Nat) (d : Bin) : (s.setBin u k d).icache = s.icache := rfl
@[simp] theorem State.setBin_l2 (s : State) (u k : Nat) (d : Bin) : (s.setBin u k d).l2 = s.l2 := rfl
@[simp] theorem State.setBin_l2Uses (s : State) (u k : Nat) (d : Bin) : (s.setBin u k d).l2Uses = s.l2Uses := rfl
@[simp] theorem State.setBin_llcNew (s : State) (u k : Nat) (d : Bin) : (s.setBin u k d).llcNew = s.llcNew := rfl
@[simp] theorem State.setBin_pool (s : State) (u k : Nat) (d : Bin) : (s.setBin u k d).pool = s.pool := rfl
@[simp] theorem State.setBin_tlb (s : State) (u k : Nat) (d : Bin) : (s.setBin u k d).tlb = s.tlb := rfl
@[simp] theorem State.setBin_txns (s : State) (u k : Nat) (d : Bin) : (s.setBin u k d).txns = s.txns := rfl
@[simp] theorem State.setBin_teams (s : State) (u k : Nat) (d : Bin) : (s.setBin u k d).teams = s.teams := rfl
@[simp] theorem State.setBin_groups (s : State) (u k : Nat) (d : Bin) : (s.setBin u k d).groups = s.groups := rfl
@[simp] theorem State.setBin_parkedSpawns (s : State) (u k : Nat) (d : Bin) : (s.setBin u k d).parkedSpawns = s.parkedSpawns := rfl
@[simp] theorem State.setBin_reserves (s : State) (u k : Nat) (d : Bin) : (s.setBin u k d).reserves = s.reserves := rfl
@[simp] theorem State.setBin_wokenRooms (s : State) (u k : Nat) (d : Bin) : (s.setBin u k d).wokenRooms = s.wokenRooms := rfl
@[simp] theorem State.setBin_wokenSpawns (s : State) (u k : Nat) (d : Bin) : (s.setBin u k d).wokenSpawns = s.wokenSpawns := rfl
@[simp] theorem State.setBin_spawns (s : State) (u k : Nat) (d : Bin) : (s.setBin u k d).spawns = s.spawns := rfl
@[simp] theorem State.setBin_decs (s : State) (u k : Nat) (d : Bin) : (s.setBin u k d).decs = s.decs := rfl
@[simp] theorem State.setBin_copies (s : State) (u k : Nat) (d : Bin) : (s.setBin u k d).copies = s.copies := rfl
@[simp] theorem State.setBin_mx (s : State) (u k : Nat) (d : Bin) : (s.setBin u k d).mx = s.mx := rfl
@[simp] theorem State.setBin_arrays (s : State) (u k : Nat) (d : Bin) : (s.setBin u k d).arrays = s.arrays := rfl
@[simp] theorem State.setBin_nbs (s : State) (u k : Nat) (d : Bin) : (s.setBin u k d).nbs = s.nbs := rfl
@[simp] theorem State.setBin_engBuf (s : State) (u k : Nat) (d : Bin) : (s.setBin u k d).engBuf = s.engBuf := rfl

@[simp] theorem State.setPosted_clk (s : State) (k : Nat) (d : Option Posted) : (s.setPosted k d).clk = s.clk := rfl
@[simp] theorem State.setPosted_uptime (s : State) (k : Nat) (d : Option Posted) : (s.setPosted k d).uptime = s.uptime := rfl
@[simp] theorem State.setPosted_free (s : State) (k : Nat) (d : Option Posted) : (s.setPosted k d).free = s.free := rfl
@[simp] theorem State.setPosted_next (s : State) (k : Nat) (d : Option Posted) : (s.setPosted k d).next = s.next := rfl
@[simp] theorem State.setPosted_agenda (s : State) (k : Nat) (d : Option Posted) : (s.setPosted k d).agenda = s.agenda := rfl
@[simp] theorem State.setPosted_input (s : State) (k : Nat) (d : Option Posted) : (s.setPosted k d).input = s.input := rfl
@[simp] theorem State.setPosted_served (s : State) (k : Nat) (d : Option Posted) : (s.setPosted k d).served = s.served := rfl
@[simp] theorem State.setPosted_bucketNo (s : State) (k : Nat) (d : Option Posted) : (s.setPosted k d).bucketNo = s.bucketNo := rfl
@[simp] theorem State.setPosted_cur (s : State) (k : Nat) (d : Option Posted) : (s.setPosted k d).cur = s.cur := rfl
@[simp] theorem State.setPosted_out (s : State) (k : Nat) (d : Option Posted) : (s.setPosted k d).out = s.out := rfl
@[simp] theorem State.setPosted_mgmt (s : State) (k : Nat) (d : Option Posted) : (s.setPosted k d).mgmt = s.mgmt := rfl
@[simp] theorem State.setPosted_dies (s : State) (k : Nat) (d : Option Posted) : (s.setPosted k d).dies = s.dies := rfl
@[simp] theorem State.setPosted_sramDown (s : State) (k : Nat) (d : Option Posted) : (s.setPosted k d).sramDown = s.sramDown := rfl
@[simp] theorem State.setPosted_modulesUp (s : State) (k : Nat) (d : Option Posted) : (s.setPosted k d).modulesUp = s.modulesUp := rfl
@[simp] theorem State.setPosted_stackDown (s : State) (k : Nat) (d : Option Posted) : (s.setPosted k d).stackDown = s.stackDown := rfl
@[simp] theorem State.setPosted_quads (s : State) (k : Nat) (d : Option Posted) : (s.setPosted k d).quads = s.quads := rfl
@[simp] theorem State.setPosted_ports (s : State) (k : Nat) (d : Option Posted) : (s.setPosted k d).ports = s.ports := rfl
@[simp] theorem State.setPosted_hostSent (s : State) (k : Nat) (d : Option Posted) : (s.setPosted k d).hostSent = s.hostSent := rfl
@[simp] theorem State.setPosted_hostSafe (s : State) (k : Nat) (d : Option Posted) : (s.setPosted k d).hostSafe = s.hostSafe := rfl
@[simp] theorem State.setPosted_reads (s : State) (k : Nat) (d : Option Posted) : (s.setPosted k d).reads = s.reads := rfl
@[simp] theorem State.setPosted_peers (s : State) (k : Nat) (d : Option Posted) : (s.setPosted k d).peers = s.peers := rfl
@[simp] theorem State.setPosted_clovar (s : State) (k : Nat) (d : Option Posted) : (s.setPosted k d).clovar = s.clovar := rfl
@[simp] theorem State.setPosted_ctxs (s : State) (k : Nat) (d : Option Posted) : (s.setPosted k d).ctxs = s.ctxs := rfl
@[simp] theorem State.setPosted_recs (s : State) (k : Nat) (d : Option Posted) : (s.setPosted k d).recs = s.recs := rfl
@[simp] theorem State.setPosted_mem (s : State) (k : Nat) (d : Option Posted) : (s.setPosted k d).mem = s.mem := rfl
@[simp] theorem State.setPosted_poison (s : State) (k : Nat) (d : Option Posted) : (s.setPosted k d).poison = s.poison := rfl
@[simp] theorem State.setPosted_dir (s : State) (k : Nat) (d : Option Posted) : (s.setPosted k d).dir = s.dir := rfl
@[simp] theorem State.setPosted_dirty (s : State) (k : Nat) (d : Option Posted) : (s.setPosted k d).dirty = s.dirty := rfl
@[simp] theorem State.setPosted_dirtyLines (s : State) (k : Nat) (d : Option Posted) : (s.setPosted k d).dirtyLines = s.dirtyLines := rfl
@[simp] theorem State.setPosted_ccache (s : State) (k : Nat) (d : Option Posted) : (s.setPosted k d).ccache = s.ccache := rfl
@[simp] theorem State.setPosted_icache (s : State) (k : Nat) (d : Option Posted) : (s.setPosted k d).icache = s.icache := rfl
@[simp] theorem State.setPosted_l2 (s : State) (k : Nat) (d : Option Posted) : (s.setPosted k d).l2 = s.l2 := rfl
@[simp] theorem State.setPosted_l2Uses (s : State) (k : Nat) (d : Option Posted) : (s.setPosted k d).l2Uses = s.l2Uses := rfl
@[simp] theorem State.setPosted_llcNew (s : State) (k : Nat) (d : Option Posted) : (s.setPosted k d).llcNew = s.llcNew := rfl
@[simp] theorem State.setPosted_pool (s : State) (k : Nat) (d : Option Posted) : (s.setPosted k d).pool = s.pool := rfl
@[simp] theorem State.setPosted_tlb (s : State) (k : Nat) (d : Option Posted) : (s.setPosted k d).tlb = s.tlb := rfl
@[simp] theorem State.setPosted_txns (s : State) (k : Nat) (d : Option Posted) : (s.setPosted k d).txns = s.txns := rfl
@[simp] theorem State.setPosted_teams (s : State) (k : Nat) (d : Option Posted) : (s.setPosted k d).teams = s.teams := rfl
@[simp] theorem State.setPosted_groups (s : State) (k : Nat) (d : Option Posted) : (s.setPosted k d).groups = s.groups := rfl
@[simp] theorem State.setPosted_bins (s : State) (k : Nat) (d : Option Posted) : (s.setPosted k d).bins = s.bins := rfl
@[simp] theorem State.setPosted_parkedSpawns (s : State) (k : Nat) (d : Option Posted) : (s.setPosted k d).parkedSpawns = s.parkedSpawns := rfl
@[simp] theorem State.setPosted_reserves (s : State) (k : Nat) (d : Option Posted) : (s.setPosted k d).reserves = s.reserves := rfl
@[simp] theorem State.setPosted_wokenRooms (s : State) (k : Nat) (d : Option Posted) : (s.setPosted k d).wokenRooms = s.wokenRooms := rfl
@[simp] theorem State.setPosted_wokenSpawns (s : State) (k : Nat) (d : Option Posted) : (s.setPosted k d).wokenSpawns = s.wokenSpawns := rfl
@[simp] theorem State.setPosted_spawns (s : State) (k : Nat) (d : Option Posted) : (s.setPosted k d).spawns = s.spawns := rfl
@[simp] theorem State.setPosted_decs (s : State) (k : Nat) (d : Option Posted) : (s.setPosted k d).decs = s.decs := rfl
@[simp] theorem State.setPosted_copies (s : State) (k : Nat) (d : Option Posted) : (s.setPosted k d).copies = s.copies := rfl
@[simp] theorem State.setPosted_mx (s : State) (k : Nat) (d : Option Posted) : (s.setPosted k d).mx = s.mx := rfl
@[simp] theorem State.setPosted_arrays (s : State) (k : Nat) (d : Option Posted) : (s.setPosted k d).arrays = s.arrays := rfl
@[simp] theorem State.setPosted_nbs (s : State) (k : Nat) (d : Option Posted) : (s.setPosted k d).nbs = s.nbs := rfl
@[simp] theorem State.setPosted_engBuf (s : State) (k : Nat) (d : Option Posted) : (s.setPosted k d).engBuf = s.engBuf := rfl

@[simp] theorem State.setPeer_clk (s : State) (k : Nat) (d : Option Peer) : (s.setPeer k d).clk = s.clk := rfl
@[simp] theorem State.setPeer_uptime (s : State) (k : Nat) (d : Option Peer) : (s.setPeer k d).uptime = s.uptime := rfl
@[simp] theorem State.setPeer_free (s : State) (k : Nat) (d : Option Peer) : (s.setPeer k d).free = s.free := rfl
@[simp] theorem State.setPeer_next (s : State) (k : Nat) (d : Option Peer) : (s.setPeer k d).next = s.next := rfl
@[simp] theorem State.setPeer_agenda (s : State) (k : Nat) (d : Option Peer) : (s.setPeer k d).agenda = s.agenda := rfl
@[simp] theorem State.setPeer_input (s : State) (k : Nat) (d : Option Peer) : (s.setPeer k d).input = s.input := rfl
@[simp] theorem State.setPeer_served (s : State) (k : Nat) (d : Option Peer) : (s.setPeer k d).served = s.served := rfl
@[simp] theorem State.setPeer_bucketNo (s : State) (k : Nat) (d : Option Peer) : (s.setPeer k d).bucketNo = s.bucketNo := rfl
@[simp] theorem State.setPeer_cur (s : State) (k : Nat) (d : Option Peer) : (s.setPeer k d).cur = s.cur := rfl
@[simp] theorem State.setPeer_out (s : State) (k : Nat) (d : Option Peer) : (s.setPeer k d).out = s.out := rfl
@[simp] theorem State.setPeer_mgmt (s : State) (k : Nat) (d : Option Peer) : (s.setPeer k d).mgmt = s.mgmt := rfl
@[simp] theorem State.setPeer_dies (s : State) (k : Nat) (d : Option Peer) : (s.setPeer k d).dies = s.dies := rfl
@[simp] theorem State.setPeer_sramDown (s : State) (k : Nat) (d : Option Peer) : (s.setPeer k d).sramDown = s.sramDown := rfl
@[simp] theorem State.setPeer_modulesUp (s : State) (k : Nat) (d : Option Peer) : (s.setPeer k d).modulesUp = s.modulesUp := rfl
@[simp] theorem State.setPeer_stackDown (s : State) (k : Nat) (d : Option Peer) : (s.setPeer k d).stackDown = s.stackDown := rfl
@[simp] theorem State.setPeer_quads (s : State) (k : Nat) (d : Option Peer) : (s.setPeer k d).quads = s.quads := rfl
@[simp] theorem State.setPeer_ports (s : State) (k : Nat) (d : Option Peer) : (s.setPeer k d).ports = s.ports := rfl
@[simp] theorem State.setPeer_hostSent (s : State) (k : Nat) (d : Option Peer) : (s.setPeer k d).hostSent = s.hostSent := rfl
@[simp] theorem State.setPeer_hostSafe (s : State) (k : Nat) (d : Option Peer) : (s.setPeer k d).hostSafe = s.hostSafe := rfl
@[simp] theorem State.setPeer_posted (s : State) (k : Nat) (d : Option Peer) : (s.setPeer k d).posted = s.posted := rfl
@[simp] theorem State.setPeer_reads (s : State) (k : Nat) (d : Option Peer) : (s.setPeer k d).reads = s.reads := rfl
@[simp] theorem State.setPeer_clovar (s : State) (k : Nat) (d : Option Peer) : (s.setPeer k d).clovar = s.clovar := rfl
@[simp] theorem State.setPeer_ctxs (s : State) (k : Nat) (d : Option Peer) : (s.setPeer k d).ctxs = s.ctxs := rfl
@[simp] theorem State.setPeer_recs (s : State) (k : Nat) (d : Option Peer) : (s.setPeer k d).recs = s.recs := rfl
@[simp] theorem State.setPeer_mem (s : State) (k : Nat) (d : Option Peer) : (s.setPeer k d).mem = s.mem := rfl
@[simp] theorem State.setPeer_poison (s : State) (k : Nat) (d : Option Peer) : (s.setPeer k d).poison = s.poison := rfl
@[simp] theorem State.setPeer_dir (s : State) (k : Nat) (d : Option Peer) : (s.setPeer k d).dir = s.dir := rfl
@[simp] theorem State.setPeer_dirty (s : State) (k : Nat) (d : Option Peer) : (s.setPeer k d).dirty = s.dirty := rfl
@[simp] theorem State.setPeer_dirtyLines (s : State) (k : Nat) (d : Option Peer) : (s.setPeer k d).dirtyLines = s.dirtyLines := rfl
@[simp] theorem State.setPeer_ccache (s : State) (k : Nat) (d : Option Peer) : (s.setPeer k d).ccache = s.ccache := rfl
@[simp] theorem State.setPeer_icache (s : State) (k : Nat) (d : Option Peer) : (s.setPeer k d).icache = s.icache := rfl
@[simp] theorem State.setPeer_l2 (s : State) (k : Nat) (d : Option Peer) : (s.setPeer k d).l2 = s.l2 := rfl
@[simp] theorem State.setPeer_l2Uses (s : State) (k : Nat) (d : Option Peer) : (s.setPeer k d).l2Uses = s.l2Uses := rfl
@[simp] theorem State.setPeer_llcNew (s : State) (k : Nat) (d : Option Peer) : (s.setPeer k d).llcNew = s.llcNew := rfl
@[simp] theorem State.setPeer_pool (s : State) (k : Nat) (d : Option Peer) : (s.setPeer k d).pool = s.pool := rfl
@[simp] theorem State.setPeer_tlb (s : State) (k : Nat) (d : Option Peer) : (s.setPeer k d).tlb = s.tlb := rfl
@[simp] theorem State.setPeer_txns (s : State) (k : Nat) (d : Option Peer) : (s.setPeer k d).txns = s.txns := rfl
@[simp] theorem State.setPeer_teams (s : State) (k : Nat) (d : Option Peer) : (s.setPeer k d).teams = s.teams := rfl
@[simp] theorem State.setPeer_groups (s : State) (k : Nat) (d : Option Peer) : (s.setPeer k d).groups = s.groups := rfl
@[simp] theorem State.setPeer_bins (s : State) (k : Nat) (d : Option Peer) : (s.setPeer k d).bins = s.bins := rfl
@[simp] theorem State.setPeer_parkedSpawns (s : State) (k : Nat) (d : Option Peer) : (s.setPeer k d).parkedSpawns = s.parkedSpawns := rfl
@[simp] theorem State.setPeer_reserves (s : State) (k : Nat) (d : Option Peer) : (s.setPeer k d).reserves = s.reserves := rfl
@[simp] theorem State.setPeer_wokenRooms (s : State) (k : Nat) (d : Option Peer) : (s.setPeer k d).wokenRooms = s.wokenRooms := rfl
@[simp] theorem State.setPeer_wokenSpawns (s : State) (k : Nat) (d : Option Peer) : (s.setPeer k d).wokenSpawns = s.wokenSpawns := rfl
@[simp] theorem State.setPeer_spawns (s : State) (k : Nat) (d : Option Peer) : (s.setPeer k d).spawns = s.spawns := rfl
@[simp] theorem State.setPeer_decs (s : State) (k : Nat) (d : Option Peer) : (s.setPeer k d).decs = s.decs := rfl
@[simp] theorem State.setPeer_copies (s : State) (k : Nat) (d : Option Peer) : (s.setPeer k d).copies = s.copies := rfl
@[simp] theorem State.setPeer_mx (s : State) (k : Nat) (d : Option Peer) : (s.setPeer k d).mx = s.mx := rfl
@[simp] theorem State.setPeer_arrays (s : State) (k : Nat) (d : Option Peer) : (s.setPeer k d).arrays = s.arrays := rfl
@[simp] theorem State.setPeer_nbs (s : State) (k : Nat) (d : Option Peer) : (s.setPeer k d).nbs = s.nbs := rfl
@[simp] theorem State.setPeer_engBuf (s : State) (k : Nat) (d : Option Peer) : (s.setPeer k d).engBuf = s.engBuf := rfl

@[simp] theorem State.setBuf_clk (s : State) (k : Nat) (d : List (Nat × List Byte × Bool)) : (s.setBuf k d).clk = s.clk := rfl
@[simp] theorem State.setBuf_uptime (s : State) (k : Nat) (d : List (Nat × List Byte × Bool)) : (s.setBuf k d).uptime = s.uptime := rfl
@[simp] theorem State.setBuf_free (s : State) (k : Nat) (d : List (Nat × List Byte × Bool)) : (s.setBuf k d).free = s.free := rfl
@[simp] theorem State.setBuf_next (s : State) (k : Nat) (d : List (Nat × List Byte × Bool)) : (s.setBuf k d).next = s.next := rfl
@[simp] theorem State.setBuf_agenda (s : State) (k : Nat) (d : List (Nat × List Byte × Bool)) : (s.setBuf k d).agenda = s.agenda := rfl
@[simp] theorem State.setBuf_input (s : State) (k : Nat) (d : List (Nat × List Byte × Bool)) : (s.setBuf k d).input = s.input := rfl
@[simp] theorem State.setBuf_served (s : State) (k : Nat) (d : List (Nat × List Byte × Bool)) : (s.setBuf k d).served = s.served := rfl
@[simp] theorem State.setBuf_bucketNo (s : State) (k : Nat) (d : List (Nat × List Byte × Bool)) : (s.setBuf k d).bucketNo = s.bucketNo := rfl
@[simp] theorem State.setBuf_cur (s : State) (k : Nat) (d : List (Nat × List Byte × Bool)) : (s.setBuf k d).cur = s.cur := rfl
@[simp] theorem State.setBuf_out (s : State) (k : Nat) (d : List (Nat × List Byte × Bool)) : (s.setBuf k d).out = s.out := rfl
@[simp] theorem State.setBuf_mgmt (s : State) (k : Nat) (d : List (Nat × List Byte × Bool)) : (s.setBuf k d).mgmt = s.mgmt := rfl
@[simp] theorem State.setBuf_dies (s : State) (k : Nat) (d : List (Nat × List Byte × Bool)) : (s.setBuf k d).dies = s.dies := rfl
@[simp] theorem State.setBuf_sramDown (s : State) (k : Nat) (d : List (Nat × List Byte × Bool)) : (s.setBuf k d).sramDown = s.sramDown := rfl
@[simp] theorem State.setBuf_modulesUp (s : State) (k : Nat) (d : List (Nat × List Byte × Bool)) : (s.setBuf k d).modulesUp = s.modulesUp := rfl
@[simp] theorem State.setBuf_stackDown (s : State) (k : Nat) (d : List (Nat × List Byte × Bool)) : (s.setBuf k d).stackDown = s.stackDown := rfl
@[simp] theorem State.setBuf_quads (s : State) (k : Nat) (d : List (Nat × List Byte × Bool)) : (s.setBuf k d).quads = s.quads := rfl
@[simp] theorem State.setBuf_ports (s : State) (k : Nat) (d : List (Nat × List Byte × Bool)) : (s.setBuf k d).ports = s.ports := rfl
@[simp] theorem State.setBuf_hostSent (s : State) (k : Nat) (d : List (Nat × List Byte × Bool)) : (s.setBuf k d).hostSent = s.hostSent := rfl
@[simp] theorem State.setBuf_hostSafe (s : State) (k : Nat) (d : List (Nat × List Byte × Bool)) : (s.setBuf k d).hostSafe = s.hostSafe := rfl
@[simp] theorem State.setBuf_posted (s : State) (k : Nat) (d : List (Nat × List Byte × Bool)) : (s.setBuf k d).posted = s.posted := rfl
@[simp] theorem State.setBuf_reads (s : State) (k : Nat) (d : List (Nat × List Byte × Bool)) : (s.setBuf k d).reads = s.reads := rfl
@[simp] theorem State.setBuf_peers (s : State) (k : Nat) (d : List (Nat × List Byte × Bool)) : (s.setBuf k d).peers = s.peers := rfl
@[simp] theorem State.setBuf_clovar (s : State) (k : Nat) (d : List (Nat × List Byte × Bool)) : (s.setBuf k d).clovar = s.clovar := rfl
@[simp] theorem State.setBuf_ctxs (s : State) (k : Nat) (d : List (Nat × List Byte × Bool)) : (s.setBuf k d).ctxs = s.ctxs := rfl
@[simp] theorem State.setBuf_recs (s : State) (k : Nat) (d : List (Nat × List Byte × Bool)) : (s.setBuf k d).recs = s.recs := rfl
@[simp] theorem State.setBuf_mem (s : State) (k : Nat) (d : List (Nat × List Byte × Bool)) : (s.setBuf k d).mem = s.mem := rfl
@[simp] theorem State.setBuf_poison (s : State) (k : Nat) (d : List (Nat × List Byte × Bool)) : (s.setBuf k d).poison = s.poison := rfl
@[simp] theorem State.setBuf_dir (s : State) (k : Nat) (d : List (Nat × List Byte × Bool)) : (s.setBuf k d).dir = s.dir := rfl
@[simp] theorem State.setBuf_dirty (s : State) (k : Nat) (d : List (Nat × List Byte × Bool)) : (s.setBuf k d).dirty = s.dirty := rfl
@[simp] theorem State.setBuf_dirtyLines (s : State) (k : Nat) (d : List (Nat × List Byte × Bool)) : (s.setBuf k d).dirtyLines = s.dirtyLines := rfl
@[simp] theorem State.setBuf_ccache (s : State) (k : Nat) (d : List (Nat × List Byte × Bool)) : (s.setBuf k d).ccache = s.ccache := rfl
@[simp] theorem State.setBuf_icache (s : State) (k : Nat) (d : List (Nat × List Byte × Bool)) : (s.setBuf k d).icache = s.icache := rfl
@[simp] theorem State.setBuf_l2 (s : State) (k : Nat) (d : List (Nat × List Byte × Bool)) : (s.setBuf k d).l2 = s.l2 := rfl
@[simp] theorem State.setBuf_l2Uses (s : State) (k : Nat) (d : List (Nat × List Byte × Bool)) : (s.setBuf k d).l2Uses = s.l2Uses := rfl
@[simp] theorem State.setBuf_llcNew (s : State) (k : Nat) (d : List (Nat × List Byte × Bool)) : (s.setBuf k d).llcNew = s.llcNew := rfl
@[simp] theorem State.setBuf_pool (s : State) (k : Nat) (d : List (Nat × List Byte × Bool)) : (s.setBuf k d).pool = s.pool := rfl
@[simp] theorem State.setBuf_tlb (s : State) (k : Nat) (d : List (Nat × List Byte × Bool)) : (s.setBuf k d).tlb = s.tlb := rfl
@[simp] theorem State.setBuf_txns (s : State) (k : Nat) (d : List (Nat × List Byte × Bool)) : (s.setBuf k d).txns = s.txns := rfl
@[simp] theorem State.setBuf_teams (s : State) (k : Nat) (d : List (Nat × List Byte × Bool)) : (s.setBuf k d).teams = s.teams := rfl
@[simp] theorem State.setBuf_groups (s : State) (k : Nat) (d : List (Nat × List Byte × Bool)) : (s.setBuf k d).groups = s.groups := rfl
@[simp] theorem State.setBuf_bins (s : State) (k : Nat) (d : List (Nat × List Byte × Bool)) : (s.setBuf k d).bins = s.bins := rfl
@[simp] theorem State.setBuf_parkedSpawns (s : State) (k : Nat) (d : List (Nat × List Byte × Bool)) : (s.setBuf k d).parkedSpawns = s.parkedSpawns := rfl
@[simp] theorem State.setBuf_reserves (s : State) (k : Nat) (d : List (Nat × List Byte × Bool)) : (s.setBuf k d).reserves = s.reserves := rfl
@[simp] theorem State.setBuf_wokenRooms (s : State) (k : Nat) (d : List (Nat × List Byte × Bool)) : (s.setBuf k d).wokenRooms = s.wokenRooms := rfl
@[simp] theorem State.setBuf_wokenSpawns (s : State) (k : Nat) (d : List (Nat × List Byte × Bool)) : (s.setBuf k d).wokenSpawns = s.wokenSpawns := rfl
@[simp] theorem State.setBuf_spawns (s : State) (k : Nat) (d : List (Nat × List Byte × Bool)) : (s.setBuf k d).spawns = s.spawns := rfl
@[simp] theorem State.setBuf_decs (s : State) (k : Nat) (d : List (Nat × List Byte × Bool)) : (s.setBuf k d).decs = s.decs := rfl
@[simp] theorem State.setBuf_copies (s : State) (k : Nat) (d : List (Nat × List Byte × Bool)) : (s.setBuf k d).copies = s.copies := rfl
@[simp] theorem State.setBuf_mx (s : State) (k : Nat) (d : List (Nat × List Byte × Bool)) : (s.setBuf k d).mx = s.mx := rfl
@[simp] theorem State.setBuf_arrays (s : State) (k : Nat) (d : List (Nat × List Byte × Bool)) : (s.setBuf k d).arrays = s.arrays := rfl
@[simp] theorem State.setBuf_nbs (s : State) (k : Nat) (d : List (Nat × List Byte × Bool)) : (s.setBuf k d).nbs = s.nbs := rfl

@[simp] theorem State.setDir_clk (s : State) (k : Nat) (d : Sys2Proof.Machine.Dir) : (s.setDir k d).clk = s.clk := rfl
@[simp] theorem State.setDir_uptime (s : State) (k : Nat) (d : Sys2Proof.Machine.Dir) : (s.setDir k d).uptime = s.uptime := rfl
@[simp] theorem State.setDir_free (s : State) (k : Nat) (d : Sys2Proof.Machine.Dir) : (s.setDir k d).free = s.free := rfl
@[simp] theorem State.setDir_next (s : State) (k : Nat) (d : Sys2Proof.Machine.Dir) : (s.setDir k d).next = s.next := rfl
@[simp] theorem State.setDir_agenda (s : State) (k : Nat) (d : Sys2Proof.Machine.Dir) : (s.setDir k d).agenda = s.agenda := rfl
@[simp] theorem State.setDir_input (s : State) (k : Nat) (d : Sys2Proof.Machine.Dir) : (s.setDir k d).input = s.input := rfl
@[simp] theorem State.setDir_served (s : State) (k : Nat) (d : Sys2Proof.Machine.Dir) : (s.setDir k d).served = s.served := rfl
@[simp] theorem State.setDir_bucketNo (s : State) (k : Nat) (d : Sys2Proof.Machine.Dir) : (s.setDir k d).bucketNo = s.bucketNo := rfl
@[simp] theorem State.setDir_cur (s : State) (k : Nat) (d : Sys2Proof.Machine.Dir) : (s.setDir k d).cur = s.cur := rfl
@[simp] theorem State.setDir_out (s : State) (k : Nat) (d : Sys2Proof.Machine.Dir) : (s.setDir k d).out = s.out := rfl
@[simp] theorem State.setDir_mgmt (s : State) (k : Nat) (d : Sys2Proof.Machine.Dir) : (s.setDir k d).mgmt = s.mgmt := rfl
@[simp] theorem State.setDir_dies (s : State) (k : Nat) (d : Sys2Proof.Machine.Dir) : (s.setDir k d).dies = s.dies := rfl
@[simp] theorem State.setDir_sramDown (s : State) (k : Nat) (d : Sys2Proof.Machine.Dir) : (s.setDir k d).sramDown = s.sramDown := rfl
@[simp] theorem State.setDir_modulesUp (s : State) (k : Nat) (d : Sys2Proof.Machine.Dir) : (s.setDir k d).modulesUp = s.modulesUp := rfl
@[simp] theorem State.setDir_stackDown (s : State) (k : Nat) (d : Sys2Proof.Machine.Dir) : (s.setDir k d).stackDown = s.stackDown := rfl
@[simp] theorem State.setDir_quads (s : State) (k : Nat) (d : Sys2Proof.Machine.Dir) : (s.setDir k d).quads = s.quads := rfl
@[simp] theorem State.setDir_ports (s : State) (k : Nat) (d : Sys2Proof.Machine.Dir) : (s.setDir k d).ports = s.ports := rfl
@[simp] theorem State.setDir_hostSent (s : State) (k : Nat) (d : Sys2Proof.Machine.Dir) : (s.setDir k d).hostSent = s.hostSent := rfl
@[simp] theorem State.setDir_hostSafe (s : State) (k : Nat) (d : Sys2Proof.Machine.Dir) : (s.setDir k d).hostSafe = s.hostSafe := rfl
@[simp] theorem State.setDir_posted (s : State) (k : Nat) (d : Sys2Proof.Machine.Dir) : (s.setDir k d).posted = s.posted := rfl
@[simp] theorem State.setDir_reads (s : State) (k : Nat) (d : Sys2Proof.Machine.Dir) : (s.setDir k d).reads = s.reads := rfl
@[simp] theorem State.setDir_peers (s : State) (k : Nat) (d : Sys2Proof.Machine.Dir) : (s.setDir k d).peers = s.peers := rfl
@[simp] theorem State.setDir_clovar (s : State) (k : Nat) (d : Sys2Proof.Machine.Dir) : (s.setDir k d).clovar = s.clovar := rfl
@[simp] theorem State.setDir_ctxs (s : State) (k : Nat) (d : Sys2Proof.Machine.Dir) : (s.setDir k d).ctxs = s.ctxs := rfl
@[simp] theorem State.setDir_recs (s : State) (k : Nat) (d : Sys2Proof.Machine.Dir) : (s.setDir k d).recs = s.recs := rfl
@[simp] theorem State.setDir_mem (s : State) (k : Nat) (d : Sys2Proof.Machine.Dir) : (s.setDir k d).mem = s.mem := rfl
@[simp] theorem State.setDir_poison (s : State) (k : Nat) (d : Sys2Proof.Machine.Dir) : (s.setDir k d).poison = s.poison := rfl
@[simp] theorem State.setDir_dirty (s : State) (k : Nat) (d : Sys2Proof.Machine.Dir) : (s.setDir k d).dirty = s.dirty := rfl
@[simp] theorem State.setDir_dirtyLines (s : State) (k : Nat) (d : Sys2Proof.Machine.Dir) : (s.setDir k d).dirtyLines = s.dirtyLines := rfl
@[simp] theorem State.setDir_ccache (s : State) (k : Nat) (d : Sys2Proof.Machine.Dir) : (s.setDir k d).ccache = s.ccache := rfl
@[simp] theorem State.setDir_icache (s : State) (k : Nat) (d : Sys2Proof.Machine.Dir) : (s.setDir k d).icache = s.icache := rfl
@[simp] theorem State.setDir_l2 (s : State) (k : Nat) (d : Sys2Proof.Machine.Dir) : (s.setDir k d).l2 = s.l2 := rfl
@[simp] theorem State.setDir_l2Uses (s : State) (k : Nat) (d : Sys2Proof.Machine.Dir) : (s.setDir k d).l2Uses = s.l2Uses := rfl
@[simp] theorem State.setDir_llcNew (s : State) (k : Nat) (d : Sys2Proof.Machine.Dir) : (s.setDir k d).llcNew = s.llcNew := rfl
@[simp] theorem State.setDir_pool (s : State) (k : Nat) (d : Sys2Proof.Machine.Dir) : (s.setDir k d).pool = s.pool := rfl
@[simp] theorem State.setDir_tlb (s : State) (k : Nat) (d : Sys2Proof.Machine.Dir) : (s.setDir k d).tlb = s.tlb := rfl
@[simp] theorem State.setDir_txns (s : State) (k : Nat) (d : Sys2Proof.Machine.Dir) : (s.setDir k d).txns = s.txns := rfl
@[simp] theorem State.setDir_teams (s : State) (k : Nat) (d : Sys2Proof.Machine.Dir) : (s.setDir k d).teams = s.teams := rfl
@[simp] theorem State.setDir_groups (s : State) (k : Nat) (d : Sys2Proof.Machine.Dir) : (s.setDir k d).groups = s.groups := rfl
@[simp] theorem State.setDir_bins (s : State) (k : Nat) (d : Sys2Proof.Machine.Dir) : (s.setDir k d).bins = s.bins := rfl
@[simp] theorem State.setDir_parkedSpawns (s : State) (k : Nat) (d : Sys2Proof.Machine.Dir) : (s.setDir k d).parkedSpawns = s.parkedSpawns := rfl
@[simp] theorem State.setDir_reserves (s : State) (k : Nat) (d : Sys2Proof.Machine.Dir) : (s.setDir k d).reserves = s.reserves := rfl
@[simp] theorem State.setDir_wokenRooms (s : State) (k : Nat) (d : Sys2Proof.Machine.Dir) : (s.setDir k d).wokenRooms = s.wokenRooms := rfl
@[simp] theorem State.setDir_wokenSpawns (s : State) (k : Nat) (d : Sys2Proof.Machine.Dir) : (s.setDir k d).wokenSpawns = s.wokenSpawns := rfl
@[simp] theorem State.setDir_spawns (s : State) (k : Nat) (d : Sys2Proof.Machine.Dir) : (s.setDir k d).spawns = s.spawns := rfl
@[simp] theorem State.setDir_decs (s : State) (k : Nat) (d : Sys2Proof.Machine.Dir) : (s.setDir k d).decs = s.decs := rfl
@[simp] theorem State.setDir_copies (s : State) (k : Nat) (d : Sys2Proof.Machine.Dir) : (s.setDir k d).copies = s.copies := rfl
@[simp] theorem State.setDir_mx (s : State) (k : Nat) (d : Sys2Proof.Machine.Dir) : (s.setDir k d).mx = s.mx := rfl
@[simp] theorem State.setDir_arrays (s : State) (k : Nat) (d : Sys2Proof.Machine.Dir) : (s.setDir k d).arrays = s.arrays := rfl
@[simp] theorem State.setDir_nbs (s : State) (k : Nat) (d : Sys2Proof.Machine.Dir) : (s.setDir k d).nbs = s.nbs := rfl
@[simp] theorem State.setDir_engBuf (s : State) (k : Nat) (d : Sys2Proof.Machine.Dir) : (s.setDir k d).engBuf = s.engBuf := rfl

@[simp] theorem State.setNb_clk (s : State) (k : Nat) (d : Option Nb) : (s.setNb k d).clk = s.clk := rfl
@[simp] theorem State.setNb_uptime (s : State) (k : Nat) (d : Option Nb) : (s.setNb k d).uptime = s.uptime := rfl
@[simp] theorem State.setNb_free (s : State) (k : Nat) (d : Option Nb) : (s.setNb k d).free = s.free := rfl
@[simp] theorem State.setNb_next (s : State) (k : Nat) (d : Option Nb) : (s.setNb k d).next = s.next := rfl
@[simp] theorem State.setNb_agenda (s : State) (k : Nat) (d : Option Nb) : (s.setNb k d).agenda = s.agenda := rfl
@[simp] theorem State.setNb_input (s : State) (k : Nat) (d : Option Nb) : (s.setNb k d).input = s.input := rfl
@[simp] theorem State.setNb_served (s : State) (k : Nat) (d : Option Nb) : (s.setNb k d).served = s.served := rfl
@[simp] theorem State.setNb_bucketNo (s : State) (k : Nat) (d : Option Nb) : (s.setNb k d).bucketNo = s.bucketNo := rfl
@[simp] theorem State.setNb_cur (s : State) (k : Nat) (d : Option Nb) : (s.setNb k d).cur = s.cur := rfl
@[simp] theorem State.setNb_out (s : State) (k : Nat) (d : Option Nb) : (s.setNb k d).out = s.out := rfl
@[simp] theorem State.setNb_mgmt (s : State) (k : Nat) (d : Option Nb) : (s.setNb k d).mgmt = s.mgmt := rfl
@[simp] theorem State.setNb_dies (s : State) (k : Nat) (d : Option Nb) : (s.setNb k d).dies = s.dies := rfl
@[simp] theorem State.setNb_sramDown (s : State) (k : Nat) (d : Option Nb) : (s.setNb k d).sramDown = s.sramDown := rfl
@[simp] theorem State.setNb_modulesUp (s : State) (k : Nat) (d : Option Nb) : (s.setNb k d).modulesUp = s.modulesUp := rfl
@[simp] theorem State.setNb_stackDown (s : State) (k : Nat) (d : Option Nb) : (s.setNb k d).stackDown = s.stackDown := rfl
@[simp] theorem State.setNb_quads (s : State) (k : Nat) (d : Option Nb) : (s.setNb k d).quads = s.quads := rfl
@[simp] theorem State.setNb_ports (s : State) (k : Nat) (d : Option Nb) : (s.setNb k d).ports = s.ports := rfl
@[simp] theorem State.setNb_hostSent (s : State) (k : Nat) (d : Option Nb) : (s.setNb k d).hostSent = s.hostSent := rfl
@[simp] theorem State.setNb_hostSafe (s : State) (k : Nat) (d : Option Nb) : (s.setNb k d).hostSafe = s.hostSafe := rfl
@[simp] theorem State.setNb_posted (s : State) (k : Nat) (d : Option Nb) : (s.setNb k d).posted = s.posted := rfl
@[simp] theorem State.setNb_reads (s : State) (k : Nat) (d : Option Nb) : (s.setNb k d).reads = s.reads := rfl
@[simp] theorem State.setNb_peers (s : State) (k : Nat) (d : Option Nb) : (s.setNb k d).peers = s.peers := rfl
@[simp] theorem State.setNb_clovar (s : State) (k : Nat) (d : Option Nb) : (s.setNb k d).clovar = s.clovar := rfl
@[simp] theorem State.setNb_ctxs (s : State) (k : Nat) (d : Option Nb) : (s.setNb k d).ctxs = s.ctxs := rfl
@[simp] theorem State.setNb_recs (s : State) (k : Nat) (d : Option Nb) : (s.setNb k d).recs = s.recs := rfl
@[simp] theorem State.setNb_mem (s : State) (k : Nat) (d : Option Nb) : (s.setNb k d).mem = s.mem := rfl
@[simp] theorem State.setNb_poison (s : State) (k : Nat) (d : Option Nb) : (s.setNb k d).poison = s.poison := rfl
@[simp] theorem State.setNb_dir (s : State) (k : Nat) (d : Option Nb) : (s.setNb k d).dir = s.dir := rfl
@[simp] theorem State.setNb_dirty (s : State) (k : Nat) (d : Option Nb) : (s.setNb k d).dirty = s.dirty := rfl
@[simp] theorem State.setNb_dirtyLines (s : State) (k : Nat) (d : Option Nb) : (s.setNb k d).dirtyLines = s.dirtyLines := rfl
@[simp] theorem State.setNb_ccache (s : State) (k : Nat) (d : Option Nb) : (s.setNb k d).ccache = s.ccache := rfl
@[simp] theorem State.setNb_icache (s : State) (k : Nat) (d : Option Nb) : (s.setNb k d).icache = s.icache := rfl
@[simp] theorem State.setNb_l2 (s : State) (k : Nat) (d : Option Nb) : (s.setNb k d).l2 = s.l2 := rfl
@[simp] theorem State.setNb_l2Uses (s : State) (k : Nat) (d : Option Nb) : (s.setNb k d).l2Uses = s.l2Uses := rfl
@[simp] theorem State.setNb_llcNew (s : State) (k : Nat) (d : Option Nb) : (s.setNb k d).llcNew = s.llcNew := rfl
@[simp] theorem State.setNb_pool (s : State) (k : Nat) (d : Option Nb) : (s.setNb k d).pool = s.pool := rfl
@[simp] theorem State.setNb_tlb (s : State) (k : Nat) (d : Option Nb) : (s.setNb k d).tlb = s.tlb := rfl
@[simp] theorem State.setNb_txns (s : State) (k : Nat) (d : Option Nb) : (s.setNb k d).txns = s.txns := rfl
@[simp] theorem State.setNb_teams (s : State) (k : Nat) (d : Option Nb) : (s.setNb k d).teams = s.teams := rfl
@[simp] theorem State.setNb_groups (s : State) (k : Nat) (d : Option Nb) : (s.setNb k d).groups = s.groups := rfl
@[simp] theorem State.setNb_bins (s : State) (k : Nat) (d : Option Nb) : (s.setNb k d).bins = s.bins := rfl
@[simp] theorem State.setNb_parkedSpawns (s : State) (k : Nat) (d : Option Nb) : (s.setNb k d).parkedSpawns = s.parkedSpawns := rfl
@[simp] theorem State.setNb_reserves (s : State) (k : Nat) (d : Option Nb) : (s.setNb k d).reserves = s.reserves := rfl
@[simp] theorem State.setNb_wokenRooms (s : State) (k : Nat) (d : Option Nb) : (s.setNb k d).wokenRooms = s.wokenRooms := rfl
@[simp] theorem State.setNb_wokenSpawns (s : State) (k : Nat) (d : Option Nb) : (s.setNb k d).wokenSpawns = s.wokenSpawns := rfl
@[simp] theorem State.setNb_spawns (s : State) (k : Nat) (d : Option Nb) : (s.setNb k d).spawns = s.spawns := rfl
@[simp] theorem State.setNb_decs (s : State) (k : Nat) (d : Option Nb) : (s.setNb k d).decs = s.decs := rfl
@[simp] theorem State.setNb_copies (s : State) (k : Nat) (d : Option Nb) : (s.setNb k d).copies = s.copies := rfl
@[simp] theorem State.setNb_mx (s : State) (k : Nat) (d : Option Nb) : (s.setNb k d).mx = s.mx := rfl
@[simp] theorem State.setNb_arrays (s : State) (k : Nat) (d : Option Nb) : (s.setNb k d).arrays = s.arrays := rfl
@[simp] theorem State.setNb_engBuf (s : State) (k : Nat) (d : Option Nb) : (s.setNb k d).engBuf = s.engBuf := rfl

@[simp] theorem State.emit_clk (s : State) (o : Out) : (s.emit o).clk = s.clk := rfl
@[simp] theorem State.emit_uptime (s : State) (o : Out) : (s.emit o).uptime = s.uptime := rfl
@[simp] theorem State.emit_free (s : State) (o : Out) : (s.emit o).free = s.free := rfl
@[simp] theorem State.emit_next (s : State) (o : Out) : (s.emit o).next = s.next := rfl
@[simp] theorem State.emit_agenda (s : State) (o : Out) : (s.emit o).agenda = s.agenda := rfl
@[simp] theorem State.emit_input (s : State) (o : Out) : (s.emit o).input = s.input := rfl
@[simp] theorem State.emit_served (s : State) (o : Out) : (s.emit o).served = s.served := rfl
@[simp] theorem State.emit_bucketNo (s : State) (o : Out) : (s.emit o).bucketNo = s.bucketNo := rfl
@[simp] theorem State.emit_cur (s : State) (o : Out) : (s.emit o).cur = s.cur := rfl
@[simp] theorem State.emit_mgmt (s : State) (o : Out) : (s.emit o).mgmt = s.mgmt := rfl
@[simp] theorem State.emit_dies (s : State) (o : Out) : (s.emit o).dies = s.dies := rfl
@[simp] theorem State.emit_sramDown (s : State) (o : Out) : (s.emit o).sramDown = s.sramDown := rfl
@[simp] theorem State.emit_modulesUp (s : State) (o : Out) : (s.emit o).modulesUp = s.modulesUp := rfl
@[simp] theorem State.emit_stackDown (s : State) (o : Out) : (s.emit o).stackDown = s.stackDown := rfl
@[simp] theorem State.emit_quads (s : State) (o : Out) : (s.emit o).quads = s.quads := rfl
@[simp] theorem State.emit_ports (s : State) (o : Out) : (s.emit o).ports = s.ports := rfl
@[simp] theorem State.emit_hostSent (s : State) (o : Out) : (s.emit o).hostSent = s.hostSent := rfl
@[simp] theorem State.emit_hostSafe (s : State) (o : Out) : (s.emit o).hostSafe = s.hostSafe := rfl
@[simp] theorem State.emit_posted (s : State) (o : Out) : (s.emit o).posted = s.posted := rfl
@[simp] theorem State.emit_reads (s : State) (o : Out) : (s.emit o).reads = s.reads := rfl
@[simp] theorem State.emit_peers (s : State) (o : Out) : (s.emit o).peers = s.peers := rfl
@[simp] theorem State.emit_clovar (s : State) (o : Out) : (s.emit o).clovar = s.clovar := rfl
@[simp] theorem State.emit_ctxs (s : State) (o : Out) : (s.emit o).ctxs = s.ctxs := rfl
@[simp] theorem State.emit_recs (s : State) (o : Out) : (s.emit o).recs = s.recs := rfl
@[simp] theorem State.emit_mem (s : State) (o : Out) : (s.emit o).mem = s.mem := rfl
@[simp] theorem State.emit_poison (s : State) (o : Out) : (s.emit o).poison = s.poison := rfl
@[simp] theorem State.emit_dir (s : State) (o : Out) : (s.emit o).dir = s.dir := rfl
@[simp] theorem State.emit_dirty (s : State) (o : Out) : (s.emit o).dirty = s.dirty := rfl
@[simp] theorem State.emit_dirtyLines (s : State) (o : Out) : (s.emit o).dirtyLines = s.dirtyLines := rfl
@[simp] theorem State.emit_ccache (s : State) (o : Out) : (s.emit o).ccache = s.ccache := rfl
@[simp] theorem State.emit_icache (s : State) (o : Out) : (s.emit o).icache = s.icache := rfl
@[simp] theorem State.emit_l2 (s : State) (o : Out) : (s.emit o).l2 = s.l2 := rfl
@[simp] theorem State.emit_l2Uses (s : State) (o : Out) : (s.emit o).l2Uses = s.l2Uses := rfl
@[simp] theorem State.emit_llcNew (s : State) (o : Out) : (s.emit o).llcNew = s.llcNew := rfl
@[simp] theorem State.emit_pool (s : State) (o : Out) : (s.emit o).pool = s.pool := rfl
@[simp] theorem State.emit_tlb (s : State) (o : Out) : (s.emit o).tlb = s.tlb := rfl
@[simp] theorem State.emit_txns (s : State) (o : Out) : (s.emit o).txns = s.txns := rfl
@[simp] theorem State.emit_teams (s : State) (o : Out) : (s.emit o).teams = s.teams := rfl
@[simp] theorem State.emit_groups (s : State) (o : Out) : (s.emit o).groups = s.groups := rfl
@[simp] theorem State.emit_bins (s : State) (o : Out) : (s.emit o).bins = s.bins := rfl
@[simp] theorem State.emit_parkedSpawns (s : State) (o : Out) : (s.emit o).parkedSpawns = s.parkedSpawns := rfl
@[simp] theorem State.emit_reserves (s : State) (o : Out) : (s.emit o).reserves = s.reserves := rfl
@[simp] theorem State.emit_wokenRooms (s : State) (o : Out) : (s.emit o).wokenRooms = s.wokenRooms := rfl
@[simp] theorem State.emit_wokenSpawns (s : State) (o : Out) : (s.emit o).wokenSpawns = s.wokenSpawns := rfl
@[simp] theorem State.emit_spawns (s : State) (o : Out) : (s.emit o).spawns = s.spawns := rfl
@[simp] theorem State.emit_decs (s : State) (o : Out) : (s.emit o).decs = s.decs := rfl
@[simp] theorem State.emit_copies (s : State) (o : Out) : (s.emit o).copies = s.copies := rfl
@[simp] theorem State.emit_mx (s : State) (o : Out) : (s.emit o).mx = s.mx := rfl
@[simp] theorem State.emit_arrays (s : State) (o : Out) : (s.emit o).arrays = s.arrays := rfl
@[simp] theorem State.emit_nbs (s : State) (o : Out) : (s.emit o).nbs = s.nbs := rfl
@[simp] theorem State.emit_engBuf (s : State) (o : Out) : (s.emit o).engBuf = s.engBuf := rfl

@[simp] theorem State.setCell_clk (s : State) (a : Nat) (b : Byte) : (s.setCell a b).clk = s.clk := rfl
@[simp] theorem State.setCell_uptime (s : State) (a : Nat) (b : Byte) : (s.setCell a b).uptime = s.uptime := rfl
@[simp] theorem State.setCell_free (s : State) (a : Nat) (b : Byte) : (s.setCell a b).free = s.free := rfl
@[simp] theorem State.setCell_next (s : State) (a : Nat) (b : Byte) : (s.setCell a b).next = s.next := rfl
@[simp] theorem State.setCell_agenda (s : State) (a : Nat) (b : Byte) : (s.setCell a b).agenda = s.agenda := rfl
@[simp] theorem State.setCell_input (s : State) (a : Nat) (b : Byte) : (s.setCell a b).input = s.input := rfl
@[simp] theorem State.setCell_served (s : State) (a : Nat) (b : Byte) : (s.setCell a b).served = s.served := rfl
@[simp] theorem State.setCell_bucketNo (s : State) (a : Nat) (b : Byte) : (s.setCell a b).bucketNo = s.bucketNo := rfl
@[simp] theorem State.setCell_cur (s : State) (a : Nat) (b : Byte) : (s.setCell a b).cur = s.cur := rfl
@[simp] theorem State.setCell_out (s : State) (a : Nat) (b : Byte) : (s.setCell a b).out = s.out := rfl
@[simp] theorem State.setCell_mgmt (s : State) (a : Nat) (b : Byte) : (s.setCell a b).mgmt = s.mgmt := rfl
@[simp] theorem State.setCell_dies (s : State) (a : Nat) (b : Byte) : (s.setCell a b).dies = s.dies := rfl
@[simp] theorem State.setCell_sramDown (s : State) (a : Nat) (b : Byte) : (s.setCell a b).sramDown = s.sramDown := rfl
@[simp] theorem State.setCell_modulesUp (s : State) (a : Nat) (b : Byte) : (s.setCell a b).modulesUp = s.modulesUp := rfl
@[simp] theorem State.setCell_stackDown (s : State) (a : Nat) (b : Byte) : (s.setCell a b).stackDown = s.stackDown := rfl
@[simp] theorem State.setCell_quads (s : State) (a : Nat) (b : Byte) : (s.setCell a b).quads = s.quads := rfl
@[simp] theorem State.setCell_ports (s : State) (a : Nat) (b : Byte) : (s.setCell a b).ports = s.ports := rfl
@[simp] theorem State.setCell_hostSent (s : State) (a : Nat) (b : Byte) : (s.setCell a b).hostSent = s.hostSent := rfl
@[simp] theorem State.setCell_hostSafe (s : State) (a : Nat) (b : Byte) : (s.setCell a b).hostSafe = s.hostSafe := rfl
@[simp] theorem State.setCell_posted (s : State) (a : Nat) (b : Byte) : (s.setCell a b).posted = s.posted := rfl
@[simp] theorem State.setCell_reads (s : State) (a : Nat) (b : Byte) : (s.setCell a b).reads = s.reads := rfl
@[simp] theorem State.setCell_peers (s : State) (a : Nat) (b : Byte) : (s.setCell a b).peers = s.peers := rfl
@[simp] theorem State.setCell_clovar (s : State) (a : Nat) (b : Byte) : (s.setCell a b).clovar = s.clovar := rfl
@[simp] theorem State.setCell_ctxs (s : State) (a : Nat) (b : Byte) : (s.setCell a b).ctxs = s.ctxs := rfl
@[simp] theorem State.setCell_recs (s : State) (a : Nat) (b : Byte) : (s.setCell a b).recs = s.recs := rfl
@[simp] theorem State.setCell_poison (s : State) (a : Nat) (b : Byte) : (s.setCell a b).poison = s.poison := rfl
@[simp] theorem State.setCell_dir (s : State) (a : Nat) (b : Byte) : (s.setCell a b).dir = s.dir := rfl
@[simp] theorem State.setCell_dirty (s : State) (a : Nat) (b : Byte) : (s.setCell a b).dirty = s.dirty := rfl
@[simp] theorem State.setCell_dirtyLines (s : State) (a : Nat) (b : Byte) : (s.setCell a b).dirtyLines = s.dirtyLines := rfl
@[simp] theorem State.setCell_ccache (s : State) (a : Nat) (b : Byte) : (s.setCell a b).ccache = s.ccache := rfl
@[simp] theorem State.setCell_icache (s : State) (a : Nat) (b : Byte) : (s.setCell a b).icache = s.icache := rfl
@[simp] theorem State.setCell_l2 (s : State) (a : Nat) (b : Byte) : (s.setCell a b).l2 = s.l2 := rfl
@[simp] theorem State.setCell_l2Uses (s : State) (a : Nat) (b : Byte) : (s.setCell a b).l2Uses = s.l2Uses := rfl
@[simp] theorem State.setCell_llcNew (s : State) (a : Nat) (b : Byte) : (s.setCell a b).llcNew = s.llcNew := rfl
@[simp] theorem State.setCell_pool (s : State) (a : Nat) (b : Byte) : (s.setCell a b).pool = s.pool := rfl
@[simp] theorem State.setCell_tlb (s : State) (a : Nat) (b : Byte) : (s.setCell a b).tlb = s.tlb := rfl
@[simp] theorem State.setCell_txns (s : State) (a : Nat) (b : Byte) : (s.setCell a b).txns = s.txns := rfl
@[simp] theorem State.setCell_teams (s : State) (a : Nat) (b : Byte) : (s.setCell a b).teams = s.teams := rfl
@[simp] theorem State.setCell_groups (s : State) (a : Nat) (b : Byte) : (s.setCell a b).groups = s.groups := rfl
@[simp] theorem State.setCell_bins (s : State) (a : Nat) (b : Byte) : (s.setCell a b).bins = s.bins := rfl
@[simp] theorem State.setCell_parkedSpawns (s : State) (a : Nat) (b : Byte) : (s.setCell a b).parkedSpawns = s.parkedSpawns := rfl
@[simp] theorem State.setCell_reserves (s : State) (a : Nat) (b : Byte) : (s.setCell a b).reserves = s.reserves := rfl
@[simp] theorem State.setCell_wokenRooms (s : State) (a : Nat) (b : Byte) : (s.setCell a b).wokenRooms = s.wokenRooms := rfl
@[simp] theorem State.setCell_wokenSpawns (s : State) (a : Nat) (b : Byte) : (s.setCell a b).wokenSpawns = s.wokenSpawns := rfl
@[simp] theorem State.setCell_spawns (s : State) (a : Nat) (b : Byte) : (s.setCell a b).spawns = s.spawns := rfl
@[simp] theorem State.setCell_decs (s : State) (a : Nat) (b : Byte) : (s.setCell a b).decs = s.decs := rfl
@[simp] theorem State.setCell_copies (s : State) (a : Nat) (b : Byte) : (s.setCell a b).copies = s.copies := rfl
@[simp] theorem State.setCell_mx (s : State) (a : Nat) (b : Byte) : (s.setCell a b).mx = s.mx := rfl
@[simp] theorem State.setCell_arrays (s : State) (a : Nat) (b : Byte) : (s.setCell a b).arrays = s.arrays := rfl
@[simp] theorem State.setCell_nbs (s : State) (a : Nat) (b : Byte) : (s.setCell a b).nbs = s.nbs := rfl
@[simp] theorem State.setCell_engBuf (s : State) (a : Nat) (b : Byte) : (s.setCell a b).engBuf = s.engBuf := rfl

/-! A reading after the update of what it reads. -/

theorem State.die_setDie (s : State) (k j : Nat) (d : Die) : (s.setDie k d).die j = if j = k then d else s.die j :=
  Sparse.get_set ..
@[simp] theorem State.die_setDie_same (s : State) (k : Nat) (d : Die) : (s.setDie k d).die k = d := Sparse.get_set_same ..
theorem State.quad_setQuad (s : State) (k j : Nat) (d : Quad) : (s.setQuad k d).quad j = if j = k then d else s.quad j :=
  Sparse.get_set ..
@[simp] theorem State.quad_setQuad_same (s : State) (k : Nat) (d : Quad) : (s.setQuad k d).quad k = d := Sparse.get_set_same ..
theorem State.port_setPort (s : State) (k j : Nat) (d : Port) : (s.setPort k d).port j = if j = k then d else s.port j :=
  Sparse.get_set ..
@[simp] theorem State.port_setPort_same (s : State) (k : Nat) (d : Port) : (s.setPort k d).port k = d := Sparse.get_set_same ..
theorem State.ctx_setCtx (s : State) (k j : Nat) (d : Ctx) : (s.setCtx k d).ctx j = if j = k then d else s.ctx j :=
  Sparse.get_set ..
@[simp] theorem State.ctx_setCtx_same (s : State) (k : Nat) (d : Ctx) : (s.setCtx k d).ctx k = d := Sparse.get_set_same ..
theorem State.rcd_setRec (s : State) (k j : Nat) (d : Rec) : (s.setRec k d).rcd j = if j = k then d else s.rcd j :=
  Sparse.get_set ..
@[simp] theorem State.rcd_setRec_same (s : State) (k : Nat) (d : Rec) : (s.setRec k d).rcd k = d := Sparse.get_set_same ..
theorem State.txn_setTxn (s : State) (k j : Nat) (d : Option Txn) : (s.setTxn k d).txn j = if j = k then d else s.txn j :=
  Sparse.get_set ..
@[simp] theorem State.txn_setTxn_same (s : State) (k : Nat) (d : Option Txn) : (s.setTxn k d).txn k = d := Sparse.get_set_same ..
theorem State.array_setArray (s : State) (k j : Nat) (d : SxArray) : (s.setArray k d).array j = if j = k then d else s.array j :=
  Sparse.get_set ..
@[simp] theorem State.array_setArray_same (s : State) (k : Nat) (d : SxArray) : (s.setArray k d).array k = d := Sparse.get_set_same ..
theorem State.copy_setCopy (s : State) (k j : Nat) (d : Option Copy) : (s.setCopy k d).copy j = if j = k then d else s.copy j :=
  Sparse.get_set ..
@[simp] theorem State.copy_setCopy_same (s : State) (k : Nat) (d : Option Copy) : (s.setCopy k d).copy k = d := Sparse.get_set_same ..
@[simp] theorem State.group_setGroup_same (s : State) (k : Nat) (d : Group) : (s.setGroup k d).group k = some d := by simp [State.setGroup, State.group]
@[simp] theorem State.team_setTeam_same (s : State) (k : Nat) (d : Team) : (s.setTeam k d).team k = some d := by simp [State.setTeam, State.team]
@[simp] theorem State.group_delGroup_same (s : State) (k : Nat) : (s.delGroup k).group k = none := by simp [State.delGroup, State.group]
@[simp] theorem State.team_delTeam_same (s : State) (k : Nat) : (s.delTeam k).team k = none := by simp [State.delTeam, State.team]
theorem State.dirOf_setDir (s : State) (k j : Nat) (d : Sys2Proof.Machine.Dir) : (s.setDir k d).dirOf j = if j = k then d else s.dirOf j :=
  Sparse.get_set ..

/-! Groups and lanes. -/

@[simp] theorem Group.setLane_launch (g : Group) (l : Nat) (d : Lane) : (g.setLane l d).launch = g.launch := rfl
@[simp] theorem Group.setLane_team (g : Group) (l : Nat) (d : Lane) : (g.setLane l d).team = g.team := rfl
@[simp] theorem Group.setLane_spawned (g : Group) (l : Nat) (d : Lane) : (g.setLane l d).spawned = g.spawned := rfl
@[simp] theorem Group.setLane_core (g : Group) (l : Nat) (d : Lane) : (g.setLane l d).core = g.core := rfl
@[simp] theorem Group.setLane_quarter (g : Group) (l : Nat) (d : Lane) : (g.setLane l d).quarter = g.quarter := rfl
@[simp] theorem Group.setLane_slot (g : Group) (l : Nat) (d : Lane) : (g.setLane l d).slot = g.slot := rfl
@[simp] theorem Group.setLane_role (g : Group) (l : Nat) (d : Lane) : (g.setLane l d).role = g.role := rfl
@[simp] theorem Group.setLane_grp (g : Group) (l : Nat) (d : Lane) : (g.setLane l d).grp = g.grp := rfl
@[simp] theorem Group.setLane_budget (g : Group) (l : Nat) (d : Lane) : (g.setLane l d).budget = g.budget := rfl
@[simp] theorem Group.setLane_frame (g : Group) (l : Nat) (d : Lane) : (g.setLane l d).frame = g.frame := rfl
@[simp] theorem Group.setLane_resident (g : Group) (l : Nat) (d : Lane) : (g.setLane l d).resident = g.resident := rfl
@[simp] theorem Group.setLane_admitted (g : Group) (l : Nat) (d : Lane) : (g.setLane l d).admitted = g.admitted := rfl
@[simp] theorem Group.setLane_lastIssue (g : Group) (l : Nat) (d : Lane) : (g.setLane l d).lastIssue = g.lastIssue := rfl
@[simp] theorem Group.setLane_g (g : Group) (l : Nat) (d : Lane) : (g.setLane l d).g = g.g := rfl
@[simp] theorem Group.setLane_step (g : Group) (l : Nat) (d : Lane) : (g.setLane l d).step = g.step := rfl
@[simp] theorem Group.setLane_floor (g : Group) (l : Nat) (d : Lane) : (g.setLane l d).floor = g.floor := rfl
@[simp] theorem Group.setLane_mask (g : Group) (l : Nat) (d : Lane) : (g.setLane l d).mask = g.mask := rfl
@[simp] theorem Group.setLane_handling (g : Group) (l : Nat) (d : Lane) : (g.setLane l d).handling = g.handling := rfl
@[simp] theorem Group.setLane_handlerPc (g : Group) (l : Nat) (d : Lane) : (g.setLane l d).handlerPc = g.handlerPc := rfl
@[simp] theorem Group.setLane_backoff (g : Group) (l : Nat) (d : Lane) : (g.setLane l d).backoff = g.backoff := rfl
@[simp] theorem Group.setLane_held (g : Group) (l : Nat) (d : Lane) : (g.setLane l d).held = g.held := rfl
@[simp] theorem Group.setLane_asleep (g : Group) (l : Nat) (d : Lane) : (g.setLane l d).asleep = g.asleep := rfl
@[simp] theorem Group.setLane_idle (g : Group) (l : Nat) (d : Lane) : (g.setLane l d).idle = g.idle := rfl
@[simp] theorem Group.setLane_depthNp (g : Group) (l : Nat) (d : Lane) : (g.setLane l d).depthNp = g.depthNp := rfl
@[simp] theorem Group.setLane_buckets (g : Group) (l : Nat) (d : Lane) : (g.setLane l d).buckets = g.buckets := rfl
@[simp] theorem Group.setLane_overrun (g : Group) (l : Nat) (d : Lane) : (g.setLane l d).overrun = g.overrun := rfl
@[simp] theorem Group.setLane_preempt (g : Group) (l : Nat) (d : Lane) : (g.setLane l d).preempt = g.preempt := rfl
@[simp] theorem Group.setLane_atStep (g : Group) (l : Nat) (d : Lane) : (g.setLane l d).atStep = g.atStep := rfl
@[simp] theorem Group.setLane_loc (g : Group) (l : Nat) (d : Lane) : (g.setLane l d).loc = g.loc := rfl
@[simp] theorem Group.setLane_hazards (g : Group) (l : Nat) (d : Lane) : (g.setLane l d).hazards = g.hazards := rfl
@[simp] theorem Group.setLane_landings (g : Group) (l : Nat) (d : Lane) : (g.setLane l d).landings = g.landings := rfl
@[simp] theorem Group.setLane_readyAt (g : Group) (l : Nat) (d : Lane) : (g.setLane l d).readyAt = g.readyAt := rfl
@[simp] theorem Group.setLane_jwaitEnded (g : Group) (l : Nat) (d : Lane) : (g.setLane l d).jwaitEnded = g.jwaitEnded := rfl
@[simp] theorem Group.setLane_polls (g : Group) (l : Nat) (d : Lane) : (g.setLane l d).polls = g.polls := rfl
@[simp] theorem Group.setLane_fetched (g : Group) (l : Nat) (d : Lane) : (g.setLane l d).fetched = g.fetched := rfl
@[simp] theorem Group.setLane_pool (g : Group) (l : Nat) (d : Lane) : (g.setLane l d).pool = g.pool := rfl
@[simp] theorem Group.setLane_alone (g : Group) (l : Nat) (d : Lane) : (g.setLane l d).alone = g.alone := rfl
@[simp] theorem Group.setLane_waited (g : Group) (l : Nat) (d : Lane) : (g.setLane l d).waited = g.waited := rfl
@[simp] theorem Group.setLane_lastPort (g : Group) (l : Nat) (d : Lane) : (g.setLane l d).lastPort = g.lastPort := rfl
@[simp] theorem Group.setLane_portTill (g : Group) (l : Nat) (d : Lane) : (g.setLane l d).portTill = g.portTill := rfl
@[simp] theorem Group.setLane_unres (g : Group) (l : Nat) (d : Lane) : (g.setLane l d).unres = g.unres := rfl
@[simp] theorem Group.setLane_behind (g : Group) (l : Nat) (d : Lane) : (g.setLane l d).behind = g.behind := rfl
@[simp] theorem Group.setGr_launch (g : Group) (r : Nat) (x : Word) : (g.setGr r x).launch = g.launch := by unfold Group.setGr; split <;> rfl
@[simp] theorem Group.setGr_team (g : Group) (r : Nat) (x : Word) : (g.setGr r x).team = g.team := by unfold Group.setGr; split <;> rfl
@[simp] theorem Group.setGr_spawned (g : Group) (r : Nat) (x : Word) : (g.setGr r x).spawned = g.spawned := by unfold Group.setGr; split <;> rfl
@[simp] theorem Group.setGr_core (g : Group) (r : Nat) (x : Word) : (g.setGr r x).core = g.core := by unfold Group.setGr; split <;> rfl
@[simp] theorem Group.setGr_quarter (g : Group) (r : Nat) (x : Word) : (g.setGr r x).quarter = g.quarter := by unfold Group.setGr; split <;> rfl
@[simp] theorem Group.setGr_slot (g : Group) (r : Nat) (x : Word) : (g.setGr r x).slot = g.slot := by unfold Group.setGr; split <;> rfl
@[simp] theorem Group.setGr_role (g : Group) (r : Nat) (x : Word) : (g.setGr r x).role = g.role := by unfold Group.setGr; split <;> rfl
@[simp] theorem Group.setGr_grp (g : Group) (r : Nat) (x : Word) : (g.setGr r x).grp = g.grp := by unfold Group.setGr; split <;> rfl
@[simp] theorem Group.setGr_budget (g : Group) (r : Nat) (x : Word) : (g.setGr r x).budget = g.budget := by unfold Group.setGr; split <;> rfl
@[simp] theorem Group.setGr_frame (g : Group) (r : Nat) (x : Word) : (g.setGr r x).frame = g.frame := by unfold Group.setGr; split <;> rfl
@[simp] theorem Group.setGr_resident (g : Group) (r : Nat) (x : Word) : (g.setGr r x).resident = g.resident := by unfold Group.setGr; split <;> rfl
@[simp] theorem Group.setGr_admitted (g : Group) (r : Nat) (x : Word) : (g.setGr r x).admitted = g.admitted := by unfold Group.setGr; split <;> rfl
@[simp] theorem Group.setGr_lastIssue (g : Group) (r : Nat) (x : Word) : (g.setGr r x).lastIssue = g.lastIssue := by unfold Group.setGr; split <;> rfl
@[simp] theorem Group.setGr_lanes (g : Group) (r : Nat) (x : Word) : (g.setGr r x).lanes = g.lanes := by unfold Group.setGr; split <;> rfl
@[simp] theorem Group.setGr_step (g : Group) (r : Nat) (x : Word) : (g.setGr r x).step = g.step := by unfold Group.setGr; split <;> rfl
@[simp] theorem Group.setGr_floor (g : Group) (r : Nat) (x : Word) : (g.setGr r x).floor = g.floor := by unfold Group.setGr; split <;> rfl
@[simp] theorem Group.setGr_mask (g : Group) (r : Nat) (x : Word) : (g.setGr r x).mask = g.mask := by unfold Group.setGr; split <;> rfl
@[simp] theorem Group.setGr_handling (g : Group) (r : Nat) (x : Word) : (g.setGr r x).handling = g.handling := by unfold Group.setGr; split <;> rfl
@[simp] theorem Group.setGr_handlerPc (g : Group) (r : Nat) (x : Word) : (g.setGr r x).handlerPc = g.handlerPc := by unfold Group.setGr; split <;> rfl
@[simp] theorem Group.setGr_backoff (g : Group) (r : Nat) (x : Word) : (g.setGr r x).backoff = g.backoff := by unfold Group.setGr; split <;> rfl
@[simp] theorem Group.setGr_held (g : Group) (r : Nat) (x : Word) : (g.setGr r x).held = g.held := by unfold Group.setGr; split <;> rfl
@[simp] theorem Group.setGr_asleep (g : Group) (r : Nat) (x : Word) : (g.setGr r x).asleep = g.asleep := by unfold Group.setGr; split <;> rfl
@[simp] theorem Group.setGr_idle (g : Group) (r : Nat) (x : Word) : (g.setGr r x).idle = g.idle := by unfold Group.setGr; split <;> rfl
@[simp] theorem Group.setGr_depthNp (g : Group) (r : Nat) (x : Word) : (g.setGr r x).depthNp = g.depthNp := by unfold Group.setGr; split <;> rfl
@[simp] theorem Group.setGr_buckets (g : Group) (r : Nat) (x : Word) : (g.setGr r x).buckets = g.buckets := by unfold Group.setGr; split <;> rfl
@[simp] theorem Group.setGr_overrun (g : Group) (r : Nat) (x : Word) : (g.setGr r x).overrun = g.overrun := by unfold Group.setGr; split <;> rfl
@[simp] theorem Group.setGr_preempt (g : Group) (r : Nat) (x : Word) : (g.setGr r x).preempt = g.preempt := by unfold Group.setGr; split <;> rfl
@[simp] theorem Group.setGr_atStep (g : Group) (r : Nat) (x : Word) : (g.setGr r x).atStep = g.atStep := by unfold Group.setGr; split <;> rfl
@[simp] theorem Group.setGr_loc (g : Group) (r : Nat) (x : Word) : (g.setGr r x).loc = g.loc := by unfold Group.setGr; split <;> rfl
@[simp] theorem Group.setGr_hazards (g : Group) (r : Nat) (x : Word) : (g.setGr r x).hazards = g.hazards := by unfold Group.setGr; split <;> rfl
@[simp] theorem Group.setGr_landings (g : Group) (r : Nat) (x : Word) : (g.setGr r x).landings = g.landings := by unfold Group.setGr; split <;> rfl
@[simp] theorem Group.setGr_readyAt (g : Group) (r : Nat) (x : Word) : (g.setGr r x).readyAt = g.readyAt := by unfold Group.setGr; split <;> rfl
@[simp] theorem Group.setGr_jwaitEnded (g : Group) (r : Nat) (x : Word) : (g.setGr r x).jwaitEnded = g.jwaitEnded := by unfold Group.setGr; split <;> rfl
@[simp] theorem Group.setGr_polls (g : Group) (r : Nat) (x : Word) : (g.setGr r x).polls = g.polls := by unfold Group.setGr; split <;> rfl
@[simp] theorem Group.setGr_fetched (g : Group) (r : Nat) (x : Word) : (g.setGr r x).fetched = g.fetched := by unfold Group.setGr; split <;> rfl
@[simp] theorem Group.setGr_pool (g : Group) (r : Nat) (x : Word) : (g.setGr r x).pool = g.pool := by unfold Group.setGr; split <;> rfl
@[simp] theorem Group.setGr_alone (g : Group) (r : Nat) (x : Word) : (g.setGr r x).alone = g.alone := by unfold Group.setGr; split <;> rfl
@[simp] theorem Group.setGr_waited (g : Group) (r : Nat) (x : Word) : (g.setGr r x).waited = g.waited := by unfold Group.setGr; split <;> rfl
@[simp] theorem Group.setGr_lastPort (g : Group) (r : Nat) (x : Word) : (g.setGr r x).lastPort = g.lastPort := by unfold Group.setGr; split <;> rfl
@[simp] theorem Group.setGr_portTill (g : Group) (r : Nat) (x : Word) : (g.setGr r x).portTill = g.portTill := by unfold Group.setGr; split <;> rfl
@[simp] theorem Group.setGr_unres (g : Group) (r : Nat) (x : Word) : (g.setGr r x).unres = g.unres := by unfold Group.setGr; split <;> rfl
@[simp] theorem Group.setGr_behind (g : Group) (r : Nat) (x : Word) : (g.setGr r x).behind = g.behind := by unfold Group.setGr; split <;> rfl
@[simp] theorem Lane.setReg_st (l : Lane) (r : Nat) (x : Word) : (l.setReg r x).st = l.st := by unfold Lane.setReg; split <;> rfl
@[simp] theorem Lane.setReg_park (l : Lane) (r : Nat) (x : Word) : (l.setReg r x).park = l.park := by unfold Lane.setReg; split <;> rfl
@[simp] theorem Lane.setReg_ready (l : Lane) (r : Nat) (x : Word) : (l.setReg r x).ready = l.ready := by unfold Lane.setReg; split <;> rfl
@[simp] theorem Lane.setReg_age (l : Lane) (r : Nat) (x : Word) : (l.setReg r x).age = l.age := by unfold Lane.setReg; split <;> rfl
@[simp] theorem Lane.setReg_pc (l : Lane) (r : Nat) (x : Word) : (l.setReg r x).pc = l.pc := by unfold Lane.setReg; split <;> rfl
@[simp] theorem Lane.setReg_p (l : Lane) (r : Nat) (x : Word) : (l.setReg r x).p = l.p := by unfold Lane.setReg; split <;> rfl
@[simp] theorem Lane.setReg_rm (l : Lane) (r : Nat) (x : Word) : (l.setReg r x).rm = l.rm := by unfold Lane.setReg; split <;> rfl
@[simp] theorem Lane.setReg_flags (l : Lane) (r : Nat) (x : Word) : (l.setReg r x).flags = l.flags := by unfold Lane.setReg; split <;> rfl
@[simp] theorem Lane.setReg_cause (l : Lane) (r : Nat) (x : Word) : (l.setReg r x).cause = l.cause := by unfold Lane.setReg; split <;> rfl
@[simp] theorem Lane.setReg_addr (l : Lane) (r : Nat) (x : Word) : (l.setReg r x).addr = l.addr := by unfold Lane.setReg; split <;> rfl
@[simp] theorem Lane.setReg_replayJoin (l : Lane) (r : Nat) (x : Word) : (l.setReg r x).replayJoin = l.replayJoin := by unfold Lane.setReg; split <;> rfl
@[simp] theorem Lane.setReg_handler (l : Lane) (r : Nat) (x : Word) : (l.setReg r x).handler = l.handler := by unfold Lane.setReg; split <;> rfl
@[simp] theorem Lane.setReg_mark (l : Lane) (r : Nat) (x : Word) : (l.setReg r x).mark = l.mark := by unfold Lane.setReg; split <;> rfl
@[simp] theorem Lane.setReg_openBatch (l : Lane) (r : Nat) (x : Word) : (l.setReg r x).openBatch = l.openBatch := by unfold Lane.setReg; split <;> rfl
@[simp] theorem Lane.setReg_linkLost (l : Lane) (r : Nat) (x : Word) : (l.setReg r x).linkLost = l.linkLost := by unfold Lane.setReg; split <;> rfl
@[simp] theorem Lane.setReg_rejected (l : Lane) (r : Nat) (x : Word) : (l.setReg r x).rejected = l.rejected := by unfold Lane.setReg; split <;> rfl
@[simp] theorem Lane.setReg_relFence (l : Lane) (r : Nat) (x : Word) : (l.setReg r x).relFence = l.relFence := by unfold Lane.setReg; split <;> rfl
@[simp] theorem Lane.setPred_st (l : Lane) (r : Nat) (x : Bool) : (l.setPred r x).st = l.st := by unfold Lane.setPred; split <;> rfl
@[simp] theorem Lane.setPred_park (l : Lane) (r : Nat) (x : Bool) : (l.setPred r x).park = l.park := by unfold Lane.setPred; split <;> rfl
@[simp] theorem Lane.setPred_ready (l : Lane) (r : Nat) (x : Bool) : (l.setPred r x).ready = l.ready := by unfold Lane.setPred; split <;> rfl
@[simp] theorem Lane.setPred_age (l : Lane) (r : Nat) (x : Bool) : (l.setPred r x).age = l.age := by unfold Lane.setPred; split <;> rfl
@[simp] theorem Lane.setPred_pc (l : Lane) (r : Nat) (x : Bool) : (l.setPred r x).pc = l.pc := by unfold Lane.setPred; split <;> rfl
@[simp] theorem Lane.setPred_v (l : Lane) (r : Nat) (x : Bool) : (l.setPred r x).v = l.v := by unfold Lane.setPred; split <;> rfl
@[simp] theorem Lane.setPred_rm (l : Lane) (r : Nat) (x : Bool) : (l.setPred r x).rm = l.rm := by unfold Lane.setPred; split <;> rfl
@[simp] theorem Lane.setPred_flags (l : Lane) (r : Nat) (x : Bool) : (l.setPred r x).flags = l.flags := by unfold Lane.setPred; split <;> rfl
@[simp] theorem Lane.setPred_cause (l : Lane) (r : Nat) (x : Bool) : (l.setPred r x).cause = l.cause := by unfold Lane.setPred; split <;> rfl
@[simp] theorem Lane.setPred_addr (l : Lane) (r : Nat) (x : Bool) : (l.setPred r x).addr = l.addr := by unfold Lane.setPred; split <;> rfl
@[simp] theorem Lane.setPred_replayJoin (l : Lane) (r : Nat) (x : Bool) : (l.setPred r x).replayJoin = l.replayJoin := by unfold Lane.setPred; split <;> rfl
@[simp] theorem Lane.setPred_handler (l : Lane) (r : Nat) (x : Bool) : (l.setPred r x).handler = l.handler := by unfold Lane.setPred; split <;> rfl
@[simp] theorem Lane.setPred_mark (l : Lane) (r : Nat) (x : Bool) : (l.setPred r x).mark = l.mark := by unfold Lane.setPred; split <;> rfl
@[simp] theorem Lane.setPred_openBatch (l : Lane) (r : Nat) (x : Bool) : (l.setPred r x).openBatch = l.openBatch := by unfold Lane.setPred; split <;> rfl
@[simp] theorem Lane.setPred_linkLost (l : Lane) (r : Nat) (x : Bool) : (l.setPred r x).linkLost = l.linkLost := by unfold Lane.setPred; split <;> rfl
@[simp] theorem Lane.setPred_rejected (l : Lane) (r : Nat) (x : Bool) : (l.setPred r x).rejected = l.rejected := by unfold Lane.setPred; split <;> rfl
@[simp] theorem Lane.setPred_relFence (l : Lane) (r : Nat) (x : Bool) : (l.setPred r x).relFence = l.relFence := by unfold Lane.setPred; split <;> rfl

/-- A register read after a write: vz reads as zero and takes no value (R309). -/
theorem Lane.reg_setReg (l : Lane) (r j : Nat) (x : Word) :
    (l.setReg r x).reg j = if j = r ∧ r ≠ 511 then x else l.reg j := by
  unfold Lane.setReg Lane.reg
  by_cases hr : r = 511
  · simp [hr]
  · by_cases hj : j = 511
    · simp [hr, hj]; omega
    · simp [hr, hj, Sparse.get_set]

/-- A uniform register read after a write: gz reads as zero and takes no value (R309). -/
theorem Group.gr_setGr (g : Group) (r j : Nat) (x : Word) :
    (g.setGr r x).gr j = if j = r ∧ r < 127 then x else g.gr j := by
  unfold Group.setGr Group.gr
  by_cases hr : 127 ≤ r
  · have : ¬ r < 127 := by omega
    simp [hr, this]
  · have hr' : r < 127 := by omega
    by_cases hj : 127 ≤ j
    · have : j ≠ r := by omega
      simp [hr, hj, this]
    · simp [hr, hr', hj, Sparse.get_set]

end Sys2Proof.Machine
end

