-- ==== Sys2Proof/Laws/Word.lean ====
section
/-! SUPPORT. Word.lean: what issuing a word that only computes can do, said once for all such words. -/
namespace Sys2Proof.Machine

open Sys2Proof.Safety

theorem lane_setLane (g : Group) (l j : Nat) (d : Lane) : (g.setLane l d).lane j = if j = l then d else g.lane j :=
  Sparse.get_set _ _ _ _ _

theorem group_setGroup (s : State) (i j : Nat) (g : Group) :
    (s.setGroup i g).group j = if j = i then some g else s.group j := by
  simp only [State.group, State.setGroup, Sparse.get_set]

/-- A pass over lanes that rewrites each lane of a list on its own. -/
theorem foldLanes (m : BitVec 32) (F : Nat → Lane → Lane) (ls : List Nat) (hn : ls.Nodup) (g : Group) :
    let g' := ls.foldl (fun (g : Group) l => if m.getLsbD l then g.setLane l (F l (g.lane l)) else g) g
    (∀ j, g'.lane j = if j ∈ ls ∧ m.getLsbD j then F j (g.lane j) else g.lane j) ∧ g' = { g with lanes := g'.lanes } := by
  induction ls generalizing g with
  | nil => simp
  | cons l ls ih =>
    obtain ⟨hl, hn⟩ := List.nodup_cons.mp hn
    simp only [List.foldl_cons]
    by_cases hm : m.getLsbD l
    · simp only [hm, ↓reduceIte]
      obtain ⟨h1, h2⟩ := ih hn (g.setLane l (F l (g.lane l)))
      refine ⟨fun j => ?_, ?_⟩
      · rw [h1, lane_setLane]
        by_cases hj : j = l
        · subst hj; simp [hl, hm]
        · simp [hj]
      · rw [h2]; rfl
    · simp only [hm]
      obtain ⟨h1, h2⟩ := ih hn g
      refine ⟨fun j => ?_, h2⟩
      rw [if_neg (by simp : ¬ false = true), h1]
      by_cases hj : j = l
      · subst hj; simp [hl, hm]
      · simp [hj]

theorem lanes32_nodup : lanes32.Nodup := List.nodup_range

theorem mem_lanes32 {l : Nat} : l ∈ lanes32 ↔ l < 32 := List.mem_range

theorem mem_lanesOf {m : BitVec 32} {l : Nat} : l ∈ lanesOf m ↔ l < 32 ∧ m.getLsbD l = true := by
  simp [lanesOf, mem_lanes32]

theorem lanesOf_nodup (m : BitVec 32) : (lanesOf m).Nodup := lanes32_nodup.filter _

theorem getLsbD_maskOf (ls : List Nat) (l : Nat) (h : l < 32) : (maskOf ls).getLsbD l = decide (l ∈ ls) := by
  have key : ∀ (ls : List Nat) (m : BitVec 32),
      (ls.foldl (fun m l => m ||| BitVec.ofNat 32 (2 ^ l)) m).getLsbD l = (m.getLsbD l || decide (l ∈ ls)) := by
    intro ls
    induction ls with
    | nil => simp
    | cons a ls ih =>
      intro m
      simp only [List.foldl_cons, ih, BitVec.getLsbD_or, BitVec.getLsbD_ofNat, h, decide_true, Bool.true_and, List.mem_cons]
      have : Nat.testBit (2 ^ a) l = decide (l = a) := by
        rw [Nat.testBit_two_pow]; simp [eq_comm]
      rw [this]
      by_cases ha : l = a <;> simp [ha, Bool.or_comm]
  simpa [maskOf] using key ls 0

/-- The lanes whose guard is true, one by one. -/
theorem mem_active {s : State} {g : Group} {h : Hdr} {l : Nat} :
    l ∈ lanesOf (active s g h) ↔ l < 32 ∧ s.cur.lanes.getLsbD l = true ∧ ((g.lane l).pred h.gp.toNat != h.gn) = true := by
  rw [mem_lanesOf]
  by_cases hl : l < 32
  · simp only [hl, true_and, active, guardLanes, getLsbD_maskOf _ _ hl, decide_eq_true_eq, List.mem_filter, mem_lanesOf]
  · simp [hl]

theorem find_map_lane {α : Type} (f : Nat → α) (ls : List Nat) (j : Nat) :
    (ls.map fun l => (l, f l)).find? (fun r => r.1 == j) = if j ∈ ls then some (j, f j) else none := by
  induction ls with
  | nil => simp
  | cons a ls ih =>
    by_cases h : a = j
    · subst h; simp
    · simp [h, ih, Ne.symm h]

theorem interlocked_mono {s : State} {gid : Nat} {g : Group} {u : Uses} {gp : Nat} (ls : List Nat) (hl : ∀ l ∈ ls, l < 32)
    (h : s.interlocked gid g lanes32 u gp = false) : s.interlocked gid g ls u gp = false := by
  simp only [State.interlocked, Bool.or_eq_false_iff] at h ⊢
  refine ⟨?_, ?_⟩
  · have h1 := h.1
    rw [List.any_eq_false] at h1 ⊢
    intro x hx hc
    refine h1 x hx ?_
    by_cases hx32 : x.lane = 32
    · simpa [hx32] using hc
    · simp only [hx32, ↓reduceIte, Bool.and_eq_true] at hc ⊢
      refine ⟨?_, hc.2⟩
      have := hl x.lane (by simpa using hc.1)
      simpa [lanes32] using this
  · have h2 := h.2
    by_cases ht : s.txns.isEmpty
    · simp [ht]
    · simp only [ht, Bool.not_false, Bool.true_and] at h2 ⊢
      rw [List.any_eq_false] at h2 ⊢
      exact fun x hx => h2 x (mem_lanes32.mpr (hl x hx))

theorem lanesOf_lt {m : BitVec 32} : ∀ l ∈ lanesOf m, l < 32 := fun _ h => (mem_lanesOf.mp h).1

/-- A word that runs without effect beside its results. -/
def noEffect (r : Ctl → Nat → LaneRes) : Ctl → Nat → State → LaneRes × State := fun c l s => (r c l, s)

theorem runLanes_same (f : Nat → State → LaneRes × State) (r : Nat → LaneRes) (ls : List Nat) (s : State)
    (hb : ∀ l ∈ ls, f l s = (r l, s)) : runLanes f ls s = (ls.map fun l => (l, r l), s) := by
  induction ls with
  | nil => rfl
  | cons l ls ih => simp [runLanes, hb l (by simp), ih fun l hl => hb l (by simp [hl])]

theorem maskOf_nil : maskOf [] = 0 := rfl

/-- A word that is ready runs its lanes and finishes. -/
theorem issueWord_runs {s : State} {g : Group} {h : Hdr} {i : Instr} (hr : WordReady s g h i) (o : WordOps)
    (body : Ctl → Nat → State → LaneRes × State) (hm : o.mem = false) (hs : o.sync = false)
    (hrd : o.ready = fun _ _ => true) (hf : o.fin = fun _ s => s) :
    s.issueWord h.gp.toNat h.gn h.stall.toNat (instrUses i) o body =
      let q := runLanes (body (readyCtl s g h o.u)) ((readyCtl s g h o.u).runners o) s
      q.2.finishWord g (readyCtl s g h o.u) s.cur.lanes h.stall.toNat (instrUses i) o ((readyCtl s g h o.u).spread o q.1) := by
  have hview : g.view s.free s.cur.gid = g := by simp [Group.view, hr.met]
  have hlock : ∀ b : Bool, s.interlocked s.cur.gid g (if b then lanes32 else lanesOf s.cur.lanes) (instrUses i) h.gp.toNat = false := by
    intro b; cases b
    · exact interlocked_mono _ lanesOf_lt hr.clear
    · exact hr.clear
  have hshort : ∀ rs, g.short rs = false := by simp [Group.short, hr.met]
  have hpriv : ((instrUses i).priv && !(lanesOf s.cur.lanes).all fun l => (g.lane l).handler) = false := by
    cases hp : (instrUses i).priv
    · rfl
    · simpa [hp] using hr.mode hp
  have hz : g.hazards.isEmpty = true := by simp [hr.met]
  have hnil : ∀ (ls : List Nat) (p : Nat → List (Nat × Nat × Nat)), ls.filter (fun l => g.short (p l)) = [] := by
    intro ls p; simp [hshort]
  have h0 : lanesOf 0#32 = [] := by decide
  have hall : ∀ m : BitVec 32, m &&& 4294967295#32 = m := fun m => BitVec.and_allOnes
  cases hb : (s.rcd g.launch).blk.sbchk <;>
    simp [State.issueWord, hr.here, hr.budget, hpriv, hlock, hview, hnil, hz, hm, hs, hrd, hf, hb, readyCtl, active,
      maskOf_nil, h0, hall]

/-- The same for a word whose lanes leave the state alone. -/
theorem issueWord_ready {s : State} {g : Group} {h : Hdr} {i : Instr} (hr : WordReady s g h i) (o : WordOps)
    (body : Ctl → Nat → State → LaneRes × State) (r : Nat → LaneRes)
    (hb : ∀ l ∈ (readyCtl s g h o.u).runners o, body (readyCtl s g h o.u) l s = (r l, s))
    (hm : o.mem = false) (hs : o.sync = false) (hrd : o.ready = fun _ _ => true) (hf : o.fin = fun _ s => s) :
    s.issueWord h.gp.toNat h.gn h.stall.toNat (instrUses i) o body =
      s.finishWord g (readyCtl s g h o.u) s.cur.lanes h.stall.toNat (instrUses i) o
        ((readyCtl s g h o.u).spread o (((readyCtl s g h o.u).runners o).map fun l => (l, r l))) := by
  rw [issueWord_runs hr o body hm hs hrd hf, runLanes_same (body (readyCtl s g h o.u)) r _ s hb]

theorem lanesOf_nil {m : BitVec 32} : lanesOf m = [] ↔ m = 0 := by
  constructor
  · intro hm
    apply BitVec.eq_of_getLsbD_eq
    intro l hl
    cases hc : m.getLsbD l
    · simp
    · have : l ∈ lanesOf m := mem_lanesOf.mpr ⟨hl, hc⟩
      simp [hm] at this
  · intro h0; rw [h0]; decide

/-- What finishing does when every active lane has results: one group changes, and nothing else. -/
theorem finishWord_done {s : State} {g : Group} {h : Hdr} {i : Instr} (hr : WordReady s g h i) (o : WordOps)
    (ls : List Nat) (f : Nat → Results) :
    let c := readyCtl s g h o.u
    let g' := (g.afterWord g c s.cur.lanes h.stall.toNat (instrUses i) o s.clk s.next
        (ls.map fun l => (l, LaneRes.done (f l).1 (f l).2.1 (f l).2.2))).endHandling
    s.finishWord g c s.cur.lanes h.stall.toNat (instrUses i) o
        (ls.map fun l => (l, LaneRes.done (f l).1 (f l).2.1 (f l).2.2)) = s.setGroup s.cur.gid g' := by
  intro c g'
  have hfold : ∀ (ls : List Nat) (s : State),
      (ls.map fun l => (l, LaneRes.done (f l).1 (f l).2.1 (f l).2.2)).foldl (fun (s : State) r =>
        match r.2 with
        | .trap code acc addr => s.takeTrap c.gid r.1 code acc addr
        | .pfault code acc va lo hi => s.parkFault c.gid r.1 code acc va lo hi false
        | _ => s) s = s := by
    intro ls
    induction ls with
    | nil => intro s; rfl
    | cons a ls ih => intro s; simp only [List.map_cons, List.foldl_cons]; exact ih s
  have hg : s.group c.gid = some g := hr.here
  have hp : ((ls.map fun l => (l, LaneRes.done (f l).1 (f l).2.1 (f l).2.2)).any fun r => r.2.parks) = false := by
    simp [List.any_map, Function.comp_def, LaneRes.parks]
  simp only [State.finishWord, hg, hp]
  exact hfold ls _

/-- A lane result from the results of a word. -/
def doneOf (r : Results) : LaneRes := .done r.1 r.2.1 r.2.2

/-- What `afterWord` makes of the lanes when every active lane has results. -/
theorem afterWord_lanes {s : State} {g : Group} {h : Hdr} (o : WordOps) (c : Ctl) (hc : c.pc = s.cur.pc ∧ c.len = s.cur.len)
    (u : Uses) (stall clk age : Nat) (f : Nat → Results) :
    let g1 := g.afterWord g c s.cur.lanes stall u o clk age ((lanesOf (active s g h)).map fun l => (l, doneOf (f l)))
    ∀ l, l < 32 → g1.lane l =
      if s.cur.lanes.getLsbD l then
        { (if (active s g h).getLsbD l then
            (if u.landing then g.lane l
             else Results.into (if o.once then ([], (f l).2) else f l) (g.lane l)) else g.lane l) with
          pc := s.cur.pc + BitVec.ofNat 64 s.cur.len }
      else g.lane l := by
  intro g1 l hl
  have hgr : ∀ (ws : List (Nat × Word)) (g : Group), (g.setGrs ws).lanes = g.lanes := by
    intro ws
    induction ws with
    | nil => intro g; rfl
    | cons w ws ih =>
      intro g
      have h1 : g.setGrs (w :: ws) = (g.setGr w.1 w.2).setGrs ws := rfl
      rw [h1, ih]; unfold Group.setGr; split <;> rfl
  let F := c.laneAfter u o age ((lanesOf (active s g h)).map fun l => (l, doneOf (f l)))
  have hfold : g1.lane l = (lanes32.foldl (fun (g : Group) l => if s.cur.lanes.getLsbD l then g.setLane l (F l (g.lane l)) else g) g).lane l := by
    have : ∀ (a b : Group), a.lanes = b.lanes → a.lane l = b.lane l := fun a b h => by simp [Group.lane, h]
    apply this
    simp only [g1, Group.afterWord]
    split
    · exact hgr _ _
    · rfl
  rw [hfold, (foldLanes s.cur.lanes F lanes32 lanes32_nodup g).1 l]
  simp only [mem_lanes32, hl, true_and]
  split
  · have hfind := find_map_lane (fun l => doneOf (f l)) (lanesOf (active s g h)) l
    simp only [mem_lanesOf, hl, true_and] at hfind
    simp only [F, Ctl.laneAfter, hfind]
    by_cases ha : (active s g h).getLsbD l = true
    · simp only [ha, ↓reduceIte]
      cases o.once <;> cases u.landing <;> simp [doneOf, LaneRes.noRegs, Lane.after, Results.into, hc.1, hc.2]
    · simp only [ha, hc.1, hc.2]; rfl
  · rfl

/-- The group after `afterWord`, beside its lanes: its g registers, its pending results, and the bookkeeping of issue. -/
theorem afterWord_group (g before : Group) (c : Ctl) (lanes : BitVec 32) (stall : Nat) (u : Uses) (o : WordOps) (clk age : Nat)
    (rs : List (Nat × LaneRes)) :
    let g1 := g.afterWord before c lanes stall u o clk age rs
    let first := firstRegs rs
    g1.g = (if o.once && !u.landing then g.setGrs first else g).g ∧
    g1.landings = (if u.landing then
        g.landings ++ (if o.once && !first.isEmpty then [{ lane := 32, writes := first, preds := [], flags := 0 }] else []) ++
          rs.filterMap fun r => (if o.once then r.2.noRegs else r.2).landingOf r.1
      else g.landings) ∧
    g1 = { g with lanes := g1.lanes, g := g1.g, landings := g1.landings, hazards := g1.hazards, floor := g1.floor,
                  mask := g1.mask, readyAt := Nat.max g.readyAt (clk + Nat.max stall 1), lastIssue := clk, behind := none } := by
  have hgr : ∀ (ws : List (Nat × Word)) (g : Group), (g.setGrs ws) = { g with g := (g.setGrs ws).g } ∧
      ∀ L, ({ g with lanes := L }.setGrs ws).g = (g.setGrs ws).g := by
    intro ws
    induction ws with
    | nil => intro g; exact ⟨rfl, fun _ => rfl⟩
    | cons w ws ih =>
      intro g
      have h1 : g.setGrs (w :: ws) = (g.setGr w.1 w.2).setGrs ws := rfl
      have h2 : ∀ g : Group, g.setGr w.1 w.2 = { g with g := (g.setGr w.1 w.2).g } := by
        intro g; unfold Group.setGr; split <;> rfl
      refine ⟨?_, fun L => ?_⟩
      · rw [h1, (ih _).1]; rw [h2 g]
      · have h3 : ({ g with lanes := L } : Group).setGrs (w :: ws) = (({ g with lanes := L } : Group).setGr w.1 w.2).setGrs ws := rfl
        have h4 : ({ g with lanes := L } : Group).setGr w.1 w.2 = { g.setGr w.1 w.2 with lanes := L } := by
          unfold Group.setGr; split <;> rfl
        rw [h3, h4, h1]; exact (ih (g.setGr w.1 w.2)).2 L
  let F := c.laneAfter u o age rs
  have hL := (foldLanes lanes F lanes32 lanes32_nodup g).2
  simp only [Group.afterWord]
  generalize List.foldl (fun (g : Group) l => if lanes.getLsbD l then g.setLane l (F l (g.lane l)) else g) g lanes32 = gL at hL ⊢
  obtain ⟨L, rfl⟩ : ∃ L, gL = { g with lanes := L } := ⟨gL.lanes, hL⟩
  refine ⟨?_, rfl, ?_⟩
  · split
    · exact (hgr _ g).2 L
    · rfl
  · split
    · rw [(hgr _ _).1]
    · rfl

theorem endHandling_same (g : Group) : g.endHandling = { g with handling := g.endHandling.handling } := by
  unfold Group.endHandling; split <;> rfl

theorem groupAfter_of {s : State} {g k : Group} {h : Hdr}
    (hk : k = { g with lanes := k.lanes, g := k.g, landings := k.landings, hazards := k.hazards, floor := k.floor,
                       mask := k.mask, readyAt := Nat.max g.readyAt (s.clk + Nat.max h.stall.toNat 1), lastIssue := s.clk, behind := none }) :
    groupAfter s g k.endHandling h := by
  unfold groupAfter
  rw [endHandling_same k]
  have := congrArg (fun x : Group => { x with handling := k.endHandling.handling }) hk
  simpa using this

/-- A word whose lanes give results and nothing else has done, when it is ready, exactly this. -/
theorem word_done {s : State} {g : Group} {h : Hdr} {i : Instr} (hr : WordReady s g h i) (o : WordOps)
    (r : Ctl → Nat → LaneRes) (hm : o.mem = false) (hs : o.sync = false) (hrd : o.ready = fun _ _ => true)
    (hf : o.fin = fun _ s => s) (f : Nat → Results)
    (hres : (readyCtl s g h o.u).spread o (((readyCtl s g h o.u).runners o).map fun l => (l, r (readyCtl s g h o.u) l)) =
      (lanesOf (active s g h)).map fun l => (l, doneOf (f l))) :
    ∃ g', s.word i h o (noEffect r) = .next (s.setGroup s.cur.gid g') ∧
      lanesAfter s g g' h (fun l ln => if (instrUses i).landing then ln else Results.into (if o.once then ([], (f l).2) else f l) ln) ∧
      g'.g = (if o.once && !(instrUses i).landing then
          g.setGrs (match lanesOf (active s g h) with | [] => [] | l :: _ => (f l).1) else g).g ∧
      g'.landings = (if (instrUses i).landing then
          g.landings ++ (match lanesOf (active s g h) with
              | [] => []
              | l :: _ => if o.once && !(f l).1.isEmpty then [{ lane := 32, writes := (f l).1, preds := [], flags := 0 }] else []) ++
            (lanesOf (active s g h)).map fun l =>
              { lane := l, writes := if o.once then [] else (f l).1, preds := (f l).2.1, flags := (f l).2.2 }
        else g.landings) ∧
      groupAfter s g g' h := by
  let c := readyCtl s g h o.u
  let rs := (lanesOf (active s g h)).map fun l => (l, doneOf (f l))
  let g1 := g.afterWord g c s.cur.lanes h.stall.toNat (instrUses i) o s.clk s.next rs
  have hfin := finishWord_done hr o (lanesOf (active s g h)) f
  refine ⟨g1.endHandling, ?_, ?_, ?_, ?_, ?_⟩
  · simp only [State.word]
    rw [issueWord_ready hr o _ (r (readyCtl s g h o.u)) (fun _ _ => rfl) hm hs hrd hf, hres]
    exact congrArg Host.Outcome.next hfin
  · intro l hl
    have h1 := afterWord_lanes (s := s) (g := g) (h := h) o c ⟨rfl, rfl⟩ (instrUses i) h.stall.toNat s.clk s.next f l hl
    have h2 : (g1.endHandling).lane l = g1.lane l := by rw [endHandling_same]; rfl
    rw [h2]; exact h1
  · have h1 := (afterWord_group g g c s.cur.lanes h.stall.toNat (instrUses i) o s.clk s.next rs).1
    have h2 : (g1.endHandling).g = g1.g := by rw [endHandling_same]
    rw [h2, h1]
    have : firstRegs rs =
        (match lanesOf (active s g h) with | [] => [] | l :: _ => (f l).1) := by
      simp only [rs]; cases lanesOf (active s g h) <;> rfl
    rw [this]
  · have h1 := (afterWord_group g g c s.cur.lanes h.stall.toNat (instrUses i) o s.clk s.next rs).2.1
    have h2 : (g1.endHandling).landings = g1.landings := by rw [endHandling_same]
    rw [h2, h1]
    simp only [rs]
    cases hl : lanesOf (active s g h) <;> cases o.once <;>
      simp [firstRegs, doneOf, LaneRes.landingOf, LaneRes.noRegs, LaneRes.regs, List.filterMap_map, List.filterMap_eq_map']
  · have h1 := (afterWord_group g g c s.cur.lanes h.stall.toNat (instrUses i) o s.clk s.next rs).2.2
    exact groupAfter_of h1

/-- What runs under a word that does not run once and is no memory word: every active lane. -/
theorem spread_each (s : State) (g : Group) (h : Hdr) (o : WordOps) (ho : o.once = false) (hm : o.mem = false)
    (r : Ctl → Nat → LaneRes) :
    let c := readyCtl s g h o.u
    c.spread o ((c.runners o).map fun l => (l, r c l)) = (lanesOf (active s g h)).map fun l => (l, r c l) := by
  simp [Ctl.spread, Ctl.runners, ho, hm, readyCtl]

/-- What runs under a word that runs once: its lowest active lane, for all of them. -/
theorem spread_once (s : State) (g : Group) (h : Hdr) (o : WordOps) (ho : o.once = true) (r : Ctl → Nat → LaneRes) :
    let c := readyCtl s g h o.u
    c.spread o ((c.runners o).map fun l => (l, r c l)) = (lanesOf (active s g h)).map fun l => (l, r c (oneLane s g h)) := by
  simp only [Ctl.spread, Ctl.runners, ho, ↓reduceIte, oneLane]
  have : (readyCtl s g h o.u).act = active s g h := rfl
  rw [this]
  cases lanesOf (active s g h) <;> rfl

/-- A word whose lanes give results and nothing else: in each active lane, or once. How it runs may turn on the state. -/
theorem ctlWord_of {i : Instr} {h : Hdr} (o : State → WordOps) (u once : Bool) (r : Ctl → Nat → LaneRes) (f : Ctl → Nat → Results)
    (hex : ∀ s, exec i s = s.word i h (o s) (noEffect r)) (hr : ∀ c l, r c l = doneOf (f c l))
    (hu : ∀ s, (o s).u = u) (ho : ∀ s, (o s).once = once)
    (hm : ∀ s, (o s).mem = false) (hs : ∀ s, (o s).sync = false) (hrd : ∀ s, (o s).ready = fun _ _ => true)
    (hf : ∀ s, (o s).fin = fun _ s => s) (hl : (instrUses i).landing = false) : CtlWord i h u once f := by
  have hrf : r = fun c l => doneOf (f c l) := funext fun c => funext fun l => hr c l
  subst hrf
  intro s g hw
  have hu := hu s
  have ho := ho s
  subst hu
  cases hb : once
  · have ho : (o s).once = false := ho.trans hb
    obtain ⟨g', h1, h2, h3, h4, h5⟩ := word_done hw (o s) (fun c l => doneOf (f c l)) (hm s) (hs s) (hrd s) (hf s)
      (fun l => f (readyCtl s g h (o s).u) l) (spread_each s g h (o s) ho (hm s) (fun c l => doneOf (f c l)))
    refine ⟨g', by rw [hex]; exact h1, ?_, by simpa [ho] using h3, by simpa [hl] using h4, h5⟩
    simpa [hl, ho] using h2
  · have ho : (o s).once = true := ho.trans hb
    obtain ⟨g', h1, h2, h3, h4, h5⟩ := word_done hw (o s) (fun c l => doneOf (f c l)) (hm s) (hs s) (hrd s) (hf s)
      (fun _ => f (readyCtl s g h (o s).u) (oneLane s g h)) (spread_once s g h (o s) ho (fun c l => doneOf (f c l)))
    refine ⟨g', by rw [hex]; exact h1, by simpa [hl, ho] using h2, ?_, by simpa [hl] using h4, h5⟩
    rw [h3]
    simp only [ho, hl, Bool.not_false, Bool.and_true, ↓reduceIte, Bool.true_and]
    cases hact : lanesOf (active s g h) with
    | nil => simp [lanesOf_nil.mp hact, Group.setGrs]
    | cons l ls =>
      have h0 : ¬ active s g h = 0#32 := by
        intro h0; simp [lanesOf_nil.mpr h0] at hact
      simp [h0]

/-- The same where how it runs is fixed. -/
theorem ctlWord_intro {i : Instr} {h : Hdr} (o : WordOps) (r : Ctl → Nat → LaneRes) (f : Ctl → Nat → Results)
    (hex : ∀ s, exec i s = s.word i h o (noEffect r)) (hr : ∀ c l, r c l = doneOf (f c l))
    (hm : o.mem = false) (hs : o.sync = false) (hrd : o.ready = fun _ _ => true) (hf : o.fin = fun _ s => s)
    (hl : (instrUses i).landing = false) : CtlWord i h o.u o.once f :=
  ctlWord_of (fun _ => o) o.u o.once r f hex hr (fun _ => rfl) (fun _ => rfl) (fun _ => hm) (fun _ => hs) (fun _ => hrd)
    (fun _ => hf) hl

/-- The same for a word whose results are a function of its operands. -/
theorem aluWord_intro {i : Instr} {h : Hdr} (o : WordOps) (u : Bool) (r : Env → LaneRes) (f : Env → Results)
    (hex : ∀ s, exec i s = s.word i h o (pure r)) (hr : ∀ e, r e = doneOf (f e))
    (ho : o = if u then { u := true, once := true } else {}) (hl : (instrUses i).landing = false) : AluWord i h u f := by
  subst ho
  cases u
  · exact ctlWord_intro {} _ _ hex (fun c l => hr (c.env l)) rfl rfl rfl rfl hl
  · exact ctlWord_intro { u := true, once := true } _ _ hex (fun c l => hr (c.env l)) rfl rfl rfl rfl hl

/-- A word whose results land later. -/
theorem landingWord_intro {i : Instr} {h : Hdr} (o : WordOps) (u : Bool) (r : Env → LaneRes) (f : Env → Results)
    (hex : ∀ s, exec i s = s.word i h o (pure r)) (hr : ∀ e, r e = doneOf (f e))
    (ho : o = if u then { u := true, once := true } else {}) (hl : (instrUses i).landing = true) : LandingWord i h u f := by
  subst ho
  have hrf : r = fun e => doneOf (f e) := funext hr
  subst hrf
  intro s g hw
  have hnil : lanesOf (active s g h) = [] ↔ active s g h = 0 := lanesOf_nil
  cases u
  · obtain ⟨g', h1, h2, h3, h4, h5⟩ := word_done hw {} (fun c l => doneOf (f (c.env l))) rfl rfl rfl rfl
      (fun l => f (envOf false g l)) (spread_each s g h {} rfl rfl (fun c l => doneOf (f (c.env l))))
    refine ⟨g', by rw [hex]; exact h1, by simpa [hl] using h2, by simpa using h3, h5, ?_⟩
    rw [h4]; simp only [hl, ↓reduceIte]
    cases lanesOf (active s g h) <;> simp
  · obtain ⟨g', h1, h2, h3, h4, h5⟩ := word_done hw { u := true, once := true } (fun c l => doneOf (f (c.env l))) rfl rfl rfl rfl
      (fun _ => f (envOf true g (oneLane s g h)))
      (spread_once s g h { u := true, once := true } rfl (fun c l => doneOf (f (c.env l))))
    refine ⟨g', by rw [hex]; exact h1, by simpa [hl] using h2, by simpa [hl] using h3, h5, ?_⟩
    rw [h4]; simp only [hl, ↓reduceIte]
    cases hact : lanesOf (active s g h) with
    | nil => simp [hnil.mp hact]
    | cons l ls =>
      have h0 : ¬ active s g h = 0#32 := fun h0 => by simp [hnil.mpr h0] at hact
      by_cases he : (f (envOf true g (oneLane s g h))).1 = [] <;> simp [h0, he]

theorem setGroup_setGroup (s : State) (i : Nat) (a b : Group) : (s.setGroup i a).setGroup i b = s.setGroup i b := by
  simp only [State.setGroup, Sparse.set_set]

/-- Does a result only move its lane: no park, no fault for the host, and a trap only outside handler mode? -/
def settlesIn (ln : Lane) : LaneRes → Prop
  | .park _ => False
  | .pfault .. => False
  | .trap .. => ln.handler = false
  | _ => True

/-- The lane that such a result leaves. -/
def laneOf (pc : DWord) (len age : Nat) (ln : Lane) (r : LaneRes) : Lane :=
  match r with
  | .trap code acc addr => ln.trap code acc addr
  | r => ln.after pc len false age r

/-- What the faults of a word do when every trap is outside handler mode: they trap-park their lanes. -/
theorem wordFaults_settle (rs : List (Nat × LaneRes)) (hn : (rs.map (·.1)).Nodup) (s0 : State) (gid : Nat) (g : Group)
    (hl : ∀ r ∈ rs, settlesIn (g.lane r.1) r.2) :
    ∃ g', (s0.setGroup gid g).wordFaults gid rs = s0.setGroup gid g' ∧ g' = { g with lanes := g'.lanes } ∧
      ∀ l, g'.lane l = match rs.find? fun r => r.1 == l with
        | some (_, .trap code acc addr) => (g.lane l).trap code acc addr
        | _ => g.lane l := by
  induction rs generalizing g with
  | nil => exact ⟨g, rfl, rfl, fun l => rfl⟩
  | cons r rs ih =>
    obtain ⟨a, x⟩ := r
    simp only [List.map_cons, List.nodup_cons] at hn
    obtain ⟨ha, hn⟩ := hn
    have hne : ∀ r ∈ rs, r.1 ≠ a := fun r hr hc => ha (by rw [← hc]; exact List.mem_map_of_mem hr)
    have hfind : (rs.find? fun r => r.1 == a) = none := by
      rw [List.find?_eq_none]; intro r hr; simp [hne r hr]
    by_cases hx : ∃ code acc addr, x = .trap code acc addr
    · obtain ⟨code, acc, addr, rfl⟩ := hx
      have hh : (g.lane a).handler = false := hl (a, .trap code acc addr) (by simp)
      have hstep : (s0.setGroup gid g).takeTrap gid a code acc addr =
          s0.setGroup gid (g.setLane a ((g.lane a).trap code acc addr)) := by
        simp [State.takeTrap, group_setGroup, hh, setGroup_setGroup]
      obtain ⟨g', h1, h2, h3⟩ := ih hn (g.setLane a ((g.lane a).trap code acc addr)) (by
        intro r hr
        rw [lane_setLane, if_neg (hne r hr)]
        exact hl r (by simp [hr]))
      refine ⟨g', ?_, ?_, ?_⟩
      · have : (s0.setGroup gid g).wordFaults gid ((a, .trap code acc addr) :: rs) =
            ((s0.setGroup gid g).takeTrap gid a code acc addr).wordFaults gid rs := rfl
        rw [this, hstep, h1]
      · rw [h2]; rfl
      · intro l
        rw [h3, lane_setLane]
        by_cases hla : l = a
        · subst hla; simp [hfind]
        · simp [hla, Ne.symm hla]
    · have hset : settlesIn (g.lane a) x := hl (a, x) (by simp)
      have hstep : (s0.setGroup gid g).wordFaults gid ((a, x) :: rs) = (s0.setGroup gid g).wordFaults gid rs := by
        cases x <;> first | rfl | exact absurd ⟨_, _, _, rfl⟩ hx | exact absurd hset (by simp [settlesIn])
      obtain ⟨g', h1, h2, h3⟩ := ih hn g (fun r hr => hl r (by simp [hr]))
      refine ⟨g', by rw [hstep, h1], h2, ?_⟩
      intro l
      rw [h3]
      by_cases hla : l = a
      · subst hla
        cases x <;> first | exact absurd ⟨_, _, _, rfl⟩ hx | simp [hfind]
      · simp [Ne.symm hla]

/-- A word whose lanes take results, jumps, exits, joins or traps, run lane by lane, has done, when it is ready, exactly this. `s1` is the
state that the lanes leave, `s` itself where they only compute. -/
theorem word_runs {s s1 : State} {g : Group} {h : Hdr} {i : Instr} (hr : WordReady s g h i) (o : WordOps)
    (body : Ctl → Nat → State → LaneRes × State) (r : Nat → LaneRes)
    (hb : runLanes (body (readyCtl s g h o.u)) (lanesOf (active s g h)) s = ((lanesOf (active s g h)).map fun l => (l, r l), s1))
    (hg1 : s1.group s.cur.gid = some g)
    (ho : o.once = false) (hm : o.mem = false) (hs : o.sync = false)
    (hrd : o.ready = fun _ _ => true) (hf : o.fin = fun _ s => s) (hld : (instrUses i).landing = false)
    (hset : ∀ l ∈ lanesOf (active s g h), settlesIn (g.lane l) (r l)) :
    ∃ g', s.word i h o body = .next (s1.setGroup s.cur.gid g') ∧
      lanesRun s g g' h (fun l ln => laneOf s.cur.pc s.cur.len s1.next ln (r l)) ∧
      g'.g = g.g ∧ g'.landings = g.landings ∧ groupAfter s1 g g' h := by
  let c := readyCtl s g h o.u
  let rs := (lanesOf (active s g h)).map fun l => (l, r l)
  let g1 := g.afterWord g c s.cur.lanes h.stall.toNat (instrUses i) o s1.clk s1.next rs
  have hgr := afterWord_group g g c s.cur.lanes h.stall.toNat (instrUses i) o s1.clk s1.next rs
  simp only [ho, hld, Bool.false_and, Bool.false_eq_true, ↓reduceIte] at hgr
  have hlane : ∀ l, l < 32 → g1.lane l =
      if s.cur.lanes.getLsbD l then c.laneAfter (instrUses i) o s1.next rs l (g.lane l) else g.lane l := by
    intro l hl
    have h1 := (foldLanes s.cur.lanes (c.laneAfter (instrUses i) o s1.next rs) lanes32 lanes32_nodup g).1 l
    simp only [mem_lanes32, hl, true_and] at h1
    rw [← h1]
    have : ∀ (a b : Group), a.lanes = b.lanes → a.lane l = b.lane l := fun a b h => by simp [Group.lane, h]
    apply this
    simp [g1, Group.afterWord, ho]
  have hp : (rs.any fun r => r.2.parks) = false := by
    rw [List.any_eq_false]
    intro x hx
    obtain ⟨l, hl, rfl⟩ := List.mem_map.mp hx
    have := hset l hl
    cases hc : r l <;> simp_all [settlesIn, LaneRes.parks]
  have hhand : ∀ l, l < 32 → (g1.endHandling).lane l = g1.lane l := by
    intro l _; rw [endHandling_same]; rfl
  have hfind : ∀ l, rs.find? (fun r => r.1 == l) = if l ∈ lanesOf (active s g h) then some (l, r l) else none :=
    fun l => find_map_lane (fun l => r l) _ l
  have hact : ∀ l ∈ lanesOf (active s g h), l < 32 ∧ s.cur.lanes.getLsbD l = true :=
    fun l hl => ⟨(mem_active.mp hl).1, (mem_active.mp hl).2.1⟩
  obtain ⟨g', h1, h2, h3⟩ := wordFaults_settle rs (by simp [rs, List.map_map, Function.comp_def, lanesOf_nodup]) s1 s.cur.gid
    g1.endHandling (by
      intro x hx
      obtain ⟨l, hl, rfl⟩ := List.mem_map.mp hx
      simp only
      rw [hhand l (hact l hl).1, hlane l (hact l hl).1, if_pos (hact l hl).2]
      simp only [Ctl.laneAfter, hfind, hl, ↓reduceIte, ho, Bool.false_eq_true, hld]
      have := hset l hl
      cases hc : r l <;> simp_all [settlesIn, Lane.after])
  refine ⟨g', ?_, ?_, ?_, ?_, ?_⟩
  · simp only [State.word]
    have hrun : (readyCtl s g h o.u).runners o = lanesOf (active s g h) := by simp [Ctl.runners, ho, hm, readyCtl]
    rw [issueWord_runs hr o body hm hs hrd hf, hrun]
    simp only [hb]
    have hsp : (readyCtl s g h o.u).spread o rs = rs := by simp [Ctl.spread, ho, hm]
    show Host.Outcome.next (State.finishWord s1 g c s.cur.lanes h.stall.toNat (instrUses i) o (c.spread o rs)) = _
    rw [hsp]
    have hg : s1.group c.gid = some g := hg1
    simp only [State.finishWord, hg, hp]
    exact congrArg Host.Outcome.next h1
  · intro l hl
    rw [h3, hfind, hhand l hl, hlane l hl]
    by_cases ha : l ∈ lanesOf (active s g h)
    · have hb : (active s g h).getLsbD l = true := (mem_lanesOf.mp ha).2
      simp only [ha, ↓reduceIte, (hact l ha).2, hb, Ctl.laneAfter, hfind, ho, Bool.false_eq_true, hld]
      show _ = laneOf _ _ _ _ (r l)
      cases hc : r l <;> simp [laneOf, Lane.after, c, readyCtl]
    · have hb : (active s g h).getLsbD l = false := by
        cases hb : (active s g h).getLsbD l
        · rfl
        · exact absurd (mem_lanesOf.mpr ⟨hl, hb⟩) ha
      simp only [ha, ↓reduceIte, hb, Ctl.laneAfter, hfind, Bool.false_eq_true]
      rfl
  · rw [h2, endHandling_same]; exact hgr.1
  · rw [h2, endHandling_same]; exact hgr.2.1
  · have hk := groupAfter_of (s := s1) (h := h) hgr.2.2
    unfold groupAfter at hk ⊢
    rw [h2]
    have := congrArg (fun x : Group => { x with lanes := g'.lanes }) hk
    simpa using this

/-- Such a word runs. -/
theorem runs_intro {i : Instr} {h : Hdr} (o : WordOps) (body : Ctl → Nat → State → LaneRes × State) (P : State → Group → Prop)
    (r : State → Group → Nat → LaneRes) (f : State → Group → Nat → Lane → Lane)
    (hex : ∀ s, exec i s = s.word i h o body)
    (hb : ∀ s g, P s g → ∀ l ∈ lanesOf (active s g h), body (readyCtl s g h o.u) l s = (r s g l, s))
    (hset : ∀ s g, P s g → ∀ l ∈ lanesOf (active s g h), settlesIn (g.lane l) (r s g l))
    (hr : ∀ s g, P s g → ∀ l ∈ lanesOf (active s g h), laneOf s.cur.pc s.cur.len s.next (g.lane l) (r s g l) = f s g l (g.lane l))
    (ho : o.once = false) (hm : o.mem = false) (hs : o.sync = false) (hrd : o.ready = fun _ _ => true)
    (hf : o.fin = fun _ s => s) (hl : (instrUses i).landing = false) : Runs i h P f := by
  intro s g hw hP
  obtain ⟨g', h1, h2, h3⟩ := word_runs hw o body (r s g) (runLanes_same _ _ _ _ (hb s g hP)) hw.here ho hm hs hrd hf hl (hset s g hP)
  refine ⟨g', by rw [hex]; exact h1, ?_, h3⟩
  intro l hl
  rw [h2 l hl]
  by_cases ha : (active s g h).getLsbD l = true
  · simp only [ha, ↓reduceIte]; rw [hr s g hP l (mem_lanesOf.mpr ⟨hl, ha⟩)]
  · simp [ha]

/-- Whether a word's results land later is what its row says. -/
@[simp] theorem uSrc_landing (lat : Nat) (dW : Bool) (d : RegIx) (rs : List (Bool × RegIx)) (cW : Bool) (c : Src) (land : Bool) :
    (uSrc lat dW d rs cW c land).landing = land := by
  unfold uSrc; simp only; split <;> rfl


/-- A lane result as `Does` names it. -/
def resOf : Does → LaneRes
  | .takes r => doneOf r
  | .traps code acc addr => .trap code acc addr
  | .parks p => .park p
  | .stays => .stay

theorem runLanes_inTurn (b : Nat → State → LaneRes × State) (f : Nat → State → Does × State) (ls : List Nat) (hn : ls.Nodup)
    (hb : ∀ l ∈ ls, ∀ s, b l s = (resOf (f l s).1, (f l s).2)) (s : State) :
    runLanes b ls s = (ls.map fun l => (l, resOf ((inTurn f ls s).1 l)), (inTurn f ls s).2) := by
  induction ls generalizing s with
  | nil => rfl
  | cons a ls ih =>
    obtain ⟨ha, hn⟩ := List.nodup_cons.mp hn
    simp only [runLanes, hb a (by simp), ih hn (fun l hl => hb l (by simp [hl])), inTurn, List.map_cons, ↓reduceIte, Prod.mk.injEq, List.cons.injEq, true_and, and_true]
    apply List.map_congr_left
    intro l hl
    have : l ≠ a := fun hc => ha (hc ▸ hl)
    simp [this]

/-- A ready memory word runs its lanes and finishes. -/
theorem issueMem_runs {s : State} {g : Group} {h : Hdr} {i : Instr} (hr : WordReady s g h i) (hst : Still s g h) (o : WordOps)
    (body : Ctl → Nat → State → LaneRes × State) (hm : o.mem = true) (hu : o.u = false) (hs : o.sync = false) (ho : o.once = false)
    (hrd : o.ready (readyCtl s g h false) s = true) (hf : o.fin = fun _ s => s) :
    s.issueWord h.gp.toNat h.gn h.stall.toNat (instrUses i) o body =
      let c := { readyCtl s g h false with word := s.next }
      let q := runLanes (body c) (lanesOf (active s g h)) (numbered s)
      q.2.finishWord g c s.cur.lanes h.stall.toNat (instrUses i) o q.1 := by
  have hview : g.view s.free s.cur.gid = g := by simp [Group.view, hr.met]
  have hlock : ∀ b : Bool, s.interlocked s.cur.gid g (if b then lanes32 else lanesOf s.cur.lanes) (instrUses i) h.gp.toNat = false := by
    intro b; cases b
    · exact interlocked_mono _ lanesOf_lt hr.clear
    · exact hr.clear
  have hshort : ∀ rs, g.short rs = false := by simp [Group.short, hr.met]
  have hpriv : ((instrUses i).priv && !(lanesOf s.cur.lanes).all fun l => (g.lane l).handler) = false := by
    cases hp : (instrUses i).priv
    · rfl
    · simpa [hp] using hr.mode hp
  have hz : g.hazards.isEmpty = true := by simp [hr.met]
  have hnil : ∀ (ls : List Nat) (p : Nat → List (Nat × Nat × Nat)), ls.filter (fun l => g.short (p l)) = [] := by
    intro ls p; simp [hshort]
  have h0 : lanesOf 0#32 = [] := by decide
  have hall : ∀ m : BitVec 32, m &&& 4294967295#32 = m := fun m => BitVec.and_allOnes
  have hpend : ((lanesOf (active s g h)).any fun l => s.acqPending s.cur.gid l || s.replyPending s.cur.gid l) = false := by
    rw [List.any_eq_false]
    intro l hl
    simp [hst.2 l (mem_lanesOf.mp hl).2]
  have hgl : guardLanes g s.cur.lanes h.gp.toNat h.gn = active s g h := rfl
  have hc : ∀ (b : Block), b.prot = false → (({ gid := s.cur.gid, g := g, act := active s g h, pc := s.cur.pc, len := s.cur.len, u := false, prot := b.prot } : Ctl) = readyCtl s g h false) := by
    intro b hb; simp [readyCtl, hb, hst.1]
  simp only [State.issueWord, hr.here, hr.budget, hpriv, hlock, hview, hnil, hz, hm, hs, hu, hf, hgl, maskOf_nil, ho]
  cases hb : (s.rcd g.launch).blk.sbchk <;>
    simp [hpend, hst.1, readyCtl, hall, Ctl.runners, Ctl.spread, numbered, ho, hm] at hrd ⊢ <;>
    simp [hrd, h0]

/-- What the faults of a word do when every trap is outside handler mode and none is for the host. -/
theorem wordFaults_does (ls : List Nat) (hn : ls.Nodup) (d : Nat → Does) (s0 : State) (gid : Nat) (g : Group)
    (hl : ∀ l ∈ ls, ∀ code acc addr, d l = .traps code acc addr → (g.lane l).handler = false) :
    ∃ g', (s0.setGroup gid g).wordFaults gid (ls.map fun l => (l, resOf (d l))) = s0.setGroup gid g' ∧ g' = { g with lanes := g'.lanes } ∧
      ∀ l, g'.lane l = if l ∈ ls then (match d l with | .traps code acc addr => (g.lane l).trap code acc addr | _ => g.lane l)
        else g.lane l := by
  induction ls generalizing g with
  | nil => exact ⟨g, rfl, rfl, fun l => by simp⟩
  | cons a ls ih =>
    obtain ⟨ha, hn⟩ := List.nodup_cons.mp hn
    by_cases hx : ∃ code acc addr, d a = .traps code acc addr
    · obtain ⟨code, acc, addr, hx⟩ := hx
      have hh : (g.lane a).handler = false := hl a (by simp) code acc addr hx
      have hstep : (s0.setGroup gid g).takeTrap gid a code acc addr =
          s0.setGroup gid (g.setLane a ((g.lane a).trap code acc addr)) := by
        simp [State.takeTrap, group_setGroup, hh, setGroup_setGroup]
      obtain ⟨g', h1, h2, h3⟩ := ih hn (g.setLane a ((g.lane a).trap code acc addr)) (by
        intro l hlm c' a' x' hd
        rw [lane_setLane, if_neg (show ¬ l = a from fun hc => ha (by rw [← hc]; exact hlm))]
        exact hl l (by simp [hlm]) c' a' x' hd)
      refine ⟨g', ?_, ?_, ?_⟩
      · have : (s0.setGroup gid g).wordFaults gid ((a :: ls).map fun l => (l, resOf (d l))) =
            ((s0.setGroup gid g).takeTrap gid a code acc addr).wordFaults gid (ls.map fun l => (l, resOf (d l))) := by
          simp [State.wordFaults, hx, resOf]
        rw [this, hstep, h1]
      · rw [h2]; rfl
      · intro l
        rw [h3, lane_setLane]
        by_cases hla : l = a
        · subst hla; simp only [ha, ↓reduceIte, List.mem_cons, true_or, hx]
        · simp only [hla, ↓reduceIte, List.mem_cons, false_or]
    · have hstep : (s0.setGroup gid g).wordFaults gid ((a :: ls).map fun l => (l, resOf (d l))) =
          (s0.setGroup gid g).wordFaults gid (ls.map fun l => (l, resOf (d l))) := by
        simp only [State.wordFaults, List.map_cons, List.foldl_cons]
        cases hd : d a with
        | traps c x y => exact absurd ⟨c, x, y, hd⟩ hx
        | _ => rfl
      obtain ⟨g', h1, h2, h3⟩ := ih hn g (fun l hm => hl l (by simp [hm]))
      refine ⟨g', by rw [hstep, h1], h2, ?_⟩
      intro l
      rw [h3]
      by_cases hla : l = a
      · subst hla
        simp only [ha, ↓reduceIte, List.mem_cons, true_or]
        cases hd : d l with
        | traps c x y => exact absurd ⟨c, x, y, hd⟩ hx
        | _ => rfl
      · simp only [hla, List.mem_cons, false_or]

/-- Lanes that each keep group `gid` keep it in turn. -/
theorem inTurn_keeps (f : Nat → State → Does × State) (gid : Nat)
    (hk : ∀ l s, (s.group gid).isSome = true → ((f l s).2.group gid).isSome = true) (ls : List Nat) (s : State)
    (h : (s.group gid).isSome = true) : ((inTurn f ls s).2.group gid).isSome = true := by
  induction ls generalizing s with
  | nil => exact h
  | cons a ls ih => exact ih _ (hk a s h)

/-- A word whose lanes act in turn, as `f` says, and keep the group. -/
theorem seqWord_intro {i : Instr} {h : Hdr} (o : WordOps) (body : Ctl → Nat → State → LaneRes × State) (P : State → Group → Prop)
    (f : State → Group → Nat → State → Does × State) (hex : ∀ s, exec i s = s.word i h o body)
    (hb : ∀ s g, s.group s.cur.gid = some g → P s g → ∀ l ∈ lanesOf (active s g h), ∀ s', body { readyCtl s g h false with word := s.next } l s' =
      (resOf (f s g l s').1, (f s g l s').2))
    (hm : o.mem = true) (hu : o.u = false) (hs : o.sync = false) (ho : o.once = false)
    (hrd : ∀ s g, WordReady s g h i → Still s g h → P s g → o.ready (readyCtl s g h false) s = true)
    (hf : o.fin = fun _ s => s) (hld : (instrUses i).landing = false)
    (hk : ∀ s g, P s g → ∀ l s', (s'.group s.cur.gid).isSome = true → ((f s g l s').2.group s.cur.gid).isSome = true) :
    SeqWord i h P f := by
  intro s g hr hst hP q
  obtain ⟨gm, hgm⟩ := Option.isSome_iff_exists.mp
    (inTurn_keeps (f s g) s.cur.gid (hk s g hP) (lanesOf (active s g h)) (numbered s) (by
      have h1 : (numbered s).group s.cur.gid = s.group s.cur.gid := rfl
      rw [h1, hr.here]; rfl))
  refine ⟨gm, hgm, ?_⟩
  intro htr park s1
  let c : Ctl := { readyCtl s g h false with word := s.next }
  let ls := lanesOf (active s g h)
  have hrun : runLanes (body c) ls (numbered s) = (ls.map fun l => (l, resOf (q.1 l)), q.2) :=
    runLanes_inTurn (body c) (f s g) ls (lanesOf_nodup _) (hb s g hr.here hP) (numbered s)
  let rs := ls.map fun l => (l, resOf (q.1 l))
  let g1 := gm.afterWord g c s.cur.lanes h.stall.toNat (instrUses i) o q.2.clk q.2.next rs
  have hgr := afterWord_group gm g c s.cur.lanes h.stall.toNat (instrUses i) o q.2.clk q.2.next rs
  simp only [ho, hld, Bool.false_and, Bool.false_eq_true, ↓reduceIte] at hgr
  have hlane : ∀ l, l < 32 → g1.lane l =
      if s.cur.lanes.getLsbD l then c.laneAfter (instrUses i) o q.2.next rs l (gm.lane l) else gm.lane l := by
    intro l hl
    have h1 := (foldLanes s.cur.lanes (c.laneAfter (instrUses i) o q.2.next rs) lanes32 lanes32_nodup gm).1 l
    simp only [mem_lanes32, hl, true_and] at h1
    rw [← h1]
    have : ∀ (a b : Group), a.lanes = b.lanes → a.lane l = b.lane l := fun a b h => by simp [Group.lane, h]
    apply this
    simp [g1, Group.afterWord, ho]
  have hhand : ∀ l, (g1.endHandling).lane l = g1.lane l := by
    intro l; rw [endHandling_same]; rfl
  have hfind : ∀ l, rs.find? (fun r => r.1 == l) = if l ∈ ls then some (l, resOf (q.1 l)) else none :=
    fun l => find_map_lane (fun l => resOf (q.1 l)) _ l
  have hact : ∀ l ∈ ls, l < 32 ∧ s.cur.lanes.getLsbD l = true :=
    fun l hl => ⟨(mem_active.mp hl).1, (mem_active.mp hl).2.1⟩
  obtain ⟨g', h1, h2, h3⟩ := wordFaults_does ls (lanesOf_nodup _) q.1 s1 s.cur.gid g1.endHandling (by
      intro l hl code acc addr hd
      rw [hhand l, hlane l (hact l hl).1, if_pos (hact l hl).2]
      simp only [Ctl.laneAfter, hfind, hl, ↓reduceIte, ho, Bool.false_eq_true, hd, resOf, Lane.after]
      exact htr l code acc addr (mem_lanesOf.mp hl).2 hd)
  have hpk : (rs.any fun r => r.2.parks) = park := by
    simp only [rs, park, List.any_map, ls]
    congr 1; funext l
    simp only [Function.comp_apply]
    cases hd : q.1 l <;> rfl
  refine ⟨g', ?_, ?_, ?_, ?_, ?_⟩
  · rw [hex]
    simp only [State.word]
    rw [issueMem_runs hr hst o body hm hu hs ho (hrd s g hr hst hP) hf]
    show Host.Outcome.next (State.finishWord (runLanes (body c) ls (numbered s)).2 g c s.cur.lanes h.stall.toNat (instrUses i) o
      (runLanes (body c) ls (numbered s)).1) = _
    rw [hrun]
    have hg : q.2.group c.gid = some gm := hgm
    show Host.Outcome.next (State.finishWord q.2 g c s.cur.lanes h.stall.toNat (instrUses i) o rs) = _
    simp only [State.finishWord, hg, hpk]
    exact congrArg Host.Outcome.next h1
  · intro l hl
    rw [h3, hhand l, hlane l hl]
    by_cases ha : l ∈ ls
    · have hb : (active s g h).getLsbD l = true := (mem_lanesOf.mp ha).2
      simp only [ha, ↓reduceIte, (hact l ha).2, hb, Ctl.laneAfter, hfind, ho, Bool.false_eq_true, hld]
      cases hd : q.1 l <;> simp [resOf, Does.lane, Lane.after, c, readyCtl, doneOf, Results.into]
    · have hb : (active s g h).getLsbD l = false := by
        cases hb : (active s g h).getLsbD l
        · rfl
        · exact absurd (mem_lanesOf.mpr ⟨hl, hb⟩) ha
      simp only [ha, ↓reduceIte, hb, Ctl.laneAfter, hfind, Bool.false_eq_true]
      rfl
  · rw [h2, endHandling_same]; exact hgr.1
  · rw [h2, endHandling_same]; exact hgr.2.1
  · have hk := groupAfter_of (s := q.2) (h := h) hgr.2.2
    unfold groupAfter at hk ⊢
    rw [h2]
    have := congrArg (fun x : Group => { x with lanes := g'.lanes }) hk
    simpa using this

end Sys2Proof.Machine
end

