-- ==== Sys2Proof/Tests/Slice0.lean ====
section
/-! SUPPORT. Tests/Slice0.lean: the model's own tests: words of the manual that decode, terms that the word check refuses, values
of the manual's tables, and, for each statement with hypotheses, states that meet them. Each step is taken on a small state;
where a test gives a value, the value is the manual's or follows from its rule by hand. -/
open Sys2Proof Sys2Proof.Machine Sys2Proof.Safety

namespace Sys2Proof.Tests

-- one evaluation after the other: each wants much memory
set_option Elab.async false

/-! ### Words -/

/-- The plain header: guard p7, one cycle of stall, no operand retained. -/
def h0 : Hdr := { gp := 7, gn := false, stall := 1, ret := 0 }

/-! A legal word of each constructor that is a word. -/

def words0 : List Instr := [
  .add h0 .s32 false 4 8 (.v 16),
  .addc h0 4 1 8 (.v 16) 0 false,
  .sub h0 .s32 false 4 8 (.v 16),
  .subb h0 4 1 8 (.v 16) 0 false,
  .mul h0 .s32 4 8 (.v 16),
  .mulh h0 .s32 4 8 (.v 16),
  .mulw h0 .s32 4 8 (.v 16),
  .mad h0 .s32 4 8 12 (.v 16),
  .madw h0 .s32 4 8 12 (.v 16),
  .idiv h0 .s32 4 8 (.v 16),
  .irem h0 .s32 4 8 (.v 16),
  .min h0 .s32 4 8 (.v 16),
  .max h0 .s32 4 8 (.v 16),
  .abs h0 .s32 false 4 (.v 16),
  .neg h0 .s32 false 4 (.v 16),
  .isetp h0 .s32 .lt .and 1 8 (.v 16) 0 false,
  .sel h0 .b32 4 8 (.v 16) 0 false,
  .lea h0 .s32 4 8 (.v 16) 0,
  .mov h0 .b32 4 (.v 16),
  .movi h0 .b32 false 4 0,
  .limm h0 .b32 false false 4 0x12345,
  .and h0 .b32 4 8 (.v 16),
  .or h0 .b32 4 8 (.v 16),
  .xor h0 .b32 4 8 (.v 16),
  .andn h0 .b32 4 8 (.v 16),
  .lop3 h0 .b32 4 8 (.v 16) 0 false,
  .shl h0 .b32 4 8 (.v 16),
  .shr h0 .b32 4 8 (.v 16),
  .sar h0 .s32 4 8 (.v 16),
  .fshf h0 .b32 false 4 8 12 (.v 16)]
def words1 : List Instr := [
  .bfx h0 .s32 4 8 (.v 16),
  .bfi h0 .b32 4 8 12 (.v 16),
  .popc h0 .b32 4 (.v 16),
  .clz h0 .b32 4 (.v 16),
  .ctz h0 .b32 4 (.v 16),
  .brev h0 .b32 4 (.v 16),
  .prmt h0 .b32 4 8 12 (.v 16),
  .pand h0 1 2 false 3 false,
  .por h0 1 2 false 3 false,
  .pxor h0 1 2 false 3 false,
  .pnot h0 1 3,
  .pmov h0 1 3,
  .psetPack h0 4,
  .psetUnpack h0 0 8,
  .shfl h0 .idx 0 4 8 (.imm 1),
  .lswap h0 .f32 false false 4 16,
  .vote h0 .mask false false 4 1,
  .matchLanes h0 false 4 16,
  .redux h0 .add false false 4 16,
  .elect h0 false 1,
  .bcast h0 4 16 0,
  .umov h0 4 16 none,
  .bra h0 (.rel 2),
  .brx h0 false 64 16,
  .call h0 4 (.rel 2),
  .callx h0 false 4 64 16,
  .ret h0 false 16,
  .rjoin h0,
  .exit h0,
  .trap h0 1]
def words2 : List Instr := [
  .bkpt h0 1,
  .nop h0,
  .yield h0,
  .sleep h0 (.imm 5),
  .step h0 (.imm 5),
  .fadd h0 .f32 .rne 4 8 (.v 16),
  .fsub h0 .f32 .rne 4 8 (.v 16),
  .fmul h0 .f32 .rne 4 8 (.v 16),
  .ffma h0 .f32 .rne 4 8 12 (.v 16),
  .fmin h0 .f32 4 8 (.v 16),
  .fmax h0 .f32 4 8 (.v 16),
  .fminn h0 .f32 4 8 (.v 16),
  .fmaxn h0 .f32 4 8 (.v 16),
  .fsetp h0 .f32 .lt .and 1 8 (.v 16) 0 false,
  .fclass h0 .f32 4 (.v 16),
  .fdiv h0 .f32 .rne 4 8 (.v 16),
  .fsqrt h0 .f32 .rne 4 (.v 16),
  .frcp h0 .f32 .rne 4 (.v 16),
  .frsq h0 .f32 .rne 4 (.v 16),
  .frnd h0 .f32 .rne false 4 (.v 16),
  .fldx h0 .f32 .rne 4 8 (.v 16),
  .fxtxExp h0 .f32 4 (.v 16),
  .fxtxMant h0 .f32 4 (.v 16),
  .fexp h0 .f32 .rne 4 (.v 16),
  .fexp2 h0 .f32 .rne 4 (.v 16),
  .flog h0 .f32 .rne 4 (.v 16),
  .flog2 h0 .f32 .rne 4 (.v 16),
  .fsin h0 .f32 .rne 4 (.v 16),
  .fcos h0 .f32 .rne 4 (.v 16),
  .fsinpi h0 .f32 .rne 4 (.v 16)]
def words3 : List Instr := [
  .fcospi h0 .f32 .rne 4 (.v 16),
  .ftanh h0 .f32 .rne 4 (.v 16),
  .fsigm h0 .f32 .rne 4 (.v 16),
  .fadd2 h0 .f16 .rne 4 8 (.v 16),
  .fmul2 h0 .f16 .rne 4 8 (.v 16),
  .ffma2 h0 .f16 .rne 4 8 12 (.v 16),
  .dadd h0 .f64 .rne false 4 8 (.v 16),
  .dmul h0 .f64 .rne 4 8 (.v 16),
  .dfma h0 .f64 .rne 4 8 12 (.v 16),
  .ddiv h0 .f64 .rne 4 8 (.v 16),
  .dsqrt h0 .f64 .rne 4 (.v 16),
  .cvt h0 .f32 .s32 false .rne 4 0 (.v 16),
  .dsliceExp h0 0 4 (.v 16),
  .dsliceSlice h0 0 4 8 (.v 16),
  .drecon h0 false 2 4 8 12 (.v 16),
  .ld h0 .glb .b32 .plain .team .none false 4 8 0,
  .ldTyp h0 false .none false 0 4 8 0,
  .ldQue h0 4 3,
  .st h0 .glb .b32 .plain .team .none false 4 8 0,
  .stQue h0 4 3,
  .ldf h0 false .b32 false 4 8 0,
  .stf h0 false .b32 4 8 0,
  .feinit h0 false false 8 (.imm 1),
  .pref h0 .glb .l1 false 8 0,
  .cctlWb h0,
  .cctlIfetch h0,
  .cctlCst h0,
  .enq h0 .b32 .dev 4 8,
  .enqStage h0 .dev 8,
  .deq h0 .b32 false .dev 1 4 8]
def words4 : List Instr := [
  .atom h0 .add .s32 .rlx .team false 4 8 12,
  .red h0 .add .s32 .rlx .team false 8 12,
  .fence h0 .sc .team,
  .monwait h0 .ne .plain .team false 4 8 16,
  .poll h0 .ne .plain .team false 1 4 8 16,
  .tbinit h0 false false 8 (.imm 1),
  .tbarr h0 false false 8,
  .tbexp h0 false false 8 (.imm 1),
  .tbwait h0 false false 8 (.imm 1),
  .tbstat h0 false false 4 8,
  .bartm h0 2 (.imm 1),
  .barcl h0 1 (.imm 1),
  .xsign h0 4 2 (.imm 1),
  .xwait h0 2 (.imm 1),
  .cptLd h0 false false 20 24 32,
  .cptSt h0 false false 36 20 24 32,
  .cpg h0 false 36 8 12 16,
  .cps h0 false false 36 8 12 16,
  .cpr h0 false false 40 8 12 16,
  .cpfill h0 false false 40 8 44 16,
  .cpfillMem h0 false 36 8 44 16,
  .cpcommit h0 4,
  .cpwait h0 (.imm 1),
  .cpwaitUpto h0 (.imm 1),
  .mxcfg h0 .bf16 2 (.imm 1),
  .mxmul h0 false 2 12,
  .mxzero h0 false 52 40,
  .mxld h0 false 52 36 40,
  .mxst h0 false false 52 36 40,
  .mxsel24 h0 false 12]
def words5 : List Instr := [
  .mxstat h0 false 4 8,
  .nbgemv h0 false 8,
  .sxload h0 false false 8 48 none,
  .sxbias h0 false 8 48 none,
  .sxclamp h0 false 8 48 none,
  .sxrun h0 false 8 none,
  .sxread h0 false false 8 48 none,
  .sxkey h0 false false 8 12,
  .sxjoin h0 false 8 12 none,
  .sxhealth h0 false 8 12,
  .spawn h0 false 0 1 56 58 60,
  .spwflush h0,
  .jwait h0 false 8,
  .launch h0 false 4 8,
  .fetchw h0 false 4 8,
  .wlappend h0 false 8 16,
  .wltake h0 1 4,
  .tkwait h0 4 none (.imm 1),
  .tkpass h0 4 none (.imm 1),
  .quiet h0 4,
  .setpri h0 (.imm 1),
  .coll h0 false 8,
  .csrr h0 false 4 0,
  .csrw h0 0x22 (.imm 1),
  .syscall h0 4 8 1,
  .trapret h0 false 16,
  .npbegin h0,
  .npend h0,
  .pairWord { op := .add, d := 4, a := 9, stall := 0, gp := 7 } { op := .mov, d := 13, a := 6, stall := 2, gp := 7 }]

def words : List Instr := words0 ++ words1 ++ words2 ++ words3 ++ words4 ++ words5

theorem test_words_legal : words.all Instr.wf = true := by decide +kernel

theorem test_words_round_trip : (words.all fun i => decide (decodeWords (encode i).1 (encode i).2 = Except.ok i)) = true := by decide +kernel

/-! Words that the manual writes out (files 14 to 18), with the instruction it gives for each. -/

theorem test_decode_integer : decodeTableWord 64 0x0000C02803FA0720 = some (.add { h0 with stall := 0 } .s32 false 12 5 (.imm (-3))) ∧
    decodeTableWord 64 0x0000C02800128A00 = some (.add { gp := 2, gn := false, stall := 4, ret := 1 } .s32 false 12 5 (.v 9)) ∧
    decodeTableWord 128 (0x12345 * 2 ^ 64 + 0x0000C0280000077F) = some (.add { h0 with stall := 0 } .s32 false 12 5 (.lit 0x12345)) ∧
    decodeTableWord 64 0x002040007C048701 = some (.addc { h0 with stall := 4 } 4 1 0 (.v 2) 7 true) ∧
    decodeTableWord 64 0x00205009C4060701 = some (.addc { h0 with stall := 0 } 5 7 1 (.v 3) 1 false) ∧
    decodeTableWord 64 0x01E01020E80A0700 = some (.isetp { h0 with stall := 0 } .s32 .lt .and 1 4 (.v 5) 7 false) := by decide +kernel

theorem test_decode_lanes_and_control : decodeTableWord 64 0x1120600000080712 = some (.lswap { h0 with stall := 0 } .f32 true false 6 4) ∧
    decodeTableWord 64 0x1920000000000700 = some (.nop { h0 with stall := 0 }) ∧
    decodeTableWord 64 0x18000FFFFFFA0100 = some (.bra { gp := 1, gn := false, stall := 0, ret := 0 } (.rel (-3))) ∧
    decodeTableWord 64 0x1820000100140700 = some (.brx { h0 with stall := 0 } false 64 10) := by decide +kernel

theorem test_decode_pair : decodeTableWord 64 0x82020247020D032E = some (.pairWord
    { op := .add, d := 4, a := 9, stall := 0, gp := 7 } { op := .mov, d := 13, a := 6, stall := 2, gp := 7 }) := by decide +kernel

theorem test_decode_float : decodeTableWord 64 0x20602018100A4710 = some (.ffma { h0 with stall := 2 } .f32 .rm 2 3 4 (.v 5)) ∧
    decodeTableWord 64 0x20406010000E0710 = some (.fmul { h0 with stall := 0 } .f32 .rm 6 2 (.v 7)) ∧
    decodeTableWord 64 0x21002021E80A0710 = some (.fsetp { h0 with stall := 0 } .f32 .ltu .and 2 4 (.v 5) 7 false) ∧
    decodeTableWord 64 0x31002002A0060701 = some (.cvt { h0 with stall := 0 } .f16 .f32 false .rne 2 0 (.v 3)) ∧
    decodeTableWord 64 0x314140F8A0520713 = some (.drecon { h0 with stall := 0 } true 3 20 31 40 (.v 41)) := by decide +kernel

theorem test_decode_memory : decodeTableWord 64 0x4000802008200714 = some (.ld { h0 with stall := 0 } .glb .b32 .plain .team .none false 8 4 16) ∧
    decodeTableWord 64 0x4020902070000714 = some (.st { h0 with stall := 0 } .glb .b32 .rel .dev .none false 9 4 0) ∧
    decodeTableWord 64 0x4800202018480747 = some (.atom { h0 with stall := 0 } .cas .b32 .ar .dev false 2 4 6) ∧
    decodeTableWord 64 0x48400000B0000700 = some (.fence { h0 with stall := 0 } .sc .dev) ∧
    decodeTableWord 64 0x4860A061101C0705 = some (.monwait { h0 with stall := 0 } .ne .plain .dev true 10 12 14) := by decide +kernel

theorem test_decode_engines : decodeTableWord 64 0x5060005000000720 = some (.tbwait { h0 with stall := 0 } false false 10 (.imm 0)) ∧
    decodeTableWord 64 0x5260A0102C182100 = some (.cpr { gp := 1, gn := false, stall := 1, ret := 0 } false false 10 2 11 12) ∧
    decodeTableWord 64 0x5820001040000700 = some (.mxmul { h0 with stall := 0 } false 2 16) ∧
    decodeTableWord 64 0x5900003000000700 = some (.nbgemv { h0 with stall := 0 } false 6) ∧
    decodeTableWord 64 0x60600020000A0710 = some (.sxrun { h0 with stall := 0 } false 4 (some 5)) := by decide +kernel

theorem test_decode_tasks_and_system : decodeTableWord 64 0x680000A058120709 = some (.spawn { h0 with stall := 0 } false 1 1 20 22 9) ∧
    decodeTableWord 64 0x684000B000000700 = some (.jwait { h0 with stall := 0 } false 22) ∧
    decodeTableWord 64 0x68E0500000060720 = some (.tkwait { h0 with stall := 0 } 5 none (.imm 3)) ∧
    decodeTableWord 64 0x6960002000000700 = some (.coll { h0 with stall := 0 } false 4) ∧
    decodeTableWord 64 0x700030008C000700 = some (.csrr { h0 with stall := 0 } false 3 0x023) ∧
    decodeTableWord 64 0x7060000000100700 = some (.trapret { h0 with stall := 0 } false 8) ∧
    decodeTableWord 64 0x7080000000000700 = some (.npbegin { h0 with stall := 0 }) := by decide +kernel

/-- Encodings that no instruction has are refused: a reserved OPC, a nonzero zero field, a reserved type, a carried modifier of
ADDC that is not 0 (R319, R329). -/
theorem test_decode_refuses : decodeTableWord 64 0x7FE0000000000700 = none ∧ decodeTableWord 64 0x1920000000000701 = none ∧
    decodeTableWord 64 0x0000C0280012871F = none ∧ decodeTableWord 64 0x002040027C048701 = none := by decide +kernel

/-! ### Terms that the word check refuses, one for each check -/

def illFormed0 : List Instr := [
  .add h0 .s64 false 5 8 (.v 16),                       -- an odd pair
  .add h0 .s64 false 510 8 (.v 16),                     -- v510 as a pair (R309)
  .add h0 .b32 false 4 8 (.v 16),                       -- a type outside I8
  .add { h0 with ret := 2 } .s32 false 4 8 (.v 16),     -- the retain field names a field that is no register (R317)
  .add h0 .s32 false 128 8 (.u 16),                     -- g128
  .add h0 .s64 false 126 8 (.u 16),                     -- g126 as a pair
  .addc h0 4 8 8 (.v 16) 0 false,                       -- a predicate above p7
  .addc h0 4 1 8 (.u 16) 0 false,                       -- a U-form word of a row that has none
  .mul h0 .s8 4 8 (.v 16), .mulw h0 .s64 4 8 (.v 16), .abs h0 .n32 false 4 (.v 16), .and h0 .s32 4 8 (.v 16),
  .lea h0 .b32 4 8 (.v 16) 0, .limm h0 .b32 true false 4 0, .movi h0 .n64 false 4 0,
  .lop3 h0 .b32 4 8 (.v 16) 0x16 true,                  -- a high half of the table under .nd
  .sar h0 .n64 4 8 (.v 16), .bfi h0 .s32 4 8 12 (.v 16),
  .pand h0 1 2 false 8 false, .shfl h0 .idx 6 4 8 (.imm 1), .lswap h0 .b32 true false 4 8,
  .vote h0 .some false true 1 2,                        -- a g destination of a mode that writes a predicate
  .redux h0 .scan false true 4 8, .redux h0 .and true false 4 8]

def illFormed1 : List Instr := [
  .brx h0 false 0 10, .call h0 5 (.rel 1), .sleep h0 (.g 128),
  .fadd h0 .f64 .rne 4 8 (.v 16), .fadd2 h0 .f32 .rne 4 8 (.v 16), .dadd h0 .f32 .rne false 4 8 (.v 16),
  .cvt h0 .f32 .f32 false .rne 4 0 (.v 16),             -- no conversion from a type to itself
  .cvt h0 .f32 .s32 false .rne 4 8 (.v 16),             -- a scale register where none is read
  .dsliceExp h0 6 4 (.v 16), .drecon h0 false 1 4 8 12 (.v 16),
  .ld h0 .scr .b128 .plain .team .none false 6 8 0,     -- four registers from v6
  .ld h0 .cst .b32 .acq .team .none false 4 8 0, .st h0 .scr .s8 .plain .team .none false 4 8 0,
  .ldf h0 false .n8 false 4 8 0, .pref h0 .scr .l1 false 8 0, .enq h0 .b32 .team 4 8,
  .atom h0 .add .b32 .rlx .team false 4 8 12, .atom h0 .cas .b32 .rlx .team false 4 8 13, .red h0 .exch .b32 .rlx .team false 8 12,
  .fence h0 .rlx .dev, .monwait h0 .ne .rel .team false 4 8 12]

def illFormed2 : List Instr := [
  .bartm h0 16 (.imm 1), .barcl h0 4 (.imm 1), .cptLd h0 false false 22 24 32, .cptLd h0 false false 20 28 32, .cpwait h0 (.v 4),
  .mxmul h0 false 2 506, .mxmul h0 true 2 123, .mxstat h0 false 6 8, .ldQue h0 4 32,
  .spawn h0 false 0 5 56 58 60, .spawn h0 false 0 0 56 58 4, .spawn h0 false 0 4 56 58 508, .setpri h0 (.v 4),
  .csrr h0 false 4 0x00D,                               -- a number that R310 does not list
  .csrr h0 true 4 0x000,                                -- a per-lane register into a g register
  .csrw h0 0x021 (.imm 1), .syscall h0 4 8 256,
  .pairWord { op := .nop, d := 1, a := 0, stall := 0, gp := 7 } { op := .mov, d := 13, a := 6, stall := 0, gp := 7 },
  .teamPlacement]

theorem smoke_ill_formed : (illFormed0 ++ illFormed1 ++ illFormed2).all (fun i => !i.wf) = true := by decide +kernel

/-- And the decoder gives none of their encodings back. -/
theorem smoke_ill_formed_decode :
    (illFormed0 ++ illFormed1 ++ illFormed2).all (fun i => decide (decodeWords (encode i).1 (encode i).2 ≠ Except.ok i)) = true := by
  decide +kernel

/-! ### One word on one group -/

/-- A group of one team stands at 0x10000, and its word is being issued in the lanes given. -/
def base (lanes : BitVec 32) : State :=
  { State.reset.withFetchWord 64 0 with agenda := [], cur := { gid := 2, pc := 0x10000, lanes := lanes, len := 8 } }

def out (o : Host.Outcome State Fault Refusal) : State := match o with | .next t => t | _ => { State.reset with clk := 1 }

def grp (s : State) : Group := (s.group 2).getD {}

/-- Lane l with these registers. -/
def withRegs (s : State) (l : Nat) (ws : List (Nat × Word)) : State := s.setGroup 2 ((grp s).setLane l (((grp s).lane l).setRegs ws))

/-- Lane 0 after a word issued in it alone, its registers first set. -/
def lane0 (i : Instr) (ws : List (Nat × Word)) : Lane := (grp (out (exec i (withRegs (base 1) 0 ws)))).lane 0

/-- What the word leaves to land, at once. -/
def landed0 (i : Instr) (ws : List (Nat × Word)) : Lane :=
  let t := out (exec i (withRegs (base 1) 0 ws))
  (grp (out (exec (.resultLands 2 0) t))).lane 0

/-! ### Values of the manual's tables -/

-- R328
theorem test_add_sat : (lane0 (.add h0 .n8 true 4 8 (.v 9)) [(8, 200), (9, 100)]).reg 4 = 0xFF ∧
    (lane0 (.add h0 .n8 false 4 8 (.v 9)) [(8, 200), (9, 100)]).reg 4 = 0x2C ∧
    (lane0 (.neg h0 .s32 true 4 (.v 8)) [(8, 0x80000000)]).reg 4 = 0x7FFFFFFF ∧
    (lane0 (.abs h0 .s32 false 4 (.v 8)) [(8, 0x80000000)]).reg 4 = 0x80000000 := by decide +kernel

-- R329: 0x1_FFFF_FFFF + 0x2_0000_0001
theorem test_add_carry :
    let a := lane0 (.addc h0 4 1 0 (.v 2) 7 true) [(0, 0xFFFFFFFF), (1, 1), (2, 1), (3, 2)]
    a.reg 4 = 0 ∧ a.pred 1 = true ∧
      (let s := withRegs (base 1) 0 [(1, 1), (3, 2)]
       let g := grp s
       (grp (out (exec (.addc h0 5 7 1 (.v 3) 1 false) (s.setGroup 2 (g.setLane 0 { g.lane 0 with p := 2 }))))).lane 0).reg 5 = 4 := by
  decide +kernel

-- R330, the whole table
theorem test_division : ([(IntTy.s32, (-7 : Word), (2 : Word), (0xFFFFFFFD : Word), (0xFFFFFFFF : Word)), (.s32, -7, 0, 1, 0xFFFFFFF9),
    (.s32, 0x80000000, -1, 0x80000000, 0), (.n32, 7, 0, 0xFFFFFFFF, 7)].all fun r =>
      decide ((landed0 (.idiv h0 r.1 4 8 (.v 9)) [(8, r.2.1), (9, r.2.2.1)]).reg 4 = r.2.2.2.1) &&
      decide ((landed0 (.irem h0 r.1 4 8 (.v 9)) [(8, r.2.1), (9, r.2.2.1)]).reg 4 = r.2.2.2.2)) = true := by decide +kernel

-- R335: the majority table; R336: a shift by the width, a rotate; R337: the manual's field
theorem test_bits : (lane0 (.lop3 h0 .b32 4 8 (.v 9) 0xE8 false) [(4, 0x0F0F), (8, 0x00FF), (9, 0x3333)]).reg 4 = 0x033F ∧
    (lane0 (.shl h0 .b32 4 8 (.v 9)) [(8, 1), (9, 32)]).reg 4 = 0 ∧
    (lane0 (.sar h0 .s32 4 8 (.v 9)) [(8, 0x80000000), (9, 32)]).reg 4 = 0xFFFFFFFF ∧
    (lane0 (.fshf h0 .b32 false 4 8 8 (.v 9)) [(8, 0x80000001), (9, 4)]).reg 4 = 0x00000018 ∧
    (lane0 (.bfx h0 .s32 4 8 (.v 9)) [(8, 0x0F00), (9, 0x0408)]).reg 4 = 0xFFFFFFFF := by decide +kernel

-- R346: the manual's table of lane words
def laneCase : State :=
  let s := base 0xFF0000FF
  let g := (List.range 32).foldl (fun (g : Group) l =>
    g.setLane l { (g.lane l).setRegs [(1, BitVec.ofNat 32 (3 * l))] with p := (if l < 28 then 2 else 0) + (if 21 ≤ 3 * l then 8 else 0) }) (grp s)
  s.setGroup 2 g

def guarded : Hdr := { h0 with gp := 1 }

theorem test_lane_words :
    let t := fun i => grp (out (exec i laneCase))
    ((List.range 32).filter fun l => ((t (.elect guarded false 2)).lane l).pred 2) = [0] ∧
    ((t (.vote guarded .mask false false 2 3)).lane 27).reg 2 = 0x0F000080 ∧
    ((t (.redux guarded .add false false 3 1)).lane 0).reg 3 = 0x186 ∧
    ((t (.shfl guarded .shd 5 4 1 (.imm 1))).lane 7).reg 4 = 0x18 ∧ ((t (.shfl guarded .shd 5 4 1 (.imm 1))).lane 27).reg 4 = 0x54 ∧
    ((t (.redux guarded .add false false 3 1)).lane 28).reg 3 = 0 := by decide +kernel

-- the table of conversions (R369 to R374)
theorem test_conversions : ([(CvtTy.f16, CvtTy.f32, false, Dir.rne, (0 : Word), (0x477FF000 : Word), (0x7C00 : Word), (0x05 : BitVec 5)),
    (.f16, .f32, false, .rtz, 0, 0x477FF000, 0x7BFF, 0x01), (.bf16, .f32, false, .rne, 0, 0x3F808000, 0x3F80, 0x01),
    (.e4m3, .f32, false, .rne, 0, 0x43FA0000, 0x7F, 0x05), (.e4m3, .f32, true, .rne, 0, 0x43FA0000, 0x7E, 0x05),
    (.s32, .f32, false, .rne, 0, 0xC0200000, 0xFFFFFFFE, 0x01), (.s32, .f32, false, .rtz, 0, 0x4F800000, 0x7FFFFFFF, 0x10),
    (.s8, .s32, false, .rm, 0, 0x100, 0, 0), (.s8, .s32, true, .rm, 0, 0x100, 0x7F, 0),
    (.mxi8, .f32, false, .rm, 0x7F, 0xC0000000, 0xFFFFFF81, 0x05), (.f32, .f16, false, .rne, 0, 0x7D01, 0x7FE02000, 0x10)].all fun r =>
      let ln := lane0 (.cvt h0 r.1 r.2.1 r.2.2.1 r.2.2.2.1 4 8 (.v 9)) [(8, r.2.2.2.2.1), (9, r.2.2.2.2.2.1)]
      decide (ln.reg 4 = r.2.2.2.2.2.2.1) && decide (ln.flags = r.2.2.2.2.2.2.2)) = true := by decide +kernel

-- R375: 11.298828125 from three products
theorem test_recombination :
    let regs := [(30, 5728), (31, 0), (32, 7296), (40, 3), (41, 2)]
    let a := landed0 (.drecon h0 true 3 20 31 40 (.v 41)) regs
    let b := landed0 (.drecon h0 false 3 20 32 40 (.v 41)) (regs ++ [(20, a.reg 20), (21, a.reg 21)])
    let c := landed0 (.drecon h0 false 2 20 30 40 (.v 41)) (regs ++ [(20, b.reg 20), (21, b.reg 21)])
    a.reg64 20 = 0 ∧ b.reg64 20 = 0x3FBC800000000000 ∧ c.reg64 20 = 0x4026990000000000 ∧ c.flags = 0 := by decide +kernel

-- R365: 8.0 has exponent 3; R359: 1 − 1 rounded down is −0; FMA rounds once
theorem test_float : (lane0 (.fxtxExp h0 .f32 4 (.v 8)) [(8, 0x41000000)]).reg 4 = 3 ∧
    (lane0 (.fsub h0 .f32 .rdn 4 8 (.v 8)) [(8, 0x3F800000)]).reg 4 = 0x80000000 ∧
    (lane0 (.ffma h0 .f32 .rne 4 8 8 (.v 9)) [(8, 0x3F800001), (9, 0xBF800002)]).reg 4 = 0x28800000 ∧
    (lane0 (.fclass h0 .f32 4 (.v 8)) [(8, 0x7F800001)]).reg 4 = 1 ∧
    (landed0 (.fdiv h0 .f32 .rne 4 8 (.v 9)) [(8, 0x3F800000), (9, 0)]).reg 4 = 0x7F800000 ∧
    (landed0 (.fdiv h0 .f32 .rne 4 8 (.v 9)) [(8, 0x3F800000), (9, 0)]).flags = 0x08 := by decide +kernel

-- R261: BETA 0.5, SCALE 0.25, I 28; and the two ends
theorem test_threshold : threshold 0x3800 0x3400 28 = 63615 ∧ threshold 0x3C00 0x3000 100 = 65536 ∧ threshold 0x3C00 0x3000 (-100) = 0 := by
  decide +kernel

/-! ### The hypotheses of the statements can be met

For each statement with hypotheses, states and operands that meet them together, clause by clause where the clauses differ; where
a step is cheap to take, what it leaves is checked too. What a free value of `Config` decides (an image that verifies, a
certificate's length) no state can show. -/

/-- `WordReady`, as a test. -/
def ready (s : State) (g : Group) (h : Hdr) (i : Instr) : Bool :=
  decide (s.group s.cur.gid = some g) && (instrUses i).budgetOk g.budget &&
    (!(instrUses i).priv || (lanesOf s.cur.lanes).all fun l => (g.lane l).handler) &&
    !s.interlocked s.cur.gid g lanes32 (instrUses i) h.gp.toNat && decide (g.hazards = [])

theorem wordReady_of {s : State} {g : Group} {h : Hdr} {i : Instr} (e : ready s g h i = true) : WordReady s g h i := by
  simp only [ready, Bool.and_eq_true, decide_eq_true_eq, Bool.or_eq_true, Bool.not_eq_true', List.all_eq_true] at e
  obtain ⟨⟨⟨⟨h1, h2⟩, h3⟩, h4⟩, h5⟩ := e
  exact ⟨h1, h2, fun hp => h3.resolve_left (by simp [hp]), h4, h5⟩

/-- `Still`, as a test. -/
def still (s : State) (g : Group) (h : Hdr) : Bool :=
  !(s.rcd g.launch).blk.prot &&
    (List.range 32).all fun l => !(active s g h).getLsbD l || (!s.acqPending s.cur.gid l && !s.replyPending s.cur.gid l)

theorem still_of {s : State} {g : Group} {h : Hdr} (e : still s g h = true) : Still s g h := by
  simp only [still, Bool.and_eq_true, Bool.not_eq_true', List.all_eq_true, List.mem_range, Bool.or_eq_true] at e
  refine ⟨e.1, fun l hl => ?_⟩
  have hlt : l < 32 := by
    by_contra hc
    rw [BitVec.getLsbD_of_ge _ _ (by omega)] at hl; simp at hl
  simpa [hl] using e.2 l hlt

/-- All lanes in handler mode. -/
def handlers (s : State) : State :=
  s.setGroup 2 ((List.range 32).foldl (fun (g : Group) l => g.setLane l { g.lane l with handler := true }) (grp s))

theorem ready_words :
    words.all (fun i => ready (if (instrUses i).priv then handlers (base (-1)) else base (-1))
      (grp (if (instrUses i).priv then handlers (base (-1)) else base (-1))) h0 i) = true := by decide +kernel

/-- Every word of a program may run somewhere, in all 32 lanes: a privileged one in handler mode. -/
theorem witness_word_ready : ∀ i ∈ words, ∃ s, s.cur.lanes = -1 ∧ WordReady s (grp s) h0 i := fun i hi =>
  ⟨if (instrUses i).priv then handlers (base (-1)) else base (-1), by split <;> rfl,
    wordReady_of (by simpa using (List.all_eq_true.mp ready_words) i hi)⟩

/-- And a word of one lane, with nothing of the thread in flight. -/
theorem witness_word_still : ∀ i ∈ words, (instrUses i).priv = false → ∃ s g, lanesOf (active s g h0) = [0] ∧ Still s g h0 ∧
    s.txns = [] ∧ (g.lane 0).handler = false ∧ (g.lane 0).linkLost = false ∧ s.hostQuiet (s.ctxOf g) 0 = true ∧ s.hostQuiet (s.ctxOf g) 1 = true ∧
    s.clean g.core (s.ctxOf g) = true ∧ s.cur.full = none ∧ s.spawns = [] ∧ WordReady s g h0 i := by
  have hr : words.all (fun i => (instrUses i).priv || ready (base 1) (grp (base 1)) h0 i) = true := by decide +kernel
  have hs : lanesOf (active (base 1) (grp (base 1)) h0) = [0] ∧ still (base 1) (grp (base 1)) h0 = true ∧ (base 1).txns = [] ∧
      ((grp (base 1)).lane 0).handler = false ∧ ((grp (base 1)).lane 0).linkLost = false ∧
      (base 1).hostQuiet ((base 1).ctxOf (grp (base 1))) 0 = true ∧ (base 1).hostQuiet ((base 1).ctxOf (grp (base 1))) 1 = true ∧
      (base 1).clean (grp (base 1)).core ((base 1).ctxOf (grp (base 1))) = true ∧ (base 1).cur.full = none ∧ (base 1).spawns = [] := by decide +kernel
  intro i hi hp
  have := (List.all_eq_true.mp hr) i hi
  obtain ⟨h1, h2, h3, h4, h5, h6, h7, h8, h9, h10⟩ := hs
  exact ⟨base 1, grp (base 1), h1, still_of h2, h3, h4, h5, h6, h7, h8, h9, h10, wordReady_of (by simpa [hp] using this)⟩

/-- The storage cell of physical address 0x10000, where the placed page stands. -/
def code : Nat := hashQuad 0x10000 * hbmBytes + 0x10000 / 2 ^ 14 * 4096

/-- A branch whose list stands 63 words on, its header at the end of a line, with `n` in its header and one entry, 8 words forward. -/
def listed (n target : Nat) : Lane :=
  let s := (withRegs (base 1) 0 [(10, BitVec.ofNat 32 target), (11, BitVec.ofNat 32 (target / 2 ^ 32))]).setCells (code + 0x1F8) (toLE 8 n ++ toLE 8 8)
  (grp (out (exec (.brx h0 false 63 10) s))).lane 0

theorem witness_branches : (listed 1 0x10040).pc = 0x10040 ∧ (listed 2 0x10040).pc = 0x10040 ∧
    (listed 1 0x10048).cause = 0x24 ∧ (listed 1 0x10048).st = .trapped ∧ (listed 0 0x10040).cause = 0x24 ∧
    (listed 1025 0x10040).cause = 0x24 ∧ (listed 1 0x10044).cause = 0x25 ∧ (listed 1 (2 ^ 57)).cause = 0x26 ∧
    (lane0 (.bra h0 (.rel (-3))) []).pc = 0xFFE8 ∧ (lane0 (.call h0 4 (.abs 0x10004)) []).cause = 0x25 := by decide +kernel

/-- A signalling operand under SNT traps; a quiet one before it is still no result (R217, R357). -/
theorem witness_float_frame : fmt32.op true false [0x7FC00000, 0x7F800001] (fun _ => (0, 0)) = none ∧
    fmt32.op false false [0x7FC00001, 0x7F800001] (fun _ => (0, 0)) = some (0x7FC00001, 0x10) ∧
    fmt32.op false true [0x007FFFFF] (fun v => fmt32.add 0 (nth v 0) (nth v 0)) = some (0, 0) ∧
    fmt32.op false true [0x00800000, 0x80800001] (fun v => fmt32.add 0 (nth v 0) (nth v 1)) = some (0x80000000, 0x03) := by decide +kernel

theorem witness_conversions : cvtVal .s32 .f32 true false 0 0 0x7F800001 = none ∧
    cvtVal .e4m3 .f32 false false 0 0 0x7F800000 = some (0x7F, 0x10) ∧ cvtVal .mxi8 .f32 false false 0 255 0x3F800000 = some (0, 0x10) ∧
    cvtVal .mxi8 .f32 false false 0 254 0x3F800000 = some (0, 0x01) ∧ cvtVal .s8 .f32 false false 0 0 0xC3000000 = some (0xFFFFFFFFFFFFFF80, 0) := by
  decide +kernel

theorem witness_pair_word : (lane0 (.pairWord { op := .add, d := 4, a := 9, stall := 0, gp := 7 } { op := .mov, d := 5, a := 4, stall := 2, gp := 7 })
    [(4, 1), (9, 2)]).reg 5 = 1 ∧
    (lane0 (.pairWord { op := .add, d := 4, a := 9, stall := 0, gp := 7 } { op := .mov, d := 5, a := 4, stall := 2, gp := 7 }) [(4, 1), (9, 2)]).reg 4 = 3 := by
  decide +kernel

/-- The top of the scratchpad, 64 KiB: the last word, and one past it. -/
theorem witness_scratch : (lane0 (.st h0 .scr .b32 .plain .team .none false 4 8 0) [(4, 7), (8, 0xFFFC)]).pc = 0x10008 ∧
    (lane0 (.st h0 .scr .b32 .plain .team .none false 4 8 0) [(8, 0x10000)]).cause = 0x127 ∧
    (lane0 (.ld h0 .scr .b32 .plain .team .none false 4 8 0) [(8, 0xFFFE)]).cause = 0x25 := by decide +kernel

/-- Core 0 translates the placed page by this entry. -/
def retranslate (s : State) (leaf : Leaf) : State := { s with tlb := Sparse.set none s.tlb (tlbKey 0 0 leaf.level 0x10000) (some leaf) }

/-- The placed page, seen by core 0: a store leaves as one transaction, and through a page that refuses writes it traps. -/
def sealed (s : State) : State := retranslate s { placedLeaf with w := false }

theorem witness_memory : Sparse.get none (base 1).tlb (tlbKey 0 0 placedLeaf.level 0x10100) = some placedLeaf ∧
    (base 1).target 0 4 .store (placedLeaf.phys 0x10100) = .ok (.cell, code + 0x100) ∧
    (base 1).loadPoisoned 0 (code + 0x100) 4 = false ∧ (0x10100 : Nat) < windowBase ∧
    (let t := out (exec (.st h0 .glb .b32 .plain .team .none false 4 8 0) (withRegs (base 1) 0 [(8, 0x10100)]))
     t.txns.length = 1 ∧ ((grp t).lane 0).pc = 0x10008) ∧
    ((grp (out (exec (.st h0 .glb .b32 .plain .team .none false 4 8 0) (sealed (withRegs (base 1) 0 [(8, 0x10100)]))))).lane 0).cause = 0x128 ∧
    (lane0 (.atom h0 .add .s32 .rlx .dev false 4 8 12) [(8, 0x10102)]).cause = 0x225 ∧
    (lane0 (.ld h0 .glb .b32 .plain .team .none false 4 8 0) [(9, 0x02000000)]).cause = 0x26 := by decide +kernel

/-- Two lanes wait on granule 5: lane 3 first. A change of its bit to 1 frees it and not lane 4. -/
def twoWait (want keep : Bool) (full : Bool) : State :=
  let g := grp (base 1)
  let g := g.setLane 3 { g.lane 3 with st := .parked, park := .fullBit 1 5 want keep, age := 4 }
  let g := g.setLane 4 { g.lane 4 with st := .parked, park := .fullBit 1 5 want keep, age := 9 }
  ((base 1).setGroup 2 g).setTeam 1 { ((base 1).team 1).getD {} with full := if full then [(5, true)] else [] }

theorem witness_full_empty : Sparse.wf none (twoWait true false false).groups = true ∧ ((twoWait true false false).team 1).isSome = true ∧
    (let g := grp ((twoWait true false false).setFull 1 5 true)
     (g.lane 3).ready = true ∧ (g.lane 4).ready = false) ∧
    (let g := grp ((twoWait true true false).setFull 1 5 true)
     (g.lane 3).ready = true ∧ (g.lane 4).ready = true) ∧
    (let g := grp ((twoWait false false true).setFull 1 5 false)
     (g.lane 3).ready = true ∧ (g.lane 4).ready = false) := by decide +kernel

/-- MONWAIT and POLL through the window of the scratchpad; ENQ on the placed page. -/
theorem witness_waiting : (let s := (withRegs (base 1) 0 [(9, 0x01FFFF00), (12, 7)]).writeScratch 1 0 (toLE 4 7)
     ((grp (out (exec (.monwait h0 .eq .plain .team false 4 8 12) s))).lane 0).reg 4 = 7) ∧
    (let s := (withRegs (base 1) 0 [(9, 0x01FFFF00), (12, 7)]).writeScratch 1 0 (toLE 4 8)
     let t := out (exec (.poll h0 .eq .plain .team false 1 4 8 12) s)
     (grp t).held = true ∧ (grp t).backoff = 1 ∧ (grp t).polls = [] ∧ 0 < s.next) ∧
    (let s := withRegs (base 1) 0 [(8, 0x10000)]
     s.target 0 4096 .store (placedLeaf.phys 0x10000) = .ok (.cell, code) ∧ s.poisonedRange code 64 = false ∧
       (out (exec (.enq h0 .b32 .dev 4 8) s)).txns.length = 1) ∧
    (lane0 (.enq h0 .b32 .dev 4 8) [(8, 0x10040)]).cause = 0x25 := by decide +kernel

/-- The storage cell behind a physical address of the interleaved view. -/
def cellOf (pa : Nat) : Nat := hashQuad pa * hbmBytes + pa / 2 ^ 14 * 4096 + pa % 4096

/-- A leaf of 64 KiB at physical address pa, writable and executable. -/
def leafWord (pa : Nat) : Nat := pa + 0x1B + 2 * 2 ^ 78 + 2 ^ 80

/-- Context 0 with tables that map 0x10000 to physical 0x10000 and 0x100000 to physical 0x200000. -/
def mapped (s : State) : State :=
  ((((s.setCtx 0 { s.ctx 0 with ptroot := 0x100, pceil := 23 }).setCells (cellOf 0x100000) (toLE 16 0x140001)).setCells (cellOf 0x140000) (toLE 16 0x180001)).setCells
    (cellOf 0x180000) (toLE 16 0x1C0001)).setCells (cellOf (0x1C0000 + 16)) (toLE 16 (leafWord 0x10000)) |>.setCells
    (cellOf (0x1C0000 + 256)) (toLE 16 (leafWord 0x200000))

/-- A walk of four levels finds the leaf; an address one page on has none. -/
theorem witness_page_walk : (mapped State.reset).walk 0 0 0x1FFFF = .ok placedLeaf ∧
    (match (mapped State.reset).walk 0 0 0x20000 with | .error (.fault c lo hi) => decide (c = 0x40 ∧ lo = 0x20000 ∧ hi = 0x30000) | _ => false) = true ∧
    (let t := out (exec (.pageWalk 3 0 0x10000) (mapped State.reset))
     Sparse.get none t.tlb ((3 * 64 + 0) * 2 ^ 41 + 1) = some placedLeaf) := by decide +kernel

/-- An atomic that changes its word and one that does not; an element of every format. -/
theorem witness_typed_elements : atomNew .cas .b32 7 7 9 = some 9 ∧ atomNew .cas .b32 7 8 9 = none ∧
    atomNew .inc .n32 0xFFFFFFFF 0xFFFFFFFF 0 = some 0 ∧ atomNew .dec .n32 0 5 0 = some 5 ∧ atomNew .min .s32 0x80000000 1 0 = some 0x80000000 ∧
    bpnVal 5 8 3 = -80 ∧ bpnVal 0x80 8 8 = -128 ∧ bpnVal 1 1 1 = -1 ∧
    decodeTyped fmt32 3 0x7F none = (0x7FC00000, 0) ∧ decodeTyped fmt32 4 0x7D (some 127) = (0x7FC00000, 0x10) ∧
    decodeTyped fmtB16 2 0x40 (some 127) = (0x3F80, 0) ∧ decodeTyped fmt32 2 0x40 (some 255) = (0x7FC00000, 0x10) ∧
    decodeTyped fmt32 4 0x7C none = (0x7F800000, 0) := by decide +kernel

/-- LD.typ on a page of each format: plain, bit planes, MXINT8. -/
def typed (leaf : Leaf) (k : BitVec 3) (va : Nat) : State :=
  out (exec (.ldTyp h0 false .none false k 4 8 0) (retranslate (withRegs (base 1) 0 [(8, BitVec.ofNat 32 va)]) leaf))

theorem witness_typed_loads : ((grp (typed placedLeaf 0 0x10000)).lane 0).cause = 0x2D ∧
    ((grp (typed { placedLeaf with fmt := 1, pl := 2 } 2 0x10000)).lane 0).cause = 0x2E ∧
    ((grp (typed { placedLeaf with fmt := 1, pl := 8, blk := 1 } 7 0x1F000)).lane 0).cause = 0x2F ∧
    (typed { placedLeaf with fmt := 1, pl := 8, blk := 1 } 7 0x1F000).txns = [] ∧
    (typed { placedLeaf with fmt := 1, pl := 8, blk := 1 } 7 0x1EFFF).txns.length = 1 ∧
    (typed { placedLeaf with fmt := 1, pl := 8 } 7 0x1FFFF).txns.length = 1 ∧
    ((grp (typed { placedLeaf with fmt := 2, blk := 1 } 7 0x1F000)).lane 0).cause = 0x2F ∧
    (typed { placedLeaf with fmt := 2, blk := 1 } 7 0x1EFFF).txns.length = 1 := by decide +kernel

/-- A barrier of every field at the ends of its range; and a lane that waits on its phase. -/
theorem witness_transaction_barriers :
    ([({ pend := -2 ^ 31, arrv := 65535, narr := 4096, phase := true } : Bar), { pend := 2 ^ 31 - 1, bound := 65535, run := 65535, stat := 65535 }].all
      fun b => decide (Bar.ofBytes b.bytes = b) && decide (b.bytes.length = 16)) = true ∧
    (({ arrv := 0, ev := true, narr := 3 } : Bar).eval.2 = true) ∧ (({ arrv := 1, ev := true } : Bar).eval.2 = false) ∧
    (let g := (grp (base 1)).setLane 5 { (grp (base 1)).lane 5 with st := .parked, park := .barrier 1 0 false }
     let t := ((base 1).setGroup 2 g).setBar 1 0 { phase := true, narr := 1, arrv := 1 }
     ((grp t).lane 5).ready = true) ∧
    (lane0 (.tbarr h0 false false 8) [(8, 0xFFF8)]).cause = 0x25 ∧
    (lane0 (.tbinit h0 false false 8 (.v 9)) [(8, 0xFFF0), (9, 4096)]).pc = 0x10008 ∧
    (lane0 (.tbinit h0 false false 8 (.v 9)) [(8, 0xFFF0), (9, 4097)]).cause = 0x22 := by decide +kernel

/-- A set of two signatures with one given, and the second; a cluster barrier with its count reached. -/
theorem witness_convergence :
    (let s := (base 1).setTeam 1 { ((base 1).team 1).getD {} with x := [(2, { kind := 1, n := 2, sigs := 1, signers := [70] })] }
     let t := out (exec (.xsign h0 4 2 (.imm 2)) s)
     Sparse.get ({} : Conv) ((t.team 1).getD {}).x 2 = { phase := true } ∧ ((grp t).lane 0).reg 4 = 0) ∧
    (lane0 (.bartm h0 2 (.v 9)) [(9, 4097)]).cause = 0x22 ∧ (lane0 (.barcl h0 1 (.v 9)) [(9, 49153)]).cause = 0x22 ∧
    (let s := (base 1).setRec 0 { (base 1).rcd 0 with barcl := [(1, { kind := 1, n := 1, sigs := 1, signers := [64] })] }
     let g := (grp s).setLane 5 { (grp s).lane 5 with st := .parked, park := .barcl 1 false }
     let t := (s.setGroup 2 g).testBarcl 0 1
     ((grp t).lane 5).st = .eligible ∧ Sparse.wf none s.groups = true) := by decide +kernel

/-- Copies: one that is refused for its length, one that joins the engine; a commit of an open batch. -/
theorem witness_copy_words :
    (lane0 (.cpr h0 false false 40 8 12 16) [(8, 0x10000), (12, 0x100), (16, 8), (40, 0x40)]).cause = 0x22 ∧
    (let s := (withRegs (base 1) 0 [(8, 0x10000), (12, 0x100), (16, 32), (40, 0x40)]).setBar 1 0x40 { narr := 1, arrv := 1 }
     let t := out (exec (.cpr h0 false false 40 8 12 16) s)
     t.copies.length = 1 ∧ (t.bar 1 0x40).bound = 1 ∧ ((grp t).lane 0).openBatch = true ∧ s.hasRoom (.coreCopy 0) = true ∧
       (let u := out (exec (.cpcommit h0 4) { t with cur := s.cur })
        ((grp u).lane 0).mark = 1 ∧ ((grp u).lane 0).openBatch = false ∧ Sparse.wf none t.copies = true)) ∧
    (lane0 (.cpwait h0 (.v 9)) [(9, 16)]).cause = 0x22 ∧ (lane0 (.cpwait h0 (.imm 15)) []).pc = 0x10008 := by decide +kernel

/-- A copy of 32 bytes from the placed page to the scratchpad: its first landing, and its completion with a barrier and with a
stamp. -/
def copying (c : Copy) : State := { ((base 1).setBar 1 0x40 { narr := 1, arrv := 0, pend := 32, bound := 1 }) with copies := [(9, some c)] }

def copyIn : Copy := { quad := none, core := 0, ctx := 0, launch := 0, gid := 2, lane := 0, batch := 1, team := 1, kind := .lin false true 0x100 0x10000 32
                       barTeam := 1, bar := some 0x40, bound := true }

theorem witness_copy_landing : (copying copyIn).copy 9 = some copyIn ∧ (copying copyIn).copyHeld copyIn = false ∧ copyIn.landed = false ∧
    ({ copyIn with pos := 2 } : Copy).landed = true ∧
    (let t := out (exec (.copyLanding 9) (copying copyIn))
     (t.bar 1 0x40).pend = 16 ∧ (t.copy 9).map (·.pos) = some 1 ∧ Sparse.get false ((t.team 1).getD {}).full 0x10 = true ∧
       t.readScratch 1 0x100 16 = (base 1).cells code 16) ∧
    (let t := out (exec (.copyCompletion 9) (copying { copyIn with pos := 2 }))
     t.copies = [] ∧ (t.bar 1 0x40).phase = true ∧ (t.bar 1 0x40).bound = 0 ∧ (t.bar 1 0x40).stat = 2) ∧
    (let c : Copy := { copyIn with pos := 2, bar := none, bound := false, stamp := some (0x10100, 0xABCD) }
     let t := out (exec (.copyCompletion 9) (copying c))
     (copying c).engSettled 9 = true ∧ t.copies = [] ∧ t.wordAt (code + 0x100) 4 = 0xABCD) ∧
    (let c : Copy := { copyIn with kind := .fill false 0xFFF0 16 0x11223344 }
     (out (exec (.copyLanding 9) (copying c))).readScratch 1 0xFFFC 4 = [0x44, 0x33, 0x22, 0x11]) := by decide +kernel


/-- State with team 1 changed. -/
def withTeam (s : State) (f : Team → Team) : State := s.setTeam 1 (f ((s.team 1).getD {}))

/-- The cause that lane 0 records after a word in it alone, with these registers; 0 where it goes on. -/
def causeOf (i : Instr) (ws : List (Nat × Word)) : Word := (lane0 i ws).cause

/-- Two barriers that nothing has arrived at. -/
def barred : State := ((base 1).setBar 1 0x8000 {}).setBar 1 0xFFE0 {}

/-- A signature that is the last of its set queues the operation; each check of the operands in its order. -/
def mxSet (n sigs : Nat) (ops : Option (List Nat)) : State → State :=
  fun s => withTeam s fun t => { t with x := [(2, { kind := 2, mode := 1, n := n, sigs := sigs, ops := ops })] }

theorem witness_matrix_words :
    (lane0 (.mxcfg h0 .s8 2 (.imm 0)) []).cause = 0x22 ∧
    (let t := out (exec (.mxcfg h0 .s8 2 (.v 9)) (withRegs (base 1) 0 [(9, 4096)]))
     Sparse.get ({} : Conv) ((t.team 1).getD {}).x 2 = { kind := 2, mode := 1, n := 4096 } ∧ ((grp t).lane 0).pc = 0x10008) ∧
    (let regs := [(8, 0), (9, 0x2000), (10, 0), (11, 64), (12, 3), (13, 0x8000)]
     let run := fun s => out (exec (.mxmul h0 false 2 8) (withRegs s 0 regs))
     let t := run (mxSet 1 0 none barred)
     (Sparse.get [] t.mx 0).map (·.kind) = [.mul 1 0 0x2000 0 64 3] ∧ (t.bar 1 0x8000).bound = 1 ∧
       (Sparse.get ({} : Conv) ((run (mxSet 3 1 none barred)).team 1 |>.getD {}).x 2).sigs = 2 ∧
       ((grp (run (mxSet 3 1 (some [0, 0, 0, 0, 0, 0]) barred))).lane 0).cause = 0x30) ∧
    ([([(8, 0), (9, 0x2000), (11, 63), (12, 3), (13, 0x8000)], 0x22), ([(8, 0), (9, 0x2000), (11, 64), (12, 4), (13, 0x8000)], 0x22),
      ([(8, 1), (9, 0x2000), (11, 64), (12, 3), (13, 0x8000)], 0x25), ([(8, 0), (9, 0xFF80), (11, 64), (12, 3), (13, 0x8000)], 0x27),
      ([(8, 0), (9, 0x2000), (11, 64), (12, 3), (13, 0xFFF0)], 0x27)].all fun r =>
        decide (((grp (out (exec (.mxmul h0 false 2 8) (withRegs (mxSet 1 0 none barred) 0 r.1)))).lane 0).cause = r.2)) = true ∧
    (out (exec (.mxzero h0 false 8 9) (withRegs barred 0 [(8, 3), (9, 0xFFE0)]))).mx.length = 1 ∧
    causeOf (.mxzero h0 false 8 9) [(8, 4), (9, 0)] = 0x22 ∧ causeOf (.mxld h0 false 8 10 9) [(8, 3), (9, 0), (10, 128)] = 0x27 ∧
    (out (exec (.mxst h0 false true 8 10 9) (withRegs barred 0 [(8, 0), (9, 0xFFE0), (10, 0x7F80)]))).mx.length = 1 ∧
    (out (exec (.mxsel24 h0 false 8) (withRegs barred 0 [(8, 0), (9, 0x4000), (10, 0x6000), (11, 64), (12, 128), (13, 0x8000)]))).mx.length = 1 ∧
    causeOf (.mxsel24 h0 false 8) [(8, 0), (9, 0x4000), (10, 0x6000), (11, 64), (12, 129), (13, 0x8000)] = 0x22 ∧
    (lane0 (.mxstat h0 false 4 8) [(8, 0xFFE0)]).pc = 0x10008 ∧ causeOf (.mxstat h0 false 4 8) [(8, 0xFFF0)] = 0x27 := by decide +kernel

/-- A core with one matrix operation at its head, whose status granule stands at 0x8010. -/
def matrixOn (k : MxKind) (s : State) : State := { s.setBar 1 0x8000 { bound := 1 } with mx := [(0, [{ id := 9, team := 1, kind := k, bar := 0x8000 }])] }

/-- MXSEL24 of one row of 64: of each four it keeps the two of greatest magnitude; a selector byte 0x44 keeps elements 0 and 1. -/
theorem witness_matrix_results :
    (let s := matrixOn (.sel24 0 1 64 0x4000 0x6000) ((base 1).writeScratch 1 0 ((List.range 16).flatMap fun _ =>
       toLE 2 0x3F80 ++ toLE 2 0xC000 ++ toLE 2 0x3F00 ++ toLE 2 0))
     s.txns = [] ∧ Sparse.get [] s.mx 0 ≠ [] ∧
     (let t := out (exec (.matrixCompletion 1) s)
      t.mx = [] ∧ t.readScratch 1 0x4000 4 = toLE 2 0x3F80 ++ toLE 2 0xC000 ∧ t.readScratch 1 0x6000 8 = List.replicate 8 0x44 ∧
        (t.bar 1 0x8000).bound = 0)) ∧
    keepTwo [0x7FC0, 0xFF80, 0x7F80, 0x7F80] = (0, 1) ∧ keepTwo [0, 0x8000, 0, 0] = (0, 1) ∧ keepTwo [1, 2, 3, 0x8003] = (2, 3) ∧
    -- an INT8 element of K 64 that wraps; a sum of one chunk; the two orders of FP32 and BF16
    (let s := withTeam ((base 1).writeScratch 1 0 (List.replicate 64 0x80 ++ List.replicate 64 0)) fun t => t
     let s := (List.range 64).foldl (fun (s : State) k => s.writeScratch 1 (0x2000 + 128 * k) [0x80]) s
     s.s8Chunk 1 0 0x2000 64 0 0 0 0x7FFFFFFF = (0x800FFFFF, 1)) ∧
    chunkSum [(.fin false 1 0, .fin false 3 0), (.fin true 1 1, .fin false 1 0)] = (0x3F800000, 0) ∧
    chunkSum [(.inf false, .fin false 1 0), (.inf true, .fin false 1 0)] = (0x7FC00000, 0x10) ∧
    toBf16 0x7F800001 = (0x7FC0, 0x10) ∧ toBf16 0x3F818000 = (0x3F82, 0x01) ∧ toBf16 0x7F7FFFFF = (0x7F80, 0x05) := by decide +kernel

/-- A descriptor of one row, one tile, FP32 to memory at 0x10200, stamp at 0x10300. -/
def nbDesc (rows out' : Nat) : List Byte :=
  toLE 8 0x10000 ++ toLE 4 rows ++ toLE 2 1 ++ [8, BitVec.ofNat 8 out'] ++ toLE 4 0x100 ++ [0, 0, 0, 0] ++ toLE 8 0x10200 ++ toLE 8 0x10300 ++ toLE 4 0xABCD ++
  List.replicate 0x14 0

/-- An operation on bit planes at the placed page, and quadrant 0's translation of it. -/
def nbOp (out' row : Nat) : Nb :=
  { core := 0, ctx := 0, launch := 0, gid := 2, team := 1, w := 0x10000, rows := 1, ct := 1, pln := 8, out := out', cy := 0, cx := none
    x := List.replicate 128 0x3F80, y := 0x10200, stamp := 0x10300, tag := 0xABCD, row := row }

def nbState (n : Nb) : State :=
  ({ base 1 with nbs := [(9, some n)] } : State).fillTlb 192 0 0x10000 { placedLeaf with fmt := 1, pl := 8 }

theorem witness_near_bank :
    (let s := ((withRegs (base 1) 0 [(8, 0)]).writeScratch 1 0 (nbDesc 1 1)).fillTlb 192 0 0x10000 { placedLeaf with fmt := 1, pl := 8 }
     let s := s.writeScratch 1 0x100 (List.replicate 256 0)
     let t := out (exec (.nbgemv h0 false 8) s)
     t.nbs.length = 1 ∧ ((grp t).lane 0).pc = 0x10008) ∧
    -- a page of W that holds fewer planes
    (let s := ((withRegs (base 1) 0 [(8, 0)]).writeScratch 1 0 (nbDesc 1 1)).fillTlb 192 0 0x10000 { placedLeaf with fmt := 1, pl := 7 }
     ((grp (out (exec (.nbgemv h0 false 8) s))).lane 0).cause = 0x22) ∧
    (let s := (withRegs (base 1) 0 [(8, 0)]).writeScratch 1 0 (nbDesc (2 ^ 24 + 1) 1)
     ((grp (out (exec (.nbgemv h0 false 8) s))).lane 0).cause = 0x22) ∧
    causeOf (.nbgemv h0 false 8) [(8, 0x20)] = 0x25 ∧ causeOf (.nbgemv h0 false 8) [(8, 0x10000)] = 0x27 ∧
    -- every row is done: the stamp, or none
    (let s := nbState (nbOp 1 1)
     s.nb 9 = some (nbOp 1 1) ∧ s.engSettled 9 = true ∧
       (let t := out (exec (.nbgemvCompletion 9) s)
        t.nbs = [] ∧ t.wordAt (cellOf 0x10300) 4 = 0xABCD)) ∧
    (out (exec (.nbgemvCompletion 9) (nbState { nbOp 0 1 with stamp := 0 }))).nbs = [] := by decide +kernel

/-- One element of W, 0x80 in its eight planes of the first line. -/
theorem witness_near_bank_row : (match ((nbState (nbOp 1 0)).wElem (nbOp 1 0) 9 0).1 with | .ok v => decide (v = .fin false 0 0) | _ => false) = true ∧
    (match ((nbState (nbOp 1 0)).wTile (nbOp 1 0) 9 0 0 2).1 with
     | .ok ps => decide (ps.map (·.2) = [fmtB16.decode 0x3F80, fmtB16.decode 0x3F80]) | _ => false) = true := by decide +kernel

/-- The last row of an operation on two planes with a result queue, the sector that its row needs in the engine: elements 0 to 7 have
the bit of plane 0 alone. -/
def nbLast : Nb := { nbOp 0 0 with pln := 2, stamp := 0 }

def nbLastState : State :=
  ({ withTeam (base 1) fun t => t.setEngq 0 { sink := some 9 } with
     nbs := [(9, some nbLast)], engBuf := [(9, [(0x10000, 0xFF :: List.replicate 31 0, false)])] } : State).fillTlb 192 0 0x10000
    { placedLeaf with fmt := 1, pl := 2 }

theorem witness_near_bank_last_row :
    nbLastState.nb 9 = some nbLast ∧ nbLast.rows = nbLast.row + 1 ∧ nbLast.row % 256 = 0 ∧ nbLastState.issueCycle 0 = true ∧
    (nbLastState.rcd 0).st = .running ∧ ((nbLastState.team 1).map fun t => (t.st, t.stopping, t.entries, (t.engq 0).result)) = some (.running, false, 0, []) ∧
    nbLastState.tlbAt 192 0 0x10000 = some { placedLeaf with fmt := 1, pl := 2 } ∧
    nbLastState.target 0 1 .load (placedLeaf.phys 0x10000) = .ok (.cell, code) ∧
    ((List.range 128).all fun c => match typedBytes 1 2 0 2 c with | .ok (offs, sc) => (sc.toList ++ offs).all (· < 32) | _ => false) = true ∧
    (let t := out (exec (.nbgemvCompletion 9) nbLastState)
     t.nbs = [] ∧ (t.team 1).map (fun t => (t.engq 0).result) = some [0xC1800000]) := by decide +kernel

/-! #### Sampling arrays -/

/-- Team 1 has the array of core 0, with one operation at its head. -/
def arrayOn (x : SxArray) (k : SxKind) (f : SxOp → SxOp) (s : State) : State :=
  { s.setBar 1 0x8000 { bound := 1 } with
    arrays := [(0, { x with team := some 1, ops := [f { id := 9, team := 1, launch := 0, kind := k, bar := some 0x8000, bound := true }] })] }

def runDesc (nsw : Nat) (beta : Nat) : List Byte :=
  toLE 4 nsw ++ toLE 4 0 ++ toLE 2 beta ++ toLE 2 0x3400 ++ [2, 0, 0] ++ List.replicate 49 0

theorem witness_sphinx_words :
    (lane0 (.sxload h0 false false 8 10 (some 9)) [(8, 0), (9, 0x8000), (10, 8191), (11, 2)]).cause = 0x22 ∧
    (lane0 (.sxload h0 false false 8 10 (some 9)) [(8, 0), (9, 0x8008), (10, 0), (11, 2)]).cause = 0x25 ∧
    (lane0 (.sxload h0 false false 8 10 none) [(8, 0xFFC0), (10, 0), (11, 2)]).cause = 0x27 ∧
    (lane0 (.sxload h0 false true 8 10 none) [(8, 0), (9, 0x02000000), (10, 8191), (11, 1)]).cause = 0x26 ∧
    (let t := out (exec (.sxload h0 false true 8 10 none) (withRegs (base 1) 0 [(8, 0x10000), (10, 8191), (11, 1)]))
     (t.array 0).ops.length = 1 ∧ ((grp t).lane 0).pc = 0x10008) ∧
    ([([1, 0x8000], 0), ([2 ^ 24, 0x8000], 0), ([2 ^ 24 + 1, 0x8000], 0x22), ([1, 0x7C00], 0x22), ([1, 0x8001], 0x22)].all fun r =>
      let s := (withRegs (base 1) 0 [(8, 0)]).writeScratch 1 0 (runDesc (r.1.getD 0 0) (r.1.getD 1 0))
      decide (((grp (out (exec (.sxrun h0 false 8 none) s))).lane 0).cause = r.2)) = true ∧
    (lane0 (.sxjoin h0 false 8 9 none) [(8, 0), (9, 0x00C0C003)]).cause = 0x22 ∧ (lane0 (.sxjoin h0 false 8 9 none) [(8, 0), (9, 0x00BFC003)]).pc = 0x10008 ∧
    (lane0 (.sxjoin h0 false 8 9 none) [(8, 5), (9, 0)]).pc = 0x10008 ∧
    (lane0 (.sxhealth h0 false 8 9) [(8, 1023), (9, 0)]).cause = 0x22 ∧ (lane0 (.sxhealth h0 false 8 9) [(8, 65536), (9, 65535)]).pc = 0x10008 ∧
    (lane0 (.sxread h0 false false 8 10 none) [(8, 0), (10, 4), (11, 8)]).cause = 0x22 ∧ (lane0 (.sxread h0 false true 8 10 none) [(8, 0), (10, 4), (11, 8)]).pc = 0x10008 ∧
    (lane0 (.sxbias h0 false 8 10 none) [(8, 0xFFF0), (10, 0), (11, 9)]).cause = 0x27 ∧ (lane0 (.sxclamp h0 false 8 10 none) [(8, 0xFB00), (10, 0), (11, 8)]).pc = 0x10008 ∧
    (lane0 (.sxkey h0 false true 8 10) [(8, 1), (9, 2), (10, 3)]).pc = 0x10008 ∧
    (let s := (base 1).setArray 0 { (base 1).array 0 with fenced := true }
     ((grp (out (exec (.sxkey h0 false true 8 10) s))).lane 0).cause = 0x32) := by decide +kernel

/-- The head operation is found, and each kind ends it in its own way. -/
theorem witness_sphinx_operations :
    (let s := arrayOn {} (.key 7 5 true) (fun o => o) (base 1)
     (match s.headSx 1 with | some (c, _, o) => decide (c = 0 ∧ o.ended = false ∧ o.report = none ∧ o.deps = []) | none => false) = true ∧
       (let t := out (exec (.sphinxCompletion 1) s)
        (t.array 0).key = 7 ∧ (t.array 0).sweep = 5 ∧ (t.array 0).ops = [] ∧ (t.bar 1 0x8000).bound = 0)) ∧
    (let s := arrayOn {} (.bias 0 8190 2) (fun o => o) ((base 1).writeScratch 1 0 [1, 0, 2, 0])
     let t := out (exec (.sphinxCompletion 1) s)
     ((t.array 0).node 8190).bias = 1 ∧ ((t.array 0).node 8191).bias = 2 ∧ t.readScratch 1 0x8010 4 = toLE 4 2) ∧
    (let s := arrayOn {} (.clamp 0 0 8) (fun o => o) (((base 1).writeScratch 1 0 [0x81]).writeScratch 1 1024 [0x80])
     let t := out (exec (.sphinxCompletion 1) s)
     ((t.array 0).node 7).cle = true ∧ ((t.array 0).node 7).clv = true ∧ ((t.array 0).node 0).clv = false ∧ ((t.array 0).node 1).cle = false) ∧
    (let rec' : List Byte := toLE 2 5 ++ [0x21, 0] ++ [0, 0, 0x80] ++ List.replicate 57 0
     let s := arrayOn {} (.load false 0 3 1) (fun o => o) ((base 1).writeScratch 1 0 rec')
     let t := out (exec (.sphinxCompletion 1) s)
     (Node.ofBytes rec').isSome = true ∧ ((t.array 0).node 3).bias = 5 ∧ ((t.array 0).node 3).st = true ∧ ((t.array 0).node 3).w.head? = some (0x80, 0)) ∧
    (let s := arrayOn { nodes := [(8, { st := true }), (15, { st := true })] } (.read false 0x100 8 8) (fun o => o) (base 1)
     (out (exec (.sphinxCompletion 1) s)).readScratch 1 0x100 16 = 0x81 :: List.replicate 15 0) ∧
    (let s := arrayOn { dom := some 3 } (.join 0 3 2 0) (fun o => o) (base 1)
     (match s.headSx 1 with | some (_, a, _) => decide (a.dom ≠ none) | none => false) = true) ∧
    (let s := arrayOn {} (.run 2 0 0x3C00 0x3400 2 0 false 0) (fun o => { o with started := true }) (base 1)
     ((out (exec (.sweepStart 1) s)).array 0).ops.map (·.inSweep) = [true]) ∧
    (let s := arrayOn {} (.join 0 3 2 0) (fun o => { o with started := true }) (base 1)
     ((s.rcd 0).domain 3).formed = false ∧ Sparse.wf {} s.arrays = true ∧
       ((out (exec (.domainJoinTimeout 0 3) s)).array 0).ops.map (·.code) = [0x41]) ∧
    fmt16.decode 0x3C00 = .fin false 1024 (-10) ∧ fmt16.decode 0xFBFF = .fin true 2047 5 := by decide +kernel

/-- A phase of a replayed array: node 1, unclamped, of colour 0, takes +1 when its draw lies below its threshold. -/
theorem witness_phase :
    let x : SxArray := { replay := true, key := 1, nodes := [(1, { bias := 0x7FFF }), (2, { bias := 0x8000, st := true }), (3, { cle := true, clv := true }), (4, { col := 1 })] }
    (∀ n : Fin 4, ((List.range 4).map fun i => (x.node (i + 1)).col.toNat)[n] = if n = 3 then 1 else 0) ∧
    threshold 0x3C00 0x3C00 0x7FFF = 65536 ∧ threshold 0x3C00 0x3C00 (-0x8000) = 0 ∧ sxHash 1 0 0 0 1 0 < 65536 := by decide +kernel

/-! #### Launches and work -/

/-- A block that passes every check: one role of one group of one register block, on a grid of one. -/
def blockBytes : List Byte :=
  [1, 0, 0, 0, 1, 0, 1, 1] ++ toLE 4 1 ++ toLE 4 1 ++ toLE 4 1 ++ toLE 2 0 ++ [0, 0] ++ toLE 8 0 ++ toLE 8 0x10300 ++ toLE 8 0 ++ toLE 4 0 ++ toLE 2 0 ++
  toLE 2 0 ++ toLE 8 0x20000 ++ toLE 4 1 ++ toLE 4 0 ++ List.replicate 0x38 0 ++ (toLE 8 0x10000 ++ [1, 1, 0] ++ List.replicate 5 0) ++ List.replicate 112 0

theorem witness_launch_blocks : blockBytes.length = 256 ∧ checkBlock 0 blockBytes = none ∧ checkBlock 0 (2 :: blockBytes.tail) = some 1 ∧
    checkBlock 0 (blockBytes.set 0x44 5) = some 2 ∧ checkBlock 0 (blockBytes.set 1 1) = some 3 ∧ checkBlock 0 (blockBytes.set 6 7) = some 4 ∧
    checkBlock 0 (blockBytes.set 0x34 65) = some 4 ∧ checkBlock 0 (blockBytes.set 0x88 65) = some 4 ∧ checkBlock 0 (blockBytes.set 0x34 64) = none ∧
    checkBlock 0 ((blockBytes.set 0x88 64).set 0x89 17) = some 5 ∧ checkBlock 0 (blockBytes.set 0x40 0) = some 6 ∧
    checkBlock 0 (blockBytes.set 2 4) = some 7 := by decide +kernel

def launching (s : State) : State := (withRegs s 0 [(8, 0x10100)]).setCells (code + 0x100) blockBytes

theorem witness_launch :
    (let s := launching (base 1)
     (match (s.readGlobal false (grp s) 2 0x10100 256 4).1 with | .bytes bs => decide (bs = blockBytes) | _ => false) = true ∧
       (s.rcd 0).st = .running ∧ (s.rcd 1).st = .free ∧
       (let t := out (exec (.launch h0 false 4 8) s)
        ((grp t).lane 0).reg 4 = 0x1001 ∧ ((grp t).lane 0).pc = 0x10008 ∧ (t.rcd 1).st = .waiting ∧ (t.rcd 1).pending.length = 1)) ∧
    causeOf (.launch h0 false 4 8) [(8, 0x10120)] = 0x25 ∧ causeOf (.launch h0 false 4 8) [(9, 0x02000000)] = 0x26 := by decide +kernel

/-- One record of stage 0 is pending. -/
def pendingTask (s : State) : State := s.setRec 0 { s.rcd 0 with pending := [{ seq := 5, arg := 9, age := 1 }] }

theorem witness_fetchw :
    (let s := pendingTask (withRegs (base 1) 0 [(8, 0x40)])
     (s.nextTask 0 0).1 = .task { seq := 5, arg := 9, age := 1 } ∧
       (let t := out (exec (.fetchw h0 false 4 8) s)
        ((grp t).lane 0).reg 4 = 1 ∧ t.readScratch 1 0x48 8 = toLE 8 9 ∧ ((t.team 1).getD {}).taken.length = 1 ∧ (t.rcd 0).pending = [])) ∧
    (let t := out (exec (.fetchw h0 false 4 8) (withRegs (base 1) 0 [(8, 0x40)]))
     ((grp t).lane 0).reg 4 = 0 ∧ t.readScratch 1 0x5C 4 = [0xFF, 0xFF, 0xFF, 0xFF]) ∧
    (lane0 (.fetchw h0 false 4 8) [(8, 0xFFE0)]).cause ≠ 0 := by decide +kernel

theorem witness_enq_stage :
    (let s := (withRegs (mapped (base 1)) 0 [(8, 0x40)]).writeScratch 1 0x40 (toLE 8 0x10000 ++ List.replicate 56 7)
     let t := out (exec (.enqStage h0 .team 8) s)
     (t.rcd 0).queue 0 ≠ [] ∧ Sparse.get 0 (t.rcd 0).queueTail 0 = 1 ∧ t.cells (cellOf 0x200000) 64 = toLE 8 0x10000 ++ List.replicate 56 7 ∧
       ((grp t).lane 0).pc = 0x10008) ∧
    (let s := withTeam (withRegs (base 1) 0 [(8, 0x40)]) fun t => { t with task := { t.task with stg := 1 } }
     ((grp (out (exec (.enqStage h0 .team 8) s))).lane 0).cause = 0x22) ∧
    (lane0 (.enqStage h0 .team 8) [(8, 0x10000)]).cause ≠ 0 := by decide +kernel

/-- Work lists at their ends, tickets before, at and after their turn. -/
theorem witness_work :
    (let t := out (exec (.wlappend h0 false 8 10) (withRegs (base 1) 0 [(8, 191), (10, 7), (11, 1)]))
     Sparse.get ([] : List DWord) (t.rcd 0).lists 191 = [0x100000007]) ∧
    (let s := (base 1).setDie 7 { (base 1).die 7 with st := .fenced }
     let t := out (exec (.wlappend h0 false 8 10) (withRegs s 0 [(8, 191), (10, 7), (11, 1)]))
     Sparse.get ([] : List DWord) (t.rcd 0).lists 255 = [0x100000007]) ∧
    (lane0 (.wlappend h0 false 8 10) [(8, 192)]).cause = 0x22 ∧
    (let s := (base 1).setRec 0 { (base 1).rcd 0 with lists := [(255, [0x9])] }
     ((grp (out (exec (.wltake h0 1 4) s))).lane 0).reg 4 = 9) ∧ ((lane0 (.wltake h0 1 4) []).pred 1) = false ∧
    (lane0 (.tkwait h0 4 none (.imm 16)) []).cause = 0x22 ∧ (lane0 (.tkwait h0 4 (some 8) (.imm 15)) [(8, 1)]).park = .ticket 15 1 ∧
    (lane0 (.tkpass h0 4 (some 8) (.imm 15)) [(8, 0)]).reg 4 = 0 ∧ (lane0 (.tkpass h0 4 (some 8) (.imm 15)) [(8, 1)]).reg 4 = 1 ∧
    (let s := (base 1).setRec 0 { (base 1).rcd 0 with lists := [(0, [9])] }
     let g := { grp s with idle := true }
     let g := g.setLane 5 { g.lane 5 with st := .parked, park := .quiet 4 none }
     let t := (s.setGroup 2 g).quietItems 0
     Sparse.wf none s.groups = true ∧ (grp t).idle = false ∧ ((grp t).lane 5).st = .eligible) ∧
    (let s := (base 1).setCtx 0 { (base 1).ctx 0 with pceil := 16 }
     (((out (exec (.setpri h0 (.imm 16)) s)).rcd 0).blk.pri = 16) ∧ ((grp (out (exec (.setpri h0 (.imm 17)) s))).lane 0).cause = 0x22) ∧
    ((grp (out (exec (.quiet h0 4) (base 1)))).lane 0).reg 4 = 1 ∧
    (grp (out (exec (.quiet h0 4) (pendingTask (base 1))))).idle = true := by decide +kernel

/-! #### Spawns and joins -/

/-- A spawn of lane 0 that is on its way, with its lane parked on it. -/
def spawning (s : State) : State :=
  let g := (grp s).setLane 0 { (grp s).lane 0 with st := .parked, park := .spawn 9 }
  { s.setGroup 2 g with spawns := [(9, some { gid := 2, lane := 0, core := 0, launch := 0, entry := 0x10000, cls := 0, depth := 1, join := 0, pay := [7] })] }

theorem witness_spawn :
    causeOf (.spawn h0 false 0 1 8 10 12) [(8, 0x10004)] = 0x25 ∧ causeOf (.spawn h0 false 0 1 8 10 12) [(8, 0x10000), (10, 2)] = 0x25 ∧
    causeOf (.spawn h0 false 0 1 8 10 12) [(8, 0x10000), (9, 0x02000000)] = 0x26 ∧ causeOf (.spawn h0 false 0 1 8 10 12) [(8, 0x10000), (11, 0x02000000)] = 0x26 ∧
    (let s := (base 1).setRec 0 { (base 1).rcd 0 with blk := { ((base 1).rcd 0).blk with spov := 0 } }
     ((grp (out (exec (.spawn h0 false 0 1 8 10 12) s))).lane 0).cause = 0x33) ∧
    (let s := (base 1).setGroup 2 { grp (base 1) with spawned := some { depth := 63 } }
     ((grp (out (exec (.spawn h0 false 0 1 8 10 12) s))).lane 0).cause = 0x34) ∧
    (let t := out (exec (.spawn h0 false 0 4 8 10 12) (withRegs (base 1) 0 [(8, 0x10000), (12, 3)]))
     t.spawns.length = 1 ∧ ((grp t).lane 0).st = .parked) := by decide +kernel

/-- Accepted into a free bin, into the open bin of its key, and as the thread that fills it. -/
theorem witness_spawn_accept :
    (let s := spawning (base 1)
     s.clean 0 0 = true ∧ s.refillLaunch 0 = none ∧ ((grp s).lane 0).park = .spawn 9 ∧ (s.bin 0 0).used = false ∧
       (let t := out (exec (.spawnAccept 9) s)
        t.spawns = [] ∧ (t.bin 0 0).kids.map (·.pay) = [[7]] ∧ (t.bin 0 0).closed = none ∧ ((grp t).lane 0).pc = 0x10008)) ∧
    (let x : Bin := { used := true, launch := 0, entry := 0x10000, cls := 0, depth := 1, kids := List.replicate 31 {} }
     let s := (spawning (base 1)).setBin 0 255 x
     let t := out (exec (.spawnAccept 9) s)
     (t.bin 0 255).kids.length = 32 ∧ (t.bin 0 255).closed.isSome = true) := by decide +kernel

/-- An open bin of core 0's unit, opened at 0. -/
def binned (s : State) : State := s.setBin 3 255 { used := true, kids := [{ src := 2 }] }

theorem witness_bins :
    Sparse.wf {} (binned (base 1)).bins = true ∧ ((binned (base 1)).flushBins fun _ => true).bins.map (·.2.closed.isSome) = [true] ∧
    ((out (exec (.binTimer 3 255) { binned (base 1) with clk := 40000 })).bin 3 255).closed.isSome = true ∧
    ((out (exec (.binTimer 3 255) { binned (base 1) with clk := 39999 })).bin 3 255).closed = none ∧ (base 1).binAwaited ((binned (base 1)).bin 3 255) = false ∧
    (let t := out (exec (.spwflush h0) (binned (base 1)))
     (t.bin 3 255).closed.isSome = true ∧ ((grp t).lane 0).pc = 0x10008) := by decide +kernel

theorem witness_joins :
    (lane0 (.jwait h0 false 8) []).pc = 0x10008 ∧ causeOf (.jwait h0 false 8) [(8, 2)] = 0x25 ∧ causeOf (.jwait h0 false 8) [(9, 0x02000000)] = 0x26 ∧
    (let s := withRegs (base 1) 0 [(8, 0x10100)]
     s.target 0 4 .load (placedLeaf.phys 0x10100) = .ok (.cell, code + 0x100) ∧ s.lineFree none ((code + 0x100) / 128) = true ∧ s.poison = [] ∧
       ((grp (out (exec (.jwait h0 false 8) s))).lane 0).pc = 0x10008 ∧
       ((grp (out (exec (.jwait h0 false 8) (s.setCells (code + 0x100) [1])))).lane 0).park = .jwait (code + 0x100) 0x10100) ∧
    (let s := (mapped (base 1)).setCells (cellOf 0x200040) (toLE 4 1)
     let s : State := { s with decs := [(9, some { launch := 0, ctx := 0, core := 0, gid := 2, va := 0x100040, n := 3, deps := [] })] }
     (match (s.millAt 0 0x100040 4 .atomic).1 with | .cell a => decide (a = cellOf 0x200040) | _ => false) = true ∧
       (let t := out (exec (.joinDecrement 9) s)
        t.decs = [] ∧ t.wordAt (cellOf 0x200040) 4 = 2 ^ 32 - 2)) := by decide +kernel

/-! #### Special registers, calls, windows, exceptions -/

/-- R310 and R428: one register of each shape, an absent one, the mode register, a call and its order. -/
theorem witness_system :
    (lane0 (.csrr h0 false 4 0x006) []).reg 4 = 0 ∧ (lane0 (.csrr h0 false 4 0x020) []).reg64 4 = 0x10000 ∧ (lane0 (.csrr h0 false 4 0x00C) []).reg 4 = 64 ∧
    causeOf (.csrr h0 false 4 0x013) [] = 0x22 ∧ causeOf (.csrr h0 true 4 0x000) [] = 0x22 ∧
    (base 1).laneSettled (grp (base 1)) 2 0 = true ∧ (lane0 (.csrr h0 false 4 0x023) []).reg 4 = 0 ∧
    (lane0 (.csrw h0 0x022 (.imm 4)) []).rm = 4 ∧ causeOf (.csrw h0 0x022 (.imm 5)) [] = 0x22 ∧ (lane0 (.csrw h0 0x023 (.imm 0x1F)) []).flags = 0x1F ∧
    causeOf (.csrw h0 0x006 (.imm 5)) [] = 0x22 ∧
    (let t := out (exec (.syscall h0 4 8 0x7F) (withRegs (base 1) 0 [(8, 3)]))
     (t.ctx 0).svcs.map (fun c => (c.num, c.arg, c.lane)) = [(0x7F, 3, 0)] ∧ ((grp t).lane 0).park = .svc none) ∧
    (let s := (base 1).setGroup 2 ((grp (base 1)).setLane 0 { (grp (base 1)).lane 0 with linkLost := true })
     ((grp (out (exec (.syscall h0 4 8 0x7F) s))).lane 0).cause = 0x2B) ∧
    (let s := withRegs (handlers (base 1)) 0 [(8, 0x10040)]
     ((grp (out (exec (.trapret h0 false 8) s))).lane 0).pc = 0x10040 ∧ ((grp (out (exec (.trapret h0 false 8) s))).lane 0).handler = false) ∧
    ((out (exec (.trapret h0 false 8) (withRegs (handlers (base 1)) 0 [(8, 0x10044)]))).rcd 0).detail = 0x1C ∧
    (grp (out (exec (.npbegin h0) (base 1)))).depthNp = 1 ∧
    (let s := (base 1).setGroup 2 { grp (base 1) with depthNp := 15 }
     ((grp (out (exec (.npbegin h0) s))).lane 0).cause = 0x22 ∧ (grp (out (exec (.npend h0) s))).depthNp = 14) ∧
    (let s := (base 1).setGroup 2 { grp (base 1) with depthNp := 1, buckets := [99999, 1] }
     ((grp (out (exec (.npbegin h0) s))).lane 0).cause = 0x36) := by decide +kernel

/-- Lane 3 trapped, the others ended, with or without a handler. -/
def trapped (ten : Bool) (s : State) : State :=
  let s := s.setCtx 0 { s.ctx 0 with ten := ten, locsz := 1, locbase := 0x10, handler := 0x2000 }
  s.setGroup 2 ((List.range 32).foldl (fun (g : Group) l =>
    g.setLane l { g.lane l with st := if l = 3 then .trapped else .exited, cause := if l = 3 then 0x22 else 0 }) { grp s with frame := some 0 })

/-- Lanes 0 to 30 join at 0x10000; lane 31 has a higher address. -/
def joining (s : State) : State :=
  s.setGroup 2 ((List.range 32).foldl (fun (g : Group) l =>
    g.setLane l { g.lane l with st := if l = 31 then .eligible else .joining, pc := if l = 31 then 0x10008 else 0x10000 }) (grp s))

theorem witness_exceptions :
    (let t := (base 1).takeTrap 2 0 0x25 2 0x1234
     ((grp t).lane 0).cause = 0x225 ∧ ((grp t).lane 0).addr = 0x1234 ∧ ((grp t).lane 0).st = .trapped) ∧
    ((handlers (base 1)).takeTrap 2 0 0x25 2 0x1234 |>.rcd 0).endSt = .fault ∧
    (let t := (base 1).endLaunch 0 .killed 1
     (t.rcd 0).st = .stamped ∧ t.group 2 = none ∧ Sparse.wf none (base 1).groups = true) ∧
    (let s := trapped false (base 1)
     (grp s).handling = false ∧ s.settled 2 (grp s) = true ∧ ((out (exec (.rjoinComplete 2) s)).rcd 0).detail = 0x22) ∧
    (let s := trapped true (base 1)
     let s := s.setGroup 2 ((grp s).setLane 3 { (grp s).lane 3 with replayJoin := true })
     ((grp (out (exec (.rjoinComplete 2) s))).lane 3).st = .eligible) ∧
    (let s := joining (base 1)
     let t := out (exec (.rjoinComplete 2) s)
     s.settled 2 (grp s) = true ∧ ((grp t).lane 0).pc = 0x10008 ∧ ((grp t).lane 30).st = .eligible ∧ ((grp t).lane 31).pc = 0x10008) := by decide +kernel

/-- A trapped lane whose frame can be written goes to the handler. -/
def framed (s : State) : State :=
  let s := trapped true (mapped s)
  s.setCtx 0 { s.ctx 0 with locbase := 0x100000 / 2 ^ 16 }

theorem witness_trap_entry :
    (let s := framed (base 1)
     let g1 : Group := { grp s with hazards := [] }
     let word : Ctl := { gid := 2, g := g1, act := 8, pc := (g1.lane 3).pc, len := 0, u := false, prot := false }
     match ((s.setGroup 2 g1).fillTlb 0 0 0x100000 { placedLeaf with pa := 0x200000 }).storeLocal word 3 (toLE 8 0x10000 ++ toLE 8 0) ((s.ctx 0).locBytes - 16) with
     | (.done .., s1) => decide ((s1.group 2).isSome = true) | _ => false) = true ∧
    (let s := (framed (base 1)).fillTlb 0 0 0x100000 { placedLeaf with pa := 0x200000 }
     let t := out (exec (.rjoinComplete 2) s)
     ((grp t).lane 3).st = .eligible ∧ ((grp t).lane 3).handler = true ∧ ((grp t).lane 3).pc = 0x10000 ∧ (grp t).handling = true) := by decide +kernel

/-- What lands, what is released, and the ends of waits and windows. -/
theorem witness_releases :
    (let s := (base 1).setGroup 2 { grp (base 1) with landings := [{ lane := 31, writes := [(4, 7)], preds := [(1, true)], flags := 1 }] }
     let t := out (exec (.resultLands 2 31) s)
     ((grp t).lane 31).reg 4 = 7 ∧ ((grp t).lane 31).pred 1 = true ∧ (grp t).landings = []) ∧
    (let s := (base 1).setGroup 2 { grp (base 1) with landings := [{ lane := 32, writes := [(4, 7)], preds := [], flags := 0 }] }
     (grp (out (exec (.resultLands 2 32) s))).gr 4 = 7) ∧
    ([(Park.signed 1 true, (8 : DWord)), (.svc (some (4, 9)), 8), (.quiet 4 (some 9), 8), (.barrier 1 0 true, 0)].all fun r =>
      let s := (base 1).setGroup 2 ((grp (base 1)).setLane 5 { (grp (base 1)).lane 5 with st := .parked, park := r.1, ready := true })
      decide (((grp (out (exec (.laneRelease 2 5) s))).lane 5).pc = 0x10000 + r.2)) = true ∧
    (let s := (base 1).setGroup 2 { grp (base 1) with held := true, asleep := true, readyAt := 5 }
     (grp (out (exec (.backoffExpiry 2) { s with clk := 5 }))).held = false ∧ (grp (out (exec (.sleepExpiry 2) { s with clk := 5 }))).asleep = false ∧
     (grp (out (exec (.backoffExpiry 2) { s with clk := 4 }))).held = true) ∧
    (let s := (base 1).setGroup 2 { grp (base 1) with depthNp := 1, buckets := [100000], preempt := true }
     let s := s.setTeam 1 { (s.team 1).getD {} with stopping := true }
     (grp (out (exec (.npOverrun 2) s))).overrun = true) ∧
    (let s := trapped true (base 1)
     let g := (grp s).setLane 3 { (grp s).lane 3 with st := .eligible }
     let s := s.setGroup 2 { g with depthNp := 1, buckets := [100000], team := none, spawned := some {} }
     (grp s).eligible = [3] ∧ ((grp (out (exec (.npOverrun 2) s))).lane 3).cause = 0x36) ∧
    (let s := (base 1).setGroup 2 { grp (base 1) with depthNp := 1, buckets := List.replicate 17 1 }
     (grp (out (exec .bucketBoundary { s with clk := 125000 }))).buckets = 0 :: List.replicate 16 1 ∧ s.bucketDue = false) ∧
    (let s := (base 1).setGroup 2 ((grp (base 1)).setLane 5 { (grp (base 1)).lane 5 with st := .parked, park := .room (.matrix 1) })
     s.roomLanes (.matrix 1) = [(2, 5)] ∧ ((grp (out (exec (.engineRoomFree (.matrix 1)) s))).lane 5).ready = true) ∧
    (let x : Txn := { core := 0, gid := 2, ctx := 0, launch := 0, tgt := .cell, line := (code + 0x100) / 128
                      parts := [{ lane := 5, addr := code + 0x100, va := 0x10100, len := 4, op := .monitor .eq false 7 4 }] }
     let s := (base 1).setGroup 2 ((grp (base 1)).setLane 5 { (grp (base 1)).lane 5 with st := .parked, park := .monitor 9 })
     let s : State := { s with txns := [(9, some x)] }
     s.lineFree none x.line = true ∧ ((grp (out (exec (.monwaitTimeout 2 5) s))).lane 5).pc = 0x10008) := by decide +kernel

/-! #### The package -/

def booting (b : Boot) (x : Input) : State := { State.reset with mgmt := { State.reset.mgmt with boot := b }, input := x }

theorem witness_start_up :
    (let t := out (exec .lossOfPower (base 1))
     t.mgmt.boot = .off ∧ t.groups = [] ∧ t.mem = []) ∧
    (out (exec .startUpStep (booting (.step 22) (.startUp false 5)))).modulesUp = [(1, 5)] ∧
    (out (exec .startUpStep (booting (.step 22) (.startUp false 6)))).mgmt.evprod = 1 ∧
    (out (exec .startUpStep (booting (.step 23) (.startUp false 0)))).mgmt.boot = .wake 0 ∧
    (out (exec .startUpStep (booting (.step 0) (.startUp true 0)))).mgmt.boot = .notReady ∧
    (out (exec .startUpStep (booting (.step 8) (.startUp true 0)))).sramDown = [(7, true)] ∧
    (out (exec .startUpStep (booting (.step 9) (.startUp true 0)))).stackDown = [(0, true)] ∧
    (out (exec .startUpStep (booting (.step 20) (.startUp true 0)))).stackDown = [(11, true)] ∧
    (out (exec .coreWake (booting (.wake 46) (.startUp false 0)))).mgmt.boot = .wake 47 ∧
    ((out (exec .coreWake (booting (.wake 13) (.startUp true 0)))).die 5).cause = 3 ∧
    (out (exec .coreWake { booting (.wake 47) (.startUp false 0) with stackDown := [(0, true)] })).mgmt.boot = .notReady := by decide +kernel

/-- A reading of the 56 sensors (R34) with one of them above the limit of 115 °C. -/
def hot (i : Nat) : List Nat := (List.replicate 56 20).set i 116

theorem witness_samples :
    (let s : State := { State.reset with input := .sample 2601 3000 (hot 4) }
     let t := out (exec .powerSample s)
     (t.die 7).duty = 15 ∧ (t.die 1).hot = true ∧ (t.die 1).st = .online) ∧
    (let s : State := { (State.reset.setDie 1 { hot := true }) with input := .sample 2499 3101 (hot 4), mgmt := { State.reset.mgmt with powerHigh := true } }
     let t := out (exec .powerSample s)
     (t.die 0).duty = 8 ∧ (t.die 1).st = .fencing ∧ (t.die 1).cause = 4) ∧
    (let s : State := { State.reset with input := .sample 2500 20 (hot 55), mgmt := { State.reset.mgmt with millHot := true } }
     (out (exec .powerSample s)).mgmt.boot = .stopped) ∧
    (out (exec .budgetPeriod { State.reset with mgmt := { State.reset.mgmt with activating := true, busy := true } })).mgmt.busy = false ∧
    ((out (exec .bondFlitError { State.reset with input := .bond false 7 })).die 7).st = .fencing ∧
    (out (exec .bondFlitError { State.reset with input := .bond true 7, sramDown := [(6, true)] })).mgmt.noLaunch = true ∧
    sramOf ((carveBase + 3 * 2 ^ 27) / 128 + 32) = 7 ∧
    (out (exec .uncorrectableError { State.reset with input := .error (.cache (some 3) 30) })).mgmt.evprod = 1 ∧
    ((grp (out (exec .uncorrectableError { base 1 with input := .error (.regCorrectable 2 3) }))).lane 3).cause = 0x39 ∧
    (out (exec .uncorrectableError { base 1 with input := .error (.coreState 2) })).group 2 = none ∧
    (out (exec .uncorrectableError { base 1 with input := .error (.millpond 1) })).mgmt.noLaunch = true ∧
    (out (exec .uncorrectableError { base 1 with input := .error (.home 65 0 0 0) })).poison = [(2, true)] := by decide +kernel

/-- The mailbox of a device at rest. -/
def mailed (op : Byte) (arg len : BitVec 16) : State := { State.reset with input := .mailbox op arg len }

theorem witness_mailbox :
    (let t := out (exec .logread (((mailed 1 0 0).logEv .linkEvent 0 3 []).logEv .linkEvent 0 4 []))
     t.mgmt.rlen = 128 ∧ t.mgmt.code = 0) ∧
    (out (exec .imgwrite (mailed 2 8191 4097))).mgmt.code = 4 ∧ (out (exec .unknownMailboxOp (mailed 2 8192 0))).mgmt.code = 1 ∧
    (out (exec .imgwrite (mailed 2 8191 4096))).mgmt.code = 0 ∧
    (out (exec .attest { mailed 4 0 0 with mgmt := { State.reset.mgmt with keyOk := false } })).mgmt.code = 7 ∧
    (out (exec .cert { mailed 5 3 0 with mgmt := { State.reset.mgmt with keyOk := false } })).mgmt.code = 7 ∧
    (out (exec .unknownMailboxOp (mailed 5 4 0))).mgmt.code = 1 ∧ (out (exec .unknownMailboxOp (mailed 6 0 0))).mgmt.code = 1 ∧
    ((out (exec .dieFence (mailed 0x10 7 0))).die 7).st = .fencing ∧ (out (exec .unknownMailboxOp (mailed 0x10 8 0))).mgmt.code = 1 ∧
    (out (exec .diereset (mailed 0x11 0 0))).mgmt.code = 5 ∧
    ((out (exec .diereset ((mailed 0x11 0 0).setDie 0 { st := .fenced }))).die 0).st = .resetting ∧
    ((out (exec .resume ((mailed 0x12 0 0).setDie 0 { st := .ready }))).die 0).st = .online ∧
    (out (exec .budget (mailed 0x20 0 0))).mgmt.activating = true ∧
    (out (exec .budget { mailed 0x20 0 0 with mgmt := { State.reset.mgmt with staged := List.replicate 9 0x01030 } })).mgmt.code = 6 ∧
    (out (exec .budget { mailed 0x20 0 0 with mgmt := { State.reset.mgmt with busy := true } })).mgmt.lost = true ∧
    ((State.reset.logEv .noKey 2 0 []).mgmt.flashLog.length = 1) := by decide +kernel

/-- The device with the core's test at a stage. -/
def testing (x : Ift) : State := { State.reset with mgmt := { State.reset.mgmt with tests := [(191, x)] } }

theorem witness_dies :
    (let s := (base 1).setDie 0 { st := .fencing, awaiting := true }
     Sparse.wf none s.txns = true ∧ Sparse.wf {} s.dir = true ∧ Sparse.wf none s.teams = true ∧ Sparse.wf none s.dirty = true ∧
       (let t := out (exec (.fenceInstant 0) s)
        (t.die 0).st = .fenced ∧ t.team 1 = none ∧ (t.rcd 0).endSt = .fault ∧ (t.die 0).awaiting = false)) ∧
    ((out (exec (.dieSelfTestEnd 7 true) (State.reset.setDie 7 { st := .resetting, offl := 1 }))).die 7) = { st := .ready } ∧
    ((out (exec (.dieSelfTestEnd 7 false) (State.reset.setDie 7 { st := .resetting, offl := 1 }))).die 7).cause = 5 ∧
    State.reset.windowOpen 191 = false ∧ State.reset.kidsSavable 191 = true ∧ State.reset.drainRoom 191 = true ∧
    (out (exec (.inFieldTest 191) State.reset)).testOf 191 = .testing ∧ (out (exec (.inFieldTest 191) (testing .draining))).testOf 191 = .testing ∧
    (out (exec (.inFieldTestRetry 191 false) (testing .deferred))).testOf 191 = .testing ∧
    (out (exec (.inFieldTestEnd 191 true) (testing .testing))).mgmt.tests = [] ∧
    ((out (exec (.inFieldTestEnd 191 false) (testing .testing))).die 7).offl = 2 ^ 23 ∧
    (out (exec (.inFieldTest 191) (State.reset.setDie 7 { st := .fenced }))).mgmt.evprod = 1 ∧
    (let s := base 1
     s.windowOpen 0 = false ∧ s.kidsSavable 0 = true ∧ (s.drainRoom 0 = true → (out (exec (.inFieldTest 0) s)).testOf 0 = .draining)) ∧
    (let s := (base 1).setGroup 2 { grp (base 1) with depthNp := 1 }
     s.windowOpen 0 = true ∧ (out (exec (.inFieldTest 0) s)).testOf 0 = .deferred) := by decide +kernel

/-! #### Homes and links -/

/-- One transaction of one part. -/
def txnOf (op : AccOp) (data : List Byte) : Txn :=
  { core := 0, gid := 2, ctx := 0, launch := 0, tgt := .cell, line := (code + 0x100) / 128, lvl := 0
    parts := [{ lane := 31, addr := code + 0x100, va := 0x10100, len := 4, op := op, data := data }] }

/-- Nothing but transaction 9, in a device with or without the placed group. -/
def homed (s : State) (x : Txn) : State := { s with txns := [(9, some x)], dirty := [], dir := [(x.line, { sharers := 3 })] }

theorem witness_homes :
    (let s := homed State.reset (txnOf .store [1, 2, 3, 4])
     let t := out (exec (.homeRequest 9) s)
     t.wordAt (code + 0x100) 4 = 0x04030201 ∧ (t.dirOf ((code + 0x100) / 128)).waiting = 3 ∧ (t.txn 9).map (·.accepted) = some true ∧
       (let u := out (exec (.invalidationAcknowledgement ((code + 0x100) / 128) 0) t)
        let v := out (exec (.invalidationAcknowledgement ((code + 0x100) / 128) 1) u)
        (u.dirOf ((code + 0x100) / 128)).waiting = 2 ∧ (out (exec (.acknowledgement 9) u)).txns.length = 1 ∧ (out (exec (.acknowledgement 9) v)).txns = [])) ∧
    (let s := homed ((base 1).setCells (code + 0x100) [5]) (txnOf (.load .b32 4) [])
     let t := out (exec (.homeRequest 9) s)
     ((grp t).lane 31).reg 4 = 5 ∧ t.txns = []) ∧
    (let s : State := { homed ((base 1).setCells (code + 0x100) [5]) (txnOf (.atom .cas .b32 5 9 4) []) with dir := [] }
     let t := out (exec (.homeRequest 9) s)
     ((grp t).lane 31).reg 4 = 5 ∧ t.wordAt (code + 0x100) 4 = 9) ∧
    (let g := (grp (base 1)).setLane 31 { (grp (base 1)).lane 31 with st := .parked, park := .jwait (code + 0x100) 0x10100 }
     let s : State := { (base 1).setGroup 2 g with txns := [], dir := [((code + 0x100) / 128, { waiting := 128, src := 9 })] }
     ((grp (out (exec (.invalidationAcknowledgement ((code + 0x100) / 128) 7) s))).lane 31).ready = true) := by decide +kernel

/-- A load of host memory that is out; and a page request that waits. -/
def hostLoad (ok : Bool) (data : List Byte) : State :=
  { base 1 with txns := [(9, some { txnOf (.load .b32 4) [] with tgt := .host 0 5, accepted := true })], input := .response 9 ok data }

def paged (ok : Bool) : State :=
  let g := (grp (base 1)).setLane 31 { (grp (base 1)).lane 31 with st := .parked, park := .pri 1 5 7 0 0x7000 }
  { ((base 1).setGroup 2 g).setPort 1 { up := true, pri := [(5, 7, 2, 31)] } with input := .ats 1 5 7 ok }

theorem witness_links :
    ((out (exec .linkUp { State.reset with input := .link 1 640 16 true })).port 1).up = true ∧ State.reset.iodPresent 1 = true ∧
    (let s : State := { State.reset.setPort 1 { up := true } with input := .link 1 0 0 false, posted := [(4, some { port := 1, quad := 0, ro := false, ido := false, rid := 0, tlp := 3, op := .bytes 0 [1] false })] }
     (out (exec .linkDown s)).posted = [] ∧ ((out (exec .linkDown s)).port 1).up = false) ∧
    (out (exec .spdmAuthentication { State.reset.setPort 1 { up := true } with input := .spdm 1 [1] })).out.length = 1 ∧
    ((out (exec .ideKeyProgramming { State.reset.setPort 1 { up := true, ideSt := [(8, true)] } with input := .ideKey 1 8 7 })).port 1).ideSt = [] ∧
    (let s : State := { State.reset.setPort 1 { up := true, ats := [(5 * 2 ^ 32 + 7, true)] } with input := .ats 1 5 7 true }
     ((out (exec .atsInvalidation s)).port 1).ats = [] ∧ (out (exec .atsInvalidation s)).out = [.invalidated 1 5 7]) ∧
    (let s : State := { hostLoad true [] with input := .ats 0 5 ((code + 0x100) / 4096) true }
     s.pageUsers 0 5 ((code + 0x100) / 4096) ≠ [] ∧ Sparse.wf none s.txns = true ∧ ((out (exec .atsInvalidation s)).port 0).inv.length = 1) ∧
    ((grp (out (exec .pageResponse (paged true)))).lane 31).ready = true ∧ ((grp (out (exec .pageResponse (paged false)))).lane 31).cause = 0x2A ∧
    ((grp (out (exec .outboundReadCompletion (hostLoad true [1, 2, 3, 4])))).lane 31).reg 4 = 0x04030201 ∧
    ((grp (out (exec .outboundReadCompletion (hostLoad false [])))).lane 31).cause = 0x2A ∧
    ((grp (out (exec .completionTimeout (hostLoad false [])))).lane 31).cause = 0x2A := by decide +kernel

/-! #### Requests from outside -/

/-- A device whose port 1 is up. -/
def fromHost (x : Input) : State := { State.reset.setPort 1 { up := true } with input := x }

theorem witness_inbound :
    ((out (exec .inboundPostedWrite (fromHost (.postedWrite 1 0 true 0x500000 [1, 0, 0, 0, 0, 0, 0, 0] false false 7 false none)))).posted.map fun p => p.2.map (·.op)) =
      [some (.reg 0 0x500000 8 1)] ∧
    (out (exec .inboundPostedWrite (fromHost (.postedWrite 1 0 true 0x500001 [1, 0] false false 7 false none)))).mgmt.evprod = 1 ∧
    ((out (exec .inboundPostedWrite (fromHost (.postedWrite 1 0 true 0 [] false false 7 false (some 8))))).port 1).ideSt = [(8, true)] ∧
    (out (exec .inboundRead (fromHost (.readRequest 1 0 true 0x500000 8 3)))).reads.length = 1 := by decide +kernel

/-- The size of BAR2 is free; with WINBASE 0 every window begins at 0, so each clause on a window's address is met by an offset. -/
theorem witness_windows (x : Input) (f off : Nat) :
    (fromHost x).bar2 1 f off = if off < 4 * hbmBytes then some off else none := by
  show (if (0 : Nat) * 2 ^ 26 / 2 ^ barLog 1 f * 2 ^ barLog 1 f + off < 4 * hbmBytes then some ((0 : Nat) * 2 ^ 26 / 2 ^ barLog 1 f * 2 ^ barLog 1 f + off) else none) = _
  simp only [Nat.zero_mul, Nat.zero_div, Nat.zero_add]

/-- A write that waits for an earlier one of its port, and one that is sent and reaches its home. -/
def posting (w : Posted) (more : List (Nat × Option Posted)) : State := { State.reset with posted := more ++ [(9, some w)] }
def writeOf (op : PostedOp) : Posted := { port := 1, quad := 0, ro := false, ido := false, rid := 0, tlp := 5, op := op }

theorem witness_ordering :
    (out (exec (.orderingPointSend 9) (posting (writeOf (.bytes 0 [1] false)) [(4, some { writeOf (.bytes 128 [1] false) with tlp := 3, quad := 1 })]))).posted.map
      (fun p => p.2.map (·.sent)) = [some none, some none] ∧
    ((out (exec (.orderingPointSend 9) (posting (writeOf (.bytes 0 [1] false)) []))).postedAt 9).map (·.sent.isSome) = some true ∧
    (let t := out (exec (.homeRequest 9) (posting { writeOf (.bytes 127 [1] true) with sent := some 1 } []))
     t.cell 127 = 1 ∧ Sparse.get false t.poison 3 = true ∧ (t.postedAt 9).map (·.accepted) = some true) ∧
    (let t := out (exec (.homeRequest 9) (posting { writeOf (.amo 120 .cas true 0 7 3) with sent := some 1 } []))
     t.wordAt 120 8 = 7 ∧ t.out = [.completion 1 3 (List.replicate 8 0) false]) ∧
    (let t := out (exec (.homeRequest 9) (posting { writeOf (.reg 0 0x400000 8 (0x3FFF * 2 ^ 26)) with sent := some 1 } []))
     Sparse.get 0 (t.port 0).winbase 0 = 0x3FFF) ∧
    (let s : State := { State.reset.setCells 0 [7] with reads := [(9, some { port := 1, func := 0, bar0 := false, tag := 3, addr := 0, len := 2, after := [] })] }
     let t := out (exec (.inboundReadCompletion 9) s)
     t.reads = [] ∧ t.out = [.completion 1 3 [7, 0] false]) := by decide +kernel

/-- Node 3 of a device that knows itself as node 1, behind port 17. -/
def joined (s : State) : State :=
  (s.setCport 17 { lst := 2 }) |> fun s => { s with clovar := { s.clovar with den := true, node := 1, routes := [(3, 0x20000)] } }

def remoteTxn (op : AccOp) : Txn := { txnOf op [] with tgt := .node 3, accepted := true }

theorem witness_clovar :
    (out (exec .ports { State.reset with input := .route 1023 5 })).clovar.routes = [(1023, 5)] ∧
    (out (exec .ports { joined (base 1) with input := .route 3 5, txns := [(9, some (remoteTxn (.load .b32 4)))] })).clovar.nextRoutes = [(3, some 5)] ∧
    ((out (exec .clovarFlitError { State.reset with input := .flit 17 })).cport 17).retry = 1 ∧
    ((out (exec .clovarPortStateChange { State.reset with input := .portState 17 false 4 3 })).cport 17).lst = 2 ∧
    (let t := out (exec .clovarPortStateChange { joined (base 1) with input := .portState 17 true 4 3, txns := [(9, some (remoteTxn (.load .b32 4)))] })
     ((grp t).lane 31).cause = 0x2B ∧ t.txns = []) ∧
    (let t := out (exec .clovarInboundRequest { joined State.reset with input := .clovar 17 3 1 0 (.store [1, 2] false) })
     t.cells 0 2 = [1, 2] ∧ t.peers.length = 1) ∧
    ((out (exec .clovarInboundRequest { joined (State.reset.setCells 0 [9]) with input := .clovar 17 3 1 0 (.load 4) })).peerAt 1).map (·.reply) =
      some (some [9, 0, 0, 0]) ∧
    (out (exec .clovarInboundRequest { joined State.reset with input := .clovar 17 3 2 0 (.load 4) })).out = [.answer 17 3 false []] ∧
    (out (exec .clovarInboundRequest { joined State.reset with input := .clovar 17 3 1 (4 * hbmBytes - 3) (.load 4) })).out = [.answer 17 3 false []] ∧
    ((grp (out (exec .remoteResponse { base 1 with input := .response 9 true [1, 2, 3, 4], txns := [(9, some (remoteTxn (.load .b32 4)))] }))).lane 31).reg 4 = 0x04030201 ∧
    ((grp (out (exec .remoteResponse { base 1 with input := .response 9 false [], txns := [(9, some (remoteTxn .store))] }))).lane 31).linkLost = true ∧
    ((grp (out (exec .remoteRequestTimeout { base 1 with input := .response 9 false [], txns := [(9, some (remoteTxn (.load .b32 4)))] }))).lane 31).cause = 0x2B := by
  decide +kernel

/-- A communicator of two ranks, this device (node 1) the first, at CLCBASE's first record; a descriptor at 0x10100. -/
def collDesc (op ty red root : Nat) : List Byte :=
  toLE 8 0x10200 ++ toLE 8 0x10240 ++ toLE 8 0x10280 ++ toLE 4 4 ++ [BitVec.ofNat 8 op, BitVec.ofNat 8 ty, BitVec.ofNat 8 red, 0] ++ toLE 2 root ++ List.replicate 0x1E 0

def collective (desc : List Byte) : State :=
  let s := joined (withRegs (base 1) 0 [(8, 0x10100)])
  let rec' := toLE 2 2 ++ toLE 2 0
  ((s.setCells (code + 0x100) desc).setCells (cellOf 0x300000) rec').setCells (cellOf 0x300800) (toLE 2 1 ++ toLE 2 3) |>
    fun s => { s with clovar := { s.clovar with clcbase := 0x300 } }

theorem witness_coll :
    (let s := collective (collDesc 0 4 0 0)
     (match s.viewOf 0x300000 with | some (_, _, c) => decide (c = cellOf 0x300000) && commOk (s.cells c 4096) | none => false) = true ∧
       s.iodPresent 0 = true ∧ s.hasRoom (.collective 0) = true ∧
       (let t := out (exec (.coll h0 false 8) s)
        t.clovar.colls.length = 1 ∧ Sparse.get 0 t.clovar.collNum 0 = 1 ∧ ((grp t).lane 0).pc = 0x10008)) ∧
    ((grp (out (exec (.coll h0 false 8) (collective (collDesc 4 4 0 0))))).lane 0).cause = 0x22 ∧
    ((grp (out (exec (.coll h0 false 8) (collective (collDesc 3 4 0 2))))).lane 0).cause = 0x22 ∧
    causeOf (.coll h0 false 8) [(8, 0x10120)] = 0x25 ∧ causeOf (.coll h0 false 8) [(9, 0x02000000)] = 0x26 := by decide +kernel

/-- That collective under way. -/
def collOn (c : Coll → Coll) (x : Input) : State :=
  let d : CollDesc := { send := 0x10200, recv := 0x10240, stamp := 0x10280, count := 4, op := 0, ty := 4, red := 0, comm := 0, root := 0 }
  let k : Coll := { eng := 0, comm := 0, num := 1, ctx := 0, launch := 0, core := 0, desc := d, size := 2, rank := 0, nodes := [1, 3]
                    params := [(0, some { op := 0, ty := 4, red := 0, count := 4, root := 0 })] }
  { mapped (base 1) with input := x, clovar := { colls := [(9, some (c k))] } }

theorem witness_collectives :
    (let p : CollParams := { op := 0, ty := 4, red := 0, count := 4, root := 0 }
     (let t := out (exec .collectiveTraffic (collOn id (.collective 0 0 3 1 0 p [])))
      (t.coll 9).map (·.params.length) = some 2) ∧
     (out (exec .collectiveTraffic (collOn id (.collective 0 0 5 1 0 p [])))).mgmt.evprod = 1 ∧
     (out (exec .collectiveTraffic (collOn id (.collective 0 0 3 2 0 p [])))).mgmt.evprod = 1 ∧
     ((out (exec .collectiveTraffic (collOn id (.collective 0 0 3 1 0 { p with count := 5 } [])))).coll 9).map (·.status) = some 1 ∧
     ((out (exec .collectiveTraffic (collOn id (.collective 0 0 3 1 2 p [])))).coll 9).map (·.status) = some 2 ∧
     ((out (exec (.collectiveTimeout 0 0 1) (collOn id .none))).coll 9).map (·.status) = some 2) ∧
    (let s := (collOn (fun c => { c with ended := true, status := 1, desc := { c.desc with stamp := 0x100080 } }) .none)
     (match s.coll 9 with | some c => decide (c.writes = []) | none => false) = true ∧ s.engSettled 9 = true ∧
       (let t := out (exec (.collectiveCompletion 0 0 1) s)
        t.clovar.colls = [] ∧ t.wordAt (cellOf 0x200080) 8 = 1 + 2 ^ 32)) ∧
    collFold 4 0 0xFFFFFFFF [2] = (1, 0) ∧ (collFold 4 1 0x80000000 [1]).1 = 0x80000000 ∧ (collFold 5 2 (2 ^ 63) [1]).1 = 1 ∧
    collFold 0 0 0x3F800000 [0x3F800000] = (0x40000000, 0) := by decide +kernel

/-! #### Contexts, registers and the life of a launch -/

/-- Context 63 exists, and a register of it is written. -/
def context (f : Ctx → Ctx) (j : Nat) (v : DWord) (s : State) : State := { s.setCtx 63 (f { s.ctx 63 with en := true }) with input := .ctxWrite 63 j v }

theorem witness_contexts :
    ((out (exec .en { State.reset with input := .ctxWrite 63 0 1 })).ctx 63).en = true ∧
    ((out (exec .en (context id 0 0 State.reset))).ctx 63).en = false ∧
    ((out (exec .en ((context id 0 0 State.reset).setRec 5 { st := .stamped, ctx := 63 }))).ctx 63).en = true ∧
    ((out (exec .halt (context id 0 3 State.reset))).ctx 63).halt = true ∧
    ((out (exec .kreq (context (fun c => { c with kreq := true }) 0 1 State.reset))).ctx 63).kreq = false ∧
    (let s := (context id 0 5 (base 1)).setRec 0 { (base 1).rcd 0 with ctx := 63 }
     let t := out (exec .kreq s)
     (t.ctx 63).kreq = true ∧ (t.rcd 0).endSt = .killed ∧ t.group 2 = none) ∧
    (let s := (context id 0 0x10001 State.reset).fillTlb 3 63 0x10000 placedLeaf
     Sparse.wf none s.tlb = true ∧ (out (exec .invgo s)).tlb = [] ∧ ((out (exec .invgo s)).ctx 63).invbusy = true) ∧
    (let s := (context id 0 2 State.reset).fillTlb 3 63 0x10000 placedLeaf
     (out (exec .invall s)).tlb = []) ∧
    ((out (exec (.invalidationDone 63) (context (fun c => { c with invbusy := true, invIds := [7] }) 0 0 State.reset))).ctx 63).invbusy = false ∧
    ((((out (exec .doorbell (context (fun c => c.setQueue 7 { qlog := 12 }) 7 4096 State.reset))).ctx 63).queue 7).pidx = 4096) ∧
    ((((out (exec .doorbell (context (fun c => c.setQueue 7 { qlog := 12 }) 7 4097 State.reset))).ctx 63).queue 7).qerr = true) := by decide +kernel

/-- A lane of the placed group waits for the verdict on report 3 of context 0. -/
def reported (handler : Bool) (v : DWord) : State :=
  let s := base 1
  let s := s.setCtx 0 { s.ctx 0 with reports := [(3, some { rid := some 8 })] }
  let s := s.setGroup 2 ((grp s).setLane 31 { (grp s).lane 31 with st := .parked, park := .report 3, handler := handler })
  { s with input := .ctxWrite 0 0 v }

theorem witness_registers :
    ((grp (out (exec .resolve (reported false (2 ^ 32 + 8))))).lane 31).st = .eligible ∧
    ((grp (out (exec .reject (reported false (2 ^ 33 + 8))))).lane 31).st = .trapped ∧
    ((out (exec .reject (reported true (2 ^ 33 + 8)))).rcd 0).detail = 0x1C ∧
    (out (exec .resolve (reported false (2 ^ 32 + 7)))).mgmt.evprod = 1 ∧
    (let s := (base 1).setGroup 2 ((grp (base 1)).setLane 31 { (grp (base 1)).lane 31 with st := .parked, park := .svc none })
     let s := s.setCtx 0 { s.ctx 0 with svcs := [{ arg := 0, num := 0, launch := 0, core := 0, gid := 2, lane := 31, d := 4 }] }
     let t := out (exec .svcret { s with input := .ctxWrite 0 0 7 })
     ((grp t).lane 31).reg64 4 = 7 ∧ ((grp t).lane 31).pc = 0x10008 ∧ (t.ctx 0).svcs = []) ∧
    (let w := fun (off n : Nat) (v : DWord) => out (exec .registerWrite { State.reset with input := .reg off n v })
     (w 0x500001 2 0).mgmt.evprod = 1 ∧ Sparse.get 0 (w 0x201FFF 1 7).mgmt.mbbuf 4095 = 7 ∧ ((w 0x130000 8 8).quad 3).carve = 8 ∧
       ((w 0x130000 8 9).quad 3).carve = 0 ∧ ((w 0x10000C 4 7).quad 0).lreq = 7 * 2 ^ 32 ∧ (w 0x300000 8 5).clovar.node = 5 ∧
       Sparse.get 0 ((w 0x4010F8 8 (2 ^ 26)).port 1).winbase 31 = 1 ∧ ((w 0x503F08 8 0x1000).ctx 63).ptroot = 1 ∧
       ((w 0x503FB8 8 3).ctx 63).queues.length = 1 ∧ ((w 0x503F30 8 9).ctx 63).ten = true ∧ ((w 0x503F10 8 0x1000).ctx 63).invva = 1) := by decide +kernel

/-- One block is posted on queue 7 of context 63, whose ring stands at physical 0x30000. -/
def posted (bs : List Byte) : State :=
  let s := (context (fun c => c.setQueue 7 { qring := 0x300, pidx := 1 }) 0 0 State.reset).setCells (cellOf 0x30000) bs
  s

theorem witness_block_consume :
    (let s := posted blockBytes
     (match s.viewOf 0x30000 with | some (_, _, a) => decide (a = cellOf 0x30000) && s.rangeFree a 256 && !s.poisonedRange a 256 | none => false) = true ∧
       (let t := out (exec (.blockConsume 63 7) s)
        (t.rcd 0).st = .waiting ∧ (t.rcd 0).pending.length = 1 ∧ ((t.ctx 63).queue 7).cidx = 1)) ∧
    ((out (exec (.blockConsume 63 7) (posted (blockBytes.set 0 2)))).rcd 0).detail = 1 ∧
    (((out (exec (.blockConsume 63 7) (context (fun c => c.setQueue 7 { qring := 2 ^ 44 - 1, pidx := 1 }) 0 0 State.reset))).ctx 63).queue 7).stopped = true := by
  decide +kernel

/-- A record with one team to place; a device whose only group ends; a stamp that is due. -/
def waiting : State :=
  State.reset.setRec 4095 { st := .waiting, gen := 1, pending := [{ lrec := 4095 }], blk := { roles := [{ entry := 0x10000, regs := 64, ngrp := 16 }], scr := 768, acc := 16 } }

theorem witness_placement :
    (let t := out (exec .teamPlacement waiting)
     (t.rcd 4095).st = .running ∧ (t.team 2).isSome = true ∧ ((t.group 18).map (·.slot)) = some 3) ∧
    ((out (exec (.headReservation 4095) waiting)).rcd 4095).resv.length = 192 ∧
    (let s := waiting.setRec 4095 { (waiting.rcd 4095) with blk := { (waiting.rcd 4095).blk with roles := [{ entry := 0x10000, regs := 64, ngrp := 17 }] } }
     (out (exec .teamPlacement s)).teams = []) := by decide +kernel

theorem witness_launch_ends :
    (let g := (List.range 32).foldl (fun (g : Group) l => g.setLane l { g.lane l with st := .exited }) (grp (base 1))
     let s := (base 1).setGroup 2 g
     (let t := out (exec (.groupRetire 2) s)
      t.groups = [] ∧ t.teams = [] ∧ (t.rcd 0).owed.length = 16) ∧
     (let t := out (exec (.groupRetire 2) (s.setGroup 2 { g with team := none, spawned := some {}, frame := some 3 }))
      t.groups = [])) ∧
    (let s := (base 1).setRec 0 { (base 1).rcd 0 with owed := [(15, 0)] }
     ((out (exec (.ticketSkip 0 0 15) s)).rcd 0).tickets = [(15, 1)]) ∧
    (let s := State.reset.setRec 0 { st := .running }
     ((out (exec (.quiescent 0) s)).rcd 0).st = .stamped) ∧
    (let s := (mapped State.reset).setRec 4095 { st := .stamped, gen := 1, ring := some (0, 7), endSt := .fault, detail := 9, blk := { done := 0x100040, irq := true } }
     (match s.millAt 0 0x100040 8 .store with | (.cell a, _) => decide (a = cellOf 0x200040) | _ => false) = true ∧
       (let t := out (exec (.stampAccept 4095) s)
        t.wordAt (cellOf 0x200040) 8 = 7 + 2 ^ 33 + 9 * 2 ^ 40 ∧ (t.rcd 4095) = { gen := 1 } ∧ t.out.length = 1)) ∧
    (let s := State.reset.setRec 0 { st := .stamped, gen := 1, blk := { done := 0x100040 } }
     (match (s.millAt 0 0x100040 8 .store).1 with | .bad => true | _ => false) = true ∧ (out (exec (.stampAccept 0) s)).mgmt.evprod = 1) ∧
    (let s := (State.reset.setRec 0 { st := .running }).setBin 3 255 { used := true, closed := some 5, entry := 0x10000, cls := 7, kids := [{ lane := 31, pay := [7] }] }
     let t := out (exec .spawnedGroupRelease s)
     ((t.group 1).map fun g => (g.core, g.budget, (g.lane 31).reg 0, (g.lane 31).pc)) = some (144, 64, 7, 0x10000)) := by decide +kernel

/-! #### Pre-emption -/

/-- A write of POP for launch 0 of context 0. -/
def popped (pop : Nat) (f : Rec → Rec) : State := { (base 1).setRec 0 (f ((base 1).rcd 0)) with input := .ctxWrite 0 0 (BitVec.ofNat 64 (pop * 4096)) }

theorem witness_preemption :
    (popped 1 id).heldCount < 4 ∧ (popped 1 id).bitsFree ((popped 1 id).teamsOf 0) = true ∧
    (let t := out (exec .preEmpt (popped 1 id))
     (t.rcd 0).hold = true ∧ (t.ctx 0).popSt = .preempt 0 none ∧ (grp t).preempt = true) ∧
    ((out (exec .cut (popped 3 id))).ctx 0).popSt = .cut 0 ∧
    ((out (exec .popResume (popped 2 fun r => { r with hold := true }))).rcd 0).hold = false ∧
    ((out (exec .preEmpt (popped 1 fun r => { r with st := .stamped }))).ctx 0).pres = 1 ∧
    (let s := (List.range 4).foldl (fun (s : State) i => s.setRec (i + 1) { st := .running, hold := true }) (popped 1 id)
     ((out (exec .preEmpt s)).ctx 0).pres = 4) ∧
    (let s := (base 1).setTeam 1 { ((base 1).team 1).getD {} with stopping := false, st := .suspended }
     let s := (s.setGroup 2 { grp s with resident := false }).setCtx 0 { s.ctx 0 with popSt := .preempt 0 (some 7) }
     ((out (exec (.preemptionComplete 0) s)).ctx 0).cutstep = 7) ∧
    (let s := (base 1).setCtx 0 { (base 1).ctx 0 with popSt := .cut 0 }
     (out (exec (.preemptionComplete 0) s)).ctxs = s.ctxs ∧
       ((out (exec (.cutTimeout 0) s)).ctx 0).pres = 3) ∧
    (let s := ((base 1).setCtx 0 { (base 1).ctx 0 with popSt := .cut 0 }).setGroup 2 { grp (base 1) with atStep := true, step := 5 }
     ((out (exec (.preemptionComplete 0) s)).ctx 0).popSt = .preempt 0 (some 5)) := by decide +kernel

/-! #### Groups that make way, and the step -/

/-- Only core 0 works, and it is full: the placed group with one register block, all of its lanes in JWAIT, and fifteen spawned
groups of 64; a closed bin asks for 64 blocks more. -/
def crowded : State :=
  let s := mapped (base 1)
  let s := (List.range 7).foldl (fun (s : State) d => s.setDie (d + 1) { st := .fenced }) (s.setDie 0 { offl := 0xFFFFFE })
  let s := s.setRec 0 { s.rcd 0 with blk := { (s.rcd 0).blk with scr := 0, acc := 0, sxu := false, save := 0x100000, savelen := 1 } }
  let g := (List.range 32).foldl (fun (g : Group) l => g.setLane l { g.lane l with st := .parked, park := .jwait 0 0 }) { grp s with budget := 1 }
  let s := s.setGroup 2 g
  let s := (List.range 15).foldl (fun (s : State) i => s.setGroup (i + 3) { grp (base 1) with team := none, spawned := some { depth := 1 }, budget := 64, slot := i + 1 }) s
  s.setBin 0 0 { used := true, closed := some 1, entry := 0x10000, cls := 7, depth := 1, kids := [{}] }

theorem witness_suspended : crowded.toSuspend = some 2 ∧ crowded.stoppable 2 (grp crowded) = true ∧ (grp crowded).loc = [] ∧
    (match crowded.savePlace (grp crowded) with
     | some (va, _) => (match crowded.area 0 va (1024 * 2) .store with | (.ok ps, s1) => decide ((ps.map (·.2)).sum = 2048 ∧ s1.dir = [] ∧ s1.txns = []) | _ => false)
     | none => false) = true ∧
    (grp crowded).frameBytes.length = 2048 ∧
    (let t := out (exec (.groupSuspend 2) crowded)
     (grp t).resident = false ∧ (grp t).alone = true ∧ out (exec (.groupSuspend 3) crowded) = crowded) := by decide +kernel

/-- The pool of the launch, when its team group waits for nothing and only spawned groups could make way, holds no frame. -/
def poolless : State :=
  let s := crowded.setGroup 2 { grp crowded with team := none, spawned := some {} }
  s.setRec 0 { s.rcd 0 with blk := { (s.rcd 0).blk with savelen := 0 } }

theorem witness_no_frame : ((out (exec (.spawnSave 0) poolless)).rcd 0).detail = 0x15 ∧ out (exec (.spawnSave 0) crowded) = crowded ∧
    (let s := crowded.setCtx 0 { crowded.ctx 0 with locsz := 1 }
     let s := (List.range 15).foldl (fun (s : State) i => s.delGroup (i + 3)) s
     ((out (exec (.localFrame 0) s)).rcd 0).detail = 0x17) := by decide +kernel

/-- A frame of a group whose lanes stand at each state and value goes out and comes back. -/
theorem witness_frame :
    let g := ((grp (base 1)).setLane 0 { (grp (base 1)).lane 0 with st := .trapped, cause := 0x3FF, p := 127, rm := 4, flags := 31, mark := 0xFFFF, pc := 2 ^ 57 - 8, handler := true }).setLane 31
      (((grp (base 1)).lane 31).setReg 7 0xFFFFFFFF)
    let g := { g with budget := 1, backoff := 15, depthNp := 15, handling := true, floor := some 0x10008, step := 7, mask := 5, buckets := [3, 4] }
    let r := g.restore g.frameBytes
    g.frameBytes.length = 2048 ∧ (r.lane 0).cause = 0x3FF ∧ (r.lane 0).st = .trapped ∧ (r.lane 0).pc = 2 ^ 57 - 8 ∧ (r.lane 31).reg 7 = 0xFFFFFFFF ∧
      r.backoff = 15 ∧ r.step = 7 := by decide +kernel

/-- From reset: a placed word is the next step's; a word that is none traps; an event of the agenda runs, and one that cannot passes. -/
def one (s : State) : State := out (step s)

theorem witness_step :
    (let s := State.reset.withFetchWord 64 0x1920000000000700
     s.agenda = [.issue 2] ∧ (s.group 2).isSome = true ∧ s.mayIssue (grp s) = true ∧ (grp s).issueAddress = some 0x10000 ∧
       ((grp (one s)).lane 31).pc = 0x10008) ∧
    ((grp (one (State.reset.withFetchWord 64 0xFFFFFFFFFFFFFF00))).lane 0).cause = 0x20 ∧
    ((one { State.reset with agenda := [.event (.linkUp) (.link 0 640 16 true)] }).port 0).up = true ∧
    (one { State.reset with agenda := [.event .linkUp (.link 0 640 16 true)], mgmt := { State.reset.mgmt with boot := .off } }).ports = [] := by decide +kernel

/-! #### Clauses on completion and on what is under way -/

/-- A queue of 4-byte entries at the placed page: HEAD 2, TAIL 3, the entry 0x77. -/
def queued : State :=
  (withRegs (base 1) 0 [(4, 0x55), (8, 0x10000)]).setCells code (toLE 8 0 ++ toLE 4 2 ++ toLE 4 3 ++ List.replicate 48 0 ++ toLE 16 (0x77 * 2 ^ 64))

theorem witness_queue_served :
    (queued.queueHead code).map (fun q => (q.size, q.cap, q.used)) = some (4, 1008, 1) ∧ queued.clean 0 0 = true ∧
    (let t1 := out (exec (.enq h0 .b32 .dev 4 8) queued)
     let t2 := out (exec (.homeRequest (queued.next + 1)) t1)
     let t3 := out (exec (.homeRequest (queued.next + 1)) (out (exec (.homeRequest (queued.next + 1)) t2)))
     ((grp t2).lane 0).pc = 0x10008 ∧ t2.mem = queued.mem ∧ t3.wordAt (code + 64 + 12) 4 = 0x55 ∧ t3.wordAt (code + 12) 4 = 4) ∧
    (let t1 := out (exec (.deq h0 .b32 true .dev 1 4 8) queued)
     let t2 := out (exec (.homeRequest (queued.next + 1)) t1)
     ((grp t2).lane 0).pc = 0x10008 ∧ ((grp t2).lane 0).reg 4 = 0x77 ∧ ((grp t2).lane 0).pred 1 = true ∧ t2.wordAt (code + 8) 4 = 3) := by
  decide +kernel

/-- The last granule of the scratchpad, full or empty. -/
def granule (full : Bool) : State :=
  withTeam (withRegs (base 1) 0 [(4, 7), (8, 0xFFF0)]) fun t => { t with full := if full then [(0xFFF, true)] else [] }

theorem witness_full_empty_words :
    ((grp (out (exec (.ldf h0 false .b32 false 4 8 0) (granule true)))).lane 0).pc = 0x10008 ∧
    ((grp (out (exec (.ldf h0 false .b32 false 4 8 0) (granule false)))).lane 0).park = .fullBit 1 0xFFF true false ∧
    ((out (exec (.stf h0 false .b32 4 8 0) (granule false))).team 1).map (·.full) = some [(0xFFF, true)] ∧
    ((out (exec (.feinit h0 false true 8 (.imm 1)) (granule false))).team 1).map (·.full) = some [(0xFFF, true)] ∧
    ((grp (out (exec (.feinit h0 false true 8 (.imm 2)) (granule false)))).lane 0).cause = 0x27 := by decide +kernel

/-- The placed group beside a copy of it in the same quarter that has issued in this cycle. -/
def beside : State :=
  let s := (base 1).setGroup 3 { grp (base 1) with slot := 1, lastIssue := 5, readyAt := 6 }
  { s with clk := 5 }

theorem witness_turn :
    (base 1).turn exec 2 = true ∧ beside.turn exec 2 = false ∧
    (let s : State := { State.reset.withFetchWord 64 0x1920000000000700 with clk := 125000 }
     s.bucketDue = true ∧ s.takes .bucketBoundary = true ∧ (one s).bucketNo = 1) ∧
    (out (exec .bucketBoundary (base 1))).groups = (base 1).groups ∧
    (let g := { grp (base 1) with buckets := [5, 6] }
     (grp (out (exec .bucketBoundary { (base 1).setGroup 2 g with clk := 125000 }))).buckets = [0, 5, 6]) := by decide +kernel

/-- Sixteen retries in the last millisecond. -/
def retried (up : Nat) : State :=
  { State.reset.setCport 17 { lst := 2, retries := List.replicate 16 0 } with uptime := up, input := .flit 17 }

theorem witness_under_way :
    ((out (exec .clovarFlitError (retried 1999999))).cport 17).lst = 0 ∧ ((out (exec .clovarFlitError (retried 2000000))).cport 17).lst = 2 ∧
    -- KREQ: a group that stands at no boundary goes on
    (let s := (context id 0 5 (base 1)).setRec 0 { (base 1).rcd 0 with ctx := 63 }
     let s := s.setGroup 2 { grp s with depthNp := 1, landings := [{ lane := 32, writes := [], preds := [], flags := 0 }] }
     let t := out (exec .kreq s)
     (t.rcd 0).st = .ending ∧ (grp t).preempt = true ∧ s.atBoundary 2 (grp s) = false) ∧
    -- a stamp waits for the zero-length read behind its launch's stores to the host
    (let s := State.reset.setRec 0 { st := .stamped, gen := 1, blk := { done := 0x100040 } }
     let s : State := { s with hostSent := [(0, 1)] }
     let t := out (exec (.stampAccept 0) s)
     s.hostQuiet 0 0 = false ∧ (t.rcd 0).stampZlr ≠ none ∧ (t.rcd 0).st = .stamped ∧
       (out (exec (.stampAccept 0) t)).recs = t.recs) ∧
    -- a lane parked on what it watches does not hold an invalidation
    (let g := (grp (base 1)).setLane 31 { (grp (base 1)).lane 31 with st := .parked, park := .monitor 9 }
     let s : State := { (base 1).setGroup 2 g with txns := [(9, some { txnOf (.monitor .eq false 0 4) [] with accepted := true })] }
     let s := s.setCtx 0 { s.ctx 0 with invbusy := true, invIds := [9] }
     let t := out (exec (.invalidationDone 0) s)
     (t.ctx 0).invbusy = false ∧ t.txns = [] ∧ ((grp t).lane 31).ready = true) ∧
    (let w := fun (off n : Nat) (v : DWord) => out (exec .registerWrite { State.reset with input := .reg off n v })
     (w 0x201001 1 7).mgmt.mbbuf = [(1, 7)] ∧ (w 0x201006 3 0x30201).mgmt.mbbuf = [(6, 1), (7, 2), (8, 3)] ∧ (w 0x201005 3 7).mgmt.evprod = 1) := by
  decide +kernel

/-! #### Clauses on what is held, reserved and waited for -/

/-- A tensor copy whose record stands at 0x10100, and the record that it keeps. -/
theorem witness_records_read_at_issue :
    let s := (withRegs (base 1) 0 [(20, 0x20000), (24, 0x10100), (26, 0x1000), (27, 0x40)]).setBar 1 0x40 { narr := 1, arrv := 1 }
    let t := out (exec (.cptLd h0 false false 20 24 32) s)
    s.tlbAt 0 0 0x10100 = some placedLeaf ∧ s.target 0 64 .load (placedLeaf.phys 0x10100) = .ok (.cell, code + 0x100) ∧
      s.depsTouch (s.issueDeps 2 0) .cell (code + 0x100) 64 = false ∧ (t.copies.map fun p => p.2.bind (·.snap)) = [some (List.replicate 64 0)] ∧
      ((grp t).lane 0).pc = 0x10008 ∧ (copying copyIn).copyGoes copyIn = true := by decide +kernel

/-- A word that completes a barrier takes all of its lanes past it, those parked before and those of the word alike (R400, R444). -/
theorem witness_lanes_leave_together :
    let s := (base 3).setTeam 1 { ((base 1).team 1).getD {} with x := [(2, { kind := 1, n := 3, sigs := 1, signers := [69] })] }
    let s := s.setGroup 2 ((grp s).setLane 5 { (grp s).lane 5 with st := .parked, park := .signed 2 false })
    let t := grp (out (exec (.bartm h0 2 (.imm 3)) s))
    [0, 1, 5].map (fun l => ((t.lane l).pc, (t.lane l).st)) = [(0x10008, .eligible), (0x10008, .eligible), (0x10008, .eligible)] := by decide +kernel

theorem witness_held_back :
    -- no thread's own store is pending at a counter, no spawn has been freed, nothing is owed; the engines of an idle team are over
    (base 1).ownPending 2 0 .cell (code + 0x100) 4 = false ∧ (base 1).wokenSpawns = [] ∧ (handlers (base 1)).settled 2 (grp (handlers (base 1))) = true ∧
    (base 1).enginesOver 1 (((base 1).team 1).getD {}) = true ∧ (base 1).arrays = [] ∧ ((base 1).ctx 0).svcs = [] ∧
    -- the device after reset has passed its start; no walker pool holds an entry
    State.reset.mgmt.boot ≠ .notReady ∧ ([1, 2, 3].all fun n => (mapped State.reset).pooled 3 0 n 0x10000 == none) = true ∧
    -- above 32 GT/s a port runs in FLIT mode; a tag of more than ten bits needs it
    ((out (exec .linkUp { State.reset with input := .link 1 640 16 false })).port 1).up = false ∧
    ((out (exec .linkUp { State.reset with input := .link 1 320 16 false })).port 1).up = true ∧
    (let s := (fromHost (.readRequest 1 0 true 0x500000 8 1024)).setPort 1 { up := true, flit := false }
     (out (exec .inboundRead s)).reads = [] ∧
       (out (exec .inboundRead (s.setPort 1 { up := true, flit := true }))).reads.length = 1) ∧
    -- a register write waits for an earlier write of its port
    (let s := posting { writeOf (.reg 0 0x400000 8 (0x3FFF * 2 ^ 26)) with sent := some 1 } [(4, some { writeOf (.bytes 0 [1] false) with tlp := 3 })]
     out (exec (.homeRequest 9) s) = s) ∧
    -- counts above four
    checkBlock 0 (blockBytes.set 6 255) = some 4 ∧ checkBlock 0 (blockBytes.set 5 255) = some 4 ∧
    -- an I/O die that was found absent stays so
    (out (exec .startUpStep { booting (.step 22) (.startUp false 0) with modulesUp := [(1, 6)] })).modulesUp = [(1, 6)] := by decide +kernel

theorem witness_waits_ended :
    -- an invalidation replays the lane in JWAIT on a counter of its region
    (let s := context id 0 0x10001 ((base 1).setRec 0 { (base 1).rcd 0 with ctx := 63 })
     let s := s.setGroup 2 ((grp s).setLane 31 { (grp s).lane 31 with st := .parked, park := .jwait code 0x10100 })
     Sparse.wf none s.pool = true ∧ Sparse.wf none s.groups = true ∧ ((grp (out (exec .invgo s))).lane 31).st = .eligible) ∧
    -- a cut whose launch has ended is over; one whose teams find no room for their bits is refused
    (let s := ((base 1).setRec 0 { (base 1).rcd 0 with st := .stamped }).setCtx 0 { (base 1).ctx 0 with popSt := .cut 0 }
     ((out (exec (.preemptionComplete 0) s)).ctx 0).popSt = .idle) ∧
    (base 1).bitsUsed ≤ fantailBits ∧
    -- a report rejected while its group is away; a frame whose lane's report has been rejected
    (let s := reported false (2 ^ 33 + 8)
     let t := grp (out (exec .reject (s.setGroup 2 { grp s with resident := false })))
     (t.lane 31).st = .trapped ∧ (t.lane 31).rejected = true ∧
       (let g := (grp (base 1)).setLane 0 { (grp (base 1)).lane 0 with st := .parked }
        let r := (g.setLane 0 { g.lane 0 with st := .trapped, pc := 0x10040, rejected := true }).restore g.frameBytes
        (r.lane 0).st = .trapped ∧ (r.lane 0).pc = 0x10040)) ∧
    -- the port that the group's last word holds until its last beat
    (let s := State.reset.withFetchWord 64 (encode (.sxkey h0 false true 8 10)).1.toNat
     let g := grp s
     let s := s.setGroup 2 { g with portTill := s.clk + 2, lastPort := 3 }
     s.tries exec 2 = some 3 ∧ s.turn exec 2 = false ∧ (s.setGroup 2 g).turn exec 2 = true) := by decide +kernel

/-- Words of the manual, and the words of `words`, meet the hypotheses on encoding; reset and a written memory those on memory. -/
theorem witness_encoding : (∀ i ∈ words, i.wf = true ∧ ∀ s0 s1, i = .pairWord s0 s1 → pairBanksOk s0 s1 = true) ∧ State.reset.mem = [] := by
  have h : words.all (fun i => i.wf && (match i with | .pairWord a b => pairBanksOk a b | _ => true)) = true := by decide +kernel
  refine ⟨fun i hi => ?_, rfl⟩
  have := (List.all_eq_true.mp h) i hi
  simp only [Bool.and_eq_true] at this
  exact ⟨this.1, fun s0 s1 e => by subst e; exact this.2⟩

theorem witness_memory_writes :
    (let s := State.reset.setCells 31 [1, 2, 0]
     let t := s.agentWrite (srcMill 0) 0 [(32, 9), (33, 8)]
     Memory.wf s.mem ∧ s.mem = [(31, 1), (32, 2)] ∧ t.mem = [(31, 1), (32, 9), (33, 8)]) ∧
    (let s : State := { State.reset with poison := [(1, true)] }
     Sparse.get false (s.agentWrite (srcMill 0) 0 ((List.range 32).map fun i => (32 + i, 0))).poison 1 = false ∧
     Sparse.get false (s.agentWrite (srcMill 0) 0 ((List.range 31).map fun i => (32 + i, 0))).poison 1 = true) := by decide +kernel

end Sys2Proof.Tests
end

section
/-! SUPPORT. What the shared operations of the state leave unchanged (their frames), and what a write of memory makes of its cells and
of the poison of its sectors. -/
namespace Sys2Proof.Machine

/-! ### Folds -/

/-- A fold whose every step stands in a reflexive and transitive relation to the state before it. -/
theorem foldl_rel {σ α : Type} (R : σ → σ → Prop) (hr : ∀ s, R s s) (ht : ∀ s t u, R s t → R t u → R s u) (f : σ → α → σ)
    (l : List α) (hf : ∀ s, ∀ a ∈ l, R s (f s a)) (s : σ) : R s (l.foldl f s) := by
  induction l generalizing s with
  | nil => exact hr s
  | cons a l ih =>
    exact ht _ _ _ (hf s a (by simp)) (ih (fun s b hb => hf s b (by simp [hb])) _)

/-- A fold whose every step changes nothing changes nothing. -/
theorem foldl_same {σ α : Type} (f : σ → α → σ) (l : List α) (s : σ) (h : ∀ a ∈ l, f s a = s) : l.foldl f s = s := by
  induction l with
  | nil => rfl
  | cons a l ih => rw [List.foldl_cons, h a (by simp), ih fun b hb => h b (by simp [hb])]

/-! ### Frames: the fields that an operation may change -/

/-- Nothing but the request counters, the poison logs and the event log differs. -/
def OnlyLogs (s t : State) : Prop := t = { s with quads := t.quads, mgmt := t.mgmt }
/-- Nothing but lanes, transactions and the counter of identifiers differs. -/
def OnlyLanes (s t : State) : Prop := t = { s with groups := t.groups, txns := t.txns, next := t.next }
/-- The same, and the directory. -/
def OnlyLanesDir (s t : State) : Prop := t = { s with groups := t.groups, txns := t.txns, next := t.next, dir := t.dir }

theorem OnlyLogs.refl (s : State) : OnlyLogs s s := rfl
theorem OnlyLogs.trans (s t u : State) (h : OnlyLogs s t) (k : OnlyLogs t u) : OnlyLogs s u := by
  unfold OnlyLogs at *; rw [k, h]
theorem OnlyLanes.refl (s : State) : OnlyLanes s s := rfl
theorem OnlyLanes.trans (s t u : State) (h : OnlyLanes s t) (k : OnlyLanes t u) : OnlyLanes s u := by
  unfold OnlyLanes at *; rw [k, h]
theorem OnlyLanesDir.refl (s : State) : OnlyLanesDir s s := rfl
theorem OnlyLanesDir.trans (s t u : State) (h : OnlyLanesDir s t) (k : OnlyLanesDir t u) : OnlyLanesDir s u := by
  unfold OnlyLanesDir at *; rw [k, h]
theorem OnlyLanes.withDir {s t : State} (h : OnlyLanes s t) : OnlyLanesDir s t := by
  unfold OnlyLanesDir OnlyLanes at *; rw [h]

theorem OnlyLogs.field {α : Type} {s t : State} (h : OnlyLogs s t) (F : State → α)
    (hF : ∀ s t : State, F { s with quads := t.quads, mgmt := t.mgmt } = F s := by intros; rfl) : F t = F s := by
  rw [h]; exact hF s t
theorem OnlyLanes.field {α : Type} {s t : State} (h : OnlyLanes s t) (F : State → α)
    (hF : ∀ s t : State, F { s with groups := t.groups, txns := t.txns, next := t.next } = F s := by intros; rfl) : F t = F s := by
  rw [h]; exact hF s t
theorem OnlyLanesDir.field {α : Type} {s t : State} (h : OnlyLanesDir s t) (F : State → α)
    (hF : ∀ s t : State, F { s with groups := t.groups, txns := t.txns, next := t.next, dir := t.dir } = F s := by intros; rfl) : F t = F s := by
  rw [h]; exact hF s t

theorem onlyLogs_count (s : State) (src : Src') (c : Nat) : OnlyLogs s (s.count src c) := rfl
theorem onlyLogs_logEv (s : State) (ev : Ev) (sev src : Nat) (args : List Nat) : OnlyLogs s (s.logEv ev sev src args) := rfl
theorem onlyLogs_logPoison (s : State) (kind agent index c : Nat) : OnlyLogs s (s.logPoison kind agent index c) := by
  unfold State.logPoison; dsimp only; split <;> rfl

theorem onlyLanes_wakeMonitors (s : State) (line : Nat) : OnlyLanes s (s.wakeMonitors line) := by
  unfold State.wakeMonitors
  refine .trans _ _ _ (foldl_rel OnlyLanes .refl .trans _ _ (fun s p _ => ?_) s) (foldl_rel OnlyLanes .refl .trans _ _ (fun s p _ => ?_) _)
  · dsimp only; split
    · refine foldl_rel OnlyLanes .refl .trans _ _ (fun s q _ => ?_) s
      split
      · split
        · rfl
        · split <;> rfl
      · rfl
    · rfl
  · dsimp only; split <;> rfl

theorem onlyLanesDir_publish (s : State) (line id : Nat) : OnlyLanesDir s (s.publish line id) := by
  unfold State.publish; dsimp only; split
  · exact (onlyLanes_wakeMonitors s line).withDir
  · rfl

/-! ### Writes of memory -/

/-- Nothing but memory, its poison, the LLC's record of written lines and the logs differs. -/
def OnlyMemory (s t : State) : Prop :=
  t = { s with mem := t.mem, poison := t.poison, llcNew := t.llcNew, quads := t.quads, mgmt := t.mgmt }
theorem OnlyMemory.refl (s : State) : OnlyMemory s s := rfl
theorem OnlyMemory.trans (s t u : State) (h : OnlyMemory s t) (k : OnlyMemory t u) : OnlyMemory s u := by
  unfold OnlyMemory at *; rw [k, h]
theorem OnlyLogs.memory {s t : State} (h : OnlyLogs s t) : OnlyMemory s t := by
  unfold OnlyMemory OnlyLogs at *; rw [h]

theorem OnlyMemory.field {α : Type} {s t : State} (h : OnlyMemory s t) (F : State → α)
    (hF : ∀ s t : State, F { s with mem := t.mem, poison := t.poison, llcNew := t.llcNew, quads := t.quads, mgmt := t.mgmt } = F s := by intros; rfl) : F t = F s := by
  rw [h]; exact hF s t

/-- Is every byte of the sector among those written? -/
def writesWhole (ws : List (Nat × Byte)) (sec : Nat) : Bool := (List.range 32).all fun i => ws.any fun w => w.1 == sec * 32 + i

/-- One sector of a write: what `commit` does with its poison. -/
def commitSector (src : Src') (ws : List (Nat × Byte)) (s : State) (sec : Nat) : State :=
  if Sparse.get false s.poison sec then
    if writesWhole ws sec then
      ({ s with poison := Sparse.set false s.poison sec false }).logPoison 5 src.agent src.index (sec * 32)
    else s.logPoison 4 src.agent src.index (sec * 32)
  else s

theorem writesWhole_iff (ws : List (Nat × Byte)) (sec : Nat) :
    writesWhole ws sec = true ↔ ∀ i, i < 32 → ∃ w ∈ ws, w.1 = 32 * sec + i := by
  simp [writesWhole, Nat.mul_comm sec 32]

theorem commitSector_mem (src : Src') (ws : List (Nat × Byte)) (s : State) (sec : Nat) : (commitSector src ws s sec).mem = s.mem := by
  unfold commitSector; split
  · split
    · exact (onlyLogs_logPoison _ _ _ _ _).field State.mem
    · exact (onlyLogs_logPoison _ _ _ _ _).field State.mem
  · rfl

theorem commitSector_poison (src : Src') (ws : List (Nat × Byte)) (s : State) (sec k : Nat) :
    Sparse.get false (commitSector src ws s sec).poison k =
      (Sparse.get false s.poison k && !(decide (k = sec) && writesWhole ws sec)) := by
  unfold commitSector
  by_cases hp : Sparse.get false s.poison sec = true
  · simp only [hp, ↓reduceIte]
    by_cases hw : writesWhole ws sec = true
    · rw [if_pos hw, (onlyLogs_logPoison _ _ _ _ _).field State.poison]
      by_cases hk : k = sec <;> simp [Sparse.get_set, hk, hw]
    · rw [if_neg hw, (onlyLogs_logPoison _ _ _ _ _).field State.poison]
      simp [hw]
  · rw [if_neg hp]
    by_cases hk : k = sec
    · subst hk; simp [hp]
    · simp [hk]

theorem onlyMemory_commitSector (src : Src') (ws : List (Nat × Byte)) (s : State) (sec : Nat) : OnlyMemory s (commitSector src ws s sec) := by
  unfold commitSector; split
  · split
    · exact .trans _ { s with poison := Sparse.set false s.poison sec false } _ rfl (onlyLogs_logPoison _ _ _ _ _).memory
    · exact (onlyLogs_logPoison _ _ _ _ _).memory
  · rfl

/-- The bytes of a write reach their cells one by one. -/
def State.putCells (s : State) (ws : List (Nat × Byte)) : State := ws.foldl (fun s w => s.setCell w.1 w.2) s

/-- The state of a write whose bytes stand in their cells and whose lines are noted as written. -/
def State.putLines (s : State) (ws : List (Nat × Byte)) : State :=
  let lines := ((ws.map fun w => w.1 / 128).eraseDups).filter fun l => l * 128 < carveBase
  { s.putCells ws with llcNew := lines.foldl (fun m l => Sparse.set false m l true) (s.putCells ws).llcNew }

/-- A write of memory: its bytes, and then its sectors one by one. -/
theorem commit_eq (s : State) (src : Src') (ws : List (Nat × Byte)) :
    s.commit src ws = ((ws.map fun w => w.1 / 32).eraseDups).foldl (commitSector src ws) (s.putLines ws) := rfl

theorem putCells_frame (s : State) (ws : List (Nat × Byte)) : s.putCells ws = { s with mem := (s.putCells ws).mem } := by
  unfold State.putCells
  exact foldl_rel (fun s t : State => t = { s with mem := t.mem }) (fun _ => rfl) (fun _ _ _ h k => by rw [k, h]) _ ws
    (fun _ _ _ => rfl) s

theorem onlyMemory_commit (s : State) (src : Src') (ws : List (Nat × Byte)) : OnlyMemory s (s.commit src ws) := by
  rw [commit_eq]
  refine .trans _ (s.putLines ws) _ ?_ (foldl_rel OnlyMemory .refl .trans _ _ (fun s sec _ => onlyMemory_commitSector src ws s sec) _)
  unfold OnlyMemory State.putLines; rw [putCells_frame]

@[simp] theorem commit_mem (s : State) (src : Src') (ws : List (Nat × Byte)) : (s.commit src ws).mem = (s.putCells ws).mem := by
  rw [commit_eq]
  exact foldl_rel (fun s t : State => t.mem = s.mem) (fun _ => rfl) (fun _ _ _ h k => k.trans h) _ _
    (fun s sec _ => commitSector_mem src ws s sec) (s.putLines ws)

theorem foldl_commitSector_poison (src : Src') (ws : List (Nat × Byte)) (secs : List Nat) (s : State) (k : Nat) :
    Sparse.get false (secs.foldl (commitSector src ws) s).poison k =
      (Sparse.get false s.poison k && !(decide (k ∈ secs) && writesWhole ws k)) := by
  induction secs generalizing s with
  | nil => simp
  | cons a secs ih =>
    rw [List.foldl_cons, ih, commitSector_poison]
    by_cases hk : k = a
    · subst hk; cases Sparse.get false s.poison k <;> cases writesWhole ws k <;> simp
    · simp [hk]

/-- After a write a sector is poisoned if it was and was not written whole (R189). -/
theorem commit_poison (s : State) (src : Src') (ws : List (Nat × Byte)) (k : Nat) :
    Sparse.get false (s.commit src ws).poison k = (Sparse.get false s.poison k && !writesWhole ws k) := by
  have hp : (s.putLines ws).poison = s.poison := by unfold State.putLines; rw [putCells_frame]
  rw [commit_eq, foldl_commitSector_poison, hp]
  by_cases hw : writesWhole ws k = true
  · obtain ⟨w, hwm, hw0⟩ := (writesWhole_iff ws k).mp hw 0 (by omega)
    have hk : k ∈ ((ws.map fun w => w.1 / 32).eraseDups) := by
      rw [List.mem_eraseDups, List.mem_map]; exact ⟨w, hwm, by omega⟩
    simp [hk]
  · simp [hw]

theorem putCells_wf (s : State) (ws : List (Nat × Byte)) (h : Memory.wf s.mem) : Memory.wf (s.putCells ws).mem := by
  unfold State.putCells
  exact foldl_rel (fun s t : State => Memory.wf s.mem → Memory.wf t.mem) (fun _ h => h) (fun _ _ _ h k x => k (h x)) _ ws
    (fun s w _ => setCell_wf s w.1 w.2) s h

/-- A cell that a write does not name keeps its byte. -/
theorem putCells_cell_other (s : State) (ws : List (Nat × Byte)) (c : Nat) (h : ∀ w ∈ ws, w.1 ≠ c) : (s.putCells ws).cell c = s.cell c := by
  unfold State.putCells
  induction ws generalizing s with
  | nil => rfl
  | cons w ws ih =>
    rw [List.foldl_cons, ih _ fun w hw => h w (by simp [hw]), cell_setCell, if_neg fun e => h w (by simp) e.symm]

/-- A cell that a write names once takes the byte of that name. -/
theorem putCells_cell_mem (s : State) (ws : List (Nat × Byte)) (hn : (ws.map (·.1)).Nodup) (w : Nat × Byte) (h : w ∈ ws) :
    (s.putCells ws).cell w.1 = w.2 := by
  unfold State.putCells
  induction ws generalizing s with
  | nil => simp at h
  | cons v ws ih =>
    obtain ⟨hv, hn⟩ := List.nodup_cons.mp hn
    rcases List.mem_cons.mp h with rfl | h
    · have hother : ∀ x ∈ ws, x.1 ≠ w.1 := fun x hx e => hv (List.mem_map.mpr ⟨x, hx, e⟩)
      have := putCells_cell_other (s.setCell w.1 w.2) ws w.1 hother
      rw [List.foldl_cons]; rw [State.putCells] at this; rw [this, cell_setCell, if_pos rfl]
    · rw [List.foldl_cons]; exact ih _ hn h

/-- Consecutive cells. -/
def runOf (a n : Nat) (f : Nat → Byte) : List (Nat × Byte) := (List.range n).map fun i => (a + i, f i)

theorem runOf_keys_nodup (a n : Nat) (f : Nat → Byte) : ((runOf a n f).map (·.1)).Nodup := by
  simp only [runOf, List.map_map]
  exact List.nodup_range.map fun _ _ h => by simpa using h

/-- A write of consecutive cells: each takes its byte, every other keeps its own. -/
theorem putCells_runOf_cell (s : State) (a n : Nat) (f : Nat → Byte) (c : Nat) :
    (s.putCells (runOf a n f)).cell c = if a ≤ c ∧ c < a + n then f (c - a) else s.cell c := by
  split
  · next h =>
    have := putCells_cell_mem s (runOf a n f) (runOf_keys_nodup a n f) (c, f (c - a))
      (List.mem_map.mpr ⟨c - a, List.mem_range.mpr (by omega), by simp; omega⟩)
    exact this
  · next h =>
    refine putCells_cell_other _ _ _ fun w hw e => ?_
    obtain ⟨i, hi, rfl⟩ := List.mem_map.mp hw
    have := List.mem_range.mp hi
    simp only at e; omega

/-- Nothing but what a write and its visibility touch differs. -/
def OnlyPut (s t : State) : Prop :=
  t = { s with mem := t.mem, poison := t.poison, llcNew := t.llcNew, quads := t.quads, mgmt := t.mgmt, dir := t.dir,
               groups := t.groups, txns := t.txns, next := t.next }
theorem OnlyPut.refl (s : State) : OnlyPut s s := rfl
theorem OnlyPut.trans (s t u : State) (h : OnlyPut s t) (k : OnlyPut t u) : OnlyPut s u := by
  unfold OnlyPut at *; rw [k, h]
theorem OnlyPut.field {α : Type} {s t : State} (h : OnlyPut s t) (F : State → α)
    (hF : ∀ s t : State, F { s with mem := t.mem, poison := t.poison, llcNew := t.llcNew, quads := t.quads, mgmt := t.mgmt, dir := t.dir, groups := t.groups, txns := t.txns, next := t.next } = F s := by intros; rfl) : F t = F s := by
  rw [h]; exact hF s t
theorem OnlyMemory.put {s t : State} (h : OnlyMemory s t) : OnlyPut s t := by
  unfold OnlyMemory OnlyPut at *; rw [h]
theorem OnlyLanesDir.put {s t : State} (h : OnlyLanesDir s t) : OnlyPut s t := by
  unfold OnlyLanesDir OnlyPut at *; rw [h]

/-- Several lines become visible. -/
def State.publishAll (s : State) (ls : List Nat) (id : Nat) : State := ls.foldl (fun s l => s.publish l id) s
/-- The requests of several lines are counted. -/
def State.countAll (s : State) (src : Src') (ls : List Nat) : State := ls.foldl (fun s l => s.count src (l * 128)) s

theorem onlyLanesDir_publishAll (s : State) (ls : List Nat) (id : Nat) : OnlyLanesDir s (s.publishAll ls id) :=
  foldl_rel OnlyLanesDir .refl .trans _ _ (fun s l _ => onlyLanesDir_publish s l id) s
theorem onlyLogs_countAll (s : State) (src : Src') (ls : List Nat) : OnlyLogs s (s.countAll src ls) :=
  foldl_rel OnlyLogs .refl .trans _ _ (fun s _ _ => onlyLogs_count s src _) s

theorem agentWrite_eq (s : State) (src : Src') (id : Nat) (ws : List (Nat × Byte)) :
    let ls := (ws.map fun w => w.1 / 128).eraseDups
    s.agentWrite src id ws = ((s.countAll src ls).commit src ws).publishAll ls id := rfl

theorem onlyPut_agentWrite (s : State) (src : Src') (id : Nat) (ws : List (Nat × Byte)) : OnlyPut s (s.agentWrite src id ws) := by
  rw [agentWrite_eq]
  exact .trans _ _ _ (.trans _ _ _ (onlyLogs_countAll _ _ _).memory.put (onlyMemory_commit _ _ _).put) (onlyLanesDir_publishAll _ _ _).put

theorem cell_of_mem {s t : State} (h : s.mem = t.mem) (c : Nat) : s.cell c = t.cell c := by unfold State.cell; rw [h]

theorem putCells_mem_congr {s t : State} (h : s.mem = t.mem) (ws : List (Nat × Byte)) : (s.putCells ws).mem = (t.putCells ws).mem := by
  unfold State.putCells
  induction ws generalizing s t with
  | nil => exact h
  | cons w ws ih => exact ih (by simp only [State.setCell, h])

theorem agentWrite_mem (s : State) (src : Src') (id : Nat) (ws : List (Nat × Byte)) : (s.agentWrite src id ws).mem = (s.putCells ws).mem := by
  rw [agentWrite_eq, (onlyLanesDir_publishAll _ _ _).field State.mem]
  exact (commit_mem _ _ _).trans (putCells_mem_congr ((onlyLogs_countAll _ _ _).field State.mem) ws)

theorem agentWrite_poison (s : State) (src : Src') (id : Nat) (ws : List (Nat × Byte)) (k : Nat) :
    Sparse.get false (s.agentWrite src id ws).poison k = (Sparse.get false s.poison k && !writesWhole ws k) := by
  rw [agentWrite_eq, (onlyLanesDir_publishAll _ _ _).field State.poison]
  have hp := (onlyLogs_countAll s src (ws.map fun w => w.1 / 128).eraseDups).field State.poison
  exact (commit_poison _ _ _ k).trans (by rw [hp])

end Sys2Proof.Machine
end

section
/-! SUPPORT. O59: writes of memory keep its canonical form, and equal readings mean equal memories. -/
namespace Sys2Proof.Sparse
variable {α : Type} [DecidableEq α]

/-- Below its bound a canonical map lists nothing. -/
theorem get_of_lt_above {d : α} {m : Sparse α} {b k : Nat} (h : above d b m) (hk : k < b) : get d m k = d := by
  induction m generalizing b with
  | nil => rfl
  | cons p m ih =>
    obtain ⟨hb, _, hm⟩ := h
    rw [get, if_neg (by omega), ih hm (by omega)]

theorem eq_of_above {d : α} {m n : Sparse α} {b : Nat} (hm : above d b m) (hn : above d b n)
    (h : ∀ k, get d m k = get d n k) : m = n := by
  induction m generalizing b n with
  | nil =>
    cases n with
    | nil => rfl
    | cons q n => exact absurd (by simpa [get] using (h q.1).symm) hn.2.1
  | cons p m ih =>
    obtain ⟨hpb, hpd, hm⟩ := hm
    cases n with
    | nil => exact absurd (by simpa [get] using h p.1) hpd
    | cons q n =>
      obtain ⟨hqb, hqd, hn⟩ := hn
      -- the smaller of the two first keys would read as unlisted in the other map
      have hkey : p.1 = q.1 := by
        rcases Nat.lt_trichotomy p.1 q.1 with hlt | heq | hlt
        · have := h p.1
          rw [get, if_pos rfl, get, if_neg (by omega), get_of_lt_above hn (by omega)] at this
          exact absurd this hpd
        · exact heq
        · have := h q.1
          rw [get, if_neg (by omega), get_of_lt_above hm (by omega), get, if_pos rfl] at this
          exact absurd this.symm hqd
      have hval : p.2 = q.2 := by
        have := h p.1
        rwa [get, if_pos rfl, get, if_pos hkey] at this
      have htail : m = n := ih hm (by rw [hkey]; exact hn) fun k => by
        by_cases hk : k ≤ p.1
        · rw [get_of_lt_above hm (by omega), get_of_lt_above hn (by omega)]
        · have := h k
          rwa [get, if_neg (by omega), get, if_neg (by omega)] at this
      rw [htail, show p = q from Prod.ext hkey hval]

/-- A canonical map is determined by what it reads as. -/
theorem eq_of_wf {d : α} {m n : Sparse α} (hm : wf d m = true) (hn : wf d n = true) (h : ∀ k, get d m k = get d n k) : m = n :=
  eq_of_above ((wf_iff_above d m).mp hm) ((wf_iff_above d n).mp hn) h
end Sys2Proof.Sparse

namespace Sys2Proof.Machine

/-- A cell after a write of consecutive bytes. -/
theorem cell_setCells (s : State) (a : Nat) (bs : List Byte) (c : Nat) :
    (s.setCells a bs).cell c = if a ≤ c ∧ c < a + bs.length then bs.getD (c - a) 0 else s.cell c := by
  split
  · next h =>
    have := cell_setCells_in s a (c - a) bs (by omega)
    rw [show a + (c - a) = c by omega] at this
    rw [this, List.getD_eq_getElem _ _ (by omega)]
  · next h => exact cell_setCells_out s a c bs (by omega)

/-- Settles O59. -/
theorem memoryWrites : Obligations.MemoryWrites := by
  unfold Obligations.MemoryWrites
  refine ⟨fun m n hm hn h => Sparse.eq_of_wf hm hn h, setCells_wf, cell_setCells, fun s src id ws hnd => ?_⟩
  have hframe := onlyPut_agentWrite s src id ws
  have hmem : (s.agentWrite src id ws).mem = (s.putCells ws).mem := agentWrite_mem s src id ws
  refine ⟨fun h => hmem ▸ putCells_wf s ws h, fun w hw => ?_, fun c hc => ?_, fun sec hs => ?_, fun sec hs => ?_,
    hframe.field State.ctxs, hframe.field State.recs, hframe.field State.teams, hframe.field State.dirty, hframe.field State.out⟩
  · rw [cell_of_mem hmem, putCells_cell_mem s ws hnd w hw]
  · rw [cell_of_mem hmem, putCells_cell_other s ws c hc]
  · rw [agentWrite_poison, (writesWhole_iff ws sec).mpr hs, Bool.not_true, Bool.and_false]
  · have hpart : writesWhole ws sec = false := by
      rw [Bool.eq_false_iff]
      intro hw
      obtain ⟨i, hi, hno⟩ := hs
      obtain ⟨w, hwm, he⟩ := (writesWhole_iff ws sec).mp hw i hi
      exact hno w hwm he
    rw [agentWrite_poison, hpart, Bool.not_false, Bool.and_true]
end Sys2Proof.Machine
end

section
/-! SUPPORT. O58: the machine after device reset and start-up. -/
namespace Sys2Proof.Machine

theorem reset_readQuad (q o : Nat) : State.reset.readReg (.quad q o) = 0 := by
  have hq : State.reset.quad q = {} := rfl
  simp [State.readReg, State.readQuad, hq, Sparse.get]

theorem reset_readClovar (o : Nat) : State.reset.readReg (.clovar o) = 0 := by
  have hc : State.reset.clovar = {} := rfl
  simp [State.readReg, State.readClovar, Clovar.mask, hc, Sparse.get, b2n]

theorem reset_readCtx (k o : Nat) : State.reset.readReg (.ctx k o) = 0 := by
  have hc : State.reset.ctx k = {} := rfl
  simp [State.readReg, State.readCtx, hc, b2n, Ctx.queue, Sparse.get]

theorem step_reset : step State.reset = .next State.reset.tick := rfl

/-- Settles O58. -/
theorem resetState : Obligations.ResetState := by
  unfold Obligations.ResetState
  refine ⟨rfl, fun _ => rfl, fun _ => rfl, rfl, fun _ => ⟨rfl, rfl, rfl, rfl⟩, rfl, fun k o _ _ _ => reset_readCtx k o,
    fun _ _ _ _ => rfl, fun q o _ => reset_readQuad q o, reset_readClovar, fun _ _ => Nat.zero_mul _, ?_, rfl, fun _ => rfl,
    fun _ => rfl, fun _ => rfl, fun _ => rfl, fun _ => rfl, rfl, step_reset⟩
  intro i v h
  simp only [List.contains_iff_mem] at h
  fin_cases h <;> rfl
end Sys2Proof.Machine
end

section
/-! SUPPORT. O40: loss of power, power-good, the steps of start-up, the core wake and device reset. -/
namespace Sys2Proof.Machine

/-- A slot holds an image that verifies, its security version included (R36). -/
theorem verifies_iff (m : Mgmt) (slot : Nat) : m.verifies slot = true ↔
    Config.imageOk slot (m.written slot) = true ∧
      (m.minVer.getD Config.minVersion).toNat ≤ (Config.imageVersion slot (m.written slot)).toNat := by
  rw [Mgmt.verifies, Bool.and_eq_true, decide_eq_true_eq]; rfl

/-! ### Which image starts (R36, R37) -/

theorem verifyImage_selected (s : State) (boot : Boot) (h : s.mgmt.verifies s.mgmt.selected = true) :
    s.verifyImage boot = { s with mgmt := { s.mgmt with boot := boot, running := s.mgmt.selected } } := by
  simp [State.verifyImage, h]

theorem verifyImage_other (s : State) (boot : Boot) (h : ¬ s.mgmt.verifies s.mgmt.selected = true)
    (ho : s.mgmt.verifies (1 - s.mgmt.selected) = true) :
    let fell := s.logEv .imageFallback 2 (evQuad 0) [s.mgmt.selected]
    s.verifyImage boot = { fell with mgmt := { fell.mgmt with boot := boot, running := 1 - s.mgmt.selected } } := by
  simp [State.verifyImage, h, ho]

theorem verifyImage_none (s : State) (boot : Boot) (h : ¬ s.mgmt.verifies s.mgmt.selected = true)
    (ho : ¬ s.mgmt.verifies (1 - s.mgmt.selected) = true) :
    let fell := s.logEv .imageFallback 2 (evQuad 0) [s.mgmt.selected]
    s.verifyImage boot = { fell with mgmt := { fell.mgmt with boot := .noImage } } := by
  simp [State.verifyImage, h, ho]

/-- Power has come: time counts from here. -/
def State.risen (s : State) : State := { s with uptime := 0 }

/-- An identity key that could not be reconstructed is noted (R38). -/
def State.noteKey (s : State) : State :=
  match s.input with
  | .power false => { s with mgmt := { s.mgmt with keyOk := false } }.logEv .noKey 2 (evQuad 0) []
  | _ => s

/-- POWER_GOOD of a device without power: the image is verified, and one that starts notes a missing identity key. -/
theorem powerGood_off (s : State) (h : s.mgmt.boot = .off) :
    s.powerGood =
      if (s.risen.verifyImage (.step 0)).mgmt.boot = .noImage then s.risen.verifyImage (.step 0)
      else (s.risen.verifyImage (.step 0)).noteKey := by
  rw [State.powerGood, if_neg (by simp [h])]; rfl

/-! ### The steps of start-up (R20, R27, R28) -/

/-- START_UP_STEP by what its input says. -/
theorem startUpStep_step (s : State) (i n : Nat) (failed : Bool) (hb : s.mgmt.boot = .step i) (hi : s.input = .startUp failed n) :
    s.startUpStep =
      let s1 : State := { s with mgmt := { s.mgmt with boot := if i < 23 then .step (i + 1) else .wake 0 } }
      if failed = true ∨ (i = 21 ∨ i = 22) ∧ 6 ≤ n then s1.stepFails i
      else if (i = 21 ∨ i = 22) ∧ Sparse.get 0 s.modulesUp (i - 21) < 6 then
        { s1 with modulesUp := Sparse.set 0 s.modulesUp (i - 21) (n % 7) }
      else s1 := by
  simp [State.startUpStep, hb, hi]

theorem stepFails_iod (s : State) (i : Nat) (h : i = 21 ∨ i = 22) :
    s.stepFails i = { s with modulesUp := Sparse.set 0 s.modulesUp (i - 21) 6 }.logEv .iodAbsent 2 (evIod (i - 21)) [i] := by
  rcases h with rfl | rfl <;> rfl

theorem stepFails_sram (s : State) (i : Nat) (h1 : 1 ≤ i) (h8 : i ≤ 8) :
    s.stepFails i =
      { s with sramDown := Sparse.set false s.sramDown (i - 1) true }.logEv .dieFailed 2 (evSrc .sram (i - 1) ((i - 1) / 2)) [i] := by
  rw [State.stepFails, if_neg (by omega), if_pos h8]

theorem stepFails_stack (s : State) (i : Nat) (h9 : 9 ≤ i) (h20 : i ≤ 20) :
    s.stepFails i =
      { s with stackDown := Sparse.set false s.stackDown (i - 9) true }.logEv .stackFailed 2 (evSrc .hbm (i - 9) ((i - 9) / 3)) [i] := by
  rw [State.stepFails, if_neg (by omega), if_neg (by omega), if_pos h20]

/-- A stack or an SRAM die of every quadrant serves memory (R28). -/
theorem memoryServed_iff (s : State) : s.memoryServed = true ↔ s.stackDown = [] ∧
    ∀ q, q < 4 → ¬ (Sparse.get false s.sramDown (2 * q) = true ∧ Sparse.get false s.sramDown (2 * q + 1) = true) := by
  simp [State.memoryServed, imp_iff_not_or, ← Bool.not_eq_true]

/-- The die of a wake group that fails its wake is fenced with CAUSE 3 (log entry 76). -/
def State.wakeFails (s : State) (k : Nat) (failed : Bool) : State :=
  if failed then (s.setDie k { s.die k with st := .fenced, cause := 3 }).logEv .dieFailed 2 (evDie k) [] else s

theorem coreWake_wake (s : State) (g n : Nat) (failed : Bool) (hb : s.mgmt.boot = .wake g) (hi : s.input = .startUp failed n) :
    s.coreWake =
      let s1 := s.wakeFails (g % 8) failed
      if g < 47 then { s1 with mgmt := { s1.mgmt with boot := .wake (g + 1) } }
      else if s1.memoryServed then
        { s1 with
          clk := 0, dies := mapVals {} s1.dies fun d => { d with duty := 16 }
          mgmt := { s1.mgmt with
            boot := .ready
            minVer := if s1.mgmt.minimum.toNat < (s1.mgmt.version s1.mgmt.running).toNat then some (s1.mgmt.version s1.mgmt.running)
              else s1.mgmt.minVer }
          out := .ready :: s1.out }
      else { s1 with mgmt := { s1.mgmt with boot := .notReady } } := by
  cases failed <;> simp [State.coreWake, hb, hi, State.wakeFails, State.emit]

/-- A failing wake leaves the stacks, the SRAM dies and the images as they are. -/
theorem wakeFails_served (s : State) (k : Nat) (failed : Bool) : (s.wakeFails k failed).memoryServed = s.memoryServed := by
  cases failed <;> rfl

theorem wakeFails_minVer (s : State) (k : Nat) (failed : Bool) :
    let m := (s.wakeFails k failed).mgmt
    m.minimum = s.mgmt.minimum ∧ m.version m.running = s.mgmt.version s.mgmt.running ∧ m.minVer = s.mgmt.minVer := by
  cases failed <;> exact ⟨rfl, rfl, rfl⟩

/-! ### Device reset (R17, R37, R87) -/

/-- What device reset leaves of a device that is ready, before the image is verified. -/
def State.wiped (s : State) : State :=
  { uptime := s.uptime, next := s.next, free := s.free, agenda := s.agenda, input := s.input, out := s.out
    stackDown := s.stackDown, modulesUp := s.modulesUp
    ports := s.ports.map fun p => (p.1, { up := p.2.up, rate := p.2.rate, width := p.2.width, flit := p.2.flit })
    mgmt := { flash := s.mgmt.flash, flashLog := s.mgmt.flashLog, selected := s.mgmt.selected, running := s.mgmt.running
              minVer := s.mgmt.minVer, keyOk := s.mgmt.keyOk } }

theorem deviceReset_eq (s : State) (hb : s.mgmt.boot = .ready) :
    s.deviceReset =
      let t := s.wiped.verifyImage .ready
      if t.mgmt.boot = .ready ∧ t.mgmt.minimum.toNat < (t.mgmt.version t.mgmt.running).toNat then
        { t with mgmt := { t.mgmt with minVer := some (t.mgmt.version t.mgmt.running) } }
      else t := by
  rw [State.deviceReset, if_neg (by simp [hb])]
  simp only [hb]; rfl

/-- The minimum version after the image of the selected slot has started (R37). -/
def Mgmt.raisedTo (m : Mgmt) (slot : Nat) : Option (BitVec 32) :=
  if m.minimum.toNat < (m.version slot).toNat then some (m.version slot) else m.minVer

theorem deviceReset_ready (s : State) (hb : s.mgmt.boot = .ready) (hv : s.mgmt.verifies s.mgmt.selected = true) :
    s.deviceReset = { s.wiped with mgmt := { s.wiped.mgmt with
      running := s.mgmt.selected, minVer := s.mgmt.raisedTo s.mgmt.selected } } := by
  rw [deviceReset_eq s hb, verifyImage_selected s.wiped _ hv]
  by_cases hraise : s.mgmt.minimum.toNat < (s.mgmt.version s.mgmt.selected).toNat
  · rw [Mgmt.raisedTo, if_pos hraise]; exact if_pos ⟨rfl, hraise⟩
  · rw [Mgmt.raisedTo, if_neg hraise]; exact if_neg fun h => hraise h.2

/-- Settles O40. -/
theorem startUpAndReset : Obligations.StartUpAndReset := by
  unfold Obligations.StartUpAndReset
  intro good raised
  have hgood : ∀ (s : State) (slot : Nat), good s slot ↔ s.mgmt.verifies slot = true := fun s slot => (verifies_iff s.mgmt slot).symm
  refine ⟨fun s => ⟨_, rfl, rfl, rfl, rfl, rfl, rfl, rfl, rfl, rfl, rfl, rfl, rfl, rfl, rfl, rfl⟩, ?_, ?_, ?_, ?_⟩
  · intro s hoff other sel s0 fell key
    have hstart : exec .powerGood s = .next s.powerGood := rfl
    rw [hstart, powerGood_off s hoff, hgood, hgood]
    refine ⟨fun hg => ?_, fun hn hg => ?_, fun hn hn' => ?_⟩
    · rw [verifyImage_selected s.risen _ hg, if_neg (by simp)]; rfl
    · rw [verifyImage_other s.risen _ hn hg, if_neg (by simp)]; rfl
    · rw [verifyImage_none s.risen _ hn hn', if_pos rfl]; rfl
  · intro s i n failed hb hi s1 iod
    have hstart : exec .startUpStep s = .next s.startUpStep := rfl
    rw [hstart, startUpStep_step s i n failed hb hi]
    refine ⟨fun hf hni => ?_, fun hf hio hn hup => ?_, fun hf hio hn hup => ?_, fun hio hbad => ?_, fun hf h0 => ?_,
      fun hf h1 h8 => ?_, fun hf h9 h20 => ?_⟩
    · simp [hf, show ¬ (i = 21 ∨ i = 22) from hni, s1]
    · simp [hf, show i = 21 ∨ i = 22 from hio, hup, show ¬ 6 ≤ n by omega, show n % 7 = n by omega, s1]
    · simp [hf, hup, show ¬ 6 ≤ n by omega, s1]
    · have hbad' : failed = true ∨ (i = 21 ∨ i = 22) ∧ 6 ≤ n := hbad.imp id fun h => ⟨hio, h⟩
      simp only [hbad', ↓reduceIte, stepFails_iod _ i hio]; rfl
    · subst h0; simp [hf, State.stepFails]
    · simp only [hf, true_or, ↓reduceIte, stepFails_sram _ i h1 h8]; rfl
    · simp only [hf, true_or, ↓reduceIte, stepFails_stack _ i h9 h20]; rfl
  · intro s g n failed hb hi k s1 served
    have hstart : exec .coreWake s = .next s.coreWake := rfl
    obtain ⟨hmin, hver, hold⟩ := wakeFails_minVer s (g % 8) failed
    have hserved : (s.wakeFails (g % 8) failed).memoryServed = true ↔ served := by
      rw [wakeFails_served]; exact memoryServed_iff s
    rw [hstart, coreWake_wake s g n failed hb hi]
    refine ⟨fun hg => ?_, fun hg hs => ?_, fun hg hs => ?_⟩
    · simp only [hg, ↓reduceIte]; rfl
    · simp only [hg, ↓reduceIte, hserved.mpr hs, hmin, hver, hold]; rfl
    · simp only [hg, ↓reduceIte, mt hserved.mp hs]; rfl
  · intro s hb hg
    exact ⟨_, congrArg Host.Outcome.next (deviceReset_ready s hb ((hgood s _).mp hg)),
      rfl, rfl, rfl, rfl, rfl, rfl, rfl, rfl, rfl, rfl, rfl, rfl, rfl, rfl, rfl⟩
end Sys2Proof.Machine
end

section
/-! SUPPORT. What the loss of work leaves unchanged: ending a launch, losing a gang or a spawned group, and what the Tailrace does (R76, R86,
R107, R141, R288). -/
namespace Sys2Proof.Machine

/-! ### The frame of work -/

/-- Nothing but groups, teams, launches, contexts, engine operations, transactions and what leaves the device differs. -/
def OnlyWork (s t : State) : Prop :=
  t = { s with
    groups := t.groups, teams := t.teams, recs := t.recs, ctxs := t.ctxs, txns := t.txns, bins := t.bins, copies := t.copies
    nbs := t.nbs, mx := t.mx, arrays := t.arrays, clovar := t.clovar, spawns := t.spawns, parkedSpawns := t.parkedSpawns
    wokenRooms := t.wokenRooms, wokenSpawns := t.wokenSpawns, decs := t.decs, out := t.out, next := t.next }

theorem OnlyWork.refl (s : State) : OnlyWork s s := rfl
theorem OnlyWork.trans (s t u : State) (h : OnlyWork s t) (k : OnlyWork t u) : OnlyWork s u := by
  unfold OnlyWork at *; rw [k, h]
theorem OnlyWork.field {α : Type} {s t : State} (h : OnlyWork s t) (F : State → α)
    (hF : ∀ s t : State, F { s with
      groups := t.groups, teams := t.teams, recs := t.recs, ctxs := t.ctxs, txns := t.txns, bins := t.bins, copies := t.copies
      nbs := t.nbs, mx := t.mx, arrays := t.arrays, clovar := t.clovar, spawns := t.spawns, parkedSpawns := t.parkedSpawns
      wokenRooms := t.wokenRooms, wokenSpawns := t.wokenSpawns, decs := t.decs, out := t.out, next := t.next } = F s := by
      intros; rfl) : F t = F s := by
  rw [h]; exact hF s t
theorem OnlyLanes.work {s t : State} (h : OnlyLanes s t) : OnlyWork s t := by unfold OnlyWork OnlyLanes at *; rw [h]

/-- A fold of steps that only touch work. -/
theorem onlyWork_foldl {α : Type} (f : State → α → State) (l : List α) (hf : ∀ s, ∀ a ∈ l, OnlyWork s (f s a)) (s : State) :
    OnlyWork s (l.foldl f s) := foldl_rel OnlyWork .refl .trans f l hf s

theorem onlyWork_setGroup (s : State) (k : Nat) (g : Group) : OnlyWork s (s.setGroup k g) := rfl
theorem onlyWork_setTeam (s : State) (k : Nat) (t : Team) : OnlyWork s (s.setTeam k t) := rfl
theorem onlyWork_setRec (s : State) (k : Nat) (r : Rec) : OnlyWork s (s.setRec k r) := rfl
theorem onlyWork_setCtx (s : State) (k : Nat) (c : Ctx) : OnlyWork s (s.setCtx k c) := rfl
theorem onlyWork_setArray (s : State) (k : Nat) (a : SxArray) : OnlyWork s (s.setArray k a) := rfl

/-! ### Contexts: calls and messages -/

/-- Nothing but contexts and what leaves the device differs. -/
def OnlyCtxs (s t : State) : Prop := t = { s with ctxs := t.ctxs, out := t.out }
theorem OnlyCtxs.refl (s : State) : OnlyCtxs s s := rfl
theorem OnlyCtxs.trans (s t u : State) (h : OnlyCtxs s t) (k : OnlyCtxs t u) : OnlyCtxs s u := by
  unfold OnlyCtxs at *; rw [k, h]
theorem OnlyCtxs.field {α : Type} {s t : State} (h : OnlyCtxs s t) (F : State → α)
    (hF : ∀ s t : State, F { s with ctxs := t.ctxs, out := t.out } = F s := by intros; rfl) : F t = F s := by
  rw [h]; exact hF s t

theorem onlyCtxs_msix (s : State) (k vec : Nat) : OnlyCtxs s (s.msix k vec) := by
  unfold State.msix
  by_cases h : vec < (if (s.ctx k).func.toNat = 0 then 2048 else 64)
  · rw [if_pos h]; rfl
  · rw [if_neg h]; rfl

theorem onlyCtxs_svcHead (s : State) (k : Nat) : OnlyCtxs s (s.svcHead k) := by
  unfold State.svcHead; split
  · exact onlyCtxs_msix s k _
  · rfl

theorem onlyCtxs_dropCalls (s : State) (gids : List Nat) : OnlyCtxs s (s.dropCalls gids) := by
  unfold State.dropCalls
  refine foldl_rel OnlyCtxs .refl .trans _ _ (fun s p _ => ?_) s
  dsimp only; split
  · rfl
  · split
    · rfl
    · exact .trans _ (s.setCtx p.1 _) _ rfl (onlyCtxs_svcHead _ _)

/-! ### Dropping groups and teams -/

/-- The contexts after the frames and the calls of groups that leave have been given up. -/
def State.freeCalls (s : State) (gids : List Nat) : State :=
  (gids.foldl (fun (s : State) gid =>
    match s.group gid with
    | some g =>
      (match g.frame with
       | some f => s.setCtx (s.rcd g.launch).ctx { s.ctx (s.rcd g.launch).ctx with
           frames := Sparse.set false (s.ctx (s.rcd g.launch).ctx).frames f false }
       | none => s)
    | none => s) s).dropCalls gids

/-- The transaction of a group that leaves keeps the parts that deliver nothing to a lane. -/
def dropTxn (gids : List Nat) (p : Nat × Option Txn) : Option (Nat × Option Txn) :=
  match p.2 with
  | some t =>
    if gids.contains t.gid then
      let ps := t.parts.filter fun q => !q.op.toLane && !q.again
      if ps.isEmpty then none else some (p.1, some { t with parts := ps })
    else some p
  | none => some p

theorem dropTxn_key {gids : List Nat} {p q : Nat × Option Txn} (h : dropTxn gids p = some q) : q.1 = p.1 := by
  unfold dropTxn at h
  split at h
  · dsimp only at h; split at h
    · split at h
      · cases h
      · cases h; rfl
    · cases h; rfl
  · cases h; rfl

theorem onlyCtxs_freeCalls (s : State) (gids : List Nat) : OnlyCtxs s (s.freeCalls gids) := by
  unfold State.freeCalls
  refine .trans _ _ _ (foldl_rel OnlyCtxs .refl .trans _ _ (fun s p _ => ?_) s) (onlyCtxs_dropCalls _ _)
  dsimp only; split
  · split <;> rfl
  · rfl

theorem dropGroups_eq (s : State) (gids : List Nat) :
    s.dropGroups gids = { s.freeCalls gids with
      groups := keep s.groups fun k _ => !gids.contains k
      txns := s.txns.filterMap (dropTxn gids)
      spawns := keep s.spawns fun _ v => match v with | some r => !gids.contains r.gid | none => false
      parkedSpawns := s.parkedSpawns.filter fun p => !gids.contains p.2.1
      wokenSpawns := s.wokenSpawns.filter fun p => !gids.contains p.2.1
      wokenRooms := s.wokenRooms.filter fun p => !gids.contains p.2.1 } := by
  have h := onlyCtxs_freeCalls s gids
  rw [← h.field State.groups, ← h.field State.txns, ← h.field State.spawns, ← h.field State.parkedSpawns,
    ← h.field State.wokenSpawns, ← h.field State.wokenRooms]
  rfl

theorem onlyWork_dropGroups (s : State) (gids : List Nat) : OnlyWork s (s.dropGroups gids) := by
  have h := onlyCtxs_freeCalls s gids
  unfold OnlyWork; rw [dropGroups_eq, h]

theorem onlyWork_dropTeams (s : State) (uids : List Nat) : OnlyWork s (s.dropTeams uids) := by
  unfold State.dropTeams
  exact .trans _ _ _ (onlyWork_dropGroups s _) rfl

@[simp] theorem dropGroups_recs (s : State) (gids : List Nat) : (s.dropGroups gids).recs = s.recs := by
  rw [dropGroups_eq]; exact (onlyCtxs_freeCalls s gids).field State.recs
@[simp] theorem dropGroups_teams (s : State) (gids : List Nat) : (s.dropGroups gids).teams = s.teams := by
  rw [dropGroups_eq]; exact (onlyCtxs_freeCalls s gids).field State.teams
@[simp] theorem dropTeams_recs (s : State) (uids : List Nat) : (s.dropTeams uids).recs = s.recs := by
  unfold State.dropTeams; exact dropGroups_recs s _
theorem dropTeams_teams (s : State) (uids : List Nat) : (s.dropTeams uids).teams = keep s.teams fun k _ => !uids.contains k := by
  unfold State.dropTeams; dsimp only; rw [dropGroups_teams]

/-! ### Ending a launch -/

/-- All that settling an ending launch can do: teams and groups of it leave, and its stamp may become due (R76, R92). -/
theorem settleEnd_cases (s : State) (r : Nat) :
    s.settleEnd r = s ∨ ∃ us gs, s.settleEnd r = (s.dropTeams us).dropGroups gs ∨
      s.settleEnd r = ((s.dropTeams us).dropGroups gs).setRec r { ((s.dropTeams us).dropGroups gs).rcd r with st := .stamped } := by
  unfold State.settleEnd; split
  · exact .inl rfl
  · dsimp only; split
    · exact .inr ⟨_, _, .inr rfl⟩
    · exact .inr ⟨_, _, .inl rfl⟩

theorem onlyWork_settleEnd (s : State) (r : Nat) : OnlyWork s (s.settleEnd r) := by
  have hdrop : ∀ us gs, OnlyWork s ((s.dropTeams us).dropGroups gs) := fun us gs =>
    .trans _ _ _ (onlyWork_dropTeams s us) (onlyWork_dropGroups _ gs)
  rcases settleEnd_cases s r with he | ⟨us, gs, he | he⟩
  · rw [he]; exact .refl s
  · rw [he]; exact hdrop us gs
  · rw [he]; exact .trans _ _ _ (hdrop us gs) rfl

/-- The groups of a launch are to stop at their boundaries. -/
def State.stopGroups (s : State) (r : Nat) : State :=
  (s.groupsOf r).foldl (fun (s : State) p => s.setGroup p.1 { p.2 with preempt := true, idle := false }) s

/-- What an ending launch has with the bins and the engines is given up. -/
def State.giveUp (s : State) (r : Nat) : State :=
  { s with
    bins := keep s.bins fun _ b => !(b.launch == r)
    copies := mapVals none s.copies fun v => v.map fun (c : Copy) => if c.launch = r then { c with launch := 4096 } else c
    nbs := mapVals none s.nbs fun v => v.map fun (c : Nb) => if c.launch = r then { c with launch := 4096 } else c
    clovar := { s.clovar with
      colls := mapVals none s.clovar.colls fun v => v.map fun (c : Coll) => if c.launch = r then { c with launch := 4096 } else c }
    txns := keep s.txns fun _ v =>
      match v with
      | some t => !(t.launch == r && t.loggedRed)
      | none => false }

/-- An ending launch's own state, before its groups and teams leave. -/
def State.endRec (s : State) (r : Nat) (st : EndSt) (detail : Nat) : State :=
  ((s.stopGroups r).giveUp r).setRec r { s.rcd r with
    st := .ending, endSt := st, detail := BitVec.ofNat 8 detail, pending := [], lists := [], held := [], rings := [],
    domains := [], owed := [], hold := false, stageQ := [], rects := [], resv := [], resvFor := none, gone := [], barcl := [] }

/-- A context after launch r has ended: its commands on it are over, and the reports that only r has joined are gone. -/
def State.endCtx (s : State) (r k : Nat) : Ctx :=
  let c := (s.ctx k).popOver r
  { c with reports := keep c.reports fun i v => match v with
      | some rp => !(rp.launch == r) || (s.launchesOn k i).any fun x => x != r
      | none => false }

theorem endLaunch_eq (s : State) (r : Nat) (st : EndSt) (detail : Nat) :
    s.endLaunch r st detail =
      if (s.rcd r).st ≠ .waiting ∧ (s.rcd r).st ≠ .running then s
      else
        let t := (s.endRec r st detail).settleEnd r
        t.setCtx (s.rcd r).ctx (t.endCtx r (s.rcd r).ctx) := rfl

/-- Nothing but groups differs. -/
theorem stopGroups_frame (s : State) (r : Nat) : s.stopGroups r = { s with groups := (s.stopGroups r).groups } := by
  unfold State.stopGroups
  exact foldl_rel (fun s t : State => t = { s with groups := t.groups }) (fun _ => rfl) (fun _ _ _ h k => by rw [k, h]) _ _
    (fun _ _ _ => rfl) s

theorem onlyWork_endRec (s : State) (r : Nat) (st : EndSt) (detail : Nat) : OnlyWork s (s.endRec r st detail) := by
  have hstop : OnlyWork s (s.stopGroups r) := by unfold OnlyWork; rw [stopGroups_frame]
  have hgive : OnlyWork (s.stopGroups r) ((s.stopGroups r).giveUp r) := rfl
  exact .trans _ _ _ (.trans _ _ _ hstop hgive) (onlyWork_setRec _ r _)

theorem onlyWork_endLaunch (s : State) (r : Nat) (st : EndSt) (detail : Nat) : OnlyWork s (s.endLaunch r st detail) := by
  rw [endLaunch_eq]; split
  · rfl
  · dsimp only
    exact .trans _ _ _ (onlyWork_endRec s r st detail) (.trans _ _ _ (onlyWork_settleEnd _ r) (onlyWork_setCtx _ _ _))

/-- Does record r hold a launch that is waiting or running? -/
def State.launched (s : State) (r : Nat) : Prop := (s.rcd r).st = .waiting ∨ (s.rcd r).st = .running

theorem settleEnd_rcd (s : State) (r k : Nat) :
    (s.settleEnd r).rcd k = s.rcd k ∨ (k = r ∧ (s.settleEnd r).rcd k = { s.rcd k with st := .stamped }) := by
  have hdrop : ∀ us gs j, ((s.dropTeams us).dropGroups gs).rcd j = s.rcd j := fun us gs j => by simp [State.rcd]
  rcases settleEnd_cases s r with he | ⟨us, gs, he | he⟩
  · rw [he]; exact .inl rfl
  · rw [he]; exact .inl (hdrop us gs k)
  · rw [he, State.rcd_setRec, hdrop us gs]
    by_cases hk : k = r
    · subst hk; exact .inr ⟨rfl, if_pos rfl⟩
    · exact .inl (if_neg hk ▸ hdrop us gs k)

theorem endRec_rcd (s : State) (r : Nat) (st : EndSt) (detail : Nat) (k : Nat) :
    (k ≠ r → (s.endRec r st detail).rcd k = s.rcd k) ∧ ((s.endRec r st detail).rcd r).st = .ending := by
  have hstop : (s.stopGroups r).recs = s.recs := by rw [stopGroups_frame]
  have hrecs : ((s.stopGroups r).giveUp r).recs = s.recs := hstop
  refine ⟨fun hk => ?_, ?_⟩
  · rw [State.endRec, State.rcd_setRec, if_neg hk, State.rcd, hrecs, State.rcd]
  · rw [State.endRec, State.rcd_setRec_same]

/-- A launch that has been ended is launched no more, and no other launch begins by it (R86, R92). -/
theorem endLaunch_launched (s : State) (r : Nat) (st : EndSt) (detail : Nat) (k : Nat) (h : (s.endLaunch r st detail).launched k) :
    s.launched k ∧ k ≠ r := by
  rw [endLaunch_eq] at h
  split at h
  · next hno =>
    exact ⟨h, fun hk => by subst hk; exact h.elim hno.1 hno.2⟩
  · dsimp only at h
    rw [State.launched, State.rcd, State.setCtx_recs, ← State.rcd] at h
    have hne : k ≠ r := by
      rintro rfl
      have hend := (endRec_rcd s k st detail k).2
      rcases settleEnd_rcd (s.endRec k st detail) k k with he | ⟨_, he⟩ <;> rw [he] at h
      · rw [hend] at h; exact h.elim nofun nofun
      · exact h.elim nofun nofun
    refine ⟨?_, hne⟩
    rcases settleEnd_rcd (s.endRec r st detail) r k with he | ⟨hk, _⟩
    · rw [he, (endRec_rcd s r st detail k).1 hne] at h; exact h
    · exact absurd hk hne

/-- A record that the map does not list is free. -/
theorem rcd_of_unlisted (s : State) (r : Nat) (h : r ∉ s.recs.map (·.1)) : s.rcd r = {} := by
  have : ∀ m : Sparse Rec, r ∉ m.map (·.1) → Sparse.get {} m r = {} := by
    intro m
    induction m with
    | nil => intro _; rfl
    | cons p m ih =>
      intro hr
      simp only [List.map_cons, List.mem_cons, not_or] at hr
      rw [Sparse.get, if_neg hr.1, ih hr.2]
  exact this _ h

theorem foldl_endLaunch_launched (rs : List Nat) (st : EndSt) (detail : Nat) (s : State) (k : Nat)
    (h : (rs.foldl (fun s r => s.endLaunch r st detail) s).launched k) : s.launched k ∧ k ∉ rs := by
  induction rs generalizing s with
  | nil => exact ⟨h, by simp⟩
  | cons r rs ih =>
    obtain ⟨h1, h2⟩ := ih (s.endLaunch r st detail) h
    obtain ⟨h3, h4⟩ := endLaunch_launched s r st detail k h1
    exact ⟨h3, by simp [h4, h2]⟩

/-- Every launch ends, and only work and the mark that no launch is taken differ (R19, R287). -/
def OnlyWorkMgmt (s t : State) : Prop := OnlyWork { s with mgmt := t.mgmt } t

theorem onlyWorkMgmt_millpondDies (s : State) : OnlyWorkMgmt s s.millpondDies := by
  unfold State.millpondDies OnlyWorkMgmt
  have h := onlyWork_foldl (fun (s : State) r => s.endLaunch r .fault 0x19) (s.recs.map (·.1))
    (fun s r _ => onlyWork_endLaunch s r .fault 0x19) s
  dsimp only
  unfold OnlyWork at *
  rw [h]

theorem millpondDies_launched (s : State) (k : Nat) : ¬ s.millpondDies.launched k := by
  intro h
  obtain ⟨h1, h2⟩ := foldl_endLaunch_launched (s.recs.map fun p : Nat × Rec => p.1) .fault 0x19 s k h
  rw [State.launched, rcd_of_unlisted s k h2] at h1
  exact h1.elim nofun nofun

end Sys2Proof.Machine
end

section
/-! SUPPORT. POWER_SAMPLE (R29, R34): the duty of the dies, the log of crossings, the dies that are too hot, and the stop. -/
namespace Sys2Proof.Machine

/-! ### The readings of the sensors -/

theorem lt_foldl_max (n : Nat) (l : List Nat) (a : Nat) : n < l.foldl Nat.max a ↔ n < a ∨ ∃ x ∈ l, n < x := by
  induction l generalizing a with
  | nil => simp
  | cons b l ih =>
    rw [List.foldl_cons, ih, show Nat.max a b = max a b from rfl, lt_max_iff]
    simp [or_assoc]

theorem lt_highest_iff (ts : List Nat) (i m n : Nat) : n < highest ts i m ↔ ∃ j, j < m ∧ n < ts.getD (i + j) 0 := by
  rw [highest, lt_foldl_max]
  constructor
  · rintro (h | ⟨x, hx, hn⟩)
    · exact absurd h (Nat.not_lt_zero n)
    · obtain ⟨j, hj, rfl⟩ := List.getElem_of_mem hx
      simp only [List.length_take, List.length_drop] at hj
      refine ⟨j, by omega, ?_⟩
      rw [List.getElem_take, List.getElem_drop] at hn
      rwa [List.getD_eq_getElem _ _ (by omega)]
  · rintro ⟨j, hj, hn⟩
    have hlen : i + j < ts.length := by
      by_contra hge
      rw [List.getD_eq_default _ _ (by omega)] at hn
      exact absurd hn (Nat.not_lt_zero n)
    rw [List.getD_eq_getElem _ _ hlen] at hn
    refine .inr ⟨ts[i + j], ?_, hn⟩
    rw [← List.getElem_drop (h := by simp; omega)]
    exact List.mem_take_iff_getElem.mpr ⟨j, by simp; omega, rfl⟩

theorem get_sensorsAbove (ts : List Nat) (n i : Nat) (h : i < 56) : Sparse.get false (sensorsAbove ts n) i = decide (n < ts.getD i 0) := by
  have key : ∀ l : List Nat, Sparse.get false ((l.filter fun i => decide (n < ts.getD i 0)).map fun i => (i, true)) i =
      (decide (i ∈ l) && decide (n < ts.getD i 0)) := by
    intro l
    induction l with
    | nil => rfl
    | cons a l ih =>
      by_cases ha : n < ts.getD a 0
      · rw [List.filter_cons_of_pos (by simpa using ha), List.map_cons, Sparse.get, ih]
        by_cases hi : i = a
        · subst hi; simp only [↓reduceIte, List.mem_cons, true_or, decide_true, ha, Bool.and_self]
        · simp [hi]
      · rw [List.filter_cons_of_neg (by simpa using ha), ih]
        by_cases hi : i = a
        · subst hi; simp only [ha, decide_false, Bool.and_false]
        · simp [hi]
  rw [sensorsAbove, key]
  simp [h]

/-! ### Entries of the event log stay for 4,096 entries (R35) -/

/-- At most b entries are logged; nothing else but the dies and the management controller differs, and the device does not stop. -/
structure Noted (b : Nat) (s t : State) : Prop where
  frame : t = { s with dies := t.dies, mgmt := t.mgmt }
  boot : t.mgmt.boot = s.mgmt.boot
  lo : s.mgmt.evprod ≤ t.mgmt.evprod
  hi : t.mgmt.evprod ≤ s.mgmt.evprod + b
  kept : ∀ n, n < s.mgmt.evprod → t.mgmt.evprod ≤ n + 4096 → Sparse.get {} t.mgmt.log n = Sparse.get {} s.mgmt.log n

theorem Noted.refl (s : State) : Noted 0 s s := ⟨rfl, rfl, le_rfl, by simp, fun _ _ _ => rfl⟩
theorem Noted.mono {b c : Nat} {s t : State} (h : Noted b s t) (hb : b ≤ c) : Noted c s t :=
  ⟨h.frame, h.boot, h.lo, by have := h.hi; omega, h.kept⟩
theorem Noted.trans {b c : Nat} {s t u : State} (h : Noted b s t) (k : Noted c t u) : Noted (b + c) s u := by
  obtain ⟨hf, hb, hl, hh, hk⟩ := h
  obtain ⟨kf, kb, kl, kh, kk⟩ := k
  refine ⟨by rw [kf, hf], by rw [kb, hb], by omega, by omega, fun n hn hu => ?_⟩
  rw [kk n (by omega) hu, hk n hn (by omega)]
theorem Noted.field {α : Type} {b : Nat} {s t : State} (h : Noted b s t) (F : State → α)
    (hF : ∀ s t : State, F { s with dies := t.dies, mgmt := t.mgmt } = F s := by intros; rfl) : F t = F s := by
  rw [h.frame]; exact hF s t

theorem noted_setDie (s : State) (k : Nat) (d : Die) : Noted 0 s (s.setDie k d) := ⟨rfl, rfl, le_rfl, by simp, fun _ _ _ => rfl⟩
theorem noted_mbDone (s : State) (code rlen : Nat) : Noted 0 s (s.mbDone code rlen) := ⟨rfl, rfl, le_rfl, by simp [State.mbDone], fun _ _ _ => rfl⟩

/-- An entry of the log as it is written in state s. -/
def State.entry (s : State) (ev : Ev) (sev src : Nat) (args : List Nat) : LogEntry :=
  { time := s.uptime / 2, ev := ev, src := BitVec.ofNat 16 src, sev := sev, args := args }

theorem logEv_log (s : State) (ev : Ev) (sev src : Nat) (args : List Nat) (n : Nat) (h : s.mgmt.evprod < n + 4096) :
    Sparse.get {} (s.logEv ev sev src args).mgmt.log n =
      if n = s.mgmt.evprod then s.entry ev sev src args else Sparse.get {} s.mgmt.log n := by
  simp only [State.logEv, Sparse.get_put, State.entry]
  by_cases hn : n = s.mgmt.evprod
  · rw [if_pos hn, if_pos hn]
  · rw [if_neg hn, if_neg hn]
    split
    · rfl
    · rw [Sparse.get_del, if_neg (by omega)]

theorem noted_logEv (s : State) (ev : Ev) (sev src : Nat) (args : List Nat) : Noted 1 s (s.logEv ev sev src args) := by
  refine ⟨rfl, rfl, by simp [State.logEv], by simp [State.logEv], fun n hn hlate => ?_⟩
  have hprod : (s.logEv ev sev src args).mgmt.evprod = s.mgmt.evprod + 1 := rfl
  rw [logEv_log s ev sev src args n (by omega), if_neg (by omega)]

theorem noted_startFence (s : State) (k cause : Nat) : Noted 1 s (s.startFence k cause) := by
  unfold State.startFence
  dsimp only
  split
  · exact (noted_setDie s k _).mono (by omega)
  · exact (noted_setDie s k _).trans (noted_logEv _ _ _ _ _)
  · split
    · exact ((noted_setDie s k _).trans (noted_logEv _ _ _ _ _)).trans (noted_mbDone _ _ _)
    · exact (noted_setDie s k _).trans (noted_logEv _ _ _ _ _)
  · exact (Noted.refl s).mono (by omega)

theorem noted_foldl {α : Type} (b : Nat) (f : State → α → State) (hf : ∀ s a, Noted b s (f s a)) (l : List α) (s : State) :
    Noted (b * l.length) s (l.foldl f s) := by
  induction l generalizing s with
  | nil => exact Noted.refl s
  | cons a l ih =>
    exact ((hf s a).trans (ih _)).mono (by rw [List.length_cons, Nat.mul_succ]; omega)

/-- The entry e was written to the log between s and t. -/
def Logged (s t : State) (e : LogEntry) : Prop :=
  ∃ n, s.mgmt.evprod ≤ n ∧ n < t.mgmt.evprod ∧ Sparse.get {} t.mgmt.log n = e

theorem Logged.then {s t u : State} {e : LogEntry} {b : Nat} (h : Logged s t e) (k : Noted b t u)
    (hb : u.mgmt.evprod ≤ s.mgmt.evprod + 4096) : Logged s u e := by
  obtain ⟨n, h1, h2, he⟩ := h
  exact ⟨n, h1, lt_of_lt_of_le h2 k.lo, by rw [k.kept n h2 (by omega), he]⟩

theorem Logged.after {s t u : State} {e : LogEntry} {b : Nat} (h : Noted b s t) (k : Logged t u e) : Logged s u e := by
  obtain ⟨n, h1, h2, he⟩ := k
  exact ⟨n, le_trans h.lo h1, h2, he⟩

theorem logged_logEv (s : State) (ev : Ev) (sev src : Nat) (args : List Nat) :
    Logged s (s.logEv ev sev src args) (s.entry ev sev src args) :=
  ⟨s.mgmt.evprod, le_rfl, by simp [State.logEv], by rw [logEv_log s ev sev src args _ (by omega), if_pos rfl]⟩

/-! ### The crossings of one sample -/

/-- Sensor i has crossed a limit since the sample that left `old`: it is logged. -/
def State.logCrossing (s : State) (old : Sparse Bool) (ts : List Nat) (limit i : Nat) : State :=
  if Sparse.get false old i = decide (limit < ts.getD i 0) then s else s.logEv .tempCrossing 1 (sensorSrc i) [i, limit, ts.getD i 0]

theorem noted_logCrossing (s : State) (old : Sparse Bool) (ts : List Nat) (limit i : Nat) : Noted 1 s (s.logCrossing old ts limit i) := by
  unfold State.logCrossing; split
  · exact (Noted.refl s).mono (by omega)
  · exact noted_logEv _ _ _ _ _

/-- Both limits of one sensor (R34). -/
def State.logSensor (old : State) (ts : List Nat) (s : State) (i : Nat) : State :=
  (s.logCrossing old.mgmt.sensorHigh ts 105 i).logCrossing old.mgmt.sensorHot ts 115 i

theorem noted_logSensor (old : State) (ts : List Nat) (s : State) (i : Nat) : Noted 2 s (State.logSensor old ts s i) :=
  (noted_logCrossing s _ ts 105 i).trans (noted_logCrossing _ _ ts 115 i)

theorem logCrossings_eq (s old : State) (ts : List Nat) : s.logCrossings old ts = (List.range 56).foldl (State.logSensor old ts) s := rfl

theorem logged_logSensor (old : State) (ts : List Nat) (s : State) (i limit : Nat) (was : Sparse Bool)
    (hw : (limit = 105 ∧ was = old.mgmt.sensorHigh) ∨ (limit = 115 ∧ was = old.mgmt.sensorHot))
    (hc : Sparse.get false was i ≠ decide (limit < ts.getD i 0)) :
    Logged s (State.logSensor old ts s i) (s.entry .tempCrossing 1 (sensorSrc i) [i, limit, ts.getD i 0]) := by
  have hone : ∀ s : State, Logged s (s.logCrossing was ts limit i) (s.entry .tempCrossing 1 (sensorSrc i) [i, limit, ts.getD i 0]) := by
    intro s
    rw [State.logCrossing, if_neg hc]
    exact logged_logEv _ _ _ _ _
  have hfirst := noted_logCrossing s old.mgmt.sensorHigh ts 105 i
  rcases hw with ⟨rfl, rfl⟩ | ⟨rfl, rfl⟩
  · have hboth : ((s.logCrossing old.mgmt.sensorHigh ts 105 i).logCrossing old.mgmt.sensorHot ts 115 i).mgmt.evprod ≤ s.mgmt.evprod + 2 :=
      (noted_logSensor old ts s i).hi
    exact (hone s).then (noted_logCrossing _ _ ts 115 i) (hboth.trans (by omega))
  · have h := hone (s.logCrossing old.mgmt.sensorHigh ts 105 i)
    rw [State.entry, hfirst.field State.uptime] at h
    exact .after hfirst h

theorem logged_logSensors (old : State) (ts : List Nat) (l : List Nat) (s : State) (i limit : Nat) (was : Sparse Bool) (hi : i ∈ l)
    (hlen : l.length ≤ 56) (hw : (limit = 105 ∧ was = old.mgmt.sensorHigh) ∨ (limit = 115 ∧ was = old.mgmt.sensorHot))
    (hc : Sparse.get false was i ≠ decide (limit < ts.getD i 0)) :
    Logged s (l.foldl (State.logSensor old ts) s) (s.entry .tempCrossing 1 (sensorSrc i) [i, limit, ts.getD i 0]) := by
  induction l generalizing s with
  | nil => cases hi
  | cons a l ih =>
    have hhead := noted_logSensor old ts s a
    have hrest := noted_foldl 2 _ (noted_logSensor old ts) l (State.logSensor old ts s a)
    rw [List.length_cons] at hlen
    rcases List.mem_cons.mp hi with rfl | hi
    · exact (logged_logSensor old ts s i limit was hw hc).then hrest (by have h1 := hhead.hi; have h2 := hrest.hi; rw [List.foldl_cons]; omega)
    · have h := ih (State.logSensor old ts s a) hi (by omega)
      rw [State.entry, hhead.field State.uptime] at h
      exact .after hhead h

/-! ### The dies of one sample -/

/-- What the start of a fence makes of the die (R34, R47). -/
def Die.toFence (d : Die) (cause : Nat) : Die :=
  match d.st with
  | .online => { d with st := .fencing, cause := BitVec.ofNat 4 cause }
  | .ready => { d with st := .fenced, cause := BitVec.ofNat 4 cause }
  | .resetting => { d with st := .fenced, cause := BitVec.ofNat 4 cause, awaiting := false }
  | _ => d

@[simp] theorem die_logEv (s : State) (ev : Ev) (sev src : Nat) (args : List Nat) (j : Nat) : (s.logEv ev sev src args).die j = s.die j := rfl
@[simp] theorem die_mbDone (s : State) (code rlen j : Nat) : (s.mbDone code rlen).die j = s.die j := rfl

theorem startFence_die (s : State) (k cause j : Nat) :
    (s.startFence k cause).die j = if j = k then (s.die k).toFence cause else s.die j := by
  have hsame : ∀ d : Die, s.die k = d → (if j = k then d else s.die j) = s.die j := by
    rintro d rfl; split
    · next h => rw [h]
    · rfl
  unfold State.startFence Die.toFence
  cases hst : (s.die k).st <;> simp only [hst]
  case online => exact State.die_setDie s k j _
  case ready => rw [die_logEv]; exact State.die_setDie s k j _
  case fencing | fenced => exact (hsame _ rfl).symm
  case resetting =>
    split
    · rw [die_mbDone, die_logEv]; exact State.die_setDie s k j _
    · rw [die_logEv]; exact State.die_setDie s k j _

theorem toFence_duty (d : Die) (cause : Nat) : (d.toFence cause).duty = d.duty := by
  unfold Die.toFence; split <;> rfl

/-- A fold that rewrites the dies of a list one after another. -/
theorem foldl_die (f : State → Nat → State) (g : Nat → Die → Die)
    (hf : ∀ s k j, (f s k).die j = if j = k then g k (s.die k) else s.die j) (l : List Nat) (hl : l.Nodup) (s : State) (j : Nat) :
    (l.foldl f s).die j = if j ∈ l then g j (s.die j) else s.die j := by
  induction l generalizing s with
  | nil => simp
  | cons a l ih =>
    obtain ⟨ha, hl⟩ := List.nodup_cons.mp hl
    rw [List.foldl_cons, ih hl, hf]
    by_cases hj : j = a
    · subst hj; simp [ha]
    · simp [hj]

/-- The duty of every die (R29). -/
def State.setDuty (s : State) (d : Nat) : State := (List.range 8).foldl (fun (s : State) k => s.setDie k { s.die k with duty := d }) s

/-- A change of the duty is logged (R29). -/
def State.logDuty (s : State) (d0 d1 : Nat) : State :=
  if d1 < d0 then s.logEv .throttle 1 (evQuad 0) [d1] else if d0 < d1 then s.logEv .release 0 (evQuad 0) [d1] else s

/-- What a sample makes of one die: a die that is too hot a second time is fenced (R34). -/
def State.sampleDie (ts : List Nat) (s : State) (k : Nat) : State :=
  let s := if decide (115 < highest ts (4 * k) 4) && (s.die k).hot then s.startFence k 4 else s
  s.setDie k { s.die k with hot := decide (115 < highest ts (4 * k) 4) }

/-- The same, of the die alone. -/
def Die.sampled (ts : List Nat) (k : Nat) (d : Die) : Die :=
  { (if decide (115 < highest ts (4 * k) 4) && d.hot then d.toFence 4 else d) with hot := decide (115 < highest ts (4 * k) 4) }

/-- What the sample itself leaves with the controller. -/
def State.noteSample (s : State) (now : Nat) (ts : List Nat) : State :=
  { s with mgmt := { s.mgmt with
    powerHigh := decide (3100 < now), millHot := decide (115 < highest ts 52 4)
    sensorHigh := sensorsAbove ts 105, sensorHot := sensorsAbove ts 115 } }

/-- The duty that a sample asks for (R29). -/
def State.dutyAfter (s : State) (avg now : Nat) (ts : List Nat) : Nat :=
  nextDuty (s.die 0).duty avg now (highest ts 0 56) s.mgmt.powerHigh

/-- The state of a sample before the device may stop. -/
def State.sampled (s : State) (avg now : Nat) (ts : List Nat) : State :=
  ((List.range 8).foldl (State.sampleDie ts)
    (((s.setDuty (s.dutyAfter avg now ts)).logDuty (s.die 0).duty (s.dutyAfter avg now ts)).logCrossings s ts)).noteSample now ts

/-- The HBM4E or SRAM sensor that stops the device (R34). -/
def State.stopSensor (s : State) (ts : List Nat) : Option Nat :=
  (List.range 20).find? fun j => decide (115 < ts.getD (32 + j) 0) && Sparse.get false s.mgmt.sensorHot (32 + j)

theorem powerSample_eq (s : State) (avg now : Nat) (ts : List Nat) (h : s.input = .sample avg now ts) :
    s.powerSample =
      match s.stopSensor ts with
      | some j => (s.sampled avg now ts).stopDevice (sensorSrc (32 + j))
      | none => if decide (115 < highest ts 52 4) && s.mgmt.millHot then (s.sampled avg now ts).stopDevice (evQuad 0) else s.sampled avg now ts := by
  rw [State.powerSample, h]; rfl

theorem setDuty_die (s : State) (d k : Nat) : (s.setDuty d).die k = if k < 8 then { s.die k with duty := d } else s.die k := by
  rw [State.setDuty, foldl_die _ (fun _ x => { x with duty := d }) (fun s k j => State.die_setDie _ _ _ _) _ List.nodup_range]
  simp

theorem sampleDie_die (ts : List Nat) (s : State) (k j : Nat) :
    (State.sampleDie ts s k).die j = if j = k then (s.die k).sampled ts k else s.die j := by
  unfold State.sampleDie Die.sampled
  dsimp only
  rw [State.die_setDie]
  by_cases hhot : (decide (115 < highest ts (4 * k) 4) && (s.die k).hot) = true
  · simp only [hhot, ↓reduceIte, startFence_die]
    split <;> rfl
  · simp only [hhot]; rfl

theorem noted_setDuty (s : State) (d : Nat) : Noted 0 s (s.setDuty d) := by
  have := noted_foldl 0 (fun (s : State) k => s.setDie k { s.die k with duty := d }) (fun _ _ => noted_setDie _ _ _) (List.range 8) s
  exact this.mono (by simp)
theorem noted_logDuty (s : State) (d0 d1 : Nat) : Noted 1 s (s.logDuty d0 d1) := by
  unfold State.logDuty; split
  · exact noted_logEv _ _ _ _ _
  · split
    · exact noted_logEv _ _ _ _ _
    · exact (Noted.refl s).mono (by omega)
theorem noted_sampleDie (ts : List Nat) (s : State) (k : Nat) : Noted 1 s (State.sampleDie ts s k) := by
  unfold State.sampleDie
  dsimp only
  have hfence : Noted 1 s (if decide (115 < highest ts (4 * k) 4) && (s.die k).hot then s.startFence k 4 else s) := by
    split
    · exact noted_startFence _ _ _
    · exact (Noted.refl s).mono (by omega)
  exact hfence.trans (noted_setDie _ _ _)
theorem noted_noteSample (s : State) (now : Nat) (ts : List Nat) : Noted 0 s (s.noteSample now ts) :=
  ⟨rfl, rfl, le_rfl, by simp [State.noteSample], fun _ _ _ => rfl⟩
theorem noted_logCrossings (s old : State) (ts : List Nat) : Noted 112 s (s.logCrossings old ts) := by
  rw [logCrossings_eq]; exact noted_foldl 2 _ (noted_logSensor old ts) (List.range 56) s
theorem noted_sampleDies (ts : List Nat) (s : State) : Noted 8 s ((List.range 8).foldl (State.sampleDie ts) s) :=
  noted_foldl 1 _ (noted_sampleDie ts) (List.range 8) s

theorem noted_sampled (s : State) (avg now : Nat) (ts : List Nat) : Noted 121 s (s.sampled avg now ts) :=
  ((((noted_setDuty _ _).trans (noted_logDuty _ _ _)).trans (noted_logCrossings _ _ _)).trans (noted_sampleDies _ _)).trans (noted_noteSample _ _ _)

theorem sampled_die (s : State) (avg now : Nat) (ts : List Nat) (k : Nat) (hk : k < 8) :
    (s.sampled avg now ts).die k =
      ({ s.die k with duty := s.dutyAfter avg now ts } : Die).sampled ts k := by
  have hlog : ∀ (t : State) (d0 d1 : Nat), (t.logDuty d0 d1).die k = t.die k := fun t d0 d1 => by
    unfold State.logDuty; split
    · rfl
    · split <;> rfl
  have hcross : ∀ t : State, (t.logCrossings s ts).die k = t.die k := fun t => by
    have : ∀ (u : State) (old : Sparse Bool) (limit i : Nat), (u.logCrossing old ts limit i).dies = u.dies := fun u old limit i => by
      unfold State.logCrossing; split <;> rfl
    rw [logCrossings_eq, State.die, State.die]
    exact congrArg (Sparse.get {} · k) (foldl_rel (fun a b : State => b.dies = a.dies) (fun _ => rfl) (fun _ _ _ h k => k.trans h) _ _
      (fun a i _ => (this _ _ _ _).trans (this _ _ _ _)) t)
  rw [State.sampled, show ∀ t : State, (t.noteSample now ts).die k = t.die k from fun _ => rfl,
    foldl_die _ (fun k d => d.sampled ts k) (sampleDie_die ts) _ List.nodup_range, if_pos (List.mem_range.mpr hk), hcross, hlog, setDuty_die,
    if_pos hk]

/-- A crossing stands in the log after the sample (R34). -/
theorem sampled_logged (s : State) (avg now : Nat) (ts : List Nat) (i limit : Nat) (was : Sparse Bool) (hi : i < 56)
    (hw : (limit = 105 ∧ was = s.mgmt.sensorHigh) ∨ (limit = 115 ∧ was = s.mgmt.sensorHot))
    (hc : Sparse.get false was i ≠ decide (limit < ts.getD i 0)) :
    Logged s (s.sampled avg now ts) (s.entry .tempCrossing 1 (sensorSrc i) [i, limit, ts.getD i 0]) := by
  have hbefore := (noted_setDuty s (s.dutyAfter avg now ts)).trans (noted_logDuty _ (s.die 0).duty (s.dutyAfter avg now ts))
  have hcross := logged_logSensors s ts (List.range 56) ((s.setDuty (s.dutyAfter avg now ts)).logDuty (s.die 0).duty (s.dutyAfter avg now ts))
    i limit was (List.mem_range.mpr hi) (by simp) hw hc
  rw [← logCrossings_eq, State.entry, hbefore.field State.uptime] at hcross
  have hafter := (noted_sampleDies ts
    (((s.setDuty (s.dutyAfter avg now ts)).logDuty (s.die 0).duty (s.dutyAfter avg now ts)).logCrossings s ts)).trans (noted_noteSample _ now ts)
  exact (Logged.after hbefore hcross).then hafter ((noted_sampled s avg now ts).hi.trans (by omega))

/-! ### The stop -/

/-- A stop of the device: the state before it, one more entry, and what leaves the device (R34). -/
theorem stopDevice_eq (s : State) (src : Nat) :
    s.stopDevice src = { ({ s with mgmt := { s.mgmt with boot := .stopped } } : State).logEv .deviceStopped 3 src [] with
      out := .stopped :: .i3c :: s.out } := rfl

theorem stopDevice_logged {s t : State} {e : LogEntry} (src : Nat) (h : Logged s t e) (hb : t.mgmt.evprod < s.mgmt.evprod + 4096) :
    Logged s (t.stopDevice src) e := by
  obtain ⟨n, h1, h2, he⟩ := h
  refine ⟨n, h1, Nat.lt_succ_of_lt h2, ?_⟩
  rw [stopDevice_eq]
  have := (noted_logEv ({ t with mgmt := { t.mgmt with boot := .stopped } } : State) .deviceStopped 3 src []).kept n h2 (by simp only [State.logEv]; omega)
  exact this.trans he

end Sys2Proof.Machine
end

section
/-! SUPPORT. O41: the budget period, and the errors of bonds, SRAM dies, caches, registers and homes. -/
namespace Sys2Proof.Machine

/-! ### A sector and a line are poisoned (R19, R187) -/

/-- Nothing but the poison, its logs and the event log differs. -/
def OnlyPoison (s t : State) : Prop := t = { s with poison := t.poison, quads := t.quads, mgmt := t.mgmt }
theorem OnlyPoison.refl (s : State) : OnlyPoison s s := rfl
theorem OnlyPoison.trans (s t u : State) (h : OnlyPoison s t) (k : OnlyPoison t u) : OnlyPoison s u := by
  unfold OnlyPoison at *; rw [k, h]
theorem OnlyPoison.field {α : Type} {s t : State} (h : OnlyPoison s t) (F : State → α)
    (hF : ∀ s t : State, F { s with poison := t.poison, quads := t.quads, mgmt := t.mgmt } = F s := by intros; rfl) : F t = F s := by
  rw [h]; exact hF s t
theorem OnlyLogs.poison {s t : State} (h : OnlyLogs s t) : OnlyPoison s t := by unfold OnlyPoison OnlyLogs at *; rw [h]

theorem onlyPoison_poisonSector (s : State) (kind agent index c : Nat) : OnlyPoison s (s.poisonSector kind agent index c) :=
  .trans _ { s with poison := Sparse.set false s.poison (c / 32) true } _ rfl (onlyLogs_logPoison _ _ _ _ _).poison

theorem poisonSector_poison (s : State) (kind agent index c : Nat) :
    (s.poisonSector kind agent index c).poison = Sparse.set false s.poison (c / 32) true :=
  (onlyLogs_logPoison _ _ _ _ _).field State.poison

theorem onlyPoison_poisonLine (s : State) (i line : Nat) : OnlyPoison s (s.poisonLine i line) :=
  foldl_rel OnlyPoison .refl .trans _ _ (fun s _ _ => onlyPoison_poisonSector s _ _ _ _) s

/-- The sectors of a fold of poisoned sectors. -/
theorem foldl_poisonSector_poison (kind agent index : Nat) (c : Nat → Nat) (l : List Nat) (s : State) (k : Nat) :
    Sparse.get false (l.foldl (fun s j => s.poisonSector kind agent index (c j)) s).poison k = true ↔
      Sparse.get false s.poison k = true ∨ ∃ j ∈ l, k = c j / 32 := by
  induction l generalizing s with
  | nil => simp
  | cons a l ih =>
    rw [List.foldl_cons, ih, poisonSector_poison, Sparse.get_set]
    by_cases hk : k = c a / 32 <;> simp [hk]

theorem poisonLine_poison (s : State) (i line k : Nat) :
    Sparse.get false (s.poisonLine i line).poison k = true ↔ Sparse.get false s.poison k = true ∨ k / 4 = line := by
  unfold State.poisonLine
  rw [foldl_poisonSector_poison 6 2 i (fun j => line * 128 + 32 * j)]
  refine or_congr_right ⟨?_, fun hk => ⟨k % 4, by simp; omega, by omega⟩⟩
  rintro ⟨j, hj, rfl⟩
  rw [List.mem_range] at hj
  omega

theorem onlyPoison_poisonLines (i : Nat) (l : List Nat) (s : State) : OnlyPoison s (l.foldl (fun (s : State) a => s.poisonLine i a) s) :=
  foldl_rel OnlyPoison .refl .trans _ _ (fun s a _ => onlyPoison_poisonLine s i a) s

theorem poisonLines_poison (i : Nat) (l : List Nat) (s : State) (k : Nat) :
    Sparse.get false (l.foldl (fun (s : State) a => s.poisonLine i a) s).poison k = true ↔ Sparse.get false s.poison k = true ∨ k / 4 ∈ l := by
  induction l generalizing s with
  | nil => simp
  | cons a l ih => rw [List.foldl_cons, ih, poisonLine_poison, List.mem_cons, or_assoc]

/-! ### An SRAM die leaves service (R19) -/

/-- The state in which the failure of SRAM die i is noted. -/
def State.sramFails (s : State) (i : Nat) : State :=
  { s with sramDown := Sparse.set false s.sramDown i true }.logEv .sramDieFailed 2 (evSrc .sram i (i / 2)) [i]

/-- The lines that only die i held: written since they were last written to HBM4E, and those of its carve-out (R19). -/
def State.lostLines (s : State) (i : Nat) : List Nat :=
  ((s.llcNew.map (·.1)).filter fun l => sramOf l == i && !Config.writtenBack s.free l) ++
  ((List.range ((s.quad (i / 2)).carve.toNat * 2 ^ 17)).map fun j => (carveBase + i / 2 * 0x8000000) / 128 + j).filter fun l => sramOf l == i

/-- Both dies of a quadrant are down when the partner of the failing die is. -/
theorem partner_down (m : Sparse Bool) (i : Nat) (h : i < 8) :
    (Sparse.get false (Sparse.set false m i true) (i / 2 * 2) && Sparse.get false (Sparse.set false m i true) (i / 2 * 2 + 1)) =
      Sparse.get false m (i ^^^ 1) := by
  have hpair : (i = i / 2 * 2 ∧ i ^^^ 1 = i / 2 * 2 + 1) ∨ (i = i / 2 * 2 + 1 ∧ i ^^^ 1 = i / 2 * 2) := by
    clear m; revert i; decide
  rcases hpair with ⟨hi, hx⟩ | ⟨hi, hx⟩
  · rw [hx, Sparse.get_set, if_pos hi.symm, Sparse.get_set, if_neg (by omega), Bool.true_and]
  · rw [hx, Sparse.get_set, if_neg (by omega), Sparse.get_set, if_pos hi.symm, Bool.and_true]

theorem fenceSram_eq (s : State) (i : Nat) (hi : i < 8) (h : Sparse.get false s.sramDown i = false) :
    s.fenceSram i =
      if Sparse.get false s.sramDown (i ^^^ 1) then ((s.sramFails i).logEv .millpondError 3 (evQuad (i / 2)) [i]).millpondDies
      else (s.lostLines i).foldl (fun (s : State) l => s.poisonLine i l) { s.sramFails i with free := s.free + 1 } := by
  rw [State.fenceSram, if_neg (by simp [h]), ← partner_down s.sramDown i hi]
  rfl

theorem mem_lostLines (s : State) (i line : Nat) : line ∈ s.lostLines i ↔
    sramOf line = i ∧ ((∃ j, j < 2 ^ 17 * (s.quad (i / 2)).carve.toNat ∧ line = (carveBase + i / 2 * 2 ^ 27) / 128 + j) ∨
      (line ∈ s.llcNew.map (·.1) ∧ Config.writtenBack s.free line = false)) := by
  have hcarve : (∃ j, j < (s.quad (i / 2)).carve.toNat * 2 ^ 17 ∧ (carveBase + i / 2 * 0x8000000) / 128 + j = line) ↔
      ∃ j, j < 2 ^ 17 * (s.quad (i / 2)).carve.toNat ∧ line = (carveBase + i / 2 * 2 ^ 27) / 128 + j :=
    exists_congr fun j => and_congr (by rw [Nat.mul_comm]) eq_comm
  rw [State.lostLines, List.mem_append, List.mem_filter, List.mem_filter, List.mem_map (l := List.range _)]
  simp only [List.mem_range, hcarve, Bool.and_eq_true, beq_iff_eq, Bool.not_eq_true']
  constructor
  · rintro (⟨hl, hs, hw⟩ | ⟨hc, hs⟩)
    · exact ⟨hs, .inr ⟨hl, hw⟩⟩
    · exact ⟨hs, .inl hc⟩
  · rintro ⟨hs, hc | ⟨hl, hw⟩⟩
    · exact .inr ⟨hc, hs⟩
    · exact .inl ⟨hl, hs, hw⟩

/-! ### The budget period (R43) -/

/-- Without a launch of several stages a budget period only takes up the table that waits (R43, R99). -/
theorem budgetPeriod_unstaged (s : State) (h : ∀ p ∈ s.recs, p.2.st = .running → p.2.blk.nstages ≤ 1) :
    s.budgetPeriod =
      if s.mgmt.activating then ({ s with mgmt := { s.mgmt with active := s.mgmt.checked, activating := false } }).mbDone cOk 0 else s := by
  have hnone : s.recs.filter (fun p => decide (p.2.st = .running) && decide (1 < p.2.blk.nstages)) = [] := by
    rw [List.filter_eq_nil_iff]
    intro p hp hboth
    rw [Bool.and_eq_true, decide_eq_true_eq, decide_eq_true_eq] at hboth
    exact absurd (h p hp hboth.1) (by omega)
  unfold State.budgetPeriod
  cases hact : s.mgmt.activating with
  | true => simp only [hact, ↓reduceIte, State.mbDone, hnone]; rfl
  | false => simp only [hact, Bool.false_eq_true, ↓reduceIte, hnone]; rfl

/-! ### Errors (R287) -/

theorem takeTrap_outside (s : State) (gid l code acc : Nat) (addr : DWord) (g : Group) (hg : s.group gid = some g)
    (hl : (g.lane l).handler = false) : s.takeTrap gid l code acc addr = s.setGroup gid (g.setLane l ((g.lane l).trap code acc addr)) := by
  simp [State.takeTrap, hg, hl]

/-- The end of the Millpond: no launch is left, and memory is as it was (R287). -/
theorem millpondDies_ends (s : State) : s.millpondDies.mgmt.noLaunch = true ∧ s.millpondDies.mem = s.mem ∧
    ∀ r, (s.millpondDies.rcd r).st ≠ .running ∧ (s.millpondDies.rcd r).st ≠ .waiting :=
  ⟨rfl, OnlyWork.field (onlyWorkMgmt_millpondDies s) State.mem,
    fun r => ⟨fun h => millpondDies_launched s r (.inr h), fun h => millpondDies_launched s r (.inl h)⟩⟩

/-! ### The statement -/

/-- What one sample makes of the duty (R29). -/
theorem nextDuty_cases (d avg now hi : Nat) (high : Bool) :
    let fast := high = true ∧ 3100 < now ∧ 8 < d
    (fast → nextDuty d avg now hi high = 8) ∧
    (¬ fast → 2600 < avg ∨ 105 < hi → nextDuty d avg now hi high = max (d - 1) 4) ∧
    (¬ fast → avg < 2500 → ¬ 100 < hi → nextDuty d avg now hi high = min (d + 1) 16) ∧
    (¬ fast → ¬ (2600 < avg ∨ 105 < hi) → ¬ (avg < 2500 ∧ ¬ 100 < hi) → nextDuty d avg now hi high = d) := by
  intro fast
  unfold nextDuty
  refine ⟨fun hf => if_pos hf, fun hf hc => ?_, fun hf ha hh => ?_, fun hf hc hr => ?_⟩
  · rw [if_neg hf, if_pos hc]
  · rw [if_neg hf, if_neg (by omega), if_pos (by omega)]
  · rw [if_neg hf, if_neg hc, if_neg (by omega)]

/-- What one sample makes of a die's state (R34). -/
theorem sampled_st (ts : List Nat) (k : Nat) (d : Die) :
    (d.st = .online → 115 < highest ts (4 * k) 4 → d.hot = true → (d.sampled ts k).st = .fencing ∧ (d.sampled ts k).cause = 4) ∧
    (¬ (115 < highest ts (4 * k) 4 ∧ d.hot = true) → (d.sampled ts k).st = d.st ∧ (d.sampled ts k).cause = d.cause) ∧
    (d.sampled ts k).hot = decide (115 < highest ts (4 * k) 4) ∧ (d.sampled ts k).duty = d.duty := by
  refine ⟨fun hst hhot hold => ?_, fun hno => ?_, rfl, ?_⟩
  · simp [Die.sampled, hhot, hold, Die.toFence, hst]
  · have hno' : (decide (115 < highest ts (4 * k) 4) && d.hot) = false := by simpa using hno
    simp [Die.sampled, hno']
  · unfold Die.sampled; dsimp only
    split
    · exact toFence_duty d 4
    · rfl

/-- The device stops on a sample when the Millpond or a memory sensor is too hot a second time (R34). -/
theorem powerSample_stop (s : State) (avg now : Nat) (ts : List Nat) (h : s.input = .sample avg now ts) :
    let mill := 115 < highest ts 52 4 ∧ s.mgmt.millHot = true
    let mem := ∃ j, j < 20 ∧ 115 < ts.getD (32 + j) 0 ∧ Sparse.get false s.mgmt.sensorHot (32 + j) = true
    (mill ∨ mem → ∃ src, s.powerSample = (s.sampled avg now ts).stopDevice src) ∧ (¬ (mill ∨ mem) → s.powerSample = s.sampled avg now ts) := by
  intro mill mem
  have hmem : (s.stopSensor ts).isSome = true ↔ mem := by simp [State.stopSensor, mem]
  rw [powerSample_eq s avg now ts h]
  cases hs : s.stopSensor ts with
  | some j =>
    have : mem := hmem.mp (by rw [hs]; rfl)
    exact ⟨fun _ => ⟨_, rfl⟩, fun hno => absurd (.inr this) hno⟩
  | none =>
    have hno : ¬ mem := fun hm => by rw [← hmem, hs] at hm; cases hm
    by_cases hm : mill
    · refine ⟨fun _ => ⟨evQuad 0, if_pos (by simpa [mill] using hm)⟩, fun hn => absurd (.inl hm) hn⟩
    · exact ⟨fun ho => absurd ho (by simp [hm, hno]), fun _ => if_neg (by simpa [mill] using hm)⟩

/-- What the sample leaves with the controller and the dies, whether or not the device then stops. -/
structure Samples (s t : State) (avg now : Nat) (ts : List Nat) : Prop where
  die : ∀ k, k < 8 → t.die k = ({ s.die k with duty := s.dutyAfter avg now ts } : Die).sampled ts k
  powerHigh : t.mgmt.powerHigh = decide (3100 < now)
  millHot : t.mgmt.millHot = decide (115 < highest ts 52 4)
  sensorHigh : t.mgmt.sensorHigh = sensorsAbove ts 105
  sensorHot : t.mgmt.sensorHot = sensorsAbove ts 115
  work : t.mem = s.mem ∧ t.recs = s.recs ∧ t.groups = s.groups ∧ t.ctxs = s.ctxs

theorem samples_sampled (s : State) (avg now : Nat) (ts : List Nat) : Samples s (s.sampled avg now ts) avg now ts := by
  have hn := noted_sampled s avg now ts
  have hnote : ∀ t : State, (t.noteSample now ts).mgmt.powerHigh = decide (3100 < now) ∧
      (t.noteSample now ts).mgmt.millHot = decide (115 < highest ts 52 4) ∧ (t.noteSample now ts).mgmt.sensorHigh = sensorsAbove ts 105 ∧
      (t.noteSample now ts).mgmt.sensorHot = sensorsAbove ts 115 := fun _ => ⟨rfl, rfl, rfl, rfl⟩
  obtain ⟨h1, h2, h3, h4⟩ := hnote _
  exact ⟨sampled_die s avg now ts, h1, h2, h3, h4, hn.field State.mem, hn.field State.recs, hn.field State.groups, hn.field State.ctxs⟩

theorem Samples.stopDevice {s t : State} {avg now : Nat} {ts : List Nat} (h : Samples s t avg now ts) (src : Nat) :
    Samples s (t.stopDevice src) avg now ts :=
  ⟨h.die, h.powerHigh, h.millHot, h.sensorHigh, h.sensorHot, h.work⟩

/-- A power sample, with what it logs (R29, R34). -/
theorem powerSample_samples (s : State) (avg now : Nat) (ts : List Nat) (h : s.input = .sample avg now ts) :
    Samples s s.powerSample avg now ts ∧ ∀ e, Logged s (s.sampled avg now ts) e → Logged s s.powerSample e := by
  obtain ⟨hstop, hgo⟩ := powerSample_stop s avg now ts h
  by_cases hs : (115 < highest ts 52 4 ∧ s.mgmt.millHot = true) ∨
      ∃ j, j < 20 ∧ 115 < ts.getD (32 + j) 0 ∧ Sparse.get false s.mgmt.sensorHot (32 + j) = true
  · obtain ⟨src, he⟩ := hstop hs
    rw [he]
    exact ⟨(samples_sampled s avg now ts).stopDevice src,
      fun e hl => stopDevice_logged src hl (by have := (noted_sampled s avg now ts).hi; omega)⟩
  · rw [hgo hs]; exact ⟨samples_sampled s avg now ts, fun _ h => h⟩

/-- The source that the log names for an error of a cache (R35, R287). -/
def cacheSrc (die : Option Nat) (place : Nat) : Nat :=
  match die with
  | some k => evSrc .compute (k % 8) (place % 24)
  | none => evQuad (place % 4)

theorem uncorrectable_cache (s : State) (die : Option Nat) (place : Nat) (h : s.input = .error (.cache die place)) :
    s.uncorrectable = s.dropEntries.logEv .cacheError 1 (cacheSrc die place) [] := by
  rw [State.uncorrectable, h]; cases die <;> rfl

/-- Settles O41. -/
theorem samplesAndErrors : Obligations.SamplesAndErrors := by
  unfold Obligations.SamplesAndErrors
  refine ⟨fun s avg now ts hin _ => ⟨s.powerSample, rfl, ?_⟩, fun s hrecs => ?_, fun s k hk hin hon => ?_, fun s i hi hin hup => ?_, fun s => ?_⟩
  · intro d above hot mill mem
    have hhot : ∀ i n, hot i n = decide (115 < highest ts i n) := fun i n => decide_eq_decide.mpr (lt_highest_iff ts i n 115).symm
    have habove : ∀ n, above n ↔ n < highest ts 0 56 := fun n => by rw [lt_highest_iff]; simp only [Nat.zero_add]; rfl
    have hmill : mill ↔ 115 < highest ts 52 4 ∧ s.mgmt.millHot = true := by simp only [mill, hhot, decide_eq_true_eq]
    obtain ⟨hstop, hgo⟩ := powerSample_stop s avg now ts hin
    rw [← hmill] at hstop hgo
    have hn := noted_sampled s avg now ts
    obtain ⟨hsam, hlog⟩ := powerSample_samples s avg now ts hin
    refine ⟨fun k hk => ?_, hsam.powerHigh, ?_, fun i hi => ?_, fun i hi limit old hw hc => ?_, fun hs => ?_, fun hs => ?_, hsam.work⟩
    · rw [hsam.die k hk]
      obtain ⟨hf, hsame, hh, hduty⟩ := sampled_st ts k { s.die k with duty := s.dutyAfter avg now ts }
      rw [hhot, hduty, hh, decide_eq_true_eq, habove, habove]
      obtain ⟨h1, h2, h3, h4⟩ := nextDuty_cases d avg now (highest ts 0 56) s.mgmt.powerHigh
      exact ⟨h1, h2, h3, h4, hf, hsame, rfl⟩
    · rw [hsam.millHot, hhot]
    · rw [hsam.sensorHigh, hsam.sensorHot]; exact ⟨get_sensorsAbove ts 105 i hi, get_sensorsAbove ts 115 i hi⟩
    · exact hlog _ (sampled_logged s avg now ts i limit old hi hw hc)
    · obtain ⟨src, he⟩ := hstop hs
      rw [he, stopDevice_eq, hn.field State.out]; exact ⟨rfl, rfl⟩
    · rw [hgo hs]; exact ⟨hn.boot, hn.field State.out⟩
  · have hstep : exec .budgetPeriod s = .next s.budgetPeriod := rfl
    rw [hstep, budgetPeriod_unstaged s hrecs]
    exact ⟨fun ha => by rw [if_pos ha]; rfl, fun ha => by rw [if_neg (by simp [ha])]⟩
  · have hstep : exec .bondFlitError s = .next s.bondError := rfl
    rw [hstep, State.bondError, hin]
    simp only [if_pos hk, State.startFence, die_logEv, hon]; rfl
  · have hstep : exec .bondFlitError s = .next (s.fenceSram i) := by
      have : exec .bondFlitError s = .next s.bondError := rfl
      rw [this, State.bondError, hin]; simp only [if_pos hi]
    refine ⟨_, hstep, ?_⟩
    rw [fenceSram_eq s i hi hup]
    cases hp : Sparse.get false s.sramDown (i ^^^ 1) with
    | true =>
      obtain ⟨hno, hmem, hend⟩ := millpondDies_ends ((s.sramFails i).logEv .millpondError 3 (evQuad (i / 2)) [i])
      exact ⟨OnlyWork.field (onlyWorkMgmt_millpondDies _) State.sramDown, hmem, fun _ => ⟨hno, hend⟩, nofun⟩
    | false =>
      have hl := onlyPoison_poisonLines i (s.lostLines i) { s.sramFails i with free := s.free + 1 }
      refine ⟨hl.field State.sramDown, hl.field State.mem, nofun, fun _ => ⟨hl.field State.recs, hl.field State.groups, fun line o ho => ?_⟩⟩
      have hline : (4 * line + o) / 4 = line := by omega
      rw [if_neg (by simp), poisonLines_poison, hline, mem_lostLines]
      rfl
  · have hstep : exec .uncorrectableError s = .next s.uncorrectable := rfl
    rw [hstep]
    refine ⟨fun die place hin => ⟨s.dropEntries, ?_⟩, fun loc hin => ?_, fun gid l g hin hg hr hst hh => ?_, fun gid g hin hg hr => ?_,
      fun q hin => ⟨_, rfl, ?_⟩, fun loc kind agent index hin => ⟨_, rfl, ?_⟩⟩
    · refine ⟨congrArg Host.Outcome.next (uncorrectable_cache s die place hin), rfl, ?_⟩
      exact ⟨fun p hp => List.mem_of_mem_filter hp, fun p hp => List.mem_of_mem_filter hp, fun p hp => List.mem_of_mem_filter hp,
        fun p hp => List.mem_of_mem_filter hp, fun p hp => List.mem_of_mem_filter hp⟩
    · rw [State.uncorrectable, hin]
    · rw [State.uncorrectable, hin]
      simp only [hg, hst, hr, decide_true, Bool.and_self, ↓reduceIte]
      rw [takeTrap_outside s gid l 0x39 0 0 g hg hh]
    · rw [State.uncorrectable, hin]; simp only [hg, hr, ↓reduceIte]
    · rw [State.uncorrectable, hin]; exact millpondDies_ends _
    · rw [State.uncorrectable, hin]
      have hp := onlyPoison_poisonSector s kind agent index loc
      exact ⟨poisonSector_poison s kind agent index loc, hp.field State.mem, hp.field State.recs⟩

end Sys2Proof.Machine
end

section
/-! SUPPORT. Maps as lists of their entries, and what leaves the device with the work of a die: groups and teams are never placed and
transactions never begin while a die is fenced (R17, R141, R288). -/

namespace Sys2Proof.Sparse

variable {α : Type}

theorem mem_of_get_ne {d : α} {m : Sparse α} {k : Nat} (h : get d m k ≠ d) : (k, get d m k) ∈ m := by
  induction m with
  | nil => exact absurd rfl h
  | cons p m ih =>
    obtain ⟨k', v⟩ := p
    by_cases hk : k = k'
    · subst hk; simp [get]
    · rw [get, if_neg hk] at h ⊢
      exact List.mem_cons_of_mem _ (ih h)

theorem get_of_unlisted {d : α} {m : Sparse α} {k : Nat} (h : ∀ v, (k, v) ∉ m) : get d m k = d := by
  by_contra hne
  exact h _ (mem_of_get_ne hne)

theorem lt_of_mem_above [DecidableEq α] {d : α} {m : Sparse α} {b : Nat} (h : above d b m) {p : Nat × α} (hp : p ∈ m) : b ≤ p.1 := by
  induction m generalizing b with
  | nil => cases hp
  | cons q m ih =>
    obtain ⟨h1, _, h3⟩ := h
    rcases List.mem_cons.mp hp with rfl | hp
    · exact h1
    · have := ih h3 hp; omega

theorem get_of_mem_above [DecidableEq α] {d : α} {m : Sparse α} {b : Nat} (h : above d b m) {k : Nat} {v : α} (hp : (k, v) ∈ m) :
    get d m k = v := by
  induction m generalizing b with
  | nil => cases hp
  | cons q m ih =>
    obtain ⟨k', v'⟩ := q
    obtain ⟨_, _, h3⟩ := h
    rcases List.mem_cons.mp hp with he | hp
    · cases he; simp [get]
    · have := lt_of_mem_above h3 hp
      rw [get, if_neg (by simp only at this; omega)]
      exact ih h3 hp

theorem get_of_mem [DecidableEq α] {d : α} {m : Sparse α} (h : wf d m = true) {k : Nat} {v : α} (hp : (k, v) ∈ m) : get d m k = v :=
  get_of_mem_above ((wf_iff_above d m).mp h) hp

theorem nodup_keys [DecidableEq α] {d : α} {m : Sparse α} (h : wf d m = true) : (m.map (·.1)).Nodup := by
  rw [wf_iff_above] at h
  have key : ∀ (m : Sparse α) (b : Nat), above d b m → (m.map (·.1)).Nodup := by
    intro m
    induction m with
    | nil => intro _ _; exact List.nodup_nil
    | cons p m ih =>
      intro b h
      obtain ⟨h1, _, h3⟩ := h
      refine List.nodup_cons.mpr ⟨fun hm => ?_, ih _ h3⟩
      obtain ⟨q, hq, he⟩ := List.mem_map.mp hm
      have := lt_of_mem_above h3 hq
      simp only at he
      omega
  exact key m 0 h

theorem above_filter [DecidableEq α] {d : α} {m : Sparse α} {b : Nat} (h : above d b m) (f : Nat × α → Bool) : above d b (m.filter f) := by
  induction m generalizing b with
  | nil => trivial
  | cons p m ih =>
    obtain ⟨h1, h2, h3⟩ := h
    by_cases hp : f p = true
    · rw [List.filter_cons_of_pos hp]; exact ⟨h1, h2, ih h3⟩
    · rw [List.filter_cons_of_neg hp]; exact above_mono d (by omega) (ih h3)

theorem mem_del {m : Sparse α} {k : Nat} {p : Nat × α} (h : p ∈ del m k) : p ∈ m := List.mem_of_mem_filter h

theorem mem_ins {k : Nat} {v : α} {m : Sparse α} {p : Nat × α} (h : p ∈ ins k v m) : p = (k, v) ∨ p ∈ m := by
  induction m with
  | nil => simpa [ins] using h
  | cons q m ih =>
    rw [ins] at h
    split at h
    · exact List.mem_cons.mp h
    · rcases List.mem_cons.mp h with rfl | h
      · exact .inr (by simp)
      · exact (ih h).imp id fun h => List.mem_cons_of_mem _ h

/-- The entries of a map after a write: the new one, and old ones. -/
theorem mem_set [DecidableEq α] {d v : α} {m : Sparse α} {k : Nat} {p : Nat × α} (h : p ∈ set d m k v) :
    (p = (k, v) ∧ v ≠ d) ∨ p ∈ m := by
  unfold set at h
  split at h
  · exact .inr (mem_del h)
  · next hv => exact (mem_ins h).imp (fun h => ⟨h, hv⟩) mem_del

end Sys2Proof.Sparse

namespace Sys2Proof.Machine

/-! ### Filtered and rewritten maps -/

theorem wf_keep {α : Type} [DecidableEq α] {d : α} {m : Sparse α} (f : Nat → α → Bool) (h : Sparse.wf d m = true) :
    Sparse.wf d (keep m f) = true := by
  rw [Sparse.wf_iff_above] at h ⊢
  exact Sparse.above_filter h _

/-- A map from which entries go by their keys alone. -/
theorem get_keep_key {α : Type} (d : α) (m : Sparse α) (f : Nat → Bool) (k : Nat) :
    Sparse.get d (keep m fun k _ => f k) k = if f k then Sparse.get d m k else d := by
  rw [show (keep m fun k _ => f k) = m.filter fun p => f p.1 from rfl]
  induction m with
  | nil => simp [Sparse.get]
  | cons p m ih =>
    obtain ⟨k', v⟩ := p
    rw [List.filter_cons]
    by_cases hk : k = k'
    · subst hk
      by_cases hf : f k = true
      · simp [Sparse.get, hf]
      · simp [ih, hf]
    · by_cases hf : f k' = true
      · simp [Sparse.get, hf, hk, ih]
      · simp [Sparse.get, hf, hk, ih]

/-- A map whose values are rewritten by a function that keeps the unlisted one. -/
theorem get_mapVals {α : Type} [DecidableEq α] {d : α} {m : Sparse α} (f : α → α) (hd : f d = d) (h : Sparse.wf d m = true) (k : Nat) :
    Sparse.get d (mapVals d m f) k = f (Sparse.get d m k) := by
  rw [Sparse.wf_iff_above] at h
  have key : ∀ (m : Sparse α) (b : Nat), Sparse.above d b m → Sparse.get d (mapVals d m f) k = f (Sparse.get d m k) := by
    intro m
    induction m with
    | nil => intro _ _; exact hd.symm
    | cons p m ih =>
      obtain ⟨k', v⟩ := p
      intro b hb
      obtain ⟨_, _, hm⟩ := hb
      have hrest := ih (k' + 1) hm
      unfold mapVals at hrest ⊢
      rw [List.map_cons]
      by_cases hk : k = k'
      · subst hk
        rw [Sparse.get, if_pos rfl]
        by_cases hv : f v = d
        · have hout : Sparse.get d m k = d := Sparse.get_of_unlisted fun v hv => by
            have := Sparse.lt_of_mem_above hm hv; simp only at this; omega
          rw [List.filter_cons_of_neg (by simp [hv]), hrest, hout, hd, hv]
        · rw [List.filter_cons_of_pos (by simp [hv]), Sparse.get, if_pos rfl]
      · rw [Sparse.get, if_neg hk]
        by_cases hv : f v = d
        · rw [List.filter_cons_of_neg (by simp [hv]), hrest]
        · rw [List.filter_cons_of_pos (by simp [hv]), Sparse.get, if_neg hk, hrest]
  exact key m 0 h

theorem mem_listed {α : Type} {m : Sparse (Option α)} {k : Nat} {v : α} : (k, v) ∈ listed m ↔ (k, some v) ∈ m := by
  unfold listed
  rw [List.mem_filterMap]
  constructor
  · rintro ⟨⟨k', o⟩, hp, he⟩
    cases o with
    | none => cases he
    | some a => cases he; exact hp
  · intro h; exact ⟨_, h, rfl⟩

theorem mem_listed_get {α : Type} [DecidableEq α] {m : Sparse (Option α)} (h : Sparse.wf none m = true) {k : Nat} {v : α} :
    (k, v) ∈ listed m ↔ Sparse.get none m k = some v := by
  rw [mem_listed]
  refine ⟨fun hp => Sparse.get_of_mem h hp, fun hg => ?_⟩
  have := Sparse.mem_of_get_ne (d := none) (m := m) (k := k) (by rw [hg]; exact Option.some_ne_none v)
  rwa [hg] at this

theorem mem_listed_of_get {α : Type} {m : Sparse (Option α)} {k : Nat} {v : α} (hg : Sparse.get none m k = some v) : (k, v) ∈ listed m := by
  have := Sparse.mem_of_get_ne (d := none) (m := m) (k := k) (by rw [hg]; exact Option.some_ne_none v)
  rw [hg] at this
  exact mem_listed.mpr this

theorem nodup_listed {α : Type} [DecidableEq α] {m : Sparse (Option α)} (h : Sparse.wf none m = true) : ((listed m).map (·.1)).Nodup := by
  have hsub : ((listed m).map (·.1)).Sublist (m.map (·.1)) := by
    clear h
    induction m with
    | nil => exact List.Sublist.refl _
    | cons p m ih =>
      obtain ⟨k, o⟩ := p
      cases o with
      | none => exact ih.cons _
      | some a => exact ih.cons_cons _
  exact hsub.nodup (Sparse.nodup_keys h)

/-! ### Work only leaves -/

theorem OnlyWork.mgmt {s t : State} (h : OnlyWork s t) : OnlyWorkMgmt s t := by
  unfold OnlyWorkMgmt OnlyWork at *
  rw [h]

/-- Teams and transactions only leave, and nothing but work and the management controller differs. -/
structure Leaves (s t : State) : Prop where
  frame : OnlyWorkMgmt s t
  wf : Sparse.wf none s.teams = true → Sparse.wf none t.teams = true
  teams : ∀ u b, (u, some b) ∈ t.teams → ∃ a, (u, some a) ∈ s.teams ∧ b.core = a.core ∧ b.st = a.st
  txns : ∀ id v, (id, v) ∈ t.txns → ∃ w, (id, w) ∈ s.txns

theorem Leaves.refl (s : State) : Leaves s s := ⟨rfl, id, fun _ b h => ⟨b, h, rfl, rfl⟩, fun _ v h => ⟨v, h⟩⟩
theorem Leaves.trans (s t u : State) (h : Leaves s t) (k : Leaves t u) : Leaves s u := by
  refine ⟨?_, fun hw => k.wf (h.wf hw), fun i c hc => ?_, fun id v hv => ?_⟩
  · have h1 := h.frame
    have h2 := k.frame
    unfold OnlyWorkMgmt OnlyWork at *
    rw [h2, h1]
  · obtain ⟨b, hb, h1, h2⟩ := k.teams i c hc
    obtain ⟨a, ha, h3, h4⟩ := h.teams i b hb
    exact ⟨a, ha, h1.trans h3, h2.trans h4⟩
  · obtain ⟨w, hw⟩ := k.txns id v hv
    exact h.txns id w hw
theorem Leaves.field {α : Type} {s t : State} (h : Leaves s t) (F : State → α)
    (hF : ∀ s t : State, F { s with
      mgmt := t.mgmt
      groups := t.groups, teams := t.teams, recs := t.recs, ctxs := t.ctxs, txns := t.txns, bins := t.bins, copies := t.copies
      nbs := t.nbs, mx := t.mx, arrays := t.arrays, clovar := t.clovar, spawns := t.spawns, parkedSpawns := t.parkedSpawns
      wokenRooms := t.wokenRooms, wokenSpawns := t.wokenSpawns, decs := t.decs, out := t.out, next := t.next } = F s := by
      intros; rfl) : F t = F s := by
  have hw := h.frame
  unfold OnlyWorkMgmt OnlyWork at hw
  rw [hw]; exact hF s t

/-- A step that touches neither teams nor transactions. -/
theorem Leaves.of_work {s t : State} (hf : OnlyWork s t) (ht : t.teams = s.teams) (hx : t.txns = s.txns) : Leaves s t := by
  exact ⟨hf.mgmt, fun hw => by rwa [ht], fun u b hb => ⟨b, by rwa [← ht], rfl, rfl⟩, fun id v hv => ⟨v, by rwa [← hx]⟩⟩
theorem Leaves.foldl {α : Type} (f : State → α → State) (l : List α) (hf : ∀ s, ∀ a ∈ l, Leaves s (f s a)) (s : State) :
    Leaves s (l.foldl f s) := foldl_rel Leaves .refl .trans f l hf s

theorem leaves_logEv (s : State) (ev : Ev) (sev src : Nat) (args : List Nat) : Leaves s (s.logEv ev sev src args) :=
  ⟨rfl, id, fun _ b h => ⟨b, h, rfl, rfl⟩, fun _ v h => ⟨v, h⟩⟩
theorem leaves_setGroup (s : State) (k : Nat) (g : Group) : Leaves s (s.setGroup k g) := .of_work rfl rfl rfl
theorem leaves_setRec (s : State) (k : Nat) (r : Rec) : Leaves s (s.setRec k r) := .of_work rfl rfl rfl
theorem leaves_setCtx (s : State) (k : Nat) (c : Ctx) : Leaves s (s.setCtx k c) := .of_work rfl rfl rfl
theorem leaves_setArray (s : State) (k : Nat) (a : SxArray) : Leaves s (s.setArray k a) := .of_work rfl rfl rfl

/-- A team is rewritten where it is. -/
theorem leaves_setTeam (s : State) (u : Nat) (a b : Team) (h : s.team u = some a) (hc : b.core = a.core) (hs : b.st = a.st) :
    Leaves s (s.setTeam u b) := by
  refine ⟨rfl, fun hw => Sparse.wf_set none (some b) s.teams u hw, fun i c hi => ?_, fun _ v h => ⟨v, h⟩⟩
  rcases Sparse.mem_set (show (i, some c) ∈ Sparse.set none s.teams u (some b) from hi) with ⟨he, -⟩ | hi
  · cases he
    exact ⟨a, mem_listed.mp (mem_listed_of_get h), hc, hs⟩
  · exact ⟨c, hi, rfl, rfl⟩

/-- A transaction is rewritten or goes. -/
theorem leaves_setTxn (s : State) (id : Nat) (a : Txn) (v : Option Txn) (h : s.txn id = some a) : Leaves s (s.setTxn id v) := by
  refine ⟨rfl, fun hw => hw, fun _ b h => ⟨b, h, rfl, rfl⟩, fun i w hi => ?_⟩
  rcases Sparse.mem_set (show (i, w) ∈ Sparse.set none s.txns id v from hi) with ⟨he, -⟩ | hi
  · cases he
    exact ⟨some a, mem_listed.mp (mem_listed_of_get h)⟩
  · exact ⟨w, hi⟩

theorem leaves_dropGroups (s : State) (gids : List Nat) : Leaves s (s.dropGroups gids) := by
  have hteams := dropGroups_teams s gids
  refine ⟨?_, fun hw => by rwa [hteams], fun u b hb => ⟨b, by rwa [← hteams], rfl, rfl⟩, fun id v hv => ?_⟩
  · exact (onlyWork_dropGroups s gids).mgmt
  · have htxns : (s.dropGroups gids).txns = s.txns.filterMap (dropTxn gids) := by rw [dropGroups_eq]
    rw [htxns] at hv
    obtain ⟨p, hp, he⟩ := List.mem_filterMap.mp hv
    have hkey := dropTxn_key he
    exact ⟨p.2, by simp only at hkey; rw [hkey]; exact hp⟩

theorem leaves_dropTeams (s : State) (uids : List Nat) : Leaves s (s.dropTeams uids) := by
  refine ⟨(onlyWork_dropTeams s uids).mgmt, fun hw => ?_, fun u b hb => ?_, fun id v hv => ?_⟩
  · rw [dropTeams_teams]; exact wf_keep _ hw
  · rw [dropTeams_teams] at hb; exact ⟨b, List.mem_of_mem_filter hb, rfl, rfl⟩
  · unfold State.dropTeams at hv
    exact (leaves_dropGroups s _).txns id v hv

theorem leaves_settleEnd (s : State) (r : Nat) : Leaves s (s.settleEnd r) := by
  have hdrop : ∀ us gs, Leaves s ((s.dropTeams us).dropGroups gs) := fun us gs =>
    .trans _ _ _ (leaves_dropTeams s us) (leaves_dropGroups _ gs)
  rcases settleEnd_cases s r with he | ⟨us, gs, he | he⟩
  · rw [he]; exact .refl s
  · rw [he]; exact hdrop us gs
  · rw [he]; exact .trans _ _ _ (hdrop us gs) (leaves_setRec _ _ _)

theorem leaves_endRec (s : State) (r : Nat) (st : EndSt) (detail : Nat) : Leaves s (s.endRec r st detail) := by
  have hstop : Leaves s (s.stopGroups r) := by
    unfold State.stopGroups
    exact .foldl _ _ (fun s p _ => leaves_setGroup s _ _) s
  have hgive : ∀ s : State, Leaves s (s.giveUp r) := fun s =>
    ⟨rfl, id, fun _ b h => ⟨b, h, rfl, rfl⟩, fun id v h => ⟨v, List.mem_of_mem_filter h⟩⟩
  exact .trans _ _ _ (.trans _ _ _ hstop (hgive _)) (leaves_setRec _ r _)

theorem leaves_endLaunch (s : State) (r : Nat) (st : EndSt) (detail : Nat) : Leaves s (s.endLaunch r st detail) := by
  rw [endLaunch_eq]; split
  · exact .refl s
  · dsimp only
    exact .trans _ _ _ (leaves_endRec s r st detail) (.trans _ _ _ (leaves_settleEnd _ r) (leaves_setCtx _ _ _))

/-! ### Domains, gangs and spawned groups -/

theorem leaves_endDomain (s : State) (r d : Nat) : Leaves s (s.endDomain r d) := by
  unfold State.endDomain
  dsimp only
  refine .trans _ _ _ (leaves_setRec s r _) (.foldl _ _ (fun s m _ => ?_) _)
  split
  · exact .refl s
  · next t ht =>
    split
    · exact leaves_setArray s _ _
    · split
      · split
        · exact leaves_setTeam s m.2 t _ ht rfl rfl
        · exact .refl s
      · exact .refl s

theorem leaves_leaveDomain (s : State) (r c : Nat) : Leaves s (s.leaveDomain r c) := by
  unfold State.leaveDomain; split
  · exact leaves_endDomain s r _
  · exact .refl s

theorem leaves_teamLeavesDomain (s : State) (u : Nat) : Leaves s (s.teamLeavesDomain u) := by
  unfold State.teamLeavesDomain; split
  · exact .refl s
  · split
    · split
      · exact leaves_endDomain s _ _
      · exact .refl s
    · split
      · exact leaves_leaveDomain s _ _
      · exact .refl s

/-- The teams of a gang leave their domains, the loss is logged, and the teams are dropped (R276, R288). -/
def State.dropGang (s : State) (r tag detail : Nat) (ts : List (Nat × Team)) : State :=
  let s := ts.foldl (fun s p => s.teamLeavesDomain p.1) s
  (s.logEv .gangLost 2 (evQuad ((s.rcd r).ctx % 4)) [r, tag % 2 ^ 32, detail]).dropTeams (ts.map (·.1))

theorem leaves_dropGang (s : State) (r tag detail : Nat) (ts : List (Nat × Team)) : Leaves s (s.dropGang r tag detail ts) := by
  unfold State.dropGang
  exact .trans _ _ _ (.foldl _ _ (fun s p _ => leaves_teamLeavesDomain s p.1) s) (.trans _ _ _ (leaves_logEv _ _ _ _ _) (leaves_dropTeams _ _))

/-- A gang that is lost is dropped; what follows lets work leave only (R288). -/
theorem loseGang_cases (s : State) (u detail : Nat) (t : Team) (h : s.team u = some t) :
    Leaves (s.dropGang t.task.lrec t.gang detail (s.gangOf u)) (s.loseGang u detail) := by
  unfold State.loseGang
  rw [h]
  dsimp only
  split
  · exact leaves_settleEnd _ _
  · split
    · exact leaves_endLaunch _ _ _ _
    · split
      · exact leaves_endLaunch _ _ _ _
      · exact leaves_setRec _ _ _

theorem leaves_loseGang (s : State) (u detail : Nat) : Leaves s (s.loseGang u detail) := by
  cases h : s.team u with
  | none => unfold State.loseGang; rw [h]; exact .refl s
  | some t => exact .trans _ _ _ (leaves_dropGang s _ _ _ _) (loseGang_cases s u detail t h)

theorem self_mem_gangOf (s : State) (u : Nat) (t : Team) (h : s.team u = some t) : (u, t) ∈ s.gangOf u := by
  unfold State.gangOf
  rw [h]
  dsimp only
  split
  · simp [State.teamsOf, mem_listed_of_get h]
  · simp

/-- The team of a lost gang is gone. -/
theorem loseGang_gone (s : State) (u detail : Nat) (hw : Sparse.wf none s.teams = true) (v : Team) : (u, some v) ∉ (s.loseGang u detail).teams := by
  intro hin
  cases h : s.team u with
  | none =>
    have hkeep : s.loseGang u detail = s := by unfold State.loseGang; rw [h]
    rw [hkeep] at hin
    have := Sparse.get_of_mem hw hin
    rw [← State.team, h] at this
    cases this
  | some t =>
    obtain ⟨a, ha, -, -⟩ := (loseGang_cases s u detail t h).teams u v hin
    unfold State.dropGang at ha
    dsimp only at ha
    rw [dropTeams_teams] at ha
    have hkept := (List.mem_filter.mp ha).2
    have hmem : u ∈ (s.gangOf u).map (·.1) := List.mem_map.mpr ⟨_, self_mem_gangOf s u t h, rfl⟩
    simp [hmem] at hkept

theorem leaves_loseSpawned (s : State) (gid detail : Nat) : Leaves s (s.loseSpawned gid detail) := by
  unfold State.loseSpawned
  split
  · exact .refl s
  · next g _ =>
    split
    · exact .refl s
    · dsimp only
      refine .trans _ _ _ (leaves_logEv s .spawnedLost 2 (evCore g.core) [g.launch, detail]) ?_
      split
      · exact .trans _ _ _ (leaves_dropGroups _ _) (leaves_settleEnd _ _)
      · split
        · exact .trans _ _ _ (leaves_dropGroups _ _) (leaves_endLaunch _ _ _ _)
        · exact .trans _ _ _ (leaves_dropGroups _ _) (.trans _ _ _ (leaves_setGroup _ _ _) (.of_work rfl rfl rfl))

end Sys2Proof.Machine
end

section
/-! SUPPORT. The fence instant of a die and the end of its self-test (R17, R47, R104, R179, R289). -/
namespace Sys2Proof.Machine

/-! ### The steps of the fence instant let work leave -/

theorem leaves_rerunEnded (s : State) (die : Nat) : Leaves s (s.rerunEnded die) ∧ (s.rerunEnded die).txns = s.txns := by
  unfold State.rerunEnded
  refine foldl_rel (fun s t : State => Leaves s t ∧ t.txns = s.txns) (fun s => ⟨.refl s, rfl⟩)
    (fun _ _ _ h k => ⟨.trans _ _ _ h.1 k.1, k.2.trans h.2⟩) _ _ (fun s p _ => ?_) s
  dsimp only
  split
  · split
    · exact ⟨.trans _ _ _ (leaves_setGroup s _ _) (.of_work rfl rfl rfl), rfl⟩
    · exact ⟨.refl s, rfl⟩
  · exact ⟨.refl s, rfl⟩

theorem leaves_onLane (s : State) (gid l : Nat) (f : Lane → Lane) : Leaves s (s.onLane gid l f) := by
  unfold State.onLane; split
  · exact .refl s
  · exact leaves_setGroup _ _ _

theorem leaves_loseSpawns (s : State) (die : Nat) : Leaves s (s.loseSpawns die) := by
  unfold State.loseSpawns
  refine .foldl _ _ (fun s p _ => ?_) s
  split
  · exact .trans _ _ _ (.of_work (t := { s with spawns := Sparse.set none s.spawns p.1 none }) rfl rfl rfl) (leaves_onLane _ _ _ _)
  · exact .refl s

/-- The monitors of a line that wake: no transaction begins. -/
theorem leaves_wakeMonitors (s : State) (line : Nat) : Leaves s (s.wakeMonitors line) := by
  unfold State.wakeMonitors
  refine .trans _ _ _ (.foldl _ _ (fun s p _ => ?_) s) (.foldl _ _ (fun s p _ => ?_) _)
  · dsimp only
    split
    · refine .foldl _ _ (fun s q _ => ?_) s
      split
      · next ht =>
        split
        · exact leaves_setTxn s p.1 _ _ ht
        · split
          · have htxn : ∀ k g, (s.setGroup k g).txn p.1 = s.txn p.1 := fun _ _ => rfl
            exact .trans _ _ _ (leaves_setGroup s _ _) (leaves_setTxn _ p.1 _ _ ((htxn _ _).trans ht))
          · exact .refl s
      · exact .refl s
    · exact .refl s
  · dsimp only
    split
    · exact .refl s
    · exact .trans _ _ _ (leaves_setGroup s _ _) (.of_work rfl rfl rfl)

/-- Nothing but groups and launches differs. -/
def OnlyGroupsRecs (s t : State) : Prop := t = { s with groups := t.groups, recs := t.recs }
theorem OnlyGroupsRecs.refl (s : State) : OnlyGroupsRecs s s := rfl
theorem OnlyGroupsRecs.trans (s t u : State) (h : OnlyGroupsRecs s t) (k : OnlyGroupsRecs t u) : OnlyGroupsRecs s u := by
  unfold OnlyGroupsRecs at *; rw [k, h]
theorem OnlyGroupsRecs.field {α : Type} {s t : State} (h : OnlyGroupsRecs s t) (F : State → α)
    (hF : ∀ s t : State, F { s with groups := t.groups, recs := t.recs } = F s := by intros; rfl) : F t = F s := by
  rw [h]; exact hF s t
theorem OnlyGroupsRecs.work {s t : State} (h : OnlyGroupsRecs s t) : OnlyWork s t := by unfold OnlyWork OnlyGroupsRecs at *; rw [h]
theorem OnlyGroupsRecs.leaves {s t : State} (h : OnlyGroupsRecs s t) : Leaves s t :=
  .of_work h.work (h.field State.teams) (h.field State.txns)

theorem onlyGroupsRecs_quietItems (s : State) (r : Nat) : OnlyGroupsRecs s (s.quietItems r) := by
  unfold State.quietItems
  refine foldl_rel OnlyGroupsRecs .refl .trans _ _ (fun s p _ => ?_) s
  split <;> rfl

theorem onlyGroupsRecs_moveItems (s : State) (gone : Nat → Bool) : OnlyGroupsRecs s (s.moveItems gone) := by
  unfold State.moveItems
  refine foldl_rel OnlyGroupsRecs .refl .trans _ _ (fun s p _ => ?_) s
  dsimp only
  split
  · rfl
  · exact .trans _ (s.setRec p.1 _) _ rfl (onlyGroupsRecs_quietItems _ _)

theorem tailrace_cases (s : State) (r : Nat) : OnlyGroupsRecs s (s.tailrace r) ∨ s.tailrace r = (s.quietItems r).endLaunch r .fault 0x16 := by
  have hq := onlyGroupsRecs_quietItems s r
  unfold State.tailrace
  dsimp only
  split
  · exact .inl hq
  · split
    · refine .inl (.trans _ _ _ hq (foldl_rel OnlyGroupsRecs .refl .trans _ _ (fun s p _ => ?_) _))
      split <;> rfl
    · split
      · exact .inr rfl
      · exact .inl hq

theorem leaves_tailrace (s : State) (r : Nat) : Leaves s (s.tailrace r) ∧ OnlyWork s (s.tailrace r) := by
  rcases tailrace_cases s r with h | h
  · exact ⟨h.leaves, h.work⟩
  · have hq := onlyGroupsRecs_quietItems s r
    rw [h]
    exact ⟨.trans _ _ _ hq.leaves (leaves_endLaunch _ _ _ _), .trans _ _ _ hq.work (onlyWork_endLaunch _ _ _ _)⟩

theorem leaves_tailraces (rs : List Nat) (s : State) :
    Leaves s (rs.foldl (fun (s : State) r => s.tailrace r) s) ∧ OnlyWork s (rs.foldl (fun (s : State) r => s.tailrace r) s) :=
  ⟨.foldl _ _ (fun s r _ => (leaves_tailrace s r).1) s, onlyWork_foldl _ _ (fun s r _ => (leaves_tailrace s r).2) s⟩

/-! ### The gangs of the die are gone -/

theorem leaves_loseGangs (us : List Nat) (detail : Nat) (s : State) : Leaves s (us.foldl (fun (s : State) u => s.loseGang u detail) s) :=
  .foldl _ _ (fun s u _ => leaves_loseGang s u detail) s

theorem leaves_loseDie (s : State) (die : Nat) : Leaves s (s.loseDie die) := by
  unfold State.loseDie
  exact .trans _ _ _ (leaves_loseGangs _ _ s) (.foldl _ _ (fun s g _ => leaves_loseSpawned s g 0x1B) _)

theorem loseGangs_gone (us : List Nat) (detail : Nat) (s : State) (hw : Sparse.wf none s.teams = true) (u : Nat) (hu : u ∈ us) (v : Team) :
    (u, some v) ∉ (us.foldl (fun (s : State) u => s.loseGang u detail) s).teams := by
  induction us generalizing s with
  | nil => cases hu
  | cons a us ih =>
    rw [List.foldl_cons]
    have ha := leaves_loseGang s a detail
    rcases List.mem_cons.mp hu with rfl | hu
    · intro hin
      obtain ⟨b, hb, -, -⟩ := (leaves_loseGangs us detail _).teams u v hin
      exact loseGang_gone s u detail hw b hb
    · exact ih _ (ha.wf hw) hu

/-- After the loss of a die only suspended teams name it (R288). -/
theorem loseDie_teams (s : State) (die : Nat) (hw : Sparse.wf none s.teams = true) (u : Nat) (v : Team) (h : (u, some v) ∈ (s.loseDie die).teams)
    (hd : v.core / 24 = die) : v.st = .suspended := by
  by_contra hst
  unfold State.loseDie at h
  dsimp only at h
  obtain ⟨b, hb, hbc, hbs⟩ := (Leaves.foldl (fun (s : State) g => s.loseSpawned g 0x1B) _ (fun s g _ => leaves_loseSpawned s g 0x1B) _).teams u v h
  obtain ⟨a, ha, hac, has⟩ := (leaves_loseGangs _ 0x1B s).teams u b hb
  refine loseGangs_gone _ 0x1B s hw u (List.mem_map.mpr ⟨(u, a), List.mem_filter.mpr ⟨mem_listed.mpr ha, ?_⟩, rfl⟩) b hb
  simp [← hac, ← hbc, hd, ← has, ← hbs, hst]

/-! ### The fence instant in its parts -/

/-- What a die's unaccepted transactions leave of the map of transactions (R17, R289). -/
def State.dropTxns (s : State) (die : Nat) : State :=
  { s with txns := keep s.txns fun _ v => match v with | some t => !s.lostTxn die t | none => false }

/-- The work of a die that is fenced goes. -/
def State.loseWork (s : State) (die : Nat) : State := (((s.rerunEnded die).dropTxns die).loseDie die).loseSpawns die

/-- A die that is out of the directory, as its entry of a line says. -/
def Dir.without (die : Nat) (d : Dir) : Dir :=
  let bit := BitVec.ofNat 8 (2 ^ die)
  { d with
    sharers := d.sharers &&& ~~~ bit, waiting := d.waiting &&& ~~~ bit
    src := if d.waiting &&& ~~~ bit = 0 then 0 else d.src
    lo := match d.lo with | some c => if c / 24 = die then none else some c | none => none }

/-- The die is FENCED and that is logged. -/
def State.noteFence (s : State) (k cause : Nat) : State :=
  (s.setDie k { s.die k with st := .fenced, awaiting := false }).logEv .dieFenced 2 (evDie k) [cause]

/-- The mailbox command that waited for the die ends (R47). -/
def State.endWait (s : State) (awaiting : Bool) (code : Nat) : State := if awaiting then s.mbDone code 0 else s

/-- The fence instant before the Tailrace looks at the launches. -/
def State.fencedDie (s : State) (k : Nat) : State :=
  (((((s.loseWork k).dropDieState k).leaveDirectory k).noteFence k (s.die k).cause.toNat).moveItems fun c => c / 24 == k).endWait
    (s.die k).awaiting cOk

theorem fenceInstant_eq (s : State) (k : Nat) (h : (s.die k).st = .fencing) :
    s.fenceInstant k = ((s.fencedDie k).recs.map (·.1)).foldl (fun (s : State) r => s.tailrace r) (s.fencedDie k) := by
  rw [State.fenceInstant, if_neg (by simp [h])]; rfl

theorem dropTxns_lost (s : State) (die id : Nat) (x : Txn) (hw : Sparse.wf none s.txns = true) (hx : s.txn id = some x)
    (hl : s.lostTxn die x = true) (v : Option Txn) : (id, v) ∉ (s.dropTxns die).txns := by
  intro hin
  unfold State.dropTxns keep at hin
  obtain ⟨hm, hk⟩ := List.mem_filter.mp hin
  have hv := Sparse.get_of_mem hw hm
  rw [← State.txn, hx] at hv
  subst hv
  simp [hl] at hk

theorem leaves_dropTxns (s : State) (die : Nat) : Leaves s (s.dropTxns die) :=
  ⟨rfl, id, fun _ b h => ⟨b, h, rfl, rfl⟩, fun _ v h => ⟨v, List.mem_of_mem_filter h⟩⟩

theorem leaves_loseWork (s : State) (die : Nat) : Leaves s (s.loseWork die) :=
  .trans _ _ _ (.trans _ _ _ (.trans _ _ _ (leaves_rerunEnded s die).1 (leaves_dropTxns _ die)) (leaves_loseDie _ die)) (leaves_loseSpawns _ die)

/-- Stores of the die that no home has accepted are gone. -/
theorem loseWork_txns (s : State) (die id : Nat) (x : Txn) (hw : Sparse.wf none s.txns = true) (hx : s.txn id = some x) (hc : x.core / 24 = die)
    (hm : x.mill = false) (ha : x.accepted = false) (v : Option Txn) : (id, v) ∉ (s.loseWork die).txns := by
  intro hin
  obtain ⟨hr, htxns⟩ := leaves_rerunEnded s die
  obtain ⟨w, hw'⟩ := (Leaves.trans _ _ _ (leaves_loseDie _ die) (leaves_loseSpawns _ die)).txns id v hin
  refine dropTxns_lost (s.rerunEnded die) die id x (by rw [htxns]; exact hw) (by rw [State.txn, htxns]; exact hx) ?_ w hw'
  simp [State.lostTxn, hc, hm, ha]

theorem loseWork_teams (s : State) (die : Nat) (hw : Sparse.wf none s.teams = true) (u : Nat) (v : Team)
    (h : (u, some v) ∈ (s.loseWork die).teams) (hd : v.core / 24 = die) : v.st = .suspended := by
  have hbefore := Leaves.trans _ _ _ (leaves_rerunEnded s die).1 (leaves_dropTxns _ die)
  obtain ⟨b, hb, hc, hs⟩ := (leaves_loseSpawns (((s.rerunEnded die).dropTxns die).loseDie die) die).teams u v h
  rw [hs]
  exact loseDie_teams _ die (hbefore.wf hw) u b hb (by rw [← hc, hd])

/-- The directory after a die has left it. -/
theorem leaveDirectory_leaves (s : State) (die : Nat) : ∃ t, Leaves { s with dir := mapVals {} s.dir (Dir.without die) } t ∧ s.leaveDirectory die = t :=
  ⟨_, .foldl _ _ (fun s l _ => leaves_wakeMonitors s l) _, rfl⟩

/-! ### What the fence leaves -/

theorem dropDieCaches_facts (s : State) (k : Nat) :
    (∀ key, key / 2 ^ 48 / 24 = k → Sparse.get none (s.dropDieCaches k).dirty key = none) ∧
    (∀ key, key / 2 ^ 41 = k → Sparse.get none (s.dropDieCaches k).l2 key = none) ∧
    (∀ agent key, agent = 256 + k ∨ (agent < 192 ∧ agent / 24 = k) → key / 2 ^ 41 / 64 = agent →
      Sparse.get none (s.dropDieCaches k).tlb key = none) ∧
    (∀ key, key / 2 ^ 48 / 24 ≠ k → Sparse.get none (s.dropDieCaches k).dirty key = Sparse.get none s.dirty key) := by
  unfold State.dropDieCaches
  dsimp only
  refine ⟨fun key h => ?_, fun key h => ?_, fun agent key ha h => ?_, fun key h => ?_⟩
  · rw [get_keep_key none s.dirty (fun key => !(key / 2 ^ 48 / 24 == k)), if_neg (by rw [h]; simp)]
  · rw [get_keep_key none s.l2 (fun key => !(key / 2 ^ 41 == k)), if_neg (by rw [h]; simp)]
  · have hagent : (agent == 256 + k || (decide (agent < 192) && agent / 24 == k)) = true := by simpa using ha
    rw [get_keep_key none s.tlb
      (fun key => !(key / 2 ^ 41 / 64 == 256 + k || (decide (key / 2 ^ 41 / 64 < 192) && key / 2 ^ 41 / 64 / 24 == k))),
      if_neg (by rw [h, hagent]; simp)]
  · rw [get_keep_key none s.dirty (fun key => !(key / 2 ^ 48 / 24 == k)), if_pos (by rw [beq_false_of_ne h]; rfl)]

/-- State t is what the fence of die k makes of s on its way: the dies and the directory are as given, memory stays, the caches of the die
hold nothing, and of the work that stood in w nothing was added (R17, R47, R179). -/
structure Fenced (s w : State) (k : Nat) (dies : Sparse Die) (dir : Sparse Dir) (t : State) : Prop where
  dies : t.dies = dies
  dir : t.dir = dir
  mem : t.mem = s.mem
  poison : t.poison = s.poison
  dirty : t.dirty = (s.dropDieCaches k).dirty
  l2 : t.l2 = (s.dropDieCaches k).l2
  tlb : t.tlb = (s.dropDieCaches k).tlb
  teams : ∀ u v, (u, some v) ∈ t.teams → ∃ a, (u, some a) ∈ w.teams ∧ v.core = a.core ∧ v.st = a.st
  txns : ∀ id v, (id, v) ∈ t.txns → ∃ a, (id, a) ∈ w.txns

theorem Leaves.fenced {s w : State} (h : Leaves s w) (k : Nat) : Fenced s w k s.dies s.dir (w.dropDieState k) := by
  refine ⟨h.field State.dies, h.field State.dir, h.field State.mem, h.field State.poison, ?_, ?_, ?_, fun u v hv => ⟨v, hv, rfl, rfl⟩,
    fun id v hv => ⟨v, hv⟩⟩
  · exact congrArg (keep · fun key _ => !(key / 2 ^ 48 / 24 == k)) (h.field State.dirty)
  · exact congrArg (keep · fun key _ => !(key / 2 ^ 41 == k)) (h.field State.l2)
  · exact congrArg (keep · fun key _ => !(key / 2 ^ 41 / 64 == 256 + k || (decide (key / 2 ^ 41 / 64 < 192) && key / 2 ^ 41 / 64 / 24 == k)))
      (h.field State.tlb)

theorem Fenced.leaves {s w t u : State} {k : Nat} {dies : Sparse Die} {dir : Sparse Dir} (h : Fenced s w k dies dir t) (l : Leaves t u) :
    Fenced s w k dies dir u := by
  refine ⟨(l.field State.dies).trans h.dies, (l.field State.dir).trans h.dir, (l.field State.mem).trans h.mem,
    (l.field State.poison).trans h.poison, (l.field State.dirty).trans h.dirty, (l.field State.l2).trans h.l2, (l.field State.tlb).trans h.tlb,
    fun u v hv => ?_, fun id v hv => ?_⟩
  · obtain ⟨a, ha, hc, hs⟩ := l.teams u v hv
    obtain ⟨b, hb, hc', hs'⟩ := h.teams u a ha
    exact ⟨b, hb, hc.trans hc', hs.trans hs'⟩
  · obtain ⟨a, ha⟩ := l.txns id v hv
    exact h.txns id a ha

theorem Fenced.setDir {s w t : State} {k : Nat} {dies : Sparse Die} {dir : Sparse Dir} (h : Fenced s w k dies dir t) :
    Fenced s w k dies (mapVals {} dir (Dir.without k)) { t with dir := mapVals {} t.dir (Dir.without k) } :=
  { h with dir := congrArg (mapVals {} · (Dir.without k)) h.dir }

theorem Fenced.leaveDirectory {s w t : State} {k : Nat} {dies : Sparse Die} {dir : Sparse Dir} (h : Fenced s w k dies dir t) :
    Fenced s w k dies (mapVals {} dir (Dir.without k)) (t.leaveDirectory k) := by
  obtain ⟨u, hl, he⟩ := leaveDirectory_leaves t k
  rw [he]
  exact h.setDir.leaves hl

theorem Fenced.noteFence {s w t : State} {k : Nat} {dies : Sparse Die} {dir : Sparse Dir} (h : Fenced s w k dies dir t) (cause : Nat) :
    Fenced s w k (Sparse.set {} dies k { Sparse.get {} dies k with st := .fenced, awaiting := false }) dir (t.noteFence k cause) :=
  have hset : ∀ m, t.dies = m → (t.noteFence k cause).dies = Sparse.set {} m k { Sparse.get {} m k with st := .fenced, awaiting := false } := by
    rintro m rfl; rfl
  { h with dies := hset dies h.dies }

theorem leaves_endWait (s : State) (awaiting : Bool) (code : Nat) : Leaves s (s.endWait awaiting code) := by
  unfold State.endWait; split
  · exact ⟨rfl, id, fun _ b h => ⟨b, h, rfl, rfl⟩, fun _ v h => ⟨v, h⟩⟩
  · exact .refl s

/-- The fence instant of a die that is to be fenced. -/
theorem fenceInstant_fenced (s : State) (k : Nat) (h : (s.die k).st = .fencing) :
    Fenced s (s.loseWork k) k (Sparse.set {} s.dies k { s.die k with st := .fenced, awaiting := false }) (mapVals {} s.dir (Dir.without k))
      (s.fenceInstant k) := by
  rw [fenceInstant_eq s k h]
  have hleft := ((leaves_loseWork s k).fenced k).leaveDirectory.noteFence (s.die k).cause.toNat
  exact ((hleft.leaves (onlyGroupsRecs_moveItems _ _).leaves).leaves (leaves_endWait _ _ _)).leaves (leaves_tailraces _ _).1

theorem fenceInstant_mailbox (s : State) (k : Nat) (h : (s.die k).st = .fencing) (ha : (s.die k).awaiting = true) :
    (s.fenceInstant k).mgmt.busy = false ∧ (s.fenceInstant k).mgmt.code = 0 ∧ (s.fenceInstant k).mgmt.rlen = 0 := by
  rw [fenceInstant_eq s k h, (leaves_tailraces _ _).2.field State.mgmt]
  unfold State.fencedDie
  rw [State.endWait, if_pos ha]
  exact ⟨rfl, rfl, rfl⟩

end Sys2Proof.Machine
end

section
/-! SUPPORT. O43: the in-field tests of a core, and what its drain stops (R44, R45, R300). -/
namespace Sys2Proof.Machine

/-! ### Folds over groups -/

theorem team_setTeam (s : State) (k j : Nat) (t : Team) : (s.setTeam k t).team j = if j = k then some t else s.team j :=
  Sparse.get_set none (some t) s.teams k j

/-- A step that rewrites the group it is given, where the group stands as given. -/
structure GroupStep (h : State → Nat × Group → State) (f : Group → Group) : Prop where
  frame : ∀ s p, h s p = { s with groups := (h s p).groups }
  wf : ∀ s p, Sparse.wf none s.groups = true → Sparse.wf none (h s p).groups = true
  group : ∀ s p, s.group p.1 = some p.2 → ∀ j, (h s p).group j = if j = p.1 then some (f p.2) else s.group j

theorem groupStep_of (sel : Group → Bool) (g : Group → Group) (h : State → Nat × Group → State)
    (hh : ∀ s p, h s p = if sel p.2 then s.setGroup p.1 (g p.2) else s) : GroupStep h (fun x => if sel x then g x else x) := by
  refine ⟨fun s p => ?_, fun s p hw => ?_, fun s p hp j => ?_⟩ <;> rw [hh] <;> split
  · rfl
  · rfl
  · exact Sparse.wf_set none (some (g p.2)) s.groups p.1 hw
  · exact hw
  · exact group_setGroup _ _ _ _
  · split
    · next hj => rw [hj, hp]
    · rfl

/-- A fold that rewrites the listed groups, each where it stands. -/
theorem foldl_group {h : State → Nat × Group → State} {f : Group → Group} (hh : GroupStep h f)
    (l : List (Nat × Group)) (hl : (l.map (·.1)).Nodup) (s : State) (hs : ∀ p ∈ l, s.group p.1 = some p.2) (j : Nat) :
    (l.foldl h s).group j = if j ∈ l.map (·.1) then (s.group j).map f else s.group j := by
  induction l generalizing s with
  | nil => simp
  | cons p l ih =>
    rw [List.map_cons] at hl
    obtain ⟨hp, hl⟩ := List.nodup_cons.mp hl
    have hhead := hh.group s p (hs p (by simp))
    have hrest : ∀ q ∈ l, (h s p).group q.1 = some q.2 := fun q hq => by
      have hne : q.1 ≠ p.1 := fun he => hp (List.mem_map.mpr ⟨q, hq, he⟩)
      rw [hhead, if_neg hne]
      exact hs q (by simp [hq])
    rw [List.foldl_cons, ih hl _ hrest, hhead, List.map_cons]
    by_cases hj : j = p.1
    · subst hj
      rw [if_neg hp, if_pos rfl, if_pos (by simp), hs p (by simp)]
      rfl
    · simp only [hj, ↓reduceIte, List.mem_cons, false_or]

/-- Groups of a filtered list of a state's groups stand there, each once. -/
theorem listed_filter_groups (s : State) (hw : Sparse.wf none s.groups = true) (f : Nat × Group → Bool) :
    (((listed s.groups).filter f).map (·.1)).Nodup ∧ (∀ p ∈ (listed s.groups).filter f, s.group p.1 = some p.2) ∧
    ∀ gid g, s.group gid = some g → (gid ∈ ((listed s.groups).filter f).map (·.1) ↔ f (gid, g) = true) := by
  refine ⟨(nodup_listed hw).sublist (List.Sublist.map _ List.filter_sublist), fun p hp => (mem_listed_get hw).mp (List.mem_of_mem_filter hp),
    fun gid g hg => ⟨fun h => ?_, fun h => List.mem_map.mpr ⟨(gid, g), List.mem_filter.mpr ⟨mem_listed_of_get hg, h⟩, rfl⟩⟩⟩
  obtain ⟨⟨k, g'⟩, hp, rfl⟩ := List.mem_map.mp h
  obtain ⟨hm, hf⟩ := List.mem_filter.mp hp
  have := (mem_listed_get hw).mp hm
  rw [← State.group, hg] at this
  cases this
  exact hf

/-! ### What a drain stops -/

/-- Teams and groups stay where they are; teams and groups that are to stop still are. -/
structure Stops (s t : State) : Prop where
  frame : t = { s with groups := t.groups, teams := t.teams }
  wf : Sparse.wf none s.groups = true → Sparse.wf none t.groups = true
  teams : ∀ u a, s.team u = some a → ∃ b, t.team u = some b ∧ b.core = a.core ∧ b.st = a.st ∧ (a.stopping = true → b.stopping = true)
  groups : Sparse.wf none s.groups = true → ∀ gid g, s.group gid = some g →
    ∃ g', t.group gid = some g' ∧ g'.core = g.core ∧ g'.resident = g.resident ∧ g'.depthNp = g.depthNp

theorem Stops.refl (s : State) : Stops s s := ⟨rfl, id, fun _ a h => ⟨a, h, rfl, rfl, id⟩, fun _ _ g h => ⟨g, h, rfl, rfl, rfl⟩⟩
theorem Stops.trans (s t u : State) (h : Stops s t) (k : Stops t u) : Stops s u := by
  obtain ⟨hf, hw, ht, hg⟩ := h
  obtain ⟨kf, kw, kt, kg⟩ := k
  refine ⟨by rw [kf, hf], fun w => kw (hw w), fun i a ha => ?_, fun w gid g hgg => ?_⟩
  · obtain ⟨b, hb, h1, h2, h3⟩ := ht i a ha
    obtain ⟨c, hc, h4, h5, h6⟩ := kt i b hb
    exact ⟨c, hc, h4.trans h1, h5.trans h2, fun h => h6 (h3 h)⟩
  · obtain ⟨b, hb, h1, h2, h3⟩ := hg w gid g hgg
    obtain ⟨c, hc, h4, h5, h6⟩ := kg (hw w) gid b hb
    exact ⟨c, hc, h4.trans h1, h5.trans h2, h6.trans h3⟩

/-- Some of the listed groups are rewritten where they stand. -/
theorem GroupStep.foldl_listed {h : State → Nat × Group → State} {f : Group → Group} (hh : GroupStep h f) (s : State)
    (sel : Nat × Group → Bool) :
    let t := ((listed s.groups).filter sel).foldl h s
    t = { s with groups := t.groups } ∧ (Sparse.wf none s.groups = true → Sparse.wf none t.groups = true ∧
      ∀ gid g, s.group gid = some g → t.group gid = some (if sel (gid, g) then f g else g)) := by
  obtain ⟨hf, hw⟩ := foldl_rel
    (fun s t : State => t = { s with groups := t.groups } ∧ (Sparse.wf none s.groups = true → Sparse.wf none t.groups = true))
    (fun _ => ⟨rfl, id⟩) (fun _ _ _ a b => ⟨by rw [b.1, a.1], fun w => b.2 (a.2 w)⟩) h ((listed s.groups).filter sel)
    (fun s p _ => ⟨hh.frame s p, hh.wf s p⟩) s
  refine ⟨hf, fun w => ⟨hw w, fun gid g hg => ?_⟩⟩
  obtain ⟨hnd, hst, hmem⟩ := listed_filter_groups s w sel
  rw [foldl_group hh _ hnd s hst gid, hg]
  by_cases hsel : sel (gid, g) = true
  · rw [if_pos ((hmem gid g hg).mpr hsel), if_pos hsel]; rfl
  · rw [if_neg (mt (hmem gid g hg).mp hsel), if_neg hsel]

theorem GroupStep.stops {h : State → Nat × Group → State} {f : Group → Group} (hh : GroupStep h f) (s : State) (sel : Nat × Group → Bool)
    (hkeep : ∀ g, (f g).core = g.core ∧ (f g).resident = g.resident ∧ (f g).depthNp = g.depthNp) :
    Stops s (((listed s.groups).filter sel).foldl h s) := by
  obtain ⟨hf, hw⟩ := hh.foldl_listed s sel
  refine ⟨by rw [hf], fun w => (hw w).1, fun u a ha => ⟨a, ?_, rfl, rfl, id⟩, fun w gid g hg => ⟨_, (hw w).2 gid g hg, ?_⟩⟩
  · rw [hf]; exact ha
  · split
    · exact hkeep g
    · exact ⟨rfl, rfl, rfl⟩

/-- The step by which a group is to stop. -/
theorem groupStep_preempt : GroupStep (fun s p => s.setGroup p.1 { p.2 with preempt := true }) fun g => { g with preempt := true } :=
  groupStep_of (fun _ => true) (fun g => { g with preempt := true }) _ fun _ _ => rfl
theorem groupStep_stop : GroupStep (fun s p => if p.2.resident then s.setGroup p.1 { p.2 with preempt := true } else s)
    fun g => if g.resident then { g with preempt := true } else g :=
  groupStep_of (·.resident) (fun g => { g with preempt := true }) _ fun _ _ => rfl
/-- The step by which a group's window is overrun (R299). -/
theorem groupStep_overrun : GroupStep (fun s p => if p.2.depthNp = 0 then s else s.setGroup p.1 { p.2 with depthNp := 0, overrun := true, preempt := true })
    fun g => if decide (g.depthNp ≠ 0) then { g with depthNp := 0, overrun := true, preempt := true } else g :=
  groupStep_of (fun g => decide (g.depthNp ≠ 0)) (fun g => { g with depthNp := 0, overrun := true, preempt := true }) _ fun s p => by
    by_cases h : p.2.depthNp = 0 <;> simp [h]

theorem stops_setStopping (s : State) (u : Nat) (a : Team) (h : s.team u = some a) : Stops s (s.setTeam u { a with stopping := true }) := by
  refine ⟨rfl, id, fun i b hb => ?_, fun _ _ g hg => ⟨g, hg, rfl, rfl, rfl⟩⟩
  rw [team_setTeam]
  by_cases hi : i = u
  · subst hi
    have hab : a = b := Option.some.inj (h.symm.trans hb)
    subst hab
    exact ⟨{ a with stopping := true }, if_pos rfl, rfl, rfl, fun _ => rfl⟩
  · exact ⟨b, by rw [if_neg hi, hb], rfl, rfl, id⟩

/-- The resident groups of a team are to stop. -/
def State.haltGroups (s : State) (u : Nat) : State :=
  ((listed s.groups).filter fun p => p.2.team == some u).foldl
    (fun s p => if p.2.resident then s.setGroup p.1 { p.2 with preempt := true } else s) s

theorem stops_haltGroups (s : State) (u : Nat) : Stops s (s.haltGroups u) :=
  groupStep_stop.stops s _ fun g => by split <;> exact ⟨rfl, rfl, rfl⟩

theorem stopTeam_running (s : State) (u : Nat) (a : Team) (h : s.team u = some a) (hs : a.st ≠ .suspended) :
    s.stopTeam u = (s.setTeam u { a with stopping := true }).haltGroups u := by
  rw [State.stopTeam, h]
  exact if_neg hs

/-- A team that is to stop: it and its groups stay where they are, and it stops (R291). -/
theorem stops_stopTeam (s : State) (u : Nat) : Stops s (s.stopTeam u) ∧
    ∀ a, s.team u = some a → a.st ≠ .suspended → ∃ b, (s.stopTeam u).team u = some b ∧ b.stopping = true := by
  by_cases hrun : ∃ a, s.team u = some a ∧ a.st ≠ .suspended
  · obtain ⟨a, h, hs⟩ := hrun
    rw [stopTeam_running s u a h hs]
    have hhalt := stops_haltGroups (s.setTeam u { a with stopping := true }) u
    refine ⟨.trans _ _ _ (stops_setStopping s u a h) hhalt, fun _ _ _ => ?_⟩
    obtain ⟨c, hc, -, -, hstop⟩ := hhalt.teams u _ (State.team_setTeam_same s u _)
    exact ⟨c, hc, hstop rfl⟩
  · have hkeep : s.stopTeam u = s := by
      unfold State.stopTeam; split
      · rfl
      · next a h => exact if_pos (not_not.mp fun hs => hrun ⟨a, h, hs⟩)
    rw [hkeep]
    exact ⟨.refl s, fun a h hs => absurd ⟨a, h, hs⟩ hrun⟩

theorem stops_stopTeams (us : List Nat) (s : State) : Stops s (us.foldl (fun (s : State) u => s.stopTeam u) s) ∧
    ∀ u ∈ us, ∀ a, s.team u = some a → a.st ≠ .suspended →
      ∃ b, (us.foldl (fun (s : State) u => s.stopTeam u) s).team u = some b ∧ b.stopping = true := by
  induction us generalizing s with
  | nil => exact ⟨.refl s, nofun⟩
  | cons w us ih =>
    obtain ⟨hrest, hin⟩ := ih (s.stopTeam w)
    obtain ⟨hhead, hstop⟩ := stops_stopTeam s w
    refine ⟨.trans _ _ _ hhead hrest, fun u hu a ha hs => ?_⟩
    rcases List.mem_cons.mp hu with rfl | hu
    · obtain ⟨b, hb, hbs⟩ := hstop a ha hs
      obtain ⟨c, hc, -, -, hk⟩ := hrest.teams u b hb
      exact ⟨c, hc, hk hbs⟩
    · obtain ⟨b, hb, -, hbs, -⟩ := hhead.teams u a ha
      exact hin u hu b hb (by rw [hbs]; exact hs)

theorem mem_drainTeams (s : State) (c u : Nat) (a : Team) (h : s.team u = some a) (hc : a.core = c) (hs : a.st ≠ .suspended) :
    u ∈ s.drainTeams c := by
  rw [State.drainTeams, List.mem_eraseDups, List.mem_flatMap]
  refine ⟨(u, a), ?_, List.mem_map.mpr ⟨(u, a), self_mem_gangOf s u a h, rfl⟩⟩
  exact List.mem_filter.mpr ⟨mem_listed_of_get h, by simp [hc, hs]⟩

/-- The teams of a drain are to stop. -/
def State.stopTeams (s : State) (c : Nat) : State := (s.drainTeams c).foldl (fun (s : State) u => s.stopTeam u) s

theorem drain_eq (s : State) (c : Nat) :
    s.drain c = ((listed (s.stopTeams c).groups).filter fun p => p.2.core == c && p.2.resident).foldl
      (fun s p => s.setGroup p.1 { p.2 with preempt := true }) (s.stopTeams c) := rfl

/-- The drain of a core: every team and every resident group on it is to stop (R300). -/
structure Drained (s t : State) (c : Nat) : Prop where
  frame : t = { s with mgmt := t.mgmt, groups := t.groups, teams := t.teams }
  wf : Sparse.wf none t.groups = true
  teams : ∀ u a, s.team u = some a → a.core = c → a.st ≠ .suspended → ∃ b, t.team u = some b ∧ b.stopping = true
  groups : ∀ gid g, s.group gid = some g → g.core = c → g.resident = true →
    ∃ g', t.group gid = some g' ∧ g'.core = c ∧ g'.resident = true ∧ g'.preempt = true ∧ g'.depthNp = g.depthNp

theorem drained_drain (s : State) (c : Nat) (hw : Sparse.wf none s.groups = true) : Drained s (s.drain c) c := by
  have hst : Stops s (s.stopTeams c) := (stops_stopTeams (s.drainTeams c) s).1
  have hteams : ∀ u ∈ s.drainTeams c, ∀ a, s.team u = some a → a.st ≠ .suspended → ∃ b, (s.stopTeams c).team u = some b ∧ b.stopping = true :=
    (stops_stopTeams (s.drainTeams c) s).2
  have hpre := groupStep_preempt.stops (s.stopTeams c) (fun p => p.2.core == c && p.2.resident) (fun g => ⟨rfl, rfl, rfl⟩)
  obtain ⟨-, hgroup⟩ := groupStep_preempt.foldl_listed (s.stopTeams c) (fun p => p.2.core == c && p.2.resident)
  rw [← drain_eq] at hpre hgroup
  have hframe := (Stops.trans _ _ _ hst hpre).frame
  refine ⟨by rw [hframe], hpre.wf (hst.wf hw), fun u a ha hc hs => ?_, fun gid g hg hc hr => ?_⟩
  · obtain ⟨b, hb, hbs⟩ := hteams u (mem_drainTeams s c u a ha hc hs) a ha hs
    obtain ⟨d, hd, -, -, hk⟩ := hpre.teams u b hb
    exact ⟨d, hd, hk hbs⟩
  · obtain ⟨g', hg', h1, h2, h3⟩ := hst.groups hw gid g hg
    refine ⟨{ g' with preempt := true }, ?_, h1.trans hc, h2.trans hr, rfl, h3⟩
    rw [(hgroup (hst.wf hw)).2 gid g' hg', if_pos (by simp [h1, h2, hc, hr])]

/-- What the overrun of a core's windows makes of a drained core (R299, R300). -/
theorem overrunCore_group (s : State) (c : Nat) (hw : Sparse.wf none s.groups = true) :
    s.overrunCore c = { s with groups := (s.overrunCore c).groups } ∧
    ∀ gid g, s.group gid = some g → g.core = c → g.resident = true → g.preempt = true →
      ∃ g', (s.overrunCore c).group gid = some g' ∧ g'.preempt = true ∧ (g.depthNp ≠ 0 → g'.depthNp = 0 ∧ g'.overrun = true) := by
  obtain ⟨hf, hgroup⟩ := groupStep_overrun.foldl_listed s (fun p => p.2.core == c && p.2.resident)
  refine ⟨hf, fun gid g hg hc hr hp => ⟨_, (hgroup hw).2 gid g hg, ?_⟩⟩
  rw [if_pos (by simp [hc, hr])]
  by_cases hd : g.depthNp = 0
  · rw [if_neg (by simp [hd])]; exact ⟨hp, fun h => absurd hd h⟩
  · rw [if_pos (by simp [hd])]; exact ⟨rfl, fun _ => ⟨rfl, rfl⟩⟩

end Sys2Proof.Machine
end

section
/-! SUPPORT. O43: the end of a die's self-test, the steps of an in-field test, and the statement. -/
namespace Sys2Proof.Machine

/-! ### The self-test of a die (R47) -/

/-- The die after its self-test. -/
def Die.tested (d : Die) (pass : Bool) : Die :=
  if pass then { d with st := .ready, offl := 0, awaiting := false } else { d with st := .fenced, cause := 5, awaiting := false }

/-- What the end of the self-test leaves before the mailbox is told. -/
def State.afterSelfTest (s : State) (k : Nat) (pass : Bool) : State :=
  let s := (s.setDie k ((s.die k).tested pass)).dropDieCaches k
  if pass then { s with arrays := keep s.arrays fun c _ => !(c / 24 == k) } else s.logEv .dieFenced 2 (evDie k) [5]

theorem selfTestEnd_eq (s : State) (k : Nat) (pass : Bool) (h : (s.die k).st = .resetting) :
    s.selfTestEnd k pass = (s.afterSelfTest k pass).endWait (s.die k).awaiting (if pass then cOk else cBadState) := by
  rw [State.selfTestEnd, if_neg (by simp [h])]
  cases pass <;> rfl

theorem afterSelfTest_facts (s : State) (k : Nat) (pass : Bool) :
    (s.afterSelfTest k pass).dies = Sparse.set {} s.dies k ((s.die k).tested pass) ∧ (s.afterSelfTest k pass).mem = s.mem ∧
    (s.afterSelfTest k pass).recs = s.recs ∧ (s.afterSelfTest k pass).groups = s.groups ∧
    (s.afterSelfTest k pass).mgmt.evprod = s.mgmt.evprod + (if pass then 0 else 1) := by
  cases pass <;> exact ⟨rfl, rfl, rfl, rfl, rfl⟩

theorem endWait_facts (s : State) (awaiting : Bool) (code : Nat) :
    (s.endWait awaiting code).dies = s.dies ∧ (s.endWait awaiting code).mem = s.mem ∧ (s.endWait awaiting code).recs = s.recs ∧
    (s.endWait awaiting code).groups = s.groups ∧ (s.endWait awaiting code).mgmt.evprod = s.mgmt.evprod ∧
    (awaiting = true → (s.endWait awaiting code).mgmt.busy = false ∧ (s.endWait awaiting code).mgmt.code = BitVec.ofNat 8 code) := by
  cases awaiting
  · exact ⟨rfl, rfl, rfl, rfl, rfl, nofun⟩
  · exact ⟨rfl, rfl, rfl, rfl, rfl, fun _ => ⟨rfl, rfl⟩⟩

/-! ### The steps of an in-field test (R44) -/

/-- Nothing is left on the core. -/
def State.coreEmpty (s : State) (c : Nat) : Prop := s.residents c = [] ∧ s.coreTeams c = []

theorem coreEmpty_iff (s : State) (c : Nat) : ((s.residents c).isEmpty && (s.coreTeams c).isEmpty) = true ↔ s.coreEmpty c := by
  rw [Bool.and_eq_true, List.isEmpty_iff, List.isEmpty_iff]; rfl

theorem beginDrain_empty (s : State) (c : Nat) (h : s.coreEmpty c) : s.beginDrain c = s.setTest c .testing := by
  rw [State.beginDrain, if_pos ((coreEmpty_iff s c).mpr h)]
theorem beginDrain_busy (s : State) (c : Nat) (h : ¬ s.coreEmpty c) : s.beginDrain c = (s.drain c).setTest c .draining := by
  rw [State.beginDrain, if_neg (mt (coreEmpty_iff s c).mp h)]

@[simp] theorem testOf_setTest (s : State) (c : Nat) (t : Ift) : (s.setTest c t).testOf c = t := Sparse.get_set_same _ _ _ _

/-- A test falls due where the device is ready and no other core is tested. -/
def State.testDue (s : State) (c : Nat) : Prop := s.mgmt.boot = .ready ∧ s.otherTest c = false

theorem inFieldTest_early (s : State) (c : Nat) (h : ¬ s.testDue c) : s.inFieldTest c = s := by
  rw [State.inFieldTest, if_pos]
  by_cases hb : s.mgmt.boot = .ready
  · have : s.otherTest c = true := by
      by_contra hno
      exact h ⟨hb, by simpa using hno⟩
    simp [this]
  · simp [hb]

theorem inFieldTest_idle (s : State) (c : Nat) (hc : c < 192) (h : s.testDue c) (ht : s.testOf c = .idle) :
    s.inFieldTest c =
      if !s.mgmt.ift then s
      else if (s.die (c / 24)).st ≠ .online then s.logEv .iftSkipped 1 (evCore c) []
      else if s.windowOpen c || !s.kidsSavable c || !s.drainRoom c then s.setTest c .deferred
      else s.beginDrain c := by
  obtain ⟨hb, ho⟩ := h
  rw [State.inFieldTest, if_neg (by simp [hb, ho]; omega), ht]

theorem inFieldTest_off (s : State) (c : Nat) (hc : c < 192) (ht : s.testOf c = .idle) (hi : s.mgmt.ift = false) : s.inFieldTest c = s := by
  by_cases hd : s.testDue c
  · rw [inFieldTest_idle s c hc hd ht, if_pos (by simp [hi])]
  · exact inFieldTest_early s c hd

theorem inFieldTest_skips (s : State) (c : Nat) (hc : c < 192) (hd : s.testDue c) (ht : s.testOf c = .idle) (hi : s.mgmt.ift = true)
    (hon : (s.die (c / 24)).st ≠ .online) : s.inFieldTest c = s.logEv .iftSkipped 1 (evCore c) [] := by
  rw [inFieldTest_idle s c hc hd ht, if_neg (by simp [hi]), if_pos hon]

theorem inFieldTest_defers (s : State) (c : Nat) (hc : c < 192) (hd : s.testDue c) (ht : s.testOf c = .idle) (hi : s.mgmt.ift = true)
    (hon : (s.die (c / 24)).st = .online) (hw : s.windowOpen c = true) : s.inFieldTest c = s.setTest c .deferred := by
  rw [inFieldTest_idle s c hc hd ht, if_neg (by simp [hi]), if_neg (by simp [hon]), if_pos (by simp [hw])]

theorem inFieldTest_begins (s : State) (c : Nat) (hc : c < 192) (hd : s.testDue c) (ht : s.testOf c = .idle) (hi : s.mgmt.ift = true)
    (hon : (s.die (c / 24)).st = .online) (hw : s.windowOpen c = false) (hk : s.kidsSavable c = true) (hr : s.drainRoom c = true) :
    s.inFieldTest c = s.beginDrain c := by
  rw [inFieldTest_idle s c hc hd ht, if_neg (by simp [hi]), if_neg (by simp [hon]), if_neg (by simp [hw, hk, hr])]

theorem inFieldTest_drained (s : State) (c : Nat) (hc : c < 192) (hd : s.testDue c) (ht : s.testOf c = .draining) (he : s.coreEmpty c) :
    s.inFieldTest c = s.setTest c .testing := by
  obtain ⟨hb, ho⟩ := hd
  rw [State.inFieldTest, if_neg (by simp [hb, ho]; omega), ht]
  exact if_pos ((coreEmpty_iff s c).mpr he)

theorem retry_deferred (s : State) (c : Nat) (late : Bool) (ht : s.testOf c = .deferred) :
    s.inFieldTestRetry c late =
      if (s.die (c / 24)).st ≠ .online then (s.setTest c .idle).logEv .iftSkipped 1 (evCore c) []
      else if !s.drainRoom c || !s.kidsSavable c then
        (if late then (s.setTest c .idle).logEv .iftSkipped 1 (evCore c) [] else s)
      else if !s.windowOpen c then s.beginDrain c
      else if late then (s.beginDrain c).overrunCore c
      else s := by
  rw [State.inFieldTestRetry, ht]

theorem Drained.setTest {s t : State} {c : Nat} (h : Drained s t c) (x : Ift) : Drained s (t.setTest c x) c := by
  obtain ⟨hf, hw, ht, hg⟩ := h
  refine ⟨?_, hw, ht, hg⟩
  unfold State.setTest
  rw [hf]

/-- A core that is not empty is drained: its test is DRAINING, and all on it is to stop (R300). -/
theorem beginDrain_drains (s : State) (c : Nat) (hg : Sparse.wf none s.groups = true) (h : ¬ s.coreEmpty c) :
    (s.beginDrain c).testOf c = .draining ∧ Drained s (s.beginDrain c) c := by
  rw [beginDrain_busy s c h]
  exact ⟨testOf_setTest _ _ _, (drained_drain s c hg).setTest .draining⟩

/-- A test that fails takes its core offline (R45, R104). -/
theorem inFieldTestEnd_fails (s : State) (c : Nat) (ht : s.testOf c = .testing) :
    ∃ t, s.inFieldTestEnd c false = t ∧ OnlyGroupsRecs ((((s.setTest c .idle).setDie (c / 24) { s.die (c / 24) with
      offl := (s.die (c / 24)).offl ||| BitVec.ofNat 24 (2 ^ (c % 24)) })).logEv .coreFailed 2 (evCore c) []) t := by
  refine ⟨_, ?_, onlyGroupsRecs_moveItems _ fun x => x == c⟩
  rw [State.inFieldTestEnd, if_neg (by simp [ht])]
  rfl

theorem getLsbD_twoPow (i : Nat) (h : i < 24) : (BitVec.ofNat 24 (2 ^ i)).getLsbD i = true := by
  rw [BitVec.getLsbD_ofNat, Nat.testBit_two_pow_self]; simp [h]

/-! ### The statement -/

/-- What the end of the self-test makes of the die, the mailbox and the rest (R47). -/
theorem selfTestEnd_facts (s : State) (k : Nat) (pass : Bool) (h : (s.die k).st = .resetting) :
    let t := s.selfTestEnd k pass
    t.die k = (s.die k).tested pass ∧ (∀ j, j ≠ k → t.die j = s.die j) ∧ t.mem = s.mem ∧ t.recs = s.recs ∧ t.groups = s.groups ∧
    t.mgmt.evprod = s.mgmt.evprod + (if pass then 0 else 1) ∧
    ((s.die k).awaiting = true → t.mgmt.busy = false ∧ t.mgmt.code = BitVec.ofNat 8 (if pass then cOk else cBadState)) := by
  obtain ⟨hd, hm, hr, hg, he⟩ := afterSelfTest_facts s k pass
  obtain ⟨wd, wm, wr, wg, we, ww⟩ := endWait_facts (s.afterSelfTest k pass) (s.die k).awaiting (if pass then cOk else cBadState)
  rw [selfTestEnd_eq s k pass h]
  refine ⟨?_, fun j hj => ?_, wm.trans hm, wr.trans hr, wg.trans hg, we.trans he, ww⟩
  · rw [State.die, wd, hd, Sparse.get_set_same]
  · rw [State.die, wd, hd, Sparse.get_set_other _ _ _ hj]; rfl

/-- A core whose offline bit is set is not eligible (R45, R46). -/
theorem coreEligible_offl (s : State) (c : Nat) (h : (s.die (c / 24)).offl.getLsbD (c % 24) = true) : s.coreEligible c = false := by
  simp [State.coreEligible, h]

/-- An overrun core is still drained, and its windows are overrun (R299, R300). -/
theorem Drained.overrun {s t : State} {c : Nat} (h : Drained s t c) :
    (t.overrunCore c).testOf c = t.testOf c ∧ (t.overrunCore c).mem = s.mem ∧
    (∀ u a, s.team u = some a → a.core = c → a.st ≠ .suspended → ∃ b, (t.overrunCore c).team u = some b ∧ b.stopping = true) ∧
    ∀ gid g, s.group gid = some g → g.core = c → g.resident = true → ∃ g', (t.overrunCore c).group gid = some g' ∧ g'.preempt = true ∧
      (g.depthNp ≠ 0 → g'.depthNp = 0 ∧ g'.overrun = true) := by
  obtain ⟨hf, hg⟩ := overrunCore_group t c h.wf
  refine ⟨by rw [State.testOf, hf]; rfl, by rw [hf, h.frame], fun u a ha hc hs => ?_, fun gid g hgg hc hr => ?_⟩
  · obtain ⟨b, hb, hbs⟩ := h.teams u a ha hc hs
    exact ⟨b, by rw [hf]; exact hb, hbs⟩
  · obtain ⟨g', hg', h1, h2, h3, h4⟩ := h.groups gid g hgg hc hr
    obtain ⟨x, hx, hp, hd⟩ := hg gid g' hg' h1 h2 h3
    exact ⟨x, hx, hp, fun hne => hd (by rw [h4]; exact hne)⟩

theorem dirOf_without (s t : State) (k line : Nat) (hw : Sparse.wf {} s.dir = true) (h : t.dir = mapVals {} s.dir (Dir.without k)) :
    t.dirOf line = (s.dirOf line).without k := by
  rw [State.dirOf, h]
  exact get_mapVals (Dir.without k) (by simp [Dir.without]) hw line

/-- Settles O43. -/
theorem diesFencedAndTested : Obligations.DiesFencedAndTested := by
  unfold Obligations.DiesFencedAndTested
  refine ⟨fun s k _ hst htx hdir hteam _ => ⟨s.fenceInstant k, rfl, ?_⟩, fun s k hst => ?_, fun s k pass hst => ⟨s.selfTestEnd k pass, rfl, ?_⟩,
    fun s c hc => ?_⟩
  · have hf := fenceInstant_fenced s k hst
    obtain ⟨hdirty, hl2, htlb, hother⟩ := dropDieCaches_facts s k
    rw [← hf.dirty] at hdirty hother
    rw [← hf.l2] at hl2
    rw [← hf.tlb] at htlb
    refine ⟨?_, fun j hj => ?_, hf.mem, hf.poison, fun id x hx hcore hmill hacc _ => ?_, hdirty, hl2, htlb, hother, fun line => ?_,
      fun u tm htm hcore => ?_, fenceInstant_mailbox s k hst⟩
    · rw [State.die, hf.dies, Sparse.get_set_same]
    · rw [State.die, hf.dies, Sparse.get_set_other _ _ _ hj]; rfl
    · refine Sparse.get_of_unlisted fun v hv => ?_
      obtain ⟨w, hw⟩ := hf.txns id v hv
      exact loseWork_txns s k id x htx hx hcore hmill hacc w hw
    · rw [dirOf_without s (s.fenceInstant k) k line hdir hf.dir]
      exact ⟨rfl, rfl, rfl⟩
    · obtain ⟨a, ha, h1, h2⟩ := hf.teams u tm (mem_listed.mp (mem_listed_of_get htm))
      rw [h2]
      exact loseWork_teams s k hteam u a ha (by rw [← h1, hcore])
  · have hkeep : s.fenceInstant k = s := by rw [State.fenceInstant, if_pos hst]
    exact congrArg Host.Outcome.next hkeep
  · obtain ⟨hd, hj, hm, hr, hg, he, hw⟩ := selfTestEnd_facts s k pass hst
    refine ⟨hd, hj, hm, hr, hg, he, fun ha => ⟨(hw ha).1, (hw ha).2.trans ?_⟩⟩
    cases pass <;> rfl
  · intro test empty skips due drains begins
    have htest : ∀ late, exec (.inFieldTest c) s = .next (s.inFieldTest c) ∧
        exec (.inFieldTestRetry c late) s = .next (s.inFieldTestRetry c late) := fun _ => ⟨rfl, rfl⟩
    have hbegins : ∀ i, exec i s = .next (s.beginDrain c) → begins i false := by
      intro i hi hg _
      refine ⟨fun he => by rw [hi, beginDrain_empty s c he]; rfl, fun he => ?_⟩
      obtain ⟨hdr, hf, hw, ht, hgr⟩ := beginDrain_drains s c hg he
      refine ⟨_, hi, hdr, by rw [hf], ht, fun gid g hgg h1 h2 => ?_⟩
      obtain ⟨g', hg', -, -, h3, h4⟩ := hgr gid g hgg h1 h2
      exact ⟨g', hg', h3, nofun, fun _ => h4⟩
    have hcuts : s.windowOpen c = true → ∀ i, exec i s = .next ((s.beginDrain c).overrunCore c) → begins i true := by
      intro hopen i hi hg _
      have hne : ¬ s.coreEmpty c := fun he => by
        rw [State.windowOpen, he.1] at hopen; cases hopen
      refine ⟨fun he => absurd he hne, fun _ => ?_⟩
      obtain ⟨hdr, hd⟩ := beginDrain_drains s c hg hne
      obtain ⟨ht, hm, hteams, hgroups⟩ := hd.overrun
      refine ⟨_, hi, ht.trans hdr, hm, hteams, fun gid g hgg h1 h2 => ?_⟩
      obtain ⟨g', hg', h3, h4⟩ := hgroups gid g hgg h1 h2
      exact ⟨g', hg', h3, fun _ => h4, nofun⟩
    refine ⟨fun hd => ?_, fun ht hi => ?_, fun hd ht hi hon => ?_, fun late ht hon => ?_, fun hd ht hi hon => ⟨fun hw => ?_, fun hw hk hr => ?_⟩,
      fun hd ht he => ?_, fun late ht hon hr hk => ⟨fun hw hl => ?_, fun hw hl => ?_, fun hw => ?_⟩, fun ht => ?_, fun ht => ?_⟩
    · rw [(htest false).1, inFieldTest_early s c hd]
    · rw [(htest false).1, inFieldTest_off s c hc ht hi]
    · rw [(htest false).1, inFieldTest_skips s c hc hd ht hi hon]
    · rw [(htest late).2, retry_deferred s c late ht, if_pos hon]; rfl
    · rw [(htest false).1, inFieldTest_defers s c hc hd ht hi hon hw]; rfl
    · exact hbegins _ (by rw [(htest false).1, inFieldTest_begins s c hc hd ht hi hon hw hk hr])
    · rw [(htest false).1, inFieldTest_drained s c hc hd ht he]; rfl
    · rw [(htest late).2, retry_deferred s c late ht, if_neg (by simp [hon]), if_neg (by simp [hr, hk]), if_neg (by simp [hw]), if_neg (by simp [hl])]
    · refine hcuts hw _ ?_
      rw [(htest late).2, retry_deferred s c late ht, if_neg (by simp [hon]), if_neg (by simp [hr, hk]), if_neg (by simp [hw]), if_pos hl]
    · refine hbegins _ ?_
      rw [(htest late).2, retry_deferred s c late ht, if_neg (by simp [hon]), if_neg (by simp [hr, hk]), if_pos (by simp [hw])]
    · have hend : s.inFieldTestEnd c true = s.setTest c .idle := by rw [State.inFieldTestEnd, if_neg (by simp [ht])]; rfl
      exact congrArg Host.Outcome.next hend
    · obtain ⟨t, he, hf⟩ := inFieldTestEnd_fails s c ht
      have hdie : t.die (c / 24) = { s.die (c / 24) with offl := (s.die (c / 24)).offl ||| BitVec.ofNat 24 (2 ^ (c % 24)) } := by
        rw [hf.field (State.die · (c / 24)), die_logEv, State.die_setDie_same]
      refine ⟨t, congrArg Host.Outcome.next he, (hf.field (State.testOf · c)).trans (testOf_setTest s c .idle), hf.field State.mem, hdie,
        hf.field fun s => s.mgmt.evprod, coreEligible_offl t c ?_⟩
      rw [hdie, BitVec.getLsbD_or, getLsbD_twoPow _ (Nat.mod_lt _ (by omega)), Bool.or_true]

end Sys2Proof.Machine
end

section
/-! SUPPORT. O44: a store that reaches its home, as a concrete state evaluates it. -/
namespace Sys2Proof.Machine

/-- A store of one byte, which its mask leaves out of what is written (R174). -/
def maskedStore : Part := { lane := 0, addr := 0, va := 0, len := 1, op := .store, data := [1], mask := [true] }

/-- Its request, at no group and with nothing to wait for. -/
def maskedTxn : Txn := { core := 0, gid := 0, ctx := 0, launch := 0, tgt := .cell, line := 0, parts := [maskedStore] }

/-- The machine after start-up, with this request alone. -/
def maskedState : State := { State.reset with txns := [(0, some maskedTxn)] }

/-- The home accepts the request and writes no byte. -/
theorem maskedState_home : ((maskedState.homeRequest 0).cell 0, ((maskedState.homeRequest 0).txn 0).map (·.accepted)) = (0, some true) := rfl

/-- Refutes O44: a store with a masked byte leaves that byte as it was, while the statement, which does not ask that the store's mask be
empty, has it written. -/
theorem not_homesAndWalks : ¬ Obligations.HomesAndWalks := by
  unfold Obligations.HomesAndWalks
  rintro ⟨hhome, -⟩
  obtain ⟨hstore, -⟩ := hhome maskedState 0 maskedTxn maskedStore rfl rfl rfl rfl rfl rfl rfl rfl rfl rfl rfl rfl rfl (by decide) (by decide) rfl rfl
    (by decide) rfl
  obtain ⟨t, hexec, hcell, -⟩ := hstore rfl rfl
  have ht : maskedState.homeRequest 0 = t := Host.Outcome.next.inj hexec
  have hzero : t.cell 0 = 0 := by rw [← ht]; exact congrArg Prod.fst maskedState_home
  rw [hcell 0] at hzero
  exact absurd hzero (by decide)

end Sys2Proof.Machine
end

section
/-! SUPPORT. What reaches a home from outside the compute dies: the cell behind an address of HBM4E, writes of an I/O die, and atomics
(R16, R22, R53, R61, R187, R189). -/
namespace Sys2Proof.Machine

/-! ### Bytes and words (R3) -/

theorem toLE_leNat (bs : List Byte) : toLE bs.length (leNat bs) = bs := by
  induction bs with
  | nil => rfl
  | cons b bs ih =>
    have hb := b.isLt
    have hdiv : (b.toNat + 256 * leNat bs) / 256 = leNat bs := by omega
    have hhead : BitVec.ofNat 8 (b.toNat + 256 * leNat bs) = b := by
      apply BitVec.eq_of_toNat_eq
      rw [BitVec.toNat_ofNat]
      omega
    rw [List.length_cons, leNat, toLE, hdiv, hhead, ih]

theorem cells_getD (s : State) (c n i : Nat) (h : i < n) : (s.cells c n).getD i 0 = s.cell (c + i) := by
  rw [State.cells, List.getD_eq_getElem _ _ (by simpa using h)]
  simp

/-- The bytes of a word that was read are those of its cells. -/
theorem toLE_wordAt (s : State) (c n i : Nat) (h : i < n) : (toLE n (s.wordAt c n)).getD i 0 = s.cell (c + i) := by
  have hlen : (s.cells c n).length = n := by simp [State.cells]
  have hbytes := toLE_leNat (s.cells c n)
  rw [hlen] at hbytes
  rw [State.wordAt, hbytes, cells_getD s c n i h]

/-! ### The cell behind an address of HBM4E (R22) -/

/-- The cell of an address in the interleaved view. -/
def hbmCell (pa : Nat) : Nat := hashQuad pa * hbmBytes + pa / 2 ^ 14 * 4096 + pa % 4096

theorem hashQuad_lt (pa : Nat) : hashQuad pa < 4 := by
  have hb : ∀ b : Bool, b2n b ≤ 1 := by decide
  have h0 := hb (xorBits pa ((List.range 20).map fun i => 12 + 2 * i))
  have h1 := hb (xorBits pa ((List.range 20).map fun i => 13 + 2 * i))
  rw [hashQuad]
  omega

theorem viewOf_hbm (s : State) (pa : Nat) (h : pa < 4 * hbmBytes) : s.viewOf pa = some (0, 0, hbmCell pa) := if_pos h

theorem quadOf_hbmCell (pa : Nat) (h : pa < 4 * hbmBytes) : quadOf (hbmCell pa) = hashQuad pa := by
  have hq := hashQuad_lt pa
  have hlow : pa / 2 ^ 14 * 4096 + pa % 4096 < hbmBytes := by
    simp only [hbmBytes] at h ⊢
    omega
  have hpos : 0 < hbmBytes := by decide
  have hdiv : hbmCell pa / hbmBytes = hashQuad pa := by
    rw [hbmCell, Nat.add_assoc, Nat.mul_comm, Nat.mul_add_div hpos, Nat.div_eq_of_lt hlow, Nat.add_zero]
  have hbelow : hbmCell pa < carveBase := by
    have : hashQuad pa * hbmBytes ≤ 3 * hbmBytes := Nat.mul_le_mul_right _ (by omega)
    rw [hbmCell, carveBase]
    omega
  rw [quadOf, if_pos hbelow, hdiv]

/-! ### Lines that nothing holds (R179) -/

theorem lineFree_undirected (s : State) (me : Option Nat) (l : Nat) (hd : s.dir = []) (hb : s.mgmt.boot ≠ .notReady) : s.lineFree me l = true := by
  simp [State.lineFree, State.lineHeld, State.dirOf, hd, Sparse.get, hb]

theorem rangeFree_undirected (s : State) (c n : Nat) (hd : s.dir = []) (hb : s.mgmt.boot ≠ .notReady) : s.rangeFree c n = true :=
  List.all_eq_true.mpr fun l _ => lineFree_undirected s none l hd hb

theorem poisonedRange_clean (s : State) (c n : Nat) (h : s.poison = []) : s.poisonedRange c n = false := by
  simp [State.poisonedRange, h, Sparse.get]

/-! ### Writes of an I/O die (R187, R189) -/

theorem OnlyLogs.put {s t : State} (h : OnlyLogs s t) : OnlyPut s t := h.memory.put
theorem OnlyPoison.put {s t : State} (h : OnlyPoison s t) : OnlyPut s t := by unfold OnlyPoison OnlyPut at *; rw [h]

/-- The sectors of a write, poisoned by the data that was sent so. -/
def State.poisonAll (s : State) (bad : Option Nat) (src : Src') (ws : List (Nat × Byte)) : State :=
  match bad with
  | some kind => ((ws.map fun w => w.1 / 32).eraseDups).foldl (fun (s : State) sec => s.poisonSector kind src.agent src.index (sec * 32)) s
  | none => s

theorem agentPut_eq (s : State) (src : Src') (id : Nat) (bad : Option Nat) (ws : List (Nat × Byte)) :
    s.agentPut src id bad ws = ((s.commit src ws).poisonAll bad src ws).publishAll ((ws.map fun w => w.1 / 128).eraseDups) id := rfl

theorem onlyPoison_poisonAll (s : State) (bad : Option Nat) (src : Src') (ws : List (Nat × Byte)) : OnlyPoison s (s.poisonAll bad src ws) := by
  unfold State.poisonAll; split
  · exact foldl_rel OnlyPoison .refl .trans _ _ (fun s sec _ => onlyPoison_poisonSector s _ _ _ _) s
  · rfl

theorem poisonAll_poison (s : State) (bad : Option Nat) (src : Src') (ws : List (Nat × Byte)) (k : Nat) :
    Sparse.get false (s.poisonAll bad src ws).poison k = true ↔
      Sparse.get false s.poison k = true ∨ (bad.isSome = true ∧ ∃ w ∈ ws, w.1 / 32 = k) := by
  cases bad with
  | none => simp [State.poisonAll]
  | some kind =>
    have hsec : (∃ j ∈ (ws.map fun w => w.1 / 32).eraseDups, k = j * 32 / 32) ↔ ∃ w ∈ ws, w.1 / 32 = k := by
      simp only [List.mem_eraseDups, List.mem_map, Nat.mul_div_cancel _ (show 0 < 32 by omega)]
      constructor
      · rintro ⟨j, ⟨w, hw, rfl⟩, rfl⟩; exact ⟨w, hw, rfl⟩
      · rintro ⟨w, hw, rfl⟩; exact ⟨_, ⟨w, hw, rfl⟩, rfl⟩
    unfold State.poisonAll
    rw [foldl_poisonSector_poison kind src.agent src.index (fun j => j * 32), hsec]
    simp

theorem onlyPut_agentPut (s : State) (src : Src') (id : Nat) (bad : Option Nat) (ws : List (Nat × Byte)) :
    OnlyPut s (s.agentPut src id bad ws) := by
  rw [agentPut_eq]
  exact .trans _ _ _ (.trans _ _ _ (onlyMemory_commit _ _ _).put (onlyPoison_poisonAll _ _ _ _).put) (onlyLanesDir_publishAll _ _ _).put

theorem agentPut_mem (s : State) (src : Src') (id : Nat) (bad : Option Nat) (ws : List (Nat × Byte)) :
    (s.agentPut src id bad ws).mem = (s.putCells ws).mem := by
  rw [agentPut_eq, (onlyLanesDir_publishAll _ _ _).field State.mem, (onlyPoison_poisonAll _ _ _ _).field State.mem, commit_mem]

/-- A write to memory that holds no poison leaves poisoned the sectors of data sent so, and no other. -/
theorem agentPut_poison (s : State) (src : Src') (id : Nat) (bad : Option Nat) (ws : List (Nat × Byte)) (h : s.poison = []) (k : Nat) :
    Sparse.get false (s.agentPut src id bad ws).poison k = true ↔ bad.isSome = true ∧ ∃ w ∈ ws, w.1 / 32 = k := by
  rw [agentPut_eq, (onlyLanesDir_publishAll _ _ _).field State.poison, poisonAll_poison, commit_poison, h]
  simp [Sparse.get]

/-- The home accepts bytes of an I/O die: they stand in their cells. -/
theorem acceptBytes_cell (s : State) (p i a : Nat) (data : List Byte) (poisoned : Bool) (c : Nat) :
    (s.acceptBytes p i a data poisoned).cell c = if a ≤ c ∧ c < a + data.length then data.getD (c - a) 0 else s.cell c := by
  have hcount : OnlyLogs s (s.countLines (srcIod p) a data.length) := onlyLogs_countAll s (srcIod p) (linesOf a data.length)
  rw [State.acceptBytes, cell_of_mem (agentPut_mem _ _ _ _ _)]
  exact (putCells_runOf_cell _ a data.length (fun j => data.getD j 0) c).trans (by rw [cell_of_mem (hcount.field State.mem)])

theorem onlyPut_acceptBytes (s : State) (p i a : Nat) (data : List Byte) (poisoned : Bool) : OnlyPut s (s.acceptBytes p i a data poisoned) := by
  have hcount : OnlyLogs s (s.countLines (srcIod p) a data.length) := onlyLogs_countAll s (srcIod p) (linesOf a data.length)
  exact .trans _ _ _ hcount.put (onlyPut_agentPut _ _ _ _ _)

/-- Bytes sent poisoned leave every sector that they touch poisoned (R187). -/
theorem acceptBytes_poison (s : State) (p i a : Nat) (data : List Byte) (poisoned : Bool) (h : s.poison = []) (hn : 1 ≤ data.length) (sec : Nat) :
    Sparse.get false (s.acceptBytes p i a data poisoned).poison sec =
      (poisoned && decide (a / 32 ≤ sec ∧ sec ≤ (a + data.length - 1) / 32)) := by
  have hcount : OnlyLogs s (s.countLines (srcIod p) a data.length) := onlyLogs_countAll s (srcIod p) (linesOf a data.length)
  have hsec : (∃ w ∈ (List.range data.length).map fun j => (a + j, data.getD j 0), w.1 / 32 = sec) ↔
      a / 32 ≤ sec ∧ sec ≤ (a + data.length - 1) / 32 := by
    constructor
    · rintro ⟨w, hw, rfl⟩
      obtain ⟨j, hj, rfl⟩ := List.mem_map.mp hw
      have := List.mem_range.mp hj
      simp only
      omega
    · rintro ⟨h1, h2⟩
      refine ⟨_, List.mem_map.mpr ⟨max a (32 * sec) - a, List.mem_range.mpr (by omega), rfl⟩, ?_⟩
      simp only
      omega
  rw [Bool.eq_iff_iff, State.acceptBytes, agentPut_poison _ _ _ _ _ ((hcount.field State.poison).trans h), hsec]
  cases poisoned <;> simp

/-! ### Atomics of an I/O die (R389) -/

/-- The cells of a word after an atomic: where it writes, its bytes. -/
theorem agentWrite_word_cell (s : State) (src : Src') (i c n v : Nat) (x : Nat) :
    (s.agentWrite src i ((List.range n).map fun j => (c + j, (toLE n v).getD j 0))).cell x =
      if c ≤ x ∧ x < c + n then (toLE n v).getD (x - c) 0 else s.cell x := by
  rw [cell_of_mem (agentWrite_mem _ _ _ _)]
  exact putCells_runOf_cell s c n (fun j => (toLE n v).getD j 0) x

/-- What an atomic of an I/O die leaves at its word: a new value, or only the count of its request. -/
def State.atomPut (s : State) (src : Src') (i c n : Nat) (v : Option Nat) : State :=
  match v with
  | some v => s.agentWrite src i ((List.range n).map fun j => (c + j, (toLE n v).getD j 0))
  | none => s.count src c

theorem onlyPut_atomPut (s : State) (src : Src') (i c n : Nat) (v : Option Nat) : OnlyPut s (s.atomPut src i c n v) := by
  cases v with
  | none => exact (onlyLogs_count s src c).put
  | some v => exact onlyPut_agentWrite s src i _

theorem atomPut_cell (s : State) (src : Src') (i c n : Nat) (v : Option Nat) (x : Nat) :
    (s.atomPut src i c n v).cell x =
      match v with
      | some v => if c ≤ x ∧ x < c + n then (toLE n v).getD (x - c) 0 else s.cell x
      | none => s.cell x := by
  cases v with
  | none => exact cell_of_mem ((onlyLogs_count s src c).field State.mem) x
  | some v => exact agentWrite_word_cell s src i c n v x

end Sys2Proof.Machine
end

section
/-! SUPPORT. O46: writes, AtomicOps and reads that the host sends, from their arrival to their home (R48, R50, R52 to R56, R456). -/
namespace Sys2Proof.Machine

/-! ### Arrival at the ordering point (R54, R55) -/

/-- The physical address behind an offset of a function's BAR2 (R50). -/
def State.windowPa (s : State) (p f off : Nat) : Nat :=
  (Sparse.get 0 (s.port p).winbase f).toNat * 2 ^ 26 / 2 ^ barLog p f * 2 ^ barLog p f + off

theorem bar2_eq (s : State) (p f off : Nat) : s.bar2 p f off = if s.windowPa p f off < 4 * hbmBytes then some (s.windowPa p f off) else none := rfl

/-- The state after a transaction has arrived that depends on nothing. -/
def State.arrive (s : State) (w : Posted) : State :=
  { s with next := s.next + 3, posted := [(s.next + 1, some { w with tlp := s.next, sent := some (s.next + 2) })] }

theorem postNew_alone (s : State) (w : Posted) (h : s.posted = []) (hs : w.sent = none) :
    s.postNew w = { s with next := s.next + 2, posted := [(s.next, some { w with sent := some (s.next + 1) })] } := by
  have hself : w.dependsOn w = false := by simp [Posted.dependsOn]
  simp [State.postNew, State.fresh, State.sendPosted, State.setPosted, State.postedAt, State.maySend, h, hs, hself, listed, Sparse.set, Sparse.put,
    Sparse.del, Sparse.ins, Sparse.get]

theorem postNew_numbered (s : State) (w : Posted) (h : s.posted = []) (hs : w.sent = none) :
    { s with next := s.next + 1 }.postNew { w with tlp := s.next } = s.arrive w := by
  exact postNew_alone { s with next := s.next + 1 } { w with tlp := s.next } h hs

/-- A write within one line is one transaction. -/
theorem lineChunks_within (f a : Nat) (bs : List Byte) (h1 : 1 ≤ bs.length) (h2 : a % 128 + bs.length ≤ 128) :
    lineChunks (f + 1) a bs = [(a, bs)] := by
  obtain ⟨b, bs, rfl⟩ := List.exists_cons_of_length_pos h1
  have hfit : (b :: bs).length ≤ 128 - a % 128 := by omega
  rw [lineChunks, List.take_of_length_le hfit, List.drop_of_length_le hfit]
  · cases f <;> rfl
  · exact List.cons_ne_nil b bs

/-! The definitions that read a window's base are unfolded as functions, before they are applied: applied, the kernel would try to evaluate
the base. -/

theorem postMem_outside (s : State) (p f off rid : Nat) (data : List Byte) (ro ido poisoned : Bool) (h : s.bar2 p f off = none) :
    s.postMem p f off data ro ido rid poisoned = s.logEv .unsupportedRequest 1 (evIod p) [f, off, data.length] := by
  have hdef : @State.postMem = @State.postMem := rfl
  conv at hdef => rhs; delta State.postMem
  rw [hdef]
  beta_reduce
  rw [h]

/-- One chunk of a write through BAR2 arrives. -/
def State.postChunk (p rid t : Nat) (ro ido poisoned : Bool) (s : State) (c : Nat × List Byte) : State :=
  match s.viewOf c.1 with
  | some (_, _, a) => s.postNew { port := p, quad := quadOf a, ro := ro, ido := ido, rid := rid, tlp := t, op := .bytes a c.2 poisoned }
  | none => s

theorem postMem_inside (s : State) (p f off rid pa : Nat) (data : List Byte) (ro ido poisoned : Bool) (h : s.bar2 p f off = some pa) :
    s.postMem p f off data ro ido rid poisoned =
      (lineChunks data.length pa data).foldl (State.postChunk p rid s.next ro ido poisoned) { s with next := s.next + 1 } := by
  have hdef : @State.postMem = @State.postMem := rfl
  conv at hdef => rhs; delta State.postMem
  rw [hdef]
  beta_reduce
  rw [h]
  rfl

theorem postMem_within (s : State) (p f off rid pa : Nat) (data : List Byte) (ro ido poisoned : Bool) (h : s.bar2 p f off = some pa)
    (hb : pa < 4 * hbmBytes) (h1 : 1 ≤ data.length) (h2 : pa % 128 + data.length ≤ 128) (hp : s.posted = []) :
    s.postMem p f off data ro ido rid poisoned = s.arrive { port := p, quad := hashQuad pa, ro := ro, ido := ido, rid := rid, tlp := 0
                                                            op := .bytes (hbmCell pa) data poisoned } := by
  obtain ⟨n, hn⟩ := Nat.exists_eq_add_of_le' h1
  rw [postMem_inside s p f off rid pa data ro ido poisoned h, hn, lineChunks_within n pa data h1 h2, List.foldl_cons, List.foldl_nil,
    State.postChunk, viewOf_hbm _ pa hb]
  dsimp only
  rw [quadOf_hbmCell pa hb]
  exact postNew_numbered s { port := p, quad := hashQuad pa, ro := ro, ido := ido, rid := rid, tlp := 0
                             op := .bytes (hbmCell pa) data poisoned } hp rfl

theorem barServed_iff (f off n : Nat) :
    barServed f off n = true ↔ regServed (barOffset f off) n = true ∧ off < if f = 0 then 0x1000000 else 0x10000 := by
  by_cases hf : f = 0 <;> simp [barServed, hf]

theorem postReg_served (s : State) (p f off rid : Nat) (data : List Byte) (ro ido : Bool) (h : barServed f off data.length = true)
    (hp : s.posted = []) :
    s.postReg p f off data ro ido rid = s.arrive { port := p, quad := regQuad (barOffset f off), ro := ro, ido := ido, rid := rid, tlp := 0
                                                   op := .reg f off data.length (BitVec.ofNat 64 (leNat data)) } := by
  rw [State.postReg, if_neg (by simp [h])]
  exact postNew_numbered s { port := p, quad := regQuad (barOffset f off), ro := ro, ido := ido, rid := rid, tlp := 0
                             op := .reg f off data.length (BitVec.ofNat 64 (leNat data)) } hp rfl

/-! ### AtomicOps (R53) -/

/-- Bytes of an AtomicOp. -/
def amoSize (wide : Bool) : Nat := if wide then 8 else 4

theorem postAtomic_inside (s : State) (p f off rid tag pa c : Nat) (op : PcieAtom) (wide ro ido : Bool) (a b : DWord)
    (h : s.bar2 p f off = some pa) (hv : s.viewOf pa = some (0, 0, c)) :
    s.postAtomic p f off op wide a b ro ido rid tag =
      if off % amoSize wide ≠ 0 then (s.emit (.unsupported p tag)).logEv .unsupportedRequest 1 (evIod p) [f, off, amoSize wide]
      else { s with next := s.next + 1 }.postNew { port := p, quad := quadOf c, ro := ro, ido := ido, rid := rid, tlp := s.next
                                                   op := .amo c op wide a b tag } := by
  have hdef : @State.postAtomic = @State.postAtomic := rfl
  conv at hdef => rhs; delta State.postAtomic
  rw [hdef]
  beta_reduce
  rw [h, Option.bind_some, hv]
  rfl

theorem postAtomic_outside (s : State) (p f off rid tag : Nat) (op : PcieAtom) (wide ro ido : Bool) (a b : DWord) (h : s.bar2 p f off = none) :
    s.postAtomic p f off op wide a b ro ido rid tag =
      (s.emit (.unsupported p tag)).logEv .unsupportedRequest 1 (evIod p) [f, off, amoSize wide] := by
  have hdef : @State.postAtomic = @State.postAtomic := rfl
  conv at hdef => rhs; delta State.postAtomic
  rw [hdef]
  beta_reduce
  rw [h, Option.bind_none]
  rfl

theorem postAtomic_arrives (s : State) (p f off rid tag pa : Nat) (op : PcieAtom) (wide ro ido : Bool) (a b : DWord)
    (h : s.bar2 p f off = some pa) (hb : pa < 4 * hbmBytes) (ho : off % amoSize wide = 0) (hp : s.posted = []) :
    s.postAtomic p f off op wide a b ro ido rid tag =
      s.arrive { port := p, quad := hashQuad pa, ro := ro, ido := ido, rid := rid, tlp := 0, op := .amo (hbmCell pa) op wide a b tag } := by
  rw [postAtomic_inside s p f off rid tag pa _ op wide ro ido a b h (viewOf_hbm s pa hb), if_neg (not_not.mpr ho), quadOf_hbmCell pa hb]
  exact postNew_numbered s { port := p, quad := hashQuad pa, ro := ro, ido := ido, rid := rid, tlp := 0
                             op := .amo (hbmCell pa) op wide a b tag } hp rfl

theorem postAtomic_misaligned (s : State) (p f off rid tag pa : Nat) (op : PcieAtom) (wide ro ido : Bool) (a b : DWord)
    (h : s.bar2 p f off = some pa) (hb : pa < 4 * hbmBytes) (ho : off % amoSize wide ≠ 0) :
    s.postAtomic p f off op wide a b ro ido rid tag =
      (s.emit (.unsupported p tag)).logEv .unsupportedRequest 1 (evIod p) [f, off, amoSize wide] := by
  rw [postAtomic_inside s p f off rid tag pa _ op wide ro ido a b h (viewOf_hbm s pa hb), if_pos ho]

/-! ### What a held transaction waits for (R55) -/

theorem isWrite_iff (o : PostedOp) : o.isWrite = true ↔ ∀ l x a b c t, o ≠ .amo l x a b c t := by
  cases o with
  | bytes _ _ _ => exact ⟨fun _ _ _ _ _ _ _ => nofun, fun _ => rfl⟩
  | reg _ _ _ _ => exact ⟨fun _ _ _ _ _ _ _ => nofun, fun _ => rfl⟩
  | amo l x a b c t => exact ⟨nofun, fun h => absurd rfl (h l x a b c t)⟩

theorem maySend_iff (s : State) (w : Posted) : s.maySend w = false ↔
    ∃ i e, (i, some e) ∈ s.posted ∧ e.port = w.port ∧ e.tlp < w.tlp ∧ (∀ l o x a b t, e.op ≠ .amo l o x a b t) ∧ w.ro = false ∧
      ¬ (w.ido = true ∧ e.rid ≠ w.rid) ∧ ¬ (e.quad = w.quad ∧ e.sent ≠ none) := by
  have hdep : ∀ e : Posted, w.dependsOn e = true ↔ e.port = w.port ∧ e.tlp < w.tlp ∧ (∀ l o x a b t, e.op ≠ .amo l o x a b t) ∧ w.ro = false ∧
      ¬ (w.ido = true ∧ e.rid ≠ w.rid) := fun e => by
    have hido : (w.ido && e.rid != w.rid) = false ↔ ¬ (w.ido = true ∧ e.rid ≠ w.rid) := by
      rw [← Bool.not_eq_true, Bool.and_eq_true, bne_iff_ne]
    rw [← isWrite_iff, ← hido]
    simp only [Posted.dependsOn, Bool.and_eq_true, beq_iff_eq, decide_eq_true_eq, Bool.not_eq_true', and_assoc]
  have hsent : ∀ e : Posted, (e.quad == w.quad && e.sent.isSome) = false ↔ ¬ (e.quad = w.quad ∧ e.sent ≠ none) := fun e => by
    rw [← Bool.not_eq_true]; simp [Option.isSome_iff_ne_none]
  rw [State.maySend, List.all_eq_false]
  constructor
  · rintro ⟨⟨i, e⟩, hm, hno⟩
    rw [Bool.or_eq_true, not_or, Bool.not_eq_true', Bool.not_eq_false, Bool.not_eq_true, hdep, hsent] at hno
    obtain ⟨⟨h1, h2, h3, h4, h5⟩, h6⟩ := hno
    exact ⟨i, e, mem_listed.mp hm, h1, h2, h3, h4, h5, h6⟩
  · rintro ⟨i, e, hm, h1, h2, h3, h4, h5, h6⟩
    refine ⟨(i, e), mem_listed.mpr hm, ?_⟩
    rw [Bool.or_eq_true, not_or, Bool.not_eq_true', Bool.not_eq_false, Bool.not_eq_true, hdep, hsent]
    exact ⟨⟨h1, h2, h3, h4, h5⟩, h6⟩

theorem sendPosted_held (s : State) (id : Nat) (w : Posted) (h : s.postedAt id = some w) (hw : s.maySend w = false) : s.sendPosted id = s := by
  rw [State.sendPosted, h]
  simp [hw]

theorem sendPosted_sends (s : State) (id : Nat) (w : Posted) (h : s.postedAt id = some w) (hs : w.sent = none) (hw : s.maySend w = true) :
    s.sendPosted id = { s with next := s.next + 1, posted := Sparse.set none s.posted id (some { w with sent := some s.next }) } := by
  rw [State.sendPosted, h]
  simp only [hs, hw, Option.isNone_none, Bool.and_self, ↓reduceIte, State.fresh, State.setPosted]

/-! ### At the home (R16, R53, R187) -/

theorem homeRequest_posted (s : State) (id : Nat) (w : Posted) (hid : id < 2 ^ 63) (h : s.postedAt id = some w) :
    s.homeRequest id = s.servePosted id w := by
  rw [State.homeRequest, if_neg (by omega), if_neg (by omega), h]

theorem servePosted_first (s : State) (id : Nat) (w : Posted) (hp : s.posted = [(id, some w)]) (hs : w.sent ≠ none) (ha : w.accepted = false) :
    (w.sent.isNone || w.accepted || !s.firstOnRoute id w) = false := by
  have hfirst : s.firstOnRoute id w = true := by simp [State.firstOnRoute, hp, listed]
  have hsent : w.sent.isNone = false := by simpa [Option.isSome_iff_ne_none] using hs
  rw [hsent, ha, hfirst]; rfl

theorem servePosted_bytes (s : State) (id a : Nat) (w : Posted) (data : List Byte) (poisoned : Bool) (hp : s.posted = [(id, some w)])
    (hs : w.sent ≠ none) (ha : w.accepted = false) (hd : s.dir = []) (hb : s.mgmt.boot ≠ .notReady) (hop : w.op = .bytes a data poisoned) :
    s.servePosted id w = (s.acceptBytes w.port id a data poisoned).setPosted id (some { w with accepted := true }) := by
  rw [State.servePosted, if_neg (by simp only [servePosted_first s id w hp hs ha, Bool.false_eq_true, not_false_iff]), hop]
  simp [rangeFree_undirected s a data.length hd hb]

theorem servePosted_amo (s : State) (id c tag : Nat) (w : Posted) (op : PcieAtom) (wide : Bool) (a b : DWord) (hp : s.posted = [(id, some w)])
    (hs : w.sent ≠ none) (ha : w.accepted = false) (hd : s.dir = []) (hb : s.mgmt.boot ≠ .notReady) (hop : w.op = .amo c op wide a b tag) :
    s.servePosted id w = (s.acceptAtomic w.port id c op wide a b tag).setPosted id (some { w with accepted := true }) := by
  rw [State.servePosted, if_neg (by simp only [servePosted_first s id w hp hs ha, Bool.false_eq_true, not_false_iff]), hop]
  simp [rangeFree_undirected s c _ hd hb]

theorem servePosted_reg (s : State) (id off n : Nat) (v : DWord) (w : Posted) (hp : s.posted = [(id, some w)])
    (hs : w.sent ≠ none) (ha : w.accepted = false) (hop : w.op = .reg 0 off n v) :
    s.servePosted id w = { s with posted := [] }.regWrite off n v.toNat := by
  have hnone : (listed s.posted).any (fun e => w.follows e.2) = false := by simp [hp, listed, Posted.follows]
  have hset : s.setPosted id none = { s with posted := [] } := by simp [State.setPosted, hp, Sparse.set, Sparse.del]
  have hown : ∀ t : State, t.ownsBell w.port 0 off = true := fun t => by simp [State.ownsBell]
  have hoff : barOffset 0 off = off := rfl
  rw [State.servePosted, if_neg (by simp only [servePosted_first s id w hp hs ha, Bool.false_eq_true, not_false_iff]), hop]
  simp only [hnone, Bool.false_eq_true, ↓reduceIte, hset, hown, hoff]

/-- A register write without Relaxed Ordering waits for every earlier write of its port (R79, R456). -/
theorem servePosted_waits (s : State) (id f off n : Nat) (v : DWord) (w : Posted) (hop : w.op = .reg f off n v)
    (h : (listed s.posted).any (fun e => w.follows e.2) = true) : s.servePosted id w = s := by
  rw [State.servePosted]
  by_cases hguard : (w.sent.isNone || w.accepted || !s.firstOnRoute id w) = true
  · rw [if_pos hguard]
  · rw [if_neg hguard, hop]
    exact if_pos h

/-! ### The value of an AtomicOp (R53) -/

/-- The word that an AtomicOp leaves (R53). -/
def amoValue (op : PcieAtom) (n old a b : Nat) : Nat :=
  match op with
  | .fetchAdd => (old + a) % 2 ^ (8 * n)
  | .swap => a % 2 ^ (8 * n)
  | .cas => if old = a % 2 ^ (8 * n) then b % 2 ^ (8 * n) else old

theorem atomNew_amo (op : PcieAtom) (wide : Bool) (old a b : Nat) :
    atomNew (amoOp op) (if wide then .n64 else .n32) old a b = some (amoValue op (amoSize wide) old a b) ∨
    (atomNew (amoOp op) (if wide then .n64 else .n32) old a b = none ∧ amoValue op (amoSize wide) old a b = old) := by
  have hadd : ∀ w, (old + a % 2 ^ w) % 2 ^ w = (old + a) % 2 ^ w := fun w => Nat.add_mod_mod _ _ _
  cases op with
  | fetchAdd => left; cases wide <;> exact congrArg some (hadd _)
  | swap => left; cases wide <;> rfl
  | cas =>
    have hcas : ∀ w, (if old = a % 2 ^ w then some (b % 2 ^ w) else none) = some (if old = a % 2 ^ w then b % 2 ^ w else old) ∨
        ((if old = a % 2 ^ w then some (b % 2 ^ w) else none) = none ∧ (if old = a % 2 ^ w then b % 2 ^ w else old) = old) := fun w => by
      by_cases h : old = a % 2 ^ w
      · rw [if_pos h, if_pos h]; exact .inl rfl
      · rw [if_neg h, if_neg h]; exact .inr ⟨rfl, rfl⟩
    cases wide
    · exact hcas 32
    · exact hcas 64

theorem acceptAtomic_eq (s : State) (p i c : Nat) (op : PcieAtom) (wide : Bool) (a b : DWord) (tag : Nat) (h : s.poison = []) :
    s.acceptAtomic p i c op wide a b tag =
      (s.atomPut (srcIod p) i c (amoSize wide)
        (atomNew (amoOp op) (if wide then .n64 else .n32) (s.wordAt c (amoSize wide)) a.toNat b.toNat)).emit
        (.completion p tag (toLE (amoSize wide) (s.wordAt c (amoSize wide))) false) := by
  rw [State.acceptAtomic, if_neg (by simp [poisonedRange_clean s c _ h])]
  rfl

/-- The cells after an AtomicOp. -/
theorem acceptAtomic_cell (s : State) (p i c : Nat) (op : PcieAtom) (wide : Bool) (a b : DWord) (tag : Nat) (h : s.poison = []) (x : Nat) :
    (s.acceptAtomic p i c op wide a b tag).cell x =
      if c ≤ x ∧ x < c + amoSize wide then
        (toLE (amoSize wide) (amoValue op (amoSize wide) (s.wordAt c (amoSize wide)) a.toNat b.toNat)).getD (x - c) 0
      else s.cell x := by
  have hemit : ∀ (t : State) (o : Out), (t.emit o).cell x = t.cell x := fun _ _ => rfl
  rw [acceptAtomic_eq s p i c op wide a b tag h, hemit, atomPut_cell]
  rcases atomNew_amo op wide (s.wordAt c (amoSize wide)) a.toNat b.toNat with he | ⟨he, hv⟩
  · rw [he]
  · rw [he, hv]
    by_cases hx : c ≤ x ∧ x < c + amoSize wide
    · rw [if_pos hx, toLE_wordAt s c _ _ (by omega), show c + (x - c) = x by omega]
    · rw [if_neg hx]

end Sys2Proof.Machine
end

section
/-! SUPPORT. O46: the reads of the host (R56), and the statement. -/
namespace Sys2Proof.Machine

/-! ### Inbound reads (R56) -/

theorem postedAt_setPosted_same (s : State) (id : Nat) (w : Option Posted) : (s.setPosted id w).postedAt id = w := Sparse.get_set_same none w s.posted id

theorem mem_postedOf (s : State) (p i : Nat) :
    i ∈ s.postedOf p ↔ ∃ e, (i, some e) ∈ s.posted ∧ e.port = p ∧ ∀ l o x y z t, e.op ≠ .amo l o x y z t := by
  rw [State.postedOf, List.mem_filterMap]
  constructor
  · rintro ⟨⟨j, e⟩, hm, he⟩
    by_cases hw : e.port = p ∧ e.op.isWrite = true
    · rw [if_pos hw] at he
      cases he
      exact ⟨e, mem_listed.mp hm, hw.1, (isWrite_iff e.op).mp hw.2⟩
    · rw [if_neg hw] at he; cases he
  · rintro ⟨e, hm, hp, hw⟩
    exact ⟨(i, e), mem_listed.mpr hm, if_pos ⟨hp, (isWrite_iff e.op).mpr hw⟩⟩

/-- A read that is served waits for the posted writes of its port. -/
def State.addRead (s : State) (p f : Nat) (bar0 : Bool) (tag a n : Nat) : State :=
  { s with
    reads := Sparse.set none s.reads (p * 2 ^ 16 + tag)
      (some { port := p, func := f, bar0 := bar0, tag := tag, addr := a, len := n, after := s.postedOf p }) }

/-- A read that is not served is an Unsupported Request. -/
def State.refuseRead (s : State) (p f off n tag : Nat) : State :=
  (s.emit (.unsupported p tag)).logEv .unsupportedRequest 1 (evIod p) [f, off, n]

theorem inboundRead_bar0 (s : State) (p f off n tag : Nat) :
    s.inboundRead p f true off n tag = if barServed f off n then s.addRead p f true tag off n else s.refuseRead p f off n tag := by
  have hdef : @State.inboundRead = @State.inboundRead := rfl
  conv at hdef => rhs; delta State.inboundRead
  rw [hdef]
  beta_reduce
  rw [if_pos rfl]
  by_cases h : barServed f off n = true
  · rw [if_pos h, if_pos h]; rfl
  · rw [if_neg h, if_neg h]; rfl

theorem inboundRead_inside (s : State) (p f off n tag pa : Nat) (h : s.bar2 p f off = some pa) :
    s.inboundRead p f false off n tag = if 4096 < n then s.refuseRead p f off n tag else s.addRead p f false tag pa n := by
  have hdef : @State.inboundRead = @State.inboundRead := rfl
  conv at hdef => rhs; delta State.inboundRead
  rw [hdef]
  beta_reduce
  rw [h]
  rfl

theorem inboundRead_outside (s : State) (p f off n tag : Nat) (h : s.bar2 p f off = none) :
    s.inboundRead p f false off n tag = s.refuseRead p f off n tag := by
  have hdef : @State.inboundRead = @State.inboundRead := rfl
  conv at hdef => rhs; delta State.inboundRead
  rw [hdef]
  beta_reduce
  rw [h]
  rfl

theorem readDone_waits (s : State) (key : Nat) (r : HostRead) (h : Sparse.get none s.reads key = some r)
    (hw : ∃ i ∈ r.after, s.postedAt i ≠ none) : s.readDone key = s := by
  obtain ⟨i, hi, hne⟩ := hw
  rw [State.readDone, h]
  exact if_pos (List.any_eq_true.mpr ⟨i, hi, Option.isSome_iff_ne_none.mpr hne⟩)

/-- A read whose writes are over, as it leaves the list of reads. -/
def State.endRead (s : State) (key : Nat) : State := { s with reads := Sparse.set none s.reads key none }

theorem readDone_free (s : State) (key : Nat) (r : HostRead) (h : Sparse.get none s.reads key = some r)
    (hf : ∀ i ∈ r.after, s.postedAt i = none) :
    s.readDone key =
      if r.bar0 then
        (s.endRead key).emit (.completion r.port r.tag
          (if s.ownsBell r.port r.func r.addr then s.regRead (barOffset r.func r.addr) r.len else List.replicate r.len 0) false)
      else
        let cs := s.paCells r.addr r.len
        let ls := (cs.map fun c => c / 128).eraseDups
        match ls.find? fun l => !s.lineFree none l with
        | some l => s.recall l
        | none => ((s.endRead key).countAll (srcIod r.port) ls).emit (.completion r.port r.tag (cs.map s.cell) (cs.any s.poisoned)) := by
  have hnone : (r.after.any fun i => (s.postedAt i).isSome) = false := by
    rw [List.any_eq_false]
    intro i hi
    rw [hf i hi]
    exact Bool.false_ne_true
  rw [State.readDone, h]
  simp only [hnone, Bool.false_eq_true, ↓reduceIte]
  rfl

theorem paCells_hbm (s : State) (pa n : Nat) (h : pa + n ≤ 4 * hbmBytes) : s.paCells pa n = (List.range n).map fun i => hbmCell (pa + i) := by
  rw [State.paCells, ← List.filterMap_eq_map]
  refine List.filterMap_congr fun i hi => ?_
  have := List.mem_range.mp hi
  rw [viewOf_hbm s _ (by omega)]
  rfl

theorem readDone_memory (s : State) (key : Nat) (r : HostRead) (h : Sparse.get none s.reads key = some r)
    (hf : ∀ i ∈ r.after, s.postedAt i = none) (hb0 : r.bar0 = false) (hd : s.dir = []) (hb : s.mgmt.boot ≠ .notReady) :
    s.readDone key = ((s.endRead key).countAll (srcIod r.port) (((s.paCells r.addr r.len).map fun c => c / 128).eraseDups)).emit
      (.completion r.port r.tag ((s.paCells r.addr r.len).map s.cell) ((s.paCells r.addr r.len).any s.poisoned)) := by
  have hfree : (((s.paCells r.addr r.len).map fun c => c / 128).eraseDups).find? (fun l => !s.lineFree none l) = none :=
    List.find?_eq_none.mpr fun l _ => by rw [lineFree_undirected s none l hd hb]; exact Bool.false_ne_true
  rw [readDone_free s key r h hf, if_neg (by rw [hb0]; exact Bool.false_ne_true)]
  simp only [hfree]

/-! ### The statement -/

theorem bar2_inside (s : State) (p f off : Nat) (h : s.windowPa p f off < 4 * hbmBytes) : s.bar2 p f off = some (s.windowPa p f off) := by
  rw [bar2_eq, if_pos h]
theorem bar2_outside (s : State) (p f off : Nat) (h : 4 * hbmBytes ≤ s.windowPa p f off) : s.bar2 p f off = none := by
  rw [bar2_eq, if_neg (Nat.not_lt.mpr h)]

/-- A posted write that a port that is up has received. -/
def State.takeWrite (s : State) (p f off rid : Nat) (bar0 poisoned ro ido : Bool) (data : List Byte) (fails : Option Nat) : State :=
  match fails with
  | some st => s.ideFail p st
  | none => if bar0 then s.postReg p f off data ro ido rid else s.postMem p f off data ro ido rid poisoned

theorem takeWrite_mem (s : State) (p f off rid : Nat) (poisoned ro ido : Bool) (data : List Byte) :
    s.takeWrite p f off rid false poisoned ro ido data none = s.postMem p f off data ro ido rid poisoned := by
  rw [State.takeWrite]
  exact if_neg Bool.false_ne_true
theorem takeWrite_reg (s : State) (p f off rid : Nat) (poisoned ro ido : Bool) (data : List Byte) :
    s.takeWrite p f off rid true poisoned ro ido data none = s.postReg p f off data ro ido rid := by
  rw [State.takeWrite]
  exact if_pos rfl

theorem execInboundPostedWrite_up (s : State) (p f off rid : Nat) (bar0 poisoned ro ido : Bool) (data : List Byte) (fails : Option Nat)
    (hp : p < 2) (hf : f < 32) (hup : (s.port p).up = true) (hlen : data.length ≤ 512)
    (hin : s.input = .postedWrite p f bar0 off data ro ido rid poisoned fails) :
    exec .inboundPostedWrite s = .next (s.takeWrite p f off rid bar0 poisoned ro ido data fails) := by
  have hstep : exec .inboundPostedWrite s = execInboundPostedWrite s := rfl
  rw [hstep, execInboundPostedWrite, hin]
  dsimp only
  rw [if_neg (by simp [hup]; omega)]
  cases fails <;> rfl

theorem execInboundAtomicop_up (s : State) (p f off rid tag : Nat) (op : PcieAtom) (wide ro ido : Bool) (a b : DWord)
    (hp : p < 2) (hf : f < 32) (hup : (s.port p).up = true) (hin : s.input = .atomicOp p f off op wide a b ro ido rid tag) :
    exec .inboundAtomicop s = .next (if (s.port p).tags ≤ tag then s else s.postAtomic p f off op wide a b ro ido rid tag) := by
  have hstep : exec .inboundAtomicop s = execInboundAtomicop s := rfl
  rw [hstep, execInboundAtomicop, hin]
  dsimp only
  by_cases ht : (s.port p).tags ≤ tag
  · rw [if_pos (.inr (.inr (.inl ht))), if_pos ht]
  · rw [if_neg (by simp [hup]; omega), if_neg ht]

theorem execInboundRead_up (s : State) (p f off n tag : Nat) (bar0 : Bool) (hp : p < 2) (hf : f < 32) (ht : tag < (s.port p).tags)
    (hup : (s.port p).up = true) (hin : s.input = .readRequest p f bar0 off n tag) :
    exec .inboundRead s = .next (s.inboundRead p f bar0 off n tag) := by
  have hstep : exec .inboundRead s = execInboundRead s := rfl
  rw [hstep, execInboundRead, hin]
  dsimp only
  rw [if_neg (by simp [hup]; omega)]

/-- Settles O46. -/
theorem inboundRequests : Obligations.InboundRequests := by
  unfold Obligations.InboundRequests
  intro bound window cellOf arrives alone tags
  have hwin : ∀ s p f off, window s p f off = s.windowPa p f off := fun s p f off => rfl
  have htags : ∀ s p, tags s p = (s.port p).tags := fun s p => rfl
  have hhome : ∀ id (s : State), exec (.homeRequest id) s = .next (s.homeRequest id) := fun _ _ => rfl
  refine ⟨?_, ?_, ?_, ?_, ?_, ?_, ?_⟩
  · intro s p f off rid bar0 poisoned ro ido data fails hp hf hup hlen hin refused
    rw [execInboundPostedWrite_up s p f off rid bar0 poisoned ro ido data fails hp hf hup hlen hin]
    refine ⟨fun st hst he => ?_, fun he hb hout => ?_, fun he hb hpa h1 h2 hnone => ?_, fun he hb => ⟨fun hno => ?_, fun hserved hnone => ?_⟩⟩
    · subst he
      rw [State.takeWrite]
      exact congrArg Host.Outcome.next (if_neg (by simp [hup]; omega))
    · subst he hb
      rw [hwin] at hout
      rw [takeWrite_mem]
      exact congrArg Host.Outcome.next (postMem_outside s p f off rid data ro ido poisoned (bar2_outside s p f off hout))
    · subst he hb
      rw [hwin] at hpa h2
      rw [hwin, takeWrite_mem]
      exact congrArg Host.Outcome.next
        (postMem_within s p f off rid _ data ro ido poisoned (bar2_inside s p f off hpa) hpa h1 h2 hnone)
    · subst he hb
      have hb0 : ¬ barServed f off data.length = true := fun h => hno ((barServed_iff f off _).mp h)
      rw [takeWrite_reg]
      exact congrArg Host.Outcome.next (if_pos (by simpa using hb0))
    · subst he hb
      rw [takeWrite_reg]
      exact congrArg Host.Outcome.next (postReg_served s p f off rid data ro ido ((barServed_iff f off _).mpr hserved) hnone)
  · intro s p f off rid tag op wide ro ido a b hp hf hup hin n pa
    rw [execInboundAtomicop_up s p f off rid tag op wide ro ido a b hp hf hup hin]
    rw [htags]
    refine ⟨fun ht => ?_, fun ht hbad => ?_, fun ht hpa hoff hnone => ?_⟩
    · rw [if_pos ht]
    · rw [if_neg (Nat.not_le.mpr ht)]
      refine congrArg Host.Outcome.next ?_
      by_cases hb : s.windowPa p f off < 4 * hbmBytes
      · exact postAtomic_misaligned s p f off rid tag _ op wide ro ido a b (bar2_inside s p f off hb) hb
          (hbad.resolve_left (Nat.not_le.mpr hb))
      · exact postAtomic_outside s p f off rid tag op wide ro ido a b (bar2_outside s p f off (Nat.not_lt.mp hb))
    · rw [if_neg (Nat.not_le.mpr ht)]
      exact congrArg Host.Outcome.next (postAtomic_arrives s p f off rid tag _ op wide ro ido a b (bar2_inside s p f off hpa) hpa hoff hnone)
  · intro s id w hw hs held
    have hstep : exec (.orderingPointSend id) s = .next (s.sendPosted id) := rfl
    rw [hstep]
    refine ⟨fun hh => ?_, fun hh => ?_⟩
    · rw [sendPosted_held s id w hw ((maySend_iff s w).mpr hh)]
    · rw [sendPosted_sends s id w hw hs (by simpa using mt (maySend_iff s w).mp hh)]
  · intro s id w hid hp hs ha halone
    obtain ⟨hd, hpois, -, -, hb⟩ := halone
    have hat : s.postedAt id = some w := by rw [State.postedAt, hp]; exact if_pos rfl
    rw [hhome, homeRequest_posted s id w hid hat]
    refine ⟨fun a data poisoned hop h1 h2 => ?_, fun c op wide a b tag hop => ?_, fun f off n v hop hf => ?_⟩
    · have hput := onlyPut_acceptBytes s w.port id a data poisoned
      rw [servePosted_bytes s id a w data poisoned hp hs ha hd hb hop]
      exact ⟨_, rfl, postedAt_setPosted_same _ _ _, hput.field State.out, acceptBytes_cell s w.port id a data poisoned,
        acceptBytes_poison s w.port id a data poisoned hpois h1⟩
    · intro n old hc
      rw [servePosted_amo s id c tag w op wide a b hp hs ha hd hb hop]
      refine ⟨_, rfl, postedAt_setPosted_same _ _ _, ?_, fun x => ?_⟩
      · have hout : ∀ (t : State) (o : Out) (v : Option Posted), ((t.emit o).setPosted id v).out = o :: t.out := fun _ _ _ => rfl
        rw [acceptAtomic_eq s w.port id c op wide a b tag hpois, hout, (onlyPut_atomPut _ _ _ _ _ _).field State.out]
        rfl
      · have hcell := acceptAtomic_cell s w.port id c op wide a b tag hpois x
        cases op <;> exact hcell
    · subst hf
      rw [servePosted_reg s id off n v w hp hs ha hop]
  · rintro s id w hid hw ⟨f, off, n, v, hop⟩ hro ⟨i, e, hm, h1, h2, h3⟩
    rw [hhome, homeRequest_posted s id w hid hw, servePosted_waits s id f off n v w hop]
    refine List.any_eq_true.mpr ⟨(i, e), mem_listed.mpr hm, ?_⟩
    simp [Posted.follows, h1, h2, (isWrite_iff e.op).mpr h3, hro]
  · intro s p f off n tag bar0 hp hf ht hup hin pa refused waits
    rw [htags] at ht
    rw [execInboundRead_up s p f off n tag bar0 hp hf ht hup hin]
    have hwaits : ∀ a, s.inboundRead p f bar0 off n tag = s.addRead p f bar0 tag a n → waits a := fun a ha =>
      ⟨s.postedOf p, (execInboundRead_up s p f off n tag bar0 hp hf ht hup hin).trans (congrArg Host.Outcome.next ha), mem_postedOf s p⟩
    refine ⟨fun hb hbad => ?_, fun hb hpa hn => hwaits _ ?_, fun hb hf0 => ?_⟩
    · subst hb
      by_cases hin' : s.windowPa p f off < 4 * hbmBytes
      · rw [inboundRead_inside s p f off n tag _ (bar2_inside s p f off hin'), if_pos (hbad.resolve_left (Nat.not_le.mpr hin'))]
        rfl
      · rw [inboundRead_outside s p f off n tag (bar2_outside s p f off (Nat.not_lt.mp hin'))]
        rfl
    · subst hb
      rw [inboundRead_inside s p f off n tag _ (bar2_inside s p f off hpa), if_neg (Nat.not_lt.mpr hn)]
      rfl
    · subst hb hf0
      have hserved : barServed 0 off n = true ↔ off < 0x1000000 ∧ regServed off n = true := (barServed_iff 0 off n).trans and_comm
      split
      · next h => exact hwaits off (by rw [inboundRead_bar0, if_pos (hserved.mpr h)])
      · next h => rw [inboundRead_bar0, if_neg (mt hserved.mp h)]; rfl
  · intro s key r hr
    have hstep : exec (.inboundReadCompletion key) s = .next (s.readDone key) := rfl
    rw [hstep]
    refine ⟨fun hw => by rw [readDone_waits s key r hr hw], fun hf => ⟨fun hb0 hfn => ?_, fun hb0 hlen hd hb => ?_⟩⟩
    · rw [readDone_free s key r hr hf, if_pos hb0, hfn, if_pos (show s.ownsBell r.port 0 r.addr = true from rfl)]
      rfl
    · have hcells := paCells_hbm s r.addr r.len hlen
      rw [readDone_memory s key r hr hf hb0 hd hb]
      have hcount := onlyLogs_countAll (s.endRead key) (srcIod r.port) (((s.paCells r.addr r.len).map fun c => c / 128).eraseDups)
      refine ⟨_, rfl, hcount.field State.mem, hcount.field State.reads, ?_⟩
      have hout : ∀ (t : State) (o : Out), (t.emit o).out = o :: t.out := fun _ _ => rfl
      rw [hout, hcount.field State.out, hcells, List.map_map, List.any_map]
      rfl

end Sys2Proof.Machine
end

section
/-! SUPPORT. O47: the failures and answers of this device's requests to nodes (R61, R64, R66). -/
namespace Sys2Proof.Machine

/-! ### Writes that the next one covers -/

theorem setLane_setLane (g : Group) (l : Nat) (d e : Lane) : (g.setLane l d).setLane l e = g.setLane l e := by
  simp only [Group.setLane, Sparse.set_set]

/-! ### A lane's failure after issue (R284, R319) -/

/-- The lane as it traps at the word that issued its access. -/
def Lane.trapAt (ln : Lane) (pc : DWord) (code acc va : Nat) : Lane := { ln with pc := pc }.trap code acc (BitVec.ofNat 64 va)

theorem lateTrap_outside (s : State) (pc : DWord) (gid l code acc va : Nat) (g : Group) (hg : s.group gid = some g)
    (hx : (g.lane l).st ≠ .exited) (hh : (g.lane l).handler = false) :
    s.lateTrap pc gid l code acc va = s.setGroup gid (g.setLane l ((g.lane l).trapAt pc code acc va)) := by
  have hlane : (g.setLane l { g.lane l with pc := pc }).lane l = { g.lane l with pc := pc } := Sparse.get_set_same _ _ _ _
  have hin := State.group_setGroup_same s gid (g.setLane l { g.lane l with pc := pc })
  rw [State.lateTrap, hg]
  dsimp only
  rw [if_neg hx, takeTrap_outside _ gid l code acc _ _ hin (by rw [hlane]; exact hh), hlane, setGroup_setGroup, setLane_setLane]
  rfl

theorem lateBoth_unprotected (s : State) (pc : DWord) (gid l code acc va : Nat) (g : Group) (hg : s.group gid = some g)
    (hx : (g.lane l).st ≠ .exited) (hh : (g.lane l).handler = false) (hp : (s.rcd g.launch).blk.prot = false) :
    s.lateBoth pc gid l code acc va = s.setGroup gid (g.setLane l ((g.lane l).trapAt pc code acc va)) := by
  have hprot : ∀ h : Group, ((s.setGroup gid h).rcd g.launch).blk.prot = (s.rcd g.launch).blk.prot := fun _ => rfl
  rw [State.lateBoth, hg]
  dsimp only
  rw [lateTrap_outside s pc gid l code acc va g hg hx hh, hprot, hp, if_neg Bool.false_ne_true]

theorem onLane_unprotected (s : State) (gid l : Nat) (f : Lane → Lane) (g : Group) (hg : s.group gid = some g)
    (hp : (s.rcd g.launch).blk.prot = false) : s.onLane gid l f = s.setGroup gid (g.setLane l (f (g.lane l))) := by
  rw [State.onLane, hg]
  dsimp only
  rw [hp, Group.both, if_neg Bool.false_ne_true]

theorem pollEnd_quiet (s : State) (gid : Nat) (g : Group) (hg : s.group gid = some g) (hp : g.polls = []) : s.pollEnd gid = s := by
  rw [State.pollEnd, hg]
  dsimp only
  rw [hp]
  exact if_pos rfl

/-! ### A request of one part (R61, R66) -/

/-- The device when no request is out. -/
def State.noTxns (s : State) : State := { s with txns := [] }

/-- A transaction of one part that is out, and the group that waits for it. -/
structure OneOut (s : State) (id : Nat) (x : Txn) (q : Part) (g : Group) : Prop where
  txns : s.txns = [(id, some x)]
  parts : x.parts = [q]
  rep : q.rep = false
  again : q.again = false
  group : s.group x.gid = some g
  polls : g.polls = []
  prot : (s.rcd g.launch).blk.prot = false

section
variable {s : State} {id : Nat} {x : Txn} {q : Part} {g : Group} (ho : OneOut s id x q g)
include ho

theorem OneOut.txn : s.txn id = some x := by
  rw [State.txn, ho.txns]
  exact if_pos rfl

theorem OneOut.live : q.live = true := by
  rw [Part.live, ho.rep, ho.again]; rfl

theorem OneOut.live_parts : x.live.parts = [q] := by
  rw [Txn.live, ho.parts, List.filter_cons_of_pos ho.live]; rfl

theorem OneOut.idle : x.idle = [] := by
  rw [Txn.idle, ho.parts, List.filter_cons_of_neg (by rw [ho.live]; decide)]; rfl

theorem OneOut.ended : Sparse.set none s.txns id none = [] := by
  rw [ho.txns]; simp [Sparse.set, Sparse.del]

/-- The request fails: its part fails, and nothing is out. -/
theorem OneOut.failTxn (code : Nat) (lane : Lane) (hf : s.noTxns.failPart x code q = s.noTxns.setGroup x.gid (g.setLane q.lane lane)) :
    s.failTxn id code = s.noTxns.setGroup x.gid (g.setLane q.lane lane) := by
  have hkeep : s.keepIdle id x = s.noTxns := by
    rw [State.keepIdle, ho.idle, if_pos (by rfl), State.setTxn, ho.ended]; rfl
  rw [State.failTxn, ho.txn]
  dsimp only
  rw [ho.live_parts, List.foldl_cons, List.foldl_nil, hkeep, hf,
    pollEnd_quiet _ x.gid _ (State.group_setGroup_same _ _ _) (show (g.setLane q.lane lane).polls = [] from ho.polls)]

/-- A load that fails traps its lane at the load's word, with LINK_LOST and the address of the load. -/
theorem OneOut.failTxn_load (w : Width) (d : RegIx) (hop : q.op = .load w d) (hx : (g.lane q.lane).st ≠ .exited)
    (hh : (g.lane q.lane).handler = false) :
    s.failTxn id causeLinkLost = s.noTxns.setGroup x.gid (g.setLane q.lane ((g.lane q.lane).trapAt x.pc causeLinkLost 0 q.va)) := by
  have hg : s.noTxns.group x.gid = some g := ho.group
  refine ho.failTxn causeLinkLost _ ?_
  rw [State.failPart, hg]
  dsimp only
  rw [hop]
  exact lateBoth_unprotected s.noTxns x.pc x.gid q.lane causeLinkLost 0 q.va g hg hx hh ho.prot

/-- Of a store that fails its lane learns (R66). -/
theorem OneOut.failTxn_store (hop : q.op = .store) (hl : q.lane < 32) :
    s.failTxn id causeLinkLost = s.noTxns.setGroup x.gid (g.setLane q.lane { g.lane q.lane with linkLost := true }) := by
  have hg : s.noTxns.group x.gid = some g := ho.group
  refine ho.failTxn causeLinkLost _ ?_
  rw [State.failPart, hg]
  dsimp only
  rw [hop]
  dsimp only
  rw [if_neg (by omega)]
  exact onLane_unprotected s.noTxns x.gid q.lane _ g hg ho.prot

/-- The answer of a load that took no bytes of its thread's own stores gives its lane the bytes. -/
theorem OneOut.farPart_load (w : Width) (d : RegIx) (bs : List Byte) (hop : q.op = .load w d) (hm : q.mask = []) (hlen : bs.length = q.len)
    (hx : (g.lane q.lane).st ≠ .exited) :
    s.farPart id x q bs = (true, s.setGroup x.gid (g.setLane q.lane ((g.lane q.lane).setRegs (widthWrites w d.toNat bs)))) := by
  have hmerge : q.merge bs = bs := by
    rw [Part.merge, hm]
    refine List.ext_getElem (by simp [hlen]) fun i h1 h2 => ?_
    simp [List.getElem?_eq_getElem h2]
  have hflags : ∀ ln : Lane, { ln with flags := ln.flags ||| 0#5 } = ln := fun ln => by rw [BitVec.or_zero]
  rw [State.farPart, hop, hmerge]
  dsimp only
  rw [State.deliver, onLane_unprotected s x.gid q.lane _ g ho.group ho.prot, if_neg hx]
  exact congrArg (fun ln => (true, s.setGroup x.gid (g.setLane q.lane ln))) (hflags _)

/-- The answer of a request of one part ends it. -/
theorem OneOut.farDone (bs : List Byte) (t : State) (h : Group) (hf : s.farPart id x q bs = (true, t)) (ht : t.txns = s.txns)
    (hg : t.group x.gid = some h) (hp : h.polls = []) : s.farDone id x [(q, bs)] = t.noTxns := by
  have hend : t.setTxn id none = t.noTxns := by
    rw [State.setTxn, ht, ho.ended]; rfl
  rw [State.farDone, List.foldl_cons, List.foldl_nil]
  dsimp only
  rw [hf]
  dsimp only
  rw [ho.idle, if_pos (by rfl), hend, pollEnd_quiet t.noTxns x.gid h hg hp]

end

theorem splitAnswer_load (q : Part) (w : Width) (d : RegIx) (bs : List Byte) (hop : q.op = .load w d) (hlen : bs.length = q.len) :
    splitAnswer [q] bs = [(q, bs)] := by
  rw [splitAnswer, hop, ← hlen, List.take_length]
  rfl

theorem splitAnswer_store (q : Part) (bs : List Byte) (hop : q.op = .store) : splitAnswer [q] bs = [(q, [])] := by
  rw [splitAnswer, hop]
  rfl

theorem applyRoute_none (s : State) (n : Nat) (h : s.clovar.nextRoutes = []) : s.applyRoute n = s := by
  rw [State.applyRoute, h]
  rfl

end Sys2Proof.Machine
end

section
/-! SUPPORT. O47: Clovar ports and routes, the requests of peers, and the statement (R58, R60 to R64, R66). -/
namespace Sys2Proof.Machine

/-! ### Routes (R60, R64) -/

theorem nodeOut_iff (s : State) (n : Nat) : s.nodeOut n = true ↔ ∃ id x, (id, some x) ∈ s.txns ∧ x.tgt = .node n ∧ x.accepted = true := by
  simp only [State.nodeOut, List.any_eq_true, Prod.exists, mem_listed, Bool.and_eq_true, beq_iff_eq]

theorem execPorts_route (s : State) (n : Nat) (m : BitVec 18) (hin : s.input = .route n m) (hn : n < 1024) :
    exec .ports s = .next (s.setRoute n m) := by
  have hstep : exec .ports s = execPorts s := rfl
  rw [hstep, execPorts, hin]
  exact congrArg Host.Outcome.next (if_pos hn)

/-! ### The state of a port (R58) -/

theorem setCport_setCport (s : State) (p : Nat) (d e : CPort) : (s.setCport p d).setCport p e = s.setCport p e := by
  simp only [State.setCport, Sparse.set_set]

theorem cport_setCport (s : State) (p j : Nat) (d : CPort) : (s.setCport p d).cport j = if j = p then d else s.cport j := Sparse.get_set ..

theorem failColls_none (s old : State) (h : s.clovar.colls = []) : s.failColls old = s := by
  rw [State.failColls, h]; rfl

/-- The port's register after a change of its state. -/
def State.lstPort (s : State) (p : Nat) (lst : BitVec 2) (peer : BitVec 10) : State := s.setCport p { s.cport p with lst := lst, peer := peer }

theorem setLst_unrouted (s : State) (p : Nat) (lst : BitVec 2) (peer : BitVec 10) (hr : s.clovar.routes = []) (hc : s.clovar.colls = []) :
    s.setLst p lst peer = s.lstPort p lst peer := by
  have hroutes : (s.lstPort p lst peer).clovar.routes = [] := hr
  have hdef : s.setLst p lst peer = ((((s.lstPort p lst peer).clovar.routes.filter fun r => r.2.getLsbD p).map (·.1)).foldl
    (fun (s : State) n => s.rerouteNode n) (s.lstPort p lst peer)).failColls s := rfl
  rw [hdef, hroutes, List.filter_nil, List.map_nil, List.foldl_nil]
  exact failColls_none _ s hc

theorem setLst_routed (s : State) (p n : Nat) (mask : BitVec 18) (lst : BitVec 2) (peer : BitVec 10) (hr : s.clovar.routes = [(n, mask)])
    (hm : mask.getLsbD p = true) : s.setLst p lst peer = ((s.lstPort p lst peer).rerouteNode n).failColls s := by
  have hroutes : (s.lstPort p lst peer).clovar.routes = [(n, mask)] := hr
  have hdef : s.setLst p lst peer = ((((s.lstPort p lst peer).clovar.routes.filter fun r => r.2.getLsbD p).map (·.1)).foldl
    (fun (s : State) n => s.rerouteNode n) (s.lstPort p lst peer)).failColls s := rfl
  have hfilter : ([(n, mask)].filter fun r => r.2.getLsbD p) = [(n, mask)] := by simp [hm]
  rw [hdef, hroutes, hfilter]
  rfl

/-- The last port of a node goes down: no port of the node is up. -/
theorem nodePorts_down (s : State) (p n : Nat) (mask : BitVec 18) (lst : BitVec 2) (peer : BitVec 10) (hr : s.clovar.routes = [(n, mask)])
    (hl : lst.toNat < 2) (hd : ∀ j, j ≠ p → j < 18 → mask.getLsbD j = true → (s.cport j).lst.toNat < 2) :
    (s.lstPort p lst peer).nodePorts n = [] := by
  have hroutes : (s.lstPort p lst peer).clovar.routes = [(n, mask)] := hr
  have hport : ∀ j, Sparse.get ({} : CPort) (s.lstPort p lst peer).clovar.ports j = if j = p then { s.cport p with lst := lst, peer := peer } else s.cport j :=
    fun j => cport_setCport s p j _
  have hget : Sparse.get 0 [(n, mask)] n = mask := if_pos rfl
  rw [State.nodePorts, hroutes, hget, List.filter_eq_nil_iff]
  intro j hj hup
  rw [Bool.and_eq_true, decide_eq_true_eq, hport] at hup
  obtain ⟨hm, hup⟩ := hup
  by_cases hjp : j = p
  · rw [if_pos hjp] at hup
    exact absurd hup (Nat.not_le.mpr hl)
  · rw [if_neg hjp] at hup
    exact absurd hup (Nat.not_le.mpr (hd j hjp (List.mem_range.mp hj) hm))

/-- A node with no port left up fails the request that is out to it. -/
theorem rerouteNode_cut (s : State) (n id : Nat) (x : Txn) (htx : s.txns = [(id, some x)]) (ht : x.tgt = .node n) (ha : x.accepted = true)
    (hp : s.nodePorts n = []) : s.rerouteNode n = (s.failTxn id causeLinkLost).applyRoute n := by
  have hout : s.nodeOut n = true := (nodeOut_iff s n).mpr ⟨id, x, by rw [htx]; exact List.mem_singleton_self _, ht, ha⟩
  have hids : ((listed [(id, some x)]).filterMap fun t => if t.2.tgt = .node n ∧ t.2.accepted = true then some t.1 else none) = [id] := by
    simp [listed, ht, ha]
  rw [State.rerouteNode, if_neg (by simp [hout]), hp, if_pos (by rfl), htx, hids]
  rfl

theorem execClovarPortStateChange_lst (s : State) (p lanes : Nat) (training : Bool) (peer : BitVec 10)
    (hin : s.input = .portState p training lanes peer) (hp : p < 18) (hi : s.iodPresent (p / 9) = true) :
    exec .clovarPortStateChange s =
      .next (if (s.cport p).lst = lstOf training lanes then s else s.setLst p (lstOf training lanes) peer) := by
  have hstep : exec .clovarPortStateChange s = execClovarPortStateChange s := rfl
  rw [hstep, execClovarPortStateChange, hin]
  dsimp only
  by_cases h : (s.cport p).lst = lstOf training lanes
  · rw [if_pos (.inr (.inr h)), if_pos h]
  · rw [if_neg (by simp [h, hi]; omega), if_neg h]

/-- A port after one more retry. -/
def CPort.retried (d : CPort) (ts : List Nat) : CPort := { d with retry := if d.retry = 0xFFFF then 0xFFFF else d.retry + 1, retries := ts }

theorem execClovarFlitError_retries (s : State) (p : Nat) (hin : s.input = .flit p) (hp : p < 18) :
    exec .clovarFlitError s = .next
      (if 16 < (s.recentRetries (s.cport p)).length then
        ((s.setCport p ((s.cport p).retried [])).setLst p 0 (s.cport p).peer).logEv .clovarDown 2 (evIod (p / 9)) [p]
      else s.setCport p ((s.cport p).retried (s.recentRetries (s.cport p)))) := by
  have hretry : ∀ d : CPort, (if d.retry = 0xFFFF#16 then d.retry else d.retry + 1) = if d.retry = 0xFFFF then 0xFFFF else d.retry + 1 := fun d => by
    by_cases h : d.retry = 0xFFFF#16
    · exact (if_pos h).trans (h.trans (if_pos h).symm)
    · exact (if_neg h).trans (if_neg h).symm
  have hstep : exec .clovarFlitError s = execClovarFlitError s := rfl
  rw [hstep, execClovarFlitError, hin]
  dsimp only
  rw [if_neg (Nat.not_le.mpr hp), hretry]
  by_cases h : 16 < (s.recentRetries (s.cport p)).length
  · rw [if_pos h, decide_eq_true h, if_pos rfl, if_pos rfl]
    rfl
  · rw [if_neg h, decide_eq_false h, if_neg Bool.false_ne_true, if_neg Bool.false_ne_true]
    rfl

/-! ### The requests of peers (R61, R62, R63) -/

theorem viewOf_beyond (s : State) : s.viewOf (4 * hbmBytes) = none := by
  rw [State.viewOf, if_neg (Nat.lt_irrefl _), if_neg (by decide), if_neg (by decide)]

/-- The request of a peer as it arrives, at the cell of its offset. -/
def newPeer (p src off : Nat) (op : RemoteOp) : Peer := { port := p, src := src, loc := hbmCell off, op := op }

/-- The request of a peer, as it takes its number. -/
def State.addPeer (s : State) (w : Peer) : State := { s with next := s.next + 1, peers := Sparse.set none s.peers s.next (some w) }

/-- Does the device serve a request of so many bytes (R62)? -/
def State.servesPeer (s : State) (p src dst off size : Nat) : Prop :=
  s.clovar.den = true ∧ s.clovar.node.toNat = dst ∧ 2 ≤ (s.cport p).lst.toNat ∧ (s.clovar.mask src).getLsbD p = true ∧
    off + size ≤ 4 * hbmBytes ∧ off < 4 * hbmBytes

theorem admits_iff (s : State) (p src dst : Nat) : s.admits p src dst = true ↔
    s.clovar.den = true ∧ s.clovar.node.toNat = dst ∧ 2 ≤ (s.cport p).lst.toNat ∧ (s.clovar.mask src).getLsbD p = true := by
  simp only [State.admits, Bool.and_eq_true, beq_iff_eq, decide_eq_true_eq, and_assoc]

theorem execClovarInboundRequest_refused (s : State) (p src dst off : Nat) (op : RemoteOp) (hin : s.input = .clovar p src dst off op)
    (hp : p < 18) (h : ¬ s.servesPeer p src dst off (peerSize op)) : exec .clovarInboundRequest s = .next (s.refusePeer p src) := by
  have hstep : exec .clovarInboundRequest s = execClovarInboundRequest s := rfl
  rw [hstep, execClovarInboundRequest, hin]
  dsimp only
  rw [if_neg (Nat.not_le.mpr hp)]
  by_cases hg : (!s.admits p src dst || decide (4 * hbmBytes < off + peerSize op)) = true
  · rw [if_pos hg]
  · rw [if_neg hg]
    rw [Bool.or_eq_true, not_or, Bool.not_eq_true', Bool.not_eq_false, decide_eq_true_eq, admits_iff] at hg
    obtain ⟨⟨h1, h2, h3, h4⟩, hsize⟩ := hg
    have hend : off = 4 * hbmBytes := by
      by_contra hne
      exact h ⟨h1, h2, h3, h4, Nat.not_lt.mp hsize, by omega⟩
    rw [hend, viewOf_beyond]

theorem execClovarInboundRequest_served (s : State) (p src dst off : Nat) (op : RemoteOp) (hin : s.input = .clovar p src dst off op)
    (hp : p < 18) (h : s.servesPeer p src dst off (peerSize op)) :
    exec .clovarInboundRequest s =
      .next ((s.addPeer (newPeer p src off op)).servePeer s.next (newPeer p src off op)) := by
  obtain ⟨h1, h2, h3, h4, hsize, hoff⟩ := h
  have hadm := (admits_iff s p src dst).mpr ⟨h1, h2, h3, h4⟩
  have hstep : exec .clovarInboundRequest s = execClovarInboundRequest s := rfl
  rw [hstep, execClovarInboundRequest, hin]
  dsimp only
  rw [if_neg (Nat.not_le.mpr hp), hadm, decide_eq_false (Nat.not_lt.mpr hsize), if_neg (by decide), viewOf_hbm s off hoff]
  rfl

/-- A peer's only request, at a home that nothing holds up. -/
structure PeerAlone (t : State) (i : Nat) (w : Peer) : Prop where
  peers : t.peers = [(i, some w)]
  reply : w.reply = none
  dir : t.dir = []
  poison : t.poison = []
  boot : t.mgmt.boot ≠ .notReady

section
variable {t : State} {i : Nat} {w : Peer} (ha : PeerAlone t i w)
include ha

/-- Nothing holds the request up. -/
theorem PeerAlone.unheld :
    (w.reply.isSome || t.olderPeer i w) = false ∧ t.rangeFree w.loc (peerSize w.op) = true ∧ t.poisonedRange w.loc (peerSize w.op) = false := by
  refine ⟨?_, rangeFree_undirected t _ _ ha.dir ha.boot, poisonedRange_clean t _ _ ha.poison⟩
  simp [State.olderPeer, ha.peers, ha.reply, listed]

theorem PeerAlone.servePeer_load (n : Nat) (hop : w.op = .load n) :
    t.servePeer i w = (t.count (srcIod (w.port / 9)) w.loc).setPeer i (some { w with reply := some (t.cells w.loc n) }) := by
  obtain ⟨hfirst, hfree, hclean⟩ := ha.unheld
  rw [State.servePeer, hfirst, if_neg Bool.false_ne_true, hfree, if_neg (by decide), hclean, hop]
  rfl

theorem PeerAlone.servePeer_store (bs : List Byte) (bad : Bool) (hop : w.op = .store bs bad) :
    t.servePeer i w = (t.acceptBytes (w.port / 9) i w.loc bs bad).setPeer i (some { w with reply := some [] }) := by
  obtain ⟨hfirst, hfree, -⟩ := ha.unheld
  rw [State.servePeer, hfirst, if_neg Bool.false_ne_true, hfree, if_neg (by decide), hop]

theorem PeerAlone.servePeer_atom (op : AtomOp) (ty : AtomTy) (a b : DWord) (hop : w.op = .atom op ty a b) :
    t.servePeer i w = t.peerAtomic i w op ty a b true := by
  obtain ⟨hfirst, hfree, hclean⟩ := ha.unheld
  rw [State.servePeer, hfirst, if_neg Bool.false_ne_true, hfree, if_neg (by decide), hclean, hop]
  rfl

theorem PeerAlone.servePeer_red (op : AtomOp) (ty : AtomTy) (a : DWord) (hop : w.op = .red op ty a) :
    t.servePeer i w = t.peerAtomic i w op ty a 0 false := by
  obtain ⟨hfirst, hfree, hclean⟩ := ha.unheld
  rw [State.servePeer, hfirst, if_neg Bool.false_ne_true, hfree, if_neg (by decide), hclean, hop]
  rfl

end

theorem peerAt_setPeer (s : State) (i : Nat) (w : Option Peer) : (s.setPeer i w).peerAt i = w := Sparse.get_set_same none w s.peers i

/-- Bytes of an atomic's word. -/
def atomSize (ty : AtomTy) : Nat := if ty.wide then 8 else 4

/-- The answer and the cells of a peer's atomic (R61, R389). -/
theorem peerAtomic_facts (t : State) (i : Nat) (w : Peer) (op : AtomOp) (ty : AtomTy) (a b : DWord) (answer : Bool) :
    (t.peerAtomic i w op ty a b answer).peerAt i =
        some { w with reply := some (if answer then toLE (atomSize ty) (t.wordAt w.loc (atomSize ty)) else []) } ∧
      ∀ c, (t.peerAtomic i w op ty a b answer).cell c =
        match atomNew op ty (t.wordAt w.loc (atomSize ty)) a.toNat b.toNat with
        | some v => if w.loc ≤ c ∧ c < w.loc + atomSize ty then (toLE (atomSize ty) v).getD (c - w.loc) 0 else t.cell c
        | none => t.cell c := by
  have hdef : t.peerAtomic i w op ty a b answer =
      (t.atomPut (srcIod (w.port / 9)) i w.loc (atomSize ty) (atomNew op ty (t.wordAt w.loc (atomSize ty)) a.toNat b.toNat)).setPeer i
        (some { w with reply := some (if answer then toLE (atomSize ty) (t.wordAt w.loc (atomSize ty)) else []) }) := by
    rfl
  have hcell : ∀ (u : State) (v : Option Peer) (c : Nat), (u.setPeer i v).cell c = u.cell c := fun _ _ _ => rfl
  rw [hdef]
  refine ⟨peerAt_setPeer _ _ _, fun c => ?_⟩
  exact (hcell _ _ c).trans (atomPut_cell t _ i w.loc _ _ c)

/-! ### The answers to this device's own requests (R61, R64, R66) -/

theorem remoteOut_node (s : State) (id n : Nat) (x : Txn) (h : s.txn id = some x) (ht : x.tgt = .node n) (ha : x.accepted = true) :
    s.remoteOut id = some (n, x) := by
  rw [State.remoteOut, h]
  dsimp only
  rw [ht]
  exact if_pos ha

theorem execRemoteResponse_out (s : State) (id n : Nat) (ok : Bool) (data : List Byte) (x : Txn) (hin : s.input = .response id ok data)
    (h : s.remoteOut id = some (n, x)) :
    exec .remoteResponse s =
      .next ((if ok then s.farDone id x (splitAnswer x.live.parts data) else s.failTxn id causeLinkLost).applyRoute n) := by
  have hstep : exec .remoteResponse s = .next s.remoteResponse := rfl
  rw [hstep, State.remoteResponse, hin]
  dsimp only
  rw [h]

theorem execRemoteRequestTimeout_out (s : State) (id n : Nat) (ok : Bool) (data : List Byte) (x : Txn) (hin : s.input = .response id ok data)
    (h : s.remoteOut id = some (n, x)) : exec .remoteRequestTimeout s = .next ((s.failTxn id causeLinkLost).applyRoute n) := by
  have hstep : exec .remoteRequestTimeout s = execRemoteRequestTimeout s := rfl
  rw [hstep, execRemoteRequestTimeout, hin]
  dsimp only
  rw [h]

end Sys2Proof.Machine
end

section
/-! SUPPORT. O47: the statement. -/
namespace Sys2Proof.Machine

/-- The only request out is a load of a node whose last port goes down: the load fails (R64, R66). -/
theorem OneOut.setLst_cut {s : State} {id : Nat} {x : Txn} {q : Part} {g : Group} (ho : OneOut s id x q g) (p n : Nat) (mask : BitVec 18)
    (lst : BitVec 2) (peer : BitVec 10) (w : Width) (d : RegIx) (hr : s.clovar.routes = [(n, mask)]) (hnext : s.clovar.nextRoutes = [])
    (hc : s.clovar.colls = []) (hm : mask.getLsbD p = true) (hl : lst.toNat < 2)
    (hd : ∀ j, j ≠ p → j < 18 → mask.getLsbD j = true → (s.cport j).lst.toNat < 2) (ht : x.tgt = .node n) (ha : x.accepted = true)
    (hop : q.op = .load w d) (hx : (g.lane q.lane).st ≠ .exited) (hh : (g.lane q.lane).handler = false) :
    s.setLst p lst peer = (s.lstPort p lst peer).noTxns.setGroup x.gid
      (g.setLane q.lane ((g.lane q.lane).trapAt x.pc causeLinkLost 0 q.va)) := by
  have hport : OneOut (s.lstPort p lst peer) id x q g := ⟨ho.txns, ho.parts, ho.rep, ho.again, ho.group, ho.polls, ho.prot⟩
  have hcut := rerouteNode_cut (s.lstPort p lst peer) n id x ho.txns ht ha (nodePorts_down s p n mask lst peer hr hl hd)
  have hroute : ∀ h, ((s.lstPort p lst peer).noTxns.setGroup x.gid h).applyRoute n = (s.lstPort p lst peer).noTxns.setGroup x.gid h :=
    fun _ => applyRoute_none _ n hnext
  rw [setLst_routed s p n mask lst peer hr hm, hcut, hport.failTxn_load w d hop hx hh, hroute]
  exact failColls_none _ s hc

/-- Settles O47. -/
theorem clovarRequests : Obligations.ClovarRequests := by
  unfold Obligations.ClovarRequests
  intro cellOf
  refine ⟨?_, ?_, ?_, ?_, ?_⟩
  · intro s n m hin hn waiting
    rw [execPorts_route s n m hin hn]
    refine ⟨fun hno => ?_, fun hw => ?_⟩
    · exact congrArg Host.Outcome.next (if_neg (mt (nodeOut_iff s n).mp hno))
    · exact congrArg Host.Outcome.next (if_pos ((nodeOut_iff s n).mpr hw))
  · intro s p hin hp d d1 recent
    rw [execClovarFlitError_retries s p hin hp]
    refine ⟨fun hfew => ?_, fun hmany hr hc => ?_⟩
    · have hfew' : ¬ 16 < (s.recentRetries (s.cport p)).length := Nat.not_lt.mpr hfew
      rw [if_neg hfew']
      rfl
    · have hport : (s.setCport p ((s.cport p).retried [])).cport p = (s.cport p).retried [] := Sparse.get_set_same _ _ _ _
      have hmany' : 16 < (s.recentRetries (s.cport p)).length := hmany
      have hset := setLst_unrouted (s.setCport p ((s.cport p).retried [])) p 0 (s.cport p).peer hr hc
      rw [if_pos hmany', hset, State.lstPort, hport, setCport_setCport]
      rfl
  · intro s p lanes training peer hin hp hi lst s1
    rw [execClovarPortStateChange_lst s p lanes training peer hin hp hi]
    have hlst : lst = lstOf training lanes := rfl
    refine ⟨fun hsame => ?_, fun hne hr hc => ?_, ?_⟩
    · rw [if_pos (hsame.trans hlst)]
    · rw [hlst] at hne
      rw [if_neg hne, setLst_unrouted s p _ peer hr hc]
      rfl
    · intro n mask id x q g w d hne hl hr hnext hc hm hd htx ht ha hparts hop hrep hagain hg hpolls hx hh hprot
      have ho : OneOut s id x q g := ⟨htx, hparts, hrep, hagain, hg, hpolls, hprot⟩
      rw [hlst] at hne hl
      rw [if_neg hne, ho.setLst_cut p n mask _ peer w d hr hnext hc (List.mem_filter.mp hm).2 hl hd ht ha hop hx hh]
      rfl
  · intro s p src dst off op hin hp size mask served refusal
    have hsize : size = peerSize op := by cases op <;> rfl
    have hserves : served ↔ s.servesPeer p src dst off (peerSize op) := by rw [← hsize]; exact Iff.rfl
    refine ⟨fun hno => ?_, fun hserved hd hpois htx hgr hpeers hboot => ?_⟩
    · rw [execClovarInboundRequest_refused s p src dst off op hin hp (mt hserves.mpr hno)]
      rfl
    · intro a done
      rw [execClovarInboundRequest_served s p src dst off op hin hp (hserves.mp hserved)]
      have halone : PeerAlone (s.addPeer (newPeer p src off op)) s.next (newPeer p src off op) :=
        ⟨by rw [State.addPeer, hpeers]; rfl, rfl, hd, hpois, hboot⟩
      refine ⟨fun n hop => ?_, fun bs bad hop => ?_, fun aop ty x hop => ?_, fun aop ty x y hop => ?_⟩
      · have hcount := onlyLogs_count (s.addPeer (newPeer p src off op)) (srcIod (p / 9)) (hbmCell off)
        exact ⟨_, congrArg Host.Outcome.next (halone.servePeer_load n hop), hcount.field State.mem, peerAt_setPeer _ _ _⟩
      · refine ⟨_, congrArg Host.Outcome.next (halone.servePeer_store bs bad hop), peerAt_setPeer _ _ _, fun c => ?_, fun hn sec => ?_⟩
        · exact acceptBytes_cell _ (p / 9) s.next (hbmCell off) bs bad c
        · exact acceptBytes_poison (s.addPeer (newPeer p src off op)) (p / 9) s.next (hbmCell off) bs bad hpois hn sec
      · have hword : size = atomSize ty := by rw [hsize, hop]; rfl
        have hfacts := peerAtomic_facts (s.addPeer (newPeer p src off op)) s.next (newPeer p src off op) aop ty x 0 false
        rw [hword]
        exact ⟨_, congrArg Host.Outcome.next (halone.servePeer_red aop ty x hop), hfacts.1, hfacts.2⟩
      · have hword : size = atomSize ty := by rw [hsize, hop]; rfl
        have hfacts := peerAtomic_facts (s.addPeer (newPeer p src off op)) s.next (newPeer p src off op) aop ty x y true
        rw [hword]
        exact ⟨_, congrArg Host.Outcome.next (halone.servePeer_atom aop ty x y hop), hfacts.1, hfacts.2⟩
  · intro s id n ok data x q g hin htx ht ha hparts hnext hrep hagain hg hpolls hx hprot without lane
    have ho : OneOut s id x q g := ⟨htx, hparts, hrep, hagain, hg, hpolls, hprot⟩
    have hout := remoteOut_node s id n x ho.txn ht ha
    have hanswer := execRemoteResponse_out s id n ok data x hin hout
    have htimeout := execRemoteRequestTimeout_out s id n ok data x hin hout
    rw [ho.live_parts] at hanswer
    have hroute : ∀ h, (s.noTxns.setGroup x.gid h).applyRoute n = s.noTxns.setGroup x.gid h := fun _ => applyRoute_none _ n hnext
    refine ⟨fun w d hop hm hh => ?_, fun hop hl => ?_⟩
    · intro fails
      have hfail := ho.failTxn_load w d hop hx hh
      rw [hfail] at hanswer htimeout
      refine ⟨fun hok hlen => ?_, fun hok => ?_, ?_⟩
      · have hpart := ho.farPart_load w d data hop hm hlen hx
        have hdone := ho.farDone data _ _ hpart rfl (State.group_setGroup_same _ _ _) hpolls
        rw [hanswer, if_pos hok, splitAnswer_load q w d data hop hlen, hdone]
        exact congrArg Host.Outcome.next (hroute _)
      · rw [hanswer, if_neg (by rw [hok]; exact Bool.false_ne_true), hroute]
        rfl
      · rw [htimeout, hroute]
        rfl
    · intro fails
      have hfail := ho.failTxn_store hop hl
      rw [hfail] at hanswer htimeout
      refine ⟨fun hok => ?_, fun hok => ?_, ?_⟩
      · have hpart : s.farPart id x q [] = (true, s) := by rw [State.farPart, hop]
        rw [hanswer, if_pos hok, splitAnswer_store q data hop, ho.farDone [] s g hpart rfl hg hpolls]
        exact congrArg Host.Outcome.next (applyRoute_none _ n hnext)
      · rw [hanswer, if_neg (by rw [hok]; exact Bool.false_ne_true), hroute]
        rfl
      · rw [htimeout, hroute]
        rfl

end Sys2Proof.Machine
end

section
/-! SUPPORT. O42: the bytes of the mailbox buffer, of a log entry and of the attestation report (R32, R35, R39). -/
namespace Sys2Proof.Machine

/-! ### Lengths and places -/

@[simp] theorem length_toLE (n v : Nat) : (toLE n v).length = n := by
  induction n generalizing v with
  | zero => rfl
  | succ n ih => rw [toLE, List.length_cons, ih]

theorem sumN_eq_sum (l : List Nat) : sumN l = l.sum := List.sum_eq_foldl.symm

theorem length_flatMap_of_length {α β : Type} (f : α → List β) (w : Nat) (l : List α) (h : ∀ a ∈ l, (f a).length = w) :
    (l.flatMap f).length = w * l.length := by
  induction l with
  | nil => rfl
  | cons a l ih =>
    rw [List.flatMap_cons, List.length_append, h a (by simp), ih fun b hb => h b (by simp [hb]), List.length_cons, Nat.mul_succ, Nat.add_comm]

/-- Records of w bytes, one after another: byte j of record i. -/
theorem getD_flatMap_range (f : Nat → List Byte) (w n i j : Nat) (hf : ∀ i, (f i).length = w) (hi : i < n) (hj : j < w) :
    ((List.range n).flatMap f).getD (w * i + j) 0 = (f i).getD j 0 := by
  induction n with
  | zero => omega
  | succ n ih =>
    have hlen : ((List.range n).flatMap f).length = w * n := by
      rw [length_flatMap_of_length f w _ fun i _ => hf i, List.length_range]
    rw [List.range_succ, List.flatMap_append, List.flatMap_singleton]
    by_cases hin : i < n
    · have hle : w * (i + 1) ≤ w * n := Nat.mul_le_mul_left w hin
      rw [List.getD_append _ _ _ _ (by rw [hlen]; rw [Nat.mul_succ] at hle; omega), ih hin]
    · have hi' : i = n := by omega
      subst hi'
      rw [List.getD_append_right _ _ _ _ (by omega), hlen, Nat.add_sub_cancel_left]

/-! ### Runs of keys -/

/-- A map after writes of consecutive keys. -/
theorem get_foldl_set_range {α : Type} [DecidableEq α] (d : α) (f : Nat → α) (base n : Nat) (m : Sparse α) (x : Nat) :
    Sparse.get d ((List.range n).foldl (fun m i => Sparse.set d m (base + i) (f i)) m) x =
      if base ≤ x ∧ x < base + n then f (x - base) else Sparse.get d m x := by
  induction n with
  | zero => rw [List.range_zero, List.foldl_nil, if_neg (by omega)]
  | succ n ih =>
    rw [List.range_succ, List.foldl_append, List.foldl_cons, List.foldl_nil, Sparse.get_set, ih]
    by_cases hlast : x = base + n
    · rw [if_pos hlast, if_pos (by omega), hlast, Nat.add_sub_cancel_left]
    · rw [if_neg hlast, if_congr (show _ ↔ base ≤ x ∧ x < base + (n + 1) by omega) rfl rfl]

theorem range_zip_eq_map (bs : List Byte) : (List.range bs.length).zip bs = (List.range bs.length).map fun i => (i, bs.getD i 0) := by
  refine List.ext_getElem (by simp) fun i _ h => ?_
  have hi : i < bs.length := by simpa using h
  simp [hi]

/-- What fits in MBBUF is written without wrapping. -/
theorem setMb_mbbuf (m : Mgmt) (bs : List Byte) (h : bs.length ≤ 4096) :
    (m.setMb 0 bs).mbbuf = (List.range bs.length).foldl (fun b i => Sparse.set 0 b (0 + i) (bs.getD i 0)) m.mbbuf := by
  rw [Mgmt.setMb, range_zip_eq_map, List.foldl_map]
  refine List.foldl_ext _ _ _ fun b i hi => ?_
  have hlt := List.mem_range.mp hi
  rw [Nat.mod_eq_of_lt (by omega)]

theorem get_setMb (m : Mgmt) (bs : List Byte) (h : bs.length ≤ 4096) (j : Nat) (hj : j < bs.length) :
    Sparse.get 0 (m.setMb 0 bs).mbbuf j = bs.getD j 0 := by
  rw [setMb_mbbuf m bs h, get_foldl_set_range 0 (fun i => bs.getD i 0), if_pos (by omega), Nat.sub_zero]

/-! ### SHA-512 gives 64 bytes (R39) -/

theorem shaTurn_lengths (v : List DWord × List DWord) (add : DWord) (h1 : v.1.length = 4) (h2 : v.2.length = 4) :
    (shaTurn v add).1.length = 4 ∧ (shaTurn v add).2.length = 4 := by
  simp [shaTurn, h1, h2]

theorem foldl_shaTurn_lengths (adds : List DWord) (v : List DWord × List DWord) (h1 : v.1.length = 4) (h2 : v.2.length = 4) :
    (adds.foldl shaTurn v).1.length = 4 ∧ (adds.foldl shaTurn v).2.length = 4 := by
  induction adds generalizing v with
  | nil => exact ⟨h1, h2⟩
  | cons a adds ih =>
    obtain ⟨k1, k2⟩ := shaTurn_lengths v a h1 h2
    exact ih (shaTurn v a) k1 k2

theorem length_shaBlock (h : List DWord) (bs : List Byte) (hh : h.length = 8) : (shaBlock h bs).length = 8 := by
  obtain ⟨k1, k2⟩ := foldl_shaTurn_lengths (((shaWords (shaRead bs)).zip shaSteps).map fun p => p.1 + p.2) (h.take 4, h.drop 4)
    (by simp [hh]) (by simp [hh])
  rw [shaBlock, List.length_map, List.length_zip, List.length_append, k1, k2, hh]; rfl

theorem length_foldl_shaBlock (f : Nat → List Byte) (l : List Nat) (h : List DWord) (hh : h.length = 8) :
    (l.foldl (fun h i => shaBlock h (f i)) h).length = 8 := by
  induction l generalizing h with
  | nil => exact hh
  | cons i l ih => exact ih _ (length_shaBlock h (f i) hh)

theorem length_shaStart : shaStart.length = 8 := by
  have hprimes : 8 ≤ shaPrimes.length := by decide +kernel
  rw [shaStart, List.length_map, List.length_take, Nat.min_eq_left hprimes]

@[simp] theorem length_sha512 (m : List Byte) : (sha512 m).length = 64 := by
  rw [sha512, length_flatMap_of_length _ 8 _ fun x _ => by simp, length_foldl_shaBlock _ _ _ length_shaStart]

/-! ### The records that commands write -/

theorem length_logEntry_bytes (e : LogEntry) (seq : Nat) : (e.bytes seq).length = 64 := by
  simp [LogEntry.bytes]

theorem length_reportBody (s : State) (nonce : List Byte) : (s.reportBody nonce).length = 208 + nonce.length := by
  simp only [State.reportBody, Mgmt.budgetDigest, List.length_append, length_toLE, List.length_map, List.length_range, length_sha512]
  omega

end Sys2Proof.Machine
end

section
/-! SUPPORT. O42: how a mailbox command is taken and executed, what each command does, and the statement (R32, R33, R35, R37 to R39,
R43, R46, R47). -/
namespace Sys2Proof.Machine

/-! ### Taking a command (R31 to R33) -/

/-- The commands: the instruction, OP, and the bound of ARG. -/
def commandRows : List (Instr × Nat × Nat) := [(.logread, 1, 65536), (.imgwrite, 2, 8192), (.imgcommit, 3, 65536), (.attest, 4, 65536),
  (.cert, 5, 4), (.dieFence, 0x10, 8), (.diereset, 0x11, 8), (.resume, 0x12, 8), (.budget, 0x20, 65536)]

theorem exec_commandRow {row : Instr × Nat × Nat} (hr : row ∈ commandRows) (s : State) :
    exec row.1 s = .next (s.commandInput (isCommand row.2.1)) := by
  fin_cases hr <;> rfl

theorem argLimit_commandRow {row : Instr × Nat × Nat} (hr : row ∈ commandRows) : argLimit row.2.1 = some row.2.2 := by
  fin_cases hr <;> rfl

theorem toNat_op_commandRow {row : Instr × Nat × Nat} (hr : row ∈ commandRows) : (BitVec.ofNat 8 row.2.1).toNat = row.2.1 := by
  fin_cases hr <;> rfl

theorem argLimit_eq_some {op n : Nat} (h : argLimit op = some n) : ∃ row ∈ commandRows, op = row.2.1 ∧ n = row.2.2 := by
  unfold argLimit at h
  split at h <;> simp_all [commandRows]

/-- The OP and ARG of a row are a command. -/
theorem badCommand_commandRow {row : Instr × Nat × Nat} (hr : row ∈ commandRows) {arg : Nat} (ha : arg < row.2.2) :
    badCommand row.2.1 arg = false := by
  rw [badCommand, argLimit_commandRow hr]
  exact decide_eq_false (by omega)

theorem badCommand_of_rows {op arg : Nat} (h : ∀ row ∈ commandRows, op = row.2.1 → row.2.2 ≤ arg) : badCommand op arg = true := by
  unfold badCommand
  split
  · next n hn =>
    obtain ⟨row, hr, hop, rfl⟩ := argLimit_eq_some hn
    exact decide_eq_true (h row hr hop)
  · rfl

theorem isCommand_commandRow {row : Instr × Nat × Nat} (hr : row ∈ commandRows) {arg : Nat} (ha : arg < row.2.2) :
    isCommand row.2.1 row.2.1 arg = true := by
  simp [isCommand, badCommand_commandRow hr ha]

/-- A command that is written and taken at once. -/
def State.posed (s : State) (op : Byte) (arg len : BitVec 16) : State :=
  { s with mgmt := { s.mgmt with op := op, arg := arg, len := len, started := false, mbOld := [] } }

/-- A command that an earlier write started is taken. -/
def State.taken (s : State) : State :=
  { s with free := if s.mgmt.mbOld.isEmpty then s.free else s.free + 1
           mgmt := { s.mgmt with busy := false, started := false, mbOld := [] } }

/-- A command of the table with a LEN in its range; `rd` gives the bytes of MBBUF that it reads. -/
def State.perform (s : State) (rd : Nat → Byte) (op arg len : Nat) : State :=
  match op with
  | 1 => s.mbLog rd
  | 2 => s.mbImage rd arg len
  | 3 => s.mbCommit
  | 4 => s.mbAttest rd
  | 5 => s.mbCert arg
  | 0x10 => s.mbFence arg
  | 0x11 => s.mbReset arg
  | 0x12 => s.mbResume arg
  | _ => s.mbBudget

/-- A command that has been taken: the checks of OP, ARG and LEN in their order, and then what the command does (log entry 75). -/
def State.obey (s : State) (rd : Nat → Byte) (op arg len : Nat) : State :=
  if badCommand op arg then s.mbDone cBadOp 0 else if 4096 < len then s.mbDone cBadLen 0 else s.perform rd op arg len

theorem runCommand_idle (s : State) (h : s.mgmt.started = false) : s.runCommand = s := by
  simp [State.runCommand, h]

theorem runCommand_started (s : State) (h : s.mgmt.started = true) :
    s.runCommand = s.taken.obey (s.mgmt.mbArg s.free) s.mgmt.op.toNat s.mgmt.arg.toNat s.mgmt.len.toNat := by
  rw [State.runCommand, h]; rfl

theorem command_busy (s : State) (op arg len : Nat) (h : s.mgmt.busy = true) :
    s.command op arg len = { s with mgmt := { s.mgmt with lost := true } } := by
  simp [State.command, State.startCommand, h]

/-- A command that is written while none runs reads MBBUF as it stands. -/
theorem command_ready (s : State) (op : Byte) (arg len : BitVec 16) (h : s.mgmt.busy = false) :
    s.command op.toNat arg.toNat len.toNat = (s.posed op arg len).obey s.mgmt.mb op.toNat arg.toNat len.toNat := by
  have hstart : s.startCommand op.toNat arg.toNat len.toNat =
      { s with mgmt := { s.mgmt with op := op, arg := arg, len := len, busy := true, started := true, mbOld := [] } } := by
    simp [State.startCommand, h]
  have htaken : (s.startCommand op.toNat arg.toNat len.toNat).taken = s.posed op arg len := by
    simp [hstart, State.taken, State.posed, h]
  rw [State.command, h, if_neg Bool.false_ne_true, runCommand_started _ (by rw [hstart]), htaken, hstart]
  rfl

theorem obey_bad (s : State) (rd : Nat → Byte) (op arg len : Nat) (h : badCommand op arg = true) :
    s.obey rd op arg len = s.mbDone cBadOp 0 := if_pos h

theorem obey_long (s : State) (rd : Nat → Byte) (op arg len : Nat) (h : badCommand op arg = false) (hl : 4096 < len) :
    s.obey rd op arg len = s.mbDone cBadLen 0 := by
  rw [State.obey, h, if_neg Bool.false_ne_true, if_pos hl]

theorem obey_perform (s : State) (rd : Nat → Byte) (op arg len : Nat) (h : badCommand op arg = false) (hl : len ≤ 4096) :
    s.obey rd op arg len = s.perform rd op arg len := by
  rw [State.obey, h, if_neg Bool.false_ne_true, if_neg (by omega)]

/-! ### The steps of commands -/

/-- The step of a row whose command the input carries. -/
theorem exec_commandRow_mailbox {row : Instr × Nat × Nat} (hr : row ∈ commandRows) (s : State) (op : Byte) (arg len : BitVec 16)
    (hin : s.input = .mailbox op arg len) (hop : op.toNat = row.2.1) (ha : arg.toNat < row.2.2) :
    exec row.1 s = .next (s.command op.toNat arg.toNat len.toNat) := by
  rw [exec_commandRow hr, State.commandInput, hin]
  simp only [hop, isCommand_commandRow hr ha, ↓reduceIte]

theorem exec_commandRow_perform {row : Instr × Nat × Nat} (hr : row ∈ commandRows) (s : State) (op : Byte) (arg len : BitVec 16)
    (hin : s.input = .mailbox op arg len) (hop : op.toNat = row.2.1) (ha : arg.toNat < row.2.2) (hb : s.mgmt.busy = false)
    (hl : len.toNat ≤ 4096) :
    exec row.1 s = .next ((s.posed op arg len).perform s.mgmt.mb row.2.1 arg.toNat len.toNat) := by
  rw [exec_commandRow_mailbox hr s op arg len hin hop ha, command_ready s op arg len hb, hop,
    obey_perform _ _ _ _ _ (badCommand_commandRow hr ha) hl]

theorem exec_commandRow_long {row : Instr × Nat × Nat} (hr : row ∈ commandRows) (s : State) (op : Byte) (arg len : BitVec 16)
    (hin : s.input = .mailbox op arg len) (hop : op.toNat = row.2.1) (ha : arg.toNat < row.2.2) (hb : s.mgmt.busy = false)
    (hl : 4096 < len.toNat) :
    exec row.1 s = .next ((s.posed op arg len).mbDone cBadLen 0) := by
  rw [exec_commandRow_mailbox hr s op arg len hin hop ha, command_ready s op arg len hb, hop,
    obey_long _ _ _ _ _ (badCommand_commandRow hr ha) hl]

theorem exec_unknownMailboxOp (s : State) (op : Byte) (arg len : BitVec 16) (hin : s.input = .mailbox op arg len)
    (hb : s.mgmt.busy = false) (hbad : badCommand op.toNat arg.toNat = true) :
    exec .unknownMailboxOp s = .next ((s.posed op arg len).mbDone cBadOp 0) := by
  have hexec : exec .unknownMailboxOp s = .next (s.commandInput badCommand) := rfl
  rw [hexec, State.commandInput, hin]
  simp only [hbad, ↓reduceIte, command_ready s op arg len hb, obey_bad]

/-- A step of a row that carries no command and finds none started. -/
theorem exec_commandRow_idle {row : Instr × Nat × Nat} (hr : row ∈ commandRows) (s : State) (hin : s.input = .none)
    (hs : s.mgmt.started = false) : exec row.1 s = .next s := by
  rw [exec_commandRow hr, State.commandInput, hin]
  simp only [runCommand_idle s hs, ite_self]

theorem exec_commandRow_started_long {row : Instr × Nat × Nat} (hr : row ∈ commandRows) (s : State) (hin : s.input = .none)
    (hs : s.mgmt.started = true) (hop : s.mgmt.op.toNat = row.2.1) (ha : s.mgmt.arg.toNat < row.2.2) (hl : 4096 < s.mgmt.len.toNat) :
    exec row.1 s = .next (s.taken.mbDone cBadLen 0) := by
  rw [exec_commandRow hr, State.commandInput, hin]
  simp only [hop, isCommand_commandRow hr ha, ↓reduceIte, runCommand_started s hs,
    obey_long _ _ _ _ _ (badCommand_commandRow hr ha) hl]

/-! ### LOGREAD (R35) -/

theorem mbDone_mbbuf (s : State) (code rlen : Nat) : (s.mbDone code rlen).mgmt.mbbuf = s.mgmt.mbbuf := rfl

/-- The first entry that LOGREAD answers. -/
def State.logFrom (s : State) (rd : Nat → Byte) : Nat := max (leNat ((List.range 8).map rd)) (s.mgmt.evprod - 4096)
/-- The number of entries that LOGREAD answers. -/
def State.logCount (s : State) (rd : Nat → Byte) : Nat := min 64 (s.mgmt.evprod - s.logFrom rd)
/-- The bytes of the i-th entry that LOGREAD answers. -/
def State.logRecord (s : State) (rd : Nat → Byte) (i : Nat) : List Byte := (Sparse.get {} s.mgmt.log (s.logFrom rd + i)).bytes (s.logFrom rd + i)
/-- The bytes that LOGREAD answers. -/
def State.logBytes (s : State) (rd : Nat → Byte) : List Byte := (List.range (s.logCount rd)).flatMap (s.logRecord rd)

theorem length_logRecord (s : State) (rd : Nat → Byte) (i : Nat) : (s.logRecord rd i).length = 64 := length_logEntry_bytes _ _

theorem mbLog_eq (s : State) (rd : Nat → Byte) :
    s.mbLog rd = State.mbDone { s with mgmt := s.mgmt.setMb 0 (s.logBytes rd) } cOk (64 * s.logCount rd) := rfl

theorem length_logBytes (s : State) (rd : Nat → Byte) : (s.logBytes rd).length = 64 * s.logCount rd := by
  rw [State.logBytes, length_flatMap_of_length _ 64 _ fun i _ => length_logRecord s rd i, List.length_range]

theorem get_mbLog (s : State) (rd : Nat → Byte) (i j : Nat) (hi : i < s.logCount rd) (hj : j < 64) :
    Sparse.get 0 (s.mbLog rd).mgmt.mbbuf (64 * i + j) = (s.logRecord rd i).getD j 0 := by
  have hmax : s.logCount rd ≤ 64 := Nat.min_le_left ..
  have hlen := length_logBytes s rd
  rw [mbLog_eq, mbDone_mbbuf, get_setMb _ _ (by omega) _ (by omega)]
  exact getD_flatMap_range (s.logRecord rd) 64 _ i j (length_logRecord s rd) hi hj

/-! ### IMGWRITE and IMGCOMMIT (R37) -/

/-- The flash after IMGWRITE has written len bytes to a block of the slot that does not run. -/
def Mgmt.imageWritten (m : Mgmt) (rd : Nat → Byte) (block len : Nat) : Sparse (Option Byte) :=
  (List.range len).foldl (fun f i => Sparse.set none f ((1 - m.running) * slotBytes + 4096 * block + i) (some (rd i))) m.flash

theorem get_imageWritten (m : Mgmt) (rd : Nat → Byte) (block len x : Nat) :
    Sparse.get none (m.imageWritten rd block len) x =
      let base := (1 - m.running) * slotBytes + 4096 * block
      if base ≤ x ∧ x < base + len then some (rd (x - base)) else Sparse.get none m.flash x :=
  get_foldl_set_range none (fun i => some (rd i)) _ len m.flash x

theorem mbImage_long (s : State) (rd : Nat → Byte) (block len : Nat) (h : slotBytes < 4096 * block + len) :
    s.mbImage rd block len = s.mbDone cBadLen 0 := by
  simp only [State.mbImage, h, ↓reduceIte]

theorem mbImage_fits (s : State) (rd : Nat → Byte) (block len : Nat) (h : 4096 * block + len ≤ slotBytes) :
    s.mbImage rd block len =
      State.mbDone { s with mgmt := { s.mgmt with flash := s.mgmt.imageWritten rd block len, selected := s.mgmt.running } } cOk 0 := by
  simp only [State.mbImage, Nat.not_lt.mpr h, ↓reduceIte, Mgmt.imageWritten]

/-- The slot that does not run holds an image whose signature verifies (R36). -/
def Mgmt.otherSigned (m : Mgmt) : Prop := Config.imageOk (1 - m.running) (m.written (1 - m.running)) = true

theorem mbCommit_badSig (s : State) (h : ¬ s.mgmt.otherSigned) : s.mbCommit = s.mbDone cBadSig 0 := by
  have hsig := Bool.eq_false_iff.mpr h
  simp only [State.mbCommit, hsig, Bool.not_false, ↓reduceIte]

theorem mbCommit_rollback (s : State) (h : s.mgmt.otherSigned) (hv : (s.mgmt.version (1 - s.mgmt.running)).toNat < s.mgmt.minimum.toNat) :
    s.mbCommit = s.mbDone cRollback 0 := by
  have hsig : Config.imageOk (1 - s.mgmt.running) (s.mgmt.written (1 - s.mgmt.running)) = true := h
  simp only [State.mbCommit, hsig, Bool.not_true, Bool.false_eq_true, hv, ↓reduceIte]

theorem mbCommit_good (s : State) (h : s.mgmt.otherSigned) (hv : s.mgmt.minimum.toNat ≤ (s.mgmt.version (1 - s.mgmt.running)).toNat) :
    s.mbCommit = State.mbDone { s with mgmt := { s.mgmt with selected := 1 - s.mgmt.running } } cOk 0 := by
  have hsig : Config.imageOk (1 - s.mgmt.running) (s.mgmt.written (1 - s.mgmt.running)) = true := h
  simp only [State.mbCommit, hsig, Bool.not_true, Bool.false_eq_true, Nat.not_lt.mpr hv, ↓reduceIte]

/-! ### ATTEST and CERT (R38, R39) -/

/-- The attestation report with its signature. -/
def State.report (s : State) (nonce : List Byte) : List Byte :=
  s.reportBody nonce ++ (List.range 512).map fun i => Config.signature (s.reportBody nonce) i

theorem mbAttest_noKey (s : State) (rd : Nat → Byte) (h : s.mgmt.keyOk = false) : s.mbAttest rd = s.mbDone cNoKey 0 := by
  simp [State.mbAttest, h]

theorem mbAttest_key (s : State) (rd : Nat → Byte) (h : s.mgmt.keyOk = true) :
    s.mbAttest rd = State.mbDone { s with mgmt := s.mgmt.setMb 0 (s.report ((List.range 64).map rd)) } cOk 784 := by
  simp [State.mbAttest, h, State.report]

theorem get_mbAttest (s : State) (rd : Nat → Byte) (h : s.mgmt.keyOk = true) (j : Nat) (hj : j < 784) :
    Sparse.get 0 (s.mbAttest rd).mgmt.mbbuf j = (s.report ((List.range 64).map rd)).getD j 0 := by
  have hlen : (s.report ((List.range 64).map rd)).length = 784 := by simp [State.report, length_reportBody]
  rw [mbAttest_key s rd h, mbDone_mbbuf, get_setMb _ _ (by omega) j (by omega)]

theorem mbCert_noKey (s : State) (p : Nat) (h : s.mgmt.keyOk = false) : s.mbCert p = s.mbDone cNoKey 0 := by
  simp [State.mbCert, h]

theorem mbCert_key (s : State) (p : Nat) (h : s.mgmt.keyOk = true) (hp : (Config.cert p).length ≤ 4096) :
    s.mbCert p = State.mbDone { s with mgmt := s.mgmt.setMb 0 (Config.cert p) } cOk (Config.cert p).length := by
  simp [State.mbCert, h, List.take_of_length_le hp]

theorem get_mbCert (s : State) (p : Nat) (h : s.mgmt.keyOk = true) (hp : (Config.cert p).length ≤ 4096) (j : Nat)
    (hj : j < (Config.cert p).length) : Sparse.get 0 (s.mbCert p).mgmt.mbbuf j = (Config.cert p).getD j 0 := by
  rw [mbCert_key s p h hp, mbDone_mbbuf, get_setMb _ _ hp j hj]

/-! ### FENCE, DIERESET and RESUME (R46, R47) -/

/-- A die with a new state waits for its command to end. -/
theorem awaitDie_setDie (s : State) (k : Nat) (d : Die) :
    (s.setDie k d).awaitDie k = { (s.setDie k { d with awaiting := true }) with mgmt := { s.mgmt with busy := true } } := by
  simp [State.awaitDie, State.setDie, State.die, Sparse.set_set]

theorem mbFence_online (s : State) (k : Nat) (h : (s.die k).st = .online) :
    s.mbFence k = (s.setDie k { s.die k with st := .fencing, cause := 1 }).awaitDie k := by
  simp [State.mbFence, State.startFence, h]

theorem mbFence_ready (s : State) (k : Nat) (h : (s.die k).st = .ready) :
    s.mbFence k = State.mbDone ((s.setDie k { s.die k with st := .fenced, cause := 1 }).logEv .dieFenced 2 (evDie k) [1]) cOk 0 := by
  simp [State.mbFence, State.startFence, h]

theorem mbFence_fenced (s : State) (k : Nat) (h : (s.die k).st = .fencing ∨ (s.die k).st = .fenced) : s.mbFence k = s.mbDone cOk 0 := by
  rcases h with h | h <;> simp [State.mbFence, h]

theorem mbFence_resetting (s : State) (k : Nat) (h : (s.die k).st = .resetting) : s.mbFence k = s.mbDone cBadState 0 := by
  simp [State.mbFence, h]

theorem mbReset_fenced (s : State) (k : Nat) (h : (s.die k).st = .fenced ∨ (s.die k).st = .ready) :
    s.mbReset k = (s.setDie k { s.die k with st := .resetting }).awaitDie k := by
  rcases h with h | h <;> simp [State.mbReset, h]

theorem mbReset_refused (s : State) (k : Nat) (h : (s.die k).st = .online ∨ (s.die k).st = .fencing ∨ (s.die k).st = .resetting) :
    s.mbReset k = s.mbDone cBadState 0 := by
  rcases h with h | h | h <;> simp [State.mbReset, h]

theorem mbResume_online (s : State) (k : Nat) (h : (s.die k).st = .online) : s.mbResume k = s.mbDone cOk 0 := by
  simp [State.mbResume, h]

theorem mbResume_ready (s : State) (k : Nat) (h : (s.die k).st = .ready) :
    s.mbResume k = State.mbDone (s.setDie k { s.die k with st := .online, duty := s.dutyInForce k }) cOk 0 := by
  simp [State.mbResume, h]

theorem mbResume_refused (s : State) (k : Nat) (h : (s.die k).st = .fencing ∨ (s.die k).st = .fenced ∨ (s.die k).st = .resetting) :
    s.mbResume k = s.mbDone cBadState 0 := by
  rcases h with h | h | h <;> simp [State.mbResume, h]

/-! ### BUDGET (R43) -/

theorem budgetOk_iff (t : List (BitVec 17)) : budgetOk t = true ↔
    (t.map budCyc).sum ≤ 256 ∧ (t.map budByt).sum ≤ 256 ∧ 4 ≤ budCyc (t.getD 8 0) ∧ 4 ≤ budByt (t.getD 8 0) ∧
      ∀ v ∈ t, v.getLsbD 16 = true → 1 ≤ budCyc v ∧ 1 ≤ budByt v := by
  simp only [budgetOk, sumN_eq_sum, budHard, Bool.and_eq_true, decide_eq_true_eq, and_assoc, List.all_eq_true, Bool.or_eq_true,
    Bool.not_eq_true', ← Bool.not_eq_true, ← imp_iff_not_or]

theorem mbBudget_valid (s : State) (h : budgetOk s.mgmt.staged = true) :
    s.mbBudget = { s with mgmt := { s.mgmt with busy := true, activating := true, checked := s.mgmt.staged } } := if_pos h

theorem mbBudget_invalid (s : State) (h : ¬ budgetOk s.mgmt.staged = true) : s.mbBudget = s.mbDone cBadSum 0 := if_neg h

/-! ### Every command -/

/-- Settles O42: the checks come before any command, and each command does what its own lemma above says. -/
theorem mailboxCommands : Obligations.MailboxCommands := by
  unfold Obligations.MailboxCommands
  intro rows posed ends
  refine ⟨fun row hr s arg len hin ha => ?_, fun s op arg len hin hb hrows => ?_, fun row hr s hin => ⟨?_, ?_⟩, ?_, ?_⟩
  · have hop := toNat_op_commandRow hr
    refine ⟨fun hb => ?_, fun hb hl => ?_⟩
    · rw [exec_commandRow_mailbox hr s _ arg len hin hop ha, command_busy s _ _ _ hb]
    · exact exec_commandRow_long hr s _ arg len hin hop ha hb hl
  · exact exec_unknownMailboxOp s op arg len hin hb (badCommand_of_rows hrows)
  · exact exec_commandRow_idle hr s hin
  · exact exec_commandRow_started_long hr s hin
  · intro s op arg len hin hb hl s1 m word
    have hdo : ∀ row ∈ commandRows, op = BitVec.ofNat 8 row.2.1 → arg.toNat < row.2.2 →
        ∀ t, s1.perform m.mb row.2.1 arg.toNat len.toNat = t → exec row.1 s = .next t := by
      rintro row hr rfl ha t rfl
      exact exec_commandRow_perform hr s _ arg len hin (toNat_op_commandRow hr) ha hb hl
    have harg := arg.isLt
    refine ⟨fun hop => ?_, fun hop ha => ?_, fun hop => ?_, fun hop => ?_, fun hop ha => ?_,
      fun ha => ⟨fun hop => ?_, fun hop => ?_, fun hop => ?_⟩, fun hop => ?_⟩
    · have hexec := hdo (.logread, 1, 65536) (by simp [commandRows]) hop harg
      have hword : word 0 = leNat ((List.range 8).map m.mb) := by simp only [word, Nat.zero_add]; rfl
      rw [hword]
      refine ⟨_, hexec _ rfl, rfl, rfl, rfl, rfl, fun i e hi he j hj => ?_⟩
      subst he
      exact get_mbLog s1 m.mb i j hi hj
    · have hexec := hdo (.imgwrite, 2, 8192) (by simp [commandRows]) hop ha
      refine ⟨fun hlong => ?_, fun hfits => ⟨m.imageWritten m.mb arg.toNat len.toNat, ?_, get_imageWritten m m.mb _ _⟩⟩
      · exact hexec _ (mbImage_long s1 m.mb _ _ hlong)
      · exact hexec _ (mbImage_fits s1 m.mb _ _ hfits)
    · have hexec := hdo (.imgcommit, 3, 65536) (by simp [commandRows]) hop harg
      refine ⟨fun hsig => ?_, fun hsig hold => ?_, fun hsig hold => ?_⟩
      · exact hexec _ (mbCommit_badSig s1 (Bool.eq_false_iff.mp hsig))
      · exact hexec _ (mbCommit_rollback s1 hsig hold)
      · exact hexec _ (mbCommit_good s1 hsig hold)
    · have hexec := hdo (.attest, 4, 65536) (by simp [commandRows]) hop harg
      refine ⟨fun hk => hexec _ (mbAttest_noKey s1 m.mb hk), fun hk => ?_⟩
      have hdone := mbAttest_key s1 m.mb hk
      refine ⟨_, hexec _ rfl, congrArg (·.mgmt.code) hdone, congrArg (·.mgmt.rlen) hdone, congrArg (·.mgmt.busy) hdone, ?_⟩
      intro w body j hj
      have hbody : s1.reportBody ((List.range 64).map m.mb) = body := by rw [State.reportBody, sumN_eq_sum]; rfl
      rw [← hbody]
      exact get_mbAttest s1 m.mb hk j hj
    · have hexec := hdo (.cert, 5, 4) (by simp [commandRows]) hop ha
      refine ⟨fun hk => hexec _ (mbCert_noKey s1 _ hk), fun hk hp => ?_⟩
      have hdone := mbCert_key s1 arg.toNat hk hp
      exact ⟨_, hexec _ rfl, congrArg (·.mgmt.code) hdone, congrArg (·.mgmt.rlen) hdone, get_mbCert s1 _ hk hp⟩
    · have hexec := hdo (.dieFence, 0x10, 8) (by simp [commandRows]) hop ha
      refine ⟨fun h => ?_, fun h => ?_, fun h => ?_, fun h => ?_⟩
      · exact hexec _ ((mbFence_online s1 _ h).trans (awaitDie_setDie s1 _ _))
      · exact hexec _ (mbFence_fenced s1 _ h)
      · exact hexec _ (mbFence_resetting s1 _ h)
      · exact hexec _ (mbFence_ready s1 _ h)
    · have hexec := hdo (.diereset, 0x11, 8) (by simp [commandRows]) hop ha
      refine ⟨fun h => ?_, fun h => ?_⟩
      · exact hexec _ ((mbReset_fenced s1 _ h).trans (awaitDie_setDie s1 _ _))
      · exact hexec _ (mbReset_refused s1 _ h)
    · have hexec := hdo (.resume, 0x12, 8) (by simp [commandRows]) hop ha
      refine ⟨fun h => ?_, fun h => ?_, fun h => ?_⟩
      · exact hexec _ (mbResume_online s1 _ h)
      · exact hexec _ (mbResume_ready s1 _ h)
      · exact hexec _ (mbResume_refused s1 _ h)
    · intro c b valid
      have hexec := hdo (.budget, 0x20, 65536) (by simp [commandRows]) hop harg
      have hvalid : budgetOk s1.mgmt.staged = true ↔ valid := budgetOk_iff s1.mgmt.staged
      refine ⟨fun h => ?_, fun h => ?_⟩
      · exact hexec _ (mbBudget_valid s1 (hvalid.mpr h))
      · exact hexec _ (mbBudget_invalid s1 (mt hvalid.mp h))
  · intro s ev sev src args t e
    refine ⟨rfl, ?_, fun n hn hlate => ?_, fun h => if_pos h, fun h => if_neg (Nat.not_le.mpr h)⟩
    · rw [logEv_log s ev sev src args _ (by omega), if_pos rfl]; rfl
    · rw [logEv_log s ev sev src args n hlate, if_neg hn]

end Sys2Proof.Machine
end

section
/-! SUPPORT. O45: links, SPDM and IDE, and the translation services of the host (R48, R51 to R53). -/
namespace Sys2Proof.Machine

/-! ### Maps and folds -/

/-- A canonical map from which entries go by a test. -/
theorem get_keep {α : Type} [DecidableEq α] {d : α} {m : Sparse α} (f : Nat → α → Bool) (h : Sparse.wf d m = true) (k : Nat) :
    Sparse.get d (keep m f) k = if f k (Sparse.get d m k) then Sparse.get d m k else d := by
  by_cases hout : Sparse.get d (keep m f) k = d
  · rw [hout]
    split
    · next hf =>
      by_contra hne
      have hkept : (k, Sparse.get d m k) ∈ keep m f := List.mem_filter.mpr ⟨Sparse.mem_of_get_ne (Ne.symm hne), hf⟩
      exact hne (hout.symm.trans (Sparse.get_of_mem (wf_keep f h) hkept))
    · rfl
  · have hkept : (k, Sparse.get d (keep m f) k) ∈ keep m f := Sparse.mem_of_get_ne hout
    have hget := Sparse.get_of_mem h (List.mem_of_mem_filter hkept)
    rw [hget, if_pos (List.of_mem_filter hkept)]

/-- A fold that changes something at one element only. -/
theorem foldl_at {σ α : Type} (f : σ → α → σ) (l : List α) (a : α) (s : σ) (hn : l.Nodup) (ha : a ∈ l)
    (hbefore : ∀ b, b ≠ a → b ∈ l → f s b = s) (hafter : ∀ b, b ≠ a → b ∈ l → f (f s a) b = f s a) : l.foldl f s = f s a := by
  obtain ⟨p, q, rfl⟩ := List.append_of_mem ha
  obtain ⟨-, hq, hpq⟩ := List.nodup_append.mp hn
  have hp : ∀ b ∈ p, f s b = s := fun b hb => hbefore b (hpq b hb a (by simp)) (by simp [hb])
  have hq : ∀ b ∈ q, f (f s a) b = f s a :=
    fun b hb => hafter b (fun e => (List.nodup_cons.mp hq).1 (e ▸ hb)) (by simp [hb])
  rw [List.foldl_append, List.foldl_cons, foldl_same f p s hp, foldl_same f q _ hq]

theorem setPort_setPort (s : State) (p : Nat) (d e : Port) : (s.setPort p d).setPort p e = s.setPort p e := by
  simp only [State.setPort, Sparse.set_set]

@[simp] theorem port_logEv (s : State) (ev : Ev) (sev src : Nat) (args : List Nat) (j : Nat) : (s.logEv ev sev src args).port j = s.port j := rfl

/-! ### Links, SPDM and IDE keys (R48, R52, R53) -/

/-- Does a port train at this rate and width (R48)? -/
def State.trains (s : State) (p rate width : Nat) (flit : Bool) : Prop :=
  s.iodPresent p = true ∧ rate ∈ linkRates ∧ width ∈ linkWidths ∧ (flit = true ∨ rate ≤ 320)

theorem linkFlit_iff (rate : Nat) (flit : Bool) : linkFlit rate flit = true ↔ flit = true ∨ rate ≤ 320 := by
  rw [linkFlit, Bool.or_eq_true, decide_eq_true_eq]

theorem execLinkUp_trains (s : State) (p rate width : Nat) (flit : Bool) (hin : s.input = .link p rate width flit) (hp : p < 2)
    (h : s.trains p rate width flit) : exec .linkUp s =
      .next ((s.setPort p { s.port p with up := true, rate := rate, width := width, flit := flit }).logEv .linkEvent 0 (evIod p) [rate, width]) := by
  obtain ⟨hi, hr, hw, hf⟩ := h
  have hstep : exec .linkUp s = execLinkUp s := rfl
  rw [hstep, execLinkUp, hin]
  exact congrArg Host.Outcome.next (if_pos ⟨hp, hi, hr, hw, (linkFlit_iff rate flit).mpr hf⟩)

theorem execLinkUp_refuses (s : State) (p rate width : Nat) (flit : Bool) (hin : s.input = .link p rate width flit)
    (h : ¬ s.trains p rate width flit) : exec .linkUp s = .next s := by
  have hstep : exec .linkUp s = execLinkUp s := rfl
  rw [hstep, execLinkUp, hin]
  refine congrArg Host.Outcome.next (if_neg ?_)
  rintro ⟨-, hi, hr, hw, hf⟩
  exact h ⟨hi, hr, hw, (linkFlit_iff rate flit).mp hf⟩

/-- Does a posted write outlive its port? -/
def outlives (p : Nat) : Option Posted → Bool
  | some w => w.port != p || w.accepted
  | none => false

/-- Does a read of the host come through another port? -/
def elsewhere (p : Nat) : Option HostRead → Bool
  | some r => r.port != p
  | none => false

/-- The device as a port goes down: its writes that no home has accepted and its reads are gone (R53). -/
def State.cutLink (s : State) (p : Nat) : State :=
  { s.setPort p { s.port p with up := false, rate := 0, width := 0, flit := false } with
    posted := keep s.posted fun _ v => outlives p v, reads := keep s.reads fun _ v => elsewhere p v }

theorem cutLink_port (s : State) (p j : Nat) :
    (s.cutLink p).port j = if j = p then { s.port p with up := false, rate := 0, width := 0, flit := false } else s.port j :=
  State.port_setPort s p j _

theorem cutLink_posted (s : State) (p i : Nat) (h : Sparse.wf none s.posted = true) :
    (s.cutLink p).postedAt i = (s.postedAt i).bind fun w => if w.port = p ∧ w.accepted = false then none else some w := by
  refine (get_keep (fun _ => outlives p) h i).trans ?_
  rw [State.postedAt]
  cases Sparse.get none s.posted i with
  | none => rfl
  | some w => by_cases hp : w.port = p <;> cases ha : w.accepted <;> simp [outlives, hp, ha]

theorem cutLink_reads (s : State) (p i : Nat) (h : Sparse.wf none s.reads = true) :
    Sparse.get none (s.cutLink p).reads i = (Sparse.get none s.reads i).bind fun r => if r.port = p then none else some r := by
  refine (get_keep (fun _ => elsewhere p) h i).trans ?_
  cases Sparse.get none s.reads i with
  | none => rfl
  | some r => by_cases hp : r.port = p <;> simp [elsewhere, hp]

/-- With no invalidation under way nothing completes. -/
theorem settleAts_none (s : State) (p : Nat) (h : (s.port p).inv = []) : s.settleAts p = s := by
  rw [State.settleAts]
  dsimp only
  rw [h]
  rfl

/-- The reads of host memory that are out through a port. -/
def State.hostReadsOut (s : State) (p : Nat) : List Nat :=
  (listed s.txns).filterMap fun t => match t.2.tgt with
    | .host q _ => if q = p ∧ t.2.accepted = true then some t.1 else none
    | _ => none

theorem hostReadsOut_nil (s : State) (p : Nat) (h : ∀ id x, (id, some x) ∈ s.txns → x.accepted = true → ∀ ps, x.tgt ≠ .host p ps) :
    s.hostReadsOut p = [] := by
  rw [State.hostReadsOut, List.filterMap_eq_nil_iff]
  rintro ⟨id, x⟩ hx
  dsimp only
  split
  · next q ps ht => exact if_neg fun ⟨hq, ha⟩ => h id x (mem_listed.mp hx) ha ps (hq ▸ ht)
  · rfl

/-- A port goes down: its reads that are out fail, and its invalidations that wait for no other request complete. -/
theorem linkDown_eq (s : State) (p : Nat) : s.linkDown p =
    (((s.hostReadsOut p).foldl (fun (s : State) i => s.failTxn i causeHostCpl) (s.cutLink p)).settleAts p).logEv .linkEvent 1 (evIod p) [] := rfl

/-- A port with no read out and no invalidation under way goes down. -/
theorem linkDown_idle (s : State) (p : Nat) (hinv : (s.port p).inv = [])
    (hout : ∀ id x, (id, some x) ∈ s.txns → x.accepted = true → ∀ ps, x.tgt ≠ .host p ps) :
    s.linkDown p = (s.cutLink p).logEv .linkEvent 1 (evIod p) [] := by
  have hcut : ((s.cutLink p).port p).inv = [] := by rw [cutLink_port, if_pos rfl]; exact hinv
  rw [linkDown_eq, hostReadsOut_nil s p hout, List.foldl_nil, settleAts_none _ p hcut]

theorem execLinkDown_up (s : State) (p rate width : Nat) (flit : Bool) (hin : s.input = .link p rate width flit) (hp : p < 2)
    (hup : (s.port p).up = true) : exec .linkDown s = .next (s.linkDown p) := by
  have hstep : exec .linkDown s = execLinkDown s := rfl
  rw [hstep, execLinkDown, hin]
  exact congrArg Host.Outcome.next (if_pos ⟨hp, hup⟩)

/-- An SPDM request of a port is answered. -/
def State.answerSpdm (s : State) (p : Nat) (req : List Byte) : State :=
  { s with free := s.free + 1, out := .spdm p (Config.spdmReply s.free p s.mgmt.keyOk req) :: s.out }

theorem execSpdmAuthentication_up (s : State) (p : Nat) (req : List Byte) (hin : s.input = .spdm p req) (hp : p < 2)
    (hup : (s.port p).up = true) : exec .spdmAuthentication s = .next (s.answerSpdm p req) := by
  have hstep : exec .spdmAuthentication s = execSpdmAuthentication s := rfl
  rw [hstep, execSpdmAuthentication, hin]
  exact congrArg Host.Outcome.next (if_pos ⟨hp, hup⟩)

/-- A stream of a port takes its key. -/
def State.keyStream (s : State) (p st : Nat) (key : DWord) : State :=
  s.setPort p { s.port p with ide := Sparse.set none (s.port p).ide st (some key), ideSt := Sparse.set false (s.port p).ideSt st false }

theorem execIdeKeyProgramming_up (s : State) (p st : Nat) (key : DWord) (hin : s.input = .ideKey p st key) (hp : p < 2) (hst : st < 9)
    (hup : (s.port p).up = true) : exec .ideKeyProgramming s = .next (if s.mgmt.keyOk = true then s.keyStream p st key else s) := by
  have hstep : exec .ideKeyProgramming s = execIdeKeyProgramming s := rfl
  rw [hstep, execIdeKeyProgramming, hin]
  dsimp only
  refine congrArg Host.Outcome.next ?_
  by_cases hk : s.mgmt.keyOk = true
  · rw [if_pos hk, if_pos (show _ ∧ _ ∧ _ ∧ _ from ⟨hp, hst, hk, hup⟩)]
    rfl
  · rw [if_neg hk]
    refine if_neg ?_
    rintro ⟨-, -, hkey, -⟩
    exact hk hkey

/-! ### TLPs that fail their integrity check (R52) -/

/-- The instructions that take a TLP. -/
def tlpInstrs : List Instr := [.inboundPostedWrite, .inboundAtomicop, .inboundRead, .atsInvalidation, .pageResponse, .outboundReadCompletion]

theorem ideFail_inv (s : State) (p st j : Nat) : ((s.ideFail p st).port j).inv = (s.port j).inv := by
  rw [State.ideFail]
  split
  · rfl
  · rw [port_logEv, State.port_setPort]
    split
    · next h => rw [h]
    · rfl

/-- Such a TLP is dropped, whatever instruction takes it. -/
theorem exec_ideFailed (s : State) (p st : Nat) (i : Instr) (hi : i ∈ tlpInstrs) (hin : s.input = .ideFailed p st) (h0 : (s.port 0).inv = [])
    (h1 : (s.port 1).inv = []) : exec i s = .next (s.ideFail p st) := by
  simp only [tlpInstrs, List.mem_cons, List.not_mem_nil, or_false] at hi
  rcases hi with rfl | rfl | rfl | rfl | rfl | rfl
  · exact (congrArg Host.Outcome.next (by rw [hin]) : execInboundPostedWrite s = _)
  · exact (congrArg Host.Outcome.next (by rw [hin]) : execInboundAtomicop s = _)
  · exact (congrArg Host.Outcome.next (by rw [hin]) : execInboundRead s = _)
  · exact (congrArg Host.Outcome.next (by rw [hin]) : execAtsInvalidation s = _)
  · exact (congrArg Host.Outcome.next (by rw [hin]) : execPageResponse s = _)
  · have hread : s.readCompletion = s.ideFail p st := by rw [State.readCompletion, hin]
    have hstep : exec .outboundReadCompletion s = .next ((s.readCompletion.settleAts 0).settleAts 1) := rfl
    rw [hstep, hread, settleAts_none _ 0 ((ideFail_inv s p st 0).trans h0), settleAts_none _ 1 ((ideFail_inv s p st 1).trans h1)]

/-! ### ATS invalidations (R51) -/

theorem mem_pageUsers (s : State) (p pasid page id : Nat) (x : Txn) (q : Part) (hx : (id, some x) ∈ s.txns) (ht : x.tgt = .host p pasid)
    (hq : q ∈ x.parts) (ha : q.addr / 4096 = page) : id ∈ s.pageUsers p pasid page :=
  List.mem_filterMap.mpr ⟨(id, x), mem_listed.mpr hx, if_pos ⟨ht, List.any_eq_true.mpr ⟨q, hq, beq_iff_eq.mpr ha⟩⟩⟩

theorem usesAts_of_part (s : State) (i : Nat) (x : Txn) (q : Part) (hx : s.txn i = some x) (hq : q ∈ x.parts)
    (h : x.accepted = true ∨ s.parkedPart x q = false) : s.usesAts i = true := by
  rw [State.usesAts, hx]
  rcases h with ha | hpark
  · exact Bool.or_eq_true_iff.mpr (.inl ha)
  · exact Bool.or_eq_true_iff.mpr (.inr (List.any_eq_true.mpr ⟨q, hq, by rw [hpark]; rfl⟩))

/-- A host page may not be used any more, and its invalidation waits for these requests. -/
def State.invalidating (s : State) (p pasid page : Nat) (users : List Nat) : State :=
  s.setPort p { s.port p with ats := Sparse.set false (s.port p).ats (pasid * 2 ^ 32 + page) false, inv := [(pasid, page, users)] }

theorem execAtsInvalidation_first (s : State) (p pasid page : Nat) (ok : Bool) (hin : s.input = .ats p pasid page ok) (h : (s.port p).inv = []) :
    exec .atsInvalidation s = .next ((s.invalidating p pasid page (s.pageUsers p pasid page)).settleAts p) := by
  have hstep : exec .atsInvalidation s = execAtsInvalidation s := rfl
  rw [hstep, execAtsInvalidation, hin]
  dsimp only
  rw [h]
  rfl

/-- An invalidation whose requests are over completes. -/
theorem settleAts_done (s : State) (p pasid page : Nat) (users : List Nat) (h : (s.port p).inv = [(pasid, page, users)])
    (hu : ∀ i ∈ users, s.usesAts i = false) :
    s.settleAts p = ((s.setPort p { s.port p with inv := [] }).endWatches users).emit (.invalidated p pasid page) := by
  have hany : users.any s.usesAts = false := List.any_eq_false.mpr fun i hi => by rw [hu i hi]; exact Bool.false_ne_true
  rw [State.settleAts]
  dsimp only
  rw [h]
  simp [hany]

/-- An invalidation waits while one of its requests is under way. -/
theorem settleAts_waits (s : State) (p pasid page : Nat) (users : List Nat) (h : (s.port p).inv = [(pasid, page, users)])
    (hu : ∃ i ∈ users, s.usesAts i = true) : s.settleAts p = s := by
  have hany : users.any s.usesAts = true := List.any_eq_true.mpr hu
  rw [State.settleAts]
  dsimp only
  rw [h]
  simp [hany]

/-! ### Page responses (R51) -/

/-- A lane becomes ready if it is parked on what `f` says. -/
def Group.readyLane (f : Group → Park → Bool) (g : Group) (l : Nat) : Group :=
  if decide ((g.lane l).st = .parked) && f g (g.lane l).park then g.setLane l { g.lane l with ready := true } else g

theorem readyLane_parked (f : Group → Park → Bool) (g : Group) (l : Nat) (hst : (g.lane l).st = .parked) (hf : f g (g.lane l).park = true) :
    g.readyLane f l = g.setLane l { g.lane l with ready := true } :=
  if_pos (by rw [hf, Bool.and_true, decide_eq_true_eq]; exact hst)

theorem readyLane_other (f : Group → Park → Bool) (g : Group) (l : Nat) (hf : f g (g.lane l).park = false) : g.readyLane f l = g :=
  if_neg (by rw [hf, Bool.and_false]; exact Bool.false_ne_true)

/-- The only lane that waits for what `f` says becomes ready. -/
theorem readyWhere_one (s : State) (f : Group → Park → Bool) (gid l : Nat) (g : Group) (hs : s.groups = [(gid, some g)]) (hl : l < 32)
    (hst : (g.lane l).st = .parked) (hf : ∀ h, f h (g.lane l).park = true) (hothers : ∀ j, j < 32 → j ≠ l → ∀ h, f h (g.lane j).park = false) :
    s.readyWhere f = s.setGroup gid (g.setLane l { g.lane l with ready := true }) := by
  have hg : s.group gid = some g := by rw [State.group, hs]; exact if_pos rfl
  have hany : (lanes32.any fun l => f g (g.lane l).park) = true := List.any_eq_true.mpr ⟨l, mem_lanes32.mpr hl, hf g⟩
  have hself := readyLane_parked f g l hst (hf g)
  have hlanes : lanes32.foldl (fun g l => g.readyLane f l) g = g.setLane l { g.lane l with ready := true } := by
    refine (foldl_at _ lanes32 l g lanes32_nodup (mem_lanes32.mpr hl) (fun j hj hm => ?_) (fun j hj hm => ?_)).trans hself
    · exact readyLane_other f g j (hothers j (mem_lanes32.mp hm) hj g)
    · rw [hself]
      exact readyLane_other f _ j (by rw [lane_setLane, if_neg hj]; exact hothers j (mem_lanes32.mp hm) hj _)
  have hlisted : listed [(gid, some g)] = [(gid, g)] := rfl
  rw [State.readyWhere, hs, hlisted, List.foldl_cons, List.foldl_nil]
  dsimp only
  rw [if_pos hany, hg]
  exact congrArg (s.setGroup gid) hlanes

/-- A lane that waits for a host page traps with HOSTCPL. -/
def State.failLane (p pasid page gid : Nat) (g : Group) (s : State) (l : Nat) : State :=
  match (g.lane l).park with
  | .pri q ps pg acc va => if q = p ∧ ps = pasid ∧ pg = page then s.lateTrap (g.lane l).pc gid l causeHostCpl acc va else s
  | _ => s

theorem failLane_none (p pasid page gid : Nat) (g : Group) (s : State) (l : Nat) (h : (g.lane l).park = .none) :
    s.failLane p pasid page gid g l = s := by
  rw [State.failLane, h]

/-- The only lane parked on a host page traps with HOSTCPL. -/
theorem failPage_one (s : State) (p pasid page gid l acc va : Nat) (g : Group) (hs : s.groups = [(gid, some g)]) (hl : l < 32)
    (hst : (g.lane l).st = .parked) (hh : (g.lane l).handler = false) (hp : (g.lane l).park = .pri p pasid page acc va)
    (hothers : ∀ j, j < 32 → j ≠ l → (g.lane j).park = .none) :
    s.failPage p pasid page = s.setGroup gid (g.setLane l ((g.lane l).trap causeHostCpl acc (BitVec.ofNat 64 va))) := by
  have hg : s.group gid = some g := by rw [State.group, hs]; exact if_pos rfl
  have htrap := lateTrap_outside s (g.lane l).pc gid l causeHostCpl acc va g hg (by rw [hst]; decide) hh
  have hlisted : listed [(gid, some g)] = [(gid, g)] := rfl
  have hself : s.failLane p pasid page gid g l = s.lateTrap (g.lane l).pc gid l causeHostCpl acc va := by
    rw [State.failLane, hp]
    exact if_pos ⟨rfl, rfl, rfl⟩
  have hlanes := foldl_at (State.failLane p pasid page gid g) lanes32 l s lanes32_nodup (mem_lanes32.mpr hl)
    (fun j hj hm => failLane_none p pasid page gid g s j (hothers j (mem_lanes32.mp hm) hj))
    (fun j hj hm => failLane_none p pasid page gid g _ j (hothers j (mem_lanes32.mp hm) hj))
  rw [State.failPage, hs, hlisted, List.foldl_cons, List.foldl_nil]
  exact hlanes.trans (hself.trans htrap)

/-- With nothing to be translated again no access fails. -/
theorem failAgain_none (s : State) (gid l : Nat) (h : ∀ id x, (id, some x) ∈ s.txns → ∀ q ∈ x.parts, q.again = false) :
    s.failAgain gid l = s := by
  rw [State.failAgain]
  refine foldl_same _ _ s fun ⟨id, x⟩ hx => ?_
  have hm : (id, some x) ∈ s.txns := mem_listed.mp (List.mem_of_mem_filter hx)
  have hnone : (x.parts.find? fun q => q.lane == l && q.again) = none :=
    List.find?_eq_none.mpr fun q hq => by rw [h id x hm q hq, Bool.and_false]; exact Bool.false_ne_true
  dsimp only
  rw [hnone]

/-- The port has no page request left; the page is usable if the host made it so. -/
def State.answered (s : State) (p pasid page : Nat) (ok : Bool) : State :=
  s.setPort p { s.port p with pri := [], ats := if ok then Sparse.set false (s.port p).ats (pasid * 2 ^ 32 + page) true else (s.port p).ats }

/-- The answer to the only page request of a port, of a lane of a group that is there. -/
theorem pageResponse_one (s : State) (p pasid page gid l : Nat) (ok : Bool) (h : (s.port p).pri = [(pasid, page, gid, l)])
    (hg : ok = false → (((s.answered p pasid page ok).failPage p pasid page).group gid).isSome = true) :
    s.pageResponse p pasid page ok =
      if ok then (s.answered p pasid page ok).readyWhere fun _ k => k.onPage p pasid page
      else ((s.answered p pasid page ok).failPage p pasid page).failAgain gid l := by
  rw [State.pageResponse]
  dsimp only
  have hpages : ([(pasid, page)] : List (Nat × Nat)).eraseDups[512]? = none := by rw [List.eraseDups_cons]; rfl
  have hany : ([(pasid, page, gid, l)] : List (Nat × Nat × Nat × Nat)).isEmpty = false := rfl
  have hmine : ([(pasid, page, gid, l)].filter fun r => r.1 == pasid && r.2.1 == page) = [(pasid, page, gid, l)] := by simp
  have hrest : ([(pasid, page, gid, l)].filter fun r => !(r.1 == pasid && r.2.1 == page)) = [] := by simp
  rw [h, hmine, hrest, hany, if_neg Bool.false_ne_true, List.map_cons, List.map_nil, hpages]
  dsimp only
  cases ok with
  | true => rfl
  | false => exact if_pos (hg rfl)

/-- A page becomes usable: the only lane parked on it becomes ready. -/
theorem pageResponse_usable (s : State) (p pasid page gid l acc va : Nat) (g : Group) (h : (s.port p).pri = [(pasid, page, gid, l)])
    (hs : s.groups = [(gid, some g)]) (hl : l < 32) (hst : (g.lane l).st = .parked) (hp : (g.lane l).park = .pri p pasid page acc va)
    (hothers : ∀ j, j < 32 → j ≠ l → (g.lane j).park = .none) :
    s.pageResponse p pasid page true =
      (s.answered p pasid page true).setGroup gid (g.setLane l { g.lane l with ready := true }) := by
  refine (pageResponse_one s p pasid page gid l true h nofun).trans ?_
  rw [if_pos rfl]
  refine readyWhere_one (s.answered p pasid page true) (fun _ k => k.onPage p pasid page) gid l g hs hl hst (fun _ => ?_) fun j hj hne _ => ?_
  · rw [hp]; simp [Park.onPage]
  · rw [hothers j hj hne]; rfl

/-- The host has no such page: the only lane parked on it traps with HOSTCPL. -/
theorem pageResponse_missing (s : State) (p pasid page gid l acc va : Nat) (g : Group) (h : (s.port p).pri = [(pasid, page, gid, l)])
    (hs : s.groups = [(gid, some g)]) (hl : l < 32) (hst : (g.lane l).st = .parked) (hp : (g.lane l).park = .pri p pasid page acc va)
    (hothers : ∀ j, j < 32 → j ≠ l → (g.lane j).park = .none) (hh : (g.lane l).handler = false)
    (hagain : ∀ id x, (id, some x) ∈ s.txns → ∀ q ∈ x.parts, q.again = false) :
    s.pageResponse p pasid page false =
      (s.answered p pasid page false).setGroup gid (g.setLane l ((g.lane l).trap causeHostCpl acc (BitVec.ofNat 64 va))) := by
  have hfail := failPage_one (s.answered p pasid page false) p pasid page gid l acc va g hs hl hst hh hp hothers
  rw [pageResponse_one s p pasid page gid l false h fun _ => by rw [hfail, State.group_setGroup_same]; rfl, if_neg Bool.false_ne_true, hfail]
  exact failAgain_none _ gid l hagain

/-! ### Reads of host memory (R53) -/

/-- A load that fails traps its lane at the load's word, with HOSTCPL and the address of the load. -/
theorem OneOut.failTxn_hostLoad {s : State} {id : Nat} {x : Txn} {q : Part} {g : Group} (ho : OneOut s id x q g) (w : Width) (d : RegIx)
    (hop : q.op = .load w d) (hx : (g.lane q.lane).st ≠ .exited) (hh : (g.lane q.lane).handler = false) :
    s.failTxn id causeHostCpl = s.noTxns.setGroup x.gid (g.setLane q.lane ((g.lane q.lane).trapAt x.pc causeHostCpl 0 q.va)) := by
  have hg : s.noTxns.group x.gid = some g := ho.group
  refine ho.failTxn causeHostCpl _ ?_
  rw [State.failPart, hg]
  dsimp only
  rw [hop]
  exact lateBoth_unprotected s.noTxns x.pc x.gid q.lane causeHostCpl 0 q.va g hg hx hh ho.prot

theorem hostRead_host (s : State) (id p pasid : Nat) (x : Txn) (h : s.txn id = some x) (ht : x.tgt = .host p pasid) (ha : x.accepted = true) :
    s.hostRead id = some x := by
  rw [State.hostRead, h]
  dsimp only
  rw [ht]
  exact if_pos ha

/-- The data of a read of one part are the part's bytes. -/
theorem OneOut.readCompletion_data {s : State} {id : Nat} {x : Txn} {q : Part} {g : Group} (ho : OneOut s id x q g) (data : List Byte)
    (hin : s.input = .response id true data) (hr : s.hostRead id = some x) (hlen : data.length = q.len) :
    s.readCompletion = s.farDone id x [(q, data)] := by
  have hspan : x.live.span = (q.addr, q.addr + q.len - q.addr) := by rw [Txn.span, ho.live_parts]; rfl
  have hbytes : (data.drop (q.addr - q.addr)).take q.len = data := by rw [Nat.sub_self, List.drop_zero, ← hlen, List.take_length]
  rw [State.readCompletion, hin]
  dsimp only
  rw [hr]
  dsimp only
  rw [if_pos rfl, ho.live_parts, hspan, List.map_cons, List.map_nil, hbytes]

theorem readCompletion_failed (s : State) (id : Nat) (x : Txn) (data : List Byte) (hin : s.input = .response id false data)
    (hr : s.hostRead id = some x) : s.readCompletion = s.failTxn id causeHostCpl := by
  rw [State.readCompletion, hin]
  dsimp only
  rw [hr]
  exact if_neg Bool.false_ne_true

theorem execCompletionTimeout_out (s : State) (id : Nat) (ok : Bool) (x : Txn) (data : List Byte) (hin : s.input = .response id ok data)
    (hr : s.hostRead id = some x) : exec .completionTimeout s = .next (((s.failTxn id causeHostCpl).settleAts 0).settleAts 1) := by
  have hstep : exec .completionTimeout s = execCompletionTimeout s := rfl
  rw [hstep, execCompletionTimeout, hin]
  dsimp only
  rw [hr]
  rfl

end Sys2Proof.Machine
end

section
/-! SUPPORT. O45: the statement. -/
namespace Sys2Proof.Machine

/-- Settles O45. -/
theorem linksAndPages : Obligations.LinksAndPages := by
  unfold Obligations.LinksAndPages
  refine ⟨?_, ?_, ?_, ?_, ?_, ?_⟩
  · intro s p rate width flit hp hin trains
    refine ⟨execLinkUp_trains s p rate width flit hin hp, execLinkUp_refuses s p rate width flit hin, fun hup hinv hout hposted hreads => ?_⟩
    have hother : 1 - p ≠ p := by omega
    refine ⟨_, (execLinkDown_up s p rate width flit hin hp hup).trans (congrArg Host.Outcome.next (linkDown_idle s p hinv hout)), rfl, rfl, ?_, ?_,
      fun i => ?_, fun i => ?_⟩
    · rw [port_logEv, cutLink_port, if_pos rfl]
    · rw [port_logEv, cutLink_port, if_neg hother]
    · refine (cutLink_posted s p i hposted).trans ?_
      cases s.postedAt i <;> rfl
    · refine (cutLink_reads s p i hreads).trans ?_
      cases Sparse.get none s.reads i <;> rfl
  · intro s p req hp hin hup
    exact execSpdmAuthentication_up s p req hin hp hup
  · intro s p st key hp hst hin hup
    rw [execIdeKeyProgramming_up s p st key hin hp hst hup]
    refine ⟨fun hk => ?_, fun hk => ?_⟩
    · rw [if_pos hk]; rfl
    · rw [if_neg (by rw [hk]; exact Bool.false_ne_true)]
  · intro s p st hin h0 h1 i hi
    rw [exec_ideFailed s p st i hi hin h0 h1, State.ideFail]
    refine ⟨fun hp hst hup => ?_, fun hno => ?_⟩
    · rw [if_neg (by rw [hup]; simp; omega)]
    · rw [if_pos hno]
  · intro s p pasid page ok hin d users
    refine ⟨fun id x q hx ht hq ha => mem_pageUsers s p pasid page id x q hx ht hq ha, fun hinv hu => ?_, fun hinv hu => ?_,
      usesAts_of_part s, ?_⟩
    · have hport : ((s.invalidating p pasid page users).port p).inv = [(pasid, page, users)] := by
        rw [State.invalidating, State.port_setPort_same]
      have hclear : ({ s.port p with ats := Sparse.set false (s.port p).ats (pasid * 2 ^ 32 + page) false, inv := [] } : Port) =
          { s.port p with ats := Sparse.set false (s.port p).ats (pasid * 2 ^ 32 + page) false } := by rw [← hinv]
      rw [execAtsInvalidation_first s p pasid page ok hin hinv, settleAts_done _ p pasid page users hport hu, State.invalidating,
        setPort_setPort, State.port_setPort_same, hclear]
    · have hport : ((s.invalidating p pasid page users).port p).inv = [(pasid, page, users)] := by
        rw [State.invalidating, State.port_setPort_same]
      rw [execAtsInvalidation_first s p pasid page ok hin hinv, settleAts_waits _ p pasid page users hport hu]
      rfl
    · intro gid l g acc va hpri hgs hl hst hpark hothers
      have hstep : exec .pageResponse s = .next (s.pageResponse p pasid page ok) := by
        have hdef : exec .pageResponse s = execPageResponse s := rfl
        rw [hdef, execPageResponse, hin]
      rw [hstep]
      refine ⟨fun hok => ?_, fun hok hh hagain => ?_⟩
      · subst hok
        exact congrArg Host.Outcome.next (pageResponse_usable s p pasid page gid l acc va g hpri hgs hl hst hpark hothers)
      · subst hok
        exact congrArg Host.Outcome.next (pageResponse_missing s p pasid page gid l acc va g hpri hgs hl hst hpark hothers hh hagain)
  · intro s id p pasid ok data x q g w d hin htx ht ha hparts hop hm hrep hagain hinv hg hpolls hx hh hprot without fails
    have ho : OneOut s id x q g := ⟨htx, hparts, hrep, hagain, hg, hpolls, hprot⟩
    have hread := hostRead_host s id p pasid x ho.txn ht ha
    have hfail := ho.failTxn_hostLoad w d hop hx hh
    have hsettled : ∀ h : Group, ((s.noTxns.setGroup x.gid h).settleAts 0).settleAts 1 = s.noTxns.setGroup x.gid h := fun h => by
      rw [settleAts_none (s.noTxns.setGroup x.gid h) 0 (hinv 0), settleAts_none (s.noTxns.setGroup x.gid h) 1 (hinv 1)]
    have hstep : exec .outboundReadCompletion s = .next ((s.readCompletion.settleAts 0).settleAts 1) := rfl
    refine ⟨fun hok hlen => ?_, fun hok => ?_, ?_⟩
    · subst hok
      have hpart := ho.farPart_load w d data hop hm hlen hx
      have hdone := ho.farDone data _ _ hpart rfl (State.group_setGroup_same _ _ _) hpolls
      rw [hstep, ho.readCompletion_data data hin hread hlen, hdone]
      exact congrArg Host.Outcome.next (hsettled _)
    · subst hok
      rw [hstep, readCompletion_failed s id x data hin hread, hfail, hsettled]
      rfl
    · rw [execCompletionTimeout_out s id ok x data hin hread, hfail, hsettled]
      rfl

end Sys2Proof.Machine
end

section
/-! SUPPORT. O48: the fold of a collective (R69). -/
namespace Sys2Proof.Machine

/-! ### Integers -/

/-- Sums that wrap at every step wrap once. -/
theorem foldl_add_mod (m v : Nat) (vs : List Nat) (hv : v < m) : vs.foldl (fun a x => (a + x) % m) v = (v + vs.sum) % m := by
  induction vs generalizing v with
  | nil => rw [List.foldl_nil, List.sum_nil, Nat.add_zero, Nat.mod_eq_of_lt hv]
  | cons x vs ih =>
    rw [List.foldl_cons, ih _ (Nat.mod_lt _ (by omega)), List.sum_cons, Nat.mod_add_mod, Nat.add_assoc]

/-- The first of the least values of a list, by a key. -/
def leastKey (f : Nat → Int) (v : Nat) (vs : List Nat) : Nat := vs.foldl (fun a x => if f x < f a then x else a) v

theorem leastKey_mem (f : Nat → Int) (v : Nat) (vs : List Nat) : leastKey f v vs ∈ v :: vs := by
  unfold leastKey
  induction vs generalizing v with
  | nil => exact List.mem_singleton_self v
  | cons x vs ih =>
    rcases List.mem_cons.mp (ih (if f x < f v then x else v)) with h | h
    · rw [List.foldl_cons, h]
      split <;> simp
    · exact List.mem_cons_of_mem _ (List.mem_cons_of_mem _ h)

theorem leastKey_le (f : Nat → Int) (v : Nat) (vs : List Nat) : ∀ x ∈ v :: vs, f (leastKey f v vs) ≤ f x := by
  unfold leastKey
  induction vs generalizing v with
  | nil => intro x hx; rw [List.mem_singleton.mp hx]; exact le_rfl
  | cons y vs ih =>
    intro x hx
    rw [List.foldl_cons]
    have hacc := ih (if f y < f v then y else v) _ (List.mem_cons_self ..)
    have hstep : f (if f y < f v then y else v) ≤ f y ∧ f (if f y < f v then y else v) ≤ f v := by split <;> omega
    rcases List.mem_cons.mp hx with rfl | hx
    · exact hacc.trans hstep.2
    · rcases List.mem_cons.mp hx with rfl | hx
      · exact hacc.trans hstep.1
      · exact ih _ x (List.mem_cons_of_mem _ hx)

/-- The width of an integer element. -/
def collWidth (ty : Nat) : Nat := if ty = 4 then 32 else 64

theorem collFold_sum (ty v : Nat) (vs : List Nat) (hf : collFmt ty = none) (hv : v < 2 ^ collWidth ty) :
    collFold ty 0 v vs = ((v + vs.sum) % 2 ^ collWidth ty, 0) := by
  rw [collFold, hf]
  exact congrArg (·, 0) (foldl_add_mod (2 ^ collWidth ty) v vs hv)

theorem collFold_min (ty v : Nat) (vs : List Nat) (hf : collFmt ty = none) :
    (collFold ty 1 v vs).1 = leastKey (sextInt · (collWidth ty)) v vs := by
  rw [collFold, hf]
  exact congrArg (fun f => List.foldl f v vs) (funext₂ fun a x => ((if_neg Nat.one_ne_zero).trans (if_pos rfl)).trans (if_congr decide_eq_true_iff rfl rfl))

theorem collFold_max (ty v : Nat) (vs : List Nat) (hf : collFmt ty = none) :
    (collFold ty 2 v vs).1 = leastKey (- sextInt · (collWidth ty)) v vs := by
  rw [collFold, hf]
  exact congrArg (fun f => List.foldl f v vs) (funext₂ fun a x => ((if_neg (Nat.succ_ne_zero 1)).trans (if_neg (by decide))).trans
    (if_congr (decide_eq_true_iff.trans Int.neg_lt_neg_iff.symm) rfl rfl))

/-- The minimum and the maximum of the ranks' integers. -/
theorem collFold_bounds (ty v : Nat) (vs : List Nat) (hf : collFmt ty = none) :
    (collFold ty 1 v vs).1 ∈ v :: vs ∧ (collFold ty 2 v vs).1 ∈ v :: vs ∧ ∀ x ∈ v :: vs,
      sextInt (collFold ty 1 v vs).1 (collWidth ty) ≤ sextInt x (collWidth ty) ∧
      sextInt x (collWidth ty) ≤ sextInt (collFold ty 2 v vs).1 (collWidth ty) := by
  rw [collFold_min ty v vs hf, collFold_max ty v vs hf]
  exact ⟨leastKey_mem _ v vs, leastKey_mem _ v vs, fun x hx =>
    ⟨leastKey_le (sextInt · (collWidth ty)) v vs x hx, Int.neg_le_neg_iff.mp (leastKey_le (- sextInt · (collWidth ty)) v vs x hx)⟩⟩

/-! ### Floating-point sums -/

/-- An addition of numbers is the format's addition. -/
theorem collAdd_numbers (F : Format) (a b : Nat × BitVec 5) (ha : a.1 < 2 ^ F.w) (hb : b.1 < 2 ^ F.w) (hna : (F.decode a.1).isNan = false)
    (hnb : (F.decode b.1).isNan = false) :
    F.collAdd a b = ((F.add 0 (F.decode a.1) (F.decode b.1)).1, a.2 ||| b.2 ||| (F.add 0 (F.decode a.1) (F.decode b.1)).2) := by
  have hop : F.op false false [a.1, b.1] (fun vs => F.add 0 (nth vs 0) (nth vs 1)) = some (F.add 0 (F.decode a.1) (F.decode b.1)) := by
    simp [Format.op, Nat.mod_eq_of_lt ha, Nat.mod_eq_of_lt hb, hna, hnb, nth]
  rw [Format.collAdd, hop]
  rfl

/-- The sum of one more rank, in a format in which the ranks' values are summed as they are. -/
theorem collSum_append (F : Format) (v y : Nat) (vs : List Nat) (hw : F.w ≠ 16) : F.collSum v (vs ++ [y]) = F.collAdd (F.collSum v vs) (y, 0) := by
  have hne : (vs ++ [y]).isEmpty = false := by cases vs <;> rfl
  rw [Format.collSum, hne, if_neg Bool.false_ne_true, if_neg hw, List.foldl_append, List.foldl_cons, List.foldl_nil, Format.collSum, if_neg hw]
  cases vs <;> rfl

theorem collFold_append (ty v y : Nat) (vs : List Nat) (F : Format) (hf : collFmt ty = some F) (hw : F.w ≠ 16)
    (ha : (collFold ty 0 v vs).1 < 2 ^ F.w) (hy : y < 2 ^ F.w) (hna : (F.decode (collFold ty 0 v vs).1).isNan = false)
    (hny : (F.decode y).isNan = false) :
    collFold ty 0 v (vs ++ [y]) = ((F.add 0 (F.decode (collFold ty 0 v vs).1) (F.decode y)).1,
      (collFold ty 0 v vs).2 ||| (F.add 0 (F.decode (collFold ty 0 v vs).1) (F.decode y)).2) := by
  have hsum : ∀ us, collFold ty 0 v us = F.collSum v us := fun us => by rw [collFold, hf]; rfl
  rw [hsum] at ha hna ⊢
  rw [hsum, collSum_append F v y vs hw, collAdd_numbers F _ (y, 0) ha hy hna hny]
  exact congrArg (fun fl => (_, fl ||| _)) BitVec.or_zero

end Sys2Proof.Machine
end

section
/-! SUPPORT. O48: a collective under way: the messages of the other ranks, its failure, its stamp (R66, R68, R70, R71). -/
namespace Sys2Proof.Machine

/-! ### The collectives of the device -/

theorem findColl_none (s : State) (eng comm num : Nat)
    (h : ∀ id c, (id, some c) ∈ s.clovar.colls → ¬ (c.eng = eng ∧ c.comm = comm ∧ c.num = num)) : s.findColl eng comm num = none := by
  refine List.find?_eq_none.mpr fun ⟨id, c⟩ hc => ?_
  simpa [and_assoc] using h id c (mem_listed.mp hc)

section
variable {s : State} {id : Nat} {c : Coll} (hs : s.clovar.colls = [(id, some c)])
include hs

theorem coll_only : s.coll id = some c := by
  rw [State.coll, hs]
  exact if_pos rfl

theorem findColl_only : s.findColl c.eng c.comm c.num = some (id, c) := by
  rw [State.findColl, hs]
  exact List.find?_cons_of_pos (by simp)

/-- The only collective changes. -/
theorem setColl_only (d : Coll) : s.setColl id (some d) = { s with clovar := { s.clovar with colls := [(id, some d)] } } := by
  have hset : Sparse.set none [(id, some c)] id (some d) = [(id, some d)] := by
    simp [Sparse.set, Sparse.put, Sparse.del, Sparse.ins]
  rw [State.setColl, hs, hset]

end

theorem coll_setColl (s : State) (id : Nat) (c : Option Coll) : (s.setColl id c).coll id = c := Sparse.get_set_same _ _ _ _

/-! ### Messages to the other ranks -/

/-- Nothing but what leaves the device differs. -/
def OnlyOut (s t : State) : Prop := t = { s with out := t.out }
theorem OnlyOut.refl (s : State) : OnlyOut s s := rfl
theorem OnlyOut.trans (s t u : State) (h : OnlyOut s t) (k : OnlyOut t u) : OnlyOut s u := by
  unfold OnlyOut at *; rw [k, h]
theorem OnlyOut.field {α : Type} {s t : State} (h : OnlyOut s t) (F : State → α)
    (hF : ∀ s t : State, F { s with out := t.out } = F s := by intros; rfl) : F t = F s := by
  rw [h]; exact hF s t

/-- One rank is told of a collective, if the engine reaches its node. -/
def State.tellRank (c : Coll) (st : Nat) (data : List (DWord × Bool)) (s : State) (k : Nat) : State :=
  if k = c.rank || (s.enginePorts c.eng (c.nodes.getD k 0)).isEmpty then s
  else s.emit (.collective c.eng c.comm (c.nodes.getD k 0) c.num st c.desc.params data)

theorem collTell_eq (s : State) (c : Coll) (st : Nat) (data : List (DWord × Bool)) :
    s.collTell c st data = (List.range c.size).foldl (State.tellRank c st data) s := rfl

theorem onlyOut_tellRank (c : Coll) (st : Nat) (data : List (DWord × Bool)) (s : State) (k : Nat) : OnlyOut s (s.tellRank c st data k) := by
  unfold State.tellRank
  split <;> rfl

theorem onlyOut_tellRanks (c : Coll) (st : Nat) (data : List (DWord × Bool)) (ks : List Nat) (s : State) :
    OnlyOut s (ks.foldl (State.tellRank c st data) s) :=
  foldl_rel OnlyOut .refl .trans _ ks (fun s k _ => onlyOut_tellRank c st data s k) s

theorem onlyOut_collTell (s : State) (c : Coll) (st : Nat) (data : List (DWord × Bool)) : OnlyOut s (s.collTell c st data) :=
  onlyOut_tellRanks c st data _ s

/-- What has been sent stays sent. -/
theorem mem_out_tellRank (c : Coll) (st : Nat) (data : List (DWord × Bool)) (s : State) (k : Nat) (o : Out) (h : o ∈ s.out) :
    o ∈ (s.tellRank c st data k).out := by
  unfold State.tellRank
  split
  · exact h
  · exact List.mem_cons_of_mem _ h

/-- Every other rank that the engine reaches is told. -/
theorem mem_out_collTell (s : State) (c : Coll) (st : Nat) (data : List (DWord × Bool)) (k : Nat) (hk : k < c.size) (hr : k ≠ c.rank)
    (hp : s.enginePorts c.eng (c.nodes.getD k 0) ≠ []) :
    .collective c.eng c.comm (c.nodes.getD k 0) c.num st c.desc.params data ∈ (s.collTell c st data).out := by
  obtain ⟨before, after, hsplit⟩ := List.append_of_mem (List.mem_range.mpr hk)
  have hports := (onlyOut_tellRanks c st data before s).field fun s => s.enginePorts c.eng (c.nodes.getD k 0)
  have htold : ((before.foldl (State.tellRank c st data) s).tellRank c st data k) =
      (before.foldl (State.tellRank c st data) s).emit (.collective c.eng c.comm (c.nodes.getD k 0) c.num st c.desc.params data) := by
    refine if_neg ?_
    have hreached : (s.enginePorts c.eng (c.nodes.getD k 0)).isEmpty = false := Bool.eq_false_iff.mpr (mt List.isEmpty_iff.mp hp)
    rw [hports, hreached]
    simpa using hr
  rw [collTell_eq, hsplit, List.foldl_append, List.foldl_cons, htold]
  exact foldl_rel (fun s t : State => ∀ o, o ∈ s.out → o ∈ t.out) (fun _ _ h => h) (fun _ _ _ h k o ho => k o (h o ho)) _ after
    (fun s k _ o ho => mem_out_tellRank c st data s k o ho) _ _ (List.mem_cons_self ..)

/-! ### The end of a collective (R71) -/

/-- The collective as it ends with a status. -/
def Coll.over (c : Coll) (st seed : Nat) : Coll := { c with status := st, ended := true, pos := 0, seed := seed }

/-- A collective ends: its status is set, and memory stays as it was. -/
theorem collEnd_facts (s : State) (id st va : Nat) (told : Bool) (c : Coll) (h : s.coll id = some c) :
    (s.collEnd id st va told).coll id = some (c.over st s.free) ∧ (s.collEnd id st va told).mem = s.mem := by
  let t := s.draw.2.setColl id (some (c.over st s.free))
  let u := if st = 3 ∧ told = false then t.logEv .collectiveFault 2 (evIod c.eng) [c.comm, c.num, va] else t
  have hdef : s.collEnd id st va told = if st = 2 ∨ st = 3 then u.collTell c st [] else u := by
    rw [State.collEnd, h]
    rfl
  have hu : u.coll id = some (c.over st s.free) ∧ u.mem = s.mem := by
    have ht : t.coll id = some (c.over st s.free) := coll_setColl _ _ _
    by_cases hlog : st = 3 ∧ told = false
    · rw [show u = t.logEv .collectiveFault 2 (evIod c.eng) [c.comm, c.num, va] from if_pos hlog]
      exact ⟨ht, rfl⟩
    · rw [show u = t from if_neg hlog]
      exact ⟨ht, rfl⟩
  rw [hdef]
  split
  · have hout := onlyOut_collTell u c st []
    exact ⟨(hout.field fun s => s.coll id).trans hu.1, (hout.field State.mem).trans hu.2⟩
  · exact hu

/-! ### The traffic of the ranks (R68, R71) -/

/-- The rank of a collective, other than this device's, that a node is. -/
def Coll.rankAt (c : Coll) (node : Nat) : Option Nat := (List.range c.size).find? fun k => k != c.rank && c.nodes.getD k 1024 == node

theorem rankAt_none (c : Coll) (node : Nat) (h : ∀ k, k < c.size → k ≠ c.rank → c.nodes.getD k 1024 ≠ node) : c.rankAt node = none := by
  refine List.find?_eq_none.mpr fun k hk => ?_
  simpa using h k (List.mem_range.mp hk)

theorem rankAt_first (c : Coll) (node k : Nat) (hk : k < c.size) (hr : k ≠ c.rank) (hn : c.nodes.getD k 1024 = node)
    (hfirst : ∀ j, j < k → j ≠ c.rank → c.nodes.getD j 1024 ≠ node) : c.rankAt node = some k := by
  rw [Coll.rankAt, List.find?_range_eq_some]
  refine ⟨by simpa [hr] using hn, List.mem_range.mpr hk, fun j hj => ?_⟩
  simpa [or_iff_not_imp_left] using hfirst j hj

/-- The collective knows the parameters of rank k, and its elements if they came. -/
def Coll.heard (c : Coll) (k : Nat) (p : CollParams) (data : List (DWord × Bool)) : Coll :=
  { c with params := Sparse.set none c.params k (some p), data := if data = [] then c.data else Sparse.set [] c.data k data }

theorem heard_params (c : Coll) (k : Nat) (p : CollParams) (data : List (DWord × Bool)) :
    (c.heard k p data).params = Sparse.set none c.params k (some p) := rfl

/-- All parameters known agree, with those of one more rank. -/
theorem agrees_heard (c : Coll) (k : Nat) (data : List (DWord × Bool)) (h : ∀ j q, (j, some q) ∈ c.params → q = c.desc.params) :
    (c.heard k c.desc.params data).agrees = true := by
  refine List.all_eq_true.mpr fun ⟨j, q⟩ hq => beq_iff_eq.mpr ?_
  rw [heard_params, mem_listed] at hq
  rcases Sparse.mem_set hq with hnew | hold
  · have hsome : some q = some c.desc.params := congrArg Prod.snd hnew.1
    exact Option.some.inj hsome
  · exact h j q hold

/-- Parameters that differ from this rank's do not agree. -/
theorem agrees_heard_other (c : Coll) (k : Nat) (p : CollParams) (data : List (DWord × Bool)) (hp : p ≠ c.desc.params) :
    (c.heard k p data).agrees = false := by
  have hother : ¬ (p == (c.heard k p data).desc.params) = true := fun h => hp (beq_iff_eq.mp h)
  exact List.all_eq_false.mpr ⟨(k, p), mem_listed_of_get (heard_params c k p data ▸ Sparse.get_set_same _ _ _ _), hother⟩

/-- A message of a collective that the engine does not know, or of no rank of it, is dropped. -/
theorem collTraffic_unknown (s : State) (eng comm node num st : Nat) (p : CollParams) (data : List (DWord × Bool))
    (hin : s.input = .collective eng comm node num st p data) (h : s.findColl eng comm num = none) :
    s.collTraffic = s.logEv .collectiveDrop 1 (evIod eng) [comm, node, num] := by
  rw [State.collTraffic, hin]
  dsimp only
  rw [h]

theorem collTraffic_noRank (s : State) (eng comm node num st id : Nat) (p : CollParams) (data : List (DWord × Bool)) (c : Coll)
    (hin : s.input = .collective eng comm node num st p data) (h : s.findColl eng comm num = some (id, c)) (hr : c.rankAt node = none) :
    s.collTraffic = s.logEv .collectiveDrop 1 (evIod eng) [comm, node, num] := by
  rw [Coll.rankAt] at hr
  rw [State.collTraffic, hin]
  dsimp only
  rw [h]
  dsimp only
  rw [hr]

/-- A message of rank k of a collective that goes on. -/
theorem collTraffic_rank (s : State) (eng comm node num st id k : Nat) (p : CollParams) (data : List (DWord × Bool)) (c : Coll)
    (hin : s.input = .collective eng comm node num st p data) (h : s.findColl eng comm num = some (id, c)) (hr : c.rankAt node = some k)
    (he : c.ended = false) : s.collTraffic =
      if st = 2 ∨ st = 3 then s.collEnd id st 0 true
      else if (c.heard k p data).agrees then s.setColl id (some (c.heard k p data))
      else (s.setColl id (some (c.heard k p data))).collEnd id 1 0 := by
  have hdata : (if data.isEmpty then c.data else Sparse.set [] c.data k data) = if data = [] then c.data else Sparse.set [] c.data k data :=
    if_congr List.isEmpty_iff rfl rfl
  rw [Coll.rankAt] at hr
  rw [State.collTraffic, hin]
  dsimp only
  rw [h]
  dsimp only
  rw [hr]
  dsimp only
  rw [if_neg (by rw [he]; exact Bool.false_ne_true), hdata]
  rfl

/-! ### Time runs out (R66, R71) -/

theorem collTimeout_waiting (s : State) (eng comm num id k : Nat) (c : Coll) (h : s.findColl eng comm num = some (id, c)) (he : c.ended = false)
    (hk : k < c.size) (hn : Sparse.get none c.params k = none) : s.collTimeout eng comm num = s.collEnd id 2 0 := by
  have hjoined : c.joined = false := List.all_eq_false.mpr ⟨k, List.mem_range.mpr hk, by rw [hn]; exact Bool.false_ne_true⟩
  rw [State.collTimeout, h]
  dsimp only
  rw [he, hjoined]
  rfl

theorem collTimeout_ended (s : State) (eng comm num id : Nat) (c : Coll) (h : s.findColl eng comm num = some (id, c)) (he : c.ended = true) :
    s.collTimeout eng comm num = s := by
  rw [State.collTimeout, h]
  dsimp only
  rw [he]
  rfl

/-! ### The stamp (R70) -/

/-- A collective with nothing left to write but its stamp leaves the engine with the stamp. -/
theorem collStep_stamp (s s1 : State) (id : Nat) (c : Coll) (bs : List Byte) (q : Bool) (hc : s.coll id = some c) (he : c.ended = true)
    (hw : c.writes = []) (hset : s.engSettled id = true)
    (hput : s.engWrite (c.requester id) c.desc.stamp (collStamp c.num c.status c.flags) false true = (.ok bs q, s1)) :
    s.collStep id = s1.dropColl id c := by
  have hsend : (if (!c.ended && c.joined && !c.own) = true then s.collSend id c else s) = s := if_neg (by rw [he]; exact Bool.false_ne_true)
  have hend : (if (!c.ended && c.joined && c.own && c.dataIn) = true then s.setColl id (some { c with ended := true }) else s) = s :=
    if_neg (by rw [he]; exact Bool.false_ne_true)
  have hfinish : s.collFinish id c = s1.dropColl id c := by
    rw [State.collFinish, hset, if_neg (by decide), hput]
  rw [State.collStep, hc]
  dsimp only
  rw [hsend, hc]
  dsimp only
  rw [hend, hc]
  dsimp only
  rw [he, if_neg (by decide), hw, State.collWrites]
  dsimp only
  rw [hc]
  exact hfinish

/-- Nothing is written after MISMATCH. -/
theorem writes_mismatch (c : Coll) (h : c.status = 1) : c.writes = [] := if_pos h

/-- Only a collective that ends well has flags. -/
theorem flags_failed (c : Coll) (h : c.status ≠ 0) : c.flags = 0 := if_neg h

end Sys2Proof.Machine
end

section
/-! SUPPORT. O48: a memory word of one active lane, and what the lane's reads leave unchanged. -/
namespace Sys2Proof.Machine

open Sys2Proof.Safety

/-! ### A word of one active lane -/

theorem groupAfter_lanes {s : State} {g k : Group} {h : Hdr} (hk : groupAfter s g k h) (lanes : Sparse Lane) :
    groupAfter s g { k with lanes := lanes } h := by
  unfold groupAfter at hk ⊢
  exact congrArg (fun x : Group => { x with lanes := lanes }) hk

/-- A word of which no lane parks. -/
theorem finishWord_unparked {s : State} {before g : Group} {c : Ctl} {lanes : BitVec 32} {stall : Nat} {u : Uses} {o : WordOps}
    {rs : List (Nat × LaneRes)} (hg : s.group c.gid = some g) (hp : (rs.any fun r => r.2.parks) = false) :
    s.finishWord before c lanes stall u o rs =
      (s.setGroup c.gid (g.afterWord before c lanes stall u o s.clk s.next rs).endHandling).wordFaults c.gid rs := by
  rw [State.finishWord, hg]
  dsimp only
  rw [hp]
  rfl

/-- What finishing does when the only active lane does not park: its group changes, and nothing else. -/
theorem finishWord_one {s s2 : State} {g gm : Group} {h : Hdr} {u : Uses} {o : WordOps} {l word : Nat} {d : Does}
    (hl : lanesOf (active s g h) = [l]) (ho : o.once = false) (hld : u.landing = false) (hg : s2.group s.cur.gid = some gm)
    (hpark : (resOf d).parks = false) (htrap : ∀ code acc addr, d = .traps code acc addr → (gm.lane l).handler = false) :
    ∃ g', s2.finishWord g { readyCtl s g h false with word := word } s.cur.lanes h.stall.toNat u o [(l, resOf d)] = s2.setGroup s.cur.gid g' ∧
      (∀ j, j < 32 → g'.lane j =
        if s.cur.lanes.getLsbD j then
          if j = l then d.lane s s2.next (gm.lane j) else { gm.lane j with pc := s.cur.pc + BitVec.ofNat 64 s.cur.len }
        else gm.lane j) ∧
      g'.g = gm.g ∧ g'.landings = gm.landings ∧ groupAfter s2 gm g' h := by
  let c : Ctl := { readyCtl s g h false with word := word }
  let g1 := gm.afterWord g c s.cur.lanes h.stall.toNat u o s2.clk s2.next [(l, resOf d)]
  have hgr := afterWord_group gm g c s.cur.lanes h.stall.toNat u o s2.clk s2.next [(l, resOf d)]
  simp only [ho, hld, Bool.false_and, Bool.false_eq_true, ↓reduceIte] at hgr
  have hin : l < 32 ∧ s.cur.lanes.getLsbD l = true := by
    obtain ⟨h32, hlanes, -⟩ := mem_active.mp (hl ▸ List.mem_singleton_self l)
    exact ⟨h32, hlanes⟩
  have hlane : ∀ j, j < 32 → g1.endHandling.lane j =
      if s.cur.lanes.getLsbD j then c.laneAfter u o s2.next [(l, resOf d)] j (gm.lane j) else gm.lane j := fun j hj => by
    have hfold := (foldLanes s.cur.lanes (c.laneAfter u o s2.next [(l, resOf d)]) lanes32 lanes32_nodup gm).1 j
    simp only [mem_lanes32, hj, true_and] at hfold
    rw [← hfold, endHandling_same]
    simp [g1, Group.afterWord, ho, Group.lane]
  have hself : c.laneAfter u o s2.next [(l, resOf d)] l (gm.lane l) = (gm.lane l).after s.cur.pc s.cur.len false s2.next (resOf d) := by
    simp [Ctl.laneAfter, ho, hld, c, readyCtl]
  have hother : ∀ j, j ≠ l → c.laneAfter u o s2.next [(l, resOf d)] j (gm.lane j) = { gm.lane j with pc := s.cur.pc + BitVec.ofNat 64 s.cur.len } :=
    fun j hj => by simp [Ctl.laneAfter, Ne.symm hj, c, readyCtl]
  obtain ⟨g', hfaults, hframe, hlanes⟩ := wordFaults_does [l] (List.nodup_singleton l) (fun _ => d) s2 s.cur.gid g1.endHandling (by
    intro j hj code acc addr hd
    rw [List.mem_singleton.mp hj, hlane l hin.1, if_pos hin.2, hself, hd]
    exact htrap code acc addr hd)
  refine ⟨g', ?_, fun j hj => ?_, ?_, ?_, ?_⟩
  · have hparks : ([(l, resOf d)].any fun r => r.2.parks) = false := by rw [List.any_cons, hpark]; rfl
    exact (finishWord_unparked (c := c) hg hparks).trans hfaults
  · rw [hlanes, hlane j hj]
    by_cases hjl : j = l
    · subst hjl
      rw [if_pos (List.mem_singleton_self j), if_pos hin.2, if_pos hin.2, if_pos rfl, hself]
      cases d <;> rfl
    · rw [if_neg (fun hm => hjl (List.mem_singleton.mp hm)), hother j hjl, if_neg hjl]
  · rw [hframe, endHandling_same]; exact hgr.1
  · rw [hframe, endHandling_same]; exact hgr.2.1
  · rw [hframe]
    exact groupAfter_lanes (groupAfter_of hgr.2.2) g'.lanes

/-- A memory word of one active lane, as `collOps` and its like describe it, in a state in which it may run. -/
structure OneLane (s : State) (g : Group) (h : Hdr) (i : Instr) (l : Nat) (o : WordOps) : Prop where
  ready : WordReady s g h i
  still : Still s g h
  lane : lanesOf (active s g h) = [l]
  mem : o.mem = true
  vector : o.u = false
  unsynced : o.sync = false
  each : o.once = false
  plain : o.fin = fun _ s => s
  lands : (instrUses i).landing = false
  runs : o.ready (readyCtl s g h false) s = true

/-- The word as its lane sees it. -/
def memCtl (s : State) (g : Group) (h : Hdr) : Ctl := { readyCtl s g h false with word := s.next }

section
variable {s s2 : State} {g : Group} {h : Hdr} {i : Instr} {l : Nat} {o : WordOps} {body : Ctl → Nat → State → LaneRes × State}
  (hw : OneLane s g h i l o)
include hw

/-- The word runs its lane and finishes. -/
theorem OneLane.word_eq {r : LaneRes} (hb : body (memCtl s g h) l (numbered s) = (r, s2)) :
    s.word i h o body = .next (s2.finishWord g (memCtl s g h) s.cur.lanes h.stall.toNat (instrUses i) o [(l, r)]) := by
  rw [State.word, issueMem_runs hw.ready hw.still o body hw.mem hw.vector hw.unsynced hw.each hw.runs hw.plain, hw.lane]
  dsimp only
  rw [runLanes, runLanes]
  dsimp only
  rw [show body { readyCtl s g h false with word := s.next } l (numbered s) = (r, s2) from hb]
  rfl

theorem OneLane.active_iff (j : Nat) (hj : j < 32) : (active s g h).getLsbD j = true ↔ j = l := by
  have hmem : j ∈ lanesOf (active s g h) ↔ j = l := by rw [hw.lane, List.mem_singleton]
  rw [← hmem, mem_lanesOf]
  exact ⟨fun ha => ⟨hj, ha⟩, fun ha => ha.2⟩

/-- The lane traps. -/
theorem OneLane.traps {code acc : Nat} {addr : DWord} (hb : body (memCtl s g h) l (numbered s) = (.trap code acc addr, s2))
    (hg : s2.group s.cur.gid = some g) (hh : (g.lane l).handler = false) :
    ∃ g', s.word i h o body = .next (s2.setGroup s.cur.gid g') ∧ lanesRun s g g' h (fun _ ln => ln.trap code acc addr) ∧ groupAfter s2 g g' h := by
  obtain ⟨g', hfin, hlanes, -, -, hafter⟩ := finishWord_one (word := s.next) (d := .traps code acc addr) hw.lane hw.each hw.lands hg rfl
    (fun _ _ _ _ => hh)
  refine ⟨g', (hw.word_eq hb).trans (congrArg Host.Outcome.next hfin), fun j hj => ?_, hafter⟩
  rw [hlanes j hj]
  exact if_congr Iff.rfl (if_congr (hw.active_iff j hj).symm rfl rfl) rfl

/-- The lane completes with no results. -/
theorem OneLane.takes {gm : Group} (hx : exec i s = s.word i h o body) (hb : body (memCtl s g h) l (numbered s) = (pending, s2))
    (hg : s2.group s.cur.gid = some gm) : LaneTakes s h l i ([], [], 0) s2 := by
  obtain ⟨g', hfin, hlanes, hregs, hland, hafter⟩ := finishWord_one (word := s.next) (d := .takes ([], [], 0)) hw.lane hw.each hw.lands hg rfl
    (fun _ _ _ hd => nomatch hd)
  refine ⟨gm, g', hg, hx.trans ((hw.word_eq hb).trans (congrArg Host.Outcome.next hfin)), fun j hj => ?_, hregs, hland, hafter⟩
  have hlane : s.cur.lanes.getLsbD l = true := (mem_active.mp (hw.lane ▸ List.mem_singleton_self l)).2.1
  rw [hlanes j hj]
  by_cases hjl : j = l
  · rw [hjl, if_pos hlane, if_pos rfl, if_pos rfl, if_pos hlane]
    rfl
  · rw [if_neg hjl, if_neg hjl]
    split <;> rfl

end

/-! ### Reads leave the launches alone -/

theorem recs_writeBackLine (s : State) (core line : Nat) : (s.writeBackLine core line).recs = s.recs := by
  unfold State.writeBackLine
  dsimp only
  split
  · rfl
  · exact ((onlyLanesDir_publish _ _ _).field State.recs).trans
      (((onlyLogs_count _ _ _).field State.recs).trans ((onlyMemory_commit _ _ _).field State.recs))

theorem recs_foldl {α : Type} (f : State → α → State) (l : List α) (hf : ∀ s a, (f s a).recs = s.recs) (s : State) :
    (l.foldl f s).recs = s.recs :=
  foldl_rel (fun s t : State => t.recs = s.recs) (fun _ => rfl) (fun _ _ _ h k => k.trans h) f l (fun s a _ => hf s a) s

theorem recs_writeBackTo (s : State) (core k b : Nat) : (s.writeBackTo core k b).recs = s.recs := by
  have hlines : ∀ (ls : List (Nat × DirtyLine)) (s : State), (ls.foldl (fun s p => s.writeBackLine core p.1) s).recs = s.recs :=
    fun ls => recs_foldl _ ls fun s p => recs_writeBackLine s core p.1
  unfold State.writeBackTo
  dsimp only
  split
  · split
    · rfl
    · exact hlines _ s
  · exact hlines _ s

theorem recs_recall (s : State) (line : Nat) : (s.recall line).recs = s.recs := by
  unfold State.recall
  dsimp only
  split
  · rfl
  · split
    · exact recs_writeBackTo s _ _ _
    · rfl

theorem recs_countWalk (s : State) (agent k va : Nat) : (s.countWalk agent k va).recs = s.recs := by
  unfold State.countWalk
  split
  · rfl
  · exact recs_foldl _ _ (fun s e => by dsimp only; split <;> rfl) _

theorem recs_checkRecall (agent k va n : Nat) (acc : Acc) (f : Nat) (s : State) : (s.checkRecall agent k va n acc f).2.recs = s.recs := by
  induction f generalizing s with
  | zero => rfl
  | succ f ih =>
    unfold State.checkRecall
    split
    · exact (ih _).trans (recs_recall _ _)
    · dsimp only
      split
      · rfl
      · exact recs_countWalk s agent k va

theorem recs_tlbAdd (s : State) (agent cap k va : Nat) (l : Leaf) : (s.tlbAdd agent cap k va l).recs = s.recs := by
  unfold State.tlbAdd
  dsimp only
  split
  · rfl
  · split <;> rfl

theorem recs_fillTlb (s : State) (agent k va : Nat) (l : Leaf) : (s.fillTlb agent k va l).recs = s.recs := by
  unfold State.fillTlb
  split
  · rfl
  · split
    · exact (recs_tlbAdd _ _ _ _ _ _).trans (recs_tlbAdd _ _ _ _ _ _)
    · rfl

theorem recs_afterCheck (s : State) (ch : Chk) (gid l : Nat) : (s.afterCheck ch gid l).recs = s.recs := by
  unfold State.afterCheck
  dsimp only
  split
  · split
    · rfl
    · split <;> rfl
  · rfl
  · rfl

theorem recs_checkFor (s : State) (g : Group) (gid l va n : Nat) (acc : Acc) : (s.checkFor g gid l va n acc).2.recs = s.recs := by
  unfold State.checkFor
  dsimp only
  refine (recs_afterCheck _ _ _ _).trans ?_
  split
  · exact (recs_fillTlb _ _ _ _ _).trans (recs_checkRecall _ _ _ _ _ _ s)
  · exact recs_checkRecall _ _ _ _ _ _ s

theorem recs_readFar (s : State) (g : Group) (gid l : Nat) (leaf : Leaf) (tgt : Tgt) (a va n acc : Nat) :
    (s.readFar g gid l leaf tgt a va n acc).2.recs = s.recs := by
  unfold State.readFar
  split
  · rfl
  · split <;> rfl

/-- The part of a read in one line of memory. -/
def State.readOne (s : State) (cnt : Bool) (g : Group) (gid va k : Nat) : Got × State :=
  match s.checkFor g gid 32 va k .load with
  | (.ok _ .cell a, s) =>
    if !s.lineFree none (a / 128) then (.wait, s.recall (a / 128))
    else if s.poisonedRange a k then (.no (s.poisonFault noCore a k 0 va), s)
    else (.bytes (s.cells a k), if cnt then s.count (srcCore g.core) a else s)
  | (.ok leaf tgt a, s) => s.readFar g gid 32 leaf tgt a va k
  | (.busy _, s) => (.wait, s)
  | (ch, s) => (.no (ch.res .load va), s)

theorem readGlobal_succ (s : State) (cnt : Bool) (g : Group) (gid va n m : Nat) :
    s.readGlobal cnt g gid va n (m + 1) =
      if Nat.min n (128 - va % 128) = 0 then (.bytes [], s)
      else
        match s.readOne cnt g gid va (Nat.min n (128 - va % 128)) with
        | (.bytes bs, t) =>
          (match t.readGlobal cnt g gid (va + Nat.min n (128 - va % 128)) (n - Nat.min n (128 - va % 128)) m with
           | (.bytes r, t) => (.bytes (bs ++ r), t)
           | q => q)
        | q => q := rfl

theorem recs_readOne (s : State) (cnt : Bool) (g : Group) (gid va k : Nat) : (s.readOne cnt g gid va k).2.recs = s.recs := by
  have hcheck := recs_checkFor s g gid 32 va k .load
  unfold State.readOne
  split
  · next t heq =>
    have ht : t.recs = s.recs := by rw [heq] at hcheck; exact hcheck
    split
    · exact (recs_recall _ _).trans ht
    · split
      · exact ht
      · cases cnt <;> exact ht
  · next t _ heq => rw [heq] at hcheck; exact (recs_readFar _ _ _ _ _ _ _ _ _ _).trans hcheck
  · next t heq => rw [heq] at hcheck; exact hcheck
  · next t _ _ _ heq => rw [heq] at hcheck; exact hcheck

theorem recs_readGlobal (cnt : Bool) (g : Group) (gid : Nat) (m : Nat) (s : State) (va n : Nat) :
    (s.readGlobal cnt g gid va n m).2.recs = s.recs := by
  induction m generalizing s va n with
  | zero => rw [State.readGlobal]
  | succ m ih =>
    rw [readGlobal_succ]
    split
    · rfl
    · have hone := recs_readOne s cnt g gid va (Nat.min n (128 - va % 128))
      split
      · next bs t heq =>
        rw [heq] at hone
        have hrest := (ih t (va + Nat.min n (128 - va % 128)) (n - Nat.min n (128 - va % 128))).trans hone
        split
        · next r u hread => rw [hread] at hrest; exact hrest
        · exact hrest
      · exact hone

end Sys2Proof.Machine
end

section
/-! SUPPORT. O48: the word COLL (R67, R68, R425). -/
namespace Sys2Proof.Machine

open Sys2Proof.Safety

/-! ### Descriptors and communicators (R67, R68) -/

theorem leNat_eq_zero (bs : List Byte) : leNat bs = 0 ↔ ∀ b ∈ bs, b = 0 := by
  induction bs with
  | nil => simp [leNat]
  | cons b bs ih =>
    rw [leNat, List.forall_mem_cons, ← ih, show b = 0 ↔ b.toNat = 0 from BitVec.toNat_inj.symm]
    omega

/-- Does a descriptor pass the checks that need no communicator (R68)? -/
def collLegal (bs : List Byte) : Prop :=
  1 ≤ fieldAt bs 0x18 4 ∧ fieldAt bs 0x1C 1 < 4 ∧ fieldAt bs 0x1D 1 < 6 ∧ (fieldAt bs 0x1C 1 < 2 → fieldAt bs 0x1E 1 < 3) ∧
    ∀ b ∈ (bs.drop 0x22).take 0x1E, b = 0

theorem collDescOk_iff (bs : List Byte) : collDescOk bs = true ↔ collLegal bs := by
  have hzero : zeroAt bs 0x22 0x1E = true ↔ ∀ b ∈ (bs.drop 0x22).take 0x1E, b = 0 := by
    rw [zeroAt, beq_iff_eq]
    exact leNat_eq_zero _
  have hred : (2 ≤ fieldAt bs 0x1C 1 ∨ fieldAt bs 0x1E 1 < 3) ↔ (fieldAt bs 0x1C 1 < 2 → fieldAt bs 0x1E 1 < 3) := by omega
  have hdef : collDescOk bs = (decide (1 ≤ fieldAt bs 0x18 4) && decide (fieldAt bs 0x1C 1 < 4) && decide (fieldAt bs 0x1D 1 < 6) &&
      (decide (2 ≤ fieldAt bs 0x1C 1) || decide (fieldAt bs 0x1E 1 < 3)) && zeroAt bs 0x22 0x1E) := rfl
  simp only [hdef, Bool.and_eq_true, Bool.or_eq_true, decide_eq_true_eq, hzero, hred, collLegal, and_assoc]

theorem iodPresent_congr {s t : State} (hm : t.modulesUp = s.modulesUp) (hg : t.mgmt = s.mgmt) (p : Nat) : t.iodPresent p = s.iodPresent p := by
  unfold State.iodPresent
  rw [hm, hg]

/-- The I/O die whose engine takes the collectives of a communicator, while one is present. -/
def State.engineOf (s : State) (comm : Nat) : Nat := if s.iodPresent (comm % 2) then comm % 2 else 1 - comm % 2

theorem collEngine_present (s : State) (comm : Nat) (h : s.iodPresent 0 = true ∨ s.iodPresent 1 = true) :
    s.collEngine comm = some (s.engineOf comm) := by
  have hother : s.iodPresent (comm % 2) = false → s.iodPresent (1 - comm % 2) = true := fun hno => by
    rcases Nat.mod_two_eq_zero_or_one comm with hc | hc <;> rw [hc] at hno ⊢ <;> simpa [hno] using h
  unfold State.collEngine State.engineOf
  by_cases hp : s.iodPresent (comm % 2) = true
  · rw [if_pos hp, if_pos hp]
  · rw [if_neg hp, if_neg hp, if_pos (hother (Bool.not_eq_true _ ▸ hp))]

/-! ### Room in a collective engine (R455) -/

theorem tookRoom_collective (s : State) (eng gid l : Nat) :
    s.tookRoom (.collective eng) gid l = { s with wokenRooms := s.wokenRooms.filter fun p => p != (Engine.collective eng, gid, l) } := by
  have hone : ∀ e : Engine, s.oneEngine e (.collective eng) = (e == .collective eng) := fun e => by
    cases e <;> exact Bool.or_false _
  rw [State.tookRoom]
  refine congrArg (fun w => { s with wokenRooms := w }) (List.filter_congr fun p _ => ?_)
  rw [hone]
  rfl

/-- An engine with room for a lane has room. -/
theorem hasRoom_of_roomFor {s t : State} {eng gid l : Nat} (hc : t.clovar = s.clovar) (h : t.roomFor (.collective eng) gid l = true) :
    s.hasRoom (.collective eng) = true := by
  have huse : t.engineUse (.collective eng) = s.engineUse (.collective eng) := by
    simp only [State.engineUse, hc]
  rw [State.roomFor, decide_eq_true_eq, huse] at h
  rw [State.hasRoom, decide_eq_true_eq]
  omega

/-! ### A collective begins (R425) -/

/-- The collective of a group at its engine, by its descriptor and its communicator's record. -/
def newColl (eng ctx num : Nat) (g : Group) (d : CollDesc) (r : List Byte) : Coll :=
  { eng := eng, comm := d.comm, num := num, ctx := ctx, launch := g.launch, core := g.core, desc := d, size := fieldAt r 0 2
    rank := fieldAt r 2 2, nodes := (List.range (fieldAt r 0 2)).map fun k => fieldAt r (0x800 + 2 * k) 2
    params := [(fieldAt r 2 2, some d.params)] }

/-- A collective takes its number. -/
def State.enterColl (s : State) (x : Coll) : State :=
  { s with next := s.next + 1, clovar := { s.clovar with
      collNum := Sparse.set 0 s.clovar.collNum x.comm x.num, colls := Sparse.set none s.clovar.colls s.next (some x) } }

theorem collIssue_comm (s : State) (c : Ctl) (eng : Nat) (d : CollDesc) (r : List Byte) (hr : commOk r = true) :
    let x := newColl eng (s.ctxOf c.g) (Sparse.get 0 s.clovar.collNum d.comm + 1) c.g d r
    s.collIssue c eng d r = (s.enterColl x).collTell x 0 [] := by
  rw [State.collIssue, hr]
  rfl

/-- What the lane of a legal descriptor does, its engine having room and the communicator's record being readable. -/
theorem collLane_room (s : State) (c : Ctl) (l eng a : Nat) (bs : List Byte) (hok : collLegal bs)
    (he : s.collEngine (CollDesc.ofBytes bs).comm = some eng) (hroom : s.roomFor (.collective eng) c.gid l = true)
    (ha : s.commCell (CollDesc.ofBytes bs).comm = some a) (hfree : s.rangeFree a 4096 = true) (hp : s.poisonedRange a 4096 = false) :
    let t := (s.tookRoom (.collective eng) c.gid l).countLines (srcIod eng) a 4096
    let r := t.cells a 4096
    s.collLane c l bs =
      if (CollDesc.ofBytes bs).op = 3 ∧ commOk r = true ∧ fieldAt r 0 2 ≤ (CollDesc.ofBytes bs).root then (badOperand, t)
      else (pending, t.collIssue c eng (CollDesc.ofBytes bs) r) := by
  intro t r
  let u := s.tookRoom (.collective eng) c.gid l
  have hcell : u.commCell (CollDesc.ofBytes bs).comm = some a := ha
  have hcommFree : u.commFree (CollDesc.ofBytes bs).comm = true := by
    have hrange : (u.rangeFree a 4096 && !u.poisonedRange a 4096) = true := by
      rw [show u.rangeFree a 4096 = true from hfree, show u.poisonedRange a 4096 = false from hp]; rfl
    rw [State.commFree, hcell]
    exact hrange
  have hbytes : u.commBytes (CollDesc.ofBytes bs).comm = r := by
    rw [State.commBytes, hcell]
    exact ((onlyLogs_countAll u (srcIod eng) (linesOf a 4096)).field fun s => s.cells a 4096).symm
  have hcount : u.countComm eng (CollDesc.ofBytes bs).comm = t := by rw [State.countComm, hcell]
  rw [State.collLane, (collDescOk_iff bs).mpr hok, if_neg (by decide), he]
  dsimp only
  rw [hroom, if_neg (by decide), hcommFree, if_neg (by decide), hbytes, hcount]

theorem collLane_illegal (s : State) (c : Ctl) (l : Nat) (bs : List Byte) (h : ¬ collLegal bs) :
    s.collLane c l bs = (badOperand, s.dropPlaces c.gid l) := by
  have hok : collDescOk bs = false := Bool.eq_false_iff.mpr (mt (collDescOk_iff bs).mp h)
  rw [State.collLane, hok]
  rfl

/-! ### The word and its lane -/

/-- What COLL does in one lane. -/
def collBody (onG : Bool) (a : RegIx) (c : Ctl) (l : Nat) (s : State) : LaneRes × State :=
  match s.cur.full with
  | some e => s.noRoom e c.gid l
  | none =>
  match s.lostLink c.gid l with
  | some s => (.trap 0x2B 0 0, s.dropPlaces c.gid l)
  | none =>
    match blockVa ((c.env l).a64 onG a).toNat with
    | .error r => (r, s.dropPlaces c.gid l)
    | .ok va =>
      match s.readGlobal true c.g c.gid va 64 4 with
      | (.wait, s) => (.stay, s)
      | (.no r, s) => (r, s.dropPlaces c.gid l)
      | (.bytes bs, s) => s.collLane c l bs

theorem exec_coll (h : Hdr) (onG : Bool) (a : RegIx) (s : State) :
    exec (.coll h onG a) s = s.word (.coll h onG a) h (collOps onG a) (collBody onG a) := rfl

/-- The address of lane l's descriptor. -/
def descVa (onG : Bool) (a : RegIx) (g : Group) (l : Nat) : Nat := ((envOf false g l).a64 onG a).toNat

/-- Can what lane l of the word reads be read now, or does it fault? -/
def State.readable (s : State) (onG : Bool) (a : RegIx) (c : Ctl) (l : Nat) : Bool :=
  match blockAt onG a c l with
  | none => true
  | some va => match (s.readGlobal false c.g c.gid va 64 4).1 with
    | .wait => false
    | _ => true

theorem blockAt_eq (s : State) (g : Group) (h : Hdr) (onG : Bool) (a : RegIx) (l : Nat) :
    blockAt onG a (readyCtl s g h false) l = (blockVa (descVa onG a g l)).toOption := by
  show (match blockVa (descVa onG a g l) with | .ok x => some x | .error _ => none) = _
  cases blockVa (descVa onG a g l) <;> rfl

theorem readable_of (s : State) (g : Group) (h : Hdr) (onG : Bool) (a : RegIx) (l : Nat)
    (hread : ∀ va, blockVa (descVa onG a g l) = .ok va → (s.readGlobal false g s.cur.gid va 64 4).1 ≠ .wait) :
    s.readable onG a (readyCtl s g h false) l = true := by
  rw [State.readable, blockAt_eq]
  cases hva : blockVa (descVa onG a g l) with
  | error r => rfl
  | ok va =>
    have hnow := hread va hva
    show (match (s.readGlobal false g s.cur.gid va 64 4).1 with | .wait => false | _ => true) = true
    cases hgot : (s.readGlobal false g s.cur.gid va 64 4).1 with
    | wait => exact absurd hgot hnow
    | no r => rfl
    | bytes bs => rfl

/-- A lane whose descriptor is misplaced needs no engine. -/
theorem collNeeds_misplaced (s : State) (g : Group) (h : Hdr) (onG : Bool) (a : RegIx) (l : Nat) (r : LaneRes)
    (hva : blockVa (descVa onG a g l) = .error r) : s.collNeeds onG a (readyCtl s g h false) l = none := by
  rw [State.collNeeds, blockAt_eq, hva]
  rfl

/-- A lane whose descriptor can be read needs the engine of its communicator, if the descriptor is legal. -/
theorem collNeeds_read (s : State) (g : Group) (h : Hdr) (onG : Bool) (a : RegIx) (l va : Nat) (bs : List Byte)
    (hva : blockVa (descVa onG a g l) = .ok va) (hgot : (s.readGlobal false g s.cur.gid va 64 4).1 = .bytes bs) :
    s.collNeeds onG a (readyCtl s g h false) l =
      if collDescOk bs then (s.collEngine (CollDesc.ofBytes bs).comm).map .collective else none := by
  have hgot' : (s.readGlobal false (readyCtl s g h false).g (readyCtl s g h false).gid va 64 4).1 = .bytes bs := hgot
  rw [State.collNeeds, blockAt_eq, hva]
  show (match (s.readGlobal false (readyCtl s g h false).g (readyCtl s g h false).gid va 64 4).1 with
    | .bytes bs => if collDescOk bs then (s.collEngine (CollDesc.ofBytes bs).comm).map Engine.collective else none
    | _ => none) = _
  rw [hgot']

/-- A lane that nothing holds back at a COLL: no access of the device is out, its context's writes are visible, and it has lost no link. -/
structure CollLane (s : State) (g : Group) (h : Hdr) (onG : Bool) (a : RegIx) (l : Nat) : Prop where
  ready : WordReady s g h (.coll h onG a)
  still : Still s g h
  lane : lanesOf (active s g h) = [l]
  txns : s.txns = []
  clean : s.clean g.core (s.ctxOf g) = true
  handler : (g.lane l).handler = false
  quiet : s.hostQuiet (s.ctxOf g) 0 = true ∧ s.hostQuiet (s.ctxOf g) 1 = true
  linked : (g.lane l).linkLost = false
  room : s.cur.full = none

section
variable {s : State} {g : Group} {h : Hdr} {onG : Bool} {a : RegIx} {l : Nat} (hc : CollLane s g h onG a l)
include hc

/-- A release of the lane waits for nothing. -/
theorem CollLane.released (sc : Scope) : s.released s.cur.gid l g.core (s.ctxOf g) sc false = true := by
  obtain ⟨hdirty, hdir⟩ : s.dirtyOf g.core (s.ctxOf g) = [] ∧ (s.dir.any fun p => decide (p.2.waiting ≠ 0) && p.2.src == wbId g.core) = false := by
    have hclean := hc.clean
    rw [State.clean, Bool.and_eq_true, List.isEmpty_iff, Bool.not_eq_true'] at hclean
    exact hclean
  have hdirTo : ∀ b, (s.dir.any fun p => decide (p.2.waiting ≠ 0) && p.2.src == wbId g.core && decide (p.2.since < b)) = false := fun b => by
    rw [List.any_eq_false] at hdir ⊢
    intro p hp hheld
    rw [Bool.and_eq_true] at hheld
    exact hdir p hp hheld.1
  have hthreads : s.threadTxns s.cur.gid l = [] := by rw [State.threadTxns, hc.txns]; rfl
  have hwrites : s.coreWrites g.core (s.ctxOf g) = [] := by rw [State.coreWrites, hc.txns]; rfl
  have hto : ∀ b, s.cleanTo g.core (s.ctxOf g) b = true := fun b => by
    rw [State.cleanTo, hdirty, hdirTo]; rfl
  rw [State.released, Bool.false_and, if_neg Bool.false_ne_true, hthreads, hwrites]
  dsimp only
  rw [hto, hc.quiet.1, hc.quiet.2]
  simp

/-- The lane's release waits for nothing, whatever its scope. -/
theorem CollLane.all_released (sc : Scope) : ((lanesOf (readyCtl s g h false).act).all fun l => !true ||
    s.released (readyCtl s g h false).gid l (readyCtl s g h false).g.core (s.ctxOf (readyCtl s g h false).g) sc false) = true := by
  have hact : lanesOf (readyCtl s g h false).act = [l] := hc.lane
  rw [hact, List.all_cons, List.all_nil, Bool.and_true]
  exact hc.released sc

/-- The word is ready if the descriptor can be read and the engine that it needs has room. -/
theorem CollLane.ops_ready (hread : ∀ va, blockVa (descVa onG a g l) = .ok va → (s.readGlobal false g s.cur.gid va 64 4).1 ≠ .wait)
    (hroom : ∀ e, s.collNeeds onG a (readyCtl s g h false) l = some e → s.hasRoom e = true) :
    (collOps onG a).ready (readyCtl s g h false) s = true := by
  have hact : lanesOf (readyCtl s g h false).act = [l] := hc.lane
  have hdef : (collOps onG a).ready (readyCtl s g h false) s =
      (((lanesOf (readyCtl s g h false).act).all (s.readable onG a (readyCtl s g h false)) &&
        ((lanesOf (readyCtl s g h false).act).all fun l => !true ||
          s.released (readyCtl s g h false).gid l (readyCtl s g h false).g.core (s.ctxOf (readyCtl s g h false).g) .dev false) &&
        s.collReady onG a (readyCtl s g h false)) &&
        (lanesOf (readyCtl s g h false).act).all fun l => !true ||
          s.released (readyCtl s g h false).gid l (readyCtl s g h false).g.core (s.ctxOf (readyCtl s g h false).g) .sys false) := rfl
  have hreads : (lanesOf (readyCtl s g h false).act).all (s.readable onG a (readyCtl s g h false)) = true := by
    rw [hact, List.all_cons, List.all_nil, Bool.and_true]
    exact readable_of s g h onG a l hread
  have hengine : s.collReady onG a (readyCtl s g h false) = true := by
    rw [State.collReady, hact]
    cases hneeds : s.collNeeds onG a (readyCtl s g h false) l with
    | none => simp [hneeds]
    | some e => simp [hneeds, hroom e hneeds]
  rw [hdef, hreads, hc.all_released, hengine, hc.all_released]
  rfl

/-- The word as one of one lane. -/
theorem CollLane.oneLane (hread : ∀ va, blockVa (descVa onG a g l) = .ok va → (s.readGlobal false g s.cur.gid va 64 4).1 ≠ .wait)
    (hroom : ∀ e, s.collNeeds onG a (readyCtl s g h false) l = some e → s.hasRoom e = true) :
    OneLane s g h (.coll h onG a) l (collOps onG a) where
  ready := hc.ready
  still := hc.still
  lane := hc.lane
  mem := rfl
  vector := rfl
  unsynced := rfl
  each := rfl
  plain := rfl
  lands := by cases onG <;> rfl
  runs := hc.ops_ready hread hroom

/-- What the lane does, by where its descriptor is and what can be read there. -/
theorem CollLane.body_eq : collBody onG a (memCtl s g h) l (numbered s) =
    match blockVa (descVa onG a g l) with
    | .error r => (r, (numbered s).dropPlaces s.cur.gid l)
    | .ok va => match (numbered s).readGlobal true g s.cur.gid va 64 4 with
      | (.wait, s) => (.stay, s)
      | (.no r, t) => (r, t.dropPlaces s.cur.gid l)
      | (.bytes bs, t) => t.collLane (memCtl s g h) l bs := by
  have hfull : (numbered s).cur.full = none := hc.room
  have hgroup : (numbered s).group s.cur.gid = some g := hc.ready.here
  have hlost : (numbered s).lostLink (memCtl s g h).gid l = none := by
    show (numbered s).lostLink s.cur.gid l = none
    rw [State.lostLink, hgroup]
    exact if_neg (by rw [hc.linked]; exact Bool.false_ne_true)
  rw [collBody, hfull]
  dsimp only
  rw [hlost]
  rfl

end

end Sys2Proof.Machine
end

section
/-! SUPPORT. O48: what the word COLL does in its lane (R67, R68, R425). -/
namespace Sys2Proof.Machine

open Sys2Proof.Safety

/-! ### The place of the descriptor -/

theorem blockVa_misaligned (va : Nat) (h : va % 64 ≠ 0) : blockVa va = .error (trapAt 0x25 0 va) := if_pos h

theorem blockVa_high (va : Nat) (h : va % 64 = 0) (hb : 2 ^ 57 ≤ va) : blockVa va = .error (trapAt 0x26 0 va) :=
  (if_neg (not_not_intro h)).trans (if_pos hb)

theorem blockVa_ok (va : Nat) (h : va % 64 = 0) (hb : va < 2 ^ 57) : blockVa va = .ok va :=
  (if_neg (not_not_intro h)).trans (if_neg (Nat.not_le.mpr hb))

/-- A lane whose descriptor is misplaced traps. -/
theorem CollLane.traps_misplaced {s : State} {g : Group} {h : Hdr} {onG : Bool} {a : RegIx} {l code va : Nat} (hc : CollLane s g h onG a l)
    (hva : blockVa (descVa onG a g l) = .error (trapAt code 0 va)) :
    ∃ g', exec (.coll h onG a) s = .next (((numbered s).dropPlaces s.cur.gid l).setGroup s.cur.gid g') ∧
      lanesRun s g g' h (fun _ ln => ln.trap code 0 (BitVec.ofNat 64 va)) ∧ groupAfter (numbered s) g g' h := by
  have hw : OneLane s g h (.coll h onG a) l (collOps onG a) :=
    hc.oneLane (fun va' hok => by rw [hva] at hok; exact nomatch hok)
      (fun e hneeds => by rw [collNeeds_misplaced s g h onG a l _ hva] at hneeds; exact nomatch hneeds)
  have hbody : collBody onG a (memCtl s g h) l (numbered s) = (trapAt code 0 va, (numbered s).dropPlaces s.cur.gid l) := by
    rw [hc.body_eq, hva]
  rw [exec_coll]
  exact hw.traps hbody hc.ready.here hc.handler

/-! ### A descriptor that is read -/

/-- The lane's descriptor holds the bytes `bs`, and its read leads from the numbered state to s1. -/
structure CollRead (s : State) (g : Group) (onG : Bool) (a : RegIx) (l : Nat) (bs : List Byte) (s1 : State) : Prop where
  placed : blockVa (descVa onG a g l) = .ok (descVa onG a g l)
  peek : (s.readGlobal false g s.cur.gid (descVa onG a g l) 64 4).1 = .bytes bs
  read : (numbered s).readGlobal true g s.cur.gid (descVa onG a g l) 64 4 = (.bytes bs, s1)
  clovar : s1.clovar = s.clovar
  modules : s1.modulesUp = s.modulesUp
  mgmt : s1.mgmt = s.mgmt
  group : s1.group s.cur.gid = some g

/-- The state after the record of the communicator, at cell c, has been read: the lane gave up its place in the engine. -/
def State.commRead (s : State) (eng gid l c : Nat) : State := (s.tookRoom (.collective eng) gid l).countLines (srcIod eng) c 4096

theorem commRead_eq (s : State) (eng gid l c : Nat) : s.commRead eng gid l c =
    { s with wokenRooms := s.wokenRooms.filter fun p => p != (Engine.collective eng, gid, l) }.countLines (srcIod eng) c 4096 := by
  rw [State.commRead, tookRoom_collective]

theorem onlyLogs_commRead (s : State) (eng gid l c : Nat) : OnlyLogs (s.tookRoom (.collective eng) gid l) (s.commRead eng gid l c) :=
  onlyLogs_countAll _ _ _

section
variable {s s1 : State} {g : Group} {h : Hdr} {onG : Bool} {a : RegIx} {l : Nat} {bs : List Byte}
  (hc : CollLane s g h onG a l) (hr : CollRead s g onG a l bs s1)
include hc hr

/-- With room in the engine that a legal descriptor needs, the word runs. -/
theorem CollRead.oneLane
    (hroom : collLegal bs → ∀ e, s.collEngine (CollDesc.ofBytes bs).comm = some e → s.hasRoom (.collective e) = true) :
    OneLane s g h (.coll h onG a) l (collOps onG a) := by
  refine hc.oneLane (fun va hva hwait => ?_) (fun e hneeds => ?_)
  · have hsame : va = descVa onG a g l := Except.ok.inj (hva.symm.trans hr.placed)
    rw [hsame, hr.peek] at hwait
    exact nomatch hwait
  · rw [collNeeds_read s g h onG a l _ bs hr.placed hr.peek] at hneeds
    split at hneeds
    · next hok =>
      obtain ⟨eng, heng, rfl⟩ := Option.map_eq_some_iff.mp hneeds
      exact hroom ((collDescOk_iff bs).mp hok) eng heng
    · exact nomatch hneeds

theorem CollRead.body_eq : collBody onG a (memCtl s g h) l (numbered s) = s1.collLane (memCtl s g h) l bs := by
  rw [hc.body_eq, hr.placed]
  dsimp only
  rw [hr.read]

/-- An illegal descriptor traps. -/
theorem CollRead.traps_illegal (hbad : ¬ collLegal bs) :
    ∃ g', exec (.coll h onG a) s = .next ((s1.dropPlaces s.cur.gid l).setGroup s.cur.gid g') ∧
      lanesRun s g g' h (fun _ ln => ln.trap 0x22 0 (BitVec.ofNat 64 0)) ∧ groupAfter s1 g g' h := by
  have hw := hr.oneLane hc fun hok => absurd hok hbad
  rw [exec_coll]
  exact hw.traps ((hr.body_eq hc).trans (collLane_illegal s1 (memCtl s g h) l bs hbad)) hr.group hc.handler

section
variable {c : Nat} (hok : collLegal bs) (hdie : s.iodPresent 0 = true ∨ s.iodPresent 1 = true)
  (hroom : s1.roomFor (.collective (s.engineOf (CollDesc.ofBytes bs).comm)) s.cur.gid l = true)
  (hcell : s1.commCell (CollDesc.ofBytes bs).comm = some c) (hfree : s1.rangeFree c 4096 = true) (hpois : s1.poisonedRange c 4096 = false)
  (hrec : commOk ((s1.commRead (s.engineOf (CollDesc.ofBytes bs).comm) s.cur.gid l c).cells c 4096) = true)

include hdie hroom in
theorem CollRead.oneLane_room : OneLane s g h (.coll h onG a) l (collOps onG a) := by
  refine hr.oneLane hc fun _ e he => ?_
  rw [collEngine_present s _ hdie] at he
  exact hasRoom_of_roomFor hr.clovar (Option.some.inj he ▸ hroom)

include hok hdie hroom hcell hfree hpois in
/-- What the lane does once the record of the communicator has been read. -/
theorem CollRead.body_room :
    let eng := s.engineOf (CollDesc.ofBytes bs).comm
    let t := s1.commRead eng s.cur.gid l c
    let r := t.cells c 4096
    collBody onG a (memCtl s g h) l (numbered s) =
      if (CollDesc.ofBytes bs).op = 3 ∧ commOk r = true ∧ fieldAt r 0 2 ≤ (CollDesc.ofBytes bs).root then (badOperand, t)
      else (pending, t.collIssue (memCtl s g h) eng (CollDesc.ofBytes bs) r) := by
  have hsame : s1.collEngine (CollDesc.ofBytes bs).comm = s.collEngine (CollDesc.ofBytes bs).comm := by
    simp only [State.collEngine, iodPresent_congr hr.modules hr.mgmt]
  have heng := hsame.trans (collEngine_present s _ hdie)
  exact (hr.body_eq hc).trans (collLane_room s1 (memCtl s g h) l _ c bs hok heng hroom hcell hfree hpois)

include hok hdie hroom hcell hfree hpois hrec in
/-- A broadcast from a rank that the communicator does not have traps. -/
theorem CollRead.traps_root :
    let t := s1.commRead (s.engineOf (CollDesc.ofBytes bs).comm) s.cur.gid l c
    (CollDesc.ofBytes bs).op = 3 → fieldAt (t.cells c 4096) 0 2 ≤ (CollDesc.ofBytes bs).root →
    ∃ g', exec (.coll h onG a) s = .next (t.setGroup s.cur.gid g') ∧ lanesRun s g g' h (fun _ ln => ln.trap 0x22 0 0) ∧ groupAfter t g g' h := by
  intro t hop hroot
  have hbody : collBody onG a (memCtl s g h) l (numbered s) = (badOperand, t) :=
    (hr.body_room hc hok hdie hroom hcell hfree hpois).trans (if_pos ⟨hop, hrec, hroot⟩)
  have hgroup : t.group s.cur.gid = some g := ((onlyLogs_commRead s1 _ s.cur.gid l c).field fun u => u.group s.cur.gid).trans hr.group
  rw [exec_coll]
  exact (hr.oneLane_room hc hdie hroom).traps hbody hgroup hc.handler

include hok hdie hroom hcell hfree hpois hrec in
/-- Otherwise the collective enters the engine, and the other ranks are told. -/
theorem CollRead.takes :
    let eng := s.engineOf (CollDesc.ofBytes bs).comm
    let t := s1.commRead eng s.cur.gid l c
    let r := t.cells c 4096
    let x := newColl eng (s.ctxOf g) (Sparse.get 0 s.clovar.collNum (CollDesc.ofBytes bs).comm + 1) g (CollDesc.ofBytes bs) r
    ¬ ((CollDesc.ofBytes bs).op = 3 ∧ fieldAt r 0 2 ≤ (CollDesc.ofBytes bs).root) →
    LaneTakes s h l (.coll h onG a) ([], [], 0) ((t.enterColl x).collTell x 0 []) := by
  intro eng t r x hroot
  have honly := onlyLogs_commRead s1 eng s.cur.gid l c
  have hclovar : t.clovar = s.clovar := (honly.field State.clovar).trans hr.clovar
  have hrecs : t.recs = s.recs := by
    have hread := recs_readGlobal true g s.cur.gid 4 (numbered s) (descVa onG a g l) 64
    rw [hr.read] at hread
    exact (honly.field State.recs).trans hread
  have hctx : t.ctxOf (memCtl s g h).g = s.ctxOf g := by
    show (Sparse.get {} t.recs g.launch).ctx = (Sparse.get {} s.recs g.launch).ctx
    rw [hrecs]
  have hbody : collBody onG a (memCtl s g h) l (numbered s) = (pending, (t.enterColl x).collTell x 0 []) := by
    refine (hr.body_room hc hok hdie hroom hcell hfree hpois).trans ((if_neg fun hhigh => hroot ⟨hhigh.1, hhigh.2.2⟩).trans ?_)
    rw [collIssue_comm _ _ _ _ _ hrec, hctx, hclovar]
    rfl
  have hgroup : ((t.enterColl x).collTell x 0 []).group s.cur.gid = some g :=
    ((onlyOut_collTell (t.enterColl x) x 0 []).field fun u => u.group s.cur.gid).trans
      ((honly.field fun u => u.group s.cur.gid).trans hr.group)
  exact (hr.oneLane_room hc hdie hroom).takes (exec_coll h onG a s) hbody hgroup

end
end

/-- What a collective that enters changes, besides what leaves the device. -/
theorem enterColl_told (s : State) (x : Coll) (cl : Clovar) (hcl : s.clovar = cl) :
    let t := (s.enterColl x).collTell x 0 []
    t = { s with next := s.next + 1, out := t.out, clovar := { cl with
      collNum := Sparse.set 0 cl.collNum x.comm x.num, colls := Sparse.set none cl.colls s.next (some x) } } := by
  subst hcl
  exact onlyOut_collTell (s.enterColl x) x 0 []

/-- Every other rank of the communicator that the engine reaches is told of a collective that enters. -/
theorem told_of_newColl (s : State) (eng ctx num : Nat) (g : Group) (d : CollDesc) (r : List Byte) (k : Nat) (hk : k < fieldAt r 0 2)
    (hr : k ≠ fieldAt r 2 2) (hp : s.enginePorts eng (fieldAt r (0x800 + 2 * k) 2) ≠ []) :
    let x := newColl eng ctx num g d r
    .collective eng d.comm (fieldAt r (0x800 + 2 * k) 2) num 0 d.params [] ∈ ((s.enterColl x).collTell x 0 []).out := by
  intro x
  have hnode : x.nodes.getD k 0 = fieldAt r (0x800 + 2 * k) 2 := by
    show ((List.range (fieldAt r 0 2)).map fun k => fieldAt r (0x800 + 2 * k) 2).getD k 0 = _
    simp [List.getD, hk]
  have htold := mem_out_collTell (s.enterColl x) x 0 [] k hk hr (by rw [hnode]; exact hp)
  rw [hnode] at htold
  exact htold

end Sys2Proof.Machine
end

section
/-! The statement of O48, clause by clause. -/
namespace Sys2Proof.Machine

open Sys2Proof.Safety

/-- Settles O48: the word by what its one lane does, the traffic by the rank that its node is, the end by what is left to write, the fold
by induction over the ranks. -/
theorem collectives : Obligations.Collectives := by
  unfold Obligations.Collectives
  refine ⟨?word, ?traffic, ?ending, ?results, ?sum32, ?sum64, ?bounds, ?float⟩
  case word =>
    intro h onG a s g l hact hstill htxns hclean hhandler hquiet0 hquiet1 hlinked hfull hready i va gives traps
    have hc : CollLane s g h onG a l := ⟨hready, hstill, hact, htxns, hclean, hhandler, ⟨hquiet0, hquiet1⟩, hlinked, hfull⟩
    refine ⟨fun hmis => hc.traps_misplaced (blockVa_misaligned va hmis), fun hal hhigh => hc.traps_misplaced (blockVa_high va hal hhigh), ?_⟩
    intro hal hlow bs s1 hpeek hread hclovar hmodules hmgmt hcur hgroup f legal comm eng
    have hr : CollRead s g onG a l bs s1 := ⟨blockVa_ok va hal hlow, hpeek, hread, hclovar, hmodules, hmgmt, hgroup⟩
    refine ⟨hr.traps_illegal hc, fun hok hdie hroom c hview hfree hpois => ?_⟩
    have hcell : s1.commCell comm = some c := by rw [State.commCell, hclovar]; exact hview
    rw [← commRead_eq s1 eng s.cur.gid l c]
    intro t r size rank node hrec
    have hroot := hr.traps_root hc hok hdie hroom hcell hfree hpois hrec
    refine ⟨fun hop hhigh => hroot hop hhigh, fun hlegal => ?_⟩
    intro num d p
    refine ⟨_, hr.takes hc hok hdie hroom hcell hfree hpois hrec hlegal, ?_, fun k hk hne hports => ?_⟩
    · have htclovar : t.clovar = s.clovar := ((onlyLogs_commRead s1 eng s.cur.gid l c).field State.clovar).trans hclovar
      exact enterColl_told t _ s.clovar htclovar
    · exact told_of_newColl t eng (s.ctxOf g) num g d r k hk hne hports
  case traffic =>
    intro s eng comm node num st p data hin dropped
    have hexec : exec .collectiveTraffic s = .next s.collTraffic := rfl
    refine ⟨fun hno => ?_, fun id c hs heng hcomm hnum => ?_⟩
    · rw [hexec, collTraffic_unknown s eng comm node num st p data hin (findColl_none s eng comm num hno)]
    subst heng hcomm hnum
    have hfind := findColl_only hs
    refine ⟨fun hno => ?_, fun k hk hne hnode hfirst hended => ?_⟩
    · rw [hexec, collTraffic_noRank s _ _ node _ st id p data c hin hfind (rankAt_none c node hno)]
    intro c1 mine ends
    have htraffic := collTraffic_rank s _ _ node _ st id k p data c hin hfind (rankAt_first c node k hk hne hnode hfirst) hended
    refine ⟨fun h2 h3 hp hagree => ?_, fun h2 h3 hp => ?_, fun hst => ?_⟩
    · have hsame : (c.heard k p data).agrees = true := hp ▸ agrees_heard c k data hagree
      rw [hexec, htraffic, if_neg (not_or.mpr ⟨h2, h3⟩), if_pos hsame, setColl_only hs]
      rfl
    · have hdiffer : ¬ (c.heard k p data).agrees = true := Bool.eq_false_iff.mp (agrees_heard_other c k p data hp)
      obtain ⟨hcoll, hmem⟩ := collEnd_facts (s.setColl id (some (c.heard k p data))) id 1 0 false _ (coll_setColl ..)
      exact ⟨_, _, by rw [hexec, htraffic, if_neg (not_or.mpr ⟨h2, h3⟩), if_neg hdiffer], hcoll, rfl, rfl, hmem⟩
    · obtain ⟨hcoll, hmem⟩ := collEnd_facts s id st 0 true c (coll_only hs)
      exact ⟨_, _, by rw [hexec, htraffic, if_pos hst], hcoll, rfl, rfl, hmem⟩
  case ending =>
    intro s id eng comm num c hs heng hcomm hnum
    subst heng hcomm hnum
    have hfind := findColl_only hs
    have htime : exec (.collectiveTimeout c.eng c.comm c.num) s = .next (s.collTimeout c.eng c.comm c.num) := rfl
    refine ⟨fun ⟨k, hk, hn⟩ hended => ?_, fun hended => ?_, fun hended hwrites hsettled bs q s1 hput => ?_⟩
    · obtain ⟨hcoll, hmem⟩ := collEnd_facts s id 2 0 false c (coll_only hs)
      exact ⟨_, _, by rw [htime, collTimeout_waiting s _ _ _ id k c hfind hended hk hn], hcoll, rfl, rfl, hmem⟩
    · rw [htime, collTimeout_ended s _ _ _ id c hfind hended]
    · have hstep := collStep_stamp s s1 id c bs q (coll_only hs) hended hwrites hsettled hput
      have hexec : exec (.collectiveCompletion c.eng c.comm c.num) s = .next (s.collStep id) := by
        show Host.Outcome.next (match s.findColl c.eng c.comm c.num with | some p => s.collStep p.1 | none => s) = _
        rw [hfind]
      rw [hexec, hstep]
      rfl
  case results => exact fun c => ⟨writes_mismatch c, flags_failed c⟩
  case sum32 => exact fun v vs hv => collFold_sum 4 v vs rfl hv
  case sum64 => exact fun v vs hv => collFold_sum 5 v vs rfl hv
  case bounds =>
    rintro w ty v vs (⟨rfl, rfl⟩ | ⟨rfl, rfl⟩)
    · exact collFold_bounds 4 v vs rfl
    · exact collFold_bounds 5 v vs rfl
  case float =>
    rintro ty F v y vs (⟨rfl, rfl⟩ | ⟨rfl, rfl⟩) a ha hy hna hny
    · exact collFold_append 0 v y vs fmt32 rfl (by decide) ha hy hna hny
    · exact collFold_append 3 v y vs fmt64 rfl (by decide) ha hy hna hny

end Sys2Proof.Machine
end

section
/-! SUPPORT. O51: the fields of a structure in memory, and the 256 bytes of a launch block (R3, R81). -/
namespace Sys2Proof.Machine

/-! ### Fields of a structure in memory (R3) -/

theorem leNat_toLE (n v : Nat) : leNat (toLE n v) = v % 256 ^ n := by
  induction n generalizing v with
  | zero => rw [toLE, leNat, Nat.pow_zero, Nat.mod_one]
  | succ n ih => rw [toLE, leNat, ih, BitVec.toNat_ofNat, Nat.pow_succ' (n := n), Nat.mod_mul]

theorem leNat_zeros (n : Nat) : leNat (List.replicate n 0) = 0 :=
  (leNat_eq_zero _).mpr fun _ hb => List.eq_of_mem_replicate hb

/-- A field that lies in the second part of a structure. -/
theorem fieldAt_append_right (as bs : List Byte) (i n : Nat) (h : as.length ≤ i) :
    fieldAt (as ++ bs) i n = fieldAt bs (i - as.length) n := by
  rw [fieldAt, List.drop_append, List.drop_of_length_le h, List.nil_append, fieldAt]

/-- A field that lies in the first part. -/
theorem fieldAt_append_left (as bs : List Byte) (i n : Nat) (h : i + n ≤ as.length) : fieldAt (as ++ bs) i n = fieldAt as i n := by
  rw [fieldAt, List.drop_append_of_le_length (by omega), List.take_append_of_le_length (by rw [List.length_drop]; omega), fieldAt]

theorem fieldAt_nil (i n : Nat) : fieldAt [] i n = 0 := by rw [fieldAt, List.drop_nil, List.take_nil, leNat]

theorem fieldAt_zeros (m i n : Nat) : fieldAt (List.replicate m 0) i n = 0 := by
  rw [fieldAt, List.drop_replicate, List.take_replicate, leNat_zeros]

theorem fieldAt_toLE (n v : Nat) (h : v < 256 ^ n) : fieldAt (toLE n v) 0 n = v := by
  rw [fieldAt, List.drop_zero, List.take_of_length_le (by rw [length_toLE]), leNat_toLE, Nat.mod_eq_of_lt h]

/-- The field at the front of a structure. -/
theorem fieldAt_front (n v : Nat) (bs : List Byte) (h : v < 256 ^ n) : fieldAt (toLE n v ++ bs) 0 n = v := by
  rw [fieldAt_append_left _ _ _ _ (by rw [length_toLE, Nat.zero_add]), fieldAt_toLE n v h]

/-- A field behind the one at the front. -/
theorem fieldAt_behind (m v : Nat) (bs : List Byte) (i n : Nat) (h : m ≤ i) : fieldAt (toLE m v ++ bs) i n = fieldAt bs (i - m) n := by
  rw [fieldAt_append_right _ _ _ _ (by rwa [length_toLE]), length_toLE]

/-! ### Records in a fixed place -/

/-- Bytes, padded with zeroes to n. -/
def padTo (n : Nat) (bs : List Byte) : List Byte := bs ++ List.replicate (n - bs.length) 0

theorem length_padTo (n : Nat) (bs : List Byte) (h : bs.length ≤ n) : (padTo n bs).length = n := by
  rw [padTo, List.length_append, List.length_replicate, Nat.add_sub_cancel' h]

theorem fieldAt_padTo (m : Nat) (bs : List Byte) (i n : Nat) (h : bs.length ≤ i ∨ i + n ≤ bs.length) :
    fieldAt (padTo m bs) i n = if i + n ≤ bs.length then fieldAt bs i n else 0 := by
  split
  case isTrue hin => exact fieldAt_append_left _ _ _ _ hin
  case isFalse hout => rw [padTo, fieldAt_append_right _ _ _ _ (h.resolve_right hout), fieldAt_zeros]

/-- A field of record r, where records of w bytes stand one after another. -/
theorem fieldAt_flatMap {α : Type} (f : α → List Byte) (w : Nat) (hw : ∀ a, (f a).length = w) (l : List α) (r o n : Nat) (hr : r < l.length)
    (ho : o + n ≤ w) : fieldAt (l.flatMap f) (w * r + o) n = fieldAt (f l[r]) o n := by
  induction l generalizing r with
  | nil => exact absurd hr (Nat.not_lt_zero r)
  | cons a l ih =>
    rw [List.flatMap_cons]
    cases r with
    | zero => rw [Nat.mul_zero, Nat.zero_add, fieldAt_append_left _ _ _ _ (by rw [hw]; exact ho), List.getElem_cons_zero]
    | succ r =>
      rw [fieldAt_append_right _ _ _ _ (by rw [hw, Nat.mul_succ]; omega), hw, Nat.mul_succ, Nat.add_right_comm, Nat.add_sub_cancel,
        ih r (Nat.lt_of_succ_lt_succ hr), List.getElem_cons_succ]

/-- The same, where room is left for m bytes: what follows the last record is zero. -/
theorem fieldAt_records {α : Type} (f : α → List Byte) (w m : Nat) (hw : ∀ a, (f a).length = w) (l : List α) (r o n : Nat) (ho : o + n ≤ w)
    (hn : 0 < n) : fieldAt (padTo m (l.flatMap f)) (w * r + o) n = if h : r < l.length then fieldAt (f l[r]) o n else 0 := by
  have hlen : (l.flatMap f).length = w * l.length := length_flatMap_of_length f w l fun a _ => hw a
  by_cases hr : r < l.length
  · have hin : w * r + o + n ≤ (l.flatMap f).length := by
      have : w * (r + 1) ≤ w * l.length := Nat.mul_le_mul_left w hr
      rw [hlen]; rw [Nat.mul_succ] at this; omega
    rw [fieldAt_padTo _ _ _ _ (.inr hin), if_pos hin, dif_pos hr, fieldAt_flatMap f w hw l r o n hr ho]
  · have hout : (l.flatMap f).length ≤ w * r + o := by
      have : w * l.length ≤ w * r := Nat.mul_le_mul_left w (Nat.le_of_not_lt hr)
      rw [hlen]; omega
    rw [fieldAt_padTo _ _ _ _ (.inl hout), if_neg (by omega), dif_neg hr]

/-! ### The image of a launch block (R81) -/

/-- Bit i of the flags. -/
def flagBit (x : Bool) (i : Nat) : Nat := if x then 2 ^ i else 0

/-- The flags of a launch block. -/
def Block.flags (b : Block) : Nat :=
  flagBit b.gang 0 + flagBit b.prot 1 + flagBit b.reln 2 + flagBit b.detr 3 + flagBit b.sbchk 4 + flagBit b.snant 5 + flagBit b.flush 6 +
    flagBit b.irq 7 + flagBit b.sxu 8

def Role.bytes (r : Role) : List Byte := toLE 8 r.entry.toNat ++ toLE 1 r.regs ++ toLE 1 r.ngrp ++ toLE 1 r.stg ++ List.replicate 5 0
def stageBytes (q : DWord × Nat) : List Byte := toLE 8 q.1.toNat ++ toLE 1 q.2 ++ List.replicate 7 0

/-- Bytes 0x00 to 0x7F. -/
def Block.header (b : Block) : List Byte :=
  toLE 1 1 ++ toLE 1 b.pri ++ toLE 2 b.flags ++ toLE 1 b.nrole ++ toLE 1 b.nstage ++ toLE 1 b.cw ++ toLE 1 b.ch ++ toLE 4 b.gx ++ toLE 4 b.gy ++
    toLE 4 b.gz ++ toLE 2 b.scr ++ toLE 1 b.acc ++ [0] ++ toLE 8 b.arg.toNat ++ toLE 8 b.done.toNat ++ toLE 8 b.spov.toNat ++ toLE 4 b.spovlen ++
    toLE 2 b.chres ++ toLE 2 b.msiv ++ toLE 8 b.save.toNat ++ toLE 4 b.savelen ++ toLE 4 b.fpctl.toNat ++ List.replicate 0x38 0

def Block.image (b : Block) : List Byte := b.header ++ padTo 64 (b.roles.flatMap Role.bytes) ++ padTo 64 (b.stages.flatMap stageBytes)

/-- What the fields of a launch block can hold. -/
structure Block.Fits (b : Block) : Prop where
  pri : b.pri < 32
  nstage : b.nstage < 256
  nrole : b.nrole < 256
  roles : b.roles.length = min b.nrole 4
  stages : b.stages.length = min (max b.nstage 1) 4
  cw : b.cw < 256
  ch : b.ch < 256
  gx : b.gx < 2 ^ 32
  gy : b.gy < 2 ^ 32
  gz : b.gz < 2 ^ 32
  scr : b.scr < 2 ^ 16
  acc : b.acc < 256
  spovlen : b.spovlen < 2 ^ 32
  chres : b.chres < 2 ^ 16
  msiv : b.msiv < 2048
  savelen : b.savelen < 2 ^ 32
  role : ∀ r ∈ b.roles, r.regs < 256 ∧ r.ngrp < 256 ∧ r.stg < 256
  stage : ∀ q ∈ b.stages, q.2 < 256

theorem Role.length_bytes (r : Role) : r.bytes.length = 16 := by simp [Role.bytes]
theorem length_stageBytes (q : DWord × Nat) : (stageBytes q).length = 16 := by simp [stageBytes]
theorem Block.length_header (b : Block) : b.header.length = 0x80 := by
  unfold Block.header
  simp only [List.length_append, length_toLE, List.length_replicate, List.length_singleton]

theorem Block.Fits.length_roles {b : Block} (h : b.Fits) : (b.roles.flatMap Role.bytes).length ≤ 64 := by
  rw [length_flatMap_of_length _ 16 _ fun r _ => r.length_bytes, h.roles]; omega

theorem Block.Fits.length_stages {b : Block} (h : b.Fits) : (b.stages.flatMap stageBytes).length ≤ 64 := by
  rw [length_flatMap_of_length _ 16 _ fun q _ => length_stageBytes q, h.stages]; omega

theorem Block.Fits.length_image {b : Block} (h : b.Fits) : b.image.length = 256 := by
  rw [Block.image, List.length_append, List.length_append, b.length_header, length_padTo _ _ h.length_roles, length_padTo _ _ h.length_stages]

/-! The three parts of the image. -/

theorem Block.fieldAt_header (b : Block) (i n : Nat) (h : i + n ≤ 0x80) : fieldAt b.image i n = fieldAt b.header i n := by
  rw [Block.image, List.append_assoc, fieldAt_append_left _ _ _ _ (by rw [b.length_header]; exact h)]

theorem Block.Fits.fieldAt_role {b : Block} (h : b.Fits) (r o n : Nat) (hr : r < 4) (ho : o + n ≤ 16) (hn : 0 < n) :
    fieldAt b.image (0x80 + 16 * r + o) n = if h : r < b.roles.length then fieldAt (b.roles[r]).bytes o n else 0 := by
  rw [Block.image, fieldAt_append_left _ _ _ _ (by rw [List.length_append, b.length_header, length_padTo _ _ h.length_roles]; omega),
    fieldAt_append_right _ _ _ _ (by rw [b.length_header]; omega), b.length_header, Nat.add_assoc, Nat.add_sub_cancel_left,
    fieldAt_records _ 16 _ Role.length_bytes _ _ _ _ ho hn]

theorem Block.Fits.fieldAt_stage {b : Block} (h : b.Fits) (r o n : Nat) (ho : o + n ≤ 16) (hn : 0 < n) :
    fieldAt b.image (0xC0 + 16 * r + o) n = if h : r < b.stages.length then fieldAt (stageBytes b.stages[r]) o n else 0 := by
  have hlen : (b.header ++ padTo 64 (b.roles.flatMap Role.bytes)).length = 0xC0 := by
    rw [List.length_append, b.length_header, length_padTo _ _ h.length_roles]
  rw [Block.image, fieldAt_append_right _ _ _ _ (by rw [hlen]; omega), hlen, Nat.add_assoc, Nat.add_sub_cancel_left,
    fieldAt_records _ 16 _ length_stageBytes _ _ _ _ ho hn]

/-! The fields of the header, of a role and of a stage. -/

theorem Role.fieldAt_entry (r : Role) : fieldAt r.bytes 0 8 = r.entry.toNat := by
  simp only [Role.bytes, List.append_assoc]
  exact fieldAt_front _ _ _ r.entry.isLt

theorem Role.fieldAt_regs (r : Role) (h : r.regs < 256) : fieldAt r.bytes 8 1 = r.regs := by
  simp only [Role.bytes, List.append_assoc, fieldAt_behind, fieldAt_front, Nat.reducePow, Nat.reduceLeDiff, Nat.reduceSub, h]

theorem Role.fieldAt_ngrp (r : Role) (h : r.ngrp < 256) : fieldAt r.bytes 9 1 = r.ngrp := by
  simp only [Role.bytes, List.append_assoc, fieldAt_behind, fieldAt_front, Nat.reducePow, Nat.reduceLeDiff, Nat.reduceSub, h]

theorem Role.fieldAt_stg (r : Role) (h : r.stg < 256) : fieldAt r.bytes 10 1 = r.stg := by
  simp only [Role.bytes, List.append_assoc, fieldAt_behind, fieldAt_front, Nat.reducePow, Nat.reduceLeDiff, Nat.reduceSub, h]

theorem Role.fieldAt_zero (r : Role) : fieldAt r.bytes 11 5 = 0 := by
  simp only [Role.bytes, List.append_assoc, fieldAt_behind, fieldAt_zeros, Nat.reduceLeDiff, Nat.reduceSub]

theorem fieldAt_stageAddr (q : DWord × Nat) : fieldAt (stageBytes q) 0 8 = q.1.toNat := by
  simp only [stageBytes, List.append_assoc]
  exact fieldAt_front _ _ _ q.1.isLt

theorem fieldAt_stageDepth (q : DWord × Nat) (h : q.2 < 256) : fieldAt (stageBytes q) 8 1 = q.2 := by
  simp only [stageBytes, List.append_assoc, fieldAt_behind, fieldAt_front, Nat.reducePow, Nat.reduceLeDiff, Nat.reduceSub, h]

theorem fieldAt_stageZero (q : DWord × Nat) : fieldAt (stageBytes q) 9 7 = 0 := by
  simp only [stageBytes, List.append_assoc, fieldAt_behind, fieldAt_zeros, Nat.reduceLeDiff, Nat.reduceSub]

theorem Block.flags_lt (b : Block) : b.flags < 512 := by
  have h : ∀ (x : Bool) i, flagBit x i ≤ 2 ^ i := fun x i => by cases x <;> simp [flagBit]
  have := h b.gang 0; have := h b.prot 1; have := h b.reln 2; have := h b.detr 3; have := h b.sbchk 4
  have := h b.snant 5; have := h b.flush 6; have := h b.irq 7; have := h b.sxu 8
  unfold Block.flags; omega

/-- The fields of the header. -/
theorem Block.Fits.fieldAt_header {b : Block} (h : b.Fits) :
    let f := fieldAt b.image
    f 0 1 = 1 ∧ f 1 1 = b.pri ∧ f 2 2 = b.flags ∧ f 4 1 = b.nrole ∧ f 5 1 = b.nstage ∧ f 6 1 = b.cw ∧ f 7 1 = b.ch ∧ f 8 4 = b.gx ∧
      f 0xC 4 = b.gy ∧ f 0x10 4 = b.gz ∧ f 0x14 2 = b.scr ∧ f 0x16 1 = b.acc ∧ f 0x17 1 = 0 ∧ f 0x18 8 = b.arg.toNat ∧ f 0x20 8 = b.done.toNat ∧
      f 0x28 8 = b.spov.toNat ∧ f 0x30 4 = b.spovlen ∧ f 0x34 2 = b.chres ∧ f 0x36 2 = b.msiv ∧ f 0x38 8 = b.save.toNat ∧ f 0x40 4 = b.savelen ∧
      f 0x44 4 = b.fpctl.toNat ∧ f 0x48 0x38 = 0 := by
  have hpri : b.pri < 256 := Nat.lt_of_lt_of_le h.pri (by decide)
  have hfl : b.flags < 65536 := Nat.lt_of_lt_of_le b.flags_lt (by decide)
  have hms : b.msiv < 65536 := Nat.lt_of_lt_of_le h.msiv (by decide)
  have h0 : ([0] : List Byte) = toLE 1 0 := rfl
  obtain ⟨-, hns, hnr, -, -, hcw, hch, hgx, hgy, hgz, hscr, hacc, hspl, hcr, -, hsl, -, -⟩ := h
  simp only [Nat.reducePow] at hgx hgy hgz hscr hspl hcr hsl
  have hw := b.arg.isLt
  have hd := b.done.isLt
  have hsp := b.spov.isLt
  have hsa := b.save.isLt
  have hfp := b.fpctl.isLt
  simp only [Nat.reducePow] at hw hd hsp hsa hfp
  simp only [Block.fieldAt_header, Nat.reduceAdd, Nat.reduceLeDiff]
  unfold Block.header
  simp only [h0, Nat.reduceLeDiff, List.append_assoc, fieldAt_behind, fieldAt_front, fieldAt_zeros,
    Nat.reduceSub, Nat.reducePow, Nat.reduceLT, hpri, hfl, hms, hns, hnr, hcw, hch, hgx, hgy, hgz, hscr, hacc, hspl, hcr, hsl, hw, hd, hsp, hsa,
    hfp, and_self]

end Sys2Proof.Machine
end

section
/-! SUPPORT. O51: a launch block is read as it was written, and its checks are met in order (R81 to R84, R214). -/
namespace Sys2Proof.Machine

/-! ### A block is read as it was written (R81) -/

theorem nbit_of_toNat {n i : Nat} {x : Bool} (h : n / 2 ^ i % 2 = x.toNat) : nbit n i = x := by
  rw [nbit, Nat.testBit_eq_decide_div_mod_eq, h]
  cases x <;> rfl

theorem flagBit_eq (x : Bool) (i : Nat) : flagBit x i = 2 ^ i * x.toNat := by cases x <;> simp [flagBit]

theorem Block.nbit_flags (b : Block) :
    nbit b.flags 0 = b.gang ∧ nbit b.flags 1 = b.prot ∧ nbit b.flags 2 = b.reln ∧ nbit b.flags 3 = b.detr ∧ nbit b.flags 4 = b.sbchk ∧
      nbit b.flags 5 = b.snant ∧ nbit b.flags 6 = b.flush ∧ nbit b.flags 7 = b.irq ∧ nbit b.flags 8 = b.sxu := by
  have h0 := b.gang.toNat_le; have h1 := b.prot.toNat_le; have h2 := b.reln.toNat_le; have h3 := b.detr.toNat_le; have h4 := b.sbchk.toNat_le
  have h5 := b.snant.toNat_le; have h6 := b.flush.toNat_le; have h7 := b.irq.toNat_le; have h8 := b.sxu.toNat_le
  unfold Block.flags
  simp only [flagBit_eq]
  refine ⟨?_, ?_, ?_, ?_, ?_, ?_, ?_, ?_, ?_⟩ <;> exact nbit_of_toNat (by omega)

theorem Block.Fits.parse_roles {b : Block} (h : b.Fits) :
    ((List.range (Nat.min b.nrole 4)).map fun r =>
      ({ entry := BitVec.ofNat 64 (fieldAt b.image (0x80 + 16 * r) 8), regs := fieldAt b.image (0x88 + 16 * r) 1,
         ngrp := fieldAt b.image (0x89 + 16 * r) 1, stg := fieldAt b.image (0x8A + 16 * r) 1 } : Role)) = b.roles := by
  refine List.ext_getElem (by rw [List.length_map, List.length_range, h.roles]) fun r hr hr' => ?_
  have hr4 : r < 4 := Nat.lt_of_lt_of_le hr' (h.roles ▸ Nat.min_le_right _ _)
  obtain ⟨hregs, hngrp, hstg⟩ := h.role _ (List.getElem_mem hr')
  have hf : ∀ o n, o + n ≤ 16 → 0 < n → fieldAt b.image (0x80 + o + 16 * r) n = fieldAt (b.roles[r]).bytes o n := fun o n ho hn => by
    rw [Nat.add_right_comm, h.fieldAt_role r o n hr4 ho hn, dif_pos hr']
  rw [List.getElem_map, List.getElem_range, hf 0 8 (by decide) (by decide), hf 8 1 (by decide) (by decide), hf 9 1 (by decide) (by decide),
    hf 10 1 (by decide) (by decide), Role.fieldAt_entry, Role.fieldAt_regs _ hregs, Role.fieldAt_ngrp _ hngrp, Role.fieldAt_stg _ hstg,
    BitVec.ofNat_toNat, BitVec.setWidth_eq]

theorem Block.Fits.parse_stages {b : Block} (h : b.Fits) :
    ((List.range (Nat.min (Nat.max b.nstage 1) 4)).map fun i =>
      (BitVec.ofNat 64 (fieldAt b.image (0xC0 + 16 * i) 8), fieldAt b.image (0xC8 + 16 * i) 1)) = b.stages := by
  refine List.ext_getElem (by rw [List.length_map, List.length_range, h.stages]) fun r hr hr' => ?_
  have hf : ∀ o n, o + n ≤ 16 → 0 < n → fieldAt b.image (0xC0 + o + 16 * r) n = fieldAt (stageBytes b.stages[r]) o n := fun o n ho hn => by
    rw [Nat.add_right_comm, h.fieldAt_stage r o n ho hn, dif_pos hr']
  rw [List.getElem_map, List.getElem_range, hf 0 8 (by decide) (by decide), hf 8 1 (by decide) (by decide), fieldAt_stageAddr,
    fieldAt_stageDepth _ (h.stage _ (List.getElem_mem hr')), BitVec.ofNat_toNat, BitVec.setWidth_eq]

theorem Block.Fits.parseBlock_image {b : Block} (h : b.Fits) : parseBlock b.image = b := by
  obtain ⟨-, fpri, ffl, fnr, fns, fcw, fch, fgx, fgy, fgz, fscr, facc, -, farg, fdone, fspov, fspl, fcr, fms, fsave, fsl, ffp, -⟩ := h.fieldAt_header
  obtain ⟨hg, hp, hr, hd, hsb, hsn, hf, hi, hsx⟩ := b.nbit_flags
  unfold parseBlock
  simp only [fpri, ffl, fnr, fns, fcw, fch, fgx, fgy, fgz, fscr, facc, farg, fdone, fspov, fspl, fcr, fms, fsave, fsl, ffp, hg, hp, hr, hd, hsb, hsn,
    hf, hi, hsx, BitVec.ofNat_toNat, BitVec.setWidth_eq, Nat.mod_eq_of_lt h.pri, Nat.mod_eq_of_lt h.msiv, h.parse_roles, h.parse_stages]

/-! ### The checks (R81 to R84, R214) -/

/-- The bits of a launch block that are zero, and FPCTL (R81, R214). -/
def Block.reservedOk (b : Block) : Prop :=
  b.fpctl.toNat % 8 < 5 ∧ b.fpctl.toNat / 8 % 32 = 0 ∧ b.fpctl.toNat < 1024 ∧ (max b.nstage 1 ≤ 4 → b.stages.getLast? = some (0, 0))

theorem nbits_eq_zero_of_lt {x hi lo : Nat} (h : x < 2 ^ lo) : nbits x hi lo = 0 := by
  rw [nbits, Nat.div_eq_of_lt h, Nat.zero_mod]

/-- The zero bytes of the four roles stand as they should in every image. -/
theorem Block.Fits.roles_zero {b : Block} (h : b.Fits) :
    ((List.range 4).all fun r => if r < Nat.min b.nrole 4 then zeroAt b.image (0x8B + 16 * r) 5 else zeroAt b.image (0x80 + 16 * r) 16) = true := by
  refine List.all_eq_true.mpr fun r hr => ?_
  have hr4 : r < 4 := List.mem_range.mp hr
  have hlen : b.roles.length = Nat.min b.nrole 4 := h.roles
  rw [← hlen]
  by_cases hin : r < b.roles.length
  · rw [if_pos hin, zeroAt, show 0x8B + 16 * r = 0x80 + 16 * r + 11 by omega, h.fieldAt_role r 11 5 hr4 (by decide) (by decide), dif_pos hin,
      Role.fieldAt_zero]
    rfl
  · rw [if_neg hin, zeroAt, ← Nat.add_zero (0x80 + 16 * r), h.fieldAt_role r 0 16 hr4 (by decide) (by decide), dif_neg hin]
    rfl

/-- All 16 bytes of a stage are zero. -/
theorem fieldAt_stageBytes_eq_zero (q : DWord × Nat) (hq : q.2 < 256) : fieldAt (stageBytes q) 0 16 = 0 ↔ q = (0, 0) := by
  have hall : fieldAt (stageBytes q) 0 16 = leNat (stageBytes q) := by
    rw [fieldAt, List.drop_zero, List.take_of_length_le (by rw [length_stageBytes])]
  constructor
  · intro h0
    have hz : stageBytes q = List.replicate 16 0 := by
      rw [List.eq_replicate_iff, length_stageBytes]
      exact ⟨rfl, (leNat_eq_zero _).mp (hall ▸ h0)⟩
    have ha := fieldAt_stageAddr q
    have hd := fieldAt_stageDepth q hq
    rw [hz, fieldAt_zeros] at ha hd
    exact Prod.ext (BitVec.eq_of_toNat_eq ha.symm) hd.symm
  · rintro rfl
    rfl

/-- The rings of all stages but the last, and nothing behind them. -/
theorem Block.Fits.stages_zero {b : Block} (h : b.Fits) :
    ((List.range 4).all fun i => if i + 1 < Nat.max b.nstage 1 then zeroAt b.image (0xC9 + 16 * i) 7 else zeroAt b.image (0xC0 + 16 * i) 16) = true ↔
      (max b.nstage 1 ≤ 4 → b.stages.getLast? = some (0, 0)) := by
  have hlen := h.stages
  have hmax : Nat.max b.nstage 1 = max b.nstage 1 := rfl
  have hrec : ∀ i, zeroAt b.image (0xC0 + 16 * i) 16 = true ↔ ∀ hi : i < b.stages.length, b.stages[i] = (0, 0) := fun i => by
    rw [zeroAt, beq_iff_eq, ← Nat.add_zero (0xC0 + 16 * i), h.fieldAt_stage i 0 16 (by decide) (by decide)]
    by_cases hi : i < b.stages.length
    · rw [dif_pos hi, fieldAt_stageBytes_eq_zero _ (h.stage _ (List.getElem_mem hi))]
      exact ⟨fun hq _ => hq, fun hq => hq hi⟩
    · rw [dif_neg hi]
      exact ⟨fun _ hi' => absurd hi' hi, fun _ => rfl⟩
  rw [List.all_eq_true, List.getLast?_eq_getElem?]
  simp only [List.mem_range, hmax]
  constructor
  · intro hall hle
    have hlast := hall (max b.nstage 1 - 1) (by omega)
    rw [if_neg (by omega), hrec] at hlast
    rw [List.getElem?_eq_some_iff]
    exact ⟨by omega, by simpa [hlen, Nat.min_eq_left hle] using hlast (by omega)⟩
  · intro hlast i hi
    by_cases hin : i + 1 < max b.nstage 1
    · rw [if_pos hin, zeroAt, show 0xC9 + 16 * i = 0xC0 + 16 * i + 9 by omega, h.fieldAt_stage i 9 7 (by decide) (by decide), dif_pos (by omega),
        fieldAt_stageZero]
      rfl
    · rw [if_neg hin, hrec]
      intro hi'
      have hq := hlast (by omega)
      rw [show b.stages.length - 1 = i by omega, List.getElem?_eq_getElem hi'] at hq
      exact Option.some.inj hq

theorem Block.Fits.zeroOk_iff {b : Block} (h : b.Fits) : blockZeroOk b.image = true ↔ b.reservedOk := by
  obtain ⟨-, fpri, ffl, fnr, fns, -, -, -, -, -, -, -, fz, -, -, -, -, -, fms, -, -, ffp, fzs⟩ := h.fieldAt_header
  have hfp : b.fpctl.toNat < 2 ^ 32 := b.fpctl.isLt
  have hpri : nbits b.pri 7 5 = 0 := nbits_eq_zero_of_lt h.pri
  have hflags : nbits b.flags 15 9 = 0 := nbits_eq_zero_of_lt b.flags_lt
  have hmsiv : nbits b.msiv 15 11 = 0 := nbits_eq_zero_of_lt h.msiv
  have hhigh : nbits b.fpctl.toNat 31 10 = 0 ↔ b.fpctl.toNat < 1024 := by unfold nbits; omega
  have hmid : nbits b.fpctl.toNat 7 3 = b.fpctl.toNat / 8 % 32 := rfl
  have hz : zeroAt b.image 0x17 1 = true ∧ zeroAt b.image 0x48 0x38 = true := by rw [zeroAt, zeroAt, fz, fzs]; exact ⟨rfl, rfl⟩
  unfold blockZeroOk Block.reservedOk
  simp only [fpri, ffl, fnr, fns, fms, ffp, hz, hpri, hflags, hmsiv, hmid, h.roles_zero, h.stages_zero, hhigh, Bool.and_eq_true, beq_iff_eq,
    decide_eq_true_eq, and_self, true_and]
  constructor
  · exact fun ⟨⟨⟨hs, h10⟩, h3⟩, h5⟩ => ⟨h5, h3, h10, hs⟩
  · exact fun ⟨h5, h3, h10, hs⟩ => ⟨⟨⟨hs, h10⟩, h3⟩, h5⟩

/-- Counts, sizes and alignments (R81, R125). -/
def Block.geometryOk (b : Block) : Prop :=
  1 ≤ b.nrole ∧ b.nrole ≤ 4 ∧ b.nstage ≤ 4 ∧ 1 ≤ b.cw ∧ b.cw ≤ 6 ∧ 1 ≤ b.ch ∧ b.ch ≤ 4 ∧ b.cw * b.ch ≤ 12 ∧ 1 ≤ b.gx ∧ 1 ≤ b.gy ∧ 1 ≤ b.gz ∧
    b.gx * b.gy * b.gz < 2 ^ 32 ∧ b.cw ∣ b.gx ∧ b.ch ∣ b.gy ∧ b.scr ≤ 768 ∧ b.acc ≤ 16 ∧ 8 ∣ b.done.toNat ∧ 65536 ∣ b.spov.toNat ∧
    (b.spov ≠ 0 → b.spovlen ≠ 0) ∧ b.chres ≤ 64 ∧ 65536 ∣ b.save.toNat ∧
    (∀ r ∈ b.roles, 8 ∣ r.entry.toNat ∧ 1 ≤ r.regs ∧ r.regs ≤ 64 ∧ 1 ≤ r.ngrp ∧ r.ngrp ≤ 128 ∧ r.stg < max b.nstage 1) ∧
    ∀ q ∈ b.stages.dropLast, q.1 ≠ 0 ∧ 64 ∣ q.1.toNat ∧ q.2 ≤ 12

theorem Block.Fits.take_stages {b : Block} (h : b.Fits) (hn : b.nstage ≤ 4) : b.stages.take (b.nstages - 1) = b.stages.dropLast := by
  rw [List.dropLast_eq_take, h.stages, Nat.min_eq_left (by omega)]
  rfl

theorem Block.Fits.geometryOk_iff {b : Block} (h : b.Fits) : blockGeometryOk b = true ↔ b.geometryOk := by
  have hst : b.nstage ≤ 4 → ((∀ q ∈ b.stages.take (b.nstages - 1), q.1 ≠ 0 ∧ 64 ∣ q.1.toNat ∧ q.2 ≤ 12) ↔
      ∀ q ∈ b.stages.dropLast, q.1 ≠ 0 ∧ 64 ∣ q.1.toNat ∧ q.2 ≤ 12) := fun hn => by rw [h.take_stages hn]
  have hov : (b.spov = 0 ∨ b.spovlen ≠ 0) ↔ (b.spov ≠ 0 → b.spovlen ≠ 0) := or_iff_not_imp_left
  unfold blockGeometryOk Block.geometryOk
  simp only [Bool.and_eq_true, Bool.or_eq_true, decide_eq_true_eq, beq_iff_eq, List.all_eq_true, ← Nat.dvd_iff_mod_eq_zero, and_assoc, hov,
    show b.teams = b.gx * b.gy * b.gz from rfl, show b.nstages = max b.nstage 1 from rfl] at hst ⊢
  refine and_congr_right fun _ => and_congr_right fun _ => and_congr_right fun hn => ?_
  rw [hst hn]

/-- The groups and register units of a core (R83). -/
def Block.capacityOk (b : Block) : Prop :=
  (b.roles.map (·.ngrp)).sum + b.chres ≤ 128 ∧ (b.roles.map fun r => r.ngrp * r.regs).sum ≤ 1024

theorem Block.capacityOk_iff (b : Block) :
    ¬ b.capacityOk ↔ 128 < sumN (b.roles.map (·.ngrp)) + b.chres ∨ 1024 < sumN (b.roles.map fun r => r.ngrp * r.regs) := by
  rw [sumN_eq_sum, sumN_eq_sum, Block.capacityOk, not_and_or, Nat.not_le, Nat.not_le]

/-- The KiB that a team's state takes in its save slot (R84). -/
def Block.slotKiB (b : Block) : Nat :=
  4 + b.scr + 16 * b.acc + (b.roles.map fun r => r.ngrp * (1 + r.regs)).sum + if b.sxu then 512 else 0

theorem Block.slotBytes_eq (b : Block) : b.slotBytes = 65536 * ((b.slotKiB + 63) / 64) := by
  rw [Block.slotBytes, roundUp, sumN_eq_sum, ← Block.slotKiB]
  omega

/-- Room to save every team (R84). -/
def Block.saveOk (b : Block) : Prop :=
  b.save ≠ 0 ∧ b.gx * b.gy * b.gz * (64 * ((b.slotKiB + 63) / 64)) ≤ b.savelen * 64

theorem Block.saveOk_iff (b : Block) : ¬ b.saveOk ↔ b.save = 0 ∨ b.savelen * 65536 < b.teams * b.slotBytes := by
  have hmul : ∀ k, b.teams * (k * ((b.slotKiB + 63) / 64)) = k * (b.teams * ((b.slotKiB + 63) / 64)) := fun k => Nat.mul_left_comm _ _ _
  rw [Block.saveOk, not_and_or, not_not, b.slotBytes_eq, ← Block.teams, hmul, hmul]
  exact or_congr_right (by omega)

theorem Block.flagsOk_iff (b : Block) :
    ¬ ((b.reln = true → b.gang = true) ∧ (b.prot = true → b.sxu = false)) ↔ ((b.reln && !b.gang) || (b.prot && b.sxu)) = true := by
  rw [not_and_or]
  simp

/-- What the first of six checks that fails says of all of them. -/
theorem first_failure {a b c d e f a' b' c' d' e' f' : Prop} [Decidable a'] [Decidable b'] [Decidable c'] [Decidable d'] [Decidable e']
    [Decidable f'] (ha : a' ↔ ¬ a) (hb : b' ↔ ¬ b) (hc : c' ↔ ¬ c) (hd : d' ↔ ¬ d) (he : e' ↔ ¬ e) (hf : f' ↔ ¬ f) (detail : Nat) :
    let o := if a' then some 2 else if b' then some 3 else if c' then some 4 else if d' then some 5 else if e' then some 6
      else if f' then some 7 else none
    (o = none ↔ a ∧ b ∧ c ∧ d ∧ e ∧ f) ∧
    (o = some detail ↔ (detail = 2 ∧ ¬ a) ∨ (detail = 3 ∧ a ∧ ¬ b) ∨ (detail = 4 ∧ a ∧ b ∧ ¬ c) ∨ (detail = 5 ∧ a ∧ b ∧ c ∧ ¬ d) ∨
      (detail = 6 ∧ a ∧ b ∧ c ∧ d ∧ ¬ e) ∨ (detail = 7 ∧ a ∧ b ∧ c ∧ d ∧ e ∧ ¬ f)) := by
  intro o
  by_cases ga : a
  case neg => simp [o, ha.mpr ga, ga, eq_comm]
  have ka : ¬ a' := fun h => ha.mp h ga
  by_cases gb : b
  case neg => simp [o, ka, hb.mpr gb, ga, gb, eq_comm]
  have kb : ¬ b' := fun h => hb.mp h gb
  by_cases gc : c
  case neg => simp [o, ka, kb, hc.mpr gc, ga, gb, gc, eq_comm]
  have kc : ¬ c' := fun h => hc.mp h gc
  by_cases gd : d
  case neg => simp [o, ka, kb, kc, hd.mpr gd, ga, gb, gc, gd, eq_comm]
  have kd : ¬ d' := fun h => hd.mp h gd
  by_cases ge : e
  case neg => simp [o, ka, kb, kc, kd, he.mpr ge, ga, gb, gc, gd, ge, eq_comm]
  have ke : ¬ e' := fun h => he.mp h ge
  by_cases gf : f
  case neg => simp [o, ka, kb, kc, kd, ke, hf.mpr gf, ga, gb, gc, gd, ge, gf, eq_comm]
  have kf : ¬ f' := fun h => hf.mp h gf
  simp [o, ka, kb, kc, kd, ke, kf, ga, gb, gc, gd, ge, gf]

theorem checkBlock_version (pceil : Nat) (bs : List Byte) (h : fieldAt bs 0 1 ≠ 1) : checkBlock pceil bs = some 1 := if_pos h

theorem Block.Fits.checkBlock_image {b : Block} (h : b.Fits) (pceil : Nat) :
    checkBlock pceil b.image =
      if !blockZeroOk b.image then some 2
      else if pceil < b.pri ∨ 23 < b.pri then some 3
      else if !blockGeometryOk b then some 4
      else if 128 < sumN (b.roles.map (·.ngrp)) + b.chres ∨ 1024 < sumN (b.roles.map fun r => r.ngrp * r.regs) then some 5
      else if b.save = 0 ∨ b.savelen * 65536 < b.teams * b.slotBytes then some 6
      else if (b.reln && !b.gang) || (b.prot && b.sxu) then some 7
      else none := by
  obtain ⟨fver, -⟩ := h.fieldAt_header
  rw [checkBlock, fver, h.parseBlock_image, if_neg (by decide)]

theorem Block.Fits.check_iff {b : Block} (h : b.Fits) (pceil detail : Nat) :
    let o := checkBlock pceil b.image
    let priority := b.pri ≤ pceil ∧ b.pri ≤ 23
    let flags := (b.reln = true → b.gang = true) ∧ (b.prot = true → b.sxu = false)
    (o = none ↔ b.reservedOk ∧ priority ∧ b.geometryOk ∧ b.capacityOk ∧ b.saveOk ∧ flags) ∧
    (o = some detail ↔ (detail = 2 ∧ ¬ b.reservedOk) ∨ (detail = 3 ∧ b.reservedOk ∧ ¬ priority) ∨
      (detail = 4 ∧ b.reservedOk ∧ priority ∧ ¬ b.geometryOk) ∨ (detail = 5 ∧ b.reservedOk ∧ priority ∧ b.geometryOk ∧ ¬ b.capacityOk) ∨
      (detail = 6 ∧ b.reservedOk ∧ priority ∧ b.geometryOk ∧ b.capacityOk ∧ ¬ b.saveOk) ∨
      (detail = 7 ∧ b.reservedOk ∧ priority ∧ b.geometryOk ∧ b.capacityOk ∧ b.saveOk ∧ ¬ flags)) := by
  have hz : (!blockZeroOk b.image) = true ↔ ¬ b.reservedOk := by rw [Bool.not_eq_true', ← Bool.not_eq_true, h.zeroOk_iff]
  have hg : (!blockGeometryOk b) = true ↔ ¬ b.geometryOk := by rw [Bool.not_eq_true', ← Bool.not_eq_true, h.geometryOk_iff]
  have hp : pceil < b.pri ∨ 23 < b.pri ↔ ¬ (b.pri ≤ pceil ∧ b.pri ≤ 23) := by omega
  rw [h.checkBlock_image]
  exact first_failure hz hp hg b.capacityOk_iff.symm b.saveOk_iff.symm b.flagsOk_iff.symm detail

/-- Settles O51: the block that is read from its image is the block, so each check speaks of its fields. -/
theorem launchBlocks : Obligations.LaunchBlocks := by
  unfold Obligations.LaunchBlocks
  intro b pceil detail flag roleBytes stage pad image stages sum hpri hnstage hnrole hroles hstages hcw hch hgx hgy hgz hscr hacc hspovlen hchres hmsiv
    hsavelen hrole hstage
  have h : b.Fits :=
    ⟨hpri, hnstage, hnrole, hroles, hstages, hcw, hch, hgx, hgy, hgz, hscr, hacc, hspovlen, hchres, hmsiv, hsavelen, hrole, hstage⟩
  have himage : image = b.image := rfl
  obtain ⟨hnone, hsome⟩ := h.check_iff pceil detail
  rw [himage]
  refine ⟨h.length_image, h.parseBlock_image, b.slotBytes_eq, hnone, hsome, fun x hx => checkBlock_version _ _ fun hx1 => hx ?_⟩
  have hfirst : fieldAt (x :: b.image.tail) 0 1 = x.toNat := Nat.add_zero _
  exact BitVec.eq_of_toNat_eq (hfirst ▸ hx1)

end Sys2Proof.Machine
end

section
/-! SUPPORT. O49: a map of arrays that lists one core twice, as a write of KREQ finds it. -/
namespace Sys2Proof.Machine

/-- An SXRUN of team 2, launch 1, in the middle of a sweep. -/
def sweepingRun : SxOp :=
  { id := 0, team := 2, launch := 1, kind := .run 1 0 0 0 1 0 false 0, bar := none, inSweep := true }

/-- Context 0 runs launches 0 and 1 with teams 1 and 2, and the map of arrays lists core 0 for both: its array reads as that of team 1. The host
sets KREQ. -/
def crossedArrays : State :=
  { State.reset with
    input := .ctxWrite 0 0 5, ctxs := [(0, { en := true })], recs := [(0, { st := .running }), (1, { st := .running })]
    teams := [(1, some { task := { lrec := 0 } }), (2, some { task := { lrec := 1 } })]
    arrays := [(0, { team := some 1 }), (0, { team := some 2, ops := [sweepingRun] })] }

theorem crossedArrays_calls (i : Nat) : (crossedArrays.ctx i).svcs = [] := by
  unfold State.ctx crossedArrays Sparse.get
  split <;> rfl

/-- With launch 0 goes the entry that hides the array of team 2: the sweep there keeps team 2 on its core. -/
theorem crossedArrays_killed :
    let t := crossedArrays.writeControl 0 5
    t.groups = [] ∧ t.team 2 = some { task := { lrec := 1 } } ∧ crossedArrays.enginesOver 2 { task := { lrec := 1 } } = true := ⟨rfl, rfl, rfl⟩

/-- Refutes O49: the statement lets a team of a killed launch stay only for a group, or for an engine that is at work in the state before, and
asks of the maps of contexts, records, groups and teams that they be canonical, but not of the map of arrays. Where that lists a core twice, the
end of one launch uncovers a running array for the next. -/
theorem not_contextRegisters : ¬ Obligations.ContextRegisters := by
  unfold Obligations.ContextRegisters
  intro h
  obtain ⟨hcontrol, -⟩ := h crossedArrays 0 0 5 (by decide) rfl
  obtain ⟨-, -, -, -, -, hkill⟩ := hcontrol rfl rfl
  obtain ⟨t, hexec, -, -, -, -, hended, -⟩ := hkill rfl rfl rfl rfl rfl rfl rfl crossedArrays_calls (fun _ _ _ _ hg => nomatch hg)
  obtain ⟨hgroups, hteam, hover⟩ := crossedArrays_killed
  have ht : crossedArrays.writeControl 0 5 = t := Host.Outcome.next.inj hexec
  rw [ht] at hgroups hteam
  obtain ⟨-, -, -, -, -, -, hteams⟩ := hended 1 rfl (.inr rfl)
  rcases hteams 2 _ hteam rfl with ⟨gid, g, hg, -⟩ | hbusy
  · rw [State.group, hgroups] at hg
    exact nomatch hg
  · exact absurd (hover.symm.trans hbusy) Bool.noConfusion

end Sys2Proof.Machine
end

section
/-! SUPPORT. O50: a map of teams that lists one team twice, as the reject of a report finds it. -/
namespace Sys2Proof.Machine

/-- A fill of scratch memory by team 1, one unit in (R239, R291). -/
def startedFill : Copy :=
  { quad := none, core := 0, ctx := 0, launch := 0, gid := 1, lane := 0, batch := 0, team := 1, owner := 1, kind := .fill false 0 0 0, pos := 1 }

/-- A group of launch 0 whose lane 0, in handler mode, is parked on report 0. -/
def parkedHandler : Group := { lanes := [(0, { st := .parked, park := .report 0, handler := true })] }

/-- The map of teams lists team 1 twice, first as one of launch 1, then as one of launch 0, and the core's copy engine is at work for it. The
host rejects report 0. -/
def crossedTeams : State :=
  { State.reset with
    input := .ctxWrite 0 0 0x200000000, ctxs := [(0, { reports := [(0, some { rid := some 0 })] })], recs := [(0, { st := .running })]
    groups := [(0, some parkedHandler)], teams := [(1, some { task := { lrec := 1 } }), (1, some {})], copies := [(0, some startedFill)] }

/-- The launch waits for the copy, but the team that reads under its number is the other launch's. -/
theorem crossedTeams_rejected :
    let t := crossedTeams.writeVerdict 0 true 0x200000000
    t.groups = [] ∧ t.teams = [(1, some { task := { lrec := 1 } }), (1, some {})] ∧ (t.rcd 0).st = .ending := ⟨rfl, rfl, rfl⟩

theorem crossedTeams_lrec (u : Nat) (w : Team) (h : Sparse.get none [(1, some { task := { lrec := 1 } }), (1, some ({} : Team))] u = some w) :
    w.task.lrec ≠ 0 := by
  unfold Sparse.get at h
  split at h
  · rw [← Option.some.inj h]
    exact Nat.one_ne_zero
  · rename_i hu
    rw [Sparse.get, if_neg hu] at h
    exact nomatch h

/-- Refutes O50: when a report of a lane in handler mode is rejected, the statement has a launch that is still ending hold a group or a team,
and does not ask that the map of teams be canonical. Where that lists a team twice, the entry that the launch waits for cannot be read. -/
theorem not_registerWrites : ¬ Obligations.RegisterWrites := by
  unfold Obligations.RegisterWrites
  rintro ⟨hverdict, -⟩
  obtain ⟨-, -, hknown, -⟩ := hverdict crossedTeams 0 0 0x200000000 (by decide) rfl
  obtain ⟨-, -, hhandler⟩ := hknown 0 ⟨_, List.mem_singleton.mpr rfl, rfl, fun i r hi _ => (Prod.mk.inj (List.mem_singleton.mp hi)).1⟩ rfl rfl
  obtain ⟨t, hexec, -, -, -, hend, -⟩ := hhandler rfl 0 parkedHandler 0 rfl rfl rfl (by decide) rfl rfl
  obtain ⟨hgroups, hteams, hst⟩ := crossedTeams_rejected
  have ht : crossedTeams.writeVerdict 0 true 0x200000000 = t := Host.Outcome.next.inj hexec
  rw [ht] at hgroups hteams hst
  rcases hend with ⟨-, hgroup | ⟨u, w, hw, hlrec⟩⟩ | ⟨hstamped, -⟩
  · rw [State.group, hgroups] at hgroup
    exact hgroup rfl
  · rw [State.team, hteams] at hw
    exact crossedTeams_lrec u w hw hlrec
  · exact nomatch hst.symm.trans hstamped

end Sys2Proof.Machine
end

section
/-! SUPPORT. O52: the ticket counter of section 15 under DETR, which passes with its team (R110). -/
namespace Sys2Proof.Machine

/-- A launch under DETR one of whose records has retired, and whose counter of section 15 has reached its SEQ. -/
def detrOwed : State := { State.reset with recs := [(0, { blk := { detr := true }, owed := [(15, 0)] })] }

theorem detrOwed_passed : ((detrOwed.ticketSkip 0 0 15).rcd 0).skipped = [] := rfl

/-- Refutes O52: under DETR the counter of section 15 passes with its team, and not as SKIPPED (R110), while the statement has every counter that
is passed for a retired record marked SKIPPED. -/
theorem not_launchLife : ¬ Obligations.LaunchLife := by
  unfold Obligations.LaunchLife
  rintro ⟨-, -, -, hskip, -⟩
  obtain ⟨-, hdue⟩ := hskip detrOwed 0 0 15
  obtain ⟨t, hexec, -, hrec, -⟩ := hdue (List.mem_singleton.mpr rfl) rfl
  have ht : detrOwed.ticketSkip 0 0 15 = t := Host.Outcome.next.inj hexec
  have hskipped : (t.rcd 0).skipped = [] := ht ▸ detrOwed_passed
  rw [hrec] at hskipped
  exact List.cons_ne_nil _ _ hskipped

end Sys2Proof.Machine
end

section
/-! SUPPORT. O36: a group whose own launch record is free launches into that record while KREQ is set. -/
namespace Sys2Proof.Machine

open Sys2Proof.Safety

/-- The bytes that differ from 0 in a block of one team of one group (R81). -/
def loneBlock : List Host.Cell :=
  [(0, 1), (4, 1), (5, 1), (6, 1), (7, 1), (8, 1), (0xC, 1), (0x10, 1), (0x3A, 1), (0x40, 1), (0x88, 1), (0x89, 1)]

/-- One lane, at the word being issued. -/
def strayGroup : Group := { launch := 0, core := 0, budget := 64, lanes := [(0, { st := .eligible, pc := 0x10000 })] }

def strayLeaf : Leaf := { pa := 0, level := 4, w := true, x := true, wp := true, lvl := 2, fmt := 0, pl := 0, blk := 0 }

/-- Record 0 is free, and group 2 still names it as its launch; context 0 has KREQ set, and a launch block stands at virtual address 0. -/
def strayLaunch : State :=
  { State.reset with
    cur := { gid := 2, pc := 0x10000, lanes := 1, len := 8 }, ctxs := [(0, { kreq := true })], groups := [(2, some strayGroup)]
    mem := loneBlock, tlb := [(0, some strayLeaf)] }

/-- A word without a guard. -/
def plainHdr : Hdr := { gp := 7, gn := false, stall := 1, ret := 0 }

/-- The block that stands there, and the state once it has been read. -/
def strayBlock : List Byte := strayLaunch.cells 0 256
def strayRead : State := ((numbered strayLaunch).readGlobal true strayGroup 2 0 256 4).2

/-- One lane runs the word, and nothing holds it. -/
theorem strayLaunch_still : lanesOf (active strayLaunch strayGroup plainHdr) = [0] ∧ Still strayLaunch strayGroup plainHdr ∧
    strayLaunch.clean strayGroup.core (strayLaunch.ctxOf strayGroup) = true :=
  ⟨by decide, ⟨rfl, fun _ _ => ⟨rfl, rfl⟩⟩, rfl⟩

theorem strayLaunch_ready : WordReady strayLaunch strayGroup plainHdr (.launch plainHdr false 4 511) :=
  ⟨rfl, by decide, by decide, by decide, rfl⟩

/-- The block is read at once. -/
theorem strayLaunch_reads : (strayLaunch.readGlobal false strayGroup 2 0 256 4).1 = .bytes strayBlock ∧
    (numbered strayLaunch).readGlobal true strayGroup 2 0 256 4 = (.bytes strayBlock, strayRead) := by
  refine ⟨by decide +kernel, Prod.ext ?_ rfl⟩
  decide +kernel

/-- It passes its checks, and KREQ ends the launch that it has become: the groups of record 0 leave, the launching one among them. -/
theorem strayRead_taken : (strayRead.rcd 0).st = .free ∧ (strayRead.takeBlock 0 0 none strayBlock).group 2 = none := by
  decide +kernel

/-- Refutes O36: the statement does not ask that the record of the group's own launch be in use. Where it is the lowest free one, the block
enters it, and with KREQ set (R76) the launch ends at once and takes the group along: no lane is left to receive the handle. -/
theorem not_launchesAndRecords : ¬ Obligations.LaunchesAndRecords := by
  unfold Obligations.LaunchesAndRecords
  intro h
  obtain ⟨hlanes, hstill, hclean⟩ := strayLaunch_still
  obtain ⟨hlaunch, -⟩ := h plainHdr false .dev 4 511 strayLaunch strayGroup 0 hlanes hstill rfl hclean rfl
  obtain ⟨-, -, hgives⟩ := hlaunch strayLaunch_ready
  obtain ⟨hready, hread⟩ := strayLaunch_reads
  obtain ⟨hfree, hgone⟩ := strayRead_taken
  obtain ⟨gm, -, hgroup, -⟩ := hgives rfl (by decide) strayBlock strayRead hready hread 0 (by decide) hfree (fun _ hq => absurd hq (Nat.not_lt_zero _))
  exact nomatch hgone.symm.trans hgroup

end Sys2Proof.Machine
end

section
/-! SUPPORT. How a memory word issues and ends, whatever it does after its lanes, and an access that finds its page: the rules that the waiting
words, the words of work and the fetch share (R146, R147, R186, R200). -/
namespace Sys2Proof.Machine

open Sys2Proof.Safety

/-! ### With nothing on its way (R198, R200) -/

theorem listed_nil {α : Type} : listed ([] : Sparse (Option α)) = [] := rfl

theorem threadTxns_none (s : State) (gid l : Nat) (h : s.txns = []) : s.threadTxns gid l = [] := by
  simp [State.threadTxns, h, listed_nil]

theorem coreWrites_none (s : State) (core k : Nat) (h : s.txns = []) : s.coreWrites core k = [] := by
  simp [State.coreWrites, h, listed_nil]

theorem cleanTo_of_clean (s : State) (core k b : Nat) (h : s.clean core k = true) : s.cleanTo core k b = true := by
  simp only [State.clean, Bool.and_eq_true, List.isEmpty_iff, Bool.not_eq_true', List.any_eq_false] at h
  simp only [State.cleanTo, h.1, List.any_nil, Bool.not_false, Bool.true_and, Bool.not_eq_true', List.any_eq_false]
  intro p hp hc
  simp only [Bool.and_eq_true] at hc
  exact h.2 p hp hc.1

/-- A release below system scope waits for nothing where nothing is on its way and nothing is dirty. -/
theorem released_calm (s : State) (gid l core k : Nat) (sc : Scope) (ht : s.txns = []) (hc : s.clean core k = true) (hs : sc ≠ .sys) :
    s.released gid l core k sc false = true := by
  have hsc : (sc != .sys) = true := by simpa using hs
  simp [State.released, threadTxns_none s gid l ht, coreWrites_none s core k ht, cleanTo_of_clean s core k _ hc, hsc]

/-- A word whose lanes release before it acts is ready where those lanes find nothing to wait for. -/
theorem relOps_ready (o : WordOps) (sc : Scope) (on : Ctl → Nat → State → Bool) (s : State) (c : Ctl) (hs : sc ≠ .sys)
    (ho : o.ready c s = true) (hc : ∀ l, on c l s = true → s.txns = [] ∧ s.clean c.g.core (s.ctxOf c.g) = true) :
    (relOps o sc false on).ready c s = true := by
  simp only [relOps, ho, Bool.true_and, List.all_eq_true, Bool.or_eq_true, Bool.not_eq_true']
  intro l _
  cases hon : on c l s
  · exact .inl rfl
  · exact .inr (released_calm s c.gid l c.g.core _ sc (hc l hon).1 (hc l hon).2 hs)

/-! ### A memory word, to its end -/

/-- What a word does in a lane, as the model has it. -/
def asLane (r : Does × State) : LaneRes × State := (resOf r.1, r.2)

/-- A memory word that may run: its lanes run, or the lowest one for a word that runs once, its group takes the results, and what the word
does after its lanes follows. -/
theorem issueMem_ends {s : State} {g : Group} {h : Hdr} {i : Instr} (hr : WordReady s g h i) (hst : Still s g h) (o : WordOps)
    (body : Ctl → Nat → State → LaneRes × State) (hm : o.mem = true) (hu : o.u = false) (hs : o.sync = false)
    (hrd : o.ready (readyCtl s g h false) s = true) :
    s.issueWord h.gp.toNat h.gn h.stall.toNat (instrUses i) o body =
      let c := { readyCtl s g h false with word := s.next }
      let q := runLanes (body c) (if o.once then (lanesOf (active s g h)).take 1 else lanesOf (active s g h)) (numbered s)
      o.fin c (q.2.finishWord g c s.cur.lanes h.stall.toNat (instrUses i) o (c.spread o q.1)) := by
  have hview : g.view s.free s.cur.gid = g := by simp [Group.view, hr.met]
  have hlock : ∀ b : Bool, s.interlocked s.cur.gid g (if b then lanes32 else lanesOf s.cur.lanes) (instrUses i) h.gp.toNat = false := by
    intro b; cases b
    · exact interlocked_mono _ lanesOf_lt hr.clear
    · exact hr.clear
  have hshort : ∀ rs, g.short rs = false := by simp [Group.short, hr.met]
  have hpriv : ((instrUses i).priv && !(lanesOf s.cur.lanes).all fun l => (g.lane l).handler) = false := by
    cases hp : (instrUses i).priv
    · rfl
    · simpa [hp] using hr.mode hp
  have hz : g.hazards.isEmpty = true := by simp [hr.met]
  have hnil : ∀ (ls : List Nat) (p : Nat → List (Nat × Nat × Nat)), ls.filter (fun l => g.short (p l)) = [] := by
    intro ls p; simp [hshort]
  have h0 : lanesOf 0#32 = [] := by decide
  have hall : ∀ m : BitVec 32, m &&& 4294967295#32 = m := fun m => BitVec.and_allOnes
  have hpend : ((lanesOf (active s g h)).any fun l => s.acqPending s.cur.gid l || s.replyPending s.cur.gid l) = false := by
    rw [List.any_eq_false]
    intro l hl
    simp [hst.2 l (mem_lanesOf.mp hl).2]
  have hgl : guardLanes g s.cur.lanes h.gp.toNat h.gn = active s g h := rfl
  simp only [State.issueWord, hr.here, hr.budget, hpriv, hlock, hview, hnil, hz, hm, hs, hu, hgl, maskOf_nil]
  cases hb : (s.rcd g.launch).blk.sbchk <;>
    simp [hpend, hst.1, readyCtl, hall, Ctl.runners, Ctl.spread, numbered, hm] at hrd ⊢ <;>
    simp [hrd, h0]

/-- A group after a word, beside its lanes: the bookkeeping of issue (R148, R314) and the end of trap handling (R151). -/
def Group.issued (gm : Group) (s : State) (rot : Bool) (clk stall : Nat) (lanes : Sparse Lane) (hazards : List Hazard) (handling : Bool) : Group :=
  { gm with lanes := lanes, hazards := hazards, handling := handling, floor := if rot then some s.cur.pc else none
            mask := if rot then s.cur.lanes else 0, readyAt := Nat.max gm.readyAt (clk + Nat.max stall 1), lastIssue := clk, behind := none }

/-- Does the word park a lane of the list? -/
def parksAny (d : Nat → Does) (ls : List Nat) : Bool := ls.any fun l => match d l with | .parks _ => true | _ => false

/-- What the lanes of a word make of their group: each active lane as `d` says, the others past the word, and the bookkeeping of issue. A word
that runs once gives no registers here. -/
theorem finishWord_does {s s2 : State} {gm : Group} (before : Group) (c : Ctl) (stall : Nat) (u : Uses) (o : WordOps) (ls : List Nat)
    (d : Nat → Does) (hc : c.gid = s.cur.gid ∧ c.pc = s.cur.pc ∧ c.len = s.cur.len) (hg : s2.group s.cur.gid = some gm) (hn : ls.Nodup)
    (hls : ∀ l ∈ ls, l < 32 ∧ s.cur.lanes.getLsbD l = true) (hld : u.landing = false)
    (honce : o.once = true → ∀ l ∈ ls, (resOf (d l)).regs = [])
    (htr : ∀ l ∈ ls, ∀ code acc addr, d l = .traps code acc addr → (gm.lane l).handler = false) :
    ∃ lanes hazards handling, let g' := gm.issued s o.rot s2.clk stall lanes hazards handling
      s2.finishWord before c s.cur.lanes stall u o (ls.map fun l => (l, resOf (d l))) =
        (if parksAny d ls then { s2 with next := s2.next + 1 } else s2).setGroup s.cur.gid g' ∧
      ∀ l, l < 32 → g'.lane l = if s.cur.lanes.getLsbD l then
          if l ∈ ls then (d l).lane s s2.next (gm.lane l) else { gm.lane l with pc := s.cur.pc + BitVec.ofNat 64 s.cur.len }
        else gm.lane l := by
  obtain ⟨hgid, hpc, hlen⟩ := hc
  let rs := ls.map fun l => (l, resOf (d l))
  let g1 := gm.afterWord before c s.cur.lanes stall u o s2.clk s2.next rs
  let s3 : State := if parksAny d ls then { s2 with next := s2.next + 1 } else s2
  have hnoRegs : ∀ l ∈ ls, (if o.once then (resOf (d l)).noRegs else resOf (d l)) = resOf (d l) := by
    intro l hl
    cases ho : o.once
    · rfl
    · have := honce ho l hl
      cases hd : resOf (d l) <;> simp_all [LaneRes.noRegs, LaneRes.regs]
  have hfirst : ∀ g : Group, (if o.once && !u.landing then g.setGrs (firstRegs rs) else g) = g := by
    intro g
    cases ho : o.once
    · rfl
    · cases ls with
      | nil => simp [rs, firstRegs, Group.setGrs]
      | cons l ls => simp [rs, firstRegs, honce ho l (by simp), Group.setGrs]
  have hg1 : g1 = gm.issued s o.rot s2.clk stall g1.lanes g1.hazards gm.handling := by
    obtain ⟨hgg, hgl, hgf⟩ := afterWord_group gm before c s.cur.lanes stall u o s2.clk s2.next rs
    rw [hfirst] at hgg
    rw [hld, if_neg Bool.false_ne_true] at hgl
    rw [hgg, hgl] at hgf
    refine hgf.trans ?_
    simp only [Group.issued, ← hpc]
    rfl
  have hfind : ∀ l, rs.find? (fun r => r.1 == l) = if l ∈ ls then some (l, resOf (d l)) else none :=
    fun l => find_map_lane (fun l => resOf (d l)) _ l
  have hlane : ∀ l, l < 32 → g1.lane l = if s.cur.lanes.getLsbD l then
      if l ∈ ls then (gm.lane l).after c.pc c.len false s2.next (resOf (d l)) else { gm.lane l with pc := c.pc + BitVec.ofNat 64 c.len }
      else gm.lane l := by
    intro l hl
    have hfold := (foldLanes s.cur.lanes (c.laneAfter u o s2.next rs) lanes32 lanes32_nodup gm).1 l
    simp only [mem_lanes32, hl, true_and] at hfold
    have hsame : g1.lane l = if s.cur.lanes.getLsbD l then c.laneAfter u o s2.next rs l (gm.lane l) else gm.lane l := by
      rw [← hfold]
      simp only [g1, Group.afterWord, hfirst]
      rfl
    rw [hsame]
    by_cases hm : l ∈ ls
    · simp only [Ctl.laneAfter, hfind, hm, ↓reduceIte, hnoRegs l hm, hld]
    · simp only [Ctl.laneAfter, hfind, hm, ↓reduceIte]
  have hhand : ∀ l, (g1.endHandling).lane l = g1.lane l := by
    intro l; rw [endHandling_same]; rfl
  obtain ⟨g', hfaults, hsame, hlanes⟩ := wordFaults_does ls hn d s3 s.cur.gid g1.endHandling (by
    intro l hl code acc addr hd
    rw [hhand, hlane l (hls l hl).1, if_pos (hls l hl).2, if_pos hl, hd]
    exact htr l hl code acc addr hd)
  have hparks : (rs.any fun r => r.2.parks) = parksAny d ls := by
    simp only [rs, parksAny, List.any_map]
    congr 1; funext l
    simp only [Function.comp_apply]
    cases hd : d l <;> rfl
  have hg' : g' = gm.issued s o.rot s2.clk stall g'.lanes g1.hazards g1.endHandling.handling := by
    rw [hsame, endHandling_same g1, hg1]
    rfl
  refine ⟨g'.lanes, g1.hazards, g1.endHandling.handling, ?_⟩
  rw [← hg']
  refine ⟨?_, fun l hl => ?_⟩
  · simp only [State.finishWord, hgid, hg]
    rw [hparks]
    exact hfaults
  · rw [hlanes, hhand, hlane l hl]
    by_cases hm : l ∈ ls
    · simp only [hm, ↓reduceIte, (hls l hm).2]
      cases hd : d l <;> simp [resOf, doneOf, Does.lane, Lane.after, hpc, hlen, Results.into]
    · simp only [hm, ↓reduceIte, hpc, hlen]

/-! ### A page that the core's TLB holds (R23, R186) -/

/-- An access of n bytes at va goes, without a walk, to cell c of this device's memory: the core's TLB holds its page, whose leaf allows it. -/
structure PageHeld (s : State) (core k va n : Nat) (acc : Acc) (leaf : Leaf) (c : Nat) : Prop where
  below : va < windowBase
  writable : acc.writes = true → leaf.w = true
  runs : acc = .fetch → leaf.x = true
  held : s.tlbAt core k va = some leaf
  cell : s.target k n acc (leaf.phys va) = .ok (.cell, c)

/-- The leaf as an access takes it: no cache holds a frame outside every view (R23). -/
def viewLeaf (s : State) (leaf : Leaf) (va : Nat) : Leaf :=
  if (s.viewOf (leaf.phys va)).isSome then leaf else { leaf with wp := false, lvl := 0 }

theorem viewLeaf_level (s : State) (leaf : Leaf) (va : Nat) : (viewLeaf s leaf va).level = leaf.level := by
  unfold viewLeaf; split <;> rfl

theorem viewLeaf_lvl (s : State) (leaf : Leaf) (va : Nat) :
    (viewLeaf s leaf va).lvl = if (s.viewOf (leaf.phys va)).isSome then leaf.lvl else 0 := by
  unfold viewLeaf; split <;> rfl

theorem viewLeaf_w (s : State) (leaf : Leaf) (va : Nat) : (viewLeaf s leaf va).w = leaf.w := by
  unfold viewLeaf; split <;> rfl

theorem viewLeaf_x (s : State) (leaf : Leaf) (va : Nat) : (viewLeaf s leaf va).x = leaf.x := by
  unfold viewLeaf; split <;> rfl

section
variable {s : State} {core k va n : Nat} {acc : Acc} {leaf : Leaf} {c : Nat} (hb : PageHeld s core k va n acc leaf c)
include hb

theorem PageHeld.found : s.tlbFind core k va = some leaf := by rw [State.tlbFind, hb.held]

theorem PageHeld.below57 : ¬ (2 ^ 57 ≤ va ∨ windowBase ≤ va) := by
  have := hb.below
  simp only [windowBase] at *
  omega

theorem PageHeld.check : s.check core k va n acc = .ok (viewLeaf s leaf va) .cell c := by
  rw [State.check, if_neg hb.below57, State.translate, hb.found]
  dsimp only
  rw [hb.cell]
  dsimp only
  rw [show (if (s.viewOf (leaf.phys va)).isSome = true then leaf else { leaf with wp := false, lvl := 0 }) = viewLeaf s leaf va from rfl,
    viewLeaf_w, viewLeaf_x]
  have hw : (acc.writes && !leaf.w) = false := by
    cases ha : acc.writes
    · rfl
    · simp [hb.writable ha]
  have hx : (decide (acc = .fetch) && !leaf.x) = false := by
    by_cases ha : acc = .fetch
    · simp [hb.runs ha]
    · simp [ha]
  rw [hw, hx]
  rfl

/-- The check walks nothing and fills nothing. -/
theorem PageHeld.checkFor (g : Group) (gid l : Nat) (hcore : g.core = core) (hk : (s.rcd g.launch).ctx = k) :
    s.checkFor g gid l va n acc = (.ok (viewLeaf s leaf va) .cell c, s) := by
  subst hcore hk
  have hrecall : s.checkRecall g.core (s.rcd g.launch).ctx va n acc 12 = (.ok (viewLeaf s leaf va) .cell c, s) := by
    rw [State.checkRecall, hb.check]
    dsimp only
    rw [if_neg hb.below57, State.countWalk, hb.found]
    rfl
  rw [State.checkFor]
  dsimp only
  rw [hrecall]
  dsimp only
  rw [State.fillTlb, hb.held]
  rfl
end
end Sys2Proof.Machine
end

section
/-! SUPPORT. O37: work lists, tickets, SETPRI and QUIET (R104, R107, R108, R421 to R424). -/
namespace Sys2Proof.Machine

open Sys2Proof.Safety

/-! ### Groups stay where they are -/

/-- A group that is there stays there. -/
def KeepsGroup (gid : Nat) (s t : State) : Prop := (s.group gid).isSome = true → (t.group gid).isSome = true

theorem keepsGroup_setGroup (gid k : Nat) (s : State) (g : Group) : KeepsGroup gid s (s.setGroup k g) := by
  intro h
  rw [group_setGroup]
  split
  · rfl
  · exact h

theorem keepsGroup_foldl {α : Type} (gid : Nat) (f : State → α → State) (hf : ∀ s a, KeepsGroup gid s (f s a)) (l : List α) (s : State) :
    KeepsGroup gid s (l.foldl f s) :=
  foldl_rel (KeepsGroup gid) (fun _ => id) (fun _ _ _ a b h => b (a h)) f l (fun s a _ => hf s a) s

theorem keepsGroup_readyWhere (gid : Nat) (s : State) (f : Group → Park → Bool) : KeepsGroup gid s (s.readyWhere f) := by
  refine keepsGroup_foldl gid _ (fun t p => ?_) _ s
  split
  · split
    · exact keepsGroup_setGroup _ _ _ _
    · exact id
  · exact id

theorem keepsGroup_quietItems (gid : Nat) (s : State) (r : Nat) : KeepsGroup gid s (s.quietItems r) := by
  refine keepsGroup_foldl gid _ (fun t p => ?_) _ s
  split
  · exact keepsGroup_setGroup _ _ _ _
  · exact id

/-! ### Work lists (R104, R421) -/

/-- What WLAPPEND does in a lane: list i takes item x, or the lane waits for room. -/
def appendDoes (r i : Nat) (x : DWord) (s : State) : Does × State :=
  if 192 ≤ i ∧ i ≠ 255 then (.traps 0x22 0 0, s)
  else if 65536 ≤ ((s.rcd r).lists.map fun p => p.2.length).sum then (.parks .listFull, s)
  else (noResults, (s.setRec r { s.rcd r with lists := Sparse.set [] (s.rcd r).lists (s.listOf i) (Sparse.get [] (s.rcd r).lists (s.listOf i) ++ [x]) }).quietItems r)

theorem listOf_works (s : State) (i : Nat) :
    s.listOf i = if i < 192 ∧ (s.die (i / 24)).st = .online ∧ (s.die (i / 24)).offl.getLsbD (i % 24) = false then i else 255 := by
  unfold State.listOf
  by_cases h : i < 192 <;> simp [h]

theorem keepsGroup_appendDoes (gid r i : Nat) (x : DWord) (s : State) : KeepsGroup gid s (appendDoes r i x s).2 := by
  unfold appendDoes
  split
  · exact id
  · split
    · exact id
    · exact fun h => keepsGroup_quietItems gid _ r h

theorem wlappend_seq (h : Hdr) (onG : Bool) (a c : RegIx) :
    SeqWord (.wlappend h onG a c) h (fun s g => s.txns = [] ∧ s.clean g.core (s.ctxOf g) = true)
      (fun _ g l s => appendDoes g.launch ((envOf false g l).a32 onG a).toNat ((g.lane l).reg64 c.toNat) s) := by
  refine seqWord_intro _ _ _ _ (fun _ => rfl) (fun s g _ _ l _ s' => ?_) rfl rfl rfl rfl (fun s g _ _ hcalm => ?_) rfl (by cases onG <;> rfl)
    (fun _ _ _ _ _ => keepsGroup_appendDoes _ _ _ _ _)
  · show _ = asLane (appendDoes _ _ _ s')
    simp only [appendDoes, apply_ite asLane, ← sumN_eq_sum]
    rfl
  · exact relOps_ready { mem := true } .dev _ s _ (by decide) rfl fun _ _ => hcalm

/-- What WLTAKE does: the head of the core's own list, or of the shared one, or nothing. -/
def takeDoes (r core d p : Nat) (s : State) : Does × State :=
  let take := fun (i : Nat) (x : DWord) (xs : List DWord) =>
    (Does.takes (pairW d 511 x, [(p, true)], 0),
      (s.setRec r { s.rcd r with lists := Sparse.set [] (s.rcd r).lists i xs }).readyWhere fun g k => g.launch == r && k == .listFull)
  match Sparse.get ([] : List DWord) (s.rcd r).lists core, Sparse.get ([] : List DWord) (s.rcd r).lists 255 with
  | x :: xs, _ => take core x xs
  | [], x :: xs => take 255 x xs
  | [], [] => (.takes ([], [(p, false)], 0), s)

theorem wltake_seq (h : Hdr) (pd : BitVec 3) (d : RegIx) :
    SeqWord (.wltake h pd d) h (fun _ _ => True) (fun _ g _ s => takeDoes g.launch g.core d.toNat pd.toNat s) := by
  refine seqWord_intro _ _ _ _ (fun _ => rfl) (fun s g _ _ l _ s' => ?_) rfl rfl rfl rfl (fun _ _ _ _ _ => rfl) rfl rfl (fun s g _ l s' hs => ?_)
  · show _ = asLane (takeDoes g.launch g.core d.toNat pd.toNat s')
    simp only [takeDoes, readyCtl]
    cases Sparse.get [] (s'.rcd g.launch).lists g.core with
    | cons x xs => rfl
    | nil =>
      cases Sparse.get [] (s'.rcd g.launch).lists 255 with
      | cons x xs => rfl
      | nil => rfl
  · simp only [takeDoes]
    split
    · exact keepsGroup_readyWhere _ _ _ hs
    · exact keepsGroup_readyWhere _ _ _ hs
    · exact hs

/-! ### Tickets (R108, R422) -/

/-- A ticket word in a lane: its section must be one of its team's stage, and `f` acts on the counter's key and value and on the ticket. -/
def ticketDoes (g : Group) (l : Nat) (q : Option RegIx) (n : Kind) (s : State) (f : Nat → Nat → Nat → Does × State) : Does × State :=
  match g.team.bind s.team with
  | none => (.traps 0x22 0 0, s)
  | some t =>
    let k := ((envOf false g l).kind n).toNat
    if 15 < k ∨ (k = 15 ∧ (s.rcd g.launch).blk.detr = true) then (.traps 0x22 0 0, s)
    else f (t.task.stg * 16 + k) (Sparse.get 0 (s.rcd g.launch).tickets (t.task.stg * 16 + k))
      (match q with | some r => ((g.lane l).reg r.toNat).toNat | none => t.task.seq.toNat)

/-- What the arguments of a ticket word come to, and what the word then does. -/
theorem ticketArgs_does (s s' : State) (g : Group) (h : Hdr) (l : Nat) (q : Option RegIx) (n : Kind) (word : Nat)
    (body : Nat → Nat → Nat → LaneRes × State) (f : Nat → Nat → Nat → Does × State)
    (hf : ∀ stg sec t, body stg sec t = asLane (f (ticketKey stg sec) ((s'.rcd g.launch).ticket stg sec) t)) :
    (match s'.ticketArgs { readyCtl s g h false with word := word } l q n with
      | .error r => (r, s')
      | .ok (stg, sec, t) => body stg sec t) = asLane (ticketDoes g l q n s' f) := by
  unfold State.ticketArgs ticketDoes
  simp only [readyCtl]
  cases g.team with
  | none => rfl
  | some u =>
    simp only [Option.bind_some]
    cases s'.team u with
    | none => rfl
    | some t =>
      have hk : Env.kind ({ readyCtl s g h false with word := word }.env l) n = (envOf false g l).kind n := rfl
      simp only [readyCtl] at hk
      simp only [hk]
      generalize ((envOf false g l).kind n).toNat = k
      by_cases hc : 15 < k ∨ (k = 15 ∧ (s'.rcd g.launch).blk.detr = true)
      · rw [if_pos hc, if_pos hc]; rfl
      · rw [if_neg hc, if_neg hc]; exact hf _ _ _

theorem keepsGroup_ticketDoes (gid : Nat) (g : Group) (l : Nat) (q : Option RegIx) (n : Kind) (s : State) (f : Nat → Nat → Nat → Does × State)
    (hf : ∀ k v t, KeepsGroup gid s (f k v t).2) : KeepsGroup gid s (ticketDoes g l q n s f).2 := by
  unfold ticketDoes
  split
  · exact id
  · simp only
    split
    · exact id
    · exact hf _ _ _

/-- TKWAIT on a counter that reads v: the lane waits for its ticket, has it, or comes too late. -/
def waitTicket (r d : Nat) (s : State) (key v t : Nat) : Does × State :=
  if v < t then (.parks (.ticket key t), s)
  else if t < v then (.takes ([(d, 2)], [], 0), s)
  else (.takes ([(d, if Sparse.get false (s.rcd r).skipped key then 1 else 0)], [], 0), s)

/-- TKPASS on a counter that reads v: at the lane's ticket the counter moves on, and those that wait for the next value are released. -/
def passTicketDoes (r d : Nat) (s : State) (key v t : Nat) : Does × State :=
  let v' := (v + 1) % 2 ^ 32
  if v = t then (.takes ([(d, 0)], [], 0), (s.setRec r { s.rcd r with
      tickets := Sparse.set 0 (s.rcd r).tickets key v', skipped := Sparse.set false (s.rcd r).skipped key false }).readyWhere
        fun g p => g.launch == r && (match p with | .ticket k q => k == key && decide (q ≤ v') | _ => false))
  else (.takes ([(d, if v < t then 1 else 2)], [], 0), s)

theorem tkwait_seq (h : Hdr) (d : RegIx) (q : Option RegIx) (n : Kind) :
    SeqWord (.tkwait h d q n) h (fun _ _ => True) (fun _ g l s => ticketDoes g l q n s (waitTicket g.launch d.toNat s)) := by
  refine seqWord_intro _ _ _ _ (fun _ => rfl) (fun s g _ _ l _ s' => ?_) rfl rfl rfl rfl (fun _ _ _ _ _ => rfl) rfl ?_
    (fun s g _ l s' => keepsGroup_ticketDoes _ _ _ _ _ _ _ fun k v t => ?_)
  · refine ticketArgs_does s s' g h l q n s.next _ _ fun stg sec t => ?_
    simp only [waitTicket, apply_ite asLane]
    rfl
  · cases n <;> rfl
  · unfold waitTicket
    split
    · exact id
    · split
      · exact id
      · exact id

theorem tkpass_seq (h : Hdr) (d : RegIx) (q : Option RegIx) (n : Kind) :
    SeqWord (.tkpass h d q n) h (fun s g => g.team.isSome = true → s.txns = [] ∧ s.clean g.core (s.ctxOf g) = true)
      (fun _ g l s => ticketDoes g l q n s (passTicketDoes g.launch d.toNat s)) := by
  refine seqWord_intro _ _ _ _ (fun _ => rfl) (fun s g _ _ l _ s' => ?_) rfl rfl rfl rfl (fun s g _ _ hcalm => ?_) rfl ?_
    (fun s g _ l s' => keepsGroup_ticketDoes _ _ _ _ _ _ _ fun k v t => ?_)
  · refine ticketArgs_does s s' g h l q n s.next _ _ fun stg sec t => ?_
    simp only [passTicketDoes, apply_ite asLane]
    rfl
  · exact relOps_ready { mem := true } .dev _ s _ (by decide) rfl fun _ => hcalm
  · cases n <;> rfl
  · unfold passTicketDoes
    simp only
    split
    · exact fun hs => keepsGroup_readyWhere _ _ _ hs
    · exact id

/-! ### Idle groups (R107) -/

/-- An item releases the idle groups of its launch that can take it. -/
theorem quietItems_group (s : State) (r gid : Nat) (g : Group) (hw : Sparse.wf none s.groups = true) (hg : s.group gid = some g) :
    let has := fun (i : Nat) => Sparse.get ([] : List DWord) (s.rcd r).lists i ≠ []
    (s.quietItems r).group gid = some (if g.launch = r ∧ g.idle = true ∧ (has g.core ∨ has 255) then g.unquiet 0 else g) := by
  intro has
  let sel := fun (x : Group) => x.idle && (!(Sparse.get ([] : List DWord) (s.rcd r).lists x.core).isEmpty ||
    !(Sparse.get ([] : List DWord) (s.rcd r).lists 255).isEmpty)
  have hstep := groupStep_of sel (fun x => x.unquiet 0)
    (fun s p => if sel p.2 then s.setGroup p.1 (p.2.unquiet 0) else s) fun _ _ => rfl
  have hfold := ((hstep.foldl_listed s fun p => p.2.launch == r).2 hw).2 gid g hg
  refine hfold.trans (congrArg some ?_)
  have hsel : sel g = true ↔ g.idle = true ∧ (has g.core ∨ has 255) := by
    simp [sel, has]
  by_cases hl : g.launch = r
  · simp only [hl, beq_self_eq_true, ↓reduceIte, hsel, true_and]
  · simp [hl]

/-- A pass over the lanes of a group each of whose steps rewrites its own lane. -/
theorem foldl_laneSteps (P : Group → Prop) (step : Group → Nat → Group) (U : Lane → Lane) (hP : ∀ g l, P g → P (step g l))
    (hstep : ∀ g l j, P g → (step g l).lane j = if j = l then U (g.lane l) else g.lane j) (ls : List Nat) (hn : ls.Nodup) (g : Group) (hg : P g) :
    P (ls.foldl step g) ∧ ∀ j, (ls.foldl step g).lane j = if j ∈ ls then U (g.lane j) else g.lane j := by
  induction ls generalizing g with
  | nil => exact ⟨hg, fun _ => rfl⟩
  | cons l ls ih =>
    obtain ⟨hl, hn⟩ := List.nodup_cons.mp hn
    obtain ⟨hend, hlane⟩ := ih hn (step g l) (hP g l hg)
    refine ⟨hend, fun j => ?_⟩
    rw [List.foldl_cons, hlane, hstep g l j hg]
    by_cases hj : j = l
    · subst hj; simp [hl]
    · simp [hj]

/-- A lane of a resident group that is released with a value. -/
def Lane.unquiet (ln : Lane) (v : Word) : Lane :=
  match ln.park with
  | .quiet d _ => { ln.setReg d v with st := .eligible, park := .none, ready := false, pc := ln.pc + 8 }
  | _ => ln

theorem release_quiet (ln : Lane) (d : Nat) (v : Word) :
    ({ ln with park := .quiet d (some v), ready := true } : Lane).release =
      { ln.setReg d v with st := .eligible, park := .none, ready := false, pc := ln.pc + 8 } := by
  simp only [Lane.release, Lane.unpark, Lane.setReg]
  split <;> rfl

/-- The lanes of a released group that were in QUIET pass it with the value. -/
theorem unquiet_lane (g : Group) (v : Word) (l : Nat) (hl : l < 32) (hr : g.resident = true) :
    (g.unquiet v).idle = false ∧ (g.unquiet v).lane l = match (g.lane l).park with
      | .quiet d _ => { (g.lane l).setReg d v with st := .eligible, park := .none, ready := false, pc := (g.lane l).pc + 8 }
      | _ => g.lane l := by
  let step := fun (x : Group) (j : Nat) =>
    match (x.lane j).park with
    | .quiet d _ =>
      let ln : Lane := { x.lane j with park := .quiet d (some v), ready := true }
      x.setLane j (if x.resident then ln.release else ln)
    | _ => x
  have hP : ∀ x j, x.resident = true ∧ x.idle = false → (step x j).resident = true ∧ (step x j).idle = false := by
    intro x j hx
    simp only [step]
    split
    · exact hx
    · exact hx
  have hstep : ∀ x j k, x.resident = true ∧ x.idle = false → (step x j).lane k = if k = j then (x.lane j).unquiet v else x.lane k := by
    intro x j k hx
    simp only [step, Lane.unquiet]
    split
    · rw [lane_setLane, hx.1, if_pos rfl, release_quiet]
    · split
      · next hk => rw [hk]
      · rfl
  obtain ⟨hend, hlanes⟩ := foldl_laneSteps _ step (fun ln => ln.unquiet v) hP hstep lanes32 lanes32_nodup { g with idle := false } ⟨hr, rfl⟩
  refine ⟨hend.2, (hlanes l).trans ?_⟩
  rw [if_pos (mem_lanes32.mpr hl)]
  rfl

/-! ### Words that run once for all their lanes (R155) -/

/-- A word that some lane is active in has a lowest active lane. -/
theorem lanesOf_active {m : BitVec 32} (h : m ≠ 0) : ∃ ls, lanesOf m = (lanesOf m).headD 0 :: ls := by
  obtain ⟨l, ls, hl⟩ := List.exists_cons_of_ne_nil (mt lanesOf_nil.mp h)
  exact ⟨ls, by rw [hl]; rfl⟩

/-- The lowest active lane of a word that runs once acts, and every active lane takes its result. -/
theorem runLanes_once (b : Nat → State → LaneRes × State) (c : Ctl) (o : WordOps) (s : State) (ho : o.once = true) (ha : c.act ≠ 0) :
    c.spread o (runLanes b ((lanesOf c.act).take 1) s).1 = (lanesOf c.act).map (fun l => (l, (b ((lanesOf c.act).headD 0) s).1)) ∧
    (runLanes b ((lanesOf c.act).take 1) s).2 = (b ((lanesOf c.act).headD 0) s).2 := by
  obtain ⟨ls, hl⟩ := lanesOf_active ha
  have htake : (lanesOf c.act).take 1 = [(lanesOf c.act).headD 0] := by
    rw [hl]; rfl
  rw [htake]
  exact ⟨by simp only [Ctl.spread, ho, ↓reduceIte, runLanes], rfl⟩

/-- What SETPRI does in the lane that runs it: the launch record takes priority v, if the context's ceiling allows it (R424). -/
def setpriDoes (r v : Nat) (ceil : Nat) (s : State) : Does × State :=
  if ceil < v then (.traps 0x22 0 0, s)
  else (noResults, s.setRec r { s.rcd r with blk := { (s.rcd r).blk with pri := v } })

theorem setpriDoes_room {r v ceil : Nat} {s : State} (h : v ≤ ceil) :
    setpriDoes r v ceil s = (noResults, s.setRec r { s.rcd r with blk := { (s.rcd r).blk with pri := v } }) := if_neg (Nat.not_lt.mpr h)

theorem setpriDoes_above {r v ceil : Nat} {s : State} (h : ceil < v) : setpriDoes r v ceil s = (.traps 0x22 0 0, s) := if_pos h

/-- A memory word that runs once and parks nobody: its lowest active lane acts, and what it does befalls every active lane. -/
theorem issueOnce_ends {i : Instr} {h : Hdr} {s t : State} {g gm : Group} (hst : Still s g h) (ha : active s g h ≠ 0) (hr : WordReady s g h i)
    (o : WordOps) (body : Ctl → Nat → State → LaneRes × State) (hmem : o.mem = true) (hu : o.u = false) (hsync : o.sync = false)
    (honce : o.once = true) (hrot : o.rot = false) (hfin : o.fin = fun _ s => s) (hld : (instrUses i).landing = false)
    (hrd : o.ready (readyCtl s g h false) s = true) (d : Does) (hbody : body (memCtl s g h) (oneLane s g h) (numbered s) = asLane (d, t))
    (hg : t.group s.cur.gid = some gm) (hpark : (resOf d).parks = false) (hregs : (resOf d).regs = [])
    (htr : ∀ code acc addr, d = .traps code acc addr → ∀ l, (active s g h).getLsbD l = true → (gm.lane l).handler = false) :
    ∃ lanes hazards handling, let g' := gm.issued s false t.clk h.stall.toNat lanes hazards handling
      s.word i h o body = .next (t.setGroup s.cur.gid g') ∧ ∀ l, l < 32 → g'.lane l = if s.cur.lanes.getLsbD l then
          if (active s g h).getLsbD l then d.lane s t.next (gm.lane l) else { gm.lane l with pc := s.cur.pc + BitVec.ofNat 64 s.cur.len }
        else gm.lane l := by
  have hls : ∀ l ∈ lanesOf (active s g h), l < 32 ∧ s.cur.lanes.getLsbD l = true := fun l hl => by
    obtain ⟨h32, hlanes, -⟩ := mem_active.mp hl
    exact ⟨h32, hlanes⟩
  obtain ⟨lanes, hazards, handling, hword, hlanes⟩ := finishWord_does (s := s) g (memCtl s g h) h.stall.toNat (instrUses i) o
    (lanesOf (active s g h)) (fun _ => d) ⟨rfl, rfl, rfl⟩ hg (lanesOf_nodup _) hls hld (fun _ _ _ => hregs)
    (fun l hl code acc addr hd => htr code acc addr hd l (mem_lanesOf.mp hl).2)
  obtain ⟨hspread, hstate⟩ := runLanes_once (body (memCtl s g h)) (memCtl s g h) o (numbered s) honce ha
  have hone : body (memCtl s g h) ((lanesOf (memCtl s g h).act).headD 0) (numbered s) = asLane (d, t) := hbody
  have hquiet : parksAny (fun _ => d) (lanesOf (active s g h)) = false := by
    rw [parksAny, List.any_eq_false]
    intro l _
    cases d <;> simp_all [resOf, LaneRes.parks]
  rw [hrot] at hword hlanes
  rw [hquiet] at hword
  refine ⟨lanes, hazards, handling, ?_, fun l hl => (hlanes l hl).trans ?_⟩
  · rw [State.word, issueMem_ends hr hst o body hmem hu hsync hrd]
    refine congrArg Host.Outcome.next (Eq.trans ?_ hword)
    simp only [honce, hfin, ↓reduceIte]
    rw [hone] at hspread hstate
    exact congr (congrArg (fun (x : State) y => x.finishWord g (memCtl s g h) s.cur.lanes h.stall.toNat (instrUses i) o y) hstate) hspread
  · refine if_congr Iff.rfl (if_congr ?_ rfl rfl) rfl
    rw [mem_lanesOf]
    exact ⟨fun x => x.2, fun x => ⟨hl, x⟩⟩

/-- SETPRI with an operand that is no v register runs once, as `setpriDoes` says. -/
theorem execSetpri_ends (h : Hdr) (n : Kind) (s : State) (g : Group) (hst : Still s g h) (ha : active s g h ≠ 0) (hn : ∀ r, n ≠ .v r)
    (hr : WordReady s g h (.setpri h n)) (d : Does) (t : State)
    (hd : setpriDoes g.launch ((envOf false g (oneLane s g h)).kind n).toNat (s.ctx (s.ctxOf g)).pceil.toNat (numbered s) = (d, t))
    (ht : t.group s.cur.gid = some g) (hclk : t.clk = s.clk) (hpark : (resOf d).parks = false) (hregs : (resOf d).regs = [])
    (htr : ∀ code acc addr, d = .traps code acc addr → ∀ l, (active s g h).getLsbD l = true → (g.lane l).handler = false) :
    ∃ lanes hazards handling, let g' := g.issued s false s.clk h.stall.toNat lanes hazards handling
      exec (.setpri h n) s = .next (t.setGroup s.cur.gid g') ∧ lanesRun s g g' h (fun _ ln => d.lane s t.next ln) := by
  rw [← hclk]
  refine issueOnce_ends hst ha hr { mem := true, once := true } _ rfl rfl rfl rfl rfl rfl (by cases n <;> rfl) rfl d
    (Eq.trans ?_ (congrArg asLane hd)) ht hpark hregs htr
  simp only [setpriDoes, apply_ite asLane]
  cases n with
  | v r => exact absurd rfl (hn r)
  | imm i => rfl
  | g r => rfl

/-! ### QUIET (R107, R423) -/

/-- What QUIET does after its lanes have parked: the group is idle, and the launch may go on without it. -/
def quietEnd (c : Ctl) (s : State) : State :=
  if c.act = 0 then s
  else match s.group c.gid with
    | some g => (s.setGroup c.gid { g with idle := true }).tailrace c.g.launch
    | none => s

def quietOps : WordOps := { mem := true, fin := quietEnd }

theorem execQuiet_eq (h : Hdr) (d : RegIx) (s : State) :
    exec (.quiet h d) s = s.word (.quiet h d) h quietOps fun _ _ s => (.park (.quiet d.toNat none), s) := rfl

theorem quietEnd_setGroup {c : Ctl} (hc : c.act ≠ 0) (s : State) (g : Group) :
    quietEnd c (s.setGroup c.gid g) = (s.setGroup c.gid { g with idle := true }).tailrace c.g.launch := by
  simp only [quietEnd, if_neg hc, group_setGroup, ↓reduceIte, setGroup_setGroup]

/-- QUIET parks the lanes, makes the group idle and looks whether the launch can go on. -/
theorem execQuiet_ends (h : Hdr) (d : RegIx) (s : State) (g : Group) (hst : Still s g h) (ha : active s g h ≠ 0)
    (hr : WordReady s g h (.quiet h d)) : ∃ lanes hazards handling, let g' := g.issued s false s.clk h.stall.toNat lanes hazards handling
    exec (.quiet h d) s = .next (({ numbered s with next := s.next + 2 }.setGroup s.cur.gid { g' with idle := true }).tailrace g.launch) ∧
      lanesRun s g g' h (fun _ ln => ln.parkOn (.quiet d.toNat none) (s.next + 1)) := by
  have hls : ∀ l ∈ lanesOf (active s g h), l < 32 ∧ s.cur.lanes.getLsbD l = true := fun l hl => by
    obtain ⟨h32, hlanes, -⟩ := mem_active.mp hl
    exact ⟨h32, hlanes⟩
  let parks : Does := .parks (.quiet d.toNat none)
  obtain ⟨lanes, hazards, handling, hword, hlanes⟩ := finishWord_does (s := s) (s2 := numbered s) g (memCtl s g h) h.stall.toNat
    (instrUses (.quiet h d)) quietOps (lanesOf (active s g h)) (fun _ => parks) ⟨rfl, rfl, rfl⟩ hr.here (lanesOf_nodup _) hls rfl
    (fun hc => absurd hc Bool.false_ne_true) (fun _ _ _ _ _ hd => nomatch hd)
  have hparks : parksAny (fun _ => parks) (lanesOf (active s g h)) = true := by
    obtain ⟨ls, hl⟩ := lanesOf_active ha
    rw [hl]; rfl
  rw [hparks, if_pos rfl] at hword
  have hrun := runLanes_same (fun _ s => (.park (.quiet d.toNat none), s)) (fun _ => resOf parks) (lanesOf (active s g h))
    (numbered s) fun _ _ => rfl
  have hspread : ∀ rs, (memCtl s g h).spread quietOps rs = rs := fun rs => by
    simp [Ctl.spread, quietOps, memCtl, readyCtl, hst.1]
  refine ⟨lanes, hazards, handling, ?_, fun l hl => (hlanes l hl).trans ?_⟩
  · rw [execQuiet_eq, State.word, issueMem_ends hr hst quietOps _ rfl rfl rfl rfl]
    show Host.Outcome.next (quietEnd (memCtl s g h) ((runLanes _ (lanesOf (active s g h)) (numbered s)).2.finishWord g (memCtl s g h) _ _ _ _
      ((memCtl s g h).spread quietOps (runLanes _ (lanesOf (active s g h)) (numbered s)).1))) = _
    rw [hrun, hspread]
    exact congrArg Host.Outcome.next ((congrArg (quietEnd (memCtl s g h)) hword).trans (quietEnd_setGroup (c := memCtl s g h) ha _ _))
  · refine if_congr Iff.rfl (if_congr ?_ rfl rfl) rfl
    rw [mem_lanesOf]
    exact ⟨fun x => x.2, fun x => ⟨hl, x⟩⟩

/-- A lane that a word without results leaves is past the word. -/
theorem noResults_lane (s : State) (age : Nat) (ln : Lane) :
    noResults.lane s age ln = { ln with pc := s.cur.pc + BitVec.ofNat 64 s.cur.len } := by
  simp [noResults, Does.lane, Results.into, Lane.setRegs, Lane.setPreds]

/-- Settles O37: the sequential words by their lanes' rules, the releases by the passes over groups and lanes, SETPRI and QUIET as words that
end with their group's bookkeeping. -/
theorem workAndTickets : Obligations.WorkAndTickets := by
  refine ⟨fun h onG a c d pd q n => ⟨?_, wltake_seq h pd d, tkwait_seq h d q n, tkpass_seq h d q n⟩, fun s r hw gid g hg => ?_,
    fun g v l hl hr => unquiet_lane g v l hl hr, fun h n s g hst ha hn hr => ⟨fun hv => ?_, fun hv hh => ?_⟩, fun h d s g hst ha hr => ?_⟩
  · have := wlappend_seq h onG a c
    simp only [appendDoes, listOf_works] at this
    exact this
  · have := quietItems_group s r gid g hw hg
    exact ⟨fun hl hi hx => this.trans (congrArg some (if_pos ⟨hl, hi, hx⟩)), fun hno => this.trans (congrArg some (if_neg hno))⟩
  · obtain ⟨lanes, hazards, handling, hexec, hlanes⟩ := execSetpri_ends h n s g hst ha hn hr _ _ (setpriDoes_room hv) hr.here rfl rfl rfl
      (fun _ _ _ hd => nomatch hd)
    refine ⟨_, hexec, fun l hl => (hlanes l hl).trans ?_, rfl, rfl⟩
    simp only [noResults_lane, ite_self]
  · obtain ⟨lanes, hazards, handling, hexec, hlanes⟩ := execSetpri_ends h n s g hst ha hn hr _ _ (setpriDoes_above hv) hr.here rfl rfl rfl
      (fun _ _ _ _ l hl => hh l hl)
    exact ⟨_, hexec, hlanes, rfl⟩
  · obtain ⟨lanes, hazards, handling, hexec, hlanes⟩ := execQuiet_ends h d s g hst ha hr
    exact ⟨_, hexec, hlanes, rfl, rfl⟩
end Sys2Proof.Machine
end

section
/-! SUPPORT. O23: MONWAIT and POLL on the scratchpad (R114, R392, R393). -/
namespace Sys2Proof.Machine

open Sys2Proof.Safety

/-! ### An access through the scratchpad's window (R169) -/

/-- Where the window of the own scratchpad begins. -/
def scrWindow : Nat := 0x01FFFF0000000000

/-- The place of a scratchpad access, as the model's lanes see it. -/
def asSpot : Except Does (Nat × Nat) → Except LaneRes Spot
  | .error e => .error (resOf e)
  | .ok p => .ok (.scr p.1 p.2 false)

theorem window_aligned (ea : Nat) (wide : Bool) (hlo : scrWindow ≤ ea) :
    (ea - scrWindow) % (if wide then 8 else 4) = ea % (if wide then 8 else 4) := by
  simp only [scrWindow] at *
  cases wide
  · simp only [Bool.false_eq_true, ↓reduceIte]; omega
  · simp only [↓reduceIte]; omega

/-- The window of the own scratchpad leads where the scratch address does: its base is a multiple of every access size. -/
theorem locate_window (s : State) (g : Group) (ea : Nat) (wide : Bool) (ht : g.team.isSome = true) (hlo : scrWindow ≤ ea)
    (hhi : ea < scrWindow + 2 ^ 32) : let n := if wide then 8 else 4
    s.locate g .gen ea n n .load = asSpot (scratchAt s g false (ea - scrWindow) n n 0 ea) := by
  intro n
  obtain ⟨u, hu⟩ := Option.isSome_iff_exists.mp ht
  have hmod : ea % n = (ea - scrWindow) % n := (window_aligned ea wide hlo).symm
  have hlimits : ¬ ea < windowBase ∧ ¬ 2 ^ 57 ≤ ea := by
    simp only [scrWindow, windowBase] at *
    omega
  have hreach : ea - scrWindow < 2 ^ 32 := by omega
  simp only [State.locate, scratchAt, hu, Bool.false_and, Bool.false_eq_true, ↓reduceIte, hmod, Option.getD_some, if_neg hlimits.1,
    if_neg hlimits.2]
  by_cases hal : (ea - scrWindow) % n ≠ 0
  · rw [if_pos hal, if_pos hal]; rfl
  · rw [if_neg hal, if_neg hal, if_pos (show 0x01FFFF0000000000 ≤ ea from hlo), if_neg (by simp), if_pos (show ea - 0x01FFFF0000000000 < 2 ^ 32 from hreach)]
    simp only [State.scrSpot]
    cases s.team u with
    | none => rfl
    | some t =>
      dsimp only
      have hbytes : s.scrBytes t = 1024 * (s.rcd t.task.lrec).blk.scr := rfl
      by_cases hroom : 1024 * (s.rcd t.task.lrec).blk.scr < ea - scrWindow + n
      · rw [if_pos hroom, if_neg (show ¬ ea - 0x01FFFF0000000000 + n ≤ s.scrBytes t from hbytes ▸ Nat.not_le.mpr hroom)]; rfl
      · rw [if_neg hroom, if_pos (show ea - 0x01FFFF0000000000 + n ≤ s.scrBytes t from hbytes ▸ Nat.not_lt.mp hroom)]; rfl

/-- An aligned access within the scratchpad of the group's team. -/
theorem scratchAt_own (s : State) (g : Group) (u : Nat) (t : Team) (x n acc shown : Nat) (hu : g.team = some u) (ht : s.team u = some t)
    (hal : x % n = 0) (hroom : x + n ≤ 1024 * (s.rcd t.task.lrec).blk.scr) : scratchAt s g false x n n acc shown = .ok (u, x) := by
  have hin : ¬ 1024 * (s.rcd t.task.lrec).blk.scr < x + n := by omega
  simp [scratchAt, hu, hal, ht, hin]

theorem readScratch_own (s : State) (u : Nat) (t : Team) (x n : Nat) (ht : s.team u = some t) : s.readScratch u x n = t.bytes u x n := by
  rw [State.readScratch, ht]

/-! ### MONWAIT (R392) -/

/-- What a lane of these words compares with. -/
def monArg (g : Group) (wide : Bool) (b : RegIx) (l : Nat) : DWord :=
  if wide then (g.lane l).reg64 b.toNat else ((g.lane l).reg b.toNat).zeroExtend 64

theorem monB_arg (g : Group) (wide : Bool) (b : RegIx) (l : Nat) : monB wide (monArg g wide b l) = (monArg g wide b l).toNat := by
  cases wide
  · simp only [monB, monArg, Bool.false_eq_true, ↓reduceIte]
    have := ((g.lane l).reg b.toNat).isLt
    simp
    omega
  · rfl

/-- The address of a lane. -/
def laneEa (g : Group) (a : RegIx) (l : Nat) : Nat := ((g.lane l).reg64 a.toNat).toNat

/-- The active lanes of the word all point into the window of their team's scratchpad. -/
def InWindow (h : Hdr) (a : RegIx) (s : State) (g : Group) : Prop := g.team.isSome = true ∧
  ∀ l, (active s g h).getLsbD l = true → scrWindow ≤ laneEa g a l ∧ laneEa g a l < scrWindow + 2 ^ 32

/-- The lane waits for a write of n bytes at offset x of the scratchpad of team u. -/
def monitorTxn (s s' : State) (g : Group) (l : Nat) (cmp : MonCmp) (wide : Bool) (d a b : RegIx) (u x : Nat) : Txn :=
  { core := g.core, gid := s.cur.gid, ctx := (s'.rcd g.launch).ctx, launch := g.launch, tgt := .scr u, line := x / 16
    parts := [{ lane := l, addr := x, va := laneEa g a l, len := if wide then 8 else 4, op := .monitor cmp wide (monArg g wide b l) d }]
    pc := s.cur.pc, word := s'.next }

/-- What MONWAIT does in a lane, once its place is known. -/
def monitorDoes (cmp : MonCmp) (wide : Bool) (d a b : RegIx) (s : State) (g : Group) (l : Nat) (s' : State) :
    Except Does (Nat × Nat) → Does × State
  | .error e => (e, s')
  | .ok (u, x) =>
    let v := leNat (s'.readScratch u x (if wide then 8 else 4))
    if monHolds cmp v (monArg g wide b l).toNat then (.takes (valWrites wide d.toNat v, [], 0), s'.setBackoff s.cur.gid 0)
    else (.parks (.monitor s'.next), { s' with
      next := s'.next + 1, txns := Sparse.set none s'.txns s'.next (some (monitorTxn s s' g l cmp wide d a b u x)) })

def monwaitDoes (cmp : MonCmp) (wide : Bool) (d a b : RegIx) (s : State) (g : Group) (l : Nat) (s' : State) : Does × State :=
  let n := if wide then 8 else 4
  monitorDoes cmp wide d a b s g l s' (scratchAt s' g false (laneEa g a l - scrWindow) n n 0 (laneEa g a l))

theorem keepsGroup_setBackoff (gid : Nat) (s : State) (k n : Nat) : KeepsGroup gid s (s.setBackoff k n) := by
  unfold State.setBackoff
  split
  · exact keepsGroup_setGroup _ _ _ _
  · exact id

theorem keepsGroup_monwaitDoes (gid : Nat) (cmp : MonCmp) (wide : Bool) (d a b : RegIx) (s : State) (g : Group) (l : Nat) (s' : State) :
    KeepsGroup gid s' (monwaitDoes cmp wide d a b s g l s').2 := by
  unfold monwaitDoes
  dsimp only
  cases scratchAt s' g false _ _ _ 0 _ with
  | error e => exact fun hs => hs
  | ok p =>
    dsimp only [monitorDoes]
    cases monHolds cmp (leNat (s'.readScratch p.1 p.2 (if wide then 8 else 4))) (monArg g wide b l).toNat
    · exact fun hs => hs
    · exact keepsGroup_setBackoff gid s' _ _

/-- How MONWAIT and POLL run, their lanes aside: POLL waits until each lane can read, and then notes whether one found its condition met. -/
def monitorOps (a : RegIx) : WordOps :=
  { mem := true, rot := true, same := some fun w l => [((w.env l).ln.reg64 a.toNat).toNat] }

/-- In a lane whose address lies in the window MONWAIT acts as `monwaitDoes` says. -/
theorem execMonwait_word (h : Hdr) (cmp : MonCmp) (o : Sys2Proof.Ord) (sc : Scope) (wide : Bool) (d a b : RegIx) : ∃ body,
    (∀ s, exec (.monwait h cmp o sc wide d a b) s = s.word (.monwait h cmp o sc wide d a b) h (monitorOps a) body) ∧
    ∀ s g, InWindow h a s g → ∀ l ∈ lanesOf (active s g h), ∀ s',
      body (memCtl s g h) l s' = asLane (monwaitDoes cmp wide d a b s g l s') := by
  refine ⟨_, fun _ => rfl, fun s g hin l hl s' => ?_⟩
  obtain ⟨hlo, hhi⟩ := hin.2 l (mem_lanesOf.mp hl).2
  have hloc := locate_window s' g (laneEa g a l) wide hin.1 hlo hhi
  have harg : ((memCtl s g h).env l).reg wide b = monArg g wide b l := by cases wide <;> rfl
  unfold monwaitDoes
  simp only [laneEa] at hloc ⊢
  simp only [harg, monB_arg]
  simp only [memCtl, readyCtl, Ctl.env]
  rw [hloc]
  cases scratchAt s' g false _ _ _ 0 _ with
  | error e => rfl
  | ok p =>
    dsimp only [asSpot, monitorDoes]
    rw [apply_ite asLane]
    rfl

theorem execMonwait_seq (h : Hdr) (cmp : MonCmp) (o : Sys2Proof.Ord) (sc : Scope) (wide : Bool) (d a b : RegIx) :
    SeqWord (.monwait h cmp o sc wide d a b) h (InWindow h a) (monwaitDoes cmp wide d a b) := by
  obtain ⟨body, hword, hacts⟩ := execMonwait_word h cmp o sc wide d a b
  exact seqWord_intro (monitorOps a) body _ _ hword (fun s g _ hin l hl s' => hacts s g hin l hl s') rfl rfl rfl rfl (fun _ _ _ _ _ => rfl) rfl
    (by cases wide <;> rfl) (fun s g _ l s' => keepsGroup_monwaitDoes _ _ _ _ _ _ _ _ _ _)

theorem monwaitDoes_met {cmp : MonCmp} {wide : Bool} {d a b : RegIx} {s s' : State} {g : Group} {l u x : Nat}
    (hat : scratchAt s' g false (laneEa g a l - scrWindow) (if wide then 8 else 4) (if wide then 8 else 4) 0 (laneEa g a l) = .ok (u, x))
    (hmet : monHolds cmp (leNat (s'.readScratch u x (if wide then 8 else 4))) (monArg g wide b l).toNat = true) :
    monwaitDoes cmp wide d a b s g l s' =
      (.takes (valWrites wide d.toNat (leNat (s'.readScratch u x (if wide then 8 else 4))), [], 0), s'.setBackoff s.cur.gid 0) := by
  unfold monwaitDoes
  dsimp only
  rw [hat]
  exact if_pos hmet

theorem monwaitDoes_unmet {cmp : MonCmp} {wide : Bool} {d a b : RegIx} {s s' : State} {g : Group} {l u x : Nat}
    (hat : scratchAt s' g false (laneEa g a l - scrWindow) (if wide then 8 else 4) (if wide then 8 else 4) 0 (laneEa g a l) = .ok (u, x))
    (hmet : monHolds cmp (leNat (s'.readScratch u x (if wide then 8 else 4))) (monArg g wide b l).toNat = false) :
    monwaitDoes cmp wide d a b s g l s' = (.parks (.monitor s'.next), { s' with
      next := s'.next + 1, txns := Sparse.set none s'.txns s'.next (some (monitorTxn s s' g l cmp wide d a b u x)) }) := by
  unfold monwaitDoes
  dsimp only
  rw [hat]
  exact if_neg (by simp [hmet])

theorem monwaitDoes_fails {cmp : MonCmp} {wide : Bool} {d a b : RegIx} {s s' : State} {g : Group} {l : Nat} {e : Does}
    (hat : scratchAt s' g false (laneEa g a l - scrWindow) (if wide then 8 else 4) (if wide then 8 else 4) 0 (laneEa g a l) = .error e) :
    monwaitDoes cmp wide d a b s g l s' = (e, s') := by
  unfold monwaitDoes
  dsimp only
  rw [hat]
  rfl

/-! ### Lanes that all read their scratchpad -/

/-- Lanes that find the same state from the first of them on. -/
theorem runLanes_settled (f : Nat → State → LaneRes × State) (r : Nat → LaneRes) (ls : List Nat) (hne : ls ≠ []) (s t : State)
    (hfirst : ∀ l ∈ ls, f l s = (r l, t)) (hrest : ∀ l ∈ ls, f l t = (r l, t)) : runLanes f ls s = (ls.map fun l => (l, r l), t) := by
  obtain ⟨l, ls, rfl⟩ := List.exists_cons_of_ne_nil hne
  simp only [runLanes, hfirst l (by simp), List.map_cons, runLanes_same f r ls t fun j hj => hrest j (by simp [hj])]

/-- Every active lane of the word reads its own scratchpad: `v` is what lane l finds there. -/
structure ReadsScratch (h : Hdr) (wide : Bool) (a : RegIx) (s : State) (g : Group) (u : Nat) (t : Team) (v : Nat → Nat) : Prop where
  team : g.team = some u
  here : s.team u = some t
  window : InWindow h a s g
  fits : ∀ l, (active s g h).getLsbD l = true → laneEa g a l % (if wide then 8 else 4) = 0 ∧
    laneEa g a l - scrWindow + (if wide then 8 else 4) ≤ 1024 * (s.rcd t.task.lrec).blk.scr
  found : ∀ l, v l = leNat (t.bytes u (laneEa g a l - scrWindow) (if wide then 8 else 4))

section
variable {h : Hdr} {wide : Bool} {a : RegIx} {s : State} {g : Group} {u : Nat} {t : Team} {v : Nat → Nat} (hrd : ReadsScratch h wide a s g u t v)
include hrd

/-- Its place, in any state with the same teams and launches. -/
theorem ReadsScratch.at_place (s' : State) (hteam : s'.team = s.team) (hrec : s'.rcd = s.rcd) (l : Nat) (hl : (active s g h).getLsbD l = true) :
    scratchAt s' g false (laneEa g a l - scrWindow) (if wide then 8 else 4) (if wide then 8 else 4) 0 (laneEa g a l) =
      .ok (u, laneEa g a l - scrWindow) := by
  obtain ⟨hal, hroom⟩ := hrd.fits l hl
  obtain ⟨hlo, -⟩ := hrd.window.2 l hl
  refine scratchAt_own s' g u t _ _ _ _ hrd.team (by rw [hteam, hrd.here]) ?_ (by rw [hrec]; exact hroom)
  rw [window_aligned _ wide hlo, hal]

theorem ReadsScratch.value (s' : State) (hteam : s'.team = s.team) (l : Nat) :
    leNat (s'.readScratch u (laneEa g a l - scrWindow) (if wide then 8 else 4)) = v l := by
  rw [readScratch_own s' u t _ _ (by rw [hteam, hrd.here]), hrd.found]

/-- MONWAIT goes on in every lane, and clears the back-off of the group. -/
theorem ReadsScratch.monwait (cmp : MonCmp) (d b : RegIx) (s' : State) (hteam : s'.team = s.team) (hrec : s'.rcd = s.rcd) (l : Nat)
    (hl : (active s g h).getLsbD l = true) (hmet : monHolds cmp (v l) (monArg g wide b l).toNat = true) :
    monwaitDoes cmp wide d a b s g l s' = (.takes (valWrites wide d.toNat (v l), [], 0), s'.setBackoff s.cur.gid 0) := by
  have hval := hrd.value s' hteam l
  rw [monwaitDoes_met (hrd.at_place s' hteam hrec l hl) (by rw [hval]; exact hmet), hval]
end

theorem setBackoff_at (s : State) (gid k : Nat) (g : Group) (hg : s.group gid = some g) : s.setBackoff gid k = s.setGroup gid { g with backoff := k } := by
  rw [State.setBackoff, hg]

/-- The end of a word that no lane parks and no lane traps in: every active lane takes its results. -/
theorem finishWord_takes {s s2 : State} {g gm : Group} {h : Hdr} {u : Uses} {o : WordOps} (r : Nat → Results) (hg : s2.group s.cur.gid = some gm)
    (hl : gm.lanes = g.lanes) (honce : o.once = false) (hld : u.landing = false) :
    ∃ lanes hazards handling, let g' := gm.issued s o.rot s2.clk h.stall.toNat lanes hazards handling
      s2.finishWord g (memCtl s g h) s.cur.lanes h.stall.toNat u o ((lanesOf (active s g h)).map fun l => (l, doneOf (r l))) =
        s2.setGroup s.cur.gid g' ∧ lanesAfter s g g' h (fun l ln => (r l).into ln) := by
  have hls : ∀ l ∈ lanesOf (active s g h), l < 32 ∧ s.cur.lanes.getLsbD l = true := fun l hl => by
    obtain ⟨h32, hlanes, -⟩ := mem_active.mp hl
    exact ⟨h32, hlanes⟩
  have hlane : ∀ l, gm.lane l = g.lane l := fun l => by simp only [Group.lane, hl]
  obtain ⟨lanes, hazards, handling, hword, hlanes⟩ := finishWord_does (s := s) g (memCtl s g h) h.stall.toNat u o
    (lanesOf (active s g h)) (fun l => .takes (r l)) ⟨rfl, rfl, rfl⟩ hg (lanesOf_nodup _) hls hld
    (fun hc => absurd hc (by simp [honce])) (fun _ _ _ _ _ hd => nomatch hd)
  have hquiet : parksAny (fun l => .takes (r l)) (lanesOf (active s g h)) = false := by
    rw [parksAny, List.any_eq_false]
    exact fun _ _ => Bool.false_ne_true
  rw [hquiet] at hword
  refine ⟨lanes, hazards, handling, hword, fun l hl => (hlanes l hl).trans ?_⟩
  rw [hlane]
  refine if_congr Iff.rfl ?_ rfl
  by_cases ha : (active s g h).getLsbD l = true
  · rw [if_pos (mem_lanesOf.mpr ⟨hl, ha⟩), if_pos ha]; rfl
  · rw [if_neg fun hm => ha (mem_lanesOf.mp hm).2, if_neg ha]

/-- MONWAIT whose condition holds in every active lane: all go on, and the back-off of the group is cleared (R392). -/
theorem execMonwait_met {h : Hdr} {cmp : MonCmp} {o : Sys2Proof.Ord} {sc : Scope} {wide : Bool} {d a b : RegIx} {s : State} {g : Group} {u : Nat}
    {t : Team} {v : Nat → Nat} (hr : WordReady s g h (.monwait h cmp o sc wide d a b)) (hst : Still s g h) (ha : active s g h ≠ 0)
    (hrd : ReadsScratch h wide a s g u t v)
    (hmet : ∀ l, (active s g h).getLsbD l = true → monHolds cmp (v l) (monArg g wide b l).toNat = true) :
    ∃ lanes hazards handling, let g' := { g with backoff := 0 }.issued s true s.clk h.stall.toNat lanes hazards handling
      exec (.monwait h cmp o sc wide d a b) s = .next ((numbered s).setGroup s.cur.gid g') ∧
      lanesAfter s g g' h (fun l ln => Results.into (valWrites wide d.toNat (v l), [], 0) ln) := by
  have hback := setBackoff_at (numbered s) s.cur.gid 0 g hr.here
  have hagain : ((numbered s).setGroup s.cur.gid { g with backoff := 0 }).setBackoff s.cur.gid 0 =
      (numbered s).setGroup s.cur.gid { g with backoff := 0 } := by
    rw [setBackoff_at _ _ _ { g with backoff := 0 } (by rw [group_setGroup, if_pos rfl]), setGroup_setGroup]
  have hlanes : ∀ s' : State, s'.team = s.team → s'.rcd = s.rcd → ∀ l ∈ lanesOf (active s g h),
      asLane (monwaitDoes cmp wide d a b s g l s') = (doneOf (valWrites wide d.toNat (v l), [], 0), s'.setBackoff s.cur.gid 0) := fun s' ht hrec l hl => by
    have hact := (mem_lanesOf.mp hl).2
    rw [hrd.monwait cmp d b s' ht hrec l hact (hmet l hact)]
    rfl
  obtain ⟨body, hword, hacts⟩ := execMonwait_word h cmp o sc wide d a b
  have hrun := runLanes_settled (body (memCtl s g h)) (fun l => doneOf (valWrites wide d.toNat (v l), [], 0)) (lanesOf (active s g h))
    (mt lanesOf_nil.mp ha) (numbered s) ((numbered s).setGroup s.cur.gid { g with backoff := 0 })
    (fun l hl => ((hacts s g hrd.window l hl _).trans (hlanes (numbered s) rfl rfl l hl)).trans (by rw [hback]))
    (fun l hl => ((hacts s g hrd.window l hl ((numbered s).setGroup s.cur.gid { g with backoff := 0 })).trans (hlanes ((numbered s).setGroup s.cur.gid { g with backoff := 0 }) rfl rfl l hl)).trans (by rw [hagain]))
  obtain ⟨lanes, hazards, handling, hend, hafter⟩ := finishWord_takes (s := s) (g := g) (h := h) (u := instrUses (.monwait h cmp o sc wide d a b))
    (o := monitorOps a) (fun l => (valWrites wide d.toNat (v l), [], 0))
    (gm := { g with backoff := 0 }) (s2 := (numbered s).setGroup s.cur.gid { g with backoff := 0 })
    (by rw [group_setGroup, if_pos rfl])
    rfl rfl (by cases wide <;> rfl)
  refine ⟨lanes, hazards, handling, ?_, hafter⟩
  rw [hword, State.word, issueMem_runs hr hst (monitorOps a) body rfl rfl rfl rfl rfl rfl]
  show Host.Outcome.next ((runLanes (body (memCtl s g h)) (lanesOf (active s g h)) (numbered s)).2.finishWord g (memCtl s g h) _ _ _ _
    (runLanes (body (memCtl s g h)) (lanesOf (active s g h)) (numbered s)).1) = _
  rw [hrun]
  exact congrArg Host.Outcome.next (hend.trans (setGroup_setGroup _ _ _ _))

/-! ### POLL (R114, R393) -/

/-- Its POLLs with this one, of which no lane but those before has found its condition met. -/
def Group.polling (g : Group) (word : Nat) (met : Bool) : Group := { g with polls := [(word, met)] }

theorem pollStart_first (s : State) (gid word : Nat) (g : Group) (hg : s.group gid = some g) (hp : g.polls = []) (hw : word ≠ 0) :
    s.pollStart gid word = s.setGroup gid (g.polling word false) := by
  rw [State.pollStart, hg]
  dsimp only
  rw [if_neg (by simp [hp, hw]), hp]
  rfl

theorem pollStart_again (s : State) (gid word : Nat) (g : Group) (met : Bool) (hg : s.group gid = some (g.polling word met)) :
    s.pollStart gid word = s := by
  rw [State.pollStart, hg]
  exact if_pos (.inr (by simp [Group.polling]))

theorem pollNote_polling (s : State) (gid word : Nat) (g : Group) (m met : Bool) :
    (s.setGroup gid (g.polling word m)).pollNote gid word met = s.setGroup gid (g.polling word (m || met)) := by
  rw [State.pollNote, group_setGroup, if_pos rfl]
  simp [Group.polling, setGroup_setGroup]

/-- With no read out a POLL is over as its lanes found it. -/
theorem pollEnd_polling (s : State) (gid word : Nat) (g : Group) (met : Bool) (ht : s.txns = []) (hg : g.polls = [(word, met)]) :
    (s.setGroup gid g).pollEnd gid = s.setGroup gid { g.pollOver s.clk met with polls := [] } := by
  have hnone : (listed (s.setGroup gid g).txns) = [] := by
    rw [show (s.setGroup gid g).txns = [] from ht, listed_nil]
  rw [State.pollEnd, group_setGroup, if_pos rfl]
  simp only [hnone, hg, setGroup_setGroup]
  rfl


/-- What POLL gives a lane that reads v. -/
def pollGives (cmp : MonCmp) (wide : Bool) (pd : BitVec 3) (d b : RegIx) (g : Group) (v : Nat → Nat) (l : Nat) : Results :=
  (valWrites wide d.toNat (v l), [(pd.toNat, monHolds cmp (v l) (monArg g wide b l).toNat)], 0)

theorem pollStart_frame (s : State) (gid word : Nat) : (s.pollStart gid word).team = s.team ∧ (s.pollStart gid word).rcd = s.rcd := by
  unfold State.pollStart
  split
  · split
    · exact ⟨rfl, rfl⟩
    · exact ⟨rfl, rfl⟩
  · exact ⟨rfl, rfl⟩

/-- A lane that reads its scratchpad: POLL has its value, and the group's POLL is noted. -/
theorem ReadsScratch.poll {h : Hdr} {wide : Bool} {a : RegIx} {s : State} {g : Group} {u : Nat} {t : Team} {v : Nat → Nat}
    (hrd : ReadsScratch h wide a s g u t v) (cmp : MonCmp) (o : Sys2Proof.Ord) (sc : Scope) (pd : BitVec 3) (d b : RegIx) (s' : State)
    (hteam : s'.team = s.team) (hrec : s'.rcd = s.rcd) (word l : Nat) (hl : (active s g h).getLsbD l = true) :
    s'.pollLane { readyCtl s g h false with word := word } l cmp o sc wide pd d a b =
      (doneOf (pollGives cmp wide pd d b g v l),
        (s'.pollStart s.cur.gid word).pollNote s.cur.gid word (monHolds cmp (v l) (monArg g wide b l).toNat)) := by
  obtain ⟨hteam', hrec'⟩ := pollStart_frame s' s.cur.gid word
  obtain ⟨hlo, hhi⟩ := hrd.window.2 l hl
  have hloc := (locate_window (s'.pollStart s.cur.gid word) g (laneEa g a l) wide hrd.window.1 hlo hhi).trans
    (congrArg asSpot (hrd.at_place _ (hteam'.trans hteam) (hrec'.trans hrec) l hl))
  have hval := hrd.value (s'.pollStart s.cur.gid word) (hteam'.trans hteam) l
  have harg : ({ readyCtl s g h false with word := word }.env l).reg wide b = monArg g wide b l := by cases wide <;> rfl
  unfold State.pollLane
  simp only [laneEa] at hloc hval
  simp only [harg, monB_arg]
  simp only [readyCtl, Ctl.env]
  rw [hloc]
  dsimp only [asSpot]
  rw [hval]
  rfl

theorem execPoll_eq (h : Hdr) (cmp : MonCmp) (o : Sys2Proof.Ord) (sc : Scope) (wide : Bool) (pd : BitVec 3) (d a b : RegIx) : ∃ ops : WordOps,
    (∀ s, exec (.poll h cmp o sc wide pd d a b) s =
      s.word (.poll h cmp o sc wide pd d a b) h ops fun w l s => s.pollLane w l cmp o sc wide pd d a b) ∧
    ops.mem = true ∧ ops.u = false ∧ ops.sync = false ∧ ops.once = false ∧ ops.rot = true ∧
    (∀ c s, ops.ready c s = (lanesOf c.act).all fun l => decide ((s.pollLane c l cmp o sc wide pd d a b).1 ≠ .stay)) ∧
    (∀ c s, c.act ≠ 0 → ops.fin c s = s.pollEnd c.gid) :=
  ⟨_, fun _ => rfl, rfl, rfl, rfl, rfl, rfl, fun _ _ => rfl, fun _ _ hc => if_neg hc⟩

/-- The lanes of a POLL that has started, in turn: whether one of them has found its condition met is kept. -/
theorem runLanes_polling (f : Nat → State → LaneRes × State) (r : Nat → LaneRes) (met : Nat → Bool) (t : Bool → State) (ls : List Nat)
    (hf : ∀ l ∈ ls, ∀ m, f l (t m) = (r l, t (m || met l))) (m : Bool) :
    runLanes f ls (t m) = (ls.map fun l => (l, r l), t (m || ls.any met)) := by
  induction ls generalizing m with
  | nil => simp [runLanes]
  | cons l ls ih =>
    simp only [runLanes, hf l (by simp), ih (fun j hj => hf j (by simp [hj])), List.map_cons, List.any_cons, Bool.or_assoc]

/-- A POLL of the scratchpad: every lane has its value at once, and the POLL is over as they found it. -/
theorem execPoll_ends {h : Hdr} {cmp : MonCmp} {o : Sys2Proof.Ord} {sc : Scope} {wide : Bool} {pd : BitVec 3} {d a b : RegIx} {s : State} {g : Group}
    {u : Nat} {t : Team} {v : Nat → Nat} (hr : WordReady s g h (.poll h cmp o sc wide pd d a b)) (hst : Still s g h) (htx : s.txns = [])
    (ha : active s g h ≠ 0) (hp : g.polls = []) (hpos : 0 < s.next) (hrd : ReadsScratch h wide a s g u t v) :
    let met := (lanesOf (active s g h)).any fun l => monHolds cmp (v l) (monArg g wide b l).toNat
    ∃ lanes hazards handling, let g' := (g.polling s.next met).issued s true s.clk h.stall.toNat lanes hazards handling
      exec (.poll h cmp o sc wide pd d a b) s = .next ((numbered s).setGroup s.cur.gid { g'.pollOver s.clk met with polls := [] }) ∧
      lanesAfter s g g' h (fun l ln => (pollGives cmp wide pd d b g v l).into ln) := by
  intro met
  obtain ⟨ops, hword, hmem, hu, hsync, honce, hrot, hready, hfin⟩ := execPoll_eq h cmp o sc wide pd d a b
  let c := memCtl s g h
  let body := fun (w : Ctl) l (s : State) => s.pollLane w l cmp o sc wide pd d a b
  let poll := fun (m : Bool) => (numbered s).setGroup s.cur.gid (g.polling s.next m)
  have hstarted : ∀ l ∈ lanesOf (active s g h), ∀ m, body c l (poll m) =
      (doneOf (pollGives cmp wide pd d b g v l), poll (m || monHolds cmp (v l) (monArg g wide b l).toNat)) := fun l hl m => by
    have hcur : (poll m).group s.cur.gid = some (g.polling s.next m) := by rw [group_setGroup, if_pos rfl]
    refine (hrd.poll cmp o sc pd d b (poll m) rfl rfl s.next l (mem_lanesOf.mp hl).2).trans ?_
    rw [pollStart_again _ _ _ g m hcur, pollNote_polling]
  have hfirst : ∀ l ∈ lanesOf (active s g h), body c l (numbered s) = body c l (poll false) := fun l hl => by
    rw [hstarted l hl]
    refine (hrd.poll cmp o sc pd d b (numbered s) rfl rfl s.next l (mem_lanesOf.mp hl).2).trans ?_
    rw [pollStart_first (numbered s) _ _ g hr.here hp (Nat.ne_of_gt hpos), pollNote_polling]
  have hrun : runLanes (body c) (lanesOf (active s g h)) (numbered s) =
      ((lanesOf (active s g h)).map fun l => (l, doneOf (pollGives cmp wide pd d b g v l)), poll met) := by
    have hpoll := runLanes_polling (body c) _ _ poll (lanesOf (active s g h)) hstarted false
    rw [Bool.false_or] at hpoll
    refine Eq.trans ?_ hpoll
    obtain ⟨ls, hl⟩ := lanesOf_active ha
    rw [hl] at hfirst ⊢
    simp only [runLanes, hfirst _ (List.mem_cons_self ..)]
  have hrdy : ops.ready (readyCtl s g h false) s = true := by
    rw [hready, List.all_eq_true]
    intro l hl
    rw [decide_eq_true_eq]
    have := hrd.poll cmp o sc pd d b s rfl rfl 0 l (mem_lanesOf.mp hl).2
    rw [show ({ readyCtl s g h false with word := 0 } : Ctl) = readyCtl s g h false from rfl] at this
    rw [this]
    exact fun hc => nomatch hc
  have hspread : ∀ rs, c.spread ops rs = rs := fun rs => by
    simp [Ctl.spread, honce, c, memCtl, readyCtl, hst.1]
  obtain ⟨lanes, hazards, handling, hend, hafter⟩ := finishWord_takes (s := s) (g := g) (h := h) (u := instrUses (.poll h cmp o sc wide pd d a b))
    (o := ops) (pollGives cmp wide pd d b g v) (show (poll met).group s.cur.gid = some (g.polling s.next met) by rw [group_setGroup, if_pos rfl])
    rfl honce (by cases wide <;> rfl)
  rw [hrot] at hend hafter
  refine ⟨lanes, hazards, handling, ?_, hafter⟩
  rw [hword, State.word, issueMem_ends hr hst ops body hmem hu hsync hrdy]
  simp only [honce, Bool.false_eq_true, ↓reduceIte]
  show Host.Outcome.next (ops.fin c ((runLanes (body c) (lanesOf (active s g h)) (numbered s)).2.finishWord g c _ _ _ _
    (c.spread ops (runLanes (body c) (lanesOf (active s g h)) (numbered s)).1))) = _
  rw [hrun, hspread, hfin c _ ha]
  refine congrArg Host.Outcome.next ((congrArg (fun x : State => x.pollEnd s.cur.gid) hend).trans ?_)
  rw [pollEnd_polling (poll met) s.cur.gid s.next _ met htx rfl]
  exact setGroup_setGroup _ _ _ _

end Sys2Proof.Machine
end

section
/-! SUPPORT. O23: the requests of ENQ and DEQ (R394, R395). -/
namespace Sys2Proof.Machine

open Sys2Proof.Safety

/-- The block at A lies on a writable page that the core's TLB holds, in this device's memory, at cell x. -/
structure BlockAt (s : State) (core k A : Nat) (leaf : Leaf) (x : Nat) : Prop where
  aligned : A % 4096 = 0
  page : PageHeld s core k A 4096 .store leaf x

theorem blockAt_of {s : State} {core k A : Nat} {leaf : Leaf} {x : Nat} (hal : A % 4096 = 0) (hbelow : A < windowBase) (hw : leaf.w = true)
    (htlb : s.tlbAt core k A = some leaf) (hcell : s.target k 4096 .store (leaf.phys A) = .ok (.cell, x)) : BlockAt s core k A leaf x :=
  ⟨hal, hbelow, fun _ => hw, fun h => (nomatch h), htlb, hcell⟩

/-! ### The request (R394) -/

/-- Is it a request of a program queue? -/
def AccOp.queues : AccOp → Bool
  | .enq _ => true
  | .deq .. => true
  | _ => false

/-- The request of a lane to the queue engine of the block at cell x. -/
def queueTxn (s : State) (g : Group) (l A : Nat) (leaf : Leaf) (x : Nat) (sc : Scope) (op : AccOp) (bs : List Byte) : Txn :=
  { core := g.core, gid := s.cur.gid, ctx := s.ctxOf g, launch := g.launch, tgt := .cell, line := x / 128
    parts := [{ lane := l, addr := x, va := A, len := bs.length, op := op, data := bs, level := leaf.level }], scope := sc
    rel := op.writes, wb := op.writes, lvl := if (s.viewOf (leaf.phys A)).isSome then leaf.lvl else 0
    pc := s.cur.pc, word := s.next }

/-- The state in which the request of a lane is on its way. -/
def queueSent (s : State) (T : Txn) : State := { s with next := s.next + 2, txns := Sparse.set none s.txns (s.next + 1) (some T) }

/-- With nothing on its way and its stores to host memory confirmed, a release has nothing to wait for but what is dirty. -/
theorem releaseDeps_calm (s : State) (gid l : Nat) (sc : Scope) (proto : Txn) (ht : s.txns = [])
    (hq : sc = .sys → s.hostQuiet proto.ctx 0 = true ∧ s.hostQuiet proto.ctx 1 = true) : s.releaseDeps gid l sc false proto = ([], true, s) := by
  rw [State.releaseDeps, Bool.false_and, if_neg Bool.false_ne_true, threadTxns_none s gid l ht, coreWrites_none s _ _ ht]
  by_cases hsc : sc = .sys
  · obtain ⟨h0, h1⟩ := hq hsc
    have hz : s.zeroReads l proto = ([], s) := by
      simp only [State.zeroReads, List.foldl_cons, List.foldl_nil, h0, h1, ↓reduceIte]
    rw [if_pos hsc, hz]; rfl
  · rw [if_neg hsc]; rfl

/-- A lane's request leaves for the queue engine. -/
theorem queueReq_sends (s : State) (g : Group) (h : Hdr) (l A : Nat) (leaf : Leaf) (x : Nat) (sc : Scope) (op : AccOp) (bs : List Byte)
    (ht : s.txns = []) (hb : BlockAt s g.core (s.ctxOf g) A leaf x)
    (hq : sc = .sys → s.hostQuiet (s.ctxOf g) 0 = true ∧ s.hostQuiet (s.ctxOf g) 1 = true) :
    (numbered s).queueReq (memCtl s g h) l A op bs sc = (.stay, queueSent s (queueTxn s g l A leaf x sc op bs)) := by
  have hb' : PageHeld (numbered s) g.core (s.ctxOf g) A 4096 .store leaf x :=
    ⟨hb.page.below, hb.page.writable, hb.page.runs, hb.page.held, hb.page.cell⟩
  have hwin : ¬ 2 ^ 57 ≤ A ∧ ¬ windowBase ≤ A := by
    have := hb.page.below57
    exact ⟨fun h => this (.inl h), fun h => this (.inr h)⟩
  have hcheck := hb'.checkFor g s.cur.gid l rfl rfl
  have hthread : (numbered s).threadTxns s.cur.gid l = [] := threadTxns_none _ _ _ ht
  unfold State.queueReq
  rw [if_neg (by simp [hb.aligned]), if_neg hwin.1, if_neg hwin.2]
  simp only [memCtl, readyCtl]
  rw [hcheck]
  simp only [hthread, List.filter_nil, List.map_nil, viewLeaf_level, viewLeaf_lvl]
  cases hw : op.writes
  · simp only [queueTxn, hw]
    rfl
  · rw [if_pos rfl, releaseDeps_calm (numbered s) _ _ _ _ ht]
    · simp only [queueTxn, hw]
      rfl
    · exact hq

/-- The lane's trap on an address that no block has. -/
theorem queueReq_traps (s : State) (c : Ctl) (l A : Nat) (op : AccOp) (bs : List Byte) (sc : Scope) :
    (A % 4096 ≠ 0 → s.queueReq c l A op bs sc = (.trap 0x25 0 (BitVec.ofNat 64 A), s)) ∧
    (A % 4096 = 0 → 2 ^ 57 ≤ A → s.queueReq c l A op bs sc = (.trap 0x26 0 (BitVec.ofNat 64 A), s)) := by
  refine ⟨fun h => ?_, fun h hhigh => ?_⟩
  · rw [State.queueReq, if_pos h]; rfl
  · rw [State.queueReq, if_neg (not_not_intro h), if_pos hhigh]; rfl

/-! ### The words (R394, R395) -/

/-- A word that sends lane l's request `op` with the bytes `bs` to the block that register a points at. -/
structure QueueWord (i : Instr) (h : Hdr) (g : Group) (l : Nat) (a : RegIx) (sc : Scope) (op : AccOp) (bs : List Byte) : Prop where
  lands : (instrUses i).landing = false
  word : ∃ body, (∀ s, exec i s = s.word i h { mem := true } body) ∧
    ∀ s s', body (memCtl s g h) l s' = s'.queueReq (memCtl s g h) l (laneEa g a l) op bs sc

theorem execEnq_word (h : Hdr) (w : QWidth) (sc : Scope) (d a : RegIx) (g : Group) (l : Nat) :
    QueueWord (.enq h w sc d a) h g l a sc (.enq w) (qData (envOf false g l) w d) :=
  ⟨by cases w <;> rfl, _, fun _ => rfl, fun _ _ => rfl⟩

theorem execDeq_word (h : Hdr) (w : QWidth) (wait : Bool) (sc : Scope) (pd : BitVec 3) (d a : RegIx) (g : Group) (l : Nat) :
    QueueWord (.deq h w wait sc pd d a) h g l a sc (.deq w wait pd d) [] :=
  ⟨by cases w <;> rfl, _, fun _ => rfl, fun _ _ => rfl⟩

/-- The bytes of an ENQ are its registers', of which vz reads as zero. -/
theorem qData_eq (g : Group) (l : Nat) (w : QWidth) (d : RegIx) : qData (envOf false g l) w d = match w with
    | .b32 => toLE 4 ((g.lane l).reg d.toNat).toNat
    | .n64 => toLE 8 ((g.lane l).reg64 d.toNat).toNat
    | .b128 => (List.range 4).flatMap fun i => if d = 511#9 then [0, 0, 0, 0] else toLE 4 ((g.lane l).reg (d.toNat + i)).toNat := by
  cases w with
  | b32 => rfl
  | n64 => rfl
  | b128 =>
    by_cases hd : d = 511#9
    · subst hd; rfl
    · simp only [qData, Env.data, if_neg hd]; rfl

section
variable {i : Instr} {h : Hdr} {s : State} {g : Group} {l : Nat} {a : RegIx} {sc : Scope} {op : AccOp} {bs : List Byte}
  (hq : QueueWord i h g l a sc op bs) (hl : lanesOf (active s g h) = [l]) (hst : Still s g h) (hr : WordReady s g h i)
include hq hl hst hr

theorem QueueWord.oneLane : OneLane s g h i l { mem := true } := ⟨hr, hst, hl, rfl, rfl, rfl, rfl, rfl, hq.lands, rfl⟩

theorem QueueWord.trapped {code : Nat} (hh : (g.lane l).handler = false)
    (hreq : (numbered s).queueReq (memCtl s g h) l (laneEa g a l) op bs sc = (.trap code 0 (BitVec.ofNat 64 (laneEa g a l)), numbered s)) :
    ∃ g', exec i s = .next ((numbered s).setGroup s.cur.gid g') ∧
      lanesRun s g g' h (fun _ _ => (g.lane l).trap code 0 (BitVec.ofNat 64 (laneEa g a l))) ∧ groupAfter s g g' h := by
  obtain ⟨body, hword, hbody⟩ := hq.word
  have hone := hq.oneLane hl hst hr
  obtain ⟨g', hexec, hlanes, hafter⟩ := hone.traps ((hbody s _).trans hreq) hr.here hh
  refine ⟨g', (hword s).trans hexec, fun j hj => (hlanes j hj).trans ?_, hafter⟩
  refine if_congr Iff.rfl ?_ rfl
  by_cases ha : (active s g h).getLsbD j = true
  · rw [if_pos ha, if_pos ha, (hone.active_iff j hj).mp ha]
  · rw [if_neg ha, if_neg ha]

/-- The lane stays at its word while its request is on its way. -/
theorem QueueWord.sent {T : Txn} (hreq : (numbered s).queueReq (memCtl s g h) l (laneEa g a l) op bs sc = (.stay, queueSent s T)) :
    ∃ g', lanesRun s g g' h (fun _ ln => ln) ∧ groupAfter s g g' h ∧ exec i s = .next ((queueSent s T).setGroup s.cur.gid g') := by
  obtain ⟨body, hword, hbody⟩ := hq.word
  have hone := hq.oneLane hl hst hr
  obtain ⟨g', hfin, hlanes, -, -, hafter⟩ := finishWord_one (s2 := queueSent s T) (h := h) (word := s.next) (d := .stays) hl (rfl : ({ mem := true } : WordOps).once = false)
    hq.lands hr.here rfl (fun _ _ _ hd => nomatch hd)
  refine ⟨g', fun j hj => (hlanes j hj).trans ?_, hafter,
    (hword s).trans ((hone.word_eq ((hbody s _).trans hreq)).trans (congrArg Host.Outcome.next hfin))⟩
  exact if_congr Iff.rfl (if_congr (hone.active_iff j hj).symm rfl rfl) rfl
end
end Sys2Proof.Machine
end

section
/-! SUPPORT. O23: the queue engine (R394, R395). -/
namespace Sys2Proof.Machine

open Sys2Proof.Safety

/-! ### One request on its way -/

/-- Nothing is on its way but the request T of one part q to a block, and nothing holds up the engine. -/
structure QueueAlone (s : State) (id : Nat) (T : Txn) (q : Part) : Prop where
  alone : s.txns = [(id, some T)]
  parts : T.parts = [q]
  cell : T.tgt = .cell
  live : q.live = true
  small : id < 2 ^ 63
  posted : s.posted = []
  peers : s.peers = []
  dir : s.dir = []
  poison : s.poison = []
  boot : s.mgmt.boot ≠ .notReady

theorem set_first (id : Nat) (T : Txn) : Sparse.set none [] id (some T) = [(id, some T)] := by
  simp [Sparse.set, Sparse.put, Sparse.del, Sparse.ins]

theorem set_only (id : Nat) (T T' : Txn) : Sparse.set none [(id, some T)] id (some T') = [(id, some T')] := by
  simp [Sparse.set, Sparse.put, Sparse.del, Sparse.ins]

section
variable {s : State} {id : Nat} {T : Txn} {q : Part} (h : QueueAlone s id T q)
include h

theorem QueueAlone.listed : listed s.txns = [(id, T)] := by rw [h.alone]; rfl

theorem QueueAlone.txn : s.txn id = some T := by
  rw [State.txn, h.alone]
  exact if_pos rfl

/-- No older request holds it up. -/
theorem QueueAlone.first : s.lowerLane id T = false ∧ s.ownStores id T q = false ∧ s.olderOverlap id T = false := by
  have hself : decide (id < id) = false := by simp
  exact ⟨by simp [State.lowerLane, h.listed], by simp [State.ownStores, h.listed], by simp [State.olderOverlap, h.listed]⟩

theorem QueueAlone.nobodyBefore (x : Nat) (deq : Bool) : s.queueBefore id x deq = false := by
  simp [State.queueBefore, h.listed]

theorem QueueAlone.granted (x : Nat) (ha : T.accepted = false) : s.granted x = 0 := by
  simp [State.granted, h.listed, ha]

/-- The request comes before the engine. -/
theorem QueueAlone.reaches (hop : q.op.queues = true) (hdeliver : s.mayDeliver T = true) : s.homeRequest id = s.serveQueue id T q := by
  have hsmall := h.small
  rw [State.homeRequest, if_neg (by omega), if_neg (by omega), State.postedAt, State.peerAt, h.posted, h.peers]
  simp only [Sparse.get]
  rw [State.ownRequest, h.txn]
  dsimp only
  rw [h.cell]
  dsimp only
  have hlive : T.live.parts = [q] := by simp [Txn.live, h.parts, h.live]
  simp only [State.serveCell, hlive, List.find?_cons, hdeliver]
  cases hq : q.op with
  | enq w => simp
  | deq w wait pd d => simp
  | _ => simp [hq, AccOp.queues] at hop

/-- The engine takes up an ENQ. -/
theorem QueueAlone.served_enq {w : QWidth} (hop : q.op = .enq w) : s.serveQueue id T q = s.serveEnq id T q w := by
  rw [State.serveQueue, h.first.1, h.first.2.1, rangeFree_undirected s _ _ h.dir h.boot, poisonedRange_clean s _ _ h.poison, hop]
  simp

/-- The engine takes up a DEQ. -/
theorem QueueAlone.served_deq {w : QWidth} {wait : Bool} {pd : BitVec 3} {d : RegIx} (hop : q.op = .deq w wait pd d) :
    s.serveQueue id T q = s.serveDeq id T q w wait pd d := by
  rw [State.serveQueue, h.first.1, h.first.2.1, rangeFree_undirected s _ _ h.dir h.boot, poisonedRange_clean s _ _ h.poison, hop]
  simp
end

/-- A header is read from memory. -/
theorem queueHead_of_mem {s t : State} (h : t.mem = s.mem) (x : Nat) : t.queueHead x = s.queueHead x := by
  have hc : t.cells x 64 = s.cells x 64 := by simp only [State.cells, State.cell, h]
  rw [State.queueHead, State.queueHead, hc]

/-! ### A lane passes its word -/

/-- Registers and predicates are all that results change. -/
theorem setRegs_frame (ln : Lane) (ws : List (Nat × Word)) : ln.setRegs ws = { ln with v := (ln.setRegs ws).v } := by
  unfold Lane.setRegs
  induction ws generalizing ln with
  | nil => rfl
  | cons w ws ih =>
    rw [List.foldl_cons, ih]
    simp only [Lane.setReg]
    split <;> rfl

theorem setPred_frame (ln : Lane) (p : Nat) (b : Bool) : ln.setPred p b = { ln with p := (ln.setPred p b).p } := by
  unfold Lane.setPred
  split <;> rfl

/-- The lane past a word of the queue engine. -/
def Lane.passed (ln : Lane) (ws : List (Nat × Word)) (ps : List (Nat × Bool)) : Lane :=
  { ((ln.setRegs ws).setPreds ps).unpark with pc := ((ln.setRegs ws).setPreds ps).unpark.pc + 8 }

theorem passed_eq (ln : Lane) (ws : List (Nat × Word)) (p : Nat) (b : Bool) : ln.passed ws [(p, b)] =
    { ln with st := .eligible, park := .none, ready := false, v := (ln.setRegs ws).v, p := (ln.setPred p b).p, pc := ln.pc + 8 } := by
  have hp : ((ln.setRegs ws).setPred p b).p = (ln.setPred p b).p := by
    rw [setRegs_frame]
    simp only [Lane.setPred]
    split <;> rfl
  simp only [Lane.passed, Lane.setPreds, List.foldl_cons, List.foldl_nil]
  rw [setPred_frame, hp, setRegs_frame]
  rfl

theorem passed_plain (ln : Lane) : ln.passed [] [] = { ln with st := .eligible, park := .none, ready := false, pc := ln.pc + 8 } := rfl

theorem passWord_eq (s : State) (gid l : Nat) (ws : List (Nat × Word)) (ps : List (Nat × Bool)) (g : Group) (hg : s.group gid = some g)
    (hp : (s.rcd g.launch).blk.prot = false) : s.passWord gid l ws ps = s.setGroup gid (g.setLane l ((g.lane l).passed ws ps)) :=
  onLane_unprotected s gid l _ g hg hp

/-! ### ENQ at the engine (R394) -/

theorem QueueAlone.enq_served {s : State} {id : Nat} {T : Txn} {q : Part} {w : QWidth} (h : QueueAlone s id T q) (hop : q.op = .enq w) :
    s.homeRequest id = s.serveEnq id T q w := by
  have hdeliver : s.mayDeliver T = true := by simp [State.mayDeliver, h.parts, hop, AccOp.toLane]
  rw [h.reaches (by rw [hop]; rfl) hdeliver, h.served_enq hop]

section
variable {s : State} {id : Nat} {T : Txn} {q : Part} {w : QWidth} {hd : QHead} (h : QueueAlone s id T q)
  (hhead : s.queueHead q.addr = some hd) (hsize : hd.size = qSize w)
include h hhead hsize

/-- With room in the block the request is granted its place, and its lane goes on. -/
theorem QueueAlone.enq_granted (ha : T.accepted = false) (hroom : hd.used < hd.cap) :
    s.serveEnq id T q w = (s.passWord T.gid q.lane [] []).setTxn id (some { T with accepted := true }) := by
  rw [State.serveEnq, hhead]
  dsimp only
  rw [if_neg (not_not_intro hsize), ha, h.granted _ ha, h.nobodyBefore]
  simp [Nat.not_le.mpr hroom]

/-- A granted request leaves its core once its release's waits are over. -/
theorem QueueAlone.enq_leaves (ha : T.accepted = true) (hl : T.left = false) (hdeps : T.deps = [])
    (hclean : s.clean T.core T.ctx = true) (hlost : s.lostRelease id T = none) :
    s.serveEnq id T q w = s.setTxn id (some { T with left := true }) := by
  have hmay : s.mayLeave id T = true := by
    rw [State.mayLeave, hdeps, cleanTo_of_clean s _ _ _ hclean, h.first.2.2]
    simp
  rw [State.serveEnq, hhead]
  dsimp only
  rw [if_neg (not_not_intro hsize), ha, hl, State.leave, hmay, hlost]
  simp [ha]

/-- Then its entry is written, and TAIL moves. -/
theorem QueueAlone.enq_written (ha : T.accepted = true) (hl : T.left = true) : s.serveEnq id T q w =
    (((s.count (srcCore T.core) q.addr).queueWrite id T (hd.slot q.addr hd.tail) (q.data.take hd.size)).queueWrite id T (q.addr + 12)
      (toLE 4 ((hd.tail + 1) % 2 ^ 32))).setTxn id (some { T with parts := [{ q with op := .store, data := [] }] }) := by
  rw [State.serveEnq, hhead]
  dsimp only
  rw [if_neg (not_not_intro hsize), ha, hl, rangeFree_undirected s _ _ h.dir h.boot]
  rfl
end

/-- The bytes that the engine writes, and no others. -/
theorem queueWrite_cell (s : State) (id : Nat) (T : Txn) (c : Nat) (bs : List Byte) (y : Nat) :
    (s.queueWrite id T c bs).cell y = if c ≤ y ∧ y < c + bs.length then bs.getD (y - c) 0 else s.cell y := by
  have hmem : (s.queueWrite id T c bs).mem = (s.putCells (runOf c bs.length fun i => bs.getD i 0)).mem := by
    rw [State.queueWrite, (onlyLanesDir_publish _ _ _).field State.mem]
    exact commit_mem _ _ _
  rw [cell_of_mem hmem, putCells_runOf_cell]

/-- Cells that hold given bytes. -/
theorem cells_eq (s : State) (c : Nat) (bs : List Byte) (n : Nat) (hn : bs.length = n)
    (h : ∀ y, c ≤ y → y < c + n → s.cell y = bs.getD (y - c) 0) : s.cells c n = bs := by
  subst hn
  refine List.ext_getElem (by simp [State.cells]) fun i h1 h2 => ?_
  have := h (c + i) (by omega) (by omega)
  simp only [State.cells, List.getElem_map, List.getElem_range, this, Nat.add_sub_cancel_left]
  exact List.getD_eq_getElem _ _ h2

/-! ### DEQ at the engine (R395) -/

theorem QueueAlone.deq_served {s : State} {id : Nat} {T : Txn} {q : Part} {w : QWidth} {wait : Bool} {pd : BitVec 3} {d : RegIx}
    (h : QueueAlone s id T q) (hop : q.op = .deq w wait pd d) (hdeliver : s.mayDeliver T = true) :
    s.homeRequest id = s.serveDeq id T q w wait pd d := by
  rw [h.reaches (by rw [hop]; rfl) hdeliver, h.served_deq hop]

/-- An empty block: a DEQ that does not wait goes on with its predicate false. -/
theorem serveDeq_empty {s : State} {id : Nat} {T : Txn} {q : Part} {w : QWidth} {hd : QHead} (hhead : s.queueHead q.addr = some hd)
    (hsize : hd.size = qSize w) (pd : BitVec 3) (d : RegIx) (hu : hd.used = 0) : s.serveDeq id T q w false pd d =
    ((s.count (srcCore T.core) q.addr).passWord T.gid q.lane [] [(pd.toNat, false)]).setTxn id none := by
  unfold State.serveDeq
  simp only [hhead]
  rw [if_neg (not_not_intro hsize), if_pos hu, if_neg Bool.false_ne_true]

/-- The width of an entry, as a load's. -/
def entryWidth : QWidth → Width
  | .b32 => .b32
  | .n64 => .n64
  | .b128 => .b128

section
variable {s : State} {id : Nat} {T : Txn} {q : Part} {w : QWidth} {hd : QHead} (h : QueueAlone s id T q)
  (hhead : s.queueHead q.addr = some hd) (hsize : hd.size = qSize w) (wait : Bool) (pd : BitVec 3) (d : RegIx)
include h hhead hsize

/-- The first entry goes to the lane, and HEAD moves. -/
theorem QueueAlone.deq_taken (hu : hd.used ≠ 0) : s.serveDeq id T q w wait pd d =
    (((s.count (srcCore T.core) q.addr).passWord T.gid q.lane (widthWrites (entryWidth w) d.toNat (s.cells (hd.slot q.addr hd.head) hd.size))
      [(pd.toNat, true)]).queueWrite id T (q.addr + 8) (toLE 4 ((hd.head + 1) % 2 ^ 32))).setTxn id
      (some { T with accepted := true, parts := [{ q with op := .store, data := [] }] }) := by
  unfold State.serveDeq
  simp only [hhead]
  rw [if_neg (not_not_intro hsize), if_neg hu, h.nobodyBefore, rangeFree_undirected s _ _ h.dir h.boot, poisonedRange_clean s _ _ h.poison]
  cases w <;> simp [entryWidth]
end

/-- Lane l of group gid is `ln`, and the group stands in the table once. -/
def LaneIs (gid l : Nat) (ln : Lane) (s : State) : Prop := ∃ g, s.group gid = some g ∧ g.lane l = ln

/-- A pass that readies lanes of a group leaves every other lane. -/
theorem readied_lane (ls : List Nat) (l : Nat) (hl : l ∉ ls) (g : Group) :
    (ls.foldl (fun (g : Group) l => g.setLane l { g.lane l with ready := true }) g).lane l = g.lane l :=
  foldl_rel (fun g g' : Group => g'.lane l = g.lane l) (fun _ => rfl) (fun _ _ _ h k => k.trans h) _ ls
    (fun g j hj => by rw [lane_setLane, if_neg fun e : l = j => hl (e ▸ hj)]) g

/-- What becomes visible wakes no lane that waits for nothing. -/
theorem wakeMonitors_laneIs (s : State) (line id gid l : Nat) (T : Txn) (q : Part) (g : Group) (ht : s.txns = [(id, some T)])
    (hparts : T.parts = [q]) (hop : q.op.queues = true) (hg : s.group gid = some g) (honce : ∀ p ∈ listed s.groups, p.1 = gid → p.2 = g)
    (hpark : (g.lane l).park = .none) : LaneIs gid l (g.lane l) (s.wakeMonitors line) := by
  have hlisted : listed s.txns = [(id, T)] := by rw [ht]; rfl
  unfold State.wakeMonitors
  rw [foldl_same _ (listed s.txns) s]
  · refine foldl_rel (fun s t => LaneIs gid l (g.lane l) s → LaneIs gid l (g.lane l) t) (fun _ h => h) (fun _ _ _ h k x => k (h x)) _ _
      (fun t p hp ht => ?_) s ⟨g, hg, rfl⟩
    obtain ⟨k, hk, hkl⟩ := ht
    dsimp only
    split
    · exact ⟨k, hk, hkl⟩
    · by_cases hgid : p.1 = gid
      · refine ⟨_, by rw [hgid]; exact (group_setGroup _ _ _ _).trans (if_pos rfl), ?_⟩
        rw [honce p hp hgid]
        refine readied_lane _ l ?_ g
        simp [hpark]
      · exact ⟨k, ((group_setGroup _ _ _ _).trans (if_neg fun e => hgid e.symm)).trans hk, hkl⟩
  · intro p hp
    rw [hlisted, List.mem_singleton] at hp
    subst hp
    dsimp only
    rw [hparts]
    cases hq : q.op with
    | monitor cmp wide b d => simp [hq, AccOp.queues] at hop
    | _ => simp [hq]

/-- Once a group has been set, its table holds it once. -/
theorem listed_setGroup_once (s : State) (gid : Nat) (g : Group) : ∀ p ∈ listed (s.setGroup gid g).groups, p.1 = gid → p.2 = g := by
  rintro ⟨k, x⟩ hp rfl
  have hmem := mem_listed.mp hp
  rw [State.setGroup, Sparse.set, if_neg (Option.some_ne_none g), Sparse.put] at hmem
  rcases Sparse.mem_ins hmem with heq | hdel
  · simpa using heq
  · simp [Sparse.del] at hdel
end Sys2Proof.Machine
end

section
/-! SUPPORT. O23: ENQ and DEQ from their word to the end of their request (R394, R395). -/
namespace Sys2Proof.Machine

open Sys2Proof.Safety

/-- The request after a step of the engine that changed neither memory nor what else is on its way. -/
theorem QueueAlone.next {s t : State} {id : Nat} {T T' : Txn} {q : Part} (h : QueueAlone s id T q) (ht : t.txns = Sparse.set none s.txns id (some T'))
    (hparts : T'.parts = T.parts) (htgt : T'.tgt = T.tgt) (hposted : t.posted = s.posted) (hpeers : t.peers = s.peers) (hdir : t.dir = s.dir)
    (hpoison : t.poison = s.poison) (hmgmt : t.mgmt = s.mgmt) : QueueAlone t id T' q where
  alone := by rw [ht, h.alone, set_only]
  parts := hparts.trans h.parts
  cell := htgt.trans h.cell
  live := h.live
  small := h.small
  posted := hposted.trans h.posted
  peers := hpeers.trans h.peers
  dir := hdir.trans h.dir
  poison := hpoison.trans h.poison
  boot := hmgmt ▸ h.boot

theorem cell_count (s : State) (src : Src') (c y : Nat) : (s.count src c).cell y = s.cell y := rfl
theorem cell_setGroup (s : State) (i : Nat) (g : Group) (y : Nat) : (s.setGroup i g).cell y = s.cell y := rfl
theorem cell_setTxn (s : State) (i : Nat) (T : Option Txn) (y : Nat) : (s.setTxn i T).cell y = s.cell y := rfl

theorem group_setTxn (s : State) (i : Nat) (T : Option Txn) (k : Nat) : (s.setTxn i T).group k = s.group k := rfl

/-- The lane of a release has lost no remote store. -/
theorem lostRelease_none {s : State} {id : Nat} {T : Txn} {q : Part} {g : Group} (hparts : T.parts = [q]) (hg : s.group T.gid = some g)
    (hlink : T.scope = .sys → (g.lane q.lane).linkLost = false) : s.lostRelease id T = none := by
  unfold State.lostRelease
  simp only [hparts, hg, List.any_cons, List.any_nil, Bool.or_false]
  by_cases hsc : T.scope = .sys
  · simp [hlink hsc]
  · simp [hsc]

/-- What the engine writes wakes no lane that waits for nothing. -/
theorem queueWrite_laneIs {s : State} {id gid l : Nat} {T : Txn} {q : Part} {g : Group} (id' : Nat) (T' : Txn) (c : Nat) (bs : List Byte)
    (ht : s.txns = [(id, some T)]) (hparts : T.parts = [q]) (hop : q.op.queues = true) (hdir : s.dir = []) (hg : s.group gid = some g)
    (honce : ∀ p ∈ listed s.groups, p.1 = gid → p.2 = g) (hpark : (g.lane l).park = .none) :
    LaneIs gid l (g.lane l) (s.queueWrite id' T' c bs) := by
  have honly := onlyMemory_commit s (srcCore T'.core) ((List.range bs.length).map fun i => (c + i, bs.getD i 0))
  have hunshared : ((s.commit (srcCore T'.core) ((List.range bs.length).map fun i => (c + i, bs.getD i 0))).dirOf (c / 128)) = {} := by
    rw [State.dirOf, honly.field State.dir, hdir]; rfl
  have hgroups := honly.field State.groups
  rw [State.queueWrite, State.publish, hunshared]
  dsimp only
  rw [if_pos ⟨rfl, rfl⟩]
  refine wakeMonitors_laneIs _ _ id gid l T q g ((honly.field State.txns).trans ht) hparts hop ?_ (hgroups ▸ honce) hpark
  rw [State.group, hgroups]
  exact hg

section
variable {s : State} {id : Nat} {T : Txn} {q : Part} {w : QWidth} {hd : QHead} {g : Group} (h : QueueAlone s id T q)
  (hhead : s.queueHead q.addr = some hd) (hsize : hd.size = qSize w) (hg : s.group T.gid = some g) (hprot : (s.rcd g.launch).blk.prot = false)
include h hhead hsize hg hprot

/-- An ENQ from its request to its entry: granted its place, its lane goes on; it leaves its core; its entry and TAIL are written. -/
theorem QueueAlone.enq_runs (hop : q.op = .enq w) (hacc : T.accepted = false) (hleft : T.left = false) (hdeps : T.deps = [])
    (hroom : hd.used < hd.cap) (hclean : s.clean T.core T.ctx = true) (hlink : T.scope = .sys → (g.lane q.lane).linkLost = false)
    (hlen : q.data.length = hd.size) :
    ∃ t2 t3 t4 g2, exec (.homeRequest id) s = .next t2 ∧ exec (.homeRequest id) t2 = .next t3 ∧ exec (.homeRequest id) t3 = .next t4 ∧
      t2.group T.gid = some g2 ∧ g2.lane q.lane = (g.lane q.lane).passed [] [] ∧ t2.mem = s.mem ∧ t3.mem = s.mem ∧
      ∀ y, t4.cell y = if q.addr + 12 ≤ y ∧ y < q.addr + 12 + 4 then (toLE 4 ((hd.tail + 1) % 2 ^ 32)).getD (y - (q.addr + 12)) 0
        else if hd.slot q.addr hd.tail ≤ y ∧ y < hd.slot q.addr hd.tail + hd.size then q.data.getD (y - hd.slot q.addr hd.tail) 0 else s.cell y := by
  let g2 := g.setLane q.lane ((g.lane q.lane).passed [] [])
  let T2 : Txn := { T with accepted := true }
  let T3 : Txn := { T2 with left := true }
  let t2 := (s.setGroup T.gid g2).setTxn id (some T2)
  let t3 := t2.setTxn id (some T3)
  have hlane : g2.lane q.lane = (g.lane q.lane).passed [] [] := (lane_setLane _ _ _ _).trans (if_pos rfl)
  have hg2 : t2.group T.gid = some g2 := (group_setGroup _ _ _ _).trans (if_pos rfl)
  have h2 : QueueAlone t2 id T2 q := h.next rfl rfl rfl rfl rfl rfl rfl rfl
  have h3 : QueueAlone t3 id T3 q := h2.next rfl rfl rfl rfl rfl rfl rfl rfl
  have hlost : t2.lostRelease id T2 = none := lostRelease_none h2.parts hg2 fun hsc => by
    rw [hlane, passed_plain]
    exact hlink hsc
  have hstep1 : s.homeRequest id = t2 := by
    rw [h.enq_served hop, h.enq_granted hhead hsize hacc hroom, passWord_eq s _ _ _ _ g hg hprot]
  have hstep2 : t2.homeRequest id = t3 := by
    rw [h2.enq_served hop, h2.enq_leaves ((queueHead_of_mem rfl _).trans hhead) hsize rfl hleft hdeps hclean hlost]
  have hstep3 := (h3.enq_served hop).trans (h3.enq_written ((queueHead_of_mem rfl _).trans hhead) hsize rfl rfl)
  refine ⟨t2, t3, _, g2, congrArg Host.Outcome.next hstep1, congrArg Host.Outcome.next hstep2, congrArg Host.Outcome.next hstep3, hg2, hlane, rfl, rfl,
    fun y => ?_⟩
  rw [List.take_of_length_le (Nat.le_of_eq hlen)]
  rw [cell_setTxn, queueWrite_cell, queueWrite_cell, length_toLE, hlen, cell_count, cell_setTxn, cell_setTxn, cell_setGroup]

/-- A DEQ from a block that holds entries: the first one goes to its lane, which goes on, and HEAD moves. -/
theorem QueueAlone.deq_runs {wait : Bool} {pd : BitVec 3} {d : RegIx} (hop : q.op = .deq w wait pd d) (hres : g.resident = true) (hu : hd.used ≠ 0) :
    ∃ t2 g2, exec (.homeRequest id) s = .next t2 ∧ t2.group T.gid = some g2 ∧
      g2.lane q.lane = (g.lane q.lane).passed (widthWrites (entryWidth w) d.toNat (s.cells (hd.slot q.addr hd.head) hd.size)) [(pd.toNat, true)] ∧
      ∀ y, t2.cell y = if q.addr + 8 ≤ y ∧ y < q.addr + 8 + 4 then (toLE 4 ((hd.head + 1) % 2 ^ 32)).getD (y - (q.addr + 8)) 0 else s.cell y := by
  have hdeliver : s.mayDeliver T = true := by simp [State.mayDeliver, hg, hres]
  have hstep := (h.deq_served hop hdeliver).trans (h.deq_taken hhead hsize wait pd d hu)
  rw [passWord_eq (s.count (srcCore T.core) q.addr) _ _ _ _ g hg hprot] at hstep
  have hpark : ((g.lane q.lane).passed (widthWrites (entryWidth w) d.toNat (s.cells (hd.slot q.addr hd.head) hd.size)) [(pd.toNat, true)]).park = .none := rfl
  generalize (g.lane q.lane).passed (widthWrites (entryWidth w) d.toNat (s.cells (hd.slot q.addr hd.head) hd.size)) [(pd.toNat, true)] = ln
    at hstep hpark ⊢
  have hlane : (g.setLane q.lane ln).lane q.lane = ln := (lane_setLane _ _ _ _).trans (if_pos rfl)
  obtain ⟨g2, hg2, hl2⟩ := queueWrite_laneIs (s := (s.count (srcCore T.core) q.addr).setGroup T.gid (g.setLane q.lane ln)) (l := q.lane) id T
    (q.addr + 8) (toLE 4 ((hd.head + 1) % 2 ^ 32)) h.alone h.parts (by rw [hop]; rfl) h.dir ((group_setGroup _ _ _ _).trans (if_pos rfl))
    (listed_setGroup_once _ _ _) (by rw [hlane, hpark])
  refine ⟨_, g2, congrArg Host.Outcome.next hstep, (group_setTxn _ _ _ _).trans hg2, hl2.trans hlane, fun y => ?_⟩
  rw [cell_setTxn, queueWrite_cell, length_toLE, cell_setGroup, cell_count]

/-- A DEQ that does not wait, from an empty block: its lane goes on with its predicate false. -/
theorem QueueAlone.deq_runs_empty {pd : BitVec 3} {d : RegIx} (hop : q.op = .deq w false pd d) (hres : g.resident = true) (hu : hd.used = 0) :
    ∃ t2 g2, exec (.homeRequest id) s = .next t2 ∧ t2.group T.gid = some g2 ∧
      g2.lane q.lane = (g.lane q.lane).passed [] [(pd.toNat, false)] ∧ t2.mem = s.mem := by
  have hdeliver : s.mayDeliver T = true := by simp [State.mayDeliver, hg, hres]
  have hstep := (h.deq_served hop hdeliver).trans (serveDeq_empty hhead hsize pd d hu)
  rw [passWord_eq (s.count (srcCore T.core) q.addr) _ _ _ _ g hg hprot] at hstep
  exact ⟨_, _, congrArg Host.Outcome.next hstep, (group_setGroup _ _ _ _).trans (if_pos rfl), (lane_setLane _ _ _ _).trans (if_pos rfl), rfl⟩
end
end Sys2Proof.Machine
end

section
/-! SUPPORT. O23: the words that wait, together (R114, R392 to R395). -/
namespace Sys2Proof.Machine

open Sys2Proof.Safety

theorem pollOver_lane (g : Group) (clk : Nat) (met : Bool) (l : Nat) : (g.pollOver clk met).lane l = g.lane l := by
  cases met <;> rfl

/-- A POLL that has ended keeps the g registers, the floor and the mask of its group. -/
theorem pollOver_frame (g : Group) (clk : Nat) (met : Bool) : (g.pollOver clk met).g = g.g ∧ (g.pollOver clk met).floor = g.floor ∧
    (g.pollOver clk met).mask = g.mask := by
  cases met <;> exact ⟨rfl, rfl, rfl⟩

/-- The state in which one request of one lane is on its way, and the engine has nothing else to do. -/
theorem queueAlone_sent {s : State} {g g' : Group} {l A : Nat} {leaf : Leaf} {x : Nat} {sc : Scope} {op : AccOp} {bs : List Byte}
    (ht : s.txns = []) (hposted : s.posted = []) (hpeers : s.peers = []) (hpoison : s.poison = []) (hdir : s.dir = [])
    (hboot : s.mgmt.boot ≠ .notReady) (hsmall : s.next + 1 < 2 ^ 63) :
    QueueAlone ((queueSent s (queueTxn s g l A leaf x sc op bs)).setGroup s.cur.gid g') (s.next + 1) (queueTxn s g l A leaf x sc op bs)
      { lane := l, addr := x, va := A, len := bs.length, op := op, data := bs, level := leaf.level } where
  alone := (congrArg (fun m => Sparse.set none m (s.next + 1) _) ht).trans (set_first _ _)
  parts := rfl
  cell := rfl
  live := rfl
  small := hsmall
  posted := hposted
  peers := hpeers
  dir := hdir
  poison := hpoison
  boot := hboot

/-- A group after a word that kept it, beside its lanes. -/
theorem groupAfter_frame {s : State} {g g' : Group} {h : Hdr} (hg : groupAfter s g g' h) : g'.launch = g.launch ∧ g'.resident = g.resident := by
  rw [groupAfter] at hg
  rw [hg]
  exact ⟨rfl, rfl⟩

theorem waitingMonitors (h : Hdr) (cmp : MonCmp) (o : Sys2Proof.Ord) (sc : Scope) (wide : Bool) (pd : BitVec 3) (d a b : RegIx)
    (s : State) (g : Group) (u : Nat) (t : Team) (v : Nat → Nat) (hr : WordReady s g h (.poll h cmp o sc wide pd d a b)) (hst : Still s g h)
    (htx : s.txns = []) (ha : active s g h ≠ 0) (hp : g.polls = []) (hpos : 0 < s.next) (hrd : ReadsScratch h wide a s g u t v) :
    let met := ∃ l, (active s g h).getLsbD l = true ∧ monHolds cmp (v l) (monArg g wide b l).toNat = true
    ∃ g', exec (.poll h cmp o sc wide pd d a b) s = .next ((numbered s).setGroup s.cur.gid g') ∧
      lanesAfter s g g' h (fun l ln => (pollGives cmp wide pd d b g v l).into ln) ∧
      g'.g = g.g ∧ g'.floor = some s.cur.pc ∧ g'.mask = s.cur.lanes ∧
      (met → g'.backoff = 0 ∧ g'.held = g.held) ∧
      (¬ met → g'.backoff = min (g.backoff + 1) 9 ∧ g'.held = true ∧
        g'.readyAt = max (max g.readyAt (s.clk + max h.stall.toNat 1)) (s.clk + min (16 * 2 ^ (min (g.backoff + 1) 9 - 1)) 4096)) := by
  intro met
  obtain ⟨lanes, hazards, handling, hexec, hlanes⟩ := execPoll_ends hr hst htx ha hp hpos hrd
  have hmet : met ↔ ((lanesOf (active s g h)).any fun l => monHolds cmp (v l) (monArg g wide b l).toNat) = true := by
    rw [List.any_eq_true]
    refine ⟨fun ⟨l, hl, hm⟩ => ⟨l, mem_lanesOf.mpr ⟨BitVec.lt_of_getLsbD hl, hl⟩, hm⟩, fun ⟨l, hl, hm⟩ => ⟨l, (mem_lanesOf.mp hl).2, hm⟩⟩
  generalize ((lanesOf (active s g h)).any fun l => monHolds cmp (v l) (monArg g wide b l).toNat) = m at hexec hlanes hmet
  obtain ⟨hg, hfloor, hmask⟩ := pollOver_frame ((g.polling s.next m).issued s true s.clk h.stall.toNat lanes hazards handling) s.clk m
  refine ⟨_, hexec, fun l hl => (pollOver_lane _ _ _ l).trans (hlanes l hl), hg, hfloor, hmask, fun hm => ?_, fun hm => ?_⟩
  · rw [hmet.mp hm]
    exact ⟨rfl, rfl⟩
  · rw [Bool.eq_false_iff.mpr (mt hmet.mpr hm)]
    exact ⟨rfl, rfl, rfl⟩

/-- The lane stands past its word, with other registers and predicates perhaps. -/
def PastWord (ln0 ln : Lane) : Prop :=
  ln = { ln0 with st := .eligible, park := .none, ready := false, v := ln.v, p := ln.p, pc := ln0.pc + 8 }

theorem pastWord_plain (ln : Lane) : PastWord ln (ln.passed [] []) := rfl

theorem pastWord_passed (ln : Lane) (ws : List (Nat × Word)) (p : Nat) (b : Bool) : PastWord ln (ln.passed ws [(p, b)]) := by
  rw [passed_eq]; rfl

/-- The word of a request, as O23 states it: its traps, and what it leaves on its way. -/
theorem QueueWord.asked {i : Instr} {h : Hdr} {s : State} {g : Group} {l : Nat} {a : RegIx} {sc : Scope} {op : AccOp} {bs : List Byte}
    (hq : QueueWord i h g l a sc op bs) (hl : lanesOf (active s g h) = [l]) (hst : Still s g h) (htx : s.txns = [])
    (hh : (g.lane l).handler = false) (hquiet : sc = .sys → s.hostQuiet (s.ctxOf g) 0 = true ∧ s.hostQuiet (s.ctxOf g) 1 = true)
    (leaf : Leaf) (x : Nat) (hr : WordReady s g h i) :
    let A := laneEa g a l
    let trapped := fun (code : Nat) => ∃ g', exec i s = .next ((numbered s).setGroup s.cur.gid g') ∧
      lanesRun s g g' h (fun _ _ => (g.lane l).trap code 0 (BitVec.ofNat 64 A)) ∧ groupAfter s g g' h
    (A % 4096 ≠ 0 → trapped 0x25) ∧ (A % 4096 = 0 → 2 ^ 57 ≤ A → trapped 0x26) ∧
    (BlockAt s g.core (s.ctxOf g) A leaf x → ∃ g', lanesRun s g g' h (fun _ ln => ln) ∧ groupAfter s g g' h ∧
      exec i s = .next ((queueSent s (queueTxn s g l A leaf x sc op bs)).setGroup s.cur.gid g')) := by
  intro A trapped
  obtain ⟨hodd, hhigh⟩ := queueReq_traps (numbered s) (memCtl s g h) l A op bs sc
  exact ⟨fun hA => hq.trapped hl hst hr hh (hodd hA), fun hA hb => hq.trapped hl hst hr hh (hhigh hA hb),
    fun hb => hq.sent hl hst hr (queueReq_sends s g h l A leaf x sc op bs htx hb hquiet)⟩

/-- A request that has been sent, and whose engine has nothing else to do, in a memory without poison and without directory entries. -/
structure QueueRuns (i : Instr) (h : Hdr) (s : State) (g : Group) (l : Nat) (a : RegIx) (sc : Scope) (op : AccOp) (bs : List Byte) (leaf : Leaf) (x : Nat)
    (g' : Group) : Prop where
  sent : exec i s = .next ((queueSent s (queueTxn s g l (laneEa g a l) leaf x sc op bs)).setGroup s.cur.gid g')
  alone : QueueAlone ((queueSent s (queueTxn s g l (laneEa g a l) leaf x sc op bs)).setGroup s.cur.gid g') (s.next + 1)
    (queueTxn s g l (laneEa g a l) leaf x sc op bs)
    { lane := l, addr := x, va := laneEa g a l, len := bs.length, op := op, data := bs, level := leaf.level }
  here : ((queueSent s (queueTxn s g l (laneEa g a l) leaf x sc op bs)).setGroup s.cur.gid g').group s.cur.gid = some g'
  unprotected : (s.rcd g'.launch).blk.prot = false
  resident : g'.resident = g.resident
  lane : g'.lane l = g.lane l

theorem QueueWord.runs {i : Instr} {h : Hdr} {s : State} {g : Group} {l : Nat} {a : RegIx} {sc : Scope} {op : AccOp} {bs : List Byte}
    (hq : QueueWord i h g l a sc op bs) (hl : lanesOf (active s g h) = [l]) (hst : Still s g h) (htx : s.txns = [])
    (hquiet : sc = .sys → s.hostQuiet (s.ctxOf g) 0 = true ∧ s.hostQuiet (s.ctxOf g) 1 = true)
    {leaf : Leaf} {x : Nat} (hr : WordReady s g h i) (hb : BlockAt s g.core (s.ctxOf g) (laneEa g a l) leaf x) (hposted : s.posted = [])
    (hpeers : s.peers = []) (hpoison : s.poison = []) (hdir : s.dir = []) (hboot : s.mgmt.boot ≠ .notReady) (hsmall : s.next + 1 < 2 ^ 63) :
    ∃ g', QueueRuns i h s g l a sc op bs leaf x g' := by
  obtain ⟨g', hlanes, hafter, hexec⟩ := hq.sent hl hst hr (queueReq_sends s g h l _ leaf x sc op bs htx hb hquiet)
  obtain ⟨hlaunch, hres⟩ := groupAfter_frame hafter
  obtain ⟨h32, hword, -⟩ := mem_active.mp (hl ▸ List.mem_singleton_self l)
  have hact : (active s g h).getLsbD l = true := (mem_lanesOf.mp (hl ▸ List.mem_singleton_self l)).2
  exact ⟨g', hexec, queueAlone_sent htx hposted hpeers hpoison hdir hboot hsmall, (group_setGroup _ _ _ _).trans (if_pos rfl),
    hlaunch ▸ hst.1, hres, (hlanes l h32).trans (by rw [if_pos hword, if_pos hact])⟩

theorem length_qData (e : Env) (w : QWidth) (d : RegIx) : (qData e w d).length = qSize w := by
  cases w with
  | b32 => exact length_toLE _ _
  | n64 => exact length_toLE _ _
  | b128 =>
    simp only [qData, Env.data]
    split
    · rfl
    · simp [List.range_succ, qSize]

/-- An ENQ completes: its lane goes on, and its entry and TAIL are in memory. -/
theorem QueueRuns.enq {i : Instr} {h : Hdr} {s : State} {g g' : Group} {l : Nat} {a : RegIx} {sc : Scope} {w : QWidth} {bs : List Byte} {leaf : Leaf}
    {x : Nat} (hrun : QueueRuns i h s g l a sc (.enq w) bs leaf x g') (hclean : s.clean g.core (s.ctxOf g) = true)
    (hlink : sc = .sys → (g.lane l).linkLost = false) {hd : QHead} (hhead : s.queueHead x = some hd) (hsize : hd.size = bs.length)
    (hw : bs.length = qSize w) (hroom : hd.used < hd.cap) :
    ∃ t1 t2 t3 t4 g2, exec i s = .next t1 ∧ exec (.homeRequest (s.next + 1)) t1 = .next t2 ∧
      exec (.homeRequest (s.next + 1)) t2 = .next t3 ∧ exec (.homeRequest (s.next + 1)) t3 = .next t4 ∧
      t2.group s.cur.gid = some g2 ∧ PastWord (g.lane l) (g2.lane l) ∧ (g2.lane l).v = (g.lane l).v ∧ (g2.lane l).p = (g.lane l).p ∧
      t2.mem = s.mem ∧ t3.mem = s.mem ∧
      t4.cells (x + 64 + hd.size * (hd.tail % hd.cap)) hd.size = bs ∧ t4.cells (x + 12) 4 = toLE 4 ((hd.tail + 1) % 2 ^ 32) ∧
      ∀ y, ¬ (x + 64 + hd.size * (hd.tail % hd.cap) ≤ y ∧ y < x + 64 + hd.size * (hd.tail % hd.cap) + hd.size) →
        ¬ (x + 12 ≤ y ∧ y < x + 16) → t4.cell y = s.cell y := by
  obtain ⟨hsent, halone, hhere, hprot, -, hlane⟩ := hrun
  obtain ⟨t2, t3, t4, g2, h2, h3, h4, hg2, hl2, hm2, hm3, hcell⟩ := halone.enq_runs ((queueHead_of_mem rfl _).trans hhead) (hsize.trans hw) hhere hprot
    rfl rfl rfl rfl hroom hclean (fun hsc => by rw [hlane]; exact hlink hsc) hsize.symm
  rw [hlane, passed_plain] at hl2
  have hslot : ∀ y, (x + 12 ≤ y ∧ y < x + 12 + 4) → ¬ (hd.slot x hd.tail ≤ y) := fun y hy hs => by
    simp only [QHead.slot] at hs
    omega
  refine ⟨_, t2, t3, t4, g2, hsent, h2, h3, h4, hg2, hl2 ▸ pastWord_plain _, by rw [hl2], by rw [hl2], hm2, hm3, ?_, ?_, fun y hentry htail => ?_⟩
  · refine cells_eq t4 _ bs _ hsize.symm fun y hlo hhi => ?_
    rw [hcell, if_neg fun ht => hslot y ht hlo]
    exact if_pos ⟨hlo, hhi⟩
  · refine cells_eq t4 _ _ 4 (length_toLE _ _) fun y hlo hhi => ?_
    rw [hcell]
    exact if_pos ⟨hlo, hhi⟩
  · exact (hcell y).trans ((if_neg htail).trans ((if_neg hentry).trans rfl))

theorem mayDeliver_resident {s : State} {T : Txn} {g : Group} (hg : s.group T.gid = some g) (hres : g.resident = true) : s.mayDeliver T = true := by
  simp [State.mayDeliver, hg, hres]

/-- A DEQ that waits at an empty block parks its lane. -/
theorem serveDeq_waits {s : State} {id : Nat} {T : Txn} {q : Part} {w : QWidth} {hd : QHead} (hhead : s.queueHead q.addr = some hd)
    (hsize : hd.size = qSize w) (pd : BitVec 3) (d : RegIx) (hu : hd.used = 0) : s.serveDeq id T q w true pd d = s.queuePark id T q := by
  unfold State.serveDeq
  simp only [hhead]
  rw [if_neg (not_not_intro hsize), if_pos hu]
  exact if_pos trivial

theorem keepsGroup_ite {gid : Nat} {s a b : State} {c : Prop} [Decidable c] (ha : KeepsGroup gid s a) (hb : KeepsGroup gid s b) :
    KeepsGroup gid s (if c then a else b) := by
  split
  · exact ha
  · exact hb

theorem keepsGroup_onLane (gid : Nat) (s : State) (k l : Nat) (f : Lane → Lane) : KeepsGroup gid s (s.onLane k l f) := by
  unfold State.onLane
  split
  · exact fun h => h
  · exact keepsGroup_setGroup _ _ _ _

theorem keepsGroup_queuePark (gid : Nat) (s : State) (id : Nat) (T : Txn) (q : Part) : KeepsGroup gid s (s.queuePark id T q) := by
  unfold State.queuePark
  exact keepsGroup_ite (fun h => h) fun h => keepsGroup_onLane gid s.fresh.2 _ _ _ h

/-- A DEQ completes: with an entry there its lane has it and HEAD has moved; without one its predicate is false. -/
theorem QueueRuns.deq {i : Instr} {h : Hdr} {s : State} {g g' : Group} {l : Nat} {a : RegIx} {sc : Scope} {w : QWidth} {wait : Bool} {pd : BitVec 3}
    {d : RegIx} {leaf : Leaf} {x : Nat} (hrun : QueueRuns i h s g l a sc (.deq w wait pd d) [] leaf x g') (hres : g.resident = true)
    {hd : QHead} (hhead : s.queueHead x = some hd) (hsize : hd.size = qSize w) :
    ∃ t1 t2 g2, exec i s = .next t1 ∧ exec (.homeRequest (s.next + 1)) t1 = .next t2 ∧ t2.group s.cur.gid = some g2 ∧
      (hd.used ≠ 0 → PastWord (g.lane l) (g2.lane l) ∧
        (g2.lane l).v = ((g.lane l).setRegs (widthWrites (entryWidth w) d.toNat (s.cells (x + 64 + hd.size * (hd.head % hd.cap)) hd.size))).v ∧
        (g2.lane l).p = ((g.lane l).setPred pd.toNat true).p ∧ t2.cells (x + 8) 4 = toLE 4 ((hd.head + 1) % 2 ^ 32) ∧
        ∀ y, ¬ (x + 8 ≤ y ∧ y < x + 12) → t2.cell y = s.cell y) ∧
      (hd.used = 0 → wait = false → PastWord (g.lane l) (g2.lane l) ∧ (g2.lane l).v = (g.lane l).v ∧
        (g2.lane l).p = ((g.lane l).setPred pd.toNat false).p ∧ t2.mem = s.mem) := by
  obtain ⟨hsent, halone, hhere, hprot, hresident, hlane⟩ := hrun
  have hres' := hresident.trans hres
  by_cases hu : hd.used = 0
  · cases wait with
    | false =>
      obtain ⟨t2, g2, h2, hg2, hl2, hm2⟩ := halone.deq_runs_empty ((queueHead_of_mem rfl _).trans hhead) hsize hhere hprot rfl hres' hu
      rw [hlane] at hl2
      exact ⟨_, t2, g2, hsent, h2, hg2, fun hne => absurd hu hne, fun _ _ =>
        ⟨hl2 ▸ pastWord_passed _ _ _ _, by rw [hl2, passed_eq]; rfl, by rw [hl2, passed_eq], hm2⟩⟩
    | true =>
      have hstep := (halone.deq_served rfl (mayDeliver_resident (T := queueTxn s g l _ leaf x sc _ []) hhere hres')).trans (serveDeq_waits ((queueHead_of_mem rfl _).trans hhead) hsize pd d hu)
      obtain ⟨g2, hg2⟩ := Option.isSome_iff_exists.mp (keepsGroup_queuePark s.cur.gid _ (s.next + 1)
        (queueTxn s g l (laneEa g a l) leaf x sc (.deq w true pd d) [])
        { lane := l, addr := x, va := laneEa g a l, len := 0, op := .deq w true pd d, data := [], level := leaf.level }
        (Option.isSome_iff_exists.mpr ⟨g', hhere⟩))
      exact ⟨_, _, g2, hsent, congrArg Host.Outcome.next hstep, hg2, fun hne => absurd hu hne, fun _ hw => absurd hw (by decide)⟩
  · obtain ⟨t2, g2, h2, hg2, hl2, hcell⟩ := halone.deq_runs ((queueHead_of_mem rfl _).trans hhead) hsize hhere hprot rfl hres' hu
    rw [hlane] at hl2
    refine ⟨_, t2, g2, hsent, h2, hg2, fun _ => ⟨hl2 ▸ pastWord_passed _ _ _ _, by rw [hl2, passed_eq]; rfl, by rw [hl2, passed_eq], ?_, fun y hy => ?_⟩,
      fun h0 => absurd h0 hu⟩
    · refine cells_eq t2 _ _ 4 (length_toLE _ _) fun y hlo hhi => (hcell y).trans (if_pos ⟨hlo, hhi⟩)
    · exact (hcell y).trans ((if_neg hy).trans rfl)

/-- Settles O23: MONWAIT as a sequential word, POLL and MONWAIT as words that end at once, ENQ and DEQ as requests that the engine serves alone. -/
theorem waitingWords : Obligations.WaitingWords := by
  intro h cmp o sc wide pd d a b n ea base arg holds put inWindow
  have hholds : holds = monHolds cmp := by
    funext v x
    cases cmp <;> rfl
  rw [hholds]
  refine ⟨⟨monwaitDoes cmp wide d a b, execMonwait_seq h cmp o sc wide d a b, fun s g l s' _ _ =>
    ⟨fun e he => monwaitDoes_fails he, fun u x hat => ⟨monwaitDoes_met hat, monwaitDoes_unmet hat⟩⟩⟩, ?_, ?_, ?_⟩
  · intro s g u t hr hst htx hin ha hp hpos hu ht hfit v met
    exact waitingMonitors h cmp o sc wide pd d a b s g u t v hr hst htx ha hp hpos ⟨hu, ht, hin, hfit, fun _ => rfl⟩
  · intro s g hr hst ha u t hu ht hin hfit
    obtain ⟨lanes, hazards, handling, hexec, hlanes⟩ := execMonwait_met hr hst ha (v := fun l => leNat (t.bytes u (ea g l - base) n))
      ⟨hu, ht, hin, fun l hl => ⟨(hfit l hl).1, (hfit l hl).2.1⟩, fun _ => rfl⟩ fun l hl => (hfit l hl).2.2
    exact ⟨_, hexec, hlanes, rfl, rfl, rfl, rfl⟩
  · intro w wait s g l leaf x hl hst htx hh hq A k bs trapped asked past quiet
    have hdata : qData (envOf false g l) w d = bs := qData_eq g l w d
    have henq := execEnq_word h w sc d a g l
    have hdeq := execDeq_word h w wait sc pd d a g l
    rw [hdata] at henq
    refine ⟨fun hr => ?_, fun hr => ?_, fun hr hcalm hclean hlink hd hhead hsize hroom => ?_, fun hr hcalm hd hhead hsize => ?_⟩
    · obtain ⟨hodd, hhigh, hsent⟩ := henq.asked hl hst htx hh hq leaf x hr
      exact ⟨hodd, hhigh, fun h1 h2 h3 h4 h5 => hsent (blockAt_of h1 h2 h3 h4 h5)⟩
    · obtain ⟨hodd, hhigh, hsent⟩ := hdeq.asked hl hst htx hh hq leaf x hr
      exact ⟨hodd, hhigh, fun h1 h2 h3 h4 h5 => hsent (blockAt_of h1 h2 h3 h4 h5)⟩
    · obtain ⟨-, hres, hposted, hpeers, hpoison, hdir, hboot, hsmall, hal, hbelow, hw, htlb, hcell⟩ := hcalm
      obtain ⟨g', hrun⟩ := henq.runs hl hst htx hq hr (blockAt_of hal hbelow hw htlb hcell) hposted hpeers hpoison hdir hboot hsmall
      exact hrun.enq hclean hlink hhead hsize (hdata ▸ length_qData _ w d) hroom
    · obtain ⟨-, hres, hposted, hpeers, hpoison, hdir, hboot, hsmall, hal, hbelow, hw, htlb, hcell⟩ := hcalm
      obtain ⟨g', hrun⟩ := hdeq.runs hl hst htx hq hr (blockAt_of hal hbelow hw htlb hcell) hposted hpeers hpoison hdir hboot hsmall
      have := hrun.deq hres hhead hsize
      cases w <;> exact this
end Sys2Proof.Machine
end

section
/-! SUPPORT. O55: what a step runs, and what it adds (R113, R116, R144, R298). -/
namespace Sys2Proof.Machine

open Sys2Proof.Safety

/-! ### Every step answers -/

/-- Every meaning answers a next state. -/
theorem exec_total (i : Instr) (s : State) : ∃ t, exec i s = .next t := by
  cases i <;> exact ⟨_, rfl⟩

theorem stepEvent_total (s : State) (i : Instr) (x : Input) : ∃ t, stepEvent s i x = .next t := by
  unfold stepEvent
  split
  · obtain ⟨t, ht⟩ := exec_total i { s with input := x }
    exact ⟨t.tick, by rw [ht]; rfl⟩
  · exact ⟨_, rfl⟩

theorem stepIssue_total (s : State) (gid : Nat) : ∃ t, stepIssue s gid = .next t := by
  unfold stepIssue
  split
  · exact ⟨_, rfl⟩
  · split
    · exact ⟨_, rfl⟩
    · next i u _ =>
      obtain ⟨t, ht⟩ := exec_total i u
      exact ⟨_, by rw [ht]; rfl⟩

theorem step_total (s : State) : ∃ t, step s = .next t := by
  unfold step
  split
  · exact stepEvent_total _ _ _
  · split
    · exact stepIssue_total _ _
    · exact stepEvent_total _ _ _
    · split
      · exact stepEvent_total _ _ _
      · exact stepIssue_total _ _
      · exact ⟨_, rfl⟩

/-! ### What comes first -/

theorem step_issue {s : State} {rest : List Sched} {gid : Nat} (ha : s.agenda = .issue gid :: rest) (hb : s.bucketDue = false) :
    step s = stepIssue { s with agenda := rest } gid := by
  rw [step, hb, ha]
  rfl

theorem step_event {s : State} {rest : List Sched} {i : Instr} {x : Input} (ha : s.agenda = .event i x :: rest) (hb : s.bucketDue = false) :
    step s = stepEvent { s with agenda := rest } i x := by
  rw [step, hb, ha]
  rfl

theorem stepEvent_taken {s t : State} {i : Instr} {x : Input} (hi : isEvent i = true) (ht : s.takes i = true)
    (hx : exec i { s with input := x } = .next t) : stepEvent s i x = .next t.tick := by
  rw [stepEvent, hi, ht, hx]
  rfl

theorem stepEvent_ignored {s : State} {i : Instr} {x : Input} (ht : s.takes i = false) : stepEvent s i x = .next s.tick := by
  rw [stepEvent, ht, Bool.and_false]
  rfl

/-! ### The issue address (R144) -/

/-- The least of a list under the order of numbers. -/
theorem leastBy_toNat (pcs : List DWord) (pc : DWord) : leastBy (fun (a b : DWord) => decide (a.toNat < b.toNat)) pcs = some pc ↔
    pc ∈ pcs ∧ ∀ a ∈ pcs, pc.toNat ≤ a.toNat := by
  induction pcs generalizing pc with
  | nil => simp [leastBy]
  | cons a pcs ih =>
    rw [leastBy]
    cases hl : leastBy (fun (a b : DWord) => decide (a.toNat < b.toNat)) pcs with
    | none =>
      have hnil : pcs = [] := by
        cases pcs with
        | nil => rfl
        | cons b bs =>
          rw [leastBy] at hl
          split at hl
          · exact absurd hl (Option.some_ne_none _)
          · split at hl <;> exact absurd hl (Option.some_ne_none _)
      subst hnil
      simp only [Option.some.injEq, List.mem_singleton, forall_eq]
      constructor
      · rintro rfl; exact ⟨rfl, Nat.le_refl _⟩
      · exact fun h => h.1.symm
    | some b =>
      obtain ⟨hmem, hleast⟩ := (ih b).mp hl
      dsimp only
      by_cases hab : b.toNat < a.toNat
      · rw [if_pos (by simpa using hab), Option.some.injEq]
        constructor
        · rintro rfl
          exact ⟨.tail _ hmem, List.forall_mem_cons.mpr ⟨Nat.le_of_lt hab, hleast⟩⟩
        · rintro ⟨hpc, hall⟩
          obtain ⟨ha, hrest⟩ := List.forall_mem_cons.mp hall
          rcases List.mem_cons.mp hpc with rfl | hpc
          · exact absurd (hrest b hmem) (by omega)
          · exact BitVec.eq_of_toNat_eq (Nat.le_antisymm (hleast pc hpc) (hrest b hmem))
      · rw [if_neg (by simpa using hab), Option.some.injEq]
        constructor
        · rintro rfl
          exact ⟨List.mem_cons_self, List.forall_mem_cons.mpr ⟨Nat.le_refl _, fun x hx => Nat.le_trans (Nat.not_lt.mp hab) (hleast x hx)⟩⟩
        · rintro ⟨hpc, hall⟩
          obtain ⟨ha, hrest⟩ := List.forall_mem_cons.mp hall
          rcases List.mem_cons.mp hpc with rfl | hpc
          · rfl
          · exact BitVec.eq_of_toNat_eq (by have := hleast pc hpc; omega)

theorem issueAddress_least (g : Group) (pc : DWord) (hf : g.floor = none) : g.issueAddress = some pc ↔
    (∃ l ∈ g.eligible, (g.lane l).pc = pc) ∧ ∀ l ∈ g.eligible, pc.toNat ≤ (g.lane l).pc.toNat := by
  rw [Group.issueAddress, hf]
  dsimp only
  rw [leastBy_toNat, List.mem_map, List.forall_mem_map]

/-! ### Whose turn it is (R113, R116) -/

/-- A group with no other resident on its core has its turn, unless its own last word holds the port it asks for. -/
theorem turn_alone {s : State} {gid : Nat} {g : Group} (hg : s.group gid = some g)
    (halone : ∀ i a, (i, some a) ∈ s.groups → i ≠ gid → a.core = g.core → a.resident = false) :
    s.turn exec gid = (decide (g.portTill ≤ s.clk) || !(s.portHeld g ((s.tries exec gid).getD 0))) := by
  have hothers : ((s.residents g.core).filter fun p => p.1 != gid) = [] := by
    rw [List.filter_eq_nil_iff]
    rintro ⟨i, a⟩ hp
    obtain ⟨hmem, hres⟩ := List.mem_filter.mp hp
    simp only [Bool.and_eq_true, beq_iff_eq] at hres
    simp only [bne_iff_ne, ne_eq, not_not]
    by_contra hne
    exact absurd (halone i a (mem_listed.mp hmem) hne hres.1) (by simp [hres.2])
  rw [State.turn, hg]
  dsimp only
  rw [hothers]
  rfl

theorem portHeld_self {s : State} {gid : Nat} {g : Group} (hg : s.group gid = some g) (hheld : s.clk < g.portTill) (hres : g.resident = true)
    (hport : g.lastPort ≠ 0) : s.portHeld g g.lastPort = true := by
  rw [State.portHeld, List.any_eq_true]
  refine ⟨(gid, g), List.mem_filter.mpr ⟨mem_listed_of_get hg, by simp [hres]⟩, ?_⟩
  simp [hheld, samePort, hport]

/-! ### What a step adds (R29, R115, R116, R298) -/

/-- A pass over a table reaches each entry with its own key. -/
theorem get_mapEntries {α : Type} (f : Nat → α → α) (m : Sparse (Option α)) (k : Nat) :
    Sparse.get none (m.map fun p => (p.1, p.2.map (f p.1))) k = (Sparse.get none m k).map (f k) := by
  induction m with
  | nil => rfl
  | cons p m ih =>
    obtain ⟨j, a⟩ := p
    simp only [List.map_cons, Sparse.get]
    split
    · next h => rw [h]
    · exact ih

theorem beatsOf_le (prot : Bool) (m : BitVec 32) : beatsOf prot m ≤ 4 := by
  unfold beatsOf
  exact (List.length_filter_le _ _).trans (Nat.le_of_eq (List.length_range))

theorem isReady_held {s : State} {gid : Nat} {g : Group} (h : s.unheld g = false) : s.isReady gid g = false := by
  rw [State.isReady, State.readyPort, h]
  rfl

/-- What passes for a group while the clock moves. -/
theorem pass_eq (s : State) (e gid : Nat) (g : Group) : ∃ b w, s.pass e gid g = { g with buckets := b, waited := w } ∧
    (g.depthNp = 0 ∨ g.resident = false → b = g.buckets) ∧ (s.unheld g = false → w = g.waited) ∧ g.waited ≤ w := by
  refine ⟨_, _, rfl, fun h => ?_, fun h => ?_, ?_⟩
  · refine if_pos ?_
    rcases h with h | h <;> simp [h]
  · rw [isReady_held h]; rfl
  · split
    · exact Nat.le_add_right _ _
    · exact Nat.le_refl _

theorem tick_eq (s : State) : let e := min (Config.elapsed s.free) ((s.bucketNo + 1) * 125000 - s.clk)
    s.tick = { s with clk := s.clk + e, uptime := if s.mgmt.boot = .off then s.uptime else s.uptime + e, free := s.free + 1, groups := s.tick.groups } := rfl

theorem tick_group (s : State) (gid : Nat) (g : Group) (hg : s.group gid = some g) : ∃ b w,
    s.tick.group gid = some { g with buckets := b, waited := w } ∧
    (g.depthNp = 0 ∨ g.resident = false → b = g.buckets) ∧ (s.unheld g = false → w = g.waited) ∧ g.waited ≤ w := by
  let s1 : State := { s with free := s.free + 1 }
  obtain ⟨b, w, hpass, hb, hw, hle⟩ := pass_eq s1 (min (Config.elapsed s.free) ((s.bucketNo + 1) * 125000 - s.clk)) gid g
  refine ⟨b, w, ?_, hb, hw, hle⟩
  rw [← hpass]
  exact (get_mapEntries _ s.groups gid).trans (congrArg (Option.map _) hg)

theorem usePort_group (s : State) (i : Instr) (gid : Nat) (g : Group) (hg : s.group gid = some g) : ∃ till,
    (s.usePort i).group gid = some (if gid = s.cur.gid ∧ g.issuedAt s.clk = true then
      { g with lastPort := portOf i, waited := 0, portTill := till } else g) ∧
    (portOf i = 0 → till = g.portTill) ∧ (portOf i ≠ 0 → s.clk < till ∧ till ≤ s.clk + 4) := by
  let beats := beatsOf (s.rcd g.launch).blk.prot (guardLanes g s.cur.lanes (guardOf i).1 (guardOf i).2)
  have hbeats : beats ≤ 4 := beatsOf_le _ _
  refine ⟨if portOf i = 0 then g.portTill else s.clk + Nat.max 1 beats, ?_, fun h => if_pos h, fun h => ?_⟩
  · unfold State.usePort
    by_cases hcur : gid = s.cur.gid
    · subst hcur
      rw [hg]
      dsimp only
      by_cases hissued : g.issuedAt s.clk = true
      · rw [if_pos hissued, group_setGroup, if_pos rfl, if_pos (c := s.cur.gid = s.cur.gid ∧ g.issuedAt s.clk = true) ⟨rfl, hissued⟩]
      · rw [if_neg hissued, if_neg fun h => hissued h.2, hg]
    · rw [if_neg fun h => hcur h.1]
      split
      · split
        · rw [group_setGroup, if_neg hcur, hg]
        · exact hg
      · exact hg
  · rw [if_neg h]
    have h1 : 1 ≤ Nat.max 1 beats := Nat.le_max_left _ _
    have h2 : Nat.max 1 beats ≤ 4 := Nat.max_le.mpr ⟨by omega, hbeats⟩
    omega

theorem usePort_eq (s : State) (i : Instr) : s.usePort i = { s with groups := (s.usePort i).groups } := by
  unfold State.usePort
  split
  · dsimp only
    split <;> rfl
  · rfl

theorem dropFetched_eq (s : State) : s.dropFetched = { s with groups := s.dropFetched.groups } := by
  unfold State.dropFetched
  split
  · rfl
  · split
    · rfl
    · split <;> rfl

theorem dropFetched_group (s : State) (gid : Nat) (g : Group) (hg : s.group gid = some g) :
    ∃ f, s.dropFetched.group gid = some { g with fetched := f } := by
  unfold State.dropFetched
  split
  · exact ⟨g.fetched, hg⟩
  · next g0 hg0 =>
    split
    · exact ⟨g.fetched, hg⟩
    · split
      · rw [group_setGroup]
        split
        · next hcur =>
          rw [hcur, hg0, Option.some.injEq] at hg
          exact ⟨[], by rw [hg]⟩
        · exact ⟨g.fetched, hg⟩
      · exact ⟨g.fetched, hg⟩
end Sys2Proof.Machine
end

section
/-! SUPPORT. O55: a step that issues (R144 to R146, R319, R320). -/
namespace Sys2Proof.Machine

open Sys2Proof.Safety

/-! ### Fetching leaves the word being issued alone -/

/-- The word being issued is the same. -/
def SameWord (s t : State) : Prop := t.cur = s.cur

theorem SameWord.refl (s : State) : SameWord s s := rfl
theorem SameWord.trans (s t u : State) (h : SameWord s t) (k : SameWord t u) : SameWord s u := Eq.trans k h

theorem sameWord_foldl {α : Type} (f : State → α → State) (hf : ∀ s a, SameWord s (f s a)) (l : List α) (s : State) : SameWord s (l.foldl f s) :=
  foldl_rel SameWord .refl .trans f l (fun s a _ => hf s a) s

theorem sameWord_writeBackLine (s : State) (core line : Nat) : SameWord s (s.writeBackLine core line) := by
  unfold State.writeBackLine
  dsimp only
  split
  · rfl
  · exact ((onlyLanesDir_publish _ _ _).field State.cur).trans
      (((onlyLogs_count _ _ _).field State.cur).trans ((onlyMemory_commit _ _ _).field State.cur))

theorem sameWord_recall (s : State) (line : Nat) : SameWord s (s.recall line) := by
  have hlines : ∀ (core : Nat) (ls : List (Nat × DirtyLine)) (s : State), SameWord s (ls.foldl (fun s p => s.writeBackLine core p.1) s) :=
    fun core => sameWord_foldl _ fun s p => sameWord_writeBackLine s core p.1
  unfold State.recall
  dsimp only
  split
  · rfl
  · split
    · unfold State.writeBack State.writeBackTo
      dsimp only
      split
      · split
        · rfl
        · exact hlines _ _ s
      · exact hlines _ _ s
    · rfl

theorem sameWord_countWalk (s : State) (agent k va : Nat) : SameWord s (s.countWalk agent k va) := by
  unfold State.countWalk
  split
  · rfl
  · exact sameWord_foldl _ (fun s e => by dsimp only; split <;> rfl) _ { s with free := s.free + 1 }

theorem sameWord_checkRecall (agent k va n : Nat) (acc : Acc) (f : Nat) (s : State) : SameWord s (s.checkRecall agent k va n acc f).2 := by
  induction f generalizing s with
  | zero => rfl
  | succ f ih =>
    unfold State.checkRecall
    split
    · exact .trans _ _ _ (sameWord_recall _ _) (ih _)
    · dsimp only
      split
      · rfl
      · exact sameWord_countWalk s agent k va

theorem sameWord_tlbAdd (s : State) (agent cap k va : Nat) (l : Leaf) : SameWord s (s.tlbAdd agent cap k va l) := by
  unfold State.tlbAdd
  dsimp only
  split
  · rfl
  · split <;> rfl

theorem sameWord_fillTlb (s : State) (agent k va : Nat) (l : Leaf) : SameWord s (s.fillTlb agent k va l) := by
  unfold State.fillTlb
  split
  · rfl
  · split
    · exact .trans _ _ _ (sameWord_tlbAdd _ _ _ _ _ _) (sameWord_tlbAdd _ _ _ _ _ _)
    · rfl

theorem sameWord_afterCheck (s : State) (ch : Chk) (gid l : Nat) : SameWord s (s.afterCheck ch gid l) := by
  unfold State.afterCheck
  dsimp only
  split
  · split
    · rfl
    · split <;> rfl
  · rfl
  · rfl

theorem sameWord_checkFor (s : State) (g : Group) (gid l va n : Nat) (acc : Acc) : SameWord s (s.checkFor g gid l va n acc).2 := by
  unfold State.checkFor
  dsimp only
  refine .trans _ _ _ ?_ (sameWord_afterCheck _ _ _ _)
  split
  · exact .trans _ _ _ (sameWord_checkRecall _ _ _ _ _ _ s) (sameWord_fillTlb _ _ _ _ _)
  · exact sameWord_checkRecall _ _ _ _ _ _ s

theorem sameWord_readFar (s : State) (g : Group) (gid l : Nat) (leaf : Leaf) (tgt : Tgt) (a va n acc : Nat) :
    SameWord s (s.readFar g gid l leaf tgt a va n acc).2 := by
  unfold State.readFar
  split
  · rfl
  · split <;> rfl

theorem sameWord_readLine (s : State) (core lvl evp line : Nat) (secs : List Nat) : SameWord s (s.readLine core lvl evp line secs) := by
  unfold State.readLine
  dsimp only
  split
  · rfl
  · split
    · rfl
    · unfold State.l2Fill
      dsimp only
      split <;> rfl

/-- A fetch through the instruction cache. -/
theorem sameWord_readPath (s : State) (gid va n : Nat) : SameWord s (s.readPath true gid va n).2 := by
  unfold State.readPath
  split
  · rfl
  · next g _ =>
    have hcheck := sameWord_checkFor s g gid 32 va n .fetch
    simp only [↓reduceIte]
    generalize s.checkFor g gid 32 va n .fetch = q at hcheck ⊢
    obtain ⟨ch, t⟩ := q
    have ht : t.cur = s.cur := hcheck
    dsimp only
    split
    · next leaf a =>
      split
      · next bs u heq => exact (congrArg (fun q => q.2.cur) heq).symm.trans ht
      · next u heq =>
        have hu : u.cur = s.cur := (congrArg (fun q => q.2.cur) heq).symm.trans ht
        split
        · exact SameWord.trans _ _ _ hu (sameWord_recall u _)
        · split
          · exact hu
          · exact SameWord.trans _ _ _ hu (sameWord_readLine _ _ _ _ _ _)
    · exact SameWord.trans _ _ _ ht (sameWord_readFar _ _ _ _ _ _ _ _ _ _)
    · exact ht
    · exact ht
    · exact ht

theorem sameWord_readCode (gid n : Nat) (va : Nat) (s : State) : SameWord s (s.readCode gid va n).2 := by
  induction n generalizing va s with
  | zero => rfl
  | succ n ih =>
    have hpath := sameWord_readPath s gid va 8
    rw [State.readCode]
    split
    · next bs t heq =>
      rw [heq] at hpath
      have hrest := SameWord.trans _ _ _ hpath (ih (va + 8) t)
      split
      · next r u hread => rw [hread] at hrest; exact hrest
      · exact hrest
    · exact hpath

/-! ### What a group finds at its issue address (R319, R320) -/

/-- What the words w and x come to, w being of this length. -/
def foundOf (w x : DWord) (len : Nat) : Found :=
  match decodeWords w x with
  | .ok i => .ok i len
  | .error e => .bad w len e

theorem foundOf_ok {w x : DWord} {i : Instr} (len : Nat) (h : decodeWords w x = .ok i) : foundOf w x len = .ok i len := by
  rw [foundOf, h]

theorem foundOf_bad {w x : DWord} {e : Reject} (len : Nat) (h : decodeWords w x = .error e) : foundOf w x len = .bad w len e := by
  rw [foundOf, h]

theorem wordFound_short {s s1 : State} {gid pc : Nat} {b0 : List Byte} (h0 : s.readCode gid pc 1 = (.bytes b0, s1))
    (hl : isLong (dwordLE b0) = false) : s.wordFound gid pc = (foundOf (dwordLE b0) 0 8, s1) := by
  rw [State.wordFound, h0]
  dsimp only
  rw [hl]
  rfl

theorem wordFound_long {s s1 s2 : State} {gid pc : Nat} {b0 b1 : List Byte} (h0 : s.readCode gid pc 1 = (.bytes b0, s1))
    (hl : isLong (dwordLE b0) = true) (h1 : s1.readCode gid (pc + 8) 1 = (.bytes b1, s2)) :
    s.wordFound gid pc = (foundOf (dwordLE b0) (dwordLE b1) 16, s2) := by
  rw [State.wordFound, h0]
  dsimp only
  rw [hl]
  simp only [↓reduceIte]
  rw [h1]
  rfl

/-- A state about to issue: the group may issue, and stands at pc. -/
structure MayRun (s : State) (gid : Nat) (g : Group) (pc : DWord) : Prop where
  here : s.group gid = some g
  may : s.mayIssue g = true
  copies : (s.rcd g.launch).blk.prot = true → g.copiesEqual = true
  stands : g.issueAddress = some pc

/-- The state in which the word at pc is fetched. -/
def State.fetching (s : State) (gid : Nat) (g : Group) (pc : DWord) : State :=
  { s with cur := { gid := gid, pc := pc, lanes := g.wordLanes pc, len := 8 } }

/-- The word as it stands: its length is known. -/
def State.lengthed (s : State) (len : Nat) : State := { s with cur := { s.cur with len := len } }

section
variable {s s1 : State} {gid len : Nat} {g : Group} {pc : DWord} (hrun : MayRun s gid g pc)
include hrun

theorem MayRun.not_stopped : ((s.rcd g.launch).blk.prot && !g.copiesEqual) = false := by
  cases hp : (s.rcd g.launch).blk.prot
  · rfl
  · simp [hrun.copies hp]

theorem MayRun.front_ok {i : Instr} (hf : (s.fetching gid g pc).wordFound gid pc.toNat = (.ok i len, s1)) :
    s.front gid = (some i, s1.lengthed len) := by
  rw [State.front, hrun.here]
  simp only [hrun.may, hrun.not_stopped, hrun.stands, Bool.not_true, Bool.false_eq_true, ↓reduceIte, Option.getD_some]
  rw [State.fetching] at hf
  rw [hf]
  rfl

theorem MayRun.front_bad {w : DWord} {e : Reject} (hf : (s.fetching gid g pc).wordFound gid pc.toNat = (.bad w len e, s1)) :
    s.front gid = (none, (s1.lengthed len).trapWord g (stallOf w) (Reject.cause e) 0) := by
  rw [State.front, hrun.here]
  simp only [hrun.may, hrun.not_stopped, hrun.stands, Bool.not_true, Bool.false_eq_true, ↓reduceIte, Option.getD_some]
  rw [State.fetching] at hf
  rw [hf]
  rfl

/-- A step that finds an instruction runs it. -/
theorem MayRun.step_ok (hturn : s.turn exec gid = true) {i : Instr} (hf : (s.fetching gid g pc).wordFound gid pc.toNat = (.ok i len, s1)) {t : State}
    (ht : exec i (s1.lengthed len) = .next t) : stepIssue s gid = .next (t.usePort i).dropFetched.tick := by
  rw [stepIssue, hturn, hrun.front_ok hf]
  simp only [Bool.not_true, Bool.false_eq_true, ↓reduceIte]
  rw [ht]
  rfl

/-- A step that finds none traps the lanes of the word. -/
theorem MayRun.step_bad (hturn : s.turn exec gid = true) {w : DWord} {e : Reject}
    (hf : (s.fetching gid g pc).wordFound gid pc.toNat = (.bad w len e, s1)) :
    stepIssue s gid = .next ((s1.lengthed len).trapWord g (stallOf w) (Reject.cause e) 0).tick := by
  rw [stepIssue, hturn, hrun.front_bad hf]
  rfl
end

/-- The lanes of a word that is none trap with its cause (R319). -/
theorem trapWord_lanes {s : State} {g : Group} (hg : s.group s.cur.gid = some g) (stall code acc : Nat)
    (hh : ∀ l, s.cur.lanes.getLsbD l = true → (g.lane l).handler = false) :
    ∃ g' : Group, s.trapWord g stall code acc = s.setGroup s.cur.gid g' ∧
      ∀ l, l < 32 → g'.lane l = if s.cur.lanes.getLsbD l then (g.lane l).trap code acc 0 else g.lane l := by
  obtain ⟨lanes, hazards, handling, hword, hlanes⟩ := finishWord_does (s := s) (s2 := s) g
    { gid := s.cur.gid, g := g, act := s.cur.lanes, pc := s.cur.pc, len := s.cur.len, u := false, prot := false } stall {} {}
    (lanesOf s.cur.lanes) (fun _ => .traps code acc 0) ⟨rfl, rfl, rfl⟩ hg (lanesOf_nodup _) (fun l hl => mem_lanesOf.mp hl) rfl
    (fun hc => absurd hc Bool.false_ne_true) (fun l hl _ _ _ _ => hh l (mem_lanesOf.mp hl).2)
  have hquiet : parksAny (fun _ => .traps code acc 0) (lanesOf s.cur.lanes) = false := by
    rw [parksAny, List.any_eq_false]
    exact fun _ _ => Bool.false_ne_true
  rw [hquiet] at hword
  refine ⟨_, hword, fun l hl => (hlanes l hl).trans ?_⟩
  by_cases hb : s.cur.lanes.getLsbD l = true
  · rw [if_pos hb, if_pos hb, if_pos (mem_lanesOf.mpr ⟨hl, hb⟩)]; rfl
  · rw [if_neg hb, if_neg hb]

/-- The fetch of the first 8 bytes leaves the word 8 bytes long. -/
theorem lengthed_fetched {s s1 : State} {gid : Nat} {g : Group} {pc : DWord} {b0 : List Byte}
    (h0 : (s.fetching gid g pc).readCode gid pc.toNat 1 = (.bytes b0, s1)) : s1.lengthed 8 = s1 := by
  have hcur : s1.cur = (s.fetching gid g pc).cur := (congrArg (fun q : Got × State => q.2.cur) h0).symm.trans (sameWord_readCode gid 1 pc.toNat (s.fetching gid g pc))
  have hlen : s1.cur.len = 8 := by rw [hcur]; rfl
  rw [State.lengthed, ← hlen]
end Sys2Proof.Machine
end

section
/-! SUPPORT. O55: a word of 8 bytes decodes alike whatever follows it (R304, R319). -/
namespace Sys2Proof

section
variable {f : Fields} (hf : f.mod ≠ 0x7F#7) (x : DWord)
include hf

theorem modSrc_short : modSrc f x = modSrc f 0 := by
  simp only [modSrc, if_neg hf]

theorem dInt_short : dInt f x = dInt f 0 := by
  funext az bz ra rb v4 mk
  simp only [dInt, modSrc_short hf x]

theorem onlyN32_short : onlyN32 f x = onlyN32 f 0 := by
  funext k
  simp only [onlyN32, modSrc_short hf x]

theorem dFp_short : dFp f x = dFp f 0 := by
  funext az ra rb bmax mk
  simp only [dFp, modSrc_short hf x]

theorem dFpNoDir_short : dFpNoDir f x = dFpNoDir f 0 := by
  funext az ra bmax mk
  simp only [dFpNoDir, modSrc_short hf x]

theorem dTarget_short : dTarget f x = dTarget f 0 := by
  funext mk
  simp only [dTarget, if_neg hf]

theorem dAmount_short : dAmount f x = dAmount f 0 := by
  funext mk
  simp only [dAmount, if_neg hf]

/-- A word without a literal does not look at what follows it. -/
theorem decodeFull_short : decodeFull f x = decodeFull f 0 := by
  have hlimm : ∀ (a b c : Bool) (k : Except Reject Instr), ck (decide (f.mod = 0x7F#7) && a && b && c) k = .error .illegalOp := fun a b c k => by
    rw [decide_eq_false hf]; rfl
  unfold decodeFull
  extract_lets h
  rewrite [dInt_short hf x, onlyN32_short hf x, dFp_short hf x, dFpNoDir_short hf x, dTarget_short hf x, dAmount_short hf x, modSrc_short hf x,
    hlimm, hlimm]
  exact Eq.refl _
end

theorem decodeWords_short {w : DWord} (hw : isLong w = false) (x : DWord) : decodeWords w x = decodeWords w 0 := by
  unfold decodeWords
  cases hp : w.getLsbD 63
  · have hf : (Fields.ofWord w).mod ≠ 0x7F#7 := by
      rw [isLong, hp] at hw
      exact of_decide_eq_false hw
    rw [decodeFull_short hf x]
  · rfl
end Sys2Proof
end

section
/-! SUPPORT. O55: a fetch through a TLB that holds the page, from this device's memory (R146, R170, R186, R320). -/
namespace Sys2Proof.Machine

open Sys2Proof.Safety

/-- A fetch has changed the caches and the counters at most. -/
def OnlyCached (s t : State) : Prop :=
  t = { s with free := t.free, icache := t.icache, l2 := t.l2, l2Uses := t.l2Uses, quads := t.quads, dir := t.dir }

theorem OnlyCached.field {α : Type} {s t : State} (h : OnlyCached s t) (F : State → α)
    (hF : ∀ s t : State, F { s with free := t.free, icache := t.icache, l2 := t.l2, l2Uses := t.l2Uses, quads := t.quads, dir := t.dir } = F s := by
      intros; rfl) : F t = F s := by
  rw [h]; exact hF s t

theorem onlyCached_readLine (s : State) (core lvl evp line : Nat) (secs : List Nat) : OnlyCached s (s.readLine core lvl evp line secs) := by
  unfold State.readLine
  dsimp only
  split
  · rfl
  · split
    · rfl
    · unfold State.l2Fill
      dsimp only
      split <;> rfl

/-- A read makes its die a sharer, which holds up nobody. -/
theorem lineFree_readLine (s : State) (core lvl evp line : Nat) (secs : List Nat) (me : Option Nat) (l : Nat) :
    (s.readLine core lvl evp line secs).lineFree me l = s.lineFree me l := by
  have hboot := (onlyCached_readLine s core lvl evp line secs).field fun s => s.mgmt.boot
  have hdir : ((s.readLine core lvl evp line secs).dirOf l).waiting = (s.dirOf l).waiting ∧
      ((s.readLine core lvl evp line secs).dirOf l).lo = (s.dirOf l).lo := by
    unfold State.readLine
    dsimp only
    split
    · exact ⟨rfl, rfl⟩
    · split
      · exact ⟨rfl, rfl⟩
      · have hfill : ∀ k, (((s.count (srcCore core) (line * 128)).l2Fill (core / 24) evp line).dirOf k) = s.dirOf k := fun k => by
          unfold State.l2Fill
          dsimp only
          split <;> rfl
        rw [State.dirOf, State.setDir, Sparse.get_set, hfill]
        split
        · next hl => subst hl; exact ⟨rfl, rfl⟩
        · exact ⟨congrArg Dir.waiting (hfill l), congrArg Dir.lo (hfill l)⟩
  obtain ⟨hwait, hlo⟩ := hdir
  simp only [State.lineFree, State.lineHeld, hboot, hwait, hlo]

/-- What the instruction cache of the core holds of the line of cell c is what memory holds. -/
def CachedRight (s : State) (core c : Nat) : Prop :=
  ∀ k bs, Sparse.get none s.icache (cacheKey core (c / 128)) = some (k, bs) → bs = s.cells (c / 128 * 128) 128

/-- The group fetches 8 bytes at va: its core's TLB holds the page, executable, in this device's memory at cell c, of which nothing is
poisoned or held. -/
structure Fetches (s : State) (gid : Nat) (g : Group) (va : Nat) (leaf : Leaf) (c : Nat) : Prop where
  here : s.group gid = some g
  page : PageHeld s g.core (s.rcd g.launch).ctx va 8 .fetch leaf c
  free : s.lineFree none (c / 128) = true
  sound : s.poison = []
  right : CachedRight s g.core c
  inLine : c % 128 + 8 ≤ 128

theorem cells_within (s : State) (c n : Nat) (h : c % 128 + n ≤ 128) : ((s.cells (c / 128 * 128) 128).drop (c % 128)).take n = s.cells c n := by
  refine List.ext_getElem ?_ fun i h1 h2 => ?_
  · simp only [State.cells, List.length_take, List.length_drop, List.length_map, List.length_range]
    omega
  · simp only [State.cells, List.getElem_take, List.getElem_drop, List.getElem_map, List.getElem_range]
    congr 1
    omega

theorem cacheHit_right {s : State} {core k c n : Nat} (hr : CachedRight s core c) (hn : c % 128 + n ≤ 128) :
    s.cacheHit true core k c n = (none, { s with free := s.free + 1 }) ∨
    s.cacheHit true core k c n = (some (s.cells c n), { s with free := s.free + 1 }) := by
  unfold State.cacheHit State.draw
  simp only [↓reduceIte]
  cases hc : Sparse.get none s.icache (cacheKey core (c / 128)) with
  | none => exact .inl rfl
  | some p =>
    obtain ⟨k', bs⟩ := p
    dsimp only
    split
    · rw [hr k' bs hc, cells_within s c n hn]
      exact .inr rfl
    · exact .inl rfl

/-- A line that is read into the instruction cache. -/
theorem cacheRead_right (s : State) (lvl evp core k c n : Nat) (hn : c % 128 + n ≤ 128) : (s.cacheRead true lvl evp core k c n).1 = s.cells c n ∧
    OnlyCached s (s.cacheRead true lvl evp core k c n).2 ∧ CachedRight (s.cacheRead true lvl evp core k c n).2 core c ∧
    ∀ l, (s.cacheRead true lvl evp core k c n).2.lineFree none l = s.lineFree none l := by
  unfold State.cacheRead
  simp only [↓reduceIte]
  generalize hm : Sparse.set none s.icache (cacheKey core (c / 128))
    (if (decide (lvl ≠ 0) && !s.poisonedRange (c / 128 * 128) 128) = true then some (k, s.cells (c / 128 * 128) 128) else none) = m
  have honly := onlyCached_readLine { s with icache := m } core lvl evp (c / 128) (secsOf c n)
  refine ⟨cells_within s c n hn, ?_, fun k' bs hget => ?_, fun l => lineFree_readLine { s with icache := m } core lvl evp (c / 128) (secsOf c n) none l⟩
  · rw [OnlyCached] at honly ⊢
    rw [honly]
  · have hcache : ({ s with icache := m }.readLine core lvl evp (c / 128) (secsOf c n)).icache = m := by
      unfold State.readLine
      dsimp only
      split
      · rfl
      · split
        · rfl
        · unfold State.l2Fill
          dsimp only
          split <;> rfl
    have hcells : ({ s with icache := m }.readLine core lvl evp (c / 128) (secsOf c n)).cells (c / 128 * 128) 128 = s.cells (c / 128 * 128) 128 :=
      honly.field fun s => s.cells (c / 128 * 128) 128
    rw [hcache, ← hm, Sparse.get_set_same] at hget
    rw [hcells]
    split at hget
    · exact (congrArg Prod.snd (Option.some.inj hget)).symm
    · exact absurd hget.symm (Option.some_ne_none _)

/-- The fetch gives the bytes of memory, whether the instruction cache holds them or not. -/
theorem Fetches.readPath {s : State} {gid va c : Nat} {g : Group} {leaf : Leaf} (h : Fetches s gid g va leaf c) :
    ∃ t, s.readPath true gid va 8 = (.bytes (s.cells c 8), t) ∧ OnlyCached s t ∧ CachedRight t g.core c ∧
      ∀ l, t.lineFree none l = s.lineFree none l := by
  let s1 : State := { s with free := s.free + 1 }
  unfold State.readPath
  rw [h.here]
  simp only [↓reduceIte]
  rw [h.page.checkFor g gid 32 rfl rfl]
  dsimp only
  rcases cacheHit_right (k := (s.rcd g.launch).ctx) h.right h.inLine with hhit | hhit
  · rw [hhit]
    dsimp only
    have hfree : s1.lineFree none (c / 128) = true := h.free
    rw [hfree, poisonedRange_clean s1 c 8 h.sound]
    obtain ⟨hbytes, honly, hright, hlines⟩ := cacheRead_right s1 (viewLeaf s leaf va).lvl ((viewLeaf s leaf va).hinted false).evp g.core
      (s.rcd g.launch).ctx c 8 h.inLine
    refine ⟨_, ?_, ?_, hright, hlines⟩
    · simp only [Bool.not_true, Bool.false_eq_true, ↓reduceIte]
      rw [hbytes]
      rfl
    · rw [OnlyCached] at honly ⊢
      rw [honly]
  · rw [hhit]
    exact ⟨s1, rfl, rfl, h.right, fun _ => rfl⟩
end Sys2Proof.Machine
end

section
/-! SUPPORT. O55: a word placed in memory is the first that runs (R144, R145, R320). -/
namespace Sys2Proof.Machine

open Sys2Proof.Safety

/-! ### The bytes of the word (R3, R304) -/

theorem dwordLE_toLE (v : Nat) : dwordLE (toLE 8 v) = BitVec.ofNat 64 v := by
  have hfold : ∀ bs : List Byte, bs.foldr (fun b acc => acc * 256 + b.toNat) 0 = leNat bs := fun bs => by
    induction bs with
    | nil => rfl
    | cons b bs ih => rw [List.foldr_cons, ih, leNat]; omega
  rw [dwordLE, List.take_of_length_le (Nat.le_of_eq (length_toLE 8 v)), hfold, leNat_toLE]
  exact BitVec.eq_of_toNat_eq (by simp only [BitVec.toNat_ofNat]; omega)

theorem toLE_add (m n v : Nat) : toLE (m + n) v = toLE m v ++ toLE n (v / 256 ^ m) := by
  induction m generalizing v with
  | zero => rw [Nat.zero_add, Nat.pow_zero, Nat.div_one]; rfl
  | succ m ih => rw [Nat.succ_add, toLE, ih, toLE, List.cons_append, Nat.div_div_eq_div_mul, Nat.pow_succ']

/-- What memory holds of a run of bytes written at cell a. -/
theorem cells_setCells (s : State) (a i n : Nat) (bs : List Byte) (h : i + n ≤ bs.length) :
    (s.setCells a bs).cells (a + i) n = (bs.drop i).take n := by
  refine List.ext_getElem ?_ fun j h1 h2 => ?_
  · simp only [State.cells, List.length_map, List.length_range, List.length_take, List.length_drop]
    omega
  · have hj : j < n := by simpa [State.cells] using h1
    simp only [State.cells, List.getElem_map, List.getElem_range, List.getElem_take, List.getElem_drop]
    rw [Nat.add_assoc, cell_setCells_in s a (i + j) bs (by omega)]

theorem cells_word (s : State) (a v : Nat) : (s.setCells a (toLE 16 v)).cells a 8 = toLE 8 v ∧
    (s.setCells a (toLE 16 v)).cells (a + 8) 8 = toLE 8 (v / 2 ^ 64) := by
  have hsplit : toLE 16 v = toLE 8 v ++ toLE 8 (v / 2 ^ 64) := toLE_add 8 8 v
  have hlen := length_toLE 8 v
  constructor
  · refine (cells_setCells s a 0 8 _ (by rw [length_toLE]; omega)).trans ?_
    rw [hsplit, List.drop_zero, List.take_append_of_le_length (by omega), List.take_of_length_le (by omega)]
  · refine (cells_setCells s a 8 8 _ (by rw [length_toLE])).trans ?_
    rw [hsplit, List.drop_append_of_le_length (by omega), List.drop_of_length_le (by omega), List.nil_append,
      List.take_of_length_le (by rw [length_toLE])]

/-! ### The state in which the word stands -/

/-- The state with this memory. -/
def State.withMem (s : State) (m : Sparse Byte) : State := { s with mem := m }

theorem setCells_withMem (s : State) (a : Nat) (bs : List Byte) : s.setCells a bs = s.withMem (s.setCells a bs).mem := by
  induction bs generalizing s a with
  | nil => rfl
  | cons b bs ih => rw [State.setCells]; exact ih _ _

section
variable (s : State) (m : Sparse Byte)

theorem tlbAdd_withMem (agent cap k va : Nat) (l : Leaf) : (s.withMem m).tlbAdd agent cap k va l = (s.tlbAdd agent cap k va l).withMem m := by
  rw [State.tlbAdd, State.tlbAdd, show (s.withMem m).tlbAt agent k va = s.tlbAt agent k va from rfl]
  split
  · rfl
  · dsimp only
    rw [show (s.withMem m).tlb = s.tlb from rfl]
    split <;> rfl

theorem fillTlb_withMem (agent k va : Nat) (l : Leaf) : (s.withMem m).fillTlb agent k va l = (s.fillTlb agent k va l).withMem m := by
  rw [State.fillTlb, State.fillTlb, show (s.withMem m).tlbAt agent k va = s.tlbAt agent k va from rfl]
  split
  · rfl
  · split
    · rw [tlbAdd_withMem, tlbAdd_withMem]
    · rfl

theorem discard_withMem (inst : Bool) (core k : Nat) : (s.withMem m).discard inst core k = (s.discard inst core k).withMem m := by
  rw [State.discard, State.discard]
  cases inst <;> rfl
end

/-- What is placed beside the word: the launch, its team and group, and the translation of the page. -/
def State.withPlacedGroup (s : State) : State :=
  let s := s.setCtx 0 { s.ctx 0 with en := true }
  let s := s.setRec 0 { st := .running, gen := 1, ctx := 0, blk := placedBlock }
  let s := s.setTeam 1 { st := .running, core := 0 }
  let s := s.setGroup 2 { placedGroup 0 with readyAt := 0, lastIssue := s.clk }
  (s.fillTlb 0 0 0x10000 placedLeaf).discard true 0 0

/-- The placed group is the first to issue. -/
def State.withPlacedIssue (s : State) : State :=
  let s := s.setDie 0 { s.die 0 with duty := 16 }
  { s with agenda := [.issue 2], next := Nat.max s.next 3, bucketNo := s.clk / 125000 }

theorem withPlacedGroup_withMem (s : State) (m : Sparse Byte) : (s.withMem m).withPlacedGroup = s.withPlacedGroup.withMem m := by
  rw [State.withPlacedGroup, State.withPlacedGroup, ← discard_withMem, ← fillTlb_withMem]
  rfl

theorem withPlacedIssue_withMem (s : State) (m : Sparse Byte) : (s.withMem m).withPlacedIssue = s.withPlacedIssue.withMem m := rfl

/-- The cell of the placed word. -/
def placedCell : Nat := hashQuad 0x10000 * hbmBytes + 0x10000 / 2 ^ 14 * 4096

theorem withFetchWord_withMem (s : State) (nbits w : Nat) : s.withFetchWord nbits w =
    s.withPlacedGroup.withPlacedIssue.withMem (s.setCells placedCell (toLE 16 (w % 2 ^ nbits))).mem :=
  calc s.withFetchWord nbits w
    _ = (s.setCells placedCell (toLE 16 (w % 2 ^ nbits))).withPlacedGroup.withPlacedIssue := rfl
    _ = (s.withMem (s.setCells placedCell (toLE 16 (w % 2 ^ nbits))).mem).withPlacedGroup.withPlacedIssue :=
      congrArg (fun t : State => t.withPlacedGroup.withPlacedIssue) (setCells_withMem s placedCell _)
    _ = _ := by rw [withPlacedGroup_withMem, withPlacedIssue_withMem]

/-- The placed group at reset, whatever word memory holds. -/
def placedReset : State := State.reset.withPlacedGroup.withPlacedIssue

theorem withFetchWord_reset (nbits w : Nat) :
    State.reset.withFetchWord nbits w = placedReset.withMem (State.reset.setCells placedCell (toLE 16 (w % 2 ^ nbits))).mem := by
  rw [withFetchWord_withMem, placedReset]
end Sys2Proof.Machine
end

section
/-! SUPPORT. O55: where a placed word stands, and what its fetch finds (R144, R146, R186, R320). -/
namespace Sys2Proof.Machine

open Sys2Proof.Safety

/-- The placed group, as it stands before its first word. -/
def placedHere : Group := { placedGroup 0 with readyAt := 0, lastIssue := 0 }

/-- A state in which the placed group may run alone, and its page is held, sound and free, with nothing of it cached. -/
structure Placed (s : State) : Prop where
  here : s.group 2 = some placedHere
  alone : s.groups = [(2, some placedHere)]
  may : s.mayIssue placedHere = true
  unprotected : (s.rcd placedHere.launch).blk.prot = false
  inTime : s.bucketDue = false
  word : PageHeld s placedHere.core (s.rcd placedHere.launch).ctx 0x10000 8 .fetch placedLeaf placedCell
  literal : PageHeld s placedHere.core (s.rcd placedHere.launch).ctx 0x10008 8 .fetch placedLeaf (placedCell + 8)
  free : s.lineFree none (placedCell / 128) = true
  sound : s.poison = []
  cold : s.icache = []

theorem placed_reset : Placed placedReset := by
  constructor
  case word => constructor <;> decide +kernel
  case literal => constructor <;> decide +kernel
  all_goals decide +kernel

theorem placedHere_stands : placedHere.issueAddress = some 0x10000 ∧ placedHere.wordLanes 0x10000 = BitVec.allOnes 32 := by decide +kernel

theorem placedCell_line : placedCell % 128 = 0 := by decide +kernel

section
variable {s : State} (h : Placed s)
include h

/-- What memory holds does not matter here. -/
theorem Placed.withMem (m : Sparse Byte) : Placed (s.withMem m) where
  here := h.here
  alone := h.alone
  may := h.may
  unprotected := h.unprotected
  inTime := h.inTime
  word := ⟨h.word.below, h.word.writable, h.word.runs, h.word.held, h.word.cell⟩
  literal := ⟨h.literal.below, h.literal.writable, h.literal.runs, h.literal.held, h.literal.cell⟩
  free := h.free
  sound := h.sound
  cold := h.cold

/-- Nor does what is on the agenda. -/
theorem Placed.withAgenda (rest : List Sched) : Placed { s with agenda := rest } where
  here := h.here
  alone := h.alone
  may := h.may
  unprotected := h.unprotected
  inTime := h.inTime
  word := ⟨h.word.below, h.word.writable, h.word.runs, h.word.held, h.word.cell⟩
  literal := ⟨h.literal.below, h.literal.writable, h.literal.runs, h.literal.held, h.literal.cell⟩
  free := h.free
  sound := h.sound
  cold := h.cold

theorem Placed.mayRun : MayRun s 2 placedHere 0x10000 :=
  ⟨h.here, h.may, fun hp => absurd (h.unprotected.symm.trans hp) Bool.false_ne_true, placedHere_stands.1⟩

theorem Placed.turn : s.turn exec 2 = true := by
  rw [turn_alone (g := placedHere) h.here fun i a hia hne _ => ?_]
  · rw [show placedHere.portTill = 0 from rfl, decide_eq_true (Nat.zero_le _), Bool.true_or]
  · rw [h.alone] at hia
    exact absurd (congrArg Prod.fst (List.mem_singleton.mp hia)) hne

/-- The first 8 bytes of the word. -/
theorem Placed.fetches : Fetches (s.fetching 2 placedHere 0x10000) 2 placedHere 0x10000 placedLeaf placedCell where
  here := h.here
  page := ⟨h.word.below, h.word.writable, h.word.runs, h.word.held, h.word.cell⟩
  free := h.free
  sound := h.sound
  right := fun k bs hget => by
    rw [show (s.fetching 2 placedHere 0x10000).icache = [] from h.cold] at hget
    exact absurd hget.symm (Option.some_ne_none _)
  inLine := by rw [placedCell_line]; decide

/-- The next 8, in the same line. -/
theorem Placed.fetches_literal {t : State} (ht : OnlyCached (s.fetching 2 placedHere 0x10000) t) (hright : CachedRight t placedHere.core placedCell)
    (hfree : ∀ l, t.lineFree none l = (s.fetching 2 placedHere 0x10000).lineFree none l) :
    Fetches t 2 placedHere 0x10008 placedLeaf (placedCell + 8) := by
  have hline : (placedCell + 8) / 128 = placedCell / 128 := by have := placedCell_line; omega
  exact
  { here := (ht.field fun s => s.group 2).trans h.here
    page := ⟨h.literal.below, h.literal.writable, h.literal.runs,
      (ht.field fun s => s.tlbAt placedHere.core (s.rcd placedHere.launch).ctx 0x10008).trans h.literal.held,
      (ht.field fun s => s.target (s.rcd placedHere.launch).ctx 8 .fetch (placedLeaf.phys 0x10008)).trans h.literal.cell⟩
    free := by rw [hline, hfree]; exact h.free
    sound := (ht.field fun s => s.poison).trans h.sound
    right := by rw [CachedRight, hline]; exact hright
    inLine := by have := placedCell_line; omega }
end
end Sys2Proof.Machine
end

section
/-! SUPPORT. O55: the first step of a placed word, whichever its length (R145, R304). -/
namespace Sys2Proof.Machine

open Sys2Proof.Safety

/-- The words that the fetch reads, as the step takes them. -/
theorem Fetches.readCode {s : State} {gid va c : Nat} {g : Group} {leaf : Leaf} (h : Fetches s gid g va leaf c) :
    ∃ t, s.readCode gid va 1 = (.bytes (s.cells c 8), t) ∧ OnlyCached s t ∧ CachedRight t g.core c ∧ ∀ l, t.lineFree none l = s.lineFree none l := by
  obtain ⟨t, hread, hrest⟩ := h.readPath
  refine ⟨t, ?_, hrest⟩
  rw [State.readCode, hread]
  simp only [State.readCode, List.append_nil]

/-- The word of a placed group is found, and finding it changes the caches and the counters at most. -/
theorem Placed.wordFound {s : State} (h : Placed s) {i : Instr}
    (hi : decodeWords (dwordLE (s.cells placedCell 8)) (dwordLE (s.cells (placedCell + 8) 8)) = .ok i) :
    ∃ len t, (s.fetching 2 placedHere 0x10000).wordFound 2 0x10000 = (.ok i len, t) ∧ OnlyCached (s.fetching 2 placedHere 0x10000) t := by
  obtain ⟨s1, hread1, honly1, hright1, hfree1⟩ := h.fetches.readCode
  cases hl : isLong (dwordLE (s.cells placedCell 8))
  · rw [decodeWords_short hl] at hi
    exact ⟨8, s1, (wordFound_short hread1 hl).trans (by rw [← foundOf_ok 8 hi]; rfl), honly1⟩
  · obtain ⟨s2, hread2, honly2, -, -⟩ := (h.fetches_literal honly1 hright1 hfree1).readCode
    have hcells : s1.cells (placedCell + 8) 8 = s.cells (placedCell + 8) 8 := honly1.field fun s => s.cells (placedCell + 8) 8
    refine ⟨16, s2, (wordFound_long hread1 hl hread2).trans (by rw [hcells, ← foundOf_ok 16 hi]; rfl), ?_⟩
    rw [OnlyCached] at honly1 honly2 ⊢
    rw [honly2, honly1]

/-- What the first step of a placed word comes to: the instruction runs, in all lanes, with the memory and the group as they were. -/
def RunsPlaced (s : State) (i : Instr) : Prop :=
  ∃ t u : State, exec i t = .next u ∧ step s = .next (u.usePort i).dropFetched.tick ∧ t.cur.pc = 0x10000 ∧ t.cur.gid = 2 ∧
    t.cur.lanes = BitVec.allOnes 32 ∧ t.group 2 = s.group 2 ∧ t.mem = s.mem

theorem Placed.runs {s : State} (h : Placed s) (ha : s.agenda = [.issue 2]) {i : Instr}
    (hi : decodeWords (dwordLE (s.cells placedCell 8)) (dwordLE (s.cells (placedCell + 8) 8)) = .ok i) : RunsPlaced s i := by
  have hrest : Placed { s with agenda := [] } := h.withAgenda []
  obtain ⟨len, t, hfound, honly⟩ := hrest.wordFound hi
  obtain ⟨u, hu⟩ := exec_total i (t.lengthed len)
  exact ⟨t.lengthed len, u, hu, (step_issue ha h.inTime).trans (hrest.mayRun.step_ok hrest.turn hfound hu), honly.field fun s => s.cur.pc,
    honly.field fun s => s.cur.gid, (honly.field fun s => s.cur.lanes).trans placedHere_stands.2, honly.field fun s => s.group 2,
    honly.field fun s => s.mem⟩

theorem decodeTableWord_some {nbits w : Nat} {i : Instr} (h : decodeTableWord nbits w = some i) :
    decodeWords (BitVec.ofNat 64 (w % 2 ^ nbits)) (BitVec.ofNat 64 (w % 2 ^ nbits / 2 ^ 64)) = .ok i := by
  unfold decodeTableWord at h
  extract_lets v at h
  split at h
  · next j hj => rw [hj, Option.some.inj h]
  · exact absurd h.symm (Option.some_ne_none i)

theorem withMem_cells (s t : State) (a n : Nat) : (s.withMem t.mem).cells a n = t.cells a n := rfl

theorem withMem_agenda (s : State) (m : Sparse Byte) : (s.withMem m).agenda = s.agenda := rfl

theorem placedReset_agenda : placedReset.agenda = [.issue 2] := by decide +kernel

/-- A word placed in memory is the first that runs. -/
theorem placed_word_runs (nbits w : Nat) (i : Instr) (hi : decodeTableWord nbits w = some i) : RunsPlaced (State.reset.withFetchWord nbits w) i := by
  obtain ⟨hw0, hw1⟩ := cells_word State.reset placedCell (w % 2 ^ nbits)
  rw [withFetchWord_reset]
  refine Placed.runs (placed_reset.withMem (State.reset.setCells placedCell (toLE 16 (w % 2 ^ nbits))).mem)
    ((withMem_agenda placedReset _).trans placedReset_agenda) ?_
  rw [withMem_cells, withMem_cells, hw0, hw1, dwordLE_toLE, dwordLE_toLE]
  exact decodeTableWord_some hi
end Sys2Proof.Machine
end

section
/-! SUPPORT. O55: what a step does with the word it finds (R113, R144, R298, R319). -/
namespace Sys2Proof.Machine

open Sys2Proof.Safety

/-- A word that is none, in lanes that handle no trap: the step traps them with its cause. -/
theorem MayRun.step_traps {s t : State} {gid len : Nat} {g : Group} {pc w : DWord} {e : Reject} (hrun : MayRun s gid g pc)
    (hturn : s.turn exec gid = true) (hf : (s.fetching gid g pc).wordFound gid pc.toNat = (.bad w len e, t))
    (hg : (t.lengthed len).group gid = some g) (hlanes : (t.lengthed len).cur.lanes = g.wordLanes pc) (hgid : (t.lengthed len).cur.gid = gid)
    (hh : ∀ l, (g.wordLanes pc).getLsbD l = true → (g.lane l).handler = false) :
    ∃ g' : Group, stepIssue s gid = .next ((t.lengthed len).setGroup gid g').tick ∧
      ∀ l, l < 32 → g'.lane l = if (g.wordLanes pc).getLsbD l then (g.lane l).trap (Reject.cause e) 0 0 else g.lane l := by
  have htrap := trapWord_lanes (s := t.lengthed len) (g := g) (by rw [hgid]; exact hg) (stallOf w) (Reject.cause e) 0 (by rw [hlanes]; exact hh)
  rw [hlanes, hgid] at htrap
  obtain ⟨g', hword, hdone⟩ := htrap
  exact ⟨g', by rw [hrun.step_bad hturn hf, hword], hdone⟩

/-- What a step does with the words w and x at the issue address, fetched in state t: it runs the instruction that they stand for, or traps
the lanes there. -/
theorem step_word {s t : State} {rest : List Sched} {gid len : Nat} {g : Group} {pc w x : DWord} (ha : s.agenda = .issue gid :: rest)
    (hb : s.bucketDue = false) (hturn : State.turn { s with agenda := rest } exec gid = true) (hrun : MayRun { s with agenda := rest } gid g pc)
    (hf : (State.fetching { s with agenda := rest } gid g pc).wordFound gid pc.toNat = (foundOf w x len, t)) :
    (∀ i, decodeWords w x = .ok i → ∀ u, exec i (t.lengthed len) = .next u → step s = .next (u.usePort i).dropFetched.tick) ∧
    (∀ e, decodeWords w x = .error e → (t.lengthed len).group gid = some g → (t.lengthed len).cur.lanes = g.wordLanes pc →
      (t.lengthed len).cur.gid = gid → (∀ l, (g.wordLanes pc).getLsbD l = true → (g.lane l).handler = false) →
      ∃ g' : Group, step s = .next ((t.lengthed len).setGroup gid g').tick ∧
        ∀ l, l < 32 → g'.lane l = if (g.wordLanes pc).getLsbD l then (g.lane l).trap (Reject.cause e) 0 0 else g.lane l) := by
  rw [step_issue ha hb]
  refine ⟨fun i hi u hu => ?_, fun e he hg hlanes hgid hh => ?_⟩
  · rw [foundOf_ok len hi] at hf
    exact hrun.step_ok hturn hf hu
  · rw [foundOf_bad len he] at hf
    exact hrun.step_traps hturn hf hg hlanes hgid hh

theorem step_passed_over {s : State} {rest : List Sched} {gid : Nat} (ha : s.agenda = .issue gid :: rest) (hb : s.bucketDue = false)
    (hturn : State.turn { s with agenda := rest } exec gid = false) : step s = .next (State.tick { s with agenda := rest }) := by
  rw [step_issue ha hb, stepIssue, hturn]
  rfl

theorem step_boundary {s t : State} (hb : s.bucketDue = true) (ht : s.takes .bucketBoundary = true)
    (hx : exec .bucketBoundary { s with input := .none } = .next t) : step s = .next t.tick := by
  rw [step, hb]
  exact stepEvent_taken rfl ht hx

/-- A group alone on its core has its turn, unless its last word holds the port that its next asks for. -/
theorem turn_of_alone {s : State} {gid : Nat} {g : Group} (hg : s.group gid = some g)
    (halone : ∀ i a, (i, some a) ∈ s.groups → i ≠ gid → a.core = g.core → a.resident = false) :
    (g.portTill ≤ s.clk → s.turn exec gid = true) ∧
    (s.clk < g.portTill → g.resident = true → g.lastPort ≠ 0 → s.tries exec gid = some g.lastPort → s.turn exec gid = false) := by
  rw [turn_alone hg halone]
  refine ⟨fun h => by rw [decide_eq_true h, Bool.true_or], fun h hres hport htries => ?_⟩
  rw [htries, Option.getD_some, portHeld_self hg h hres hport, decide_eq_false (by omega)]
  rfl

/-- Settles O55, from what the model's step does with each kind of turn: the word that the fetch finds, read through the frame of the fetch,
and the word that is placed, in the state where its page is held. -/
theorem stepRunsWord : Obligations.StepRunsWord := by
  unfold Obligations.StepRunsWord
  refine ⟨?_, issueAddress_least, fun s gid g hg halone => turn_of_alone hg halone, fun s rest gid => step_passed_over,
    fun s t hb ht hx => step_boundary hb ht hx, fun s rest i x ha hi hb => ⟨fun ht => ?_, fun ht t hx => ?_⟩,
    fun s => ⟨tick_eq s, tick_group s⟩, fun s i => ⟨usePort_eq s i, usePort_group s i⟩, fun s => ⟨dropFetched_eq s, dropFetched_group s⟩,
    exec_total, step_total, fun nbits w i _ hi => placed_word_runs nbits w i hi⟩
  · intro s rest gid g pc b0 s1 ha hb hturn hg hmay hcopies hpc lanes hread w runs traps
    have hrun : MayRun { s with agenda := rest } gid g pc := ⟨hg, hmay, hcopies, hpc⟩
    refine ⟨fun hshort => ?_, fun hlong b1 s2 hread2 => ?_⟩
    · obtain ⟨hok, hbad⟩ := step_word ha hb hturn hrun (wordFound_short hread hshort)
      have hlen : s1.lengthed 8 = s1 := lengthed_fetched (s := { s with agenda := rest }) (g := g) hread
      rw [hlen] at hok hbad
      exact ⟨hok, fun e he => by cases e <;> exact hbad _ he⟩
    · obtain ⟨hok, hbad⟩ := step_word ha hb hturn hrun (wordFound_long hread hlong hread2)
      exact ⟨hok, fun e he => by cases e <;> exact hbad _ he⟩
  · rw [step_event ha hb]
    exact stepEvent_ignored ht
  · rw [step_event ha hb]
    exact stepEvent_taken hi ht hx
end Sys2Proof.Machine
end

section
/-! SUPPORT. O35: the spawn that SPAWN sends (R117, R198, R417). -/
namespace Sys2Proof.Machine

open Sys2Proof.Safety

/-! ### SPAWN (R117, R198, R417) -/

/-- A release at device scope that no L1 carries out: it waits for all that its thread has on its way, and for the writes of its context
on its core (R198, R200). -/
theorem releaseDeps_device (s : State) (gid l : Nat) (proto : Txn) : s.releaseDeps gid l .dev false proto =
    (((s.threadTxns gid l).map (·.1) ++ s.coreWrites proto.core proto.ctx).eraseDups, true, s) := rfl

/-- The spawn that lane l of group g sends, and what it waits for. -/
def spawnReq (s s0 : State) (g : Group) (l : Nat) (onG : Bool) (cls n : BitVec 3) (entry join pay : RegIx) : SpawnReq :=
  { gid := s0.cur.gid, lane := l, core := g.core, launch := g.launch, entry := (envOf false g l).a64 onG entry
    cls := cls.toNat, depth := (match g.spawned with | some x => x.depth | none => 0) + 1, join := (envOf false g l).a64 onG join
    pay := (List.range n.toNat).map fun i => (g.lane l).reg (pay.toNat + i)
    deps := ((s.threadTxns s0.cur.gid l).map (·.1) ++ s.coreWrites g.core (s.ctxOf g)).eraseDups }

/-- What SPAWN does in a lane: its checks, and the spawn on its way. -/
def spawnDoes (onG : Bool) (cls n : BitVec 3) (entry join pay : RegIx) (s0 : State) (g : Group) (l : Nat) (s : State) : Does × State :=
  let en := ((envOf false g l).a64 onG entry).toNat
  let jn := ((envOf false g l).a64 onG join).toNat
  if (s.rcd g.launch).blk.spov = 0 then (.traps 0x33 0 0, s)
  else if (match g.spawned with | some x => x.depth | none => 0) = 63 then (.traps 0x34 0 0, s)
  else if en % 8 ≠ 0 then (.traps 0x25 0 (BitVec.ofNat 64 en), s)
  else if jn % 4 ≠ 0 then (.traps 0x25 0 (BitVec.ofNat 64 jn), s)
  else if 2 ^ 57 ≤ en then (.traps 0x26 0 (BitVec.ofNat 64 en), s)
  else if 2 ^ 57 ≤ jn then (.traps 0x26 0 (BitVec.ofNat 64 jn), s)
  else (.parks (.spawn s.next), { s with
    next := s.next + 1, spawns := Sparse.set none s.spawns s.next (some (spawnReq s s0 g l onG cls n entry join pay)) })

/-- A spawn leaves the groups alone. -/
theorem spawnDoes_groups (onG : Bool) (cls n : BitVec 3) (entry join pay : RegIx) (s0 : State) (g : Group) (l : Nat) (s : State) :
    (spawnDoes onG cls n entry join pay s0 g l s).2.groups = s.groups := by
  simp only [spawnDoes, apply_ite Prod.snd, apply_ite State.groups, ite_self]

theorem spawn_seq (h : Hdr) (onG : Bool) (cls n : BitVec 3) (entry join pay : RegIx) :
    SeqWord (.spawn h onG cls n entry join pay) h (fun _ _ => True) (spawnDoes onG cls n entry join pay) := by
  refine seqWord_intro _ _ _ _ (fun _ => rfl) (fun s g _ _ l _ s' => ?_) rfl rfl rfl rfl (fun _ _ _ _ _ => rfl) rfl
    (by cases onG <;> rfl) (fun s g _ l s' hs => ?_)
  · have hdepth : (g.spawned.map (·.depth)).getD 0 = match g.spawned with | some x => x.depth | none => 0 := by
      cases g.spawned <;> rfl
    show _ = asLane (spawnDoes onG cls n entry join pay s g l s')
    simp only [spawnDoes, apply_ite asLane, ← hdepth]
    refine ite_congr rfl (fun _ => rfl) fun _ => ite_congr rfl (fun _ => rfl) fun _ => ite_congr rfl (fun _ => rfl) fun _ =>
      ite_congr rfl (fun _ => rfl) fun _ => ite_congr rfl (fun _ => rfl) fun _ => ite_congr rfl (fun _ => rfl) fun _ => ?_
    simp only [releaseDeps_device, BitVec.ofNat_toNat, BitVec.setWidth_eq]
    rw [spawnReq, ← hdepth]
    rfl
  · rw [show (spawnDoes onG cls n entry join pay s g l s').2.group s.cur.gid = s'.group s.cur.gid by
      rw [State.group, spawnDoes_groups]; rfl]
    exact hs

end Sys2Proof.Machine
end

section
/-! SUPPORT. O35: bins, the acceptance of a spawn, the timer, and join decrements (R120 to R124, R126, R129, R130). -/
namespace Sys2Proof.Machine

open Sys2Proof.Safety

/-! ### Bins that a test closes (R124) -/

/-- Is the bin open, and does the test name it? -/
def Bin.closes (x : Bin) (f : Bin → Bool) : Bool := x.used && x.closed.isNone && f x

theorem Bin.closes_iff (x : Bin) (f : Bin → Bool) : x.closes f = true ↔ x.used = true ∧ x.closed = none ∧ f x = true := by
  simp only [Bin.closes, Bool.and_eq_true, Option.isNone_iff_eq_none, and_assoc]

/-- One bin of a flush: an open one that the test names closes. -/
def State.flushBin (s : State) (f : Bin → Bool) (p : Nat × Bin) : State :=
  if p.2.closes f then { s with bins := Sparse.set {} s.bins p.1 { p.2 with closed := some s.next }, next := s.next + 1 } else s

theorem flushBins_eq (s : State) (f : Bin → Bool) : s.flushBins f = s.bins.foldl (fun s p => s.flushBin f p) s := rfl

/-- Nothing but bins and the counter of identifiers differs. -/
def OnlyBins (s t : State) : Prop := t = { s with bins := t.bins, next := t.next }
theorem OnlyBins.refl (s : State) : OnlyBins s s := rfl
theorem OnlyBins.trans (s t u : State) (h : OnlyBins s t) (k : OnlyBins t u) : OnlyBins s u := by
  unfold OnlyBins at *; rw [k, h]
theorem OnlyBins.field {α : Type} {s t : State} (h : OnlyBins s t) (F : State → α)
    (hF : ∀ s t : State, F { s with bins := t.bins, next := t.next } = F s := by intros; rfl) : F t = F s := by
  rw [h]; exact hF s t

theorem onlyBins_flushBin (s : State) (f : Bin → Bool) (p : Nat × Bin) : OnlyBins s (s.flushBin f p) := by
  unfold State.flushBin; split <;> rfl

theorem onlyBins_flushBins (s : State) (f : Bin → Bool) : OnlyBins s (s.flushBins f) :=
  foldl_rel OnlyBins .refl .trans _ _ (fun s p _ => onlyBins_flushBin s f p) s

theorem flushBin_bin (s : State) (f : Bin → Bool) (p : Nat × Bin) (k : Nat) : Sparse.get {} (s.flushBin f p).bins k =
    if k = p.1 ∧ p.2.closes f = true then { p.2 with closed := some s.next } else Sparse.get {} s.bins k := by
  unfold State.flushBin
  by_cases hc : p.2.closes f = true
  · rw [if_pos hc, Sparse.get_set]
    simp only [hc, and_true]
  · rw [if_neg hc, if_neg fun h => hc h.2]

/-- A pass over bins that stand in the state, each once: those that the test names close. -/
theorem foldl_flushBin (f : Bin → Bool) (l : List (Nat × Bin)) (s : State) (hn : (l.map (·.1)).Nodup)
    (hin : ∀ p ∈ l, Sparse.get {} s.bins p.1 = p.2) (k : Nat) : ∃ n, Sparse.get {} (l.foldl (fun s p => s.flushBin f p) s).bins k =
      if k ∈ l.map (·.1) ∧ (Sparse.get {} s.bins k).closes f = true then { Sparse.get {} s.bins k with closed := some n }
      else Sparse.get {} s.bins k := by
  induction l generalizing s with
  | nil => exact ⟨0, by simp⟩
  | cons p l ih =>
    obtain ⟨hp, hn⟩ := List.nodup_cons.mp hn
    have hstep := flushBin_bin s f p
    have hother : ∀ j, j ≠ p.1 → Sparse.get {} (s.flushBin f p).bins j = Sparse.get {} s.bins j := fun j hj =>
      (hstep j).trans (if_neg fun h => hj h.1)
    obtain ⟨n, hrest⟩ := ih (s.flushBin f p) hn fun q hq =>
      (hother q.1 fun he => hp (List.mem_map.mpr ⟨q, hq, he⟩)).trans (hin q (List.mem_cons_of_mem p hq))
    rw [List.foldl_cons, hrest]
    by_cases hk : k = p.1
    · subst hk
      have hnot : ¬ (p.1 ∈ l.map (·.1) ∧ (Sparse.get {} (s.flushBin f p).bins p.1).closes f = true) := fun h => hp h.1
      refine ⟨s.next, ?_⟩
      rw [if_neg hnot, hstep, hin p List.mem_cons_self]
      simp only [List.map_cons, List.mem_cons_self, true_and]
    · refine ⟨n, ?_⟩
      rw [hother k hk]
      simp only [List.map_cons, List.mem_cons, hk, false_or]

/-- A flush closes the open bins that its test names, and changes no other. -/
theorem flushBins_bin (s : State) (f : Bin → Bool) (hw : Sparse.wf {} s.bins = true) (u b : Nat) : ∃ k, (s.flushBins f).bin u b =
    if (s.bin u b).used = true ∧ (s.bin u b).closed = none ∧ f (s.bin u b) = true then { s.bin u b with closed := some k } else s.bin u b := by
  obtain ⟨n, hn⟩ := foldl_flushBin f s.bins s (Sparse.nodup_keys hw) (fun p hp => Sparse.get_of_mem hw hp) (u * 256 + b)
  refine ⟨n, hn.trans ?_⟩
  rw [← State.bin]
  refine if_congr ?_ rfl rfl
  rw [Bin.closes_iff]
  refine and_iff_right_of_imp fun h => ?_
  by_contra hout
  have hfree : s.bin u b = {} := Sparse.get_of_unlisted fun v hv => hout (List.mem_map_of_mem hv)
  rw [hfree] at h
  exact absurd h.1 Bool.false_ne_true

/-! ### Refills where no ring holds a record (R126) -/

theorem refill_idle (s : State) (u n : Nat) (h : s.refillLaunch u = none) : s.refill u n = s := by
  cases n with
  | zero => rfl
  | succ n => rw [State.refill, State.refillOne, h]

/-! ### The timer of bins (R124, R132) -/

/-- An open bin whose time has passed closes. -/
theorem binTimer_closes (s : State) (q b : Nat) (hr : s.refillLaunch q = none) (hu : (s.bin q b).used = true) (hc : (s.bin q b).closed = none)
    (ht : (s.bin q b).openedAt + 40000 ≤ s.clk) :
    exec (.binTimer q b) s = .next ({ s with next := s.next + 1 }.setBin q b { s.bin q b with closed := some s.next }) := by
  have htimer : s.binTimer q b = { s with next := s.next + 1 }.setBin q b { s.bin q b with closed := some s.next } := by
    have hdue : decide ((s.bin q b).openedAt + binTime ≤ s.clk) = true := decide_eq_true ht
    rw [State.binTimer]
    simp only [hu, hc, hdue, Option.isNone_none, Bool.true_or, Bool.and_self, ↓reduceIte]
    rfl
  refine congrArg Host.Outcome.next ?_
  rw [htimer]
  exact refill_idle _ q _ hr

/-- One whose time has not passed, and whose threads nobody awaits, stays as it is. -/
theorem binTimer_waits (s : State) (q b : Nat) (hr : s.refillLaunch q = none) (ht : s.clk < (s.bin q b).openedAt + 40000)
    (ha : s.binAwaited (s.bin q b) = false) : exec (.binTimer q b) s = .next s := by
  have htimer : s.binTimer q b = s := by
    have hdue : decide ((s.bin q b).openedAt + binTime ≤ s.clk) = false := decide_eq_false (Nat.not_le.mpr ht)
    rw [State.binTimer]
    simp only [hdue, ha, Bool.or_self, Bool.and_false, Bool.false_eq_true, ↓reduceIte]
  refine congrArg Host.Outcome.next ?_
  rw [htimer]
  exact refill_idle _ q _ hr

/-! ### The acceptance of a spawn (R120, R122, R123) -/

/-- Is it the open bin of the spawn's key? -/
def Bin.takes (x : Bin) (q : SpawnReq) : Prop :=
  x.used = true ∧ x.closed = none ∧ x.launch = q.launch ∧ x.entry = q.entry ∧ x.cls = q.cls ∧ x.depth = q.depth

/-- The thread of a spawn as the next of a bin. -/
def Bin.nextKid (x : Bin) (q : SpawnReq) : Child := { lane := x.kids.length, join := q.join, pay := q.pay, src := q.gid }

/-- The bin with the thread of a spawn; at 32 threads it closes, as event `n`. -/
def Bin.withKid (x : Bin) (q : SpawnReq) (n : Nat) : Bin :=
  { x with kids := x.kids ++ [x.nextKid q], closed := if 32 ≤ x.kids.length + 1 then some n else none }

/-- The bin that a spawn begins. -/
def freshBin (s : State) (q : SpawnReq) : Bin :=
  { used := true, launch := q.launch, entry := q.entry, cls := q.cls, depth := q.depth, openedAt := s.clk }

/-- The bin that a spawn comes to, b of unit u, before it takes the spawn's thread: the open one of its key or, with none, a free one. -/
structure BinFor (s : State) (u b : Nat) (q : SpawnReq) (x : Bin) : Prop where
  small : b < 256
  which : ((s.bin u b).takes q ∧ x = s.bin u b) ∨
    ((∀ b, b < 256 → ¬ (s.bin u b).takes q) ∧ (s.bin u b).used = false ∧ x = freshBin s q)

theorem BinFor.takes {s : State} {u b : Nat} {q : SpawnReq} {x : Bin} (h : BinFor s u b q x) : x.takes q := by
  obtain ⟨htakes, rfl⟩ | ⟨-, -, rfl⟩ := h.which
  · exact htakes
  · exact ⟨rfl, rfl, rfl, rfl, rfl, rfl⟩

/-- What the bin held before. -/
theorem BinFor.kids {s : State} {u b : Nat} {q : SpawnReq} {x : Bin} (h : BinFor s u b q x) :
    x.kids = if (s.bin u b).used then (s.bin u b).kids else [] := by
  obtain ⟨⟨hused, -⟩, rfl⟩ | ⟨-, hused, rfl⟩ := h.which
  · rw [hused, if_pos rfl]
  · rw [hused, if_neg Bool.false_ne_true]; rfl

/-- The state with one thread more in bin b of unit u, which held x; at `n` threads the bin closes. -/
def State.putKid (s : State) (u b : Nat) (x : Bin) (kid : Child) (n : Nat) : State :=
  let y : Bin := { x with kids := x.kids ++ [kid] }
  let full := decide (n ≤ y.kids.length)
  let t := s.setBin u b { y with closed := if full then some s.next else none }
  if full then { t with next := s.next + 1 } else t

theorem onlyBins_putKid (s : State) (u b : Nat) (x : Bin) (kid : Child) (n : Nat) : OnlyBins s (s.putKid u b x kid n) := by
  unfold State.putKid; dsimp only; split <;> rfl

theorem putKid_bin (s : State) (u b : Nat) (x : Bin) (kid : Child) (n : Nat) : (s.putKid u b x kid n).bin u b =
    { x with kids := x.kids ++ [kid], closed := if n ≤ x.kids.length + 1 then some s.next else none } := by
  have hlen : (x.kids ++ [kid]).length = x.kids.length + 1 := List.length_append
  unfold State.putKid
  simp only [hlen, decide_eq_true_eq]
  split <;> exact Sparse.get_set_same ..

/-- The state with the spawn's thread in the bin; of a launch that runs copies its lane is a primary (R164). -/
def State.addKid (s : State) (u b : Nat) (x : Bin) (q : SpawnReq) : State :=
  s.putKid u b x { x.nextKid q with lane := if (s.rcd q.launch).blk.prot then 2 * x.kids.length else x.kids.length } (s.binLimit q.launch)

theorem addKid_bin (s : State) (u b : Nat) (x : Bin) (q : SpawnReq) (hp : (s.rcd q.launch).blk.prot = false) :
    (s.addKid u b x q).bin u b = x.withKid q s.next := by
  rw [State.addKid, putKid_bin, State.binLimit, hp]
  rfl

/-- The test by which a unit looks for the bin of a spawn. -/
def Bin.fits (x : Bin) (q : SpawnReq) : Bool :=
  x.used && x.closed.isNone && x.launch == q.launch && x.entry == q.entry && x.cls == q.cls && x.depth == q.depth

theorem Bin.fits_iff (x : Bin) (q : SpawnReq) : x.fits q = true ↔ x.takes q := by
  simp only [Bin.fits, Bin.takes, Bool.and_eq_true, Option.isNone_iff_eq_none, beq_iff_eq, and_assoc]

theorem intoBin_eq (s : State) (u : Nat) (q : SpawnReq) : s.intoBin u q.launch q.entry q.cls q.depth q.join q.pay q.gid =
    match (List.range 256).find? fun b => (s.bin u b).fits q with
    | some b => some (s.addKid u b (s.bin u b) q)
    | none => match (List.range 256).find? fun b => !(s.bin u b).used with
      | some b => some (s.addKid u b (freshBin s q) q)
      | none => none := rfl

/-- A spawn goes into the bin of its key, if there is one, or else a free one. -/
theorem intoBin_some (s : State) (u : Nat) (q : SpawnReq)
    (hroom : (∃ b, b < 256 ∧ (s.bin u b).takes q) ∨ ∃ b, b < 256 ∧ (s.bin u b).used = false) :
    ∃ b x, BinFor s u b q x ∧ s.intoBin u q.launch q.entry q.cls q.depth q.join q.pay q.gid = some (s.addKid u b x q) := by
  rw [intoBin_eq]
  cases hown : (List.range 256).find? fun b => (s.bin u b).fits q with
  | some b =>
    have hb := List.mem_range.mp (List.mem_of_find?_eq_some hown)
    have hfits : (s.bin u b).takes q := (Bin.fits_iff _ q).mp (List.find?_some (p := fun b => (s.bin u b).fits q) hown)
    exact ⟨b, s.bin u b, ⟨hb, .inl ⟨hfits, rfl⟩⟩, rfl⟩
  | none =>
    have hno : ∀ b, b < 256 → ¬ (s.bin u b).takes q := fun b hb ht =>
      List.find?_eq_none.mp hown b (List.mem_range.mpr hb) ((Bin.fits_iff _ q).mpr ht)
    cases hfree : (List.range 256).find? fun b => !(s.bin u b).used with
    | some b =>
      have hb := List.mem_range.mp (List.mem_of_find?_eq_some hfree)
      have hunused : (!(s.bin u b).used) = true := List.find?_some (p := fun b => !(s.bin u b).used) hfree
      exact ⟨b, freshBin s q, ⟨hb, .inr ⟨hno, by simpa using hunused, rfl⟩⟩, rfl⟩
    | none =>
      obtain ⟨b, hb, ht⟩ | ⟨b, hb, hu⟩ := hroom
      · exact absurd ht (hno b hb)
      · have hin := List.find?_eq_none.mp hfree b (List.mem_range.mpr hb)
        rw [hu] at hin
        exact absurd rfl hin

/-- The lane of a spawn that its unit has taken: past the SPAWN. -/
def Lane.spawned (ln : Lane) : Lane := { ln with st := .eligible, park := .none, ready := false, pc := ln.pc + 8 }

/-- The state in which the spawn is on its way no more. -/
def State.spawnGone (s : State) (id : Nat) (q : SpawnReq) : State :=
  { s with spawns := Sparse.set none s.spawns id none, wokenSpawns := s.wokenSpawns.filter fun p => p.2 != (q.gid, q.lane) }

/-- A resident lane whose spawn has been accepted is past the SPAWN (R120). -/
theorem freeLane_spawned {s : State} {gid l id : Nat} {g : Group} (hg : s.group gid = some g) (hpark : (g.lane l).park = .spawn id)
    (hres : g.resident = true) (hprot : (s.rcd g.launch).blk.prot = false) :
    s.freeLane gid l (fun p => p) = s.setGroup gid (g.setLane l (g.lane l).spawned) := by
  simp only [State.freeLane, hg, hres, ↓reduceIte, State.onLane, Group.both, hprot, Bool.false_eq_true, Lane.release, hpark]
  rfl

/-- The resident group whose lane waits for the acceptance of its spawn goes on with it. -/
theorem passSpawn_eq {s : State} {id : Nat} {q : SpawnReq} {g : Group} (hg : s.group q.gid = some g)
    (hpark : (g.lane q.lane).park = .spawn id) (hres : g.resident = true) (hprot : (s.rcd g.launch).blk.prot = false) :
    s.passSpawn id q = (s.spawnGone id q).setGroup q.gid (g.setLane q.lane (g.lane q.lane).spawned) := by
  have hgone : (s.spawnGone id q).group q.gid = some g := hg
  have hpass : s.passSpawn id q = match (s.spawnGone id q).group q.gid with
    | some g => if (g.lane q.lane).park = .spawn id then (s.spawnGone id q).freeLane q.gid q.lane (fun p => p) else s.spawnGone id q
    | none => s.spawnGone id q := rfl
  rw [hpass, hgone]
  exact (if_pos hpark).trans (freeLane_spawned hgone hpark hres hprot)

/-- A spawn that comes before its unit: of its core's it is the oldest, its stores have committed, and no ring of the unit holds a record
that would go first (R120, R123, R126). -/
structure SpawnDue (s : State) (id : Nat) (q : SpawnReq) : Prop where
  sent : Sparse.get none s.spawns id = some q
  oldest : ∀ id' q', (id', some q') ∈ s.spawns → q'.core = q.core → id ≤ id'
  unwoken : ∀ p ∈ s.wokenSpawns, p.2 ≠ (q.gid, q.lane)
  running : (s.rcd q.launch).st = .running
  committed : ∀ d ∈ q.deps, s.txn d = none
  clean : s.clean q.core (s.rcd q.launch).ctx = true
  noRefill : s.refillLaunch (q.core / 48) = none
  unspilled : ((s.rcd q.launch).spill (q.core / 48)).tail ≤ ((s.rcd q.launch).spill (q.core / 48)).head

/-- Such a spawn goes into a bin where there is one for it. -/
theorem SpawnDue.accepted {s t : State} {id : Nat} {q : SpawnReq} (h : SpawnDue s id q)
    (hbin : s.intoBin (q.core / 48) q.launch q.entry q.cls q.depth q.join q.pay q.gid = some t) :
    exec (.spawnAccept id) s = .next (t.passSpawn id q) := by
  have hwaits : s.waitsRank q = false := by
    rw [State.waitsRank]
    refine Bool.and_eq_false_iff.mpr (.inl ?_)
    rw [Bool.eq_false_iff]
    exact fun hc => h.unwoken _ (List.contains_iff_mem.mp hc) rfl
  have hfirst : ((listed s.spawns).any fun p => decide (p.1 < id) && p.2.core == q.core && !s.waitsRank p.2) = false := by
    rw [List.any_eq_false]
    intro p hp hc
    simp only [Bool.and_eq_true, decide_eq_true_eq, beq_iff_eq] at hc
    exact absurd hc.1.1 (Nat.not_lt.mpr (h.oldest p.1 p.2 (mem_listed.mp hp) hc.1.2))
  have hdeps : (q.deps.any fun d => (s.txn d).isSome) = false := by
    rw [List.any_eq_false]
    intro d hd
    rw [h.committed d hd]
    exact Bool.false_ne_true
  have htake : s.takeSpawn id q = t.passSpawn id q := by
    unfold State.takeSpawn unitOf
    dsimp only
    rw [refill_idle s _ _ h.noRefill, if_neg (not_not_intro h.running), decide_eq_false (Nat.not_lt.mpr h.unspilled), if_neg Bool.false_ne_true, hbin]
  refine congrArg Host.Outcome.next ?_
  rw [State.spawnAccept, h.sent]
  dsimp only
  rw [hwaits, hfirst, hdeps, cleanTo_of_clean s _ _ id h.clean]
  exact htake

/-! ### Join decrements (R130) -/

theorem logWrap_mem (s : State) (r va v n : Nat) : (s.logWrap r va v n).mem = s.mem := by
  unfold State.logWrap; split <;> rfl

theorem wordAt_of_mem {s t : State} (h : s.mem = t.mem) (c n : Nat) : s.wordAt c n = t.wordAt c n := by
  simp only [State.wordAt, State.cells, cell_of_mem h]

/-- A word that a unit has written reads as written. -/
theorem agentWrite_wordAt (s : State) (src : Src') (i c n v : Nat) (h : v < 256 ^ n) :
    (s.agentWrite src i ((List.range n).map fun j => (c + j, (toLE n v).getD j 0))).wordAt c n = v := by
  have hcells : (s.agentWrite src i ((List.range n).map fun j => (c + j, (toLE n v).getD j 0))).cells c n = toLE n v := by
    refine List.ext_getElem (by simp [State.cells]) fun k hk hk' => ?_
    have hkn : k < n := by simpa [State.cells] using hk
    simp only [State.cells, List.getElem_map, List.getElem_range]
    rw [agentWrite_word_cell, if_pos ⟨Nat.le_add_right c k, by omega⟩, Nat.add_sub_cancel_left, List.getD_eq_getElem _ _ hk']
  rw [State.wordAt, hcells, leNat_toLE, Nat.mod_eq_of_lt h]

theorem wrapN_lt (x : Int) (n : Nat) : wrapN x n < 2 ^ n := by
  have hpos : (0 : Int) < 2 ^ n := by positivity
  have hlt := Int.emod_lt_of_pos x hpos
  have hge := Int.emod_nonneg x hpos.ne'
  unfold wrapN
  zify
  rw [Int.toNat_of_nonneg hge]
  exact hlt

theorem wrapN_cast (x : Int) (n : Nat) : (wrapN x n : Int) = x % 2 ^ n :=
  Int.toNat_of_nonneg (Int.emod_nonneg x (by positivity))

/-- The state after a decrement's atomic at cell x, its counter's home. -/
def State.decremented (s : State) (d : Dec) (x : Nat) : State :=
  (s.agentWrite (srcCore d.core) 0 ((List.range 4).map fun i => (x + i, (toLE 4 (wrapN ((s.wordAt x 4 : Int) - d.n) 32)).getD i 0))).logWrap
    d.launch d.va (s.wordAt x 4) d.n

/-- The decrement is due no more. -/
def State.decGone (s : State) (id : Nat) : State := { s with decs := Sparse.set none s.decs id none }

theorem decremented_wordAt (s : State) (d : Dec) (x : Nat) : ((s.decremented d x).wordAt x 4 : Int) = ((s.wordAt x 4 : Int) - d.n) % 2 ^ 32 := by
  rw [State.decremented, wordAt_of_mem (logWrap_mem _ _ _ _ _), agentWrite_wordAt s _ 0 x 4 _ (wrapN_lt _ 32), wrapN_cast]

theorem decremented_cell_other (s : State) (d : Dec) (x c : Nat) (hc : c < x ∨ x + 4 ≤ c) : (s.decremented d x).cell c = s.cell c := by
  rw [State.decremented, cell_of_mem (logWrap_mem _ _ _ _ _), agentWrite_word_cell, if_neg (by omega)]

/-- A decrement whose thread's stores have committed, and whose counter is sound, is performed at the counter's home. -/
theorem joinDecrement_performed {s s1 : State} {id : Nat} {d : Dec} {x : Nat} (hd : Sparse.get none s.decs id = some d) (hsent : d.sent = none)
    (hdeps : ∀ i ∈ d.deps, s.txn i = none) (hclean : s.clean d.core d.ctx = true)
    (hat : s.millAt d.ctx d.va 4 .atomic = (.cell x, s1)) (hsound : s1.poisoned x = false) :
    exec (.joinDecrement id) s = .next (((s1.decremented d x).decGone id).tailrace d.launch) := by
  have hover : (d.deps.any fun i => (s.txn i).isSome) = false := by
    rw [List.any_eq_false]
    intro i hi
    rw [hdeps i hi]
    exact Bool.false_ne_true
  have hdec : s.decAt (srcCore d.core) d.core d.ctx d.launch d.va d.n = (.done, s1.decremented d x) := by
    rw [State.decAt, hat]
    dsimp only
    rw [hsound]
    rfl
  refine congrArg Host.Outcome.next ?_
  rw [State.joinDecrement, hd]
  dsimp only
  rw [hsent, hover, cleanTo_of_clean s _ _ id hclean, hdec]
  rfl

end Sys2Proof.Machine
end

section
/-! SUPPORT. O35: SPWFLUSH and JWAIT, and the whole (R124, R132, R418). -/
namespace Sys2Proof.Machine

open Sys2Proof.Safety

/-! ### SPWFLUSH (R124, R418) -/

theorem issued_after {s : State} {g : Group} {h : Hdr} {clk : Nat} {lanes : Sparse Lane} {hazards : List Hazard} {handling : Bool}
    (hclk : clk = s.clk) : groupAfter s g (g.issued s false clk h.stall.toNat lanes hazards handling) h := by
  rw [hclk]; rfl

/-- SPWFLUSH closes the open bins with a thread of its group, and its lanes go on. -/
theorem execSpwflush_ends {h : Hdr} {s : State} {g : Group} (hr : WordReady s g h (.spwflush h)) (hst : Still s g h) (ha : active s g h ≠ 0) :
    ∃ g', exec (.spwflush h) s = .next (((numbered s).flushBins fun b => b.kids.any fun k => k.src == s.cur.gid).setGroup s.cur.gid g') ∧
      lanesAfter s g g' h (fun _ ln => ln) ∧ g'.g = g.g ∧ groupAfter s g g' h := by
  have hbins := onlyBins_flushBins (numbered s) fun b => b.kids.any fun k => k.src == s.cur.gid
  obtain ⟨lanes, hazards, handling, hword, hlanes⟩ := issueOnce_ends hst ha hr { mem := true, once := true }
    (fun c _ s => (.done [] [] 0, s.flushBins fun b => b.kids.any fun k => k.src == c.gid)) rfl rfl rfl rfl rfl rfl rfl rfl
    noResults (t := (numbered s).flushBins fun b => b.kids.any fun k => k.src == s.cur.gid) rfl ((hbins.field fun t => t.group s.cur.gid).trans hr.here) rfl rfl (fun _ _ _ hd => nomatch hd)
  refine ⟨_, hword, fun l hl => (hlanes l hl).trans ?_, rfl, issued_after (hbins.field State.clk)⟩
  rw [noResults_lane, ite_self, ite_self]

/-! ### JWAIT (R132, R418) -/

/-- A memory word of one active lane, and what it does after its lane. -/
theorem word_oneLane {i : Instr} {h : Hdr} {s t : State} {g : Group} {l : Nat} {d : Does} (hl : lanesOf (active s g h) = [l])
    (hst : Still s g h) (hr : WordReady s g h i) (o : WordOps) (body : Ctl → Nat → State → LaneRes × State) (hmem : o.mem = true)
    (hu : o.u = false) (hsync : o.sync = false) (honce : o.once = false) (hrot : o.rot = false) (hld : (instrUses i).landing = false)
    (hrd : o.ready (readyCtl s g h false) s = true) (hbody : body (memCtl s g h) l (numbered s) = asLane (d, t))
    (hg : t.group s.cur.gid = some g) (hclk : t.clk = s.clk) (hh : (g.lane l).handler = false) :
    ∃ g', s.word i h o body =
        .next (o.fin (memCtl s g h) ((if parksAny (fun _ => d) [l] then { t with next := t.next + 1 } else t).setGroup s.cur.gid g')) ∧
      lanesRun s g g' h (fun _ ln => d.lane s t.next ln) ∧ g'.g = g.g ∧ groupAfter s g g' h := by
  have hin : ∀ j ∈ [l], j < 32 ∧ s.cur.lanes.getLsbD j = true := fun j hj => by
    obtain ⟨h32, hlanes, -⟩ := mem_active.mp (hl ▸ hj)
    exact ⟨h32, hlanes⟩
  obtain ⟨lanes, hazards, handling, hword, hlanes⟩ := finishWord_does (s := s) g (memCtl s g h) h.stall.toNat (instrUses i) o [l]
    (fun _ => d) ⟨rfl, rfl, rfl⟩ hg (List.nodup_singleton l) hin hld (fun ho => absurd (honce.symm.trans ho) Bool.false_ne_true)
    (fun j hj _ _ _ _ => by rw [List.mem_singleton.mp hj]; exact hh)
  rw [hrot] at hword hlanes
  refine ⟨_, ?_, fun j hj => (hlanes j hj).trans ?_, rfl, issued_after hclk⟩
  · rw [State.word, issueMem_ends hr hst o body hmem hu hsync hrd]
    refine congrArg Host.Outcome.next (Eq.trans ?_ (congrArg (o.fin (memCtl s g h)) hword))
    have hrun : runLanes (body (memCtl s g h)) (if o.once then (lanesOf (active s g h)).take 1 else lanesOf (active s g h)) (numbered s) =
        ([(l, resOf d)], t) := by
      rw [honce, if_neg Bool.false_ne_true, hl]
      simp only [runLanes, hbody, asLane]
    have hspread : (memCtl s g h).spread o [(l, resOf d)] = [(l, resOf d)] := by simp [Ctl.spread, honce, memCtl, readyCtl, hst.1]
    refine (congrArg (fun q : List (Nat × LaneRes) × State => o.fin (memCtl s g h) (q.2.finishWord g (memCtl s g h) s.cur.lanes
      h.stall.toNat (instrUses i) o ((memCtl s g h).spread o q.1))) hrun).trans ?_
    dsimp only
    rw [hspread]
    rfl
  · refine if_congr Iff.rfl (if_congr ?_ rfl rfl) rfl
    rw [← hl, mem_lanesOf]
    exact ⟨fun x => x.2, fun x => ⟨hj, x⟩⟩

/-- A core reads a line that no cache may hold: one request at the line's home for all lanes of the word (R16, R25). -/
def State.homeRead (s : State) (core line : Nat) : State :=
  if line ∈ s.cur.counted then s
  else { s.count (srcCore core) (line * 128) with cur := { s.cur with counted := line :: s.cur.counted } }

theorem requestLine_home (s : State) (core evp line : Nat) (secs : List Nat) : s.requestLine core 0 evp line secs = s.homeRead core line := by
  simp only [State.requestLine, State.homeRead, List.contains_iff_mem]
  rfl

theorem homeRead_frame (s : State) (core line : Nat) :
    s.homeRead core line = { s with quads := (s.homeRead core line).quads, cur := (s.homeRead core line).cur } := by
  unfold State.homeRead; split <;> rfl

/-- What JWAIT does after its lanes. -/
def jwaitOps : WordOps := { mem := true, fin := fun c s => if c.act = 0 then s else s.tailrace c.g.launch }

/-- JWAIT in a lane. -/
def jwaitBody (onG : Bool) (a : RegIx) (c : Ctl) (l : Nat) (s : State) : LaneRes × State :=
  let va := ((c.env l).a64 onG a).toNat
  if va = 0 then (pending, s)
  else if va % 4 ≠ 0 then (trapAt 0x25 0 va, s)
  else if 2 ^ 57 ≤ va then (trapAt 0x26 0 va, s)
  else s.jwaitLane c l va

theorem execJwait_eq (h : Hdr) (onG : Bool) (a : RegIx) (s : State) :
    exec (.jwait h onG a) s = s.word (.jwait h onG a) h jwaitOps (jwaitBody onG a) := rfl

/-- The counter of a join at va, in this device's memory, whose page the core's TLB holds and whose line nobody holds; the thread has no
store of its own to it under way (R132, R194). -/
structure Counter (s : State) (g : Group) (l va : Nat) (leaf : Leaf) (x : Nat) : Prop where
  page : PageHeld s g.core (s.ctxOf g) va 4 .load leaf x
  free : s.lineFree none (x / 128) = true
  sound : s.poison = []
  own : s.ownPending s.cur.gid l .cell x 4 = false

/-- JWAIT in a lane, from the state in which the bins of its join are closed: it reads the counter at its home, and passes at 0. -/
theorem jwaitLane_reads {s : State} {g : Group} {h : Hdr} {l va : Nat} {leaf : Leaf} {x : Nat} (hc : Counter s g l va leaf x) :
    let s1 := ((numbered s).flushJoin (s.ctxOf g) va).homeRead g.core (x / 128)
    (numbered s).jwaitLane (memCtl s g h) l va = if s1.wordAt x 4 = 0 then (pending, s1) else (.park (.jwait x va), s1) := by
  have hbins : OnlyBins (numbered s) ((numbered s).flushJoin (s.ctxOf g) va) := onlyBins_flushBins _ _
  have hpage : PageHeld ((numbered s).flushJoin (s.ctxOf g) va) g.core (s.ctxOf g) va 4 .load leaf x :=
    ⟨hc.page.below, hc.page.writable, hc.page.runs, (hbins.field fun s => s.tlbAt g.core _ va).trans hc.page.held,
      (hbins.field fun s => s.target _ 4 .load (leaf.phys va)).trans hc.page.cell⟩
  have hcheck := hpage.checkFor g s.cur.gid l rfl ((hbins.field fun s => (s.rcd g.launch).ctx).trans rfl)
  have hown : ((numbered s).flushJoin (s.ctxOf g) va).ownPending s.cur.gid l .cell x 4 = false :=
    (hbins.field fun t => t.ownPending s.cur.gid l .cell x 4).trans hc.own
  have hfree : ((numbered s).flushJoin (s.ctxOf g) va).lineFree none (x / 128) = true :=
    (hbins.field fun t => t.lineFree none (x / 128)).trans hc.free
  have hsound : (((numbered s).flushJoin (s.ctxOf g) va).homeRead g.core (x / 128)).poisonedRange x 4 = false :=
    poisonedRange_clean _ x 4 (by rw [homeRead_frame]; exact (hbins.field State.poison).trans hc.sound)
  rw [State.jwaitLane]
  simp only [memCtl, readyCtl]
  rw [show (numbered s).ctxOf g = s.ctxOf g from rfl, hcheck]
  simp only [requestLine_home, hown, hfree, hsound, Bool.not_true, Bool.false_eq_true, ↓reduceIte]

section
variable {h : Hdr} {onG : Bool} {a : RegIx} {s : State} {g : Group} {l : Nat} (hl : lanesOf (active s g h) = [l]) (hst : Still s g h)
  (hr : WordReady s g h (.jwait h onG a)) (hh : (g.lane l).handler = false)
include hl hst hr hh

/-- The end of a JWAIT whose lane does `d`: the launch's waits are looked at again. -/
theorem execJwait_ends {t : State} {d : Does} (hbody : jwaitBody onG a (memCtl s g h) l (numbered s) = asLane (d, t))
    (hg : t.group s.cur.gid = some g) (hclk : t.clk = s.clk) :
    ∃ g', exec (.jwait h onG a) s =
        .next (((if parksAny (fun _ => d) [l] then { t with next := t.next + 1 } else t).setGroup s.cur.gid g').tailrace g.launch) ∧
      lanesRun s g g' h (fun _ ln => d.lane s t.next ln) ∧ g'.g = g.g ∧ groupAfter s g g' h := by
  obtain ⟨g', hword, hlanes, hregs, hafter⟩ := word_oneLane hl hst hr jwaitOps (jwaitBody onG a) rfl rfl rfl rfl rfl
    (by cases onG <;> rfl) rfl hbody hg hclk hh
  have hact : (memCtl s g h).act ≠ 0 := fun h0 => by
    have hnil : lanesOf (active s g h) = [] := lanesOf_nil.mpr h0
    rw [hl] at hnil
    exact List.cons_ne_nil _ _ hnil
  refine ⟨g', ?_, hlanes, hregs, hafter⟩
  rw [execJwait_eq, hword]
  exact congrArg Host.Outcome.next (if_neg hact)

end

/-- JWAIT ends in the state t, its lane as `f` makes it, and the launch's waits are looked at again. -/
def JwaitEnds (h : Hdr) (onG : Bool) (a : RegIx) (s : State) (g : Group) (t : State) (f : Lane → Lane) : Prop :=
  ∃ g', exec (.jwait h onG a) s = .next ((t.setGroup s.cur.gid g').tailrace g.launch) ∧ lanesRun s g g' h (fun _ ln => f ln) ∧
    g'.g = g.g ∧ groupAfter s g g' h

section
variable {h : Hdr} {onG : Bool} {a : RegIx} {s : State} {g : Group} {l : Nat} (hl : lanesOf (active s g h) = [l]) (hst : Still s g h)
  (hr : WordReady s g h (.jwait h onG a)) (hh : (g.lane l).handler = false)
include hl hst hr hh

/-- Where the lane does not park. -/
theorem execJwait_unparked {t : State} {d : Does} (hbody : jwaitBody onG a (memCtl s g h) l (numbered s) = asLane (d, t))
    (hg : t.group s.cur.gid = some g) (hclk : t.clk = s.clk) (hd : (resOf d).parks = false) :
    JwaitEnds h onG a s g t fun ln => d.lane s t.next ln := by
  have hquiet : parksAny (fun _ => d) [l] = false := by
    cases d with
    | parks p => exact nomatch hd
    | _ => rfl
  have hends := execJwait_ends hl hst hr hh hbody hg hclk
  rwa [hquiet] at hends

/-- Where the lane passes. -/
theorem execJwait_passes {t : State} (hbody : jwaitBody onG a (memCtl s g h) l (numbered s) = (pending, t))
    (hg : t.group s.cur.gid = some g) (hclk : t.clk = s.clk) :
    JwaitEnds h onG a s g t fun ln => { ln with pc := s.cur.pc + BitVec.ofNat 64 s.cur.len } := by
  have hends := execJwait_unparked hl hst hr hh (d := noResults) hbody hg hclk rfl
  rwa [show (fun ln => noResults.lane s t.next ln) = fun ln : Lane => { ln with pc := s.cur.pc + BitVec.ofNat 64 s.cur.len } from
    funext (noResults_lane s t.next)] at hends

/-- Where the lane traps at address va. -/
theorem execJwait_traps {code va : Nat} (hbody : jwaitBody onG a (memCtl s g h) l (numbered s) = (trapAt code 0 va, numbered s)) :
    JwaitEnds h onG a s g (numbered s) fun ln => ln.trap code 0 (BitVec.ofNat 64 va) :=
  execJwait_unparked hl hst hr hh (d := .traps code 0 (BitVec.ofNat 64 va)) hbody hr.here rfl rfl

end

section
variable {onG : Bool} {a : RegIx} {c : Ctl} {l va : Nat} {s : State} (hva : ((c.env l).a64 onG a).toNat = va)
include hva

/-- At address 0 no counter is meant. -/
theorem jwaitBody_zero (h0 : va = 0) : jwaitBody onG a c l s = (pending, s) := by
  subst hva; exact if_pos h0

theorem jwaitBody_misaligned (hal : va % 4 ≠ 0) : jwaitBody onG a c l s = (trapAt 0x25 0 va, s) := by
  subst hva
  exact (if_neg fun h0 => hal (by rw [h0])).trans (if_pos hal)

theorem jwaitBody_high (h0 : va ≠ 0) (hal : va % 4 = 0) (hhigh : 2 ^ 57 ≤ va) : jwaitBody onG a c l s = (trapAt 0x26 0 va, s) := by
  subst hva
  exact (if_neg h0).trans ((if_neg (not_not_intro hal)).trans (if_pos hhigh))

theorem jwaitBody_reads (h0 : va ≠ 0) (hal : va % 4 = 0) (hlow : ¬ 2 ^ 57 ≤ va) : jwaitBody onG a c l s = s.jwaitLane c l va := by
  subst hva
  exact (if_neg h0).trans ((if_neg (not_not_intro hal)).trans (if_neg hlow))

end

/-- JWAIT at a counter that it can read: the bins of the join close, one request goes to the counter's home, and the lane passes at 0 and
waits otherwise. -/
theorem execJwait_counter {h : Hdr} {onG : Bool} {a : RegIx} {s : State} {g : Group} {l va : Nat} {leaf : Leaf} {x : Nat}
    (hl : lanesOf (active s g h) = [l]) (hst : Still s g h) (hr : WordReady s g h (.jwait h onG a)) (hh : (g.lane l).handler = false)
    (hva : ((envOf false g l).a64 onG a).toNat = va) (h0 : va ≠ 0) (hal : va % 4 = 0) (hc : Counter s g l va leaf x) :
    let s0 := (numbered s).flushJoin (s.ctxOf g) va
    let s1 := if x / 128 ∈ s.cur.counted then s0 else
      { s0.count (srcCore g.core) (x / 128 * 128) with cur := { s.cur with counted := x / 128 :: s.cur.counted } }
    (s.wordAt x 4 = 0 → JwaitEnds h onG a s g s1 fun ln => { ln with pc := s.cur.pc + BitVec.ofNat 64 s.cur.len }) ∧
    (s.wordAt x 4 ≠ 0 → JwaitEnds h onG a s g { s1 with next := s1.next + 1 } fun ln => ln.parkOn (.jwait x va) s1.next) := by
  intro s0 s1
  have hlow : ¬ 2 ^ 57 ≤ va := fun hhigh => hc.page.below57 (.inl hhigh)
  have hbins : OnlyBins (numbered s) s0 := onlyBins_flushBins _ _
  have hcur : s0.cur = s.cur := hbins.field State.cur
  have hs1 : s0.homeRead g.core (x / 128) = s1 := by simp only [State.homeRead, hcur]; rfl
  have hframe : s1 = { s0 with quads := s1.quads, cur := s1.cur } := hs1 ▸ homeRead_frame s0 g.core (x / 128)
  have hgroup : s1.group s.cur.gid = some g := by rw [hframe]; exact (hbins.field fun t => t.group s.cur.gid).trans hr.here
  have hclk : s1.clk = s.clk := by rw [hframe]; exact hbins.field State.clk
  have hword : s1.wordAt x 4 = s.wordAt x 4 := by rw [hframe]; exact hbins.field fun t => t.wordAt x 4
  have hbody : jwaitBody onG a (memCtl s g h) l (numbered s) = if s.wordAt x 4 = 0 then (pending, s1) else (.park (.jwait x va), s1) := by
    rw [jwaitBody_reads (c := memCtl s g h) hva h0 hal hlow, jwaitLane_reads hc, ← hword, ← hs1]
  exact ⟨fun hz => execJwait_passes hl hst hr hh (hbody.trans (if_pos hz)) hgroup hclk,
    fun hz => execJwait_ends (d := .parks (.jwait x va)) hl hst hr hh (hbody.trans (if_neg hz)) hgroup hclk⟩

theorem decGone_decs (s : State) (id : Nat) : Sparse.get none (s.decGone id).decs id = none := Sparse.get_set_same none none s.decs id

theorem spawnGone_spawns (s : State) (id : Nat) (q : SpawnReq) : Sparse.get none (s.spawnGone id q).spawns id = none :=
  Sparse.get_set_same none none s.spawns id

theorem spawnGone_bin (s : State) (id : Nat) (q : SpawnReq) (i u b : Nat) (g : Group) :
    ((s.spawnGone id q).setGroup i g).bin u b = s.bin u b := rfl

/-- A bin that has taken a thread closes at 32. -/
theorem withKid_closed (x : Bin) (q : SpawnReq) (n : Nat) : (x.withKid q n).closed = none ↔ x.kids.length + 1 < 32 := by
  simp only [Bin.withKid]
  split
  · exact ⟨nofun, fun h => by omega⟩
  · exact ⟨fun _ => by omega, fun _ => rfl⟩

/-- A bin that has taken the spawn's thread: it is the last of its threads, and the bin is the one of its key. -/
theorem BinFor.tookKid {s : State} {u b : Nat} {q : SpawnReq} {x : Bin} (h : BinFor s u b q x) (n : Nat) :
    let old := if (s.bin u b).used then (s.bin u b).kids else []
    Bin.takes { x.withKid q n with closed := none } q ∧
    (x.withKid q n).kids = old ++ [{ lane := old.length, join := q.join, pay := q.pay, src := q.gid }] ∧
    ((x.withKid q n).closed = none ↔ old.length + 1 < 32) := by
  obtain ⟨hused, -, hkey⟩ := h.takes
  rw [← h.kids]
  exact ⟨⟨hused, rfl, hkey⟩, rfl, withKid_closed x q n⟩

/-- A spawn that comes before its unit is accepted into a bin, and its lane goes on. -/
theorem SpawnDue.lands {s : State} {id : Nat} {q : SpawnReq} {g : Group} (h : SpawnDue s id q) (hp : (s.rcd q.launch).blk.prot = false)
    (hg : s.group q.gid = some g) (hpark : (g.lane q.lane).park = .spawn id) (hres : g.resident = true)
    (hprot : (s.rcd g.launch).blk.prot = false)
    (hroom : (∃ b, b < 256 ∧ (s.bin (q.core / 48) b).takes q) ∨ ∃ b, b < 256 ∧ (s.bin (q.core / 48) b).used = false) :
    ∃ t b x, exec (.spawnAccept id) s = .next t ∧ BinFor s (q.core / 48) b q x ∧ Sparse.get none t.spawns id = none ∧
      t.bin (q.core / 48) b = x.withKid q s.next ∧ t.group q.gid = some (g.setLane q.lane (g.lane q.lane).spawned) := by
  obtain ⟨b, x, hfor, hbin⟩ := intoBin_some s _ q hroom
  have honly : OnlyBins s (s.addKid (q.core / 48) b x q) := onlyBins_putKid ..
  have hpass := passSpawn_eq ((honly.field fun t => t.group q.gid).trans hg) hpark hres
    ((honly.field fun t => (t.rcd g.launch).blk.prot).trans hprot)
  exact ⟨_, b, x, (h.accepted hbin).trans (congrArg Host.Outcome.next hpass), hfor, spawnGone_spawns _ id q,
    (spawnGone_bin ..).trans (addKid_bin s _ b x q hp), State.group_setGroup_same ..⟩

/-- Settles O35: SPAWN as a sequential word, the bins by the one that a spawn finds, SPWFLUSH and JWAIT as words that end with their group's
bookkeeping, the decrement by the atomic at the counter's home. -/
theorem spawnsAndJoins : Obligations.SpawnsAndJoins := by
  refine ⟨spawn_seq, fun s f hw => ⟨onlyBins_flushBins s f, flushBins_bin s f hw⟩, ?accepts,
    fun s q b hr => ⟨binTimer_closes s q b hr, fun _ _ => binTimer_waits s q b hr⟩,
    fun h s g hr hst ha => execSpwflush_ends hr hst ha, ?waits, fun s s1 id d x hd hsent hdeps hclean hat hsound =>
      ⟨_, joinDecrement_performed hd hsent hdeps hclean hat hsound, decGone_decs _ id, decremented_wordAt s1 d x, decremented_cell_other s1 d x⟩⟩
  case accepts =>
    intro s id q g hsent holdest hunwoken hrunning hcommitted hclean hprot hnoRefill hunspilled hg hpark hres hprot' u mine hroom
    have hdue : SpawnDue s id q := ⟨hsent, holdest, hunwoken, hrunning, hcommitted, hclean, hnoRefill, hunspilled⟩
    obtain ⟨t, b, x, hexec, hfor, hgone, hbin, hgroup⟩ := hdue.lands hprot hg hpark hres hprot' hroom
    refine ⟨t, b, hfor.small, hexec, hgone, ?_, ?_, _, hgroup, rfl⟩
    · obtain ⟨htakes, -⟩ | ⟨hnone, hfree, -⟩ := hfor.which
      · exact .inl htakes
      · exact .inr ⟨hnone, hfree⟩
    · rw [hbin]
      exact hfor.tookKid s.next
  case waits =>
    intro h onG a s g l hl hst i hr hh va ends passes
    refine ⟨fun h0 => execJwait_passes hl hst hr hh (jwaitBody_zero rfl h0) hr.here rfl,
      fun hal => execJwait_traps hl hst hr hh (jwaitBody_misaligned rfl hal),
      fun h0 hal hhigh => execJwait_traps hl hst hr hh (jwaitBody_high rfl h0 hal hhigh), ?_⟩
    intro h0 hal hbelow leaf x htlb hcell hfree hsound hown
    exact execJwait_counter hl hst hr hh rfl h0 hal ⟨⟨hbelow, nofun, nofun, htlb, hcell⟩, hfree, hsound, hown⟩

end Sys2Proof.Machine
end

section
/-! SUPPORT. O54: a map of groups that lists one group twice, as a group is suspended alone (R135, R138, R167). -/
namespace Sys2Proof.Machine

open Sys2Proof.Safety

/-! ### A launch with records pending (R107, R138) -/

theorem quietItems_recs (s : State) (r : Nat) : (s.quietItems r).recs = s.recs :=
  recs_foldl _ _ (fun s p => by split <;> rfl) s

/-- With no items on its work lists, nothing goes on for the idle groups of a launch. -/
theorem quietItems_none (s : State) (r : Nat) (h : (s.rcd r).lists = []) : s.quietItems r = s := by
  refine foldl_same _ _ s fun p _ => ?_
  simp only [h, Sparse.get, List.isEmpty_nil, Bool.not_true, Bool.or_self, Bool.and_false, Bool.false_eq_true, ↓reduceIte]

/-- The Tailrace leaves a launch alone that has records pending and no items. -/
theorem tailrace_pending (s : State) (r : Nat) (hl : (s.rcd r).lists = []) (hp : (s.rcd r).pending ≠ []) : s.tailrace r = s := by
  have hpos : 0 < (s.rcd r).pending.length := List.length_pos_of_ne_nil hp
  have hcount : (s.rcd r).pending.length ≤ s.countP r := by rw [State.countP]; omega
  rw [State.tailrace, quietItems_none s r hl]
  dsimp only
  by_cases hst : (s.rcd r).st = .running
  · rw [if_neg (not_not_intro hst), if_neg, if_neg]
    · simp only [Bool.and_eq_true, beq_iff_eq, not_and]
      omega
    · simp only [Bool.and_eq_true, decide_eq_true_eq, not_and]
      omega
  · rw [if_pos hst]

/-- While it leaves a launch running, the Tailrace leaves the launches alone. -/
theorem tailrace_recs (s : State) (r : Nat) (h : ((s.tailrace r).rcd r).st = .running) : (s.tailrace r).recs = s.recs := by
  unfold State.tailrace at h ⊢
  dsimp only at h ⊢
  split at h
  · next hst => rw [if_pos hst]; exact quietItems_recs s r
  · next hst =>
    rw [if_neg hst]
    split at h
    · next hidle =>
      rw [if_pos hidle]
      exact (recs_foldl _ _ (fun s p => by split <;> rfl) _).trans (quietItems_recs s r)
    · next hidle =>
      rw [if_neg hidle]
      split at h
      · exact absurd rfl (endLaunch_launched _ _ _ _ _ (.inr h)).2
      · next hstuck => rw [if_neg hstuck]; exact quietItems_recs s r

/-- What the Tailrace has left running with records pending and no items, it has left as it was. -/
theorem eq_of_tailrace {s t : State} {r : Nat} (h : s.tailrace r = t) (hst : (t.rcd r).st = .running) (hl : (t.rcd r).lists = [])
    (hp : (t.rcd r).pending ≠ []) : s = t := by
  have hrecs : s.recs = t.recs := by rw [← h] at hst ⊢; exact (tailrace_recs s r hst).symm
  have hrcd : s.rcd r = t.rcd r := by rw [State.rcd, hrecs, State.rcd]
  rw [← hrcd] at hl hp
  rw [← h, tailrace_pending s r hl hp]

/-! ### A Millpond unit at a page that its TLB holds -/

theorem PageHeld.millAt {s : State} {k va n : Nat} {acc : Acc} {leaf : Leaf} {c : Nat} (h : PageHeld s millAgent k va n acc leaf c)
    (hf : s.rangeFree c n = true) : s.millAt k va n acc = (.cell c, s) := by
  have hrecall : s.checkRecall millAgent k va n acc 12 = (.ok (viewLeaf s leaf va) .cell c, s) := by
    rw [State.checkRecall, h.check]
    dsimp only
    rw [if_neg h.below57, State.countWalk, h.found]
    rfl
  rw [State.millAt, hrecall]
  exact if_pos hf

/-! ### A map of groups that lists one group twice -/

/-- A group that waits for its overflow ring: it can make way. -/
def waitingGroup : Group := { budget := 1, lanes := [(0, { st := .parked, park := .ringFull 0 })] }

/-- A group whose lane waits for the counter at cell 0x3D8. -/
def counterGroup (ready : Bool) (n : Nat) : Group :=
  { team := some 9, budget := 7, resident := false, jwaitEnded := n
    lanes := [(0, { st := .parked, park := .jwait 0x3D8 0, ready := ready })] }

/-- A spawned group that wants all the register units of a core. -/
def largeChild : Group := { spawned := some { depth := 1 }, budget := 1024, resident := false }

def frameLeaf : Leaf := { pa := 0, level := 4, w := true, x := false, wp := true, lvl := 2, fmt := 0, pl := 0, blk := 0 }

/-- Of all cores only core 0 takes work, and on it group 1 stands in the way of group 2; but the map lists group 1 a second time, as one of team 9
that waits for a counter. -/
def crossedGroups : State :=
  { State.reset with
    dies := (0, { offl := 0xFFFFFE }) :: (List.range 7).map fun i => (i + 1, { st := .fenced })
    recs := [(0, { st := .running, blk := { savelen := 2 }, pending := [{}] })]
    groups := [(1, some waitingGroup), (1, some (counterGroup false 0)), (2, some largeChild)]
    tlb := [(tlbKey millAgent 0 4 65536, some frameLeaf)] }

theorem crossedGroups_asked : crossedGroups.toSuspend = some 1 := by decide +kernel

theorem crossedGroups_stoppable : crossedGroups.stoppable 1 waitingGroup = true := by decide

theorem crossedGroups_place : crossedGroups.savePlace waitingGroup = some (65536, [0]) := by decide +kernel

theorem crossedGroups_page : PageHeld crossedGroups millAgent 0 65536 2048 .store frameLeaf 0 :=
  ⟨by decide, fun _ => rfl, nofun, by decide +kernel, by decide +kernel⟩

theorem crossedGroups_ranges : crossedGroups.ranges (crossedGroups.ctxOf waitingGroup) .store (crossedGroups.frameRanges waitingGroup 65536 [0]) =
    (.ok [(0, 2048)], crossedGroups) := by
  have hmill := crossedGroups_page.millAt (rangeFree_undirected crossedGroups 0 2048 rfl (by decide))
  show crossedGroups.areaAt 0 .store [(65536, 2048)] = _
  rw [State.areaAt, hmill]
  rfl

theorem waitingGroup_frame : waitingGroup.frameBytes.length = 2048 ∧ ∀ i, i < 4 → waitingGroup.frameBytes.getD (0x3D8 + i) 0 = 0 := by
  decide +kernel

/-! ### What becomes visible wakes the group that the map lists second -/

/-- The lanes of a group that a visible write of a line releases from JWAIT. -/
def State.wakes (s : State) (line : Nat) (g : Group) : List Nat :=
  lanes32.filter fun l => !(g.lane l).ready && (match (g.lane l).park with
    | .jwait c _ => c / 128 == line && s.wordAt c 4 == 0 && !s.poisonedRange c 4
    | _ => false)

/-- One group of the pass over those that wait. -/
def State.wakeGroup (line : Nat) (s : State) (p : Nat × Group) : State :=
  if (s.wakes line p.2).isEmpty then s
  else { s.setGroup p.1 { (s.wakes line p.2).foldl (fun (g : Group) l => g.setLane l { g.lane l with ready := true }) p.2 with
      jwaitEnded := s.next } with next := s.next + 1 }

theorem wakeMonitors_quiet (s : State) (line : Nat) (h : s.txns = []) :
    s.wakeMonitors line = (listed s.groups).foldl (State.wakeGroup line) s := by
  rw [State.wakeMonitors, h]
  rfl

theorem publish_undirected (s : State) (line id : Nat) (hd : s.dir = []) : s.publish line id = s.wakeMonitors line := by
  have hdir : s.dirOf line = {} := by rw [State.dirOf, hd]; rfl
  rw [State.publish, hdir]
  exact if_pos ⟨rfl, rfl⟩

theorem wakes_counter (s : State) (line : Nat) (r : Bool) (n : Nat) : s.wakes line (counterGroup r n) =
    if !r && (7 == line && s.wordAt 0x3D8 4 == 0 && !s.poisonedRange 0x3D8 4) then [0] else [] := by
  have hlanes : s.wakes line (counterGroup r n) = lanes32.filter fun l => decide (l = 0) &&
      (!r && (7 == line && s.wordAt 0x3D8 4 == 0 && !s.poisonedRange 0x3D8 4)) := by
    refine List.filter_congr fun l _ => ?_
    by_cases hl : l = 0
    · subst hl; rfl
    · have hlane : (counterGroup r n).lane l = {} := by simp [Group.lane, counterGroup, Sparse.get, hl]
      rw [hlane, decide_eq_false hl]
      rfl
  rw [hlanes]
  cases !r && (7 == line && s.wordAt 0x3D8 4 == 0 && !s.poisonedRange 0x3D8 4) <;> decide

theorem wakes_others (s : State) (line : Nat) : s.wakes line waitingGroup = [] ∧ s.wakes line largeChild = [] := by
  refine ⟨List.filter_eq_nil_iff.mpr fun l _ => ?_, List.filter_eq_nil_iff.mpr fun l _ => Bool.false_ne_true⟩
  by_cases hl : l = 0
  · subst hl; exact Bool.false_ne_true
  · have hlane : waitingGroup.lane l = {} := by simp [Group.lane, waitingGroup, Sparse.get, hl]
    rw [hlane]
    exact Bool.false_ne_true

/-- Nothing holds up what becomes visible, and the counter at cell 0x3D8 reads 0. -/
structure Visible (s : State) : Prop where
  txns : s.txns = []
  dir : s.dir = []
  counter : s.wordAt 0x3D8 4 = 0
  sound : s.poisonedRange 0x3D8 4 = false

/-- Group 1 is the one that waited for the counter, and the only one of that number. -/
def Woken (s : State) : Prop := ∃ n, s.groups = [(1, some (counterGroup true n)), (2, some largeChild)]

theorem Visible.wakeGroup {s : State} (h : Visible s) (line : Nat) (p : Nat × Group) : Visible (State.wakeGroup line s p) := by
  unfold State.wakeGroup
  split
  · exact h
  · exact ⟨h.txns, h.dir, h.counter, h.sound⟩

theorem Visible.publish {s : State} (h : Visible s) (line id : Nat) : Visible (s.publish line id) := by
  rw [publish_undirected s line id h.dir, wakeMonitors_quiet s line h.txns]
  exact foldl_rel (fun s t => Visible s → Visible t) (fun _ hs => hs) (fun _ _ _ hs ht => ht ∘ hs) _ _ (fun s p _ hs => hs.wakeGroup line p) s h

theorem wakeGroup_of_nil {s : State} {line : Nat} {p : Nat × Group} (h : s.wakes line p.2 = []) : State.wakeGroup line s p = s := by
  rw [State.wakeGroup, h]; rfl

/-- Once woken, a group is woken no more. -/
theorem Woken.publish {s : State} (hw : Woken s) (h : Visible s) (line id : Nat) : Woken (s.publish line id) := by
  obtain ⟨n, hg⟩ := hw
  have hsame : s.wakeMonitors line = s := by
    rw [wakeMonitors_quiet s line h.txns, hg]
    refine foldl_same _ _ s fun p hp => wakeGroup_of_nil ?_
    rcases List.mem_cons.mp hp with rfl | hp
    · exact wakes_counter s line true n
    · rw [List.mem_singleton.mp hp]
      exact (wakes_others s line).2
  rw [publish_undirected s line id h.dir, hsame]
  exact ⟨n, hg⟩

/-- The line of the counter wakes the second entry, and what it leaves takes the place of both. -/
theorem Visible.publish_crossed {s : State} (h : Visible s) (hg : s.groups = crossedGroups.groups) (line id : Nat) :
    (line ≠ 7 → (s.publish line id).groups = crossedGroups.groups) ∧ (line = 7 → Woken (s.publish line id)) := by
  have hpass : s.wakeMonitors line = State.wakeGroup line (State.wakeGroup line s (1, counterGroup false 0)) (2, largeChild) := by
    rw [wakeMonitors_quiet s line h.txns, hg]
    exact congrArg (fun t => State.wakeGroup line (State.wakeGroup line t (1, counterGroup false 0)) (2, largeChild))
      (wakeGroup_of_nil (p := (1, waitingGroup)) (wakes_others s line).1)
  rw [publish_undirected s line id h.dir, hpass, wakeGroup_of_nil (p := (2, largeChild)) (wakes_others _ line).2]
  have hwakes := wakes_counter s line false 0
  rw [h.counter, h.sound] at hwakes
  refine ⟨fun hl => ?_, fun hl => ⟨s.next, ?_⟩⟩
  · have h7 : (7 == line) = false := beq_false_of_ne hl.symm
    rw [h7] at hwakes
    rw [wakeGroup_of_nil (p := (1, counterGroup false 0)) hwakes, hg]
  · subst hl
    rw [State.wakeGroup, hwakes]
    show (s.setGroup 1 _).groups = _
    rw [State.setGroup, hg]
    rfl

/-- Lines that become visible one after the other, that of the counter among them. -/
theorem Visible.publishAll {s : State} (ls : List Nat) (id : Nat) (h : Visible s)
    (hg : s.groups = crossedGroups.groups ∧ 7 ∈ ls ∨ Woken s) : Woken (s.publishAll ls id) := by
  induction ls generalizing s with
  | nil => exact hg.elim (fun hg => absurd hg.2 List.not_mem_nil) fun hw => hw
  | cons a ls ih =>
    refine ih (s := s.publish a id) (h.publish a id) ?_
    rcases hg with ⟨hg, hin⟩ | hw
    · obtain ⟨hother, hcounter⟩ := h.publish_crossed hg a id
      by_cases ha : a = 7
      · exact .inr (hcounter ha)
      · exact .inl ⟨hother ha, (List.mem_cons.mp hin).resolve_left (Ne.symm ha)⟩
    · exact .inr (hw.publish h a id)

/-! ### Group 1 is suspended -/

/-- What the frame of group 1 puts into each cell. -/
def frameWrites : List (Nat × Byte) := runOf 0 2048 fun i => waitingGroup.frameBytes.getD i 0

/-- The lines of its frame. -/
def frameLines : List Nat := (frameWrites.map fun w => w.1 / 128).eraseDups

/-- The state in which its frame is written. -/
def crossedSaved : State := crossedGroups.saveBytes 0 [(0, 2048)] waitingGroup.frameBytes

/-- The frame holds zeros where the counter stands, and its write wakes the second entry. -/
theorem crossedSaved_woken : Woken crossedSaved := by
  let counted := crossedGroups.countAll (srcCore 0) frameLines
  have hlogs : OnlyLogs crossedGroups counted := onlyLogs_countAll ..
  have hmem : OnlyMemory counted (counted.commit (srcCore 0) frameWrites) := onlyMemory_commit ..
  have hbyte : ∀ i, i < 4 → (counted.commit (srcCore 0) frameWrites).cell (0x3D8 + i) = 0 := fun i hi => by
    rw [cell_of_mem (commit_mem ..), frameWrites, putCells_runOf_cell, if_pos ⟨Nat.zero_le _, by omega⟩]
    exact waitingGroup_frame.2 i hi
  have hpoison : ∀ k, Sparse.get false (counted.commit (srcCore 0) frameWrites).poison k = false := fun k => by
    rw [commit_poison, hlogs.field State.poison]
    rfl
  have hvisible : Visible (counted.commit (srcCore 0) frameWrites) := {
    txns := (hmem.field State.txns).trans (hlogs.field State.txns)
    dir := (hmem.field State.dir).trans (hlogs.field State.dir)
    counter := by
      rw [State.wordAt, leNat_eq_zero, State.cells]
      intro b hb
      obtain ⟨i, hi, rfl⟩ := List.mem_map.mp hb
      exact hbyte i (List.mem_range.mp hi)
    sound := by simp [State.poisonedRange, hpoison] }
  have hline : 7 ∈ frameLines := List.mem_eraseDups.mpr
    (List.mem_map.mpr ⟨_, List.mem_map.mpr ⟨896, List.mem_range.mpr (by omega), rfl⟩, rfl⟩)
  exact hvisible.publishAll frameLines (wbId 0) (.inl ⟨(hmem.field State.groups).trans (hlogs.field State.groups), hline⟩)

theorem crossedSaved_recs : crossedSaved.recs = crossedGroups.recs := (onlyPut_agentWrite ..).field State.recs

/-- A group that leaves its core keeps its register units, and the launches are as they were. -/
theorem leaveCore_keeps {s : State} {gid : Nat} {g : Group} (alone : Bool) (pool : List Nat) (hg : s.group gid = some g) :
    (∃ g', (s.leaveCore gid alone pool).group gid = some g' ∧ g'.budget = g.budget) ∧ (s.leaveCore gid alone pool).recs = s.recs := by
  rw [State.leaveCore, hg]
  refine ⟨⟨_, State.group_setGroup_same .., ?_⟩, rfl⟩
  exact foldl_rel (fun g h : Group => h.budget = g.budget) (fun _ => rfl) (fun _ _ _ h k => k.trans h) _ _
    (fun g l _ => by split <;> rfl) g

/-- The state in which group 1 has left its core. -/
def crossedAway : State := crossedSaved.leaveCore 1 true [0]

theorem crossedAway_rcd : crossedAway.rcd 0 = crossedGroups.rcd 0 := by
  obtain ⟨n, hg⟩ := crossedSaved_woken
  have hgroup : crossedSaved.group 1 = some (counterGroup true n) := by rw [State.group, hg]; rfl
  rw [State.rcd, crossedAway, (leaveCore_keeps true [0] hgroup).2, crossedSaved_recs, State.rcd]

/-- What is left under number 1 is the second entry. -/
theorem crossedAway_group {g : Group} (h : crossedAway.group 1 = some g) : g.budget = 7 := by
  obtain ⟨n, hg⟩ := crossedSaved_woken
  have hgroup : crossedSaved.group 1 = some (counterGroup true n) := by rw [State.group, hg]; rfl
  obtain ⟨g', hg', hbudget⟩ := (leaveCore_keeps true [0] hgroup).1
  rw [← Option.some.inj (hg'.symm.trans h)]
  exact hbudget

theorem crossedGroups_suspends : exec (.groupSuspend 1) crossedGroups = .next (crossedAway.tailrace 0) := by
  have hsuspend : crossedGroups.suspendGroup 1 = (true, crossedAway) := by
    have hgroup : crossedGroups.group 1 = some waitingGroup := rfl
    rw [State.suspendGroup, hgroup]
    dsimp only
    rw [crossedGroups_stoppable, crossedGroups_place]
    dsimp only
    rw [crossedGroups_ranges]
    rfl
  refine congrArg Host.Outcome.next ?_
  rw [State.groupSuspend, if_pos crossedGroups_asked]
  show (match crossedGroups.suspendGroup 1 with | (true, s) => s.tailrace 0 | (false, s) => s) = _
  rw [hsuspend]

/-- Refutes O54: the statement has a group that is suspended alone stay itself under its number, and does not ask that the map of groups be
canonical. Where that lists a group twice, the write of the first entry's frame can wake the second, which takes the place of both. -/
theorem not_suspendedGroups : ¬ Obligations.SuspendedGroups := by
  unfold Obligations.SuspendedGroups
  rintro ⟨hsuspends, -⟩
  have hplaces : ([(0, 2048)].flatMap fun p : Nat × Nat => (List.range p.2).map fun i => p.1 + i) = List.range 2048 := by
    simp
  obtain ⟨-, hasked⟩ := hsuspends crossedGroups crossedGroups 1 65536 waitingGroup [0] [(0, 2048)] rfl rfl crossedGroups_stoppable rfl
    crossedGroups_place crossedGroups_ranges rfl rfl rfl (by rw [hplaces]; exact List.nodup_range)
    (by rw [hplaces, List.length_range]; exact waitingGroup_frame.1.symm)
  obtain ⟨t, hexec, ⟨g', hgroup, hsame, -⟩, -⟩ := hasked crossedGroups_asked
  have hkept : crossedAway.tailrace 0 = crossedAway := tailrace_pending _ 0 (by rw [crossedAway_rcd]; rfl)
    (by rw [crossedAway_rcd]; exact List.cons_ne_nil _ _)
  have ht : t.tailrace 0 = crossedAway := (Host.Outcome.next.inj (crossedGroups_suspends.symm.trans hexec)).symm.trans hkept
  have heq : t = crossedAway := eq_of_tailrace ht (by rw [crossedAway_rcd]; rfl) (by rw [crossedAway_rcd]; rfl)
    (by rw [crossedAway_rcd]; exact List.cons_ne_nil _ _)
  rw [heq] at hgroup
  have hseven := crossedAway_group hgroup
  rw [hsame] at hseven
  exact absurd (show (1 : Nat) = 7 from hseven) (by decide)

end Sys2Proof.Machine
end

section
/-! SUPPORT. O39: the map of teams that lists one team twice, as the end of a launch finds it. -/
namespace Sys2Proof.Machine

/-- Launch 0 ends and its group leaves, but the copy that runs for the hidden entry of team 1 keeps its stamp from falling due. -/
theorem crossedTeams_ended :
    let t := crossedTeams.endLaunch 0 .fault 0
    t.groups = [] ∧ (t.rcd 0).st = .ending := ⟨rfl, rfl⟩

/-- Refutes O39: the statement has the stamp of an ended launch due once no group of it is left and the engines of every team of it that can be
read under its number have stopped, and does not ask that the map of teams be canonical, as it does of the map of groups. Where a team is listed
twice, the engines of the entry that cannot be read still hold the stamp up (R76, R291). -/
theorem not_exceptionsTaken : ¬ Obligations.ExceptionsTaken := by
  unfold Obligations.ExceptionsTaken
  rintro ⟨-, hends, -⟩
  obtain ⟨-, -, -, -, -, -, hstamp⟩ := hends crossedTeams 0 .fault 0 (.inl rfl) rfl
  obtain ⟨hgroups, hending⟩ := crossedTeams_ended
  have hleft : ∀ gid g, crossedTeams.group gid = some g → g.launch = 0 → (crossedTeams.endLaunch 0 .fault 0).group gid = none := by
    intro gid _ _ _
    rw [State.group, hgroups]
    rfl
  have hstopped : ∀ u tm, crossedTeams.team u = some tm → tm.task.lrec = 0 → tm.st ≠ .suspended → crossedTeams.enginesOver u tm = true :=
    fun u tm hteam hlrec _ => absurd hlrec (crossedTeams_lrec u tm hteam)
  rw [if_pos ⟨hleft, hstopped⟩, hending] at hstamp
  exact nomatch hstamp

end Sys2Proof.Machine
end

section
/-! SUPPORT. O22: what a change of a granule's full bit releases (R176, R384). -/
namespace Sys2Proof.Machine

/-! ### The least of a list -/

theorem mem_of_leastBy {α : Type} (lt : α → α → Bool) : ∀ {l : List α} {x : α}, leastBy lt l = some x → x ∈ l
  | a :: l, x, h => by
    rw [leastBy] at h
    cases hl : leastBy lt l with
    | none =>
      rw [hl] at h
      exact Option.some.inj h ▸ List.mem_cons_self
    | some b =>
      rw [hl] at h
      have hb : b ∈ a :: l := List.mem_cons_of_mem a (mem_of_leastBy lt hl)
      by_cases hlt : lt b a = true
      · exact Option.some.inj ((if_pos hlt).symm.trans h) ▸ hb
      · exact Option.some.inj ((if_neg hlt).symm.trans h) ▸ List.mem_cons_self

/-- An element with a smaller key than every other is the least. -/
theorem leastBy_eq {α : Type} (key : α → Nat) {l : List α} {x : α} (hx : x ∈ l) (hmin : ∀ y ∈ l, y ≠ x → key x < key y) :
    leastBy (fun a b => decide (key a < key b)) l = some x := by
  induction l with
  | nil => exact absurd hx List.not_mem_nil
  | cons a l ih =>
    rw [leastBy]
    by_cases hxl : x ∈ l
    · rw [ih hxl fun y hy => hmin y (List.mem_cons_of_mem a hy)]
      by_cases ha : a = x
      · rw [ha]; exact ite_self _
      · exact if_pos (decide_eq_true (hmin a List.mem_cons_self ha))
    · have hax : a = x := ((List.mem_cons.mp hx).resolve_right hxl).symm
      cases hl : leastBy (fun a b => decide (key a < key b)) l with
      | none => rw [hax]
      | some b =>
        have hb := mem_of_leastBy _ hl
        have hlt : key x < key b := hmin b (List.mem_cons_of_mem a hb) fun h => hxl (h ▸ hb)
        rw [hax]
        exact if_neg (by rw [decide_eq_true_iff]; omega)

/-! ### Lanes whose condition has been met (R152) -/

/-- Lane l of group gid may go on. -/
def LaneReady (s : State) (gid l : Nat) : Prop := ∃ g, s.group gid = some g ∧ (g.lane l).ready = true

/-- No group runs copies of its lanes (R164). -/
def Unprotected (s : State) : Prop := ∀ gid g, s.group gid = some g → (s.rcd g.launch).blk.prot = false

theorem markReady_eq {s : State} {gid l : Nat} {g : Group} (hg : s.group gid = some g) (hp : (s.rcd g.launch).blk.prot = false) :
    s.markReady gid l = s.setGroup gid (g.setLane l { g.lane l with ready := true }) := by
  rw [State.markReady, hg]
  dsimp only
  rw [hp]
  rfl

theorem unprotected_markReady {s : State} (hs : Unprotected s) (gid l : Nat) : Unprotected (s.markReady gid l) := by
  cases hg : s.group gid with
  | none => rwa [State.markReady, hg]
  | some g =>
    rw [markReady_eq hg (hs gid g hg)]
    intro i x hx
    rw [group_setGroup] at hx
    by_cases hi : i = gid
    · rw [if_pos hi] at hx
      exact Option.some.inj hx ▸ hs gid g hg
    · rw [if_neg hi] at hx
      exact hs i x hx

theorem keepsGroup_markReady (gid : Nat) (s : State) (k l : Nat) : KeepsGroup gid s (s.markReady k l) := by
  unfold State.markReady
  split
  · exact id
  · exact keepsGroup_setGroup gid k s _

theorem laneReady_markReady {s : State} (hs : Unprotected s) {gid l : Nat} (hg : (s.group gid).isSome = true) (i j : Nat) :
    LaneReady (s.markReady gid l) i j ↔ LaneReady s i j ∨ (i, j) = (gid, l) := by
  obtain ⟨g, hg⟩ := Option.isSome_iff_exists.mp hg
  rw [markReady_eq hg (hs gid g hg)]
  unfold LaneReady
  rw [group_setGroup]
  by_cases hi : i = gid
  · subst hi
    by_cases hj : j = l
    · subst hj
      simp [lane_setLane]
    · simp [lane_setLane, hg, hj]
  · simp [hi]

/-- The lanes of a list are released one after the other. -/
def State.markAll (s : State) (ps : List (Nat × Nat × Nat × Bool × Bool)) : State := ps.foldl (fun s p => s.markReady p.2.1 p.2.2.1) s

theorem keepsGroup_markAll (gid : Nat) (s : State) (ps : List (Nat × Nat × Nat × Bool × Bool)) : KeepsGroup gid s (s.markAll ps) :=
  keepsGroup_foldl gid _ (fun s _ => keepsGroup_markReady gid s _ _) ps s

theorem laneReady_markAll (ps : List (Nat × Nat × Nat × Bool × Bool)) {s : State} (hs : Unprotected s)
    (hg : ∀ p ∈ ps, (s.group p.2.1).isSome = true) (i j : Nat) :
    LaneReady (s.markAll ps) i j ↔ LaneReady s i j ∨ ∃ p ∈ ps, (i, j) = (p.2.1, p.2.2.1) := by
  induction ps generalizing s with
  | nil => simp [State.markAll]
  | cons p ps ih =>
    have hrest := ih (unprotected_markReady hs p.2.1 p.2.2.1)
      fun q hq => keepsGroup_markReady _ s _ _ (hg q (List.mem_cons_of_mem p hq))
    rw [laneReady_markReady hs (hg p List.mem_cons_self)] at hrest
    rw [State.markAll, List.foldl_cons]
    refine hrest.trans ?_
    simp only [List.mem_cons, exists_eq_or_imp, or_assoc]

/-! ### Who is released (R384) -/

/-- Lane l of group gid waits for granule gran of the scratchpad of team u. -/
def WaitsFull (s : State) (u gran : Nat) (want keep : Bool) (gid l : Nat) : Prop :=
  l < 32 ∧ ∃ g, s.group gid = some g ∧ (g.lane l).park = .fullBit u gran want keep ∧ (g.lane l).ready = false

/-- When the lane parked. -/
def parkAge (s : State) (gid l : Nat) : Nat := match s.group gid with | some g => (g.lane l).age | none => 0

/-- A lane that waits to change the bit back once it is b: an emptying LDF, or an STF. -/
def WaitsToTake (s : State) (u gran : Nat) (b : Bool) (gid l : Nat) : Prop :=
  if b then WaitsFull s u gran true false gid l else ∃ keep, WaitsFull s u gran false keep gid l

/-- Does a parked lane wait to change the bit back once it is b? -/
def takesBit (b : Bool) (p : Nat × Nat × Nat × Bool × Bool) : Bool := if b then p.2.2.2.1 && !p.2.2.2.2 else !p.2.2.2.1

theorem mem_granParked {s : State} (hw : Sparse.wf none s.groups = true) {u gran : Nat} {p : Nat × Nat × Nat × Bool × Bool} :
    p ∈ s.granParked u gran ↔
      WaitsFull s u gran p.2.2.2.1 p.2.2.2.2 p.2.1 p.2.2.1 ∧ p.1 = parkAge s p.2.1 p.2.2.1 := by
  obtain ⟨age, gid, l, want, keep⟩ := p
  simp only [State.granParked, List.mem_flatMap, List.mem_filterMap, mem_lanes32, WaitsFull]
  constructor
  · rintro ⟨⟨i, g⟩, hi, j, hj, hp⟩
    have hg : s.group i = some g := (mem_listed_get hw).mp hi
    split at hp
    case h_1 t k w c hpark =>
      split at hp
      · next hok =>
        obtain ⟨rfl, rfl, hready⟩ := hok
        cases hp
        exact ⟨⟨hj, g, hg, hpark, by simpa using hready⟩, by rw [parkAge, hg]⟩
      · cases hp
    · cases hp
  · rintro ⟨⟨hl, g, hg, hpark, hready⟩, hage⟩
    rw [parkAge, hg] at hage
    refine ⟨(gid, g), (mem_listed_get hw).mpr hg, l, hl, ?_⟩
    simp [hpark, hready, hage]

theorem waitsToTake_iff {s : State} (hw : Sparse.wf none s.groups = true) {u gran : Nat} {b : Bool} {gid l : Nat} :
    WaitsToTake s u gran b gid l ↔
      ∃ p ∈ (s.granParked u gran).filter (takesBit b), (gid, l) = (p.2.1, p.2.2.1) := by
  simp only [List.mem_filter, mem_granParked hw]
  constructor
  · intro h
    cases b
    · obtain ⟨keep, hk⟩ := h
      exact ⟨(parkAge s gid l, gid, l, false, keep), ⟨⟨hk, rfl⟩, rfl⟩, rfl⟩
    · exact ⟨(parkAge s gid l, gid, l, true, false), ⟨⟨h, rfl⟩, rfl⟩, rfl⟩
  · rintro ⟨⟨age, gid', l', want, keep⟩, ⟨⟨hwaits, -⟩, htakes⟩, he⟩
    cases he
    cases b
    · cases want
      · exact ⟨keep, hwaits⟩
      · cases htakes
    · cases want
      · cases htakes
      · cases keep
        · exact hwaits
        · cases htakes

/-- What a lane waits for is one thing. -/
theorem waitsFull_unique {s : State} {u gran gid l : Nat} {want keep want' keep' : Bool} (h : WaitsFull s u gran want keep gid l)
    (h' : WaitsFull s u gran want' keep' gid l) : want = want' ∧ keep = keep' := by
  obtain ⟨-, g, hg, hpark, -⟩ := h
  obtain ⟨-, g', hg', hpark', -⟩ := h'
  cases hg.symm.trans hg'
  cases hpark.symm.trans hpark'
  exact ⟨rfl, rfl⟩

/-- A parked lane stands once in the list. -/
theorem granParked_unique {s : State} (hw : Sparse.wf none s.groups = true) {u gran : Nat} {p q : Nat × Nat × Nat × Bool × Bool}
    (hp : p ∈ s.granParked u gran) (hq : q ∈ s.granParked u gran) (h : (p.2.1, p.2.2.1) = (q.2.1, q.2.2.1)) : p = q := by
  obtain ⟨age, gid, l, want, keep⟩ := p
  obtain ⟨age', gid', l', want', keep'⟩ := q
  cases h
  obtain ⟨hp, hage⟩ := (mem_granParked hw).mp hp
  obtain ⟨hq, hage'⟩ := (mem_granParked hw).mp hq
  obtain ⟨hwant, hkeep⟩ := waitsFull_unique hp hq
  dsimp only at hage hage' hwant hkeep
  rw [hage, hage', hwant, hkeep]

theorem waits_isSome {s : State} (hw : Sparse.wf none s.groups = true) {u gran : Nat} {p : Nat × Nat × Nat × Bool × Bool}
    (hp : p ∈ s.granParked u gran) : (s.group p.2.1).isSome = true := by
  obtain ⟨⟨-, g, hg, -⟩, -⟩ := (mem_granParked hw).mp hp
  rw [hg]; rfl

/-- The lanes that a change of the bit to b releases: each LDF.keep where the granule becomes full, and the earliest of those that wait to
change it back. -/
def State.bitReleased (s : State) (u gran : Nat) (b : Bool) : List (Nat × Nat × Nat × Bool × Bool) :=
  (if b then (s.granParked u gran).filter fun p => p.2.2.2.1 && p.2.2.2.2 else []) ++
    (leastBy (fun x y => decide (x.1 < y.1)) ((s.granParked u gran).filter (takesBit b))).toList

theorem setFull_changes {s : State} {u gran : Nat} {t : Team} {b : Bool} (ht : s.team u = some t) (hb : Sparse.get false t.full gran = !b) :
    s.setFull u gran b = (s.setTeam u { t with full := Sparse.set false t.full gran b }).markAll (s.bitReleased u gran b) := by
  have hne : Sparse.get false t.full gran ≠ b := by rw [hb]; cases b <;> decide
  rw [State.setFull, ht]
  dsimp only
  rw [if_neg hne, State.markAll, State.bitReleased, List.foldl_append]
  have hlast : ∀ (s : State) (o : Option (Nat × Nat × Nat × Bool × Bool)),
      (match o with | some p => s.markReady p.2.1 p.2.2.1 | none => s) = o.toList.foldl (fun s p => s.markReady p.2.1 p.2.2.1) s := by
    intro s o
    cases o <;> rfl
  cases b <;> exact hlast _ _

theorem mem_bitReleased {s : State} {u gran : Nat} {b : Bool} {p : Nat × Nat × Nat × Bool × Bool} (hp : p ∈ s.bitReleased u gran b) :
    p ∈ s.granParked u gran := by
  rcases List.mem_append.mp hp with hp | hp
  · cases b
    · exact absurd hp List.not_mem_nil
    · exact (List.mem_filter.mp hp).1
  · exact (List.mem_filter.mp (mem_of_leastBy _ (Option.mem_toList.mp hp))).1

/-- After the change: the lanes that were ready, and the released ones. -/
theorem laneReady_setFull {s : State} {u gran : Nat} {t : Team} {b : Bool} (ht : s.team u = some t) (hb : Sparse.get false t.full gran = !b)
    (hw : Sparse.wf none s.groups = true) (hs : Unprotected s) (gid l : Nat) :
    LaneReady (s.setFull u gran b) gid l ↔ LaneReady s gid l ∨ ∃ p ∈ s.bitReleased u gran b, (gid, l) = (p.2.1, p.2.2.1) := by
  rw [setFull_changes ht hb]
  exact laneReady_markAll _ (s := s.setTeam u { t with full := Sparse.set false t.full gran b }) hs
    (fun p hp => waits_isSome hw (mem_bitReleased hp)) gid l

theorem team_markReady (s : State) (gid l u : Nat) : (s.markReady gid l).team u = s.team u := by
  unfold State.markReady
  split <;> rfl

theorem team_markAll (ps : List (Nat × Nat × Nat × Bool × Bool)) (s : State) (u : Nat) : (s.markAll ps).team u = s.team u := by
  induction ps generalizing s with
  | nil => rfl
  | cons p ps ih =>
    rw [State.markAll, List.foldl_cons]
    exact (ih _).trans (team_markReady s _ _ u)

theorem setFull_team {s : State} {u gran : Nat} {t : Team} {b : Bool} (ht : s.team u = some t) (hb : Sparse.get false t.full gran = !b) :
    (s.setFull u gran b).team u = some { t with full := Sparse.set false t.full gran b } := by
  rw [setFull_changes ht hb, team_markAll, State.team_setTeam_same]

/-- Every LDF.keep on a granule that becomes full goes on. -/
theorem setFull_releases_keepers {s : State} {u gran : Nat} {t : Team} (ht : s.team u = some t) (hb : Sparse.get false t.full gran = false)
    (hw : Sparse.wf none s.groups = true) (hs : Unprotected s) {gid l : Nat} (hl : WaitsFull s u gran true true gid l) :
    LaneReady (s.setFull u gran true) gid l := by
  refine (laneReady_setFull ht hb hw hs gid l).mpr (.inr ⟨(parkAge s gid l, gid, l, true, true), ?_, rfl⟩)
  exact List.mem_append_left _ (List.mem_filter.mpr ⟨(mem_granParked hw).mpr ⟨hl, rfl⟩, rfl⟩)

/-- Of those that wait to change the bit back, only the one that parked first is among the released. -/
theorem bitReleased_taker {s : State} {u gran : Nat} {b : Bool} (hw : Sparse.wf none s.groups = true) {gid l : Nat}
    (hl : WaitsToTake s u gran b gid l)
    (hfirst : ∀ gid' l', WaitsToTake s u gran b gid' l' → (gid', l') ≠ (gid, l) → parkAge s gid l < parkAge s gid' l') (gid' l' : Nat)
    (hl' : WaitsToTake s u gran b gid' l') : (∃ p ∈ s.bitReleased u gran b, (gid', l') = (p.2.1, p.2.2.1)) ↔ (gid', l') = (gid, l) := by
  obtain ⟨x, hx, hxl⟩ := (waitsToTake_iff hw).mp hl
  have hage : ∀ p ∈ (s.granParked u gran).filter (takesBit b), p.1 = parkAge s p.2.1 p.2.2.1 :=
    fun p hp => ((mem_granParked hw).mp (List.mem_filter.mp hp).1).2
  have hleast : leastBy (fun x y => decide (x.1 < y.1)) ((s.granParked u gran).filter (takesBit b)) = some x := by
    refine leastBy_eq (fun p => p.1) hx fun y hy hyx => ?_
    have hne : (y.2.1, y.2.2.1) ≠ (gid, l) := fun h =>
      hyx (granParked_unique hw (List.mem_filter.mp hy).1 (List.mem_filter.mp hx).1 (h.trans hxl))
    have hlt := hfirst y.2.1 y.2.2.1 ((waitsToTake_iff hw).mpr ⟨y, hy, rfl⟩) hne
    cases hxl
    rw [hage x hx, hage y hy]
    exact hlt
  unfold State.bitReleased
  rw [hleast]
  constructor
  · rintro ⟨p, hp, hpl⟩
    rcases List.mem_append.mp hp with hp | hp
    · cases b
      · exact absurd hp List.not_mem_nil
      · obtain ⟨hp, hkeeps⟩ := List.mem_filter.mp hp
        cases hpl
        have hkeep := (waitsFull_unique ((mem_granParked hw).mp hp).1 hl').2
        rw [hkeep, Bool.and_false] at hkeeps
        cases hkeeps
    · rw [List.mem_singleton.mp hp] at hpl
      exact hpl.trans hxl.symm
  · intro h
    exact ⟨x, List.mem_append_right _ (List.mem_singleton.mpr rfl), h.trans hxl⟩

theorem waits_notReady {s : State} {u gran gid l : Nat} {want keep : Bool} (h : WaitsFull s u gran want keep gid l) : ¬ LaneReady s gid l := by
  obtain ⟨-, g, hg, -, hready⟩ := h
  rintro ⟨g', hg', hready'⟩
  cases hg.symm.trans hg'
  rw [hready] at hready'
  cases hready'

theorem waitsToTake_notReady {s : State} {u gran gid l : Nat} {b : Bool} (h : WaitsToTake s u gran b gid l) : ¬ LaneReady s gid l := by
  cases b
  · obtain ⟨keep, hk⟩ := h
    exact waits_notReady hk
  · exact waits_notReady h

/-- Of the lanes that wait to change the bit back, the one that parked first goes on, and no other. -/
theorem setFull_releases_first {s : State} {u gran : Nat} {t : Team} {b : Bool} (ht : s.team u = some t)
    (hb : Sparse.get false t.full gran = !b) (hw : Sparse.wf none s.groups = true) (hs : Unprotected s) {gid l : Nat}
    (hl : WaitsToTake s u gran b gid l)
    (hfirst : ∀ gid' l', WaitsToTake s u gran b gid' l' → (gid', l') ≠ (gid, l) → parkAge s gid l < parkAge s gid' l') (gid' l' : Nat)
    (hl' : WaitsToTake s u gran b gid' l') : LaneReady (s.setFull u gran b) gid' l' ↔ (gid', l') = (gid, l) := by
  rw [laneReady_setFull ht hb hw hs, bitReleased_taker hw hl hfirst gid' l' hl']
  exact or_iff_right (waitsToTake_notReady hl')

end Sys2Proof.Machine
end

section
/-! SUPPORT. O22: the words LDF, STF and FEINIT (R169, R176, R384, R385), and the statement. -/
namespace Sys2Proof.Machine

open Sys2Proof.Safety

/-! ### Groups stay where they are -/

theorem keepsGroup_setFull (gid : Nat) (s : State) (u gran : Nat) (b : Bool) : KeepsGroup gid s (s.setFull u gran b) := by
  cases ht : s.team u with
  | none => rw [State.setFull, ht]; exact id
  | some t =>
    by_cases hb : Sparse.get false t.full gran = b
    · rw [State.setFull, ht]
      dsimp only
      rw [if_pos hb]
      exact id
    · rw [setFull_changes ht (Bool.eq_not.mpr hb)]
      exact fun h => keepsGroup_markAll gid (s.setTeam u _) _ h

theorem keepsGroup_wakeScratch (gid : Nat) (s : State) (u o n : Nat) : KeepsGroup gid s (s.wakeScratch u o n) := by
  refine keepsGroup_foldl gid _ (fun s p => ?_) _ s
  split
  · refine keepsGroup_foldl gid _ (fun s q => ?_) _ s
    split
    · dsimp only
      split
      · exact keepsGroup_setGroup gid _ s _
      · exact id
    · exact id
  · exact id

theorem keepsGroup_wakeBarriers (gid : Nat) (s : State) (u o n : Nat) : KeepsGroup gid s (s.wakeBarriers u o n) := by
  unfold State.wakeBarriers
  split
  · exact id
  · exact keepsGroup_readyWhere gid s _

theorem keepsGroup_writeScratch (gid : Nat) (s : State) (u o : Nat) (bs : List Byte) : KeepsGroup gid s (s.writeScratch u o bs) := by
  unfold State.writeScratch
  split
  · exact id
  · exact fun h => keepsGroup_wakeBarriers gid _ _ _ _ (keepsGroup_wakeScratch gid _ _ _ _ h)

/-! ### An access in the spaces .scr and .cscr (R377, R379) -/

/-- The place of a scratch access, as the model's lanes see it. -/
def scratchSpot (clu : Bool) : Except Does (Nat × Nat) → Except LaneRes Spot
  | .error e => .error (resOf e)
  | .ok p => .ok (.scr p.1 p.2 clu)

/-- A lane that does not reach a team of its cluster traps or parks. -/
theorem clusterTeam_error {s : State} {u j acc ea : Nat} {r : LaneRes} (h : s.clusterTeam u j acc ea = .error r) : resOf (.ofRes r) = r := by
  unfold State.clusterTeam at h
  split at h
  · cases h; rfl
  · dsimp only at h
    split at h
    · cases h; rfl
    · split at h
      · split at h
        · cases h; rfl
        · cases h
      · split at h
        · cases h; rfl
        · cases h; rfl

theorem scrSpot_eq (s : State) (v x n : Nat) (clu : Bool) (acc shown : Nat) :
    s.scrSpot v x n clu acc shown = scratchSpot clu (match s.team v with
      | none => .error (.traps 0x22 0 0)
      | some t => if 1024 * (s.rcd t.task.lrec).blk.scr < x + n then .error (.traps 0x27 acc (BitVec.ofNat 64 shown)) else .ok (v, x)) := by
  unfold State.scrSpot
  cases s.team v with
  | none => rfl
  | some t =>
    dsimp only
    by_cases hroom : 1024 * (s.rcd t.task.lrec).blk.scr < x + n
    · rw [if_pos hroom, if_neg (show ¬ x + n ≤ s.scrBytes t from Nat.not_le.mpr hroom)]; rfl
    · rw [if_neg hroom, if_pos (show x + n ≤ s.scrBytes t from Nat.not_lt.mp hroom)]; rfl

theorem locate_scratch (s : State) (g : Group) (clu : Bool) (ea n al : Nat) (acc : Acc) :
    s.locate g (spaceOf clu) ea n al acc = scratchSpot clu (scratchAt s g clu ea n al acc.code ea) := by
  unfold State.locate scratchAt
  cases hu : g.team with
  | none => cases clu <;> rfl
  | some u =>
    by_cases hal : ea % al ≠ 0
    · cases clu <;> simp [spaceOf, hal, scratchSpot, resOf, trapAt]
    · cases clu
      · simp only [spaceOf, Option.isNone_some, Bool.and_false, Bool.false_eq_true, ↓reduceIte, if_neg hal, Option.getD_some]
        exact scrSpot_eq s u ea n false acc.code ea
      · simp only [spaceOf, Option.isNone_some, Bool.and_false, Bool.false_eq_true, ↓reduceIte, if_neg hal, Option.getD_some]
        cases hv : s.clusterTeam u (ea / 2 ^ 20) acc.code ea with
        | error r => exact congrArg Except.error (clusterTeam_error hv).symm
        | ok v => exact scrSpot_eq s v (ea % 2 ^ 20) n true acc.code ea

/-- What a lane does at a scratch address: `k` acts on the team and the offset there. -/
def atScratch (s : State) (g : Group) (clu : Bool) (ea n al acc : Nat) (k : Nat → Nat → Team → Does × State) : Does × State :=
  match scratchAt s g clu ea n al acc ea with
  | .error e => (e, s)
  | .ok (u, x) => match s.team u with
    | some t => k u x t
    | none => (.traps 0x22 0 0, s)

theorem atScratch_lane (s : State) (g : Group) (clu : Bool) (ea n al : Nat) (acc : Acc) (body : Nat → Nat → Team → LaneRes × State)
    (k : Nat → Nat → Team → Does × State) (hk : ∀ u x t, body u x t = asLane (k u x t)) :
    (match s.locate g (spaceOf clu) ea n al acc with
      | .ok (.scr u x _) => (match s.team u with
        | some t => body u x t
        | none => (badOperand, s))
      | .ok _ => (badOperand, s)
      | .error r => (r, s)) = asLane (atScratch s g clu ea n al acc.code k) := by
  rw [locate_scratch]
  unfold atScratch
  cases scratchAt s g clu ea n al acc.code ea with
  | error e => rfl
  | ok p =>
    obtain ⟨u, x⟩ := p
    dsimp only [scratchSpot]
    cases s.team u with
    | none => rfl
    | some t => exact hk u x t

theorem keepsGroup_atScratch (gid : Nat) (s : State) (g : Group) (clu : Bool) (ea n al acc : Nat) (k : Nat → Nat → Team → Does × State)
    (hk : ∀ u x t, KeepsGroup gid s (k u x t).2) : KeepsGroup gid s (atScratch s g clu ea n al acc k).2 := by
  unfold atScratch
  split
  · exact id
  · split
    · exact hk _ _ _
    · exact id

theorem atScratch_ok {s : State} {g : Group} {clu : Bool} {ea n al acc u x : Nat} {t : Team} (k : Nat → Nat → Team → Does × State)
    (hat : scratchAt s g clu ea n al acc ea = .ok (u, x)) (ht : s.team u = some t) : atScratch s g clu ea n al acc k = k u x t := by
  unfold atScratch
  rw [hat]
  dsimp only
  rw [ht]

/-! ### What the words do in a lane (R384, R385) -/

/-- The address of LDF and STF. -/
def fullEa (a : RegIx) (off : BitVec 9) (g : Group) (l : Nat) : Nat := ((g.lane l).reg a.toNat + off.signExtend 32).toNat

/-- The bytes that STF writes. -/
def fullData (w : Width) (d : RegIx) (g : Group) (l : Nat) : List Byte :=
  match w with
  | .n64 => toLE 8 ((g.lane l).reg64 d.toNat).toNat
  | .b128 => (List.range 4).flatMap fun i => if d = 511#9 then [0, 0, 0, 0] else toLE 4 ((g.lane l).reg (d.toNat + i)).toNat
  | w => toLE w.bytes ((g.lane l).reg d.toNat).toNat

theorem env_data (w : Width) (d : RegIx) (g : Group) (l : Nat) : (envOf false g l).data w d = fullData w d g l := by
  unfold Env.data fullData
  cases w
  case b128 =>
    by_cases hd : d = 511#9
    · simp only [hd, ↓reduceIte]; decide
    · simp only [hd, ↓reduceIte]; rfl
  all_goals rfl

/-- LDF in a lane: a full granule gives its bytes, and is emptied unless it is kept; at an empty one the lane parks. -/
def ldfDoes (clu : Bool) (w : Width) (keep : Bool) (d a : RegIx) (off : BitVec 9) (g : Group) (l : Nat) (s : State) : Does × State :=
  atScratch s g clu (fullEa a off g l) w.bytes w.bytes 0 fun u x t =>
    if Sparse.get false t.full (x / 16) then
      (.takes (widthWrites w d.toNat (t.bytes u x w.bytes), [], 0), if keep then s else s.setFull u (x / 16) false)
    else (.parks (.fullBit u (x / 16) true keep), s)

/-- STF in a lane: an empty granule takes the bytes and is full; at a full one the lane parks. -/
def stfDoes (clu : Bool) (w : Width) (d a : RegIx) (off : BitVec 9) (g : Group) (l : Nat) (s : State) : Does × State :=
  atScratch s g clu (fullEa a off g l) w.bytes w.bytes 1 fun u x t =>
    if Sparse.get false t.full (x / 16) then (.parks (.fullBit u (x / 16) false false), s)
    else (noResults, (s.writeScratch u x (fullData w d g l)).setFull u (x / 16) true)

/-- The bits of n granules, from the granule of offset x upwards. -/
def State.setFulls (s : State) (u x n : Nat) (full : Bool) : State := (List.range n).foldl (fun s i => s.setFull u (x / 16 + i) full) s

/-- FEINIT of k granules at offset x of the scratchpad of team u, which the lane addresses as ea. Its traps record
ACC 0 (log entry 105). -/
def feinitAt (full : Bool) (ea : Nat) (k : Int) (s : State) (u x : Nat) (t : Team) : Does × State :=
  if k < 0 then (.traps 0x22 0 0, s)
  else if 1024 * (s.rcd t.task.lrec).blk.scr < x + 16 * k.toNat then (.traps 0x27 0 (BitVec.ofNat 64 ea), s)
  else (noResults, s.setFulls u x k.toNat full)

/-- FEINIT in a lane. -/
def feinitDoes (clu full : Bool) (a : RegIx) (n : Kind) (g : Group) (l : Nat) (s : State) : Does × State :=
  let ea := ((g.lane l).reg a.toNat).toNat
  match scratchAt s g clu ea 0 16 0 ea with
  | .error e => (e, s)
  | .ok (u, x) => match s.team u with
    | none => (.traps 0x22 0 0, s)
    | some t => feinitAt full ea ((envOf false g l).kind n).toInt s u x t

theorem feinitDoes_atScratch (clu full : Bool) (a : RegIx) (n : Kind) (g : Group) (l : Nat) (s : State) :
    let ea := ((g.lane l).reg a.toNat).toNat
    feinitDoes clu full a n g l s = atScratch s g clu ea 0 16 0 (feinitAt full ea ((envOf false g l).kind n).toInt s) := by
  unfold feinitDoes atScratch
  dsimp only
  cases scratchAt s g clu _ 0 16 0 _ with
  | error e => rfl
  | ok p =>
    dsimp only
    cases s.team p.1 <;> rfl

theorem keepsGroup_ldfDoes (gid : Nat) (clu : Bool) (w : Width) (keep : Bool) (d a : RegIx) (off : BitVec 9) (g : Group) (l : Nat) (s : State) :
    KeepsGroup gid s (ldfDoes clu w keep d a off g l s).2 := by
  refine keepsGroup_atScratch gid s g clu _ _ _ _ _ fun u x t => ?_
  split
  · cases keep
    · exact keepsGroup_setFull gid s _ _ _
    · exact id
  · exact id

theorem keepsGroup_stfDoes (gid : Nat) (clu : Bool) (w : Width) (d a : RegIx) (off : BitVec 9) (g : Group) (l : Nat) (s : State) :
    KeepsGroup gid s (stfDoes clu w d a off g l s).2 := by
  refine keepsGroup_atScratch gid s g clu _ _ _ _ _ fun u x t => ?_
  split
  · exact id
  · exact fun h => keepsGroup_setFull gid _ _ _ _ (keepsGroup_writeScratch gid s _ _ _ h)

theorem keepsGroup_feinitDoes (gid : Nat) (clu full : Bool) (a : RegIx) (n : Kind) (g : Group) (l : Nat) (s : State) :
    KeepsGroup gid s (feinitDoes clu full a n g l s).2 := by
  rw [feinitDoes_atScratch]
  refine keepsGroup_atScratch gid s g clu _ _ _ _ _ fun u x t => ?_
  unfold feinitAt
  split
  · exact id
  · split
    · exact id
    · exact keepsGroup_foldl gid _ (fun s i => keepsGroup_setFull gid s _ _ _) _ s

/-! ### The words -/

/-- Nothing is on its way, and for cluster scratch nothing of the context is dirty on the core: a release there waits for nothing. -/
def ScratchCalm (clu : Bool) (s : State) (g : Group) : Prop := s.txns = [] ∧ (clu = true → s.clean g.core (s.ctxOf g) = true)

theorem released_scratch {clu : Bool} {s : State} {g : Group} (h : ScratchCalm clu s g) (gid l : Nat) :
    s.released gid l g.core (s.ctxOf g) (scrScope clu) (!clu) = true := by
  obtain ⟨htxns, hclean⟩ := h
  cases clu
  · simp [State.released, scrScope, coreScope, State.coreDeps, threadTxns_none s gid l htxns]
  · exact released_calm s gid l g.core _ .clu htxns (hclean rfl) (by decide)

/-- A word that releases in scratch space where `on` says is ready. -/
theorem relOps_scratch {clu : Bool} {s : State} {g : Group} {h : Hdr} (o : WordOps) (on : Ctl → Nat → State → Bool)
    (ho : o.ready (readyCtl s g h false) s = true) (hc : (∃ l, on (readyCtl s g h false) l s = true) → ScratchCalm clu s g) :
    (relOps o (scrScope clu) (!clu) on).ready (readyCtl s g h false) s = true := by
  simp only [relOps, ho, Bool.true_and, List.all_eq_true, Bool.or_eq_true, Bool.not_eq_true']
  intro l _
  cases hon : on (readyCtl s g h false) l s
  · exact .inl rfl
  · exact .inr (released_scratch (hc ⟨l, hon⟩) _ l)

theorem ldf_seq (h : Hdr) (clu : Bool) (w : Width) (keep : Bool) (d a : RegIx) (off : BitVec 9) :
    SeqWord (.ldf h clu w keep d a off) h (fun _ _ => True) (fun _ => ldfDoes clu w keep d a off) := by
  refine seqWord_intro _ _ _ _ (fun _ => rfl) (fun s g _ _ l _ s' => ?_) rfl rfl rfl rfl (fun _ _ _ _ _ => rfl) rfl rfl
    (fun s g _ l s' => keepsGroup_ldfDoes _ _ _ _ _ _ _ _ _ _)
  refine atScratch_lane s' g clu (fullEa a off g l) w.bytes w.bytes .load _ _ fun u x t => ?_
  simp only [apply_ite asLane]
  rfl

theorem stf_seq (h : Hdr) (clu : Bool) (w : Width) (d a : RegIx) (off : BitVec 9) :
    SeqWord (.stf h clu w d a off) h (ScratchCalm clu) (fun _ => stfDoes clu w d a off) := by
  refine seqWord_intro _ _ _ _ (fun _ => rfl) (fun s g _ _ l _ s' => ?_) rfl rfl rfl rfl (fun s g _ _ hcalm => ?_) rfl rfl
    (fun s g _ l s' => keepsGroup_stfDoes _ _ _ _ _ _ _ _ _)
  · refine atScratch_lane s' g clu (fullEa a off g l) w.bytes w.bytes .store _ _ fun u x t => ?_
    simp only [← env_data, apply_ite asLane]
    rfl
  · exact relOps_scratch _ _ rfl fun _ => hcalm

theorem feinit_seq (h : Hdr) (clu full : Bool) (a : RegIx) (n : Kind) :
    SeqWord (.feinit h clu full a n) h (fun s g => full = false ∨ ScratchCalm clu s g) (fun _ => feinitDoes clu full a n) := by
  refine seqWord_intro _ _ _ _ (fun _ => rfl) (fun s g _ _ l _ s' => ?_) rfl rfl rfl rfl (fun s g _ _ hcalm => ?_) rfl (by cases n <;> rfl)
    (fun s g _ l s' => keepsGroup_feinitDoes _ _ _ _ _ _ _ _)
  · show _ = asLane (feinitDoes clu full a n g l s')
    rw [feinitDoes_atScratch]
    refine atScratch_lane s' g clu ((g.lane l).reg a.toNat).toNat 0 16 .load _ _ fun u x t => ?_
    simp only [feinitAt, apply_ite asLane]
    rfl
  · exact relOps_scratch _ _ rfl fun ⟨_, hon⟩ => hcalm.resolve_left (by rw [hon]; decide)

/-- A word of one active lane that takes results. -/
theorem seqWord_takes {i : Instr} {h : Hdr} {P : State → Group → Prop} {f : State → Group → Nat → State → Does × State}
    (hseq : SeqWord i h P f) {s s1 : State} {g : Group} {l : Nat} {r : Results} (hr : WordReady s g h i) (hst : Still s g h) (hP : P s g)
    (hl : lanesOf (active s g h) = [l]) (hf : f s g l (numbered s) = (.takes r, s1)) : LaneTakes s h l i r s1 := by
  have hturn : inTurn (f s g) (lanesOf (active s g h)) (numbered s) = (fun j => if j = l then .takes r else .stays, s1) := by
    rw [hl]
    simp only [inTurn, hf]
  have hact : ∀ j, j < 32 → ((active s g h).getLsbD j = true ↔ j = l) := fun j hj => by
    have hmem : j ∈ lanesOf (active s g h) ↔ j = l := by rw [hl, List.mem_singleton]
    rw [← hmem, mem_lanesOf]
    exact ⟨fun ha => ⟨hj, ha⟩, fun ha => ha.2⟩
  have hlane : s.cur.lanes.getLsbD l = true := (mem_active.mp (hl ▸ List.mem_singleton_self l)).2.1
  obtain ⟨gm, hgm, hends⟩ := hseq s g hr hst hP
  rw [hturn] at hgm hends
  have htraps : ∀ j code acc addr, (if j = l then Does.takes r else .stays) = .traps code acc addr → (gm.lane j).handler = false := by
    intro j code acc addr htrap
    split at htrap <;> cases htrap
  obtain ⟨g', hexec, hlanes, hregs, hland, hafter⟩ := hends fun j code acc addr _ => htraps j code acc addr
  refine ⟨gm, g', hgm, hexec.trans ?_, fun j hj => (hlanes j hj).trans ?_, hregs, hland, hafter⟩
  · rw [hl]
    simp
  · by_cases hjl : j = l
    · subst hjl
      simp [hlane, (hact j hj).mpr rfl, Does.lane]
    · have hidle : (active s g h).getLsbD j = false := Bool.eq_false_iff.mpr fun ha => hjl ((hact j hj).mp ha)
      rw [if_neg hjl, hidle]
      split <;> rfl

/-! ### One active lane, whose address and bit allow it -/

section
variable {s : State} {g : Group} {h : Hdr} {clu : Bool} {a : RegIx} {l u x : Nat} {t : Team} (hl : lanesOf (active s g h) = [l])
  (hst : Still s g h) (ht : s.team u = some t)
include hl hst ht

theorem ldf_takes {w : Width} {keep : Bool} {d : RegIx} {off : BitVec 9} (hr : WordReady s g h (.ldf h clu w keep d a off))
    (hat : scratchAt s g clu (fullEa a off g l) w.bytes w.bytes 0 (fullEa a off g l) = .ok (u, x))
    (hfull : Sparse.get false t.full (x / 16) = true) :
    LaneTakes s h l (.ldf h clu w keep d a off) (widthWrites w d.toNat (t.bytes u x w.bytes), [], 0)
      (if keep then numbered s else (numbered s).setFull u (x / 16) false) :=
  seqWord_takes (ldf_seq h clu w keep d a off) hr hst trivial hl ((atScratch_ok (s := numbered s) _ hat ht).trans (if_pos hfull))

theorem stf_takes {w : Width} {d : RegIx} {off : BitVec 9} (hc : ScratchCalm clu s g) (hr : WordReady s g h (.stf h clu w d a off))
    (hat : scratchAt s g clu (fullEa a off g l) w.bytes w.bytes 1 (fullEa a off g l) = .ok (u, x))
    (hempty : Sparse.get false t.full (x / 16) = false) :
    LaneTakes s h l (.stf h clu w d a off) ([], [], 0) (((numbered s).writeScratch u x (fullData w d g l)).setFull u (x / 16) true) :=
  seqWord_takes (stf_seq h clu w d a off) hr hst hc hl
    ((atScratch_ok (s := numbered s) _ hat ht).trans (if_neg (by rw [hempty]; exact Bool.false_ne_true)))

theorem feinit_takes {full : Bool} {n : Kind} (hc : ScratchCalm clu s g) (hr : WordReady s g h (.feinit h clu full a n))
    (hat : scratchAt s g clu ((g.lane l).reg a.toNat).toNat 0 16 0 ((g.lane l).reg a.toNat).toNat = .ok (u, x))
    (hn : 0 ≤ ((envOf false g l).kind n).toInt)
    (hroom : x + 16 * ((envOf false g l).kind n).toInt.toNat ≤ 1024 * (s.rcd t.task.lrec).blk.scr) :
    LaneTakes s h l (.feinit h clu full a n) ([], [], 0) ((numbered s).setFulls u x ((envOf false g l).kind n).toInt.toNat full) :=
  seqWord_takes (feinit_seq h clu full a n) hr hst (.inr hc) hl
    ((feinitDoes_atScratch clu full a n g l (numbered s)).trans
      ((atScratch_ok (s := numbered s) _ hat ht).trans ((if_neg (Int.not_lt.mpr hn)).trans (if_neg (Nat.not_lt.mpr hroom)))))
end

/-! ### The statement -/

/-- Settles O22: the words by what each of their lanes does at its address, the releases by the list of the lanes that a change of the bit
marks: every LDF.keep, and the first by age of those that would change the bit back. -/
theorem fullEmptyAccesses : Obligations.FullEmptyAccesses := by
  refine ⟨fun h clu w d a off => ⟨fun keep => ldf_seq h clu w keep d a off, stf_seq h clu w d a off, fun full n => feinit_seq h clu full a n,
    fun s g l u x t hl hst ht => ⟨fun keep => ldf_takes hl hst ht, fun htxns hclean => ⟨stf_takes hl hst ht ⟨htxns, hclean⟩,
      fun full n => feinit_takes hl hst ht ⟨htxns, hclean⟩⟩⟩⟩, ?_⟩
  intro s u gran t b ht hb hw hs s' on age ready
  refine ⟨⟨_, setFull_team ht hb, Sparse.get_set false b t.full gran⟩, fun hfull gid l hl => ?_, fun gid l hl hfirst => ?_⟩
  · subst hfull
    exact setFull_releases_keepers ht hb hw hs hl
  · have honly := setFull_releases_first ht hb hw hs (gid := gid) (l := l) hl hfirst
    exact ⟨(honly gid l hl).mpr rfl, fun gid' l' hl' hne hready => hne ((honly gid' l' hl').mp hready)⟩

end Sys2Proof.Machine
end

section
/-! SUPPORT. O21: the words LD, ST, ATOM and RED at this device's memory, for one active lane (R192, R376, R379, R381, R388, R390). -/
namespace Sys2Proof.Machine

open Sys2Proof.Safety

/-! ### The transaction of an access (R197, R200, R381) -/

/-- A core scope, by its names (R191). -/
def atCore (sc : Scope) : Bool := sc == .thr || sc == .grp || sc == .team

theorem coreScope_eq (sc : Scope) : coreScope sc = atCore sc := by cases sc <;> rfl

/-- Does a lane's access release (R197)? -/
def accessReleases (ln : Lane) (op : AccOp) (o : Sys2Proof.Ord) : Bool :=
  op.writes && ((o == .rel) || (o == .ar) || (o == .rlx && ln.relFence))

theorem writes_and_releases (ln : Lane) (op : AccOp) (o : Sys2Proof.Ord) : (op.writes && releases o ln) = accessReleases ln op o := by
  cases o <;> rfl

/-- Does the core's L1 take the access: a store at core scope, or an atomic up to cluster scope, on a page whose writes L1 may hold (R175)? -/
def takenByL1 (s : State) (core : Nat) (page : Leaf) (op : AccOp) (sc : Scope) : Bool :=
  page.wp && page.lvl == 2 && !s.l1Empty core && (match op with
    | .store => atCore sc
    | .atom .. | .red .. => atCore sc || sc == .clu
    | _ => false)

/-- The access of a lane at cell x, as a transaction with no part yet. -/
def cellAccess (s : State) (c : Ctl) (l : Nat) (page : Leaf) (x : Nat) (op : AccOp) (o : Sys2Proof.Ord) (sc : Scope) : Txn :=
  { core := c.g.core, gid := c.gid, ctx := s.ctxOf c.g, launch := c.g.launch, tgt := .cell, line := x / 128, parts := [], scope := sc
    acq := o == .acq || o == .ar, rel := accessReleases (c.g.lane l) op o, l1 := takenByL1 s c.g.core page op sc
    lvl := page.lvl, evp := page.evp, pc := c.pc, word := c.word }

/-- The part of an access leaves once what its ordering waits for is known. -/
def sendAfter (word : Nat) (proto : Txn) (p : Part) (waits : List Nat × Bool × State) : State :=
  waits.2.2.sendPart { proto with
    deps := waits.1.filter fun d => match waits.2.2.txn d with | some t => t.word ≠ word | none => false, wb := waits.2.1 } p

theorem send_cell (s : State) (c : Ctl) (l : Nat) (page : Leaf) (x va n : Nat) (op : AccOp) (bs : List Byte) (o : Sys2Proof.Ord) (sc : Scope) :
    let proto := cellAccess s c l page x op o sc
    s.send c l page .cell x va n op bs [] o sc =
      sendAfter c.word proto { lane := l, addr := x, va := va, len := n, op := op, data := bs, level := page.level }
        (if proto.rel then s.releaseDeps c.gid l sc proto.l1 proto else ([], false, s)) := by
  simp only [cellAccess, takenByL1, ← writes_and_releases, ← coreScope_eq]
  rfl

/-- With nothing on its way, a release follows what is dirty alone, and not even that where L1 takes it at core scope. -/
theorem releaseDeps_alone (s : State) (gid l : Nat) (sc : Scope) (l1 : Bool) (proto : Txn) (ht : s.txns = [])
    (hq : sc = .sys → s.hostQuiet proto.ctx 0 = true ∧ s.hostQuiet proto.ctx 1 = true) :
    s.releaseDeps gid l sc l1 proto = ([], !(l1 && atCore sc), s) := by
  rw [← coreScope_eq]
  cases hcore : l1 && coreScope sc
  · rw [← show s.releaseDeps gid l sc false proto = s.releaseDeps gid l sc l1 proto by simp only [State.releaseDeps, hcore, Bool.false_and]]
    exact releaseDeps_calm s gid l sc proto ht hq
  · simp [State.releaseDeps, hcore, State.coreDeps, threadTxns_none s gid l ht]

/-- The first part on its way starts a transaction. -/
theorem sendPart_first (s : State) (proto : Txn) (p : Part) (ht : s.txns = []) :
    s.sendPart proto p = { s with next := s.next + 1, txns := Sparse.set none s.txns s.next (some { proto with parts := [p] }) } := by
  have hover : s.overlay proto p = s := by
    unfold State.overlay
    split
    · rw [ht, List.filterMap_nil, ← ht]
    · rfl
  rw [State.sendPart, hover, ht, listed_nil]
  dsimp only [List.find?_nil]
  rw [← ht]
  rfl

/-- The access of n bytes at va, as a transaction of its own: with its part, and the write-back that it follows (R201). -/
def lineAccess (s : State) (c : Ctl) (l va n x : Nat) (page : Leaf) (op : AccOp) (bs : List Byte) (o : Sys2Proof.Ord) (sc : Scope) : Txn :=
  let proto := cellAccess s c l page x op o sc
  { proto with
    parts := [{ lane := l, addr := x, va := va, len := n, op := op, data := bs, level := page.level }]
    wb := proto.rel && !(proto.l1 && atCore sc) }

/-- A release at system scope finds the stores of its context to host memory confirmed (R57). -/
def HostCalm (s : State) (g : Group) (l : Nat) (op : AccOp) (o : Sys2Proof.Ord) (sc : Scope) : Prop :=
  accessReleases (g.lane l) op o = true → sc = .sys → s.hostQuiet (s.ctxOf g) 0 = true ∧ s.hostQuiet (s.ctxOf g) 1 = true

/-- With nothing on its way, a checked access leaves as one transaction. -/
theorem send_alone {s : State} {c : Ctl} {l : Nat} {op : AccOp} {o : Sys2Proof.Ord} {sc : Scope} (page : Leaf) (x va n : Nat) (bs : List Byte)
    (ht : s.txns = []) (hq : HostCalm s c.g l op o sc) :
    s.send c l page .cell x va n op bs [] o sc =
      { s with next := s.next + 1, txns := Sparse.set none s.txns s.next (some (lineAccess s c l va n x page op bs o sc)) } := by
  let proto := cellAccess s c l page x op o sc
  have hwaits : (if proto.rel then s.releaseDeps c.gid l sc proto.l1 proto else ([], false, s)) =
      ([], proto.rel && !(proto.l1 && atCore sc), s) := by
    cases hrel : proto.rel
    · rfl
    · exact releaseDeps_alone s c.gid l sc proto.l1 proto ht (hq hrel)
  rw [send_cell, hwaits]
  exact sendPart_first s _ _ ht

/-- The state in which the access of lane l of the word is on its way. -/
def accessSent (s : State) (g : Group) (h : Hdr) (l va n x : Nat) (page : Leaf) (op : AccOp) (bs : List Byte) (o : Sys2Proof.Ord) (sc : Scope) :
    State :=
  queueSent s (lineAccess s (memCtl s g h) l va n x page op bs o sc)

theorem send_numbered {s : State} {g : Group} {l : Nat} {op : AccOp} {o : Sys2Proof.Ord} {sc : Scope} (h : Hdr) (page : Leaf) (x va n : Nat)
    (bs : List Byte) (ht : s.txns = []) (hq : HostCalm s g l op o sc) :
    (numbered s).send (memCtl s g h) l page .cell x va n op bs [] o sc = accessSent s g h l va n x page op bs o sc :=
  send_alone (s := numbered s) (c := memCtl s g h) page x va n bs ht hq

/-! ### Where an access lies (R169, R379) -/

/-- The space of an access that names global memory, by its own space or by a generic address. -/
def globalSpace (gen : Bool) : Space := if gen then .gen else .glb

section
variable (s : State) (g : Group) (gen : Bool) {ea n : Nat} (acc : Acc)

theorem locate_misaligned (hal : ea % n ≠ 0) : s.locate g (globalSpace gen) ea n n acc = .error (trapAt 0x25 acc.code ea) := by
  cases gen <;> exact if_pos hal

theorem locate_beyond (hal : ea % n = 0) (hhigh : 2 ^ 57 ≤ ea) :
    s.locate g (globalSpace gen) ea n n acc = .error (trapAt 0x26 acc.code ea) := by
  have hwindow : windowBase ≤ ea := by unfold windowBase; omega
  cases gen
  · exact (if_neg (not_not_intro hal)).trans (if_pos hwindow)
  · exact (if_neg (not_not_intro hal)).trans ((if_neg (Nat.not_lt.mpr hwindow)).trans (if_pos hhigh))

theorem locate_global (hal : ea % n = 0) (hlow : ea < windowBase) : s.locate g (globalSpace gen) ea n n acc = .ok (.glb ea) := by
  cases gen
  · exact (if_neg (not_not_intro hal)).trans (if_neg (Nat.not_le.mpr hlow))
  · exact (if_neg (not_not_intro hal)).trans (if_pos hlow)

end

/-! ### The page of an access (R23, R183, R376) -/

/-- The page as an access takes it: no cache holds a frame outside every view, and hint .ef takes eviction priority 0. -/
def pageTaken (s : State) (leaf : Leaf) (va : Nat) (ef : Bool) : Leaf :=
  { leaf with wp := (viewLeaf s leaf va).wp, lvl := (viewLeaf s leaf va).lvl, evp := if ef then 0 else (viewLeaf s leaf va).evp }

theorem hinted_viewLeaf (s : State) (leaf : Leaf) (va : Nat) (ef : Bool) : (viewLeaf s leaf va).hinted ef = pageTaken s leaf va ef := by
  unfold pageTaken viewLeaf
  split <;> cases ef <;> rfl

theorem viewLeaf_taken (s : State) (leaf : Leaf) (va : Nat) : viewLeaf s leaf va = pageTaken s leaf va false := hinted_viewLeaf s leaf va false

/-- A translation that the core's TLB holds sends an access of n bytes at ea to cell x of this device's memory, whatever it allows. -/
structure Translates (s : State) (core k ea n : Nat) (acc : Acc) (leaf : Leaf) (x : Nat) : Prop where
  below : ea < windowBase
  held : s.tlbAt core k ea = some leaf
  cell : s.target k n acc (leaf.phys ea) = .ok (.cell, x)

section
variable {s : State} {core k ea n x : Nat} {acc : Acc} {leaf : Leaf} (ha : Translates s core k ea n acc leaf x)
include ha

theorem Translates.page (hf : acc ≠ .fetch) (hw : acc.writes = true → leaf.w = true) : PageHeld s core k ea n acc leaf x :=
  ⟨ha.below, hw, fun h => absurd h hf, ha.held, ha.cell⟩

theorem Translates.numbered : Translates (numbered s) core k ea n acc leaf x := ⟨ha.below, ha.held, ha.cell⟩

/-- A page that may not be written refuses a write. -/
theorem Translates.check_readOnly (hw : acc.writes = true) (hro : leaf.w = false) : s.check core k ea n acc = .trap causeProtW := by
  have hlow : ¬ (2 ^ 57 ≤ ea ∨ windowBase ≤ ea) := by
    have := ha.below
    simp only [windowBase] at *
    omega
  have hfind : s.translate core k ea = .ok leaf := by rw [State.translate, State.tlbFind, ha.held]
  have hview : (viewLeaf s leaf ea).w = false := (viewLeaf_w s leaf ea).trans hro
  rw [State.check, if_neg hlow, hfind]
  dsimp only
  rw [ha.cell]
  dsimp only
  rw [hw, show (if (s.viewOf (leaf.phys ea)).isSome = true then leaf else { leaf with wp := false, lvl := 0 }) = viewLeaf s leaf ea from rfl, hview]
  rfl

theorem Translates.checkFor_readOnly (g : Group) (gid l : Nat) (hcore : g.core = core) (hk : (s.rcd g.launch).ctx = k) (hw : acc.writes = true)
    (hro : leaf.w = false) : s.checkFor g gid l ea n acc = (.trap causeProtW, s) := by
  subst hcore hk
  have hwalk : s.countWalk g.core (s.rcd g.launch).ctx ea = s := by rw [State.countWalk, State.tlbFind, ha.held]; rfl
  have hrecall : s.checkRecall g.core (s.rcd g.launch).ctx ea n acc 12 = (.trap causeProtW, s) := by
    rw [State.checkRecall, ha.check_readOnly hw hro]
    dsimp only
    rw [hwalk, ite_self]
  rw [State.checkFor]
  dsimp only
  rw [hrecall]
  rfl
end

/-! ### What a lane does (R379, R381, R389) -/

section
variable {s : State} {g : Group} {h : Hdr} {l ea x : Nat} {leaf : Leaf} {o : Sys2Proof.Ord} {sc : Scope}

theorem loadLane_fails {c : Ctl} {gen : Bool} {w : Width} {ef : Bool} {d : RegIx} {r : LaneRes}
    (hr : s.locate c.g (globalSpace gen) ea w.bytes w.bytes .load = .error r) :
    s.loadLane c l (globalSpace gen) w o sc ef d ea = (r, s) := by
  rw [State.loadLane, hr]

theorem storeLane_fails {c : Ctl} {gen : Bool} {bs : List Byte} {n : Nat} {r : LaneRes} (hn : bs.length = n)
    (hr : s.locate c.g (globalSpace gen) ea n n .store = .error r) : s.storeLane c l (globalSpace gen) o sc bs ea = (r, s) := by
  subst hn
  rw [State.storeLane, hr]

/-- A lane that learns of no failed store sends what it has checked. -/
theorem lostLink_none (gid : Nat) (hg : s.group gid = some g) (hlink : (g.lane l).linkLost = false) : s.lostLink gid l = none := by
  rw [State.lostLink, hg]
  dsimp only
  rw [hlink]
  rfl

/-- A load of global memory is checked and sent. -/
theorem loadLane_sends {gen : Bool} {w : Width} {ef : Bool} {d : RegIx} (hal : ea % w.bytes = 0)
    (ha : Translates s g.core (s.ctxOf g) ea w.bytes .load leaf x) (ht : s.txns = []) :
    (numbered s).loadLane (memCtl s g h) l (globalSpace gen) w o sc ef d ea =
      (pending, accessSent s g h l ea w.bytes x (pageTaken s leaf ea ef) (.load w d) [] o sc) := by
  have hpage := ha.numbered.page (by decide) (fun h => nomatch h)
  have hcheck := hpage.checkFor g s.cur.gid l rfl rfl
  have hcst : globalSpace gen ≠ .cst := by cases gen <;> decide
  have hsend := send_numbered (g := g) (l := l) (op := .load w d) (o := o) (sc := sc) h (pageTaken s leaf ea ef) x ea w.bytes [] ht
    (fun hrel => nomatch hrel)
  rw [State.loadLane, locate_global _ _ _ _ hal ha.below]
  dsimp only
  rw [if_neg hcst, State.loadGlobal, show (memCtl s g h).g = g from rfl, show (memCtl s g h).gid = s.cur.gid from rfl, hcheck]
  dsimp only
  rw [hinted_viewLeaf]
  exact congrArg (Prod.mk pending) hsend

/-- A store to a page that may be written is checked and sent. -/
theorem storeLane_sends {gen : Bool} {bs : List Byte} {n : Nat} (hn : bs.length = n) (hal : ea % n = 0)
    (ha : Translates s g.core (s.ctxOf g) ea n .store leaf x) (hw : leaf.w = true) (ht : s.txns = []) (hg : s.group s.cur.gid = some g)
    (hlink : (g.lane l).linkLost = false) (hq : HostCalm s g l .store o sc) :
    (numbered s).storeLane (memCtl s g h) l (globalSpace gen) o sc bs ea =
      (pending, accessSent s g h l ea n x (pageTaken s leaf ea false) .store bs o sc) := by
  subst hn
  have hcheck := (ha.numbered.page (by decide) fun _ => hw).checkFor g s.cur.gid l rfl rfl
  have hlost : (numbered s).lostLink s.cur.gid l = none := lostLink_none s.cur.gid hg hlink
  rw [State.storeLane, locate_global _ _ _ _ hal ha.below]
  dsimp only
  rw [show (memCtl s g h).g = g from rfl, show (memCtl s g h).gid = s.cur.gid from rfl, hcheck]
  dsimp only
  rw [hlost, ite_self, viewLeaf_taken]
  exact congrArg (Prod.mk pending) (send_numbered h _ x ea bs.length bs ht hq)

/-- A store to a page that may not be written traps. -/
theorem storeLane_readOnly {gen : Bool} {bs : List Byte} {n : Nat} (hn : bs.length = n) (hal : ea % n = 0)
    (ha : Translates s g.core (s.ctxOf g) ea n .store leaf x) (hro : leaf.w = false) :
    (numbered s).storeLane (memCtl s g h) l (globalSpace gen) o sc bs ea = (trapAt 0x28 1 ea, numbered s) := by
  subst hn
  have hcheck := ha.numbered.checkFor_readOnly g s.cur.gid l rfl rfl rfl hro
  rw [State.storeLane, locate_global _ _ _ _ hal ha.below]
  dsimp only
  rw [show (memCtl s g h).g = g from rfl, show (memCtl s g h).gid = s.cur.gid from rfl, hcheck]
  rfl

/-- What an atomic asks of its word's home: with a destination or without. -/
def atomAccess (op : AtomOp) (ty : AtomTy) (d : Option RegIx) (u v : DWord) : AccOp :=
  match d with
  | some d => .atom op ty u v d
  | none => .red op ty u v

/-- An atomic on a page that may be written is checked and sent. -/
theorem atomLane_sends {op : AtomOp} {ty : AtomTy} {d : Option RegIx} {u v : DWord} (hal : ea % (if ty.wide then 8 else 4) = 0)
    (ha : Translates s g.core (s.ctxOf g) ea (if ty.wide then 8 else 4) .atomic leaf x) (hw : leaf.w = true) (ht : s.txns = [])
    (hg : s.group s.cur.gid = some g) (hlink : (g.lane l).linkLost = false) (hq : HostCalm s g l (atomAccess op ty d u v) o sc) :
    (numbered s).atomLane (memCtl s g h) l op ty o sc d u v ea =
      (pending, accessSent s g h l ea (if ty.wide then 8 else 4) x (pageTaken s leaf ea false) (atomAccess op ty d u v) [] o sc) := by
  have hcheck := (ha.numbered.page (by decide) fun _ => hw).checkFor g s.cur.gid l rfl rfl
  have hlost : (numbered s).lostLink s.cur.gid l = none := lostLink_none s.cur.gid hg hlink
  unfold State.atomLane
  dsimp only
  rw [show Space.gen = globalSpace true from rfl, locate_global _ _ _ _ hal ha.below]
  dsimp only
  rw [show (memCtl s g h).g = g from rfl, show (memCtl s g h).gid = s.cur.gid from rfl, hcheck]
  dsimp only
  rw [hlost, ite_self, viewLeaf_taken]
  exact congrArg (Prod.mk pending) (send_numbered h _ x ea _ [] ht hq)

end

/-! ### Words of one active lane -/

/-- Word i runs its only active lane l, with the outcome r. -/
structure LaneGives (s : State) (g : Group) (h : Hdr) (i : Instr) (l : Nat) (r : LaneRes × State) : Prop where
  word : ∃ (o : WordOps) (body : Ctl → Nat → State → LaneRes × State), OneLane s g h i l o ∧ exec i s = s.word i h o body ∧
    body (memCtl s g h) l (numbered s) = r

section
variable {s : State} {g : Group} {h : Hdr} {i : Instr} {l : Nat}

/-- The lane traps, and nothing but its group changes. -/
theorem LaneGives.traps {code acc : Nat} {addr : DWord} (hw : LaneGives s g h i l (.trap code acc addr, numbered s)) (hh : (g.lane l).handler = false) :
    ∃ g', exec i s = .next ((numbered s).setGroup s.cur.gid g') ∧ lanesRun s g g' h (fun _ _ => (g.lane l).trap code acc addr) ∧
      g'.g = g.g ∧ groupAfter s g g' h := by
  obtain ⟨o, body, hone, hexec, hbody⟩ := hw.word
  obtain ⟨g', hfin, hlanes, hregs, -, hafter⟩ := finishWord_one (s2 := numbered s) (word := s.next) (d := .traps code acc addr) hone.lane hone.each
    hone.lands hone.ready.here rfl (fun _ _ _ _ => hh)
  refine ⟨g', hexec.trans ((hone.word_eq hbody).trans (congrArg Host.Outcome.next hfin)), fun j hj => (hlanes j hj).trans ?_, hregs, hafter⟩
  refine if_congr Iff.rfl ?_ rfl
  by_cases hjl : j = l
  · rw [if_pos hjl, if_pos ((hone.active_iff j hj).mpr hjl), hjl]; rfl
  · rw [if_neg hjl, if_neg fun ha => hjl ((hone.active_iff j hj).mp ha)]

/-- The lane passes the word, and what it has sent is on its way. -/
theorem LaneGives.sends {T : Txn} (hw : LaneGives s g h i l (pending, queueSent s T)) :
    ∃ g', lanesAfter s g g' h (fun _ ln => ln) ∧ g'.g = g.g ∧ groupAfter s g g' h ∧ exec i s = .next ((queueSent s T).setGroup s.cur.gid g') := by
  obtain ⟨o, body, hone, hexec, hbody⟩ := hw.word
  obtain ⟨g', hfin, hlanes, hregs, -, hafter⟩ := finishWord_one (s2 := queueSent s T) (word := s.next) (d := .takes ([], [], 0)) hone.lane hone.each
    hone.lands hone.ready.here rfl (fun _ _ _ hd => nomatch hd)
  refine ⟨g', fun j hj => (hlanes j hj).trans ?_, hregs, hafter, hexec.trans ((hone.word_eq hbody).trans (congrArg Host.Outcome.next hfin))⟩
  refine if_congr Iff.rfl ?_ rfl
  rw [ite_self]
  by_cases hjl : j = l
  · exact (if_pos hjl).trans (noResults_lane s _ (g.lane j))
  · rw [if_neg hjl]

end

/-! ### The words (R376, R381, R388) -/

/-- A word whose lanes release nothing in the core waits for no release. -/
theorem relOps_idle {o : WordOps} {sc : Scope} {l1 : Bool} {on : Ctl → Nat → State → Bool} {c : Ctl} {s : State} (ho : o.ready c s = true)
    (hon : ∀ l ∈ lanesOf c.act, on c l s = false) : (relOps o sc l1 on).ready c s = true := by
  simp only [relOps, ho, Bool.true_and, List.all_eq_true, Bool.or_eq_true, Bool.not_eq_true']
  exact fun l hl => .inl (hon l hl)

/-- A global address is not one of the core, and a plain access does not release. -/
theorem scratchRel_idle {gen : Bool} {o : Sys2Proof.Ord} {ea : Ctl → Nat → Nat} {c : Ctl} {l : Nat} (s : State)
    (h : ea c l < windowBase ∨ gen = false ∨ o = .plain) : scratchRel (globalSpace gen) o ea c l s = false := by
  unfold scratchRel
  rcases h with hlow | hglb | hplain
  · have hcore : coreEa (globalSpace gen) (ea c l) = false := by
      cases gen
      · rfl
      · refine decide_eq_false ?_
        unfold windowBase at hlow
        omega
    rw [hcore, Bool.and_false]
  · subst hglb
    exact Bool.and_false _
  · subst hplain
    rfl

theorem spillReady_calm {sp : Space} {ea : Ctl → Nat → Nat} {c : Ctl} {s : State} (ht : s.txns = []) : spillReady sp ea c s = true := by
  have hnone : s.spillsUsed c.gid = 0 := by rw [State.spillsUsed, State.spills, ht]; rfl
  rw [spillReady, hnone]
  exact Bool.or_true _

/-- The address of LD and ST. -/
def accessEa (onG : Bool) (a : RegIx) (off : BitVec 9) (g : Group) (l : Nat) : Nat :=
  ((if onG then g.gr64 a.toNat else (g.lane l).reg64 a.toNat) + off.signExtend 64).toNat

/-- The address of ATOM and RED. -/
def atomEa (onG : Bool) (a : RegIx) (g : Group) (l : Nat) : Nat := (if onG then g.gr64 a.toNat else (g.lane l).reg64 a.toNat).toNat

section
variable {s : State} {g : Group} {h : Hdr} {l : Nat} {gen onG : Bool} {w : Width} {o : Sys2Proof.Ord} {sc : Scope} {hint : Hint} {d a b : RegIx}
  {off : BitVec 9} {op : AtomOp} {ty : AtomTy} {r : LaneRes × State} (hl : lanesOf (active s g h) = [l]) (hst : Still s g h)
include hl hst

theorem ld_gives (hr : WordReady s g h (.ld h (globalSpace gen) w o sc hint onG d a off))
    (hlane : (numbered s).loadLane (memCtl s g h) l (globalSpace gen) w o sc (hint == .ef) d (accessEa onG a off g l) = r) :
    LaneGives s g h (.ld h (globalSpace gen) w o sc hint onG d a off) l r := by
  refine ⟨_, _, ⟨hr, hst, hl, rfl, rfl, rfl, rfl, rfl, by cases onG <;> rfl, rfl⟩, rfl, ?_⟩
  rw [← hlane]
  cases gen <;> rfl

theorem st_gives (ht : s.txns = []) (hr : WordReady s g h (.st h (globalSpace gen) w o sc hint onG d a off))
    (hcore : accessEa onG a off g l < windowBase ∨ gen = false ∨ o = .plain)
    (hlane : (numbered s).storeLane (memCtl s g h) l (globalSpace gen) o sc (fullData w d g l) (accessEa onG a off g l) = r) :
    LaneGives s g h (.st h (globalSpace gen) w o sc hint onG d a off) l r := by
  have hea : ((readyCtl s g h false).env l).ea (globalSpace gen).wide onG a off = accessEa onG a off g l := by cases gen <;> rfl
  refine ⟨_, _, ⟨hr, hst, hl, rfl, rfl, rfl, rfl, rfl, by cases onG <;> rfl, ?_⟩, rfl, ?_⟩
  · refine relOps_idle ?_ fun j hj => scratchRel_idle s ?_
    · exact spillReady_calm (ea := fun c l => (c.env l).ea (globalSpace gen).wide onG a off) ht
    have hjl : j = l := List.mem_singleton.mp (hl ▸ hj)
    rwa [hjl, hea]
  · rw [← hlane, ← hea, ← env_data]
    rfl

omit hst in
theorem atom_ready (hlow : atomEa onG a g l < windowBase) :
    (relOps { mem := true } sc true (scratchRel .gen (strong o) fun c l => ((c.env l).a64 onG a).toNat)).ready (readyCtl s g h false) s = true :=
  relOps_idle rfl fun j hj => scratchRel_idle (gen := true) s (.inl ((List.mem_singleton.mp (hl ▸ hj) : j = l) ▸ hlow))

theorem atom_gives (hr : WordReady s g h (.atom h op ty o sc onG d a b)) (hlow : atomEa onG a g l < windowBase)
    (hlane : (numbered s).atomLane (memCtl s g h) l op ty (strong o) sc (some d) ((envOf false g l).atomArgs op ty b).1
      ((envOf false g l).atomArgs op ty b).2 (atomEa onG a g l) = r) : LaneGives s g h (.atom h op ty o sc onG d a b) l r :=
  ⟨_, _, ⟨hr, hst, hl, rfl, rfl, rfl, rfl, rfl, by cases onG <;> rfl, atom_ready hl hlow⟩, rfl, hlane⟩

/-- A RED that DETR does not hold goes as an ATOM does. -/
theorem red_gives (hr : WordReady s g h (.red h op ty o sc onG a b)) (hdetr : s.detrHeld g ty sc = false) (hlow : atomEa onG a g l < windowBase)
    (hlane : (numbered s).atomLane (memCtl s g h) l op ty (strong o) sc none ((envOf false g l).atomArgs op ty b).1
      ((envOf false g l).atomArgs op ty b).2 (atomEa onG a g l) = r) : LaneGives s g h (.red h op ty o sc onG a b) l r := by
  refine ⟨_, _, ⟨hr, hst, hl, rfl, rfl, rfl, rfl, rfl, by cases onG <;> rfl, atom_ready hl hlow⟩, rfl, ?_⟩
  have hdetr' : (numbered s).detrHeld (memCtl s g h).g ty sc = false := hdetr
  dsimp only
  rw [hdetr', Bool.false_and, Bool.false_and, if_neg Bool.false_ne_true]
  exact hlane

end

/-! ### The operands of an atomic (R388) -/

/-- The first operand: a register or, for a wide type, a pair. -/
def firstOperand (wide : Bool) (b : RegIx) (ln : Lane) : DWord :=
  if b = 511#9 then 0 else if wide then ln.reg (b.toNat + 1) ++ ln.reg b.toNat else (ln.reg b.toNat).zeroExtend 64

/-- The new value of a .cas, in the registers after it. -/
def secondOperand (op : AtomOp) (wide : Bool) (b : RegIx) (ln : Lane) : DWord :=
  if op ≠ .cas ∨ b = 511#9 then 0
  else if wide then ln.reg (b.toNat + 3) ++ ln.reg (b.toNat + 2) else (ln.reg (b.toNat + 1)).zeroExtend 64

theorem reg_first (wide : Bool) (b : RegIx) (ln : Lane) :
    (if wide then ln.reg64 b.toNat else (ln.reg b.toNat).zeroExtend 64) = firstOperand wide b ln := by
  unfold firstOperand
  by_cases hb : b = 511#9
  · rw [if_pos hb, hb]
    exact ite_self _
  · have hne : b.toNat ≠ 511 := fun h => hb (BitVec.eq_of_toNat_eq h)
    rw [if_neg hb, Lane.reg64, if_neg hne]

/-- A wide .cas names four registers from a multiple of four, so that none of them is vz. -/
theorem reg_second (wide : Bool) (b : RegIx) (ln : Lane) (hquad : wide = true → b.toNat % 4 = 0) :
    (if wide then (if b = 511#9 then 0 else ln.reg64 (b.toNat + 2)) else if b = 511#9 then 0 else (ln.reg (b.toNat + 1)).zeroExtend 64) =
      secondOperand .cas wide b ln := by
  unfold secondOperand
  by_cases hb : b = 511#9
  · rw [if_pos hb, if_pos hb, ite_self, if_pos (Or.inr hb)]
  · rw [if_neg hb, if_neg hb, if_neg (not_or.mpr ⟨not_not_intro rfl, hb⟩)]
    cases wide
    · rfl
    · have hne : b.toNat + 2 ≠ 511 := by have := hquad rfl; omega
      rw [Lane.reg64, if_neg hne]

theorem atomArgs_cas (ty : AtomTy) (b : RegIx) (g : Group) (l : Nat) (hquad : ty.wide = true → b.toNat % 4 = 0) :
    (envOf false g l).atomArgs .cas ty b = (firstOperand ty.wide b (g.lane l), secondOperand .cas ty.wide b (g.lane l)) := by
  rw [← reg_first, ← reg_second _ _ _ hquad]
  unfold Env.atomArgs
  cases ty.wide <;> rfl

theorem atomArgs_other {op : AtomOp} (hop : op ≠ .cas) (ty : AtomTy) (b : RegIx) (g : Group) (l : Nat) :
    (envOf false g l).atomArgs op ty b = (firstOperand ty.wide b (g.lane l), 0) := by
  rw [← reg_first]
  cases op
  case cas => exact absurd rfl hop
  all_goals rfl

theorem atomArgs_eq {op : AtomOp} {ty : AtomTy} {b : RegIx} (g : Group) (l : Nat) (hquad : op = .cas → ty.wide = true → b.toNat % 4 = 0) :
    (envOf false g l).atomArgs op ty b = (firstOperand ty.wide b (g.lane l), secondOperand op ty.wide b (g.lane l)) := by
  by_cases hop : op = .cas
  · subst hop
    exact atomArgs_cas ty b g l (hquad rfl)
  · rw [atomArgs_other hop, secondOperand, if_pos (.inl hop)]

/-! ### The statement -/

section
variable {s : State} {g : Group} {h : Hdr} {l : Nat} {gen onG : Bool} {w : Width} {o : Sys2Proof.Ord} {sc : Scope} {hint : Hint} {d a b : RegIx}
  {off : BitVec 9} {op : AtomOp} {ty : AtomTy} {leaf : Leaf} {x : Nat}

/-- The word's lane passes it, and t holds what it has sent. -/
def Sends (s : State) (g : Group) (h : Hdr) (i : Instr) (t : State) : Prop :=
  ∃ g', lanesAfter s g g' h (fun _ ln => ln) ∧ g'.g = g.g ∧ groupAfter s g g' h ∧ exec i s = .next (t.setGroup s.cur.gid g')

/-- The word's lane traps and becomes ln. -/
def Traps (s : State) (g : Group) (h : Hdr) (i : Instr) (ln : Lane) : Prop :=
  ∃ g', exec i s = .next ((numbered s).setGroup s.cur.gid g') ∧ lanesRun s g g' h (fun _ _ => ln) ∧ g'.g = g.g ∧ groupAfter s g g' h

/-- The checks of an address before its translation (R379): alignment, then the range. -/
def AddressTraps (s : State) (g : Group) (h : Hdr) (l : Nat) (gen : Bool) (o : Sys2Proof.Ord) (i : Instr) (ea n acc : Nat) : Prop :=
  (ea % n ≠ 0 → ea < windowBase ∨ gen = false ∨ o = .plain → Traps s g h i ((g.lane l).trap 0x25 acc (BitVec.ofNat 64 ea))) ∧
  (ea % n = 0 → 2 ^ 57 ≤ ea → gen = false ∨ o = .plain → Traps s g h i ((g.lane l).trap 0x26 acc (BitVec.ofNat 64 ea)))

theorem length_fullData (w : Width) (d : RegIx) (g : Group) (l : Nat) : (fullData w d g l).length = w.bytes := by
  cases w
  case b128 => by_cases hd : d = 511#9 <;> simp [fullData, hd, List.range_succ, Width.bytes]
  all_goals exact length_toLE _ _

/-- What ATOM and RED leave on its way. -/
def atomSent (s : State) (g : Group) (h : Hdr) (l x : Nat) (onG : Bool) (a b : RegIx) (op : AtomOp) (ty : AtomTy) (leaf : Leaf) (d : Option RegIx)
    (o : Sys2Proof.Ord) (sc : Scope) : State :=
  accessSent s g h l (atomEa onG a g l) (if ty.wide then 8 else 4) x (pageTaken s leaf (atomEa onG a g l) false)
    (atomAccess op ty d (firstOperand ty.wide b (g.lane l)) (secondOperand op ty.wide b (g.lane l))) [] (strong o) sc

section
variable (hl : lanesOf (active s g h) = [l]) (hst : Still s g h)
include hl hst

theorem ld_addressTraps (hh : (g.lane l).handler = false) (hr : WordReady s g h (.ld h (globalSpace gen) w o sc hint onG d a off)) :
    AddressTraps s g h l gen o (.ld h (globalSpace gen) w o sc hint onG d a off) (accessEa onG a off g l) w.bytes 0 :=
  ⟨fun hal _ => (ld_gives hl hst hr (loadLane_fails (locate_misaligned _ _ _ _ hal))).traps hh,
    fun hal hhigh _ => (ld_gives hl hst hr (loadLane_fails (locate_beyond _ _ _ _ hal hhigh))).traps hh⟩

theorem st_addressTraps (hh : (g.lane l).handler = false) (ht : s.txns = [])
    (hr : WordReady s g h (.st h (globalSpace gen) w o sc hint onG d a off)) :
    AddressTraps s g h l gen o (.st h (globalSpace gen) w o sc hint onG d a off) (accessEa onG a off g l) w.bytes 1 :=
  have hn := length_fullData w d g l
  ⟨fun hal hcore => (st_gives hl hst ht hr hcore (storeLane_fails hn (locate_misaligned _ _ _ _ hal))).traps hh,
    fun hal hhigh hcore => (st_gives hl hst ht hr (.inr hcore) (storeLane_fails hn (locate_beyond _ _ _ _ hal hhigh))).traps hh⟩

theorem ld_sends (ht : s.txns = []) (hr : WordReady s g h (.ld h (globalSpace gen) w o sc hint onG d a off))
    (hal : accessEa onG a off g l % w.bytes = 0) (ha : Translates s g.core (s.ctxOf g) (accessEa onG a off g l) w.bytes .load leaf x) :
    Sends s g h (.ld h (globalSpace gen) w o sc hint onG d a off)
      (accessSent s g h l (accessEa onG a off g l) w.bytes x (pageTaken s leaf (accessEa onG a off g l) (hint == .ef)) (.load w d) [] o sc) :=
  (ld_gives hl hst hr (loadLane_sends hal ha ht)).sends

theorem st_sends (ht : s.txns = []) (hlink : (g.lane l).linkLost = false)
    (hr : WordReady s g h (.st h (globalSpace gen) w o sc hint onG d a off))
    (hal : accessEa onG a off g l % w.bytes = 0) (ha : Translates s g.core (s.ctxOf g) (accessEa onG a off g l) w.bytes .store leaf x)
    (hw : leaf.w = true) (hq : HostCalm s g l .store o sc) :
    Sends s g h (.st h (globalSpace gen) w o sc hint onG d a off)
      (accessSent s g h l (accessEa onG a off g l) w.bytes x (pageTaken s leaf (accessEa onG a off g l) false) .store (fullData w d g l) o sc) :=
  (st_gives hl hst ht hr (.inl ha.below) (storeLane_sends (length_fullData w d g l) hal ha hw ht hr.here hlink hq)).sends

theorem st_readOnly (ht : s.txns = []) (hh : (g.lane l).handler = false) (hr : WordReady s g h (.st h (globalSpace gen) w o sc hint onG d a off))
    (hal : accessEa onG a off g l % w.bytes = 0) (ha : Translates s g.core (s.ctxOf g) (accessEa onG a off g l) w.bytes .store leaf x)
    (hro : leaf.w = false) :
    Traps s g h (.st h (globalSpace gen) w o sc hint onG d a off) ((g.lane l).trap 0x28 1 (BitVec.ofNat 64 (accessEa onG a off g l))) :=
  (st_gives hl hst ht hr (.inl ha.below) (storeLane_readOnly (length_fullData w d g l) hal ha hro)).traps hh

section
variable (ht : s.txns = []) (hlink : (g.lane l).linkLost = false) (hal : atomEa onG a g l % (if ty.wide then 8 else 4) = 0)
  (ha : Translates s g.core (s.ctxOf g) (atomEa onG a g l) (if ty.wide then 8 else 4) .atomic leaf x) (hw : leaf.w = true)
  (hquad : op = .cas → ty.wide = true → b.toNat % 4 = 0)
include ht hlink hal ha hw hquad

theorem atom_sends (hr : WordReady s g h (.atom h op ty o sc onG d a b))
    (hq : HostCalm s g l (.atom op ty (firstOperand ty.wide b (g.lane l)) (secondOperand op ty.wide b (g.lane l)) d) (strong o) sc) :
    Sends s g h (.atom h op ty o sc onG d a b) (atomSent s g h l x onG a b op ty leaf (some d) o sc) := by
  refine (atom_gives hl hst hr ha.below ?_).sends
  rw [atomArgs_eq g l hquad]
  exact atomLane_sends hal ha hw ht hr.here hlink hq

theorem red_sends (hr : WordReady s g h (.red h op ty o sc onG a b)) (hdetr : s.detrHeld g ty sc = false)
    (hq : HostCalm s g l (.red op ty (firstOperand ty.wide b (g.lane l)) (secondOperand op ty.wide b (g.lane l))) (strong o) sc) :
    Sends s g h (.red h op ty o sc onG a b) (atomSent s g h l x onG a b op ty leaf none o sc) := by
  refine (red_gives hl hst hr hdetr ha.below ?_).sends
  rw [atomArgs_eq g l hquad]
  exact atomLane_sends hal ha hw ht hr.here hlink hq

end
end
end

/-- Settles O21: nothing is on its way, so the lane's checked access starts the only transaction, and a release waits for nothing but dirty
lines; the address checks come first, and a store to a page that may not be written traps. -/
theorem memoryAccessesAreSent : Obligations.MemoryAccessesAreSent := by
  intro h w o sc hint onG gen d a b off op ty s g l leaf hl hst ht hh hlink base sp k as trapped sent held addr
  refine ⟨?_, ?_, ?_⟩
  · intro i ea hr
    exact ⟨ld_addressTraps hl hst hh hr, fun hal hlow x ⟨htlb, hcell⟩ _ => ld_sends hl hst ht hr hal ⟨hlow, htlb, hcell⟩⟩
  · intro i ea bs hr
    exact ⟨st_addressTraps hl hst hh ht hr,
      fun hal hlow hw x ⟨htlb, hcell⟩ hq => st_sends hl hst ht hlink hr hal ⟨hlow, htlb, hcell⟩ hw hq,
      fun hal hlow hro x ⟨htlb, hcell⟩ => st_readOnly hl hst ht hh hr hal ⟨hlow, htlb, hcell⟩ hro⟩
  · intro ea n o' R args hal hlow hw hquad x ⟨htlb, hcell⟩
    exact ⟨fun hr hq => atom_sends hl hst ht hlink hal ⟨hlow, htlb, hcell⟩ hw hquad hr hq,
      fun hr hdetr hq => red_sends hl hst ht hlink hal ⟨hlow, htlb, hcell⟩ hw hquad hr hdetr hq⟩

end Sys2Proof.Machine
end

section
/-! SUPPORT. O13: the frame of a floating-point word, over formats with infinities. -/
namespace Sys2Proof.Machine

open Sys2Proof.Safety

/-- A binary format of IEEE 754's interchange kind: sign, biased exponent, fraction, and an exponent of all ones for infinities and NaNs. -/
structure Format.Ieee (F : Format) : Prop where
  prec : 3 ≤ F.p
  biased : 1 ≤ F.bias
  low : F.emin = 1 - F.bias
  high : F.maxQ = F.bias - (F.p - 1 : Int)
  most : F.maxM = 2 ^ F.p - 1
  width : 2 ^ (F.w - 1) = (2 * F.bias + 2) * 2 ^ (F.p - 1)
  infinite : F.infBits = (2 * F.bias + 1) * 2 ^ (F.p - 1)
  largest : F.maxBits + 1 = F.infBits
  wide : 1 ≤ F.w
  signed : F.hasInf = true

theorem ieee_fmt64 : fmt64.Ieee := by constructor <;> decide
theorem ieee_fmt32 : fmt32.Ieee := by constructor <;> decide
theorem ieee_fmt16 : fmt16.Ieee := by constructor <;> decide
theorem ieee_fmtB16 : fmtB16.Ieee := by constructor <;> decide

theorem ieee_formatOf (f : Fmt) : (formatOf f).Ieee := by
  cases f
  · exact ieee_fmt16
  · exact ieee_fmtB16
  · exact ieee_fmt32
  · exact ieee_fmt64

namespace Format.Ieee
variable {F : Format} (hF : F.Ieee)
include hF

theorem decode_nan {x : Nat} (h : F.infBits < x % 2 ^ (F.w - 1)) : F.decode x = .nan (x % 2 ^ F.w) (!x.testBit (F.p - 2)) := by
  have hp := hF.prec
  have hwp : F.p - 1 ≤ F.w - 1 := by
    by_contra hlt
    have h1 := hF.width
    have h2 : 2 ^ (F.w - 1) ≤ 2 ^ (F.p - 1) := Nat.pow_le_pow_right (by norm_num) (by omega)
    nlinarith [Nat.two_pow_pos (F.p - 1)]
  have hbit : (x % 2 ^ (F.w - 1) % 2 ^ (F.p - 1)).testBit (F.p - 2) = x.testBit (F.p - 2) := by
    rw [Nat.testBit_mod_two_pow, Nat.testBit_mod_two_pow, decide_eq_true (by omega), decide_eq_true (by omega)]
    rfl
  simp only [Format.decode, hF.signed, if_true, h, hbit]

theorem decode_number {x : Nat} (h : ¬ F.infBits < x % 2 ^ (F.w - 1)) : (F.decode x).isNan = false := by
  simp only [Format.decode, hF.signed, if_true, h, if_false]
  split
  · rfl
  · split <;> rfl

theorem isNan_decode (x : Nat) : (F.decode x).isNan = true ↔ F.infBits < x % 2 ^ (F.w - 1) := by
  by_cases h : F.infBits < x % 2 ^ (F.w - 1)
  · simp [hF.decode_nan h, h, FVal.isNan]
  · simp [hF.decode_number h, h]

theorem isSig_decode (x : Nat) : (F.decode x).isSig = true ↔ F.infBits < x % 2 ^ (F.w - 1) ∧ x.testBit (F.p - 2) = false := by
  by_cases h : F.infBits < x % 2 ^ (F.w - 1)
  · simp [hF.decode_nan h, h, FVal.isSig]
  · have hn := hF.decode_number h
    cases hd : F.decode x <;> simp_all [FVal.isSig, FVal.isNan]

/-- A subnormal lies below the infinities. -/
theorem subnormal_lt_inf : 2 ^ (F.p - 1) ≤ F.infBits := by
  rw [hF.infinite]
  nlinarith [Nat.two_pow_pos (F.p - 1)]

end Format.Ieee

theorem sgn_eq (F : Format) (n : Bool) : F.sgn n = if n then 2 ^ (F.w - 1) else 0 := rfl

/-- A value of w bits below the sign bit's least multiple is its sign. -/
theorem sgn_of_low_zero {F : Format} {x : Nat} (hw : 1 ≤ F.w) (hx : x < 2 ^ F.w) (h0 : x % 2 ^ (F.w - 1) = 0) :
    F.sgn (x.testBit (F.w - 1)) = x := by
  have hpow : 2 ^ F.w = 2 ^ (F.w - 1) * 2 := by rw [← pow_succ]; congr 1; omega
  have hq : x / 2 ^ (F.w - 1) < 2 := Nat.div_lt_of_lt_mul (by omega)
  have hdiv := Nat.div_add_mod x (2 ^ (F.w - 1))
  rw [h0, Nat.add_zero] at hdiv
  rw [sgn_eq, Nat.testBit_eq_decide_div_mod_eq]
  generalize x / 2 ^ (F.w - 1) = q at hq hdiv ⊢
  obtain rfl | rfl : q = 0 ∨ q = 1 := by omega
  · simpa using hdiv
  · simpa using hdiv

/-- Flushing an operand (R213): a subnormal becomes the zero of its sign, all else stays. -/
theorem flushIn_eq {F : Format} {x : Nat} (hw : 1 ≤ F.w) (hx : x < 2 ^ F.w) :
    F.flushIn x = if 0 < x % 2 ^ (F.w - 1) ∧ x % 2 ^ (F.w - 1) < 2 ^ (F.p - 1) then F.sgn (x.testBit (F.w - 1)) else x := by
  rw [Format.flushIn]
  by_cases h0 : x % 2 ^ (F.w - 1) = 0
  · simp [h0, sgn_of_low_zero hw hx h0]
  · simp [Nat.pos_of_ne_zero h0]

/-- The operand list as a flushing or non-flushing word reads it. -/
def Format.reads (F : Format) (fz : Bool) (xs : List Nat) : List Nat := if fz then xs.map F.flushIn else xs

/-- The frame of R357 on operands of the format's width. -/
theorem op_eq (F : Format) (snt fz : Bool) (xs : List Nat) (fn : List FVal → Nat × BitVec 5) (hx : ∀ x ∈ xs, x < 2 ^ F.w) :
    F.op snt fz xs fn =
      if snt && xs.any fun x => (F.decode x).isSig then none
      else match (F.reads fz xs).find? fun x => (F.decode x).isNan with
        | some x => some (F.quiet x, if xs.any fun x => (F.decode x).isSig then flagNV else 0)
        | none => some (if fz then F.flushOut (fn ((F.reads fz xs).map F.decode)) else fn ((F.reads fz xs).map F.decode)) := by
  have hmod : (xs.map fun x => x % 2 ^ F.w) = xs := by
    conv_rhs => rw [← List.map_id xs]
    exact List.map_congr_left fun x h => Nat.mod_eq_of_lt (hx x h)
  simp only [Format.op, hmod]
  rfl

theorem flushIn_nan {F : Format} (hF : F.Ieee) {x : Nat} (h : F.infBits < x % 2 ^ (F.w - 1)) : F.flushIn x = x := by
  have := hF.subnormal_lt_inf
  rw [Format.flushIn, if_neg (by omega)]

theorem isNan_flushIn {F : Format} (hF : F.Ieee) {x : Nat} (h : ¬ F.infBits < x % 2 ^ (F.w - 1)) : (F.decode (F.flushIn x)).isNan = false := by
  apply hF.decode_number
  rw [Format.flushIn]
  split
  · rw [sgn_eq]; split <;> simp
  · exact h

/-- The first NaN of a list, flushed or not. -/
theorem find_nan_reads {F : Format} (hF : F.Ieee) (fz : Bool) (pre post : List Nat) (x : Nat) (hx : F.infBits < x % 2 ^ (F.w - 1))
    (hpre : ∀ y ∈ pre, ¬ F.infBits < y % 2 ^ (F.w - 1)) :
    ((F.reads fz (pre ++ x :: post)).find? fun x => (F.decode x).isNan) = some x := by
  have hx' := (hF.isNan_decode x).mpr hx
  cases fz
  · rw [Format.reads, if_neg Bool.false_ne_true, List.find?_append, List.find?_eq_none.mpr fun y hy => by
      simpa using hF.decode_number (hpre y hy)]
    simp [hx']
  · rw [Format.reads, if_pos rfl, List.map_append, List.map_cons, List.find?_append, List.find?_eq_none.mpr fun z hz => by
      obtain ⟨y, hy, rfl⟩ := List.mem_map.mp hz
      simpa using isNan_flushIn hF (hpre y hy)]
    simp [flushIn_nan hF hx, hx']

theorem find_number_reads {F : Format} (hF : F.Ieee) (fz : Bool) (xs : List Nat) (h : ∀ y ∈ xs, ¬ F.infBits < y % 2 ^ (F.w - 1)) :
    ((F.reads fz xs).find? fun x => (F.decode x).isNan) = none := by
  rw [List.find?_eq_none]
  intro z hz
  cases fz
  · simpa using hF.decode_number (h z hz)
  · obtain ⟨y, hy, rfl⟩ := List.mem_map.mp hz
    simpa using isNan_flushIn hF (h y hy)

/-- The operands as they are read, one by one. -/
theorem reads_eq_of_forall₂ {F : Format} (hw : 1 ≤ F.w) (fz : Bool) {xs ys : List Nat} (hx : ∀ x ∈ xs, x < 2 ^ F.w)
    (h : List.Forall₂ (fun x y => if fz = true ∧ 0 < x % 2 ^ (F.w - 1) ∧ x % 2 ^ (F.w - 1) < 2 ^ (F.p - 1) then
      y = F.sgn (x.testBit (F.w - 1)) else y = x) xs ys) : F.reads fz xs = ys := by
  induction h with
  | nil => cases fz <;> rfl
  | @cons x y xs ys hxy _ ih =>
    have ih := ih fun z hz => hx z (by simp [hz])
    cases fz
    · simp only [Format.reads, Bool.false_eq_true, if_false, false_and] at ih hxy ⊢
      rw [hxy, ih]
    · simp only [Format.reads, if_true, true_and, List.map_cons] at ih hxy ⊢
      rw [ih, flushIn_eq hw (hx x (by simp))]
      split <;> rename_i hc
      · rw [if_pos hc] at hxy; rw [hxy]
      · rw [if_neg hc] at hxy; rw [hxy]

theorem flushOut_eq (F : Format) (r : Nat × BitVec 5) : F.flushOut r =
    if 0 < r.1 % 2 ^ (F.w - 1) ∧ r.1 % 2 ^ (F.w - 1) < 2 ^ (F.p - 1) then (F.sgn (r.1.testBit (F.w - 1)), r.2 ||| 0x03#5) else r := by
  simp only [Format.flushOut, Nat.pos_iff_ne_zero]
  refine if_congr Iff.rfl ?_ rfl
  rw [BitVec.or_assoc]; rfl

/-- Settles O13: the operands fit their format, so the frame reads them as they stand; the cases are a signalling operand that traps, a first
NaN operand, and numbers alone. -/
theorem floatFrame : Obligations.FloatFrame := by
  intro f snt fz xs fn F hx isNan quiet sub zeroOf out
  have hF : F.Ieee := ieee_formatOf f
  have hany : (xs.any fun x => (F.decode x).isSig) = true ↔ ∃ x ∈ xs, isNan x ∧ quiet x = false := by
    simp only [List.any_eq_true, hF.isSig_decode]; rfl
  have hout : out = _ := op_eq F snt fz xs fn hx
  refine ⟨fun hs hsig => ?_, fun hcalm => ?_⟩
  · rw [hout]
    simp only [hs, hany.mpr hsig, Bool.and_self, if_true]
  · have hgo : (snt && xs.any fun x => (F.decode x).isSig) = false := by
      rcases hcalm with hs | hq
      · rw [hs]; rfl
      · have : ¬ (xs.any fun x => (F.decode x).isSig) = true := fun hc => by
          obtain ⟨x, hxm, hn, hnq⟩ := hany.mp hc
          exact absurd (hq x hxm hn) (by simp [hnq])
        simp [Bool.eq_false_iff.mpr this]
    rw [hgo] at hout
    refine ⟨fun pre x post hxs hn hpre => ?_, fun hnum ys hys => ?_⟩
    · have hfind := find_nan_reads hF fz pre post x hn hpre
      rw [← hxs] at hfind
      refine ⟨if xs.any fun x => (F.decode x).isSig then flagNV else 0, ?_, fun h => ?_, fun h => ?_⟩
      · rw [hout]
        simp only [hfind, Bool.false_eq_true, if_false]
        rfl
      · rw [if_pos (hany.mpr h)]; rfl
      · refine if_neg fun hc => ?_
        obtain ⟨y, hy, hyn, hyq⟩ := hany.mp hc
        exact absurd (h y hy hyn) (by simp [hyq])
    · have hread : F.reads fz xs = ys := reads_eq_of_forall₂ hF.wide fz hx hys
      have hres : out = some (if fz then F.flushOut (fn (ys.map F.decode)) else fn (ys.map F.decode)) := by
        rw [hout]
        have hfind := find_number_reads hF fz xs hnum
        rw [hread] at hfind
        simp only [hread, hfind, Bool.false_eq_true, if_false]
      intro res
      refine ⟨fun ⟨hfz, hsub⟩ => ?_, fun hno => ?_⟩
      · rw [hres, hfz, if_pos rfl, flushOut_eq, if_pos hsub]; rfl
      · rw [hres]
        cases fz
        · rfl
        · rw [if_pos rfl, flushOut_eq, if_neg fun hc => hno ⟨rfl, hc⟩]

end Sys2Proof.Machine
end

section
/-! SUPPORT. O14: rounding of a real number to a grid of numbers, and the grid of the numbers of p bits (R212). -/
namespace Sys2Proof.Machine

open Sys2Proof.Safety

/-! ### Rounding to one of two neighbours -/

/-- The direction in which the magnitude of a negative number is rounded. -/
def mirror (neg : Bool) (dir : Nat) : Nat :=
  match neg, dir with
  | true, 2 => 3
  | true, 3 => 2
  | _, d => d

/-- Does the magnitude a between its neighbours lo and hi go to hi? `odd` says that lo is the odd one. -/
def goesUp (dir : Nat) (odd : Bool) (lo hi a : ℝ) : Prop :=
  match dir with
  | 0 => hi - a < a - lo ∨ (hi - a = a - lo ∧ odd = true)
  | 1 => False
  | 2 => lo < a
  | 3 => False
  | _ => hi - a ≤ a - lo

/-- lo and hi are neighbours in a symmetric set of numbers, one of them even, and a lies at lo or between them. -/
structure Neighbours (S even : ℝ → Prop) (odd : Bool) (lo hi a : ℝ) : Prop where
  low : S lo
  high : S hi
  nonneg : 0 ≤ lo
  le : lo ≤ a
  lt : a < hi
  gap : ∀ y, S y → |y| ≤ lo ∨ hi ≤ |y|
  evenLow : odd = false → even lo
  evenHigh : odd = true → even hi

/-- The neighbour that a is rounded to. -/
def neighbour (up : Bool) (lo hi : ℝ) : ℝ := if up then hi else lo

section
variable {S even : ℝ → Prop} {odd up : Bool} {lo hi a : ℝ} {dir : Nat} (h : Neighbours S even odd lo hi a)
include h

theorem Neighbours.apart {y : ℝ} (hy : S y) : y ≤ lo ∨ hi ≤ y := by
  have := h.nonneg
  have := h.le
  have := h.lt
  rcases h.gap y hy with hc | hc
  · exact .inl ((le_abs_self y).trans hc)
  · rcases abs_cases y with ⟨he, -⟩ | ⟨he, -⟩
    · exact .inr (by linarith)
    · exact .inl (by linarith)

/-- No member is nearer than the nearer neighbour. -/
theorem Neighbours.nearest {r : ℝ} (hr : r = lo ∧ a - lo ≤ hi - a ∨ r = hi ∧ hi - a ≤ a - lo) (y : ℝ) (hy : S y) : |a - r| ≤ |a - y| := by
  have := h.le
  have := h.lt
  rcases h.apart hy with hc | hc <;> rcases hr with ⟨rfl, hd⟩ | ⟨rfl, hd⟩
  · rw [abs_of_nonneg (by linarith), abs_of_nonneg (by linarith)]; linarith
  · rw [abs_of_neg (by linarith), abs_of_nonneg (by linarith)]; linarith
  · rw [abs_of_nonneg (by linarith), abs_of_neg (by linarith)]; linarith
  · rw [abs_of_neg (by linarith), abs_of_neg (by linarith)]; linarith

/-- Only the other neighbour can be as near, and then a lies half way. -/
theorem Neighbours.tie {r y : ℝ} (hr : r = lo ∧ a - lo ≤ hi - a ∨ r = hi ∧ hi - a ≤ a - lo) (hy : S y) (he : |a - y| = |a - r|)
    (hne : y ≠ r) : hi - a = a - lo ∧ (r = lo → y = hi) ∧ (r = hi → y = lo) := by
  have := h.le
  have := h.lt
  rcases h.apart hy with hc | hc <;> rcases hr with ⟨rfl, hd⟩ | ⟨rfl, hd⟩
  · rw [abs_of_nonneg (by linarith), abs_of_nonneg (by linarith)] at he
    exact absurd (by linarith) hne
  · rw [abs_of_nonneg (by linarith), abs_of_neg (by linarith)] at he
    exact ⟨by linarith, fun _ => by linarith, fun _ => by linarith⟩
  · rw [abs_of_neg (by linarith), abs_of_nonneg (by linarith)] at he
    exact ⟨by linarith, fun _ => by linarith, fun _ => by linarith⟩
  · rw [abs_of_neg (by linarith), abs_of_neg (by linarith)] at he
    exact absurd (by linarith) hne

/-- Rounding to nearest, ties to even. -/
theorem Neighbours.roundsTo_even (hup : up = true ↔ goesUp 0 odd lo hi a) : RoundsTo S even 0 a (neighbour up lo hi) := by
  cases up
  · have hn : ¬ (hi - a < a - lo ∨ (hi - a = a - lo ∧ odd = true)) := fun hc => Bool.false_ne_true (hup.mpr hc)
    push Not at hn
    have hr : lo = lo ∧ a - lo ≤ hi - a ∨ lo = hi ∧ hi - a ≤ a - lo := .inl ⟨rfl, hn.1⟩
    refine ⟨h.low, h.nearest hr, fun y hy he hne => ?_⟩
    exact h.evenLow (by simpa using hn.2 (h.tie hr hy he hne).1)
  · have hn : hi - a < a - lo ∨ (hi - a = a - lo ∧ odd = true) := hup.mp rfl
    have hr : hi = lo ∧ a - lo ≤ hi - a ∨ hi = hi ∧ hi - a ≤ a - lo := .inr ⟨rfl, hn.elim le_of_lt fun x => x.1.le⟩
    refine ⟨h.high, h.nearest hr, fun y hy he hne => ?_⟩
    obtain ⟨ht, -⟩ := h.tie hr hy he hne
    exact h.evenHigh (hn.elim (fun hc => absurd ht hc.ne) fun x => x.2)

/-- Rounding to nearest, ties away from zero. -/
theorem Neighbours.roundsTo_away (hup : up = true ↔ hi - a ≤ a - lo) : RoundsTo S even 4 a (neighbour up lo hi) := by
  have := h.nonneg
  have := h.le
  have := h.lt
  cases up
  · have hn : ¬ hi - a ≤ a - lo := fun hc => Bool.false_ne_true (hup.mpr hc)
    have hr : lo = lo ∧ a - lo ≤ hi - a ∨ lo = hi ∧ hi - a ≤ a - lo := .inl ⟨rfl, by linarith⟩
    refine ⟨h.low, h.nearest hr, fun y hy he => ?_⟩
    by_cases hne : y = lo
    · rw [hne]; exact le_rfl
    · exact absurd (h.tie hr hy he hne).1.le hn
  · have hr : hi = lo ∧ a - lo ≤ hi - a ∨ hi = hi ∧ hi - a ≤ a - lo := .inr ⟨rfl, hup.mp rfl⟩
    refine ⟨h.high, h.nearest hr, fun y hy he => ?_⟩
    by_cases hne : y = hi
    · rw [hne]; exact le_rfl
    · rw [(h.tie hr hy he hne).2.2 rfl]
      show |lo| ≤ |hi|
      rw [abs_of_nonneg h.nonneg, abs_of_nonneg (by linarith)]
      linarith

/-- The neighbour that `goesUp` names is a rounded to the set. -/
theorem Neighbours.roundsTo (hdir : dir < 5) (hup : up = true ↔ goesUp dir odd lo hi a) : RoundsTo S even dir a (neighbour up lo hi) := by
  have hnn := h.nonneg
  have hle := h.le
  have hlt := h.lt
  interval_cases dir
  · exact h.roundsTo_even hup
  · have : up = false := Bool.eq_false_iff.mpr fun hc => hup.mp hc
    subst this
    refine ⟨h.low, ?_, mul_nonneg hnn (hnn.trans hle), fun y hy hya => ?_⟩
    · show |lo| ≤ |a|
      rwa [abs_of_nonneg hnn, abs_of_nonneg (hnn.trans hle)]
    · show |y| ≤ |lo|
      rw [abs_of_nonneg hnn]
      rw [abs_of_nonneg (hnn.trans hle)] at hya
      exact (h.gap y hy).resolve_right (by linarith)
  · cases up
    · have : ¬ lo < a := fun hc => Bool.false_ne_true (hup.mpr hc)
      exact ⟨h.low, show a ≤ lo by linarith, fun y _ hy => show lo ≤ y by linarith⟩
    · have : lo < a := hup.mp rfl
      exact ⟨h.high, show a ≤ hi by linarith, fun y hy hya => (h.apart hy).resolve_left (by linarith)⟩
  · have : up = false := Bool.eq_false_iff.mpr fun hc => hup.mp hc
    subst this
    exact ⟨h.low, hle, fun y hy hya => (h.apart hy).resolve_right (by linarith)⟩
  · exact h.roundsTo_away hup

end

/-- A set of numbers and its even members are symmetric about zero. -/
structure Symmetric (S even : ℝ → Prop) : Prop where
  neg : ∀ y, S y → S (-y)
  even : ∀ y, even y → even (-y)

/-- Rounding a number and its negative are mirror images. -/
theorem roundsTo_neg {S even : ℝ → Prop} {dir : Nat} {a r : ℝ} (hs : Symmetric S even) (hdir : dir < 5) (h : RoundsTo S even (mirror true dir) a r) :
    RoundsTo S even dir (-a) (-r) := by
  have habs : ∀ y, |-a - y| = |a - -y| := fun y => by rw [← abs_neg]; congr 1; ring
  interval_cases dir
  · obtain ⟨hr, hn, he⟩ := h
    refine ⟨hs.neg r hr, fun y hy => ?_, fun y hy hd hne => hs.even r (he (-y) (hs.neg y hy) ?_ fun hc => hne (by rw [← hc, neg_neg]))⟩
    · rw [habs, habs, neg_neg]; exact hn (-y) (hs.neg y hy)
    · rw [habs, habs, neg_neg] at hd; exact hd
  · obtain ⟨hr, h1, h2, h3⟩ := h
    refine ⟨hs.neg r hr, by rwa [abs_neg, abs_neg], by rwa [neg_mul_neg], fun y hy hya => ?_⟩
    rw [abs_neg] at hya ⊢
    exact h3 y hy hya
  · obtain ⟨hr, h1, h2⟩ := h
    exact ⟨hs.neg r hr, neg_le_neg h1, fun y hy hya => by have := h2 (-y) (hs.neg y hy) (by linarith); linarith⟩
  · obtain ⟨hr, h1, h2⟩ := h
    exact ⟨hs.neg r hr, neg_le_neg h1, fun y hy hya => by have := h2 (-y) (hs.neg y hy) (by linarith); linarith⟩
  · obtain ⟨hr, hn, he⟩ := h
    refine ⟨hs.neg r hr, fun y hy => ?_, fun y hy hd => ?_⟩
    · rw [habs, habs, neg_neg]; exact hn (-y) (hs.neg y hy)
    · rw [habs, habs, neg_neg] at hd
      simpa using he (-y) (hs.neg y hy) hd

theorem mirror_lt {neg : Bool} {dir : Nat} (hdir : dir < 5) : mirror neg dir < 5 := by
  cases neg <;> interval_cases dir <;> decide

theorem mirror_mirror {neg : Bool} {dir : Nat} (hdir : dir < 5) : mirror neg (mirror neg dir) = dir := by
  cases neg <;> interval_cases dir <;> rfl

/-- A number with a sign. -/
def signedReal (neg : Bool) (a : ℝ) : ℝ := if neg then -a else a

@[simp] theorem abs_signedReal (neg : Bool) (a : ℝ) : |signedReal neg a| = |a| := by
  cases neg
  · rfl
  · exact abs_neg a

theorem signedReal_inj (neg : Bool) (a b : ℝ) : signedReal neg a = signedReal neg b ↔ a = b := by
  cases neg
  · rfl
  · exact neg_inj

/-- Rounding a number with a sign is rounding its magnitude in the mirrored direction. -/
theorem roundsTo_signed {S even : ℝ → Prop} {dir : Nat} {a r : ℝ} {neg : Bool} (hs : Symmetric S even) (hdir : dir < 5)
    (h : RoundsTo S even (mirror neg dir) a r) : RoundsTo S even dir (signedReal neg a) (signedReal neg r) := by
  cases neg
  · have : mirror false dir = dir := by interval_cases dir <;> rfl
    rw [this] at h; exact h
  · exact roundsTo_neg hs hdir h

theorem roundsTo_unsigned {S even : ℝ → Prop} {dir : Nat} {a y : ℝ} {neg : Bool} (hs : Symmetric S even) (hdir : dir < 5)
    (h : RoundsTo S even dir (signedReal neg a) y) : RoundsTo S even (mirror neg dir) a (signedReal neg y) := by
  have := roundsTo_signed (dir := mirror neg dir) (neg := neg) hs (mirror_lt hdir) (by rwa [mirror_mirror hdir])
  cases neg
  · exact this
  · simpa [signedReal] using this

/-! ### Rounding keeps members in order -/

/-- No rounding of a passes a member of the set below a. -/
theorem le_abs_of_roundsTo {S even : ℝ → Prop} {dir : Nat} {a c y : ℝ} (hdir : dir < 5) (h : RoundsTo S even dir a y) (hc : S c) (h0 : 0 ≤ c)
    (hca : c ≤ a) : c ≤ |y| := by
  have near : |a - y| ≤ |a - c| → c ≤ |y| := fun hn => by
    rw [abs_of_nonneg (a := a - c) (by linarith)] at hn
    linarith [le_abs_self (a - y), le_abs_self y]
  interval_cases dir
  · exact near (h.2.1 c hc)
  · have := h.2.2.2 c hc (by rwa [abs_of_nonneg h0, abs_of_nonneg (h0.trans hca)])
    rwa [abs_of_nonneg h0] at this
  · exact hca.trans (h.2.1.trans (le_abs_self y))
  · exact (h.2.2 c hc hca).trans (le_abs_self y)
  · exact near (h.2.1 c hc)

/-- Where a goes to the upper neighbour and the lower one is not even, every rounding of a does. -/
theorem Neighbours.roundsTo_high {S even : ℝ → Prop} {odd : Bool} {lo hi a y : ℝ} {dir : Nat} (h : Neighbours S even odd lo hi a)
    (hdir : dir < 5) (hup : goesUp dir odd lo hi a) (hlow : ¬ even lo) (hy : RoundsTo S even dir a y) : hi ≤ y := by
  have hle := h.le
  have hlt := h.lt
  have hnn := h.nonneg
  refine (h.apart hy.1).resolve_left fun hyl => ?_
  have hfar : |a - y| = a - y := abs_of_nonneg (by linarith)
  have hnear : |a - hi| = hi - a := by rw [abs_of_neg (by linarith)]; ring
  interval_cases dir
  · have hd := hy.2.1 hi h.high
    rw [hfar, hnear] at hd
    rcases hup with hc | ⟨ht, -⟩
    · linarith
    · have : y = lo := by linarith
      subst this
      exact hlow (hy.2.2 hi h.high (by rw [hfar, hnear, ht]) (by linarith))
  · exact hup
  · exact absurd hy.2.1 (by have : lo < a := hup; linarith)
  · exact hup
  · have hd := hy.2.1 hi h.high
    rw [hfar, hnear] at hd
    have hc : hi - a ≤ a - lo := hup
    have hyhi := hy.2.2 hi h.high (by rw [hfar, hnear]; linarith)
    have : y = lo := by linarith
    rw [this, abs_of_nonneg hnn, abs_of_nonneg (by linarith)] at hyhi
    linarith

/-! ### The numbers of p bits -/

theorem symmetric_fits (p : Nat) (low : Option Int) : Symmetric (Fits p low) (FitsEven p low) where
  neg := by
    rintro y ⟨k, t, rfl, hk, hl⟩
    exact ⟨-k, t, by push_cast; ring, by rwa [Int.natAbs_neg], hl⟩
  even := by
    rintro y ⟨k, t, rfl, hk, hl, hn, he⟩
    refine ⟨-k, t, by push_cast; ring, by rwa [Int.natAbs_neg], hl, ?_, by omega⟩
    rwa [Int.natAbs_neg, neg_eq_zero]

theorem two_zpow_pos (q : Int) : (0 : ℝ) < 2 ^ q := zpow_pos (by norm_num) q

theorem two_zpow_add_nat (q : Int) (n : Nat) : (2 : ℝ) ^ (q + n) = 2 ^ n * 2 ^ q := by
  rw [zpow_add₀ (by norm_num), zpow_natCast, mul_comm]

/-- A power of two as a multiple of a smaller one. -/
theorem two_zpow_split {q t : Int} (h : q ≤ t) : (2 : ℝ) ^ t = (2 ^ (t - q).toNat : Nat) * 2 ^ q := by
  have : t = q + ((t - q).toNat : Int) := by omega
  conv_lhs => rw [this]
  rw [two_zpow_add_nat]; push_cast; rfl

/-- n multiples of 2^q stand in a grid of p bits: the exponent is the lowest one, or n has p bits. -/
structure OnGrid (p : Nat) (low : Option Int) (q : Int) (n : Nat) : Prop where
  bits : 2 ≤ p
  lt : n < 2 ^ p
  above : ∀ t, low = some t → t ≤ q
  full : low = some q ∨ 2 ^ (p - 1) ≤ n

section
variable {p : Nat} {low : Option Int} {q : Int} {n : Nat} (h : OnGrid p low q n)
include h

theorem OnGrid.half : 2 ^ p = 2 * 2 ^ (p - 1) := by
  have := h.bits
  rw [← pow_succ']; congr 1; omega

theorem OnGrid.half_even : 2 ^ (p - 1) % 2 = 0 := by
  have := h.bits
  obtain ⟨k, rfl⟩ : ∃ k, p = k + 2 := ⟨p - 2, by omega⟩
  simp [pow_succ]

theorem OnGrid.fits : Fits p low (n * 2 ^ q) := ⟨n, q, by push_cast; rfl, by simpa using h.lt, fun t ht => h.above t ht⟩

theorem OnGrid.fits_even (he : n % 2 = 0) : FitsEven p low (n * 2 ^ q) := by
  refine ⟨n, q, by push_cast; rfl, by simpa using h.lt, fun t ht => h.above t ht, ?_, by omega⟩
  rcases h.full with hl | hl
  · exact .inr (.inl hl)
  · exact .inl (by simpa using hl)

/-- The next multiple may have a bit more, and then it is a power of two. -/
theorem OnGrid.next_pow (hn : ¬ n + 1 < 2 ^ p) : ((n : ℝ) + 1) * 2 ^ q = ((2 ^ (p - 1) : Nat) : ℤ) * 2 ^ (q + 1) := by
  have heq : n + 1 = 2 ^ p := by have := h.lt; omega
  have hcast : ((n : ℝ) + 1) = (2 ^ p : Nat) := by rw [← heq]; push_cast; ring
  rw [hcast, h.half, zpow_add₀ (by norm_num)]
  push_cast; ring

theorem OnGrid.fits_next : Fits p low ((n + 1) * 2 ^ q) := by
  by_cases hn : n + 1 < 2 ^ p
  · exact ⟨n + 1, q, by push_cast; rfl, by omega, fun t ht => h.above t ht⟩
  · refine ⟨(2 ^ (p - 1) : Nat), q + 1, h.next_pow hn, ?_, fun t ht => by have := h.above t ht; omega⟩
    have := h.half
    rw [Int.natAbs_natCast]; have := Nat.two_pow_pos (p - 1); omega

theorem OnGrid.fits_even_next (he : n % 2 = 1) : FitsEven p low ((n + 1) * 2 ^ q) := by
  by_cases hn : n + 1 < 2 ^ p
  · refine ⟨n + 1, q, by push_cast; rfl, by omega, fun t ht => h.above t ht, ?_, by omega⟩
    rcases h.full with hl | hl
    · exact .inr (.inl hl)
    · exact .inl (by omega)
  · refine ⟨(2 ^ (p - 1) : Nat), q + 1, h.next_pow hn, ?_, fun t ht => by have := h.above t ht; omega, ?_, ?_⟩
    · have := h.half
      rw [Int.natAbs_natCast]; have := Nat.two_pow_pos (p - 1); omega
    · exact .inl (by rw [Int.natAbs_natCast])
    · have := h.half_even
      omega

/-- No number of the grid lies between two multiples that follow each other. -/
theorem OnGrid.gap (y : ℝ) (hy : Fits p low y) : |y| ≤ n * 2 ^ q ∨ (n + 1) * 2 ^ q ≤ |y| := by
  obtain ⟨k, t, rfl, hk, hl⟩ := hy
  have hq := two_zpow_pos q
  have habs : |(k : ℝ) * 2 ^ t| = k.natAbs * 2 ^ t := by rw [abs_mul, abs_of_pos (two_zpow_pos t), Nat.cast_natAbs, Int.cast_abs]
  rw [habs]
  by_cases hqt : q ≤ t
  · rw [two_zpow_split hqt, ← mul_assoc, ← Nat.cast_mul]
    rcases Nat.lt_or_ge n (k.natAbs * 2 ^ (t - q).toNat) with hlt | hge
    · exact .inr (mul_le_mul_of_nonneg_right (by exact_mod_cast hlt) hq.le)
    · exact .inl (mul_le_mul_of_nonneg_right (by exact_mod_cast hge) hq.le)
  · have hfull : 2 ^ (p - 1) ≤ n := h.full.resolve_left fun hc => hqt (hl q hc)
    have hsplit := two_zpow_split (q := t) (t := q) (by omega)
    refine .inl ?_
    rw [hsplit, ← mul_assoc, ← Nat.cast_mul]
    refine mul_le_mul_of_nonneg_right ?_ (two_zpow_pos t).le
    have h2 : 2 ≤ 2 ^ (q - t).toNat := by
      calc 2 = 2 ^ 1 := rfl
        _ ≤ 2 ^ (q - t).toNat := Nat.pow_le_pow_right (by norm_num) (by omega)
    have hkn : k.natAbs ≤ n * 2 ^ (q - t).toNat := by
      have := h.half
      have := Nat.mul_le_mul hfull h2
      omega
    exact_mod_cast hkn

/-- A number at one multiple or before the next lies between neighbours. -/
theorem OnGrid.neighbours {a : ℝ} (hle : n * 2 ^ q ≤ a) (hlt : a < (n + 1) * 2 ^ q) :
    Neighbours (Fits p low) (FitsEven p low) (n % 2 == 1) (n * 2 ^ q) ((n + 1) * 2 ^ q) a where
  low := h.fits
  high := h.fits_next
  nonneg := mul_nonneg n.cast_nonneg (two_zpow_pos q).le
  le := hle
  lt := hlt
  gap := h.gap
  evenLow hodd := h.fits_even (by simpa using hodd)
  evenHigh hodd := h.fits_even_next (by simpa using hodd)

end

/-- Above no lowest exponent an odd significand of p bits is not even. -/
theorem OnGrid.not_even {p : Nat} {q : Int} {n : Nat} (h : OnGrid p none q n) (hodd : n % 2 = 1) : ¬ FitsEven p none (n * 2 ^ q) := by
  rintro ⟨k, t, hkt, hk, -, hn, he⟩
  have hfull : 2 ^ (p - 1) ≤ n := h.full.resolve_left (by simp)
  have hhalf := h.half
  have hpos := Nat.two_pow_pos (p - 1)
  have hlt := h.lt
  have hn0 : (n : ℝ) * 2 ^ q ≠ 0 := mul_ne_zero (by exact_mod_cast (by omega : n ≠ 0)) (two_zpow_pos q).ne'
  have hk2 : 2 ^ (p - 1) ≤ k.natAbs := hn.resolve_right (by rintro (hc | hc); exacts [(nomatch hc), hn0 hc])
  have habs : (n : ℝ) * 2 ^ q = k.natAbs * 2 ^ t := by
    rw [Nat.cast_natAbs, Int.cast_abs, ← abs_of_pos (two_zpow_pos t), ← abs_mul, ← hkt,
      abs_of_nonneg (mul_nonneg n.cast_nonneg (two_zpow_pos q).le)]
  rcases lt_trichotomy q t with hqt | rfl | hqt
  · rw [two_zpow_split hqt.le, ← mul_assoc, ← Nat.cast_mul] at habs
    have : n = k.natAbs * 2 ^ (t - q).toNat := by exact_mod_cast mul_right_cancel₀ (two_zpow_pos q).ne' habs
    have h2 : 2 ^ 1 ≤ 2 ^ (t - q).toNat := Nat.pow_le_pow_right (by norm_num) (by omega)
    have := Nat.mul_le_mul hk2 h2
    omega
  · have : n = k.natAbs := by exact_mod_cast mul_right_cancel₀ (two_zpow_pos q).ne' habs
    omega
  · rw [two_zpow_split hqt.le, ← mul_assoc, ← Nat.cast_mul] at habs
    have : n * 2 ^ (q - t).toNat = k.natAbs := by exact_mod_cast mul_right_cancel₀ (two_zpow_pos t).ne' habs
    have h2 : 2 ^ 1 ≤ 2 ^ (q - t).toNat := Nat.pow_le_pow_right (by norm_num) (by omega)
    have := Nat.mul_le_mul hfull h2
    omega

end Sys2Proof.Machine
end

section
/-! SUPPORT. O14: what `quantise` and `Format.round` do to an exact value (R210, R212, R213). -/
namespace Sys2Proof.Machine

open Sys2Proof.Safety

/-! ### A magnitude as a multiple of a quantum -/

/-- a is m × 2^e, or a little more when sticky. -/
def Near (m : Nat) (e : Int) (sticky : Bool) (a : ℝ) : Prop :=
  if sticky then m * 2 ^ e < a ∧ a < (m + 1) * 2 ^ e else a = m * 2 ^ e

/-- The rounding of a to a multiple of 2^q: the multiple below it, whether the next one is taken, and whether a is no multiple. -/
structure Quantised (dir : Nat) (neg : Bool) (a : ℝ) (q : Int) (n : Nat) (up inexact : Bool) : Prop where
  le : n * 2 ^ q ≤ a
  lt : a < (n + 1) * 2 ^ q
  side : up = true ↔ goesUp (mirror neg dir) (n % 2 == 1) (n * 2 ^ q) ((n + 1) * 2 ^ q) a
  exact : inexact = true ↔ a ≠ n * 2 ^ q

/-- Which neighbour is taken does not depend on the unit. -/
theorem goesUp_scale {dir : Nat} {odd : Bool} {lo u c h : ℝ} (hu : 0 < u) :
    goesUp dir odd lo (lo + u * h) (lo + u * c) ↔ goesUp dir odd 0 h c := by
  have h1 : lo + u * h - (lo + u * c) = u * (h - c) := by ring
  have h2 : lo + u * c - lo = u * (c - 0) := by ring
  have h3 : lo < lo + u * c ↔ 0 < c := by rw [lt_add_iff_pos_right, mul_pos_iff_of_pos_left hu]
  match dir with
  | 0 => simp only [goesUp, h1, h2, mul_lt_mul_iff_right₀ hu, mul_right_inj' hu.ne']
  | 1 => rfl
  | 2 => exact h3
  | 3 => rfl
  | _ + 4 => simp only [goesUp, h1, h2, mul_le_mul_iff_right₀ hu]

/-- The choice of R212 on the bits below the quantum, of which `rem` are given and `sticky` says whether there are more. -/
theorem roundUp_iff {dir : Nat} {neg odd sticky : Bool} {rem half : Nat} {c : ℝ} (hdir : dir < 5) (hhalf : 0 < half)
    (hc : if sticky then (rem : ℝ) < c ∧ c < rem + 1 else c = rem) :
    roundUp? dir neg odd rem half sticky = true ↔ goesUp (mirror neg dir) odd 0 ((2 * half : Nat) : ℝ) c := by
  have hnat : half ≠ 0 := by omega
  have habove : 0 < c ↔ rem ≠ 0 ∨ sticky = true := by
    cases sticky
    · simp only [Bool.false_eq_true, if_false] at hc
      rw [hc]; simp [Nat.pos_iff_ne_zero]
    · simp only [if_true] at hc
      simp [lt_of_le_of_lt rem.cast_nonneg hc.1]
  have hmore : (half : ℝ) < c ↔ half < rem ∨ (rem = half ∧ sticky = true) := by
    cases sticky
    · simp only [Bool.false_eq_true, if_false] at hc
      rw [hc]; simp
    · simp only [if_true] at hc
      simp only [and_true]
      constructor
      · intro h
        have : half < rem + 1 := by exact_mod_cast h.trans hc.2
        omega
      · intro h
        have : half ≤ rem := by omega
        exact lt_of_le_of_lt (by exact_mod_cast this) hc.1
  have heven : (half : ℝ) = c ↔ rem = half ∧ sticky = false := by
    cases sticky
    · simp only [Bool.false_eq_true, if_false] at hc
      rw [hc]; simp [eq_comm]
    · simp only [if_true] at hc
      constructor
      · intro h
        rw [← h] at hc
        have h1 : rem < half := by exact_mod_cast hc.1
        have h2 : half < rem + 1 := by exact_mod_cast hc.2
        omega
      · simp
  have hcast : ((2 * half : Nat) : ℝ) - c < c - 0 ↔ (half : ℝ) < c := by push_cast; constructor <;> intro h <;> linarith
  have hcast' : ((2 * half : Nat) : ℝ) - c = c - 0 ↔ (half : ℝ) = c := by push_cast; constructor <;> intro h <;> linarith
  have hcast'' : ((2 * half : Nat) : ℝ) - c ≤ c - 0 ↔ (half : ℝ) < c ∨ (half : ℝ) = c := by
    rw [← le_iff_lt_or_eq]; push_cast; constructor <;> intro h <;> linarith
  interval_cases dir
  · cases neg <;> simp only [mirror, goesUp, hcast, hcast', hmore, heven, roundUp?] <;> cases sticky <;> cases odd <;> simp [hnat]
  · cases neg <;> simp [mirror, goesUp, roundUp?]
  · cases neg <;> simp [mirror, goesUp, roundUp?, habove]
  · cases neg <;> simp [mirror, goesUp, roundUp?, habove]
  · cases neg <;> simp only [mirror, goesUp, hcast'', hmore, heven, roundUp?] <;> cases sticky <;> simp [hnat] <;> omega

theorem not_goesUp_at {dir : Nat} {odd : Bool} {lo hi : ℝ} (h : lo < hi) : ¬ goesUp dir odd lo hi lo := by
  match dir with
  | 0 => simp only [goesUp]; rintro (hc | ⟨hc, -⟩) <;> linarith
  | 1 => exact id
  | 2 => exact lt_irrefl lo
  | 3 => exact id
  | _ + 4 => simp only [goesUp]; intro hc; linarith

/-- A sticky magnitude is quantised above its own last bit; then `quantise` gives the multiple that the direction asks for. -/
theorem quantise_spec {dir : Nat} {neg sticky : Bool} {m : Nat} {e q : Int} {a : ℝ} (hdir : dir < 5) (ha : Near m e sticky a)
    (hs : sticky = true → e < q) : ∃ n up, (quantise dir neg m e q sticky).1 = n + b2n up ∧
      Quantised dir neg a q n up (quantise dir neg m e q sticky).2 := by
  by_cases hqe : q ≤ e
  · have : sticky = false := Bool.eq_false_iff.mpr fun hc => by have := hs hc; omega
    subst this
    have ha' : a = (m * 2 ^ (e - q).toNat : Nat) * 2 ^ q := by
      rw [show a = m * 2 ^ e from ha, two_zpow_split hqe]; push_cast; ring
    have hq := two_zpow_pos q
    have hlt : ((m * 2 ^ (e - q).toNat : Nat) : ℝ) * 2 ^ q < ((m * 2 ^ (e - q).toNat : Nat) + 1) * 2 ^ q := by nlinarith
    refine ⟨m * 2 ^ (e - q).toNat, false, by rw [quantise, if_pos hqe]; rfl, ha'.ge, by rw [ha']; exact hlt, ?_, ?_⟩
    · rw [ha']
      exact ⟨fun hc => absurd hc Bool.false_ne_true, fun hc => absurd hc (not_goesUp_at hlt)⟩
    · rw [quantise, if_pos hqe]
      simp [ha']
  · obtain ⟨k, hk⟩ : ∃ k : Nat, (q - e).toNat = k + 1 := ⟨(q - e).toNat - 1, by omega⟩
    have hu := two_zpow_pos e
    have hpow : 2 ^ (q - e).toNat = 2 * 2 ^ k := by rw [hk, pow_succ']
    have hq : (2 : ℝ) ^ q = (2 ^ (q - e).toNat : Nat) * 2 ^ e := two_zpow_split (by omega)
    let n := m / 2 ^ (q - e).toNat
    let rem := m % 2 ^ (q - e).toNat
    have hm : (m : ℝ) = n * (2 ^ (q - e).toNat : Nat) + rem := by
      have := Nat.div_add_mod' m (2 ^ (q - e).toNat)
      exact_mod_cast this.symm
    have hrem : (rem : ℝ) + 1 ≤ (2 ^ (q - e).toNat : Nat) := by
      exact_mod_cast Nat.mod_lt m (Nat.two_pow_pos _)
    -- what a has above the multiple below it, in units of 2^e
    obtain ⟨c, hc⟩ : ∃ c : ℝ, a = n * 2 ^ q + 2 ^ e * c := ⟨(a - n * 2 ^ q) / 2 ^ e, by field_simp; ring⟩
    have hbits : if sticky then (rem : ℝ) < c ∧ c < rem + 1 else c = rem := by
      have hsum : a = 2 ^ e * (n * (2 ^ (q - e).toNat : Nat) + c) := by rw [hc, hq]; ring
      cases sticky
      · simp only [Near, Bool.false_eq_true, if_false] at ha ⊢
        have : 2 ^ e * (n * (2 ^ (q - e).toNat : Nat) + c) = 2 ^ e * (m : ℝ) := by rw [← hsum, ha]; ring
        have := mul_left_cancel₀ hu.ne' this
        linarith
      · simp only [Near, if_true] at ha ⊢
        have h1 : 2 ^ e * (m : ℝ) < 2 ^ e * (n * (2 ^ (q - e).toNat : Nat) + c) := by rw [← hsum]; linarith [ha.1]
        have h2 : 2 ^ e * (n * (2 ^ (q - e).toNat : Nat) + c) < 2 ^ e * ((m : ℝ) + 1) := by rw [← hsum]; linarith [ha.2]
        have := lt_of_mul_lt_mul_left h1 hu.le
        have := lt_of_mul_lt_mul_left h2 hu.le
        exact ⟨by linarith, by linarith⟩
    have hrange : (0 ≤ c ∧ c < (2 ^ (q - e).toNat : Nat)) ∧ ((rem ≠ 0 ∨ sticky = true) ↔ c ≠ 0) := by
      have h0 : (0 : ℝ) ≤ rem := rem.cast_nonneg
      cases sticky
      · simp only [Bool.false_eq_true, if_false] at hbits
        rw [hbits]; exact ⟨⟨h0, by linarith⟩, by simp⟩
      · simp only [if_true] at hbits
        exact ⟨⟨by linarith [hbits.1], by linarith [hbits.2]⟩, by simp only [or_true, true_iff]; exact (lt_of_le_of_lt h0 hbits.1).ne'⟩
    have hnext : ((n : ℝ) + 1) * 2 ^ q = n * 2 ^ q + 2 ^ e * ((2 * 2 ^ k : Nat) : ℝ) := by rw [add_mul, one_mul, ← hpow, hq]; ring
    refine ⟨n, roundUp? dir neg (n % 2 == 1) rem (2 ^ k) sticky, ?_, ?_, ?_, ?_, ?_⟩
    · rw [quantise, if_neg hqe, hk]; simp only [Nat.add_sub_cancel]; rw [← hk]
    · rw [hc]; nlinarith [hrange.1.1]
    · rw [hc, hnext, ← hpow]
      linarith [mul_lt_mul_of_pos_left hrange.1.2 hu]
    · rw [roundUp_iff hdir (Nat.two_pow_pos k) hbits, hnext, hc, goesUp_scale hu]
    · rw [quantise, if_neg hqe]
      have : a ≠ n * 2 ^ q ↔ c ≠ 0 := by rw [hc]; simp [hu.ne']
      rw [this, ← hrange.2]
      simp [rem]

/-- A quantised magnitude stands where the direction rounds it, among the numbers of p bits. -/
theorem Quantised.roundsTo {dir : Nat} {neg : Bool} {a : ℝ} {q : Int} {n : Nat} {up inexact : Bool} {p : Nat} {low : Option Int}
    (h : Quantised dir neg a q n up inexact) (hg : OnGrid p low q n) (hdir : dir < 5) :
    RoundsTo (Fits p low) (FitsEven p low) dir (signedReal neg a) (signedReal neg ((n + b2n up : Nat) * 2 ^ q)) := by
  have key := (hg.neighbours h.le h.lt).roundsTo (mirror_lt (neg := neg) hdir) h.side
  have : neighbour up ((n : ℝ) * 2 ^ q) ((n + 1) * 2 ^ q) = (n + b2n up : Nat) * 2 ^ q := by
    cases up <;> simp [neighbour, b2n]
  rw [this] at key
  exact roundsTo_signed (symmetric_fits p low) hdir key

/-- Rounding leaves a value as it is only where it stands on a multiple. -/
theorem Quantised.changed {dir : Nat} {neg : Bool} {a : ℝ} {q : Int} {n : Nat} {up inexact : Bool} (h : Quantised dir neg a q n up inexact) :
    inexact = true ↔ signedReal neg ((n + b2n up : Nat) * 2 ^ q) ≠ signedReal neg a := by
  rw [h.exact, Ne, Ne, signedReal_inj, not_iff_not]
  have hlt := h.lt
  constructor
  · intro ha
    have : up = false := Bool.eq_false_iff.mpr fun hc => not_goesUp_at (by rw [← ha]; exact hlt) (ha ▸ h.side.mp hc)
    rw [this, ha]; simp [b2n]
  · intro ha
    cases up
    · simpa [b2n] using ha.symm
    · simp only [b2n, if_true, Nat.cast_add, Nat.cast_one] at ha
      exact absurd ha hlt.ne'

end Sys2Proof.Machine
end

section
/-! SUPPORT. O14: what `Format.round` gives stands for the exact value (R210, R212, R213). -/
namespace Sys2Proof.Machine

open Sys2Proof.Safety

/-! ### Where a magnitude stands -/

/-- The exponent of the leading bit of m × 2^e. -/
def topExp (m : Nat) (e : Int) : Int := e + (bitLen m : Int) - 1

theorem bitLen_bounds {m : Nat} (h : 0 < m) : 1 ≤ bitLen m ∧ 2 ^ (bitLen m - 1) ≤ m ∧ m < 2 ^ bitLen m := by
  have hm : m ≠ 0 := by omega
  rw [bitLen, if_neg hm, Nat.add_sub_cancel]
  exact ⟨by omega, Nat.log2_self_le hm, Nat.lt_log2_self⟩

theorem near_bounds {m : Nat} {e : Int} {sticky : Bool} {a : ℝ} (hm : 0 < m) (h : Near m e sticky a) :
    2 ^ topExp m e ≤ a ∧ a < 2 ^ (topExp m e + 1) := by
  obtain ⟨hlen, hlow, hhigh⟩ := bitLen_bounds hm
  have hu := two_zpow_pos e
  have h1 : (2 : ℝ) ^ topExp m e = (2 ^ (bitLen m - 1) : Nat) * 2 ^ e := by
    rw [show topExp m e = e + ((bitLen m - 1 : Nat) : Int) by unfold topExp; omega, two_zpow_add_nat]; push_cast; rfl
  have h2 : (2 : ℝ) ^ (topExp m e + 1) = (2 ^ bitLen m : Nat) * 2 ^ e := by
    rw [show topExp m e + 1 = e + (bitLen m : Int) by unfold topExp; omega, two_zpow_add_nat]; push_cast; rfl
  rw [h1, h2]
  have h3 : ((2 ^ (bitLen m - 1) : Nat) : ℝ) ≤ m := by exact_mod_cast hlow
  have h4 : (m : ℝ) + 1 ≤ (2 ^ bitLen m : Nat) := by exact_mod_cast hhigh
  cases sticky
  · simp only [Near, Bool.false_eq_true, if_false] at h
    rw [h]; exact ⟨by nlinarith, by nlinarith⟩
  · simp only [Near, if_true] at h
    exact ⟨by nlinarith [h.1], by nlinarith [h.2]⟩

/-- The multiple below a magnitude, at a quantum that leaves it at most p bits, stands in the grid. -/
theorem onGrid_of {p : Nat} {low : Option Int} {q E : Int} {n : Nat} {a : ℝ} (hp : 2 ≤ p) (hhigh : a < 2 ^ (E + 1)) (hle : n * 2 ^ q ≤ a)
    (hlt : a < (n + 1) * 2 ^ q) (hq : E - (p - 1 : Int) ≤ q) (hlow : ∀ t, low = some t → t ≤ q)
    (hfull : low = some q ∨ (q = E - (p - 1 : Int) ∧ 2 ^ E ≤ a)) : OnGrid p low q n where
  bits := hp
  lt := by
    have h1 : (n : ℝ) * 2 ^ q < 2 ^ p * 2 ^ q := by
      calc (n : ℝ) * 2 ^ q ≤ a := hle
        _ < 2 ^ (E + 1) := hhigh
        _ ≤ 2 ^ (q + (p : Int)) := zpow_le_zpow_right₀ (by norm_num) (by omega)
        _ = 2 ^ p * 2 ^ q := two_zpow_add_nat q p
    exact_mod_cast lt_of_mul_lt_mul_right h1 (two_zpow_pos q).le
  above := hlow
  full := by
    refine hfull.imp id fun ⟨hq, hE⟩ => ?_
    have h1 : (2 : ℝ) ^ (p - 1) * 2 ^ q < (n + 1) * 2 ^ q := by
      calc (2 : ℝ) ^ (p - 1) * 2 ^ q = 2 ^ (q + ((p - 1 : Nat) : Int)) := (two_zpow_add_nat q (p - 1)).symm
        _ = 2 ^ E := by congr 1; omega
        _ ≤ a := hE
        _ < (n + 1) * 2 ^ q := hlt
    have h2 : 2 ^ (p - 1) < n + 1 := by exact_mod_cast lt_of_mul_lt_mul_right h1 (two_zpow_pos q).le
    omega

/-! ### Bits of a result -/

namespace Format.Ieee
variable {F : Format} (hF : F.Ieee)
include hF

theorem pow_p : 2 ^ F.p = 2 * 2 ^ (F.p - 1) := by
  have := hF.prec
  rw [← pow_succ']; congr 1; omega

theorem inf_lt_sign : F.infBits < 2 ^ (F.w - 1) := by
  rw [hF.infinite, hF.width]
  exact Nat.mul_lt_mul_of_pos_right (by omega) (Nat.two_pow_pos _)

/-- A magnitude under a sign, in the width of the format. -/
theorem sgn_add_lt {b : Nat} (n : Bool) (hb : b < 2 ^ (F.w - 1)) : F.sgn n + b < 2 ^ F.w := by
  have h : 2 ^ F.w = 2 * 2 ^ (F.w - 1) := by rw [← Nat.pow_succ', Nat.succ_eq_add_one, Nat.sub_add_cancel hF.wide]
  rw [sgn_eq]; split <;> omega

/-- The finite value of bits below those of infinity, under a sign. -/
theorem decode_finite {b : Nat} (n : Bool) (hb : b < F.infBits) : F.decode (F.sgn n + b) =
    if b / 2 ^ (F.p - 1) = 0 then .fin n (b % 2 ^ (F.p - 1)) (F.emin - (F.p - 1 : Int))
    else .fin n (2 ^ (F.p - 1) + b % 2 ^ (F.p - 1)) (((b / 2 ^ (F.p - 1) : Nat) : Int) - F.bias - (F.p - 1 : Int)) := by
  have hlt : b < 2 ^ (F.w - 1) := hb.trans hF.inf_lt_sign
  have hmod : (F.sgn n + b) % 2 ^ (F.w - 1) = b := by
    cases n <;> simp [sgn_eq, Nat.mod_eq_of_lt hlt]
  have hbit : (F.sgn n + b).testBit (F.w - 1) = n := by
    cases n
    · simp [sgn_eq, Nat.testBit_lt_two_pow hlt]
    · simp [sgn_eq, Nat.testBit_two_pow_add_eq, Nat.testBit_lt_two_pow hlt]
  simp only [Format.decode, hF.signed, if_true, hmod, hbit, if_neg (show ¬ F.infBits < b by omega), if_neg (show ¬ b = F.infBits by omega)]

/-- R multiples of the quantum of biased exponent k + 1, as bits. -/
theorem decode_multiple {k R : Nat} (n : Bool) (hR : R ≤ 2 ^ F.p) (hk : R < 2 ^ (F.p - 1) → k = 0)
    (hb : k * 2 ^ (F.p - 1) + R < F.infBits) : ∃ m e, F.decode (F.sgn n + (k * 2 ^ (F.p - 1) + R)) = .fin n m e ∧
      (m : ℝ) * 2 ^ e = R * 2 ^ ((k : Int) + F.emin - (F.p - 1 : Int)) := by
  have hpos := Nat.two_pow_pos (F.p - 1)
  have hpp := hF.pow_p
  rw [hF.decode_finite n hb]
  rcases Nat.lt_or_ge R (2 ^ (F.p - 1)) with hlow | hhigh
  · rw [hk hlow, zero_mul, zero_add, Nat.div_eq_of_lt hlow, if_pos rfl, Nat.mod_eq_of_lt hlow]
    exact ⟨R, _, rfl, by push_cast; rw [zero_add]⟩
  · rcases Nat.lt_or_eq_of_le hR with hlt | heq
    · have hsplit : k * 2 ^ (F.p - 1) + R = (R - 2 ^ (F.p - 1)) + 2 ^ (F.p - 1) * (k + 1) := by
        rw [Nat.mul_add, Nat.mul_comm k]; omega
      have hdiv : (k * 2 ^ (F.p - 1) + R) / 2 ^ (F.p - 1) = k + 1 := by
        rw [hsplit, Nat.add_mul_div_left _ _ hpos, Nat.div_eq_of_lt (by omega), zero_add]
      have hmod : (k * 2 ^ (F.p - 1) + R) % 2 ^ (F.p - 1) = R - 2 ^ (F.p - 1) := by
        rw [hsplit, Nat.add_mul_mod_self_left, Nat.mod_eq_of_lt (by omega)]
      rw [hdiv, hmod, if_neg (Nat.succ_ne_zero k), Nat.add_sub_cancel' hhigh]
      refine ⟨R, _, rfl, ?_⟩
      congr 2; have := hF.low; push_cast; omega
    · have hsplit : k * 2 ^ (F.p - 1) + R = 2 ^ (F.p - 1) * (k + 2) := by rw [heq, hpp, Nat.mul_add, Nat.mul_comm k]; ring
      have hdiv : (k * 2 ^ (F.p - 1) + R) / 2 ^ (F.p - 1) = k + 2 := by rw [hsplit, Nat.mul_div_cancel_left _ hpos]
      have hmod : (k * 2 ^ (F.p - 1) + R) % 2 ^ (F.p - 1) = 0 := by rw [hsplit, Nat.mul_mod_right]
      rw [hdiv, hmod, if_neg (by omega), Nat.add_zero]
      refine ⟨2 ^ (F.p - 1), _, rfl, ?_⟩
      have hexp : (((k + 2 : Nat) : Int) - F.bias - (F.p - 1 : Int)) = ((k : Int) + F.emin - (F.p - 1 : Int)) + (1 : Nat) := by
        have := hF.low; push_cast; omega
      rw [hexp, two_zpow_add_nat, heq, hpp]; push_cast; ring

/-- Bits that stand for no more than the largest finite value lie below those of infinity. -/
theorem bits_lt_inf {k R : Nat} (hR : R ≤ 2 ^ F.p) (hk : R < 2 ^ (F.p - 1) → k = 0)
    (hmax : (R : ℝ) * 2 ^ ((k : Int) + F.emin - (F.p - 1 : Int)) ≤ F.maxM * 2 ^ F.maxQ) : k * 2 ^ (F.p - 1) + R < F.infBits := by
  have hpos := Nat.two_pow_pos (F.p - 1)
  have hpp := hF.pow_p
  have hb := hF.biased
  have hlow := hF.low
  have hhigh := hF.high
  have hu := two_zpow_pos F.maxQ
  have hmaxM : (F.maxM : ℝ) + 1 = (2 ^ F.p : Nat) := by
    rw [hF.most]; exact_mod_cast Nat.sub_add_cancel (Nat.one_le_two_pow)
  rw [hF.infinite]
  have hk1 : k ≤ 2 * F.bias - 1 := by
    by_contra hc
    have hfull : 2 ^ (F.p - 1) ≤ R := Nat.le_of_not_lt fun h => by have := hk h; omega
    have h1 : ((2 ^ F.p : Nat) : ℝ) * 2 ^ F.maxQ ≤ R * 2 ^ ((k : Int) + F.emin - (F.p - 1 : Int)) := by
      have h2 : (2 : ℝ) ^ (F.maxQ + (1 : Nat)) ≤ 2 ^ ((k : Int) + F.emin - (F.p - 1 : Int)) := zpow_le_zpow_right₀ (by norm_num) (by omega)
      have h3 : ((2 ^ (F.p - 1) : Nat) : ℝ) ≤ R := by exact_mod_cast hfull
      rw [two_zpow_add_nat] at h2
      calc ((2 ^ F.p : Nat) : ℝ) * 2 ^ F.maxQ = (2 ^ (F.p - 1) : Nat) * (2 ^ 1 * 2 ^ F.maxQ) := by rw [hpp]; push_cast; ring
        _ ≤ R * 2 ^ ((k : Int) + F.emin - (F.p - 1 : Int)) := mul_le_mul h3 h2 (by positivity) R.cast_nonneg
    nlinarith
  rcases Nat.lt_or_eq_of_le hk1 with hlt | heq
  · have : k * 2 ^ (F.p - 1) ≤ (2 * F.bias - 2) * 2 ^ (F.p - 1) := Nat.mul_le_mul_right _ (by omega)
    have h1 : (2 * F.bias + 1) * 2 ^ (F.p - 1) = (2 * F.bias - 2) * 2 ^ (F.p - 1) + 3 * 2 ^ (F.p - 1) := by
      rw [← Nat.add_mul]; congr 1; omega
    omega
  · have hq : (k : Int) + F.emin - (F.p - 1 : Int) = F.maxQ := by omega
    rw [hq] at hmax
    have h1 : (R : ℝ) ≤ F.maxM := le_of_mul_le_mul_right hmax hu
    have h2 : R < 2 ^ F.p := by
      have : (R : ℝ) < (2 ^ F.p : Nat) := by linarith
      exact_mod_cast this
    have h3 : (2 * F.bias + 1) * 2 ^ (F.p - 1) = k * 2 ^ (F.p - 1) + 2 * 2 ^ (F.p - 1) := by
      rw [← Nat.add_mul]; congr 1; omega
    omega

end Format.Ieee

/-! ### The parts of `Format.round` -/

/-- The quantum of a format for a leading bit at 2^E. -/
def Format.quantum (F : Format) (E : Int) : Int :=
  if E - (F.p - 1 : Int) < F.emin - (F.p - 1 : Int) then F.emin - (F.p - 1 : Int) else E - (F.p - 1 : Int)

/-- Bits and flags past the largest finite value. -/
def Format.past (F : Format) (dir : Nat) (neg : Bool) : Nat × BitVec 5 :=
  (F.sgn neg + (if dir = 1 ∨ (dir = 2 ∧ neg) ∨ (dir = 3 ∧ !neg) then F.maxBits else F.infBits), flagOF ||| flagNX)

/-- Is r × 2^q past the largest finite value? -/
def Format.over (F : Format) (q : Int) (r : Nat) : Bool :=
  if F.maxQ ≤ q then decide (F.maxM < r * 2 ^ (q - F.maxQ).toNat) else decide (F.maxM * 2 ^ (F.maxQ - q).toNat < r)

/-- Bits and flags of a quantised magnitude. -/
def Format.packed (F : Format) (dir : Nat) (neg : Bool) (q : Int) (r : Nat × Bool) (tiny : Bool) : Nat × BitVec 5 :=
  if F.over q r.1 then F.past dir neg
  else (F.sgn neg + (if r.1 < 2 ^ (F.p - 1) then r.1 else ((q + (F.p - 1 : Int) + F.bias).toNat - 1) * 2 ^ (F.p - 1) + r.1),
    roundFlags false tiny r.2)

/-- Underflow is signalled for a magnitude that rounds below 2^emin with unbounded exponents: `r` is that rounding. -/
def Format.isTiny (F : Format) (E : Int) (r : Nat) : Bool :=
  decide (E + 1 < F.emin) || (decide (E + 1 = F.emin) && r != 2 ^ F.p)

theorem round_huge (F : Format) (dir : Nat) (neg : Bool) {m : Nat} {e : Int} (sticky : Bool) (h : F.maxQ + F.p < topExp m e) :
    F.round dir neg m e sticky = F.past dir neg := if_pos h

theorem round_mid (F : Format) (dir : Nat) (neg : Bool) {m : Nat} {e : Int} (sticky : Bool) (h : ¬ F.maxQ + F.p < topExp m e)
    (hl : ¬ topExp m e < F.emin - F.p - 2) : F.round dir neg m e sticky =
      F.packed dir neg (F.quantum (topExp m e)) (quantise dir neg m e (F.quantum (topExp m e)) sticky)
        (F.isTiny (topExp m e) (quantise dir neg m e (topExp m e - (F.p - 1 : Int)) sticky).1) := by
  unfold topExp at h hl
  simp only [Format.round, if_neg h, if_neg hl]
  rfl

theorem round_small (F : Format) (dir : Nat) (neg : Bool) {m : Nat} {e : Int} (sticky : Bool) (h : ¬ F.maxQ + F.p < topExp m e)
    (hl : topExp m e < F.emin - F.p - 2) : F.round dir neg m e sticky =
      F.packed dir neg (F.quantum (F.emin - F.p - 2)) (quantise dir neg 1 (F.emin - F.p - 2) (F.quantum (F.emin - F.p - 2)) true)
        (F.isTiny (F.emin - F.p - 2) (quantise dir neg 1 (F.emin - F.p - 2) (F.emin - F.p - 2 - (F.p - 1 : Int)) true).1) := by
  unfold topExp at h hl
  simp only [Format.round, if_neg h, if_pos hl]
  rfl

theorem over_iff (F : Format) (q : Int) (r : Nat) : F.over q r = true ↔ (F.maxM : ℝ) * 2 ^ F.maxQ < r * 2 ^ q := by
  rw [Format.over]
  split
  · next h =>
    rw [two_zpow_split h, ← mul_assoc, mul_lt_mul_iff_left₀ (two_zpow_pos _), decide_eq_true_iff]
    norm_cast
  · next h =>
    rw [two_zpow_split (q := q) (t := F.maxQ) (by omega), ← mul_assoc, mul_lt_mul_iff_left₀ (two_zpow_pos _), decide_eq_true_iff]
    norm_cast

theorem signedReal_neg_iff {neg : Bool} {a : ℝ} (h : 0 < a) : (signedReal neg a < 0 ↔ neg = true) ∧ (0 < signedReal neg a ↔ neg = false) ∧
    signedReal neg a ≠ 0 := by
  cases neg
  · simp [signedReal, h, h.le, h.ne']
  · simp [signedReal, h, h.le, h.ne']

/-- Past the largest finite value. -/
theorem stands_past {F : Format} {dir : Nat} {neg zneg : Bool} {a r : ℝ} (ha : 0 < a) (hr : InFormat F dir (signedReal neg a) r)
    (hbig : (F.maxM : ℝ) * 2 ^ F.maxQ < |r|) : Stands F dir (signedReal neg a) zneg (F.past dir neg) := by
  obtain ⟨hneg, hpos, -⟩ := signedReal_neg_iff (neg := neg) ha
  refine ⟨r, hr, ?_⟩
  rw [if_neg (not_le.mpr hbig)]
  refine ⟨rfl, ?_⟩
  simp only [Format.past, sgn_eq, hneg, hpos, Bool.not_eq_true']

theorem past_lt {F : Format} (hF : F.Ieee) (dir : Nat) (neg : Bool) : (F.past dir neg).1 < 2 ^ F.w := by
  have h := hF.inf_lt_sign
  have hmax := hF.largest
  refine hF.sgn_add_lt neg ?_
  split <;> omega

theorem roundFlags_bits (tiny inexact : Bool) : (roundFlags false tiny inexact).getLsbD 0 = inexact ∧
    (roundFlags false tiny inexact).getLsbD 1 = (inexact && tiny) ∧ roundFlags false tiny inexact &&& 0x1C#5 = 0 := by
  cases tiny <;> cases inexact <;> decide

theorem realOf_fin (n : Bool) (m : Nat) (e : Int) : realOf (.fin n m e) = signedReal n (m * 2 ^ e) := by
  cases n
  · simp [realOf, signedReal]
  · simp [realOf, signedReal]

theorem le_quantum (F : Format) (E : Int) : F.emin - (F.p - 1 : Int) ≤ F.quantum E ∧ E - (F.p - 1 : Int) ≤ F.quantum E ∧
    (F.quantum E = F.emin - (F.p - 1 : Int) ∨ F.quantum E = E - (F.p - 1 : Int)) := by
  unfold Format.quantum; split <;> omega

/-- A quantised magnitude, packed. -/
theorem stands_packed {F : Format} (hF : F.Ieee) {dir : Nat} {neg zneg up inexact tiny : Bool} {a : ℝ} {E : Int} {n : Nat} (hdir : dir < 5)
    (ha : 0 < a) (hE : a < 2 ^ (E + 1)) (hlow : F.quantum E = E - (F.p - 1 : Int) → F.quantum E ≠ F.emin - (F.p - 1 : Int) → 2 ^ E ≤ a)
    (hq : Quantised dir neg a (F.quantum E) n up inexact)
    (htiny : tiny = true ↔ ∃ y, RoundsTo (Fits F.p none) (FitsEven F.p none) dir (signedReal neg a) y ∧ |y| < (2 : ℝ) ^ F.emin) :
    Stands F dir (signedReal neg a) zneg (F.packed dir neg (F.quantum E) (n + b2n up, inexact) tiny) ∧
      (F.packed dir neg (F.quantum E) (n + b2n up, inexact) tiny).1 < 2 ^ F.w := by
  obtain ⟨hq1, hq2, hq3⟩ := le_quantum F E
  have hprec := hF.prec
  have hgrid : OnGrid F.p (some (F.emin - (F.p - 1 : Int))) (F.quantum E) n :=
    onGrid_of (by omega) hE hq.le hq.lt hq2 (fun t ht => by cases ht; exact hq1) (by
      by_cases hc : F.quantum E = F.emin - (F.p - 1 : Int)
      · exact .inl (by rw [hc])
      · have := hq3.resolve_left hc
        exact .inr ⟨this, hlow this hc⟩)
  have hin : InFormat F dir (signedReal neg a) (signedReal neg ((n + b2n up : Nat) * 2 ^ F.quantum E)) := hq.roundsTo hgrid hdir
  have habs : |signedReal neg (((n + b2n up : Nat) : ℝ) * 2 ^ F.quantum E)| = (n + b2n up : Nat) * 2 ^ F.quantum E := by
    rw [abs_signedReal, abs_of_nonneg (mul_nonneg (Nat.cast_nonneg _) (two_zpow_pos _).le)]
  obtain ⟨hneg, -, hne⟩ := signedReal_neg_iff (neg := neg) ha
  obtain ⟨hnx, huf, hrest⟩ := roundFlags_bits tiny inexact
  rw [Format.packed]
  split
  · next hover => exact ⟨stands_past ha hin (by rw [habs]; exact (over_iff F _ _).mp hover), past_lt hF dir neg⟩
  · next hover =>
    have hmax : ((n + b2n up : Nat) : ℝ) * 2 ^ F.quantum E ≤ F.maxM * 2 ^ F.maxQ := not_lt.mp fun hc => hover ((over_iff F _ _).mpr hc)
    -- the biased exponent, less one
    obtain ⟨k, hk⟩ : ∃ k : Nat, F.quantum E = (k : Int) + F.emin - (F.p - 1 : Int) :=
      ⟨(F.quantum E - (F.emin - (F.p - 1 : Int))).toNat, by omega⟩
    have hR : n + b2n up ≤ 2 ^ F.p := by have := hgrid.lt; cases up <;> simp only [b2n, Bool.false_eq_true, if_true, if_false] <;> omega
    have hk0 : n + b2n up < 2 ^ (F.p - 1) → k = 0 := fun hlt => by
      rcases hgrid.full with hc | hc
      · have := Option.some.inj hc; omega
      · omega
    have hex : (F.quantum E + (F.p - 1 : Int) + F.bias).toNat - 1 = k := by have := hF.low; omega
    have hbits : (if n + b2n up < 2 ^ (F.p - 1) then n + b2n up
        else ((F.quantum E + (F.p - 1 : Int) + F.bias).toNat - 1) * 2 ^ (F.p - 1) + (n + b2n up)) = k * 2 ^ (F.p - 1) + (n + b2n up) := by
      rw [hex]
      split
      · next hlt => rw [hk0 hlt]; omega
      · rfl
    rw [hk] at hmax
    have hfinite := hF.bits_lt_inf hR hk0 hmax
    obtain ⟨m, e, hdec, hval⟩ := hF.decode_multiple neg hR hk0 hfinite
    rw [hbits]
    refine ⟨⟨_, hin, ?_⟩, hF.sgn_add_lt neg (hfinite.trans hF.inf_lt_sign)⟩
    rw [if_pos (by rw [habs, hk]; exact hmax)]
    refine ⟨⟨neg, m, e, hdec, by rw [realOf_fin, hval, hk], ?_⟩, ?_, ?_, hrest⟩
    · rw [hneg]; simp [hne]
    · rw [hnx]; exact hq.changed
    · rw [huf, Bool.and_eq_true, hq.changed, htiny]

/-- Underflow: the rounding with unbounded exponents is below 2^emin. -/
theorem isTiny_iff {F : Format} (hF : F.Ieee) {dir : Nat} {neg up inexact : Bool} {a : ℝ} {E : Int} {n : Nat} (hdir : dir < 5)
    (hlow : 2 ^ E ≤ a) (hhigh : a < 2 ^ (E + 1)) (hq : Quantised dir neg a (E - (F.p - 1 : Int)) n up inexact) :
    F.isTiny E (n + b2n up) = true ↔
      ∃ y, RoundsTo (Fits F.p none) (FitsEven F.p none) dir (signedReal neg a) y ∧ |y| < (2 : ℝ) ^ F.emin := by
  have hprec := hF.prec
  have hgrid : OnGrid F.p none (E - (F.p - 1 : Int)) n :=
    onGrid_of (by omega) hhigh hq.le hq.lt le_rfl (fun _ ht => nomatch ht) (.inr ⟨rfl, hlow⟩)
  have htop : ((2 ^ F.p : Nat) : ℝ) * 2 ^ (E - (F.p - 1 : Int)) = 2 ^ (E + 1) := by
    rw [show E + 1 = (E - (F.p - 1 : Int)) + (F.p : Int) by omega, two_zpow_add_nat]; push_cast; rfl
  have hR : n + b2n up ≤ 2 ^ F.p := by have := hgrid.lt; cases up <;> simp only [b2n, Bool.false_eq_true, if_true, if_false] <;> omega
  have hu := two_zpow_pos (E - (F.p - 1 : Int))
  have habs : |signedReal neg (((n + b2n up : Nat) : ℝ) * 2 ^ (E - (F.p - 1 : Int)))| = (n + b2n up : Nat) * 2 ^ (E - (F.p - 1 : Int)) := by
    rw [abs_signedReal, abs_of_nonneg (mul_nonneg (Nat.cast_nonneg _) hu.le)]
  simp only [Format.isTiny, Bool.or_eq_true, Bool.and_eq_true, decide_eq_true_iff, bne_iff_ne]
  constructor
  · intro ht
    refine ⟨_, hq.roundsTo hgrid hdir, ?_⟩
    rw [habs]
    rcases ht with ht | ⟨ht, hne⟩
    · calc ((n + b2n up : Nat) : ℝ) * 2 ^ (E - (F.p - 1 : Int)) ≤ (2 ^ F.p : Nat) * 2 ^ (E - (F.p - 1 : Int)) :=
            mul_le_mul_of_nonneg_right (by exact_mod_cast hR) hu.le
        _ = 2 ^ (E + 1) := htop
        _ < 2 ^ F.emin := zpow_lt_zpow_right₀ (by norm_num) ht
    · calc ((n + b2n up : Nat) : ℝ) * 2 ^ (E - (F.p - 1 : Int)) < (2 ^ F.p : Nat) * 2 ^ (E - (F.p - 1 : Int)) :=
            mul_lt_mul_of_pos_right (by exact_mod_cast lt_of_le_of_ne hR hne) hu
        _ = 2 ^ F.emin := by rw [htop, ht]
  · rintro ⟨y, hy, hlt⟩
    have hy' := roundsTo_unsigned (symmetric_fits F.p none) hdir hy
    by_contra hno
    push Not at hno
    obtain ⟨h1, h2⟩ := hno
    rcases eq_or_lt_of_le h1 with heq | hgt
    · -- the magnitude was rounded up to 2^emin, so every rounding is
      have hR2 : n + b2n up = 2 ^ F.p := h2 heq.symm
      have hup : up = true := by
        cases up
        · have := hgrid.lt; simp only [b2n, Bool.false_eq_true, if_false] at hR2; omega
        · rfl
      have hodd : n % 2 = 1 := by
        have := hF.pow_p; have := hgrid.half_even; have := Nat.two_pow_pos (F.p - 1)
        simp only [hup, b2n, if_true] at hR2; omega
      have hhi := (hgrid.neighbours hq.le hq.lt).roundsTo_high (mirror_lt hdir) (hq.side.mp hup) (hgrid.not_even hodd) hy'
      have hval : ((n : ℝ) + 1) * 2 ^ (E - (F.p - 1 : Int)) = 2 ^ F.emin := by
        rw [heq, ← htop, ← hR2, hup]; simp [b2n]
      rw [hval] at hhi
      have := hhi.trans (le_abs_self _)
      rw [abs_signedReal] at this
      linarith
    · have hone : Fits F.p none ((2 : ℝ) ^ F.emin) := ⟨1, F.emin, by simp, Nat.one_lt_two_pow (by omega), fun _ ht => nomatch ht⟩
      have hle : (2 : ℝ) ^ F.emin ≤ a := (zpow_le_zpow_right₀ (by norm_num) (by omega)).trans hlow
      have := le_abs_of_roundsTo (mirror_lt hdir) hy' hone (two_zpow_pos _).le hle
      rw [abs_signedReal] at this
      linarith

/-- A magnitude far below the format's least one is quantised like any other. -/
theorem quantise_small {dir : Nat} {neg : Bool} {a : ℝ} {low : Int} (hdir : dir < 5) (h0 : 0 < a) (ha : a < 2 ^ low) :
    ∃ up, quantise dir neg 1 low (low + 3) true = (0 + b2n up, true) ∧ Quantised dir neg a (low + 3) 0 up true := by
  have hu := two_zpow_pos low
  have hq : (2 : ℝ) ^ (low + 3) = 2 ^ low * ((2 * 4 : Nat) : ℝ) := by
    rw [show low + 3 = low + ((3 : Nat) : Int) from rfl, two_zpow_add_nat]; push_cast; ring
  have hc : 0 < a / 2 ^ low ∧ a / 2 ^ low < 1 := ⟨div_pos h0 hu, (div_lt_one hu).mpr ha⟩
  have hside : roundUp? dir neg false 1 4 true = roundUp? dir neg false 0 4 true := by
    interval_cases dir <;> cases neg <;> rfl
  refine ⟨roundUp? dir neg false 1 4 true, ?_, ?_, ?_, ?_, ?_⟩
  · rw [quantise, if_neg (by omega), show (low + 3 - low).toNat = 3 by omega]; rfl
  · simpa using h0.le
  · rw [hq]; push_cast; linarith
  · have key := roundUp_iff (dir := dir) (neg := neg) (odd := false) (sticky := true) (rem := 0) (half := 4) (c := a / 2 ^ low) hdir
      (by norm_num) (by simpa using hc)
    rw [hside, key]
    have hscale := goesUp_scale (dir := mirror neg dir) (odd := false) (lo := 0) (u := 2 ^ low) (c := a / 2 ^ low) (h := ((2 * 4 : Nat) : ℝ)) hu
    rw [← hscale, hq, mul_div_cancel₀ _ hu.ne']
    simp
  · simpa using h0.ne'

/-- Rounding an exact magnitude, or one that is a little more than m × 2^e with m longer than the precision. -/
theorem round_spec {F : Format} (hF : F.Ieee) {dir : Nat} {neg zneg sticky : Bool} {m : Nat} {e : Int} {a : ℝ} (hdir : dir < 5) (hm : 0 < m)
    (ha : Near m e sticky a) (hs : sticky = true → F.p < bitLen m) :
    Stands F dir (signedReal neg a) zneg (F.round dir neg m e sticky) ∧ (F.round dir neg m e sticky).1 < 2 ^ F.w := by
  obtain ⟨hlow, hhigh⟩ := near_bounds hm ha
  have hpos : 0 < a := lt_of_lt_of_le (two_zpow_pos _) hlow
  have hprec := hF.prec
  have habove : ∀ q, topExp m e - (F.p - 1 : Int) ≤ q → sticky = true → e < q := fun q hq h => by
    have := hs h; unfold topExp at hq; omega
  obtain ⟨nu, uu, hu, hqu⟩ := quantise_spec (neg := neg) (q := topExp m e - (F.p - 1 : Int)) hdir ha (habove _ le_rfl)
  have htiny := isTiny_iff hF hdir hlow hhigh hqu
  rw [← hu] at htiny
  obtain ⟨-, hq2, -⟩ := le_quantum F (topExp m e)
  by_cases hhuge : F.maxQ + F.p < topExp m e
  · rw [round_huge F dir neg sticky hhuge]
    obtain ⟨n, up, -, hq⟩ := quantise_spec (neg := neg) hdir ha (habove _ hq2)
    have hF1 := hF.high
    have hF2 := hF.low
    have hF3 := hF.biased
    have hquant : F.quantum (topExp m e) = topExp m e - (F.p - 1 : Int) := if_neg (by omega)
    have hgrid : OnGrid F.p (some (F.emin - (F.p - 1 : Int))) (F.quantum (topExp m e)) n :=
      onGrid_of (by omega) hhigh hq.le hq.lt hq2 (fun t ht => by cases ht; exact (le_quantum F _).1) (.inr ⟨hquant, hlow⟩)
    refine ⟨stands_past hpos (hq.roundsTo hgrid hdir) ?_, past_lt hF dir neg⟩
    have hpow : Fits F.p (some (F.emin - (F.p - 1 : Int))) ((2 : ℝ) ^ topExp m e) :=
      ⟨1, topExp m e, by simp, Nat.one_lt_two_pow (by omega), fun t ht => by cases ht; omega⟩
    have hle := le_abs_of_roundsTo (mirror_lt (neg := neg) hdir)
      (roundsTo_unsigned (symmetric_fits _ _) hdir (hq.roundsTo hgrid hdir)) hpow (two_zpow_pos _).le hlow
    rw [abs_signedReal] at hle
    refine lt_of_lt_of_le ?_ hle
    have hmax : (F.maxM : ℝ) < 2 ^ F.p := by
      rw [hF.most]; exact_mod_cast Nat.sub_lt (Nat.two_pow_pos _) Nat.one_pos
    calc (F.maxM : ℝ) * 2 ^ F.maxQ < 2 ^ F.p * 2 ^ F.maxQ := mul_lt_mul_of_pos_right hmax (two_zpow_pos _)
      _ = 2 ^ (F.maxQ + (F.p : Int)) := (two_zpow_add_nat _ _).symm
      _ ≤ 2 ^ topExp m e := zpow_le_zpow_right₀ (by norm_num) hhuge.le
  · by_cases hsmall : topExp m e < F.emin - F.p - 2
    · rw [round_small F dir neg sticky hhuge hsmall]
      have hquant : F.quantum (F.emin - F.p - 2) = (F.emin - F.p - 2) + 3 := by
        rw [Format.quantum, if_pos (by omega)]; omega
      have hltlow : a < 2 ^ (F.emin - F.p - 2) := hhigh.trans_le (zpow_le_zpow_right₀ (by norm_num) (by omega))
      obtain ⟨up, hr, hq⟩ := quantise_small (neg := neg) hdir hpos hltlow
      rw [← hquant] at hr hq
      rw [hr]
      refine stands_packed hF hdir hpos (hltlow.trans (zpow_lt_zpow_right₀ (by norm_num) (by omega))) ?_ hq ?_
      · intro hc; rw [hquant] at hc; omega
      · have h1 : ∀ r, F.isTiny (F.emin - F.p - 2) r = true := fun r => by
          simp [Format.isTiny, show F.emin - F.p - 2 + 1 < F.emin by omega]
        have h2 : F.isTiny (topExp m e) (quantise dir neg m e (topExp m e - (F.p - 1 : Int)) sticky).1 = true := by
          simp [Format.isTiny, show topExp m e + 1 < F.emin by omega]
        rw [h1, ← h2]; rw [h2] at htiny ⊢; exact htiny
    · rw [round_mid F dir neg sticky hhuge hsmall]
      obtain ⟨n, up, hr, hq⟩ := quantise_spec (neg := neg) hdir ha (habove _ hq2)
      have hpair : quantise dir neg m e (F.quantum (topExp m e)) sticky =
          (n + b2n up, (quantise dir neg m e (F.quantum (topExp m e)) sticky).2) := Prod.ext hr rfl
      rw [hpair]
      exact stands_packed hF hdir hpos hhigh (fun _ _ => hlow) hq htiny

theorem round_stands {F : Format} (hF : F.Ieee) {dir : Nat} {neg zneg sticky : Bool} {m : Nat} {e : Int} {a : ℝ} (hdir : dir < 5) (hm : 0 < m)
    (ha : Near m e sticky a) (hs : sticky = true → F.p < bitLen m) : Stands F dir (signedReal neg a) zneg (F.round dir neg m e sticky) :=
  (round_spec hF hdir hm ha hs).1

/-- An exact value has the bits of the format. -/
theorem ofFin_lt {F : Format} (hF : F.Ieee) {dir : Nat} (hdir : dir < 5) (v : Bool × Nat × Int) : (F.ofFin dir v).1 < 2 ^ F.w := by
  rw [Format.ofFin]
  split
  · exact hF.sgn_add_lt v.1 (Nat.two_pow_pos _)
  · next hm =>
    exact (round_spec (a := (v.2.1 : ℝ) * 2 ^ v.2.2) (zneg := v.1) (neg := v.1) hF hdir (Nat.pos_of_ne_zero hm) (by simp [Near])
      fun h => absurd h Bool.false_ne_true).2

end Sys2Proof.Machine
end

section
/-! SUPPORT. O14: the rounding of exact values and of integers (R210, R212, R213). -/
namespace Sys2Proof.Machine

open Sys2Proof.Safety

/-- A zero keeps its sign and is exact. -/
theorem stands_zero {F : Format} (hF : F.Ieee) {dir : Nat} (n : Bool) (hdir : dir < 5) : Stands F dir 0 n (F.sgn n, 0) := by
  have hprec := hF.prec
  have hmem : Fits F.p (some (F.emin - (F.p - 1 : Int))) 0 := ⟨0, F.emin - (F.p - 1 : Int), by simp, Nat.two_pow_pos _, fun t ht => by cases ht; rfl⟩
  have heven : FitsEven F.p (some (F.emin - (F.p - 1 : Int))) 0 :=
    ⟨0, F.emin - (F.p - 1 : Int), by simp, Nat.two_pow_pos _, fun t ht => by cases ht; rfl, .inr (.inr rfl), rfl⟩
  have hin : InFormat F dir 0 0 := by
    refine ⟨hmem, ?_⟩
    interval_cases dir
    · exact ⟨fun y _ => by simp, fun _ _ _ _ => heven⟩
    · exact ⟨le_rfl, by simp, fun y _ hy => hy⟩
    · exact ⟨le_rfl, fun y _ hy => hy⟩
    · exact ⟨le_rfl, fun y _ hy => hy⟩
    · exact ⟨fun y _ => by simp, fun y _ hy => by simpa using hy⟩
  refine ⟨0, hin, ?_⟩
  rw [if_pos (by rw [abs_zero]; positivity)]
  have hinf : 0 < F.infBits := by rw [hF.infinite]; positivity
  have hdec := hF.decode_finite n hinf
  rw [Nat.add_zero, Nat.zero_div, if_pos rfl] at hdec
  refine ⟨⟨n, _, _, hdec, by rw [realOf_fin]; cases n <;> simp [signedReal], by simp⟩, by simp, by simp, BitVec.zero_and⟩

/-- An exact value, or a zero with its sign. -/
theorem ofFin_stands {F : Format} (hF : F.Ieee) {dir : Nat} (n : Bool) (m : Nat) (e : Int) (hdir : dir < 5) :
    Stands F dir (realOf (.fin n m e)) n (F.ofFin dir (n, m, e)) := by
  rw [realOf_fin, Format.ofFin]
  by_cases hm : m = 0
  · have h0 : signedReal n (((m : Nat) : ℝ) * 2 ^ e) = 0 := by cases n <;> simp [signedReal, hm]
    rw [if_pos hm, h0]
    exact stands_zero hF n hdir
  · rw [if_neg hm]
    exact round_stands hF hdir (Nat.pos_of_ne_zero hm) (by simp [Near]) (fun h => absurd h Bool.false_ne_true)

theorem realOf_ofInt (x : Int) (e : Int) : realOf (.fin (decide (x < 0)) x.natAbs e) = (x : ℝ) * 2 ^ e := by
  rw [realOf_fin]
  by_cases h : x < 0
  · rw [decide_eq_true h, signedReal, if_pos rfl, Nat.cast_natAbs, abs_of_neg h]; push_cast; ring
  · rw [decide_eq_false h, signedReal, if_neg Bool.false_ne_true, Nat.cast_natAbs, abs_of_nonneg (by omega)]

/-- The sign of a zero matters only where the value is zero. -/
theorem stands_zneg {F : Format} {dir : Nat} {x : ℝ} {z z' : Bool} {r : Nat × BitVec 5} (h : Stands F dir x z r) (hz : x = 0 → z = z') :
    Stands F dir x z' r := by
  by_cases hx : x = 0
  · rwa [← hz hx]
  · simpa only [Stands, hx, false_and, or_false] using h

/-- An integer times a power of two. -/
theorem ofFin_int_stands {F : Format} (hF : F.Ieee) {dir : Nat} (x e : Int) (hdir : dir < 5) :
    Stands F dir ((x : ℝ) * 2 ^ e) false (F.ofFin dir (decide (x < 0), x.natAbs, e)) := by
  have h := ofFin_stands hF (decide (x < 0)) x.natAbs e hdir
  rw [realOf_ofInt] at h
  refine stands_zneg h fun h0 => ?_
  have : x = 0 := by simpa [(two_zpow_pos e).ne'] using h0
  rw [this]; rfl

theorem ieee_of_mem {F : Format} (h : F ∈ [fmt64, fmt32, fmt16, fmtB16]) : F.Ieee := by
  simp only [List.mem_cons, List.not_mem_nil, or_false] at h
  rcases h with rfl | rfl | rfl | rfl
  · exact ieee_fmt64
  · exact ieee_fmt32
  · exact ieee_fmt16
  · exact ieee_fmtB16

/-- Settles O14: the magnitude is quantised at the quantum of its leading bit, and the multiple that the direction takes is packed. -/
theorem roundingIsCorrect : Obligations.RoundingIsCorrect := by
  intro F dir hmem hdir
  have hF := ieee_of_mem hmem
  refine ⟨fun neg m e hm => ?_, fun x => ?_⟩
  · rw [realOf_fin]
    exact round_stands hF hdir hm (by simp [Near]) (fun h => absurd h Bool.false_ne_true)
  · have h := ofFin_int_stands hF x 0 hdir
    rwa [zpow_zero, mul_one] at h

end Sys2Proof.Machine
end

section
/-! SUPPORT. O17, O38: a word that is no memory word, to its end: results at once or later, once for its lanes or in each, and traps. -/
namespace Sys2Proof.Machine

open Sys2Proof.Safety

/-- A ready word that is no memory word runs its lanes, or the lowest one, and finishes. A word that waits for every result of its group
finds none outstanding. -/
theorem issueWord_acts {s : State} {g : Group} {h : Hdr} {i : Instr} (hr : WordReady s g h i) (o : WordOps)
    (body : Ctl → Nat → State → LaneRes × State) (hm : o.mem = false) (hs : o.sync = true → s.settled s.cur.gid g = true)
    (hrd : o.ready (readyCtl s g h o.u) s = true) (hf : o.fin = fun _ s => s) :
    s.issueWord h.gp.toNat h.gn h.stall.toNat (instrUses i) o body =
      let q := runLanes (body (readyCtl s g h o.u)) ((readyCtl s g h o.u).runners o) s
      q.2.finishWord g (readyCtl s g h o.u) s.cur.lanes h.stall.toNat (instrUses i) o ((readyCtl s g h o.u).spread o q.1) := by
  have hview : g.view s.free s.cur.gid = g := by simp [Group.view, hr.met]
  have hlock : ∀ b : Bool, s.interlocked s.cur.gid g (if b then lanes32 else lanesOf s.cur.lanes) (instrUses i) h.gp.toNat = false := by
    intro b; cases b
    · exact interlocked_mono _ lanesOf_lt hr.clear
    · exact hr.clear
  have hpriv : ((instrUses i).priv && !(lanesOf s.cur.lanes).all fun l => (g.lane l).handler) = false := by
    cases hp : (instrUses i).priv
    · rfl
    · simpa [hp] using hr.mode hp
  have hnil : ∀ (ls : List Nat) (p : Nat → List (Nat × Nat × Nat)), ls.filter (fun l => g.short (p l)) = [] := by
    intro ls p; simp [Group.short, hr.met]
  have hsync : (o.sync && !s.settled s.cur.gid g) = false := by
    cases ho : o.sync
    · rfl
    · simp [hs ho]
  have h0 : lanesOf 0#32 = [] := by decide
  have hall : ∀ m : BitVec 32, m &&& 4294967295#32 = m := fun m => BitVec.and_allOnes
  have hz : g.hazards.isEmpty = true := by simp [hr.met]
  have hgl : guardLanes g s.cur.lanes h.gp.toNat h.gn = active s g h := rfl
  simp only [readyCtl] at hrd
  cases hb : (s.rcd g.launch).blk.sbchk <;>
    simp [State.issueWord, hr.here, hr.budget, hpriv, hlock, hview, hnil, hz, hm, hsync, hrd, hf, hb, readyCtl, hgl, maskOf_nil, h0, hall]

/-- The lane after a result that only moves it. A word that runs once gives its registers to the group, and what lands later is not there
yet. -/
def settledLane (pc : DWord) (len : Nat) (landing once : Bool) (ln : Lane) (r : LaneRes) : Lane :=
  match r with
  | .trap code acc addr => ln.trap code acc addr
  | r => ln.after pc len landing 0 (if once then r.noRegs else r)

/-- The lane after the faults of a word. -/
def Lane.trapped (ln : Lane) (r : LaneRes) : Lane :=
  match r with
  | .trap code acc addr => ln.trap code acc addr
  | _ => ln

section
variable {ln : Lane} {r : LaneRes} (h : settlesIn ln r)
include h

theorem settlesIn.parks : r.parks = false := by
  cases r with
  | park => exact absurd h id
  | _ => rfl

theorem settlesIn.after (pc : DWord) (len age : Nat) (landing once : Bool) :
    settlesIn (ln.after pc len landing age (if once then r.noRegs else r)) r := by
  cases r with
  | park => exact absurd h id
  | pfault => exact absurd h id
  | trap => cases once <;> exact h
  | _ => trivial

theorem settlesIn.lane (pc : DWord) (len age : Nat) (landing once : Bool) :
    (ln.after pc len landing age (if once then r.noRegs else r)).trapped r = settledLane pc len landing once ln r := by
  cases r with
  | park => exact absurd h id
  | pfault => exact absurd h id
  | _ => cases once <;> rfl

/-- A lane that traps was not in handler mode. -/
theorem settlesIn.handler : ((ln.trapped r).handler = true ∧ (ln.trapped r).st ≠ .exited) ↔ (ln.handler = true ∧ ln.st ≠ .exited) := by
  cases r with
  | trap =>
    have hh : ln.handler = false := h
    simp [Lane.trapped, Lane.trap, hh]
  | _ => rfl

end

theorem setGrs_lanes (ws : List (Nat × Word)) (g : Group) : (g.setGrs ws).lanes = g.lanes := by
  induction ws generalizing g with
  | nil => rfl
  | cons w ws ih =>
    have hstep : g.setGrs (w :: ws) = (g.setGr w.1 w.2).setGrs ws := rfl
    rw [hstep, ih]; unfold Group.setGr; split <;> rfl

/-- Trap handling goes on while a lane is in handler mode (R151). -/
theorem endHandling_iff (g : Group) : g.endHandling.handling = true ↔
    g.handling = true ∧ ∃ l, l < 32 ∧ (g.lane l).handler = true ∧ (g.lane l).st ≠ .exited := by
  have hany : (lanes32.any fun l => (g.lane l).handler && decide ((g.lane l).st ≠ .exited)) = true ↔
      ∃ l, l < 32 ∧ (g.lane l).handler = true ∧ (g.lane l).st ≠ .exited := by
    simp only [List.any_eq_true, mem_lanes32, Bool.and_eq_true, decide_eq_true_iff]
  rw [← hany, Group.endHandling]
  generalize (lanes32.any fun l => (g.lane l).handler && decide ((g.lane l).st ≠ .exited)) = b
  cases hg : g.handling <;> cases b <;> simp [hg]

/-- A lane of the group after a word. -/
theorem afterWord_lane (gm before : Group) (c : Ctl) (lanes : BitVec 32) (stall : Nat) (u : Uses) (o : WordOps) (clk age : Nat) (rs : List (Nat × LaneRes))
    {l : Nat} (hl : l < 32) : (gm.afterWord before c lanes stall u o clk age rs).lane l =
      if lanes.getLsbD l then c.laneAfter u o age rs l (gm.lane l) else gm.lane l := by
  have hfold := (foldLanes lanes (c.laneAfter u o age rs) lanes32 lanes32_nodup gm).1 l
  simp only [mem_lanes32, hl, true_and] at hfold
  rw [← hfold]
  have hlanes : ∀ a b : Group, a.lanes = b.lanes → a.lane l = b.lane l := fun a b h => by simp only [Group.lane, h]
  refine hlanes _ _ ?_
  simp only [Group.afterWord]
  split
  · exact setGrs_lanes _ _
  · rfl

/-- What a word leaves of its group where each active lane's result r only moves its lane: `gm` is the group that its lanes left, in s2. -/
structure Settles (s s2 : State) (g gm g' : Group) (h : Hdr) (landing once : Bool) (r : Nat → LaneRes) : Prop where
  lanes : ∀ l, l < 32 → g'.lane l = if s.cur.lanes.getLsbD l then
      if (active s g h).getLsbD l then settledLane s.cur.pc s.cur.len landing once (gm.lane l) (r l)
      else { gm.lane l with pc := s.cur.pc + BitVec.ofNat 64 s.cur.len }
    else gm.lane l
  regs : g'.g = (if once && !landing then gm.setGrs (firstRegs ((lanesOf (active s g h)).map fun l => (l, r l))) else gm).g
  landings : g'.landings = if landing then
      gm.landings ++ (if once && !(firstRegs ((lanesOf (active s g h)).map fun l => (l, r l))).isEmpty then
          [{ lane := 32, writes := firstRegs ((lanesOf (active s g h)).map fun l => (l, r l)), preds := [], flags := 0 }] else []) ++
        ((lanesOf (active s g h)).map fun l => (l, r l)).filterMap fun x => (if once then x.2.noRegs else x.2).landingOf x.1
    else gm.landings
  handling : g'.handling = true ↔ gm.handling = true ∧ ∃ l, l < 32 ∧ (g'.lane l).handler = true ∧ (g'.lane l).st ≠ .exited
  group : groupAfter s2 gm g' h

/-- What finishing such a word leaves. -/
theorem finishWord_settles {s s2 : State} {g gm : Group} {h : Hdr} (before : Group) (c : Ctl) (hc : c.gid = s.cur.gid ∧ c.pc = s.cur.pc ∧ c.len = s.cur.len)
    (u : Uses) (o : WordOps) (r : Nat → LaneRes) (hg : s2.group s.cur.gid = some gm)
    (hset : ∀ l ∈ lanesOf (active s g h), settlesIn (gm.lane l) (r l)) :
    ∃ g', s2.finishWord before c s.cur.lanes h.stall.toNat u o ((lanesOf (active s g h)).map fun l => (l, r l)) = s2.setGroup s.cur.gid g' ∧
      Settles s s2 g gm g' h u.landing o.once r := by
  obtain ⟨hgid, hpc, hlen⟩ := hc
  let rs := (lanesOf (active s g h)).map fun l => (l, r l)
  let g1 := gm.afterWord before c s.cur.lanes h.stall.toNat u o s2.clk s2.next rs
  obtain ⟨hregs, hlandings, hgroup⟩ := afterWord_group gm before c s.cur.lanes h.stall.toNat u o s2.clk s2.next rs
  have hact : ∀ l ∈ lanesOf (active s g h), l < 32 ∧ s.cur.lanes.getLsbD l = true := fun l hl => by
    obtain ⟨h32, hlanes, -⟩ := mem_active.mp hl
    exact ⟨h32, hlanes⟩
  have hfind : ∀ l, rs.find? (fun r => r.1 == l) = if l ∈ lanesOf (active s g h) then some (l, r l) else none := fun l => find_map_lane r _ l
  have hend : ∀ l, g1.endHandling.lane l = g1.lane l := fun l => by rw [endHandling_same]; rfl
  have hlane : ∀ l, l < 32 → g1.lane l = if s.cur.lanes.getLsbD l then c.laneAfter u o s2.next rs l (gm.lane l) else gm.lane l := fun l hl =>
    afterWord_lane gm before c s.cur.lanes h.stall.toNat u o s2.clk s2.next rs hl
  have hran : ∀ l ∈ lanesOf (active s g h), g1.lane l =
      (gm.lane l).after s.cur.pc s.cur.len u.landing s2.next (if o.once then (r l).noRegs else r l) := fun l hl => by
    rw [hlane l (hact l hl).1, if_pos (hact l hl).2, Ctl.laneAfter, hfind, if_pos hl, hpc, hlen]
  have hparks : (((lanesOf (active s g h)).map fun l => (l, r l)).any fun r => r.2.parks) = false := by
    rw [List.any_eq_false]
    intro x hx
    obtain ⟨l, hl, rfl⟩ := List.mem_map.mp hx
    exact Bool.not_eq_true _ ▸ (hset l hl).parks
  have hsettles : ∀ l ∈ lanesOf (active s g h), settlesIn (g1.lane l) (r l) := fun l hl => by
    rw [hran l hl]
    exact (hset l hl).after _ _ _ _ _
  obtain ⟨g', hfaults, hsame, hlanes⟩ := wordFaults_settle rs (by simp [rs, List.map_map, Function.comp_def, lanesOf_nodup]) s2 s.cur.gid
    g1.endHandling (fun x hx => by
      obtain ⟨l, hl, rfl⟩ := List.mem_map.mp hx
      rw [hend]; exact hsettles l hl)
  have hlane' : ∀ l, g'.lane l = if l ∈ lanesOf (active s g h) then (g1.lane l).trapped (r l) else g1.lane l := fun l => by
    rw [hlanes, hfind, hend]
    by_cases ha : l ∈ lanesOf (active s g h)
    · rw [if_pos ha, if_pos ha]; cases r l <;> rfl
    · rw [if_neg ha, if_neg ha]
  refine ⟨g', ?_, fun l hl => ?_, ?_, ?_, ?_, ?_⟩
  · simp only [State.finishWord, hgid, hg, hparks]
    exact hfaults
  · rw [hlane']
    by_cases ha : l ∈ lanesOf (active s g h)
    · rw [if_pos ha, if_pos (hact l ha).2, if_pos (mem_lanesOf.mp ha).2, hran l ha]
      exact (hset l ha).lane _ _ _ _ _
    · rw [if_neg ha, hlane l hl, if_neg (fun hb => ha (mem_lanesOf.mpr ⟨hl, hb⟩)), Ctl.laneAfter, hfind, if_neg ha, hpc, hlen]
  · rw [hsame, endHandling_same]; exact hregs
  · rw [hsame, endHandling_same]; exact hlandings
  · have hhandler : ∀ l, ((g'.lane l).handler = true ∧ (g'.lane l).st ≠ .exited) ↔ ((g1.lane l).handler = true ∧ (g1.lane l).st ≠ .exited) := by
      intro l
      rw [hlane']
      split
      · next ha => exact (hsettles l ha).handler
      · rfl
    have hg1 : g1.handling = gm.handling := (congrArg Group.handling hgroup :)
    rw [hsame]
    show g1.endHandling.handling = true ↔ _
    rw [endHandling_iff, hg1]
    refine and_congr_right fun _ => exists_congr fun l => and_congr_right fun _ => ?_
    rw [← hsame]; exact (hhandler l).symm
  · have hk := groupAfter_of (s := s2) (h := h) (k := g1) (g := gm) hgroup
    unfold groupAfter at hk ⊢
    rw [hsame]
    have := congrArg (fun x : Group => { x with lanes := g'.lanes }) hk
    simpa using this

/-! ### Floating-point words -/

/-- A lane's results, or the trap FP_SNAN (R217). -/
def orSnan : Option Results → LaneRes
  | none => .trap 0x2C 0 0
  | some x => doneOf x

/-- A floating-point word whose lanes give results or trap, in each active lane or once (R216, R217, R357). -/
theorem fpWord_intro {i : Instr} {h : Hdr} {u land : Bool} (o : WordOps) (f : FEnv → LaneRes) (r : Block → Ctl → Nat → Option Results)
    (hex : ∀ s, exec i s = s.fpWord i h o f) (hr : ∀ B w l, f { e := w.env l, b := B } = orSnan (r B w l))
    (ho : o = if u then { u := true, once := true } else {}) (hl : (instrUses i).landing = land) : FpWord i h u land r := by
  intro s g hw R hsafe
  have hou : o.u = u ∧ o.once = u ∧ o.mem = false ∧ o.sync = false ∧ (∀ c s, o.ready c s = true) ∧ o.fin = fun _ s => s := by
    subst ho; cases u <;> exact ⟨rfl, rfl, rfl, rfl, fun _ _ => rfl, rfl⟩
  obtain ⟨hu, honce, hm, hs, hrd, hf⟩ := hou
  let c := readyCtl s g h u
  let body : Ctl → Nat → State → LaneRes × State := fun c l s => (f { e := c.env l, b := (s.rcd c.g.launch).blk }, s)
  have hrun : runLanes (body c) (c.runners o) s = ((c.runners o).map fun l => (l, orSnan (r (s.rcd g.launch).blk c l)), s) :=
    runLanes_same _ _ _ _ fun l _ => Prod.ext (hr _ c l) rfl
  have hspread : c.spread o ((c.runners o).map fun l => (l, orSnan (r (s.rcd g.launch).blk c l))) =
      (lanesOf (active s g h)).map fun l => (l, orSnan (R l)) := by
    cases hub : u
    · have := spread_each s g h o (honce.trans hub) hm fun c l => orSnan (r (s.rcd g.launch).blk c l)
      simpa only [hu, hub, R, c, Bool.false_eq_true, if_false] using this
    · have := spread_once s g h o (honce.trans hub) fun c l => orSnan (r (s.rcd g.launch).blk c l)
      simpa only [hu, hub, R, c, if_true] using this
  obtain ⟨g', hfin, ⟨hlanes, hregs, hlandings, -, hafter⟩⟩ := finishWord_settles (s := s) (s2 := s) (g := g) (h := h) g c ⟨rfl, rfl, rfl⟩ (instrUses i) o
    (fun l => orSnan (R l)) hw.here (fun l hl => by
      show settlesIn (g.lane l) (orSnan (R l))
      cases hR : R l with
      | none => exact hsafe l (mem_lanesOf.mp hl).2 hR
      | some x => trivial)
  rw [honce, hl] at hlanes hregs hlandings
  have hhead : ∀ l ls, lanesOf (active s g h) = l :: ls → oneLane s g h = l := fun l ls hls => by rw [oneLane, hls]; rfl
  have hnil : lanesOf (active s g h) = [] ↔ active s g h = 0 := lanesOf_nil
  refine ⟨g', ?_, fun l hl' => (hlanes l hl').trans ?_, hregs.trans ?_, hlandings.trans ?_, hafter⟩
  · rw [hex, State.fpWord, State.word, issueWord_acts hw o _ hm (fun hc => absurd hc (by simp [hs])) (hrd _ s) hf, hu]
    show Host.Outcome.next ((runLanes (body c) (c.runners o) s).2.finishWord g c s.cur.lanes h.stall.toNat (instrUses i) o
      (c.spread o (runLanes (body c) (c.runners o) s).1)) = _
    rw [hrun, hspread, hfin]
  · refine if_congr Iff.rfl (if_congr Iff.rfl ?_ rfl) rfl
    simp only
    cases R l with
    | none => rfl
    | some x => cases u <;> cases land <;> rfl
  · cases hls : lanesOf (active s g h) with
    | nil =>
      have h0 := hnil.mp hls
      cases R (oneLane s g h) <;> simp [h0, firstRegs, Group.setGrs]
    | cons l ls =>
      have h0 : (active s g h != 0) = true := bne_iff_ne.mpr fun hc => by rw [hnil.mpr hc] at hls; exact nomatch hls
      rw [hhead l ls hls, List.map_cons, h0, Bool.and_true]
      cases R l <;> cases u <;> cases land <;> simp [firstRegs, orSnan, doneOf, LaneRes.regs, Group.setGrs]
  · cases land
    · simp
    · simp only [if_true]
      rw [List.append_assoc]
      congr 1
      have hfm : ((lanesOf (active s g h)).map fun l => (l, orSnan (R l))).filterMap (fun r => (if u then r.2.noRegs else r.2).landingOf r.1) =
          (lanesOf (active s g h)).filterMap fun l => (R l).map fun x =>
            ({ lane := l, writes := if u then [] else x.1, preds := x.2.1, flags := x.2.2 } : Landing) := by
        rw [List.filterMap_map]
        refine List.filterMap_congr fun l _ => ?_
        show (if u then (orSnan (R l)).noRegs else orSnan (R l)).landingOf l = _
        cases R l <;> cases u <;> rfl
      rw [hfm]
      congr 1
      cases hls : lanesOf (active s g h) with
      | nil =>
        have h0 := hnil.mp hls
        cases R (oneLane s g h) <;> simp [h0, firstRegs]
      | cons l ls =>
        have h0 : (active s g h != 0) = true := bne_iff_ne.mpr fun hc => by rw [hnil.mpr hc] at hls; exact nomatch hls
        rw [hhead l ls hls, List.map_cons, h0, Bool.and_true]
        cases R l <;> cases u <;> simp [firstRegs, orSnan, doneOf, LaneRes.regs]

end Sys2Proof.Machine
end

section
/-! SUPPORT. O17: the exact results of the functions (R228, R229, R366). -/
namespace Sys2Proof.Machine

open Sys2Proof.Safety

/-! ### Values that a format holds -/

/-- Rounding leaves a member of the set as it is. -/
theorem roundsTo_member {S even : ℝ → Prop} {dir : Nat} {x r : ℝ} (hdir : dir < 5) (hx : S x) (h : RoundsTo S even dir x r) : r = x := by
  have near : |x - r| ≤ |x - x| → r = x := fun hn => by
    rw [sub_self, abs_zero] at hn
    have := abs_eq_zero.mp (le_antisymm hn (abs_nonneg _))
    linarith
  interval_cases dir
  · exact near (h.2.1 x hx)
  · obtain ⟨-, hle, hsame, hge⟩ := h
    have habs : |r| = |x| := le_antisymm hle (hge x hx le_rfl)
    rcases abs_eq_abs.mp habs with heq | heq
    · exact heq
    · subst heq
      have : x = 0 := by nlinarith [mul_self_nonneg x]
      rw [this, neg_zero]
  · exact le_antisymm (h.2.2 x hx le_rfl) h.2.1
  · exact le_antisymm h.2.1 (h.2.2 x hx le_rfl)
  · exact near (h.2.1 x hx)

/-- The result is the value itself, without a flag. -/
def Exactly (F : Format) (x : ℝ) (res : Nat × BitVec 5) : Prop :=
  realOf (F.decode res.1) = x ∧ (∃ n m e, F.decode res.1 = .fin n m e) ∧ res.2 = 0

theorem flags_zero : ∀ f : BitVec 5, f.getLsbD 0 = false → f.getLsbD 1 = false → f &&& 0x1C#5 = 0 → f = 0 := by decide

/-- A value that the format holds stands for itself. -/
theorem exactly_of_stands {F : Format} {dir : Nat} {x : ℝ} {z : Bool} {res : Nat × BitVec 5} (hdir : dir < 5)
    (hx : Fits F.p (some (F.emin - (F.p - 1 : Int))) x) (hmax : |x| ≤ F.maxM * (2 : ℝ) ^ F.maxQ) (h : Stands F dir x z res) : Exactly F x res := by
  obtain ⟨r, hr, h⟩ := h
  have hrx : r = x := roundsTo_member hdir hx hr
  subst hrx
  rw [if_pos hmax] at h
  obtain ⟨⟨n, m, e, hdec, hval, -⟩, hnx, huf, hrest⟩ := h
  refine ⟨by rw [hdec]; exact hval, ⟨n, m, e, hdec⟩, flags_zero _ ?_ ?_ hrest⟩
  · exact Bool.eq_false_iff.mpr fun hc => hnx.mp hc rfl
  · exact Bool.eq_false_iff.mpr fun hc => (huf.mp hc).1 rfl

theorem maxQ_nonneg (f : Fmt) : 0 ≤ (formatOf f).maxQ := by cases f <;> decide

theorem bias_le (f : Fmt) : (formatOf f).bias ≤ 1023 := by cases f <;> decide

/-- Powers of two from the least normal one to the greatest. -/
theorem holds_pow {F : Format} (hF : F.Ieee) {k : Int} (hlow : F.emin ≤ k) (hhigh : k ≤ F.bias) :
    Fits F.p (some (F.emin - (F.p - 1 : Int))) (2 ^ k) ∧ |(2 : ℝ) ^ k| ≤ F.maxM * (2 : ℝ) ^ F.maxQ := by
  have hprec := hF.prec
  refine ⟨⟨1, k, by simp, Nat.one_lt_two_pow (by omega), fun t ht => by cases ht; omega⟩, ?_⟩
  rw [abs_of_pos (two_zpow_pos k)]
  have hmax : 2 ^ (F.p - 1) ≤ F.maxM := by
    have := hF.pow_p; have := Nat.two_pow_pos (F.p - 1); rw [hF.most]; omega
  calc (2 : ℝ) ^ k ≤ 2 ^ (F.maxQ + ((F.p - 1 : Nat) : Int)) := zpow_le_zpow_right₀ (by norm_num) (by have := hF.high; omega)
    _ = 2 ^ (F.p - 1) * 2 ^ F.maxQ := two_zpow_add_nat _ _
    _ ≤ F.maxM * 2 ^ F.maxQ := mul_le_mul_of_nonneg_right (by exact_mod_cast hmax) (two_zpow_pos _).le

/-- Integers of the format's precision. -/
theorem holds_int {F : Format} (hF : F.Ieee) (hq : 0 ≤ F.maxQ) {k : Int} (hk : k.natAbs < 2 ^ F.p) :
    Fits F.p (some (F.emin - (F.p - 1 : Int))) (k : ℝ) ∧ |(k : ℝ)| ≤ F.maxM * (2 : ℝ) ^ F.maxQ := by
  have hprec := hF.prec
  have hbias := hF.biased
  have hlow := hF.low
  refine ⟨⟨k, 0, by simp, hk, fun t ht => by cases ht; omega⟩, ?_⟩
  have habs : |(k : ℝ)| = (k.natAbs : ℝ) := by rw [Nat.cast_natAbs, Int.cast_abs]
  have hle : (k.natAbs : ℝ) ≤ F.maxM := by rw [hF.most]; exact_mod_cast Nat.le_sub_one_of_lt hk
  have hone : (1 : ℝ) ≤ 2 ^ F.maxQ := one_le_zpow₀ (by norm_num) hq
  rw [habs]
  nlinarith [(Nat.cast_nonneg F.maxM : (0 : ℝ) ≤ F.maxM)]

section
variable {F : Format} (hF : F.Ieee) {dir : Nat} (hdir : dir < 5)
include hF hdir

theorem exactly_pow {k : Int} (hlow : F.emin ≤ k) (hhigh : k ≤ F.bias) : Exactly F (2 ^ k) (F.ofFin dir (false, 1, k)) := by
  obtain ⟨hfits, hmax⟩ := holds_pow hF hlow hhigh
  refine exactly_of_stands hdir hfits hmax (z := false) ?_
  have := ofFin_stands hF false 1 k hdir
  simpa [realOf_fin, signedReal] using this

theorem exactly_one : Exactly F 1 (F.ofFin dir (false, 1, 0)) := by
  have := hF.low; have := hF.biased
  simpa using exactly_pow hF hdir (k := 0) (by omega) (by omega)

theorem exactly_int (hq : 0 ≤ F.maxQ) {k : Int} (hk : k.natAbs < 2 ^ F.p) : Exactly F k (F.ofInt dir k) := by
  obtain ⟨hfits, hmax⟩ := holds_int hF hq hk
  refine exactly_of_stands hdir hfits hmax (z := false) ?_
  have h := ofFin_int_stands hF k 0 hdir
  rwa [zpow_zero, mul_one] at h

/-- One with a sign, as the functions give it. -/
theorem exactly_unit (hq : 0 ≤ F.maxQ) (n : Bool) : Exactly F (if n then -1 else 1) (F.ofFin dir (n, 1, 0)) := by
  have h1 : 1 < 2 ^ F.p := Nat.one_lt_two_pow (by have := hF.prec; omega)
  cases n
  · have h := exactly_int hF hdir hq (k := 1) h1
    rw [Int.cast_one] at h
    exact h
  · have h := exactly_int hF hdir hq (k := -1) (by rwa [Int.natAbs_neg])
    rw [Int.cast_neg, Int.cast_one] at h
    exact h

end

/-! ### Operands with a whole or a half value -/

theorem natAbs_cast_real (k : Int) : (k.natAbs : ℝ) = |(k : ℝ)| := by rw [Nat.cast_natAbs, Int.cast_abs]

/-- A magnitude that is a natural number is found as one. -/
theorem asInt_eq {m : Nat} {e : Int} {K : Nat} (hm : m ≠ 0) (h : (m : ℝ) * 2 ^ e = K) : asInt m e = some K := by
  rw [asInt]
  split
  · next he =>
    have hpow : (2 : ℝ) ^ e = (2 ^ e.toNat : Nat) := by
      rw [two_zpow_split he]; simp
    rw [hpow] at h
    exact congrArg some (by exact_mod_cast h)
  · next he =>
    have hneg : (2 : ℝ) ^ (0 : Int) = (2 ^ (0 - e).toNat : Nat) * 2 ^ e := two_zpow_split (by omega)
    rw [zpow_zero, zero_sub] at hneg
    have hval : m = K * 2 ^ (-e).toNat := by
      have : (m : ℝ) = K * (2 ^ (-e).toNat : Nat) := by
        calc (m : ℝ) = m * ((2 ^ (-e).toNat : Nat) * 2 ^ e) := by rw [← hneg, mul_one]
          _ = (m * 2 ^ e) * (2 ^ (-e).toNat : Nat) := by ring
          _ = K * (2 ^ (-e).toNat : Nat) := by rw [h]
      exact_mod_cast this
    have hpos := Nat.two_pow_pos (-e).toNat
    have hK : 1 ≤ K := Nat.one_le_iff_ne_zero.mpr fun hc => hm (by rw [hval, hc, zero_mul])
    have hlen : (-e).toNat ≤ bitLen m := by
      obtain ⟨-, -, hlt⟩ := bitLen_bounds (Nat.pos_of_ne_zero hm)
      refine (Nat.pow_lt_pow_iff_right (a := 2) (by norm_num)).mp (lt_of_le_of_lt ?_ hlt) |>.le
      rw [hval]; exact Nat.le_mul_of_pos_left _ hK
    have hmod : m % 2 ^ (-e).toNat = 0 := by rw [hval, Nat.mul_mod_left]
    have hdiv : m / 2 ^ (-e).toNat = K := by rw [hval, Nat.mul_div_cancel _ hpos]
    rw [hmod, hdiv]
    simp [hlen]

/-- The sign and the magnitude of an operand whose value is known. -/
theorem sign_of_value {n : Bool} {m : Nat} {e : Int} {x : ℝ} (hm : m ≠ 0) (h : realOf (.fin n m e) = x) :
    (m : ℝ) * 2 ^ e = |x| ∧ (n = true ↔ x < 0) := by
  have hpos : (0 : ℝ) < m * 2 ^ e := mul_pos (by exact_mod_cast Nat.pos_of_ne_zero hm) (two_zpow_pos e)
  rw [realOf_fin] at h
  rw [← h, abs_signedReal, abs_of_pos hpos]
  exact ⟨rfl, (signedReal_neg_iff hpos).1.symm⟩

theorem twice_magnitude (m : Nat) (e : Int) : (m : ℝ) * 2 ^ (e + 1) = 2 * (m * 2 ^ e) := by
  rw [show e + 1 = e + ((1 : Nat) : Int) from rfl, two_zpow_add_nat]; ring

/-- The leading bit of a magnitude that is a power of two. -/
theorem topExp_of_pow {m : Nat} {e k : Int} (hm : m ≠ 0) (h : (m : ℝ) * 2 ^ e = 2 ^ k) : topExp m e = k ∧ m = 2 ^ (bitLen m - 1) := by
  obtain ⟨hlow, hhigh⟩ := near_bounds (Nat.pos_of_ne_zero hm) (show Near m e false (2 ^ k) from h.symm)
  have h1 := (zpow_le_zpow_iff_right₀ (by norm_num : (1 : ℝ) < 2)).mp hlow
  have h2 := (zpow_lt_zpow_iff_right₀ (by norm_num : (1 : ℝ) < 2)).mp hhigh
  have htop : topExp m e = k := by omega
  obtain ⟨hlen, -, -⟩ := bitLen_bounds (Nat.pos_of_ne_zero hm)
  refine ⟨htop, ?_⟩
  have hsplit : (2 : ℝ) ^ k = (2 ^ (bitLen m - 1) : Nat) * 2 ^ e := by
    rw [← htop, show topExp m e = e + ((bitLen m - 1 : Nat) : Int) by unfold topExp; omega, two_zpow_add_nat]; push_cast; rfl
  rw [hsplit] at h
  exact_mod_cast mul_right_cancel₀ (two_zpow_pos e).ne' h

/-! ### The functions on such operands -/

section
variable {f : Fmt} {dir : Nat} (hdir : dir < 5) {n : Bool} {m : Nat} {e : Int} (hm : m ≠ 0)
include hm

theorem log_one (h : realOf (.fin false m e) = 1) (F : Format) : F.fn .log dir (.fin false m e) = (0, 0) := by
  have hval : (m : ℝ) * 2 ^ e = (1 : Nat) := by simpa [realOf_fin, signedReal] using h
  simp only [Format.fn, hm, if_false, Bool.false_eq_true, asInt_eq hm hval, if_true]

theorem log2_pow {k : Int} (h : realOf (.fin n m e) = (2 : ℝ) ^ k) (F : Format) : F.fn .log2 dir (.fin n m e) = F.ofInt dir k := by
  obtain ⟨hval, hsign⟩ := sign_of_value hm h
  rw [abs_of_pos (two_zpow_pos k)] at hval
  have hn : n = false := Bool.eq_false_iff.mpr fun hc => absurd (hsign.mp hc) (not_lt.mpr (two_zpow_pos k).le)
  obtain ⟨htop, hpow⟩ := topExp_of_pow hm hval
  simp only [Format.fn, hm, hn, if_false, Bool.false_eq_true]
  rw [if_pos hpow]
  exact congrArg (F.ofInt dir) htop

include hdir

theorem exp2_int {k : Int} (h : realOf (.fin n m e) = k) (hlow : (formatOf f).emin ≤ k) (hhigh : k ≤ (formatOf f).bias) :
    Exactly (formatOf f) (2 ^ k) ((formatOf f).fn .exp2 dir (.fin n m e)) := by
  have hF := ieee_formatOf f
  obtain ⟨hval, hsign⟩ := sign_of_value hm h
  rw [← natAbs_cast_real] at hval
  have hsmall : ¬ 16 < e + (bitLen m : Int) := fun hc => by
    obtain ⟨htop, -⟩ := near_bounds (Nat.pos_of_ne_zero hm) (show Near m e false (k.natAbs : ℝ) from hval.symm)
    have h1 : (2 : ℝ) ^ (16 : Int) ≤ k.natAbs := (zpow_le_zpow_right₀ (by norm_num) (by unfold topExp; omega)).trans htop
    have h2 : 2 ^ 16 ≤ k.natAbs := by exact_mod_cast h1
    have := bias_le f; have := hF.low
    omega
  have hk : (if n then -((k.natAbs : Nat) : Int) else (k.natAbs : Int)) = k := by
    have hs : n = true ↔ k < 0 := hsign.trans (by exact_mod_cast Iff.rfl)
    cases n
    · have : ¬ k < 0 := fun hc => Bool.false_ne_true (hs.mpr hc)
      rw [if_neg Bool.false_ne_true]; omega
    · have : k < 0 := hs.mp rfl
      rw [if_pos rfl]; omega
  simp only [Format.fn, hm, if_false, hsmall, asInt_eq hm hval, hk]
  exact exactly_pow hF hdir hlow hhigh

/-- sin and cos of π times a whole number. -/
theorem trigPi_int {k : Int} (h : realOf (.fin n m e) = k) : (formatOf f).fn .sinpi dir (.fin n m e) = ((formatOf f).sgn n, 0) ∧
    Exactly (formatOf f) (if k % 2 = 0 then 1 else -1) ((formatOf f).fn .cospi dir (.fin n m e)) := by
  obtain ⟨hval, -⟩ := sign_of_value hm h
  have htwice : (m : ℝ) * 2 ^ (e + 1) = (2 * k.natAbs : Nat) := by
    rw [twice_magnitude, hval, ← natAbs_cast_real]; push_cast; rfl
  simp only [Format.fn, hm, if_false, asInt_eq hm htwice]
  refine ⟨if_pos (by omega), ?_⟩
  rw [if_neg (c := 2 * k.natAbs % 2 = 1) (by omega)]
  have hodd : (2 * k.natAbs % 4 == 2) = decide (¬ k % 2 = 0) := by
    rw [Bool.eq_iff_iff, beq_iff_eq, decide_eq_true_iff]; omega
  have hres := exactly_unit (ieee_formatOf f) hdir (maxQ_nonneg f) (2 * k.natAbs % 4 == 2)
  rw [hodd] at hres ⊢
  by_cases hk : k % 2 = 0
  · rw [if_pos hk]; simpa [hk] using hres
  · rw [if_neg hk]; simpa [hk] using hres

/-- sin and cos of π times half an odd number. -/
theorem trigPi_half {k : Int} (h : realOf (.fin n m e) = k + 1 / 2) : (formatOf f).fn .cospi dir (.fin n m e) = (0, 0) ∧
    Exactly (formatOf f) (if k % 2 = 0 then 1 else -1) ((formatOf f).fn .sinpi dir (.fin n m e)) := by
  obtain ⟨hval, hsign⟩ := sign_of_value hm h
  have hreal : ((2 * k + 1 : Int) : ℝ) = 2 * (k + 1 / 2) := by push_cast; ring
  have htwice : (m : ℝ) * 2 ^ (e + 1) = (2 * k + 1).natAbs := by
    rw [twice_magnitude, hval, natAbs_cast_real, hreal, abs_mul, abs_of_pos (by norm_num : (0 : ℝ) < 2)]
  have hs : n = true ↔ 2 * k + 1 < 0 := by
    rw [hsign, ← Int.cast_lt (R := ℝ), hreal, Int.cast_zero]
    constructor <;> intro hc <;> linarith
  simp only [Format.fn, hm, if_false, asInt_eq hm htwice]
  refine ⟨if_pos (by omega), ?_⟩
  rw [if_neg (c := (2 * k + 1).natAbs % 2 = 0) (by omega)]
  have hodd : (((2 * k + 1).natAbs % 4 == 3) ^^ n) = decide (¬ k % 2 = 0) := by
    rw [Bool.eq_iff_iff, decide_eq_true_iff]
    cases n
    · have : ¬ 2 * k + 1 < 0 := fun hc => Bool.false_ne_true (hs.mpr hc)
      rw [Bool.xor_false, beq_iff_eq]; omega
    · have : 2 * k + 1 < 0 := hs.mp rfl
      rw [Bool.xor_true, Bool.not_eq_true', beq_eq_false_iff_ne]; omega
  have hres := exactly_unit (ieee_formatOf f) hdir (maxQ_nonneg f) (((2 * k + 1).natAbs % 4 == 3) ^^ n)
  rw [hodd] at hres ⊢
  by_cases hk : k % 2 = 0
  · rw [if_pos hk]; simpa [hk] using hres
  · rw [if_neg hk]; simpa [hk] using hres

end

/-! ### The words -/

/-- What a function gives of its source in a lane. -/
def fnResults (f : Fmt) (r : Sys2Proof.Dir) (d : RegIx) (c : Src) (fn : Fn) (B : Block) (w : Ctl) (l : Nat) : Option Results :=
  let x : FEnv := { e := w.env l, b := B }
  ((formatOf f).op B.snant (x.fz f) [x.src f c] fun v => (formatOf f).fn fn (x.dir r) (nth v 0)).map fun y =>
    (x.e.out f.wide d (BitVec.ofNat 64 y.1), [], y.2)

/-- A floating-point word of one source, whose result lands later. -/
theorem fnWord {i : Instr} {h : Hdr} {f : Fmt} {r : Sys2Proof.Dir} {d : RegIx} {c : Src} {fn : Fn}
    (hex : ∀ s, exec i s = s.fpWord i h (opsOf c) fun x => x.op f d [x.src f c] fun vs => (formatOf f).fn fn (x.dir r) (nth vs 0))
    (hl : (instrUses i).landing = true) : FpWord i h c.isU true (fnResults f r d c fn) :=
  fpWord_intro (opsOf c) (fun x => x.op f d [x.src f c] fun vs => (formatOf f).fn fn (x.dir r) (nth vs 0)) _ hex (fun B w l => by
    simp only [FEnv.op, fnResults]
    generalize (formatOf f).op _ _ _ _ = res
    cases res <;> rfl) rfl hl

/-- Settles O17: the words by the one that takes a function of its source, their results by the exact cases that the model takes apart. -/
theorem functions : Obligations.Functions := by
  intro h f r d c F word
  have hF : F.Ieee := ieee_formatOf f
  have hland : ∀ cW, (uSrc 0 f.wide d [] cW c true).landing = true := fun cW => uSrc_landing 0 f.wide d [] cW c true
  refine ⟨fnWord (fun _ => rfl) (hland _), fnWord (fun _ => rfl) (hland _), fnWord (fun _ => rfl) (hland _), fnWord (fun _ => rfl) (hland _),
    fnWord (fun _ => rfl) (hland _), fnWord (fun _ => rfl) (hland _), fnWord (fun _ => rfl) (hland _), fnWord (fun _ => rfl) (hland _),
    fnWord (fun _ => rfl) (hland _), fnWord (fun _ => rfl) (hland _), fun dir hdir => ?_⟩
  intro is zero inf nan
  have hone : is 1 (F.ofFin dir (false, 1, 0)) := exactly_one hF hdir
  have hhalf : is (1 / 2) (F.ofFin dir (false, 1, -1)) := by
    have := hF.low; have := hF.biased
    have hb : 2 ≤ F.bias := by show 2 ≤ (formatOf f).bias; cases f <;> decide
    have h := exactly_pow hF hdir (k := -1) (by omega) (by omega)
    rwa [zpow_neg_one, ← one_div] at h
  refine ⟨fun n e => ⟨hone, hone, rfl, rfl, rfl, hone, rfl, hone, rfl, hhalf⟩, ?_, ?_, ?_, ?_, ?_⟩
  · rintro fn (rfl | rfl) <;> exact ⟨rfl, by simp [Format.fn, Format.inf, inf, sgn_eq]⟩
  · rintro fn (rfl | rfl)
    · refine ⟨rfl, by simp [Format.fn, Format.inf, inf, sgn_eq], fun m e hm => ?_, fun m e h1 => ?_⟩
      · simp [Format.fn, hm.ne', Format.invalid, nan, flagNV]
      · have hm : m ≠ 0 := by rintro rfl; simp [realOf] at h1
        exact log_one hm h1 F
    · refine ⟨rfl, by simp [Format.fn, Format.inf, inf, sgn_eq], fun m e hm => ?_, fun m e h1 => ?_⟩
      · simp [Format.fn, hm.ne', Format.invalid, nan, flagNV]
      · have hm : m ≠ 0 := by rintro rfl; simp [realOf] at h1
        rw [log2_pow hm (k := 0) (by rw [zpow_zero]; exact h1)]
        rfl
  · rintro fn n (rfl | rfl | rfl | rfl) <;> rfl
  · intro n
    have hunit : is (if n then -1 else 1) (F.ofFin dir (n, 1, 0)) := exactly_unit hF hdir (maxQ_nonneg f) n
    refine ⟨hunit, ?_⟩
    cases n
    · exact hone
    · rfl
  · intro n m e k hm
    exact ⟨fun hk hlow hhigh => exp2_int hdir hm hk hlow hhigh,
      fun hk _ hp => by rw [log2_pow hm hk]; exact exactly_int hF hdir (maxQ_nonneg f) hp,
      fun hk => trigPi_int hdir hm hk, fun hk => trigPi_half hdir hm hk⟩

end Sys2Proof.Machine
end

section
/-! SUPPORT. O38: the system words (R215, R299, R310, R426 to R430). -/
namespace Sys2Proof.Machine

open Sys2Proof.Safety

/-! ### A word that changes nothing but its group -/

/-- Of a state, only this group may have changed. -/
structure Regroups (s s2 : State) (gid : Nat) (gm : Group) : Prop where
  here : s2.group gid = some gm
  same : ∀ x, s2.setGroup gid x = s.setGroup gid x

theorem Regroups.refl {s : State} {gid : Nat} {g : Group} (h : s.group gid = some g) : Regroups s s gid g := ⟨h, fun _ => rfl⟩

theorem Regroups.set {s s2 : State} {gid : Nat} {gm : Group} (h : Regroups s s2 gid gm) (x : Group) : Regroups s (s2.setGroup gid x) gid x :=
  ⟨by rw [group_setGroup, if_pos rfl], fun y => by rw [setGroup_setGroup, h.same]⟩

theorem Regroups.clk {s s2 : State} {gid : Nat} {gm : Group} (h : Regroups s s2 gid gm) : s2.clk = s.clk :=
  (congrArg State.clk (h.same gm) :)

/-- The words of this file wait for no answer and run each lane on its own operands. -/
structure Plain (s : State) (g : Group) (h : Hdr) (o : WordOps) : Prop where
  vector : o.u = false
  core : o.mem = false
  sync : o.sync = true → s.settled s.cur.gid g = true
  ready : o.ready (readyCtl s g h false) s = true
  fin : o.fin = fun _ s => s

section
variable {s : State} {g : Group} {h : Hdr} {i : Instr} (hw : WordReady s g h i) {o : WordOps} {body : Ctl → Nat → State → LaneRes × State}
  (hex : exec i s = s.word i h o body) (ho : Plain s g h o)
include hw hex ho

/-- A word whose lanes leave the group `gm`, each with a result that only moves it. -/
theorem word_settles {s2 : State} {gm : Group} (hs2 : Regroups s s2 s.cur.gid gm) (rs : List (Nat × LaneRes)) (r : Nat → LaneRes)
    (hrun : runLanes (body (readyCtl s g h false)) ((readyCtl s g h false).runners o) s = (rs, s2))
    (hspread : (readyCtl s g h false).spread o rs = (lanesOf (active s g h)).map fun l => (l, r l))
    (hset : ∀ l ∈ lanesOf (active s g h), settlesIn (gm.lane l) (r l)) :
    ∃ g', exec i s = .next (s.setGroup s.cur.gid g') ∧ Settles s s2 g gm g' h (instrUses i).landing o.once r := by
  obtain ⟨g', hfin, hsettles⟩ := finishWord_settles (s := s) (g := g) (h := h) g (readyCtl s g h false) ⟨rfl, rfl, rfl⟩ (instrUses i) o r hs2.here hset
  refine ⟨g', ?_, hsettles⟩
  rw [hex, State.word, issueWord_acts hw o body ho.core ho.sync (by rw [ho.vector]; exact ho.ready) ho.fin, ho.vector]
  show Host.Outcome.next ((runLanes (body (readyCtl s g h false)) ((readyCtl s g h false).runners o) s).2.finishWord g (readyCtl s g h false)
    s.cur.lanes h.stall.toNat (instrUses i) o ((readyCtl s g h false).spread o
      (runLanes (body (readyCtl s g h false)) ((readyCtl s g h false).runners o) s).1)) = _
  rw [hrun, hspread, hfin, hs2.same]

/-- A word whose lanes change nothing but themselves: in each active lane, or once. -/
theorem word_steady (r : Nat → LaneRes)
    (hb : ∀ l ∈ lanesOf (active s g h), body (readyCtl s g h false) l s = (r l, s))
    (hset : ∀ l ∈ lanesOf (active s g h), settlesIn (g.lane l) (if o.once then r (oneLane s g h) else r l)) :
    ∃ g', exec i s = .next (s.setGroup s.cur.gid g') ∧
      Settles s s g g g' h (instrUses i).landing o.once fun l => if o.once then r (oneLane s g h) else r l := by
  have hsub : ∀ l ∈ (readyCtl s g h false).runners o, l ∈ lanesOf (active s g h) := fun l hl => by
    rw [Ctl.runners, ho.core] at hl
    cases hone : o.once
    · rwa [hone] at hl
    · rw [hone] at hl; exact List.mem_of_mem_take hl
  refine word_settles hw hex ho (Regroups.refl hw.here) (((readyCtl s g h false).runners o).map fun l => (l, r l)) _
    (runLanes_same _ _ _ _ fun l hl => hb l (hsub l hl)) ?_ hset
  cases hone : o.once
  · have := spread_each s g h o hone ho.core fun _ l => r l
    simpa only [ho.vector, Bool.false_eq_true, if_false] using this
  · have := spread_once s g h o hone fun _ l => r l
    simpa only [ho.vector, if_true] using this

end

/-- A group that differs in lanes alone from the one before the word. -/
theorem groupAfter_regrouped {s s2 : State} {g gm g' : Group} {h : Hdr} (hclk : s2.clk = s.clk) (hgm : gm = { g with lanes := gm.lanes })
    (hafter : groupAfter s2 gm g' h) : groupAfter s g g' h := by
  unfold groupAfter at hafter ⊢
  rw [hgm, hclk] at hafter
  exact hafter

theorem setRegs_flags (ln : Lane) (ws : List (Nat × Word)) : (ln.setRegs ws).flags = ln.flags := by rw [setRegs_frame]

theorem after_done_nil (ln : Lane) (pc : DWord) (len : Nat) (once : Bool) :
    settledLane pc len false once ln (.done [] [] 0) = { ln with pc := pc + BitVec.ofNat 64 len } := by
  cases once <;> simp [settledLane, Lane.after, LaneRes.noRegs, Lane.setRegs, Lane.setPreds]

/-- Are the results of the lanes all there (R215)? -/
def landedIn (c : Ctl) (s : State) : Bool :=
  match s.group c.gid with
  | some g => (lanesOf c.act).all fun l => s.laneSettled g c.gid l
  | none => true

theorem landedIn_ready {s : State} {g : Group} {h : Hdr} (hg : s.group s.cur.gid = some g)
    (hn : ∀ l, (active s g h).getLsbD l = true → s.laneSettled g s.cur.gid l = true) : landedIn (readyCtl s g h false) s = true := by
  have hgid : s.group (readyCtl s g h false).gid = some g := hg
  rw [landedIn, hgid]
  exact List.all_eq_true.mpr fun l hl => hn l (mem_lanesOf.mp hl).2

/-! ### CSRR (R310, R426) -/

theorem csrr_landing (h : Hdr) (toG : Bool) (d n : RegIx) : (instrUses (.csrr h toG d n)).landing = false := by
  cases toG <;> rfl

theorem csrr_plain {s : State} {g : Group} {h : Hdr} {toG : Bool} {n : RegIx} (hg : s.group s.cur.gid = some g)
    (hn : n = 0x023#9 → ∀ l, (active s g h).getLsbD l = true → s.laneSettled g s.cur.gid l = true) :
    Plain s g h { once := toG, ready := fun c s => n != 0x023#9 || landedIn c s } := by
  refine ⟨rfl, rfl, fun hc => absurd hc Bool.false_ne_true, ?_, rfl⟩
  show (n != 0x023#9 || landedIn (readyCtl s g h false) s) = true
  by_cases hc : n = 0x023#9
  · rw [landedIn_ready hg (hn hc), Bool.or_true]
  · simp [hc]

/-- The registers of CSRR. -/
def csrRegs (toG : Bool) (d n : RegIx) (x : DWord) : List (Nat × Word) :=
  if csrWide n.toNat then pairW d.toNat (if toG then 127 else 511) x else [(d.toNat, BitVec.extractLsb' 0 32 x)]

/-- CSRR of a number that it accepts. -/
theorem csrr_gives {s : State} {g : Group} {h : Hdr} {toG : Bool} {d n : RegIx} (hw : WordReady s g h (.csrr h toG d n))
    (hn : n = 0x023#9 → ∀ l, (active s g h).getLsbD l = true → s.laneSettled g s.cur.gid l = true) (hok : csrOk toG n.toNat = true) :
    ∃ g', exec (.csrr h toG d n) s = .next (s.setGroup s.cur.gid g') ∧
      lanesAfter s g g' h (fun l ln => if toG then ln else ln.setRegs (csrRegs toG d n (s.csr g l s.cur.pc n.toNat))) ∧
      g'.g = (if toG ∧ active s g h ≠ 0 then g.setGrs (csrRegs toG d n (s.csr g (oneLane s g h) s.cur.pc n.toNat)) else g).g ∧
      g'.landings = g.landings ∧ groupAfter s g g' h := by
  obtain ⟨g', hnext, hsettles⟩ := word_steady hw (o := _) (body := _) rfl (csrr_plain hw.here hn)
    (fun l => .done (csrRegs toG d n (s.csr g l s.cur.pc n.toNat)) [] 0)
    (fun l _ => by simp only [hok, Bool.not_true, Bool.false_eq_true, if_false]; rfl) (fun l _ => by cases toG <;> trivial)
  rw [csrr_landing] at hsettles
  refine ⟨g', hnext, fun l hl => ?_, ?_, hsettles.landings, hsettles.group⟩
  · rw [hsettles.lanes l hl]
    refine if_congr Iff.rfl ?_ rfl
    by_cases ha : (active s g h).getLsbD l = true
    · rw [if_pos ha, if_pos ha]
      cases toG
      · simp [settledLane, Lane.after, Lane.setPreds, setRegs_flags]
      · exact after_done_nil _ _ _ true
    · rw [if_neg ha, if_neg ha]
  · rw [hsettles.regs]
    cases toG
    · simp
    · cases hls : lanesOf (active s g h) with
      | nil => simp [lanesOf_nil.mp hls, firstRegs, Group.setGrs]
      | cons l ls =>
        have hne : active s g h ≠ 0 := fun hc => by rw [lanesOf_nil.mpr hc] at hls; exact nomatch hls
        rw [if_pos (c := true = true ∧ _) ⟨rfl, hne⟩]
        rfl

/-- CSRR of a number that it does not accept. -/
theorem csrr_traps {s : State} {g : Group} {h : Hdr} {toG : Bool} {d n : RegIx} (hw : WordReady s g h (.csrr h toG d n))
    (hn : n = 0x023#9 → ∀ l, (active s g h).getLsbD l = true → s.laneSettled g s.cur.gid l = true) (hok : csrOk toG n.toNat = false)
    (hh : ∀ l, (active s g h).getLsbD l = true → (g.lane l).handler = false) :
    ∃ g', exec (.csrr h toG d n) s = .next (s.setGroup s.cur.gid g') ∧ lanesRun s g g' h (fun _ ln => ln.trap 0x22 0 0) ∧
      g'.g = g.g ∧ g'.landings = g.landings ∧ groupAfter s g g' h := by
  obtain ⟨g', hnext, hsettles⟩ := word_steady hw (o := _) (body := _) rfl (csrr_plain hw.here hn) (fun _ => badOperand)
    (fun l _ => by simp only [hok, Bool.not_false, if_true]) (fun l hl => by rw [ite_self]; exact hh l (mem_lanesOf.mp hl).2)
  rw [csrr_landing] at hsettles
  simp only [ite_self] at hsettles
  refine ⟨g', hnext, hsettles.lanes, hsettles.regs.trans ?_, hsettles.landings, hsettles.group⟩
  cases toG
  · rfl
  · cases lanesOf (active s g h) <;> rfl

/-! ### CSRW (R215, R426) -/

/-- Lanes that each rewrite themselves in the group, or leave it. -/
theorem runLanes_rewrite {s : State} {gid : Nat} (f : Nat → State → LaneRes × State) (r : Nat → LaneRes) (upd : Nat → Lane → Lane) (ls : List Nat)
    (hn : ls.Nodup) (hb : ∀ l ∈ ls, ∀ s2 gm, s2.group gid = some gm → f l s2 = (r l, s2) ∧ upd l = id ∨
      f l s2 = (r l, s2.setGroup gid (gm.setLane l (upd l (gm.lane l))))) {s2 : State} {g : Group} (hs2 : Regroups s s2 gid g) :
    ∃ s3 gm, runLanes f ls s2 = (ls.map fun l => (l, r l), s3) ∧ Regroups s s3 gid gm ∧ gm = { g with lanes := gm.lanes } ∧
      ∀ l, gm.lane l = if l ∈ ls then upd l (g.lane l) else g.lane l := by
  induction ls generalizing s2 g with
  | nil => exact ⟨s2, g, rfl, hs2, rfl, fun l => by simp⟩
  | cons a ls ih =>
    obtain ⟨ha, hn⟩ := List.nodup_cons.mp hn
    have hstep : ∃ s3 g3, f a s2 = (r a, s3) ∧ Regroups s s3 gid g3 ∧ g3 = { g with lanes := g3.lanes } ∧
        ∀ l, g3.lane l = if l = a then upd a (g.lane a) else g.lane l := by
      rcases hb a List.mem_cons_self s2 g hs2.here with ⟨hf, hid⟩ | hf
      · refine ⟨s2, g, hf, hs2, rfl, fun l => ?_⟩
        rw [hid]; split
        · next hl => rw [hl, id]
        · rfl
      · exact ⟨_, _, hf, hs2.set _, rfl, fun l => lane_setLane _ _ _ _⟩
    obtain ⟨s3, g3, hf, hs3, hg3, hl3⟩ := hstep
    obtain ⟨s4, g4, hrun, hs4, hg4, hl4⟩ := ih hn (fun l hl => hb l (List.mem_cons_of_mem _ hl)) hs3
    refine ⟨s4, g4, by simp only [runLanes, hf, hrun, List.map_cons], hs4, by rw [hg4, hg3], fun l => ?_⟩
    rw [hl4, hl3]
    by_cases hla : l = a
    · subst hla; simp [ha]
    · simp [hla]

/-- What CSRW makes of a lane, and how the lane ends. -/
def csrwRes (n : RegIx) (x : Word) : LaneRes :=
  if n = 0x022#9 then if 5 ≤ x.toNat % 8 then badOperand else .done [] [] 0
  else if n = 0x023#9 then .done [] [] 0 else badOperand

def csrwLane (n : RegIx) (x : Word) (ln : Lane) : Lane :=
  if n = 0x022#9 then if 5 ≤ x.toNat % 8 then ln else { ln with rm := BitVec.extractLsb' 0 3 x }
  else if n = 0x023#9 then { ln with flags := BitVec.extractLsb' 0 5 x } else ln

theorem csrwLane_handler (n : RegIx) (x : Word) (ln : Lane) : (csrwLane n x ln).handler = ln.handler := by
  unfold csrwLane; split_ifs <;> rfl

/-- CSRW in one lane, as the model has it. -/
def csrwBody (n : RegIx) (c : Kind) (w : Ctl) (l : Nat) (s : State) : LaneRes × State :=
  let set := fun (f : Lane → Lane) =>
    match s.group w.gid with
    | some g => s.setGroup w.gid (g.setLane l (f (g.lane l)))
    | none => s
  if n = 0x022#9 then
    if 5 ≤ ((w.env l).kind c).toNat % 8 then (badOperand, s)
    else (.done [] [] 0, set fun ln => { ln with rm := BitVec.extractLsb' 0 3 ((w.env l).kind c) })
  else if n = 0x023#9 then (.done [] [] 0, set fun ln => { ln with flags := BitVec.extractLsb' 0 5 ((w.env l).kind c) })
  else (badOperand, s)

theorem csrwBody_eq (n : RegIx) (c : Kind) (w : Ctl) (l : Nat) {s : State} {gm : Group} (hg : s.group w.gid = some gm) :
    csrwBody n c w l s = (csrwRes n ((w.env l).kind c), s) ∧ csrwLane n ((w.env l).kind c) = id ∨
      csrwBody n c w l s = (csrwRes n ((w.env l).kind c), s.setGroup w.gid (gm.setLane l (csrwLane n ((w.env l).kind c) (gm.lane l)))) := by
  by_cases hrm : n = 0x022#9
  · by_cases hbad : 5 ≤ ((w.env l).kind c).toNat % 8
    · left; simp only [csrwBody, csrwRes, hrm, if_true, hbad, true_and]
      funext ln; simp only [csrwLane, if_true, hbad, id]
    · right; simp only [csrwBody, csrwRes, csrwLane, hrm, if_true, hbad, if_false, hg]
  · by_cases hfl : n = 0x023#9
    · right; subst hfl
      simp only [csrwBody, csrwRes, csrwLane, if_true, hg]; rfl
    · left; simp only [csrwBody, csrwRes, hrm, hfl, if_false, true_and]
      funext ln; simp only [csrwLane, hrm, hfl, if_false, id]

theorem csrw_plain {s : State} {g : Group} {h : Hdr} (hg : s.group s.cur.gid = some g)
    (hn : ∀ l, (active s g h).getLsbD l = true → s.laneSettled g s.cur.gid l = true) : Plain s g h { ready := landedIn } :=
  ⟨rfl, rfl, fun hc => absurd hc Bool.false_ne_true, landedIn_ready hg hn, rfl⟩

/-- Where the lane's result is a trap, it stands outside handler mode. -/
theorem csrwRes_settles {n : RegIx} {x : Word} {ln : Lane} (h : (n ≠ 0x022#9 ∧ n ≠ 0x023#9) ∨ (n = 0x022#9 ∧ 5 ≤ x.toNat % 8) → ln.handler = false) :
    settlesIn ln (csrwRes n x) := by
  unfold csrwRes
  split_ifs with hrm hbad hfl
  · exact h (.inr ⟨hrm, hbad⟩)
  · trivial
  · trivial
  · exact h (.inl ⟨hrm, hfl⟩)

theorem csrw_runs (h : Hdr) (n : RegIx) (c : Kind) : Runs (.csrw h n c) h
    (fun s g => (∀ l, (active s g h).getLsbD l = true → s.laneSettled g s.cur.gid l = true) ∧
      ((n ≠ 0x022#9 ∧ n ≠ 0x023#9) ∨ (n = 0x022#9 ∧ ∃ l, (active s g h).getLsbD l = true ∧ 5 ≤ ((envOf false g l).kind c).toNat % 8) →
        ∀ l, (active s g h).getLsbD l = true → (g.lane l).handler = false))
    (fun s g l ln => settledLane s.cur.pc s.cur.len false false (csrwLane n ((envOf false g l).kind c) ln) (csrwRes n ((envOf false g l).kind c))) := by
  intro s g hw ⟨hland, htraps⟩
  have hactive : ∀ l ∈ lanesOf (active s g h), (active s g h).getLsbD l = true := fun l hl => (mem_lanesOf.mp hl).2
  obtain ⟨s2, gm, hrun, hs2, hgm, hlanes⟩ := runLanes_rewrite (csrwBody n c (readyCtl s g h false)) (fun l => csrwRes n ((envOf false g l).kind c))
    (fun l => csrwLane n ((envOf false g l).kind c)) (lanesOf (active s g h)) (lanesOf_nodup _)
    (fun l _ s2 gm hgm => csrwBody_eq n c _ l hgm) (Regroups.refl hw.here)
  obtain ⟨g', hnext, hsettles⟩ := word_settles hw (body := csrwBody n c) rfl (csrw_plain hw.here hland) hs2 _ (fun l => csrwRes n ((envOf false g l).kind c))
    hrun rfl (fun l hl => csrwRes_settles fun hbad => by
      rw [hlanes, if_pos hl, csrwLane_handler]
      exact htraps (hbad.imp_right fun ⟨hrm, hx⟩ => ⟨hrm, l, hactive l hl, hx⟩) l (hactive l hl))
  refine ⟨g', hnext, fun l hl => ?_, ?_, ?_, groupAfter_regrouped hs2.clk hgm hsettles.group⟩
  · rw [hsettles.lanes l hl, hlanes]
    by_cases ha : (active s g h).getLsbD l = true
    · have hmem := mem_lanesOf.mpr ⟨hl, ha⟩
      obtain ⟨-, hword, -⟩ := mem_active.mp hmem
      rw [if_pos hmem, if_pos ha, if_pos ha, if_pos hword, if_pos hword]
      rfl
    · rw [if_neg fun hc => ha (hactive l hc), if_neg ha, if_neg ha]
  · rw [hsettles.regs, hgm]; rfl
  · rw [hsettles.landings, hgm]; rfl

/-! ### TRAPRET (R285, R429) -/

theorem trapret_landing (h : Hdr) (onG : Bool) (c : RegIx) : (instrUses (.trapret h onG c)).landing = false := by
  cases onG <;> rfl

theorem trapret_handler {s : State} {g : Group} {h : Hdr} {onG : Bool} {c : RegIx} (hw : WordReady s g h (.trapret h onG c)) (l : Nat)
    (hl : (active s g h).getLsbD l = true) : (g.lane l).handler = true := by
  have hmem : l ∈ lanesOf (active s g h) := mem_lanesOf.mpr ⟨BitVec.lt_of_getLsbD hl, hl⟩
  refine hw.mode (by cases onG <;> rfl) l (mem_lanesOf.mpr ?_)
  obtain ⟨h32, hlanes, -⟩ := mem_active.mp hmem
  exact ⟨h32, hlanes⟩

theorem trapret_plain {s : State} {g : Group} {h : Hdr} (hs : s.settled s.cur.gid g = true) : Plain s g h { sync := true } :=
  ⟨rfl, rfl, fun _ => hs, rfl, rfl⟩

theorem targetFault_none {t : DWord} (h : t.toNat % 8 = 0 ∧ t.toNat < 2 ^ 57) : targetFault t = none := by
  rw [targetFault, if_neg (not_not.mpr h.1), if_neg (Nat.not_le.mpr h.2)]

theorem targetFault_some {t : DWord} (h : ¬ (t.toNat % 8 = 0 ∧ t.toNat < 2 ^ 57)) : ∃ code, code ≠ 0x39 ∧ targetFault t = some (.trap code 0 0) := by
  rw [targetFault]
  by_cases h8 : t.toNat % 8 = 0
  · exact ⟨0x26, by decide, by rw [if_neg (not_not.mpr h8), if_pos (Nat.not_lt.mp fun hc => h ⟨h8, hc⟩)]⟩
  · exact ⟨0x25, by decide, by rw [if_pos h8]⟩

/-- TRAPRET in one lane, as the model has it. -/
def trapretBody (onG : Bool) (c : RegIx) (w : Ctl) (l : Nat) (s : State) : LaneRes × State :=
  match targetFault ((w.env l).a64 onG c) with
  | some f => (f, s)
  | none => (.ret ((w.env l).a64 onG c), s)

/-- TRAPRET where every target is a word's address. -/
theorem trapret_returns {s : State} {g : Group} {h : Hdr} {onG : Bool} {c : RegIx} (hw : WordReady s g h (.trapret h onG c))
    (hs : s.settled s.cur.gid g = true) (hlegal : ∀ l, (active s g h).getLsbD l = true →
      ((envOf false g l).a64 onG c).toNat % 8 = 0 ∧ ((envOf false g l).a64 onG c).toNat < 2 ^ 57) :
    ∃ g', exec (.trapret h onG c) s = .next (s.setGroup s.cur.gid g') ∧
      lanesRun s g g' h (fun l ln => ln.trapReturn ((envOf false g l).a64 onG c)) ∧ g'.g = g.g ∧ groupAfter s g g' h ∧
      (g'.handling = true ↔ g.handling = true ∧ ∃ l, l < 32 ∧ (g'.lane l).handler = true ∧ (g'.lane l).st ≠ .exited) := by
  obtain ⟨g', hnext, hsettles⟩ := word_steady hw (body := trapretBody onG c) rfl (trapret_plain hs) (fun l => .ret ((envOf false g l).a64 onG c))
    (fun l hl => by
      have hfault : targetFault (((readyCtl s g h false).env l).a64 onG c) = none := targetFault_none (hlegal l (mem_lanesOf.mp hl).2)
      simp only [trapretBody, hfault]; rfl) (fun _ _ => trivial)
  rw [trapret_landing] at hsettles
  exact ⟨g', hnext, hsettles.lanes, hsettles.regs, hsettles.group, hsettles.handling⟩

/-- TRAPRET to another target faults in handler mode, which ends the launch (R286). -/
theorem trapret_faults {s : State} {g : Group} {h : Hdr} {onG : Bool} {c : RegIx} (hw : WordReady s g h (.trapret h onG c))
    (hs : s.settled s.cur.gid g = true) {l : Nat} (hl : lanesOf (active s g h) = [l])
    (hbad : ¬ (((envOf false g l).a64 onG c).toNat % 8 = 0 ∧ ((envOf false g l).a64 onG c).toNat < 2 ^ 57)) :
    ∃ g', exec (.trapret h onG c) s = .next ((s.setGroup s.cur.gid g').endLaunch g.launch .fault 0x1C) := by
  obtain ⟨code, hcode, hfault⟩ := targetFault_some hbad
  obtain ⟨hl32, hword, -⟩ := mem_active.mp (hl ▸ List.mem_singleton_self l)
  have hhandler := trapret_handler hw l (mem_lanesOf.mp (hl ▸ List.mem_singleton_self l)).2
  let c' := readyCtl s g h false
  let g1 := g.afterWord g c' s.cur.lanes h.stall.toNat (instrUses (.trapret h onG c)) { sync := true } s.clk s.next [(l, .trap code 0 0)]
  have hlane : g1.endHandling.lane l = g.lane l := by
    have hsame : g1.endHandling.lane l = g1.lane l := by rw [endHandling_same]; rfl
    rw [hsame, afterWord_lane _ _ _ _ _ _ _ _ _ _ hl32, if_pos hword]
    simp [Ctl.laneAfter, Lane.after]
  have hlaunch : g1.endHandling.launch = g.launch := by
    rw [endHandling_same]
    exact (congrArg Group.launch (afterWord_group g g c' s.cur.lanes h.stall.toNat (instrUses (.trapret h onG c)) { sync := true } s.clk s.next
      [(l, .trap code 0 0)]).2.2 :)
  have hbody : runLanes (trapretBody onG c c') [l] s = ([(l, .trap code 0 0)], s) := by
    have hfault' : targetFault ((c'.env l).a64 onG c) = some (.trap code 0 0) := hfault
    simp only [runLanes, trapretBody, hfault']
  have hrunners : c'.runners { sync := true } = [l] := hl
  have hexec : exec (.trapret h onG c) s =
      .next (s.issueWord h.gp.toNat h.gn h.stall.toNat (instrUses (.trapret h onG c)) { sync := true } (trapretBody onG c)) := rfl
  refine ⟨g1.endHandling, ?_⟩
  rw [hexec, issueWord_acts hw _ _ rfl (fun _ => hs) rfl rfl]
  show Host.Outcome.next ((runLanes (trapretBody onG c c') (c'.runners { sync := true }) s).2.finishWord g c' s.cur.lanes h.stall.toNat
    (instrUses (.trapret h onG c)) { sync := true } (runLanes (trapretBody onG c c') (c'.runners { sync := true }) s).1) = _
  rw [hrunners, hbody]
  have hgid : s.group c'.gid = some g := hw.here
  simp only [State.finishWord, hgid, List.any_cons, List.any_nil, LaneRes.parks, Bool.or_false, Bool.false_eq_true, if_false]
  show Host.Outcome.next ((s.setGroup s.cur.gid g1.endHandling).takeTrap s.cur.gid l code 0 0) = _
  simp only [State.takeTrap, group_setGroup, if_true, hlane, hhandler, hcode, if_false, hlaunch]

/-! ### NPBEGIN and NPEND (R299, R430) -/

theorem np_plain (s : State) (g : Group) (h : Hdr) : Plain s g h { once := true } :=
  ⟨rfl, rfl, fun hc => absurd hc Bool.false_ne_true, rfl, rfl⟩

/-- NPBEGIN and NPEND where they trap, once for all lanes. -/
theorem np_traps {s : State} {g : Group} {h : Hdr} {i : Instr} {body : Ctl → Nat → State → LaneRes × State} {code : Nat} (hw : WordReady s g h i)
    (hex : exec i s = s.word i h { once := true } body) (hl : (instrUses i).landing = false)
    (hb : ∀ l, body (readyCtl s g h false) l s = (.trap code 0 0, s)) (hh : ∀ l, (active s g h).getLsbD l = true → (g.lane l).handler = false) :
    ∃ g', exec i s = .next (s.setGroup s.cur.gid g') ∧ lanesRun s g g' h (fun _ ln => ln.trap code 0 0) ∧ groupAfter s g g' h := by
  obtain ⟨g', hnext, hsettles⟩ := word_steady hw hex (np_plain s g h) (fun _ => .trap code 0 0) (fun l _ => hb l)
    (fun l hl => hh l (mem_lanesOf.mp hl).2)
  rw [hl] at hsettles
  exact ⟨g', hnext, hsettles.lanes, hsettles.group⟩

/-- NPBEGIN and NPEND where they move the depth of the group's window. -/
theorem np_moves {s : State} {g : Group} {h : Hdr} {i : Instr} {body : Ctl → Nat → State → LaneRes × State} {depth : Nat} (hw : WordReady s g h i)
    (hact : active s g h ≠ 0) (hex : exec i s = s.word i h { once := true } body) (hl : (instrUses i).landing = false)
    (hb : ∀ l, body (readyCtl s g h false) l s = (.done [] [] 0, s.setGroup s.cur.gid { g with depthNp := depth })) :
    ∃ g', exec i s = .next (s.setGroup s.cur.gid { g' with depthNp := depth }) ∧
      lanesAfter s g g' h (fun _ ln => ln) ∧ g'.g = g.g ∧ groupAfter s g g' h := by
  have hone : ((readyCtl s g h false).runners { once := true }) = [oneLane s g h] := by
    show (lanesOf (active s g h)).take 1 = [(lanesOf (active s g h)).headD 0]
    cases hls : lanesOf (active s g h) with
    | nil => exact absurd (lanesOf_nil.mp hls) hact
    | cons l ls => rfl
  obtain ⟨g', hnext, hsettles⟩ := word_settles hw hex (np_plain s g h) ((Regroups.refl hw.here).set { g with depthNp := depth })
    [(oneLane s g h, .done [] [] 0)] (fun _ => .done [] [] 0) (by rw [hone]; simp only [runLanes, hb]) (by
      have := spread_once s g h { once := true } rfl fun _ _ => .done [] [] 0
      simp only at this
      rwa [hone] at this) (fun _ _ => trivial)
  rw [hl] at hsettles
  have hdepth : g'.depthNp = depth := by
    have := congrArg Group.depthNp hsettles.group
    exact this
  refine ⟨{ g' with depthNp := g.depthNp }, ?_, fun l hl => ?_, ?_, ?_⟩
  · rw [hnext, ← hdepth]
  · refine (hsettles.lanes l hl).trans (if_congr Iff.rfl ?_ rfl)
    rw [after_done_nil, ite_self]
    exact (ite_self _).symm ▸ rfl
  · refine hsettles.regs.trans ?_
    cases lanesOf (active s g h) <;> rfl
  · have hgroup := hsettles.group
    unfold groupAfter at hgroup ⊢
    exact congrArg (fun x : Group => { x with depthNp := g.depthNp }) hgroup

/-! ### SYSCALL (R427, R428) -/

/-- A release at system scope waits for nothing where nothing is on its way, nothing is dirty and no store to host memory is unseen. -/
theorem released_sys_calm {s : State} {core k : Nat} (gid l : Nat) (ht : s.txns = []) (hc : s.clean core k = true)
    (h0 : s.hostQuiet k 0 = true) (h1 : s.hostQuiet k 1 = true) : s.released gid l core k .sys false = true := by
  simp [State.released, threadTxns_none s gid l ht, coreWrites_none s core k ht, cleanTo_of_clean s core k _ hc, h0, h1]

/-- A context that a call has entered rings for the call at its head. -/
theorem svcHead_rings (s : State) (k : Nat) (c : Ctx) (call : Svc) :
    let s1 := s.setCtx k { c with svcs := c.svcs ++ [call] }
    s1.svcHead k = if c.svcie = true ∧ c.friv.toNat < (if c.func.toNat = 0 then 2048 else 64) then
      { s1 with out := .msix c.port.toNat c.func.toNat c.friv.toNat :: s1.out } else s1 := by
  intro s1
  have hctx : s1.ctx k = { c with svcs := c.svcs ++ [call] } := State.ctx_setCtx_same ..
  have hne : (c.svcs ++ [call]).isEmpty = false := by simp
  rw [State.svcHead, hctx, hne, State.msix, hctx]
  cases hie : c.svcie <;> simp [State.emit]

/-- What SYSCALL does in a lane. -/
def syscallDoes (s0 : State) (g : Group) (a d : RegIx) (n : BitVec 9) (l : Nat) (s : State) : Does × State :=
  match (s.group s0.cur.gid).bind fun gm => if (gm.lane l).linkLost then some gm else none with
  | some gm => (.traps 0x2B 0 0, s.setGroup s0.cur.gid (gm.setLane l { gm.lane l with linkLost := false }))
  | none =>
      let k := s.ctxOf g
      let c := s.ctx k
      let call : Svc := { arg := (g.lane l).reg64 a.toNat, num := BitVec.extractLsb' 0 8 n, launch := g.launch, core := g.core
                          gid := s0.cur.gid, lane := l, d := d.toNat }
      let s1 := s.setCtx k { c with svcs := c.svcs ++ [call] }
      (.parks (.svc none), if c.svcs = [] ∧ c.svcie = true ∧ c.friv.toNat < (if c.func.toNat = 0 then 2048 else 64) then
        { s1 with out := .msix c.port.toNat c.func.toNat c.friv.toNat :: s1.out } else s1)

theorem lostLink_eq (s : State) (gid l : Nat) : s.lostLink gid l =
    ((s.group gid).bind fun gm => if (gm.lane l).linkLost then some gm else none).map fun gm =>
      s.setGroup gid (gm.setLane l { gm.lane l with linkLost := false }) := by
  rw [State.lostLink]
  cases s.group gid with
  | none => rfl
  | some gm => simp only [Option.bind_some]; split <;> rfl

/-- SYSCALL in one lane, as the model has it. -/
def syscallBody (a d : RegIx) (n : BitVec 9) (c : Ctl) (l : Nat) (s : State) : LaneRes × State :=
  match s.lostLink c.gid l with
  | some s => (.trap 0x2B 0 0, s)
  | none =>
    let k := s.ctxOf c.g
    let cx := s.ctx k
    let v : Svc := { arg := (c.env l).ln.reg64 a.toNat, num := BitVec.extractLsb' 0 8 n, launch := c.g.launch, core := c.g.core,
                     gid := c.gid, lane := l, d := d.toNat }
    let s := s.setCtx k { cx with svcs := cx.svcs ++ [v] }
    (.park (.svc none), if cx.svcs.isEmpty then s.svcHead k else s)

theorem syscallBody_eq (s0 : State) (g : Group) (a d : RegIx) (n : BitVec 9) (c : Ctl) (hg : c.g = g) (hgid : c.gid = s0.cur.gid) (l : Nat) (s : State) :
    syscallBody a d n c l s = asLane (syscallDoes s0 g a d n l s) := by
  rw [syscallBody, syscallDoes, lostLink_eq, hgid, hg]
  cases (s.group s0.cur.gid).bind fun gm => if (gm.lane l).linkLost then some gm else none with
  | some gm => rfl
  | none =>
    have hln : (c.env l).ln = g.lane l := by rw [← hg]; rfl
    simp only [Option.map_none, hln, svcHead_rings, List.isEmpty_iff]
    by_cases hc : (s.ctx (s.ctxOf g)).svcs = []
    · rw [if_pos hc]; simp only [hc, true_and]; rfl
    · rw [if_neg hc]; simp only [hc, false_and, if_false]; rfl

theorem keepsGroup_syscallDoes (s0 : State) (g : Group) (a d : RegIx) (n : BitVec 9) (l : Nat) (s : State) (hs : (s.group s0.cur.gid).isSome = true) :
    ((syscallDoes s0 g a d n l s).2.group s0.cur.gid).isSome = true := by
  rw [syscallDoes]
  split
  · rw [group_setGroup, if_pos rfl]; rfl
  · have hsame : ∀ (p : Prop) [Decidable p] (a b : State), a.groups = s.groups → b.groups = s.groups →
        ((if p then a else b).group s0.cur.gid).isSome = true := fun p _ a b ha hb => by
      split
      · rw [State.group, ha]; exact hs
      · rw [State.group, hb]; exact hs
    exact hsame _ _ _ rfl rfl

theorem syscall_seq (h : Hdr) (d a : RegIx) (n : BitVec 9) : SeqWord (.syscall h d a n) h
    (fun s g => s.txns = [] ∧ s.clean g.core (s.ctxOf g) = true ∧ s.hostQuiet (s.ctxOf g) 0 = true ∧ s.hostQuiet (s.ctxOf g) 1 = true)
    (fun s0 g l s => syscallDoes s0 g a d n l s) := by
  refine seqWord_intro (relOps { mem := true } .sys false fun _ _ _ => true) (syscallBody a d n) _ _ (fun _ => rfl)
    (fun s g _ _ l _ s' => syscallBody_eq s g a d n _ rfl rfl l s') rfl rfl rfl rfl (fun s g _ _ hcalm => ?_) rfl rfl
    (fun s g _ l s' => keepsGroup_syscallDoes s g a d n l s')
  obtain ⟨ht, hc, h0, h1⟩ := hcalm
  simp only [relOps, Bool.true_and, List.all_eq_true, Bool.not_true, Bool.false_or]
  exact fun l _ => released_sys_calm _ l ht hc h0 h1

/-! ### The words together -/

theorem csrWide_iff (n : RegIx) : csrWide n.toNat = true ↔ n = 0x018#9 ∨ n = 0x020#9 ∨ n = 0x030#9 := by
  simp only [csrWide, Bool.or_eq_true, beq_iff_eq, ← BitVec.toNat_inj, or_assoc]
  rfl

/-- CSRR reads every register whose number it accepts. -/
theorem csrr_word {h : Hdr} {toG : Bool} {d n : RegIx} {s : State} {g : Group} (hw : WordReady s g h (.csrr h toG d n))
    (hn : n = 0x023#9 → ∀ l, (active s g h).getLsbD l = true → s.laneSettled g s.cur.gid l = true) {value : Nat → Option DWord}
    (hvalue : ∀ l, value l = if csrOk toG n.toNat then some (s.csr g l s.cur.pc n.toNat) else none) {regs : Nat → DWord → List (Nat × Word)}
    (hregs : ∀ x, regs (if toG then 127 else 511) x = csrRegs toG d n x) :
    ((∀ l, (active s g h).getLsbD l = true → value l ≠ none) →
      ∃ g', exec (.csrr h toG d n) s = .next (s.setGroup s.cur.gid g') ∧
        lanesAfter s g g' h (fun l ln => if toG then ln else match value l with | some x => ln.setRegs (regs 511 x) | none => ln) ∧
        g'.g = (if toG ∧ active s g h ≠ 0 then match value (oneLane s g h) with | some x => g.setGrs (regs 127 x) | none => g else g).g ∧
        g'.landings = g.landings ∧ groupAfter s g g' h) ∧
    ((∀ l, (active s g h).getLsbD l = true → value l = none ∧ (g.lane l).handler = false) →
      ∃ g', exec (.csrr h toG d n) s = .next (s.setGroup s.cur.gid g') ∧ lanesRun s g g' h (fun _ ln => ln.trap 0x22 0 0) ∧
        groupAfter s g g' h) := by
  have hvalue' : value = fun l => if csrOk toG n.toNat then some (s.csr g l s.cur.pc n.toNat) else none := funext hvalue
  subst hvalue'
  cases hok : csrOk toG n.toNat
  · refine ⟨fun hsome => ?_, fun hnone => ?_⟩
    · have hnot : ∀ l, (active s g h).getLsbD l = false := fun l => Bool.eq_false_iff.mpr fun hl => hsome l hl (if_neg Bool.false_ne_true)
      obtain ⟨g', hnext, hlanes, hg, hlandings, hgroup⟩ := csrr_traps hw hn hok fun l hl => absurd hl (by rw [hnot]; exact Bool.false_ne_true)
      refine ⟨g', hnext, fun l hl => ?_, ?_, hlandings, hgroup⟩
      · simp only [hlanes l hl, hnot, Bool.false_eq_true, if_false]
      · simp only [Bool.false_eq_true, if_false, ite_self]; exact hg
    · obtain ⟨g', hnext, hlanes, -, -, hgroup⟩ := csrr_traps hw hn hok fun l hl => (hnone l hl).2
      exact ⟨g', hnext, hlanes, hgroup⟩
  · obtain ⟨g', hnext, hlanes, hg, hlandings, hgroup⟩ := csrr_gives hw hn hok
    refine ⟨fun _ => ⟨g', hnext, fun l hl => ?_, ?_, hlandings, hgroup⟩, fun hnone => ⟨g', hnext, fun l hl => ?_, hgroup⟩⟩
    · rw [hlanes l hl]
      simp only [if_true, ← hregs]
      cases toG <;> rfl
    · rw [hg]
      simp only [if_true, ← hregs]
      cases toG <;> rfl
    · have hnot : ¬ (active s g h).getLsbD l = true := fun hl => by simpa using (hnone l hl).1
      rw [hlanes l hl, if_neg hnot, if_neg hnot]

theorem csrw_lane (s : State) (n : RegIx) (x : Word) (ln : Lane) :
    settledLane s.cur.pc s.cur.len false false (csrwLane n x ln) (csrwRes n x) =
      let on := { ln with pc := s.cur.pc + BitVec.ofNat 64 s.cur.len }
      if n = 0x022#9 then if 5 ≤ x.toNat % 8 then ln.trap 0x22 0 0 else { on with rm := BitVec.extractLsb' 0 3 x }
      else if n = 0x023#9 then { on with flags := BitVec.extractLsb' 0 5 x }
      else ln.trap 0x22 0 0 := by
  unfold csrwLane csrwRes
  split_ifs
  · rfl
  · rw [after_done_nil]
  · rw [after_done_nil]
  · rfl

/-- The work record that a group's special registers read; a spawned group has none. -/
def csrTask (s : State) (g : Group) : Option Task :=
  match g.team.bind s.team with
  | some t => some t.task
  | none => none

/-- The special registers, by their numbers (R310). -/
def csrValue (s : State) (g : Group) (toG : Bool) (l n : Nat) : Option DWord :=
  let B := (s.rcd g.launch).blk
  let num := fun (x : Nat) => some (BitVec.ofNat 64 x)
  let ofTask := fun (none' : Nat) (f : Task → Nat) => match csrTask s g with | some t => num (f t) | none => num none'
  let vis := if B.prot then 16 else 32
  let no := fun (l : Nat) => if B.prot then l / 2 else l
  match n with
  | 0x000 => if toG then none else num (no l)
  | 0x001 => if toG then none else ofTask 0xFFFFFFFF fun _ => g.grp * vis + no l
  | 0x002 => ofTask 0xFFFFFFFF fun _ => g.grp
  | 0x003 => ofTask 0xFFFFFFFF fun _ => g.role
  | 0x004 => ofTask 0xFFFFFFFF fun t => B.teamIn t
  | 0x005 => ofTask 0xFFFFFFFF fun t => B.cluster t
  | 0x006 => num g.core
  | 0x007 => num (g.core / 24)
  | 0x008 => num (match g.spawned with | some x => x.depth | none => 0)
  | 0x009 => ofTask 0 fun t => t.stg
  | 0x00A => ofTask 0 fun t => t.seq.toNat
  | 0x00B => num g.step.toNat
  | 0x00C => num g.budget
  | 0x010 => ofTask 0 fun t => t.tx.toNat
  | 0x011 => ofTask 0 fun t => t.ty.toNat
  | 0x012 => ofTask 0 fun t => t.tz.toNat
  | 0x014 => ofTask 0 fun t => (t.uw.getD 0 0).toNat
  | 0x015 => ofTask 0 fun t => (t.uw.getD 1 0).toNat
  | 0x016 => ofTask 0 fun t => (t.uw.getD 2 0).toNat
  | 0x017 => ofTask 0 fun t => (t.uw.getD 3 0).toNat
  | 0x018 => ofTask B.arg.toNat fun t => t.arg.toNat
  | 0x020 => if toG then none else some s.cur.pc
  | 0x021 => if toG then none else num (g.lane l).cause.toNat
  | 0x022 => if toG then none else num ((if B.snant then 512 else 0) + (if B.flush then 256 else 0) + (g.lane l).rm.toNat)
  | 0x023 => if toG then none else num (g.lane l).flags.toNat
  | 0x030 => num s.clk
  | _ => none

/-- CSRR takes exactly the numbers that name a register. -/
theorem csrValue_eq (s : State) (g : Group) (toG : Bool) (l n : Nat) :
    csrValue s g toG l n = if csrOk toG n then some (s.csr g l s.cur.pc n) else none := by
  unfold csrValue State.csr
  extract_lets B num ofTask vis no rc b task none32 w tk tn ln
  have htask : task = csrTask s g := by
    simp only [task, csrTask]
    cases g.team with
    | none => rfl
    | some u => simp only [Option.bind_some]; cases s.team u <;> rfl
  simp only [ofTask, tk, tn, none32, w, num]
  clear_value task
  subst htask
  generalize csrTask s g = task
  split
  case h_9 => cases g.spawned <;> cases toG <;> rfl
  case h_12 => cases toG <;> exact congrArg some (BitVec.ofNat_toNat ..)
  case h_21 => cases toG <;> cases task <;> exact congrArg some ((BitVec.ofNat_toNat ..).trans (BitVec.setWidth_eq _))
  case h_23 =>
    cases toG
    · exact congrArg some (BitVec.ofNat_toNat ..)
    · rfl
  case h_24 =>
    have hflag : ∀ (b : Bool) (k : Nat), (if b then k else 0) = k * b2n b := fun b k => by cases b <;> simp [b2n]
    simp only [hflag]
    cases toG <;> rfl
  case h_27 =>
    refine (if_neg fun hok => ?_).symm
    simp only [csrOk, Bool.or_eq_true, Bool.and_eq_true, decide_eq_true_iff, beq_iff_eq] at hok
    simp only [imp_false] at *
    omega
  all_goals (cases toG <;> cases task <;> rfl)

theorem windowCycles_eq (g : Group) : g.windowCycles = g.buckets.sum := sumN_eq_sum _

/-- NPBEGIN in one lane, as the model has it. -/
def npbeginBody (c : Ctl) (_ : Nat) (s : State) : LaneRes × State :=
  match s.group c.gid with
  | none => (.done [] [] 0, s)
  | some g =>
    if g.depthNp = 15 then (badOperand, s)
    else if windowMax ≤ g.windowCycles then (.trap 0x36 0 0, s)
    else (.done [] [] 0, s.setGroup c.gid { g with depthNp := g.depthNp + 1 })

theorem npbeginBody_eq {c : Ctl} {s : State} {g : Group} (l : Nat) (hg : s.group c.gid = some g) : npbeginBody c l s =
    if g.depthNp = 15 then (badOperand, s)
    else if 100000 ≤ g.buckets.sum then (.trap 0x36 0 0, s)
    else (.done [] [] 0, s.setGroup c.gid { g with depthNp := g.depthNp + 1 }) := by
  rw [npbeginBody, hg, ← windowCycles_eq]; rfl

/-- NPEND in one lane, as the model has it. -/
def npendBody (c : Ctl) (_ : Nat) (s : State) : LaneRes × State :=
  match s.group c.gid with
  | none => (.done [] [] 0, s)
  | some g => (.done [] [] 0, s.setGroup c.gid { g with depthNp := g.depthNp - 1 })

theorem npendBody_eq {c : Ctl} {s : State} {g : Group} (l : Nat) (hg : s.group c.gid = some g) :
    npendBody c l s = (.done [] [] 0, s.setGroup c.gid { g with depthNp := g.depthNp - 1 }) := by
  rw [npendBody, hg]

/-- Settles O38: each word by what its lanes do, and the group that they leave. -/
theorem systemWords : Obligations.SystemWords := by
  refine ⟨?_, fun h n c s g hw hP => ?_, fun h d a n => syscall_seq h d a n, fun h onG c s g hw hs => ?_, fun h s g hact => ?_⟩
  · intro h toG d n s g hw hn B task num ofTask vis no value wide regs
    have hregs : ∀ x, regs (if toG then 127 else 511) x = csrRegs toG d n x := fun x => if_congr (csrWide_iff n).symm rfl rfl
    exact csrr_word hw hn (fun l => csrValue_eq s g toG l n.toNat) hregs
  · obtain ⟨g', hnext, hlanes, hregs, hlandings, hgroup⟩ := csrw_runs h n c s g hw hP
    exact ⟨g', hnext, fun l hl => (hlanes l hl).trans (if_congr Iff.rfl (if_congr Iff.rfl (csrw_lane s n _ _) rfl) rfl), hregs, hlandings, hgroup⟩
  · exact ⟨trapret_handler hw, trapret_returns hw hs, fun l hl hbad => trapret_faults hw hs hl hbad⟩
  · have hgroup : ∀ i, WordReady s g h i → s.group (readyCtl s g h false).gid = some g := fun _ hw => hw.here
    refine ⟨fun hw => ⟨fun hd hh => ?_, fun hd hc hh => ?_, fun hd hc => ?_⟩, fun hw => ?_⟩
    · exact np_traps (body := npbeginBody) hw rfl rfl (fun l => by rw [npbeginBody_eq l (hgroup _ hw), if_pos hd]; rfl) hh
    · exact np_traps (body := npbeginBody) hw rfl rfl (fun l => by rw [npbeginBody_eq l (hgroup _ hw), if_neg hd, if_pos hc]) hh
    · exact np_moves (body := npbeginBody) hw hact rfl rfl fun l => by
        rw [npbeginBody_eq l (hgroup _ hw), if_neg hd, if_neg (Nat.not_le.mpr hc)]; rfl
    · exact np_moves (body := npendBody) hw hact rfl rfl fun l => npendBody_eq l (hgroup _ hw)

end Sys2Proof.Machine
end

section
/-! SUPPORT. O25: integer atomics, and the values of typed elements (R220 to R223, R389). -/
namespace Sys2Proof.Machine

open Sys2Proof.Safety

/-! ### Signed values -/

/-- A number of w bits as a signed one. -/
theorem sextInt_of_lt {x w : Nat} (hw : 1 ≤ w) (hx : x < 2 ^ w) : sextInt x w = if x < 2 ^ (w - 1) then (x : Int) else x - 2 ^ w := by
  have hpow : 2 ^ w = 2 * 2 ^ (w - 1) := by rw [← Nat.pow_succ', Nat.succ_eq_add_one, Nat.sub_add_cancel hw]
  have hbit : nbit x (w - 1) = decide (2 ^ (w - 1) ≤ x) := by
    rw [nbit, Nat.testBit_eq_decide_div_mod_eq]
    refine decide_eq_decide.mpr ?_
    have hdiv : x / 2 ^ (w - 1) < 2 := Nat.div_lt_of_lt_mul (by rw [mul_comm]; omega)
    rw [Nat.mod_eq_of_lt hdiv, ← Nat.one_le_div_iff (Nat.two_pow_pos _)]
    omega
  have hmod : ((x : Int) % 2 ^ w) = x := by
    rw [show (2 : Int) ^ w = ((2 ^ w : Nat) : Int) by push_cast; rfl]
    exact Int.emod_eq_of_lt (by omega) (by exact_mod_cast hx)
  rw [sextInt, hbit, hmod]
  by_cases h : x < 2 ^ (w - 1)
  · rw [if_pos h, if_neg (by simpa using h)]
  · rw [if_neg h, if_pos (by simpa using h)]

theorem sextInt_inj {x y w : Nat} (hw : 1 ≤ w) (hx : x < 2 ^ w) (hy : y < 2 ^ w) (h : sextInt x w = sextInt y w) : x = y := by
  rw [sextInt_of_lt hw hx, sextInt_of_lt hw hy] at h
  have hx' : (x : Int) < 2 ^ w := by exact_mod_cast hx
  have hy' : (y : Int) < 2 ^ w := by exact_mod_cast hy
  split_ifs at h <;> omega

/-! ### Atomics (R389) -/

/-- The value by which an atomic orders. -/
def atomOrder (ty : AtomTy) (x : Nat) : Int :=
  if ty = .s32 ∨ ty = .s64 then sextInt x (if ty.wide then 64 else 32) else (x : Int)

theorem atomOrder_inj {ty : AtomTy} {x y : Nat} (hx : x < 2 ^ (if ty.wide then 64 else 32)) (hy : y < 2 ^ (if ty.wide then 64 else 32))
    (h : atomOrder ty x = atomOrder ty y) : x = y := by
  unfold atomOrder at h
  split at h
  · exact sextInt_inj (by split <;> omega) hx hy h
  · exact_mod_cast h

/-- The order in full: of signed numbers, or of numbers. -/
theorem atomOrder_lt {ty : AtomTy} {x y : Nat} (hx : x < 2 ^ (if ty.wide then 64 else 32)) (hy : y < 2 ^ (if ty.wide then 64 else 32)) :
    (if ty = .s32 ∨ ty = .s64 then
      (if x < 2 ^ ((if ty.wide then 64 else 32) - 1) then (x : Int) else x - 2 ^ (if ty.wide then 64 else 32)) <
        (if y < 2 ^ ((if ty.wide then 64 else 32) - 1) then (y : Int) else y - 2 ^ (if ty.wide then 64 else 32))
    else x < y) ↔ atomOrder ty x < atomOrder ty y := by
  have hw : 1 ≤ if ty.wide then 64 else 32 := by split <;> decide
  unfold atomOrder
  split
  · rw [sextInt_of_lt hw hx, sextInt_of_lt hw hy]
  · exact Int.ofNat_lt.symm

/-- An integer atomic, by its operation. -/
theorem atomNew_int (op : AtomOp) {ty : AtomTy} {old a b : Nat} (hf : ty ≠ .f32) (hd : ty ≠ .f64)
    (ha : a < 2 ^ (if ty.wide then 64 else 32)) (hb : b < 2 ^ (if ty.wide then 64 else 32)) : atomNew op ty old a b = match op with
      | .add => some ((old + a) % 2 ^ (if ty.wide then 64 else 32))
      | .min => some (if atomOrder ty old ≤ atomOrder ty a then old else a)
      | .max => some (if atomOrder ty old ≤ atomOrder ty a then a else old)
      | .and => some (old &&& a)
      | .or => some (old ||| a)
      | .xor => some (old ^^^ a)
      | .exch => some a
      | .cas => if old = a then some b else none
      | .inc => some (if a ≤ old then 0 else old + 1)
      | .dec => some (if old = 0 ∨ a < old then a else old - 1) := by
  simp only [atomNew, atomOrder, Nat.mod_eq_of_lt ha, Nat.mod_eq_of_lt hb]
  cases ty
  case f32 => exact absurd rfl hf
  case f64 => exact absurd rfl hd
  all_goals rfl

/-! ### Bit planes (R220) -/

/-- The leading k bits of an n-bit integer are its floored quotient. -/
theorem sextInt_prefix {v n k : Nat} (hk : 1 ≤ k) (hkn : k ≤ n) (hv : v < 2 ^ n) :
    sextInt (v / 2 ^ (n - k)) k = (if v < 2 ^ (n - 1) then (v : Int) else v - 2 ^ n) / 2 ^ (n - k) := by
  have hpos : 0 < 2 ^ (n - k) := Nat.two_pow_pos _
  have hn : 2 ^ n = 2 ^ k * 2 ^ (n - k) := by rw [← Nat.pow_add, Nat.add_sub_cancel' hkn]
  have hn1 : 2 ^ (n - 1) = 2 ^ (k - 1) * 2 ^ (n - k) := by rw [← Nat.pow_add]; congr 1; omega
  have hlt : v / 2 ^ (n - k) < 2 ^ k := Nat.div_lt_of_lt_mul (by rwa [mul_comm, ← hn])
  have hcast : ((v / 2 ^ (n - k) : Nat) : Int) = (v : Int) / 2 ^ (n - k) := by push_cast; rfl
  have hneg : ((v : Int) - 2 ^ n) / 2 ^ (n - k) = (v : Int) / 2 ^ (n - k) - 2 ^ k := by
    have hmul : (v : Int) - 2 ^ n = v + (-2 ^ k) * 2 ^ (n - k) := by
      have : (2 : Int) ^ n = 2 ^ k * 2 ^ (n - k) := by exact_mod_cast hn
      rw [this]; ring
    rw [hmul, Int.add_mul_ediv_right _ _ (by positivity)]; ring
  rw [sextInt_of_lt hk hlt, hcast]
  have hiff : v / 2 ^ (n - k) < 2 ^ (k - 1) ↔ v < 2 ^ (n - 1) := by rw [hn1, Nat.div_lt_iff_lt_mul hpos]
  by_cases h : v < 2 ^ (n - 1)
  · rw [if_pos h, if_pos (hiff.mpr h)]
  · rw [if_neg h, if_neg (fun hc => h (hiff.mp hc)), hneg]

/-- An element read with k of its n planes. -/
theorem bpnVal_prefix {v n k : Nat} (hk : 1 ≤ k) (hkn : k ≤ n) (hv : v < 2 ^ n) :
    let x : Int := if v < 2 ^ (n - 1) then (v : Int) else v - 2 ^ n
    bpnVal (v / 2 ^ (n - k)) n k = if n = k then x else x / 2 ^ (n - k) * 2 ^ (n - k) + 2 ^ (n - k - 1) := by
  intro x
  rw [bpnVal, sextInt_prefix hk hkn hv]
  by_cases h : n = k
  · subst h
    simp [x]
  · rw [if_neg h, if_neg (by omega)]

/-! ### Typed elements (R221 to R223) -/

/-- The exponent that a block scale adds. -/
def scaleExp (scale : Option Nat) : Int := match scale with | some e => e - 127 | none => 0

theorem scaled_eq (D : Format) (neg : Bool) (m : Nat) (e : Int) (scale : Option Nat) :
    scaled D neg m e scale = D.ofFin 0 (neg, m, e + scaleExp scale) := by
  cases scale with
  | none => rw [scaleExp, add_zero]; rfl
  | some E => rw [scaleExp, ← add_sub_assoc]; rfl

section
variable {D : Format} (hD : D.Ieee) {scale : Option Nat}
include hD

/-- An element that is an integer times a power of two, under its scale. -/
theorem scaled_int_stands (x : Int) (e : Int) : Stands D 0 ((x : ℝ) * 2 ^ e * (2 : ℝ) ^ scaleExp scale) false (scaled D (decide (x < 0)) x.natAbs e scale) := by
  rw [scaled_eq, mul_assoc, ← zpow_add₀ (by norm_num)]
  exact ofFin_int_stands hD x _ (by decide)

/-- A finite element of a small float, under its scale. -/
theorem scaled_fin_stands (n : Bool) (m : Nat) (e : Int) : Stands D 0 (realOf (.fin n m e) * (2 : ℝ) ^ scaleExp scale) n
    (if m = 0 then (D.sgn n, 0) else scaled D n m e scale) := by
  split
  · next hm =>
    have h0 : realOf (.fin n m e) * (2 : ℝ) ^ scaleExp scale = 0 := by rw [realOf_fin, hm]; cases n <;> simp [signedReal]
    rw [h0]
    exact stands_zero hD n (by decide)
  · have hreal : realOf (.fin n m e) * (2 : ℝ) ^ scaleExp scale = realOf (.fin n m (e + scaleExp scale)) := by
      rw [realOf_fin, realOf_fin, zpow_add₀ (by norm_num)]
      cases n <;> simp only [signedReal, if_true, Bool.false_eq_true, if_false] <;> ring
    rw [hreal, scaled_eq]
    exact ofFin_stands hD n m _ (by decide)

omit hD in
/-- A scale that is not a number. -/
theorem decodeTyped_nanScale (fmt : Nat) (x : Int) (hs : scale = some 255) : decodeTyped D fmt x scale = (D.nanBits, 0x10#5) := by
  rw [decodeTyped, if_pos hs]; rfl

theorem decodeTyped_bpn (x : Int) (hs : scale ≠ some 255) : Stands D 0 ((x : ℝ) * (2 : ℝ) ^ scaleExp scale) false (decodeTyped D 1 x scale) := by
  rw [decodeTyped, if_neg hs, if_pos rfl]
  have := scaled_int_stands hD (scale := scale) x 0
  rwa [zpow_zero, mul_one] at this

theorem decodeTyped_mxint8 (x : Int) (hs : scale ≠ some 255) : Stands D 0 ((x : ℝ) / 64 * (2 : ℝ) ^ scaleExp scale) false (decodeTyped D 2 x scale) := by
  rw [decodeTyped, if_neg hs, if_neg (by decide), if_pos rfl]
  have h64 : (x : ℝ) / 64 = x * 2 ^ (-6 : Int) := by rw [zpow_neg]; norm_num [div_eq_mul_inv]
  rw [h64]
  exact scaled_int_stands hD x _

/-- The elements of the small floats. -/
theorem decodeTyped_float {fmt : Nat} (x : Int) (hs : scale ≠ some 255) (hf : 3 ≤ fmt) :
    let el := (if fmt = 3 then fmtE4 else fmtE5).decode (x.toNat % 256)
    (el.isNan = true → decodeTyped D fmt x scale = (D.nanBits, if el.isSig then 0x10#5 else 0)) ∧
    (∀ n, el = .inf n → decodeTyped D fmt x scale = ((if n then 2 ^ (D.w - 1) else 0) + D.infBits, 0)) ∧
    ∀ n m e, el = .fin n m e → Stands D 0 (realOf el * (2 : ℝ) ^ scaleExp scale) n (decodeTyped D fmt x scale) := by
  intro el
  have hdec : decodeTyped D fmt x scale = match el with
      | .nan _ sig => (D.nanBits, if sig then flagNV else 0)
      | .inf n => D.inf n
      | .fin n m e => if m = 0 then (D.sgn n, 0) else scaled D n m e scale := by
    rw [decodeTyped, if_neg hs, if_neg (by omega), if_neg (by omega)] <;> rfl
  rw [hdec]
  refine ⟨fun hn => ?_, fun n hn => ?_, fun n m e hn => ?_⟩
  · cases hel : el with
    | nan s sig => rfl
    | inf n => rw [hel] at hn; exact nomatch hn
    | fin n m e => rw [hel] at hn; exact nomatch hn
  · rw [hn]
    simp only [Format.inf, sgn_eq]
  · rw [hn]
    exact scaled_fin_stands hD n m e

end

end Sys2Proof.Machine
end

section
/-! SUPPORT. O25: LD.typ, sent and served (R220 to R223, R382). -/
namespace Sys2Proof.Machine

open Sys2Proof.Safety

/-! ### The word (R382) -/

/-- The transaction of a typed load. -/
def typedTxn (s : State) (g : Group) (l ea : Nat) (leaf : Leaf) (f32 ef : Bool) (k : Nat) (d : RegIx) (line : Nat) : Txn :=
  { core := g.core, gid := s.cur.gid, ctx := s.ctxOf g, launch := g.launch, tgt := .cell, line := line
    parts := [{ lane := l, addr := leaf.phys (ea / 65536 * 65536), va := ea, len := 1
                op := .typed k leaf.pl f32 leaf.fmt leaf.blk (ea % 65536) d, level := leaf.level }]
    lvl := if (s.viewOf (leaf.phys ea)).isSome then leaf.lvl else 0, evp := if ef then 0 else leaf.evp, pc := s.cur.pc, word := s.next }

theorem pageTaken_eq (s : State) (leaf : Leaf) (va : Nat) (ef : Bool) : pageTaken s leaf va ef =
    { leaf with wp := (viewLeaf s leaf va).wp, lvl := if (s.viewOf (leaf.phys va)).isSome then leaf.lvl else 0, evp := if ef then 0 else leaf.evp } := by
  unfold pageTaken viewLeaf
  split <;> rfl

/-- LD.typ in a lane, as the model has it. -/
def typedBody (f32 : Bool) (hint : Hint) (onG : Bool) (k : BitVec 3) (d a : RegIx) (off : BitVec 9) (c : Ctl) (l : Nat) (s : State) : LaneRes × State :=
  let ea := (c.env l).ea true onG a off
  if windowBase ≤ ea then (trapAt 0x26 0 ea, s)
  else
    match s.checkFor c.g c.gid l ea 1 .load with
    | (.ok leaf tgt _, s) =>
      (match typedBytes leaf.fmt leaf.pl leaf.blk (k.toNat + 1) (ea % 65536) with
       | .error code => (trapAt code 0 ea, s)
       | .ok (bs, sc) =>
         let sub := leaf.phys (ea / 65536 * 65536)
         let cells := ((sc.toList ++ bs).filterMap fun o => (s.viewOf (sub + o)).map fun v => v.2.2)
         let proto : Txn :=
           { core := c.g.core, gid := c.gid, ctx := s.ctxOf c.g, launch := c.g.launch, tgt := tgt,
             line := cells.getLastD 0 / 128, parts := [], lvl := leaf.lvl, evp := (leaf.hinted (hint == .ef)).evp, pc := c.pc, word := c.word }
         (pending, s.sendPart proto
           { lane := l, addr := sub, va := ea, len := 1, level := leaf.level
             op := .typed (k.toNat + 1) leaf.pl f32 leaf.fmt leaf.blk (ea % 65536) d }))
    | (ch, s) => (ch.res .load ea, s)

section
variable {s : State} {g : Group} {h : Hdr} {l : Nat} {f32 onG : Bool} {hint : Hint} {k : BitVec 3} {d a : RegIx} {off : BitVec 9} {leaf : Leaf} {x : Nat}

theorem ldTyp_gives {r : LaneRes × State} (hl : lanesOf (active s g h) = [l]) (hst : Still s g h)
    (hr : WordReady s g h (.ldTyp h f32 hint onG k d a off)) (hlane : typedBody f32 hint onG k d a off (memCtl s g h) l (numbered s) = r) :
    LaneGives s g h (.ldTyp h f32 hint onG k d a off) l r :=
  ⟨{ mem := true }, typedBody f32 hint onG k d a off, ⟨hr, hst, hl, rfl, rfl, rfl, rfl, rfl, by cases onG <;> rfl, rfl⟩, rfl, hlane⟩

theorem typedBody_window (hhigh : windowBase ≤ accessEa onG a off g l) :
    typedBody f32 hint onG k d a off (memCtl s g h) l (numbered s) = (trapAt 0x26 0 (accessEa onG a off g l), numbered s) := by
  rw [typedBody]
  exact if_pos hhigh

/-- A checked typed load traps, or is sent. -/
theorem typedBody_checked (ht : s.txns = []) (ha : Translates s g.core (s.ctxOf g) (accessEa onG a off g l) 1 .load leaf x) :
    (∀ code, typedBytes leaf.fmt leaf.pl leaf.blk (k.toNat + 1) (accessEa onG a off g l % 65536) = .error code →
      typedBody f32 hint onG k d a off (memCtl s g h) l (numbered s) = (trapAt code 0 (accessEa onG a off g l), numbered s)) ∧
    ∀ bs sc, typedBytes leaf.fmt leaf.pl leaf.blk (k.toNat + 1) (accessEa onG a off g l % 65536) = .ok (bs, sc) →
      ∃ line, typedBody f32 hint onG k d a off (memCtl s g h) l (numbered s) =
        (pending, queueSent s (typedTxn s g l (accessEa onG a off g l) leaf f32 (hint == .ef) (k.toNat + 1) d line)) := by
  have hcheck := (ha.numbered.page (by decide) fun h => nomatch h).checkFor g s.cur.gid l rfl rfl
  have hbody : typedBody f32 hint onG k d a off (memCtl s g h) l (numbered s) =
      match typedBytes leaf.fmt leaf.pl leaf.blk (k.toNat + 1) (accessEa onG a off g l % 65536) with
      | .error code => (trapAt code 0 (accessEa onG a off g l), numbered s)
      | .ok (bs, sc) => (pending, (numbered s).sendPart (typedTxn s g l (accessEa onG a off g l) leaf f32 (hint == .ef) (k.toNat + 1) d
          (((sc.toList ++ bs).filterMap fun o => (s.viewOf (leaf.phys (accessEa onG a off g l / 65536 * 65536) + o)).map fun v => v.2.2).getLastD 0 / 128))
          { lane := l, addr := leaf.phys (accessEa onG a off g l / 65536 * 65536), va := accessEa onG a off g l, len := 1, level := leaf.level
            op := .typed (k.toNat + 1) leaf.pl f32 leaf.fmt leaf.blk (accessEa onG a off g l % 65536) d }) := by
    have hea : ((memCtl s g h).env l).ea true onG a off = accessEa onG a off g l := rfl
    rw [typedBody]
    dsimp only
    rw [hea, if_neg (Nat.not_le.mpr ha.below), show (memCtl s g h).g = g from rfl, show (memCtl s g h).gid = s.cur.gid from rfl, hcheck]
    have hview : viewLeaf (numbered s) leaf (accessEa onG a off g l) = pageTaken s leaf (accessEa onG a off g l) false := viewLeaf_taken s leaf _
    have hhint : (pageTaken s leaf (accessEa onG a off g l) false).hinted (hint == .ef) = pageTaken s leaf (accessEa onG a off g l) (hint == .ef) := by
      rw [← viewLeaf_taken]; exact hinted_viewLeaf s leaf _ _
    dsimp only
    rw [hview, hhint, pageTaken_eq, pageTaken_eq]
    rfl
  rw [hbody]
  refine ⟨fun code hcode => by rw [hcode], fun bs sc hok => ?_⟩
  rw [hok]
  exact ⟨_, congrArg (Prod.mk pending) (sendPart_first (numbered s) _ _ ht)⟩

end

/-! ### Served at its home (R16, R220 to R223) -/

/-- What a served read may still change: die L2s, the directory, and the quadrants' counters. -/
structure AfterRead (s t : State) : Prop where
  groups : t.groups = s.groups
  txns : t.txns = s.txns
  mem : t.mem = s.mem

theorem AfterRead.refl (s : State) : AfterRead s s := ⟨rfl, rfl, rfl⟩
theorem AfterRead.trans {s t u : State} (h : AfterRead s t) (h' : AfterRead t u) : AfterRead s u :=
  ⟨h'.groups.trans h.groups, h'.txns.trans h.txns, h'.mem.trans h.mem⟩

theorem afterRead_readLine (s : State) (core lvl evp line : Nat) (secs : List Nat) : AfterRead s (s.readLine core lvl evp line secs) := by
  unfold State.readLine
  dsimp only
  split
  · exact ⟨rfl, rfl, rfl⟩
  · split
    · exact ⟨rfl, rfl, rfl⟩
    · exact ⟨rfl, rfl, rfl⟩

theorem afterRead_afterRead (s : State) (T : Txn) : AfterRead s (s.afterRead T) := by
  unfold State.afterRead
  generalize s.linesNeeded T = ls
  suffices h : ∀ (ls : List Nat) (s' : State), AfterRead s s' →
      AfterRead s (ls.foldl (fun (s : State) l => s.readLine T.core T.lvl T.evp l (s.sectorsOf T l)) s') from
    h ls s (AfterRead.refl s)
  intro ls
  induction ls with
  | nil => exact fun _ h => h
  | cons l ls ih => exact fun s' h => ih _ (h.trans (afterRead_readLine s' _ _ _ _ _))

theorem pollOvers_lane (ps : List (Nat × Bool)) (g : Group) (clk l : Nat) :
    (ps.foldl (fun (g : Group) p => g.pollOver clk p.2) g).lane l = g.lane l := by
  induction ps generalizing g with
  | nil => rfl
  | cons p ps ih => rw [List.foldl_cons, ih, pollOver_lane]

/-- The end of a group's POLLs leaves its lanes, what is on its way, and memory. -/
theorem pollEnd_keeps (s : State) (gid : Nat) {g : Group} (hg : s.group gid = some g) :
    ∃ g', (s.pollEnd gid).group gid = some g' ∧ (∀ l, g'.lane l = g.lane l) ∧ (s.pollEnd gid).txns = s.txns ∧ (s.pollEnd gid).mem = s.mem := by
  rw [State.pollEnd, hg]
  dsimp only
  split
  · exact ⟨g, hg, fun _ => rfl, rfl, rfl⟩
  · exact ⟨_, (group_setGroup _ _ _ _).trans (if_pos rfl), fun l => pollOvers_lane _ g s.clk l, rfl, rfl⟩

section
variable {s : State} {id : Nat} {T : Txn} {q : Part} {k pl fmt blk n : Nat} {f32 : Bool} {d : RegIx}

/-- A request that nothing holds in its core reaches its home. -/
structure Unheld (T : Txn) : Prop where
  accepted : T.accepted = false
  l1 : T.l1 = false
  deps : T.deps = []
  wb : T.wb = false

variable (h : QueueAlone s id T q) (hT : Unheld T) (hop : q.op = .typed k pl f32 fmt blk n d)
include h hT hop

/-- A typed load is read at once, its lines being free. -/
theorem QueueAlone.reads_typed (hdeliver : s.mayDeliver T = true) :
    s.homeRequest id = ((s.serveRead id { T with left := true } q).afterRead { T with left := true }.live).pollEnd T.gid := by
  have hlive : T.live.parts = [q] := by simp [Txn.live, h.parts, h.live]
  have hlive' : ({ T with left := true } : Txn).live.parts = [q] := hlive
  have hgid : ({ T with left := true } : Txn).gid = T.gid := rfl
  have hleft : s.hasLeft id T = true := by simp [State.hasLeft, hT.deps, hT.wb, h.first.2.2]
  have holder : s.olderWrite id { T with left := true } = false := by simp [State.olderWrite, h.listed]
  have hfree : ∀ me (ls : List Nat), (ls.find? fun l => !s.lineFree me l) = none := fun me ls =>
    List.find?_eq_none.mpr fun l _ => by rw [lineFree_undirected s me l h.dir h.boot]; exact Bool.false_ne_true
  have hserve : s.serveCell id T = ((s.serveRead id { T with left := true } q).afterRead { T with left := true }.live).pollEnd T.gid := by
    rw [State.serveCell]
    generalize ({ T with left := true } : Txn) = T' at holder hlive' hgid ⊢
    simp only [hlive, List.find?_cons, List.find?_nil, hop, hT.accepted, hdeliver, hT.l1, hleft, List.isEmpty_cons, Bool.not_true, Bool.or_self,
      Bool.false_and, Bool.false_eq_true, if_false, if_true]
    rw [State.serveHome]
    simp only [holder, Bool.false_eq_true, if_false, hfree]
    rw [State.serveLine, hlive']
    simp only [hop, List.foldl_cons, List.foldl_nil, hgid]
  have hsmall := h.small
  rw [← hserve, State.homeRequest, if_neg (by omega), if_neg (by omega), State.postedAt, State.peerAt, h.posted, h.peers]
  simp only [Sparse.get]
  rw [State.ownRequest, h.txn]
  dsimp only
  rw [h.cell]

end

/-- The value that a typed load reads at its home. -/
def typedRead (s : State) (sub k pl : Nat) (f32 : Bool) (fmt n : Nat) (bs : List Nat) (sc : Option Nat) : Nat × BitVec 5 :=
  let B := fun (o : Nat) => match s.viewOf (sub + o) with | some v => s.cell v.2.2 | none => 0
  decodeTyped (if f32 then fmt32 else fmtB16) fmt (typedElement fmt pl k n (bs.map B)) (sc.map fun o => (B o).toNat)

/-- The cells of bytes that all lie in a view. -/
theorem typedCells_eq (s : State) (q : Part) (f : Nat → Byte) (os : List Nat) (hview : ∀ o ∈ os, (s.viewOf (q.addr + o)).isSome = true)
    (hf : ∀ c, f c = s.cell c) : (s.typedCells q os).map f = os.map fun o => match s.viewOf (q.addr + o) with | some v => s.cell v.2.2 | none => 0 := by
  induction os with
  | nil => rfl
  | cons o os ih =>
    obtain ⟨v, hv⟩ := Option.isSome_iff_exists.mp (hview o List.mem_cons_self)
    have htail := ih fun o' ho' => hview o' (List.mem_cons_of_mem _ ho')
    simp only [State.typedCells, List.filterMap_cons, List.map_cons, hv, Option.map_some, hf] at htail ⊢
    rw [htail]

section
variable {s : State} {id : Nat} {T : Txn} {q : Part} {k pl fmt blk n : Nat} {f32 : Bool} {d : RegIx} {bs : List Nat} {sc : Option Nat}
  (hop : q.op = .typed k pl f32 fmt blk n d) (hb : typedBytes fmt pl blk k n = .ok (bs, sc))
  (hview : ∀ o ∈ sc.toList ++ bs, (s.viewOf (q.addr + o)).isSome = true) (hdirty : s.dirty = [])
include hop hb hview hdirty

/-- What a typed load's part delivers. -/
theorem readPart_typed (core : Nat) : s.readPart core q = ([(d.toNat, BitVec.ofNat 32 (typedRead s q.addr k pl f32 fmt n bs sc).1)], [],
    (typedRead s q.addr k pl f32 fmt n bs sc).2, false) := by
  have hcore : ∀ c, s.coreCell core c = s.cell c := fun c => by rw [State.coreCell, hdirty]; rfl
  have hbytes := typedCells_eq s q (s.coreCell core) bs (fun o ho => hview o (List.mem_append_right _ ho)) hcore
  cases sc with
  | none =>
    rw [State.readPart, hop]
    simp only [hb]
    rw [hbytes]
    rfl
  | some o =>
    obtain ⟨v, hv⟩ := Option.isSome_iff_exists.mp (hview o (by simp))
    have hone : s.typedCells q [o] = [v.2.2] := by simp only [State.typedCells, List.filterMap_cons, List.filterMap_nil, hv, Option.map_some]
    rw [State.readPart, hop]
    simp only [hb]
    rw [hbytes]
    simp only [typedRead, hone, Option.map_some, List.head?_cons, hcore, hv]

variable (h : QueueAlone s id T q)
include h

/-- Its lane takes the element's value, and the request is over. -/
theorem QueueAlone.serves_typed {g : Group} (hg : s.group T.gid = some g)
    (hprot : (s.rcd g.launch).blk.prot = false) (hlane : (g.lane q.lane).st ≠ .exited) :
    s.serveRead id { T with left := true } q = (s.setGroup T.gid (g.setLane q.lane
      { (g.lane q.lane).setReg d.toNat (BitVec.ofNat 32 (typedRead s q.addr k pl f32 fmt n bs sc).1) with
        flags := (g.lane q.lane).flags ||| (typedRead s q.addr k pl f32 fmt n bs sc).2 })).setTxn id none := by
  have hclean : s.partPoisoned T.core q = none := List.find?_eq_none.mpr fun c _ => by
    simp [State.loadPoisoned, State.poisoned, h.poison, Sparse.get]
  have hread := readPart_typed hop hb hview hdirty T.core
  unfold State.serveRead
  simp only [hclean, hread, hop, State.deliver]
  rw [onLane_unprotected s T.gid q.lane _ g hg hprot, if_neg hlane]
  have htxn : ∀ g', (s.setGroup T.gid g').txn id = some T := fun _ => h.txn
  have hnone : T.parts.filter (fun r => r.lane != q.lane || r.addr != q.addr) = [] := by simp [h.parts]
  have hflags : ∀ ws, (((g.lane q.lane).setRegs ws).setPreds []).flags = (g.lane q.lane).flags := fun ws => setRegs_flags _ ws
  simp only [htxn, State.keepParts, hnone, List.isEmpty_nil, if_true, hflags]
  rfl

end

theorem set_last (id : Nat) (T : Txn) : Sparse.set none [(id, some T)] id none = [] := by
  simp [Sparse.set, Sparse.del]

/-- A typed load from its request to its lane. -/
theorem QueueAlone.runs_typed {s : State} {id : Nat} {T : Txn} {q : Part} {k pl fmt blk n : Nat} {f32 : Bool} {d : RegIx} {bs : List Nat} {sc : Option Nat}
    {g : Group} (h : QueueAlone s id T q) (hT : Unheld T) (hop : q.op = .typed k pl f32 fmt blk n d) (hb : typedBytes fmt pl blk k n = .ok (bs, sc))
    (hview : ∀ o ∈ sc.toList ++ bs, (s.viewOf (q.addr + o)).isSome = true) (hdirty : s.dirty = []) (hg : s.group T.gid = some g)
    (hprot : (s.rcd g.launch).blk.prot = false) (hlane : (g.lane q.lane).st ≠ .exited) (hres : g.resident = true) :
    ∃ t2 g2, exec (.homeRequest id) s = .next t2 ∧ t2.group T.gid = some g2 ∧
      g2.lane q.lane = { (g.lane q.lane).setReg d.toNat (BitVec.ofNat 32 (typedRead s q.addr k pl f32 fmt n bs sc).1) with
        flags := (g.lane q.lane).flags ||| (typedRead s q.addr k pl f32 fmt n bs sc).2 } ∧ t2.txns = [] ∧ t2.mem = s.mem := by
  have hstep := h.reads_typed hT hop (mayDeliver_resident hg hres)
  rw [QueueAlone.serves_typed hop hb hview hdirty h hg hprot hlane] at hstep
  generalize hln : ({ (g.lane q.lane).setReg d.toNat (BitVec.ofNat 32 (typedRead s q.addr k pl f32 fmt n bs sc).1) with
    flags := (g.lane q.lane).flags ||| (typedRead s q.addr k pl f32 fmt n bs sc).2 } : Lane) = ln at hstep ⊢
  let s1 := (s.setGroup T.gid (g.setLane q.lane ln)).setTxn id none
  obtain ⟨hgroups, htxns, hmem⟩ := afterRead_afterRead s1 { T with left := true }.live
  have hg1 : (s1.afterRead { T with left := true }.live).group T.gid = some (g.setLane q.lane ln) := by
    rw [State.group, hgroups]
    exact (group_setGroup _ _ _ _).trans (if_pos rfl)
  obtain ⟨g2, hg2, hlanes, htxns2, hmem2⟩ := pollEnd_keeps _ _ hg1
  refine ⟨_, g2, congrArg Host.Outcome.next hstep, hg2, (hlanes _).trans ((lane_setLane _ _ _ _).trans (if_pos rfl)), htxns2.trans (htxns.trans ?_),
    hmem2.trans hmem⟩
  show Sparse.set none s.txns id none = []
  rw [h.alone, set_last]

/-! ### The statement -/

section
variable {s : State} {g : Group} {h : Hdr} {l : Nat} {f32 onG : Bool} {hint : Hint} {k : BitVec 3} {d a : RegIx} {off : BitVec 9} {leaf : Leaf} {x : Nat}
  (hl : lanesOf (active s g h) = [l]) (hst : Still s g h) (ht : s.txns = []) (hr : WordReady s g h (.ldTyp h f32 hint onG k d a off))
include hl hst hr

/-- The traps of a typed load. -/
theorem ldTyp_traps (hh : (g.lane l).handler = false) {code : Nat}
    (hbody : typedBody f32 hint onG k d a off (memCtl s g h) l (numbered s) = (trapAt code 0 (accessEa onG a off g l), numbered s)) :
    ∃ g', exec (.ldTyp h f32 hint onG k d a off) s = .next ((numbered s).setGroup s.cur.gid g') ∧
      lanesRun s g g' h (fun _ ln => ln.trap code 0 (BitVec.ofNat 64 (accessEa onG a off g l))) ∧ groupAfter s g g' h := by
  obtain ⟨g', hexec, hlanes, -, hgroup⟩ := (ldTyp_gives hl hst hr hbody).traps hh
  refine ⟨g', hexec, fun j hj => (hlanes j hj).trans (if_congr Iff.rfl ?_ rfl), hgroup⟩
  by_cases ha : (active s g h).getLsbD j = true
  · have hjl : j = l := List.mem_singleton.mp (hl ▸ mem_lanesOf.mpr ⟨hj, ha⟩)
    rw [if_pos ha, if_pos ha, hjl]
  · rw [if_neg ha, if_neg ha]

include ht

/-- A typed load, sent and served. -/
theorem ldTyp_completes (ha : Translates s g.core (s.ctxOf g) (accessEa onG a off g l) 1 .load leaf x) {bs : List Nat} {sc : Option Nat}
    (hb : typedBytes leaf.fmt leaf.pl leaf.blk (k.toNat + 1) (accessEa onG a off g l % 65536) = .ok (bs, sc))
    (hview : ∀ o ∈ sc.toList ++ bs, (s.viewOf (leaf.phys (accessEa onG a off g l / 65536 * 65536) + o)).isSome = true)
    (hpoison : s.poison = []) (hdir : s.dir = []) (hboot : s.mgmt.boot ≠ .notReady) (hdirty : s.dirty = []) (hposted : s.posted = [])
    (hpeers : s.peers = []) (hsmall : s.next + 1 < 2 ^ 63) (hres : g.resident = true) (hlane : (g.lane l).st = .eligible) :
    ∃ t1 t2 g2, exec (.ldTyp h f32 hint onG k d a off) s = .next t1 ∧ exec (.homeRequest (s.next + 1)) t1 = .next t2 ∧ t2.group s.cur.gid = some g2 ∧
      g2.lane l = { (g.lane l).setReg d.toNat (BitVec.ofNat 32 (typedRead s (leaf.phys (accessEa onG a off g l / 65536 * 65536)) (k.toNat + 1) leaf.pl f32
          leaf.fmt (accessEa onG a off g l % 65536) bs sc).1) with
        flags := (g.lane l).flags ||| (typedRead s (leaf.phys (accessEa onG a off g l / 65536 * 65536)) (k.toNat + 1) leaf.pl f32
          leaf.fmt (accessEa onG a off g l % 65536) bs sc).2, pc := s.cur.pc + BitVec.ofNat 64 s.cur.len } ∧
      t2.txns = [] ∧ t2.mem = s.mem := by
  obtain ⟨line, hbody⟩ := (typedBody_checked (f32 := f32) (hint := hint) (d := d) ht ha).2 bs sc hb
  obtain ⟨g', hlanes, -, hgroup, hexec⟩ := (ldTyp_gives hl hst hr hbody).sends
  have hmem : l ∈ lanesOf (active s g h) := hl ▸ List.mem_singleton_self l
  obtain ⟨hl32, hword, -⟩ := mem_active.mp hmem
  have hln : g'.lane l = { g.lane l with pc := s.cur.pc + BitVec.ofNat 64 s.cur.len } := by rw [hlanes l hl32, if_pos hword, ite_self]
  obtain ⟨hlaunch, hresident⟩ := groupAfter_frame hgroup
  let T := typedTxn s g l (accessEa onG a off g l) leaf f32 (hint == .ef) (k.toNat + 1) d line
  let q : Part := { lane := l, addr := leaf.phys (accessEa onG a off g l / 65536 * 65536), va := accessEa onG a off g l, len := 1
                    op := .typed (k.toNat + 1) leaf.pl f32 leaf.fmt leaf.blk (accessEa onG a off g l % 65536) d, level := leaf.level }
  have halone : QueueAlone ((queueSent s T).setGroup s.cur.gid g') (s.next + 1) T q :=
    { alone := (congrArg (fun m => Sparse.set none m (s.next + 1) _) ht).trans (set_first _ _), parts := rfl, cell := rfl, live := rfl, small := hsmall
      posted := hposted, peers := hpeers, dir := hdir, poison := hpoison, boot := hboot }
  have hhere : ((queueSent s T).setGroup s.cur.gid g').group s.cur.gid = some g' := (group_setGroup _ _ _ _).trans (if_pos rfl)
  obtain ⟨t2, g2, hhome, hg2, hl2, htxns, hmem2⟩ := halone.runs_typed ⟨rfl, rfl, rfl, rfl⟩ rfl hb hview hdirty hhere
    (by rw [hlaunch]; exact hst.1) (by rw [hln]; simp [hlane]) (hresident.trans hres)
  refine ⟨_, t2, g2, hexec, hhome, hg2, hl2.trans ?_, htxns, hmem2⟩
  rw [hln]
  unfold Lane.setReg
  split <;> rfl

end

/-- Settles O25: the integer operations as they stand in the model, the bit planes as a floored quotient, the elements as exact values rounded
once, and LD.typ as the one request on its way. -/
theorem atomicsAndTypedElements : Obligations.AtomicsAndTypedElements := by
  refine ⟨?_, fun n k x hk hkn hn => ?_, fun f32 fmt x scale hf hf' hscale => ?_, ?_⟩
  · intro op ty old a b hf hd w sg ho ha hb less
    have hless : ∀ x y, x < 2 ^ w → y < 2 ^ w → (less x y ↔ atomOrder ty x < atomOrder ty y) := fun x y hx hy => atomOrder_lt hx hy
    rw [atomNew_int op hf hd ha hb]
    cases op
    case min =>
      refine congrArg some ?_
      by_cases hle : atomOrder ty old ≤ atomOrder ty a
      · rw [if_pos hle, if_neg fun hc => not_lt.mpr hle ((hless a old ha ho).mp hc)]
      · rw [if_neg hle, if_pos ((hless a old ha ho).mpr (not_le.mp hle))]
    case max =>
      refine congrArg some ?_
      by_cases hlt : atomOrder ty old < atomOrder ty a
      · rw [if_pos hlt.le, if_pos ((hless old a ho ha).mpr hlt)]
      · rw [if_neg fun hc => hlt ((hless old a ho ha).mp hc)]
        split
        · next hle => exact (atomOrder_inj ho ha (le_antisymm hle (not_lt.mp hlt))).symm
        · rfl
    all_goals rfl
  · exact bpnVal_prefix hk hkn (Nat.mod_lt _ (Nat.two_pow_pos n))
  · intro D E el out
    have hD : D.Ieee := by
      show (if f32 then fmt32 else fmtB16).Ieee
      cases f32
      · exact ieee_fmtB16
      · exact ieee_fmt32
    refine ⟨fun hs => decodeTyped_nanScale fmt x hs, fun hs => ⟨fun h1 => ?_, fun h2 => ?_, fun h3 => decodeTyped_float hD x hs h3⟩⟩
    · subst h1; exact decodeTyped_bpn hD x hs
    · subst h2; exact decodeTyped_mxint8 hD x hs
  · intro h f32 hint onG k d a off s g l leaf x hl hst ht hh i hr ea cx sub trapped
    refine ⟨fun hhigh => ldTyp_traps hl hst hr hh (typedBody_window hhigh), fun hlow htlb hcell => ?_⟩
    have ha : Translates s g.core (s.ctxOf g) (accessEa onG a off g l) 1 .load leaf x := ⟨hlow, htlb, hcell⟩
    have hchecked := typedBody_checked (h := h) (f32 := f32) (hint := hint) (k := k) (d := d) ht ha
    intro s1 n limit
    have htraps : ∀ code, typedBytes leaf.fmt leaf.pl leaf.blk (k.toNat + 1) n = .error code → trapped s1 code := fun code hcode =>
      ldTyp_traps hl hst hr hh (hchecked.1 code hcode)
    refine ⟨fun h0 => htraps _ ?_, fun h1 h2 => htraps _ ?_, fun h1 h2 h3 => htraps _ ?_, fun h2 h3 => htraps _ ?_, fun bs sc hb => ?_, fun bs sc hb hview
      hpoison hdir hboot hdirty hposted hpeers hsmall hres hlane => ?_⟩
    · rw [typedBytes, if_pos h0]
    · rw [typedBytes, if_neg (by omega), if_pos h1, if_pos (.inl h2)]
    · rw [typedBytes, if_neg (by omega), if_pos h1, if_neg (by omega), if_pos h3]
    · rw [typedBytes, if_neg (by omega), if_neg (by omega), if_pos h3]
    · obtain ⟨line, hbody⟩ := hchecked.2 bs sc hb
      obtain ⟨g', hlanes, hregs, hgroup, hexec⟩ := (ldTyp_gives hl hst hr hbody).sends
      exact ⟨g', line, hlanes, hregs, hgroup, hexec⟩
    · exact ldTyp_completes hl hst ht hr ha hb hview hpoison hdir hboot hdirty hposted hpeers hsmall hres hlane

end Sys2Proof.Machine
end

section
/-! SUPPORT. O31: what the engines write of a scratchpad and of an accumulator tile (R97, R176, R240, R248). -/
namespace Sys2Proof.Machine

open Sys2Proof.Safety

/-! ### Bytes of a scratchpad (R97) -/

theorem setBytes_frame (t : Team) (o : Nat) (bs : List Byte) : t.setBytes o bs = { t with scratch := (t.setBytes o bs).scratch } := by
  induction bs generalizing t o with
  | nil => rfl
  | cons b bs ih => rw [Team.setBytes, ih]

/-- A byte after a write. -/
theorem byte_setBytes (t : Team) (u o : Nat) (bs : List Byte) (y : Nat) :
    (t.setBytes o bs).byte u y = if o ≤ y ∧ y < o + bs.length then bs.getD (y - o) 0 else t.byte u y := by
  induction bs generalizing t o with
  | nil => rw [if_neg (by simp only [List.length_nil]; omega)]; rfl
  | cons b bs ih =>
    rw [Team.setBytes, ih, List.length_cons]
    by_cases hlater : o + 1 ≤ y ∧ y < o + 1 + bs.length
    · rw [if_pos hlater, if_pos (by omega), show y - o = (y - (o + 1)) + 1 by omega, List.getD_cons_succ]
    · rw [if_neg hlater, Team.byte]
      dsimp only
      rw [Sparse.get_set]
      by_cases hy : y = o
      · subst hy
        rw [if_pos rfl, if_pos (by omega), Nat.sub_self]
        rfl
      · rw [if_neg hy, if_neg (by omega)]
        rfl

/-! ### What an engine writes (R176, R240) -/

/-- Of the state, groups and teams alone may have changed, and no team but u. -/
structure OneTeam (s s' : State) (u : Nat) : Prop where
  frame : s' = { s with groups := s'.groups, teams := s'.teams }
  others : ∀ v, v ≠ u → s'.team v = s.team v

theorem OneTeam.refl (s : State) (u : Nat) : OneTeam s s u := ⟨rfl, fun _ _ => rfl⟩

theorem OneTeam.trans {s s1 s2 : State} {u : Nat} (h : OneTeam s s1 u) (h' : OneTeam s1 s2 u) : OneTeam s s2 u :=
  ⟨by rw [h'.frame, h.frame], fun v hv => (h'.others v hv).trans (h.others v hv)⟩

theorem oneTeam_setTeam (s : State) (u : Nat) (t : Team) : OneTeam s (s.setTeam u t) u :=
  ⟨rfl, fun v hv => by rw [team_setTeam, if_neg hv]⟩

/-- A step that releases lanes. -/
theorem oneTeam_groups {s s' : State} (u : Nat) (h : s' = { s with groups := s'.groups }) : OneTeam s s' u ∧ s'.team u = s.team u := by
  refine ⟨⟨by rw [h], fun v _ => by rw [h]; rfl⟩, by rw [h]; rfl⟩

theorem markReady_frame (s : State) (gid l : Nat) : s.markReady gid l = { s with groups := (s.markReady gid l).groups } := by
  unfold State.markReady; split <;> rfl

theorem markAll_frame (ps : List (Nat × Nat × Nat × Bool × Bool)) (s : State) : s.markAll ps = { s with groups := (s.markAll ps).groups } := by
  induction ps generalizing s with
  | nil => rfl
  | cons p ps ih =>
    rw [State.markAll, List.foldl_cons]
    exact (ih _).trans (by rw [markReady_frame]; rfl)

theorem readyWhere_frame (s : State) (f : Group → Park → Bool) : s.readyWhere f = { s with groups := (s.readyWhere f).groups } := by
  refine foldl_rel (fun s t : State => t = { s with groups := t.groups }) (fun _ => rfl) (fun _ _ _ h k => by rw [k, h]) _ _ (fun s p _ => ?_) s
  split
  · split <;> rfl
  · rfl

theorem wakeScratch_quiet (s : State) (u o n : Nat) (ht : s.txns = []) : s.wakeScratch u o n = s := by
  rw [State.wakeScratch, ht]; rfl

/-- One bit of a granule changes, or is as it should be. -/
theorem setFull_spec {s : State} {u : Nat} {t : Team} (ht : s.team u = some t) (gran : Nat) :
    OneTeam s (s.setFull u gran true) u ∧ ∃ full, (s.setFull u gran true).team u = some { t with full := full } ∧
      Sparse.get false full gran = true ∧ ∀ x, Sparse.get false t.full x = true → Sparse.get false full x = true := by
  by_cases hb : Sparse.get false t.full gran = true
  · have hsame : s.setFull u gran true = s := by
      rw [State.setFull, ht]
      exact if_pos hb
    rw [hsame]
    exact ⟨.refl s u, t.full, ht, hb, fun _ h => h⟩
  · have hb' : Sparse.get false t.full gran = !true := Bool.not_eq_true _ ▸ hb
    refine ⟨?_, _, setFull_team ht hb', Sparse.get_set_same .., fun x hx => ?_⟩
    · rw [setFull_changes ht hb']
      exact (oneTeam_setTeam s u _).trans (oneTeam_groups u (markAll_frame _ _)).1
    · rw [Sparse.get_set]
      split
      · rfl
      · exact hx

/-- The bits of a list of granules. -/
theorem setFulls_spec {u : Nat} (gs : List Nat) {s : State} {t : Team} (ht : s.team u = some t) :
    OneTeam s (gs.foldl (fun s g => s.setFull u g true) s) u ∧ ∃ full, (gs.foldl (fun s g => s.setFull u g true) s).team u = some { t with full := full } ∧
      (∀ g ∈ gs, Sparse.get false full g = true) ∧ ∀ x, Sparse.get false t.full x = true → Sparse.get false full x = true := by
  induction gs generalizing s t with
  | nil => exact ⟨.refl s u, t.full, ht, fun _ h => absurd h List.not_mem_nil, fun _ h => h⟩
  | cons g gs ih =>
    obtain ⟨hone, full, hteam, hset, hkeep⟩ := setFull_spec ht g
    obtain ⟨hone', full', hteam', hset', hkeep'⟩ := ih hteam
    refine ⟨hone.trans hone', full', hteam', fun x hx => ?_, fun x hx => hkeep' x (hkeep x hx)⟩
    rcases List.mem_cons.mp hx with rfl | hx
    · exact hkeep' x hset
    · exact hset' x hx

/-- An engine has written bytes of team u's scratchpad, whose granules are full. -/
structure EngWrote (s s' : State) (u : Nat) (t t' : Team) (o : Nat) (bs : List Byte) : Prop where
  one : OneTeam s s' u
  team : s'.team u = some t'
  same : t' = { t with scratch := t'.scratch, full := t'.full }
  byte : ∀ y, t'.byte u y = if o ≤ y ∧ y < o + bs.length then bs.getD (y - o) 0 else t.byte u y
  full : ∀ i, i < (o % 16 + bs.length + 15) / 16 → Sparse.get false t'.full (o / 16 + i) = true

theorem engScratch_wrote {s : State} {u : Nat} {t : Team} (ht : s.team u = some t) (hq : s.txns = []) (o : Nat) (bs : List Byte) :
    ∃ t', EngWrote s (s.engScratch u o bs) u t t' o bs := by
  have hwrite : s.writeScratch u o bs = (s.setTeam u (t.setBytes o bs)).wakeBarriers u o bs.length := by
    rw [State.writeScratch, ht]
    dsimp only
    rw [wakeScratch_quiet (s.setTeam u (t.setBytes o bs)) _ _ _ hq]
  have hwake : (s.setTeam u (t.setBytes o bs)).wakeBarriers u o bs.length =
      { s.setTeam u (t.setBytes o bs) with groups := ((s.setTeam u (t.setBytes o bs)).wakeBarriers u o bs.length).groups } := by
    unfold State.wakeBarriers
    split
    · rfl
    · exact readyWhere_frame _ _
  obtain ⟨hone, hteam⟩ := oneTeam_groups u hwake
  have hteam' : ((s.setTeam u (t.setBytes o bs)).wakeBarriers u o bs.length).team u = some (t.setBytes o bs) :=
    hteam.trans (State.team_setTeam_same ..)
  obtain ⟨hone', full, hfull, hset, -⟩ := setFulls_spec ((List.range ((o % 16 + bs.length + 15) / 16)).map fun i => o / 16 + i) hteam'
  have heng : s.engScratch u o bs = ((List.range ((o % 16 + bs.length + 15) / 16)).map fun i => o / 16 + i).foldl (fun s g => s.setFull u g true)
      ((s.setTeam u (t.setBytes o bs)).wakeBarriers u o bs.length) := by rw [State.engScratch, hwrite]
  refine ⟨{ t.setBytes o bs with full := full }, ?_, ?_, ?_, fun y => byte_setBytes t u o bs y, fun i hi => ?_⟩
  · rw [heng]; exact ((oneTeam_setTeam s u _).trans hone).trans hone'
  · rw [heng]; exact hfull
  · rw [setBytes_frame]
  · exact hset _ (List.mem_map.mpr ⟨i, List.mem_range.mpr hi, rfl⟩)

/-! ### Accumulator tiles (R248) -/

/-- A pass that writes elements at places of their own. -/
theorem get_writes {ι : Type} (key : ι → Nat) (val : ι → Word) (xs : List ι) (hinj : ∀ x ∈ xs, ∀ y ∈ xs, key x = key y → x = y)
    (m : Sparse (Option Word)) (k : Nat) :
    (∀ x ∈ xs, key x = k → Sparse.get none (xs.foldl (fun m x => Sparse.set none m (key x) (some (val x))) m) k = some (val x)) ∧
    ((∀ x ∈ xs, key x ≠ k) → Sparse.get none (xs.foldl (fun m x => Sparse.set none m (key x) (some (val x))) m) k = Sparse.get none m k) := by
  induction xs generalizing m with
  | nil => exact ⟨fun _ h => absurd h List.not_mem_nil, fun _ => rfl⟩
  | cons a xs ih =>
    obtain ⟨hin, hout⟩ := ih (fun x hx y hy => hinj x (List.mem_cons_of_mem _ hx) y (List.mem_cons_of_mem _ hy)) (Sparse.set none m (key a) (some (val a)))
    rw [List.foldl_cons]
    refine ⟨fun x hx hk => ?_, fun hne => ?_⟩
    · by_cases hlater : ∃ y ∈ xs, key y = k
      · obtain ⟨y, hy, hyk⟩ := hlater
        rw [hin y hy hyk, hinj x hx y (List.mem_cons_of_mem _ hy) (hk.trans hyk.symm)]
      · have hxa : x = a := by
          rcases List.mem_cons.mp hx with rfl | hx'
          · rfl
          · exact absurd ⟨x, hx', hk⟩ hlater
        subst hxa
        rw [hout fun y hy hyk => hlater ⟨y, hy, hyk⟩, hk, Sparse.get_set_same]
    · rw [hout fun y hy => hne y (List.mem_cons_of_mem _ hy), Sparse.get_set, if_neg (Ne.symm (hne a List.mem_cons_self))]

theorem mem_tileIx {x : Nat × Nat} : x ∈ tileIx ↔ x.1 < 128 ∧ x.2 < 128 := by
  obtain ⟨i, j⟩ := x
  simp only [tileIx, List.mem_flatMap, List.mem_map, List.mem_range, Prod.mk.injEq]
  exact ⟨fun ⟨a, ha, b, hb, h1, h2⟩ => ⟨h1 ▸ ha, h2 ▸ hb⟩, fun ⟨hi, hj⟩ => ⟨i, hi, j, hj, rfl, rfl⟩⟩

theorem setAcc_frame (t : Team) (tile : Nat) (vs : List ((Nat × Nat) × Word)) : t.setAcc tile vs = { t with acc := (t.setAcc tile vs).acc } := rfl

/-- The elements of a tile after all of them have been written. -/
theorem accAt_setAcc (t : Team) (u tile : Nat) (f : Nat × Nat → Word) (tl : Nat) {i j : Nat} (hi : i < 128) (hj : j < 128) :
    (t.setAcc tile (tileIx.map fun x => (x, f x))).accAt u tl i j = if tl = tile then f (i, j) else t.accAt u tl i j := by
  obtain ⟨hin, hout⟩ := get_writes (fun x : Nat × Nat => tile * 16384 + 128 * x.1 + x.2) f tileIx (fun x hx y hy h => by
    have := mem_tileIx.mp hx; have := mem_tileIx.mp hy
    exact Prod.ext (by omega) (by omega)) t.acc (tl * 16384 + 128 * i + j)
  rw [Team.accAt, Team.setAcc, List.foldl_map]
  dsimp only
  by_cases htl : tl = tile
  · rw [if_pos htl, hin (i, j) (mem_tileIx.mpr ⟨hi, hj⟩) (by rw [htl])]
    rfl
  · rw [if_neg htl, hout fun x hx hk => by
      have := mem_tileIx.mp hx
      omega]
    rfl

end Sys2Proof.Machine
end

section
/-! SUPPORT. O31: the steps of a matrix operation and its completion (R250, R251). -/
namespace Sys2Proof.Machine

open Sys2Proof.Safety

/-- Team u's operation stands at the head of its core's queue, and may run. -/
structure AtHead (s : State) (u : Nat) (t : Team) (op : MxOp) (rest : List MxOp) : Prop where
  team : s.team u = some t
  queue : Sparse.get [] s.mx t.core = op :: rest
  mine : op.team = u
  free : s.stopAsked [u] = false
  cycle : s.issueCycle t.core = true
  quiet : s.txns = []

theorem stopAsked_iff {s : State} {u : Nat} {t : Team} (ht : s.team u = some t) :
    s.stopAsked [u] = false ↔ t.stopping = false ∧ (s.rcd t.task.lrec).st ≠ .ending := by
  simp [State.stopAsked, ht]

theorem length_mxGranule (n : Nat) (x : MxSum) : (mxGranule n x).length = 16 := by
  simp [mxGranule]

/-- The completion of an operation on the barrier that it is bound to, in the state s3. -/
def State.afterMx (s3 : State) (u : Nat) (op : MxOp) (run : Nat) : State :=
  (if op.bound then s3.barEvent u op.bar fun b => { b with bound := b.bound - 1, cdone := true, ev := true, run := gatherRun b.run run } else s3).freeRoom
    (.matrix u)

/-- What the last unit of an operation leaves, beside what it computes: t2 is the team after the unit's own effect. -/
structure Completes (s : State) (u : Nat) (t t2 : Team) (op : MxOp) (rest : List MxOp) (run : Nat) (s3 : State) (t3 : Team) : Prop where
  step : s.matrixCompletion u = s3.afterMx u op run
  mem : s3.mem = s.mem
  queue : Sparse.get [] s3.mx t.core = rest
  others : ∀ v, v ≠ u → s3.team v = s.team v
  team : s3.team u = some t3
  same : t3 = { t2 with scratch := t3.scratch, full := t3.full }
  byte : ∀ y, ¬ (op.bar + 16 ≤ y ∧ y < op.bar + 32) → t3.byte u y = t2.byte u y
  full : Sparse.get false t3.full (op.bar / 16 + 1) = true

section
variable {s s2 : State} {u : Nat} {t t2 : Team} {op op2 : MxOp} {rest : List MxOp} {sum : MxSum} (h : AtHead s u t op rest)
  (hunit : s.mxUnit u op = (s2, op2, sum))
include h hunit

/-- A chunk that is not the last. -/
theorem completion_chunk (hpos : op.pos + 1 < op.kind.chunks) :
    s.matrixCompletion u = { s2 with mx := Sparse.set [] s2.mx t.core (op2 :: rest) } := by
  rw [State.matrixCompletion, h.team]
  simp only [h.queue, h.mine, h.free, h.cycle, ne_eq, not_true, decide_false, Bool.not_true, Bool.or_self, Bool.false_eq_true, if_false, hunit, hpos, if_true]

/-- The last unit. -/
theorem completion_last (hpos : ¬ op.pos + 1 < op.kind.chunks) (hone : OneTeam s s2 u) (ht2 : s2.team u = some t2) :
    ∃ s3 t3, Completes s u t t2 op rest sum.run s3 t3 := by
  let s' : State := { s2 with free := s2.free + 1 }
  obtain ⟨t3, hwrote⟩ := engScratch_wrote (s := s') (u := u) ht2 (by show s2.txns = []; rw [hone.frame]; exact h.quiet) (op.bar + 16) (mxGranule s2.free sum)
  have hlen := length_mxGranule s2.free sum
  refine ⟨{ s'.engScratch u (op.bar + 16) (mxGranule s2.free sum) with
    mx := Sparse.set [] (s'.engScratch u (op.bar + 16) (mxGranule s2.free sum)).mx t.core rest }, t3, ?_, ?_, Sparse.get_set_same .., ?_, hwrote.team,
    hwrote.same, fun y hy => ?_, ?_⟩
  · rw [State.matrixCompletion, h.team]
    simp only [h.queue, h.mine, h.free, h.cycle, ne_eq, not_true, decide_false, Bool.not_true, Bool.or_self, Bool.false_eq_true, if_false, hunit, hpos,
      State.draw]
    rfl
  · show (s'.engScratch u (op.bar + 16) (mxGranule s2.free sum)).mem = s.mem
    rw [hwrote.one.frame]
    show s2.mem = s.mem
    rw [hone.frame]
  · intro v hv
    exact (hwrote.one.others v hv).trans (hone.others v hv)
  · rw [hwrote.byte, hlen, if_neg (by omega)]
  · have := hwrote.full 0 (by rw [hlen]; omega)
    rwa [Nat.add_zero, show (op.bar + 16) / 16 = op.bar / 16 + 1 by omega] at this

end

end Sys2Proof.Machine
end

section
/-! SUPPORT. O31: MXZERO, MXLD, MXST and MXSEL24, which are one unit each (R248, R252, R409, R410). -/
namespace Sys2Proof.Machine

open Sys2Proof.Safety

/-! ### Little-endian values (R3) -/

/-- Bytes that are those of a value. -/
theorem leNat_of_bytes {f : Nat → Byte} {n v : Nat} (h : ∀ c, c < n → f c = (toLE n v).getD c 0) : leNat ((List.range n).map f) = v % 256 ^ n := by
  have hbytes : (List.range n).map f = toLE n v := List.ext_getElem (by simp) fun c hc hc' => by
    rw [length_toLE] at hc'
    rw [List.getElem_map, List.getElem_range, h c hc', List.getD_eq_getElem]
  rw [hbytes, leNat_toLE]

theorem leNat_lt (bs : List Byte) : leNat bs < 256 ^ bs.length := by
  have h := leNat_toLE bs.length (leNat bs)
  rw [toLE_leNat] at h
  rw [h]
  exact Nat.mod_lt _ (by positivity)

theorem scrNat_lt {s : State} {u : Nat} {t : Team} (ht : s.team u = some t) (y n : Nat) : leNat (s.readScratch u y n) < 256 ^ n := by
  have h := leNat_lt (s.readScratch u y n)
  rwa [show (s.readScratch u y n).length = n by rw [readScratch_own s u t y n ht, Team.bytes, List.length_map, List.length_range]] at h

/-! ### A tile as bytes (R409) -/

theorem flatMap_tileIx (f : Nat × Nat → List Byte) :
    tileIx.flatMap f = (List.range 128).flatMap fun i => (List.range 128).flatMap fun j => f (i, j) := by
  simp only [tileIx, List.flatMap_assoc, List.flatMap_map]

section
variable {f : Nat × Nat → List Byte} {w : Nat} (hf : ∀ x, (f x).length = w)
include hf

theorem length_tile_row (i : Nat) : ((List.range 128).flatMap fun j => f (i, j)).length = w * 128 := by
  rw [length_flatMap_of_length _ w _ fun j _ => hf _, List.length_range]

theorem length_tile_bytes : (tileIx.flatMap f).length = w * 16384 := by
  rw [flatMap_tileIx, length_flatMap_of_length _ (w * 128) _ fun i _ => length_tile_row hf i, List.length_range]
  omega

/-- Byte c of element (i, j). -/
theorem getD_tile_bytes {i j c : Nat} (hi : i < 128) (hj : j < 128) (hc : c < w) :
    (tileIx.flatMap f).getD (w * (128 * i + j) + c) 0 = (f (i, j)).getD c 0 := by
  have hin : w * j + c < w * 128 := by
    have : w * (j + 1) ≤ w * 128 := Nat.mul_le_mul_left w hj
    rw [Nat.mul_succ] at this; omega
  rw [flatMap_tileIx, show w * (128 * i + j) + c = w * 128 * i + (w * j + c) by ring,
    getD_flatMap_range _ (w * 128) 128 i _ (length_tile_row hf) hi hin, getD_flatMap_range _ w 128 j c (fun j => hf _) hj hc]

end

/-! ### One unit -/

/-- An operation other than MXMUL: one unit. -/
def MxKind.IsSingle (k : MxKind) : Prop := ∀ mode a b sel kk tile, k ≠ .mul mode a b sel kk tile

theorem MxKind.IsSingle.chunks {k : MxKind} (h : k.IsSingle) : k.chunks = 1 := by
  cases k with
  | mul => exact (h _ _ _ _ _ _ rfl).elim
  | _ => rfl

theorem mxUnit_single {s : State} {u : Nat} {op : MxOp} (hk : op.kind.IsSingle) :
    s.mxUnit u op = ((s.runMx u op.kind).1, { op with pos := op.pos + 1 }, (s.runMx u op.kind).2) := by
  unfold State.mxUnit
  split
  · next hkind _ => exact (hk _ _ _ _ _ _ hkind).elim
  · rfl

/-- The one unit, and the completion. -/
theorem single_completes {s s2 : State} {u : Nat} {t t2 : Team} {op : MxOp} {rest : List MxOp} {sum : MxSum} (h : AtHead s u t op rest)
    (hk : op.kind.IsSingle) (hrun : s.runMx u op.kind = (s2, sum)) (hone : OneTeam s s2 u)
    (ht2 : s2.team u = some t2) : ∃ s3 t3, Completes s u t t2 op rest sum.run s3 t3 := by
  have hunit := mxUnit_single (s := s) (u := u) hk
  rw [hrun] at hunit
  exact completion_last h hunit (by rw [hk.chunks]; omega) hone ht2

theorem byte_setAcc (t : Team) (tile : Nat) (vs : List ((Nat × Nat) × Word)) (u y : Nat) : (t.setAcc tile vs).byte u y = t.byte u y := rfl

theorem Completes.acc {s s3 : State} {u run : Nat} {t t2 t3 : Team} {op : MxOp} {rest : List MxOp} (h : Completes s u t t2 op rest run s3 t3) :
    t3.acc = t2.acc := by rw [h.same]

theorem EngWrote.acc {s s' : State} {u o : Nat} {t t' : Team} {bs : List Byte} (h : EngWrote s s' u t t' o bs) : t'.acc = t.acc := by rw [h.same]

theorem accAt_of_acc {t t' : Team} (h : t'.acc = t.acc) (u tile i j : Nat) : t'.accAt u tile i j = t.accAt u tile i j := by
  rw [Team.accAt, Team.accAt, h]

section
variable {s : State} {u : Nat} {t : Team} {op : MxOp} {rest : List MxOp} (h : AtHead s u t op rest)
include h

/-- An operation that writes a tile: MXZERO and MXLD. -/
theorem tile_completes (hk : op.kind.IsSingle) {tile : Nat} {f : Nat × Nat → Word}
    (hrun : s.runMx u op.kind = (s.setTeam u (t.setAcc tile (tileIx.map fun x => (x, f x))), {})) :
    ∃ s3 t3, Completes s u t (t.setAcc tile (tileIx.map fun x => (x, f x))) op rest 0 s3 t3 ∧
      (∀ y, ¬ (op.bar + 16 ≤ y ∧ y < op.bar + 32) → t3.byte u y = t.byte u y) ∧
      ∀ tl i j, i < 128 → j < 128 → t3.accAt u tl i j = if tl = tile then f (i, j) else t.accAt u tl i j := by
  obtain ⟨s3, t3, hc⟩ := single_completes h hk hrun (oneTeam_setTeam ..) (State.team_setTeam_same ..)
  exact ⟨s3, t3, hc, fun y hy => (hc.byte y hy).trans (byte_setAcc ..), fun tl i j hi hj => by rw [accAt_of_acc hc.acc, accAt_setAcc t u tile f tl hi hj]⟩

/-- MXST: the bytes of the tile's elements. -/
theorem store_completes (hk : op.kind.IsSingle) {dst w : Nat} {v : Nat × Nat → Nat} {sum : MxSum}
    (hrun : s.runMx u op.kind = (s.engScratch u dst (tileIx.flatMap fun x => toLE w (v x)), sum)) :
    ∃ s3 t2 t3, Completes s u t t2 op rest sum.run s3 t3 ∧ t3.acc = t.acc ∧
      (∀ y, ¬ (op.bar + 16 ≤ y ∧ y < op.bar + 32) → ¬ (dst ≤ y ∧ y < dst + w * 16384) → t3.byte u y = t.byte u y) ∧
      (op.bar + 32 ≤ dst ∨ dst + w * 16384 ≤ op.bar + 16 → ∀ i j, i < 128 → j < 128 →
        leNat ((List.range w).map fun c => t3.byte u (dst + w * (128 * i + j) + c)) = v (i, j) % 256 ^ w) := by
  obtain ⟨t2, hw⟩ := engScratch_wrote h.team h.quiet dst (tileIx.flatMap fun x => toLE w (v x))
  obtain ⟨s3, t3, hc⟩ := single_completes h hk hrun hw.one hw.team
  have hlen : (tileIx.flatMap fun x => toLE w (v x)).length = w * 16384 := length_tile_bytes fun x => length_toLE ..
  refine ⟨s3, t2, t3, hc, hc.acc.trans hw.acc, fun y hy hin => ?_, fun hfar i j hi hj => leNat_of_bytes fun c hcw => ?_⟩
  · rw [hc.byte y hy, hw.byte, hlen, if_neg hin]
  · have hin : w * (128 * i + j) + c < w * 16384 := by
      have : w * (128 * i + j + 1) ≤ w * 16384 := Nat.mul_le_mul_left w (by omega)
      rw [Nat.mul_succ] at this; omega
    rw [hc.byte _ (by omega), hw.byte, hlen, if_pos (by omega), show dst + w * (128 * i + j) + c - dst = w * (128 * i + j) + c by omega,
      getD_tile_bytes (fun x => length_toLE ..) hi hj hcw]

end

/-- BF16 bits of an accumulator element (R409). -/
theorem toBf16_spec (x : Nat) : (toBf16 x).1 < 256 ^ 2 ∧
    match fmt32.decode x with
    | .nan .. => (toBf16 x).1 = 0x7FC0
    | .inf n => (toBf16 x).1 = if n then 0xFF80 else 0x7F80
    | .fin n m e => ∃ fl, Stands fmtB16 0 (realOf (.fin n m e)) n ((toBf16 x).1, fl) := by
  unfold toBf16
  cases fmt32.decode x with
  | nan b sig => exact ⟨(by decide : fmtB16.nanBits < 256 ^ 2), rfl⟩
  | inf n => cases n <;> exact ⟨(by decide : (fmtB16.inf _).1 < 256 ^ 2), rfl⟩
  | fin n m e => exact ⟨ofFin_lt ieee_fmtB16 (by decide) _, _, ofFin_stands ieee_fmtB16 n m e (by decide)⟩

end Sys2Proof.Machine
end

section
/-! SUPPORT. O31: MXSEL24, the two kept elements of each group of four (R252, R410). -/
namespace Sys2Proof.Machine

open Sys2Proof.Safety

/-! ### The order of a group (R252) -/

/-- Element p comes before element q: its rank is greater, or it is the lower of equals. -/
def Ranks (r : Nat → Nat) (p q : Nat) : Prop := r q < r p ∨ (r q = r p ∧ p < q)

/-- An element inserted after lower ones of its rank. -/
theorem insertBy_ranks (r : Nat → Nat) (a : Nat) {l : List Nat} (hl : l.Pairwise (Ranks r)) (ha : ∀ b ∈ l, b < a) :
    (insertBy (fun a b => decide (r b < r a)) a l).Perm (a :: l) ∧ (insertBy (fun a b => decide (r b < r a)) a l).Pairwise (Ranks r) := by
  induction l with
  | nil => exact ⟨.refl _, List.pairwise_singleton ..⟩
  | cons b l ih =>
    obtain ⟨hb, hl⟩ := List.pairwise_cons.mp hl
    rw [insertBy]
    by_cases hlt : r b < r a
    · rw [decide_eq_true hlt, if_pos rfl]
      refine ⟨.refl _, List.pairwise_cons.mpr ⟨fun c hc => ?_, List.pairwise_cons.mpr ⟨hb, hl⟩⟩⟩
      rcases List.mem_cons.mp hc with rfl | hc
      · exact .inl hlt
      · have := hb c hc
        unfold Ranks at this ⊢; omega
    · rw [decide_eq_false hlt, if_neg Bool.false_ne_true]
      obtain ⟨hperm, hpair⟩ := ih hl fun c hc => ha c (List.mem_cons_of_mem _ hc)
      refine ⟨(hperm.cons b).trans (.swap ..), List.pairwise_cons.mpr ⟨fun c hc => ?_, hpair⟩⟩
      rcases List.mem_cons.mp (hperm.mem_iff.mp hc) with rfl | hc
      · have := ha b List.mem_cons_self
        unfold Ranks; omega
      · exact hb c hc

theorem sortBy_ranks (r : Nat → Nat) (n : Nat) : (sortBy (fun a b => decide (r b < r a)) (List.range n)).Perm (List.range n) ∧
    (sortBy (fun a b => decide (r b < r a)) (List.range n)).Pairwise (Ranks r) := by
  induction n with
  | zero => exact ⟨.refl _, .nil⟩
  | succ n ih =>
    obtain ⟨hperm, hpair⟩ := ih
    rw [sortBy, List.range_succ, List.foldl_append]
    obtain ⟨hperm', hpair'⟩ := insertBy_ranks r n hpair fun b hb => List.mem_range.mp (hperm.mem_iff.mp hb)
    exact ⟨hperm'.trans ((hperm.cons n).trans (List.perm_append_singleton ..).symm), hpair'⟩

/-- The two kept indices. -/
structure Keeps (r : Nat → Nat) (kp : Nat × Nat) : Prop where
  lt : kp.1 < kp.2
  four : kp.2 < 4
  best : ∀ q, q < 4 → q ≠ kp.1 → q ≠ kp.2 → ∀ p, p = kp.1 ∨ p = kp.2 → Ranks r p q

theorem keepTwo_keeps (xs : List Nat) : Keeps (fun q => pruneRank (xs.getD q 0)) (keepTwo xs) := by
  obtain ⟨hperm, hpair⟩ := sortBy_ranks (fun q => pruneRank (xs.getD q 0)) 4
  rw [keepTwo, show ([0, 1, 2, 3] : List Nat) = List.range 4 from rfl]
  generalize sortBy (fun a b => decide (pruneRank (xs.getD b 0) < pruneRank (xs.getD a 0))) (List.range 4) = o at hperm hpair
  obtain ⟨a, b, c, d, rfl⟩ : ∃ a b c d, o = [a, b, c, d] := by
    have := hperm.length_eq
    rw [List.length_range] at this
    match o, this with
    | [a, b, c, d], _ => exact ⟨a, b, c, d, rfl⟩
  have hmem : ∀ q, q < 4 ↔ q = a ∨ q = b ∨ q = c ∨ q = d := fun q => by
    rw [← List.mem_range, ← hperm.mem_iff]; simp
  have hne : a ≠ b := by
    have := hperm.nodup_iff.mpr List.nodup_range
    simp only [List.nodup_cons, List.mem_cons, not_or] at this
    exact this.1.1
  simp only [List.pairwise_cons, List.mem_cons, List.not_mem_nil, or_false, forall_eq_or_imp, forall_eq] at hpair
  obtain ⟨⟨-, hac, had⟩, ⟨hbc, hbd⟩, -⟩ := hpair
  have ha := (hmem a).mpr (by simp)
  have hb := (hmem b).mpr (by simp)
  have hsorted : (Nat.min a b, Nat.max a b) = (a, b) ∨ (Nat.min a b, Nat.max a b) = (b, a) := by
    rcases Nat.le_total a b with h | h
    · exact .inl (Prod.ext (Nat.min_eq_left h) (Nat.max_eq_right h))
    · exact .inr (Prod.ext (Nat.min_eq_right h) (Nat.max_eq_left h))
  have hlt : Nat.min a b < Nat.max a b := by
    show min a b < max a b
    omega
  have hfour : Nat.max a b < 4 := by
    show max a b < 4
    omega
  refine ⟨hlt, hfour, fun q hq h1 h2 p hp => ?_⟩
  have hqcd : q = c ∨ q = d := by
    rcases hsorted with h | h
    all_goals
      obtain ⟨hmin, hmax⟩ := Prod.mk.inj h
      have h1' : q ≠ Nat.min a b := h1
      have h2' : q ≠ Nat.max a b := h2
      rw [hmin] at h1'
      rw [hmax] at h2'
      have := (hmem q).mp hq
      tauto
  have hpab : p = a ∨ p = b := by
    rcases hsorted with h | h
    all_goals
      obtain ⟨hmin, hmax⟩ := Prod.mk.inj h
      have hp' : p = Nat.min a b ∨ p = Nat.max a b := hp
      rw [hmin, hmax] at hp'
      tauto
  rcases hpab with rfl | rfl
  · rcases hqcd with rfl | rfl <;> assumption
  · rcases hqcd with rfl | rfl <;> assumption

/-! ### The bytes of MXSEL24 (R410) -/

/-- Group g of row i: its elements. -/
def State.selGroup (s : State) (u src kk i g : Nat) : List Nat := (List.range 4).map fun q => s.scrNat u (src + 2 * kk * i + 2 * (4 * g + q)) 2

/-- The two kept values of a group. -/
def State.selKept (s : State) (u src kk i g : Nat) : List Byte :=
  let xs := s.selGroup u src kk i g
  toLE 2 (xs.getD (keepTwo xs).1 0) ++ toLE 2 (xs.getD (keepTwo xs).2 0)

/-- The two kept indices of a group, in four bits. -/
def State.selNib (s : State) (u src kk i g : Nat) : Nat := (keepTwo (s.selGroup u src kk i g)).1 + 4 * (keepTwo (s.selGroup u src kk i g)).2

def State.selVals (s : State) (u src rows kk : Nat) : List Byte :=
  (List.range rows).flatMap fun i => (List.range (kk / 4)).flatMap fun g => s.selKept u src kk i g

def State.selNibs (s : State) (u src rows kk : Nat) : List Byte :=
  (List.range rows).flatMap fun i => (List.range (kk / 8)).map fun b =>
    BitVec.ofNat 8 (s.selNib u src kk i (2 * b) + 16 * s.selNib u src kk i (2 * b + 1))

theorem getD_map_range {α : Type} (f : Nat → α) {n i : Nat} (d : α) (hi : i < n) : ((List.range n).map f).getD i d = f i := by
  rw [List.getD_eq_getElem _ _ (by simpa using hi), List.getElem_map, List.getElem_range]

theorem runMx_sel24 {s : State} {u : Nat} {t : Team} (ht : s.team u = some t) (src rows kk vals sels : Nat) :
    s.runMx u (.sel24 src rows kk vals sels) = ((s.engScratch u vals (s.selVals u src rows kk)).engScratch u sels (s.selNibs u src rows kk), {}) := by
  have hnib : s.selNibs u src rows kk = (List.range rows).flatMap fun i => (List.range (kk / 8)).map fun b =>
      let r := (List.range (kk / 4)).map fun g =>
        ((s.selGroup u src kk i g).getD (keepTwo (s.selGroup u src kk i g)).1 0, (s.selGroup u src kk i g).getD (keepTwo (s.selGroup u src kk i g)).2 0,
          s.selNib u src kk i g)
      BitVec.ofNat 8 ((r.getD (2 * b) (0, 0, 0)).2.2 + 16 * (r.getD (2 * b + 1) (0, 0, 0)).2.2) := by
    refine List.flatMap_congr fun i _ => List.map_congr_left fun b hb => ?_
    have := List.mem_range.mp hb
    dsimp only
    rw [getD_map_range _ _ (by omega), getD_map_range _ _ (by omega)]
  rw [State.runMx, ht, hnib]
  simp only [List.flatMap_map]
  rfl

section
variable (s : State) (u src rows kk : Nat)

theorem length_selKept (i g : Nat) : (s.selKept u src kk i g).length = 4 := by simp [State.selKept]

theorem length_selRow (i : Nat) : ((List.range (kk / 4)).flatMap fun g => s.selKept u src kk i g).length = 4 * (kk / 4) := by
  rw [length_flatMap_of_length _ 4 _ fun g _ => length_selKept .., List.length_range]

theorem length_selVals : (s.selVals u src rows kk).length = 4 * (kk / 4) * rows := by
  rw [State.selVals, length_flatMap_of_length _ (4 * (kk / 4)) _ fun i _ => length_selRow .., List.length_range]

theorem length_selNibs : (s.selNibs u src rows kk).length = kk / 8 * rows := by
  rw [State.selNibs, length_flatMap_of_length _ (kk / 8) _ fun i _ => by rw [List.length_map, List.length_range], List.length_range]

variable {s u src rows kk}

theorem getD_selVals {i g c : Nat} (hi : i < rows) (hg : g < kk / 4) (hc : c < 4) :
    (s.selVals u src rows kk).getD (4 * (kk / 4) * i + (4 * g + c)) 0 = (s.selKept u src kk i g).getD c 0 := by
  rw [State.selVals, getD_flatMap_range _ (4 * (kk / 4)) rows i _ (length_selRow s u src kk) hi (by omega),
    getD_flatMap_range _ 4 (kk / 4) g c (length_selKept s u src kk i) hg hc]

theorem getD_selNibs {i b : Nat} (hi : i < rows) (hb : b < kk / 8) : (s.selNibs u src rows kk).getD (kk / 8 * i + b) 0 =
    BitVec.ofNat 8 (s.selNib u src kk i (2 * b) + 16 * s.selNib u src kk i (2 * b + 1)) := by
  rw [State.selNibs, getD_flatMap_range _ (kk / 8) rows i b (fun i => by rw [List.length_map, List.length_range]) hi hb, getD_map_range _ _ hb]

theorem selNib_lt (i g : Nat) : s.selNib u src kk i g < 16 := by
  have h := keepTwo_keeps (s.selGroup u src kk i g)
  have := h.lt; have := h.four
  unfold State.selNib; omega

theorem selNib_split (i g : Nat) : s.selNib u src kk i g % 4 = (keepTwo (s.selGroup u src kk i g)).1 ∧
    s.selNib u src kk i g / 4 = (keepTwo (s.selGroup u src kk i g)).2 := by
  have h := keepTwo_keeps (s.selGroup u src kk i g)
  have := h.lt; have := h.four
  unfold State.selNib; omega

theorem getD_selGroup (i g : Nat) {q : Nat} (hq : q < 4) :
    (s.selGroup u src kk i g).getD q 0 = leNat (s.readScratch u (src + 2 * kk * i + 2 * (4 * g + q)) 2) := getD_map_range _ _ hq

end

/-- Nibble k of a row of nibbles, two in a byte. -/
theorem nibble_of_byte (f : Nat → Nat) (hf : ∀ i, f i < 16) (k : Nat) : (f (2 * (k / 2)) + 16 * f (2 * (k / 2) + 1)) / 16 ^ (k % 2) % 16 = f k := by
  have hlow := hf (2 * (k / 2))
  have hhigh := hf (2 * (k / 2) + 1)
  rcases Nat.mod_two_eq_zero_or_one k with hk | hk
  · have heven : 2 * (k / 2) = k := by omega
    rw [heven] at hlow
    rw [hk, heven, pow_zero, Nat.div_one]
    omega
  · have hodd : 2 * (k / 2) + 1 = k := by omega
    rw [hodd] at hhigh
    rw [hk, hodd, pow_one]
    omega

/-- Two values of two bytes each. -/
theorem getD_pair (v w c : Nat) (hc : c < 2) : (toLE 2 v ++ toLE 2 w).getD c 0 = (toLE 2 v).getD c 0 ∧
    (toLE 2 v ++ toLE 2 w).getD (2 + c) 0 = (toLE 2 w).getD c 0 := by
  refine ⟨List.getD_append _ _ _ _ (by rwa [length_toLE]), ?_⟩
  rw [List.getD_append_right _ _ _ _ (by rw [length_toLE]; omega), length_toLE, Nat.add_sub_cancel_left]

/-- The bytes of a scratchpad after MXSEL24: its two outputs, and the rest. -/
theorem sel24_completes {s : State} {u : Nat} {t : Team} {op : MxOp} {rest : List MxOp} (h : AtHead s u t op rest) {src rows kk vals sels : Nat}
    (hk : op.kind = .sel24 src rows kk vals sels) : ∃ s3 t2 t3, Completes s u t t2 op rest 0 s3 t3 ∧ t3.acc = t.acc ∧
      ∀ y, ¬ (op.bar + 16 ≤ y ∧ y < op.bar + 32) → t3.byte u y =
        if sels ≤ y ∧ y < sels + kk / 8 * rows then (s.selNibs u src rows kk).getD (y - sels) 0
        else if vals ≤ y ∧ y < vals + 4 * (kk / 4) * rows then (s.selVals u src rows kk).getD (y - vals) 0 else t.byte u y := by
  obtain ⟨t1, h1⟩ := engScratch_wrote h.team h.quiet vals (s.selVals u src rows kk)
  obtain ⟨t2, h2⟩ := engScratch_wrote h1.team (by rw [h1.one.frame]; exact h.quiet) sels (s.selNibs u src rows kk)
  obtain ⟨s3, t3, hc⟩ := single_completes h (by rw [hk]; exact fun _ _ _ _ _ _ => MxKind.noConfusion) (by rw [hk]; exact runMx_sel24 h.team ..)
    (h1.one.trans h2.one) h2.team
  refine ⟨s3, t2, t3, hc, hc.acc.trans (h2.acc.trans h1.acc), fun y hy => ?_⟩
  rw [hc.byte y hy, h2.byte, h1.byte, length_selVals, length_selNibs]

/-- A group after MXSEL24: its nibble and its two values. -/
theorem sel24_group {s : State} {u : Nat} {t t3 : Team} {src rows kk vals sels bar : Nat}
    (hbyte : ∀ y, ¬ (bar + 16 ≤ y ∧ y < bar + 32) → t3.byte u y =
        if sels ≤ y ∧ y < sels + kk / 8 * rows then (s.selNibs u src rows kk).getD (y - sels) 0
        else if vals ≤ y ∧ y < vals + 4 * (kk / 4) * rows then (s.selVals u src rows kk).getD (y - vals) 0 else t.byte u y)
    (hk8 : kk % 8 = 0) (hord : vals + kk * rows ≤ sels) (hfar : bar + 32 ≤ vals ∨ sels + kk / 8 * rows ≤ bar + 16) {i k : Nat} (hi : i < rows)
    (hk : k < kk / 4) :
    leNat ((List.range 1).map fun c => t3.byte u (sels + kk / 8 * i + k / 2 + c)) / 16 ^ (k % 2) % 16 = s.selNib u src kk i k ∧
    leNat ((List.range 2).map fun c => t3.byte u (vals + kk * i + 4 * k + c)) =
      (s.selGroup u src kk i k).getD (keepTwo (s.selGroup u src kk i k)).1 0 % 256 ^ 2 ∧
    leNat ((List.range 2).map fun c => t3.byte u (vals + kk * i + 4 * k + 2 + c)) =
      (s.selGroup u src kk i k).getD (keepTwo (s.selGroup u src kk i k)).2 0 % 256 ^ 2 := by
  have hquad : 4 * (kk / 4) = kk := by omega
  have hrowN : kk / 8 * (i + 1) ≤ kk / 8 * rows := Nat.mul_le_mul_left _ hi
  have hrowV : kk * (i + 1) ≤ kk * rows := Nat.mul_le_mul_left _ hi
  rw [Nat.mul_succ] at hrowN hrowV
  have hval : ∀ c, c < 4 → t3.byte u (vals + kk * i + 4 * k + c) = (s.selKept u src kk i k).getD c 0 := fun c hc => by
    rw [hbyte _ (by omega), if_neg (by omega), if_pos (by rw [hquad]; omega), ← getD_selVals hi hk hc, hquad]
    congr 1; omega
  have hnib : t3.byte u (sels + kk / 8 * i + k / 2) = BitVec.ofNat 8 (s.selNib u src kk i (2 * (k / 2)) + 16 * s.selNib u src kk i (2 * (k / 2) + 1)) := by
    rw [hbyte _ (by omega), if_pos (by omega), ← getD_selNibs hi (by omega)]
    congr 1; omega
  refine ⟨?_, leNat_of_bytes fun c hc => ?_, leNat_of_bytes fun c hc => ?_⟩
  · have hbytes : leNat ((List.range 1).map fun c => t3.byte u (sels + kk / 8 * i + k / 2 + c)) =
        s.selNib u src kk i (2 * (k / 2)) + 16 * s.selNib u src kk i (2 * (k / 2) + 1) := by
      show (t3.byte u (sels + kk / 8 * i + k / 2)).toNat + 256 * 0 = _
      have hlow := selNib_lt (s := s) (u := u) (src := src) (kk := kk) i (2 * (k / 2))
      have hhigh := selNib_lt (s := s) (u := u) (src := src) (kk := kk) i (2 * (k / 2) + 1)
      rw [hnib, BitVec.toNat_ofNat]; omega
    rw [hbytes, nibble_of_byte _ (selNib_lt i)]
  · rw [hval c (by omega)]
    exact (getD_pair _ _ c hc).1
  · rw [Nat.add_assoc _ 2 c, hval (2 + c) (by omega)]
    exact (getD_pair _ _ c hc).2

end Sys2Proof.Machine
end

section
/-! SUPPORT. O31: the exact sum of a chunk's products, and its addition to an accumulator (R225). -/
namespace Sys2Proof.Machine

open Sys2Proof.Safety

/-! ### Exact sums -/

theorem realOf_product (n1 n2 : Bool) (m1 m2 : Nat) (e1 e2 : Int) :
    realOf (.fin (n1 ^^ n2) (m1 * m2) (e1 + e2)) = realOf (.fin n1 m1 e1) * realOf (.fin n2 m2 e2) := by
  rw [realOf_fin, realOf_fin, realOf_fin, zpow_add₀ (by norm_num)]
  cases n1 <;> cases n2 <;> simp [signedReal] <;> ring

/-- A signed magnitude at a lower quantum. -/
theorem realOf_at {e q : Int} (h : q ≤ e) (n : Bool) (m : Nat) :
    realOf (.fin n m e) = ((if n then -((m * 2 ^ (e - q).toNat : Nat) : Int) else ((m * 2 ^ (e - q).toNat : Nat) : Int) : Int) : ℝ) * 2 ^ q := by
  rw [realOf_fin, two_zpow_split h]
  cases n <;> simp [signedReal] <;> ring

theorem addFin_exact {n1 n2 : Bool} {m1 m2 : Nat} {e1 e2 : Int} (h1 : m1 = 0 → n1 = false) :
    (let v := addFin 0 n1 m1 e1 n2 m2 e2
     realOf (.fin v.1 v.2.1 v.2.2) = realOf (.fin n1 m1 e1) + realOf (.fin n2 m2 e2) ∧ (v.2.1 = 0 → v.1 = false)) := by
  have hle : (if e1 ≤ e2 then e1 else e2) ≤ e1 ∧ (if e1 ≤ e2 then e1 else e2) ≤ e2 := by split <;> omega
  rw [realOf_at hle.1, realOf_at hle.2, ← add_mul, ← Int.cast_add]
  unfold addFin
  dsimp only
  generalize (if n1 then -((m1 * 2 ^ (e1 - if e1 ≤ e2 then e1 else e2).toNat : Nat) : Int) else _) + _ = x
  split
  · next hx =>
    refine ⟨?_, fun _ => ?_⟩
    · rw [realOf_fin, hx]; cases (if (n1 == n2 && m1 == 0 && m2 == 0) = true then n1 else 0 == 3) <;> simp [signedReal]
    · split
      · next hz => exact h1 (by simp_all)
      · rfl
  · next hx => exact ⟨realOf_ofInt x _, fun h0 => absurd (Int.natAbs_eq_zero.mp h0) hx⟩

/-! ### The sum of a chunk -/

def FVal.isInf : FVal → Bool
  | .inf _ => true
  | _ => false

def FVal.isZero : FVal → Bool
  | .fin _ 0 _ => true
  | _ => false

/-- A product with no value: a NaN, or infinity times zero. -/
def noProduct (p : FVal × FVal) : Bool := p.1.isNan || p.2.isNan || (p.1.isInf && p.2.isZero) || (p.1.isZero && p.2.isInf)

/-- The signs of the infinite products. -/
def infSigns (ps : List (FVal × FVal)) : List Bool := (ps.filter fun p => p.1.isInf || p.2.isInf).map fun p => p.1.neg ^^ p.2.neg

/-- One product more in an exact sum. -/
def addProduct (acc : Bool × Nat × Int) (p : FVal × FVal) : Bool × Nat × Int :=
  match p.1, p.2 with
  | .fin n1 m1 e1, .fin n2 m2 e2 => addFin 0 acc.1 acc.2.1 acc.2.2 (n1 ^^ n2) (m1 * m2) (e1 + e2)
  | _, _ => acc

/-- The sum of a chunk, by the tests for a product with no value and for an infinite one. -/
def sumBy (bad inf : FVal × FVal → Bool) (ps : List (FVal × FVal)) : Nat × BitVec 5 :=
  let infs := (ps.filter inf).map fun p => p.1.neg ^^ p.2.neg
  if ps.any bad || (infs.any id && infs.any fun b => !b) then (fmt32.nanBits, flagNV)
  else
    match infs with
    | n :: _ => fmt32.inf n
    | [] => fmt32.ofFin 0 (ps.foldl addProduct (false, 0, 0))

theorem chunkSum_eq (ps : List (FVal × FVal)) : chunkSum ps =
    if ps.any noProduct || ((infSigns ps).any id && (infSigns ps).any fun b => !b) then (fmt32.nanBits, flagNV)
    else
      match infSigns ps with
      | n :: _ => fmt32.inf n
      | [] => fmt32.ofFin 0 (ps.foldl addProduct (false, 0, 0)) := by
  have hbad : (fun p : FVal × FVal => p.1.isNan || p.2.isNan ||
      (match p.1, p.2 with
       | .inf _, .fin _ 0 _ => true
       | .fin _ 0 _, .inf _ => true
       | _, _ => false)) = noProduct := by
    funext ⟨a, b⟩
    cases a with
    | nan => rfl
    | inf => cases b with
      | fin n m e => cases m <;> rfl
      | _ => rfl
    | fin n m e => cases b with
      | fin n' m' e' => cases m <;> rfl
      | _ => cases m <;> rfl
  have hinf : (fun p : FVal × FVal => match p.1, p.2 with | .inf _, _ => true | _, .inf _ => true | _, _ => false) =
      fun p => p.1.isInf || p.2.isInf := by
    funext ⟨a, b⟩
    cases a <;> cases b <;> rfl
  have hform : chunkSum ps = sumBy (fun p => p.1.isNan || p.2.isNan ||
      (match p.1, p.2 with
       | .inf _, .fin _ 0 _ => true
       | .fin _ 0 _, .inf _ => true
       | _, _ => false)) (fun p => match p.1, p.2 with | .inf _, _ => true | _, .inf _ => true | _, _ => false) ps := rfl
  rw [hform, hbad, hinf]
  rfl

theorem addProduct_exact {acc : Bool × Nat × Int} {p : FVal × FVal} (hacc : acc.2.1 = 0 → acc.1 = false) :
    realOf (.fin (addProduct acc p).1 (addProduct acc p).2.1 (addProduct acc p).2.2) = realOf (.fin acc.1 acc.2.1 acc.2.2) + realOf p.1 * realOf p.2 ∧
      ((addProduct acc p).2.1 = 0 → (addProduct acc p).1 = false) := by
  obtain ⟨a, b⟩ := p
  have hkeep : ∀ x : ℝ, x = 0 → realOf (.fin acc.1 acc.2.1 acc.2.2) = realOf (.fin acc.1 acc.2.1 acc.2.2) + x := fun x hx => by rw [hx, add_zero]
  cases a with
  | fin n1 m1 e1 =>
    cases b with
    | fin n2 m2 e2 =>
      rw [← realOf_product]
      exact addFin_exact hacc
    | _ => exact ⟨hkeep _ (mul_zero _), hacc⟩
  | _ => exact ⟨hkeep _ (zero_mul _), hacc⟩

/-- The exact sum of products, with no negative zero. -/
theorem products_exact (ps : List (FVal × FVal)) {acc : Bool × Nat × Int} (hacc : acc.2.1 = 0 → acc.1 = false) :
    (let v := ps.foldl addProduct acc
     realOf (.fin v.1 v.2.1 v.2.2) = realOf (.fin acc.1 acc.2.1 acc.2.2) + (ps.map fun p => realOf p.1 * realOf p.2).sum ∧ (v.2.1 = 0 → v.1 = false)) := by
  induction ps generalizing acc with
  | nil => simpa using hacc
  | cons p ps ih =>
    obtain ⟨hval, hsign⟩ := addProduct_exact (p := p) hacc
    obtain ⟨hval', hsign'⟩ := ih hsign
    exact ⟨by rw [List.foldl_cons, hval', hval, List.map_cons, List.sum_cons, add_assoc], hsign'⟩

theorem products_stand (ps : List (FVal × FVal)) :
    Stands fmt32 0 ((ps.map fun p => realOf p.1 * realOf p.2).sum) false (fmt32.ofFin 0 (ps.foldl addProduct (false, 0, 0))) := by
  obtain ⟨hval, hsign⟩ := products_exact ps (acc := (false, 0, 0)) fun _ => rfl
  have h := ofFin_stands ieee_fmt32 (ps.foldl addProduct (false, 0, 0)).1 (ps.foldl addProduct (false, 0, 0)).2.1
    (ps.foldl addProduct (false, 0, 0)).2.2 (dir := 0) (by decide)
  have hzero : realOf (.fin false 0 0) = 0 := by simp [realOf]
  rw [hval, hzero, zero_add] at h
  refine stands_zneg h fun h0 => hsign ?_
  rw [hzero, zero_add, h0, realOf] at hval
  by_contra hm
  have hpos : (((ps.foldl addProduct (false, 0, 0)).2.1 : Nat) : ℝ) ≠ 0 := Nat.cast_ne_zero.mpr hm
  have hsgn : (if (ps.foldl addProduct (false, 0, 0)).1 = true then (-1 : ℝ) else 1) ≠ 0 := by split <;> norm_num
  exact mul_ne_zero (mul_ne_zero hsgn hpos) (two_zpow_pos _).ne' hval

/-- R225: what the products (A k, B k) of a chunk give. -/
def ChunkIs (A B : Nat → FVal) (ks : List Nat) (S : Nat × BitVec 5) : Prop :=
  if (ks.any fun k => noProduct (A k, B k)) ∨
      (true ∈ (ks.filter fun k => (A k).isInf || (B k).isInf).map (fun k => (A k).neg ^^ (B k).neg) ∧
        false ∈ (ks.filter fun k => (A k).isInf || (B k).isInf).map (fun k => (A k).neg ^^ (B k).neg)) then S = (0x7FC00000, 0x10#5)
  else
    match (ks.filter fun k => (A k).isInf || (B k).isInf).map (fun k => (A k).neg ^^ (B k).neg) with
    | n :: _ => S = (if n then 0xFF800000 else 0x7F800000, 0#5)
    | [] => Stands fmt32 0 ((ks.map fun k => realOf (A k) * realOf (B k)).sum) false S

/-- The order of the products does not matter. -/
theorem chunkSum_is {A B : Nat → FVal} {ks : List Nat} {ps : List (FVal × FVal)} (h : ps.Perm (ks.map fun k => (A k, B k))) :
    ChunkIs A B ks (chunkSum ps) := by
  have hany : ps.any noProduct = ks.any fun k => noProduct (A k, B k) := by
    rw [h.any_eq, List.any_map]; rfl
  have hsigns : (infSigns ps).Perm ((ks.filter fun k => (A k).isInf || (B k).isInf).map fun k => (A k).neg ^^ (B k).neg) := by
    have := (h.filter fun p => p.1.isInf || p.2.isInf).map fun p => p.1.neg ^^ p.2.neg
    rwa [List.filter_map, List.map_map] at this
  have hsum : (ps.map fun p => realOf p.1 * realOf p.2).sum = (ks.map fun k => realOf (A k) * realOf (B k)).sum := by
    rw [(h.map _).sum_eq, List.map_map]; rfl
  have hstand := products_stand ps
  rw [hsum] at hstand
  rw [ChunkIs, chunkSum_eq, hany]
  generalize (ks.filter fun k => (A k).isInf || (B k).isInf).map (fun k => (A k).neg ^^ (B k).neg) = signs at hsigns
  generalize infSigns ps = infs at hsigns
  have hmixed : (infs.any id && infs.any fun b => !b) = true ↔ true ∈ signs ∧ false ∈ signs := by
    simp [List.any_eq_true, hsigns.mem_iff]
  by_cases hbad : (ks.any fun k => noProduct (A k, B k)) = true ∨ (true ∈ signs ∧ false ∈ signs)
  · rw [if_pos hbad, if_pos (by rw [Bool.or_eq_true, hmixed]; exact hbad)]
    rfl
  · rw [if_neg hbad, if_neg (by rw [Bool.or_eq_true, hmixed]; exact hbad)]
    cases signs with
    | nil =>
      rw [hsigns.eq_nil]
      exact hstand
    | cons n ns =>
      cases infs with
      | nil => exact absurd hsigns.symm.eq_nil (List.cons_ne_nil n ns)
      | cons n' ns' =>
        have hsame : n' = n := by
          have hn' : n' ∈ n :: ns := hsigns.mem_iff.mp List.mem_cons_self
          by_contra hne
          refine hbad (.inr ?_)
          cases n <;> cases n' <;> simp_all
        subst hsame
        cases n' <;> rfl

/-! ### The accumulator -/

theorem accAdd_lt (c sr : Nat) : (accAdd c sr).1 < 2 ^ 32 := by
  have hnan : fmt32.nanBits < 2 ^ 32 := by decide
  have hinf : ∀ n, (fmt32.inf n).1 < 2 ^ 32 := by decide
  have hadd : ∀ a b, (fmt32.add 0 a b).1 < 2 ^ 32 := fun a b => by
    unfold Format.add
    split
    · split
      · exact hinf _
      · exact hnan
    · exact hinf _
    · exact hinf _
    · exact ofFin_lt ieee_fmt32 (by decide) _
    · exact hnan
  unfold accAdd
  dsimp only
  split
  · exact hnan
  · exact hadd _ _

end Sys2Proof.Machine
end

section
/-! SUPPORT. O31: the chunks of MXMUL, one after another (R250, R251). -/
namespace Sys2Proof.Machine

open Sys2Proof.Safety

/-! ### What an operation holds between its chunks (R227) -/

/-- Nothing of R245's RUN has risen. -/
def MxOp.NoStatus (o : MxOp) : Prop := o.raised = [] ∧ o.sum.c = (0, 0, 0, 0)

theorem MxOp.NoStatus.run {o : MxOp} (h : o.NoStatus) : o.sum.run = 0 := by
  have hexc : o.sum.exc = 0 := by rw [MxOp.sum, h.1]; rfl
  rw [MxSum.run, h.2, hexc]; rfl

/-- Elements that raise no flag add nothing to the counts of flags. -/
theorem quiet_chunk (rs : List ((Nat × Nat) × Word × MxSum)) (h : ∀ r ∈ rs, r.2.2.c = (0, 0, 0, 0) ∧ r.2.2.exc = 0) (m : MxSum) (z : Sparse Bool) :
    (rs.foldl (fun (m : MxSum) r => m.add r.2.2) m).c = m.c ∧
    rs.foldl (fun (z : Sparse Bool) r => if r.2.2.exc = 0 then z else Sparse.set false z (128 * r.1.1 + r.1.2) true) z = z := by
  induction rs generalizing m z with
  | nil => exact ⟨rfl, rfl⟩
  | cons r rs ih =>
    obtain ⟨hc, he⟩ := h r List.mem_cons_self
    obtain ⟨ihc, ihz⟩ := ih (fun r hr => h r (List.mem_cons_of_mem _ hr)) (m.add r.2.2) z
    rw [List.foldl_cons, List.foldl_cons, if_pos he]
    exact ⟨ihc.trans (by rw [MxSum.add, hc]; rfl), ihz⟩

theorem noStatus_held (op : MxOp) {m : MxSum} {raised : Sparse Bool} (hc : m.c = (0, 0, 0, 0)) (hz : raised = []) :
    MxOp.NoStatus { op with pos := op.pos + 1, counts := [m.c.1, m.c.2.1, m.c.2.2.1, m.c.2.2.2, m.wrap], raised := raised } :=
  ⟨hz, by rw [hc]; rfl⟩

theorem mxUnit_mul {s : State} {u : Nat} {t : Team} {op : MxOp} {mode a b sel kk tile : Nat} (hk : op.kind = .mul mode a b sel kk tile)
    (ht : s.team u = some t) : s.mxUnit u op =
      ((s.mulUnit u t op mode a b sel kk tile).1, (s.mulUnit u t op mode a b sel kk tile).2, (s.mulUnit u t op mode a b sel kk tile).2.sum) := by
  rw [State.mxUnit, hk, ht]

section
variable (s : State) (u mode a b sel kk : Nat)

/-- The elements of a tile after chunk h. -/
def State.mulWords (t : Team) (tile h : Nat) (x : Nat × Nat) : Word := (s.mulChunk u mode a b sel kk h (t.accAt u tile x.1 x.2) x.1 x.2).1

/-- The elements of a tile after chunk h, each with what it counts. -/
def State.mulParts (t : Team) (tile h : Nat) : List ((Nat × Nat) × Word × MxSum) :=
  tileIx.map fun x => (x, s.mulChunk u mode a b sel kk h (t.accAt u tile x.1 x.2) x.1 x.2)

theorem mulUnit_spec (t : Team) (op : MxOp) (tile : Nat) : ∃ counts raised, s.mulUnit u t op mode a b sel kk tile =
      (s.setTeam u (t.setAcc tile (tileIx.map fun x => (x, s.mulWords u mode a b sel kk t tile op.pos x))),
        { op with pos := op.pos + 1, counts := counts, raised := raised }) ∧
    (mode = 1 → op.NoStatus → MxOp.NoStatus { op with pos := op.pos + 1, counts := counts, raised := raised }) := by
  have hwords : (s.mulParts u mode a b sel kk t tile op.pos).map (fun r => (r.1, r.2.1)) =
      tileIx.map fun x => (x, s.mulWords u mode a b sel kk t tile op.pos x) := by rw [State.mulParts, List.map_map]; rfl
  rw [← hwords]
  refine ⟨_, _, rfl, fun hm hq => ?_⟩
  obtain ⟨hc, hz⟩ := quiet_chunk (s.mulParts u mode a b sel kk t tile op.pos) (fun r hr => by
    obtain ⟨x, -, rfl⟩ := List.mem_map.mp hr
    dsimp only
    rw [State.mulChunk, if_pos hm]
    exact ⟨rfl, rfl⟩) op.sum op.raised
  exact noStatus_held op (hc.trans hq.2) (hz.trans hq.1)

/-- An element of the tile after d chunks from chunk `pos`. -/
def State.mulFrom (i j pos : Nat) (c0 : Word) : Nat → Word
  | 0 => c0
  | d + 1 => (s.mulChunk u mode a b sel kk (pos + d) (State.mulFrom i j pos c0 d) i j).1

end

/-! ### The states between the chunks (R250) -/

/-- The state after d chunks of team u's MXMUL at the head of its core's queue. -/
structure MulAt (s : State) (u : Nat) (t : Team) (op : MxOp) (rest : List MxOp) (mode a b sel kk tile d : Nat) (s' : State) (t' : Team) (op' : MxOp) :
    Prop where
  head : AtHead s' u t' op' rest
  mem : s'.mem = s.mem
  others : ∀ v, v ≠ u → s'.team v = s.team v
  same : t' = { t with acc := t'.acc }
  held : op' = { op with pos := op.pos + d, counts := op'.counts, raised := op'.raised }
  acc : ∀ tl i j, i < 128 → j < 128 → t'.accAt u tl i j =
    if tl = tile then s.mulFrom u mode a b sel kk i j op.pos (t.accAt u tile i j) d else t.accAt u tl i j
  noStatus : mode = 1 → op.NoStatus → op'.NoStatus

theorem mulAt_start {s : State} {u : Nat} {t : Team} {op : MxOp} {rest : List MxOp} (h : AtHead s u t op rest) (mode a b sel kk tile : Nat) :
    MulAt s u t op rest mode a b sel kk tile 0 s t op :=
  ⟨h, rfl, fun _ _ => rfl, rfl, rfl, fun tl i j _ _ => by
    by_cases htl : tl = tile
    · rw [if_pos htl, htl]; rfl
    · rw [if_neg htl], fun _ h => h⟩

section
variable {s : State} {u : Nat} {t : Team} {op : MxOp} {rest : List MxOp} {mode a b sel kk tile d : Nat} {s' : State} {t' : Team} {op' : MxOp}
  (ht : s.team u = some t) (h : MulAt s u t op rest mode a b sel kk tile d s' t' op')
include h

theorem MulAt.kind : op'.kind = op.kind := by rw [h.held]

theorem MulAt.pos : op'.pos = op.pos + d := by rw [h.held]

include ht

theorem MulAt.scrNat_same (y n : Nat) : s'.scrNat u y n = s.scrNat u y n := by
  rw [State.scrNat, State.scrNat, readScratch_own s' u t' y n h.head.team, readScratch_own s u t y n ht, h.same]
  rfl

/-- A chunk reads what the first one reads: only accumulators have changed. -/
theorem MulAt.mulChunk_same (q i j : Nat) (c0 : Word) : s'.mulChunk u mode a b sel kk q c0 i j = s.mulChunk u mode a b sel kk q c0 i j := by
  have hread : s'.scrNat u = s.scrNat u := funext fun y => funext fun n => h.scrNat_same ht y n
  unfold State.mulChunk State.s8Chunk State.bfChunk State.spChunk
  rw [hread]

variable (hk : op.kind = .mul mode a b sel kk tile)
include hk

/-- One chunk more. -/
theorem MulAt.unit : ∃ t2 op2, s'.mxUnit u op' = (s'.setTeam u t2, op2, op2.sum) ∧ t2 = { t with acc := t2.acc } ∧
    op2 = { op with pos := op.pos + (d + 1), counts := op2.counts, raised := op2.raised } ∧ (mode = 1 → op.NoStatus → op2.NoStatus) ∧
    ∀ tl i j, i < 128 → j < 128 → t2.accAt u tl i j =
      if tl = tile then s.mulFrom u mode a b sel kk i j op.pos (t.accAt u tile i j) (d + 1) else t.accAt u tl i j := by
  obtain ⟨counts, raised, hunit, hquiet⟩ := mulUnit_spec s' u mode a b sel kk t' op' tile
  refine ⟨t'.setAcc tile (tileIx.map fun x => (x, s'.mulWords u mode a b sel kk t' tile op'.pos x)),
    { op' with pos := op'.pos + 1, counts := counts, raised := raised }, ?_, ?_, ?_,
    fun hm hq => hquiet hm (h.noStatus hm hq), fun tl i j hi hj => ?_⟩
  · rw [mxUnit_mul (h.kind.trans hk) h.head.team, hunit]
  · rw [setAcc_frame, h.same]
  · rw [h.held]; rfl
  · rw [accAt_setAcc t' u tile _ tl hi hj, State.mulWords, h.mulChunk_same ht, h.acc tile i j hi hj, if_pos rfl, h.pos, h.acc tl i j hi hj]
    by_cases htl : tl = tile
    · rw [if_pos htl, if_pos htl]; rfl
    · rw [if_neg htl, if_neg htl, if_neg htl]

/-- A chunk that is not the last. -/
theorem MulAt.next (hpos : op.pos + d + 1 < op.kind.chunks) : ∃ t1 op1, MulAt s u t op rest mode a b sel kk tile (d + 1) (s'.matrixCompletion u) t1 op1 := by
  obtain ⟨t2, op2, hunit, hsame, hheld, hquiet, hacc⟩ := h.unit ht hk
  have hstep := completion_chunk h.head hunit (by rw [h.kind, h.pos]; exact hpos)
  obtain ⟨hstop, hending⟩ := (stopAsked_iff h.head.team).mp h.head.free
  have hcore : t2.core = t'.core ∧ t2.stopping = t'.stopping ∧ t2.task = t'.task := by rw [hsame, h.same]; exact ⟨rfl, rfl, rfl⟩
  obtain ⟨hcore, hstopping, htask⟩ := hcore
  rw [hstep]
  refine ⟨t2, op2, ⟨State.team_setTeam_same .., ?_, ?_, ?_, ?_, h.head.quiet⟩, h.mem, fun v hv => ?_, hsame, hheld, hacc, hquiet⟩
  · rw [hcore]
    exact Sparse.get_set_same [] (op2 :: rest) _ t'.core
  · have := h.head.mine
    rw [h.held] at this
    rw [hheld]
    exact this
  · exact (stopAsked_iff (State.team_setTeam_same ..)).mpr ⟨hstopping.trans hstop, by rw [htask]; exact hending⟩
  · rw [hcore]; exact h.head.cycle
  · exact ((oneTeam_setTeam s' u _).others v hv).trans (h.others v hv)

/-- The last chunk, and the completion. -/
theorem MulAt.last (hpos : op.pos + d + 1 = op.kind.chunks) : ∃ t2 op2 s3 t3, Completes s' u t' t2 op' rest (MxOp.sum op2).run s3 t3 ∧
    (mode = 1 → op.NoStatus → op2.NoStatus) ∧ (∀ y, t2.byte u y = t.byte u y) ∧
    ∀ tl i j, i < 128 → j < 128 → t3.accAt u tl i j =
      if tl = tile then s.mulFrom u mode a b sel kk i j op.pos (t.accAt u tile i j) (d + 1) else t.accAt u tl i j := by
  obtain ⟨t2, op2, hunit, hsame, -, hquiet, hacc⟩ := h.unit ht hk
  obtain ⟨s3, t3, hc⟩ := completion_last h.head hunit (by rw [h.kind, h.pos, hpos]; omega) (oneTeam_setTeam ..) (State.team_setTeam_same ..)
  refine ⟨t2, op2, s3, t3, hc, hquiet, fun y => ?_, fun tl i j hi hj => (accAt_of_acc hc.acc ..).trans (hacc tl i j hi hj)⟩
  rw [hsame]
  rfl

end

end Sys2Proof.Machine
end

section
/-! SUPPORT. O31: the accumulators after chunks of MXMUL (R225, R226, R248). -/
namespace Sys2Proof.Machine

open Sys2Proof.Safety

/-! ### INT8 (R226) -/

theorem foldl_add_eq {α : Type} (F : α → Int) (l : List α) (c : Int) : l.foldl (fun t x => t + F x) c = c + (l.map F).sum := by
  induction l generalizing c with
  | nil => simp
  | cons x l ih => rw [List.foldl_cons, ih, List.map_cons, List.sum_cons, add_assoc]

theorem sextInt_eq_toInt {v : Nat} (h : v < 256) : sextInt v 8 = (BitVec.ofNat 8 v).toInt := by
  rw [sextInt_of_lt (by decide) (by omega), BitVec.toInt_ofNat', Int.bmod_def]
  split <;> split <;> omega

/-- A sum over m + n numbers, in two parts. -/
theorem sum_range_add (F : Nat → Int) (m n : Nat) :
    ((List.range (m + n)).map F).sum = ((List.range m).map F).sum + ((List.range n).map fun x => F (m + x)).sum := by
  rw [List.range_add, List.map_append, List.sum_append, List.map_map]; rfl

/-- The numbers from m up. -/
theorem filter_range_from (F : Nat → Int) (m n : Nat) :
    (((List.range (m + n)).filter fun k => m ≤ k).map F).sum = ((List.range n).map fun x => F (m + x)).sum := by
  have hlow : (List.range m).filter (fun k => m ≤ k) = [] := List.filter_eq_nil_iff.mpr fun k hk => by
    have := List.mem_range.mp hk; simpa using this
  have hhigh : ((List.range n).map (m + ·)).filter (fun k => m ≤ k) = (List.range n).map (m + ·) := List.filter_eq_self.mpr fun k hk => by
    obtain ⟨x, -, rfl⟩ := List.mem_map.mp hk; simp
  rw [List.range_add, List.filter_append, hlow, hhigh, List.nil_append, List.map_map]; rfl

section
variable (s : State) (u a b sel kk i j pos : Nat) (c0 : Word)

/-- The product of an INT8 element and its partner. -/
def State.byteProduct (k : Nat) : Int := sextInt (s.scrNat u (a + kk * i + k) 1) 8 * sextInt (s.scrNat u (b + 128 * k + j) 1) 8

theorem s8Chunk_eq (h : Nat) : (s.s8Chunk u a b kk i j h c0).1 =
    BitVec.ofInt 32 (c0.toInt + ((List.range 64).map fun x => s.byteProduct u a b kk i j (64 * h + x)).sum) := by
  rw [State.s8Chunk]
  dsimp only
  rw [foldl_add_eq]
  simp only [State.byteProduct, Nat.add_assoc]

theorem mulFrom_int8 (d : Nat) : s.mulFrom u 1 a b sel kk i j pos c0 d =
    BitVec.ofInt 32 (c0.toInt + ((List.range (64 * d)).map fun x => s.byteProduct u a b kk i j (64 * pos + x)).sum) := by
  induction d with
  | zero => simp [State.mulFrom]
  | succ d ih =>
    rw [State.mulFrom, State.mulChunk, if_pos rfl, s8Chunk_eq, ih, Nat.mul_succ, sum_range_add, ← add_assoc, BitVec.ofInt_add, BitVec.ofInt_toInt,
      ← BitVec.ofInt_add]
    simp only [Nat.mul_add, Nat.add_assoc]

theorem mulFrom_int8_total {d : Nat} (hK : 64 * pos + 64 * d = kk) (hread : ∀ y, s.scrNat u y 1 < 256) : s.mulFrom u 1 a b sel kk i j pos c0 d =
    BitVec.ofInt 32 (c0.toInt + (((List.range kk).filter fun k => 64 * pos ≤ k).map fun k =>
      (BitVec.ofNat 8 (s.scrNat u (a + kk * i + k) 1)).toInt * (BitVec.ofNat 8 (s.scrNat u (b + 128 * k + j) 1)).toInt).sum) := by
  have hproduct : (fun k => (BitVec.ofNat 8 (s.scrNat u (a + kk * i + k) 1)).toInt * (BitVec.ofNat 8 (s.scrNat u (b + 128 * k + j) 1)).toInt) =
      s.byteProduct u a b kk i j := funext fun k => by
    rw [State.byteProduct, sextInt_eq_toInt (hread _), sextInt_eq_toInt (hread _)]
  have hsum := filter_range_from (s.byteProduct u a b kk i j) (64 * pos) (64 * d)
  rw [hK] at hsum
  rw [mulFrom_int8, hproduct, hsum]

end

/-! ### BF16, dense and 2:4 sparse (R225, R248, R252) -/

section
variable (s : State) (u mode a b sel kk i j : Nat)

/-- BF16 element k of row i of A. -/
def State.mulA (k : Nat) : FVal :=
  if mode = 0 then fmtB16.decode (s.scrNat u (a + 2 * kk * i + 2 * k) 2)
  else if k % 4 = s.scrNat u (sel + kk / 8 * i + k / 8) 1 / 16 ^ (k / 4 % 2) % 16 % 4 then fmtB16.decode (s.scrNat u (a + kk * i + 4 * (k / 4)) 2)
  else if k % 4 = s.scrNat u (sel + kk / 8 * i + k / 8) 1 / 16 ^ (k / 4 % 2) % 16 / 4 then fmtB16.decode (s.scrNat u (a + kk * i + 4 * (k / 4) + 2) 2)
  else FVal.fin false 0 0

/-- BF16 element k of column j of B. -/
def State.mulB (k : Nat) : FVal := fmtB16.decode (s.scrNat u (b + 256 * k + 2 * j) 2)

theorem bfChunk_eq (q : Nat) : s.bfChunk u a b kk i j q =
    ((List.range 32).map fun k => 32 * q + k).map fun k => (s.mulA u 0 a sel kk i k, s.mulB u b j k) := by
  rw [List.map_map]
  rfl

/-- The four places of a group: the two kept ones, and the others. -/
theorem kept_perm {lo hi : Nat} (h : lo < hi) (h4 : hi < 4) : (lo :: hi :: (List.range 4).filter fun q => q ≠ lo && q ≠ hi).Perm (List.range 4) := by
  interval_cases hi <;> interval_cases lo <;> decide

/-- The products of a chunk of a sparse operation, in some order. -/
theorem spChunk_perm {q : Nat} (hsel : ∀ k, k < 64 * (q + 1) →
      s.scrNat u (sel + kk / 8 * i + k / 8) 1 / 16 ^ (k / 4 % 2) % 16 % 4 < s.scrNat u (sel + kk / 8 * i + k / 8) 1 / 16 ^ (k / 4 % 2) % 16 / 4) :
    (s.spChunk u a b sel kk i j q).Perm (((List.range 64).map fun k => 64 * q + k).map fun k => (s.mulA u 2 a sel kk i k, s.mulB u b j k)) := by
  have hsplit : List.range 64 = (List.range 16).flatMap fun x => (List.range 4).map fun y => 4 * x + y := by decide
  rw [hsplit, List.map_map, List.map_flatMap, State.spChunk]
  refine List.Perm.flatMap_left _ fun x hx => ?_
  have hx := List.mem_range.mp hx
  have hlt := hsel (4 * (16 * q + x)) (by omega)
  have h8 : ∀ y, y < 4 → (64 * q + (4 * x + y)) / 8 = (16 * q + x) / 2 := fun y _ => by omega
  have h4 : ∀ y, y < 4 → (64 * q + (4 * x + y)) / 4 = 16 * q + x := fun y _ => by omega
  have hm : ∀ y, y < 4 → (64 * q + (4 * x + y)) % 4 = y := fun y _ => by omega
  rw [show 4 * (16 * q + x) / 8 = (16 * q + x) / 2 by omega, show 4 * (16 * q + x) / 4 = 16 * q + x by omega] at hlt
  dsimp only
  generalize hnib : s.scrNat u (sel + kk / 8 * i + (16 * q + x) / 2) 1 / 16 ^ ((16 * q + x) % 2) % 16 = nib at hlt
  have hhi : nib / 4 < 4 := by omega
  have hpair : ∀ y, y < 4 → (s.mulA u 2 a sel kk i (64 * q + (4 * x + y)), s.mulB u b j (64 * q + (4 * x + y))) =
      (if y = nib % 4 then fmtB16.decode (s.scrNat u (a + kk * i + 4 * (16 * q + x)) 2)
        else if y = nib / 4 then fmtB16.decode (s.scrNat u (a + kk * i + 4 * (16 * q + x) + 2) 2) else FVal.fin false 0 0,
        fmtB16.decode (s.scrNat u (b + 256 * (4 * (16 * q + x) + y) + 2 * j) 2)) := fun y hy => by
    rw [State.mulA, State.mulB, if_neg (by decide), h8 y hy, h4 y hy, hm y hy, hnib, show 64 * q + (4 * x + y) = 4 * (16 * q + x) + y by ring]
  refine List.Perm.trans (.of_eq ?_) ((kept_perm hlt hhi).map fun y => (s.mulA u 2 a sel kk i (64 * q + (4 * x + y)), s.mulB u b j (64 * q + (4 * x + y))))
  rw [List.map_cons, List.map_cons, hpair _ (by omega), hpair _ hhi, if_pos rfl, if_neg (by omega), if_pos rfl,
    show 2 * (2 * (16 * q + x) + 0) = 4 * (16 * q + x) by omega, show 2 * (2 * (16 * q + x) + 1) = 4 * (16 * q + x) + 2 by omega, ← Nat.add_assoc (a + kk * i)]
  congr 2
  refine List.map_congr_left fun y hy => ?_
  simp only [List.mem_filter, List.mem_range, Bool.and_eq_true, decide_eq_true_iff, ne_eq] at hy
  rw [hpair y hy.1, if_neg hy.2.1, if_neg hy.2.2]

/-- The sum of chunk q of a BF16 operation. -/
def State.mulSum (q : Nat) : Nat × BitVec 5 := chunkSum (if mode = 0 then s.bfChunk u a b kk i j q else s.spChunk u a b sel kk i j q)

theorem mulFrom_float (hm : mode ≠ 1) (pos d : Nat) (c0 : Word) : (s.mulFrom u mode a b sel kk i j pos c0 (d + 1)).toNat =
    (accAdd (s.mulFrom u mode a b sel kk i j pos c0 d).toNat (s.mulSum u mode a b sel kk i j (pos + d)).1).1 := by
  rw [State.mulFrom, State.mulChunk, if_neg hm]
  dsimp only
  rw [BitVec.toNat_ofNat]
  exact Nat.mod_eq_of_lt (accAdd_lt ..)

/-- R225: a chunk of a dense or of a sparse operation. -/
theorem mulSum_is (hm : mode = 0 ∨ mode = 2) {q : Nat} (hsel : mode = 2 → ∀ k, k < 64 * (q + 1) →
      s.scrNat u (sel + kk / 8 * i + k / 8) 1 / 16 ^ (k / 4 % 2) % 16 % 4 < s.scrNat u (sel + kk / 8 * i + k / 8) 1 / 16 ^ (k / 4 % 2) % 16 / 4) :
    ChunkIs (s.mulA u mode a sel kk i) (s.mulB u b j) ((List.range (if mode = 0 then 32 else 64)).map fun k => (if mode = 0 then 32 else 64) * q + k)
      (s.mulSum u mode a b sel kk i j q) := by
  rcases hm with rfl | rfl
  · exact chunkSum_is (.of_eq (bfChunk_eq s u a b sel kk i j q))
  · exact chunkSum_is (spChunk_perm s u a b sel kk i j (hsel rfl))

/-- The accumulators chunk by chunk. -/
theorem mulFrom_chunks (hm : mode ≠ 1) (pos : Nat) (c0 : Word) : ∃ C : Nat → Nat, C pos = c0.toNat ∧
    (∀ d, (s.mulFrom u mode a b sel kk i j pos c0 d).toNat = C (pos + d)) ∧
    ∀ q, pos ≤ q → C (q + 1) = (accAdd (C q) (s.mulSum u mode a b sel kk i j q).1).1 := by
  refine ⟨fun q => (s.mulFrom u mode a b sel kk i j pos c0 (q - pos)).toNat, ?_, fun d => ?_, fun q hq => ?_⟩
  · dsimp only
    rw [Nat.sub_self]; rfl
  · dsimp only
    rw [Nat.add_sub_cancel_left]
  · dsimp only
    rw [show q + 1 - pos = (q - pos) + 1 by omega, mulFrom_float s u mode a b sel kk i j hm, Nat.add_sub_cancel' hq]

end

end Sys2Proof.Machine
end

section
/-! SUPPORT. O31: MatrixResults (R225, R226, R248, R250 to R252, R409). -/
namespace Sys2Proof.Machine

open Sys2Proof.Safety

/-- What holds after the last unit, of an operation that ran through the states `chain`. -/
def Ends (s : State) (u : Nat) (t : Team) (op : MxOp) (rest : List MxOp) (last : State) (P : Team → Nat → Prop) : Prop :=
  ∃ (s3 : State) (run : Nat), exec (.matrixCompletion u) last = .next (s3.afterMx u op run) ∧ s3.mem = s.mem ∧ Sparse.get [] s3.mx t.core = rest ∧
    (∀ v, v ≠ u → s3.team v = s.team v) ∧ ∃ t3 : Team, s3.team u = some t3 ∧ Sparse.get false t3.full (op.bar / 16 + 1) = true ∧ P t3 run

theorem Completes.ends {s s3 : State} {u run : Nat} {t t2 t3 : Team} {op : MxOp} {rest : List MxOp} {P : Team → Nat → Prop}
    (hc : Completes s u t t2 op rest run s3 t3) (hP : P t3 run) : Ends s u t op rest s P :=
  ⟨s3, run, congrArg Host.Outcome.next hc.step, hc.mem, hc.queue, hc.others, t3, hc.team, hc.full, hP⟩

/-- A group of MXSEL24, by its nibble and its two values. -/
theorem sel24_keeps {s : State} {u : Nat} {t : Team} (ht : s.team u = some t) {src kk i k nib v w : Nat} (hnib : nib = s.selNib u src kk i k)
    (hv : v = (s.selGroup u src kk i k).getD (keepTwo (s.selGroup u src kk i k)).1 0 % 256 ^ 2)
    (hw : w = (s.selGroup u src kk i k).getD (keepTwo (s.selGroup u src kk i k)).2 0 % 256 ^ 2) :
    (let x := fun q => leNat (s.readScratch u (src + 2 * kk * i + 2 * (4 * k + q)) 2)
     nib % 4 < nib / 4 ∧ v = x (nib % 4) ∧ w = x (nib / 4) ∧
      ∀ q, q < 4 → q ≠ nib % 4 → q ≠ nib / 4 → ∀ p, p = nib % 4 ∨ p = nib / 4 → Ranks (fun q => pruneRank (x q)) p q) := by
  obtain ⟨hlo, hhi⟩ := selNib_split (s := s) (u := u) (src := src) (kk := kk) i k
  have hkeep := keepTwo_keeps (s.selGroup u src kk i k)
  have hlt := hkeep.lt
  have hfour := hkeep.four
  rw [hnib, hlo, hhi, hv, hw, getD_selGroup i k hfour, getD_selGroup i k (hlt.trans hfour)]
  refine ⟨hlt, Nat.mod_eq_of_lt (scrNat_lt ht _ 2), Nat.mod_eq_of_lt (scrNat_lt ht _ 2), fun q hq h1 h2 p hp => ?_⟩
  have hbest := hkeep.best q hq h1 h2 p hp
  have hp4 : p < 4 := by omega
  rwa [Ranks, getD_selGroup i k hq, getD_selGroup i k hp4] at hbest

/-- The completion of a MXMUL. -/
theorem MulAt.ends {s s' s3 : State} {u : Nat} {t t' t2 t3 : Team} {op op' : MxOp} {rest : List MxOp} {mode a b sel kk tile d run : Nat}
    {P : Team → Nat → Prop} (h : MulAt s u t op rest mode a b sel kk tile d s' t' op') (hc : Completes s' u t' t2 op' rest run s3 t3) (hP : P t3 run) :
    Ends s u t op rest s' P := by
  have hcore : t'.core = t.core := by rw [h.same]
  have hbar : op'.bar = op.bar := by rw [h.held]
  have hbound : op'.bound = op.bound := by rw [h.held]
  refine ⟨s3, run, ?_, hc.mem.trans h.mem, hcore ▸ hc.queue, fun v hv => (hc.others v hv).trans (h.others v hv), t3, hc.team, hbar ▸ hc.full, hP⟩
  have hafter : s3.afterMx u op' run = s3.afterMx u op run := by rw [State.afterMx, State.afterMx, hbar, hbound]
  exact congrArg Host.Outcome.next (hc.step.trans hafter)

theorem chunks_mul {mode a b sel K tile w : Nat} (hw : w = if mode = 0 then 32 else 64) (hpos : 0 < w) (hK : w ≤ K) :
    (MxKind.mul mode a b sel K tile).chunks = K / w := by
  show Nat.max 1 (K / if mode = 0 then 32 else 64) = K / w
  rw [← hw]
  exact Nat.max_eq_right (Nat.div_pos hK hpos)

theorem noStatus_start {op : MxOp} (hc : op.counts = []) (hr : op.raised = []) : op.NoStatus := ⟨hr, by rw [MxOp.sum, hc]; rfl⟩

/-- The states of a MXMUL before chunk q, from chunk `pos`. -/
def State.mulChain (s : State) (u pos q : Nat) : State := (fun s => s.matrixCompletion u)^[q - pos] s

theorem mulChain_start (s : State) (u pos : Nat) : s.mulChain u pos pos = s := by
  rw [State.mulChain, Nat.sub_self]; rfl

theorem mulChain_succ (s : State) (u : Nat) {pos q : Nat} (h : pos ≤ q) : s.mulChain u pos (q + 1) = (s.mulChain u pos q).matrixCompletion u := by
  rw [State.mulChain, show q + 1 - pos = (q - pos) + 1 by omega, Function.iterate_succ_apply']
  rfl

section
variable {s : State} {u : Nat} {t : Team} {op : MxOp} {rest : List MxOp} (h : AtHead s u t op rest) {mode a b sel kk tile : Nat}
  (hk : op.kind = .mul mode a b sel kk tile)
include h hk

theorem mulAt_chain {q : Nat} (hle : op.pos ≤ q) (hlt : q < op.kind.chunks) :
    ∃ t' op', MulAt s u t op rest mode a b sel kk tile (q - op.pos) (s.mulChain u op.pos q) t' op' := by
  induction q, hle using Nat.le_induction with
  | base => exact ⟨t, op, by rw [mulChain_start, Nat.sub_self]; exact mulAt_start h ..⟩
  | succ q hle ih =>
    obtain ⟨t', op', hat⟩ := ih (by omega)
    rw [mulChain_succ s u hle, show q + 1 - op.pos = (q - op.pos) + 1 by omega]
    exact hat.next h.team hk (by omega)

/-- A state between two chunks. -/
theorem mulChain_between {q : Nat} (hle : op.pos ≤ q) (hlt : q + 1 < op.kind.chunks) :
    exec (.matrixCompletion u) (s.mulChain u op.pos q) = .next (s.mulChain u op.pos (q + 1)) ∧ (s.mulChain u op.pos (q + 1)).mem = s.mem ∧
    (∀ v, v ≠ u → (s.mulChain u op.pos (q + 1)).team v = s.team v) ∧
    (∃ t1, (s.mulChain u op.pos (q + 1)).team u = some t1 ∧ t1 = { t with acc := t1.acc }) ∧
    ∃ o1, Sparse.get [] (s.mulChain u op.pos (q + 1)).mx t.core = o1 :: rest ∧ o1 = { op with pos := q + 1, counts := o1.counts, raised := o1.raised } := by
  obtain ⟨t1, o1, hat⟩ := mulAt_chain h hk (q := q + 1) (by omega) hlt
  have hcore : t1.core = t.core := by rw [hat.same]
  have hheld := hat.held
  rw [Nat.add_sub_cancel' (by omega : op.pos ≤ q + 1)] at hheld
  exact ⟨congrArg Host.Outcome.next (mulChain_succ s u hle).symm, hat.mem, hat.others, ⟨t1, hat.head.team, hat.same⟩, o1, hcore ▸ hat.head.queue, hheld⟩

/-- The last chunk. -/
theorem mulChain_ends (hpos : op.pos < op.kind.chunks) : ∃ run t3,
    (∀ P : Team → Nat → Prop, P t3 run → Ends s u t op rest (s.mulChain u op.pos (op.kind.chunks - 1)) P) ∧
    (mode = 1 → op.NoStatus → run = 0) ∧ (∀ y, ¬ (op.bar + 16 ≤ y ∧ y < op.bar + 32) → t3.byte u y = t.byte u y) ∧
    ∀ tl i j, i < 128 → j < 128 → t3.accAt u tl i j =
      if tl = tile then s.mulFrom u mode a b sel kk i j op.pos (t.accAt u tile i j) (op.kind.chunks - op.pos) else t.accAt u tl i j := by
  obtain ⟨t', op', hat⟩ := mulAt_chain h hk (q := op.kind.chunks - 1) (by omega) (by omega)
  obtain ⟨t2, op2, s3, t3, hc, hquiet, hbyte, hacc⟩ := hat.last h.team hk (by omega)
  have hbar : op'.bar = op.bar := by rw [hat.held]
  refine ⟨_, t3, fun P hP => hat.ends hc hP, fun hm hq => (hquiet hm hq).run, fun y hy => (hc.byte y (by rw [hbar]; exact hy)).trans (hbyte y), ?_⟩
  rwa [show op.kind.chunks - 1 - op.pos + 1 = op.kind.chunks - op.pos by omega] at hacc

end

/-- Settles O31: one unit writes its tile or its bytes; a MXMUL goes through the states that `mulAt_chain` describes, and its last chunk
completes like a single unit. -/
theorem matrixResults : Obligations.MatrixResults := by
  intro s u t op rest ht hq hmx hteam hstop hend hcyc chunks hpos
  have h : AtHead s u t op rest := ⟨ht, hmx, hteam, (stopAsked_iff ht).mpr ⟨hstop, hend⟩, hcyc, hq⟩
  obtain ⟨id, team, kind, bar, bound, pos, counts, raised⟩ := op
  cases kind with
  | zero tile =>
    refine ⟨fun _ => s, rfl, fun q _ hlt => (Nat.not_lt.mpr (Nat.le_add_left 1 q) hlt).elim, ?_⟩
    obtain ⟨s3, t3, hc, hkept, hacc⟩ := tile_completes h (fun _ _ _ _ _ _ => MxKind.noConfusion) (tile := tile) (f := fun _ => 0) (by rw [State.runMx, ht])
    refine hc.ends fun hbar => ⟨rfl, fun y hy _ => hkept y hy, fun tl i j htl hi hj => ?_, fun i j hi hj => ?_⟩
    · exact (hacc tl i j hi hj).trans (if_neg htl)
    · exact (hacc tile i j hi hj).trans (if_pos rfl)
  | load tile src =>
    refine ⟨fun _ => s, rfl, fun q _ hlt => (Nat.not_lt.mpr (Nat.le_add_left 1 q) hlt).elim, ?_⟩
    obtain ⟨s3, t3, hc, hkept, hacc⟩ := tile_completes h (fun _ _ _ _ _ _ => MxKind.noConfusion) (tile := tile)
      (f := fun x => BitVec.ofNat 32 (s.scrNat u (src + 4 * (128 * x.1 + x.2)) 4)) (by rw [State.runMx, ht])
    refine hc.ends fun hbar => ⟨rfl, fun y hy _ => hkept y hy, fun tl i j htl hi hj => ?_, fun i j hi hj => ?_⟩
    · exact (hacc tl i j hi hj).trans (if_neg htl)
    · refine (congrArg BitVec.toNat ((hacc tile i j hi hj).trans (if_pos rfl))).trans ?_
      rw [BitVec.toNat_ofNat]
      exact Nat.mod_eq_of_lt (scrNat_lt ht _ 4)
  | store bf tile dst =>
    refine ⟨fun _ => s, rfl, fun q _ hlt => (Nat.not_lt.mpr (Nat.le_add_left 1 q) hlt).elim, ?_⟩
    cases bf with
    | false =>
      obtain ⟨s3, t2, t3, hc, hacc, hkept, hnew⟩ := store_completes h (fun _ _ _ _ _ _ => MxKind.noConfusion) (dst := dst) (w := 4)
        (v := fun x => (t.accAt u tile x.1 x.2).toNat) (sum := {}) (by rw [State.runMx, ht])
      refine hc.ends fun hbar => ⟨hacc, hkept, fun hfar i j hi hj => ?_⟩
      exact (hnew hfar i j hi hj).trans (Nat.mod_eq_of_lt (t.accAt u tile i j).isLt)
    | true =>
      obtain ⟨s3, t2, t3, hc, hacc, hkept, hnew⟩ := store_completes h (fun _ _ _ _ _ _ => MxKind.noConfusion) (dst := dst) (w := 2)
        (v := fun x => (toBf16 (t.accAt u tile x.1 x.2).toNat).1) (sum := _) (by
          rw [State.runMx, ht]
          dsimp only
          rw [List.flatMap_map])
      refine hc.ends fun hbar => ⟨hacc, hkept, fun hfar i j hi hj => ?_⟩
      obtain ⟨hlt, hval⟩ := toBf16_spec (t.accAt u tile i j).toNat
      have hbits := (hnew hfar i j hi hj).trans (Nat.mod_eq_of_lt hlt)
      rw [← hbits] at hval
      exact hval
  | sel24 src rows K vals sels =>
    refine ⟨fun _ => s, rfl, fun q _ hlt => (Nat.not_lt.mpr (Nat.le_add_left 1 q) hlt).elim, ?_⟩
    obtain ⟨s3, t2, t3, hc, hacc, hbyte⟩ := sel24_completes h rfl
    refine hc.ends fun hbar => ⟨rfl, hacc, fun y hy hout => ?_, fun hK hord hfar i k hi hk => ?_⟩
    · have hle : 4 * (K / 4) * rows ≤ K * rows := Nat.mul_le_mul_right rows (by omega)
      rw [hbyte y hy, if_neg (by omega), if_neg (by omega)]
    · obtain ⟨hnib, hlo, hhi⟩ := sel24_group hbyte hK hord hfar hi hk
      exact sel24_keeps ht hnib hlo hhi
  | mul mode a b sel K tile =>
    obtain ⟨run, t3, hends, hrun, hkept, hacc⟩ := mulChain_ends h rfl hpos
    refine ⟨s.mulChain u pos, mulChain_start .., fun q hle hlt => mulChain_between h rfl hle hlt, hends _ fun hbar => ⟨fun y hy _ => hkept y hy,
      fun tl i j htl hi hj => (hacc tl i j hi hj).trans (if_neg htl), fun i j hi hj => ?_⟩⟩
    have hword := (hacc tile i j hi hj).trans (if_pos rfl)
    refine ⟨fun hm hK64 hK => ?_, fun hm => ?_⟩
    · subst hm
      have hn : (MxKind.mul 1 a b sel K tile).chunks = K / 64 := chunks_mul (w := 64) rfl (by omega) hK
      have hlt : pos < K / 64 := hn ▸ hpos
      refine ⟨fun hcounts hraised => hrun rfl (noStatus_start hcounts hraised), hword.trans ?_⟩
      exact mulFrom_int8_total s u a b sel K i j pos _ (by show 64 * pos + 64 * ((MxKind.mul 1 a b sel K tile).chunks - pos) = K; rw [hn]; omega)
        fun y => scrNat_lt ht y 1
    · intro chunk bf nib A B hmul hK hsel
      have hn : (MxKind.mul mode a b sel K tile).chunks = K / chunk := chunks_mul (w := chunk) rfl (by show 0 < if mode = 0 then 32 else 64; split <;> decide) hK
      obtain ⟨C, hstart, hC, hstep⟩ := mulFrom_chunks s u mode a b sel K i j (by omega) pos (t.accAt u tile i j)
      refine ⟨C, s.mulSum u mode a b sel K i j, hstart, ?_, fun q hle hlt => ⟨hstep q hle, ?_⟩⟩
      · have hend := (congrArg BitVec.toNat hword).trans (hC _)
        rwa [show pos + ((MxKind.mul mode a b sel K tile).chunks - pos) = K / chunk by rw [← hn]; exact Nat.add_sub_cancel' hpos.le] at hend
      · exact mulSum_is s u mode a b sel K i j hm fun hm2 k hk => hsel hm2 k (by
          have hchunk : chunk = 64 := if_neg (by omega)
          rw [hchunk] at hlt
          omega)

end Sys2Proof.Machine
end
